-- ==== Sys2Proof/Word.lean ====
section
/-! DEFINITION. Word.lean: the word types of the block's registers, packets and data (00 R3, R6). -/
namespace Sys2Proof

/-- One byte of data. -/
abbrev Byte := BitVec 8
/-- One 32-bit register or packet word (R6). -/
abbrev Word := BitVec 32
/-- One 64-bit value: an address operand, a GTA or a counter. -/
abbrev DWord := BitVec 64

end Sys2Proof
end

