-- ==== Sys2Proof/Syntax.lean ====
section
/-! DEFINITION. Syntax.lean: the commands and events of the block, one constructor for each row of the opcode table,
with the operands that the row's own rules name. -/
namespace Sys2Proof

/-- Who makes a register write that is a row of its own: a privileged mesh requester at the mesh port of `slice`
(R85 SRCDEV and SRCSTOP); `secure` is the secure-world stamp of the mesh attach (13 R410). -/
structure RegWriter where
  slice : Nat
  srcdev : Nat
  srcstop : Nat
  secure : Bool
  deriving DecidableEq, Repr

/-- The path of an ingress message (05 R148): the host window, with the writing host function; or a core message at the
mesh attach of `slice`, with the core's mesh stop (10 R332) and the tenant the chip stamps. -/
inductive MsgPath where
  | host (fn : Nat)
  | core (slice stop tenant : Nat)
  deriving DecidableEq, Repr

/-- A request at a port (04 R81, R84, R85): the header as sent (a PP1 header in the low 64 bits), the mesh port's
extension, the data bytes in address order, the urgency input, and the stamps of the mesh attach. -/
structure PortReq where
  slice : Nat
  port : Nat
  hdr : BitVec 128
  ext : DWord
  data : List Byte
  urg : Nat
  priv : Bool
  secure : Bool
  deriving DecidableEq, Repr

/-- A fabric frame or credit message (12 R360 to R362): the fabric port it came in at, its PROTECTED mark (R366), its route
word and six header words, its data bytes and their poison marks. -/
structure Frame where
  port : Nat
  prot : Bool
  words : List Word
  data : List Byte
  poison : List Bool
  deriving DecidableEq, Repr

/-- One instruction of the block: a command or an event, as the opcode table lists them. -/
inductive Instr where
  | nop (cmd : Nat)
  | slotFetch (q : Nat)
  | link (cmd : Nat)
  | queryCaps (cmd : Nat)
  | fence (cmd : Nat)
  | flushRange (cmd : Nat)
  | fill (cmd : Nat)
  | copy (cmd : Nat)
  | convertCopy (cmd : Nat)
  | gemv (cmd : Nat)
  | gatherPool (cmd : Nat)
  | gatherPoolFinish (cmd : Nat)
  | reduceAcc (cmd : Nat)
  | signal (cmd : Nat)
  | wait (cmd : Nat)
  | lockAcquire (cmd : Nat)
  | lockRelease (cmd : Nat)
  | lockClearAbandoned (cmd : Nat)
  | pocketSet (cmd : Nat)
  | ctxCreate (cmd : Nat)
  | ctxDestroy (cmd : Nat)
  | weaveInstall (cmd : Nat)
  | contractBind (cmd : Nat)
  | powerHint (cmd : Nat)
  | capSet (cmd : Nat)
  | freqLock (cmd : Nat)
  | freqLockAt
  | telemetryRead (cmd : Nat)
  | meterRead (cmd : Nat)
  | creditRequest (cmd : Nat)
  | remoteWrite (cmd : Nat)
  | remoteRead (cmd : Nat)
  | scrubCtl (cmd : Nat)
  | scrubAutoResume
  | eccTestWrite (cmd : Nat)
  | darn (cmd : Nat)
  | logRead (cmd : Nat)
  | regWrite (cmd : Nat)
  | regRead (cmd : Nat)
  | heldPacketAdmit (cmd : Nat)
  | commandComplete (cmd : Nat)
  | replyWriteAcknowledged (cmd : Nat)
  | irqGapExpiry (q : Nat)
  | doorbell (path : MsgPath) (ctx : Nat) (payload : DWord)
  | replyAck (path : MsgPath) (ctx : Nat) (payload : DWord)
  | counterAdd (path : MsgPath) (ctx : Nat) (payload : DWord)
  | doorbellService (q : Nat)
  | descriptorFetchDone (q : Nat)
  | qctlDb (slice : Nat) (v : Word) (w : RegWriter)
  | qctlRack (slice : Nat) (v : Word) (w : RegWriter)
  | enable (slice qidx : Nat) (noWait : Bool) (w : RegWriter)
  | disable (slice qidx : Nat) (w : RegWriter)
  | queueDisableDone (q : Nat)
  | pin (slice qidx : Nat) (w : RegWriter)
  | unpin (slice qidx : Nat) (w : RegWriter)
  | read (r : PortReq)
  | write (r : PortReq)
  | accWrite (r : PortReq)
  | flush (r : PortReq)
  | tspill (r : PortReq)
  | tfill (r : PortReq)
  | burstTimeout (r : PortReq)
  | priorityRaise (op : Nat)
  | wbAgeExpiry (entry : Nat)
  | reuseExpiry (slice port : Nat) (ctx base : Nat)
  | bankBeat
  | wbEntryCommit (entry : Nat)
  | portEnable (slice port : Nat) (noWait : Bool) (w : RegWriter)
  | portDisable (slice port : Nat) (noWait : Bool) (w : RegWriter)
  | portDrainDone (slice port : Nat)
  | portClearDone (slice port : Nat)
  | portCtxWrite (slice port : Nat) (v : Word) (w : RegWriter)
  | sleeveCfgWrite (slice : Nat) (v : Word) (w : RegWriter)
  | bootCtlWrite (v : Word) (w : RegWriter)
  | registerWrite (addr : Nat) (size8 : Bool) (v : DWord) (w : RegWriter)
  | frameBoundary (slice : Nat)
  | regulatorInterval (slice : Nat) (oqLevel : Nat)
  | clearDone (id : Nat)
  | nmuFaultRetry (slice tier tile : Nat)
  | waitTimeout (waiter : Nat)
  | contextWatchdog (waiter : Nat)
  | map (v : DWord) (w : RegWriter)
  | unmap (v : DWord) (w : RegWriter)
  | dbgSelWrite (v : DWord) (w : RegWriter)
  | resetNotify (ctx hid : Nat)
  | start (slice mover ch : Nat) (v : Word) (w : RegWriter)
  | stop (slice mover ch : Nat) (v : Word) (w : RegWriter)
  | moverStopDone (slice mover ch : Nat)
  | move (slice mover ch : Nat)
  | spill (slice mover ch : Nat)
  | moverFill (slice mover ch : Nat)
  | loop (slice mover ch : Nat)
  | moverWait (slice mover ch : Nat)
  | moverSignal (slice mover ch : Nat)
  | moverEnd (slice mover ch : Nat)
  | pieceRetire (slice mover ch : Nat)
  | stagingAgeExpiry (slice mover entry : Nat)
  | moverHalt (slice mover ch : Nat)
  | fabricRequestFrame (f : Frame)
  | fabricResponseFrame (f : Frame)
  | grant (f : Frame)
  | renew (f : Frame)
  | release (f : Frame)
  | withdraw (f : Frame)
  | grantAnswer (f : Frame)
  | renewAnswer (f : Frame)
  | releaseAnswer (f : Frame)
  | deferredNotice (f : Frame)
  | counterSignalFrame (f : Frame)
  | counterSignalAnswer (f : Frame)
  | deferredGrantServe (part : Nat)
  | grantExpiry (part index : Nat)
  | fabricTimeout (reqid : Nat)
  | configure (part : Nat) (v : Word) (w : RegWriter)
  | seal (part : Nat) (v : Word) (w : RegWriter)
  | dissolve (part : Nat) (v : Word) (w : RegWriter)
  | dissolveDone (part : Nat)
  | suspend (part : Nat) (v : Word) (w : RegWriter)
  | suspendDone (part : Nat)
  | activate (part : Nat) (v : Word) (w : RegWriter)
  | activateDone (part : Nat)
  | keyLoad (slot tenant : Nat) (key : BitVec 512)
  | keyErase (slot : Nat)
  | measurementRequest (kind arg : Nat) (nonce : BitVec 256)
  | tdispStateReport (tdi state : Nat)
  | cuBootWrite (v : Word) (w : RegWriter)
  | microcodeAnswer (allow : Bool)
  | powerOnReset
  | blockReset (cause : Nat)
  | startupRelease
  | vhvBrownout
  | pllUnlock
  | pllRelockTimeout
  | opChangeDone
  | wake (slice : Nat) (noWait : Bool) (w : RegWriter)
  | idle (slice : Nat) (noWait : Bool) (w : RegWriter)
  | retain (slice : Nat) (noWait : Bool) (w : RegWriter)
  | off (slice : Nat) (noWait : Bool) (w : RegWriter)
  | idleTimerExpiry (slice : Nat)
  | retentionTimerExpiry (slice : Nat)
  | prepareDone (slice : Nat)
  | entryComplete (slice : Nat)
  | wakeDone (slice : Nat)
  | maPend (slice : Nat)
  | deep (w : RegWriter)
  | wakeN
  | i3cWake
  | deepExitDone
  | managementWrite (bytes : List Byte)
  | i3cCcc (code : Nat) (arg : Nat)
  | estimateWindow (counts : List Nat) (temps : List Nat) (currents : List Nat) (charges : List (Nat × Nat))
  | thermalTripTimeout
  | ivrPhaseFault (slice : Nat)
  | sliceFail (slice cause : Nat)
  | heartbeatTimeout (slice : Nat)
  | sliceCut (slice : Nat)
  | sliceSupplyReturn (slice : Nat)
  | patrolScrub (bank line beat : Nat)
  | poisonTagWrite (key : Nat)
  | seamCalibration (slice tier : Nat) (weak : List Nat)
  | seamParityError (slice tier : Nat) (lane : Nat) (up : Bool) (id : Nat)
  | logRecord
  | meterSample (energies : List Nat)
  | meterAllocation
  | meterSelfCheck (deviating : List Nat)
  | meterGapStart
  | meterGapEnd
  | mtrCfg (v : Word)
  | mtrLabel (v : DWord)
  | mtrSeal (v : Word)
  | meterRecordRequest (bytes : List Byte)
  | meterRecordReady
  | wsBypass
  | wsStatus
  | wsExtest
  | wsIntest
  | mbistRun (failing : List Nat)
  | seamTest (failing : List Nat)
  | fuseProg (bits : List Nat)
  | pllRelock
  | descriptorWriteBackDone (q : Nat) (ok : Bool)
  | hostWindowWrite (fn ctx offset size : Nat) (v : DWord)
  deriving DecidableEq, Repr

end Sys2Proof
end

