-- ==== Sys2Proof/Machine/Bits.lean ====
section
/-! DEFINITION. Machine/Bits.lean: bit fields, byte order and list helpers (00 R3, R6). -/
namespace Sys2Proof.Machine

/-- Bits `hi:lo` of a number (R3: bit 0 is the least significant). -/
def bitsOf (x hi lo : Nat) : Nat := (x / 2 ^ lo) % 2 ^ (hi + 1 - lo)

/-- Bit `i` of a number. -/
def bitOf (x i : Nat) : Bool := (x / 2 ^ i) % 2 == 1

/-- Bits `hi:lo` of a word. -/
def fld {n : Nat} (w : BitVec n) (hi lo : Nat) : Nat := bitsOf w.toNat hi lo

/-- Bit `i` of a word. -/
def flag {n : Nat} (w : BitVec n) (i : Nat) : Bool := bitOf w.toNat i

/-- A Boolean as a bit. -/
def b2n (b : Bool) : Nat := if b then 1 else 0

/-- Word `i` of a packet or register image; words past the end read as zero. -/
def wordAt (ws : List Word) (i : Nat) : Word := ws.getD i 0

/-- The 64-bit field held in words `i` and `i+1`, low word first (R6). -/
def dwordAt (ws : List Word) (i : Nat) : Nat := (wordAt ws i).toNat + 2 ^ 32 * (wordAt ws (i + 1)).toNat

/-- The `k` little-endian bytes of a number (R3). -/
def leBytes : Nat → Nat → List Byte
  | 0, _ => []
  | k + 1, x => BitVec.ofNat 8 x :: leBytes k (x / 256)

/-- The number that little-endian bytes hold (R3). -/
def leNat : List Byte → Nat
  | [] => 0
  | b :: bs => b.toNat + 256 * leNat bs

/-- The bytes of a list of words (R6). -/
def bytesOfWords (ws : List Word) : List Byte := ws.flatMap fun w => leBytes 4 w.toNat

/-- The first `k` words that a list of bytes holds (R6). -/
def wordsOfBytes : Nat → List Byte → List Word
  | 0, _ => []
  | k + 1, bs => BitVec.ofNat 32 (leNat (bs.take 4)) :: wordsOfBytes k (bs.drop 4)

/-- Exclusive or of two numbers' bits. -/
def nxor (a b : Nat) : Nat := a ^^^ b

/-- The least multiple of `k` at or above `x`. -/
def roundUp (x k : Nat) : Nat := ((x + k - 1) / k) * k

/-- Quotient rounded up. -/
def ceilDiv (x k : Nat) : Nat := (x + k - 1) / k

/-- Do the half-open ranges `[a, a+n)` and `[b, b+m)` meet? -/
def rangesMeet (a n b m : Nat) : Bool := decide (0 < n) && decide (0 < m) && decide (a < b + m) && decide (b < a + n)

/-- Saturating addition of a counter of width `w`. -/
def satAdd (w x y : Nat) : Nat := Nat.min (x + y) (2 ^ w - 1)

/-- The positions (from 0) of the elements of a list that satisfy a test. -/
def positionsOf {α : Type} (p : α → Bool) (l : List α) : List Nat :=
  (l.zipIdx.filter fun x => p x.1).map (·.2)

end Sys2Proof.Machine
end

