-- ==== Sys2Proof/Machine/Crypto.lean ====
section
/-! DEFINITION. Machine/Crypto.lean: AES-256 in XTS mode as the outer port uses it (13 R403) and SHA-384 as records and
measurements use it (13 R407, 17 R496). The two algorithms are FIPS 197, IEEE 1619 and FIPS 180-4, which the manual names
(PRESUMED, log entry 20). -/
namespace Sys2Proof.Machine

/-! AES-256 -/

/-- Doubling in the field of AES. -/
def aesDouble (x : Nat) : Nat := if x < 128 then 2 * x else nxor (2 * x - 256) 0x1B

/-- Product in the field of AES, by `k` bits of `b`. -/
def aesMulLoop : Nat → Nat → Nat → Nat
  | 0, _, _ => 0
  | k + 1, a, b => nxor (if b % 2 = 1 then a else 0) (aesMulLoop k (aesDouble a) (b / 2))
def aesMul (a b : Nat) : Nat := aesMulLoop 8 a b

/-- The multiplicative inverse (0 for 0): the 254th power. -/
def aesPow (a : Nat) : Nat → Nat
  | 0 => 1
  | k + 1 => aesMul a (aesPow a k)
def aesInv (a : Nat) : Nat := if a = 0 then 0 else aesPow a 254

/-- Rotate a byte left. -/
def rotByte (x k : Nat) : Nat := x * 2 ^ k % 256 + x * 2 ^ k / 256

/-- The S-box and its inverse. -/
def aesSub (a : Nat) : Nat :=
  let b := aesInv a
  nxor (nxor (nxor b (rotByte b 1)) (nxor (rotByte b 2) (rotByte b 3))) (nxor (rotByte b 4) 0x63)
def aesInvSub (a : Nat) : Nat := aesInv (nxor (nxor (rotByte a 1) (rotByte a 3)) (nxor (rotByte a 6) 0x05))

/-- Exclusive or of two lists of bytes. -/
def xorBytes (a b : List Nat) : List Nat := List.zipWith nxor a b

/-- The key schedule of a 32 B key: words of four bytes, the newest first. -/
def aesExpand : Nat → List (List Nat) → List (List Nat)
  | 0, ws => ws
  | k + 1, ws =>
    let i := ws.length
    let t := ws.headD []
    let t1 := if i % 8 = 0 then xorBytes ((t.drop 1 ++ t.take 1).map aesSub) [aesPow 2 (i / 8 - 1), 0, 0, 0]
      else if i % 8 = 4 then t.map aesSub else t
    aesExpand k (xorBytes (ws.getD 7 []) t1 :: ws)

/-- The fifteen round keys of 16 B. -/
def aesKeys (key : List Nat) : List (List Nat) :=
  let w0 := (List.range 8).map fun i => (key.drop (4 * i)).take 4
  let ws := (aesExpand 52 w0.reverse).reverse
  (List.range 15).map fun r => ((ws.drop (4 * r)).take 4).flatten

/-- ShiftRows and its inverse on the 16 bytes in column order. -/
def shiftRows (x : List Nat) : List Nat := (List.range 16).map fun i => x.getD ((i / 4 + i % 4) % 4 * 4 + i % 4) 0
def invShiftRows (x : List Nat) : List Nat := (List.range 16).map fun i => x.getD ((i / 4 + 4 - i % 4) % 4 * 4 + i % 4) 0

/-- MixColumns with the first row `c` of its matrix. -/
def mixColumns (c : List Nat) (x : List Nat) : List Nat :=
  (List.range 16).map fun i => (List.range 4).foldl
    (fun a j => nxor a (aesMul (c.getD ((j + 4 - i % 4) % 4) 0) (x.getD (i / 4 * 4 + j) 0))) 0

/-- The cipher on one block of 16 bytes. -/
def aesEnc (ks : List (List Nat)) (x : List Nat) : List Nat :=
  let s0 := xorBytes x (ks.headD [])
  let s1 := (ks.drop 1).zipIdx.foldl (fun s (k, r) =>
    let t := shiftRows (s.map aesSub)
    xorBytes (if r = 13 then t else mixColumns [2, 3, 1, 1] t) k) s0
  s1

/-- Its inverse. -/
def aesDec (ks : List (List Nat)) (x : List Nat) : List Nat :=
  let rs := ks.reverse
  let s0 := xorBytes x (rs.headD [])
  (rs.drop 1).zipIdx.foldl (fun s (k, r) =>
    let t := xorBytes ((invShiftRows s).map aesInvSub) k
    if r = 13 then t else mixColumns [14, 11, 13, 9] t) s0

/-- The tweak doubled: multiplication by alpha, little-endian. -/
def xtsDouble (t : Nat) : Nat := if t < 2 ^ 127 then 2 * t else nxor (2 * t - 2 ^ 128) 0x87
def xtsTweak : Nat → Nat → Nat
  | 0, t => t
  | k + 1, t => xtsTweak k (xtsDouble t)

/-- Bytes of a number as numbers. -/
def natBytes : Nat → Nat → List Nat
  | 0, _ => []
  | k + 1, x => x % 256 :: natBytes k (x / 256)
def bytesNat : List Nat → Nat
  | [] => 0
  | b :: bs => b + 256 * bytesNat bs

/-- One 16 B block at external address `a` under a 512-bit key (R403): the data key is the low 256 bits, the tweak key the
high 256 bits, bytes in rising order. -/
def xtsBlock (enc : Bool) (key a : Nat) (x : List Nat) : List Nat :=
  let k1 := aesKeys (natBytes 32 key)
  let k2 := aesKeys (natBytes 32 (key / 2 ^ 256))
  let t := natBytes 16 (xtsTweak (bitsOf a 11 4) (bytesNat (aesEnc k2 (natBytes 16 (bitsOf a 51 12)))))
  xorBytes (if enc then aesEnc k1 (xorBytes x t) else aesDec k1 (xorBytes x t)) t

/-- Bytes at `a`, a multiple of 16, `16 × n` of them. -/
def xtsBytes (enc : Bool) (key : Nat) : Nat → Nat → List Byte → List Byte
  | 0, _, _ => []
  | n + 1, a, bs =>
    (xtsBlock enc key a ((bs.take 16).map BitVec.toNat)).map (BitVec.ofNat 8) ++ xtsBytes enc key n (a + 16) (bs.drop 16)

/-! SHA-384 -/

/-- Integer square and cube roots: the largest r below 2^b with r^e ≤ x. -/
def rootLoop (e x : Nat) : Nat → Nat → Nat
  | 0, r => r
  | b + 1, r => let r' := r + 2 ^ b; rootLoop e x b (if r' ^ e ≤ x then r' else r)

/-- The first `n` primes. -/
def isPrime (p : Nat) : Bool := decide (2 ≤ p) && (List.range p).all fun d => decide (d < 2) || decide (p % d ≠ 0)
def primes80 : List Nat := (List.range 410).filter isPrime

/-- The constants: fractions of cube roots of 80 primes, and of square roots of the ninth to the sixteenth prime. -/
def shaK : List Nat := primes80.map fun p => rootLoop 3 (p * 2 ^ 192) 68 0 % 2 ^ 64
def shaInit : List Nat := ((primes80.drop 8).take 8).map fun p => rootLoop 2 (p * 2 ^ 128) 69 0 % 2 ^ 64

/-- Rotation of 64-bit words. -/
def ror64 (x k : Nat) : Nat := x / 2 ^ k + x % 2 ^ k * 2 ^ (64 - k)
def and64 (a b : Nat) : Nat := a &&& b

/-- The message schedule, newest word first. -/
def shaSchedule : Nat → List Nat → List Nat
  | 0, ws => ws
  | k + 1, ws =>
    let a := ws.getD 1 0; let b := ws.getD 14 0
    let s1 := nxor (nxor (ror64 a 19) (ror64 a 61)) (a / 64)
    let s0 := nxor (nxor (ror64 b 1) (ror64 b 8)) (b / 128)
    shaSchedule k ((s1 + ws.getD 6 0 + s0 + ws.getD 15 0) % 2 ^ 64 :: ws)

/-- One round. -/
def shaRound (v : List Nat) (kw : Nat) : List Nat :=
  let a := v.getD 0 0; let e := v.getD 4 0
  let s1 := nxor (nxor (ror64 e 14) (ror64 e 18)) (ror64 e 41)
  let ch := nxor (and64 e (v.getD 5 0)) (and64 (2 ^ 64 - 1 - e) (v.getD 6 0))
  let t1 := v.getD 7 0 + s1 + ch + kw
  let s0 := nxor (nxor (ror64 a 28) (ror64 a 34)) (ror64 a 39)
  let mj := nxor (nxor (and64 a (v.getD 1 0)) (and64 a (v.getD 2 0))) (and64 (v.getD 1 0) (v.getD 2 0))
  [(t1 + s0 + mj) % 2 ^ 64, a, v.getD 1 0, v.getD 2 0, (v.getD 3 0 + t1) % 2 ^ 64, e, v.getD 5 0, v.getD 6 0]

/-- A big-endian number of bytes. -/
def beNat (bs : List Byte) : Nat := leNat bs.reverse
def beBytes (k x : Nat) : List Byte := (leBytes k x).reverse

/-- Compress one block of 128 B. -/
def shaBlock (h : List Nat) (blk : List Byte) : List Nat :=
  let w := (shaSchedule 64 ((List.range 16).map fun i => beNat ((blk.drop (8 * i)).take 8)).reverse).reverse
  let v := (List.zipWith (fun k x => k + x) shaK w).foldl shaRound h
  List.zipWith (fun a b => (a + b) % 2 ^ 64) h v

/-- Compress `n` blocks. -/
def shaBlocks : Nat → List Nat → List Byte → List Nat
  | 0, h, _ => h
  | n + 1, h, bs => shaBlocks n (shaBlock h (bs.take 128)) (bs.drop 128)

/-- SHA-384: the first six words of the state, 48 bytes. -/
def sha384 (m : List Byte) : List Byte :=
  let pad := (239 - m.length % 128) % 128
  let p := m ++ (0x80 : Byte) :: List.replicate pad 0 ++ beBytes 16 (8 * m.length)
  ((shaBlocks (p.length / 128) shaInit p).take 6).flatMap (beBytes 8)

end Sys2Proof.Machine
end

