-- ==== Sys2Proof/Machine/Float.lean ====
section
/-! DEFINITION. Machine/Float.lean: the number formats, exact values, rounding, conversion and accumulation
(07 R213 to R216, R223 to R225, R239, R240). -/
namespace Sys2Proof.Machine

/-- A floating-point format (R213). `inf`: it has infinities, and NaNs beside them; `nan1`: E4M3, whose one NaN has every
exponent and mantissa bit set. -/
structure Fmt where
  ebits : Nat
  mbits : Nat
  bias : Nat
  inf : Bool
  nan1 : Bool
  deriving DecidableEq, Repr

def fmtFP4 : Fmt := { ebits := 2, mbits := 1, bias := 1, inf := false, nan1 := false }
def fmtE2M3 : Fmt := { ebits := 2, mbits := 3, bias := 1, inf := false, nan1 := false }
def fmtE3M2 : Fmt := { ebits := 3, mbits := 2, bias := 3, inf := false, nan1 := false }
def fmtE4M3 : Fmt := { ebits := 4, mbits := 3, bias := 7, inf := false, nan1 := true }
def fmtE5M2 : Fmt := { ebits := 5, mbits := 2, bias := 15, inf := true, nan1 := false }
def fmtBF16 : Fmt := { ebits := 8, mbits := 7, bias := 127, inf := true, nan1 := false }
def fmtFP32 : Fmt := { ebits := 8, mbits := 23, bias := 127, inf := true, nan1 := false }
def fmtFP64 : Fmt := { ebits := 11, mbits := 52, bias := 1023, inf := true, nan1 := false }

/-- A value taken exactly: NaN, an infinity, or (−1)^neg × m × 2^e; a zero keeps its sign. -/
inductive Fp where
  | nan
  | inf (neg : Bool)
  | fin (neg : Bool) (m : Nat) (e : Int)
  deriving DecidableEq, Repr

/-- Width of a format in bits. -/
def Fmt.width (f : Fmt) : Nat := 1 + f.ebits + f.mbits

/-- The exponent of the last place of a subnormal. -/
def Fmt.qmin (f : Fmt) : Int := 1 - (f.bias : Int) - (f.mbits : Int)

/-- The magnitude bits of the largest finite value (R213). -/
def Fmt.maxFin (f : Fmt) : Nat :=
  if f.inf then (2 ^ f.ebits - 1) * 2 ^ f.mbits - 1
  else if f.nan1 then 2 ^ (f.ebits + f.mbits) - 2
  else 2 ^ (f.ebits + f.mbits) - 1

/-- The canonical NaN (R213). -/
def Fmt.nanBits (f : Fmt) : Nat :=
  if f.nan1 then 2 ^ (f.ebits + f.mbits) - 1 else (2 ^ f.ebits - 1) * 2 ^ f.mbits + 2 ^ (f.mbits - 1)

/-- The bits of an infinity. -/
def Fmt.infBits (f : Fmt) (neg : Bool) : Nat := b2n neg * 2 ^ (f.ebits + f.mbits) + (2 ^ f.ebits - 1) * 2 ^ f.mbits

/-- The value that bits hold (R213). -/
def fpOf (f : Fmt) (x : Nat) : Fp :=
  let mag := x % 2 ^ (f.ebits + f.mbits)
  let neg := bitOf x (f.ebits + f.mbits)
  let e := mag / 2 ^ f.mbits
  let m := mag % 2 ^ f.mbits
  if f.inf ∧ e = 2 ^ f.ebits - 1 then (if m = 0 then .inf neg else .nan)
  else if f.nan1 ∧ mag = 2 ^ (f.ebits + f.mbits) - 1 then .nan
  else if e = 0 then .fin neg m f.qmin
  else .fin neg (2 ^ f.mbits + m) (f.qmin + (e : Int) - 1)

/-- `m / 2^k` rounded: toward zero, or to nearest with ties to even. -/
def shiftRound (toZero : Bool) (m k : Nat) : Nat :=
  let n := m / 2 ^ k
  let r := m % 2 ^ k
  if toZero ∨ k = 0 then n
  else if 2 ^ k < 2 * r ∨ (2 * r = 2 ^ k ∧ n % 2 = 1) then n + 1 else n

/-- The magnitude bits of m × 2^e rounded to a format, with gradual underflow; a result above `maxFin` has overflowed
(R223, R224). -/
def roundMag (f : Fmt) (toZero : Bool) (m : Nat) (e : Int) : Nat :=
  if m = 0 then 0
  else
    let x : Int := (Nat.log2 m : Int) + e
    let q : Int := max (x - (f.mbits : Int)) f.qmin
    let n := if q ≤ e then m * 2 ^ (e - q).toNat else shiftRound toZero m (q - e).toNat
    (q - f.qmin).toNat * 2 ^ f.mbits + n

/-- The sign bit of a format. -/
def Fmt.sign (f : Fmt) (neg : Bool) : Nat := b2n neg * 2 ^ (f.ebits + f.mbits)

/-- Conversion to a format under RND and SAT (R224). `elem` marks an MX element: it saturates whatever SAT holds
(R225). -/
def fpTo (f : Fmt) (toZero sat elem : Bool) (v : Fp) : Nat :=
  match v with
  | .nan => f.nanBits
  | .inf neg =>
    if elem ∨ sat then f.sign neg + f.maxFin
    else if f.inf then f.infBits neg else f.nanBits
  | .fin neg m e =>
    let r := roundMag f toZero m e
    if r ≤ f.maxFin then f.sign neg + r
    else if elem ∨ sat ∨ toZero then f.sign neg + f.maxFin
    else if f.inf then f.infBits neg else f.nanBits

/-- Conversion to a two's-complement integer of `w` bits under RND (R224), as its bit pattern. -/
def fpToInt (w : Nat) (toZero : Bool) (v : Fp) : Nat :=
  match v with
  | .nan => 0
  | .inf neg => if neg then 2 ^ (w - 1) else 2 ^ (w - 1) - 1
  | .fin neg m e =>
    let n := if 0 ≤ e then m * 2 ^ e.toNat else shiftRound toZero m (-e).toNat
    if neg then (if 2 ^ (w - 1) ≤ n then 2 ^ (w - 1) else (2 ^ w - n) % 2 ^ w)
    else Nat.min n (2 ^ (w - 1) - 1)

/-- The value of a two's-complement integer of `w` bits. -/
def intVal (w x : Nat) : Int := if 2 ^ (w - 1) ≤ x then (x : Int) - 2 ^ w else (x : Int)

/-- An integer as an exact value; zero is +0. -/
def fpOfInt (i : Int) : Fp := .fin (decide (i < 0)) i.natAbs 0

/-- Multiply by 2^k. -/
def fpScale (k : Int) : Fp → Fp
  | .fin n m e => .fin n m (e + k)
  | v => v

/-- The exact product; 0 × infinity is NaN. -/
def fpMul : Fp → Fp → Fp
  | .nan, _ => .nan
  | _, .nan => .nan
  | .inf a, .inf b => .inf (a ^^ b)
  | .inf a, .fin b m _ => if m = 0 then .nan else .inf (a ^^ b)
  | .fin a m _, .inf b => if m = 0 then .nan else .inf (a ^^ b)
  | .fin a m e, .fin b n f => .fin (a ^^ b) (m * n) (e + f)

/-- A signed mantissa. -/
def sgn (neg : Bool) (m : Nat) : Int := if neg then -(m : Int) else (m : Int)

/-- The exact sum; +infinity + −infinity is NaN; a zero sum is +0 unless both terms are −0. -/
def fpAdd : Fp → Fp → Fp
  | .nan, _ => .nan
  | _, .nan => .nan
  | .inf a, .inf b => if a = b then .inf a else .nan
  | .inf a, .fin _ _ _ => .inf a
  | .fin _ _ _, .inf b => .inf b
  | .fin a m e, .fin b n f =>
    let q := min e f
    let t := sgn a (m * 2 ^ (e - q).toNat) + sgn b (n * 2 ^ (f - q).toNat)
    if t = 0 then .fin (a && b && decide (m = 0) && decide (n = 0)) 0 q else .fin (decide (t < 0)) t.natAbs q

/-- round32 of R223: the FP32 value nearest an exact value, as a value. -/
def round32 (v : Fp) : Fp := fpOf fmtFP32 (fpTo fmtFP32 false false false v)

/-- A value divided by `n` (R235), close enough that every rounding of it is that of the exact quotient: 64 bits and a
sticky bit. -/
def fpDivNat (v : Fp) (n : Nat) : Fp :=
  match v with
  | .fin neg m e => .fin neg (2 * (m * 2 ^ 96 / n) + b2n (decide (m * 2 ^ 96 % n ≠ 0))) (e - 97)
  | x => x

/-- Is `a` below `b`, with −0 below +0 (R239)? Neither is NaN. -/
def fpLt : Fp → Fp → Bool
  | .nan, _ => false
  | _, .nan => false
  | .inf a, .inf b => a && !b
  | .inf a, .fin _ _ _ => a
  | .fin _ _ _, .inf b => !b
  | .fin a m e, .fin b n f =>
    let q := min e f
    let x := sgn a (m * 2 ^ (e - q).toNat); let y := sgn b (n * 2 ^ (f - q).toNat)
    decide (x < y) || (decide (x = 0) && decide (y = 0) && a && !b)

/-- A NaN's bits, quieted. -/
def quiet (f : Fmt) (x : Nat) : Nat := if bitOf x (f.mbits - 1) then x else x + 2 ^ (f.mbits - 1)

/-- One FP accumulation of a stored `a` and an incoming `b` (R239, R240). -/
def fpAcc (f : Fmt) (isMax : Bool) (a b : Nat) : Nat :=
  let x := fpOf f a; let y := fpOf f b
  if x = .nan then a
  else if y = .nan then quiet f b
  else if isMax then (if fpLt x y then b else a)
  else match fpAdd x y with
    | .nan => f.nanBits
    | v => fpTo f false false false v

/-- One INT32 accumulation (R239) and whether it saturated. -/
def intAcc (isMax : Bool) (a b : Nat) : Nat × Bool :=
  let x := intVal 32 a; let y := intVal 32 b
  if isMax then (if x < y then b else a, false)
  else
    let t := x + y
    if t < -(2 ^ 31 : Int) then (2 ^ 31, true)
    else if (2 ^ 31 - 1 : Int) < t then (2 ^ 31 - 1, true)
    else ((t % 2 ^ 32).toNat, false)

/-- Element size of an ACCOP's type (04 R81): INT32, FP32 4 B; FP64 8 B. -/
def accSize (op : Nat) : Nat := if op % 4 = 2 then 8 else 4

/-- Combine one element under an ACCOP: bit 2 MAX, bits 1:0 INT32, FP32 or FP64 (03 R66). -/
def accElem (op a b : Nat) : Nat × Bool :=
  let isMax := bitOf op 2
  if op % 4 = 0 then intAcc isMax a b
  else if op % 4 = 1 then (fpAcc fmtFP32 isMax a b, false)
  else (fpAcc fmtFP64 isMax a b, false)

/-! MX blocks -/

/-- The element format of a store format code of R176, if it is an MX format. -/
def mxFmt (c : Nat) : Option Fmt :=
  if c = 8 then some fmtFP4 else if c = 9 then some fmtE2M3 else if c = 10 then some fmtE3M2
  else if c = 11 then some fmtE4M3 else if c = 12 then some fmtE5M2 else none

/-- The element format of a plain floating-point code of R176. -/
def plainFmt (c : Nat) : Option Fmt :=
  if c = 0 then some fmtFP32 else if c = 1 then some fmtFP64 else if c = 2 then some fmtBF16
  else if c = 3 then some fmtE4M3 else if c = 4 then some fmtE5M2 else none

/-- Bytes of one element of a plain format (R176). -/
def elemBytes (c : Nat) : Nat :=
  if c = 0 then 4 else if c = 1 then 8 else if c = 2 then 2 else if c = 6 then 4 else 1

/-- Bytes of an MX block (R214). -/
def mxBytes (f : Fmt) : Nat := 1 + 4 * f.width

/-- The 32 values of an MX block (R214): the scale byte, then the elements, packed little-endian. -/
def mxValues (f : Fmt) (block : List Byte) : List Fp :=
  let x := (block.headD 0).toNat
  let bitsN := leNat (block.drop 1)
  (List.range 32).map fun i =>
    if x = 255 then .nan
    else fpScale ((x : Int) - 127) (fpOf f (bitsN / 2 ^ (f.width * i) % 2 ^ f.width))

/-- emax of R225. -/
def Fmt.emax (f : Fmt) : Int := if f.nan1 then 8 else if f.ebits = 5 then 15 else if f.ebits = 3 then 4 else 2

/-- ⌊log2⌋ of the larger magnitude so far; none for zeros. -/
def maxLog (acc : Option Int) (v : Fp) : Option Int :=
  match v with
  | .fin _ m e => if m = 0 then acc else
    let l := (Nat.log2 m : Int) + e
    some (match acc with
      | some a => max a l
      | none => l)
  | _ => acc

/-- Is a value NaN or infinite? -/
def Fp.special : Fp → Bool
  | .fin _ _ _ => false
  | _ => true

/-- The block that 32 exact values make (R225). -/
def mxBlock (f : Fmt) (toZero : Bool) (vs : List Fp) : List Byte :=
  let (x, els) : Nat × List Nat :=
    if vs.any Fp.special then (255, vs.map fun _ => 0)
    else match vs.foldl maxLog none with
      | none => (0, vs.map fun v => fpTo f toZero true true v)
      | some l =>
        let x := (max 0 (min (l - f.emax + 127) 254)).toNat
        (x, vs.map fun v => fpTo f toZero true true (fpScale (127 - (x : Int)) v))
  BitVec.ofNat 8 x :: leBytes (4 * f.width)
    ((els.zipIdx.map fun (e, i) => e * 2 ^ (f.width * i)).foldl (· + ·) 0)

end Sys2Proof.Machine
end

