-- ==== Sys2Proof/Config.lean ====
section
/-! DEFINITION. Config.lean: what an implementation fixes and the manual leaves open. Every constant here has no
body: nothing in Lean can evaluate it, so a claim about one holds whatever its value is. -/
namespace Sys2Proof

/-- The byte that a read returns where the manual says it is undefined (R86, R417: the bytes of a poisoned unit),
for the free-value counter `salt` and the place `i`. Free value, log entry 2. -/
opaque Config.freeByte (salt i : Nat) : Byte
/-- Any other undefined number (an order the manual does not state, entropy), drawn for the counter `salt`. -/
opaque Config.freeNat (salt i : Nat) : Nat
/-- QUERY_CAPS STEPPING (R182): fused. -/
opaque Config.stepping : Byte

/-- Which bytes of a slice's 128 KiB system region hold pocket descriptors (02 R37): of which context number, and which byte of its 48
descriptors. No rule lays the region out. -/
opaque Config.sysDesc (off : Nat) : Option (Nat × Nat)
/-- Which bytes of it hold counter and lock state (10 R306). -/
opaque Config.sysSync (off : Nat) : Bool
/-- The full allowance of a partition's outer-port channel for an interval of 64 bc, in bytes (08 R278): no rule states it. -/
opaque Config.outerFull (part : Nat) : Nat

/-- The fused energy weight of activity class `cls` at operating point `p`, in femtojoules per event (16 R466, R467). -/
opaque Config.weight (cls p : Nat) : Nat
/-- The family's nominal weight (16 R480). -/
opaque Config.nomWeight (cls p : Nat) : Nat
/-- The fused static power in microwatts of physical slice `n` in power state `st` at point `p` with RET_CFG `ret` at
`tj` °C (16 R466), and of the shared logic (slice 68). -/
opaque Config.static (n st p ret tj : Nat) : Nat
/-- The family's nominal static power (16 R480). -/
opaque Config.nomStatic (n st p ret tj : Nat) : Nat
/-- RAIL_LIM.FMAX of a slice (16 R475), and the shared phase group's fused limit in units of 20 mA (R474). -/
opaque Config.fmax (n : Nat) : Byte
opaque Config.sharedLimit : Nat
/-- The expected power that a hint's reply returns (06 R191). -/
opaque Config.hintPower (kind lead dur power : Nat) : Nat
/-- The fuse shadow of unit 0x81, by byte offset (18 R522). -/
opaque Config.fuse (off : Nat) : Word
/-- DEBUG_LOCK is blown (18 R522, R523). -/
opaque Config.debugLock : Bool
/-- NMU spare tiles already used at test (07 R212: fuse). -/
opaque Config.tileSpares (slice tier : Nat) : Nat
/-- The meter's firmware digest matches its fuse (17 R486). -/
opaque Config.meterDigestOk : Bool
/-- The meter's entropy for the session of its `n`-th power-on (17 R485). -/
opaque Config.meterSession (n : Nat) : Nat
/-- METER_ID, firmware digest and public key of the meter's fuses (17 R495). -/
opaque Config.meterId : DWord
opaque Config.meterDigest : List Word
opaque Config.meterKey : List Word
/-- The 24 signature words of a message digest under the meter's private key (17 R496). -/
opaque Config.meterSign (digest : List Byte) (salt : Nat) : List Word
/-- The fabric port that a frame from a slice to a device leaves by (12 R359: the manual names no rule). -/
opaque Config.fabricPort (slice dev : Nat) : Nat
/-- TSLICE bits 2:0 of the answer to a request frame (12 R363): the fabric port of the source device, which no field of
the frame states. -/
opaque Config.returnPort (dev tag : Nat) : Nat
/-- TSLICE of an answer to a credit message or counter signal (12 R361, R362): the requesting slice, which no field of the
request states. The requester matches answers by REQID alone. -/
opaque Config.returnSlice (dev reqid : Nat) : Nat
/-- CODE of the error-log entry for a dropped fabric frame (12 R360, R365, R366: no rule states it). -/
opaque Config.frameDropCode : Nat
/-- PID, BCR and DCR of the I3C target (15 R464). -/
opaque Config.i3cId (which : Nat) : List Byte

end Sys2Proof
end

