-- ==== Sys2Proof/Machine/Addr.lean ====
section
/-! DEFINITION. Machine/Addr.lean: regions, pockets, frames and the hash (02 R25 to R51). -/
namespace Sys2Proof.Machine

/-- The three stores (00, R29). -/
inductive Store where
  | w | a | p
  deriving DecidableEq, Repr

/-- The region code of a store (R29), also the STORE code of POCKET_SET, SCRUB_CTL and DARN. -/
def Store.code : Store → Nat
  | .w => 1
  | .a => 2
  | .p => 3

/-- The store of a region code. -/
def storeOf (c : Nat) : Option Store :=
  if c = 1 then some .w else if c = 2 then some .a else if c = 3 then some .p else none

/-- A pocket's STATE (R37). -/
inductive PState where
  | resident | spilled | clearing
  deriving DecidableEq, Repr

/-- STATE as bits 61:60 of the descriptor (R37). -/
def PState.code : PState → Nat
  | .resident => 0
  | .spilled => 1
  | .clearing => 2

/-- A pocket descriptor (R37), field by field. -/
structure Pocket where
  valid : Bool
  spread : Bool
  state : PState
  set : Nat
  home : Nat
  wr : Bool
  rd : Bool
  remote : Bool
  base : Nat
  bound : Nat
  deriving DecidableEq, Repr

/-- The descriptor of zero, which CTX_CREATE gives every pocket (R37). -/
def Pocket.zero : Pocket :=
  { valid := false, spread := false, state := .resident, set := 0, home := 0, wr := false, rd := false,
    remote := false, base := 0, bound := 0 }

/-- The 64 bits of a descriptor (R37). -/
def Pocket.bits (p : Pocket) : Nat :=
  2 ^ 63 * b2n p.valid + 2 ^ 62 * b2n p.spread + 2 ^ 60 * p.state.code + 2 ^ 57 * (p.set % 8) + 2 ^ 51 * (p.home % 64)
    + 2 ^ 50 * b2n p.wr + 2 ^ 49 * b2n p.rd + 2 ^ 48 * b2n p.remote + 2 ^ 32 * (p.base % 512) + p.bound % 2 ^ 32

/-- The descriptor that 64 bits spell (R37); the reserved STATE is read as RESIDENT (it is never stored). -/
def Pocket.ofBits (x : Nat) : Pocket :=
  { valid := bitOf x 63, spread := bitOf x 62,
    state := if bitsOf x 61 60 = 1 then .spilled else if bitsOf x 61 60 = 2 then .clearing else .resident,
    set := bitsOf x 59 57, home := bitsOf x 56 51, wr := bitOf x 50, rd := bitOf x 49, remote := bitOf x 48,
    base := bitsOf x 40 32, bound := bitsOf x 31 0 }

/-- One byte's place in a store, by LOGICAL slice and bank (R50: the slice map and the darning map translate these
to physical ones, and no address, hash result or pocket changes with them). -/
structure Place where
  slice : Nat
  store : Store
  tier : Nat
  bank : Nat
  line : Nat
  byte : Nat
  deriving DecidableEq, Repr

/-- The number of a bank: slice, store, tier (0 but for the W-store) and bank. -/
def bankKey (slice : Nat) (st : Store) (tier bank : Nat) : Nat := ((slice * 4 + st.code) * 4 + tier) * 64 + bank

/-- The bank of a place. -/
def Place.bankNo (p : Place) : Nat := bankKey p.slice p.store p.tier p.bank

/-- The key of a place in the store memories: banks of 2,048 lines of 256 B. -/
def Place.key (p : Place) : Nat := (p.bankNo * 2048 + p.line) * 256 + p.byte

/-- The place of a key. -/
def placeOf (k : Nat) : Place :=
  let b := k / 524288
  { slice := b / 1024, store := (storeOf (b / 256 % 4)).getD .w, tier := b / 64 % 4, bank := b % 64,
    line := k / 256 % 2048, byte := k % 256 }

/-- Lines of one bank (R39, R56). -/
def Store.lines : Store → Nat
  | .w => 2048
  | .a => 768
  | .p => 512

/-- Bytes of one bank (R39, R56). -/
def Store.bankBytes (st : Store) : Nat := 256 * st.lines

/-- Bytes of one beat (R56). -/
def Store.beat : Store → Nat
  | .w => 32
  | .a => 64
  | .p => 64

/-- Active banks per slice, or per tier-slice for the W-store (R56). -/
def Store.banks : Store → Nat
  | .w => 16
  | .a => 32
  | .p => 16

/-- The sleeves of an A-store sleeve set (R38). -/
def setSleeves (set : Nat) : List Nat :=
  if set < 4 then [set] else if set = 4 then [0, 1] else if set = 5 then [2, 3] else if set = 6 then [0, 1, 2, 3] else []

/-- w of R38: the frame has 2^w banks on each slice. -/
def setW (st : Store) (set : Nat) : Nat :=
  match st with
  | .w => 4
  | .p => 4
  | .a => if set < 4 then 3 else if set < 6 then 4 else 5

/-- Is SET valid for the store (R38)? -/
def setValid (st : Store) (set : Nat) : Bool :=
  match st with
  | .w => decide (set < 4)
  | .a => decide (set < 7)
  | .p => decide (set = 0)

/-- The lowest bank of the bank set (R50). -/
def setFirstBank (st : Store) (set : Nat) : Nat :=
  match st with
  | .a => 8 * (setSleeves set).headD 0
  | _ => 0

/-- The tier code of the bank set (R38): SET for the W-store, zero otherwise. -/
def setTier (st : Store) (set : Nat) : Nat :=
  match st with
  | .w => set
  | _ => 0

/-- fold_k(x): exclusive or of the consecutive k-bit fields of x (R49); 64 fields cover every index. -/
def foldLoop (k : Nat) : Nat → Nat → Nat
  | 0, _ => 0
  | n + 1, x => (x % 2 ^ k) ^^^ foldLoop k n (x / 2 ^ k)

/-- fold_k(x) of R49; fold_0 is 0. -/
def foldK (k x : Nat) : Nat := if k = 0 then 0 else foldLoop k 64 x

/-- The slices of a partition: the first logical slice F and the exponent s (R39). -/
structure Span where
  first : Nat
  slog : Nat
  deriving DecidableEq, Repr

/-- The slice exponent a pocket's hash uses (R49): s for SPREAD, 0 for LOCAL. -/
def pocketS (sp : Span) (p : Pocket) : Nat := if p.spread then sp.slog else 0

/-- The physical granule index G of an offset (R49). -/
def granule (p : Pocket) (off : Nat) : Nat := p.base * 4096 + off / 256

/-- The bank index j within the bank set (R49). -/
def hashBank (w s g : Nat) : Nat := (g % 2 ^ w) ^^^ foldK w (g / 2 ^ (w + s))

/-- The slice index i within the partition (R49). -/
def hashSlice (w s g : Nat) : Nat := (g / 2 ^ w % 2 ^ s) ^^^ foldK s (g / 2 ^ (w + s))

/-- Where the byte at `off` of a pocket lies (R49, R50). -/
def locate (sp : Span) (st : Store) (p : Pocket) (off : Nat) : Place :=
  let w := setW st p.set
  let s := pocketS sp p
  let g := granule p off
  { slice := if p.spread then sp.first + hashSlice w s g else p.home
    store := st
    tier := setTier st p.set
    bank := setFirstBank st p.set + hashBank w s g
    line := g / 2 ^ (w + s)
    byte := off % 256 }

/-- Capacity in bytes of a pocket's frame (R39). -/
def frameBytes (sp : Span) (st : Store) (p : Pocket) : Nat :=
  st.bankBytes * 2 ^ setW st p.set * 2 ^ pocketS sp p

/-- The first line a pocket occupies in every bank of its frame (R40). -/
def pocketFirstLine (sp : Span) (st : Store) (p : Pocket) : Nat :=
  p.base * 1048576 / (256 * 2 ^ (setW st p.set + pocketS sp p))

/-- One past the last line a pocket occupies (R40); a pocket of BOUND 0 occupies none. -/
def pocketEndLine (sp : Span) (st : Store) (p : Pocket) : Nat :=
  if p.bound = 0 then pocketFirstLine sp st p
  else (p.base * 1048576 + p.bound - 256) / (256 * 2 ^ (setW st p.set + pocketS sp p)) + 1

/-- Does a pocket's frame hold this logical slice? -/
def pocketHasSlice (sp : Span) (p : Pocket) (n : Nat) : Bool :=
  if p.spread then decide (sp.first ≤ n) && decide (n < sp.first + 2 ^ sp.slog) else decide (n = p.home)

/-- Does a pocket's bank set hold this bank? -/
def pocketHasBank (st : Store) (p : Pocket) (tier bank : Nat) : Bool :=
  decide (tier = setTier st p.set) && decide (setFirstBank st p.set ≤ bank) &&
    decide (bank < setFirstBank st p.set + 2 ^ setW st p.set)

/-- Does the pocket occupy this slice, bank and line (R40)? -/
def pocketHolds (sp : Span) (st : Store) (p : Pocket) (q : Place) : Bool :=
  decide (q.store = st) && pocketHasSlice sp p q.slice && pocketHasBank st p q.tier q.bank &&
    decide (pocketFirstLine sp st p ≤ q.line) && decide (q.line < pocketEndLine sp st p)

/-- Two pockets of one partition overlap: some slice, bank and line lies in both (R40). -/
def pocketsOverlap (sp : Span) (st₁ : Store) (p : Pocket) (st₂ : Store) (q : Pocket) : Bool :=
  decide (st₁ = st₂) && decide (setTier st₁ p.set = setTier st₂ q.set) &&
    (p.spread || q.spread || decide (p.home = q.home)) &&
    rangesMeet (setFirstBank st₁ p.set) (2 ^ setW st₁ p.set) (setFirstBank st₂ q.set) (2 ^ setW st₂ q.set) &&
    rangesMeet (pocketFirstLine sp st₁ p) (pocketEndLine sp st₁ p - pocketFirstLine sp st₁ p)
      (pocketFirstLine sp st₂ q) (pocketEndLine sp st₂ q - pocketFirstLine sp st₂ q)

/-- Region, pocket number and offset of a device-local address (R29, R30). -/
def regionOf (a : Nat) : Nat := bitsOf a 39 36
def pocketNoOf (a : Nat) : Nat := bitsOf a 35 32
def offsetOf (a : Nat) : Nat := bitsOf a 31 0

/-- The pocket address of a store, a pocket and an offset (R30). -/
def pocketAddr (st : Store) (pk off : Nat) : Nat := st.code * 2 ^ 36 + pk * 2 ^ 32 + off

end Sys2Proof.Machine
end

