-- ==== Sys2Proof/Machine/Ecc.lean ====
section
/-! DEFINITION. Machine/Ecc.lean: the W-store's Reed-Solomon code, the A- and P-stores' (12,8) code and the poison
tags' reading (14 R412 to R417). Check bits are held as their DIFFERENCE from the check bits of the stored data, so a
word of zeros is a word whose check bits match its data. -/
namespace Sys2Proof.Machine

/-- What the checker reports of one code unit (R414, R417). -/
inductive UnitState where
  | clean | corrected | uncorrectable | poisoned
  deriving DecidableEq, Repr

/-- Multiplication by α = 0x02 in GF(2^8) of 0x11D (R412). -/
def gfDouble (x : Byte) : Byte := if x.getLsbD 7 then (x <<< 1) ^^^ 0x1D#8 else x <<< 1

/-- Multiplication in GF(2^8): the low `n` bits of `b`, from bit 0 up. -/
def gfMulLoop : Nat → Byte → Byte → Byte
  | 0, _, _ => 0
  | n + 1, a, b => (if b.getLsbD 0 then a else 0) ^^^ gfMulLoop n (gfDouble a) (b >>> 1)

/-- Multiplication in GF(2^8) (R412). -/
def gfMul (a b : Byte) : Byte := gfMulLoop 8 a b

/-- α to the power `n`. -/
def gfPow : Nat → Byte
  | 0 => 1
  | n + 1 => gfDouble (gfPow n)

/-- `a` to the power `n`. -/
def gfRaise (a : Byte) : Nat → Byte
  | 0 => 1
  | n + 1 => gfMul a (gfRaise a n)

/-- The inverse in GF(2^8), a^254; zero for zero. -/
def gfInv (a : Byte) : Byte := gfRaise a 254

/-- Remainder of Σ d_k x^(k+4) by g(x) = x^4 + g3 x^3 + g2 x^2 + g1 x + g0, highest data symbol first: one step
of the division with remainder [r0, r1, r2, r3]. -/
def rsStep (g : List Byte) (r : List Byte) (d : Byte) : List Byte :=
  let f := r.getD 3 0 ^^^ d
  [gfMul f (g.getD 0 0), r.getD 0 0 ^^^ gfMul f (g.getD 1 0), r.getD 1 0 ^^^ gfMul f (g.getD 2 0),
   r.getD 2 0 ^^^ gfMul f (g.getD 3 0)]

/-- Coefficients g0..g3 of (x + 1)(x + α)(x + α²)(x + α³) (R412). -/
def rsGen : List Byte :=
  let mulRoot (p : List Byte) (a : Byte) : List Byte :=
    List.zipWith (· ^^^ ·) (p.map (gfMul a) ++ [0]) (0 :: p)
  (mulRoot (mulRoot (mulRoot (mulRoot [1] 1) 2) 4) 8).take 4

/-- The check symbols p_0..p_3 of 32 data bytes (R412). -/
def rsCheck (d : List Byte) : List Byte := d.reverse.foldl (rsStep rsGen) [0, 0, 0, 0]

/-- The exponent of macro `m`'s symbol in c(x): data symbol k has exponent k + 4, check symbol j exponent j (R412). -/
def macroExp (m : Nat) : Nat := if m < 32 then m + 4 else m - 32

/-- The syndromes S_0..S_3 of a received word whose check symbols differ by `dx` from those of its data (R413). -/
def rsSyndromes (dx : List Byte) : List Byte :=
  (List.range 4).map fun k => ((List.range 4).map fun j => gfMul (dx.getD j 0) (gfPow (j * k))).foldl (· ^^^ ·) 0

/-- Coefficients of Π (x + X_j) over the locators given. -/
def locPoly : List Byte → List Byte
  | [] => [1]
  | x :: xs => let p := locPoly xs; List.zipWith (· ^^^ ·) (p.map (gfMul x) ++ [0]) (0 :: p)

/-- Value of a polynomial (constant term first) at `x`. -/
def polyAt (x : Byte) : List Byte → Byte
  | [] => 0
  | c :: cs => c ^^^ gfMul x (polyAt x cs)

/-- The error values at the macros `ms` (at most four) that give the syndromes, or none where they give no code word.
Each value is (Σ p_k S_k) / P_i(X_i), with P_i the product over the other locators. -/
def rsSolve (syn : List Byte) (ms : List Nat) : Option (List (Nat × Byte)) :=
  let locs := ms.map fun m => gfPow (macroExp m)
  let vals := (List.range ms.length).map fun i =>
    let p := locPoly (locs.eraseIdx i)
    let num := (List.zipWith gfMul p syn).foldl (· ^^^ ·) 0
    gfMul num (gfInv (polyAt (locs.getD i 0) p))
  let ok := (List.range 4).all fun k =>
    decide (syn.getD k 0 = ((List.zipWith (fun x v => gfMul v (gfRaise x k)) locs vals).foldl (· ^^^ ·) 0))
  if ok then some (ms.zip vals) else none

/-- The sets of at most `n` of the given macros. -/
def smallSubsets : Nat → List Nat → List (List Nat)
  | 0, _ => [[]]
  | _, [] => [[]]
  | n + 1, m :: ms => smallSubsets (n + 1) ms ++ (smallSubsets n ms).map (m :: ·)

/-- The first of the sets that solves the syndromes. -/
def firstSolve (syn : List Byte) (marks : List Nat) : List (List Nat) → Option (List (Nat × Byte))
  | [] => none
  | u :: us => match rsSolve syn (marks ++ u) with
    | some e => some e
    | none => firstSolve syn marks us

/-- The bounded-distance errors-and-erasures decoder of R413: the error of each macro, or none (uncorrectable). -/
def rsDecode (dx : List Byte) (marks : List Nat) : Option (List (Nat × Byte)) :=
  let syn := rsSyndromes dx
  if syn.all (· == 0) then some []
  else
    let others := (List.range 36).filter fun m => !marks.contains m
    firstSolve syn marks (smallSubsets ((4 - marks.length) / 2) others)

/-- Apply the errors found to the data bytes of a word. -/
def rsApply (d : List Byte) (e : List (Nat × Byte)) : List Byte :=
  d.zipIdx.map fun (b, i) => b ^^^ ((e.find? (·.1 == i)).map (·.2)).getD 0

/-- The checked W-store word: state, corrected data, and the macros in which a correction was made (R413, R414). -/
def rsRead (d dx : List Byte) (marks : List Nat) : UnitState × List Byte × List Nat :=
  if dx.all (· == 0) then (.clean, d, [])
  else match rsDecode dx marks with
    | some e =>
      let e' := e.filter (·.2 != 0)
      if e'.isEmpty then (.clean, d, []) else (.corrected, rsApply d e', e'.map (·.1))
    | none => (.uncorrectable, d, [])

/-- The check nibble c3 c2 c1 c0 of a byte (R415). -/
def hamCheck (b : Byte) : Nat :=
  let d (i : Nat) : Bool := b.getLsbD i
  b2n (d 0 ^^ d 1 ^^ d 3 ^^ d 4 ^^ d 6) + 2 * b2n (d 0 ^^ d 2 ^^ d 3 ^^ d 5 ^^ d 6)
    + 4 * b2n (d 1 ^^ d 2 ^^ d 3 ^^ d 7) + 8 * b2n (d 4 ^^ d 5 ^^ d 6 ^^ d 7)

/-- The data bit at code position `p`, if it holds one (R415). -/
def hamDataBit (p : Nat) : Option Nat :=
  [(3, 0), (5, 1), (6, 2), (7, 3), (9, 4), (10, 5), (11, 6), (12, 7)].lookup p

/-- Invert the bit at code position `p` of a byte; a check bit's inversion leaves the data. -/
def hamFlip (b : Byte) (p : Nat) : Byte :=
  match hamDataBit p with
  | some i => b ^^^ BitVec.ofNat 8 (2 ^ i)
  | none => b

/-- The position taken to be in error for a nonzero syndrome under the bank's marked macros (R416: a bit in a marked
macro is rebuilt from the syndrome with its position assumed in error; macro m holds position m + 1). With several
marks the marked position equal to the syndrome is taken, else the lowest (log entry 11). -/
def hamErrorAt (syn : Nat) (marks : List Nat) : Option Nat :=
  match marks with
  | [] => if syn ≤ 12 then some syn else none
  | m :: _ => if marks.contains (syn - 1) then some syn else some (m + 1)

/-- The checked A- or P-store byte: state, corrected data and the macro corrected (R416). The syndrome is the
difference of the stored check bits from those of the stored data. -/
def hamRead (b : Byte) (syn : Nat) (marks : List Nat) : UnitState × Byte × List Nat :=
  if syn = 0 then (.clean, b, [])
  else match hamErrorAt syn marks with
    | some p => (.corrected, hamFlip b p, [p - 1])
    | none => (.uncorrectable, b, [])

/-- The macros that hold a copy of a unit's tag (R417): all 36 for a W-store word; three of 12 for byte b of a beat. -/
def tagMacros (isW : Bool) (byte : Nat) : List Nat :=
  if isW then List.range 36 else [byte % 4, byte % 4 + 4, byte % 4 + 8]

/-- Does a unit whose copies are all written alike read as poisoned (R417)? A set tag reads set; a clear tag reads
set only where no copy lies in an unmarked macro. -/
def tagReads (isW : Bool) (byte : Nat) (tag : Bool) (marks : List Nat) : Bool :=
  if (tagMacros isW byte).all (marks.contains ·) then true else tag

end Sys2Proof.Machine
end

