-- ==== Sys2Proof/Machine/Maps.lean ====
section
/-! DEFINITION. Machine/Maps.lean: sparse maps in one canonical form, the form in which the model holds every
memory and every numbered set of units: keys strictly rising, no entry equal to what an unlisted key reads as. -/
namespace Sys2Proof.Machine

/-- A sparse map over numbers. -/
abbrev NMap (α : Type) := List (Nat × α)

/-- The value at key `k`; an unlisted key reads as `d k`. -/
def mget {α : Type} (d : Nat → α) : NMap α → Nat → α
  | [], k => d k
  | (j, v) :: m, k => if k = j then v else if k < j then d k else mget d m k

/-- Insert or replace the entry of `k`, keeping the keys rising. -/
def minsert {α : Type} (k : Nat) (v : α) : NMap α → NMap α
  | [] => [(k, v)]
  | (j, w) :: m => if k = j then (k, v) :: m else if k < j then (k, v) :: (j, w) :: m else (j, w) :: minsert k v m

/-- Drop the entry of `k`. -/
def mremove {α : Type} (k : Nat) : NMap α → NMap α
  | [] => []
  | (j, w) :: m => if k = j then m else if k < j then (j, w) :: m else (j, w) :: mremove k m

/-- Store `v` at `k`, keeping the canonical form. -/
def mput {α : Type} [DecidableEq α] (d : Nat → α) (m : NMap α) (k : Nat) (v : α) : NMap α :=
  if v = d k then mremove k m else minsert k v m

/-- Every key of the map is at least `lo` and the keys rise strictly. -/
def keysRise {α : Type} : Nat → NMap α → Bool
  | _, [] => true
  | lo, (k, _) :: m => decide (lo ≤ k) && keysRise (k + 1) m

/-- The canonical form. -/
def mwf {α : Type} [DecidableEq α] (d : Nat → α) (m : NMap α) : Bool :=
  keysRise 0 m && m.all fun e => decide (e.2 ≠ d e.1)

/-- Drop every entry whose key satisfies the test: those keys read as the default again. -/
def mclear {α : Type} (p : Nat → Bool) (m : NMap α) : NMap α := m.filter fun e => !p e.1

/-- Store a list of values from key `k` upward. -/
def mputList {α : Type} [DecidableEq α] (d : Nat → α) (m : NMap α) (k : Nat) : List α → NMap α
  | [] => m
  | v :: vs => mputList d (mput d m k v) (k + 1) vs

/-- Read `n` values from key `k` upward. -/
def mgetList {α : Type} (d : Nat → α) (m : NMap α) (k : Nat) : Nat → List α
  | 0 => []
  | n + 1 => mget d m k :: mgetList d m (k + 1) n

end Sys2Proof.Machine
end

