-- ==== Sys2Proof/Machine/Types.lean ====
section
/-! DEFINITION. Machine/Types.lean: the records that State is made of: statuses, log entries, memories, contexts,
partitions, queues and commands, ports and buffers, weaves and contracts. -/
namespace Sys2Proof.Machine

/-- The status codes of 05 R146; `specific c` is an opcode-specific code 0x80 to 0xFF. -/
inductive Status where
  | ok | okCorrected | okRetried | okDelayed | partialDone
  | rejectedContract | boundViolation | decodeError | versionUnsupported | reservedNonzero | writeIgnored
  | creditDenied | creditDeferred | capBelowFloor | pendingShutdown
  | uncorrectable | unitFailed | timeoutWatchdog | guaranteeSuspended | lockAbandoned | counterFault | secureRefused
  | tainted
  | specific (c : Nat)
  deriving DecidableEq, Repr

/-- The code of a status (R146). -/
def Status.code : Status → Nat
  | .ok => 0x00
  | .okCorrected => 0x01
  | .okRetried => 0x02
  | .okDelayed => 0x03
  | .partialDone => 0x04
  | .rejectedContract => 0x10
  | .boundViolation => 0x11
  | .decodeError => 0x12
  | .versionUnsupported => 0x13
  | .reservedNonzero => 0x14
  | .writeIgnored => 0x15
  | .creditDenied => 0x16
  | .creditDeferred => 0x17
  | .capBelowFloor => 0x18
  | .pendingShutdown => 0x19
  | .uncorrectable => 0x20
  | .unitFailed => 0x21
  | .timeoutWatchdog => 0x22
  | .guaranteeSuspended => 0x23
  | .lockAbandoned => 0x24
  | .counterFault => 0x25
  | .secureRefused => 0x26
  | .tainted => 0x27
  | .specific c => c

/-- The status of a code (R146). The codes 0x80 to 0xFF belong to opcodes; any other that R146 does not name, which only a frame of
another device could carry, is taken as DECODE_ERROR (00 R9; DESIGN CHOICE, log entry 94). -/
def statusOf (c : Nat) : Status :=
  (([.ok, .okCorrected, .okRetried, .okDelayed, .partialDone, .rejectedContract, .boundViolation, .decodeError,
     .versionUnsupported, .reservedNonzero, .writeIgnored, .creditDenied, .creditDeferred, .capBelowFloor,
     .pendingShutdown, .uncorrectable, .unitFailed, .timeoutWatchdog, .guaranteeSuspended, .lockAbandoned,
     .counterFault, .secureRefused, .tainted] : List Status).find? fun s => s.code == c).getD
    (if 0x80 ≤ c ∧ c ≤ 0xFF then .specific c else .decodeError)

/-- Precedence among statuses found during execution (R147): the lower rank wins. -/
def Status.rank : Status → Nat
  | .unitFailed => 0
  | .tainted => 0
  | .uncorrectable => 1
  | .counterFault => 2
  | .timeoutWatchdog => 3
  | .rejectedContract => 4
  | .boundViolation => 4
  | .decodeError => 4
  | .versionUnsupported => 4
  | .reservedNonzero => 4
  | .writeIgnored => 4
  | .creditDenied => 4
  | .creditDeferred => 4
  | .capBelowFloor => 4
  | .pendingShutdown => 4
  | .secureRefused => 4
  | .specific _ => 5
  | .lockAbandoned => 6
  | .guaranteeSuspended => 7
  | .partialDone => 8
  | .okRetried => 9
  | .okCorrected => 10
  | .okDelayed => 11
  | .ok => 12

/-- The status chosen of one found first and one found later (R147); among equals the first stands. -/
def Status.join (a b : Status) : Status := if b.rank < a.rank then b else a

/-- Who made an access: the writer fields of an error-log entry (06 R204). -/
inductive Who where
  | nobody
  | queue (q : Nat)
  | homePort (slice port : Nat)
  | mesh (slice srcdev srcstop : Nat)
  deriving DecidableEq, Repr

/-- For whom bytes of a store are read or written: the context and the requester (R197, R204). -/
structure Agent where
  ctx : Nat
  who : Who
  deriving DecidableEq, Repr

/-- An error-log entry without its sequence number (R204). `low` holds word 5 bits 15:0. -/
structure LogEntry where
  code : Nat
  src : Nat
  lslice : Nat
  unit : Nat
  wkind : Nat
  ctx : Nat
  writer : Nat
  addr : Nat
  srcdev : Nat
  low : Nat
  time : Nat
  deriving DecidableEq, Repr

/-- The error log (06 R202, 14 R427 to R429): event queues of the slices (64: the device queue), the ring of the newest
1,024 entries, the first-error set, the counters (index 0x3F: lost entries) and the next sequence number. -/
structure LogState where
  queues : NMap (List LogEntry)
  ring : List (Nat × LogEntry)
  first : List (Nat × LogEntry)
  counters : NMap Nat
  seq : Nat
  turn : Nat
  deriving DecidableEq, Repr

/-- The memories (00 R3; 02 R29, R33; 14 R412 to R418). Store bytes, check-bit differences and tags are keyed by
`Place.key`; the system region by slice × 131,072 + offset; the load area and external memory by address. `owed` lists
the units whose tag is to be set in the next background slot (R418). `extPoison` is kept by 64 B range (18 R511). `extErr` is the environment's: the status with
which the outer port answers an access to a 64 B block (0 OK). -/
structure Mem where
  data : NMap Byte
  chk : NMap Byte
  tag : NMap Bool
  owed : List Nat
  sys : NMap Byte
  boot : NMap Byte
  ext : NMap Byte
  extPoison : NMap Bool
  extErr : NMap Nat
  deriving DecidableEq, Repr

/-- A context's state (13 R394). -/
inductive CtxState where
  | active | suspended | faulted
  deriving DecidableEq, Repr

/-- A context (06 R183, 13 R394). `tele` holds the counters of telemetry page 0x00 by word pair (R197); `throttle` the
reasons of page 0x01 (16 R482) and `energy` the attributed energy in pJ (17 R501). `cmap` is the counter map (10 R307):
virtual counter or lock (kind × 65,536 + VID) to physical object plus one. -/
structure Ctx where
  tenant : Nat
  part : Nat
  wdog : Nat
  keyEn : Bool
  keySlot : Nat
  dbg : Bool
  extBase : Nat
  extSize : Nat
  state : CtxState
  destroying : Bool
  fault : Status
  pockets : NMap Pocket
  cmap : NMap Nat
  tele : NMap Nat
  energy : Nat
  deriving DecidableEq, Repr

/-- State of a partition (13 R390). -/
inductive PartState where
  | absent | opened | sealed | dissolving | suspending | activating
  deriving DecidableEq, Repr

/-- State of a queue (05 R124). -/
inductive QState where
  | disabled | running | parked | stopped
  deriving DecidableEq, Repr

/-- QSTATE as descriptor bits 31:30 of word 7 (R124). -/
def QState.code : QState → Nat
  | .disabled => 0
  | .running => 1
  | .parked => 2
  | .stopped => 3

/-- QSTATE of two bits. -/
def qstateOf (c : Nat) : QState :=
  if c = 1 then .running else if c = 2 then .parked else if c = 3 then .stopped else .disabled

/-- A cached queue descriptor and the command unit's state of that queue (05 R124, R138, R145, R161). `words` are the
eight words as read at the latest descriptor fetch, of which 0, 1, 2 bits 31:16, 5 and 6 count; the dynamic fields stand
beside them. `hemSaid`: the HEM at CHAIN has had its reply. -/
structure QueueRec where
  words : List Word
  rcons : Nat
  chain : Nat
  qstate : QState
  rung : Bool
  rphase : Bool
  rprod : Nat
  pinned : Bool
  lru : Nat
  hemSaid : Bool
  disabling : Bool
  deriving DecidableEq, Repr

/-- Interrupt requests of a queue (05 R145): the REFCLK count at its latest one, and the one owed for replies within the gap, with its
function, vector and due time. They outlast the queue's entry in the cache. -/
structure QIrq where
  last : Option Nat
  owed : Option (Nat × Nat × Nat)
  deriving DecidableEq, Repr

/-- No request made. -/
def QIrq.zero : QIrq := { last := none, owed := none }

/-- Who waits for the end of an operation: a command, an outstanding port request, a register write that is a row of
its own (`direct`), or nobody. -/
inductive Origin where
  | none
  | cmd (id : Nat)
  | op (id : Nat)
  | direct (addr : Nat)
  deriving DecidableEq, Repr

/-- Who makes a register write: what waits for it, and how the error log names the writer (06 R204, R205). -/
structure RegBy where
  origin : Origin
  slice : Nat
  src : Nat
  unit : Nat
  who : Who
  ctx : Nat
  secure : Bool
  deriving DecidableEq, Repr

/-- Why a descriptor is fetched (05 R125, R151, R159). `msg` is a message on a queue that is not cached: its kind (0
DOORBELL, 1 REPLY_ACK), path unit, context and payload; `rack` a QCTL_RACK write of `v` on such a queue (R158). -/
inductive FetchFor where
  | enable (delayed : Bool)
  | disable
  | pin
  | service
  | msg (kind unit ctx payload : Nat) (tenantOk : Bool)
  | rack (v : Nat) (by_ : RegBy)
  deriving DecidableEq, Repr

/-- The queue control of one slice (05 R158, R159): the operation in progress (OP and QIDX), an ENABLE that waits with
EN_WAIT, the QCTL writes to take when BUSY falls with what waits for each, and the fields of QCTL_STAT. `turns` holds the queue
admitted last in each class of R140 (0 G class, 1 privileged, 2 other). -/
structure QctlRec where
  busy : Option (Nat × Nat)
  enWait : Bool
  later : List (Nat × Origin)
  result : Nat
  qstate : Nat
  qidx : Nat
  turns : NMap Nat
  deriving DecidableEq, Repr

/-- Queue control after reset. -/
def QctlRec.zero : QctlRec := { busy := none, enWait := false, later := [], result := 0, qstate := 0, qidx := 0, turns := [] }

/-- Where a command stands between its fetch and the acknowledgement of its reply (05 R137 to R145). -/
inductive CmdPhase where
  | held | admitted | waiting | done | replied
  deriving DecidableEq, Repr

/-- A fetched packet. `status`, `count` and `result` are the reply's; `admitB` is BCNT at admission; `bound` the
completion bound of a G-class command (08 R268); `delayed` marks a wait that gives OK_DELAYED; `after` lists the
commands a FENCE waits for; `isFetch` marks a fetch-failure reply, `isHem` the reply of a HEM. -/
structure Cmd where
  id : Nat
  queue : Nat
  gen : Nat
  ctx : Nat
  words : List Word
  paddr : Nat
  phase : CmdPhase
  status : Status
  count : Nat
  result : Nat
  admitB : Nat
  elapsed : Nat
  gcls : Bool
  suspended : Bool
  bound : Option Nat
  rail : Bool
  delayed : Bool
  after : List Nat
  isFetch : Bool
  isHem : Bool
  irqSel : Bool
  deriving DecidableEq, Repr

/-- Port state (04 R116). -/
inductive PortState where
  | disabled | enabled | draining | clearing
  deriving DecidableEq, Repr

/-- STATE as PORT_STAT bits 31:30. -/
def PortState.code : PortState → Nat
  | .disabled => 0
  | .enabled => 1
  | .draining => 2
  | .clearing => 3

/-- A reuse entry (04 R100): the bytes taken from one 64 B range of a pocket of a context, by offset in the range. -/
structure ReuseEntry where
  ctx : Nat
  base : Nat
  data : NMap Byte
  fillB : Nat
  deriving DecidableEq, Repr

/-- What leaves the block (18): port responses, replies' interrupts, wake messages, frames, and the status of a register
write that was a row of its own. -/
inductive Out where
  | portRsp (slice port tag : Nat) (st : Status) (count : Nat) (data : List (Byte × Bool)) (zeroRows : List Nat)
  | regDone (addr : Nat) (st : Status)
  | msix (fn vec queue : Nat)
  | wake (stop ctx wtag : Nat)
  | frame (port : Nat) (words : List Word) (data : List Byte) (poison : List Bool)
  | keyRsp (code : Nat)
  | measure (words : List Word)
  | tevt (tdi : Nat) (ready error : Bool)
  | resetAck (ctx hid : Nat)
  | i3c (bytes : List Byte)
  | test (words : List Word)
  deriving DecidableEq, Repr

/-- What one port keeps beside its registers (04 R87, R99, R100, R118). `held` holds the responses of a PP1 port that wait
for those of older requests, by request number. -/
structure PortRec where
  state : PortState
  disWait : List Origin
  enWait : List Origin
  late : Option Status
  reuse : List ReuseEntry
  urg : Nat
  clearB : Nat
  held : NMap Out
  deriving DecidableEq, Repr

/-- What a write-back entry has of its slice's range scoreboard (04 R103, 08 R280): nothing, a place in the wait for one of the 224
shared entries, a shared entry, or one of the 32 that are reserved for G class. -/
inductive SbHold where
  | none | waits | shared | reserved
  deriving DecidableEq, Repr

/-- A write-back entry (04 R94 to R98, R103): up to 64 B at `base` (a pocket address rounded down to 64 B) of one
context, with byte enables `be`. `acc` is the ACCOP of an ACC_WRITE. `after` lists the entries and reads that must
finish first; `left` the beats not yet served; `sb` its range-scoreboard entry; `lost` the offsets not written, or written
poisoned; `np` the requests that wait for the commit, each with the offsets it wrote; `flushes` the flushes that drain it. `home`
is the slice of the port. `cred` is the grant and bytes it lands on (12 R372). `req` is the G-class request it is served for, and
`gLeft` the bytes that G-class writes put into it and no slot has yet moved (08 R248, R265). `landed` tells that an entry for another slice holds a
unit of that slice's internal landing pool (12 R368, R369). -/
structure WbEntry where
  id : Nat
  home : Nat
  port : Nat
  ctx : Nat
  base : Nat
  be : NMap Byte
  bad : NMap Bool
  acc : Option Nat
  g : Bool
  owner : Option Nat
  takenB : Nat
  ep : Nat
  set : Nat
  issued : Bool
  started : Bool
  sb : SbHold
  left : Nat
  status : Status
  lost : List Nat
  after : List Nat
  np : List (Nat × List Nat)
  flushes : List Origin
  posted : Bool
  cred : Option (Nat × Nat)
  who : Who
  req : Nat
  gLeft : Nat
  landed : Bool
  deriving DecidableEq, Repr

/-- What an outstanding port request is (04 R82); a request passed to the fabric waits as `remote`. -/
inductive OpKind where
  | read | write | accWrite | flush | tspill | tfill | remote | reg
  deriving DecidableEq, Repr

/-- An outstanding port request (04 R86 to R88, R101). `keys` and `addrs` are the places and pocket addresses of its store
bytes, in stored order; `fwd` holds the forwarded ones; `got` holds what has been taken (value and poison); `hdr` is the request header; `bound`, `lpath` and `acceptB`
serve the miss monitor (08 R271). `ret` is the device and the fabric TAG that a request frame's answer goes to (12 R363). -/
structure PortOp where
  id : Nat
  slice : Nat
  port : Nat
  tag : Nat
  kind : OpKind
  ctx : Nat
  hdr : BitVec 128
  ext : DWord
  keys : List Nat
  addrs : List Nat
  fwd : NMap (Byte × Bool)
  got : NMap (Byte × Bool)
  left : Nat
  entries : Nat
  status : Status
  bad : Nat
  g : Bool
  owner : Option Nat
  suspended : Bool
  acceptB : Nat
  bound : Option Nat
  lpath : Nat
  rail : Bool
  noReuse : List Nat
  after : List Nat
  ret : Option (Nat × Nat)
  deriving DecidableEq, Repr

/-- What a waiting beat does at its bank. -/
inductive BeatKind where
  | read | write | accum
  deriving DecidableEq, Repr

/-- One beat waiting for its bank (03 R58 to R61): of port request `op` (a read) or of write-back entry `op`. `items` are its
bytes, all of one line segment of the bank (03 R65): each with its key and its index in the request, or its offset in the entry.
`req` is the request it is served for in a slot (08 R248), `born` BCNT when it was sent to its bank, `src` the port it comes from
(slice × 16 + port). `queued` tells a beat that has an entry of its bank's queue from one that the crossbar still holds
(03 R61, 04 R106): a shared entry for B class, a reserved one for a G-class beat that its slot found behind a two-cycle beat. -/
structure Beat where
  seq : Nat
  op : Nat
  req : Nat
  kind : BeatKind
  slice : Nat
  group : Nat
  bank : Nat
  items : List (Nat × Nat)
  g : Bool
  owner : Option Nat
  set : Nat
  ep : Nat
  reqr : Nat
  src : Nat
  born : Nat
  queued : Bool
  deriving DecidableEq, Repr

/-- Bytes of a data command or of a mover's piece that the bank groups of one slice have still to move (08 R248, R249, R277): `of`
is the command or the piece, `req` the request it serves: the command, or the first piece of the mover's row; `st`, `set` and `acc` name
the group set, `left` counts the bytes. `owe` is what leaves the backlog of
contract (`kind`, `target`) as they move (08 R265). `reqr` is the requester under the regulator, and `ep` its effective priority
(08 R277). -/
structure Work where
  id : Nat
  of : Nat
  req : Nat
  slice : Nat
  st : Store
  set : Nat
  acc : Bool
  left : Nat
  owe : Nat
  g : Bool
  owner : Nat
  kind : Nat
  target : Nat
  reqr : Nat
  ep : Nat
  deriving DecidableEq, Repr

/-- A clear of released lines (06 R169): bank, first line and end line of each part still to write, and what waits. -/
structure ClearJob where
  id : Nat
  todo : List (Nat × Nat × Nat)
  part : Nat
  lines : Nat
  deriving DecidableEq, Repr

/-- A contract (06 R189, 08 R262 to R265): KIND and TARGET as CONTRACT_BIND gives them. `todo` lists the slices of the
owner's span whose next frame boundary has still to come before a bind, unbind, suspension or resumption takes effect. -/
structure Contract where
  kind : Nat
  target : Nat
  owner : Nat
  rate : Nat
  depth : Nat
  qmax : Nat
  bound : Nat
  ctx : Nat
  srcstop : Nat
  tokens : Nat
  backlog : Nat
  active : Bool
  unbinding : Bool
  suspended : Bool
  todo : List Nat
  stamp : Nat
  origin : Origin
  deriving DecidableEq, Repr

/-- A weave table that waits for its frame boundary (08 R258, R259): `stamp` orders the changes of a slice by their
admission; `afterB` is BCNT when every named slice had passed. -/
structure PendWeave where
  stamp : Nat
  afterB : Nat
  table : List Word
  origin : Origin
  deriving DecidableEq, Repr

/-- A SLEEVE_CFG write that waits for its frame boundary (02 R54). -/
structure PendSleeve where
  stamp : Nat
  afterB : Nat
  value : Nat
  origin : Origin
  deriving DecidableEq, Repr

/-- What one slice keeps for its weave and regulator (08 R245, R258, R261, R276 to R280). `weave` is the table in
force, word by word; `pendWeave` the tables that wait; `pendSleeve` the SLEEVE_CFG writes that wait (02 R54); `frameB` BCNT at its latest frame boundary. `cut` is
0 for NONE and C + 1 otherwise; `rr` the requester served last at each bank and at each group's units (03 R60); `allow` the requesters' allowances; `occ` the occupancy sums of the interval by group;
`sent` the requesters (× 16 + group) that sent counted requests; `used` what they sent. `nmuTiles` lists by tier the tiles marked failed,
each with the spare tile that took its place (07 R228, R229); `nmuAcc` and `nmuShadow` are the NMUs' accumulator files and their
shadows by tier (R207), `sab` the slice activation buffer by quarter (R208). `pendDarn` lists the banks whose automatic darn waits for background slots (14 R433). `gonlyWas` keeps by tier the GONLY that stands while the GEMV named
with it runs, where NMU_CFG has been written meanwhile (R211). -/
structure SliceRec where
  weave : List Word
  pendWeave : List PendWeave
  pendSleeve : List PendSleeve
  frameB : Nat
  cut : Nat
  rr : NMap Nat
  allow : NMap Nat
  used : NMap Nat
  sent : List Nat
  occ : NMap Nat
  occN : Nat
  maxOcc : Nat
  missCount : Nat
  missTarget : Nat
  gflush : List Nat
  failed : Bool
  failedCu : Bool
  cutOff : Bool
  spare : Option Nat
  marks : NMap (List Nat)
  pendMarks : List (Nat × Nat)
  corr : NMap Nat
  darned : NMap Nat
  spareLanes : NMap Nat
  pendLanes : List Nat
  ivrUsed : Bool
  nmuRetired : NMap Bool
  nmuTiles : NMap (List (Nat × Nat))
  nmuRetries : NMap Nat
  nmuAcc : NMap (List Word)
  nmuShadow : NMap (List Word)
  sab : NMap (List Byte)
  gonlyWas : NMap (Option (Nat × Bool))
  pendDarn : List Nat
  accSat : Nat
  deriving DecidableEq, Repr

end Sys2Proof.Machine
end

