-- ==== Sys2Proof/Machine/Types2.lean ====
section
/-! DEFINITION. Machine/Types2.lean: the records of counters, locks and waiters (10) and of movers (11). -/
namespace Sys2Proof.Machine

/-- A physical counter (10 R308 to R312): what it is mapped to (context and VID), its mode and parameters PA and PB,
and its state V, E, DRIFT, FAULT and last signaller (R332). Unmapped and zero at reset. -/
structure Counter where
  mapped : Option (Nat × Nat)
  realign : Bool
  remote : Bool
  pa : Nat
  pb : Nat
  v : Nat
  e : Nat
  drift : Nat
  fault : Bool
  lastsig : Nat
  deriving DecidableEq, Repr

/-- The state of an unmapped counter (R310: UNMAP sets the whole state to zero). -/
def Counter.zero : Counter :=
  { mapped := none, realign := false, remote := false, pa := 0, pb := 0, v := 0, e := 0, drift := 0, fault := false,
    lastsig := 0 }

/-- A physical lock (10 R326): its mapping, HELD with the holder (context, HID), ABANDONED, last acquirer or releaser. -/
structure Lock where
  mapped : Option (Nat × Nat)
  holder : Option (Nat × Nat)
  abandoned : Bool
  lastsig : Nat
  deriving DecidableEq, Repr

/-- The state of an unmapped lock. -/
def Lock.zero : Lock := { mapped := none, holder := none, abandoned := false, lastsig := 0 }

/-- Who left a waiter: a command or a mover channel (10 R320, R344). -/
inductive WaitBy where
  | cmd (id : Nat)
  | chan (slice mover ch : Nat)
  deriving DecidableEq, Repr

/-- A waiter at a counter or a lock (10 R320 to R324, R327). `since` is the REFCLK count at admission; `hid` the
acquirer of a lock; `paused` the REFCLK count of a suspension (13 R397). -/
structure Waiter where
  id : Nat
  lock : Bool
  phys : Nat
  by_ : WaitBy
  ctx : Nat
  queue : Nat
  cond : Nat
  consume : Bool
  target : Nat
  tmo : Nat
  since : Nat
  wake : Option (Nat × Nat)
  hid : Nat
  paused : Option Nat
  deriving DecidableEq, Repr

/-- Counters, locks and waiters, oldest first (10 R306, R322). -/
structure SyncState where
  counters : NMap Counter
  locks : NMap Lock
  waiters : List Waiter
  deriving DecidableEq, Repr

/-- State of a mover channel (11 R335). -/
inductive ChState where
  | idle | running | waiting | halted | stopping
  deriving DecidableEq, Repr

/-- STATE as MCH_STAT bits 31:29. -/
def ChState.code : ChState → Nat
  | .idle => 0
  | .running => 1
  | .waiting => 2
  | .halted => 3
  | .stopping => 4

/-- A piece read ahead and not yet retired (11 R340, R347): its instruction, row and first byte within the row, its
operand addresses, its bytes with their poison, whether it ends its row, BCNT and the bound of its row's
admission (11 R353), and the loop counters and offset registers as its MOVE found them. `rail` marks one that a rail limit has held
(08 R273). -/
structure Piece where
  id : Nat
  pc : Nat
  row : Nat
  byte : Nat
  src : Nat
  dst : Nat
  data : List (Byte × Bool)
  g : Bool
  rowEnd : Bool
  admitB : Nat
  bound : Option Nat
  rail : Bool
  lc : List Nat
  ofs : List Nat
  deriving DecidableEq, Repr

/-- A staging entry of a mover (11 R350): up to 64 B at `base` of the channel's context. -/
structure StageEntry where
  id : Nat
  ch : Nat
  ctx : Nat
  base : Nat
  be : NMap Byte
  takenC : Nat
  deriving DecidableEq, Repr

/-- A mover channel beside its registers (11 R335, R337, R343, R351). `ipc` is the instruction being issued, `row` and
`byte` where its next piece starts, `checked` that its range has passed R342, `rowB` BCNT and the bound of the row being
issued (R353), `latched` the MCH_LASTDST that the latest read of MCH_LASTSRC latched (R351), `clear` the clear that a SPILL waits for (R354), `owedHalt` a failure with the address the log gives it (R352). `owed` is what the row being issued has still in its contract's backlog
beyond the pieces read (08 R265), `rowReq` the number of that row's first piece, `railed` that a rail limit has held a piece of the row that retires (08 R273),
`spilling` the SPILL that waits for the drain of its pocket: context, store, pocket and image (R354). -/
structure Chan where
  state : ChState
  stopWait : List Origin
  startWait : List Origin
  status : Status
  ipc : Nat
  row : Nat
  byte : Nat
  checked : Bool
  ahead : List Piece
  lastSrc : Nat
  lastDst : Nat
  latched : Option Nat
  lc : List Nat
  ofs : List Nat
  saving : Bool
  rowB : Nat × Option Nat
  clear : Nat
  owedHalt : Option (Status × Nat)
  owed : Nat
  rowReq : Nat
  railed : Bool
  spilling : Option (Nat × Store × Nat × Nat)
  deriving DecidableEq, Repr

/-- A channel after reset, and as START leaves its counters (R337). -/
def Chan.zero : Chan :=
  { state := .idle, stopWait := [], startWait := [], status := .ok, ipc := 0, row := 0, byte := 0, checked := false,
    ahead := [], lastSrc := 0, lastDst := 0, latched := none, lc := [0, 0, 0, 0], ofs := [0, 0, 0, 0], saving := false,
    rowB := (0, none), clear := 0, owedHalt := none, owed := 0, rowReq := 0, railed := false, spilling := none }

/-- The movers: channels by slice × 16 + mover × 8 + channel; staging by slice × 2 + mover, oldest first; the channel that each mover
took last (R334). -/
structure MoverState where
  chans : NMap Chan
  stage : NMap (List StageEntry)
  turns : NMap Nat
  deriving DecidableEq, Repr

end Sys2Proof.Machine
end

