-- ==== Sys2Proof/Machine/Types3.lean ====
section
/-! DEFINITION. Machine/Types3.lean: the records of partitions and tenants (13), rack memory (12), clocks and power
(15, 16), the meter (17), the test access (18), and the outputs. -/
namespace Sys2Proof.Machine

/-- A partition (13 R390). `waitOp` is a PART_CTL value that waits with EN_WAIT, with its writer; `queued` the ones written while BUSY;
`delayed` says that the running operation waited; `met` lists the tenants suspended here since their first context;
`energy`, `baseM`, `baseA` serve page 0x02 (17 R501): the model energy since CONFIGURE and the accumulators at it. -/
structure PartRec where
  state : PartState
  first : Nat
  slog : Nat
  secure : Bool
  taint : Bool
  active : Nat
  busy : Bool
  waitOp : Option (Nat × RegBy)
  queued : List (Nat × RegBy)
  delayed : Bool
  result : Nat
  refuse : Nat
  met : List Nat
  stopping : List Nat
  energy : Nat
  baseM : Nat
  baseA : Nat
  deriving DecidableEq, Repr

/-- A partition after reset: ABSENT (R390). -/
def PartRec.zero : PartRec :=
  { state := .absent, first := 0, slog := 0, secure := false, taint := false, active := 0, busy := false,
    waitOp := none, queued := [], delayed := false, result := 0, refuse := 0, met := [], stopping := [],
    energy := 0, baseM := 0, baseA := 0 }

/-! Rack memory (12) -/

/-- A grant at its target (R370 to R376): `landed` counts bytes by slice; `ends` lists the RENEW and RELEASE requests that
its end answers (kind, source device, REQID); `revoked` of a failed partition answers UNIT_FAILED. -/
structure Grant where
  part : Nat
  index : Nat
  srcdev : Nat
  tenant : Nat
  tctx : Nat
  store : Nat
  pocket : Nat
  scope : List Nat
  win : Nat
  reserved : Bool
  expiry : Nat
  live : Bool
  failed : Bool
  landed : NMap Nat
  ends : List (Nat × Nat × Nat × Nat)
  deriving DecidableEq, Repr

/-- A deferred GRANT at its target (R374). -/
structure Deferral where
  part : Nat
  srcdev : Nat
  tenant : Nat
  tctx : Nat
  store : Nat
  pocket : Nat
  win : Nat
  life : Nat
  reqid : Nat
  tslice : Nat
  since : Nat
  deriving DecidableEq, Repr

/-- A held credit at its source (R377): the grant record's words. -/
structure Held where
  part : Nat
  ctx : Nat
  dev : Nat
  handle : Nat
  words : List Word
  deriving DecidableEq, Repr

/-- What an outward frame asks for. -/
inductive FabKind where
  | portRead | coreWrite | pieceWrite | pieceRead | signal | grant | renew | release
  deriving DecidableEq, Repr

/-- An outward frame that awaits its answer, or its turn to leave (R363, R372, R383). `tag` is the fabric port's TAG, or
the REQID of a credit message or counter signal; `tslice` the target slice of a piece (64: resolved); `off` the byte of
the command's range where a piece starts; `deferred` marks a GRANT whose deferral notice has come, and `gone` one whose
answer is no longer wanted. A GRANT keeps its command's TAG in `off` and its queue in `len`; `win` is a piece's window.
`paused` is the REFCLK count at which SUSPEND paused the timers of a deferred GRANT (13 R394). -/
structure FabReq where
  id : Nat
  kind : FabKind
  origin : Origin
  dev : Nat
  ctx : Nat
  part : Nat
  home : Nat
  port : Nat
  tag : Nat
  tslice : Nat
  handle : Nat
  off : Nat
  len : Nat
  sent : Bool
  sentAt : Nat
  route : Word
  words : List Word
  data : List Byte
  poison : List Bool
  got : List (Byte × Bool)
  deferred : Bool
  gone : Bool
  noWait : Bool
  since : Nat
  tmo : Nat
  grec : Nat
  gvid : Option Nat
  win : Nat
  paused : Option Nat
  deriving DecidableEq, Repr

/-- Rack memory's state. -/
structure FabState where
  grants : List Grant
  deferred : List Deferral
  served : NMap Nat
  held : List Held
  reqs : List FabReq
  deriving DecidableEq, Repr

/-! Clocks, reset and power states (15) -/

/-- A slice power state (R452). -/
inductive PwrSt where
  | run | idle | retain | off
  deriving DecidableEq, Repr

/-- STATE codes of PWR_STAT (R459). -/
def PwrSt.code : PwrSt → Nat
  | .run => 0
  | .idle => 1
  | .retain => 2
  | .off => 3

/-- Where a slice stands between power states (R457, R460). -/
inductive PwrMode where
  | steady
  | prepare (target : PwrSt)
  | entering (target : PwrSt)
  | waking
  deriving DecidableEq, Repr

/-- The power state of one slice, in the control domain (R452 to R459). `goal` is a request to carry out once the slice is
awake; `waiting` the requests that wait for an entry or a wake to end (OP, whether it is delayed, its writer). `tmr` is IDLE_TMR as the running timers took it (R454); `lost` names the bank groups whose contents RETAIN loses. -/
structure SlcPwr where
  st : PwrSt
  mode : PwrMode
  goal : Option PwrSt
  waiting : List (Nat × Bool × RegBy)
  delayed : Bool
  reqBusy : Bool
  wakePend : Bool
  result : Nat
  refuse : Nat
  abort : Nat
  lastid : Nat
  idleFrom : Nat
  retFrom : Nat
  tmr : Nat
  lost : List Nat
  deriving DecidableEq, Repr

/-- A slice in RUN after start-up. -/
def SlcPwr.zero : SlcPwr :=
  { st := .run, mode := .steady, goal := none, waiting := [], delayed := false, reqBusy := false, wakePend := false,
    result := 0, refuse := 0, abort := 0, lastid := 0, idleFrom := 0, retFrom := 0, tmr := 0x00140032, lost := [] }

/-- The control domain (15 R440 to R465). `phase` is RST_STAT.PHASE; `inReset` that BLK_RST_N is low; `held` that the
derived clocks are held for a relock; `next` an operating point waiting for the running change; `deep` 0 DEV_RUN,
1 entering DEV_DEEP, 2 DEV_DEEP. -/
structure CtlState where
  cause : Nat
  brownout : Bool
  phase : Nat
  unlocks : Nat
  inReset : Bool
  vhvLow : Bool
  held : Bool
  point : Nat
  target : Nat
  slewing : Bool
  next : Option Nat
  cuState : Nat
  digest : List Byte
  deep : Nat
  deepWake : Bool
  devResult : Nat
  devLast : Nat
  wakeReq : Bool
  dynAddr : Option Nat
  i3cIndex : Nat
  pwr : NMap SlcPwr
  deriving DecidableEq, Repr

/-! Power capping (16) -/

/-- A live hint (06 R191, 16 R478). -/
structure Hint where
  ctx : Nat
  kind : Nat
  start : Nat
  dur : Nat
  power : Nat
  deriving DecidableEq, Repr

/-- A frequency lock (06 R194). -/
structure FLock where
  mode : Nat
  point : Nat
  job : Nat
  at_ : Nat
  deriving DecidableEq, Repr

/-- The power controller (16). Powers are in microwatts; `cut` is what temperature has taken from the cap; `bub` the bubble
fractions (0 links, 1 memory, 2 compute); `ovr` and `rise` the counts of deciding estimates; `reasons` THR_STAT and
`reasonUs`, `reasonEp` its counters; `estB` the B-class power of the last window, `lastEst` when it closed and `winHi` the highest
point of the running one; `lockWait` the locks whose change still runs and `capPend` the caps that wait for an estimate (cap, below the
floor, command); `rail` the k in force by slice, `iavg` and `windows` the rail status. -/
structure PowerState where
  cap : Nat
  cut : Nat
  susp : Bool
  bub : NMap Nat
  ovr : Nat
  rise : Nat
  boost : Nat
  unreach : Bool
  est : Nat
  estB : Nat
  lastEst : Nat
  winHi : Nat
  lock : Option FLock
  lockPend : List (FLock × Origin)
  lockWait : List Origin
  capPend : List (Nat × Bool × Nat)
  hints : List Hint
  reasons : Nat
  reasonUs : NMap Nat
  reasonEp : NMap Nat
  rail : NMap Nat
  iavg : NMap Nat
  windows : NMap Nat
  lastRail : Option Nat
  sharedI : Nat
  sharedCut : Nat
  temps : NMap Nat
  tripAt : Option Nat
  trip : Bool
  thermOut : Bool
  spanChange : Bool
  partRail : NMap Nat
  partBub : NMap Nat
  deriving DecidableEq, Repr

/-! The meter (17) -/

/-- The Glomet usage meter (R484 to R500). Energies are in pJ. `chan` is by channel; `part` and `alloc` by partition (32
is UNASSIGNED); `tenants` lists the tenant entries in allocation order with measured and allocated energy (the 256-entry
table) and `overflow` the tenants that found it full; `ivP` and `ivS` are the energies of the running allocation
interval. `written` marks the parameters stored; `queue` the requests waiting for their records. -/
structure MeterState where
  halted : Bool
  session : Nat
  seq : Nat
  time : Nat
  gap : Bool
  gapFrom : Nat
  gapUs : Nat
  gapRc : Nat
  chan : NMap Nat
  ovr : Bool
  faults : List Nat
  part : NMap Nat
  alloc : NMap Nat
  tenants : List (Nat × Nat × Nat)
  overflow : List Nat
  otherM : Nat
  otherA : Nat
  ivP : NMap Nat
  ivS : Nat
  residue : Nat
  unalloc : Nat
  cfg : Nat
  label : Nat
  sealed : Bool
  written : List Nat
  tamper : Nat
  audit : Nat
  logFirst : List (List Word)
  logRing : List (List Word)
  queue : List (Nat × Nat × Nat × Option Nat)
  record : List Word
  deriving DecidableEq, Repr

/-! Darning and test (14, 18) -/

/-- Patrol scrub (06 R198, 14 R422): the periods in minutes, the REFCLK count of a PAUSE, those of the last completed
passes, the beats checked of each bank in the running pass, and the uncorrectable words found in it by bank. -/
structure ScrubState where
  periodW : Nat
  periodA : Nat
  paused : Option Nat
  lastW : Nat
  lastA : Nat
  pos : NMap Nat
  uncorr : NMap Nat
  deriving DecidableEq, Repr

/-- The test access (18 R522 to R525): the selected instruction, the result of the last MBIST or SEAM run, the fuse bits that
FUSE_PROG has blown (by shadow offset × 8 + bit), and those of them that the shadow of unit 0x81 shows. -/
structure TestState where
  instr : Nat
  result : List Word
  blown : List Nat
  shadow : List Nat
  deriving DecidableEq, Repr

end Sys2Proof.Machine
end

