-- ==== Sys2Proof/Machine/State.lean ====
section
/-! DEFINITION. Machine/State.lean: the state of the block, as the spec gives it, and the state right after reset. -/
namespace Sys2Proof.Machine

/-- The reasons a step can stop with a fault. The block has none: every event has the outcome the spec gives it. -/
inductive Fault where
  /-- Raised by nobody; it keeps the type inhabited. Safe. -/
  | unused
  deriving DecidableEq, Repr

/-- The reasons a step has no meaning. -/
inductive Refusal where
  /-- Raised by `exec` for a row of the opcode table that has no meaning yet. Safe: the machine stops. -/
  | notModelled (mnemonic : String)
  deriving DecidableEq, Repr

/-- The state of the block. -/
structure State where
  /-- The commands that wait, first in, first out. -/
  pending : List Instr
  /-- Counter of the free values drawn so far (the model's own). -/
  freeCtr : Nat
  /-- Next number of a command, request, entry, waiter or clear (the model's own). -/
  nextId : Nat
  mem : Mem
  /-- Stored register values by register number (local address div 4). -/
  regs : NMap Word
  /-- W1 fields that have taken their first write, by register number. -/
  w1done : NMap Bool
  bcnt : Nat
  /-- Do the derived clocks run, so that BCNT counts (15 R444, R450, R463)? -/
  bcRun : Bool
  rc : Nat
  log : LogState
  /-- Counters of telemetry page 0x12 by first word (14 R438), kept until VHV is removed. -/
  integ : NMap Nat
  ctxs : NMap (Option Ctx)
  parts : NMap PartRec
  slices : NMap SliceRec
  /-- Cached queue descriptors by queue number. -/
  queues : NMap (Option QueueRec)
  /-- Doorbell-pending and enabled bits by queue number. -/
  qctl : NMap QctlRec
  /-- Descriptor fetches in flight, and write-backs in flight with the words written (05 R161, R162). -/
  qfetch : List (Nat × FetchFor)
  qback : List (Nat × List Word)
  dbPend : NMap Bool
  qEnabled : NMap Bool
  dbDrop : NMap Nat
  /-- Interrupt requests of the queues, by queue number (05 R145). -/
  qirq : NMap QIrq
  /-- Host-window registers by page × 4,096 + offset. -/
  hwin : NMap DWord
  cmds : List Cmd
  ports : NMap PortRec
  ops : List PortOp
  wb : List WbEntry
  beats : List Beat
  /-- Bytes of commands and mover pieces that their bank groups have still to move (08 R248, R277). -/
  works : List Work
  /-- What congestion has taken from each partition's outer-port allowance, and what it has drawn in this interval (08 R278). -/
  outerCut : NMap Nat
  outerUsed : NMap Nat
  busyBanks : List Nat
  clears : List ClearJob
  contracts : List Contract
  sync : SyncState
  movers : MoverState
  outbox : List Out
  fab : FabState
  ctl : CtlState
  power : PowerState
  meter : MeterState
  scrub : ScrubState
  test : TestState
  /-- Key slots (13 R402): tenant and the 512 key bits. -/
  keys : NMap (Option (Nat × Nat))
  /-- TDISP interface states as the host interface reports them, and the ready levels last driven (13 R405, R406). -/
  tdi : NMap Nat
  ready : NMap Bool
  /-- Integration: home ports (slice × 16 + port) that speak PP1 or are not connected (18 R517), their core groups, the
  number of fabric ports and their stops. -/
  pp1 : NMap Bool
  unconn : NMap Bool
  cgrp : NMap Nat
  nfab : Nat
  fstop : NMap Nat
  deriving DecidableEq, Repr

/-- The error log after reset (14 R429). -/
def LogState.zero : LogState := { queues := [], ring := [], first := [], counters := [], seq := 0, turn := 0 }

/-- The memories after the initialisation fill (14 R421): zero data, zero check bits, clear tags; external memory as the
environment holds it (log entry 3). -/
def Mem.zero : Mem :=
  { data := [], chk := [], tag := [], owed := [], sys := [], boot := [], ext := [], extPoison := [], extErr := [] }

/-- Rack memory after reset: no grant, nothing held, nothing in flight (12 R365). -/
def FabState.zero : FabState := { grants := [], deferred := [], served := [], held := [], reqs := [] }

/-- The control domain after a power-on reset, its initialisation fill done: start-up step 4 (15 R448 to R451). -/
def CtlState.zero : CtlState :=
  { cause := 0, brownout := false, phase := 4, unlocks := 0, inReset := false, vhvLow := false, held := false, point := 0,
    target := 0, slewing := false, next := none, cuState := 0, digest := [], deep := 0, deepWake := false, devResult := 0,
    devLast := 0, wakeReq := false, dynAddr := none, i3cIndex := 0, pwr := [] }

/-- The power controller after reset: cap 0x640 (06 R192). -/
def PowerState.zero : PowerState :=
  { cap := 0x640, cut := 0, susp := false, bub := [], ovr := 0,
    rise := 0, boost := 0, unreach := false, est := 0, estB := 0, lastEst := 0, winHi := 0, lock := none, lockPend := [], lockWait := [], capPend := [], hints := [], reasons := 0,
    reasonUs := [], reasonEp := [], rail := [], iavg := [], windows := [], lastRail := none, sharedI := 0, sharedCut := 0,
    temps := [], tripAt := none, trip := false, thermOut := false, spanChange := false, partRail := [], partBub := [] }

/-- The audit event of power-on (17 R485, R494): meter time 0, event code 0x01. -/
def powerOnAudit : List Word := [0, 0, 0x01000000, 0]

/-- The meter as a power-on reset leaves it, session `n` (17 R485, R486). -/
def MeterState.start (n : Nat) : MeterState :=
  { halted := !Config.meterDigestOk, session := Config.meterSession n, seq := 0, time := 0, gap := false, gapFrom := 0,
    gapUs := 0, gapRc := 0, chan := [], ovr := false, faults := [], part := [], alloc := [], tenants := [], overflow := [],
    otherM := 0, otherA := 0, ivP := [], ivS := 0, residue := 0, unalloc := 0, cfg := 0, label := 0, sealed := false,
    written := [], tamper := 0, audit := 1, logFirst := [powerOnAudit], logRing := [], queue := [], record := [] }

/-- Patrol scrub after reset (06 R198). -/
def ScrubState.zero : ScrubState :=
  { periodW := 720, periodA := 60, paused := none, lastW := 0, lastA := 0, pos := [], uncorr := [] }

/-- The device after a power-on reset, with the initialisation fill done (15 R448, R450 steps 1 to 4; 14 R421): start-up
step 5, which starts BCNT and releases the ports, is the event STARTUP_RELEASE. -/
def State.reset : State :=
  { pending := [], freeCtr := 0, nextId := 1, mem := Mem.zero, regs := [], w1done := [], bcnt := 0, bcRun := false, rc := 0,
    log := LogState.zero, integ := [], ctxs := [], parts := [], slices := [], queues := [], qctl := [], qfetch := [], qback := [], dbPend := [], qEnabled := [],
    dbDrop := [], qirq := [], hwin := [], cmds := [], ports := [], ops := [], wb := [], beats := [], works := [], outerCut := [], outerUsed := [], busyBanks := [], clears := [],
    contracts := [], sync := { counters := [], locks := [], waiters := [] }, movers := { chans := [], stage := [], turns := [] },
    outbox := [], fab := FabState.zero, ctl := CtlState.zero, power := PowerState.zero, meter := MeterState.start 0,
    scrub := ScrubState.zero, test := { instr := 0, result := [], blown := [], shadow := [] }, keys := [], tdi := [], ready := [],
    pp1 := [], unconn := [], cgrp := [], nfab := 8, fstop := [] }

end Sys2Proof.Machine
end

