-- ==== Sys2Proof/Machine/Ops.lean ====
section
/-! DEFINITION. Machine/Ops.lean: the named operations over contexts, partitions, slices, commands and outputs, the error
log (06 R204, 14 R427 to R429) and the end of an operation (05 R142, 04 R86). -/
namespace Sys2Proof.Machine

/-- Update the record of key `k` of a list of things numbered by `f`. -/
def updWhere {α : Type} (p : α → Bool) (g : α → α) (l : List α) : List α := l.map fun x => if p x then g x else x

/-- A number no command, request, entry, waiter or clear has had (the model's own numbering). -/
def freshId (s : State) : Nat × State := (s.nextId, { s with nextId := s.nextId + 1 })

/-- Draw a new free value: the step's free-value counter moves on. -/
def drawFree (s : State) : State := { s with freeCtr := s.freeCtr + 1 }

/-- Send something out of the block. -/
def emit (o : Out) (s : State) : State := { s with outbox := o :: s.outbox }

/-! Contexts and partitions -/

/-- The record of context `c`, if it exists (06 R183). -/
def ctxOf (s : State) (c : Nat) : Option Ctx := mget (fun _ => none) s.ctxs c

/-- Replace the record of context `c`. -/
def setCtx (c : Nat) (x : Option Ctx) (s : State) : State := { s with ctxs := mput (fun _ => none) s.ctxs c x }

/-- Change the record of context `c`, if it exists. -/
def modCtx (c : Nat) (f : Ctx → Ctx) (s : State) : State :=
  match ctxOf s c with
  | some x => setCtx c (some (f x)) s
  | none => s

/-- The record of partition `p` (13 R390: ABSENT where nothing is configured). -/
def partOf (s : State) (p : Nat) : PartRec := mget (fun _ => PartRec.zero) s.parts p

/-- Replace the record of partition `p`. -/
def setPart (p : Nat) (x : PartRec) (s : State) : State := { s with parts := mput (fun _ => PartRec.zero) s.parts p x }

/-- The slices of a partition. -/
def PartRec.span (p : PartRec) : Span := { first := p.first, slog := p.slog }

/-- The logical slices of a span. -/
def Span.slices (sp : Span) : List Nat := (List.range (2 ^ sp.slog)).map (sp.first + ·)

/-- Does a span hold this slice? -/
def Span.has (sp : Span) (n : Nat) : Bool := decide (sp.first ≤ n) && decide (n < sp.first + 2 ^ sp.slog)

/-- The partition that holds logical slice `n`, if any. -/
def partOfSlice (s : State) (n : Nat) : Option Nat :=
  (List.range 32).find? fun p => (partOf s p).state != .absent && (partOf s p).span.has n

/-- The pocket table index of a store and a pocket number (02 R37). -/
def pocketIx (st : Store) (k : Nat) : Nat := st.code * 16 + k

/-- A pocket descriptor of a context. -/
def Ctx.pocket (c : Ctx) (st : Store) (k : Nat) : Pocket := mget (fun _ => Pocket.zero) c.pockets (pocketIx st k)

/-- Replace a pocket descriptor of a context. -/
def Ctx.setPocket (c : Ctx) (st : Store) (k : Nat) (p : Pocket) : Ctx :=
  { c with pockets := mput (fun _ => Pocket.zero) c.pockets (pocketIx st k) p }

/-- The span of a context's partition. -/
def ctxSpan (s : State) (c : Ctx) : Span := (partOf s c.part).span

/-- Every context number that names a context (2,048 at most). -/
def ctxList (s : State) : List (Nat × Ctx) := s.ctxs.filterMap fun (k, x) => x.map fun c => (k, c)

/-- Add to a counter of telemetry page 0x00 of context `c` (06 R197), modulo 2^64. -/
def teleAdd (c i n : Nat) (s : State) : State :=
  modCtx c (fun x => { x with tele := mput (fun _ => 0) x.tele i ((mget (fun _ => 0) x.tele i + n) % 2 ^ 64) }) s

/-! Slices -/

/-- The reset weave (08 R260): FL 4,000, SEQ 0, background slots 49 + 50p of every group, CHECK as R254 asks. -/
def resetWeave : List Word :=
  let ents : List Word := (List.range 9).flatMap fun g =>
    [BitVec.ofNat 32 (g * 2 ^ 28 + 63 * 2 ^ 22 + 49), BitVec.ofNat 32 (79 * 2 ^ 24 + 50 * 2 ^ 12)]
  let head0 : Word := BitVec.ofNat 32 (2 ^ 24 + 4000)
  let sum := (ents.foldl (· + ·) 0) + head0 + 9
  [head0, 9, 0, 0 - sum, 0, 0, 0, 0] ++ List.replicate 64 0 ++ ents

/-- A slice after reset. -/
def SliceRec.zero : SliceRec :=
  { weave := resetWeave, pendWeave := [], pendSleeve := [], frameB := 0, cut := 0, rr := [], allow := [], used := [], sent := [], occ := [],
    occN := 0, maxOcc := 0, missCount := 0, missTarget := 0, gflush := [], failed := false, failedCu := false,
    cutOff := false, spare := none, marks := [], pendMarks := [], corr := [], darned := [], spareLanes := [],
    pendLanes := [], ivrUsed := false, nmuRetired := [], nmuTiles := [], nmuRetries := [], nmuAcc := [], nmuShadow := [], sab := [], gonlyWas := [], pendDarn := [], accSat := 0 }

/-- The record of logical slice `n`. -/
def sliceOf (s : State) (n : Nat) : SliceRec := mget (fun _ => SliceRec.zero) s.slices n

/-- Change the record of logical slice `n`. -/
def modSlice (n : Nat) (f : SliceRec → SliceRec) (s : State) : State :=
  { s with slices := mput (fun _ => SliceRec.zero) s.slices n (f (sliceOf s n)) }

/-- The accumulator files, shadows and SAB quarters of a slice are zeroed (13 R397, R401; 14 R421). -/
def zeroUnits (n : Nat) (s : State) : State := modSlice n (fun r => { r with nmuAcc := [], nmuShadow := [], sab := [] }) s

/-- The marked macros of a bank in force (14 R420). -/
def marksOf (s : State) (bank : Nat) : List Nat := mget (fun _ => []) (sliceOf s (bank / 1024)).marks bank

/-! Registers -/

/-- The register number of a register of unit `u` at byte offset `off` (02 R32). -/
def regNo (u off : Nat) : Nat := (0x8000000000 + u * 0x10000000 + off) / 4

/-- The stored value of a register, whose reset value is `d`. -/
def regGet (s : State) (d r : Nat) : Nat := (mget (fun _ => BitVec.ofNat 32 d) s.regs r).toNat

/-- Store a register's value; `d` is its reset value. -/
def regPut (d r v : Nat) (s : State) : State :=
  { s with regs := mput (fun _ => BitVec.ofNat 32 d) s.regs r (BitVec.ofNat 32 v) }

/-! The error log -/

/-- The writer fields of an entry (R204): WKIND, WRITER, SRCDEV and SRCSTOP. -/
def Who.fields : Who → Nat × Nat × Nat × Nat
  | .nobody => (0, 0, 0, 0)
  | .queue q => (1, q, 0, 0)
  | .homePort n p => (2, n * 16 + p, 0, 0)
  | .mesh _ dev stop => (3, 0, dev, stop)

/-- Build an entry (R204). -/
def mkEntry (s : State) (st : Status) (src lslice unit : Nat) (who : Who) (ctx addr : Nat) : LogEntry :=
  let (k, w, dev, stop) := who.fields
  { code := st.code, src := src, lslice := lslice, unit := unit, wkind := k, ctx := ctx % 2048, writer := w, addr := addr,
    srcdev := dev, low := stop, time := s.rc }

/-- The word of the COUNTERS of R202 that counts a CODE. -/
def codeWord (c : Nat) : Nat :=
  if c < 0x30 then c else if c < 0x80 then 0x3F else if c ≤ 0x8D then 0x30 + (c - 0x80) else 0x3E

/-- Count one more event in a counter word, saturating at 32 bits (R202). -/
def countWord (i : Nat) (l : LogState) : LogState :=
  { l with counters := mput (fun _ => 0) l.counters i (satAdd 32 (mget (fun _ => 0) l.counters i) 1) }

/-- The event queue of an entry (R204, R427): the slice's, or the device's for the host window, the meter and fabric
ports. -/
def LogEntry.queueNo (e : LogEntry) : Nat :=
  if e.src = 8 ∨ e.src = 9 ∨ (e.src = 0x0A ∧ 0x200 ≤ e.unit) then 64 else e.lslice

/-- Report an event (R427, R428): it is counted under its CODE, and enters its event queue unless that holds 8 entries;
then it is lost and counted as lost. -/
def logEvent (e : LogEntry) (s : State) : State :=
  let l := countWord (codeWord e.code) s.log
  let q := mget (fun _ => []) l.queues e.queueNo
  let l' := if q.length < 8 then { l with queues := mput (fun _ => []) l.queues e.queueNo (q ++ [e]) }
    else countWord 0x3F l
  { s with log := l' }

/-- Report an event of R204 with its fields. -/
def report (st : Status) (src lslice unit : Nat) (who : Who) (ctx addr : Nat) (s : State) : State :=
  logEvent (mkEntry s st src lslice unit who ctx addr) s

/-! Commands -/

/-- The command of number `id`. -/
def cmdOf (s : State) (id : Nat) : Option Cmd := s.cmds.find? fun c => c.id == id

/-- Change the command of number `id`. -/
def modCmd (id : Nat) (f : Cmd → Cmd) (s : State) : State :=
  { s with cmds := updWhere (fun c => c.id == id) f s.cmds }

/-- A command as the requester of its bytes. -/
def Cmd.agent (c : Cmd) : Agent := { ctx := c.ctx, who := .queue c.queue }

/-- The opcode of a packet (05 R132). -/
def Cmd.opcode (c : Cmd) : Nat := fld (wordAt c.words 0) 31 20

/-- The home slice of a queue number (05 R121). -/
def qHome (q : Nat) : Nat := q / 8192 % 64
/-- The index of a queue number. -/
def qIndex (q : Nat) : Nat := q % 8192
/-- Is a queue privileged (R121)? -/
def qPriv (q : Nat) : Bool := decide (qIndex q < 16)

/-- The command's effects are complete with this outcome; its reply is still to be written (R142). A command that
waited for a clear, a shutdown or a spilled pocket has OK_DELAYED joined to its status, and one whose contract was
suspended GUARANTEE_SUSPENDED (R147). -/
def cmdDone (id : Nat) (st : Status) (count result : Nat) (s : State) : State :=
  modCmd id (fun c =>
    let st1 := c.status.join st
    let st2 := if c.delayed then st1.join .okDelayed else st1
    let st3 := if c.suspended then st2.join .guaranteeSuspended else st2
    { c with phase := .done, status := st3, count := count, result := result }) s

/-- The command fails before any effect (R137): its status is final. -/
def cmdRefuse (id : Nat) (st : Status) (result : Nat) (s : State) : State :=
  modCmd id (fun c => { c with phase := .done, status := st, count := 0, result := result }) s

/-- Is a queue being disabled, so that none of its commands may begin to wait (05 R159)? -/
def queueClosing (s : State) (q : Nat) : Bool := (mget (fun _ => none) s.queues q).elim false QueueRec.disabling

/-- Does the admitted command `id` hold this opcode? -/
def admittedAs (s : State) (id op : Nat) : Option Cmd :=
  match cmdOf s id with
  | some c => if c.phase = .admitted ∧ c.opcode = op then some c else none
  | none => none

/-! Outstanding port requests -/

/-- The outstanding request of number `id`. -/
def opOf (s : State) (id : Nat) : Option PortOp := s.ops.find? fun o => o.id == id

/-- Change the outstanding request of number `id`. -/
def modOp (id : Nat) (f : PortOp → PortOp) (s : State) : State :=
  { s with ops := updWhere (fun o => o.id == id) f s.ops }

/-- A port after reset: a home port DISABLED, a mesh port ENABLED (04 R118; DISABLED until start-up step 5). -/
def portZero (k : Nat) : PortRec :=
  { state := if k % 16 = 10 then .enabled else .disabled, disWait := [], enWait := [], late := none, reuse := [],
    urg := 0, clearB := 0, held := [] }

/-- The record of a port, by slice × 16 + port. -/
def portOf (s : State) (n p : Nat) : PortRec := mget portZero s.ports (n * 16 + p)

/-- Change the record of a port. -/
def modPort (n p : Nat) (f : PortRec → PortRec) (s : State) : State :=
  { s with ports := mput portZero s.ports (n * 16 + p) (f (portOf s n p)) }

/-- The register number of a port's register (04 R113 to R117). -/
def portReg (n p off : Nat) : Nat := regNo n (0x400 + p * 0x20 + off)

/-- The reset value of PORT_CTL: EN is 1 on the mesh port (R113). -/
def portCtlReset (p : Nat) : Nat := if p = 10 then 1 else 0

/-- Set bits of PORT_ERR (R117). -/
def portErr (n p bit : Nat) (s : State) : State :=
  regPut 0 (portReg n p 0x10) (regGet s 0 (portReg n p 0x10) ||| 2 ^ bit) s

/-- The words of a response frame to device `dev` (12 R363): route word, sideband with LAST = 1, five zero words. -/
def responseWords (dev tag : Nat) (st : Status) (count : Nat) (bad : Bool) : List Word :=
  let route : Word := BitVec.ofNat 32 (dev % 65536 * 65536 + Config.returnPort dev tag % 8 * 512 + 64)
  let side : Word := BitVec.ofNat 32 (tag % 64 * 2 ^ 26 + st.code * 2 ^ 18 + 2 ^ 17 + b2n bad * 2 ^ 16 + Nat.min count 4095)
  [route, side, 0, 0, 0, 0, 0]

/-- A response frame from a slice, with its data and their poison (12 R363). -/
def responseFrame (slice dev tag : Nat) (st : Status) (count : Nat) (data : List (Byte × Bool)) (s : State) : State :=
  emit (.frame (Config.fabricPort slice dev) (responseWords dev tag st count (data.any (·.2))) (data.map (·.1)) (data.map (·.2))) s

/-- Does a port speak PP1 (R80)? The mesh port always speaks PP2. -/
def isPP1 (s : State) (n p : Nat) : Bool := if p = 10 then false else mget (fun _ => false) s.pp1 (n * 16 + p)

/-- Is a request of a PP1 port older than `id` still to be answered (04 R87)? -/
def turnWaits (s : State) (n p id : Nat) : Bool :=
  s.ops.any fun o => o.slice == n && o.port == p && o.ret.isNone && decide (o.id < id)

/-- Send the held responses of a PP1 port whose turn has come, in the order of their requests. -/
def sendHeld (n p : Nat) (s : State) : State :=
  let (now, later) := (portOf s n p).held.partition fun e => !turnWaits s n p e.1
  if now.isEmpty then s else modPort n p (fun r => { r with held := later }) (now.foldl (fun t e => emit e.2 t) s)

/-- The response to request `id` of a port leaves: on PP1 in request order (04 R87). -/
def answer (n p id : Nat) (o : Out) (s : State) : State :=
  if !isPP1 s n p then emit o s
  else if turnWaits s n p id then modPort n p (fun r => { r with held := minsert id o r.held }) s
  else sendHeld n p (emit o s)

/-- Send a port's response and end the request (04 R86, R88). COUNT is capped at 4,095; POISON on a beat sets
PORT_ERR.POISON (R117). -/
def respond (o : PortOp) (st : Status) (count : Nat) (data : List (Byte × Bool)) (zeroRows : List Nat) (s : State) :
    State :=
  let s1 := if data.any (·.2) then portErr o.slice o.port 0 s else s
  let s2 := { s1 with ops := s1.ops.filter fun x => x.id != o.id }
  match o.ret with
  | some (dev, tag) => responseFrame o.slice dev tag st count data s2
  | none => answer o.slice o.port o.id (.portRsp o.slice o.port o.tag st (Nat.min count 4095) data zeroRows) s2

/-- The end of an operation that a command or a port request waits for (a register write that takes time). -/
def finish (o : Origin) (st : Status) (s : State) : State :=
  match o with
  | .none => s
  | .cmd id => cmdDone id st 0 0 s
  | .direct a => emit (.regDone a st) s
  | .op id => match opOf s id with
    | some p =>
      let r := p.status.join st
      respond p r (if r = .ok ∨ r = .okDelayed then fld p.hdr 15 4 + 1 else 0) [] [] s
    | none => s

/-- End every operation that waited. -/
def finishAll (os : List Origin) (st : Status) (s : State) : State := os.foldl (fun t o => finish o st t) s

/-! Register writes -/

/-- The writer of a register-write row. -/
def writerBy (addr : Nat) (w : RegWriter) : RegBy :=
  { origin := .direct addr, slice := w.slice, src := 1, unit := 10, who := .mesh w.slice w.srcdev w.srcstop, ctx := 0,
    secure := w.secure }

/-- The outcome of a register write: its status, or none while it waits. -/
abbrev RegRes := Option Status × State

/-- A register write that is dropped and logged (00 R4, R5). -/
def dropReg (st : Status) (by_ : RegBy) (addr : Nat) (s : State) : RegRes :=
  (some st, report st by_.src by_.slice by_.unit by_.who by_.ctx addr s)

/-- A register write that sets a reserved bit (00 R5): a REG_WRITE only returns the status; a port write is dropped and logged.
DEDUCED: R5 names the log entry for port writes alone, and 06 R204 only says where such an entry would come from. -/
def reservedReg (by_ : RegBy) (addr : Nat) (s : State) : RegRes :=
  if by_.src = 2 then (some .reservedNonzero, s) else dropReg .reservedNonzero by_ addr s

end Sys2Proof.Machine
end

