-- ==== Sys2Proof/Machine/Awake.lean ====
section
/-! DEFINITION. Machine/Awake.lean: what an event does to a slice that is not in RUN (15 R452, R457, R458), and the state
of contexts and partitions that it asks about. -/
namespace Sys2Proof.Machine

/-- The power state of logical slice `n`, or of unmapped spare slice 64 + k. -/
def pwrOf (s : State) (n : Nat) : SlcPwr := mget (fun _ => SlcPwr.zero) s.ctl.pwr n

/-- Change the power state of a slice. -/
def modPwr (n : Nat) (f : SlcPwr → SlcPwr) (s : State) : State :=
  { s with ctl := { s.ctl with pwr := mput (fun _ => SlcPwr.zero) s.ctl.pwr n (f (pwrOf s n)) } }

/-- Is the slice in RUN and not past a commit point? -/
def slcRuns (s : State) (n : Nat) : Bool :=
  let p := pwrOf s n
  p.st == .run && (match p.mode with
    | .steady => true
    | .prepare _ => true
    | _ => false)

/-- Do the background sequencers of a slice run (R452)? In IDLE they ungate their own slots; RETAIN, OFF and the way there stop them. -/
def seqRuns (s : State) (n : Nat) : Bool :=
  let p := pwrOf s n
  (p.st == .run || p.st == .idle) && !(sliceOf s n).cutOff && (match p.mode with
    | .entering _ => false
    | _ => true)

/-- PWR_LASTID (R458). -/
def lastIdOf (kind : Nat) (abort : Bool) (id : Nat) : Nat := kind * 2 ^ 28 + b2n abort * 2 ^ 27 + id % 2 ^ 19

/-- IDLE_TMR (R454). -/
def idleTmr (s : State) (n : Nat) : Nat := regGet s 0x00140032 (regNo n 0x1018)

/-- An event reaches slice `n` (R457): it aborts a Prepare, wakes a slice that sleeps, or is held by one that is past its
commit point, waking, or without its clock or supply (13 R411). Answers whether the slice serves it now. -/
def touch (n kind id : Nat) (s : State) : Bool × State :=
  let p := pwrOf s n
  if (sliceOf s n).cutOff then (false, s)
  else match p.mode with
  | .steady =>
    if p.st = .run then (true, modPwr n (fun x => { x with idleFrom := s.rc, retFrom := s.rc, tmr := idleTmr s n }) s)
    else (false, modPwr n (fun x => { x with mode := .waking }) s)
  | .prepare _ =>
    let run := decide (p.st = .run)
    (run, modPwr n (fun x =>
      { x with mode := if run then .steady else .waking, abort := (x.abort + 1) % 2 ^ 32, reqBusy := false,
               lastid := lastIdOf kind true id, idleFrom := s.rc, retFrom := s.rc, tmr := idleTmr s n }) s)
  | .entering _ => (false, modPwr n (fun x => { x with wakePend := true }) s)
  | .waking => (false, s)

/-- Events reach several slices; answers whether all serve now. -/
def touchAll (ns : List Nat) (kind id : Nat) (s : State) : Bool × State :=
  ns.foldl (fun (b, t) n => let (r, t1) := touch n kind id t; (b && r, t1)) (true, s)

/-- A tenant becomes ACTIVE (17 R490): the meter gives it an entry at its first time in the session, while one of the 256 is
left; a HALTED meter counts nothing (R486). -/
def feedTenant (t : Nat) (s : State) : State :=
  let m := s.meter
  if m.halted ∨ t = 0 ∨ (m.tenants.any fun e => e.1 == t) ∨ m.overflow.contains t then s
  else if m.tenants.length < 256 then { s with meter := { m with tenants := m.tenants ++ [(t, 0, 0)] } }
  else { s with meter := { m with overflow := m.overflow ++ [t] } }

/-- Is logical slice `n` failed and not served by a spare (14 R431)? -/
def slcFailed (s : State) (n : Nat) : Bool := (sliceOf s n).failed && (sliceOf s n).spare.isNone

/-- Do commands run (15 R450: start-up step 6 done), with the clocks running? -/
def cmdsRun (s : State) : Bool := decide (s.ctl.phase = 7) && s.bcRun

/-- Are the ports released (15 R450: start-up step 5)? -/
def portsOpen (s : State) : Bool := decide (5 ≤ s.ctl.phase) && s.bcRun

/-- Does an active context exist by this number, whose partition is not being suspended (13 R394, R397)? -/
def ctxActive (s : State) (c : Nat) : Bool :=
  match ctxOf s c with
  | some x => x.state == .active && !x.destroying && (partOf s x.part).state != .suspending
  | none => false

/-- DEV_ID (02 R28). -/
def devIdValid (s : State) : Bool := bitOf (regGet s 0 (regNo 0x80 0x10)) 31
def devId (s : State) : Nat := regGet s 0 (regNo 0x80 0x10) % 65536

/-- FAB_DOMAIN (12 R365). -/
def domValid (s : State) : Bool := bitOf (regGet s 0 (regNo 0x80 0x100)) 0
/-- May fabric requests leave: FAB_DOMAIN is set, and the block has fabric ports (R365, 18 R517)? -/
def fabOn (s : State) : Bool := domValid s && decide (s.nfab ≠ 0)
/-- Is a device the block itself, so that the block decodes what names it (02 R26)? -/
def ownDev (s : State) (dev : Nat) : Bool := devIdValid s && decide (dev = devId s)
/-- May requests for a device leave: it is the block itself (02 R26; log entry 35), or fabric requests leave? -/
def fabReach (s : State) (dev : Nat) : Bool := fabOn s || ownDev s dev
def domLo (s : State) : Nat := regGet s 0 (regNo 0x80 0x100) / 65536
def domHi (s : State) : Nat := regGet s 0 (regNo 0x80 0x104) % 65536

/-- The outcome of the checks of 02 R44 on a pocket access. -/
inductive Chk where
  | ok (p : Pocket)
  | fail (st : Status)
  | spilled (p : Pocket)
  deriving DecidableEq, Repr

/-- Steps 7 to 11 of R44 for ranges of a pocket of a context: the ranges are (offset, length); `cls` is the engine-port
class, if a port asks. -/
def pocketCheck (s : State) (x : Ctx) (st : Store) (pk : Nat) (segs : List (Nat × Nat)) (rd wr remote : Bool)
    (cls : Option Nat) : Chk :=
  let p := x.pocket st pk
  let sp := ctxSpan s x
  let inBound := segs.all fun (o, n) => decide (o + n ≤ p.bound)
  let slices := (segs.flatMap fun (o, n) => if n = 0 then [] else
      (List.range ((o + n - 1) / 256 + 1 - o / 256)).map fun i => (locate sp st p ((o / 256 + i) * 256)).slice).eraseDups
  if !p.valid then .fail .boundViolation
  else if (rd && !p.rd) || (wr && !p.wr) || (remote && !p.remote) then .fail .boundViolation
  else if st = .a && (match cls with
      | some c => !slices.all fun n => (setSleeves p.set).all fun k => bitOf (regGet s 0xFFFF (regNo n 0x200)) (4 * k + c)
      | none => false) then .fail .boundViolation
  else if !inBound then .fail .boundViolation
  else match p.state with
    | .resident => .ok p
    | .clearing => .fail .boundViolation
    | .spilled => .spilled p

/-- The group set of a pocket of a store. -/
def Pocket.tierSet (p : Pocket) : Nat := p.set

end Sys2Proof.Machine
end

