-- ==== Sys2Proof/Machine/Store.lean ====
section
/-! DEFINITION. Machine/Store.lean: reading and writing store bytes at the bank, with the codes, the merge of narrow
W-store writes, poison and its reports (03 R62 to R65, 14 R412 to R420). -/
namespace Sys2Proof.Machine

/-- What one code unit was found to be. -/
structure Found where
  key : Nat
  what : UnitState
  macros : List Nat
  deriving DecidableEq, Repr

/-- Does a key lie in the W-store? -/
def isW (k : Nat) : Bool := decide ((placeOf k).store = .w)

/-- The key of the code unit that holds a byte (R417): a 32 B word of the W-store, a byte elsewhere. -/
def unitKey (k : Nat) : Nat := if isW k then k / 32 * 32 else k

/-- The stored bytes of a unit. -/
def unitRaw (m : Mem) (u : Nat) : List Byte := mgetList (fun _ => 0) m.data u (if isW u then 32 else 1)

/-- The check-bit differences of a unit. -/
def unitChk (m : Mem) (u : Nat) : List Byte := mgetList (fun _ => 0) m.chk u (if isW u then 4 else 1)

/-- The checker's report of one unit under the marks of its bank: state, corrected bytes, corrected macros
(R413, R416, R417). -/
def checkUnit (m : Mem) (marks : List Nat) (u : Nat) : UnitState × List Byte × List Nat :=
  if tagReads (isW u) (u % 64) (mget (fun _ => false) m.tag u) marks then (.poisoned, unitRaw m u, [])
  else if isW u then rsRead (unitRaw m u) (unitChk m u) marks
  else
    let r := hamRead ((unitRaw m u).headD 0) ((unitChk m u).headD 0).toNat marks
    (r.1, [r.2.1], r.2.2)

/-- What a read finds of the unit of a byte. -/
def foundAt (s : State) (k : Nat) : Found :=
  let u := unitKey k
  let r := checkUnit s.mem (marksOf s (u / 524288)) u
  { key := u, what := r.1, macros := r.2.2 }

/-- One byte as a read at the bank delivers it, and whether it is poisoned; the byte of a poisoned or uncorrectable unit
is undefined (R86, R417): a free value. -/
def byteAt (s : State) (k : Nat) : Byte × Bool :=
  let u := unitKey k
  let r := checkUnit s.mem (marksOf s (u / 524288)) u
  match r.1 with
  | .clean => (r.2.1.getD (k - u) 0, false)
  | .corrected => (r.2.1.getD (k - u) 0, false)
  | _ => (Config.freeByte s.freeCtr k, true)

/-- UNIT of a bank (R419). -/
def bankUnit (k : Nat) : Nat := let p := placeOf k; p.store.code * 256 + p.tier * 64 + p.bank

/-- ADDR of a unit within its bank (R419). -/
def bankAddr (k : Nat) : Nat := (placeOf k).line * 256 + (placeOf k).byte

/-- Add to a counter of telemetry page 0x12 (R438), modulo 2^64. -/
def integAdd (i n : Nat) (s : State) : State :=
  { s with integ := mput (fun _ => 0) s.integ i ((mget (fun _ => 0) s.integ i + n) % 2 ^ 64) }

/-- DARN_CFG.MARK_THR (R432). -/
def markThr (s : State) : Nat := bitsOf (regGet s 0x80100000 (regNo 0x80 0x200)) 23 16

/-- Count corrections towards the marks of their macros (R420): by bank × 64 + macro. A macro whose count reaches MARK_THR
is marked at the next frame boundary of the slice. -/
def countMacros (bank : Nat) (ms : List Nat) (s : State) : State :=
  ms.foldl (fun t m => modSlice (bank / 1024)
    (fun r =>
      let n := mget (fun _ => 0) r.corr (bank * 64 + m) + 1
      { r with
        corr := mput (fun _ => 0) r.corr (bank * 64 + m) n
        pendMarks := if n = markThr t ∧ !(mget (fun _ => []) r.marks bank).contains m then r.pendMarks ++ [(bank, m)] else r.pendMarks })
    t) s

/-- Record what a demand read found of one unit for `c` (R418 to R420, R428): a correction is counted under CODE
0x01 and towards marking; an uncorrectable unit is logged with CODE 0x20, and its tag is owed; a poisoned unit is
counted. -/
def noteFound (c : Agent) (s : State) (f : Found) : State :=
  let w := isW f.key
  match f.what with
  | .clean => s
  | .corrected =>
    let s1 := integAdd (if w then 2 else 4) 1 s
    let s2 := teleAdd c.ctx 30 1 (countMacros (f.key / 524288) f.macros s1)
    { s2 with log := countWord 1 s2.log }
  | .uncorrectable =>
    let s1 := integAdd (if w then 6 else 8) 1 s
    let s2 := report .uncorrectable 3 ((placeOf f.key).slice) (bankUnit f.key) c.who (c.ctx % 2048) (bankAddr f.key) s1
    if s2.mem.owed.contains f.key then s2 else { s2 with mem := { s2.mem with owed := f.key :: s2.mem.owed } }
  | .poisoned => integAdd 12 1 s

/-- The distinct units of a list of byte keys. -/
def unitsOf (ks : List Nat) : List Nat := (ks.map unitKey).eraseDups

/-- Record what a read of these bytes finds. -/
def noteRead (c : Agent) (ks : List Nat) (s : State) : State :=
  (unitsOf ks).foldl (fun t u => noteFound c t (foundAt s u)) s

/-- The status of what a read of these bytes finds (R414, R424). -/
def readStatus (s : State) (ks : List Nat) : Status :=
  (unitsOf ks).foldl (fun st u => st.join (match (foundAt s u).what with
    | .clean => .ok
    | .corrected => .okCorrected
    | _ => .uncorrectable)) .ok

/-- Store the bytes of a whole unit with fresh check bits and this tag; an owed tag is dropped (R418). -/
def putUnit (u : Nat) (bs : List Byte) (tag : Bool) (m : Mem) : Mem :=
  { m with
    data := mputList (fun _ => 0) m.data u bs
    chk := mputList (fun _ => 0) m.chk u (List.replicate (if isW u then 4 else 1) 0)
    tag := mput (fun _ => false) m.tag u tag
    owed := m.owed.filter (· != u) }

/-- What a write did: a status among OK, OK_CORRECTED and UNCORRECTABLE, and how many of its bytes were not written or
were written poisoned. -/
structure WriteRes where
  status : Status
  lost : Nat
  deriving DecidableEq, Repr

/-- The new value for a byte of a unit, and whether it arrives poisoned, from a list of writes (the later wins). -/
def writeAt (items : List (Nat × Byte × Bool)) (k : Nat) : Option (Byte × Bool) :=
  ((items.reverse.find? fun x => x.1 == k).map (·.2))

/-- Write the bytes of one unit (R62 to R65, R418): an A- or P-store byte, or a whole W-store word, is written as it
comes; a partly covered word is merged, and left alone where it is poisoned or uncorrectable. -/
def writeUnit (items : List (Nat × Byte × Bool)) (c : Agent) (acc : State × WriteRes) (u : Nat) : State × WriteRes :=
  let s := acc.1
  let n := if isW u then 32 else 1
  let new := (List.range n).map fun i => writeAt items (u + i)
  let wrote := (new.filter Option.isSome).length
  let bad := new.any fun x => match x with
    | some (_, b) => b
    | none => false
  if new.all Option.isSome then
    ({ s with mem := putUnit u (new.map fun x => (x.getD (0, false)).1) bad s.mem },
     { acc.2 with lost := acc.2.lost + (if bad then wrote else 0) })
  else
    let r := checkUnit s.mem (marksOf s (u / 524288)) u
    let f : Found := { key := u, what := r.1, macros := r.2.2 }
    let s1 := noteFound c s f
    match r.1 with
    | .clean =>
      ({ s1 with mem := putUnit u (new.zipIdx.map fun (x, i) => (x.getD (r.2.1.getD i 0, false)).1) bad s1.mem },
       { acc.2 with lost := acc.2.lost + (if bad then wrote else 0) })
    | .corrected =>
      ({ s1 with mem := putUnit u (new.zipIdx.map fun (x, i) => (x.getD (r.2.1.getD i 0, false)).1) bad s1.mem },
       { status := acc.2.status.join .okCorrected, lost := acc.2.lost + (if bad then wrote else 0) })
    | _ => (s1, { status := acc.2.status.join .uncorrectable, lost := acc.2.lost + wrote })

/-- Write a list of store bytes (key, value, arrives poisoned) for `c`. -/
def writeBytes (c : Agent) (items : List (Nat × Byte × Bool)) (s : State) : State × WriteRes :=
  (unitsOf (items.map (·.1))).foldl (writeUnit items c) (s, { status := .ok, lost := 0 })

/-- The keys of a range of a pocket (R47: each granule is hashed on its own). -/
def pocketKeys (sp : Span) (st : Store) (p : Pocket) (off len : Nat) : List Nat :=
  (List.range len).map fun i => (locate sp st p (off + i)).key

/-- Does a beat's write cover part of a code word only (R62)? -/
def isMerge (ks : List Nat) : Bool := (unitsOf ks).any fun u => isW u && !(List.range 32).all fun i => ks.contains (u + i)

/-- Zero data, zero check bits and clear tags for every key the test names: a clear beat, a full clear or the
initialisation fill (R58, R169, R421). -/
def clearKeys (p : Nat → Bool) (m : Mem) : Mem :=
  { m with data := mclear p m.data, chk := mclear p m.chk, tag := mclear p m.tag, owed := m.owed.filter fun k => !p k }

/-- Clear lines `lo` to `hi - 1` of a bank. -/
def clearLines (bank lo hi : Nat) (m : Mem) : Mem :=
  clearKeys (fun k => decide (k / 524288 = bank) && decide (lo ≤ k / 256 % 2048) && decide (k / 256 % 2048 < hi)) m

/-! System region and external memory -/

/-- The key of a system-region byte (02 R31). -/
def sysKey (slice off : Nat) : Nat := slice * 131072 + off

/-- Read system-region bytes. -/
def sysRead (s : State) (slice off n : Nat) : List Byte := mgetList (fun _ => 0) s.mem.sys (sysKey slice off) n

/-- Write system-region bytes. -/
def sysWrite (slice off : Nat) (bs : List Byte) (s : State) : State :=
  { s with mem := { s.mem with sys := mputList (fun _ => 0) s.mem.sys (sysKey slice off) bs } }

/-- The status of an outer-port response (18 R510): OK, UNCORRECTABLE or DECODE_ERROR, and no other. -/
def extCode (c : Nat) : Status := if c = 0x20 then .uncorrectable else if c = 0x12 then .decodeError else .ok

/-- The status with which the outer port answers an access of `n` bytes at `a` (the environment's). -/
def extStatus (s : State) (a n : Nat) : Status :=
  ((List.range (if n = 0 then 0 else (a + n - 1) / 64 + 1 - a / 64)).map fun i => extCode (mget (fun _ => 0) s.mem.extErr (a / 64 + i))).foldl
    (fun st x => st.join x) .ok

/-- Bytes of external memory through the command channel, which does not encrypt (05 R123), with the poison attribute of their
64 B ranges (18 R511). -/
def extRead (s : State) (a n : Nat) : List (Byte × Bool) :=
  (List.range n).map fun i => (mget (fun _ => 0) s.mem.ext (a + i), mget (fun _ => false) s.mem.extPoison ((a + i) / 64))

/-- The 64 B ranges that `n` bytes at `a` cover whole. -/
def wholeRanges (a n : Nat) : List Nat := (List.range (n / 64)).map fun i => (a + 63) / 64 + i

/-- The poison attribute after a write at `a` (18 R511): a range covered whole takes the write's, another one keeps its own. -/
def extMark (a : Nat) (ps : List Bool) (m : NMap Bool) (b : Nat) : NMap Bool :=
  if 64 * b + 64 ≤ a + ps.length then mput (fun _ => false) m b (((ps.drop (64 * b - a)).take 64).any id) else m

/-- Write bytes of external memory with their poison attribute. -/
def extWrite (a : Nat) (bs : List (Byte × Bool)) (s : State) : State :=
  { s with mem := { s.mem with
      ext := mputList (fun _ => 0) s.mem.ext a (bs.map (·.1))
      extPoison := (wholeRanges a bs.length).foldl (extMark a (bs.map (·.2))) s.mem.extPoison } }

/-- The canonical form of the memories: keys rise strictly, and no entry equals what an unlisted key reads as (log entry 33). -/
def Memory.wf (m : Mem) : Bool :=
  mwf (fun _ => 0) m.data && mwf (fun _ => 0) m.chk && mwf (fun _ => false) m.tag && mwf (fun _ => 0) m.sys && mwf (fun _ => 0) m.boot &&
    mwf (fun _ => 0) m.ext && mwf (fun _ => false) m.extPoison && mwf (fun _ => 0) m.extErr

end Sys2Proof.Machine
end

