-- ==== Sys2Proof/Machine/Weave.lean ====
section
/-! DEFINITION. Machine/Weave.lean: the weave table, slots, owners, contracts' arithmetic and path latencies
(08 R245 to R269, 03 R70 to R76). -/
namespace Sys2Proof.Machine

/-! The table -/

/-- FL of a table (R254). -/
def wFL (t : List Word) : Nat := fld (wordAt t 0) 12 0
/-- NENT of a table. -/
def wNent (t : List Word) : Nat := fld (wordAt t 1) 10 0
/-- SEQ of a table. -/
def wSeq (t : List Word) : Nat := (wordAt t 2).toNat
/-- Owner word `k` of a table (R253). -/
def wOwner (t : List Word) (k : Nat) : Nat := (wordAt t (8 + k)).toNat
/-- Slot entry `i` of a table (R255). -/
def wEntry (t : List Word) (i : Nat) : Word × Word := (wordAt t (72 + 2 * i), wordAt t (73 + 2 * i))

/-- Fields of a slot entry (R255). -/
def eGroup (e : Word × Word) : Nat := fld e.1 31 28
def eOwner (e : Word × Word) : Nat := fld e.1 27 22
def eStart (e : Word × Word) : Nat := fld e.1 11 0
def eCountM1 (e : Word × Word) : Nat := fld e.2 31 24
def ePeriod (e : Word × Word) : Nat := fld e.2 23 12
def eLenM1 (e : Word × Word) : Nat := fld e.2 11 0

/-- Does an entry name frame bank cycle `f` (R255)? -/
def eCovers (e : Word × Word) (f : Nat) : Bool :=
  decide (eStart e ≤ f) &&
    (if ePeriod e = 0 ∨ eCountM1 e = 0 then decide (f - eStart e ≤ eLenM1 e)
     else decide ((f - eStart e) / ePeriod e ≤ eCountM1 e) && decide ((f - eStart e) % ePeriod e ≤ eLenM1 e))

/-- The owner index of a slot (R253, R255): 0 free, 63 background. -/
def slotIx (t : List Word) (g f : Nat) : Nat :=
  (((List.range (wNent t)).map (wEntry t)).find? fun e => eGroup e == g && eOwner e != 0 && eCovers e f).elim 0 eOwner

/-- The owner code of a slot: 0 for free and background slots. -/
def slotOwner (t : List Word) (g f : Nat) : Nat :=
  let i := slotIx t g f
  if i = 63 then 0 else wOwner t i

/-- Is a slot a background slot? -/
def slotBg (t : List Word) (g f : Nat) : Bool := decide (slotIx t g f = 63)

/-- Background slots of a group (R256). -/
def bgSlots (t : List Word) (g : Nat) : Nat := ((List.range (wFL t)).filter fun f => slotBg t g f).length

/-- BGSHARE of WEAVE_STAT (R261): the smallest share of the nine groups in units of 0.5%, rounded down. -/
def bgShare (t : List Word) : Nat :=
  ((List.range 9).map fun g => bgSlots t g * 200 / wFL t).foldl Nat.min 255

/-! Owners -/

/-- Fields of an owner code (R251). -/
def oKind (o : Nat) : Nat := bitsOf o 31 28
def oFirst (o : Nat) : Nat := bitsOf o 27 22
def oSpanLog (o : Nat) : Nat := bitsOf o 21 19
def oUnit (o : Nat) : Nat := bitsOf o 15 12
def oPslice (o : Nat) : Nat := bitsOf o 11 6

/-- The slices an owner spans. -/
def oSpan (o : Nat) : Span := { first := oFirst o, slog := oSpanLog o }

/-- Is an owner word valid (R251, check 4 of R257)? -/
def ownerValid (o : Nat) : Bool :=
  decide (bitsOf o 18 16 = 0) && decide (bitsOf o 5 0 = 0) && decide (oSpanLog o ≤ 6) &&
  decide (oFirst o % 2 ^ oSpanLog o = 0) &&
  (if oKind o = 1 then decide (oUnit o ≤ 9) && (oSpan o).has (oPslice o)
   else if oKind o = 2 then decide (oUnit o = 0) && decide (oPslice o = 0)
   else if oKind o = 3 then decide (oUnit o ≠ 0) && decide (oPslice o = 0)
   else if oKind o = 4 then decide (oUnit o ≤ 7) && decide (oPslice o = 0)
   else if oKind o = 5 then decide (oUnit o ≤ 1) && (oSpan o).has (oPslice o)
   else false)

/-- The class bit of an owner in SLEEVE_CFG (02 R52): M 0, V 1, D 2, mesh 3; none for units and lanes. -/
def ownerClass (o : Nat) : Option Nat :=
  if oKind o = 1 then some (if oUnit o < 4 then 0 else if oUnit o < 8 then 1 else 2)
  else if oKind o = 2 then some 3 else none

/-- SLEEVE_CFG of a slice (R52). -/
def sleeveCfg (s : State) (n : Nat) : Nat := regGet s 0xFFFF (regNo n 0x200)

/-- Is a class assigned to a sleeve (R52)? -/
def classHasSleeve (cfg cls sleeve : Nat) : Bool := bitOf cfg (4 * sleeve + cls)

/-- May an owner hold slots in a group, under this SLEEVE_CFG (R252)? -/
def ownerGroupOk (cfg o g : Nat) : Bool :=
  let k := oKind o
  if g < 4 then
    if k = 1 then decide (oUnit o < 4 ∨ 8 ≤ oUnit o) else if k = 3 then bitOf (oUnit o) g else true
  else if g < 8 then
    match ownerClass o with
    | some c => classHasSleeve cfg c (g - 4)
    | none => true
  else decide (k ≠ 1 ∨ 4 ≤ oUnit o)

/-! Group sets, service and bounds -/

/-- A group set a request uses (R249): a store, its SET (the tier for the W-store), and whether it accumulates. -/
structure GSet where
  store : Store
  set : Nat
  acc : Bool
  deriving DecidableEq, Repr

/-- The groups of a group set (R247, R249). -/
def GSet.groups (g : GSet) : List Nat :=
  match g.store with
  | .w => [g.set]
  | .a => (setSleeves g.set).map (4 + ·)
  | .p => [8]

/-- S of R250. -/
def GSet.size (g : GSet) : Nat :=
  match g.store with
  | .w => 256
  | .a => 512 * (setSleeves g.set).length
  | .p => 1024

/-- r of R250: an owner's rate in a group set, in bytes per bc. -/
def ownerRate (o : Nat) (g : GSet) : Nat :=
  if oKind o = 1 then (if oUnit o < 4 then 256 else 128)
  else if oKind o = 2 then 128
  else if oKind o = 3 then (if g.store = .w then 256 else 512)
  else if oKind o = 4 then 512
  else 256

/-- q of R250: bytes an owner is served per slot in a group set. -/
def ownerQ (o : Nat) (g : GSet) : Nat := Nat.min g.size (4 * ownerRate o g)

/-- Does an owner hold every slot of a group set in frame bank cycle `f` (R249)? -/
def holdsSet (t : List Word) (o : Nat) (g : GSet) (f : Nat) : Bool :=
  decide (o ≠ 0) && g.groups.all fun k => decide (slotOwner t k f = o)

/-- The bank cycles in which pairs begin among rising owned cycles: from the start of each run (R249). -/
def pairStarts : List Nat → List Nat
  | a :: b :: rest => if b = a + 1 then a :: pairStarts rest else pairStarts (b :: rest)
  | _ => []

/-- The frame bank cycles in which an owner is served in a group set: slots, or first cycles of slot pairs (R249). -/
def servedAt (t : List Word) (o : Nat) (g : GSet) : List Nat :=
  let l := (List.range (wFL t)).filter fun f => holdsSet t o g f
  if g.acc then pairStarts l else l

/-- The gaps between consecutive served cycles, the one across the frame boundary included (R268). -/
def gapsOf (fl : Nat) (l : List Nat) : List Nat :=
  match l with
  | [] => []
  | a :: _ => List.zipWith (fun x y => y - x) l (l.drop 1 ++ [a + fl])

/-- g_max of R268. -/
def gMax (t : List Word) (o : Nat) (g : GSet) : Nat := (gapsOf (wFL t) (servedAt t o g)).foldl Nat.max 0

/-- Bytes per frame that an owner's slots serve in a group set (R263). -/
def frameBytesOf (t : List Word) (o : Nat) (g : GSet) : Nat := (servedAt t o g).length * ownerQ o g

/-- n_σ of R268: the most that n bytes place on one slice. -/
def nSigma (n w s : Nat) : Nat := Nat.min n (256 * 2 ^ w * (ceilDiv n (256 * 2 ^ (w + s)) + 1))

/-- The bound on one slice's table for a request that uses these group sets (R268). -/
def boundOn (t : List Word) (o : Nat) (gs : List GSet) (lpath n : Nat) : Nat :=
  let g := (gs.map (gMax t o)).foldl Nat.max 0
  let q := (gs.map (ownerQ o)).foldl Nat.min 4096
  lpath + g * ceilDiv n q

/-! Paths -/

/-- The mesh stop of spare slice `k` (R74). -/
def spareStop (k : Nat) : Nat × Nat := (if k % 2 = 0 then 2 else 5, if k < 2 then 2 else 5)

/-- The mesh stop (x, y) of logical slice `n` (R11, R50). -/
def stopOf (s : State) (n : Nat) : Nat × Nat :=
  match (sliceOf s n).spare with
  | some k => spareStop k
  | none => (n % 8, n / 8)

/-- Hop distance between two stops (R20). -/
def hops (a b : Nat × Nat) : Nat := (a.1 - b.1) + (b.1 - a.1) + (a.2 - b.2) + (b.2 - a.2)

/-- L_near of a store (R19). -/
def lNear (st : Store) : Nat := if st = .w then 18 else 14

/-- r of R72: register slices declared on a slice's mesh attach path. -/
def regSlices (s : State) (n : Nat) : Nat :=
  let v := regGet s 0 (regNo n 0x220)
  bitsOf v 3 2 + bitsOf v 1 0

/-- L_path through the mesh from a stop to a slice (R20, R76). -/
def lMesh (s : State) (st : Store) (stop : Nat × Nat) (n : Nat) : Nat :=
  lNear st + (if (sliceOf s n).spare.isSome then 4 else 2) + 2 * hops stop (stopOf s n) + ceilDiv (regSlices s n) 2

/-- L_path from a unit of slice `home`, its command unit or a mover, to a slice: near on the slice itself, a spare in its place
included (R74), else from the stop of the slice that serves it (R19, R20, R76). -/
def lPath (s : State) (st : Store) (home n : Nat) : Nat :=
  if home = n then lNear st else lMesh s st (stopOf s home) n

/-- L_path from a home port of slice `home`, whose engine stays at that slice's own stop (R74). -/
def portPath (s : State) (st : Store) (home n : Nat) : Nat :=
  if home = n ∧ (sliceOf s n).spare.isNone then lNear st else lMesh s st (home % 8, home / 8) n

/-- A group set as a request uses it (R268): on which slices, with w and s of its pocket. -/
structure SetUse where
  set : GSet
  w : Nat
  s : Nat
  slices : List Nat
  deriving DecidableEq, Repr

/-- The bound of a request that uses these group sets (R268): the largest over the slices it touches, on each of which only the sets
used there count, with n_σ of the range that puts most on it. -/
def useBound (s : State) (o : Nat) (us : List SetUse) (lpath n : Nat) : Nat :=
  ((us.flatMap SetUse.slices).eraseDups.map fun k =>
    let here := us.filter fun u => u.slices.contains k
    boundOn (sliceOf s k).weave o (here.map SetUse.set) lpath ((here.map fun u => nSigma n u.w u.s).foldl Nat.max 0)).foldl Nat.max 0

/-! Contracts -/

/-- The contract bound to a target (06 R189): KIND 0 a queue, 1 a port. -/
def contractOf (s : State) (kind target : Nat) : Option Contract :=
  s.contracts.find? fun c => c.kind == kind && c.target == target && c.active

/-- Change the contract that is in effect on a target. -/
def modContract (kind target : Nat) (f : Contract → Contract) (s : State) : State :=
  { s with contracts := updWhere (fun c => c.kind == kind && c.target == target && c.active) f s.contracts }

/-- A CONTRACT_BIND ends with this status and RESULT. -/
def finishBind (o : Origin) (st : Status) (result : Nat) (s : State) : State :=
  match o with
  | .cmd id => cmdDone id st 0 result s
  | o => finish o st s

/-- Begin the unbinding of a target's contract: it takes effect at the next frame boundary of every slice of its owner's span
(06 R189). A bind still under way ends with it. -/
def startUnbind (kind target : Nat) (o : Origin) (s : State) : State :=
  match s.contracts.find? fun c => c.kind == kind && c.target == target && !c.unbinding with
  | some c =>
    let (id, s1) := freshId s
    let f (x : Contract) : Contract := { x with unbinding := true, todo := (oSpan x.owner).slices, stamp := id, origin := o }
    let s2 : State := { s1 with contracts := updWhere (fun x => x.kind == kind && x.target == target && !x.unbinding) f s1.contracts }
    finishBind c.origin .ok c.bound s2
  | none => s

/-- A write of PORT_CTX unbinds the port's contract (06 R189). DEDUCED: it serves no request any more from that moment, so that a new
tenant never inherits it; its slots are released at the boundaries as by UNBIND. -/
def unbindPort (target : Nat) (s : State) : State :=
  let s1 := startUnbind 1 target .none s
  { s1 with contracts := updWhere (fun c => c.kind == 1 && c.target == target) (fun c => { c with active := false }) s1.contracts }

/-- Does a queue or port of this context have a bound contract, or one being bound or unbound (06 R186)? -/
def ctxContract (s : State) (c : Nat) : Bool := s.contracts.any fun k => k.ctx == c

/-- Backlog of an owner (R265): bytes admitted against any of its contracts that its slots have not yet moved. -/
def ownerBacklog (s : State) (o : Nat) : Nat :=
  ((s.contracts.filter fun c => c.owner == o && c.active).map Contract.backlog).foldl (· + ·) 0

/-- The home slice of a contract (R262). -/
def Contract.home (c : Contract) : Nat := c.target / 8192 % 64

/-- Does an owner hold a slot (or a pair) in every one of these group sets, on every one of these slices (R528)? -/
def ownerServes (s : State) (o : Nat) (gs : List GSet) (ns : List Nat) : Bool :=
  ns.all fun n => gs.all fun g => !(servedAt (sliceOf s n).weave o g).isEmpty

/-- Why a G-class request is not admitted now. -/
inductive GRefusal where
  | noContract | noSlots | tokens | backlog
  deriving DecidableEq, Repr

/-- The token and backlog tests (R264, R265) of a contract for n bytes, over a backlog. -/
def gTests (c : Contract) (backlog n : Nat) : Option GRefusal :=
  if c.tokens < n then some .tokens
  else if c.qmax < backlog + n then some .backlog
  else none

/-- Admission takes n tokens and adds n to the backlog (R264, R265). -/
def gTake (c : Contract) (n : Nat) (s : State) : State :=
  modContract c.kind c.target (fun x => { x with tokens := x.tokens - n, backlog := x.backlog + n }) s

/-- The owner's slots have moved n bytes admitted against this contract. -/
def gMoved (kind target n : Nat) (s : State) : State :=
  modContract kind target (fun x => { x with backlog := x.backlog - n }) s

/-- The bound of an admitted port request (R268): the largest over the slices it touches, each with the group sets used there, with n_b in
place of n. -/
def gBound (s : State) (o : Nat) (gs : Nat → List GSet) (ns : List (Nat × Nat)) (n w sx : Nat) : Nat :=
  (ns.map fun (k, lp) => boundOn (sliceOf s k).weave o (gs k) lp (nSigma n w sx)).foldl Nat.max 0

/-! Bytes that bank groups have still to move for commands and movers (R248, R249) -/

/-- The group set of a piece of work. -/
def Work.gset (w : Work) : GSet := { store := w.st, set := w.set, acc := w.acc }

/-- Replace or remove one piece of work. -/
def modWork (id : Nat) (f : Work → Work) (s : State) : State :=
  { s with works := (updWhere (fun w => w.id == id) f s.works).filter fun w => decide (w.left ≠ 0) }

/-- `n` bytes of a piece of work move: what its contract owes of them leaves the backlog, all that is left with the last byte (R265). -/
def moveWork (w : Work) (n : Nat) (s : State) : State :=
  let m := Nat.min n w.left
  let out := if m = w.left then w.owe else Nat.min m w.owe
  gMoved w.kind w.target out (modWork w.id (fun x => { x with left := x.left - m, owe := x.owe - out }) s)

/-- In one slot, up to `q` bytes of a request move: its works in their order (R248). -/
def moveWorks : List Work → Nat → State → State
  | [], _, s => s
  | w :: ws, q, s => if q = 0 then s else moveWorks ws (q - Nat.min q w.left) (moveWork w q s)

/-- Does command or piece `id` still wait for bytes to move? -/
def worksLeft (s : State) (id : Nat) : Bool := s.works.any fun w => w.of == id

/-- A command or a piece ends: what it had still to move leaves the backlog. -/
def dropWorks (id : Nat) (s : State) : State :=
  let s1 := (s.works.filter fun w => w.of == id).foldl (fun t w => gMoved w.kind w.target w.owe t) s
  { s1 with works := s1.works.filter fun w => w.of != id }

/-- Queue bytes to move, of command or piece `of` for request `req`: `l` lists the slice, the group set, the bytes and what they owe; `reqr` gives the requester at each slice. DEDUCED
(log entry 102): the work of command units, NMUs and GPXs has effective priority 0, since R105 gives one to port and mover requests only. -/
def addWorks (of req : Nat) (k : Option Contract) (kind target ep : Nat) (reqr : Nat → Nat) (l : List (Nat × GSet × Nat × Nat)) (s : State) : State :=
  l.foldl (fun t (n, gs, left, owe) =>
    if left = 0 then t
    else
      let (id, t1) := freshId t
      let w : Work :=
        { id := id, of := of, req := req, slice := n, st := gs.store, set := gs.set, acc := gs.acc, left := left,
          owe := if k.isSome then owe else 0, g := k.isSome, owner := k.elim 0 Contract.owner, kind := kind, target := target,
          reqr := reqr n, ep := ep }
      { t1 with works := t1.works ++ [w] }) s

/-- Counters of telemetry page 0x13 (R275), by first word. They live with the counters of page 0x12 at 256 + word. -/
def gTele (w n : Nat) (s : State) : State := integAdd (256 + w) n s

/-! The miss monitor -/

/-- A request missed its bound (R272, R273): the entry, MISS_COUNT, MISS_STAT, the page counters. `target` is the form
of MISS_STAT with KIND in bit 19. -/
def recordMiss (home src unit : Nat) (who : Who) (ctx addr target ovr : Nat) (rail : Bool) (s : State) : State :=
  let s1 := report .okDelayed src home unit who ctx addr s
  let s2 := modSlice home (fun r => { r with missCount := satAdd 32 r.missCount 1, missTarget := target }) s1
  let reg := regNo home 0xA04
  let s3 := regPut 0 reg (regGet s2 0 reg ||| (if rail then 2 ^ 31 else 2 ^ 30)) s2
  let s4 := gTele 10 1 (if rail then gTele 12 1 s3 else s3)
  let s5 := match partOfSlice s home with
    | some p => { s4 with integ := mput (fun _ => 0) s4.integ (276 + p) (satAdd 32 (mget (fun _ => 0) s4.integ (276 + p)) 1) }
    | none => s4
  let worst := mget (fun _ => 0) s5.integ (256 + 18)
  { s5 with integ := mput (fun _ => 0) s5.integ (256 + 18) (Nat.max worst ovr) }

end Sys2Proof.Machine
end

