-- ==== Sys2Proof/Machine/PortOps.lean ====
section
/-! DEFINITION. Machine/PortOps.lean: port headers, store ranges and transforms, write-back and reuse buffers, reads and
their beats (04 R79 to R112, 09 R286 to R293). -/
namespace Sys2Proof.Machine

/-- A decoded request header (04 R81, R84). `rsvd`: a field or value of step 1 of R89 is not zero or is reserved. -/
structure Hdr where
  addr : Nat
  tag : Nat
  kind : Nat
  g : Bool
  vol : Bool
  np : Bool
  gta : Bool
  prio : Nat
  xform : Nat
  xparam : Nat
  accop : Nat
  aux : Nat
  len : Nat
  rsvd : Bool
  deriving DecidableEq, Repr

/-- Is an XPARAM value reserved for its XFORM (R81, R107, R109)? -/
def xparamBad (xform xparam : Nat) : Bool :=
  if xform = 0 then decide (xparam ≠ 0)
  else if xform = 1 then decide (2 < xparam)
  else if xform = 2 then decide (3 < xparam)
  else if xform = 3 ∨ xform = 4 then decide (8 ≤ xparam)
  else decide (4 < xparam)

/-- Decode a PP2 header (R81). -/
def pp2Hdr (h : BitVec 128) : Hdr :=
  let kind := fld h 57 54; let xform := fld h 47 44; let xparam := fld h 43 40; let accop := fld h 39 36
  { addr := fld h 127 64, tag := fld h 63 58, kind := kind, g := flag h 53, vol := flag h 52, np := flag h 51,
    gta := flag h 50, prio := fld h 49 48, xform := xform, xparam := xparam, accop := accop, aux := fld h 31 16,
    len := fld h 15 4,
    rsvd := decide (fld h 35 32 ≠ 0) || decide (fld h 3 0 ≠ 0) || decide (5 < kind) || decide (5 < xform) ||
      xparamBad xform xparam || (if kind = 2 then decide (8 ≤ accop ∨ accop % 4 = 3) else decide (accop ≠ 0)) }

/-- Decode a PP1 header (R84): B class, posted, device-local, no transform. -/
def pp1Hdr (h : BitVec 128) : Hdr :=
  let kind := fld h 59 58; let accop := fld h 53 51
  { addr := fld h 39 0, tag := 0, kind := kind, g := false, vol := false, np := false, gta := false,
    prio := fld h 55 54, xform := 0, xparam := 0, accop := accop, aux := 0, len := fld h 48 40,
    rsvd := decide (fld h 63 60 ≠ 0) || decide (fld h 57 56 ≠ 0) || decide (fld h 50 49 ≠ 0) ||
      (if kind = 2 then decide (accop % 4 = 3) else decide (accop ≠ 0)) }

/-- The mesh port's extension (R85). -/
def extSrcdev (e : DWord) : Nat := fld e 63 48
def extStop (e : DWord) : Nat := fld e 47 42
def extCtx (e : DWord) : Nat := fld e 41 31
def extTenant (e : DWord) : Nat := fld e 30 15
def extCred (e : DWord) : Nat := fld e 14 0

/-- The header of a request at its port. -/
def reqHdr (s : State) (r : PortReq) : Hdr := if isPP1 s r.slice r.port then pp1Hdr r.hdr else pp2Hdr r.hdr

/-- Class of a port (R79): M 0, V 1, D 2, mesh 3. -/
def portClass (p : Nat) : Nat := if p < 4 then 0 else if p < 8 then 1 else if p < 10 then 2 else 3

/-- Does a port class reach a store (02 R43)? -/
def classReaches (cls : Nat) (st : Store) : Bool :=
  match st with
  | .w => decide (cls ≠ 1)
  | .a => true
  | .p => decide (cls ≠ 0)

/-- Beat width in bytes (R79, R80). -/
def beatWidth (pp1 : Bool) (p : Nat) : Nat := if pp1 then 64 else if p < 4 then 128 else 64

/-- Longest burst in beats (R80). -/
def burstMax (pp1 : Bool) : Nat := if pp1 then 8 else 16

/-- Beat-aligned blocks a range touches (R83). -/
def beatsOf (width a n : Nat) : Nat := if n = 0 then 0 else (a % width + n - 1) / width + 1

/-- PORT_CFG of a port (R114). -/
def portCfg (s : State) (n p : Nat) : Nat := regGet s 0x44F00 (portReg n p 4)

/-! Store ranges and transforms (R107, R109, R110) -/

/-- Element size of a TRANSPOSE tile (R109). -/
def tileElem (xparam : Nat) : Nat := 2 ^ xparam
/-- Rows (and columns) of a TRANSPOSE tile. -/
def tileSide (xparam : Nat) : Nat := if xparam = 2 then 16 else 32

/-- The set bits of a 16-bit mask, rising. -/
def maskRows (aux : Nat) : List Nat := (List.range 16).filter fun k => bitOf aux k

/-- The store ranges a request covers: offsets from its address, and lengths (R83, R107, R109, R110). -/
def segsOf (h : Hdr) : List (Nat × Nat) :=
  let n := h.len + 1
  if h.kind = 4 ∨ h.kind = 5 then (maskRows h.aux).map fun k => (128 * k, 128)
  else if h.kind = 3 then [(0, n * 256)]
  else if h.xform = 1 then (List.range (tileSide h.xparam)).map fun r => (r * 32 * h.aux, tileSide h.xparam * tileElem h.xparam)
  else if h.xform = 2 then [(0, n / 2)]
  else if h.xform = 5 then [(0, n / 64 * mxBytes ((mxFmt (8 + h.xparam)).getD fmtFP4))]
  else [(0, n)]

/-- The ranges the bound check covers: the whole 2 KiB of a tile spill, whatever the mask (R111). -/
def checkSegs (h : Hdr) : List (Nat × Nat) := if h.kind = 4 ∨ h.kind = 5 then [(0, 2048)] else segsOf h

/-- Step 2 of R89: KIND, XFORM and AUX suit the port, its protocol and PORT_CFG; LEN obeys R83 and R107. `wide` is a request
that the resolver takes whole and splits (12 R364): a home port's burst of up to 2 KiB. -/
def shapeOk (s : State) (n p : Nat) (wide : Bool) (h : Hdr) : Bool :=
  let pp1 := isPP1 s n p; let cls := portClass p; let cfg := portCfg s n p
  let len := h.len + 1
  let kindOk := if h.kind = 4 ∨ h.kind = 5 then
      decide (cls = 0) && !pp1 && bitOf cfg 3 && decide (len = 2048) && decide (h.addr % 2048 = 0) &&
        decide (regionOf h.addr = 2)
    else true
  let xfOk := if h.xform = 0 then true
    else !pp1 && bitOf cfg 2 &&
      (if h.xform = 1 then decide (cls = 0) && decide (h.kind ≤ 1) && decide (len = tileSide h.xparam * tileSide h.xparam * tileElem h.xparam) &&
          decide (tileSide h.xparam * tileElem h.xparam ≤ 32 * h.aux)
       else if h.xform = 2 then decide (cls ≤ 1) && decide (h.kind = 0) && decide (len % 2 = 0)
       else if h.xform = 3 then decide (h.kind = 0) &&
          decide (len % ((if h.xparam / 4 = 1 then 4 else 2) * 2 ^ (h.xparam % 4)) = 0)
       else if h.xform = 4 then decide (h.kind = 1) &&
          decide (len % ((if h.xparam / 4 = 1 then 4 else 2) * 2 ^ (h.xparam % 4)) = 0)
       else decide (cls ≤ 1) && decide (h.kind = 0) && decide (len % 64 = 0) &&
          decide (offsetOf h.addr % mxBytes ((mxFmt (8 + h.xparam)).getD fmtFP4) = 0))
  let auxOk := decide (h.aux = 0 ∨ h.kind = 4 ∨ h.kind = 5 ∨ h.xform = 1)
  let lenOk := if h.kind = 3 then decide (h.addr % 256 = 0)
    else if h.kind = 4 ∨ h.kind = 5 then true
    else decide (beatsOf (if wide then 128 else beatWidth pp1 p) h.addr len ≤ burstMax pp1)
  let addrOk := h.gta || decide (h.addr < 2 ^ 40)
  let meshOk := !(decide (p = 10) && decide (2 ≤ h.kind) && [0, 4, 8].contains (regionOf h.addr))
  kindOk && xfOk && auxOk && lenOk && addrOk && meshOk

/-- Take every k-th group: the elements with index mod K = 0 first, then those with 1, and so on (R107). -/
def deinterleave {α : Type} (k esz : Nat) (d : List α) (dflt : α) : List α :=
  let per := d.length / (k * esz)
  (List.range k).flatMap fun w => (List.range per).flatMap fun i => (List.range esz).map fun b =>
    d.getD ((i * k + w) * esz + b) dflt

/-- K consecutive streams stored element by element in turn (R107). -/
def interleave {α : Type} (k esz : Nat) (d : List α) (dflt : α) : List α :=
  let per := d.length / (k * esz)
  (List.range per).flatMap fun i => (List.range k).flatMap fun w => (List.range esz).map fun b =>
    d.getD ((w * per + i) * esz + b) dflt

/-- The transpose of a dense square tile of `side` × `side` elements of `esz` bytes (R109). -/
def transposeTile {α : Type} (side esz : Nat) (d : List α) (dflt : α) : List α :=
  (List.range side).flatMap fun r => (List.range side).flatMap fun c => (List.range esz).map fun b =>
    d.getD ((c * side + r) * esz + b) dflt

/-- One nibble as UNPACK4 delivers it (R107). -/
def unpackNibble (signed : Bool) (x : Nat) : Byte :=
  if signed ∧ 8 ≤ x then BitVec.ofNat 8 (240 + x) else BitVec.ofNat 8 x

/-- UNPACK4 (R107): element order, or plane order with every low nibble first. -/
def unpack4 (xparam : Nat) (d : List (Byte × Bool)) : List (Byte × Bool) :=
  let lo (x : Byte × Bool) := (unpackNibble (bitOf xparam 0) (x.1.toNat % 16), x.2)
  let hi (x : Byte × Bool) := (unpackNibble (bitOf xparam 0) (x.1.toNat / 16), x.2)
  if bitOf xparam 1 then d.map lo ++ d.map hi else d.flatMap fun x => [lo x, hi x]

/-- MX2BF16 of one block (R107, R224 with RND 0b00 and SAT 0). A poisoned byte poisons the whole block. -/
def mxToBf16 (f : Fmt) (d : List (Byte × Bool)) : List (Byte × Bool) :=
  let bad := d.any (·.2)
  (mxValues f (d.map (·.1))).flatMap fun v => (leBytes 2 (fpTo fmtBF16 false false false v)).map fun b => (b, bad)

/-- Cut a list into `k` parts of `n`. -/
def chunks {α : Type} (n : Nat) : Nat → List α → List (List α)
  | 0, _ => []
  | k + 1, l => l.take n :: chunks n k (l.drop n)

/-- The data a READ delivers from its store bytes (R107, R109). -/
def readTransform (h : Hdr) (d : List (Byte × Bool)) : List (Byte × Bool) :=
  if h.xform = 1 then transposeTile (tileSide h.xparam) (tileElem h.xparam) d (0, false)
  else if h.xform = 2 then unpack4 h.xparam d
  else if h.xform = 3 then deinterleave (if h.xparam / 4 = 1 then 4 else 2) (2 ^ (h.xparam % 4)) d (0, false)
  else if h.xform = 5 then
    let f := (mxFmt (8 + h.xparam)).getD fmtFP4
    (chunks (mxBytes f) (d.length / mxBytes f) d).flatMap (mxToBf16 f)
  else d

/-- The store bytes of a WRITE from its data, in the order of its ranges (R107, R109). -/
def writeTransform (h : Hdr) (d : List Byte) : List Byte :=
  if h.xform = 1 then transposeTile (tileSide h.xparam) (tileElem h.xparam) d 0
  else if h.xform = 4 then interleave (if h.xparam / 4 = 1 then 4 else 2) (2 ^ (h.xparam % 4)) d 0
  else d

/-- The offsets of a request's store bytes, in stored order. -/
def byteOffs (off : Nat) (segs : List (Nat × Nat)) : List Nat :=
  segs.flatMap fun (d, n) => (List.range n).map fun i => off + d + i

/-! Effective priority (R105) -/

/-- EP of a request (R105). -/
def effPrio (s : State) (n p : Nat) (h : Hdr) (urg : Nat) : Nat :=
  let cfg := portCfg s n p
  let pr := Nat.min h.prio (bitsOf cfg 9 8)
  if isPP1 s n p then pr else Nat.max pr (Nat.min urg (bitsOf cfg 11 10))

/-! Beats -/

/-- The bank group of a place (08 R247). -/
def groupOf (p : Place) : Nat :=
  match p.store with
  | .w => p.tier
  | .a => 4 + p.bank / 8
  | .p => 8

/-- The key of the beat that holds a byte: 32 B of the W-store, 64 B elsewhere (03 R56). -/
def beatKey (k : Nat) : Nat := if isW k then k / 32 * 32 else k / 64 * 64

/-- Group keys (each with its index) by the line segment that one beat covers (03 R65): one beat for each segment touched. -/
def beatParts (l : List (Nat × Nat)) : List (List (Nat × Nat)) :=
  ((l.map fun x => beatKey x.1).eraseDups).map fun b => l.filter fun x => beatKey x.1 == b

/-- The requester number of a port at the slice of a beat (08 R277): its own port at home, the mesh port elsewhere. -/
def reqrOf (home port slice : Nat) : Nat := if home = slice then port else 10

/-- The bytes of a beat. -/
def Beat.len (b : Beat) : Nat := b.items.length
/-- The key of a beat's first byte. -/
def Beat.first (b : Beat) : Nat := (b.items.headD (0, 0)).1

/-- The beat of one part of a request or an entry. -/
def beatOf (s : State) (seq op req : Nat) (kind : BeatKind) (items : List (Nat × Nat)) (home port : Nat) (g : Bool) (owner : Option Nat)
    (set ep : Nat) : Beat :=
  let p := placeOf (items.headD (0, 0)).1
  { seq := seq, op := op, req := req, kind := kind, slice := p.slice, group := groupOf p, bank := p.bankNo, items := items, g := g,
    owner := owner, set := set, ep := ep, reqr := reqrOf home port p.slice, src := home * 16 + port, born := s.bcnt, queued := false }

/-- Queue beats for a request or an entry. -/
def queueBeats (op req : Nat) (kind : BeatKind) (parts : List (List (Nat × Nat))) (home port : Nat) (g : Bool)
    (owner : Option Nat) (set ep : Nat) (s : State) : State :=
  parts.foldl (fun t l =>
    let (id, t1) := freshId t
    { t1 with beats := t1.beats ++ [beatOf t id op req kind l home port g owner set ep] }) s

/-! Write-back entries -/

/-- The place of offset `o` of an entry's range, under the descriptor its context holds now. -/
def entryKey (s : State) (e : WbEntry) (o : Nat) : Nat :=
  match ctxOf s e.ctx, storeOf (regionOf e.base) with
  | some c, some st => (locate (ctxSpan s c) st (c.pocket st (pocketNoOf e.base)) (offsetOf e.base + o)).key
  | _, _ => 0

/-- Change one entry. -/
def modWb (id : Nat) (f : WbEntry → WbEntry) (s : State) : State :=
  { s with wb := updWhere (fun e => e.id == id) f s.wb }

/-- The entry of number `id`. -/
def wbOf (s : State) (id : Nat) : Option WbEntry := s.wb.find? fun e => e.id == id

/-- Entries of a port. -/
def portEntries (s : State) (n p : Nat) : List WbEntry := s.wb.filter fun e => e.home == n && e.port == p

/-- Does an entry hold a range-scoreboard entry (R103)? -/
def WbEntry.held (e : WbEntry) : Bool := e.sb == .shared || e.sb == .reserved

/-- The slice that an entry's bytes go to. -/
def entrySlice (s : State) (e : WbEntry) : Nat := (placeOf (entryKey s e 0)).slice

/-- Shared range-scoreboard entries held on a slice (R103). -/
def sbHeld (s : State) (n : Nat) : Nat := (s.wb.filter fun e => e.sb == .shared && entrySlice s e == n).length

/-- Give one entry that waits for it a shared scoreboard entry of its slice, where one of the 224 is free (R103). -/
def grantOne (s : State) (id : Nat) : State :=
  match wbOf s id with
  | some e => if e.sb = .waits ∧ sbHeld s (entrySlice s e) < 224 then modWb id (fun x => { x with sb := .shared }) s else s
  | none => s

/-- Give free scoreboard entries to those that wait, the oldest first. -/
def grantSb (s : State) : State := ((s.wb.filter fun e => e.sb == .waits).map WbEntry.id).foldl grantOne s

/-- Is an entry's write a forwarded one (R112), which travels under the internal landing pool of its target slice? -/
def forwarded (s : State) (e : WbEntry) : Bool := e.issued && entrySlice s e != e.home

/-- Units of the internal pool of slice `n` in use (12 R368). DEDUCED (log entry 87): an entry of up to 64 B takes one unit from its sending
to its commit. -/
def poolUsed (s : State) (n : Nat) : Nat := (s.wb.filter fun e => e.landed && entrySlice s e == n).length

/-- A forwarded entry takes a unit of its target's pool while one of the 32 is free (12 R369). -/
def landOne (s : State) (id : Nat) : State :=
  match wbOf s id with
  | some e => if poolUsed s (entrySlice s e) < 32 then modWb id (fun x => { x with landed := true }) s else s
  | none => s

/-- Forwarded entries take the free units of their targets' pools, the oldest first. -/
def landAll (s : State) : State := ((s.wb.filter fun e => forwarded s e && !e.landed).map WbEntry.id).foldl landOne s

/-- What a drain asks of the scoreboard for an entry: nothing less than it has. -/
def sbFor (ask : SbHold) (e : WbEntry) : SbHold := if e.sb = .none then ask else if ask = .reserved ∧ e.sb = .waits then .reserved else e.sb

/-- Issue one entry for drain (R96): it takes no further bytes; it follows every older entry of its port and context on
the same range; its beats go to its bank. `ask` is the range-scoreboard entry it needs (R103). -/
def issueEntry (ask : SbHold) (s : State) (id : Nat) : State :=
  match wbOf s id with
  | none => s
  | some e =>
    if e.issued then modWb id (fun x => { x with sb := sbFor ask x }) s
    else
      let older := (s.wb.takeWhile fun x => x.id != id).filter fun x =>
        x.home == e.home && x.port == e.port && x.ctx == e.ctx && x.base == e.base
      let parts := beatParts (e.be.map fun (o, _) => (entryKey s e o, o))
      let s1 := modWb id (fun x => { x with issued := true, sb := sbFor ask x, left := parts.length,
                                            after := x.after ++ older.map WbEntry.id }) s
      queueBeats id e.req (if e.acc.isSome then .accum else .write) parts e.home e.port e.g e.owner e.set e.ep s1

/-- Issue a list of entries; those that need a shared scoreboard entry take one while there is room. -/
def issueAll (ask : SbHold) (ids : List Nat) (s : State) : State :=
  let t := ids.foldl (issueEntry ask) s
  landAll (if ask = .waits then grantSb t else t)

/-- The occupancy rule (R96 case 3): while 96 or more entries are in use, the oldest unissued ones are issued until the
entries in use, less those issued, number fewer than 96. -/
def drainExcess (n p : Nat) (s : State) : State :=
  let es := portEntries s n p
  if es.length < 96 then s
  else
    let un := es.filter fun e => !e.issued
    issueAll .none ((un.take (un.length + 1 - 96)).map WbEntry.id) s

/-- What an accepted write puts into an entry: its bytes by base. -/
structure WriteInto where
  home : Nat
  port : Nat
  ctx : Nat
  acc : Option Nat
  g : Bool
  owner : Option Nat
  ep : Nat
  set : Nat
  posted : Bool
  op : Option Nat
  req : Nat
  after : List Nat
  who : Who
  cred : Option Nat

/-- Put the bytes of one 64 B range into the port's buffer (R95, R98): merged into the range's unissued entry, or into a
new one. -/
def intoEntry (w : WriteInto) (base : Nat) (bytes : List (Nat × Byte × Bool)) (s : State) : State :=
  let put (e : WbEntry) : WbEntry :=
    { e with be := bytes.foldl (fun m (o, b, _) => minsert o b m) e.be
             bad := bytes.foldl (fun m (o, _, x) => if x then minsert o true m else mremove o m) e.bad
             g := e.g || w.g
             owner := if w.g then w.owner else e.owner
             req := if w.g then w.req else e.req
             gLeft := if w.g then e.gLeft + bytes.length else e.gLeft
             np := match w.op with
               | some o => e.np ++ [(o, bytes.map (·.1))]
               | none => e.np
             posted := e.posted || w.posted
             after := e.after ++ w.after
             cred := match w.cred with
               | some c => some (c, (e.cred.elim 0 (·.2)) + bytes.length)
               | none => e.cred }
  match s.wb.find? fun e => w.acc.isNone && e.home == w.home && e.port == w.port && e.ctx == w.ctx && e.base == base &&
      !e.issued && e.acc.isNone with
  | some e => modWb e.id put s
  | none =>
    let (id, s1) := freshId s
    let e : WbEntry :=
      { id := id, home := w.home, port := w.port, ctx := w.ctx, base := base, be := [], bad := [], acc := w.acc, g := w.g,
        owner := w.owner, takenB := s.bcnt, ep := w.ep, set := w.set, issued := false, started := false, sb := .none,
        left := 0, status := .ok, lost := [], after := [], np := [], flushes := [], posted := false, cred := none,
        who := w.who, req := id, gLeft := 0, landed := false }
    { s1 with wb := s1.wb ++ [put e] }

/-- The 64 B ranges of a list of pocket-address bytes, each with its bytes by offset in the range. -/
def byBase (items : List (Nat × Byte × Bool)) : List (Nat × List (Nat × Byte × Bool)) :=
  ((items.map fun x => x.1 / 64 * 64).eraseDups).map fun b =>
    (b, (items.filter fun x => x.1 / 64 * 64 == b).map fun x => (x.1 - b, x.2))

/-- Entries an accepted write needs (R95): those of its ranges that have no unissued entry to merge into. -/
def entriesNeeded (s : State) (w : WriteInto) (bases : List Nat) : Nat :=
  (bases.filter fun b => w.acc.isSome || !s.wb.any fun e => e.home == w.home && e.port == w.port && e.ctx == w.ctx &&
    e.base == b && !e.issued && e.acc.isNone).length

/-- Entries of the 112 shared ones in use at a port (R94). DESIGN CHOICE (log entry 86): G-class writes draw first on the 16 reserved
for them, and on the shared ones beyond that. -/
def sharedUsed (s : State) (n p : Nat) : Nat :=
  let es := portEntries s n p
  (es.filter fun e => !e.g).length + ((es.filter WbEntry.g).length - 16)

/-- Is there room for that many entries (R94): 112 are shared, 16 more are for G class? -/
def entryRoom (s : State) (n p : Nat) (g : Bool) (k : Nat) : Bool :=
  if g then decide ((portEntries s n p).length + k ≤ 128) else decide (sharedUsed s n p + k ≤ 112)

/-- The unissued entry of a range, or the newest entry, after a write went in. -/
def entryAt (s : State) (w : WriteInto) (base : Nat) : Option WbEntry :=
  s.wb.reverse.find? fun e => e.home == w.home && e.port == w.port && e.ctx == w.ctx && e.base == base

/-- Drop the port's reuse entries of these ranges, and keep reads in flight from filling them (R100). -/
def invalidateReuse (n p c : Nat) (bases : List Nat) (s : State) : State :=
  let s1 := modPort n p (fun r => { r with reuse := r.reuse.filter fun e => !(e.ctx == c && bases.contains e.base) }) s
  let ops := updWhere (fun o => o.slice == n && o.port == p && o.ctx == c)
    (fun o => { o with noReuse := o.noReuse ++ bases }) s1.ops
  { s1 with ops := ops }

/-! Core groups (09 R291, R292) -/

/-- Is a home port under core order? -/
def coreOn (s : State) (n p : Nat) : Bool :=
  decide (p < 10) && (isPP1 s n p || bitOf (regGet s 0 (portReg n p 0x14)) 0)

/-- The core group that the integration gives a home port; 0xF is taken as 0xE (09 R291, 18 R517). -/
def coreGroup (s : State) (n p : Nat) : Nat := Nat.min (mget (fun k => k % 16) s.cgrp (n * 16 + p) % 16) 14

/-- Do two ports of one slice belong to one core group? -/
def sameCore (s : State) (n p q : Nat) : Bool :=
  coreOn s n p && coreOn s n q && decide (coreGroup s n p = coreGroup s n q)

/-- Drop these reuse entries of a port, and for a B-class write under core order of every port of its core group, whose later reads return the
write's data (09 R292). -/
def invalidateCore (w : WriteInto) (bases : List Nat) (s : State) : State :=
  ((List.range 10).filter fun q => q != w.port && !w.g && sameCore s w.home w.port q).foldl
    (fun t q => invalidateReuse w.home q w.ctx bases t) (invalidateReuse w.home w.port w.ctx bases s)

/-- Accept the bytes of a write (R95 to R98, R100): into entries; then full ranges, G-class writes and ACC_WRITEs are
issued, every entry of an ACC_WRITE behind all older entries that overlap its range, and the occupancy rule is applied. -/
def acceptBytes (w : WriteInto) (items : List (Nat × Byte × Bool)) (s : State) : State :=
  let groups := byBase items
  let bases := groups.map (·.1)
  let s0 := invalidateCore w bases s
  let prior := if w.acc.isSome then (s0.wb.filter fun e => e.home == w.home && e.port == w.port && e.ctx == w.ctx &&
      bases.contains e.base).map WbEntry.id else []
  let w1 := { w with after := w.after ++ prior }
  let s2 := groups.foldl (fun t (b, bs) => intoEntry w1 b bs t) (issueAll .none prior s0)
  let now := bases.filterMap fun b => match entryAt s2 w b with
    | some e => if w.acc.isSome ∨ e.g ∨ e.be.length = 64 then some e.id else none
    | none => none
  drainExcess w.home w.port (issueAll .none now s2)

/-! Core order between requests (09 R292) -/

/-- Other ports' B-class entries of the core group on these ranges: they come before a later request (R292). -/
def groupEntries (s : State) (n p c : Nat) (bases : List Nat) : List WbEntry :=
  s.wb.filter fun e => e.home == n && e.port != p && !e.g && sameCore s n p e.port && e.ctx == c && bases.contains e.base

/-- Is a request one that takes bytes: a READ or a TFILL? -/
def PortOp.reads (o : PortOp) : Bool := o.kind == .read || o.kind == .tfill

/-- Other ports' reads of the core group still to take bytes of these addresses of a context (R292). -/
def groupReads (s : State) (n p c : Nat) (addrs : List Nat) : List Nat :=
  (s.ops.filter fun o => o.slice == n && o.port != p && !o.g && o.reads && sameCore s n p o.port && o.ctx == c &&
    o.addrs.any fun a => addrs.contains a).map PortOp.id

/-! Pockets whose descriptor is about to change -/

/-- Does a SPILL that drains this pocket stand (11 R354 step 1)? -/
def pocketSpilling (s : State) (c : Nat) (st : Store) (pk : Nat) : Bool :=
  s.movers.chans.any fun e => (match e.2.spilling with
    | some (c', st', pk', _) => c' == c && st' == st && pk' == pk
    | none => false)

/-- Is a POCKET_SET of this pocket pending, or a SPILL of it, so that a request of it is held for the new descriptor (02 R48; 11 R354)? -/
def pocketPending (s : State) (c : Nat) (st : Store) (pk : Nat) : Bool :=
  (s.cmds.any fun d => (d.phase == .admitted || d.phase == .waiting) && d.opcode == 0x400 && d.ctx == c &&
    decide (fld (wordAt d.words 2) 16 15 = st.code) && decide (fld (wordAt d.words 2) 14 11 = pk)) || pocketSpilling s c st pk

/-! Entries that a G-class flush drains -/

/-- The entries that a G-class flush drains are served in its owner's slots (08 R248, R265, R280): their beats wait there for request
`req`. Its backlog owes 64 B for each until its beats are served. -/
def slotDrain (ids : List Nat) (owner : Option Nat) (req : Nat) (s : State) : State :=
  let en (e : WbEntry) : WbEntry := if e.g then e else { e with g := true, owner := owner, req := req }
  let bt (b : Beat) : Beat := if b.g then b else { b with g := true, owner := owner, req := req, queued := false }
  { s with wb := updWhere (fun e => ids.contains e.id) en s.wb
           beats := updWhere (fun b => b.kind != .read && ids.contains b.op) bt s.beats }

/-- Entries whose beats have all been served already. -/
def servedOf (s : State) (ids : List Nat) : Nat := (s.wb.filter fun e => ids.contains e.id && e.issued && e.left == 0).length

end Sys2Proof.Machine
end

