-- ==== Sys2Proof/Machine/PortServe.lean ====
section
/-! DEFINITION. Machine/PortServe.lean: serving reads, bank cycles and the commit of write-back entries
(03 R58 to R69, 04 R96 to R104, 08 R248, R271, R276). -/
namespace Sys2Proof.Machine

/-! Reads -/

/-- Lifetime of a reuse entry in bc: 2^(RAGE+2) pc (R100). -/
def reuseLife (s : State) (n p : Nat) : Nat := 2 ^ (bitsOf (portCfg s n p) 19 16 + 1)

/-- A byte in a live reuse entry of the port. -/
def reuseByte (s : State) (n p c a : Nat) : Option Byte :=
  ((portOf s n p).reuse.filter fun e => e.ctx == c && e.base == a / 64 * 64 && decide (s.bcnt < e.fillB + reuseLife s n p)).findSome?
    fun e => e.data.lookup (a % 64)

/-- The forwarded byte of a pocket address: from the port's newest entry that holds it, unless that is an ACC_WRITE
(R98, R101). -/
def forwardByte (s : State) (n p c a : Nat) : Option (Byte × Bool) :=
  match s.wb.reverse.find? fun e => e.home == n && e.port == p && e.ctx == c && e.base == a / 64 * 64 &&
      (e.be.lookup (a % 64)).isSome with
  | some e => if e.acc.isSome then none else (e.be.lookup (a % 64)).map fun b => (b, (e.bad.lookup (a % 64)).isSome)
  | none => none

/-- Pending ACC_WRITE entries of the port that overlap a read (R98). -/
def accPending (s : State) (n p c : Nat) (addrs : List Nat) : List Nat :=
  (s.wb.filter fun e => e.home == n && e.port == p && e.ctx == c && e.acc.isSome &&
    addrs.any fun a => e.base == a / 64 * 64 && (e.be.lookup (a % 64)).isSome).map WbEntry.id

/-- The store bytes of a read whose every byte has been taken, in stored order. -/
def opData (o : PortOp) : List (Byte × Bool) :=
  (List.range o.keys.length).map fun i => ((o.fwd.lookup i).orElse fun _ => o.got.lookup i).getD (0, false)

/-- The header of an outstanding request. -/
def opHdr (s : State) (o : PortOp) : Hdr := if isPP1 s o.slice o.port then pp1Hdr o.hdr else pp2Hdr o.hdr

/-- Fill the port's reuse buffer from a completed read (R100, R102): no range with a poisoned byte or written since the
header; the newest 16 entries stay. -/
def fillReuse (o : PortOp) (d : List (Byte × Bool)) (s : State) : State :=
  let items := o.addrs.zip d
  let bases := (o.addrs.map fun a => a / 64 * 64).eraseDups.filter fun b =>
    !o.noReuse.contains b && !items.any fun (a, x) => a / 64 * 64 == b && x.2
  bases.foldl (fun t b =>
    let data := (items.filter fun (a, _) => a / 64 * 64 == b).foldl (fun m (a, x) => minsert (a - b) x.1 m) []
    modPort o.slice o.port (fun r =>
      let rest := r.reuse.filter fun e => !(e.ctx == o.ctx && e.base == b)
      { r with reuse := ({ ctx := o.ctx, base := b, data := data, fillB := t.bcnt } :: rest).take 16 }) t) s

/-- Check a G-class port request against its bound as it completes (08 R271, R272). -/
def missCheckOp (o : PortOp) (s : State) : State :=
  match o.bound with
  | some b =>
    let took := (s.bcnt - o.acceptB) + o.lpath
    if o.suspended ∨ took ≤ b then s
    else
      let who := if o.port = 10 then Who.mesh o.slice (extSrcdev o.ext) (extStop o.ext) else .homePort o.slice o.port
      recordMiss o.slice 1 o.port who o.ctx (fld o.hdr 127 64) (2 ^ 19 + o.slice * 8192 + o.port) (took - b) o.rail s
  | none => s

/-- The status a request that was served under a suspended contract joins (04 R90). -/
def suspJoin (o : PortOp) (st : Status) : Status := if o.suspended then st.join .guaranteeSuspended else st

/-- Complete a read (R86, R107, R110): transform, status, COUNT, reuse fill, response. -/
def finishRead (o : PortOp) (s : State) : State :=
  let h := opHdr s o
  let d := opData o
  let bad := d.any (·.2)
  let st := suspJoin o (if bad then Status.uncorrectable else o.status)
  let s1 := missCheckOp o (if h.vol then s else fillReuse o d s)
  if o.kind = .tfill then
    let rows := maskRows h.aux
    let out := (List.range 16).flatMap fun k =>
      match rows.idxOf? k with
      | some i => (d.drop (128 * i)).take 128
      | none => List.replicate 128 (0, false)
    respond o st (out.filter fun x => !x.2).length out ((List.range 16).filter fun k => !rows.contains k) s1
  else
    let out := readTransform h d
    respond o st (out.filter fun x => !x.2).length out [] s1

/-- A read served from the reuse buffer makes its ranges the most recently read; their lifetimes run on from the fill (R100). -/
def renewReuse (o : PortOp) (s : State) : State :=
  ((o.addrs.map fun a => a / 64 * 64).eraseDups).foldl (fun t b =>
    modPort o.slice o.port (fun r =>
      let (mine, rest) := r.reuse.partition fun e => e.ctx == o.ctx && e.base == b
      { r with reuse := mine ++ rest }) t) s

/-- A read has its bytes: no later read of its port, or of its core group, may be answered with older ones (09 R289, R292). The
reuse entries of its ranges go, and reads that have taken bytes of them do not fill the buffer. `own` tells whether those of its own
port are meant too: they are where the bytes came from the bank. -/
def dropOlder (own : Bool) (o : PortOp) (s : State) : State :=
  let bases := (o.addrs.map fun a => a / 64 * 64).eraseDups
  let mine (q : Nat) : Bool := if q = o.port then own else !o.g && sameCore s o.slice o.port q
  let stale (x : PortOp) : PortOp :=
    { x with noReuse := x.noReuse ++ bases.filter fun b => x.got.any fun e => x.addrs.getD e.1 0 / 64 * 64 == b }
  let s1 := ((List.range 11).filter mine).foldl (fun t q => modPort o.slice q (fun r =>
    { r with reuse := r.reuse.filter fun e => !(e.ctx == o.ctx && bases.contains e.base) }) t) s
  { s1 with ops := updWhere (fun x => x.slice == o.slice && mine x.port && x.ctx == o.ctx && x.id != o.id) stale s1.ops }

/-- Start an accepted read (R98, R100 to R102, 09 R292): forwarded bytes are taken, the core group's older entries are
issued, and unless every byte lies in live reuse entries, every beat of the range goes to its bank. A piece of a command of another
device (`ret`) takes no byte from the port's buffers (09 R286, R302); a G-class read waits for no other port (09 R293). -/
def startRead (o : PortOp) (vol : Bool) (set ep : Nat) (s : State) : State :=
  let n := o.slice; let p := o.port
  let own := o.ret.isNone
  let fwd := if own then o.addrs.zipIdx.filterMap fun (a, i) => (forwardByte s n p o.ctx a).map fun x => (i, x) else []
  let accs := if own then accPending s n p o.ctx o.addrs else []
  let grp := if o.g then [] else groupEntries s n p o.ctx ((o.addrs.map fun a => a / 64 * 64).eraseDups)
  let reuse := o.addrs.zipIdx.filterMap fun (a, i) => (reuseByte s n p o.ctx a).map fun b => (i, (b, false))
  let covered := own && (List.range o.keys.length).all fun i => (reuse.lookup i).isSome
  let ord := if coreOn s n p && !o.g then groupReads s n p o.ctx o.addrs ++
      ((s.ops.filter fun x => x.slice == n && x.port == p && x.reads && x.keys.any fun k => o.keys.contains k).map PortOp.id)
    else []
  if o.keys.isEmpty then finishRead o { s with ops := s.ops ++ [o] }
  else if !vol && covered && accs.isEmpty && grp.isEmpty && ord.isEmpty then
    let o1 := { o with fwd := fwd, got := reuse }
    finishRead { o1 with noReuse := o.addrs.map fun a => a / 64 * 64 } (dropOlder false o1 (renewReuse o { s with ops := s.ops ++ [o1] }))
  else
    let parts := beatParts o.keys.zipIdx
    let o1 := { o with fwd := fwd, left := parts.length, after := accs ++ grp.map WbEntry.id ++ ord }
    queueBeats o.id o.id .read parts n p o.g o.owner set ep
      (issueAll .none (grp.map WbEntry.id) { s with ops := s.ops ++ [o1] })

/-! Accumulation at a P-store bank (03 R66 to R68, 07 R239 to R241) -/

/-- Combine one element at `k`: the stored bytes, the incoming bytes and whether they arrive poisoned. The element is
written with fresh code bits; a poisoned element stays poisoned (14 R418). -/
def accumOne (c : Agent) (op k : Nat) (bs : List (Byte × Bool)) (acc : State × WriteRes) : State × WriteRes :=
  let s := acc.1
  let n := accSize op
  let ks := (List.range n).map (k + ·)
  let old := ks.map (byteAt s)
  let bad := old.any (·.2) || bs.any (·.2)
  let (v, sat) := accElem op (leNat (old.map (·.1))) (leNat (bs.map (·.1)))
  let st := readStatus s ks
  let s1 := noteRead c ks s
  let s2 := { s1 with mem := ((leBytes n v).zipIdx).foldl (fun m (b, i) => putUnit (k + i) [b] bad m) s1.mem }
  let s3 := if sat then modSlice ((placeOf k).slice) (fun r => { r with accSat := (r.accSat + 1) % 2 ^ 32 }) s2 else s2
  (s3, { status := acc.2.status.join st, lost := acc.2.lost + (if bad then n else 0) })

/-- Accumulate a run of whole elements, first byte at `k`. -/
def accumRun (c : Agent) (op : Nat) : Nat → Nat → List (Byte × Bool) → State × WriteRes → State × WriteRes
  | 0, _, _, acc => acc
  | m + 1, k, bs, acc =>
    let n := accSize op
    accumRun c op m (k + n) (bs.drop n) (accumOne c op k (bs.take n) acc)

/-! Serving one beat -/

/-- Counters of telemetry page 0x00 for bytes moved at a bank (06 R197). -/
def teleMove (c k n : Nat) (write : Bool) (s : State) : State :=
  match (placeOf k).store with
  | .w => if write then s else teleAdd c 2 n s
  | .a => teleAdd c (if write then 6 else 4) n s
  | .p => teleAdd c (if write then 10 else 8) n s

/-- A port's request as the requester of its bytes. -/
def PortOp.agent (o : PortOp) : Agent :=
  { ctx := o.ctx, who := if o.port = 10 then .mesh o.slice (extSrcdev o.ext) (extStop o.ext) else .homePort o.slice o.port }

/-- Take bytes for a read. -/
def serveRead (b : Beat) (o : PortOp) (s : State) : State :=
  let ks := b.items.map (·.1)
  let st := readStatus s ks
  let got := b.items.foldl (fun m (k, i) => minsert i (byteAt s k) m) o.got
  let s1 := teleMove o.ctx b.first b.len false (noteRead (PortOp.agent o) ks s)
  let o1 := { o with got := got, left := o.left - 1, status := o.status.join (if st = .okCorrected then st else .ok) }
  let s2 := modOp o.id (fun _ => o1) s1
  if o1.left = 0 then finishRead o1 (dropOlder true o1 s2) else s2

/-- The flushes of G class that drain an entry have 64 B less to move once its beats are served (08 R265, R280). -/
def flushMoved (e : WbEntry) (s : State) : State :=
  e.flushes.foldl (fun t o => match o with
    | .op id => match opOf t id with
      | some p => if p.g then gMoved 1 (p.slice * 8192 + p.port) 64 t else t
      | none => t
    | .cmd id => match cmdOf t id with
      | some c => if c.gcls then gMoved 0 c.queue 64 t else t
      | none => t
    | _ => t) s

/-- The beats of an entry have all been served: what G-class writes put into it has moved (08 R265). -/
def entryServed (e : WbEntry) (s : State) : State :=
  flushMoved e (if e.gLeft = 0 then s else gMoved 1 (e.home * 8192 + e.port) e.gLeft s)

/-- Store bytes of an entry: those whose code unit reads poisoned after the write are lost (R65, 14 R418). -/
def serveWrite (b : Beat) (e : WbEntry) (s : State) : State :=
  let bs := b.items.map fun (_, o) => ((e.be.lookup o).getD 0, (e.bad.lookup o).isSome)
  let (s1, r) : State × WriteRes := match e.acc with
    | some op => accumRun { ctx := e.ctx, who := e.who } op (b.len / accSize op) b.first bs (s, { status := .ok, lost := 0 })
    | none => writeBytes { ctx := e.ctx, who := e.who } (b.items.zip bs |>.map fun ((k, _), x) => (k, x)) s
  let gone := if r.lost = 0 then [] else (b.items.filter fun (k, _) => (byteAt s1 k).2).map (·.2)
  let s2 := teleMove e.ctx b.first b.len true s1
  let e1 := { e with started := true, left := e.left - 1, status := e.status.join r.status, lost := e.lost ++ gone }
  let s3 := modWb e.id (fun _ => e1) s2
  if e1.left = 0 then entryServed e1 (modWb e.id (fun _ => { e1 with gLeft := 0 }) s3) else s3

/-- Serve one beat at its bank: it leaves the queue, its bytes move, and a G-class read's bytes leave the backlog
(08 R265). -/
def serveBeat (b : Beat) (s : State) : State :=
  let s1 := { s with beats := s.beats.filter fun x => x.seq != b.seq }
  if b.kind = .read then
    match opOf s1 b.op with
    | some o => serveRead b o (if b.g then gMoved 1 (o.slice * 8192 + o.port) b.len s1 else s1)
    | none => s1
  else
    match wbOf s1 b.op with
    | some e => serveWrite b e s1
    | none => s1

/-- Does a beat hold its bank for two cycles (03 R58): an accumulation, or a merge? -/
def twoCycles (b : Beat) : Bool :=
  match b.kind with
  | .accum => true
  | .read => false
  | .write => isMerge (b.items.map (·.1))

/-- Has everything finished that this id list names? -/
def allGone (s : State) (ids : List Nat) : Bool :=
  ids.all fun i => !(s.wb.any fun e => e.id == i) && !(s.ops.any fun o => o.id == i)

/-- Does a held range-scoreboard entry's 64 B range overlap a beat's bytes (04 R94, R104)? -/
def scoreboardHit (s : State) (b : Beat) : Bool :=
  s.wb.any fun e => e.held && e.issued &&
    let k := entryKey s e 0
    b.items.any fun x => decide (k ≤ x.1) && decide (x.1 < k + 64)

/-- Has the mesh port of its slice accepted a forwarded beat (04 R112)? A B-class one with its bank-queue entry; a G-class one at once. -/
def Beat.taken (b : Beat) : Bool := b.queued || b.g

/-- Must a beat that goes to another slice wait for that slice's mesh port (04 R112, R118, R119)? An ENABLED port serves it; one that is
DRAINING what it had accepted. -/
def meshShut (s : State) (b : Beat) : Bool :=
  b.src / 16 != b.slice && (match (portOf s b.slice 10).state with
    | .enabled => false
    | .draining => !b.taken
    | _ => true)

/-- Must a beat still wait (R96, R98, R103, R104, R112, 09 R292; 12 R369)? -/
def beatBlocked (s : State) (b : Beat) : Bool :=
  meshShut s b || match b.kind with
  | .read => (match opOf s b.op with
      | some o => !allGone s o.after
      | none => false) || scoreboardHit s b
  | _ => match wbOf s b.op with
    | some e => !allGone s e.after || (e.sb == .waits && !e.started) || (forwarded s e && !e.landed)
    | none => false

/-! A bank cycle -/

/-- The group set of a waiting beat (08 R249). -/
def beatSet (b : Beat) : GSet :=
  { store := (placeOf b.first).store, set := b.set, acc := b.kind == .accum }

/-- What one bank cycle has used: banks served, groups (slice × 16 + group) whose slot a G-class request, the sequencer or a unit's
bytes took, groups in which B-class beats were served, and tier ports with the banks their grant to the crossbar has. -/
structure Cycle where
  state : State
  banks : List Nat
  groups : List Nat
  shared : List Nat
  tiers : List (Nat × Nat)

/-- A G-class beat reaches its bank in its slot while a two-cycle beat completes there: it waits in a reserved entry (03 R61). -/
def reserveBeat (b : Beat) (s : State) : State :=
  { s with beats := updWhere (fun x => x.seq == b.seq) (fun x => { x with queued := true }) s.beats }

/-- The G-class beats that the slot before found behind a two-cycle beat go first (03 R61). -/
def serveReserved (c : Cycle) : Cycle :=
  (c.state.beats.filter fun b => b.g && b.queued).foldl (fun c b =>
    if c.banks.contains b.bank then c else { c with state := serveBeat b c.state, banks := b.bank :: c.banks }) c

/-- Serve beats of one request in an owner's slot up to q bytes (08 R248; log entry 38). `busy` names the banks whose second cycle this
is: a beat of one of them waits there (03 R58, R61, R68). -/
def serveSlot (busy : List Nat) : List Beat → Nat → Cycle → Cycle
  | [], _, c => c
  | b :: bs, q, c =>
    if b.len ≤ q then
      serveSlot busy bs (q - b.len)
        (if busy.contains b.bank then { c with state := reserveBeat b c.state }
         else { c with state := serveBeat b c.state, banks := b.bank :: c.banks })
    else c

/-- A slot of these beats' request was blocked by a rail current limit (08 R273, R283). -/
def railBeat (b : Beat) (s : State) : State :=
  let s1 := modOp b.op (fun x => { x with rail := true }) s
  match wbOf s1 b.op with
  | some e =>
    let s2 := e.np.foldl (fun t x => modOp x.1 (fun y => { y with rail := true }) t) s1
    e.flushes.foldl (fun t o => match o with
      | .op id => modOp id (fun y => { y with rail := true }) t
      | .cmd id => modCmd id (fun y => { y with rail := true }) t
      | _ => t) s2
  | none => s1

/-- The same for a command's or a piece's bytes. -/
def railWork (w : Work) (s : State) : State :=
  let mark (ch : Chan) : Chan := { ch with ahead := updWhere (fun p => p.id == w.of) (fun p => { p with rail := true }) ch.ahead }
  let s1 := modCmd w.of (fun y => { y with rail := true }) s
  { s1 with movers := { s1.movers with chans := s1.movers.chans.map fun (k, ch) => (k, mark ch) } }

/-- The G-class service of one slice, owner and group set (08 R248, R249): in a slot of the set, up to q bytes of the owner's oldest
request that has bytes to move there, beats of a port's request or bytes of a command or of a mover's row. -/
def serveOwner (busy : List Nat) (rail : Bool) (c : Cycle) (n o : Nat) (gs : GSet) : Cycle :=
  let t := (sliceOf c.state n).weave
  let f := c.state.bcnt % Nat.max (wFL t) 1
  let keys := gs.groups.map (n * 16 + ·)
  if keys.any (fun k => c.groups.contains k) ∨ !(servedAt t o gs).contains f then c
  else
    let bs := c.state.beats.filter fun b => b.g && !b.queued && b.slice == n && b.owner == some o && beatSet b == gs && !beatBlocked c.state b
    let ws := c.state.works.filter fun w => w.g && w.slice == n && w.owner == o && w.gset == gs
    let r := (bs.map Beat.req).foldl Nat.min c.state.nextId
    match ws.head? with
    | some w =>
      if w.id < r then
        if rail then { c with state := railWork w c.state }
        else { c with state := moveWorks (ws.filter fun v => v.req == w.req) (ownerQ o gs) c.state, groups := keys ++ c.groups }
      else if rail then { c with state := ((bs.filter fun b => b.req == r).head?).elim c.state fun b => railBeat b c.state }
      else serveSlot busy (bs.filter fun b => b.req == r) (ownerQ o gs) { c with groups := keys ++ c.groups }
    | none =>
      if bs.isEmpty then c
      else if rail then { c with state := ((bs.filter fun b => b.req == r).head?).elim c.state fun b => railBeat b c.state }
      else serveSlot busy (bs.filter fun b => b.req == r) (ownerQ o gs) { c with groups := keys ++ c.groups }

/-- The owners and group sets that G-class requests wait for in their slots, by slice. -/
def slotSets (s : State) : List (Nat × Nat × GSet) :=
  ((s.beats.filter fun b => b.g && !b.queued).map (fun b => (b.slice, b.owner.getD 0, beatSet b)) ++
    (s.works.filter Work.g).map fun w => (w.slice, w.owner, w.gset)).eraseDups

/-- The backlog of an owner as an admission of this bank cycle finds it, once the cycle's slots have been served (08 R265). -/
def backlogNow (rail : Nat → Bool) (s : State) (o : Nat) : Nat :=
  let c0 : Cycle := { state := s, banks := s.busyBanks, groups := [], shared := [], tiers := [] }
  let mine : List (Nat × Nat × GSet) := (slotSets s).filter fun e => e.2.1 == o
  ownerBacklog (mine.foldl (fun c (n, q, gs) => serveOwner s.busyBanks (rail n) c n q gs) c0).state o

/-- Does the rail limit block this bank cycle of slice `n` (16 R474)? -/
def railBlocks (s : State) (n : Nat) : Bool := decide (s.bcnt % 32 < mget (fun _ => 0) s.power.rail n)

/-- The clear beats of a cycle (06 R169): one line of each bank part of the clears, in the order they started, where the
bank is free, the group's slot is not used (03 R60) and no rail limit blocks the slice (08 R283). -/
def clearStep (rail : Nat → Bool) (c : Cycle) : Cycle :=
  c.state.clears.foldl (fun c j =>
    j.todo.foldl (fun c (bank, lo, hi) =>
      let p := placeOf (bank * 524288)
      if c.banks.contains bank ∨ hi ≤ lo ∨ rail p.slice ∨ c.groups.contains (p.slice * 16 + groupOf p) then c
      else
        let s := c.state
        let s1 := { s with
          mem := clearLines bank lo (lo + 1) s.mem
          clears := updWhere (fun x => x.id == j.id)
            (fun x => { x with todo := x.todo.map fun (b, l, h) => if b = bank ∧ l = lo then (b, l + 1, h) else (b, l, h) }) s.clears }
        { c with state := s1, banks := bank :: c.banks }) c) c

/-- The full allowance of a requester for an interval (08 R277): its r × 64 bc; 256 B for the GPX. -/
def fullAllowance (reqr : Nat) : Nat :=
  64 * (if reqr < 4 then 256 else if reqr < 11 then 128 else if reqr < 14 then 256 else 512)

/-- The links group's bubble fraction takes this much of a requester's allowance: the mesh port's (16 R470). -/
def linkCut (s : State) (reqr a : Nat) : Nat := if reqr = 10 then a * (32 - mget (fun _ => 0) s.power.bub 0) / 32 else a

/-- Does a requester's allowance limit requests of this EP (R277; 16 R470)? An NMU's weight reads are none of R277's requesters. -/
def counted (s : State) (n reqr ep : Nat) : Bool :=
  (decide (reqr ≠ 15) && decide (ep < (sliceOf s n).cut)) || (decide (reqr = 10) && decide (mget (fun _ => 0) s.power.bub 0 ≠ 0))

/-- What is left of a requester's allowance in this interval. -/
def allowLeft (s : State) (n reqr : Nat) : Nat :=
  let r := sliceOf s n
  linkCut s reqr (mget fullAllowance r.allow reqr) - mget (fun _ => 0) r.used reqr

/-- May the crossbar pass this B-class beat under the regulator (R277)? -/
def regulatorOk (s : State) (b : Beat) : Bool :=
  !counted s b.slice b.reqr b.ep || decide (b.len ≤ allowLeft s b.slice b.reqr)

/-- Count what bytes draw from a requester's allowance, and that it sent counted requests to a group (R277). -/
def drawAllow (n reqr group ep len : Nat) (s : State) : State :=
  if !counted s n reqr ep then s
  else modSlice n (fun r =>
    { r with used := mput (fun _ => 0) r.used reqr (mget (fun _ => 0) r.used reqr + len)
             sent := if r.cut ≤ ep ∨ r.sent.contains (reqr * 16 + group) then r.sent else (reqr * 16 + group) :: r.sent }) s

/-- Count what a B-class beat draws from its requester's allowance (R277). -/
def regulatorCount (b : Beat) (s : State) : State := drawAllow b.slice b.reqr b.group b.ep b.len s

/-- May a tier port take this beat (03 R15)? A grant of the cycle to the crossbar serves at most 8 banks. -/
def tierOk (c : Cycle) (b : Beat) : Bool :=
  if 4 ≤ b.group then true
  else match c.tiers.lookup (b.slice * 4 + b.group) with
    | some k => decide (k < 8)
    | none => true

/-- Note a tier port's grant. -/
def tierTake (c : Cycle) (b : Beat) : List (Nat × Nat) :=
  if 4 ≤ b.group then c.tiers
  else minsert (b.slice * 4 + b.group) ((c.tiers.lookup (b.slice * 4 + b.group)).getD 0 + 1) c.tiers

/-- May a waiting B-class beat be served now (03 R60 step 4)? `stalled` names the groups whose B-class slots are bubbles (16 R470). -/
def beatReady (stalled : Nat → Nat → Bool) (c : Cycle) (b : Beat) : Bool :=
  !b.g && b.queued && !stalled b.slice b.group && !c.banks.contains b.bank && !c.groups.contains (b.slice * 16 + b.group) &&
    tierOk c b && !beatBlocked c.state b

/-- How far requester `reqr` stands behind the one that bank `bank` served last. -/
def turnOf (s : State) (n bank reqr : Nat) : Nat := (reqr + 31 - mget (fun _ => 15) (sliceOf s n).rr bank) % 16

/-- Of two waiting beats of a bank, the one to serve: the older; of equal age, the one whose requester's turn comes first (03 R60). -/
def betterBeat (s : State) (a b : Beat) : Beat :=
  if b.born < a.born ∨ (b.born = a.born ∧ turnOf s b.slice b.bank b.reqr < turnOf s a.slice a.bank a.reqr) then b else a

/-- The B-class service of one bank: the beat that R60 chooses. -/
def serveBank (stalled : Nat → Nat → Bool) (c : Cycle) (bank : Nat) : Cycle :=
  match c.state.beats.filter fun b => b.bank == bank && beatReady stalled c b with
  | [] => c
  | a :: rest =>
    let b := rest.foldl (betterBeat c.state) a
    { c with state := modSlice b.slice (fun r => { r with rr := mput (fun _ => 15) r.rr bank b.reqr }) (serveBeat b c.state)
             banks := bank :: c.banks, shared := (b.slice * 16 + b.group) :: c.shared, tiers := tierTake c b }

/-- The B-class service of the banks in a cycle (03 R60 step 4). -/
def serveB (stalled : Nat → Nat → Bool) (c : Cycle) : Cycle :=
  ((c.state.beats.filter fun b => !b.g && b.queued).map Beat.bank).eraseDups.foldl (serveBank stalled) c

/-- Bytes that a group set moves for a unit's B-class work in one bank cycle: one grant of its tier port (03 R15), its sleeves' banks, or
the P-store's, half as much where it accumulates (03 R69). -/
def unitShare (g : GSet) : Nat := if g.acc then g.size / 2 else g.size

/-- Does the unit of a work run? A command of a suspended tenant has paused (13 R397 step 3). -/
def workRuns (s : State) (w : Work) : Bool :=
  match cmdOf s w.of with
  | some c => qPriv c.queue || ctxActive s c.ctx
  | none => true

/-- B-class bytes of commands and movers, and rows of the GPX, in one group set of a slice (03 R15, R60; 08 R277): the oldest work takes the
group's cycle where no slot, sequencer or bank of the group has it, and, in the first pass, where no older beat waits there. -/
def serveUnits (stalled : Nat → Nat → Nat → Bool) (first : Bool) (c : Cycle) (e : Nat × GSet) : Cycle :=
  let (n, gs) := e
  let keys := gs.groups.map (n * 16 + ·)
  match c.state.works.find? fun w => !w.g && w.slice == n && w.gset == gs && workRuns c.state w with
  | none => c
  | some w =>
    let older := first && c.state.beats.any fun b => !b.g && b.queued && b.slice == n && gs.groups.contains b.group && decide (b.seq < w.id) &&
      beatReady (fun a g => stalled a g 0) c b
    let m := if counted c.state n w.reqr w.ep then Nat.min (unitShare gs) (allowLeft c.state n w.reqr) else unitShare gs
    if older ∨ m = 0 ∨ keys.any (fun k => c.groups.contains k ∨ c.shared.contains k) ∨ gs.groups.any (fun g => stalled n g w.reqr) then c
    else
      let k := Nat.min m w.left
      { c with state := moveWork w k (drawAllow n w.reqr (gs.groups.headD 0) w.ep k c.state), groups := keys ++ c.groups }

/-- Bytes at a partition's outer port stand among the works as those of slice 256 + partition. -/
def outerSlice (part : Nat) : Nat := 256 + part

/-- The slices and group sets in which units' B-class work waits. -/
def unitSets (s : State) : List (Nat × GSet) := ((s.works.filter fun w => !w.g && decide (w.slice < 256)).map fun w => (w.slice, w.gset)).eraseDups

/-- REGU_CFG of a slice (08 R279). -/
def regCfg (s : State) (n : Nat) : Nat := regGet s 0x8C8008A6 (regNo n 0xA0C)

/-- What a partition's outer-port channel may still move in this interval (08 R278); without a regulator, all of it. -/
def outerLeft (s : State) (p left : Nat) : Nat :=
  if bitOf (regCfg s (partOf s p).first) 31 then
    Config.outerFull p - mget (fun _ => 0) s.outerCut p - mget (fun _ => 0) s.outerUsed p
  else left

/-- Bytes of one work at the outer port draw on its partition's allowance (R278): what is left of it waits for the next interval. -/
def outerStep (s : State) (w : Work) : State :=
  let p := w.slice - 256
  let k := Nat.min w.left (outerLeft s p w.left)
  let s1 := moveWork w k s
  { s1 with outerUsed := mput (fun _ => 0) s1.outerUsed p (mget (fun _ => 0) s1.outerUsed p + k) }

/-- The bytes at the outer ports. -/
def serveOuter (s : State) : State := (s.works.filter fun w => decide (256 ≤ w.slice) && workRuns s w).foldl outerStep s

/-- Waiting B-class beats of a bank, as its shared queue entries count them (03 R61). -/
def bankOcc (beats : List Beat) (bank : Nat) : Nat := Nat.min 12 (beats.filter fun b => !b.g && b.queued && b.bank == bank).length

/-- Has a bank a free shared entry (03 R61)? A beat that must wait for another access holds none. -/
def bankFree (s : State) (bank : Nat) : Bool :=
  decide ((s.beats.filter fun b => !b.g && b.queued && b.bank == bank && !beatBlocked s b).length < 12)

/-- The crossbar passes a held beat to its bank's queue, where it must wait for no other access, an entry is free and the
regulator lets it pass (04 R106, 08 R277). -/
def admitBeat (s : State) (b : Beat) : State :=
  if !beatBlocked s b && bankFree s b.bank && regulatorOk s b then
    regulatorCount b { s with beats := updWhere (fun x => x.seq == b.seq) (fun x => { x with queued := true }) s.beats }
  else s

/-- The crossbar fills the shared entries that have freed: the highest EP first, the oldest among equals (04 R106). -/
def admitBeats (s : State) : State :=
  ([3, 2, 1, 0].flatMap fun ep => s.beats.filter fun b => !b.g && !b.queued && b.ep == ep).foldl admitBeat s

/-- Is the current bank cycle a background slot of the bank group of a key (08 R255; 01 R23), and do its slice's sequencers run (15 R452)? -/
def bgNow (s : State) (k : Nat) : Bool :=
  let t := (sliceOf s (placeOf k).slice).weave
  seqRuns s (placeOf k).slice && slotBg t (groupOf (placeOf k)) (s.bcnt % Nat.max (wFL t) 1)

/-- The tags owed that this cycle's background slots set (14 R418): the longest owed of each group; it takes the group's slot, its tier
port's grant included (03 R15, R60). -/
def owedStep (rail : Nat → Bool) (c : Cycle) : Cycle :=
  c.state.mem.owed.reverse.foldl (fun c u =>
    let p := placeOf u
    let k := p.slice * 16 + groupOf p
    if c.banks.contains p.bankNo ∨ c.groups.contains k ∨ rail p.slice ∨ !bgNow c.state u then c
    else
      let m := c.state.mem
      { c with state := integAdd 10 1 { c.state with mem := { m with tag := mput (fun _ => false) m.tag u true, owed := m.owed.filter (· != u) } }
               banks := p.bankNo :: c.banks, groups := k :: c.groups }) c

/-- Add a cycle's occupancies to the interval's sums, by group (08 R276). -/
def sampleOcc (s : State) : State :=
  let bs := (s.beats.filter fun b => !b.g && b.queued)
  let keys := (bs.map fun b => (b.slice, b.group, b.bank)).eraseDups
  keys.foldl (fun t (n, g, bank) =>
    modSlice n (fun r => { r with occ := mput (fun _ => 0) r.occ g (mget (fun _ => 0) r.occ g + bankOcc bs bank) }) t) s

/-- One bank cycle of the device (03 R60): the crossbar fills the bank queues; then G-class slots, background slots, clears
and B class; then BCNT counts. `rail` names the
slices blocked in this cycle (16 R474), `stalled` the B-class bubbles by slice, group and requester. -/
def bankCycle (rail : Nat → Bool) (stalled : Nat → Nat → Nat → Bool) (s : State) : State :=
  let two := (s.beats.filter twoCycles).map fun b => (b.seq, b.bank)
  let c0 : Cycle := { state := admitBeats { s with busyBanks := [] }, banks := s.busyBanks, groups := [], shared := [], tiers := [] }
  let c1 := (slotSets c0.state).foldl (fun c (n, o, gs) => serveOwner s.busyBanks (rail n) c n o gs) (serveReserved c0)
  let c2 := clearStep rail (owedStep rail c1)
  let off (n g q : Nat) : Bool := rail n || stalled n g q
  let c3 := serveB (fun n g => off n g 0) ((unitSets c2.state).foldl (serveUnits off true) c2)
  let c4 := (unitSets c3.state).foldl (serveUnits off false) c3
  let busy := (two.filter fun (q, _) => !c4.state.beats.any fun b => b.seq == q).map (·.2)
  sampleOcc { serveOuter c4.state with busyBanks := busy, bcnt := (c4.state.bcnt + 1) % 2 ^ 64 }

/-! Commit -/

/-- The late status a port owes (R99): carried by the first FLUSH or NP write to complete. -/
def takeLate (n p : Nat) (st : Status) (s : State) : Status × State :=
  match (portOf s n p).late with
  | some l => (st.join l, modPort n p (fun r => { r with late := none }) s)
  | none => (st, s)

/-- One entry of a non-posted write or a port FLUSH has committed: the request completes with its last one (R99, R103). `mine` are the
offsets that the request wrote: what it lost of them is off its COUNT. -/
def opEntryDone (e : WbEntry) (s : State) (id : Nat) (mine : List Nat) : State :=
  match opOf s id with
  | none => s
  | some o =>
    let fault := e.status == .uncorrectable || e.status == .unitFailed
    let o1 := { o with left := o.left - 1, status := o.status.join e.status, bad := o.bad + (mine.filter fun i => e.lost.contains i).length,
                       entries := if fault then o.entries else o.entries + 1 }
    let s1 := modOp id (fun _ => o1) s
    if o1.left = 0 then
      let (st, s2) := takeLate o.slice o.port o1.status s1
      respond o1 (suspJoin o1 st) (if o.kind = .flush then o1.entries else (opHdr s o).len + 1 - o1.bad) [] [] (missCheckOp o1 s2)
    else s1

/-- An entry covered by a FLUSH_RANGE has committed: the command completes with its last one, once it has issued them (06 R180). -/
def cmdEntryDone (e : WbEntry) (s : State) (id : Nat) : State :=
  let s1 := modCmd id (fun c => { c with status := c.status.join e.status, count := c.count + b2n (e.status != .unitFailed) }) s
  if s1.wb.any fun x => x.flushes.contains (.cmd id) then s1
  else match cmdOf s1 id with
    | some c => if c.phase = .waiting then cmdDone id .ok c.count 0 s1 else s1
    | none => s1

/-- A posted write that failed after acceptance is reported, and its status is owed to the port (R99). DESIGN CHOICE (log entry 88): of
several failures the first one's status is kept; R99 names two statuses for the one completion and not which. -/
def lateReport (e : WbEntry) (s : State) : State :=
  if e.posted ∧ (e.status = .uncorrectable ∨ e.status = .unitFailed) then
    let s1 := portErr e.home e.port 7 (report e.status 1 e.home e.port e.who e.ctx e.base s)
    modPort e.home e.port (fun r => { r with late := some ((r.late.getD e.status)) }) s1
  else s

/-- Has a G-class flush not yet ended, a port's or a FLUSH_RANGE (08 R280)? -/
def flushLive (s : State) (id : Nat) : Bool :=
  (s.ops.any fun o => o.id == id) || s.cmds.any fun c => c.id == id && (c.phase == .admitted || c.phase == .waiting)

/-- Does a G-class flush that has not ended hold entries of a slice (08 R280)? -/
def flushHeld (s : State) (n : Nat) : Bool := (sliceOf s n).gflush.any (flushLive s)

/-- An entry ends, committed or lost: it leaves the buffer, its scoreboard entry and its landing unit go to those that wait, and what
waits for it goes on (R96, R103). -/
def commitEntry (e : WbEntry) (s : State) : State :=
  let s1 := lateReport e { s with wb := s.wb.filter fun x => x.id != e.id }
  let s2 := e.np.foldl (fun t x => opEntryDone e t x.1 x.2) s1
  let s3 := e.flushes.foldl (fun t o => match o with
    | .op id => opEntryDone e t id []
    | .cmd id => cmdEntryDone e t id
    | _ => t) s2
  landAll (grantSb { s3 with slices := s3.slices.map fun (k, r) =>
      (k, { r with gflush := r.gflush.filter (flushLive s3) }) })

end Sys2Proof.Machine
end

