-- ==== Sys2Proof/Machine/PortAccept.lean ====
section
/-! DEFINITION. Machine/PortAccept.lean: the acceptance of store requests at a port (04 R89, R93 to R103, R110, R111;
08 R264 to R268, R280, R528; 12 R369, R372, R375). -/
namespace Sys2Proof.Machine

/-- A request on its way through acceptance: decoded header, header and extension as sent, data with poison marks,
urgency, the stamps, the device and TAG a fabric answer goes to, and the stop of the fabric port that a frame entered by (08 R267). -/
structure Req where
  slice : Nat
  port : Nat
  h : Hdr
  raw : BitVec 128
  ext : DWord
  data : List (Byte × Bool)
  urg : Nat
  priv : Bool
  secure : Bool
  ret : Option (Nat × Nat)
  via : Nat
  deriving DecidableEq, Repr

/-- A request of an engine as the port takes it. -/
def reqOf (s : State) (r : PortReq) : Req :=
  { slice := r.slice, port := r.port, h := reqHdr s r, raw := r.hdr, ext := r.ext, data := r.data.map fun b => (b, false),
    urg := r.urg, priv := r.priv, secure := r.secure, ret := none, via := 0 }

/-- Does the request come through the mesh port? -/
def Req.mesh (r : Req) : Bool := decide (r.port = 10)

/-- The requester as the error log names it (06 R204). -/
def Req.who (r : Req) : Who :=
  if r.mesh then .mesh r.slice (extSrcdev r.ext) (extStop r.ext) else .homePort r.slice r.port

/-- The context a request acts for: PORT_CTX of a home port (04 R115), CTX of the extension. -/
def Req.ctx (s : State) (r : Req) : Nat :=
  if r.mesh then extCtx r.ext else regGet s 0 (portReg r.slice r.port 8) % 2048

/-- Is the port bound to a context (R115)? -/
def portBound (s : State) (n p : Nat) : Bool := bitOf (regGet s 0 (portReg n p 8)) 31

/-- Answer a request that is never outstanding. -/
def replyReq (r : Req) (st : Status) (count : Nat) (data : List (Byte × Bool)) (s : State) : State :=
  match r.ret with
  | some (d, t) => responseFrame r.slice d t st count data s
  | none =>
    let (id, s1) := freshId s
    answer r.slice r.port id (.portRsp r.slice r.port r.h.tag st (Nat.min count 4095) data []) s1

/-- Refuse a request (R89): its response, the PORT_ERR bit, and for the checks R45 names an error-log entry. -/
def refuseReq (r : Req) (st : Status) (bit : Nat) (logged : Bool) (s : State) : State :=
  let s1 := portErr r.slice r.port bit s
  let s2 := if logged then report st 1 r.slice r.port r.who (r.ctx s) r.h.addr s1 else s1
  replyReq r st 0 [] s2

/-- The PORT_ERR bit of an acceptance status (R117). -/
def errBit (st : Status) : Nat :=
  match st with
  | .boundViolation => 3
  | .creditDenied => 2
  | .rejectedContract => 1
  | .reservedNonzero => 5
  | _ => 4

/-! Credits (12 R372, R375) -/

/-- The grant that a handle names. -/
def grantOf (s : State) (handle : Nat) : Option Grant :=
  s.fab.grants.find? fun g => g.part == handle / 1024 % 32 && g.index == handle % 1024 && g.live

/-- Has a grant's EXPIRY passed (R373)? -/
def grantExpired (s : State) (g : Grant) : Bool := decide (g.expiry ≠ 0 ∧ g.expiry ≤ s.rc)

/-- Landed bytes of a grant on a slice. -/
def Grant.landedOn (g : Grant) (n : Nat) : Nat := mget (fun _ => 0) g.landed n

/-- Does a write of `len` bytes at slice `n` pass the five tests of R372? -/
def creditOk (s : State) (r : Req) (st : Store) (pk len : Nat) : Option Grant :=
  match grantOf s (extCred r.ext) with
  | some g =>
    if !grantExpired s g ∧ g.srcdev = extSrcdev r.ext ∧ g.tenant = extTenant r.ext ∧ g.tctx = extCtx r.ext ∧
        g.store = st.code ∧ g.pocket = pk ∧ g.scope.contains r.slice ∧ g.landedOn r.slice + len ≤ g.win * 256
    then some g else none
  | none => none

/-- Add bytes to the landed count of a grant on a slice, or take them away. -/
def landBytes (handle n len : Nat) (add : Bool) (s : State) : State :=
  { s with fab := { s.fab with grants := s.fab.grants.map fun g =>
      if g.part = handle / 1024 % 32 ∧ g.index = handle % 1024 then
        { g with landed := mput (fun _ => 0) g.landed n (if add then g.landedOn n + len else g.landedOn n - len) }
      else g } }

/-- Contract-reserve units of a slice that hold landed bytes (R388). -/
def rsvLanded (s : State) (n : Nat) : Nat :=
  ((s.fab.grants.filter Grant.reserved).map fun g => ceilDiv (g.landedOn n) 256).foldl (· + ·) 0

/-! G class at a port (08 R264 to R268, R528) -/

/-- What acceptance decides of a request's class. -/
inductive GClass where
  | bcls (suspended : Bool)
  | gcls (c : Contract) (bound lpath : Nat)
  | refused (why : GRefusal)
  deriving DecidableEq, Repr

/-- A group set with the slices that a request uses it on (R249). -/
abbrev SetOn := GSet × List Nat

/-- The group sets of a port request but a FLUSH. -/
def reqSets (st : Store) (p : Pocket) (kind : Nat) (ns : List Nat) : List SetOn := [({ store := st, set := p.set, acc := decide (kind = 2) }, ns)]

/-- The group sets that a port FLUSH of these entries writes (R249, R528): an ACC_WRITE's entries drain as accumulates. -/
def flushSets (s : State) (st : Store) (p : Pocket) (es : List WbEntry) : List SetOn :=
  ([false, true].map fun a => (({ store := st, set := p.set, acc := a } : GSet),
    ((es.filter fun e => e.acc.isSome == a).map (entrySlice s)).eraseDups)).filter fun e => !e.2.isEmpty

/-- The sets used on slice `k`. -/
def setsOn (us : List SetOn) (k : Nat) : List GSet := (us.filter fun e => e.2.contains k).map (·.1)

/-- The stop that a request is admitted from (R267): its requester's, or that of the fabric port by which it entered the chip. -/
def Req.stop (r : Req) : Nat := if r.ret.isSome then r.via else extStop r.ext

/-- L_path from a requester to a slice where it uses these sets (R269; 03 R70: 1 bc more where it accumulates). -/
def reqPath (s : State) (r : Req) (st : Store) (gs : List GSet) (n : Nat) : Nat :=
  (if r.mesh then lMesh s st (r.stop % 8, r.stop / 8) n else portPath s st r.slice n) + (if gs.any GSet.acc then 1 else 0)

/-- Step 8 of R89 for a request of `n` bytes that uses these sets. -/
def gClass (s : State) (r : Req) (st : Store) (p : Pocket) (sp : Span) (us : List SetOn) (n : Nat) (wholeWords : Bool) : GClass :=
  if !r.h.g then .bcls false
  else
    match contractOf s 1 (r.slice * 8192 + r.port) with
    | none => .refused .noContract
    | some c =>
      if r.mesh ∧ (c.srcstop ≠ r.stop ∨ c.ctx ≠ extCtx r.ext) then .refused .noContract
      else if !([0, 3, 4].contains r.h.xform) ∨ (st = .w ∧ r.h.kind = 1 ∧ !wholeWords) then .refused .noContract
      else if !us.all (fun e => ownerServes s c.owner [e.1] e.2) then .refused .noSlots
      else if c.suspended then .bcls true
      else
        let b := backlogNow (railBlocks s) s c.owner
        match gTests c b n with
        | some why => .refused why
        | none =>
          let lps := (us.flatMap (·.2)).eraseDups.map fun k => (k, reqPath s r st (setsOn us k) k)
          .gcls c (gBound s c.owner (setsOn us) lps (b + n) (setW st p.set) (pocketS sp p)) ((lps.map (·.2)).foldl Nat.max 0)

/-- Refuse a G-class request (R89 step 8), counted on telemetry page 0x13 (08 R275). -/
def refuseG (r : Req) (why : GRefusal) (s : State) : State :=
  let s1 := gTele 4 1 s
  let s2 := match why with
    | .backlog => gTele 6 1 s1
    | .tokens => gTele 8 1 s1
    | _ => s1
  refuseReq r .rejectedContract 1 false s2

/-- Do the bytes at these keys cover whole aligned W-store code words (R64)? -/
def wholeWords (ks : List Nat) : Bool := !isMerge ks

/-! Serving accepted requests -/

/-- A new outstanding request. -/
def newOp (s : State) (id : Nat) (r : Req) (kind : OpKind) (keys addrs : List Nat) (g : Bool) (owner : Option Nat)
    (susp : Bool) (bound : Option Nat) (lpath left : Nat) : PortOp :=
  { id := id, slice := r.slice, port := r.port, tag := r.h.tag, kind := kind, ctx := r.ctx s, hdr := r.raw, ext := r.ext,
    keys := keys, addrs := addrs, fwd := [], got := [], left := left, entries := 0, status := .ok, bad := 0, g := g,
    owner := owner, suspended := susp, acceptB := s.bcnt, bound := bound, lpath := lpath, rail := false, noReuse := [],
    after := [], ret := r.ret }

/-- The owner a G-class request is served for. -/
def GClass.owner : GClass → Option Nat
  | .gcls c _ _ => some c.owner
  | _ => none

/-- Was the request admitted as G class? -/
def GClass.isG : GClass → Bool
  | .gcls _ _ _ => true
  | _ => false

/-- Does it run as B class under a suspended contract? -/
def GClass.susp : GClass → Bool
  | .bcls x => x
  | _ => false

/-- Its bound and L_path. -/
def GClass.bound : GClass → Option Nat
  | .gcls _ b _ => some b
  | _ => none
def GClass.lpath : GClass → Nat
  | .gcls _ _ l => l
  | _ => 0

/-- Admission takes tokens and adds to the backlog, where it is G class. -/
def GClass.take (g : GClass) (n : Nat) (s : State) : State :=
  match g with
  | .gcls c _ _ => gTele 2 1 (gTake c n s)
  | .bcls susp => if susp then gTele 14 1 s else s
  | .refused _ => s

/-- The data rows a TSPILL carries, or the store bytes a WRITE or ACC_WRITE stores, in stored order. -/
def storedData (r : Req) : List (Byte × Bool) :=
  if r.h.kind = 1 then
    let ds := writeTransform r.h (r.data.map (·.1))
    ds.zip ((writeTransform r.h (r.data.map fun x => if x.2 then (1 : Byte) else 0)).map (· == 1))
  else r.data

/-- The bytes of a G-class request that no slot is to move leave the backlog at once (08 R265): those of a tile's rows out of use, and those
of a read that the port's own buffers serve. -/
def gIdle (r : Req) (g : GClass) (moved : Nat) (s : State) : State :=
  if g.isG then gMoved 1 (r.slice * 8192 + r.port) (r.h.len + 1 - moved) s else s

/-- Accept a READ or TFILL (R100 to R102, R110). -/
def acceptRead (r : Req) (addrs keys : List Nat) (p : Pocket) (g : GClass) (s : State) : State :=
  let (id, s1) := freshId s
  let o := newOp s1 id r (if r.h.kind = 5 then .tfill else .read) keys addrs g.isG g.owner g.susp g.bound g.lpath 0
  let s2 := startRead o r.h.vol p.set (effPrio s r.slice r.port r.h r.urg) (g.take (r.h.len + 1) s1)
  gIdle r g (if s2.beats.any (fun b => b.op == id) then keys.length else 0) s2

/-- Accept a WRITE, ACC_WRITE or TSPILL (R94 to R99): it waits, unchanged, while an entry it needs is not available; a
posted one is answered at once. -/
def acceptWrite (r : Req) (addrs : List Nat) (p : Pocket) (g : GClass) (cred : Option Nat) (s : State) : State :=
  let posted := !r.h.np
  let (id, s1) := freshId s
  let w : WriteInto :=
    { home := r.slice, port := r.port, ctx := r.ctx s, acc := if r.h.kind = 2 then some r.h.accop else none, g := g.isG,
      owner := g.owner, ep := effPrio s r.slice r.port r.h r.urg, set := p.set, posted := posted,
      op := if posted then none else some id, req := id, after := [], who := r.who, cred := cred }
  let items := addrs.zip (storedData r)
  let bases := (byBase items).map (·.1)
  if !entryRoom s r.slice r.port g.isG (entriesNeeded s w bases) then s
  else
    let grp := if coreOn s r.slice r.port ∧ !g.isG then groupEntries s r.slice r.port (r.ctx s) bases else []
    let w1 := { w with after := grp.map WbEntry.id ++ (if g.isG then [] else groupReads s r.slice r.port (r.ctx s) addrs) }
    let s2 := issueAll .none (grp.map WbEntry.id) (gIdle r g addrs.length (g.take (r.h.len + 1) s1))
    let s3 := match cred with
      | some h => landBytes h r.slice items.length true s2
      | none => s2
    if posted then replyReq r (if g.susp then .guaranteeSuspended else .ok) (r.h.len + 1) [] (acceptBytes w1 items s3)
    else if bases.isEmpty then
      let (st, s4) := takeLate r.slice r.port (if g.susp then .guaranteeSuspended else .ok) s3
      replyReq r st (r.h.len + 1) [] s4
    else
      let o := newOp s1 id r (if r.h.kind = 2 then .accWrite else if r.h.kind = 4 then .tspill else .write) [] addrs g.isG
        g.owner g.susp g.bound g.lpath bases.length
      acceptBytes w1 items { s3 with ops := s3.ops ++ [o] }

/-- The entries of a port that a flush of a range covers: its context's, overlapping the range. -/
def flushEntries (s : State) (n p c base len : Nat) : List WbEntry :=
  s.wb.filter fun e => e.home == n && e.port == p && e.ctx == c && rangesMeet e.base 64 base len

/-- The most entries that one slice holds of a list. -/
def mostOnSlice (s : State) (es : List WbEntry) : Nat :=
  let ns := es.map (entrySlice s)
  (ns.eraseDups.map fun n => (ns.filter (· == n)).length).foldl Nat.max 0

/-- Accept a FLUSH of `es` (R103, 08 R280). -/
def acceptFlush (r : Req) (es : List WbEntry) (g : GClass) (s : State) : State :=
  let base := r.h.addr % 2 ^ 40
  let (id, s1) := freshId s
  let s2 := g.take (64 * es.length) (modPort r.slice r.port (fun x =>
    { x with reuse := x.reuse.filter fun e => !(e.ctx == r.ctx s && rangesMeet e.base 64 base ((r.h.len + 1) * 256)) }) s1)
  let noRe (o : PortOp) : PortOp :=
    { o with noReuse := o.noReuse ++ (o.addrs.map fun a => a / 64 * 64).filter fun b => rangesMeet b 64 base ((r.h.len + 1) * 256) }
  let ops' := updWhere (fun o => o.slice == r.slice && o.port == r.port && o.ctx == r.ctx s) noRe s2.ops
  let s3 := { s2 with ops := ops' }
  if es.isEmpty then
    let (st, s4) := takeLate r.slice r.port (if g.susp then .guaranteeSuspended else .ok) s3
    replyReq r st 0 [] s4
  else
    let ids := es.map WbEntry.id
    let o := newOp s1 id r .flush [] [] g.isG g.owner g.susp g.bound g.lpath es.length
    let mark (e : WbEntry) : WbEntry := { e with flushes := e.flushes ++ [.op id] }
    let s4 : State := { s3 with ops := s3.ops ++ [o], wb := updWhere (fun e => ids.contains e.id) mark s3.wb }
    if g.isG then
      let s5 := issueAll .reserved ids (slotDrain ids g.owner id (gMoved 1 (r.slice * 8192 + r.port) (64 * servedOf s4 ids) s4))
      (r.slice :: es.map (entrySlice s)).eraseDups.foldl (fun t n => modSlice n (fun x => { x with gflush := id :: x.gflush }) t) s5
    else issueAll .waits ids s4

/-- What the mesh ports of the other slices that a request's bytes hash to make of it (04 R112, R118, R119). DEDUCED (log entry 90): a
DISABLED one answers DECODE_ERROR as to every request, one that is DRAINING or CLEARING accepts none. -/
def farPorts (s : State) (r : Req) (ns : List Nat) : Option Status × Bool :=
  let far := (ns.filter (· != r.slice)).map fun n => (portOf s n 10).state
  if far.contains .disabled then (some .decodeError, true) else (none, far.all (· == .enabled))

/-- Steps 7 and 8 of R89 and the service of a request that has passed R44 on pocket `pk` of store `st`. -/
def acceptStore (r : Req) (x : Ctx) (st : Store) (pk : Nat) (p : Pocket) (s : State) : State :=
  let sp := ctxSpan s x
  let off := offsetOf (r.h.addr % 2 ^ 40)
  let offs := byteOffs off (segsOf r.h)
  let addrs := offs.map (pocketAddr st pk)
  let keys := offs.map fun o => (locate sp st p o).key
  let ns := (keys.map fun k => (placeOf k).slice).eraseDups
  if r.h.kind = 3 then
    let es := flushEntries s r.slice r.port (r.ctx s) (pocketAddr st pk off) ((r.h.len + 1) * 256)
    let ens := (es.map (entrySlice s)).eraseDups
    if r.h.g ∧ (r.slice :: ens).any (flushHeld s) then s
    else if r.h.g ∧ 32 < mostOnSlice s es then refuseG r .noSlots s
    else
      match gClass s r st p sp (flushSets s st p es) (64 * es.length) true with
      | .refused why => refuseG r why s
      | g => acceptFlush r es g s
  else
    let (awake, s0) := touchAll (ns.filter (· != r.slice)) 8 (extStop r.ext + b2n r.ret.isSome * 64) s
    if !awake then s0
    else match farPorts s0 r ns with
    | (some e, _) => refuseReq r e (errBit e) false s0
    | (none, false) => s0
    | (none, true) =>
      let write := r.h.kind = 1 ∨ r.h.kind = 2
      let cred := if r.mesh ∧ write then creditOk s0 r st pk keys.length else none
      if r.mesh ∧ write ∧ cred.isNone then refuseReq r .creditDenied 2 false s0
      else
        let gcred := r.h.g && (match cred with
          | some g => !g.reserved || decide (64 < rsvLanded s0 r.slice + ceilDiv keys.length 256)
          | none => false)
        match gClass s0 r st p sp (reqSets st p r.h.kind ns) (r.h.len + 1) (wholeWords keys) with
        | .refused why => refuseG r why s0
        | g =>
          if gcred ∧ g.isG then refuseG r .noContract s0
          else if write ∨ r.h.kind = 4 then acceptWrite r addrs p g (if cred.isSome then some (extCred r.ext) else none) s0
          else acceptRead r addrs keys p g s0

/-- Do bits 63:62 and 45:40 of a GTA pass steps 1 and 2 of R44? -/
def Req.fmtOk (r : Req) : Bool := !r.h.gta || decide (bitsOf r.h.addr 63 62 = 0 ∧ bitsOf r.h.addr 45 40 = 0)

/-- Step 4 of R89 for context `c`, then the checks of step 6 in the order of R44: its steps 1 and 2, its step 5 (the reach of the port
class, and of ACC_WRITE, R67), the context, and steps 7 to 11. A pocket whose POCKET_SET is pending holds the request (02 R48). DESIGN
CHOICE (log entry 89): R67's refusals are logged as failures of R44 step 5, where R45 names no rule for them. -/
def acceptPocket (r : Req) (c : Nat) (st : Store) (pk : Nat) (s : State) : State :=
  let x? := ctxOf s c
  let tenantBad : Bool := match x? with
    | some x => x.tenant != extTenant r.ext
    | none => true
  if r.mesh ∧ tenantBad then refuseReq r .boundViolation 3 false s
  else if !r.fmtOk then refuseReq r .decodeError 4 false s
  else if !classReaches (portClass r.port) st ∨ (r.h.kind = 2 ∧ st ≠ .p) then refuseReq r .decodeError 4 true s
  else if r.h.kind = 2 ∧ offsetOf r.h.addr % accSize r.h.accop ≠ 0 ∨ r.h.kind = 2 ∧ (r.h.len + 1) % accSize r.h.accop ≠ 0 then
    refuseReq r .decodeError 4 true s
  else match x? with
  | none => refuseReq r .boundViolation 3 true s
  | some x =>
    if x.state = .faulted then replyReq r .unitFailed 0 [] s
    else if x.destroying then refuseReq r .boundViolation 3 true s
    else if x.state = .suspended then refuseReq r .boundViolation 3 true s
    else if pocketPending s c st pk then s
    else
      let remote := decide (r.mesh ∧ extSrcdev r.ext ≠ devId s)
      let rd := decide (r.h.kind = 0 ∨ r.h.kind = 5)
      let wr := decide (r.h.kind = 1 ∨ r.h.kind = 2 ∨ r.h.kind = 4)
      let segs := (checkSegs r.h).map fun (o, n) => (offsetOf r.h.addr + o, n)
      match pocketCheck s x st pk segs rd wr remote (some (portClass r.port)) with
      | .fail e => refuseReq r e (errBit e) true s
      | .spilled _ => refuseReq r .boundViolation 3 true s
      | .ok p => acceptStore r x st pk p s

/-! Tags and ready indications (R80, R93, R119) -/

/-- Is port `p` of slice `n` connected (03 R74; 18 R505, R517)? Home ports are where the integration says, and the slice is its own. -/
def portWired (s : State) (n p : Nat) : Bool :=
  decide (p = 10) || (decide (n < 64) && !mget (fun _ => false) s.unconn (n * 16 + p) && (sliceOf s n).spare.isNone)

/-- Outstanding requests of a port. -/
def portOps (s : State) (n p : Nat) : List PortOp := s.ops.filter fun o => o.slice == n && o.port == p

/-- Does the port have a tag for one more request (R80; 12 R382: those from the fabric take the mesh port's tags too)? -/
def tagRoom (s : State) (n p : Nat) : Bool :=
  if isPP1 s n p then decide ((portOps s n p).length + (portOf s n p).held.length < 16) else decide ((portOps s n p).length < 64)

/-- Does the crossbar hold B-class requests at a port (R61, R93)? Beats that wait for another access to end are not among them. -/
def crossbarHolds (s : State) (n p : Nat) : Bool := s.beats.any fun b => !b.g && !b.queued && b.src == n * 16 + p && !beatBlocked s b

/-- The G-class ready indication of a port (R93, R119). -/
def portGReady (s : State) (n p : Nat) : Bool :=
  match (portOf s n p).state with
  | .disabled => true
  | .enabled => tagRoom s n p
  | _ => false

/-- The B-class ready indication of a port, the only one on PP1 (R93, R119; 08 R277). -/
def portBReady (s : State) (n p : Nat) : Bool :=
  match (portOf s n p).state with
  | .disabled => true
  | .enabled => tagRoom s n p && decide (sharedUsed s n p < 112) && !crossbarHolds s n p
  | _ => false

/-- Does the port's ready indication let a request in (R93; 18 R504)? The mesh port has none: its tags alone count. -/
def Req.ready (s : State) (r : Req) : Bool :=
  if r.mesh then tagRoom s r.slice r.port else if r.h.g then portGReady s r.slice r.port else portBReady s r.slice r.port

end Sys2Proof.Machine
end

