-- ==== Sys2Proof/Machine/Grants.lean ====
section
/-! DEFINITION. Machine/Grants.lean: credit messages, the grants of a target and their end, and the frames a source sends
(12 R359 to R377). -/
namespace Sys2Proof.Machine

/-! Credit messages (R361) -/

/-- The six words of a credit message, field by field. -/
structure CMsg where
  ckind : Nat
  status : Nat
  srcdev : Nat
  tenant : Nat
  tctx : Nat
  rsv : Bool
  handle : Nat
  reqid : Nat
  tstore : Nat
  tpocket : Nat
  srcstop : Nat
  win : Nat
  arg0 : Nat
  arg1 : Nat
  deriving DecidableEq, Repr

/-- The fields that words 1 to 6 of a frame spell. -/
def cmsgOf (ws : List Word) : CMsg :=
  let w (i : Nat) : Word := wordAt ws (i + 1)
  { ckind := fld (w 0) 31 28, status := fld (w 0) 27 20, srcdev := fld (w 0) 15 0, tenant := fld (w 1) 31 16,
    tctx := fld (w 1) 15 5, rsv := flag (w 2) 31, handle := fld (w 2) 30 16, reqid := fld (w 2) 15 0,
    tstore := fld (w 3) 31 30, tpocket := fld (w 3) 29 26, srcstop := fld (w 3) 21 16, win := fld (w 3) 6 0,
    arg0 := (w 4).toNat, arg1 := (w 5).toNat }

/-- The six words of a credit message. -/
def CMsg.words (m : CMsg) : List Word :=
  let n (x : Nat) : Word := BitVec.ofNat 32 x
  [n (m.ckind * 2 ^ 28 + m.status * 2 ^ 20 + m.srcdev), n (m.tenant * 65536 + m.tctx * 32),
   n (b2n m.rsv * 2 ^ 31 + m.handle * 65536 + m.reqid), n (m.tstore * 2 ^ 30 + m.tpocket * 2 ^ 26 + m.srcstop * 65536 + m.win),
   n m.arg0, n m.arg1]

/-- A message of zeros. -/
def CMsg.zero : CMsg :=
  { ckind := 0, status := 0, srcdev := 0, tenant := 0, tctx := 0, rsv := false, handle := 0, reqid := 0, tstore := 0,
    tpocket := 0, srcstop := 0, win := 0, arg0 := 0, arg1 := 0 }

/-- A route word (R360). -/
def routeWord (dev res tslice ftype : Nat) : Word := BitVec.ofNat 32 (dev * 65536 + res * 32768 + tslice * 512 + ftype * 64)

/-- Put out a frame from slice `n` to a device. -/
def putFrame (n dev res tslice ftype : Nat) (ws : List Word) (data : List Byte) (poison : List Bool) (s : State) : State :=
  emit (.frame (Config.fabricPort n dev) (routeWord dev res tslice ftype :: ws) data poison) s

/-- An answer or a notice of the target to the requesting slice, which no field of the request names: Config.returnSlice. -/
def creditAnswer (n dev : Nat) (m : CMsg) (data : List Byte) (s : State) : State :=
  putFrame n dev 0 (Config.returnSlice dev m.reqid) 2 m.words data (data.map fun _ => false) s

/-! Grants at their target (R370 to R376) -/

/-- The first slice of a partition that has not failed, of its first two (R385). -/
def keeperSlice (s : State) (p : Nat) : Nat :=
  let f := (partOf s p).first
  if slcFailed s f then f + 1 else f

/-- Answer what waits for a grant's end (R373): RELEASE and RENEW complete with the release. -/
def answerEnds (g : Grant) (s : State) : State :=
  let msg (k dev reqid ten : Nat) : CMsg :=
    { CMsg.zero with
      ckind := k, srcdev := dev, tenant := ten, tctx := g.tctx, handle := g.part * 1024 + g.index, reqid := reqid
      status := if g.failed then Status.unitFailed.code else 0 }
  g.ends.foldl (fun t (k, dev, reqid, ten) => creditAnswer (keeperSlice t g.part) dev (msg k dev reqid ten) [] t) s

/-- Grants that have ended and whose landed bytes have all committed leave the table (R372), and what waits is answered. -/
def sweepGrants (s : State) : State :=
  let gone (g : Grant) : Bool := !g.live && g.landed.isEmpty
  let s1 := { s with fab := { s.fab with grants := s.fab.grants.filter fun g => !gone g } }
  (s.fab.grants.filter gone).foldl (fun t g => answerEnds g t) s1

/-- End the grants the test names. -/
def endGrants (p : Grant → Bool) (failed : Bool) (s : State) : State :=
  let f (g : Grant) : Grant := { g with live := false, failed := g.failed || failed }
  sweepGrants { s with fab := { s.fab with grants := updWhere p f s.fab.grants } }

/-- Answer and drop the deferred requests the test names, with this status. -/
def endDeferred (p : Deferral → Bool) (st : Status) (s : State) : State :=
  let s1 := { s with fab := { s.fab with deferred := s.fab.deferred.filter fun d => !p d } }
  let msg (d : Deferral) : CMsg :=
    { CMsg.zero with
      ckind := 9, status := st.code, srcdev := d.srcdev, tenant := d.tenant, tctx := d.tctx, reqid := d.reqid }
  (s.fab.deferred.filter p).foldl (fun t d => creditAnswer (keeperSlice t d.part) d.srcdev (msg d) [] t) s1

/-! Requests at their source (R363, R377, R383) -/

/-- Change one outward request. -/
def modReq (id : Nat) (f : FabReq → FabReq) (s : State) : State :=
  { s with fab := { s.fab with reqs := updWhere (fun r => r.id == id) f s.fab.reqs } }

/-- Remove one outward request. -/
def dropReq (id : Nat) (s : State) : State :=
  { s with fab := { s.fab with reqs := s.fab.reqs.filter fun r => r.id != id } }

/-- A number below `n` that a list does not hold: which one, the spec leaves to the block (a free value). -/
def unusedIn (salt n : Nat) (l : List Nat) : Nat :=
  let k := Config.freeNat salt 0 % n
  (k + ((List.range (l.length + 1)).find? fun i => !l.contains ((k + i) % n)).getD 0) % n

/-- A REQID that no outstanding message of the block holds. -/
def freeReqid (s : State) : Nat :=
  unusedIn s.freeCtr 65536 ((s.fab.reqs.filter fun r => decide (r.kind = .grant ∨ r.kind = .renew ∨ r.kind = .release ∨ r.kind = .signal)).map FabReq.tag)

/-- An outward request with nothing set. -/
def FabReq.blank : FabReq :=
  { id := 0, kind := .signal, origin := .none, dev := 0, ctx := 2048, part := 32, home := 0, port := 0, tag := 0, tslice := 64,
    handle := 0, off := 0, len := 0, sent := false, sentAt := 0, route := 0, words := [], data := [], poison := [], got := [],
    deferred := false, gone := false, noWait := false, since := 0, tmo := 0, grec := 0, gvid := none, win := 0, paused := none }

/-- Send a message frame (a credit message or a counter signal) and start its timer. -/
def sendMsg (r : FabReq) (s : State) : State :=
  let (id, s1) := freshId (drawFree s)
  let r1 := { r with id := id, sent := true, sentAt := s.rc, since := s.rc }
  emit (.frame r.port (r.route :: r.words) [] []) { s1 with fab := { s1.fab with reqs := s1.fab.reqs ++ [r1] } }

/-- Send a RELEASE of a handle (CKIND 3) or the withdrawal of a GRANT (CKIND 4). -/
def sendRelease (home dev ctx part tenant tctx handle : Nat) (origin : Origin) (s : State) : State :=
  let id := freeReqid s
  sendMsg { FabReq.blank with
    kind := .release, origin := origin, dev := dev, ctx := ctx, part := part, home := home, port := Config.fabricPort home dev,
    tag := id, handle := handle, route := routeWord dev 1 0 2,
    words := { CMsg.zero with ckind := 3, srcdev := devId s, tenant := tenant, tctx := tctx, handle := handle, reqid := id }.words } s

/-- Withdraw a GRANT: no answer is awaited (R361 gives WITHDRAW none). -/
def sendWithdraw (r : FabReq) (s : State) : State :=
  let m := cmsgOf (0 :: r.words)
  emit (.frame r.port (r.route :: { CMsg.zero with ckind := 4, srcdev := m.srcdev, tenant := m.tenant, tctx := m.tctx, reqid := r.tag }.words) [] []) s

/-- Drop an entry of a partition's held-credit table (R377). -/
def dropHeld (part dev handle : Nat) (s : State) : State :=
  { s with fab := { s.fab with held := s.fab.held.filter fun h => !(h.part == part && h.dev == dev && h.handle == handle) } }

/-- A grant that is no longer wanted: its entry stays as a request whose grant is released on arrival (R374, R383). -/
def forgetReq (r : FabReq) (s : State) : State := modReq r.id (fun x => { x with gone := true, origin := .none }) s

/-- The waits of a context's credits at its destruction (R377): a RELEASE for each held credit, a withdrawal of each
deferred request. -/
def returnCredits (c home part tenant : Nat) (s : State) : State :=
  let s1 := (s.fab.held.filter fun h => h.ctx == c).foldl (fun t h =>
    sendRelease home h.dev c part tenant (fld (wordAt h.words 1) 10 0) h.handle .none (dropHeld h.part h.dev h.handle t)) s
  (s1.fab.reqs.filter fun r => r.ctx == c && r.kind == .grant && !r.gone).foldl (fun t r => forgetReq r (sendWithdraw r t)) s1

end Sys2Proof.Machine
end

