-- ==== Sys2Proof/Machine/Sync.lean ====
section
/-! DEFINITION. Machine/Sync.lean: counters, locks and waiters, and the sync unit's atomic step (10 R306 to R333). -/
namespace Sys2Proof.Machine

/-- The four operations on a counter (10 R312, R313). -/
inductive SigOp where
  | add | sub | set | align
  deriving DecidableEq, Repr

/-- OP of SIGNAL word 2 bits 31:30. -/
def sigOpOf (c : Nat) : SigOp := if c = 0 then .add else if c = 1 then .sub else if c = 2 then .set else .align

/-- Where a change comes from: its LASTSIG value (R332) and the fields an error-log entry takes. -/
structure SigSrc where
  lastsig : Nat
  who : Who
  src : Nat
  unit : Nat
  deriving DecidableEq, Repr

/-- The epochs an addition completes (R313 step 1): while V ≥ N, E rises and V falls by N; where E becomes a multiple of
a nonzero P, the V left is added to DRIFT and V becomes 0. The fuel is V itself, since N ≥ 1. -/
def epochLoop (n p : Nat) : Nat → Counter → Counter
  | 0, c => c
  | k + 1, c =>
    if c.v < n then c
    else
      let e := (c.e + 1) % 2 ^ 32
      let v := c.v - n
      if p ≠ 0 ∧ e % p = 0 then epochLoop n p k { c with e := e, v := 0, drift := satAdd 32 c.drift v }
      else epochLoop n p k { c with e := e, v := v }

/-- One change of a counter's value: status, RESULT (R315) and the counter after it (R312, R313). -/
def changeCounter (op : SigOp) (a : Nat) (c : Counter) : Status × Nat × Counter :=
  if c.realign then
    match op with
    | .add => let d := epochLoop c.pa c.pb (c.v + a) { c with v := c.v + a }; (.ok, d.e, d)
    | .sub =>
      let d := if a ≤ c.v then { c with v := c.v - a } else { c with v := 0, drift := satAdd 32 c.drift (a - c.v) }
      (.ok, d.e, d)
    | .set => if c.pa ≤ a then (.decodeError, 0, c) else (.ok, c.e, { c with v := a })
    | .align => (.ok, satAdd 32 c.drift c.v, { c with e := a, v := 0, drift := 0 })
  else
    match op with
    | .add =>
      if c.fault then (.counterFault, c.v, c)
      else if c.pa < c.v + a then (.counterFault, c.v, { c with fault := true })
      else (.ok, c.v + a, { c with v := c.v + a })
    | .sub =>
      if c.fault then (.counterFault, c.v, c)
      else if c.v < a then (.counterFault, c.v, { c with fault := true })
      else (.ok, c.v - a, { c with v := c.v - a })
    | .set => if c.pa < a then (.decodeError, 0, c) else (.ok, a, { c with v := a, fault := false })
    | .align => (.decodeError, 0, c)

/-- Does a counter satisfy a wait (R319)? -/
def condHolds (cond target : Nat) (c : Counter) : Bool :=
  if cond = 0 then decide (target ≤ c.v)
  else if cond = 1 then decide (c.v = target)
  else decide ((c.e + 2 ^ 32 - target % 2 ^ 32) % 2 ^ 32 < 2 ^ 31)

/-- The value a satisfied wait returns (R321): E for EPOCH, V otherwise. -/
def waitResult (cond : Nat) (c : Counter) : Nat := if cond = 2 then c.e else c.v

/-! Objects in State -/

/-- The key of a virtual object in a context's map (R307): KIND 0 counter, 1 lock. -/
def mapKey (kind vid : Nat) : Nat := kind * 65536 + vid

/-- The physical object a virtual ID names in a context (R307). -/
def lookupObj (x : Ctx) (kind vid : Nat) : Option Nat :=
  let v := mget (fun _ => 0) x.cmap (mapKey kind vid)
  if v = 0 then none else some (v - 1)

/-- The physical counter of a virtual ID of context `c`. -/
def counterOf (s : State) (c vid : Nat) : Option Nat := (ctxOf s c).bind fun x => lookupObj x 0 vid

/-- The physical lock of a virtual lock ID of context `c`. -/
def lockOf (s : State) (c vid : Nat) : Option Nat := (ctxOf s c).bind fun x => lookupObj x 1 vid

/-- Home slice of a physical counter or lock (R306). -/
def counterHome (ph : Nat) : Nat := ph / 4096
def lockHome (ph : Nat) : Nat := ph / 256

/-- State of a physical counter. -/
def getCounter (s : State) (ph : Nat) : Counter := mget (fun _ => Counter.zero) s.sync.counters ph

/-- Replace the state of a physical counter. -/
def putCounter (ph : Nat) (c : Counter) (s : State) : State :=
  { s with sync := { s.sync with counters := mput (fun _ => Counter.zero) s.sync.counters ph c } }

/-- State of a physical lock. -/
def getLock (s : State) (ph : Nat) : Lock := mget (fun _ => Lock.zero) s.sync.locks ph

/-- Replace the state of a physical lock. -/
def putLock (ph : Nat) (l : Lock) (s : State) : State :=
  { s with sync := { s.sync with locks := mput (fun _ => Lock.zero) s.sync.locks ph l } }

/-- Key of a mover channel. -/
def chanKey (n m c : Nat) : Nat := n * 16 + m * 8 + c

/-- A mover channel (11 R335). -/
def chanOf (s : State) (n m c : Nat) : Chan := mget (fun _ => Chan.zero) s.movers.chans (chanKey n m c)

/-- Change a mover channel. -/
def modChan (n m c : Nat) (f : Chan → Chan) (s : State) : State :=
  { s with movers := { s.movers with
      chans := mput (fun _ => Chan.zero) s.movers.chans (chanKey n m c) (f (chanOf s n m c)) } }

/-! Waiters -/

/-- The home slice of a waiter's object. -/
def Waiter.home (w : Waiter) : Nat := if w.lock then lockHome w.phys else counterHome w.phys

/-- The home slice of the object of an admitted WAIT or LOCK_ACQUIRE that has not yet begun to wait: it has an entry from its admission
on (R322). -/
def entryOf (s : State) (d : Cmd) : Option Nat :=
  if d.phase ≠ .admitted then none
  else if d.opcode = 0x301 then (counterOf s d.ctx (fld (wordAt d.words 3) 15 0)).map counterHome
  else if d.opcode = 0x302 then (lockOf s d.ctx (fld (wordAt d.words 3) 11 0)).map lockHome
  else none

/-- Is there a waiter entry for context `c` on slice `n` (R322): fewer than 1,024 in use there, fewer than 256 of the
context? `but` is the command that asks. -/
def waiterRoom (s : State) (n c but : Nat) : Bool :=
  let ws := s.sync.waiters.filter fun w => w.home == n
  let ds := s.cmds.filter fun d => d.id != but && entryOf s d == some n
  decide (ws.length + ds.length < 1024) &&
    decide ((ws.filter fun w => w.ctx == c).length + (ds.filter fun d => d.ctx == c).length < 256)

/-- Remove a waiter. -/
def dropWaiter (id : Nat) (s : State) : State :=
  { s with sync := { s.sync with waiters := s.sync.waiters.filter fun w => w.id != id } }

/-- A waiter ends with this status and RESULT (R321): its command completes, or its mover channel runs on (R344) or is
due to halt; a satisfied wait with WAKE_EN sends its wake message (R324). -/
def endWaiter (w : Waiter) (st : Status) (res : Nat) (s : State) : State :=
  let s1 := dropWaiter w.id s
  let s2 := match w.by_ with
    | .cmd id => cmdDone id st 0 res s1
    | .chan n m c =>
      if st = .ok then modChan n m c (fun ch => { ch with state := .running, ipc := ch.ipc + 32 }) s1
      else modChan n m c (fun ch => { ch with state := .running, owedHalt := some (st, ch.ipc) }) s1
  match w.wake with
  | some (stop, tag) => if st = .ok then emit (.wake stop w.ctx tag) s2 else s2
  | none => s2

/-- End every waiter that the test names. -/
def endWaiters (p : Waiter → Bool) (st : Status) (s : State) : State :=
  (s.sync.waiters.filter p).foldl (fun t w =>
    endWaiter w st (if w.lock then b2n (getLock t w.phys).abandoned else waitResult w.cond (getCounter t w.phys)) t) s

/-- Decide the waiters without CONSUME (R320 step 1). -/
def decidePlain (ph : Nat) (s : State) : State :=
  (s.sync.waiters.filter fun w => !w.lock && w.phys == ph && !w.consume).foldl (fun t w =>
    if condHolds w.cond w.target (getCounter t ph) then endWaiter w .ok (waitResult w.cond (getCounter t ph)) t else t) s

/-- Decide the waiters with CONSUME, oldest first; the first that is not satisfied stops the pass (R320 step 2). -/
def decideConsume (ph : Nat) : List Waiter → State → State
  | [], s => s
  | w :: ws, s =>
    let c := getCounter s ph
    if condHolds w.cond w.target c then
      decideConsume ph ws (endWaiter w .ok c.v (putCounter ph { c with v := c.v - w.target } s))
    else s

/-- Decide every waiter of a counter after a change (R320). -/
def decideWaiters (ph : Nat) (s : State) : State :=
  let s1 := decidePlain ph s
  decideConsume ph (s1.sync.waiters.filter fun w => !w.lock && w.phys == ph && w.consume) s1

/-- Report a counter fault (R312): CODE 0x25, the virtual ID in ADDR bits 15:0 and the signaller. -/
def reportFault (ph : Nat) (c : Counter) (src : SigSrc) (s : State) : State :=
  let (cx, vid) := c.mapped.getD (0, 0)
  report .counterFault src.src (counterHome ph) src.unit src.who cx vid s

/-- The sync unit's atomic step (R306): apply one change to a counter, record its source, and decide its waiters.
Answers the status and the RESULT. -/
def signalCounter (ph : Nat) (op : SigOp) (a : Nat) (src : SigSrc) (s : State) : Status × Nat × State :=
  let c := getCounter s ph
  let (st, res, c') := changeCounter op a c
  if st = .ok then (st, res, decideWaiters ph (putCounter ph { c' with lastsig := src.lastsig } s))
  else if st = .counterFault ∧ c.fault = false then
    (st, res, endWaiters (fun w => !w.lock && w.phys == ph) .counterFault (reportFault ph c src (putCounter ph c' s)))
  else (st, res, s)

/-- LASTSIG values (R332). -/
def lastsigQueue (q : Nat) : Nat := 1 * 2 ^ 29 + q
def lastsigHost : Nat := 2 * 2 ^ 29
def lastsigCore (stop : Nat) : Nat := 3 * 2 ^ 29 + stop * 2 ^ 19
def lastsigMover (n m : Nat) : Nat := 4 * 2 ^ 29 + n * 2 ^ 19 + m * 2 ^ 25
def lastsigCntEn (q : Nat) : Nat := 5 * 2 ^ 29 + q
def lastsigRemote (dev q : Nat) : Nat := 6 * 2 ^ 29 + (dev % 1024) * 2 ^ 19 + q

/-! Locks -/

/-- The RESULT of a lock command: was ABANDONED set when it acted (R328)? -/
def lockFlag (l : Lock) : Nat := b2n l.abandoned

/-- The status of an acquire that gets a lock whose flag is `f` (R327). -/
def acquireStatus (f : Bool) : Status := if f then .lockAbandoned else .ok

/-- Give up a held lock (R327): the oldest waiter becomes holder, or the lock becomes FREE. `abandon` sets the flag, as
a force release does. -/
def giveUpLock (ph : Nat) (abandon : Bool) (s : State) : State :=
  let l := getLock s ph
  let f := l.abandoned || abandon
  match s.sync.waiters.find? fun w => w.lock && w.phys == ph with
  | some w =>
    endWaiter w (acquireStatus f) (b2n f)
      (putLock ph { l with holder := some (w.ctx, w.hid), abandoned := f, lastsig := lastsigQueue w.queue } s)
  | none => putLock ph { l with holder := none, abandoned := f } s

/-- Report a force release (R330): CODE 0x24, the lock's virtual ID in ADDR bits 11:0, the HID in WRITER bits 15:0. -/
def reportForce (ph : Nat) (l : Lock) (s : State) : State :=
  let (cx, vid) := l.mapped.getD (0, 0)
  let e := mkEntry s .lockAbandoned 2 (lockHome ph) 0 .nobody cx vid
  logEvent { e with writer := (l.holder.getD (0, 0)).2 } s

/-- Force-release one lock (R327, R330). -/
def forceRelease (s : State) (ph : Nat) : State := giveUpLock ph true (reportForce ph (getLock s ph) s)

/-- The locks that a test on the holder names. -/
def locksHeld (p : Nat × Nat → Bool) (s : State) : List Nat :=
  (s.sync.locks.filter fun e => match e.2.holder with
    | some h => p h
    | none => false).map (·.1)

end Sys2Proof.Machine
end

