-- ==== Sys2Proof/Machine/SyncCmds.lean ====
section
/-! DEFINITION. Machine/SyncCmds.lean: WAIT, the lock commands, the counter map, the debugger view, reset notices and the
watchdogs (10 R308 to R333). -/
namespace Sys2Proof.Machine

/-- Outcome type of the meanings. -/
abbrev Res := Host.Outcome State Fault Refusal

/-- The PORT_ERR bit of a register write's status at the mesh port it came through (04 R117). -/
def rowErr (n : Nat) (st : Status) (s : State) : State :=
  if st = .decodeError then portErr n 10 4 s
  else if st = .boundViolation then portErr n 10 3 s
  else if st = .reservedNonzero then portErr n 10 5 s
  else s

/-- A register write through the mesh port of a slice (04 R89, R119): held while the port drains or clears, DECODE_ERROR while it
is DISABLED; its status leaves when it completes. -/
def regRow (w : RegWriter) (addr : Nat) (f : RegBy → State → RegRes) (s : State) : Res :=
  if !portsOpen s then .next s
  else match (portOf s w.slice 10).state with
    | .disabled => .next (emit (.regDone addr .decodeError) (rowErr w.slice .decodeError s))
    | .enabled =>
      let (st, s1) := f (writerBy addr w) s
      .next (match st with
        | some x => emit (.regDone addr x) (rowErr w.slice x s1)
        | none => s1)
    | _ => .next s

/-- WAIT on a mapped counter (R319 to R321): refused by the checks of R319, satisfied at once, or a waiter is left. -/
def waitOn (c : Cmd) (ph : Nat) (s : State) : State :=
  let w2 := wordAt c.words 2; let w3 := wordAt c.words 3; let w5 := wordAt c.words 5
  let cond := fld w2 31 30; let consume := flag w2 29; let target := (wordAt c.words 4).toNat
  let ctr := getCounter s ph
  let wake := flag w5 31
  if cond = 3 then cmdRefuse c.id .reservedNonzero 0 s
  else if ctr.realign != decide (cond = 2) ∨ (consume ∧ cond ≠ 0) ∨ (!wake ∧ fld w5 21 0 ≠ 0) then
    cmdRefuse c.id .decodeError 0 s
  else if ctr.fault then cmdRefuse c.id .counterFault 0 s
  else if condHolds cond target ctr then
    let s1 := if consume then putCounter ph { ctr with v := ctr.v - target } s else s
    let s2 := cmdDone c.id .ok 0 (waitResult cond ctr) s1
    if wake then emit (.wake (fld w5 21 16) c.ctx (fld w5 15 0)) s2 else s2
  else if queueClosing s c.queue then cmdDone c.id .timeoutWatchdog 0 (waitResult cond ctr) s
  else if waiterRoom s (counterHome ph) c.ctx c.id then
    let (id, s1) := freshId s
    let w : Waiter :=
      { id := id, lock := false, phys := ph, by_ := .cmd c.id, ctx := c.ctx, queue := c.queue, cond := cond,
        consume := consume, target := target, tmo := fld w3 31 16, since := s.rc,
        wake := if wake then some (fld w5 21 16, fld w5 15 0) else none, hid := 0, paused := none }
    modCmd c.id (fun x => { x with phase := .waiting })
      { s1 with sync := { s1.sync with waiters := s1.sync.waiters ++ [w] } }
  else s

/-- WAIT (R319 to R321). -/
def execWait (cmd : Nat) (s : State) : Res :=
  match admittedAs s cmd 0x301 with
  | some c => match counterOf s c.ctx (fld (wordAt c.words 3) 15 0) with
    | some ph => .next (waitOn c ph s)
    | none => .next (cmdRefuse cmd .boundViolation 0 s)
  | none => .next s

/-- Acquire a mapped lock (R327, R328). -/
def acquireOn (c : Cmd) (ph : Nat) (s : State) : State :=
  let l := getLock s ph
  let hid := fld (wordAt c.words 4) 15 0
  match l.holder with
  | none =>
    cmdDone c.id (acquireStatus l.abandoned) 0 (lockFlag l)
      (putLock ph { l with holder := some (c.ctx, hid), lastsig := lastsigQueue c.queue } s)
  | some h =>
    if h = (c.ctx, hid) then cmdDone c.id (.specific 0x81) 0 (lockFlag l) s
    else if flag (wordAt c.words 2) 31 then cmdDone c.id (.specific 0x80) 0 (lockFlag l) s
    else if queueClosing s c.queue then cmdDone c.id .timeoutWatchdog 0 (lockFlag l) s
    else if waiterRoom s (lockHome ph) c.ctx c.id then
      let (id, s1) := freshId s
      let w : Waiter :=
        { id := id, lock := true, phys := ph, by_ := .cmd c.id, ctx := c.ctx, queue := c.queue, cond := 0,
          consume := false, target := 0, tmo := fld (wordAt c.words 3) 31 16, since := s.rc, wake := none, hid := hid,
          paused := none }
      modCmd c.id (fun x => { x with phase := .waiting })
        { s1 with sync := { s1.sync with waiters := s1.sync.waiters ++ [w] } }
    else s

/-- LOCK_ACQUIRE (R327). -/
def execLockAcquire (cmd : Nat) (s : State) : Res :=
  match admittedAs s cmd 0x302 with
  | some c => match lockOf s c.ctx (fld (wordAt c.words 3) 11 0) with
    | some ph => .next (acquireOn c ph s)
    | none => .next (cmdRefuse cmd .boundViolation 0 s)
  | none => .next s

/-- Release a mapped lock (R327): by its holder only. -/
def releaseOn (c : Cmd) (ph : Nat) (s : State) : State :=
  let l := getLock s ph
  if l.holder = some (c.ctx, fld (wordAt c.words 4) 15 0) then
    cmdDone c.id .ok 0 (lockFlag l) (giveUpLock ph false (putLock ph { l with lastsig := lastsigQueue c.queue } s))
  else cmdDone c.id (.specific 0x82) 0 (lockFlag l) s

/-- LOCK_RELEASE (R327). -/
def execLockRelease (cmd : Nat) (s : State) : Res :=
  match admittedAs s cmd 0x303 with
  | some c => match lockOf s c.ctx (fld (wordAt c.words 3) 11 0) with
    | some ph => .next (releaseOn c ph s)
    | none => .next (cmdRefuse cmd .boundViolation 0 s)
  | none => .next s

/-- Clear the ABANDONED flag of a mapped lock (R327): by its holder only. -/
def clearAbandonedOn (c : Cmd) (ph : Nat) (s : State) : State :=
  let l := getLock s ph
  if l.holder = some (c.ctx, fld (wordAt c.words 4) 15 0) then
    cmdDone c.id .ok 0 (lockFlag l) (putLock ph { l with abandoned := false } s)
  else cmdDone c.id (.specific 0x82) 0 (lockFlag l) s

/-- LOCK_CLEAR_ABANDONED (R327). -/
def execLockClearAbandoned (cmd : Nat) (s : State) : Res :=
  match admittedAs s cmd 0x304 with
  | some c => match lockOf s c.ctx (fld (wordAt c.words 3) 11 0) with
    | some ph => .next (clearAbandonedOn c ph s)
    | none => .next (cmdRefuse cmd .boundViolation 0 s)
  | none => .next s

/-- The REFCLK count moves to the moment an event is due, where that has not passed (log entry 5). -/
def timeTo (t : Nat) (s : State) : State := { s with rc := Nat.max s.rc t }

/-- The context watchdog of a waiter in rc: WDOG ms, 1,000 where it is 0 (06 R183, 10 R321). -/
def wdogRc (s : State) (c : Nat) : Nat :=
  match ctxOf s c with
  | some x => (if x.wdog = 0 then 1000 else x.wdog) * 100000
  | none => 100000000

/-! The counter map -/

/-- Addresses of the map and view registers (R308, R331). -/
def cmapCmd : Nat := regNo 0x80 0x80
def cmapParam : Nat := regNo 0x80 0x88
def cmapStat : Nat := regNo 0x80 0x90
def dbgSel : Nat := regNo 0x80 0xA0
def dbgView : Nat := regNo 0x80 0xA8

/-- The malformed operations of R309 (RESULT 0x12), a MAP's or an UNMAP's. -/
def cmapMalformed (s : State) (v : Nat) : Bool :=
  let kind := bitOf v 61
  let op := bitsOf v 63 62
  let pa := regGet s 0 (cmapParam + 1); let pb := regGet s 0 cmapParam
  decide (op = 0 ∨ op = 3) ||
  (kind && (decide (4096 ≤ bitsOf v 47 32) || bitOf v 60 || bitOf v 59 || decide (bitsOf v 17 14 ≠ 0))) ||
  (!kind && ((!bitOf v 60 && decide (pa < pb)) || (bitOf v 60 && decide (pa = 0))))

/-- MAP one object (R310): its mapping and its state. -/
def mapObject (s : State) (v c vid ph : Nat) : State :=
  let pa := regGet s 0 (cmapParam + 1); let pb := regGet s 0 cmapParam
  let kind := bitsOf v 61 61
  let s1 := modCtx c (fun x => { x with cmap := mput (fun _ => 0) x.cmap (mapKey kind vid) (ph + 1) }) s
  if kind = 1 then putLock ph { Lock.zero with mapped := some (c, vid) } s1
  else
    let re := bitOf v 60
    putCounter ph { Counter.zero with mapped := some (c, vid), realign := re, remote := bitOf v 59, pa := pa,
                                      pb := pb, v := if re then 0 else pb } s1

/-- UNMAP one object (R310): its mapping goes and its whole state is zero. -/
def unmapObject (s : State) (kind c vid ph : Nat) : State :=
  let s1 := modCtx c (fun x => { x with cmap := mput (fun _ => 0) x.cmap (mapKey kind vid) 0 }) s
  if kind = 1 then putLock ph Lock.zero s1 else putCounter ph Counter.zero s1

/-- Does an object have waiters, or is a lock held (R309, RESULT 0x82)? -/
def objectBusy (s : State) (kind ph : Nat) : Bool :=
  (s.sync.waiters.any fun w => w.lock == decide (kind = 1) && w.phys == ph) ||
    (decide (kind = 1) && (getLock s ph).holder.isSome)

/-- RESULT of an operation on the map, and the state after it (R309, R310). -/
def cmapOp (v : Nat) (s : State) : Nat × State :=
  let kind := bitsOf v 61 61; let c := bitsOf v 58 48; let vid := bitsOf v 47 32; let ph := bitsOf v 17 0
  if cmapMalformed s v then (0x12, s)
  else match ctxOf s c with
    | none => (0x11, s)
    | some x =>
      let home := if kind = 1 then lockHome ph else counterHome ph
      if x.destroying ∨ !(ctxSpan s x).has home then (0x11, s)
      else if bitsOf v 63 62 = 1 then
        if (if kind = 1 then (getLock s ph).mapped.isSome else (getCounter s ph).mapped.isSome) then (0x80, s)
        else if (lookupObj x kind vid).isSome then (0x81, s)
        else (0, mapObject s v c vid ph)
      else match lookupObj x kind vid with
        | none => (0, s)
        | some q => if objectBusy s kind q then (0x82, s) else (0, unmapObject s kind c vid q)

/-- A write of CMAP_CMD (R308): the value is stored, the operation runs, and CMAP_STAT holds its RESULT. -/
def cmapWrite (v : Nat) (s : State) : State :=
  let s1 := regPut 0 (cmapCmd + 1) (v / 2 ^ 32) (regPut 0 cmapCmd (v % 2 ^ 32) s)
  let (r, s2) := cmapOp v s1
  regPut 0 cmapStat r s2

/-- A write of CMAP_CMD by a mesh requester (R308): a reserved bit drops it (00 R5); otherwise it runs and completes OK. -/
def cmapRow (v : Nat) (by_ : RegBy) (s : State) : RegRes :=
  if bitsOf v 31 18 ≠ 0 then dropReg .reservedNonzero by_ (cmapCmd * 4) s else (some .ok, cmapWrite v s)

/-- CMAP_CMD MAP (R310). -/
def execMap (v : DWord) (w : RegWriter) (s : State) : Res :=
  if bitsOf v.toNat 63 62 = 1 then regRow w (cmapCmd * 4) (cmapRow v.toNat) s else .next s

/-- CMAP_CMD UNMAP (R310). -/
def execUnmap (v : DWord) (w : RegWriter) (s : State) : Res :=
  if bitsOf v.toNat 63 62 = 2 then regRow w (cmapCmd * 4) (cmapRow v.toNat) s else .next s

/-- The nine registers of the view (R331, R333). -/
def dbgViewOf (s : State) (v : Nat) : List Nat :=
  let kind := bitsOf v 61 61; let c := bitsOf v 58 48; let vid := bitsOf v 47 32
  match ctxOf s c with
  | none => [0x12 * 2 ^ 24, 0, 0, 0, 0, 0, 0, 0, 0]
  | some x =>
    if !x.dbg then [0x11 * 2 ^ 24, 0, 0, 0, 0, 0, 0, 0, 0]
    else match lookupObj x kind vid with
      | none => [0x12 * 2 ^ 24, 0, 0, 0, 0, 0, 0, 0, 0]
      | some ph =>
        let ws := s.sync.waiters.filter fun w => w.lock == decide (kind = 1) && w.phys == ph
        let n := Nat.min ws.length 255
        let qs := (List.range 4).map fun i => match ws[i]? with
          | some w => 2 ^ 31 + w.queue
          | none => 0
        if kind = 1 then
          let l := getLock s ph
          [n + 256 * b2n l.holder.isSome + 512 * b2n l.abandoned, (l.holder.getD (0, 0)).2, 0, 0, l.lastsig] ++ qs
        else
          let k := getCounter s ph
          [n + 256 * b2n k.fault + 512 * b2n k.realign, k.v, (if k.realign then k.e else 0),
           (if k.realign then k.drift else 0), k.lastsig] ++ qs

/-- A write of DBG_SEL (R331): the selection is stored and the view takes the snapshot. -/
def dbgWrite (v : Nat) (s : State) : State :=
  let s1 := regPut 0 (dbgSel + 1) (v / 2 ^ 32) (regPut 0 dbgSel (v % 2 ^ 32) s)
  (dbgViewOf s v).zipIdx.foldl (fun t (x, i) => regPut 0 (dbgView + i) x t) s1

/-- The bits of DBG_SEL that are reserved (R331). -/
def dbgReserved (v : Nat) : Bool := decide (bitsOf v 63 62 ≠ 0 ∨ bitsOf v 60 59 ≠ 0 ∨ bitsOf v 31 0 ≠ 0)

/-- A write of DBG_SEL by a mesh requester (R331). -/
def dbgRow (v : Nat) (by_ : RegBy) (s : State) : RegRes :=
  if dbgReserved v then dropReg .reservedNonzero by_ (dbgSel * 4) s else (some .ok, dbgWrite v s)

/-- DBG_SEL write (R331). -/
def execDbgSelWrite (v : DWord) (w : RegWriter) (s : State) : Res := regRow w (dbgSel * 4) (dbgRow v.toNat) s

/-- A reset notice (R330): every lock the pair holds is force-released, and the notice is acknowledged. -/
def execResetNotify (ctx hid : Nat) (s : State) : Res :=
  .next (emit (.resetAck ctx hid) ((locksHeld (fun h => h == (ctx, hid)) s).foldl forceRelease s))

end Sys2Proof.Machine
end

