-- ==== Sys2Proof/Machine/Queues.lean ====
section
/-! DEFINITION. Machine/Queues.lean: queue descriptors, the queue cache, queue control, doorbells and messages
(05 R121 to R127, R144, R148 to R164). -/
namespace Sys2Proof.Machine

/-! Descriptors (R122 to R127) -/

/-- The cached record of queue `q`. -/
def queueOf (s : State) (q : Nat) : Option QueueRec := mget (fun _ => none) s.queues q

/-- QDT_BASE (R164). -/
def qdtValid (s : State) : Bool := bitOf (regGet s 0 (regNo 0x80 0x20)) 0
def qdtBase (s : State) : Nat :=
  regGet s 0 (regNo 0x80 0x24) % 2 ^ 20 * 2 ^ 32 + regGet s 0 (regNo 0x80 0x20) / 2 ^ 24 * 2 ^ 24

/-- System-region offset of a privileged queue's descriptor (R122). -/
def privDesc (q : Nat) : Nat := 0x1FE00 + 32 * qIndex q

/-- External address of a tenant queue's descriptor (R122). -/
def descAddr (s : State) (q : Nat) : Nat := qdtBase s + 32 * q

/-- The eight words of a descriptor as memory holds them, and the status of the read. DEDUCED (log entry 95): a read that comes behind a
write-back of the same queue, still under way, finds its words, since an evicted queue keeps its state (R161). -/
def readDesc (s : State) (q : Nat) : Status × List Word :=
  if qPriv q then (.ok, wordsOfBytes 8 (sysRead s (qHome q) (privDesc q) 32))
  else match (s.qback.filter fun e => e.1 == q).getLast? with
  | some (_, ws) => (.ok, ws)
  | none =>
    let bs := extRead s (descAddr s q) 32
    (if bs.any (·.2) then .uncorrectable else extStatus s (descAddr s q) 32, wordsOfBytes 8 (bs.map (·.1)))

/-- Fields of the static words (R124). -/
def dValid (ws : List Word) : Bool := flag (wordAt ws 0) 31
def dGen (ws : List Word) : Nat := fld (wordAt ws 0) 30 29
def dCtx (ws : List Word) : Nat := fld (wordAt ws 0) 28 18
def dRsize (ws : List Word) : Nat := fld (wordAt ws 0) 15 12
def dIrqm (ws : List Word) : Nat := fld (wordAt ws 0) 11 10
def dGap (ws : List Word) : Nat := fld (wordAt ws 0) 9 0
def dEntries (ws : List Word) : Nat := 2 ^ (dRsize ws + 4)
def dRbase (ws : List Word) : Nat := dwordAt ws 5

/-- The eight words of a record, as a write-back writes them (R124, R127). -/
def QueueRec.image (r : QueueRec) : List Word :=
  let w (i : Nat) : Word := wordAt r.words i
  [w 0, w 1, BitVec.ofNat 32 (fld (w 2) 31 16 * 65536 + r.rcons), BitVec.ofNat 32 r.chain, BitVec.ofNat 32 (r.chain / 2 ^ 32),
   w 5, w 6, BitVec.ofNat 32 (r.qstate.code * 2 ^ 30 + b2n r.rung * 2 ^ 29 + b2n r.rphase * 2 ^ 28 + r.rprod * 4096)]

/-- The record that a fetched descriptor gives: its dynamic fields are the words' own (R150). -/
def recordOf (lru : Nat) (ws : List Word) : QueueRec :=
  { words := ws, rcons := fld (wordAt ws 2) 15 0, chain := dwordAt ws 3, qstate := qstateOf (fld (wordAt ws 7) 31 30),
    rung := flag (wordAt ws 7) 29, rphase := flag (wordAt ws 7) 28, rprod := fld (wordAt ws 7) 27 12, pinned := false,
    lru := lru, hemSaid := decide (fld (wordAt ws 7) 31 30 = 2), disabling := false }

/-- The record that a fetched descriptor gives the cache: a queue whose context is faulted is STOPPED (R163). -/
def loadedRec (s : State) (q : Nat) (ws : List Word) : QueueRec :=
  let r := recordOf s.nextId ws
  let faulted : Bool := match ctxOf s (dCtx ws) with
    | some x => x.state == .faulted
    | none => false
  if !qPriv q && faulted && (r.qstate == .running || r.qstate == .parked) then { r with qstate := .stopped } else r

/-- The dynamic words of a privileged queue, RCONS, CHAIN and word 7, in place in the system region (R127). -/
def keepPriv (q : Nat) (r : QueueRec) (s : State) : State :=
  let d := privDesc q; let n := qHome q
  sysWrite n (d + 28) (bytesOfWords [wordAt r.image 7])
    (sysWrite n (d + 12) (leBytes 8 r.chain) (sysWrite n (d + 8) (leBytes 2 r.rcons) s))

/-- Put a record into the cache; a privileged queue's dynamic words are kept in place in the system region (R127). -/
def putQueue (q : Nat) (r : QueueRec) (s : State) : State :=
  let s1 := { s with queues := mput (fun _ => none) s.queues q (some r) }
  if qPriv q then keepPriv q r s1 else s1

/-- Change the record of a queue, if it is cached. -/
def modQueue (q : Nat) (f : QueueRec → QueueRec) (s : State) : State :=
  match queueOf s q with
  | some r => putQueue q (f r) s
  | none => s

/-- Is a queue's enabled bit set (R150)? -/
def qEnabledBit (s : State) (q : Nat) : Bool := mget (fun _ => false) s.qEnabled q

/-- Set or clear the enabled bit. -/
def setEnabled (q : Nat) (b : Bool) (s : State) : State := { s with qEnabled := mput (fun _ => false) s.qEnabled q b }

/-- Set or clear the doorbell-pending bit. -/
def setDb (q : Nat) (b : Bool) (s : State) : State := { s with dbPend := mput (fun _ => false) s.dbPend q b }

/-- The state of a queue as R150 takes it: DISABLED where its enabled bit is 0. -/
def qstateNow (s : State) (q : Nat) : QState :=
  if !qEnabledBit s q then .disabled
  else match queueOf s q with
    | some r => r.qstate
    | none => .running

/-- Commands of a queue whose reply has not been written (R138). -/
def inFlight (s : State) (q : Nat) : List Cmd := s.cmds.filter fun c => c.queue == q && c.phase != .replied

/-- The next number of use, for the least recently used entry (R161). -/
def useQueue (q : Nat) (s : State) : State := modQueue q (fun r => { r with lru := s.nextId }) { s with nextId := s.nextId + 1 }

/-- Start a write-back of a descriptor (R127, R162). -/
def startBack (q : Nat) (s : State) : State :=
  match queueOf s q with
  | some r => if qPriv q then s else { s with qback := s.qback ++ [(q, r.image)] }
  | none => s

/-- Drop a queue from the cache. -/
def dropQueue (q : Nat) (s : State) : State := { s with queues := mput (fun _ => none) s.queues q none }

/-- Cached tenant queues of a slice. -/
def cachedOn (s : State) (n : Nat) : List (Nat × QueueRec) :=
  s.queues.filterMap fun (q, r) => if qHome q = n then r.map fun x => (q, x) else none

/-- May a cached entry be evicted (R161)? -/
def evictable (s : State) (e : Nat × QueueRec) : Bool :=
  !e.2.pinned && !qPriv e.1 && !e.2.disabling &&
    (e.2.qstate != .running || !(s.cmds.any fun c => c.queue == e.1))

/-- Make room for one entry on a slice that holds 512 (16 of them the privileged queues'): the least recently used entry
that may be evicted is written back and leaves (R161). Answers whether there is room. -/
def makeRoom (n : Nat) (s : State) : Bool × State :=
  let l := cachedOn s n
  if (l.filter fun e => !qPriv e.1).length < 496 then (true, s)
  else
    match (l.filter (evictable s)).foldl (fun (b : Option (Nat × QueueRec)) e => match b with
        | some x => if e.2.lru < x.2.lru then some e else b
        | none => some e) none with
    | some (q, _) => (true, dropQueue q (startBack q s))
    | none => (false, s)


/-! Queue control (R158, R159) -/

/-- The queue control of slice `n`. -/
def qctlOf (s : State) (n : Nat) : QctlRec := mget (fun _ => QctlRec.zero) s.qctl n

/-- Change it. -/
def modQctl (n : Nat) (f : QctlRec → QctlRec) (s : State) : State :=
  { s with qctl := mput (fun _ => QctlRec.zero) s.qctl n (f (qctlOf s n)) }

/-- An operation on queue `q` ends with this RESULT; BUSY falls. -/
def qctlEnd (q : Nat) (st : Status) (s : State) : State :=
  let qs := (qstateNow s q).code
  modQctl (qHome q) (fun r => { r with busy := none, result := st.code, qstate := qs, qidx := qIndex q }) s

/-- Reserved bits of words 0, 1 and 7 of a descriptor (R125 step 3). -/
def dReserved (ws : List Word) : Bool :=
  decide (fld (wordAt ws 0) 17 16 ≠ 0 ∨ fld (wordAt ws 1) 11 0 ≠ 0 ∨ fld (wordAt ws 7) 11 0 ≠ 0)

/-- Is a command address aligned, and LOC 0 where the queue may not set it (R123, R125 step 5)? What else the address holds is met when
it is used. -/
def cmdAddrOk (locOk : Bool) (align a : Nat) : Bool := decide (a % align = 0) && (!bitOf a 63 || locOk)

/-- The checks of R125 on a descriptor's words. -/
def enableCheck (s : State) (q : Nat) (ws : List Word) : Status :=
  let locOk := dGen ws ≠ 1 ∧ !qPriv q
  if !qPriv q ∧ !qdtValid s then .decodeError
  else if !dValid ws then .decodeError
  else if dReserved ws then .reservedNonzero
  else if dGen ws = 0 then .versionUnsupported
  else if 11 < dRsize ws ∨ !cmdAddrOk locOk (32 * dEntries ws) (dRbase ws) ∨ !cmdAddrOk locOk 64 (dwordAt ws 3) then .decodeError
  else if qPriv q then .ok
  else match ctxOf s (dCtx ws) with
    | none => .boundViolation
    | some x =>
      if !(ctxSpan s x).has (qHome q) then .boundViolation
      else if x.state = .faulted then .unitFailed
      else .ok

/-- ENABLE of a DISABLED queue whose descriptor has been read (R125). -/
def enableNow (q : Nat) (delayed : Bool) (ws : List Word) (s : State) : State :=
  let st := enableCheck s q ws
  if st = .ok then
    let r : QueueRec :=
      { words := ws, rcons := 0, chain := dwordAt ws 3, qstate := .running, rung := false, rphase := true, rprod := 0,
        pinned := (queueOf s q).elim (qPriv q) QueueRec.pinned, lru := s.nextId, hemSaid := false, disabling := false }
    qctlEnd q (if delayed then .okDelayed else .ok) (setEnabled q true (putQueue q r { s with nextId := s.nextId + 1 }))
  else qctlEnd q st s

/-- ENABLE of a STOPPED queue: the static words are read again, the dynamic words kept (R159). -/
def reEnable (q : Nat) (ws : List Word) (s : State) : State :=
  let faulted := !qPriv q && (match ctxOf s (dCtx ws) with
    | some x => x.state == .faulted
    | none => false)
  if faulted then qctlEnd q .unitFailed s
  else qctlEnd q .ok (modQueue q (fun r => { r with words := ws, qstate := .running, hemSaid := false }) s)

/-- Start a descriptor fetch. -/
def startFetch (q : Nat) (w : FetchFor) (s : State) : State := { s with qfetch := s.qfetch ++ [(q, w)] }

/-- Has the command's class W wait not ended: a WAIT, LOCK_ACQUIRE or CREDIT_REQUEST (R159)? -/
def waitingCmd (s : State) (q : Nat) (w : Waiter) : Bool :=
  match w.by_ with
  | .cmd id => (cmdOf s id).elim false fun c => c.queue == q
  | .chan _ _ _ => false

/-- DISABLE begins (R159): no more fetches; what waits completes TIMEOUT_WATCHDOG at once; deferred GRANTs of the queue
are withdrawn (12 R374); packets that were held before admission are dropped with the queue's fetching. -/
def startDisable (q : Nat) (s : State) : State :=
  let s0 := modQueue q (fun r => { r with disabling := true }) s
  let s1 := { s0 with cmds := s0.cmds.filter fun c => !(c.queue == q && c.phase == .held) }
  let s2 := endWaiters (waitingCmd s1 q) .timeoutWatchdog s1
  let gone := s2.fab.reqs.filter fun r => r.kind == .grant && r.deferred && !r.noWait && (match r.origin with
    | .cmd id => (cmdOf s2 id).elim false fun c => c.queue == q
    | _ => false)
  gone.foldl (fun t r => forgetReq r (sendWithdraw r (finish r.origin .timeoutWatchdog t))) s2

/-- Run one QCTL operation that the slice takes (R159): OP, QIDX and NO_WAIT in the register's form. DEDUCED (log entry 96): a PIN of a
tenant queue while there is no table (R164) ends as one whose descriptor cannot be read, DECODE_ERROR. -/
def qctlRun (n v : Nat) (s : State) : State :=
  let op := bitsOf v 30 28; let q := n * 8192 + v % 8192
  let busy (t : State) : State := modQctl n (fun r => { r with busy := some (op, q) }) t
  if op = 1 then
    match qstateNow s q with
    | .disabled =>
      if qPriv q then enableNow q false (readDesc s q).2 s
      else if !qdtValid s then qctlEnd q .decodeError s
      else startFetch q (.enable false) (busy s)
    | .stopped => if qPriv q then reEnable q (readDesc s q).2 s else startFetch q (.enable false) (busy s)
    | .running => if (queueOf s q).isSome then qctlEnd q .ok s else startFetch q (.enable false) (busy s)
    | .parked => qctlEnd q .ok s
  else if op = 2 then
    if !qEnabledBit s q then qctlEnd q .ok s
    else if (queueOf s q).isSome then startDisable q (busy s) else startFetch q .disable (busy s)
  else if op = 3 then
    match queueOf s q with
    | some r =>
      if r.pinned then qctlEnd q .ok s
      else if 112 ≤ ((cachedOn s n).filter fun e => e.2.pinned && !qPriv e.1).length then qctlEnd q .rejectedContract s
      else qctlEnd q .ok (modQueue q (fun x => { x with pinned := true }) s)
    | none => if qPriv q then qctlEnd q .ok s else if !qdtValid s then qctlEnd q .decodeError s else startFetch q .pin (busy s)
  else if op = 4 then
    if qPriv q then qctlEnd q .writeIgnored s
    else if s.contracts.any fun c => c.kind == 0 && c.target == q then qctlEnd q .rejectedContract s
    else qctlEnd q .ok (modQueue q (fun x => { x with pinned := false }) s)
  else modQctl n (fun r => { r with result := Status.reservedNonzero.code, qidx := v % 8192 }) s

/-- A write of QCTL (R159): it is taken when BUSY is 0, and is complete once its operation has started; an ENABLE of the queue being
disabled is taken at once. -/
def qctlWrite (n v : Nat) (by_ : RegBy) (s : State) : RegRes :=
  let s0 := (touch n 7 (n * 8192 + v % 8192) s).2
  let r := qctlOf s0 n
  match r.busy with
  | none => (some .ok, qctlRun n v (regPut 0 (regNo n 0x600) v s0))
  | some (op, q) =>
    let s1 := regPut 0 (regNo n 0x600) v s0
    if op = 2 ∧ bitsOf v 30 28 = 1 ∧ q = n * 8192 + v % 8192 then
      if bitOf v 31 then (some .ok, modQctl n (fun x => { x with result := Status.pendingShutdown.code, qidx := v % 8192 }) s1)
      else (some .ok, modQctl n (fun x => { x with enWait := true }) s1)
    else (none, modQctl n (fun x => { x with later := x.later ++ [(v, by_.origin)] }) s0)

/-- Take the QCTL writes that waited for BUSY to fall, while it is 0. -/
def qctlMore : Nat → Nat → State → State
  | 0, _, s => s
  | k + 1, n, s =>
    let r := qctlOf s n
    match r.busy, r.later with
    | none, (v, o) :: rest =>
      qctlMore k n (finish o .ok (qctlRun n v (regPut 0 (regNo n 0x600) v (modQctl n (fun x => { x with later := rest }) s))))
    | _, _ => s

/-- A DISABLE ends (R159): the enabled bit is cleared, and an ENABLE that waited acts as from DISABLED. -/
def disableEnd (q : Nat) (r : QueueRec) (s : State) : State :=
  let n := qHome q
  let s1 := setEnabled q false (putQueue q { r with disabling := false } s)
  let s2 := if r.pinned then s1 else dropQueue q s1
  let wait := (qctlOf s2 n).enWait
  let s3 := modQctl n (fun x => { x with enWait := false }) s2
  if wait then
    if qPriv q then qctlMore 64 n (enableNow q true (readDesc s3 q).2 s3)
    else startFetch q (.enable true) (modQctl n (fun x => { x with busy := some (1, q) }) s3)
  else qctlMore 64 n (qctlEnd q .ok s3)

/-- QUEUE_DISABLE_DONE (R159, R127): every admitted command has written its reply; a tenant queue's descriptor is written back, and
BUSY stands until that has been done. -/
def execQueueDisableDone (q : Nat) (s : State) : Res :=
  match queueOf s q with
  | some r =>
    if r.disabling ∧ !(s.cmds.any fun c => c.queue == q) ∧ !(s.qback.any fun e => e.1 == q) then
      let r1 := { r with qstate := .disabled }
      if qPriv q then .next (disableEnd q r1 s) else .next (startBack q (putQueue q r1 s))
    else .next s
  | none => .next s

/-- DESCRIPTOR_WRITE_BACK_DONE (R162): the write-back has reached the table, or has failed and is logged; a DISABLE ends with its own.
DESIGN CHOICE (log entry 97): the entry of a failed write-back has CODE UNCORRECTABLE, since R162 and R204 name none, and the DISABLE
ends OK all the same. -/
def execDescriptorWriteBackDone (q : Nat) (ok : Bool) (s : State) : Res :=
  match s.qback.find? fun e => e.1 == q with
  | some (_, ws) =>
    let s1 := { s with qback := s.qback.eraseP fun e => e.1 == q }
    let s2 := if ok then extWrite (descAddr s q) ((bytesOfWords ws).map fun b => (b, false)) s1
      else report .uncorrectable 2 (qHome q) 0 (.queue q) (dCtx ws) (descAddr s q) s1
    match queueOf s2 q with
    | some r => if r.disabling ∧ r.qstate = .disabled then .next (disableEnd q r s2) else .next s2
    | none => .next s2
  | none => .next s

/-! Messages (R144, R148 to R153) -/

/-- Count a dropped message of a context (R152). -/
def countDrop (c : Nat) (s : State) : State :=
  { s with dbDrop := mput (fun _ => 0) s.dbDrop c ((mget (fun _ => 0) s.dbDrop c + 1) % 2 ^ 32) }

/-- Drop a message (R149): it is logged and counted. -/
def dropMsg (st : Status) (n unit c payload : Nat) (s : State) : State :=
  countDrop c (report st 2 n unit .nobody c payload s)

/-- Does the new RCONS pass the test of R144? -/
def rackOk (r : QueueRec) (new : Nat) : Bool :=
  decide ((new + 65536 - r.rcons) % 65536 ≤ (r.rprod + 65536 - r.rcons) % 65536)

/-- A DOORBELL or REPLY_ACK meets its queue's descriptor (R149, R150): dropped by name, or taken. -/
def msgAtQueue (kind unit c payload : Nat) (tenantOk : Bool) (r : QueueRec) (s : State) : State :=
  let q := payload % 2 ^ 19; let n := qHome q
  if !dValid r.words then dropMsg .decodeError n unit c payload s
  else if dCtx r.words ≠ c then dropMsg .boundViolation n unit c payload s
  else if !tenantOk then dropMsg .boundViolation n unit c payload s
  else if r.qstate = .disabled ∨ r.qstate = .stopped ∨ !qEnabledBit s q then dropMsg .decodeError n unit c payload s
  else if kind = 0 then setDb q true s
  else if rackOk r (bitsOf payload 47 32) then modQueue q (fun x => { x with rcons := bitsOf payload 47 32 }) s
  else dropMsg .decodeError n unit c payload s

/-- A DOORBELL or REPLY_ACK arrives at its home slice (R148 to R150). -/
def queueMsg (kind unit c payload : Nat) (tenantOk : Bool) (s : State) : State :=
  let q := payload % 2 ^ 19; let n := qHome q
  let rsvd := if kind = 0 then decide (payload / 2 ^ 19 ≠ 0) else decide (bitsOf payload 31 19 ≠ 0 ∨ payload / 2 ^ 48 ≠ 0)
  if rsvd then dropMsg .reservedNonzero n unit c payload s
  else if qPriv q then dropMsg .boundViolation n unit c payload s
  else if !qEnabledBit s q then
    dropMsg (match queueOf s q with
      | some r => if !dValid r.words then .decodeError else if dCtx r.words ≠ c ∨ !tenantOk then .boundViolation else .decodeError
      | none => .decodeError) n unit c payload s
  else
    match queueOf s q with
    | some r => msgAtQueue kind unit c payload tenantOk r (touch n 7 q s).2
    | none => startFetch q (.msg kind unit c payload tenantOk) (touch n 7 q s).2

/-- The context, path unit and tenant test of a message (R148): the host window's, or a core message's. -/
def msgTenantOk (s : State) (path : MsgPath) (c : Nat) : Bool :=
  match path with
  | .host _ => true
  | .core _ _ t => match ctxOf s c with
    | some x => decide (x.tenant = t)
    | none => false

/-- UNIT of a dropped message (R149). -/
def pathUnit : MsgPath → Nat
  | .host _ => 1
  | .core _ _ _ => 2

/-- The host function of a message. -/
def pathFn : MsgPath → Nat
  | .host fn => fn
  | .core _ _ _ => 0

/-! The host window (R152, R153) -/

/-- HWIN_MAP of a context (13 R404). -/
def hwinMap (s : State) (c : Nat) : Nat := regGet s 0 (regNo 0x80 (0x4000 + 4 * c))

/-- A window write that has no effect (R153): logged in the device event queue with the host function in WRITER. -/
def winError (st : Status) (fn c off : Nat) (s : State) : State :=
  let e := mkEntry s st 8 0 0 .nobody c (c * 4096 + off)
  logEvent { e with writer := fn % 256 } s

/-- The checks of R153 on a window write: the status it is logged with, or none. DESIGN CHOICE (log entry 98): of several rows of its
table the function and VALID are tested first, then the offset, the size and the reserved bits. -/
def winCheck (s : State) (fn c off size v : Nat) : Option Status :=
  let m := hwinMap s c
  let owner := bitOf m 31 && decide (m % 256 = fn)
  if !owner then some .boundViolation
  else if 0x20 ≤ off then some .decodeError
  else if off = 0 then
    (if size ≠ 4 then some .decodeError else if v / 2 ^ 19 ≠ 0 then some .reservedNonzero else none)
  else if off = 8 then
    (if size ≠ 8 then some .decodeError else if v / 2 ^ 48 ≠ 0 ∨ bitsOf v 31 19 ≠ 0 then some .reservedNonzero else none)
  else if off = 0x10 then
    (if size ≠ 8 then some .decodeError else if bitsOf v 31 16 ≠ 0 then some .reservedNonzero else none)
  else if (off = 0x18 ∨ off = 0x1C) ∧ size = 4 then some .writeIgnored
  else some .decodeError

/-- A COUNTER_ADD message (R148, R149, 10 R318). `who` names its sender where it faults the counter (10 R312). -/
def counterAddMsg (unit n c payload lastsig : Nat) (who : Who) (tenantOk : Bool) (s : State) : State :=
  if bitsOf payload 31 16 ≠ 0 then dropMsg .reservedNonzero n unit c payload s
  else if !tenantOk then dropMsg .boundViolation n unit c payload s
  else match counterOf s c (payload % 65536) with
    | none => dropMsg .boundViolation n unit c payload s
    | some ph =>
      let (_, _, s1) := signalCounter ph .add (bitsOf payload 63 32)
        { lastsig := lastsig, who := who, src := 2, unit := 0 } (touch (counterHome ph) 9 (ph % 4096) s).2
      s1

/-- The slice a COUNTER_ADD of the host goes to: the counter's home, else the first slice of the context's partition. -/
def addSlice (s : State) (c payload : Nat) : Nat :=
  match counterOf s c (payload % 65536) with
  | some ph => counterHome ph
  | none => (ctxOf s c).elim 0 fun x => (partOf s x.part).first

/-- HOST_WINDOW_WRITE (R152, R153): a write to a context's window page; the registers keep the value written, and the
message it stands for is sent. -/
def execHostWindowWrite (fn c off size : Nat) (v : DWord) (s : State) : Res :=
  match winCheck s fn c off size v.toNat with
  | some st => .next (winError st fn c off s)
  | none =>
    let s1 := { s with hwin := mput (fun _ => 0) s.hwin (c * 4096 + off) v }
    if off = 0x10 then .next (counterAddMsg 1 (addSlice s c v.toNat) c v.toNat lastsigHost .nobody true s1)
    else .next (queueMsg (if off = 0 then 0 else 1) 1 c v.toNat true s1)

/-- The lowest set of checks a host message passes before it is one: the page is assigned to the writing function. -/
def hostMsgOk (s : State) (path : MsgPath) (c : Nat) : Bool :=
  match path with
  | .host fn => bitOf (hwinMap s c) 31 && decide (hwinMap s c % 256 = fn % 256)
  | .core _ _ _ => true

/-- DOORBELL (R148 to R151). -/
def execDoorbell (path : MsgPath) (c : Nat) (v : DWord) (s : State) : Res :=
  if hostMsgOk s path c then .next (queueMsg 0 (pathUnit path) c v.toNat (msgTenantOk s path c) s)
  else .next (winError .boundViolation (pathFn path) c 0 s)

/-- REPLY_ACK (R144, R148, R149). -/
def execReplyAck (path : MsgPath) (c : Nat) (v : DWord) (s : State) : Res :=
  if hostMsgOk s path c then .next (queueMsg 1 (pathUnit path) c v.toNat (msgTenantOk s path c) s)
  else .next (winError .boundViolation (pathFn path) c 8 s)

/-- COUNTER_ADD (R148, R149, 10 R318). -/
def execCounterAdd (path : MsgPath) (c : Nat) (v : DWord) (s : State) : Res :=
  match path with
  | .host fn =>
    if hostMsgOk s path c then .next (counterAddMsg 1 (addSlice s c v.toNat) c v.toNat lastsigHost .nobody true s)
    else .next (winError .boundViolation fn c 0x10 s)
  | .core n st _ => .next (counterAddMsg 2 n c v.toNat (lastsigCore st) (.mesh n (devId s) st) (msgTenantOk s path c) s)

/-! Doorbell service and descriptor fetches (R151, R161, R162) -/

/-- Act on a pending doorbell of a cached queue (R151). -/
def serveDoorbell (q : Nat) (r : QueueRec) (s : State) : State :=
  let s1 := useQueue q (setDb q false s)
  match r.qstate with
  | .parked => modQueue q (fun x => { x with qstate := .running }) s1
  | .running => modQueue q (fun x => { x with rung := true }) s1
  | _ => s1

/-- DOORBELL_SERVICE (R151): the command unit acts on a queue's pending bit; a queue that is not cached has its descriptor
fetched first. -/
def execDoorbellService (q : Nat) (s : State) : Res :=
  if cmdsRun s ∧ mget (fun _ => false) s.dbPend q ∧ slcRuns s (qHome q) then
    match queueOf s q with
    | some r => .next (serveDoorbell q r s)
    | none =>
      if !qEnabledBit s q then .next (setDb q false s)
      else if s.qfetch.any (fun e => e.1 == q) then .next s
      else .next (startFetch q .service s)
  else .next s

/-- A QCTL_RACK write that R144 drops (R158): it is logged with the queue and the value. -/
def rackDrop (q v : Nat) (by_ : RegBy) (s : State) : RegRes :=
  (some .writeIgnored, report .writeIgnored by_.src (qHome q) by_.unit (.queue q) 0 v s)

/-- A QCTL_RACK write meets its queue's descriptor (R144, R158). -/
def rackTake (q v : Nat) (by_ : RegBy) (r : QueueRec) (s : State) : RegRes :=
  if r.qstate ≠ .disabled ∧ rackOk r (v / 65536) then
    (some .ok, modQueue q (fun x => { x with rcons := v / 65536 }) (regPut 0 (regNo (qHome q) 0x610) v s))
  else rackDrop q v by_ s

/-- A QCTL_RACK write whose queue's descriptor has been fetched, or could not be. -/
def rackFetched (q v : Nat) (by_ : RegBy) (s : State) : State :=
  let (st, t) := match queueOf s q with
    | some r => rackTake q v by_ r s
    | none => rackDrop q v by_ s
  finish by_.origin (st.getD .ok) t

/-- What a fetched descriptor is for (R125, R149, R151, R159, R162). DESIGN CHOICE (log entry 97): a DISABLE whose descriptor cannot be
read clears the enabled bit, writes nothing back and ends OK; R159 and R162 give it no other RESULT. -/
def fetched (q : Nat) (w : FetchFor) (s1 : State) : State :=
  let s := s1
  let (st, ws) := readDesc s q
  let fail (t : State) : State := report st 2 (qHome q) 0 (.queue q) 0 (descAddr s q) (setDb q false t)
  let load (t : State) : State :=
    if (queueOf t q).isSome then t
    else
      let (room, u) := makeRoom (qHome q) t
      if room then putQueue q (loadedRec s q ws) u else u
  match w with
  | .enable delayed =>
    if st ≠ .ok then qctlMore 64 (qHome q) (qctlEnd q st (fail s1))
    else if !qEnabledBit s q then qctlMore 64 (qHome q) (enableNow q delayed ws (if (queueOf s1 q).isSome then s1 else (makeRoom (qHome q) s1).2))
    else
      let s2 := load s1
      match queueOf s2 q with
      | some r => if r.qstate = .stopped then qctlMore 64 (qHome q) (reEnable q ws s2) else qctlMore 64 (qHome q) (qctlEnd q .ok s2)
      | none => qctlMore 64 (qHome q) (qctlEnd q .ok s2)
  | .disable =>
    if st ≠ .ok then qctlMore 64 (qHome q) (qctlEnd q .ok (setEnabled q false (fail s1)))
    else startDisable q (load s1)
  | .pin =>
    if st ≠ .ok then qctlMore 64 (qHome q) (qctlEnd q st (fail s1))
    else if !dValid ws then qctlMore 64 (qHome q) (qctlEnd q .decodeError s1)
    else if 112 ≤ ((cachedOn s (qHome q)).filter fun e => e.2.pinned && !qPriv e.1).length then
      qctlMore 64 (qHome q) (qctlEnd q .rejectedContract s1)
    else
      let s2 := load s1
      let s3 := modQueue q (fun r => { r with pinned := true, qstate := if qEnabledBit s q then r.qstate else .disabled }) s2
      qctlMore 64 (qHome q) (qctlEnd q .ok s3)
  | .service =>
    if st ≠ .ok then fail s1
    else
      let s2 := load s1
      match queueOf s2 q with
      | some r => serveDoorbell q r s2
      | none => s2
  | .msg kind unit c payload tok =>
    if st ≠ .ok then fail s1
    else
      let s2 := load s1
      match queueOf s2 q with
      | some r => msgAtQueue kind unit c payload tok r s2
      | none => s2
  | .rack v by_ => rackFetched q v by_ (if st ≠ .ok then fail s1 else load s1)

/-- The descriptor fetches that a slice has in flight: its 16 oldest (R161). DEDUCED (log entry 95): further misses wait in the order in
which they arose, which for doorbells is that of their service. -/
def fetchesOn (s : State) (n : Nat) : List (Nat × FetchFor) := (s.qfetch.filter fun e => qHome e.1 == n).take 16

/-- DESCRIPTOR_FETCH_DONE (R161, R162): the oldest descriptor fetch of a queue has returned. It waits while no entry can be
evicted. -/
def execDescriptorFetchDone (q : Nat) (s : State) : Res :=
  match (fetchesOn s (qHome q)).find? fun e => e.1 == q with
  | some (_, w) =>
    if (queueOf s q).isSome ∨ (readDesc s q).1 ≠ .ok ∨ (makeRoom (qHome q) s).1 then .next (fetched q w { s with qfetch := s.qfetch.eraseP fun e => e.1 == q })
    else .next s
  | none => .next s

/-! The doorbell and acknowledge registers (R158) -/

/-- A write of QCTL_DB: it rings the queue, a privileged queue included. -/
def qctlDbWrite (n v : Nat) (_ : RegBy) (s : State) : RegRes :=
  let q := n * 8192 + v % 8192
  (some .ok, setDb q true (regPut 0 (regNo n 0x60C) v (touch n 7 q s).2))

/-- A write of QCTL_RACK (R158): checked under R144 on the queue's descriptor, which is fetched where it is not cached. -/
def qctlRackWrite (n v : Nat) (by_ : RegBy) (s : State) : RegRes :=
  let q := n * 8192 + v % 8192
  match queueOf s q with
  | some r => rackTake q v by_ r s
  | none => if qEnabledBit s q then (none, startFetch q (.rack v by_) s) else rackDrop q v by_ s

end Sys2Proof.Machine
end

