-- ==== Sys2Proof/Machine/Packets.lean ====
section
/-! DEFINITION. Machine/Packets.lean: the opcode table, reserved fields, operand ranges and the operand checks of the
commands that move data (05 R128 to R137; 06 R165 to R180; 07 R217 to R243; 12 R378). -/
namespace Sys2Proof.Machine

/-! The opcode table (R131) -/

/-- A row of R131: the first generation that serves the opcode, whether it is privileged, whether its packet is 128 B, its
timing class (0 Q, 1 D, 2 W, 3 M), and whether word 2 bits 10:0 are CTX. -/
structure OpInfo where
  gen : Nat
  priv : Bool
  big : Bool
  cls : Nat
  hasCtx : Bool
  deriving DecidableEq, Repr

/-- The rows of R131 but HEM. -/
def opTable : List (Nat × OpInfo) :=
  let r (op gen : Nat) (priv big : Bool) (cls : Nat) (ctx : Bool) : Nat × OpInfo :=
    (op, { gen := gen, priv := priv, big := big, cls := cls, hasCtx := ctx })
  [r 0x000 1 false false 0 false, r 0x002 1 false false 0 false, r 0x003 1 false false 0 false,
   r 0x010 1 false false 2 false, r 0x011 1 false false 1 true, r 0x100 1 false false 1 true,
   r 0x101 1 false false 1 true, r 0x102 2 false true 1 true, r 0x200 2 false true 1 true,
   r 0x201 2 false true 1 true, r 0x202 2 false true 1 true, r 0x300 1 false false 1 true,
   r 0x301 1 false false 2 true, r 0x302 2 false false 2 true, r 0x303 2 false false 0 true,
   r 0x304 2 false false 0 true] ++
  [r 0x400 1 true false 3 true, r 0x401 1 true false 3 true, r 0x402 1 true false 3 true,
   r 0x420 2 true false 3 false, r 0x421 2 true true 3 false, r 0x500 2 false false 0 false,
   r 0x501 2 true false 3 false, r 0x502 2 true false 3 false, r 0x510 1 false false 3 true,
   r 0x520 3 true false 3 false, r 0x600 3 false false 2 true, r 0x601 3 false true 1 true,
   r 0x602 3 false true 1 true, r 0x700 1 true false 3 true, r 0x701 2 true true 3 true,
   r 0x702 1 true false 3 false, r 0x710 1 true false 3 false, r 0x720 1 true false 3 false,
   r 0x721 1 true false 3 false]

/-- The row of an opcode. -/
def opInfo (op : Nat) : Option OpInfo := (opTable.find? fun e => e.1 == op).map (·.2)

/-! Reserved fields (R7, R137 step 4) -/

/-- Masks of the reserved bits of words 2, 3, …; a word past the list is reserved whole. -/
def resMasks (op : Nat) : List Nat :=
  let c := 0xFFFFF800; let h := 0x7FF00000; let f := 0xFFFFFFFF
  if op = 0x002 then [0, h]
  else if op = 0x003 then [0xFFFFF000]
  else if op = 0x010 then [0xFFFFFFFE]
  else if op = 0x011 then [c, 0, 0, h]
  else if op = 0x100 then [c, 0, 0, h, 0, 0]
  else if op = 0x101 then [c, 0, 0, h, 0, h]
  else if op = 0x102 then [c, 0, 0, h, 0, h, 0x00F80000]
  else if op = 0x200 then [0x0000F800, 0x03F8FFFC, 0, 0, 0, 0, 0, h, 0, 0, h, 0, 0]
  else if op = 0x201 then [0x0000F800, 0x00007FFF, 0, 0, 0, 0, 0, h, 0, h, 0, 0, h]
  else if op = 0x202 then [0x0FFFF800, 0, 0, 0, 0, h, 0, h]
  else if op = 0x300 then [0x1FFFF800, 0xFFFF0000, 0, 0x0000F800]
  else if op = 0x301 then [0x1FFFF800, 0, 0, 0x7FC00000]
  else if op = 0x302 then [0x7FFFF800, 0x0000F000, 0xFFFF0000]
  else if op = 0x303 ∨ op = 0x304 then [c, 0xFFFFF000, 0xFFFF0000]
  else if op = 0x400 then [0xFFFE0000, 0, 0x3000FE00]
  else if op = 0x401 then [0, 0x000040FC, 0, 0, 0, 0]
  else if op = 0x402 then [c]
  else if op = 0x420 then [0, 0, 0, h, 0xFFFFFFFE]
  else if op = 0x421 then [0x1FF80000, 0xFFC0F800, 0, 0, 0, 0, 0]
  else if op = 0x500 then [0, 0xFFFFC000]
  else if op = 0x501 then [0x7FFFF000]
  else if op = 0x502 then [0x3FFFFFF8, 0, 0, 0]
  else if op = 0x510 then [0xFF00F800, f, 0, h]
  else if op = 0x520 then [0x0000FFFF, f, 0, 0, 0, h]
  else if op = 0x600 then [0x0FFFF800, 0x0000F800, 0x03FF8000, 0x0000FF80, 0, 0x7FFFFFFF, 0, h]
  else if op = 0x601 then [0x03FFF800, 0, 0, h, 0, 0x00003F00, 0xFFFF8000, 0xFFFFF800]
  else if op = 0x602 then [0x7FFFF800, 0, 0, 0x00003F00, 0, h, 0xFFFF8000, 0xFFFFF800]
  else if op = 0x700 then [0x0FFCF800, 0, 0, h]
  else if op = 0x701 then [c, f, 0, h] ++ List.replicate 12 0
  else if op = 0x702 then [0x0FC00FE0]
  else if op = 0x710 then [0x07FFF800, 0, 0, h]
  else if op = 0x720 then [0, 0, 0xFFFFFFFE, 0, 0]
  else if op = 0x721 then [0, 0, 0xFFFFFFFE]
  else []

/-- Reserved bits of an operand address's high word that depend on EXT (R166). -/
def opndReserved (hi : Word) : Bool := !flag hi 31 && decide (fld hi 19 8 ≠ 0)

/-- Reserved values and the fields that a packet table gives as zero in some of its forms. -/
def dynReserved (op gen : Nat) (ws : List Word) : Bool :=
  let w (i : Nat) : Word := wordAt ws i
  if op = 0x011 ∨ op = 0x100 ∨ op = 0x701 then opndReserved (w 5) ||
      (decide (op = 0x701) && decide (fld (w 5) 7 4 = 1) && decide ((w 15).toNat ≠ 0 ∨ (w 16).toNat ≠ 0 ∨ (w 17).toNat ≠ 0))
  else if op = 0x101 then opndReserved (w 5) || opndReserved (w 7)
  else if op = 0x102 then opndReserved (w 5) || opndReserved (w 7) || decide (2 ≤ fld (w 8) 17 16) ||
      (let bad (c : Nat) : Bool := decide (c = 7 ∨ 0x0C < c); bad (fld (w 8) 15 8) || bad (fld (w 8) 7 0))
  else if op = 0x200 then opndReserved (w 9) || opndReserved (w 12)
  else if op = 0x201 then opndReserved (w 9) || opndReserved (w 11) || opndReserved (w 14) ||
      (decide (fld (w 3) 19 18 = 2) && decide (dwordAt ws 13 ≠ 0))
  else if op = 0x202 then opndReserved (w 7) || opndReserved (w 9) || decide (fld (w 2) 30 29 = 3)
  else if op = 0x300 then (flag (w 2) 29 && decide (gen < 3)) || (!flag (w 2) 29 && decide ((w 5).toNat ≠ 0))
  else if op = 0x301 then decide (fld (w 2) 31 30 = 3)
  else if op = 0x421 then decide (fld (w 2) 31 30 = 0 ∨ fld (w 2) 31 30 = 3) ||
      (flag (w 2) 29 && decide (fld (w 2) 12 4 ≠ 0)) ||
      (decide (fld (w 3) 21 16 ≠ 0) && !(flag (w 2) 29 && decide (fld (w 2) 3 0 = 10))) ||
      (decide (fld (w 3) 10 0 ≠ 0) && !(if flag (w 2) 29 then decide (fld (w 2) 3 0 = 10) else qPriv (fld (w 2) 18 0)))
  else if op = 0x500 then decide (fld (w 3) 13 12 = 3)
  else if op = 0x502 then decide (fld (w 2) 31 30 = 3) || (decide (fld (w 2) 31 30 = 0) && decide (fld (w 2) 2 0 ≠ 0))
  else if op = 0x600 then
    let o := fld (w 2) 31 30
    decide (o = 3) ||
      (decide (o ≠ 0) && (decide (fld (w 2) 29 28 ≠ 0) || decide (fld (w 4) 31 26 ≠ 0))) ||
      (decide (o = 0) && decide (fld (w 4) 14 0 ≠ 0)) || (decide (o = 2) && decide (fld (w 5) 31 16 ≠ 0)) ||
      ((decide (o ≠ 0) || flag (w 2) 29) && decide (fld (w 5) 6 0 ≠ 0))
  else if op = 0x601 then opndReserved (w 5) || (if flag (w 2) 30 then decide (8 ≤ fld (w 2) 29 26 ∨ fld (w 2) 29 26 % 4 = 3) else decide (fld (w 2) 29 26 ≠ 0))
  else if op = 0x602 then opndReserved (w 7)
  else if op = 0x700 then
    let o := fld (w 2) 31 28
    decide (5 ≤ o) || (decide (o ≠ 1) && decide (fld (w 2) 17 16 ≠ 0)) || (decide (o ≠ 2) && decide (fld (w 2) 10 0 ≠ 0)) ||
      (decide (o ≠ 1 ∧ o ≠ 2) && decide ((w 3).toNat ≠ 0)) || (decide (o ≠ 2) && decide (dwordAt ws 4 ≠ 0)) ||
      (decide (o = 2) && opndReserved (w 5))
  else if op = 0x702 then decide (3 ≤ fld (w 2) 31 28)
  else if op = 0x710 then
    let o := fld (w 2) 31 28
    decide (3 ≤ o) || (decide (o = 0) && flag (w 2) 27) || (decide (o = 2) && decide (fld (w 2) 10 0 ≠ 0)) ||
      (decide (o ≠ 0) && decide ((w 3).toNat ≠ 0))
  else false

/-- Is a reserved parameter field of a packet nonzero (R137 step 4)? On a tenant queue CTX is reserved (R165). -/
def paramsReserved (priv : Bool) (gen op : Nat) (i : OpInfo) (ws : List Word) : Bool :=
  let ms := resMasks op
  ((List.range (if i.big then 30 else 14)).any fun k => decide ((wordAt ws (k + 2)).toNat &&& ms.getD k 0xFFFFFFFF ≠ 0)) ||
    dynReserved op gen ws || (!priv && i.hasCtx && decide (fld (wordAt ws 2) 10 0 ≠ 0))

/-! Operand ranges -/

/-- A range of operand bytes: of the context's external window (`ext`, where store and pocket mean nothing), or of a
pocket; segments are (offset, length). `acc` marks an accumulated destination. -/
structure Rng where
  ext : Bool
  st : Store
  pk : Nat
  segs : List (Nat × Nat)
  rd : Bool
  wr : Bool
  acc : Bool
  deriving DecidableEq, Repr

/-- The range of an operand address (R166): none where a store operand's region is not 0x1 to 0x3. -/
def opnd (a len : Nat) (rd wr : Bool) : Option Rng :=
  if bitOf a 63 then some { ext := true, st := .w, pk := 0, segs := [(bitsOf a 51 0, len)], rd := rd, wr := wr, acc := false }
  else match storeOf (regionOf a) with
    | some st => some { ext := false, st := st, pk := pocketNoOf a, segs := [(offsetOf a, len)], rd := rd, wr := wr, acc := false }
    | none => none

/-- The store operand of an address with EXT = 0. -/
def opndStore (a len : Nat) (rd wr : Bool) : Option Rng := if bitOf a 63 then none else opnd a len rd wr

/-- Total bytes. -/
def Rng.bytes (r : Rng) : Nat := (r.segs.map (·.2)).foldl (· + ·) 0

/-- Do two ranges share a byte? -/
def Rng.meets (a b : Rng) : Bool :=
  decide (a.ext = b.ext) && (a.ext || (decide (a.st = b.st) && decide (a.pk = b.pk))) &&
    a.segs.any fun x => b.segs.any fun y => rangesMeet x.1 x.2 y.1 y.2

/-- The pocket of a range. -/
def Rng.pocket (x : Ctx) (r : Rng) : Pocket := x.pocket r.st r.pk

/-- The granules of a range, each with its slice and how many of the range's bytes it holds (02 R47, R49). -/
def Rng.grains (s : State) (x : Ctx) (r : Rng) : List (Nat × Nat) :=
  if r.ext then []
  else
    let p := r.pocket x; let sp := ctxSpan s x
    r.segs.flatMap fun (o, n) => if n = 0 then [] else
      (List.range ((o + n - 1) / 256 + 1 - o / 256)).map fun i =>
        let b := (o / 256 + i) * 256
        ((locate sp r.st p b).slice, Nat.min (o + n) (b + 256) - Nat.max o b)

/-- The slices that a range's bytes lie on. -/
def Rng.slices (s : State) (x : Ctx) (r : Rng) : List Nat := ((r.grains s x).map (·.1)).eraseDups

/-- How many bytes of a range lie on each of its slices. -/
def Rng.parts (s : State) (x : Ctx) (r : Rng) : List (Nat × Nat) :=
  let g := r.grains s x
  ((g.map (·.1)).eraseDups).map fun n => (n, ((g.filter fun e => e.1 == n).map (·.2)).foldl (· + ·) 0)

/-- The group set of a range. -/
def Rng.gset (x : Ctx) (r : Rng) : GSet := { store := r.st, set := (r.pocket x).set, acc := r.acc }

/-- What the checks before admission find. -/
inductive Pre where
  | ok
  | fail (st : Status) (result : Nat)
  | spilled
  deriving DecidableEq, Repr

/-- The first of two checks that does not pass. -/
def Pre.andThen (a b : Pre) : Pre :=
  match a with
  | .ok => b
  | x => x

/-- Check a list in order. -/
def Pre.all (l : List Pre) : Pre := l.foldl Pre.andThen .ok

/-- A check with a status. -/
def need (b : Bool) (st : Status) : Pre := if b then .ok else .fail st 0

/-- The key that serves a context (13 R402): its slot loaded for its tenant. -/
def ctxKey (s : State) (x : Ctx) : Option Nat :=
  if !x.keyEn then none
  else match mget (fun _ => none) s.keys x.keySlot with
    | some (t, k) => if t = x.tenant then some k else none
    | none => none

/-- The checks of R44 on a range of context `x`, or those of R167 on its external window. -/
def rngCheck (s : State) (x : Ctx) (r : Rng) : Pre :=
  if r.ext then
    if r.segs.any fun (o, n) => decide (x.extSize < o + n) then .fail .boundViolation 0
    else if (ctxKey s x).isNone then .fail .decodeError 0
    else .ok
  else match pocketCheck s x r.st r.pk r.segs r.rd r.wr false none with
    | .ok _ => .ok
    | .fail st => .fail st 0
    | .spilled _ => .spilled

/-- Checks of several ranges: failures first, in order, then spilled pockets. -/
def rngChecks (s : State) (x : Ctx) (rs : List Rng) : Pre :=
  let l := rs.map (rngCheck s x)
  match l.find? fun p => decide (p ≠ .ok) && decide (p ≠ .spilled) with
  | some p => p
  | none => if l.contains .spilled then .spilled else .ok

/-! Fields of the data commands -/

/-- Address operand at words `i` and `i + 1`. -/
def Cmd.addr (c : Cmd) (i : Nat) : Nat := dwordAt c.words i
/-- Word `i` of a packet as a number. -/
def Cmd.w (c : Cmd) (i : Nat) : Nat := (wordAt c.words i).toNat
/-- Bits of word `i` of a packet. -/
def Cmd.f (c : Cmd) (i hi lo : Nat) : Nat := fld (wordAt c.words i) hi lo
/-- A bit of word `i` of a packet. -/
def Cmd.bit (c : Cmd) (i k : Nat) : Bool := flag (wordAt c.words i) k
/-- CLASS of a packet (R132). -/
def Cmd.gbit (c : Cmd) : Bool := c.bit 0 18

/-- Stored bytes of `n` elements of a format (R176, R214). -/
def fmtBytes (fmt n : Nat) : Nat :=
  match mxFmt fmt with
  | some f => n / 32 * mxBytes f
  | none => n * elemBytes fmt

/-! GEMV (07 R217 to R220) -/

/-- Parameters of a GEMV packet. -/
structure GemvP where
  wfmt : Nat
  afmt : Nat
  wpkt : Nat
  np : Nat
  ncol : Nat
  omode : Nat
  n : Nat
  k : Nat
  rows : Nat
  kstripe : Nat
  x : Nat
  xstride : Nat
  y : Nat
  ystride : Nat
  oscale : Nat
  deriving DecidableEq, Repr

/-- Read them. -/
def gemvOf (c : Cmd) : GemvP :=
  { wfmt := c.f 2 31 24, afmt := c.f 2 23 16, wpkt := c.f 3 31 28, np := c.f 3 27 26 + 1, ncol := c.f 3 18 16 + 1,
    omode := c.f 3 1 0, n := c.w 4, k := c.w 5, rows := c.w 6, kstripe := c.w 7, x := c.addr 8, xstride := c.w 10,
    y := c.addr 11, ystride := c.w 13, oscale := c.w 14 }

/-- Activation bytes of an element. -/
def GemvP.abytes (g : GemvP) : Nat := elemBytes g.afmt
/-- Stored bytes of one block of 32 weights (R214, R216). -/
def GemvP.blockBytes (g : GemvP) : Nat :=
  match mxFmt g.wfmt with
  | some f => mxBytes f
  | none => 32 * elemBytes g.wfmt
/-- T, the number of stripes, and the elements and bytes of stripe `t` (R218). -/
def GemvP.stripes (g : GemvP) : Nat := ceilDiv g.k g.kstripe
def GemvP.stripeK (g : GemvP) (t : Nat) : Nat := if t + 1 = g.stripes then g.k - t * g.kstripe else g.kstripe
def GemvP.ps (g : GemvP) (t : Nat) : Nat := g.stripeK t / 32 * g.blockBytes
/-- Bytes that each stream must hold (R220 step 4). -/
def GemvP.streamBytes (g : GemvP) : Nat := (g.stripes - 1) * g.rows * g.ps 0 + g.rows * g.ps (g.stripes - 1)

/-- The weight pockets (R218). -/
def GemvP.pockets (g : GemvP) (x : Ctx) : List Pocket := (List.range g.np).map fun i => x.pocket .w (g.wpkt + i)

/-- The slice exponent of the weight pockets. -/
def GemvP.slog (g : GemvP) (s : State) (x : Ctx) : Nat := pocketS (ctxSpan s x) (x.pocket .w g.wpkt)

/-- The pocket offset of byte `t` of stream `i` (R217). -/
def streamOff (sx : Nat) (p : Pocket) (i t : Nat) : Nat :=
  let u := t / 4096
  let l := p.base * 1048576 / (4096 * 2 ^ sx) + u
  u * 4096 * 2 ^ sx + (i ^^^ foldK sx l) * 4096 + t % 4096

/-- X and Y as ranges (R220 steps 5 and 6). -/
def GemvP.xRng (g : GemvP) : Option Rng :=
  (opndStore g.x 0 true false).map fun r => { r with segs := (List.range g.ncol).map fun c => (offsetOf g.x + c * g.xstride, g.k * g.abytes) }
def GemvP.yRng (g : GemvP) : Option Rng :=
  (opndStore g.y 0 false true).map fun r =>
    { r with segs := (List.range g.ncol).map fun c => (offsetOf g.y + c * g.ystride, 4 * g.n), acc := decide (g.omode = 1) }

/-- The slice that holds stream `i` of a weight pocket. -/
def streamSlice (s : State) (x : Ctx) (p : Pocket) (i : Nat) : Nat := if p.spread then (ctxSpan s x).first + i else p.home

/-- The NMUs a GEMV needs: (slice, tier) of every stream that holds a row below N (R218: other rows are not read). -/
def GemvP.nmus (g : GemvP) (s : State) (x : Ctx) : List (Nat × Nat) :=
  let sx := g.slog s x
  ((g.pockets x).zipIdx.flatMap fun (p, pi) => ((List.range (2 ^ sx)).filter fun i =>
    decide ((pi * 2 ^ sx + i) * g.rows < g.n)).map fun i => (streamSlice s x p i, p.set)).eraseDups

/-- Is an NMU retired (R212)? Keyed by slice record and tier. -/
def nmuRetired (s : State) (e : Nat × Nat) : Bool := mget (fun _ => false) (sliceOf s e.1).nmuRetired e.2
/-- Spare tiles mapped in at an NMU: those of the repair map and those since (R212). -/
def tilesUsed (s : State) (n tier : Nat) : Nat := Config.tileSpares n tier + (mget (fun _ => []) (sliceOf s n).nmuTiles tier).length
/-- The GEMV that an NMU runs. -/
def nmuRuns (s : State) (e : Nat × Nat) : Option Cmd :=
  s.cmds.find? fun d => d.phase == .admitted && d.opcode == 0x200 && (match ctxOf s d.ctx with
    | some y => ((gemvOf d).nmus s y).contains e
    | none => false)

/-- NMU_CFG.GONLY (R211): a write made while the NMU runs a GEMV takes effect when that GEMV ends. -/
def nmuGonly (s : State) (e : Nat × Nat) : Bool :=
  let now := bitOf (regGet s 0 (regNo e.1 (0x800 + 4 * e.2))) 0
  match mget (fun _ => none) (sliceOf s e.1).gonlyWas e.2 with
  | some (id, was) => if (nmuRuns s e).any fun c => c.id == id then was else now
  | none => now

/-- A write of NMU_CFG (R211). -/
def nmuCfgWrite (n t v : Nat) (s : State) : RegRes :=
  let was := (nmuRuns s (n, t)).map fun c => (c.id, nmuGonly s (n, t))
  (some .ok, regPut 0 (regNo n (0x800 + 4 * t)) v (modSlice n (fun r => { r with gonlyWas := mput (fun _ => none) r.gonlyWas t was }) s))

/-- Steps 1 to 6 of R220, and step 7. -/
def gemvCheck (s : State) (x : Ctx) (g : GemvP) : Pre :=
  let w0 := x.pocket .w g.wpkt
  let sx := g.slog s x
  let a := g.abytes
  let fmtOk := decide ([0x02, 0x05, 0x08, 0x09, 0x0A, 0x0B, 0x0C].contains g.wfmt ∧ [0x02, 0x03, 0x04].contains g.afmt ∧ g.omode < 2)
  let shape := fmtOk && decide (1 ≤ g.n ∧ 32 ≤ g.k ∧ g.k % 32 = 0 ∧ 32 ≤ g.kstripe ∧ g.kstripe % 32 = 0 ∧ g.kstripe ≤ g.k ∧
      1 ≤ g.rows ∧ g.rows * g.ncol ≤ 8192 ∧ g.n ≤ g.np * 2 ^ sx * g.rows)
  let ps := g.pockets x
  let tiersOk := decide (g.wpkt + g.np ≤ 16) && decide ((ps.map Pocket.set).eraseDups.length = ps.length) &&
      (ps.all fun p => decide (p.spread = w0.spread))
  let wr (i : Nat) : Pre :=
    let p := x.pocket .w (g.wpkt + i)
    match rngCheck s x { ext := false, st := .w, pk := g.wpkt + i, segs := [], rd := true, wr := false, acc := false } with
    | .fail _ _ => .fail .boundViolation 0
    | r =>
      if p.bound / 2 ^ sx < g.streamBytes ∨ (p.spread ∧ p.bound % (4096 * 2 ^ sx) ≠ 0) then .fail .boundViolation 0 else r
  let weights := (List.range g.np).map wr
  let wOk := match weights.find? fun p => decide (p ≠ .ok) && decide (p ≠ .spilled) with
    | some p => p
    | none => if weights.contains .spilled then .spilled else .ok
  match g.xRng, g.yRng with
  | some xr, some yr =>
    let shape5 := decide (xr.st = .a ∧ yr.st = .p ∧ g.k * a ≤ g.xstride ∧ 4 * g.n ≤ g.ystride ∧ g.ystride % 4 = 0 ∧ offsetOf g.y % 4 = 0)
    Pre.all [need shape .decodeError, need (decide (g.k * g.ncol * a ≤ 65536 * g.np)) .decodeError, need tiersOk .decodeError,
      wOk, need shape5 .decodeError, rngChecks s x [xr, yr], if (g.nmus s x).any (nmuRetired s) then .fail (.specific 0x80) 0 else .ok]
  | _, _ =>
    Pre.all [need shape .decodeError, need (decide (g.k * g.ncol * a ≤ 65536 * g.np)) .decodeError, need tiersOk .decodeError,
      wOk, .fail .decodeError 0]

/-- Rows of the matrix that stream `i` of pocket `p` of the list holds: (row within the stream, matrix row). -/
def GemvP.rowsOf (g : GemvP) (sx p i : Nat) : List (Nat × Nat) :=
  ((List.range g.rows).map fun j => (j, (p * 2 ^ sx + i) * g.rows + j)).filter fun e => decide (e.2 < g.n)

/-- Result bytes that a slice produces, Y_s of R231. -/
def GemvP.ysBytes (g : GemvP) (s : State) (x : Ctx) (n : Nat) : Nat :=
  let sx := g.slog s x
  (((g.pockets x).zipIdx.flatMap fun (p, pi) => (List.range (2 ^ sx)).map fun i =>
    if streamSlice s x p i = n then (g.rowsOf sx pi i).length * g.ncol * 4 else 0)).foldl (· + ·) 0

/-! GATHER_POOL (07 R232, R233, R237) -/

/-- Parameters of a GATHER_POOL packet. -/
structure PoolP where
  mode : Nat
  rsz : Nat
  nq : Nat
  rfmt : Nat
  tpkt : Nat
  ofmt : Nat
  omode : Nat
  rnd : Nat
  sat : Bool
  nidx : Nat
  nbags : Nat
  trows : Nat
  scale : Nat
  idx : Nat
  out : Nat
  ostride : Nat
  scr : Nat
  deriving DecidableEq, Repr

/-- Read them. -/
def poolOf (c : Cmd) : PoolP :=
  { mode := c.f 2 31 28, rsz := 64 * 2 ^ c.f 2 27 26, nq := c.f 2 25 24 + 1, rfmt := c.f 2 23 16, tpkt := c.f 3 31 28,
    ofmt := c.f 3 27 20, omode := c.f 3 19 18, rnd := c.f 3 17 16, sat := c.bit 3 15, nidx := c.w 4, nbags := c.w 5,
    trows := c.w 6, scale := c.w 7, idx := c.addr 8, out := c.addr 10, ostride := c.w 12, scr := c.addr 13 }

/-- Bytes of an index entry (R232), elements of a row (R233), bytes of an output row. -/
def PoolP.entryBytes (g : PoolP) : Nat := if 2 ≤ g.mode then 16 else 8
def PoolP.elems (g : PoolP) : Nat := g.rsz / elemBytes g.rfmt
def PoolP.rowOut (g : PoolP) : Nat := g.elems * (if g.omode = 0 then elemBytes g.ofmt else 4)

/-- IDX, OUT and SCR as ranges. -/
def PoolP.idxRng (g : PoolP) : Option Rng := opndStore g.idx (g.nidx * g.entryBytes) true false
def PoolP.outRng (g : PoolP) : Option Rng :=
  (opndStore g.out 0 false true).map fun r =>
    { r with segs := (List.range g.nbags).map (fun b => (offsetOf g.out + b * g.ostride, g.rowOut)), acc := decide (g.omode = 2) }
def PoolP.scrRng (g : PoolP) : Option Rng := opndStore g.scr (g.nbags * (4 * g.elems + 4)) true true

/-- The whole extent of OUT, for overlap tests. -/
def PoolP.outSpan (g : PoolP) (r : Rng) : Rng := { r with segs := [(offsetOf g.out, (g.nbags - 1) * g.ostride + g.rowOut)] }

/-- The checks of R237, after CLASS. -/
def poolCheck (s : State) (x : Ctx) (g : PoolP) : Pre :=
  let vals := decide (g.mode < 4 ∧ g.rsz ≤ 256 ∧ [0, 2, 3, 4, 5].contains g.rfmt ∧ g.omode < 3 ∧ g.rnd < 2 ∧
      [0, 2, 3, 4].contains g.ofmt ∧ (g.omode ≠ 2 ∨ g.mode = 0 ∨ g.mode = 2) ∧ 1 ≤ g.nbags ∧ g.nbags ≤ 2 ^ 24 ∧
      g.elems * 4 ≤ 1024)
  let ps := (List.range g.nq).map fun i => x.pocket .w (g.tpkt + i)
  let tiers := decide (g.tpkt + g.nq ≤ 16) && decide ((ps.map Pocket.set).eraseDups.length = ps.length)
  let quarter (i : Nat) : Rng := { ext := false, st := .w, pk := g.tpkt + i, segs := [(0, g.trows * g.rsz)], rd := true, wr := false, acc := false }
  let fp32out := decide (g.omode ≠ 0 ∨ g.ofmt = 0)
  let first := [need vals .decodeError, need tiers .decodeError, rngChecks s x ((List.range g.nq).map quarter)]
  let idx (ir : Rng) : List Pre := [need (decide (ir.st = .a)) .decodeError, rngChecks s x [ir]]
  match g.idxRng, g.outRng with
  | some ir, some orr =>
    let outOk := decide (orr.st = if g.omode = 0 then .a else .p) && decide (g.rowOut ≤ g.ostride) &&
      (!fp32out || (decide (offsetOf g.out % 4 = 0) && decide (g.ostride % 4 = 0)))
    let scrPart : Pre := if g.omode = 2 then .ok else match g.scrRng with
      | some sr => Pre.all [need (decide (sr.st = .p ∧ offsetOf g.scr % 4 = 0)) .decodeError, rngChecks s x [sr],
          need (!sr.meets (g.outSpan orr)) .decodeError]
      | none => .fail .decodeError 0
    Pre.all (first ++ idx ir ++ [need outOk .decodeError, rngChecks s x [orr], need (!(g.outSpan orr).meets ir) .decodeError, scrPart])
  | some ir, none => Pre.all (first ++ idx ir ++ [.fail .decodeError 0])
  | none, _ => Pre.all (first ++ [.fail .decodeError 0])

/-! REDUCE_ACC (07 R242, R243) -/

/-- Element bytes of a TYPE, and the accumulate operation in the coding of R81 (ADD 0 to 2, MAX 4 to 6). -/
def redBytes (c : Cmd) : Nat := if c.f 2 30 29 = 2 then 8 else 4
def redOp (c : Cmd) : Nat := (if c.bit 2 31 then 4 else 0) + c.f 2 30 29

/-- Sources and destination as ranges. -/
def redSrc (c : Cmd) : Option Rng :=
  (opndStore (c.addr 6) 0 true false).map fun r =>
    { r with segs := (List.range (c.w 4)).map fun k => (offsetOf (c.addr 6) + k * c.w 5, c.w 3 * redBytes c) }
def redDst (c : Cmd) : Option Rng :=
  (opndStore (c.addr 8) (c.w 3 * redBytes c) false true).map fun r => { r with acc := true }

/-- The checks of R243. -/
def redCheck (s : State) (x : Ctx) (c : Cmd) : Pre :=
  let e := redBytes c
  if !(1 ≤ c.w 4 ∧ c.w 4 ≤ 256) then .fail .decodeError 0
  else match redSrc c, redDst c with
    | some sr, some dr =>
      let ok := decide (sr.st ≠ .w ∧ dr.st = .p ∧ c.addr 6 % e = 0 ∧ c.addr 8 % e = 0 ∧ c.w 5 % e = 0 ∧ c.w 3 * e ≤ c.w 5)
      Pre.all [need ok .decodeError, need (!sr.meets dr) .decodeError, rngChecks s x [sr, dr]]
    | _, _ => .fail .decodeError 0

/-! The ranges and checks of a command -/

/-- The store and external ranges that a data command reads and writes. -/
def cmdRanges (c : Cmd) : List Rng :=
  let op := c.opcode
  let two (a b : Option Rng) : List Rng := a.toList ++ b.toList
  if op = 0x100 then (opnd (c.addr 4) (c.w 3) false true).toList
  else if op = 0x101 then two (opnd (c.addr 4) (c.w 3) true false) (opnd (c.addr 6) (c.w 3) false true)
  else if op = 0x102 then
    two (opnd (c.addr 4) (fmtBytes (c.f 8 7 0) (c.w 3)) true false) (opnd (c.addr 6) (fmtBytes (c.f 8 15 8) (c.w 3)) false true)
  else if op = 0x011 then (opnd (c.addr 4) (256 * c.w 3) false false).toList
  else if op = 0x200 then two (gemvOf c).xRng (gemvOf c).yRng
  else if op = 0x201 then two (poolOf c).idxRng (poolOf c).outRng ++ (if (poolOf c).omode = 2 then [] else (poolOf c).scrRng.toList)
  else if op = 0x202 then two (redSrc c) (redDst c)
  else if op = 0x601 then (opndStore (c.addr 4) (c.w 3) true false).toList
  else if op = 0x602 then (opndStore (c.addr 6) (c.w 3) false true).toList
  else []

/-- Ranges also of a GEMV's weights and a GATHER_POOL's quarters, for the checks on groups and slices. -/
def weightRanges (c : Cmd) : List Rng :=
  let w (pk len : Nat) : Rng := { ext := false, st := .w, pk := pk, segs := [(0, len)], rd := true, wr := false, acc := false }
  if c.opcode = 0x200 then (List.range (gemvOf c).np).map fun i => w ((gemvOf c).wpkt + i) 0
  else if c.opcode = 0x201 then (List.range (poolOf c).nq).map fun i => w ((poolOf c).tpkt + i) ((poolOf c).trows * (poolOf c).rsz)
  else []

/-- The checks of a GTA operand (02 R44 steps 1 and 4; 12 R378): FORMAT 0, a region that exists. -/
def gtaOk (a : Nat) : Bool := decide (bitsOf a 63 62 = 0) && decide (regionOf a ≤ 4 ∨ regionOf a = 8)

/-- The held credit that a remote command names for `len` bytes at its GTA (12 R377, R378 check 3). -/
def heldFor (s : State) (c : Cmd) (x : Ctx) (gta len : Nat) : Option Held :=
  s.fab.held.find? fun h => h.part == x.part && h.dev == bitsOf gta 61 46 && h.handle == c.f 8 14 0 &&
    decide (fld (wordAt h.words 1) 10 0 = c.f 9 10 0) && decide (fld (wordAt h.words 2) 31 30 = regionOf gta) &&
    decide (fld (wordAt h.words 2) 29 26 = pocketNoOf gta) && decide (offsetOf gta + len ≤ (wordAt h.words 3).toNat)

/-- The checks of R378 on a REMOTE_WRITE; a GTA needs DEV_ID, and one of another device FAB_DOMAIN and a fabric port
(02 R26; 12 R365; 18 R517). -/
def remoteWriteCheck (s : State) (c : Cmd) (x : Ctx) : Pre :=
  let len := c.w 3; let dst := c.addr 6
  match opndStore (c.addr 4) len true false with
  | some r =>
    if len = 0 ∨ 2 ^ 24 < len ∨ !gtaOk dst ∨ !devIdValid s ∨ !fabReach s (bitsOf dst 61 46) then .fail .decodeError 0
    else Pre.all [rngChecks s x [r], need (heldFor s c x dst len).isSome .creditDenied,
      need (!c.bit 2 30 || (decide (regionOf dst = 3) && decide (offsetOf dst % accSize (c.f 2 29 26) = 0) &&
        decide (len % accSize (c.f 2 29 26) = 0))) .decodeError]
  | none => .fail .decodeError 0

/-- The checks of a REMOTE_READ (R380): those of R378 with source and target exchanged; CRED = 0 needs no credit. A range that would
pass 2^32 carries into no other pocket (02 R47). -/
def remoteReadCheck (s : State) (c : Cmd) (x : Ctx) : Pre :=
  let len := c.w 3; let src := c.addr 4
  match opndStore (c.addr 6) len false true with
  | some r =>
    if len = 0 ∨ 2 ^ 24 < len ∨ !gtaOk src ∨ !devIdValid s ∨ !fabReach s (bitsOf src 61 46) then .fail .decodeError 0
    else Pre.all [rngChecks s x [r], need (decide (c.f 8 14 0 = 0) || (heldFor s c x src len).isSome) .creditDenied,
      need (decide (offsetOf src + len ≤ 2 ^ 32)) .boundViolation]
  | none => .fail .decodeError 0

/-- Step 6 of R137 for the data commands, in B class (06 R166 to R179; 07). Management commands and waits check at their
own step. `x` is the context the command acts for. -/
def dataCheck (s : State) (c : Cmd) (x : Ctx) : Pre :=
  let op := c.opcode
  if op = 0x100 then
    match opnd (c.addr 4) (c.w 3) false true with
    | some r => rngChecks s x [r]
    | none => .fail .decodeError 0
  else if op = 0x101 then
    match opnd (c.addr 4) (c.w 3) true false, opnd (c.addr 6) (c.w 3) false true with
    | some a, some b => Pre.all [need (!(a.ext && b.ext)) .decodeError, need (!a.meets b) .decodeError, rngChecks s x [a, b]]
    | _, _ => .fail .decodeError 0
  else if op = 0x102 then
    let sf := c.f 8 7 0; let df := c.f 8 15 8
    let blk (r : Rng) (fmt : Nat) : Bool := match mxFmt fmt with
      | some f => (r.segs.all fun (o, _) => decide (o % mxBytes f = 0)) && decide (c.w 3 % 32 = 0)
      | none => true
    match opnd (c.addr 4) (fmtBytes sf (c.w 3)) true false, opnd (c.addr 6) (fmtBytes df (c.w 3)) false true with
    | some a, some b =>
      Pre.all [need (decide (sf ≠ df) && blk a sf && blk b df) .decodeError, need (!(a.ext && b.ext)) .decodeError,
        need (!a.meets b) .decodeError, rngChecks s x [a, b]]
    | _, _ => .fail .decodeError 0
  else if op = 0x011 then
    if bitOf (c.addr 4) 63 ∨ c.addr 4 % 256 ≠ 0 ∨ c.w 3 = 0 then .fail .decodeError 0
    else match opnd (c.addr 4) (256 * c.w 3) false false with
      | some r => rngChecks s x [r]
      | none => .fail .decodeError 0
  else if op = 0x200 then gemvCheck s x (gemvOf c)
  else if op = 0x201 then if c.gbit then .fail .rejectedContract 0 else poolCheck s x (poolOf c)
  else if op = 0x202 then redCheck s x c
  else if op = 0x601 then remoteWriteCheck s c x
  else if op = 0x602 then remoteReadCheck s c x
  else .ok

end Sys2Proof.Machine
end

