-- ==== Sys2Proof/Machine/PowerBase.lean ====
section
/-! DEFINITION. Machine/PowerBase.lean: leakage, the floor of the installed weaves and the cap (16 R466 to R469, 06 R192). -/
namespace Sys2Proof.Machine

/-- A value between two fused temperatures, linearly (R466). -/
def lerp (a b ta tb t : Nat) : Nat := (a * (tb - t) + b * (t - ta)) / (tb - ta)

/-- A fused leakage table at `t` °C: interpolated between 25, 60, 85 and 105, clamped outside (R466). -/
def leakAt (f : Nat → Nat) (t : Nat) : Nat :=
  if t ≤ 25 then f 25
  else if t ≤ 60 then lerp (f 25) (f 60) 25 60 t
  else if t ≤ 85 then lerp (f 60) (f 85) 60 85 t
  else if t ≤ 105 then lerp (f 85) (f 105) 85 105 t
  else f 105

/-- RET_CFG of a slice (15 R455). -/
def retCfg (s : State) (n : Nat) : Nat := regGet s 0x1FF (regNo n 0x1014)

/-- Static power of a slice in microwatts, in its power state, at point `p` and `t` °C (R466): part's own or nominal. -/
def sliceStatic (nom : Bool) (n : Nat) (st : PwrSt) (p ret t : Nat) : Nat :=
  let c := if st = .retain then 2 else 0
  let f := fun x => if nom then Config.nomStatic n c p ret x else Config.static n c p ret x
  match st with
  | .off => 0
  | .run => leakAt f t
  | .idle => leakAt f t
  | .retain => leakAt f t

/-- Fused static power of the shared logic at point `p`, in microwatts (R466). -/
def sharedStatic (nom : Bool) (p : Nat) : Nat := if nom then Config.nomStatic 68 0 p 0 0 else Config.static 68 0 p 0 0

/-- Activity classes of R467: 0 NMU MACs, 1 GPX, 2 W-store, 3 A- and P-store, 4 outer port, 5 mesh attach, operand channel and
fabric. -/
def weightOf (nom : Bool) (cls p : Nat) : Nat := if nom then Config.nomWeight cls p else Config.weight cls p

/-- The group set of one group on its own (R247). -/
def groupSet (g : Nat) : GSet :=
  if g < 4 then { store := .w, set := g, acc := false } else if g < 8 then { store := .a, set := g - 4, acc := false }
  else { store := .p, set := 0, acc := false }

/-- Energy in femtojoules of one slot of a group at P4, every byte of its q moved (R469): the classes that the owner's KIND
implies (log entry 30). -/
def slotEnergy (o g : Nat) : Nat :=
  let q := ownerQ o (groupSet g)
  let w := fun c => weightOf false c 4
  (if g < 4 then q * w 2 else q * w 3) +
    (if oKind o = 3 ∧ g < 4 then q * 4096 / 256 * w 0 else 0) +
    (if oKind o = 2 ∨ (oKind o = 3 ∧ 4 ≤ g) then q * w 5 else 0)

/-- Energy of one background slot: the group's beats (log entry 30). -/
def bgEnergy (g : Nat) : Nat := (groupSet g).size * weightOf false (if g < 4 then 2 else 3) 4

/-- Energy in femtojoules of one frame of a table. -/
def frameEnergy (t : List Word) : Nat :=
  ((List.range 9).flatMap fun g => (List.range (wFL t)).map fun f =>
    if slotBg t g f then bgEnergy g else let o := slotOwner t g f; if o = 0 then 0 else slotEnergy o g).foldl (· + ·) 0

/-- The physical slice that serves logical slice `n`: its spare, where one does (02 R75). -/
def servedBy (s : State) (n : Nat) : Nat :=
  match (sliceOf s n).spare with
  | some k => 64 + k
  | none => n

/-- The floor in microwatts of a choice of tables for the logical slices (R469): CLK_BANK at P4 is 0.9 GHz. -/
def floorMicro (s : State) (t : Nat → List Word) : Nat :=
  sharedStatic false 4 +
    ((List.range 64).map fun n => leakAt (fun x => Config.static (servedBy s n) 0 4 (retCfg s n) x) 105 + frameEnergy (t n) * 9 / (10 * Nat.max 1 (wFL (t n)))).foldl (· + ·) 0

/-- The table a slice holds once every change admitted has taken effect (R259). -/
def latestWeave (s : State) (n : Nat) : List Word :=
  match (sliceOf s n).pendWeave.getLast? with
  | some p => p.table
  | none => (sliceOf s n).weave

/-- The floor of a choice of tables in units of 0.125 W, rounded up (R469). -/
def floorOf (s : State) (t : Nat → List Word) : Nat := ceilDiv (floorMicro s t) 125000

/-- The floor of the installed weaves (R469). -/
def floorNow (s : State) : Nat := floorOf s (latestWeave s)

end Sys2Proof.Machine
end

