-- ==== Sys2Proof/Machine/Cmds.lean ====
section
/-! DEFINITION. Machine/Cmds.lean: fetching and admitting packets, the queue-control commands, replies and notification
(05 R132 to R147, R154 to R157; 06 R181, R182; 08 R264 to R272; 09 R295). -/
namespace Sys2Proof.Machine

/-! Command addresses (R123) -/

/-- Keys of `n` bytes of an A-store pocket of a context at a LOC = 1 command address. -/
def cmdKeys (s : State) (x : Ctx) (a n : Nat) : List Nat :=
  pocketKeys (ctxSpan s x) .a (x.pocket .a (pocketNoOf a)) (offsetOf a) n

/-- The checks of R44 on a LOC = 1 command address: one that names no A-store pocket fails as at its first steps (R123). -/
def cmdAddrChk (s : State) (ctx a n : Nat) (rd wr : Bool) : Chk :=
  if bitsOf a 51 40 ≠ 0 ∨ bitsOf a 39 36 ≠ 2 then .fail .decodeError
  else match ctxOf s ctx with
  | some x => pocketCheck s x .a (pocketNoOf a) [(offsetOf a, n)] rd wr false none
  | none => .fail .boundViolation

/-- Slices that a command address touches. -/
def cmdAddrSlices (s : State) (ctx a n : Nat) : List Nat :=
  if !bitOf a 63 then []
  else match ctxOf s ctx with
    | some x => Rng.slices s x { ext := false, st := .a, pk := pocketNoOf a, segs := [(offsetOf a, n)], rd := true, wr := false, acc := false }
    | none => []

/-- Read `n` bytes at a command address for context `ctx`: a status and the bytes. `spilled` is none of the statuses. -/
def cmdRead (s : State) (who : Who) (ctx a n : Nat) : Option Status × List Byte × State :=
  if bitOf a 63 then
    match cmdAddrChk s ctx a n true false with
    | .ok _ => match ctxOf s ctx with
      | some x =>
        let ks := cmdKeys s x a n
        if ks.any fun k => slcFailed s (placeOf k).slice then (some .unitFailed, [], s)
        else
          let st := readStatus s ks
          (some (if st = .uncorrectable then st else .ok), ks.map (fun k => (byteAt s k).1), drawFree (noteRead { ctx := ctx, who := who } ks s))
      | none => (some .boundViolation, [], s)
    | .fail st => (some st, [], s)
    | .spilled _ => (none, [], s)
  else
    let bs := extRead s (bitsOf a 51 0) n
    (some (if bs.any (·.2) then .uncorrectable else extStatus s (bitsOf a 51 0) n), bs.map (·.1), s)

/-- Must a read at a command address wait for the commit of an entry that a flush has issued (04 R104, 09 R296)? -/
def cmdReadWaits (s : State) (ctx a n : Nat) : Bool :=
  bitOf a 63 && s.wb.any fun e => e.held && e.issued && e.ctx == ctx && rangesMeet e.base 64 (a % 2 ^ 40) n

/-- Write bytes at a command address for context `ctx`. -/
def cmdWrite (who : Who) (ctx a : Nat) (bs : List Byte) (s : State) : Status × State :=
  if bitOf a 63 then
    match cmdAddrChk s ctx a bs.length false true with
    | .ok _ => match ctxOf s ctx with
      | some x =>
        let (s1, r) := writeBytes { ctx := ctx, who := who } ((cmdKeys s x a bs.length).zip (bs.map fun b => (b, false))) s
        (r.status, s1)
      | none => (.boundViolation, s)
    | .fail st => (st, s)
    | .spilled _ => (.boundViolation, s)
  else (extStatus s (bitsOf a 51 0) bs.length, extWrite (bitsOf a 51 0) (bs.map fun b => (b, false)) s)

/-- Serve an event only when the slices it needs run; otherwise they are woken and it is held (15 R457, log entry 1). -/
def whenAwake (ns : List Nat) (kind id : Nat) (s : State) (f : State → State) : State :=
  let (ok, s1) := touchAll ns kind id s
  if ok then f s1 else s1

/-! Destinations of replies' data (R123) -/

/-- The checks of a destination command address of `n` bytes. -/
def destCheck (s : State) (c : Cmd) (a align n : Nat) : Pre :=
  if !cmdAddrOk (c.gen ≠ 1 ∧ !qPriv c.queue) align a then .fail .decodeError 0
  else if bitOf a 63 then match cmdAddrChk s c.ctx a n false true with
    | .ok _ => .ok
    | .fail st => .fail st 0
    | .spilled _ => .spilled
  else .ok

/-- The length in words of a record, where its TYPE and PAGE are valid (17 R495). -/
def recordLen (type page : Nat) : Option Nat :=
  if type = 0 ∧ page = 0 then some 78
  else if type = 1 ∧ page = 0 then some 208
  else if type = 2 ∧ page = 0 then some 183
  else if type = 3 ∧ page < 8 then some 206
  else if type = 4 ∧ page < 8 then some 298
  else none

/-- The destination that a management command or CREDIT_REQUEST names, with its bytes (06 R196, R202; 12 R370; 17 R498). -/
def destOf (c : Cmd) : Option (Nat × Nat) :=
  if c.opcode = 0x510 then some (c.addr 4, 256)
  else if c.opcode = 0x710 then some (c.addr 4, if c.f 2 31 28 = 2 then 256 else 32 * c.f 2 10 0)
  else if c.opcode = 0x600 ∧ c.f 2 31 30 = 0 then some (c.addr 8, 32)
  else if c.opcode = 0x520 then (recordLen (c.f 2 31 24) (c.f 2 23 16)).map fun n => (c.addr 6, 4 * n)
  else none

/-- Does a management command or CREDIT_REQUEST name a SPILLED pocket, so that it is held before admission (02 R46)? -/
def destSpilled (s : State) (c : Cmd) : Bool :=
  let out : Bool := match destOf c with
    | some (a, n) => bitOf a 63 && (match cmdAddrChk s c.ctx a n false true with
      | .spilled _ => true
      | _ => false)
    | none => false
  let range : Bool := match ctxOf s c.ctx, opndStore (c.addr 4) (256 * c.w 3) false false with
    | some x, some r => decide (c.opcode = 0x700 ∧ c.f 2 31 28 = 2) && rngCheck s x r == .spilled
    | _, _ => false
  out || range

/-! Admission -/

/-- The queue's context for a packet: the queue's own, or CTX of word 2 on a privileged queue; 2048 where it has none
(R165). -/
def pktCtx (q : Nat) (r : QueueRec) (i : Option OpInfo) (ws : List Word) : Nat :=
  if !qPriv q then dCtx r.words
  else match i with
    | some o => if o.hasCtx then fld (wordAt ws 2) 10 0 else 2048
    | none => 2048

/-- Steps 1 to 3 of R137. -/
def headerCheck (priv : Bool) (gen : Nat) (ws : List Word) : Status :=
  let h := wordAt ws 0; let op := fld h 31 20
  if fld h 16 0 ≠ 0 ∨ (gen = 1 ∧ fld h 19 18 ≠ 0) ∨ (op = 1 ∧ fld h 19 17 ≠ 0) then .reservedNonzero
  else if 0x800 ≤ op then .versionUnsupported
  else match opInfo op with
    | some i =>
      if gen < i.gen then .versionUnsupported
      else if (i.priv && !priv) || flag h 19 != i.big then .decodeError
      else .ok
    | none => .decodeError

/-- The entries that a G-class or B-class FLUSH_RANGE covers (R180): every port's write-back entries of the context in the
range, and the movers' staging entries of the context there, as (slice, mover, entry). -/
def flushWb (s : State) (ctx base len : Nat) : List WbEntry :=
  s.wb.filter fun e => e.ctx == ctx && rangesMeet e.base 64 base len
def flushStage (s : State) (ctx base len : Nat) : List (Nat × StageEntry) :=
  s.movers.stage.flatMap fun (k, es) => (es.filter fun e => e.ctx == ctx && rangesMeet e.base 64 base len).map fun e => (k, e)

/-- The place that a staging entry's first byte goes to. -/
def stagePlace (s : State) (x : Ctx) (e : StageEntry) : Option Place :=
  (storeOf (regionOf e.base)).map fun st => locate (ctxSpan s x) st (x.pocket st (pocketNoOf e.base)) (offsetOf e.base)

/-- What a FLUSH_RANGE covers, by the place of each entry, with the ACCOP of those that accumulate (R180, 08 R280). -/
def flushCover (s : State) (c : Cmd) (x : Ctx) : List (Place × Bool) :=
  let base := c.addr 4 % 2 ^ 40; let len := 256 * c.w 3
  ((flushWb s c.ctx base len).map fun e => (placeOf (entryKey s e 0), e.acc.isSome)) ++
    (flushStage s c.ctx base len).filterMap fun e => (stagePlace s x e.2).map fun p => (p, false)

/-- The G-class bytes n of a command (R269, R316; GEMV: the most that one NMU reads, with its retry). -/
def cmdBytes (s : State) (c : Cmd) : Nat :=
  let op := c.opcode
  if op = 0x100 ∨ op = 0x101 then c.w 3
  else if op = 0x102 then Nat.max (fmtBytes (c.f 8 7 0) (c.w 3)) (fmtBytes (c.f 8 15 8) (c.w 3))
  else if op = 0x202 then (c.w 4 + 1) * c.w 3 * redBytes c
  else if op = 0x200 then
    let g := gemvOf c; g.streamBytes + g.rows * g.ps 0
  else if op = 0x011 then
    64 * ((flushWb s c.ctx (c.addr 4 % 2 ^ 40) (256 * c.w 3)).length + (flushStage s c.ctx (c.addr 4 % 2 ^ 40) (256 * c.w 3)).length)
  else 0

/-- F of R231 over a list of slices. -/
def gemvF (s : State) (ns : List Nat) : Nat :=
  if ns.length ≤ 1 then 0
  else
    let h := (ns.flatMap fun a => ns.map fun b => hops (stopOf s a) (stopOf s b)).foldl Nat.max 0
    let r := (ns.map (regSlices s)).foldl Nat.max 0
    (if ns.any fun n => (sliceOf s n).spare.isSome then 4 else 2) + 2 * h + ceilDiv r 2

/-- L_path of a command's requests (R269, R231, R316, R243), over the slices of its ranges. -/
def cmdPath (s : State) (c : Cmd) (x : Ctx) : Nat :=
  let home := qHome c.queue
  let far (r : Rng) : Nat := ((r.slices s x).map (lPath s r.st home)).foldl Nat.max 0
  let rs := cmdRanges c
  let op := c.opcode
  if op = 0x100 ∨ op = 0x101 then 16 + (rs.map far).foldl (· + ·) 0
  else if op = 0x102 then 24 + (rs.map far).foldl (· + ·) 0
  else if op = 0x202 then ((rs.map fun r => ((r.slices s x).map (lPath s .p home)).foldl Nat.max 0)).foldl Nat.max 0
  else if op = 0x200 then
    let g := gemvOf c
    let ns := ([home] ++ (g.nmus s x).map (·.1) ++ rs.flatMap (Rng.slices s x)).eraseDups
    3 * gemvF s ns + 94 + ceilDiv (g.stripeK 0 * g.ncol * g.abytes) 512 + ceilDiv ((ns.map (g.ysBytes s x)).foldl Nat.max 0) 512
  else if op = 0x011 then 16 + ((flushCover s c x).map fun e => lPath s e.1.store home e.1.slice).foldl Nat.max 0
  else match counterOf s c.ctx (c.f 3 15 0) with
    | some ph => 16 + lPath s .a home (counterHome ph)
    | none => 0

/-- The group sets a command uses, with the slices it uses each on (R249, R268, R528). -/
def cmdSets (s : State) (c : Cmd) (x : Ctx) : List SetUse :=
  let use (r : Rng) : SetUse :=
    { set := r.gset x, w := setW r.st (r.pocket x).set, s := pocketS (ctxSpan s x) (r.pocket x), slices := r.slices s x }
  if c.opcode = 0x200 then
    let ms := (gemvOf c).nmus s x
    let tier (t : Nat) : SetUse :=
      { set := { store := .w, set := t, acc := false }, w := setW .w t, s := 0, slices := (ms.filter fun e => e.2 == t).map (·.1) }
    (ms.map (·.2)).eraseDups.map tier ++ (cmdRanges c).map use
  else if c.opcode = 0x011 then
    let cov := flushCover s c x
    (cmdRanges c).flatMap fun r => [false, true].filterMap fun acc =>
      let ns := ((cov.filter fun e => e.2 == acc).map fun e => e.1.slice).eraseDups
      if ns.isEmpty then none else some { use r with set := { r.gset x with acc := acc }, slices := ns }
  else (cmdRanges c).map use

/-- The bytes of a command's external operands, at its partition's outer port (R278). -/
def extWorks (x : Ctx) (rs : List Rng) : List (Nat × GSet × Nat × Nat) :=
  (rs.filter Rng.ext).map fun r => (outerSlice x.part, { store := .p, set := 0, acc := false }, r.bytes, 0)

/-- The bytes that bank groups and outer ports have to move for an admitted command (R249, R263): slice, group set, bytes, and what of
them stands in its contract's backlog. A command that reads one set and writes another owes what it writes (R265); CONVERT_COPY the
larger of the two, REDUCE_ACC both (07 R243), GEMV one NMU's stream with its retry (07 R231). -/
def cmdMoves (s : State) (c : Cmd) (x : Ctx) : List (Nat × GSet × Nat × Nat) :=
  let op := c.opcode
  let of (owe : Bool) (r : Rng) : List (Nat × GSet × Nat × Nat) :=
    (r.parts s x).map fun (n, b) => (n, r.gset x, b, if owe then b else 0)
  let rs := cmdRanges c
  let ext := extWorks x rs
  if op = 0x102 then
    let most := (rs.map Rng.bytes).foldl Nat.max 0
    let owes := (rs.find? fun r => r.bytes == most).map fun r => r.wr
    (rs.flatMap fun r => of (owes == some r.wr) r) ++ ext
  else if op = 0x202 then rs.flatMap (of true)
  else if op = 0x200 then
    let g := gemvOf c
    ((g.nmus s x).zipIdx.map fun (e, i) =>
      (e.1, { store := .w, set := e.2, acc := false }, g.streamBytes, if i = 0 then g.streamBytes + g.rows * g.ps 0 else 0)) ++ rs.flatMap (of false)
  else if op = 0x011 then
    (flushStage s c.ctx (c.addr 4 % 2 ^ 40) (256 * c.w 3)).flatMap fun e => match stagePlace s x e.2, rs with
      | some p, r :: _ => [(p.slice, { r.gset x with acc := false }, 64, 64)]
      | _, _ => []
  else (rs.flatMap fun r => of r.wr r) ++ ext

/-- The requester of a command's bytes on a slice (R277): the command unit at home, the NMUs for a GEMV's weights, else the mesh port. -/
def cmdReqr (c : Cmd) (n : Nat) : Nat := if n = qHome c.queue then 14 else 10

/-- The stripe rule of R231 on every NMU of a G-class GEMV, with its full streams and GONLY (R220 step 8). -/
def gemvG (s : State) (x : Ctx) (g : GemvP) (owner : Nat) : Bool :=
  let sx := g.slog s x
  decide (g.np * 2 ^ sx * g.rows = g.n) && (g.nmus s x).all fun e =>
    let t := (sliceOf s e.1).weave; let gs : GSet := { store := .w, set := e.2, acc := false }
    let gm := (gapsOf (wFL t) (servedAt t owner gs)).foldl Nat.min 4096
    nmuGonly s e && (decide (g.stripes ≤ 1) ||
      decide (ceilDiv (g.stripeK 0 * g.ncol * g.abytes) 512 ≤ gm * (g.rows * g.ps 0 / Nat.max 1 (ownerQ owner gs))))

/-- The most entries that a flush covers on one slice (R280). -/
def flushMost (s : State) (c : Cmd) (x : Ctx) : Nat :=
  let ns := (flushCover s c x).map fun e => e.1.slice
  (ns.eraseDups.map fun n => (ns.filter (· == n)).length).foldl Nat.max 0

/-- What step 6 of R137 refuses a G-class packet for (R64, R168, R220, R280, R316, R381, R528). -/
def gRefused (s : State) (c : Cmd) (x : Ctx) (k : Contract) : Bool :=
  let op := c.opcode
  let wpart := (cmdRanges c).any fun r => r.wr && !r.ext && decide (r.st = .w) && r.segs.any fun (o, n) => decide (n ≠ 0 ∧ (o % 32 ≠ 0 ∨ (o + n) % 32 ≠ 0))
  ((cmdRanges c).any fun r => r.ext) || wpart || decide (op = 0x201 ∨ op = 0x601 ∨ op = 0x602) ||
    (decide (op = 0x300) && c.bit 2 29) || (decide (op = 0x011) && decide (32 < flushMost s c x)) ||
    (decide (op = 0x200) && !gemvG s x (gemvOf c) k.owner) ||
    !(cmdSets s c x).all fun e => ownerServes s k.owner [e.set] e.slices

/-- The bound of an admitted G-class command with n_b bytes (R268, R231). -/
def cmdBound (s : State) (c : Cmd) (x : Ctx) (k : Contract) (nb : Nat) : Nat :=
  let l := cmdPath s c x
  if c.opcode = 0x300 then l
  else if c.opcode = 0x200 then
    (((gemvOf c).nmus s x).map fun e =>
      boundOn (sliceOf s e.1).weave k.owner [{ store := .w, set := e.2, acc := false }] l nb).foldl Nat.max 0
  else useBound s k.owner (cmdSets s c x) l nb

/-- Does a GEMV wait for its NMUs (R210)? Another GEMV runs on one of them, GONLY is of the other class, or a slice already
runs a G-class GEMV. -/
def nmuWait (s : State) (c : Cmd) (x : Ctx) (g : Bool) : Bool :=
  let mine := (gemvOf c).nmus s x
  let running := s.cmds.filter fun d => d.phase == .admitted && d.opcode == 0x200 && d.id != c.id
  let theirs (d : Cmd) : List (Nat × Nat) := match ctxOf s d.ctx with
    | some y => (gemvOf d).nmus s y
    | none => []
  (mine.any fun e => nmuGonly s e != g) || (running.any fun d => (theirs d).any fun e => mine.contains e) ||
    (g && running.any fun d => d.gcls && (theirs d).any fun e => mine.any fun m => m.1 == e.1)

/-- The ranges of a command as core order compares them (09 R295): its operands, the destination of TELEMETRY_READ and LOG_READ, the range
of SCRUB_RANGE. External ones stand at their absolute addresses; store ranges are those of the command's context. -/
def coreRanges (s : State) (c : Cmd) : List Rng :=
  let base := (ctxOf s c.ctx).elim 0 Ctx.extBase
  let dest (n : Nat) : List Rng :=
    let a := c.addr 4
    [{ ext := !bitOf a 63, st := .a, pk := pocketNoOf a, segs := [(if bitOf a 63 then offsetOf a else bitsOf a 51 0, n)], rd := false, wr := true,
       acc := false }]
  let op := c.opcode
  if op = 0x510 then dest 256
  else if op = 0x710 then dest (32 * (if c.f 2 31 28 = 2 then 8 else c.f 2 10 0))
  else if op = 0x700 ∧ c.f 2 31 28 = 2 then (opndStore (c.addr 4) (256 * c.w 3) true true).toList
  else (cmdRanges c).map fun r => if r.ext then { r with segs := r.segs.map fun e => (base + e.1, e.2) } else r

/-- Does a packet wait for earlier commands of its queue under core order (09 R295)? -/
def coreWait (s : State) (c : Cmd) : Bool :=
  decide (c.gen = 1) && s.cmds.any fun d => d.queue == c.queue && d.id != c.id && d.phase != .replied && d.phase != .held &&
    (decide (d.opcode = 0x301) || (coreRanges s c).any fun a => (coreRanges s d).any fun b =>
      a.meets b && (a.wr || b.wr) && (a.ext || decide (d.ctx = c.ctx)))

/-- Would a WAIT or LOCK_ACQUIRE begin to wait now, and find no waiter entry (10 R322)? -/
def waiterFull (s : State) (c : Cmd) : Bool :=
  if c.opcode = 0x301 then
    match counterOf s c.ctx (c.f 3 15 0) with
    | some ph => !(getCounter s ph).fault && !condHolds (c.f 2 31 30) (c.w 4) (getCounter s ph) && !waiterRoom s (counterHome ph) c.ctx c.id
    | none => false
  else if c.opcode = 0x302 then
    match lockOf s c.ctx (c.f 3 11 0) with
    | some ph => (getLock s ph).holder.isSome && !c.bit 2 31 && !waiterRoom s (lockHome ph) c.ctx c.id
    | none => false
  else false

/-- Does a packet name a pocket whose POCKET_SET is pending, so that it is held for the new descriptor (02 R48)? -/
def pocketHeld (s : State) (c : Cmd) : Bool :=
  (weightRanges c ++ cmdRanges c).any fun r => !r.ext && pocketPending s c.ctx r.st r.pk

/-- What becomes of a fetched packet that has passed steps 1 to 4. -/
inductive Adm where
  | refuse (st : Status) (result : Nat)
  | hold (spilled : Bool)
  | accept (g : Option (Contract × Nat × Nat)) (susp : Bool)
  deriving DecidableEq, Repr

/-- What becomes of a G-class packet that step 6 of R137 has passed: it waits for its NMUs, tokens or backlog room, or is
admitted (R210, R264, R265). -/
def gAdmission (s : State) (c : Cmd) (x : Ctx) (kc : Contract) : Adm :=
  if c.opcode = 0x200 ∧ nmuWait s c x true then .hold false
  else if kc.suspended then .accept none true
  else
    let backlog := backlogNow (railBlocks s) s kc.owner
    match gTests kc backlog (cmdBytes s c) with
    | some _ => .hold false
    | none => .accept (some (kc, cmdBytes s c, cmdBound s c x kc (backlog + cmdBytes s c))) false

/-- Step 6 of R137 of a class D packet, and the waits before admission (R46, 02 R48, 08 R280, 09 R295), whose place is behind it. The 32
entries that a G-class flush may have on a slice are counted when its hold ends (08 R280). DESIGN CHOICE (log entry 99): a packet with
CLASS = 1 and EXT = 1 (R168) that also fails a check of its operands in B class takes that check's status. -/
def dataAdmission (s : State) (c : Cmd) (x : Ctx) (k : Option Contract) : Adm :=
  if x.state = .faulted then .refuse x.fault 0
  else if pocketHeld s c then .hold false
  else match dataCheck s c x with
    | .fail st r => .refuse st r
    | pre =>
      let flushed := decide (c.opcode = 0x011) && (ctxSpan s x).slices.any (flushHeld s)
      match (if c.gbit then k else none) with
      | some kc =>
        if flushed ∧ !kc.suspended then .hold false
        else if gRefused s c x kc then .refuse .rejectedContract 0
        else if pre = .spilled then .hold true
        else if coreWait s c then .hold false
        else gAdmission s c x kc
      | none =>
        if pre = .spilled then .hold true
        else if coreWait s c ∨ (c.opcode = 0x200 ∧ nmuWait s c x false) then .hold false
        else .accept none false

/-- Steps 5 and 6 of R137 and the waits before admission (R46, R210, R264, R265, R280, R295, R322). -/
def admission (s : State) (c : Cmd) : Adm :=
  match opInfo c.opcode with
  | none => .refuse .decodeError 0
  | some i =>
    let k := contractOf s 0 c.queue
    let step5 := !c.gbit || (decide (i.cls = 1) && (match k with
      | some x => !qPriv c.queue || decide (x.ctx = c.ctx)
      | none => false))
    if !step5 then .refuse .rejectedContract 0
    else if c.opcode = 0x002 then
      if cmdAddrOk (c.gen ≠ 1 ∧ !qPriv c.queue) 64 (c.addr 2) then (if coreWait s c then .hold false else .accept none false)
      else .refuse .decodeError 0
    else if i.cls ≠ 1 then if destSpilled s c then .hold true else if coreWait s c ∨ waiterFull s c then .hold false else .accept none false
    else match ctxOf s c.ctx with
      | none => .refuse .boundViolation 0
      | some x => dataAdmission s c x k

/-- The operand addresses of a command whose region its first check meets (06 R166). -/
def opndAddrs (c : Cmd) : List Nat :=
  let op := c.opcode
  if op = 0x100 ∨ op = 0x011 ∨ op = 0x601 ∨ op = 0x701 ∨ (op = 0x700 ∧ c.f 2 31 28 = 2) then [c.addr 4]
  else if op = 0x101 ∨ op = 0x102 then [c.addr 4, c.addr 6]
  else if op = 0x602 then [c.addr 6]
  else []

/-- The address that R45 logs for a refused command: that of the first store range that fails R44; for one that no context is found
for, or that a REMOTE_READ names, its operand's. -/
def r44Addr (s : State) (c : Cmd) : Nat :=
  match (ctxOf s c.ctx).bind fun x => (weightRanges c ++ cmdRanges c).find? fun r => !r.ext && (match rngCheck s x r with
      | .fail _ _ => true
      | _ => false) with
  | some r => pocketAddr r.st r.pk ((r.segs.headD (0, 0)).1)
  | none => c.addr 4 % 2 ^ 40

/-- Does R167, and no step of R44, refuse the command: a range beyond its external window? -/
def extRefused (s : State) (c : Cmd) : Bool :=
  match ctxOf s c.ctx with
  | some x => (cmdRanges c).any (fun r => r.ext && rngCheck s x r != .ok) &&
      (weightRanges c ++ cmdRanges c).all fun r => r.ext || (match rngCheck s x r with
        | .fail _ _ => false
        | _ => true)
  | none => false

/-- Log a check of R44 that a command fails at steps 7 to 11 (02 R45). -/
def logCheck (c : Cmd) (st : Status) (a : Nat) (s : State) : State :=
  if st = .boundViolation then report st 2 (qHome c.queue) 0 (.queue c.queue) (c.ctx % 2048) a s else s

/-- Log step 5 of R44, which a command's address in a region that holds no store fails (02 R45). -/
def logRegion (c : Cmd) (st : Status) (a : Nat) (s : State) : State :=
  if st = .decodeError ∧ (storeOf (regionOf a)).isNone ∧ (regionOf a ≤ 4 ∨ regionOf a = 8) then
    report st 2 (qHome c.queue) 0 (.queue c.queue) (c.ctx % 2048) (a % 2 ^ 40) s
  else s

/-- A command ends since its destination fails a check of R44 (02 R45; 05 R123). -/
def destRefuse (c : Cmd) (st : Status) (a : Nat) (s : State) : State :=
  cmdRefuse c.id st 0 (logCheck c st (a % 2 ^ 40) (if bitOf a 63 then logRegion c st a s else s))

/-- Log a refused packet where the manual asks: a failed check of R44, which step 5 is for an operand in a region that holds no store
(02 R45), and every ECC_TEST_WRITE (06 R200). -/
def logRefused (c : Cmd) (st : Status) (s : State) : State :=
  let who := Who.queue c.queue
  let s1 := if extRefused s c then s else logCheck c st (r44Addr s c) s
  let s2 := match (opndAddrs c).find? fun a => !bitOf a 63 && (storeOf (regionOf a)).isNone with
    | some a => logRegion c st a s1
    | none => s1
  if c.opcode = 0x701 then report st 2 (qHome c.queue) 0 who (c.ctx % 2048) (c.addr 4) s2 else s2

/-- RESULT of a packet that R137 refuses: CAP_SET returns the floor in every reply (06 R192). -/
def refusedResult (s : State) (c : Cmd) (result : Nat) : Nat := if c.opcode = 0x501 then floorNow s else result

/-- A refused packet: its status is final, and only its reply follows (R137): it is admitted for that, and ELAPSED counts from now. A refused
G-class packet is counted. -/
def refusePkt (c : Cmd) (st : Status) (result : Nat) (s : State) : State :=
  let s1 := logRefused c st s
  let s2 := if c.gbit ∧ st = .rejectedContract then teleAdd c.ctx 26 1 (gTele 4 1 s1) else s1
  cmdRefuse c.id st (refusedResult s c result) (modCmd c.id (fun x => { x with admitB := s.bcnt }) s2)

/-- Commands a FENCE waits for (R181): those admitted before it in its scope that have not written their reply. A HEM and a failed fetch
are no command. -/
def fenceScope (s : State) (c : Cmd) : List Nat :=
  (s.cmds.filter fun d => d.id != c.id && d.phase != .replied && d.phase != .held && !d.isHem && !d.isFetch &&
    (d.queue == c.queue || (c.bit 2 0 && decide (qHome d.queue = qHome c.queue) &&
      (if qPriv c.queue then qPriv d.queue else !qPriv d.queue && decide (d.ctx = c.ctx))))).map Cmd.id

/-- An admitted FLUSH_RANGE covers the entries it finds (R180, 08 R280): the write-back entries are marked with it; the staging entries are
the list it keeps. Its slices admit no other G-class flush. -/
def flushAdmit (c : Cmd) (x : Ctx) (g : Bool) (s : State) : State :=
  let base := c.addr 4 % 2 ^ 40; let len := 256 * c.w 3
  let ids := (flushWb s c.ctx base len).map WbEntry.id
  let mark (e : WbEntry) : WbEntry := { e with flushes := e.flushes ++ [.cmd c.id] }
  let s1 : State := { s with wb := updWhere (fun e => ids.contains e.id) mark s.wb }
  let s2 := modCmd c.id (fun y => { y with after := (flushStage s c.ctx base len).map fun e => e.2.id }) s1
  if !g then s2
  else
    let ns := (((flushWb s c.ctx base len).map WbEntry.home) ++ (flushCover s c x).map fun e => e.1.slice).eraseDups
    let s3 := ns.foldl (fun t n => modSlice n (fun r => { r with gflush := c.id :: r.gflush }) t) s2
    gMoved 0 c.queue (64 * servedOf s3 ids) s3

/-- Admit a packet (R154): tokens and backlog are taken, its bound stands, its bytes wait to move, and CHAIN moves past it. -/
def admitPkt (c : Cmd) (g : Option (Contract × Nat × Nat)) (susp : Bool) (s : State) : State :=
  let s1 := match g with
    | some (k, n, _) => teleAdd c.ctx 24 1 (gTele 2 1 (gTake k n s))
    | none => if susp then gTele 14 1 s else s
  let fence := if c.opcode = 0x010 then fenceScope s c else []
  let s2 := modCmd c.id (fun x =>
    { x with phase := .admitted, admitB := s.bcnt, gcls := g.isSome, suspended := susp, bound := g.map (·.2.2), after := fence }) s1
  match ctxOf s c.ctx with
  | some x =>
    let s3 := if c.opcode = 0x011 then flushAdmit c x g.isSome s2 else s2
    if (opInfo c.opcode).elim false fun i => i.cls == 1 then
      addWorks c.id c.id (g.map (·.1)) 0 c.queue 0 (cmdReqr c) (cmdMoves s c x) s3
    else s3
  | none => s2

/-- Advance CHAIN past a packet of this size. -/
def advanceChain (q size : Nat) (s : State) : State := modQueue q (fun r => { r with chain := r.chain + size }) s

/-- Stop a queue (R155). -/
def stopQueue (q : Nat) (s : State) : State := modQueue q (fun r => { r with qstate := .stopped }) s

/-! Arbitration (R140) -/

/-- The class of a queue that is ready to admit (R140): 0 with a G-class packet of a bound contract, 1 privileged, 2 any other. -/
def turnClass (c : Cmd) : Nat := if c.gbit then 0 else if qPriv c.queue then 1 else 2

/-- May the queue of a packet admit: RUNNING, not being disabled, its context not suspended (R124, R159, 13 R395)? -/
def queueAdmits (s : State) (c : Cmd) : Bool :=
  match queueOf s c.queue with
  | some r => r.qstate == .running && !r.disabling && (qPriv c.queue || ctxActive s (dCtx r.words))
  | none => false

/-- The packets of a slice that could be admitted or refused now, the held ones and `c`. -/
def readyPkts (s : State) (c : Cmd) : List Cmd :=
  s.cmds.filter fun d => d.phase == .held && decide (qHome d.queue = qHome c.queue) && (d.id == c.id || queueAdmits s d) &&
    (match admission s d with
      | .hold _ => false
      | _ => true)

/-- How far a queue stands behind the one of its class that was admitted last. -/
def turnBehind (s : State) (c : Cmd) : Nat :=
  (c.queue + 2 ^ 19 - 1 - mget (fun _ => 0) (qctlOf s (qHome c.queue)).turns (turnClass c)) % 2 ^ 19

/-- Does the command unit choose packet `d` before `c` (R140)? -/
def beforePkt (s : State) (d c : Cmd) : Bool :=
  decide (turnClass d < turnClass c) || (decide (turnClass d = turnClass c) && decide (turnBehind s d < turnBehind s c))

/-- Is it packet `c` that the command unit of its slice chooses among those ready (R140)? -/
def chosen (s : State) (c : Cmd) : Bool := !(readyPkts s c).any fun d => beforePkt s d c

/-- Note whose turn it was. -/
def tookTurn (c : Cmd) (s : State) : State :=
  modQctl (qHome c.queue) (fun r => { r with turns := mput (fun _ => 0) r.turns (turnClass c) c.queue }) s

/-- Decide a packet that has passed steps 1 to 4, where it is the one that the command unit chooses. -/
def decidePkt (c : Cmd) (s0 : State) : State :=
  let size := if c.bit 0 19 then 128 else 64
  if !chosen s0 c then s0
  else
  let s := tookTurn c s0
  match admission s0 c with
  | .refuse st r =>
    let s1 := refusePkt c st r s
    if c.opcode = 0x002 then stopQueue c.queue s1 else advanceChain c.queue size s1
  | .hold sp => modCmd c.id (fun x => { x with phase := .held, delayed := x.delayed || sp }) s0
  | .accept g susp => advanceChain c.queue size (admitPkt c g susp s)

/-! Slot fetch -/

/-- A new command record. DESIGN CHOICE (log entry 100): ELAPSED of a HEM's reply and of a failed fetch's counts from the fetch, since
neither is ever admitted (R134, R141, R155). -/
def newCmd (id q : Nat) (r : QueueRec) (ctx : Nat) (ws : List Word) (b : Nat) : Cmd :=
  { id := id, queue := q, gen := dGen r.words, ctx := ctx, words := ws, paddr := r.chain, phase := .held, status := .ok,
    count := 0, result := 0, admitB := b, elapsed := 0, gcls := false, suspended := false, bound := none, rail := false,
    delayed := false, after := [], isFetch := false, isHem := false, irqSel := false }

/-- May a queue fetch a packet now (R124, R138, R139, R181, R394)? -/
def fetchReady (s : State) (q : Nat) (r : QueueRec) : Bool :=
  let own := s.cmds.filter fun c => c.queue == q && c.phase != .replied
  cmdsRun s && slcRuns s (qHome q) && qEnabledBit s q && decide (r.qstate = .running) && !r.disabling &&
    (qPriv q || ctxActive s (dCtx r.words)) &&
    !(own.any fun c => decide (c.phase = .held) || (decide (c.phase = .admitted) && decide (c.opcode = 0x002 ∨ c.opcode = 0x010))) &&
    decide (own.length < 16) && decide ((r.rprod + own.length + 65536 - r.rcons) % 65536 < dEntries r.words) && !(sliceOf s (qHome q)).failedCu

/-- The slot at CHAIN could not be read (R155): the queue stops, with a reply that has FETCH = 1. A check of R44 that CHAIN fails is logged
(02 R45). -/
def fetchFailed (q : Nat) (r : QueueRec) (st : Status) (s : State) : State :=
  let (id, s1) := freshId s
  let c := { newCmd id q r 2048 [] s.bcnt with phase := .done, status := st, isFetch := true }
  stopQueue q (logCheck { c with ctx := dCtx r.words } st (r.chain % 2 ^ 40) { s1 with cmds := s1.cmds ++ [c] })

/-- The slot at CHAIN holds a HEM (R156): the queue parks, with one reply for each time it parks there. -/
def parkAt (q : Nat) (r : QueueRec) (ws : List Word) (s : State) : State :=
  let s1 := modQueue q (fun x => { x with qstate := .parked, hemSaid := true }) s
  if r.hemSaid then s1
  else
    let (id, s2) := freshId s1
    let c := { newCmd id q r (if qPriv q then 2048 else dCtx r.words) ws s.bcnt with phase := .done, isHem := true }
    { s2 with cmds := s2.cmds ++ [c] }

/-- A packet has been read (R137). -/
def takePacket (q : Nat) (r : QueueRec) (ws : List Word) (s : State) : State :=
  let op := fld (wordAt ws 0) 31 20
  let (id, s1) := freshId s
  let c := newCmd id q r (pktCtx q r (opInfo op) ws) ws s.bcnt
  let s2 := modQueue q (fun x => { x with hemSaid := false }) { s1 with cmds := s1.cmds ++ [c] }
  let st := headerCheck (qPriv q) (dGen r.words) ws
  if st ≠ .ok then stopQueue q (refusePkt c st 0 s2)
  else match opInfo op with
    | some i =>
      if paramsReserved (qPriv q) (dGen r.words) op i ws then
        let s3 := refusePkt c .reservedNonzero 0 s2
        if op = 0x002 then stopQueue q s3 else advanceChain q (if i.big then 128 else 64) s3
      else decidePkt c s2
    | none => s2

/-- Fetch the slot at CHAIN. RUNG is cleared before the read is issued (R154); the fetch and the decision on it are one
step, so no doorbell falls between them (log entry 14). -/
def fetchSlot (q : Nat) (r : QueueRec) (s : State) : State :=
  let s0 := useQueue q (modQueue q (fun x => { x with rung := false }) s)
  match cmdRead s0 (.queue q) (dCtx r.words) r.chain 64 with
  | (none, _, _) => s0
  | (some .ok, bs, s1) =>
    let w0 := wordsOfBytes 16 bs
    if fld (wordAt w0 0) 31 20 = 1 ∧ fld (wordAt w0 0) 19 0 = 0 then parkAt q r w0 s1
    else if flag (wordAt w0 0) 19 ∧ headerCheck (qPriv q) (dGen r.words) w0 = .ok then
      match cmdRead s1 (.queue q) (dCtx r.words) (r.chain + 64) 64 with
      | (none, _, _) => s1
      | (some .ok, bs2, s2) => takePacket q r (w0 ++ wordsOfBytes 16 bs2) s2
      | (some st, _, s2) => fetchFailed q r st s2
    else takePacket q r w0 s1
  | (some st, _, s1) => fetchFailed q r st s1

/-- SLOT_FETCH (R137 to R140, R154 to R156): a queue that may fetch reads the packet at CHAIN, checks it and admits it,
holds it before admission or refuses it; a HEM parks the queue; a failed fetch stops it. -/
def execSlotFetch (q : Nat) (s : State) : Res :=
  match queueOf s q with
  | some r =>
    if fetchReady s q r ∧ !cmdReadWaits s (dCtx r.words) r.chain 128 then .next (whenAwake (cmdAddrSlices s (dCtx r.words) r.chain 128) 7 q s (fetchSlot q r))
    else .next s
  | none => .next s

/-- HELD_PACKET_ADMIT (R137, R266): a held packet is decided again. -/
def execHeldPacketAdmit (cmd : Nat) (s : State) : Res :=
  match cmdOf s cmd with
  | some c =>
    if c.phase = .held ∧ cmdsRun s ∧ slcRuns s (qHome c.queue) ∧ queueAdmits s c then .next (decidePkt c s) else .next s
  | none => .next s

/-! Queue-control commands -/

/-- NOP (R133): completes OK, without effect. -/
def execNop (cmd : Nat) (s : State) : Res :=
  match admittedAs s cmd 0x000 with
  | some _ => .next (cmdDone cmd .ok 0 0 s)
  | none => .next s

/-- LINK (R135): CHAIN is set to TARGET. -/
def execLink (cmd : Nat) (s : State) : Res :=
  match admittedAs s cmd 0x002 with
  | some c => .next (cmdDone cmd .ok 0 0 (modQueue c.queue (fun r => { r with chain := c.addr 2 }) s))
  | none => .next s

/-- The capability words of R182. -/
def capWord (page word : Nat) : Nat :=
  let l : List (Nat × Nat × Nat) :=
    [(0, 0, 0x0400 + 0b0110 * 16 + 0b1110), (0, 1, Config.stepping.toNat * 65536 + 2560),
     (0, 2, 64 * 2 ^ 24 + 32 * 2 ^ 16 + 4 * 256 + 64), (0, 3, 4 * 2 ^ 24 + 64 * 2 ^ 16 + 2048), (0, 4, 512 * 2 ^ 16 + 8192),
     (1, 0, 2048), (1, 1, 384), (1, 2, 128), (1, 3, 16 * 2 ^ 24 + 32 * 2 ^ 16 + 16 * 256 + 16), (1, 4, 65536), (1, 5, 16384),
     (2, 0, 0x1F7F), (2, 1, 0x3F), (2, 2, 7), (3, 0, 14 * 2 ^ 24 + 18 * 2 ^ 16 + 2 * 256 + 4), (3, 1, 4096 * 65536 + 256), (3, 2, 4)]
  (l.find? fun e => e.1 == page && e.2.1 == word).elim 0 (·.2.2)

/-- QUERY_CAPS (R182). -/
def execQueryCaps (cmd : Nat) (s : State) : Res :=
  match admittedAs s cmd 0x003 with
  | some c =>
    if 4 ≤ c.f 2 11 4 then .next (cmdRefuse cmd .decodeError 0 s)
    else .next (cmdDone cmd .ok 0 (capWord (c.f 2 11 4) (c.f 2 3 0)) s)
  | none => .next s

/-- FENCE (R181): completes when every command it waits for has written its reply; until then it stays. -/
def execFence (cmd : Nat) (s : State) : Res :=
  match admittedAs s cmd 0x010 with
  | some c =>
    if c.after.any fun id => s.cmds.any fun d => d.id == id && d.phase != .replied then .next s
    else .next (cmdDone cmd .ok c.after.length 0 s)
  | none => .next s

/-! Replies (R141, R142, R145) -/

/-- Does IRQM select a reply of this status (R124)? -/
def irqSelects (irqm : Nat) (irq : Bool) (st : Status) : Bool :=
  if irqm = 0 then false else if irqm = 1 then true else if irqm = 2 then irq || decide (0x10 ≤ st.code) else decide (0x10 ≤ st.code)

/-- ELAPSED (R141). -/
def elapsedOf (s : State) (c : Cmd) : Nat := if c.gen = 1 then 0 else Nat.min (s.bcnt - c.admitB) (2 ^ 32 - 1)

/-- The eight words of a reply (R141). -/
def replyWords (r : QueueRec) (c : Cmd) (elapsed : Nat) : List Word :=
  let op := if c.isFetch then 0 else c.opcode
  let tag := if c.isFetch ∨ c.opcode = 1 then 0 else (wordAt c.words 1).toNat
  [BitVec.ofNat 32 (c.status.code * 2 ^ 24 + op * 4096 + b2n r.rphase * 2048 + c.gen * 512 + b2n c.isFetch * 256),
   BitVec.ofNat 32 tag, BitVec.ofNat 32 c.queue, BitVec.ofNat 32 c.paddr, BitVec.ofNat 32 c.count,
   BitVec.ofNat 32 (c.count / 2 ^ 32), BitVec.ofNat 32 c.result, BitVec.ofNat 32 elapsed]

/-- The record that a reply needs: the cached one, or that of the descriptor as it is fetched again (R161, R163). -/
def replyRec (s : State) (q : Nat) : QueueRec :=
  match queueOf s q with
  | some r => r
  | none => loadedRec s q (readDesc s q).2

/-- A queue that left the cache with commands in flight, and whose descriptor cannot be read again, is not loaded: the failure is logged, and
the command ends without a reply, whose address lies in the descriptor (R162). -/
def replyLost (c : Cmd) (s : State) : State :=
  let q := c.queue
  report (readDesc s q).1 2 (qHome q) 0 (.queue q) 0 (descAddr s q)
    (setDb q false { s with cmds := s.cmds.filter fun x => x.id != c.id })

/-- The miss monitor of a G-class command (08 R270 to R272). -/
def missCheckCmd (c : Cmd) (s : State) : State :=
  match c.bound with
  | some b =>
    if c.gcls ∧ !c.suspended ∧ c.status ≠ .unitFailed ∧ c.status ≠ .tainted ∧ b < s.bcnt - c.admitB then
      teleAdd c.ctx 28 1 (recordMiss (qHome c.queue) 2 0 (.queue c.queue) (c.ctx % 2048) c.paddr c.queue (s.bcnt - c.admitB - b) c.rail s)
    else s
  | none => s

/-- Did the command miss its bound? -/
def cmdMissed (s : State) (c : Cmd) : Bool :=
  match c.bound with
  | some b => c.gcls && !c.suspended && decide (c.status ≠ .unitFailed ∧ c.status ≠ .tainted ∧ b < s.bcnt - c.admitB)
  | none => false

/-- Write the reply of a command whose effects are complete (R141, R142): into slot RPROD mod entries with PHASE = RPHASE;
RPROD rises, and RPHASE inverts where the slot returns to 0. -/
def writeReply (c : Cmd) (s : State) : State :=
  let q := c.queue
  let r := replyRec s q
  let n := dEntries r.words
  let slot := dRbase r.words + 32 * (r.rprod % n)
  let (st, s1) := cmdWrite (.queue q) (dCtx r.words) slot (bytesOfWords (replyWords r c (elapsedOf s c))) s
  let s2 := if st = .ok ∨ st = .okCorrected then s1 else report st 2 (qHome q) 0 (.queue q) (c.ctx % 2048) slot s1
  let prod := (r.rprod + 1) % 65536
  let s3 := putQueue q { r with rprod := prod, rphase := if prod % n = 0 then !r.rphase else r.rphase } s2
  let sel := irqSelects (dIrqm r.words) (!c.isFetch && !c.isHem && c.bit 0 17) c.status || (cmdMissed s c && decide (dIrqm r.words ≠ 0))
  let s4 := modCmd c.id (fun x => { x with phase := .replied, elapsed := elapsedOf s c, irqSel := sel }) s3
  let s5 := missCheckCmd c s4
  let s6 := if c.isFetch ∨ c.isHem then s5 else teleAdd c.ctx 22 1 s5
  if c.status = .okRetried then teleAdd c.ctx 32 1 s6 else s6

/-- COMMAND_COMPLETE (R142): the reply of a command whose effects are complete is written; bytes still to move are not. A suspended
context's replies wait for its activation (13 R395). -/
def execCommandComplete (cmd : Nat) (s : State) : Res :=
  match cmdOf s cmd with
  | some c =>
    let r := replyRec s c.queue
    let susp := !qPriv c.queue && (match ctxOf s (dCtx r.words) with
      | some x => x.state == .suspended
      | none => false)
    let room := (queueOf s c.queue).isSome || qPriv c.queue || (makeRoom (qHome c.queue) s).1
    if c.phase = .done ∧ !susp ∧ cmdsRun s ∧ !worksLeft s cmd ∧ (queueOf s c.queue).isNone ∧ (readDesc s c.queue).1 ≠ .ok then
      .next (replyLost c s)
    else if c.phase = .done ∧ !susp ∧ room ∧ cmdsRun s ∧ !worksLeft s cmd then
      let s0 := if (queueOf s c.queue).isSome ∨ qPriv c.queue then s else (makeRoom (qHome c.queue) s).2
      .next (whenAwake (qHome c.queue :: cmdAddrSlices s (dCtx r.words) (dRbase r.words) 32) 7 c.queue s0 (writeReply c))
    else .next s
  | none => .next s

/-- The interrupt requests of a queue. -/
def qirqOf (s : State) (q : Nat) : QIrq := mget (fun _ => QIrq.zero) s.qirq q

/-- Note them. -/
def putQirq (q : Nat) (i : QIrq) (s : State) : State := { s with qirq := mput (fun _ => QIrq.zero) s.qirq q i }

/-- Send the queue's interrupt request, or owe it to the end of the gap (R145). -/
def queueIrq (q : Nat) (r : QueueRec) (s : State) : State :=
  let i := qirqOf s q
  let fn := fld (wordAt r.words 1) 31 24; let vec := fld (wordAt r.words 1) 23 13
  let due := i.last.elim 0 fun t => t + dGap r.words * 100
  if due ≤ s.rc then emit (.msix fn vec q) (putQirq q { last := some s.rc, owed := none } s)
  else putQirq q { i with owed := some (fn, vec, due) } s

/-- The CNT_EN action of a queue (R145, 10 R317, R318). -/
def cntEnable (q : Nat) (s : State) : State :=
  match queueOf s q with
  | some r =>
    if qPriv q ∨ !flag (wordAt r.words 1) 12 then s
    else match counterOf s (dCtx r.words) (fld (wordAt r.words 2) 31 16) with
      | some ph =>
        (signalCounter ph .add 1 { lastsig := lastsigCntEn q, who := .queue q, src := 2, unit := 0 }
          (touch (counterHome ph) 9 (ph % 4096) s).2).2.2
      | none => s
  | none => s

/-- REPLY_WRITE_ACKNOWLEDGED (R145): the reply is in place; the interrupt and the counter follow, and the command is
over. -/
def execReplyWriteAcknowledged (cmd : Nat) (s : State) : Res :=
  match cmdOf s cmd with
  | some c =>
    if c.phase = .replied then
      let s0 := if (queueOf s c.queue).isSome then s else putQueue c.queue (replyRec s c.queue) (makeRoom (qHome c.queue) s).2
      let s1 := { s0 with cmds := s0.cmds.filter fun x => x.id != cmd }
      .next (cntEnable c.queue (if c.irqSel then queueIrq c.queue (replyRec s c.queue) s1 else s1))
    else .next s
  | none => .next s

/-- IRQ_GAP_EXPIRY (R145): the replies selected within the gap are covered by one request at its end. -/
def execIrqGapExpiry (q : Nat) (s : State) : Res :=
  match (qirqOf s q).owed with
  | some (fn, vec, due) =>
    let s1 := timeTo due s
    .next (emit (.msix fn vec q) (putQirq q { last := some s1.rc, owed := none } s1))
  | none => .next s

end Sys2Proof.Machine
end

