-- ==== Sys2Proof/Machine/Movers.lean ====
section
/-! DEFINITION. Machine/Movers.lean: mover channels, their instructions, staging, halts and stops (11 R334 to R358). -/
namespace Sys2Proof.Machine

/-! Channel registers (R335) -/

/-- The register number of a channel's register. -/
def chanReg (n m c off : Nat) : Nat := regNo n (0xC00 + m * 0x200 + c * 0x40 + off)

/-- MCH_CTL and its fields. -/
def chanCtl (s : State) (n m c : Nat) : Nat := regGet s 0 (chanReg n m c 0)
def chanBound (s : State) (n m c : Nat) : Bool := bitOf (chanCtl s n m c) 11
def chanCtx (s : State) (n m c : Nat) : Nat := chanCtl s n m c % 2048
def chanPriv (s : State) (n m c : Nat) : Bool := bitOf (chanCtl s n m c) 26

/-- An 8 B register of a channel. -/
def chanReg8 (s : State) (n m c off : Nat) : Nat := regGet s 0 (chanReg n m c off) + 2 ^ 32 * regGet s 0 (chanReg n m c (off + 4))

/-- Is this channel bound to context `x`? -/
def chanServes (s : State) (n m c ctx : Nat) : Bool := chanBound s n m c && decide (chanCtx s n m c = ctx)

/-- The channels of a span of slices. -/
def spanChans (sp : Span) : List (Nat × Nat × Nat) :=
  sp.slices.flatMap fun n => (List.range 2).flatMap fun m => (List.range 8).map fun c => (n, m, c)

/-- Is a SPILL of the channel under way, which runs to its end (R356)? -/
def Chan.spills (ch : Chan) : Bool := decide (ch.clear ≠ 0) || ch.spilling.isSome

/-- MCH_PC (R335): the instruction that contains the oldest unretired piece. -/
def Chan.pc (ch : Chan) : Nat :=
  match ch.ahead with
  | p :: _ => p.pc
  | [] => ch.ipc

/-- Source data read ahead, in units of 64 B (MCH_STAT.AHEAD). -/
def Chan.aheadUnits (ch : Chan) : Nat := (ch.ahead.map fun p => ceilDiv p.data.length 64).foldl (· + ·) 0

/-- Give up the read-ahead: the position, loop counters and offset registers are those of the oldest unretired piece
(R352, R357, R358). -/
def Chan.rewind (ch : Chan) : Chan :=
  match ch.ahead with
  | p :: _ => { ch with ahead := [], ipc := p.pc, row := p.row, byte := p.byte, lc := p.lc, ofs := p.ofs, checked := false }
  | [] => ch

/-! Failures -/

/-- A failure at address `addr`: the first one in program order stands (R352). -/
def oweHalt (n m c : Nat) (st : Status) (addr : Nat) (s : State) : State :=
  modChan n m c (fun ch => if ch.owedHalt.isSome then ch else { ch with owedHalt := some (st, addr) }) s

/-- What a channel gives up with its read-ahead leaves the backlog of its contract: the bytes of its pieces, and what its row had still to
read (08 R265). -/
def dropAhead (n m c : Nat) (s : State) : State :=
  let ch := chanOf s n m c
  let s1 := ch.ahead.foldl (fun t p => dropWorks p.id t) s
  if ch.owed = 0 then s1 else modChan n m c (fun x => { x with owed := 0 }) (gMoved 1 (n * 8192 + 12 + m) ch.owed s1)

/-- Remove the waiter of a channel without consuming. -/
def dropChanWaiter (n m c : Nat) (s : State) : State :=
  { s with sync := { s.sync with waiters := s.sync.waiters.filter fun w => w.by_ != .chan n m c } }

/-- A failure of the oldest unretired piece, or of one that has retired: later pieces are discarded, and a WAIT that the channel had gone on
to is given up. -/
def failNow (n m c : Nat) (st : Status) (addr : Nat) (s : State) : State :=
  modChan n m c (fun ch => { ch.rewind with owedHalt := some (st, addr), state := if ch.state = .waiting then .running else ch.state })
    (dropAhead n m c (dropChanWaiter n m c s))

/-! Staging (R350) -/

/-- The staging of a mover. -/
def stageOf (s : State) (n m : Nat) : List StageEntry := mget (fun _ => []) s.movers.stage (n * 2 + m)

/-- Replace it. -/
def setStage (n m : Nat) (l : List StageEntry) (s : State) : State :=
  { s with movers := { s.movers with stage := mput (fun _ => []) s.movers.stage (n * 2 + m) l } }

/-- Write a staging entry to its pocket; a merge that fails is its channel's failure (R352). `k` is slice × 2 + mover. -/
def drainStage (k : Nat) (e : StageEntry) (s : State) : Status × State :=
  let n := k / 2; let m := k % 2
  let s1 := setStage n m ((stageOf s n m).filter fun x => x.id != e.id) s
  match ctxOf s1 e.ctx, storeOf (regionOf e.base) with
  | some x, some st =>
    let p := x.pocket st (pocketNoOf e.base)
    let (s2a, w) := writeBytes { ctx := e.ctx, who := .nobody } (e.be.map fun (o, b) => ((locate (ctxSpan s1 x) st p (offsetOf e.base + o)).key, b, false)) s1
    let s2 := teleMove e.ctx (locate (ctxSpan s1 x) st p (offsetOf e.base)).key e.be.length true s2a
    (w.status, if w.status = .uncorrectable then failNow n m e.ch .uncorrectable e.base s2 else s2)
  | _, _ => (.ok, s1)

/-- Drain a list of entries, oldest first. -/
def drainList (k : Nat) (es : List StageEntry) (s : State) : State := es.foldl (fun t e => (drainStage k e t).2) s

/-- Drain every entry of a channel. -/
def drainChan (n m c : Nat) (s : State) : State :=
  drainList (n * 2 + m) ((stageOf s n m).filter fun e => e.ch == c) s

/-! Halts and stops -/

/-- Who a channel's signals come from (10 R332). -/
def moverSrc (n m c : Nat) : SigSrc := { lastsig := lastsigMover n m, who := .nobody, src := 6, unit := 8 * m + c }

/-- Halt a channel (R352): its read-ahead is discarded, its staging drained, the halt logged, HALTCNT's counter raised. -/
def haltChan (n m c : Nat) (st : Status) (addr : Nat) (s : State) : State :=
  let ctx := chanCtx s n m c
  let s1 := drainChan n m c (modChan n m c Chan.rewind (dropAhead n m c (dropChanWaiter n m c s)))
  let s2 := modChan n m c (fun ch => { ch with state := .halted, status := st, owedHalt := none, checked := false }) s1
  let s3 := report st 6 n (8 * m + c) .nobody ctx addr s2
  let h := regGet s 0 (chanReg n m c 0x30)
  if bitOf h 31 then
    match counterOf s3 ctx (h % 65536) with
    | some ph => (signalCounter ph .add 1 (moverSrc n m c) s3).2.2
    | none => s3
  else s3

/-- Drain a channel's staging: the first failure among its entries, oldest first, and the state. -/
def drainFirst (n m c : Nat) (s : State) : Option (Status × Nat) × State :=
  ((stageOf s n m).filter fun e => e.ch == c).foldl (fun (acc : Option (Status × Nat) × State) e =>
    let (st, t) := drainStage (n * 2 + m) e acc.2
    (if acc.1.isNone ∧ st = .uncorrectable then some (st, e.base) else acc.1, t)) (none, s)

/-- Halt a channel for a failure that is due: one that its staging meets as it drains is of an earlier piece, and stands instead (R352). -/
def haltFirst (n m c : Nat) (due : Status × Nat) (s : State) : State :=
  let (bad, s1) := drainFirst n m c s
  haltChan n m c (bad.getD due).1 (bad.getD due).2 s1

/-- A context's fault reaches a channel bound to it (R358, R356): it halts, a SPILL first running to its end. -/
def faultChan (st : Status) (s : State) (k : Nat × Nat × Nat) : State :=
  let (n, m, c) := k
  let ch := chanOf s n m c
  if ch.state = .running ∨ ch.state = .waiting then
    if ch.spills then modChan n m c (fun x => { x with owedHalt := some (st, x.ipc) }) s else haltChan n m c st ch.pc s
  else s

/-- Begin the STOP of a channel (R358 steps 1 to 3). -/
def beginStop (n m c : Nat) (save : Bool) (o : Origin) (s : State) : State :=
  let ch := chanOf s n m c
  if ch.state = .idle then s
  else if ch.state = .stopping then
    modChan n m c (fun x => { x with saving := x.saving && save, stopWait := x.stopWait ++ (if o = .none then [] else [o]) }) s
  else
    modChan n m c (fun x => { x.rewind with state := .stopping, saving := save, stopWait := if o = .none then [] else [o], owedHalt := none })
      (dropAhead n m c (dropChanWaiter n m c s))

/-! Instructions (R338) -/

/-- Fetch the instruction at a command address for context `ctx`; one that is not 32 B aligned has no instruction (log entry 113). -/
def fetchInstr (s : State) (ctx pc : Nat) : Status × List Word :=
  if pc % 32 ≠ 0 then (.decodeError, [])
  else match cmdRead s .nobody ctx pc 32 with
  | (some .ok, bs, _) => (.ok, wordsOfBytes 8 bs)
  | (some st, _, _) => (st, [])
  | (none, _, _) => (.boundViolation, [])

/-- The status an instruction halts its channel with for its own encoding, if any (R338, R341, R343). -/
def instrBad (ws : List Word) : Option Status :=
  let w (i : Nat) : Word := wordAt ws i
  let z (i : Nat) : Bool := (List.range (8 - i)).all fun k => decide (w (i + k) = 0)
  let resv (b : Bool) : Option Status := if b then some .reservedNonzero else none
  let opBad (a : Nat) : Bool := decide (bitsOf a 62 52 ≠ 0) || (!bitOf a 63 && decide (bitsOf a 51 40 ≠ 0))
  let op := fld (w 0) 31 28
  if op = 1 then
    let kind := fld (w 0) 26 25
    if fld (w 0) 18 16 ≠ 0 then some .reservedNonzero
    else if kind = 3 then some .decodeError
    else if kind = 0 then resv (opBad (dwordAt ws 2) || opBad (dwordAt ws 4))
    else if w 1 ≠ 0 ∨ w 6 ≠ 0 ∨ w 7 ≠ 0 ∨ fld (w 0) 24 19 ≠ 0 ∨ fld (w 0) 15 0 ≠ 0 then some .decodeError
    else resv (opBad (if kind = 1 then dwordAt ws 2 else dwordAt ws 4))
  else if op = 2 then
    if fld (w 0) 21 8 ≠ 0 ∨ !z 4 then some .reservedNonzero
    else if w 1 = 0 ∨ fld (w 0) 7 0 = 0 then some .decodeError else none
  else if op = 3 then resv (decide (fld (w 0) 24 0 ≠ 0) || !z 3 || decide (fld (w 0) 27 26 = 3))
  else if op = 4 then resv (decide (fld (w 0) 27 0 ≠ 0) || decide (fld (w 1) 31 16 ≠ 0) || !z 3)
  else if op = 15 then resv (decide (fld (w 0) 27 0 ≠ 0) || !z 1)
  else some .decodeError

/-- Must a channel's fetch wait for the commit of an entry that a flush has issued (04 R104)? -/
def fetchWaits (s : State) (n m c : Nat) : Bool := cmdReadWaits s (chanCtx s n m c) (chanOf s n m c).ipc 32

/-- What stops the instruction at a channel's issue point: a failed fetch or its encoding. -/
def issueBad (s : State) (n m c : Nat) : Option Status :=
  if chanPriv s n m c ∧ bitOf (chanOf s n m c).ipc 63 then some .decodeError
  else if fetchWaits s n m c then none
  else
  let (st, ws) := fetchInstr s (chanCtx s n m c) (chanOf s n m c).ipc
  if st = .ok then instrBad ws else some st

/-- The instruction that a running channel may issue, where it holds this OP. -/
def issuing (s : State) (n m c op : Nat) : Option (Chan × List Word) :=
  let ch := chanOf s n m c
  let (st, ws) := fetchInstr s (chanCtx s n m c) ch.ipc
  if (chanPriv s n m c ∧ bitOf ch.ipc 63) ∨ fetchWaits s n m c then none
  else if ch.state = .running ∧ ch.owedHalt.isNone ∧ ch.clear = 0 ∧ st = .ok ∧ (instrBad ws).isNone ∧ fld (wordAt ws 0) 31 28 = op then
    some (ch, ws)
  else none

end Sys2Proof.Machine
end

