-- ==== Sys2Proof/Machine/DataCmds.lean ====
section
/-! DEFINITION. Machine/DataCmds.lean: the commands that move data and compute (06 R165 to R180, R200; 07 R217 to R243;
13 R403). Each takes its whole effect in one step (log entry 13). -/
namespace Sys2Proof.Machine

/-! External memory through the outer port of a context (R167, 13 R403) -/

/-- Read `n` bytes at external address `a` and decrypt them under `key`. -/
def extPlain (s : State) (key : Option Nat) (a n : Nat) : Status × List (Byte × Bool) :=
  let a0 := a / 16 * 16
  let k := if n = 0 then 0 else (a + n - 1) / 16 + 1 - a0 / 16
  let raw : List (Byte × Bool) := extRead s a0 (16 * k)
  let rb : List Byte := raw.map Prod.fst
  let plain : List Byte := match key with
    | some x => xtsBytes false x k a0 rb
    | none => rb
  let bad (i : Nat) : Bool := (raw.getD i (0, false)).2 || decide (extStatus s (a0 + i) 1 ≠ .ok)
  let out := ((plain.zipIdx.map fun (b, i) => (b, bad i)).drop (a - a0)).take n
  let st := extStatus s a n
  (if out.any (·.2) then st.join .uncorrectable else st, out)

/-- One 64 B range of a write (R403): bytes by offset in the range. A partly covered range is read, decrypted and merged;
where it reads poisoned it is left alone. Answers the bytes lost. -/
def extPut64 (key : Option Nat) (base : Nat) (bs : List (Nat × Byte × Bool)) (acc : State × Status × Nat) : State × Status × Nat :=
  let (s, st, lost) := acc
  let (rs, old) := extPlain s key base 64
  let whole := (List.range 64).all fun i => bs.any fun x => x.1 == i
  let est := extStatus s base 64
  if !whole ∧ (rs ≠ .ok ∨ ((extRead s base 64).any (·.2))) then (s, st.join .uncorrectable, lost + bs.length)
  else if est ≠ .ok ∧ est ≠ .uncorrectable then (s, st.join est, lost + bs.length)
  else
    let new : List (Byte × Bool) := (List.range 64).map fun i => match bs.find? fun x => x.1 == i with
      | some (_, b, p) => (b, p)
      | none => ((old.getD i (0, false)).1, false)
    let nb : List Byte := new.map Prod.fst
    let ct : List Byte := match key with
      | some x => xtsBytes true x 4 base nb
      | none => nb
    (extWrite base (ct.zip (new.map Prod.snd)) s, st, lost + (bs.filter fun x => x.2.2).length)

/-- Write bytes at external address `a` under `key`. -/
def extStore (key : Option Nat) (a : Nat) (bs : List (Byte × Bool)) (s : State) : State × Status × Nat :=
  let items := bs.zipIdx.map fun (x, i) => (a + i, x.1, x.2)
  (((items.map fun x => x.1 / 64 * 64).eraseDups).map fun b =>
    (b, (items.filter fun x => x.1 / 64 * 64 == b).map fun x => (x.1 - b, x.2))).foldl (fun acc (b, l) => extPut64 key b l acc) (s, .ok, 0)

/-! Ranges -/

/-- Keys of a store range, in operand order. -/
def Rng.keys (s : State) (x : Ctx) (r : Rng) : List Nat :=
  r.segs.flatMap fun (o, n) => pocketKeys (ctxSpan s x) r.st (r.pocket x) o n

/-- Read a range for context `ctx` at the bank, or through the outer port. -/
def readRng (ag : Agent) (x : Ctx) (r : Rng) (s : State) : Status × List (Byte × Bool) × State :=
  if r.ext then
    let (o, n) := r.segs.headD (0, 0)
    let (st, bs) := extPlain s (ctxKey s x) (x.extBase + o) n
    (st, bs, teleAdd ag.ctx 12 n s)
  else
    let ks := r.keys s x
    let bs := ks.map (byteAt s)
    let st := readStatus s ks
    let s1 := noteRead ag ks s
    let s2 := match ks with
      | k :: _ => teleMove ag.ctx k ks.length false s1
      | [] => s1
    (st, bs, if bs.any (·.2) then drawFree s2 else s2)

/-- Write a range: a status, the bytes not written or written poisoned, and the state. -/
def writeRng (ag : Agent) (x : Ctx) (r : Rng) (bs : List (Byte × Bool)) (s : State) : Status × Nat × State :=
  if r.ext then
    let (o, n) := r.segs.headD (0, 0)
    let (s1, st, lost) := extStore (ctxKey s x) (x.extBase + o) bs s
    (st, lost, teleAdd ag.ctx 14 n s1)
  else
    let ks := r.keys s x
    let (s1, w) := writeBytes ag (ks.zip bs) s
    let s2 := match ks with
      | k :: _ => teleMove ag.ctx k ks.length true s1
      | [] => s1
    (w.status, w.lost, s2)

/-- End a data command: what it had still to move moves no more, and its effects are complete. -/
def dataDone (c : Cmd) (st : Status) (count result : Nat) (s : State) : State := cmdDone c.id st count result (dropWorks c.id s)

/-- Does a read by a slice's own unit meet a held range-scoreboard entry (04 R104)? It waits for that entry's commit. -/
def unitWaits (s : State) (ctx : Nat) (rs : List Rng) : Bool :=
  s.wb.any fun e => e.held && e.issued && e.ctx == ctx && rs.any fun r =>
    !r.ext && r.rd && storeOf (regionOf e.base) == some r.st && pocketNoOf e.base == r.pk &&
      r.segs.any fun (o, n) => rangesMeet (offsetOf e.base) 64 o n

/-- Every store range that a data command reads, the granules of a GEMV's weight streams included (07 R217). -/
def unitReads (s : State) (c : Cmd) (x : Ctx) : List Rng :=
  let g := gemvOf c
  cmdRanges c ++ (weightRanges c).map fun r =>
    if c.opcode = 0x200 then { r with segs := [(0, ceilDiv g.streamBytes 4096 * 4096 * 2 ^ g.slog s x)] } else r

/-- Run an admitted data command, unless its tenant is suspended (13 R397 step 3): the slices it touches are woken first; on a failed
slice it completes UNIT_FAILED; while bytes of it have still to move in their bank groups (08 R249), or its reads must wait for a
scoreboard entry (04 R104), it does not act. -/
def runData (cmd op : Nat) (extra : Cmd → Ctx → List Nat) (f : Cmd → Ctx → State → State) (s : State) : State :=
  match admittedAs s cmd op with
  | none => s
  | some c => match ctxOf s c.ctx with
    | none => s
    | some x =>
      if !qPriv c.queue ∧ !ctxActive s c.ctx then s
      else
      let ns := ((cmdRanges c).flatMap (Rng.slices s x) ++ extra c x).eraseDups
      whenAwake ns 7 c.queue s fun t =>
        if ns.any (slcFailed t) then dataDone c .unitFailed 0 0 t
        else if worksLeft t c.id then t
        else if unitWaits t c.ctx (unitReads t c x) then t
        else f c x t

/-! FILL, COPY, CONVERT_COPY -/

/-- The bytes FILL writes (R172): byte (o mod 8) of the pattern at operand offset o. -/
def fillBytes (pattern o n : Nat) : List (Byte × Bool) :=
  let p := leBytes 8 pattern
  (List.range n).map fun i => (p.getD ((o + i) % 8) 0, false)

/-- FILL on its context (R172, R173). -/
def fillOn (c : Cmd) (x : Ctx) (s : State) : State :=
  match opnd (c.addr 4) (c.w 3) false true with
  | some r =>
    let (st, lost, s1) := writeRng c.agent x r (fillBytes (c.addr 6) ((r.segs.headD (0, 0)).1) (c.w 3)) s
    dataDone c st (c.w 3 - lost) 0 s1
  | none => s

/-- FILL (R172, R173). -/
def execFill (cmd : Nat) (s : State) : Res := .next (runData cmd 0x100 (fun _ _ => []) fillOn s)

/-- COPY on its context (R174, R175): poisoned source bytes are written poisoned. -/
def copyOn (c : Cmd) (x : Ctx) (s : State) : State :=
  match opnd (c.addr 4) (c.w 3) true false, opnd (c.addr 6) (c.w 3) false true with
  | some a, some b =>
    let (st1, bs, s1) := readRng c.agent x a s
    let (st2, lost, s2) := writeRng c.agent x b bs s1
    dataDone c (st1.join st2) (c.w 3 - lost) 0 s2
  | _, _ => s

/-- COPY (R174, R175). -/
def execCopy (cmd : Nat) (s : State) : Res := .next (runData cmd 0x101 (fun _ _ => []) copyOn s)

/-- The exact values of source elements in a format, each with its poison (R177, R178). -/
def elemValues (fmt n : Nat) (bs : List (Byte × Bool)) : List (Fp × Bool) :=
  match mxFmt fmt with
  | some f => (chunks (mxBytes f) (n / 32) bs).flatMap fun b =>
      (mxValues f (b.map (·.1))).map fun v => (v, b.any (·.2))
  | none =>
    let e := elemBytes fmt
    (chunks e n bs).map fun b =>
      let x := leNat (b.map (·.1))
      ((match plainFmt fmt with
        | some f => fpOf f x
        | none => fpOfInt (intVal (8 * e) x)), b.any (·.2))

/-- The destination bytes of a list of values (R177, R224, R225), with the elements written poisoned. -/
def elemBytesOf (fmt : Nat) (toZero sat : Bool) (vs : List (Fp × Bool)) : List (Byte × Bool) :=
  match mxFmt fmt with
  | some f => (chunks 32 (vs.length / 32) vs).flatMap fun b =>
      (mxBlock f toZero (b.map (·.1))).map fun y => (y, b.any (·.2))
  | none =>
    let e := elemBytes fmt
    vs.flatMap fun (v, p) =>
      (leBytes e (match plainFmt fmt with
        | some f => fpTo f toZero sat false v
        | none => fpToInt (8 * e) toZero v)).map fun y => (y, p)

/-- Which bytes of a written range hold no good data: at the bank, those that read poisoned; at the outer port, those of a 64 B range that
is poisoned or that the controllers did not take. -/
def lostBytes (s : State) (x : Ctx) (r : Rng) : List Bool :=
  if r.ext then
    r.segs.flatMap fun (o, n) => (List.range n).map fun i =>
      let a := x.extBase + o + i
      mget (fun _ => false) s.mem.extPoison (a / 64) || decide (extStatus s a 1 ≠ .ok)
  else (r.keys s x).map fun k => (byteAt s k).2

/-- Elements of a format that hold a lost byte: whole blocks for an MX format (R178). -/
def lostElems (fmt : Nat) (bad : List Bool) : Nat :=
  match mxFmt fmt with
  | some f => 32 * ((chunks (mxBytes f) (bad.length / mxBytes f) bad).filter fun b => b.any id).length
  | none => ((chunks (elemBytes fmt) (bad.length / elemBytes fmt) bad).filter fun b => b.any id).length

/-- CONVERT_COPY on its context (R177, R178). COUNT leaves out every element that was not written or is poisoned. -/
def convertOn (c : Cmd) (x : Ctx) (s : State) : State :=
  let sf := c.f 8 7 0; let df := c.f 8 15 8; let n := c.w 3
  match opnd (c.addr 4) (fmtBytes sf n) true false, opnd (c.addr 6) (fmtBytes df n) false true with
  | some a, some b =>
    let (st1, bs, s1) := readRng c.agent x a s
    let adj := intVal 8 (c.f 8 31 24)
    let vs := (elemValues sf n bs).map fun (v, p) => (fpScale adj v, p)
    let (st2, _, s2) := writeRng c.agent x b (elemBytesOf df (c.bit 8 16) (c.bit 8 18) vs) s1
    dataDone c (st1.join st2) (n - lostElems df (lostBytes s2 x b)) 0 s2
  | _, _ => s

/-- CONVERT_COPY (R177, R178). -/
def execConvertCopy (cmd : Nat) (s : State) : Res := .next (runData cmd 0x102 (fun _ _ => []) convertOn s)

/-! FLUSH_RANGE (R180, 08 R280, 09 R296) -/

/-- FLUSH_RANGE on its context: every entry that its admission covered and that has not committed since is issued with a scoreboard
entry, in the owner's slots where it is of G class; the ports' reuse entries of the range are dropped, and covered staging is written;
the command completes with the last entry's commit. -/
def flushOn (c : Cmd) (_ : Ctx) (s : State) : State :=
  let base := c.addr 4 % 2 ^ 40; let len := 256 * c.w 3
  let drop (r : PortRec) : PortRec := { r with reuse := r.reuse.filter fun e => !(e.ctx == c.ctx && rangesMeet e.base 64 base len) }
  let noRe (o : PortOp) : PortOp :=
    { o with noReuse := o.noReuse ++ (o.addrs.map fun a => a / 64 * 64).filter fun b => rangesMeet b 64 base len }
  let s1 := { s with ports := s.ports.map fun (k, r) => (k, drop r), ops := updWhere (fun o => o.ctx == c.ctx) noRe s.ops }
  let stage := (flushStage s c.ctx base len).filter fun e => c.after.contains e.2.id
  let (stg, s2) := stage.foldl (fun (acc : Status × State) e => let (a, t) := drainStage e.1 e.2 acc.2; (acc.1.join a, t)) (.ok, s1)
  let ids := (s.wb.filter fun e => e.flushes.contains (.cmd c.id)).map WbEntry.id
  let n := c.count + c.after.length
  if ids.isEmpty then dataDone c stg n 0 s2
  else
    let s3 := modCmd c.id (fun y => { y with phase := .waiting, status := y.status.join stg, count := n }) s2
    match (if c.gcls then contractOf s 0 c.queue else none) with
    | some k => issueAll .reserved ids (slotDrain ids (some k.owner) c.id s3)
    | none => issueAll .waits ids s3

/-- FLUSH_RANGE (R179, R180). Entries beyond the slices' 224 shared scoreboard entries wait for them (04 R103). -/
def execFlushRange (cmd : Nat) (s : State) : Res := .next (runData cmd 0x011 (fun _ _ => []) flushOn s)

/-! ECC_TEST_WRITE (R200) -/

/-- Store 32 bytes and their given check bits; the difference from the proper check bits is what the memory keeps. -/
def eccPut (k : Nat) (d : List Byte) (chk : List Byte) (s : State) : State :=
  let m := s.mem
  if isW k then
    let diff := List.zipWith (· ^^^ ·) (chk.take 4) (rsCheck d)
    { s with mem := { m with
        data := mputList (fun _ => 0) m.data k d
        chk := mputList (fun _ => 0) m.chk k diff
        tag := mput (fun _ => false) m.tag k false
        owed := m.owed.filter (· != k) } }
  else s

/-- The same for one byte of the A- or P-store, with its 4 check bits. -/
def eccPutByte (k : Nat) (b : Byte) (chk : Nat) (s : State) : State :=
  let m := s.mem
  { s with mem := { m with
      data := mput (fun _ => 0) m.data k b
      chk := mput (fun _ => 0) m.chk k (BitVec.ofNat 8 (nxor chk (hamCheck b)))
      tag := mput (fun _ => false) m.tag k false
      owed := m.owed.filter (· != k) } }

/-- ECC_TEST_WRITE on its context: its own checks, the write, and its log entry whatever the status. -/
def eccTestOn (c : Cmd) (s : State) : State :=
  let log (st : Status) (t : State) : State := report st 2 (qHome c.queue) 0 (.queue c.queue) (c.ctx % 2048) (c.addr 4) t
  let a := c.addr 4
  match ctxOf s c.ctx with
  | none => log .boundViolation (cmdRefuse c.id .boundViolation 0 s)
  | some x =>
    match opndStore a 32 false true with
    | none => log .decodeError (cmdRefuse c.id .decodeError 0 s)
    | some r =>
      if a % 32 ≠ 0 then log .decodeError (cmdRefuse c.id .decodeError 0 s)
      else match rngCheck s x r with
        | .fail st _ => log st (cmdRefuse c.id st 0 s)
        | .spilled => modCmd c.id (fun y => { y with delayed := true }) s
        | .ok =>
          if (partOf s x.part).secure then log .boundViolation (cmdRefuse c.id .boundViolation 0 s)
          else
            let ks := r.keys s x
            let d := bytesOfWords ((c.words.drop 6).take 8)
            let chk := bytesOfWords ((c.words.drop 14).take 4)
            let s1 := if r.st = .w then eccPut (ks.headD 0) d chk s
              else (ks.zip d).zipIdx.foldl (fun t ((k, b), i) => eccPutByte k b (leNat chk / 16 ^ i % 16) t) s
            log .ok (cmdDone c.id .ok 0 0 s1)

/-- ECC_TEST_WRITE (R200). -/
def execEccTestWrite (cmd : Nat) (s : State) : Res :=
  match admittedAs s cmd 0x701 with
  | some c => .next (whenAwake (cmdAddrSlices s c.ctx (2 ^ 63 + c.addr 4 % 2 ^ 40) 32) 7 c.queue s (eccTestOn c))
  | none => .next s

/-! GEMV (07 R217 to R231) -/

/-- Set a bit of SVC_STAT (14 R439). -/
def raiseSvc (bit : Nat) (s : State) : State :=
  regPut 0 (regNo 0x80 0x204) (regGet s 0 (regNo 0x80 0x204) ||| 2 ^ bit) s

/-- What befell one NMU in a GEMV (R228, R229): nothing, a retry, a second fault, or it was retired. The marks of a command
are kept in `after`: code + 1024 × (1 retried, 2 failed, 3 retired), code = slice × 4 + tier. -/
def nmuMark (c : Cmd) (e : Nat × Nat) : Nat := (c.after.filter fun m => m % 1024 == e.1 * 4 + e.2).foldl (fun a m => Nat.max a (m / 1024)) 0

/-- One accumulator entry through the blocks of one stripe (R222, R223): the exact sum of each block rounded once, then added. -/
def stripeCell (w x : List (List Fp)) (acc : Fp) : Fp :=
  (w.zip x).foldl (fun acc (wb, xb) =>
    let ps := List.zipWith fpMul wb xb
    let e := match ps with
      | p :: rest => rest.foldl fpAdd p
      | [] => .fin false 0 0
    round32 (fpAdd acc (round32 e))) acc

/-- What an NMU's accumulator file and its shadow hold, by row and column (R207, R227). -/
structure NmuFile where
  acc : List (List Fp)
  shadow : List (List Fp)

/-- Stripe `t` of an NMU's rows (R222): the accumulator file is copied to the shadow, then runs through the stripe (R227). -/
def nmuStripe (g : GemvP) (rows cols : List (List (List Fp))) (r : NmuFile) (t : Nat) : NmuFile :=
  let part (bs : List (List Fp)) : List (List Fp) := (bs.drop (t * (g.kstripe / 32))).take (g.stripeK t / 32)
  let xs := cols.map part
  { acc := List.zipWith (fun w as => List.zipWith (fun x a => stripeCell (part w) x a) xs as) rows r.acc, shadow := r.acc }

/-- All stripes of an NMU's rows, from accumulators of +0. -/
def nmuRun (g : GemvP) (rows cols : List (List (List Fp))) : NmuFile :=
  (List.range g.stripes).foldl (nmuStripe g rows cols) { acc := rows.map fun _ => cols.map fun _ => .fin false 0 0, shadow := [] }

/-- The entries of a file in FP32. DESIGN CHOICE (log entry 101): column `c` of an NMU's row `j` is entry `j` × NCOL + `c`. -/
def fileWords (l : List (List Fp)) : List Word := l.flatten.map fun v => BitVec.ofNat 32 (fpTo fmtFP32 false false false v)

/-- The first part of a buffer replaced. -/
def overlay {α : Type} (new old : List α) : List α := new ++ old.drop new.length

/-- An NMU's file and shadow after a GEMV. -/
def keepFile (e : Nat × Nat) (r : NmuFile) (s : State) : State :=
  let put (m : NMap (List Word)) (l : List (List Fp)) : NMap (List Word) :=
    mput (fun _ => []) m e.2 (overlay (fileWords l) (mget (fun _ => []) m e.2))
  modSlice e.1 (fun y => { y with nmuAcc := put y.nmuAcc r.acc, nmuShadow := put y.nmuShadow r.shadow }) s

/-- The quarters of a slice that hold its copy of the activations (R208): those beside the NMUs it uses, in order, then the others. -/
def sabQuarters (ms : List (Nat × Nat)) (n : Nat) : List Nat :=
  let ts := (ms.filter fun e => e.1 == n).map (·.2)
  ts ++ (List.range 4).filter fun t => !ts.contains t

/-- The copy of the activations reaches a slice's SAB (R208, R219). DESIGN CHOICE (log entry 101): columns one after another, filling
the quarters in order. -/
def sabLoad (ms : List (Nat × Nat)) (bs : List Byte) (s : State) (n : Nat) : State :=
  modSlice n (fun y => { y with sab := (sabQuarters ms n).zipIdx.foldl (fun m (q, i) =>
    let new := (bs.drop (i * 65536)).take 65536
    if new.isEmpty then m else mput (fun _ => []) m q (overlay new (mget (fun _ => []) m q))) y.sab }) s

/-- The copy that a slice's SAB holds. -/
def sabRead (s : State) (ms : List (Nat × Nat)) (n len : Nat) : List Byte :=
  ((sabQuarters ms n).zipIdx.flatMap fun (q, i) => (mget (fun _ => []) (sliceOf s n).sab q).take (Nat.min 65536 (len - i * 65536))).take len

/-- The keys of row `j` of stream `i` of weight pocket `p` (R217, R218), stripe by stripe. -/
def gemvRowKeys (s : State) (x : Ctx) (g : GemvP) (p : Pocket) (i j : Nat) : List Nat :=
  let sx := g.slog s x
  (List.range g.stripes).flatMap fun t =>
    (List.range (g.ps t)).map fun b =>
      (locate (ctxSpan s x) .w p (streamOff sx p i (t * g.rows * g.ps 0 + j * g.ps t + b))).key

/-- The weights of a row as blocks of 32 values (R214, R216). -/
def weightBlocks (g : GemvP) (bs : List Byte) : List (List Fp) :=
  (chunks g.blockBytes (g.k / 32) bs).map fun b =>
    match mxFmt g.wfmt with
    | some f => mxValues f b
    | none => (elemValues g.wfmt 32 (b.map fun y => (y, false))).map (·.1)

/-- One result element (R219, R222): the value after OSCALE, as FP32 bits. -/
def gemvOut (oscale : Nat) (acc : Fp) : Nat :=
  fpTo fmtFP32 false false false (if oscale = 0x3F800000 then acc else round32 (fpMul acc (fpOf fmtFP32 oscale)))

/-- Write or accumulate one FP32 result; answers whether it was written without poison. -/
def putResult (ag : Agent) (acc : Bool) (ks : List Nat) (v : Nat) (bad : Bool) (s : State) : Status × Bool × State :=
  let bs := (leBytes 4 v).map fun b => (b, bad)
  let (s1, w) := if acc then accumOne ag 1 (ks.headD 0) bs (s, { status := .ok, lost := 0 }) else writeBytes ag (ks.zip bs) s
  (w.status, decide (w.lost = 0), teleMove ag.ctx (ks.headD 0) 4 true s1)

/-- What a GEMV needs of its operands beside the packet: the SAB copies' NMUs and length, and which columns are poisoned. -/
structure GemvX where
  ms : List (Nat × Nat)
  len : Nat
  bad : List Bool
  yr : Rng

/-- One row of an NMU's stream is read: its status, its weights and whether one is poisoned (R217, R221). -/
def gemvRow (c : Cmd) (x : Ctx) (g : GemvP) (p : Pocket) (i : Nat) (acc : Status × List (List (List Fp) × Bool) × State) (j : Nat) :
    Status × List (List (List Fp) × Bool) × State :=
  let (st, rows, t) := acc
  let ks := gemvRowKeys t x g p i j
  let wb := ks.map (byteAt t)
  (st.join (readStatus t ks), rows ++ [(weightBlocks g (wb.map (·.1)), wb.any (·.2))],
    teleMove c.ctx (ks.headD 0) ks.length false (noteRead c.agent ks t))

/-- One NMU of a GEMV (R219 to R222): its rows run stripe by stripe on the activations in its slice's SAB, and its results are written. An
NMU that failed or was retired writes none (R229). -/
def gemvNmu (c : Cmd) (x : Ctx) (g : GemvP) (gx : GemvX) (acc : Status × Nat × State) (e : Pocket × Nat × Nat) : Status × Nat × State :=
  let (st, n, s) := acc
  let (p, pi, i) := e
  let nmu := (streamSlice s x p i, p.set)
  if 2 ≤ nmuMark c nmu then acc
  else
    let rs := g.rowsOf (g.slog s x) pi i
    let (st1, ws, s1) := (rs.map (·.1)).foldl (gemvRow c x g p i) (st, [], s)
    let xb := sabRead s1 gx.ms nmu.1 gx.len
    let cols := (chunks (g.k * g.abytes) g.ncol xb).map fun b => chunks 32 (g.k / 32) ((elemValues g.afmt g.k (b.map fun y => (y, false))).map (·.1))
    let file := nmuRun g (ws.map (·.1)) cols
    let cells := (rs.zip (ws.zip file.acc)).flatMap fun (r, w, as) => (as.zip gx.bad).zipIdx.map fun (a, col) => (r.2, col, a.1, w.2 || a.2)
    cells.foldl (fun (st, n, u) (r, col, a, bad) =>
      let yk := pocketKeys (ctxSpan u x) gx.yr.st (gx.yr.pocket x) (offsetOf g.y + col * g.ystride + 4 * r) 4
      let (wst, good, u1) := putResult c.agent gx.yr.acc yk (gemvOut g.oscale a) bad u
      (st.join wst, if good then n + 1 else n, u1)) (st1, n, keepFile nmu file s1)

/-- GEMV on its context. -/
def gemvOn (c : Cmd) (x : Ctx) (s : State) : State :=
  let g := gemvOf c; let sx := g.slog s x
  match g.xRng, g.yRng with
  | some xr, some yr =>
    let (stx, xb, s1) := readRng c.agent x xr s
    let ms := g.nmus s x
    let gx : GemvX := { ms := ms, len := xb.length, bad := (chunks (g.k * g.abytes) g.ncol xb).map fun b => b.any (·.2), yr := yr }
    let s2 := (ms.map (·.1)).eraseDups.foldl (sabLoad ms (xb.map (·.1))) s1
    let streams := (g.pockets x).zipIdx.flatMap fun (p, pi) => (List.range (2 ^ sx)).map fun i => (p, pi, i)
    let (st, n, s3) := streams.foldl (gemvNmu c x g gx) (stx, 0, s2)
    let fst := (c.after.filter fun m => decide (2048 ≤ m)).head?
    let st1 := match fst with
      | some m => st.join (.specific (if m / 1024 = 3 then 0x80 else 0x81))
      | none => if c.after.isEmpty then st else st.join .okRetried
    let bad := decide (n < g.n * g.ncol) && (c.after.all fun m => decide (m < 2048))
    let s4 := teleAdd c.ctx 18 (g.n * g.k * g.ncol) (drawFree s3)
    dataDone c (if bad then st1.join .uncorrectable else st1) n ((c.after.filter fun m => decide (m < 2048)).length) s4
  | _, _ => s

/-- GEMV (07 R219 to R223). -/
def execGemv (cmd : Nat) (s : State) : Res :=
  .next (runData cmd 0x200 (fun c x => ((gemvOf c).nmus s x).map (·.1)) gemvOn s)

/-- UNIT of an NMU tile in the error log (06 R204). -/
def nmuUnit (tier tile : Nat) : Nat := 128 * tier + tile

/-- The stripe is read and computed again: the accumulator file comes back from its shadow, and the weights' bytes move once more (R228). -/
def nmuAgain (c : Cmd) (n tier : Nat) (s : State) : State :=
  addWorks c.id c.id (if c.gcls then contractOf s 0 c.queue else none) 0 c.queue 0 (fun _ => 15)
    [(n, { store := .w, set := tier, acc := false }, (gemvOf c).rows * (gemvOf c).ps 0, 0)]
    (modSlice n (fun y => { y with nmuAcc := mput (fun _ => []) y.nmuAcc tier (mget (fun _ => []) y.nmuShadow tier) }) s)

/-- A fault of a running GEMV's NMU (R228, R229): a residue mismatch of tile 0 to 67, or a parity or compare error (tile 68), which
replaces no tile. The first takes the single retry; the second fails it; a tile that no spare replaces retires the NMU. -/
def nmuFault (c : Cmd) (n tier tile : Nat) (s : State) : State :=
  let used := tilesUsed s n tier
  let mark := nmuMark c (n, tier)
  let free := decide (used < 4)
  let unit := nmuUnit tier (Nat.min tile 67)
  let note (k : Nat) (t : State) : State := modCmd c.id (fun y => { y with after := y.after ++ [k * 1024 + n * 4 + tier] }) t
  let useTile (t : State) : State :=
    if tile < 68 ∧ free then
      modSlice n (fun y => { y with nmuTiles := mput (fun _ => []) y.nmuTiles tier (mget (fun _ => []) y.nmuTiles tier ++ [(tile, 64 + used)]) }) t
    else t
  if 2 ≤ mark then s
  else if tile < 68 ∧ !free then
    integAdd 20 1 (raiseSvc 3 (report (.specific 0x80) 4 n unit .nobody (c.ctx % 2048) 0
      (modSlice n (fun y => { y with nmuRetired := mput (fun _ => false) y.nmuRetired tier true }) (note 3 s))))
  else if mark = 1 then integAdd 20 1 (useTile (report (.specific 0x81) 4 n unit .nobody (c.ctx % 2048) 0 (note 2 s)))
  else
    let more (m : NMap Nat) : NMap Nat := mput (fun _ => 0) m tier ((mget (fun _ => 0) m tier + 1) % 65536)
    nmuAgain c n tier (integAdd 18 1 (modSlice n (fun y => { y with nmuRetries := more y.nmuRetries }) (useTile (note 1 s))))

/-- Does a command run as a GEMV that uses this NMU, (slice, tier) (R210)? -/
def usesNmu (s : State) (e : Nat × Nat) (c : Cmd) : Bool :=
  decide (c.phase = .admitted) && decide (c.opcode = 0x200) && (match ctxOf s c.ctx with
    | some x => ((gemvOf c).nmus s x).contains e
    | none => false)

/-- NMU_FAULT_RETRY (07 R228, R229): an NMU fault in the running GEMV of an NMU. -/
def execNmuFaultRetry (n tier tile : Nat) (s : State) : Res :=
  match s.cmds.find? (usesNmu s (n, tier)) with
  | none => .next s
  | some c => .next (nmuFault c n tier tile s)

/-! GATHER_POOL (07 R232 to R237) -/

/-- One valid index entry: table row, bag and weight (FP32 bits). -/
structure PoolEntry where
  row : Nat
  bag : Nat
  weight : Nat
  deriving DecidableEq, Repr

/-- Decode one index entry (R232): none where it is skipped. -/
def poolEntry (g : PoolP) (bs : List Byte) : Option PoolEntry :=
  let x := leNat bs
  let e : PoolEntry := { row := bitsOf x 31 0, bag := bitsOf x 55 32, weight := if 2 ≤ g.mode then bitsOf x 95 64 else 0x3F800000 }
  if e.row < g.nq * g.trows ∧ e.bag < g.nbags ∧ bitsOf x 63 56 = 0 ∧ bitsOf x 127 96 = 0 then some e else none

/-- A list in the order of draws of `f`: the order of a pool depends on timing (R236). -/
def freeOrder {α : Type} (f : Nat → Nat) : Nat → List α → List α
  | 0, l => l
  | k + 1, l =>
    let i := f k % Nat.max 1 l.length
    match l[i]? with
    | some a => a :: freeOrder f k (l.eraseIdx i)
    | none => l

/-- A partial (R234): slice, bag, sums, poison, entry count. A list of them stands least recently used first. -/
structure Partial where
  slice : Nat
  bag : Nat
  sums : List Fp
  bad : Bool
  n : Nat

/-- Where evicted partials go: the destination of bag sums and of counts. -/
structure PoolDst where
  rng : Rng
  sumOff : Nat → Nat
  cntOff : Option (Nat → Nat)

/-- Accumulate a partial into its bag's line by FP32 ADD, with its INT32 count (R234, R235). -/
def evict (ag : Agent) (x : Ctx) (sp : Span) (d : PoolDst) (p : Partial) (s : State) : State :=
  let at_ (o : Nat) : Nat := (locate sp d.rng.st (d.rng.pocket x) o).key
  let s1 := p.sums.zipIdx.foldl (fun t (v, i) =>
    let k := at_ (d.sumOff p.bag + 4 * i)
    teleMove ag.ctx k 4 true (accumOne ag 1 k ((leBytes 4 (fpTo fmtFP32 false false false v)).map fun b => (b, p.bad))
      (t, { status := .ok, lost := 0 })).1) s
  match d.cntOff with
  | some f =>
    let k := at_ (f p.bag)
    teleMove ag.ctx k 4 true (accumOne ag 0 k ((leBytes 4 p.n).map fun b => (b, false)) (s1, { status := .ok, lost := 0 })).1
  | none => s1

/-- The row of an entry: slice, values after SCALE and WEIGHT, poison, and what reading it finds (R233, R235). -/
def poolRow (s : State) (x : Ctx) (g : PoolP) (e : PoolEntry) : Nat × List Fp × Bool × List Nat :=
  let p := x.pocket .w (g.tpkt + e.row % g.nq)
  let ks := pocketKeys (ctxSpan s x) .w p (e.row / g.nq * g.rsz) g.rsz
  let bs := ks.map (byteAt s)
  let f := fpMul (fpOf fmtFP32 g.scale) (fpOf fmtFP32 e.weight)
  ((placeOf (ks.headD 0)).slice, (elemValues g.rfmt g.elems bs).map (fun v => round32 (fpMul v.1 f)), bs.any (·.2), ks)

/-- Partials that a slice's 64 KiB pool buffer holds (R234). -/
def PoolP.bufSize (g : PoolP) : Nat := 65536 / Nat.max 1 (4 * g.elems)

/-- Seam parity errors that a pool's reads at a tier port met (14 R426). -/
def poolErrors (c : Cmd) (port : Nat) : Nat := (c.after.filter fun m => m == 1024 + port).length

/-- A read of a pool's row fails parity at the seam (14 R426): the GPX reads the row once more; a second failure poisons it. -/
def poolParity (c : Cmd) (n tier : Nat) (s : State) : State :=
  let port := n * 4 + tier
  let s1 := modCmd c.id (fun y => { y with after := y.after ++ [1024 + port] }) s
  if poolErrors c port % 2 = 0 then addWorks c.id c.id none 0 c.queue 0 (fun _ => 13) [(n, { store := .w, set := tier, acc := false }, 256, 0)] s1 else s1

/-- The tier port, slice × 4 + tier, that a row is read through. -/
def poolPort (s : State) (x : Ctx) (g : PoolP) (e : PoolEntry) : Nat :=
  (placeOf ((locate (ctxSpan s x) .w (x.pocket .w (g.tpkt + e.row % g.nq)) (e.row / g.nq * g.rsz)).key)).slice * 4 + (x.pocket .w (g.tpkt + e.row % g.nq)).set

/-- The rows whose two reads failed parity: each pair of errors at a port is one row's, the next that the port delivers (14 R426).
DESIGN CHOICE (log entry 107): the event names no row. -/
def poolLost (c : Cmd) (port : PoolEntry → Nat) : List PoolEntry → List Nat → List (PoolEntry × Bool)
  | [], _ => []
  | e :: es, seen => (e, decide ((seen.filter (· == port e)).length < poolErrors c (port e) / 2)) :: poolLost c port es (port e :: seen)

/-- Pool one entry: its row is added to the partial of its bag on its slice; where that needs room in the slice's pool buffer, the
least recently used partial there is evicted (R234). The row's bytes move in one grant of its tier port. A lost row reads as poisoned. -/
def poolOne (c : Cmd) (x : Ctx) (g : PoolP) (d : PoolDst) (acc : State × List Partial × Nat) (e : PoolEntry × Bool) : State × List Partial × Nat :=
  let (s, ps, good) := acc
  let ag := c.agent
  let (n, vs, poison, ks) := poolRow s x g e.1
  let bad := poison || e.2
  let s1 := teleAdd ag.ctx 20 1 (teleMove ag.ctx (ks.headD 0) ks.length false (noteRead ag ks s))
  let mine (p : Partial) : Bool := p.slice == n && p.bag == e.1.bag
  let old := (ps.find? mine).getD { slice := n, bag := e.1.bag, sums := vs.map fun _ => .fin false 0 0, bad := false, n := 0 }
  let new : Partial := { old with sums := (if old.n = 0 then vs else List.zipWith (fun a b => round32 (fpAdd a b)) old.sums vs), bad := old.bad || bad, n := old.n + 1 }
  let rest := ps.filter fun p => !mine p
  let here := rest.filter fun p => p.slice == n
  let count := if bad then good else good + 1
  match here with
  | v :: _ =>
    if g.bufSize ≤ here.length then
      (evict ag x (ctxSpan s1 x) d v s1, (rest.filter fun p => !(p.slice == n && p.bag == v.bag)) ++ [new], count)
    else (s1, rest ++ [new], count)
  | [] => (s1, rest ++ [new], count)

/-- The row reads of a pool wait for their tier ports: one grant of up to 256 B each (R234, 03 R15). -/
def poolWorks (c : Cmd) (x : Ctx) (g : PoolP) (es : List PoolEntry) (s : State) : State :=
  addWorks c.id c.id none 0 c.queue 0 (fun _ => 13)
    (es.map fun e => ((poolRow s x g e).1, { store := .w, set := (x.pocket .w (g.tpkt + e.row % g.nq)).set, acc := false }, 256, 0)) s

/-- The destination of partials. -/
def poolDst (g : PoolP) : Option PoolDst :=
  if g.omode = 2 then g.outRng.map fun r => { rng := r, sumOff := fun b => offsetOf g.out + b * g.ostride, cntOff := none }
  else g.scrRng.map fun r => { rng := r, sumOff := fun b => offsetOf g.scr + b * 4 * g.elems,
                               cntOff := some fun b => offsetOf g.scr + g.nbags * 4 * g.elems + 4 * b }

/-- Phases 1 to 3 of GATHER_POOL (R234). A poisoned index entry contributes nothing (log entry 25). -/
def poolOn (c : Cmd) (x : Ctx) (s : State) : State :=
  let g := poolOf c
  match g.idxRng, poolDst g with
  | some ir, some d =>
    let s0 := if g.omode = 2 then s else (writeRng c.agent x d.rng (List.replicate (g.nbags * (4 * g.elems + 4)) (0, false)) s).2.2
    let (sti, ib, s1) := readRng c.agent x ir s0
    let raw := (chunks g.entryBytes g.nidx ib).filter fun b => !b.any (·.2)
    let es := raw.filterMap fun b => poolEntry g (b.map (·.1))
    let order := freeOrder (fun k => Config.freeNat s1.freeCtr (k + 2)) es.length es
    let (s2, ps, good) := (poolLost c (poolPort s1 x g) order []).foldl (poolOne c x g d) (drawFree s1, [], 0)
    let s3 := poolWorks c x g order (ps.foldl (fun t p => evict c.agent x (ctxSpan t x) d p t) s2)
    let st0 := if es.length < raw.length then sti.join .partialDone else sti
    let st := if good < es.length then st0.join .uncorrectable else st0
    let skipped := raw.length - es.length
    if g.omode = 2 then cmdDone c.id st good skipped s3
    else modCmd c.id (fun y => { y with status := y.status.join st, count := good, result := skipped, after := [1] }) s3
  | _, _ => s

/-- Slices that the quarters of a pool touch. -/
def poolSlices (s : State) (c : Cmd) (x : Ctx) : List Nat := (weightRanges c).flatMap (Rng.slices s x)

/-- GATHER_POOL (07 R232 to R236). -/
def execGatherPool (cmd : Nat) (s : State) : Res :=
  match admittedAs s cmd 0x201 with
  | some c => if c.after.contains 1 then .next s else .next (runData cmd 0x201 (poolSlices s) poolOn s)
  | none => .next s

/-- Phase 4 (R234, R235): each bag's sum, divided by its count for the means, is written to OUT. -/
def poolFinishOn (c : Cmd) (x : Ctx) (s : State) : State :=
  let g := poolOf c
  match poolDst g, g.outRng with
  | some d, some orr =>
    let sp := ctxSpan s x
    let bag (acc : Status × State) (b : Nat) : Status × State :=
      let (st, t) := acc
      let ks := pocketKeys sp d.rng.st (d.rng.pocket x) (d.sumOff b) (4 * g.elems)
      let ck := pocketKeys sp d.rng.st (d.rng.pocket x) ((d.cntOff.getD fun _ => 0) b) 4
      let bs := ks.map (byteAt t); let cb := ck.map (byteAt t)
      let rst := readStatus t (ks ++ ck)
      let t1 := noteRead c.agent (ks ++ ck) t
      let bad := bs.any (·.2) || cb.any (·.2)
      let n := leNat (cb.map (·.1))
      let vs := (elemValues 0 g.elems bs).map fun v =>
        if g.mode % 2 = 1 then (if n = 0 then .fin false 0 0 else round32 (fpDivNat v.1 n)) else v.1
      let conv := decide (g.omode = 0)
      let out := elemBytesOf (if conv then g.ofmt else 0) (conv && decide (g.rnd = 1)) (conv && g.sat) (vs.map fun v => (v, bad))
      let ok := pocketKeys sp orr.st (orr.pocket x) (offsetOf g.out + b * g.ostride) g.rowOut
      let (t2, w) := writeBytes c.agent (ok.zip out) t1
      let st1 := (st.join rst).join w.status
      (if bad then st1.join .uncorrectable else st1,
        teleMove c.ctx (ok.headD 0) ok.length true (teleMove c.ctx (ks.headD 0) (ks.length + ck.length) false t2))
    let (st, s1) := (List.range g.nbags).foldl bag (.ok, drawFree s)
    dataDone c st c.count c.result s1
  | _, _ => s

/-- GATHER_POOL_FINISH (07 R234 phase 4). -/
def execGatherPoolFinish (cmd : Nat) (s : State) : Res :=
  match admittedAs s cmd 0x201 with
  | some c => if c.after.contains 1 then .next (runData cmd 0x201 (fun _ _ => []) poolFinishOn s) else .next s
  | none => .next s

/-! REDUCE_ACC (07 R242, R243) -/

/-- One element: the first term is written plainly, each later one accumulated, in source order. -/
def reduceElem (c : Cmd) (x : Ctx) (sr dr : Rng) (acc : Status × Nat × State) (i : Nat) : Status × Nat × State :=
  let (st, n, s) := acc
  let e := redBytes c; let sp := ctxSpan s x
  let dk := pocketKeys sp dr.st (dr.pocket x) ((dr.segs.headD (0, 0)).1 + i * e) e
  let term (k : Nat) : List Nat := pocketKeys sp sr.st (sr.pocket x) ((sr.segs.getD k (0, 0)).1 + i * e) e
  let ks := (List.range (c.w 4)).map term
  let tele (k : List Nat) (t : State) : State := teleMove c.ctx (dk.headD 0) e true (teleMove c.ctx (k.headD 0) e false t)
  let first (t : State) : Status × State :=
    if c.bit 2 28 then (.ok, t)
    else
      let k0 := ks.headD []
      let bs := k0.map (byteAt t)
      let bad := bs.any (·.2)
      let (u, _) := writeBytes c.agent (dk.zip (bs.map fun b => (b.1, bad))) (noteRead c.agent k0 t)
      (readStatus t k0, tele k0 u)
  let (st1, s1) := first s
  let (st2, s2) := (if c.bit 2 28 then ks else ks.drop 1).foldl (fun (a, t) k =>
    let bs := k.map (byteAt t)
    let (u, w) := accumOne c.agent (redOp c) (dk.headD 0) bs (noteRead c.agent k t, { status := .ok, lost := 0 })
    (Status.join (Status.join a (readStatus t k)) w.status, tele k u)) (st1, s1)
  let good := !(dk.any fun k => (byteAt s2 k).2)
  (st.join st2, if good then n + 1 else n, s2)

/-- REDUCE_ACC on its context. -/
def reduceOn (c : Cmd) (x : Ctx) (s : State) : State :=
  match redSrc c, redDst c with
  | some sr, some dr =>
    let (st, n, s1) := (List.range (c.w 3)).foldl (reduceElem c x sr dr) (.ok, 0, s)
    dataDone c (if n < c.w 3 then st.join .uncorrectable else st) n 0 (drawFree s1)
  | _, _ => s

/-- REDUCE_ACC (07 R242, R243). -/
def execReduceAcc (cmd : Nat) (s : State) : Res := .next (runData cmd 0x202 (fun _ _ => []) reduceOn s)

end Sys2Proof.Machine
end

