-- ==== Sys2Proof/Machine/PortRows.lean ====
section
/-! DEFINITION. Machine/PortRows.lean: the events of ports, banks and buffers, and the port registers' own rules
(04 R92, R96, R100, R105, R113 to R120; 03 R60; 08 R276 to R280). -/
namespace Sys2Proof.Machine

/-- Outcome type of the meanings. -/
abbrev Outc := Host.Outcome State Fault Refusal

/-! Port shutdown and enable (R118 to R120) -/

/-- The PORT_CTL address of a port. -/
def portAddr (n p off : Nat) : Nat := portReg n p off * 4

/-- Begin DRAINING (R118 step 1): every entry is issued, with scoreboard entries. -/
def startDrain (n p : Nat) (s : State) : State :=
  issueAll .waits ((portEntries s n p).map WbEntry.id) (modPort n p (fun r => { r with state := .draining }) s)

/-- A write of PORT_CTL (R113, R118, R120, 18 R517). -/
def portCtlWrite (n p v : Nat) (by_ : RegBy) (s : State) : RegRes :=
  let s0 := (touch n 6 p s).2
  let put (t : State) : State := regPut (portCtlReset p) (portReg n p 0) (v % 4) t
  let st := (portOf s n p).state
  if bitOf v 0 then
    match st with
    | .disabled =>
      if !portWired s n p then dropReg .writeIgnored by_ (portAddr n p 0) s
      else (some .ok, modPort n p (fun r => { r with state := .enabled }) (put s0))
    | .enabled => (some .ok, s0)
    | _ =>
      if bitOf v 1 then (some .pendingShutdown, s0)
      else (none, modPort n p (fun r => { r with enWait := r.enWait ++ [by_.origin] }) (put s0))
  else
    match st with
    | .enabled => (none, modPort n p (fun r => { r with disWait := r.disWait ++ [by_.origin] }) (startDrain n p (put s0)))
    | _ => (some .ok, s0)

/-- Does an outstanding request keep its port DRAINING? A register write that waits for this very shutdown does not. -/
def drainWaits (s : State) (n p : Nat) : Bool :=
  let r := portOf s n p
  (portOps s n p).any (fun o => !(r.disWait.contains (.op o.id) || r.enWait.contains (.op o.id))) ||
    (decide (p = 10) && s.beats.any fun b => b.src / 16 != n && b.slice == n && b.taken)

/-- PORT_DRAIN_DONE (R118): the last response has left and the last entry has committed; a mesh port has also served what home ports of
other slices sent it (R112). -/
def execPortDrainDone (n p : Nat) (s : State) : Outc :=
  if (portOf s n p).state = .draining ∧ (portEntries s n p).isEmpty ∧ !drainWaits s n p then
    .next (modPort n p (fun r => { r with state := .clearing, clearB := s.bcnt }) s)
  else .next s

/-- PORT_CLEAR_DONE (R118, R120): buffers, sampled urgency and late status are zero; the port is DISABLED, and a waiting
enable takes effect. -/
def execPortClearDone (n p : Nat) (s : State) : Outc :=
  let r := portOf s n p
  if r.state = .clearing then
    let s1 := modPort n p (fun x => { x with state := .disabled, disWait := [], enWait := [], late := none, reuse := [], urg := 0, held := [] }) s
    let s2 := regPut 0 (portReg n p 0x10) (regGet s1 0 (portReg n p 0x10) % 128) s1
    let s3 := regPut (portCtlReset p) (portReg n p 0) (regGet s2 (portCtlReset p) (portReg n p 0) / 2 * 2) s2
    let s4 := finishAll r.disWait .ok s3
    if r.enWait.isEmpty then .next s4
    else
      let s5 := regPut (portCtlReset p) (portReg n p 0) 1 (modPort n p (fun x => { x with state := .enabled }) s4)
      .next (finishAll r.enWait .okDelayed s5)
  else .next s

/-- A write of PORT_CTX (R115, 13 R395): it unbinds the port's contract (06 R189). -/
def portCtxWrite (n p v : Nat) (by_ : RegBy) (s : State) : RegRes :=
  if p = 10 ∨ (portOf s n p).state ≠ .disabled then dropReg .writeIgnored by_ (portAddr n p 8) s
  else if !bitOf v 31 then (some .ok, unbindPort (n * 8192 + p) (regPut 0 (portReg n p 8) (v % 2048) s))
  else
    match ctxOf s (v % 2048) with
    | some x =>
      if (ctxSpan s x).has n ∧ (partOf s x.part).state ≠ .absent ∧ x.state ≠ .suspended ∧ !x.destroying then
        (some .ok, unbindPort (n * 8192 + p) (regPut 0 (portReg n p 8) (2 ^ 31 + v % 2048) s))
      else (some .boundViolation, s)
    | none => (some .boundViolation, s)

/-! Port events -/

/-- BURST_TIMEOUT (R92): the engine paused for 4,096 pc between the data beats of an accepted burst; the request
completes DECODE_ERROR with no effect. A DISABLED port accepts every burst too (R119). -/
def execBurstTimeout (r : PortReq) (s : State) : Outc :=
  let q := reqOf s r
  let open_ : Bool := match (portOf s r.slice r.port).state with
    | .enabled => q.ready s
    | .disabled => true
    | _ => false
  if portsOpen s ∧ r.port ≤ 10 ∧ r.slice < 64 ∧ portWired s r.slice r.port ∧ open_ ∧ (q.h.kind = 1 ∨ q.h.kind = 2 ∨ q.h.kind = 4) then
    .next (refuseReq q .decodeError 4 false { s with bcnt := s.bcnt + 2048 })
  else .next s

/-- PRIORITY_RAISE (R105): a B-class request held by the crossbar for 1,024 pc is raised to EP 3. -/
def execPriorityRaise (op : Nat) (s : State) : Outc :=
  .next { s with beats := updWhere (fun b => b.op == op && !b.g && !b.queued) (fun b => { b with ep := 3 }) s.beats }

/-- WB_AGE_EXPIRY (R96 case 2): BCNT moves to the moment the entry reaches 2^(WAGE+2) pc, and the entry is issued. -/
def execWbAgeExpiry (entry : Nat) (s : State) : Outc :=
  match wbOf s entry with
  | some e =>
    if e.issued then .next s
    else
      let due := e.takenB + 2 ^ (bitsOf (portCfg s e.home e.port) 15 12 + 1)
      .next (issueAll .none [entry] { s with bcnt := Nat.max s.bcnt due })
  | none => .next s

/-- REUSE_EXPIRY (R100): an entry that has lived 2^(RAGE+2) pc leaves the reuse buffer. -/
def execReuseExpiry (n p c base : Nat) (s : State) : Outc :=
  match (portOf s n p).reuse.find? fun e => e.ctx == c && e.base == base with
  | some e =>
    let s1 := { s with bcnt := Nat.max s.bcnt (e.fillB + reuseLife s n p) }
    .next (modPort n p (fun r => { r with reuse := r.reuse.filter fun x => !(x.ctx == c && x.base == base) }) s1)
  | none => .next s

/-! Banks -/

/-- Is this bank cycle a B-class bubble of a clock group (16 R470, R479; 0 links, 1 memory, 2 compute)? -/
def bubbleFalls (s : State) (group : Nat) : Bool := decide (s.bcnt % 32 < mget (fun _ => 0) s.power.bub group)

/-- Does a bubble stall a requester's B-class bytes (16 R470)? The compute group's stalls the NMUs and the GPX, the memory group's all else. -/
def bubbleStalls (s : State) (reqr : Nat) : Bool := if reqr = 13 ∨ reqr = 15 then bubbleFalls s 2 else bubbleFalls s 1

/-- Count a bubbled bank cycle for the partitions (16 R482). -/
def countBubble (s : State) : State :=
  if bubbleFalls s 1 then
    { s with power := { s.power with partBub := (List.range 32).foldl (fun m q =>
        if (partOf s q).state ≠ .absent then mput (fun _ => 0) m q (mget (fun _ => 0) m q + 1) else m) s.power.partBub } }
  else s

/-- POISON_TAG_WRITE (14 R418; 01 R23): the owed tag of one unit is set in a background slot of its bank group. -/
def execPoisonTagWrite (key : Nat) (s : State) : Outc :=
  if s.mem.owed.contains key ∧ bgNow s key then
    .next { (integAdd 10 1 s) with mem := { s.mem with
        tag := mput (fun _ => false) s.mem.tag key true, owed := s.mem.owed.filter (· != key) } }
  else .next s

/-- WB_ENTRY_COMMIT (R96, R99, R103): an issued entry whose beats have all been served, and that waits for nothing, has
committed; its credit's landed bytes go back to the window (12 R372). -/
def execWbEntryCommit (entry : Nat) (s : State) : Outc :=
  match wbOf s entry with
  | some e =>
    if e.issued ∧ e.left = 0 ∧ allGone s e.after then
      let s1 := commitEntry e s
      .next (match e.cred with
        | some (h, n) => sweepGrants (landBytes h e.home n false s1)
        | none => s1)
    else .next s
  | none => .next s

/-- Banks of a group (08 R247). -/
def groupBanks (g : Nat) : Nat := if g < 4 then 16 else if g < 8 then 8 else 16

/-- The cut level of the next interval, from the interval's occupancy sums by group (R276): 0 for NONE, C + 1 otherwise. -/
def nextCut (cfg cut : Nat) (sum : Nat → Nat) : Nat :=
  let full (g : Nat) : Nat := 64 * groupBanks g
  if !bitOf cfg 31 then 0
  else if (List.range 9).any fun g => decide (bitsOf cfg 7 4 * full g ≤ sum g) then Nat.min 4 (cut + 1)
  else if (List.range 9).all fun g => decide (sum g ≤ bitsOf cfg 3 0 * full g) then cut - 1
  else cut

/-- The allowance of one requester for the next interval (R277). -/
def nextAllow (cfg reqr : Nat) (overloads : Bool) (a : Nat) : Nat :=
  if overloads then Nat.max 64 (a / 2) else Nat.min (fullAllowance reqr) (a + bitsOf cfg 15 8 * 64)

/-- A partition's outer-port allowance for the next interval (R278), as what is missing from its full size. DESIGN CHOICE (log entry 92): the
regulator of the partition's first slice keeps it. -/
def outerNext (cfg oq p : Nat) (s : State) : State :=
  let cut := mget (fun _ => 0) s.outerCut p
  let full := Config.outerFull p
  let next := if !bitOf cfg 31 then 0
    else if bitsOf cfg 27 24 ≤ oq then full - Nat.max 64 ((full - cut) / 2)
    else if oq ≤ bitsOf cfg 23 20 then cut - bitsOf cfg 15 8 * 64
    else cut
  { s with outerCut := mput (fun _ => 0) s.outerCut p next, outerUsed := mput (fun _ => 0) s.outerUsed p 0 }

/-- The partitions whose first slice is `n`. -/
def partsAt (s : State) (n : Nat) : List Nat := (List.range 32).filter fun p => (partOf s p).state != .absent && (partOf s p).first == n

/-- REGULATOR_INTERVAL (08 R276 to R278): the slice's cut level and its requesters' allowances for the next interval, from
the interval's occupancies and what the requesters sent; OQ_LEVEL is sampled. -/
def execRegulatorInterval (n oqLevel : Nat) (s : State) : Outc :=
  let cfg := regCfg s n
  let r := sliceOf s n
  let sum (g : Nat) : Nat := mget (fun _ => 0) r.occ g
  let cut' := nextCut cfg r.cut sum
  let hot (q : Nat) : Bool := r.sent.any fun x =>
    decide (x / 16 = q) && decide (bitsOf cfg 7 4 * 64 * groupBanks (x % 16) ≤ sum (x % 16))
  let allow' := (List.range 15).foldl (fun m q =>
    mput fullAllowance m q (nextAllow cfg q (hot q) (mget fullAllowance r.allow q))) r.allow
  let most := ((List.range 9).map fun g => sum g / (64 * groupBanks g)).foldl Nat.max 0
  let s1 := modSlice n (fun x => { x with cut := cut', allow := if bitOf cfg 31 then allow' else [], used := [], sent := [],
                                          occ := [], occN := oqLevel % 16, maxOcc := most }) s
  let s2 := (partsAt s n).foldl (fun t p => outerNext cfg (oqLevel % 16) p t) s1
  .next (if r.cut < cut' then gTele 16 1 s2 else s2)

end Sys2Proof.Machine
end

