-- ==== Sys2Proof/Machine/Faults.lean ====
section
/-! DEFINITION. Machine/Faults.lean: faulting a context (05 R163), the TDISP indications (13 R405, R406), and the clears of
released lines (06 R169, R185). -/
namespace Sys2Proof.Machine

/-! TDISP (13 R404 to R406) -/

/-- The ready indication of a context (R405): 1 while it exists, is not faulted, its partition is SEALED and its key slot
serves it. -/
def readyNow (s : State) (c : Nat) : Bool :=
  match ctxOf s c with
  | some x => decide (x.state ≠ .faulted) && (let p := (partOf s x.part).state; p == .sealed) && (!x.keyEn || (ctxKey s x).isSome)
  | none => false

/-- The TDISP interface of a context's page, where TDI_EN is 1. -/
def tdiOf (s : State) (c : Nat) : Option Nat := if bitOf (hwinMap s c) 20 then some (bitsOf (hwinMap s c) 19 8) else none

/-- Drive a context's ready indication, where it has changed. -/
def refreshReady (s : State) (c : Nat) : State :=
  match tdiOf s c with
  | some t =>
    let now := readyNow s c
    if mget (fun _ => false) s.ready c = now then s
    else emit (.tevt t now false) { s with ready := mput (fun _ => false) s.ready c now }
  | none => s

/-- Drive every context's indication. -/
def refreshAll (s : State) : State := ((ctxList s).map (·.1)).foldl refreshReady s

/-- Signal a TDISP error of a context whose interface is CONFIG_LOCKED (1) or RUN (2) (R406). -/
def tdispError (c : Nat) (s : State) : State :=
  match tdiOf s c with
  | some t =>
    let st := mget (fun _ => 0) s.tdi t
    if st = 1 ∨ st = 2 then emit (.tevt t (readyNow s c) true) s else s
  | none => s

/-! Faulting a context -/

/-- Is this a command that a fault of context `c` ends: one of the context's own queues, or one that moves data or waits for
it on a privileged queue (05 R146, R163)? -/
def faultEnds (c : Nat) (d : Cmd) : Bool :=
  (d.phase == .admitted || d.phase == .waiting) && d.ctx == c &&
    (!qPriv d.queue || (match opInfo d.opcode with
      | some i => decide (i.cls = 1 ∨ i.cls = 2)
      | none => false))

/-- Does a command wait at another device: a GRANT put off there (12 R374 counts it as waiting)? -/
def waitsAway (s : State) (d : Cmd) : Bool :=
  s.fab.reqs.any fun r => r.origin == .cmd d.id && r.kind == .grant && r.deferred && !r.gone

/-- End one command with its partial count: with `wst` one that waits for a deferred GRANT, with `st` any other. -/
def faultCmd (st wst : Status) (s : State) (d : Cmd) : State :=
  let quit (e : WbEntry) : WbEntry := { e with flushes := e.flushes.filter fun o => o != .cmd d.id }
  let owed := if d.gcls ∧ d.opcode = 0x011 then
      64 * (s.wb.filter fun e => e.flushes.contains (.cmd d.id) && !(e.issued && e.left == 0)).length else 0
  let s0 := if owed = 0 then s else gMoved 0 d.queue owed s
  let s1 : State := { s0 with wb := s0.wb.map quit }
  let mine := s1.fab.reqs.filter fun r => r.origin == .cmd d.id
  let s2 := mine.foldl (fun t r => if r.kind = .grant ∧ !r.gone then forgetReq r (sendWithdraw r t) else forgetReq r t) s1
  cmdDone d.id (if waitsAway s d then wst else st) d.count d.result (dropWorks d.id s2)

/-- The queues of a context enter STOPPED (05 R163). -/
def stopCtxQueues (c : Nat) (s : State) : State :=
  (s.queues.filterMap fun (q, r) => match r with
    | some x => if !qPriv q && dCtx x.words == c && (x.qstate == .running || x.qstate == .parked) then some q else none
    | none => none).foldl (fun t q => stopQueue q t) s

/-- Home ports of a span that PORT_CTX binds to context `c`. -/
def portsOfCtx (s : State) (sp : Span) (c : Nat) : List (Nat × Nat) :=
  sp.slices.flatMap fun n => ((List.range 10).filter fun p => portBound s n p && decide (regGet s 0 (portReg n p 8) % 2048 = c)).map fun p => (n, p)

/-- Shut down the home ports bound to a context (04 R118). -/
def drainCtxPorts (c : Nat) (sp : Span) (s : State) : State :=
  (portsOfCtx s sp c).foldl (fun t (n, p) => if (portOf t n p).state = .enabled then startDrain n p t else t) s

/-- Fault context `c` with status `st` (05 R163): its commands complete with their partial counts, those that wait with `wst`, its
queues stop, its ports shut down and its mover channels halt (13 R394), its partition's grants are revoked (12 R376). -/
def faultCtx (st wst : Status) (c : Nat) (s : State) : State :=
  match ctxOf s c with
  | some x =>
    if x.state = .faulted then s
    else
      let s1 := setCtx c (some { x with state := .faulted, fault := st }) s
      let s2 := ((spanChans (ctxSpan s x)).filter fun k => chanServes s k.1 k.2.1 k.2.2 c).foldl (faultChan st) s1
      let s3 := endWaiters (fun w => w.ctx == c) wst s2
      let s4 := (s3.cmds.filter (faultEnds c)).foldl (faultCmd st wst) s3
      let s5 := { s4 with cmds := s4.cmds.filter fun d => !(d.phase == .held && d.ctx == c && !qPriv d.queue) }
      let s6 := drainCtxPorts c (ctxSpan s x) (stopCtxQueues c s5)
      let s7 := endGrants (fun g => g.part == x.part) true s6
      tdispError c (refreshReady s7 c)
  | none => s

/-! Clears (06 R169, R185, R187) -/

/-- The banks of a pocket's frame. -/
def frameBanks (sp : Span) (st : Store) (p : Pocket) : List Nat :=
  (if p.spread then sp.slices else [p.home]).flatMap fun n =>
    (List.range (2 ^ setW st p.set)).map fun j => bankKey n st (setTier st p.set) (setFirstBank st p.set + j)

/-- The bank lines a pocket occupies (02 R40): bank, first line and end line of each part. -/
def pocketLines (sp : Span) (st : Store) (p : Pocket) : List (Nat × Nat × Nat) :=
  if p.bound = 0 then [] else (frameBanks sp st p).map fun b => (b, pocketFirstLine sp st p, pocketEndLine sp st p)

/-- The lines cleared when only BOUND shrinks to `nb` (R185): every granule at offset `nb` or above. -/
def shrinkLines (sp : Span) (st : Store) (p : Pocket) (nb : Nat) : List (Nat × Nat × Nat) :=
  let new := { p with bound := nb }
  let e := pocketEndLine sp st new
  let per := 2 ^ (setW st p.set + pocketS sp p)
  let cut := if nb = 0 then []
    else ((List.range per).map fun i => (nb / 256 + i) * 256).filterMap fun o =>
      let q := locate sp st p o
      if q.line = e - 1 ∧ o < p.bound then some q.bankNo else none
  ((pocketLines sp st p).map fun (b, lo, hi) => (b, (if cut.contains b then e - 1 else Nat.max lo e), hi)).filter fun x => decide (x.2.1 < x.2.2)

/-- Lines of a list of parts. -/
def partLines (l : List (Nat × Nat × Nat)) : Nat := (l.map fun x => x.2.2 - x.2.1).foldl (· + ·) 0

/-- Start a clear (R169): its number and the state. Lines of a failed slice are fenced (14 R436). -/
def startClear (part : Nat) (todo : List (Nat × Nat × Nat)) (s : State) : Nat × State :=
  let (id, s1) := freshId s
  let t := todo.filter fun x => !slcFailed s (x.1 / 1024)
  (id, { s1 with clears := s1.clears ++ [{ id := id, todo := t, part := part, lines := partLines t }] })

/-- Would a pocket occupy a line whose clear is still to be written (02 R41)? -/
def awaitsClear (s : State) (sp : Span) (st : Store) (p : Pocket) : Bool :=
  let mine := pocketLines sp st p
  s.clears.any fun j => j.todo.any fun (b, lo, hi) => mine.any fun (b', lo', hi') => decide (b = b') && rangesMeet lo (hi - lo) lo' (hi' - lo')

/-- The pockets of a partition's contexts, with their context, store and number. -/
def partPockets (s : State) (part : Nat) : List (Nat × Store × Nat × Pocket) :=
  ((ctxList s).filter fun e => e.2.part == part).flatMap fun (c, x) =>
    x.pockets.filterMap fun (i, p) => (storeOf (i / 16)).map fun st => (c, st, i % 16, p)

/-- Does a pocket overlap a RESIDENT pocket of the partition, other than pocket `pk` of context `c` (02 R40)? -/
def overlapsResident (s : State) (part c : Nat) (st : Store) (pk : Nat) (p : Pocket) : Bool :=
  (partPockets s part).any fun (c', st', pk', q) =>
    q.valid && q.state == .resident && !(c' == c && decide (st' = st) && pk' == pk) &&
      pocketsOverlap (partOf s part).span st p st' q

/-- Is anything admitted against a pocket's descriptor outstanding (02 R48): a port request, a write-back or staging entry, a
command or a mover's MOVE? `but` is a command that is not counted. -/
def pocketInUse (s : State) (c : Nat) (st : Store) (pk but : Nat) : Bool :=
  let here (a : Nat) : Bool := decide (a % 2 ^ 40 / 2 ^ 32 = pocketAddr st pk 0 / 2 ^ 32)
  (s.ops.any fun o => o.ctx == c && (o.addrs.any here || (decide (o.kind = .flush) && here (fld o.hdr 127 64)))) ||
  (s.wb.any fun e => e.ctx == c && here e.base) ||
  (s.movers.stage.any fun (_, es) => es.any fun e => e.ctx == c && here e.base) ||
  (s.cmds.any fun d => d.id != but && d.ctx == c && (d.phase == .admitted || d.phase == .waiting) &&
    (cmdRanges d ++ weightRanges d).any fun r => !r.ext && decide (r.st = st) && decide (r.pk = pk)) ||
  (s.movers.chans.any fun (k, ch) => chanServes s (k / 16) (k / 8 % 2) (k % 8) c && (decide (ch.clear ≠ 0) || ((ch.state == .running || ch.state == .waiting) &&
    ((ch.ahead.any fun p => here p.src || here p.dst) || (ch.checked && (
      let ws := (fetchInstr s c ch.ipc).2
      (!bitOf (dwordAt ws 2) 63 && here (dwordAt ws 2)) || (!bitOf (dwordAt ws 4) 63 && here (dwordAt ws 4))))))))

/-- Issue for drain what buffers hold of a pocket (R48): every write-back entry; a mover's staging. -/
def drainPocket (c : Nat) (st : Store) (pk : Nat) (s : State) : State :=
  let here (a : Nat) : Bool := decide (a % 2 ^ 40 / 2 ^ 32 = pocketAddr st pk 0 / 2 ^ 32)
  let s1 := issueAll .waits ((s.wb.filter fun e => e.ctx == c && here e.base).map WbEntry.id) s
  (s1.movers.stage.flatMap fun (k, es) => (es.filter fun e => e.ctx == c && here e.base).map fun e => (k, e)).foldl
    (fun t (k, e) => (drainStage k e t).2) s1

end Sys2Proof.Machine
end

