-- ==== Sys2Proof/Machine/CtxCmds.lean ====
section
/-! DEFINITION. Machine/CtxCmds.lean: SIGNAL, contexts and pockets, and the watchdogs of waits (06 R183 to R188; 10 R314 to
R316, R321; 12 R374). -/
namespace Sys2Proof.Machine

/-! SIGNAL (10 R314 to R316) -/

/-- SIGNAL on a counter of this device. -/
def signalLocal (c : Cmd) (ph : Nat) (s : State) : State :=
  if slcFailed s (counterHome ph) then cmdRefuse c.id .unitFailed 0 s
  else
    let src : SigSrc := { lastsig := lastsigQueue c.queue, who := .queue c.queue, src := 2, unit := 0 }
    let (st, r, s1) := signalCounter ph (sigOpOf (c.f 2 31 30)) (c.w 4) src s
    cmdDone c.id st 0 r s1

/-- SIGNAL to another device (R314, 12 R362): it leaves as a counter signal, and the command waits for the answer. -/
def signalRemote (c : Cmd) (tenant part : Nat) (s : State) : State :=
  if !fabReach s (c.f 5 31 16) then cmdRefuse c.id .decodeError 0 s
  else
    let home := qHome c.queue; let dev := c.f 5 31 16; let id := freeReqid s
    let n (x : Nat) : Word := BitVec.ofNat 32 x
    let ws : List Word := [n (c.f 2 31 30 * 2 ^ 30 + devId s), n (tenant * 65536 + c.f 5 10 0 * 32), n (id * 65536 + c.f 3 15 0), n (c.w 4), 0, 0]
    let r : FabReq :=
      { FabReq.blank with
        kind := .signal, origin := .cmd c.id, dev := dev, ctx := c.ctx, part := part, home := home
        port := Config.fabricPort home dev, tag := id, route := routeWord dev 1 0 3, words := ws }
    modCmd c.id (fun x => { x with phase := .waiting }) (sendMsg r s)

/-- SIGNAL (R314 to R316). -/
def execSignal (cmd : Nat) (s : State) : Res :=
  match admittedAs s cmd 0x300 with
  | some c =>
    match ctxOf s c.ctx with
    | some x =>
      if c.bit 2 29 then .next (signalRemote c x.tenant x.part s)
      else match counterOf s c.ctx (c.f 3 15 0) with
        | some ph => .next (whenAwake [counterHome ph] 9 (ph % 4096) s (signalLocal c ph))
        | none => .next (cmdRefuse cmd .boundViolation 0 s)
    | none => .next (cmdRefuse cmd .boundViolation 0 s)
  | none => .next s

/-! POCKET_SET (06 R184 to R186) -/

/-- Does R40 refuse a descriptor? -/
def r40Bad (s : State) (x : Ctx) (c : Nat) (st : Store) (pk : Nat) (p : Pocket) : Bool :=
  let sp := ctxSpan s x
  decide (frameBytes sp st p < p.base * 1048576 + p.bound) || decide (p.bound % 256 ≠ 0) || (!p.spread && !sp.has p.home) ||
    !setValid st p.set || overlapsResident s x.part c st pk p

/-- The lines a POCKET_SET releases (R185). -/
def releasedLines (sp : Span) (st : Store) (old new : Pocket) : List (Nat × Nat × Nat) :=
  if !old.valid ∨ old.state = .spilled then []
  else if !new.valid ∨ old.base ≠ new.base ∨ old.set ≠ new.set ∨ old.spread ≠ new.spread ∨ old.home ≠ new.home then pocketLines sp st old
  else if new.bound < old.bound then shrinkLines sp st old new.bound
  else []

/-- The POCKET_SETs whose clear runs, with the pockets they will place. -/
def settingPockets (s : State) (part : Nat) : List (Store × Pocket) :=
  (s.cmds.filter fun d => d.phase == .waiting && d.opcode == 0x400).filterMap fun d =>
    match ctxOf s d.ctx, storeOf (d.f 2 16 15) with
    | some x, some st => if x.part = part then some (st, Pocket.ofBits (dwordAt d.words 3)) else none
    | _, _ => none

/-- A pocket's reuse entries go with its old descriptor (04 R100: they hold bytes of the range). -/
def dropReuse (c : Nat) (st : Store) (pk : Nat) (s : State) : State :=
  let here (a : Nat) : Bool := decide (a % 2 ^ 40 / 2 ^ 32 = pocketAddr st pk 0 / 2 ^ 32)
  let f (r : PortRec) : PortRec := { r with reuse := r.reuse.filter fun e => !(e.ctx == c && here e.base) }
  { s with ports := s.ports.map fun (k, r) => (k, f r) }

/-- The new descriptor takes effect, and grants on the pocket end (12 R376). -/
def placePocket (c : Nat) (x : Ctx) (st : Store) (pk : Nat) (p : Pocket) (s : State) : State :=
  endGrants (fun g => g.part == x.part && g.tctx == c && g.store == st.code && g.pocket == pk) false
    (dropReuse c st pk (modCtx c (fun y => y.setPocket st pk p) s))

/-- POCKET_SET on its context: the checks; the drain of R48; the wait of R41; then the descriptor changes, after the clear
of the lines it releases. -/
def pocketSetOn (c : Cmd) (x : Ctx) (st : Store) (s : State) : State :=
  let pk := c.f 2 14 11; let raw := dwordAt c.words 3; let p := Pocket.ofBits raw; let old := x.pocket st pk; let sp := ctxSpan s x
  if (!p.valid ∧ raw ≠ 0) ∨ (p.valid ∧ p.spread ∧ p.home ≠ 0) then cmdRefuse c.id .decodeError 0 s
  else if ctxContract s c.ctx then cmdRefuse c.id .rejectedContract 0 s
  else if p.valid ∧ r40Bad s x c.ctx st pk p then cmdRefuse c.id .boundViolation 0 s
  else if old.valid ∧ (pocketInUse s c.ctx st pk c.id ∨ pocketSpilling s c.ctx st pk ∨ old.state = .clearing) then drainPocket c.ctx st pk s
  else if p.valid ∧ (settingPockets s x.part).any (fun e => pocketsOverlap sp st p e.1 e.2) then s
  else if p.valid ∧ awaitsClear s sp st p then modCmd c.id (fun y => { y with delayed := true }) s
  else
    let rel := releasedLines sp st old p
    if rel.isEmpty then cmdDone c.id .ok 0 0 (placePocket c.ctx x st pk p s)
    else
      let (id, s1) := startClear x.part rel s
      modCmd c.id (fun y => { y with phase := .waiting, after := [2, id] })
        (modCtx c.ctx (fun y => y.setPocket st pk { old with state := .clearing }) s1)

/-- The clear of a POCKET_SET has ended. -/
def finishPocket (c : Cmd) (s : State) : State :=
  match ctxOf s c.ctx, storeOf (c.f 2 16 15) with
  | some x, some st => cmdDone c.id .ok 0 0 (placePocket c.ctx x st (c.f 2 14 11) (Pocket.ofBits (dwordAt c.words 3)) s)
  | _, _ => cmdDone c.id .ok 0 0 s

/-- POCKET_SET (R184 to R186). -/
def execPocketSet (cmd : Nat) (s : State) : Res :=
  match admittedAs s cmd 0x400 with
  | some c =>
    match ctxOf s c.ctx with
    | some x =>
      if x.destroying then .next (cmdRefuse cmd (.specific 0x80) 0 s)
      else match storeOf (c.f 2 16 15) with
        | some st => .next (whenAwake (ctxSpan s x).slices 7 c.queue s (pocketSetOn c x st))
        | none => .next (cmdRefuse cmd .decodeError 0 s)
    | none => .next (cmdRefuse cmd (.specific 0x80) 0 s)
  | none => .next s

/-! CTX_CREATE (R183, 13 R394) -/

/-- Contexts of a partition. -/
def partCtxs (s : State) (p : Nat) : List (Nat × Ctx) := (ctxList s).filter fun e => e.2.part == p

/-- Is a context created ACTIVE (13 R394)? -/
def createdActive (s : State) (p tenant : Nat) : Bool :=
  let a := (partOf s p).active
  decide (a = tenant) || (decide (a = 0) && !(partCtxs s p).any fun e => e.2.tenant == tenant && e.2.state == .suspended)

/-- Can a partition take a context (13 R392, R411; 14 R436): SEALED, not tainted, no slice failed and unspared? -/
def partTakes (s : State) (p : Nat) : Bool :=
  let r := partOf s p
  decide (r.state = .sealed) && !r.taint && r.span.slices.all fun n => !slcFailed s n

/-- CTX_CREATE once no context of that number stands in its way. -/
def createOn (c : Cmd) (s : State) : State :=
  let tenant := c.f 2 31 16; let p := c.f 2 15 11
  if !partTakes s p then cmdRefuse c.id (.specific 0x82) 0 s
  else if 64 ≤ (partCtxs s p).length then cmdRefuse c.id (.specific 0x81) 0 s
  else
    let act := createdActive s p tenant
    let x : Ctx :=
      { tenant := tenant, part := p, wdog := c.f 3 31 16, keyEn := c.bit 3 15, keySlot := c.f 3 13 8, dbg := c.bit 3 1,
        extBase := c.addr 4, extSize := c.addr 6, state := if act then .active else .suspended, destroying := false,
        fault := .ok, pockets := [], cmap := [], tele := [], energy := 0 }
    let s1 := setCtx c.ctx (some x) s
    let s2 := if act then feedTenant tenant (setPart p { partOf s p with active := tenant } s1) else s1
    cmdDone c.id .ok 0 0 (refreshReady s2 c.ctx)

/-- CTX_CREATE (R183). -/
def execCtxCreate (cmd : Nat) (s : State) : Res :=
  match admittedAs s cmd 0x401 with
  | some c =>
    let base := c.addr 4; let size := c.addr 6
    if c.f 2 31 16 = 0 ∨ base % 4096 ≠ 0 ∨ size % 4096 ≠ 0 ∨ base / 2 ^ 52 ≠ 0 ∨ (size ≠ 0 ∧ !c.bit 3 15) then
      .next (cmdRefuse cmd .decodeError 0 s)
    else match ctxOf s c.ctx with
      | some x =>
        if !x.destroying then .next (cmdRefuse cmd (.specific 0x80) 0 s)
        else if c.bit 3 0 then .next (cmdRefuse cmd .pendingShutdown 0 s)
        else .next (modCmd cmd (fun y => { y with delayed := true }) s)
      | none => .next (createOn c s)
  | none => .next s

/-! CTX_DESTROY (R187, R188). The steps are marked in the command's `after`: [1] the context is faulted, its ports and
channels are stopping; [2] its contracts and credits are being returned; [2, id] then waiting on clear `id`. -/

/-- Steps 1 and 2 begin. -/
def destroyBegin (c : Cmd) (x : Ctx) (s : State) : State :=
  let s1 := modCtx c.ctx (fun y => { y with destroying := true }) s
  let s2 := drainCtxPorts c.ctx (ctxSpan s x) (faultCtx .unitFailed .timeoutWatchdog c.ctx s1)
  let s3 := ((spanChans (ctxSpan s x)).filter fun k => chanServes s k.1 k.2.1 k.2.2 c.ctx).foldl (fun t k => beginStop k.1 k.2.1 k.2.2 false .none t) s2
  let s4 := issueAll .waits ((s3.wb.filter fun e => e.ctx == c.ctx).map WbEntry.id) s3
  modCmd c.id (fun y => { y with after := [1] }) s4

/-- Has everything of the context come to rest (steps 1 and 2, 02 R48)? -/
def destroyQuiet (s : State) (c : Nat) (x : Ctx) : Bool :=
  !(s.ops.any fun o => o.ctx == c) && !(s.wb.any fun e => e.ctx == c) &&
    ((portsOfCtx s (ctxSpan s x) c).all fun (n, p) => decide ((portOf s n p).state = .disabled)) &&
    ((spanChans (ctxSpan s x)).all fun k => !chanServes s k.1 k.2.1 k.2.2 c || decide ((chanOf s k.1 k.2.1 k.2.2).state = .idle)) &&
    (x.pockets.all fun (_, p) => decide (p.state ≠ .clearing))

/-- Step 2 ends with BOUND = 0 on its ports and channels; step 3 begins. -/
def destroyReturn (c : Cmd) (x : Ctx) (s : State) : State :=
  let s1 := (portsOfCtx s (ctxSpan s x) c.ctx).foldl (fun t (n, p) => regPut 0 (portReg n p 8) (regGet t 0 (portReg n p 8) % 2048) t) s
  let s2 := ((spanChans (ctxSpan s x)).filter fun k => chanServes s k.1 k.2.1 k.2.2 c.ctx).foldl (fun t (n, m, k) =>
    regPut 0 (chanReg n m k 0) (chanCtl t n m k - 2048) t) s1
  let s3 := (s2.contracts.filter fun k => k.ctx == c.ctx).foldl (fun t k => startUnbind k.kind k.target .none t) s2
  let s4 := endGrants (fun g => g.part == x.part && g.tctx == c.ctx) false s3
  let s5 := endDeferred (fun d => d.part == x.part && d.tctx == c.ctx) .creditDenied s4
  modCmd c.id (fun y => { y with after := [2] }) (returnCredits c.ctx (qHome c.queue) x.part x.tenant s5)

/-- Step 4: locks are force-released, and every counter and lock is unmapped. -/
def destroySync (c : Nat) (x : Ctx) (s : State) : Nat × State :=
  let held := locksHeld (fun h => h.1 == c) s
  let s1 := held.foldl forceRelease s
  (held.length, x.cmap.foldl (fun t (k, v) => unmapObject t (k / 65536) c (k % 65536) (v - 1)) s1)

/-- The queues not in the cache whose enabled bit or doorbell-pending bit is 1 and whose descriptor names a context. -/
def awayQueues (s : State) (c : Nat) : List Nat :=
  (((s.qEnabled ++ s.dbPend).map (·.1)).eraseDups.filter fun q => !qPriv q && (queueOf s q).isNone && dCtx (readDesc s q).2 == c)

/-- Step 5: the context's queue-cache entries are written back with QSTATE DISABLED and invalidated. The enabled bit of each
of its queues falls, of those not in the cache too (05 R150). -/
def destroyQueues (c : Nat) (s : State) : State :=
  let s0 := (awayQueues s c).foldl (fun t q => setDb q false (setEnabled q false t)) s
  (s0.queues.filterMap fun (q, r) => match r with
    | some x => if !qPriv q && dCtx x.words == c then some q else none
    | none => none).foldl (fun t q =>
      dropQueue q (startBack q (setDb q false (setEnabled q false (modQueue q (fun r => { r with qstate := .disabled, pinned := false }) t))))) s

/-- What NMUs and SABs hold is zeroed (13 R401). Their contents serve only commands under way, and a command of another context loads them
again. -/
def destroyUnits (x : Ctx) (s : State) : State := (ctxSpan s x).slices.foldl (fun t n => zeroUnits n t) s

/-- Steps 4 to 6 (R187): the pockets enter CLEARING and their clear starts. COUNT holds the lines that step 6 clears, those
of a failed slice left out (R188, 14 R436). -/
def destroyClear (c : Cmd) (x : Ctx) (s : State) : State :=
  let (locks, s1) := destroySync c.ctx x s
  let s2 := destroyUnits x (destroyQueues c.ctx s1)
  let parts := x.pockets.flatMap fun (i, p) => match storeOf (i / 16) with
    | some st => if p.valid && p.state == .resident then pocketLines (ctxSpan s x) st p else []
    | none => []
  let cleared := parts.filter fun e => !slcFailed s2 (e.1 / 1024)
  let (id, s3) := startClear x.part parts s2
  let clr (y : Ctx) : Ctx := { y with pockets := y.pockets.map fun (i, p) => (i, { p with state := if p.valid then .clearing else p.state }) }
  modCmd c.id (fun y => { y with phase := .waiting, after := [2, id], count := 256 * partLines cleared, result := locks })
    (modCtx c.ctx clr s3)

/-- TAINT returns to 0 when the clear has completed and no context is left (13 R411). -/
def refreshTaint (p : Nat) (s : State) : State :=
  let r := partOf s p
  if r.taint ∧ (partCtxs s p).isEmpty ∧ !(r.span.slices.any fun n => (sliceOf s n).cutOff) then setPart p { r with taint := false } s else s

/-- Step 7: the context number is free; commands that joined this destroy complete with it (R188). -/
def finishDestroy (c : Cmd) (s : State) : State :=
  match ctxOf s c.ctx with
  | some x =>
    let s1 := tdispError c.ctx s
    let s2 := refreshReady (setCtx c.ctx none s1) c.ctx
    let r := partOf s2 x.part
    let s3 := if (partCtxs s2 x.part).any fun e => e.2.tenant == x.tenant then s2
      else setPart x.part { r with active := if r.active = x.tenant then 0 else r.active, met := r.met.filter (· != x.tenant) } s2
    let joined := (s3.cmds.filter fun d => d.phase == .admitted && d.opcode == 0x402 && d.ctx == c.ctx && d.after == [9]).map Cmd.id
    cmdDone c.id .ok c.count c.result (joined.foldl (fun t i => cmdDone i .ok 0 0 t) (refreshTaint x.part s3))
  | none => cmdDone c.id .ok c.count c.result s

/-- CTX_DESTROY (R187, R188): its next step, once what the step waits for has come. -/
def execCtxDestroy (cmd : Nat) (s : State) : Res :=
  match admittedAs s cmd 0x402 with
  | some c =>
    match ctxOf s c.ctx with
    | some x =>
      if c.after.isEmpty then
        if x.destroying then .next (modCmd cmd (fun y => { y with after := [9] }) s)
        else .next (whenAwake (ctxSpan s x).slices 7 c.queue s (destroyBegin c x))
      else if c.after = [1] then
        if destroyQuiet s c.ctx x then .next (destroyReturn c x s) else .next s
      else if c.after = [2] then
        if ctxContract s c.ctx ∨ (s.fab.reqs.any fun r => r.ctx == c.ctx && !r.gone) then .next s
        else .next (whenAwake (ctxSpan s x).slices 7 c.queue s (destroyClear c x))
      else .next s
    | none => if c.after.isEmpty then .next (cmdRefuse cmd (.specific 0x80) 0 s) else .next s
  | none => .next s

/-! Watchdogs (10 R321, 12 R374) -/

/-- A waiting GRANT ends: its command completes TIMEOUT_WATCHDOG, and the request is withdrawn (12 R374). -/
def endDeferredReq (r : FabReq) (s : State) : State :=
  forgetReq r (sendWithdraw r (finish r.origin .timeoutWatchdog s))

/-- A deferred GRANT that its command waits for. -/
def deferredReq (s : State) (id : Nat) : Option FabReq :=
  s.fab.reqs.find? fun r => r.id == id && r.kind == .grant && r.deferred && !r.noWait && !r.gone

/-- WAIT_TIMEOUT (R321, R328, 11 R344; 12 R374): TMO µs have passed for a waiter or a deferred GRANT. -/
def execWaitTimeout (waiter : Nat) (s : State) : Res :=
  match s.sync.waiters.find? fun w => w.id == waiter with
  | some w =>
    if w.tmo ≠ 0 ∧ w.paused.isNone then .next (endWaiters (fun v => v.id == waiter) .timeoutWatchdog (timeTo (w.since + w.tmo * 100) s))
    else .next s
  | none => match deferredReq s waiter with
    | some r => if r.tmo ≠ 0 ∧ r.paused.isNone then .next (endDeferredReq r (timeTo (r.since + r.tmo * 100) s)) else .next s
    | none => .next s

/-- CONTEXT_WATCHDOG (R321): the context's WDOG ms have passed since admission. -/
def execContextWatchdog (waiter : Nat) (s : State) : Res :=
  match s.sync.waiters.find? fun w => w.id == waiter with
  | some w =>
    if w.paused.isNone then .next (endWaiters (fun v => v.id == waiter) .timeoutWatchdog (timeTo (w.since + wdogRc s w.ctx) s))
    else .next s
  | none => match deferredReq s waiter with
    | some r => if r.paused.isNone then .next (endDeferredReq r (timeTo (r.sentAt + wdogRc s r.ctx) s)) else .next s
    | none => .next s

end Sys2Proof.Machine
end

