-- ==== Sys2Proof/Machine/FabSend.lean ====
section
/-! DEFINITION. Machine/FabSend.lean: what a source sends through the fabric ports: request frames, their tags and windows
(12 R359 to R364, R372, R380). -/
namespace Sys2Proof.Machine

/-- Does an outward request travel as a request frame, under a tag of its fabric port (R363)? -/
def FabKind.tagged : FabKind → Bool
  | .portRead => true
  | .coreWrite => true
  | .pieceWrite => true
  | .pieceRead => true
  | _ => false

/-- The tags in use at a fabric port for a target device (R363); the block's own device has one set of them (log entry 35). -/
def tagsInUse (s : State) (port dev : Nat) : List Nat :=
  (s.fab.reqs.filter fun r => r.kind.tagged && r.sent && (r.port == port || ownDev s dev) && r.dev == dev).map FabReq.tag

/-- Bytes sent to one target slice on a handle and not yet acknowledged (R372). -/
def windowUsed (s : State) (r : FabReq) : Nat :=
  ((s.fab.reqs.filter fun q => q.kind == .pieceWrite && q.sent && q.dev == r.dev && q.handle == r.handle && q.tslice == r.tslice &&
    q.part == r.part).map FabReq.len).foldl (· + ·) 0

/-- Remote read bytes outstanding for a partition (R380). -/
def readsOut (s : State) (part : Nat) : Nat :=
  ((s.fab.reqs.filter fun q => q.kind == .pieceRead && q.sent && q.part == part).map FabReq.len).foldl (· + ·) 0

/-- May an outward request leave now: a tag is free (R363), and its window (R372) or read allowance (R380) holds it? -/
def canSend (s : State) (r : FabReq) : Bool :=
  decide ((tagsInUse s r.port r.dev).length < 64) &&
    (match r.kind with
      | .pieceWrite => decide (windowUsed s r + r.len ≤ r.win * 256)
      | .pieceRead => decide (readsOut s r.part + r.len ≤ 65536)
      | _ => true)

/-- Header words 0 to 5 with their TAG, bits 63:58 of the header, replaced (R363). -/
def withTag (ws : List Word) (tag : Nat) : List Word :=
  ws.set 1 (BitVec.ofNat 32 ((wordAt ws 1).toNat % 2 ^ 26 + tag % 64 * 2 ^ 26))

/-- Send one request under a free tag, and start its timer (R383); the bytes of a REMOTE_WRITE piece are counted as remote bytes
sent (06 R197). -/
def sendReq (r : FabReq) (s : State) : State :=
  let tag := unusedIn s.freeCtr 64 (tagsInUse s r.port r.dev)
  let s1 := if r.kind = .pieceWrite ∧ !ownDev s r.dev then teleAdd r.ctx 16 r.len (drawFree s) else drawFree s
  emit (.frame r.port (r.route :: withTag r.words tag) r.data r.poison)
    (modReq r.id (fun x => { x with sent := true, tag := tag, sentAt := s.rc }) s1)

/-- Send every request that may leave, in order. -/
def pump (s : State) : State :=
  (s.fab.reqs.filter fun r => r.kind.tagged && !r.sent && !r.gone).foldl (fun t r => if canSend t r then sendReq r t else t)
    { s with fab := { s.fab with reqs := s.fab.reqs.filter fun r => !(r.gone && !r.sent) } }

/-- Add an outward request that waits for its turn. -/
def addReq (r : FabReq) (s : State) : State :=
  let (id, s1) := freshId s
  { s1 with fab := { s1.fab with reqs := s1.fab.reqs ++ [{ r with id := id }] } }

/-- The six words of a header and its extension, low word first. -/
def hdrWords (hdr ext : Nat) : List Word :=
  let n (x : Nat) : Word := BitVec.ofNat 32 x
  [n hdr, n (hdr / 2 ^ 32), n (hdr / 2 ^ 64), n (hdr / 2 ^ 96), n ext, n (ext / 2 ^ 32)]

/-- A mesh extension (04 R85). -/
def extOf (dev stop ctx tenant cred : Nat) : Nat := dev * 2 ^ 48 + stop * 2 ^ 42 + ctx * 2 ^ 31 + tenant * 2 ^ 15 + cred

/-- A mesh stop as 8 × y + x. -/
def stopNo (p : Nat × Nat) : Nat := p.2 * 8 + p.1

/-- The pocket and the slices that a grant record describes (R371). -/
def recordPlace (ws : List Word) : Span × Pocket :=
  let w := wordAt ws 2; let spread := flag w 25
  ({ first := fld w 21 16, slog := fld w 15 13 },
   { valid := true, spread := spread, state := .resident, set := fld w 24 22, home := fld w 21 16, wr := true, rd := true,
     remote := true, base := fld w 8 0, bound := (wordAt ws 3).toNat })

/-- The target slice of an offset by the placement of a grant record (R364). -/
def recordSlice (ws : List Word) (off : Nat) : Nat :=
  let (sp, p) := recordPlace ws
  match storeOf (fld (wordAt ws 2) 31 30) with
  | some st => (locate sp st p off).slice
  | none => 0

/-- Pass a port request to the fabric (04 R89 step 3; 12 R359, R364): a read through the resolver; a core's write to the slice that
the held grant of its CRED places it on. -/
def passOut (r : Req) (ext : Nat) (ctx part : Nat) (s : State) : State :=
  let (id, s1) := freshId s
  let o := newOp s1 id r .remote [] [] false none false none 0 0
  let dev := bitsOf r.h.addr 61 46
  let held := s.fab.held.find? fun h => h.dev == dev && h.handle == ext % 32768
  let write := decide (r.h.kind ≠ 0)
  let route := match (if write then held else none) with
    | some h => routeWord dev 0 (recordSlice h.words (offsetOf r.h.addr)) 0
    | none => routeWord dev 1 0 0
  let q : FabReq :=
    { FabReq.blank with
      kind := if write then .coreWrite else .portRead, origin := .op id, dev := dev, ctx := ctx, part := part, home := r.slice
      port := Config.fabricPort r.slice dev, handle := ext % 32768, len := r.h.len + 1, route := route
      words := hdrWords r.raw.toNat ext, data := if write then r.data.map (·.1) else [], poison := if write then r.data.map (·.2) else [] }
  pump (addReq q { s1 with ops := s1.ops ++ [o] })

end Sys2Proof.Machine
end

