-- ==== Sys2Proof/Machine/Power.lean ====
section
/-! DEFINITION. Machine/Power.lean: operating points, the power commands and the power controller (15 R441, R442; 16 R466 to R480;
06 R191 to R195). -/
namespace Sys2Proof.Machine

/-! Operating points -/

/-- CLK_BANK at a point in MHz (R441): 0 to 4 for P0 to P4, 5 for PB. -/
def bankMHz (p : Nat) : Nat := [1500, 1350, 1200, 1050, 900, 1650].getD p 1500

/-- The higher of two points: the one with the faster clock. -/
def higherPoint (a b : Nat) : Nat := if bankMHz a < bankMHz b then b else a

/-- Ask for a point (R442): a change starts, or waits for the running one. -/
def requestPoint (p : Nat) (s : State) : State :=
  let c := s.ctl
  if c.slewing then { s with ctl := { c with next := if p = c.target then none else some p } }
  else if p = c.point then s
  else { s with ctl := { c with target := p, slewing := true }, power := { s.power with spanChange := true, winHi := higherPoint (higherPoint c.point p) s.power.winHi } }

/-- OP_CHANGE_DONE (R442): the change has ended; one that waited begins; locks that waited for it complete (R195). -/
def execOpChangeDone (s : State) : Res :=
  let c := s.ctl
  if !c.slewing then .next s
  else
    let s1 : State := { s with ctl := { c with point := c.target, slewing := false, next := none }, power := { s.power with ovr := 0 } }
    match c.next with
    | some p => if p = c.target then .next s1 else .next (requestPoint p s1)
    | none => .next (finishAll s1.power.lockWait .ok { s1 with power := { s1.power with lockWait := [] } })

/-! POWER_HINT, CAP_SET, FREQ_LOCK -/

/-- POWER_HINT (06 R191): it replaces the hint of the same context and KIND; DUR 0 only ends it. The power expected in RESULT is the
controller's own (free value). -/
def execPowerHint (cmd : Nat) (s : State) : Res :=
  match admittedAs s cmd 0x500 with
  | some c =>
    let lead := c.f 2 31 16; let dur := c.f 2 15 0; let kind := c.f 3 13 12; let pw := c.f 3 11 0
    let rest := s.power.hints.filter fun h => !(h.ctx == c.ctx && h.kind == kind)
    let new := if dur = 0 then [] else [{ ctx := c.ctx, kind := kind, start := s.rc + lead * 100, dur := dur * 100, power := pw : Hint }]
    .next (cmdDone cmd .ok 0 (Config.hintPower kind lead dur pw % 4096) { s with power := { s.power with hints := rest ++ new } })
  | none => .next s

/-- CAP_SET (06 R192, R193): a cap that is taken applies at the next power estimate, when the command completes. -/
def execCapSet (cmd : Nat) (s : State) : Res :=
  match admittedAs s cmd 0x501 with
  | some c =>
    let cap := c.f 2 11 0; let fl := floorNow s
    if cap < 0x140 ∨ 0x780 < cap then .next (cmdRefuse cmd .decodeError fl s)
    else if cap < fl ∧ !c.bit 2 31 then .next (cmdRefuse cmd .capBelowFloor fl s)
    else .next (modCmd cmd (fun x => { x with phase := .waiting, result := fl })
      { s with power := { s.power with capPend := s.power.capPend ++ [(cap, decide (cap < fl), cmd)] } })
  | none => .next s

/-- The end of a FREQ_LOCK that acts now (06 R194, R195): it waits for the change of point that it starts. -/
def lockNow (l : FLock) (o : Origin) (s : State) : State :=
  let other := match s.power.lock with
    | some k => decide (k.job ≠ l.job)
    | none => false
  if other then finish o (.specific 0x80) s
  else if l.mode = 0 then finish o .ok { s with power := { s.power with lock := none } }
  else
    let s1 : State := { s with power := { s.power with lock := some l, ovr := 0, rise := 0, boost := 0 } }
    let s2 := if s1.power.trip then s1 else requestPoint l.point s1
    if s2.ctl.slewing then { s2 with power := { s2.power with lockWait := s2.power.lockWait ++ [o] } } else finish o .ok s2

/-- FREQ_LOCK (06 R194, R195). -/
def execFreqLock (cmd : Nat) (s : State) : Res :=
  match admittedAs s cmd 0x502 with
  | some c =>
    let l : FLock := { mode := c.f 2 31 30, point := c.f 2 2 0, job := c.w 3, at_ := dwordAt c.words 4 }
    let wait (t : State) : State := modCmd cmd (fun x => { x with phase := .waiting }) t
    if 5 ≤ l.point then .next (cmdRefuse cmd .decodeError 0 s)
    else if l.at_ ≤ s.rc then .next (lockNow l (.cmd cmd) (wait s))
    else .next (wait { s with power := { s.power with lockPend := s.power.lockPend ++ [(l, .cmd cmd)] } })
  | none => .next s

/-- FREQ_LOCK_AT (06 R194): the REFCLK count reaches the earliest AT that a FREQ_LOCK waits for. -/
def execFreqLockAt (s : State) : Res :=
  match s.power.lockPend with
  | [] => .next s
  | e :: es =>
    let t := es.foldl (fun m x => Nat.min m x.1.at_) e.1.at_
    let now := s.power.lockPend.filter fun x => decide (x.1.at_ ≤ t)
    let s1 : State := { (timeTo t s) with power := { s.power with lockPend := s.power.lockPend.filter fun x => decide (t < x.1.at_) } }
    .next (now.foldl (fun u x => lockNow x.1 x.2 u) s1)

/-! The estimate (R466 to R468) -/

/-- Logical slice served by physical slice `i`: itself, the slice a spare serves, or 64 + k for a spare that serves none; none for a
slice that a spare has replaced. -/
def logicalOf (s : State) (i : Nat) : Option Nat :=
  if i < 64 then (if (sliceOf s i).spare.isSome then none else some i)
  else some (((List.range 64).find? fun n => (sliceOf s n).spare == some (i - 64)).getD i)

/-- Static power in microwatts of the shared logic and every physical slice at point `p` (R466). -/
def staticAt (nom : Bool) (p : Nat) (temps : List Nat) (s : State) : Nat :=
  sharedStatic nom p + ((List.range 68).map fun i => match logicalOf s i with
    | some n => sliceStatic nom i (pwrOf s n).st p (retCfg s n) (temps.getD i 0)
    | none => 0).foldl (· + ·) 0

/-- Power in microwatts of `n` events of a class in a window of 2 µs at point `p`. -/
def activity (nom : Bool) (cls p n : Nat) : Nat := weightOf nom cls p * n / 2000

/-- Counts of an estimate: class i of R467 counted for G class at 2 i and for B class at 2 i + 1. -/
def allActivity (nom : Bool) (p : Nat) (counts : List Nat) : Nat :=
  ((List.range 12).map fun i => activity nom (i / 2) p (counts.getD i 0)).foldl (· + ·) 0

/-- P_est or P_nom in microwatts (R466, R480). -/
def estimateAt (nom : Bool) (p : Nat) (counts temps : List Nat) (s : State) : Nat := staticAt nom p temps s + allActivity nom p counts

/-- P(X) of R468, from counts taken at point `p`. -/
def predictAt (nom : Bool) (p x : Nat) (counts temps : List Nat) (s : State) : Nat :=
  staticAt nom x temps s + allActivity nom x counts * bankMHz x / bankMHz p

/-- The B-class power of a group in the window (R470): 0 links, 1 memory, 2 compute. -/
def groupPower (p : Nat) (counts : List Nat) (g : Nat) : Nat :=
  let b (cls : Nat) : Nat := activity false cls p (counts.getD (2 * cls + 1) 0)
  if g = 0 then b 4 + b 5 else if g = 1 then b 2 + b 3 else b 0 + b 1

/-- PWR_CFG (R481). -/
def pwrCfg (s : State) : Nat := regGet s 0xC0000028 (regNo 0x80 0x340)

/-- A bubble fraction. -/
def bubOf (m : NMap Nat) (g : Nat) : Nat := mget (fun _ => 0) m g
def setBub (m : NMap Nat) (g b : Nat) : NMap Nat := mput (fun _ => 0) m g b

/-- Step 1 of R470 over a list of groups: the fractions and what is left of E. -/
def raiseBubbles (pg : Nat → Nat) (gs : List Nat) (e : Nat) (m : NMap Nat) : Nat × NMap Nat :=
  gs.foldl (fun (e, m) g =>
    if e = 0 ∨ pg g = 0 then (e, m)
    else
      let old := bubOf m g
      let new := Nat.min 31 (old + ceilDiv (32 * e) (pg g))
      (e - pg g * (new - old) / 32, setBub m g new)) (e, m)

/-- Step 4 of R470 on one group (R471): the fraction falls as far as the predicted rise, of what is left of 16 W, allows. -/
def releaseGroup (pg : Nat → Nat) (acc : Nat × NMap Nat) (g : Nat) : Nat × NMap Nat :=
  let (room, m) := acc
  let b := bubOf m g
  let rise (b' : Nat) : Nat := pg g * (b - b') / (32 - b)
  let b' := ((List.range (b + 1)).find? fun x => decide (rise x ≤ room)).getD b
  (room - rise b', setBub m g b')

/-- Hints whose headroom is held now (R478), of the 64 with the earliest start. -/
def heldHints (s : State) : List Hint :=
  let live := s.power.hints.filter fun h => decide (s.rc < h.start + h.dur)
  let used := live.filter fun h => decide ((live.filter fun k => decide (k.start < h.start)).length < 64)
  (used.take 64).filter fun h => decide (s.rc < h.start) && decide (h.start ≤ s.rc + h.power * 125 * 100 / 8000 + 800)

/-- The groups from which a hint's headroom is taken: those of lower priority, then its own (R24, R478). -/
def hintGroups (kind : Nat) : List Nat := if kind = 2 then [0] else if kind = 1 then [0, 1] else [0, 1, 2]

/-- What an estimate is decided on. -/
structure Window where
  p : Nat
  pest : Nat
  eff : Nat
  cap : Nat
  pg : List Nat
  spans : Bool
  hot : Bool

/-- cap_eff in microwatts (R470, R474, R476): never below the floor. -/
def capEff (s : State) : Nat :=
  Nat.max (floorNow s * 125000) (s.power.cap * 125000 - s.power.cut - s.power.sharedCut)

/-- The caps that wait take effect (06 R192, R193). -/
def applyCaps (s : State) : State :=
  s.power.capPend.foldl (fun t (cap, below, id) =>
    let r := match cmdOf t id with
      | some c => c.result
      | none => 0
    cmdDone id .ok 0 r { t with power := { t.power with cap := cap, susp := below } })
    { s with power := { s.power with capPend := [] } }

/-- Temperature (R476, R477): what cap_eff has fallen by never takes it below the floor. -/
def thermal (temps : List Nat) (s : State) : State :=
  let hot := temps.any fun t => decide (100 ≤ t)
  let cool := temps.all fun t => decide (t < 98)
  let p := s.power
  let cut := if hot then Nat.min (p.cut + 2000000) ((p.cap - floorNow s) * 125000) else if cool then p.cut - 2000000 else p.cut
  let trip := if temps.any fun t => decide (105 ≤ t) then true else if temps.all fun t => decide (t ≤ 100) then false else p.trip
  let tripAt := if temps.any fun t => decide (105 ≤ t) then (match p.tripAt with
      | some t => some t
      | none => some s.rc) else none
  let s1 : State := { s with power := { p with cut := cut, trip := trip, tripAt := tripAt, temps := mputList (fun _ => 0) [] 0 temps } }
  if trip then requestPoint 4 { s1 with power := { s1.power with bub := setBub (setBub (setBub [] 0 31) 1 31) 2 31 } }
  else if p.trip then (match p.lock with
    | some l => requestPoint l.point s1
    | none => s1)
  else s1

/-- RAIL_LIM.LIM of a logical slice in units of 20 mA (R475). -/
def railLim (s : State) (n : Nat) : Nat := regGet s (Config.fmax n).toNat (regNo n 0x1020) % 256

/-- Rail limits (R474): `currents` in mA by physical slice, the shared phase group's at 68. The amount by which the shared limit
reduces cap_eff is open (free value). -/
def rails (currents : List Nat) (s : State) : State :=
  let k (i : Nat) : Nat := match logicalOf s i with
    | some n => let c := currents.getD i 0; let lim := 20 * railLim s n; if lim < c then Nat.min 31 (ceilDiv (32 * (c - lim)) c) else 0
    | none => 0
  let s1 := (List.range 68).foldl (fun t i => match logicalOf s i with
    | some n =>
      let p := t.power
      { t with power := { p with
          rail := mput (fun _ => 0) p.rail n (k i)
          windows := if 0 < k i then mput (fun _ => 0) p.windows n (satAdd 16 (mget (fun _ => 0) p.windows n) 1) else p.windows
          iavg := mput (fun _ => 0) p.iavg i (Nat.min 255 (currents.getD i 0 / 20)) } }
    | none => t) s
  let sh := currents.getD 68 0 / 20
  let acted := (List.range 68).any fun i => decide (0 < k i)
  let s2 : State := { s1 with power := { s1.power with
      sharedI := sh, lastRail := if acted then some s.rc else s1.power.lastRail
      sharedCut := if Config.sharedLimit < sh then Config.freeNat s1.freeCtr 1 else 0 } }
  if Config.sharedLimit < sh then drawFree s2 else s2

/-- The part of R470 to R472 that follows the fractions: steps of the point, which a thermal trip keeps at P4 (R477). `pr` predicts
the power at a point. -/
def pointSteps (w : Window) (e : Nat) (full : Bool) (pr : Nat → Nat) (s : State) : State :=
  let p := s.power; let hyst := bitsOf (pwrCfg s) 7 0 * 125000; let locked := p.lock.isSome; let pt := s.ctl.point
  let zero := p.bub.isEmpty
  let ovr := if w.spans then p.ovr else if 0 < e ∧ full then p.ovr + 1 else 0
  let down := decide (4 ≤ ovr) && !locked && decide (pt ≠ 4)
  let unreach := if e = 0 then false else p.unreach || (decide (4 ≤ ovr) && (locked || decide (pt = 4)))
  let fits (x : Nat) : Bool := decide (pr x + hyst ≤ w.eff) && decide (pr x ≤ w.pest + 16000000)
  let up := zero && !locked && !p.trip && decide (0 < pt ∧ pt ≤ 4)
  let rise := if w.spans then p.rise else if up && fits (pt - 1) then p.rise + 1 else 0
  let railQuiet := match p.lastRail with
    | some t => decide (t + 10000 ≤ s.rc)
    | none => true
  let pbOk := bitOf (pwrCfg s) 30 && !locked && zero && decide (pr 5 + hyst ≤ w.eff) && railQuiet && !w.hot && !p.trip
  let boost := if w.spans then p.boost else if decide (pt = 0) && pbOk && decide (pr 5 ≤ w.pest + 16000000) then p.boost + 1 else 0
  let s1 : State := { s with power := { p with ovr := ovr, unreach := unreach, rise := rise, boost := boost } }
  if w.spans || p.trip then s1
  else if pt = 5 ∧ !pbOk then requestPoint 0 s1
  else if down then requestPoint (if pt = 5 then 0 else pt + 1) { s1 with power := { s1.power with ovr := 0, rise := 0, boost := 0 } }
  else if 25 ≤ rise then requestPoint (pt - 1) { s1 with power := { s1.power with rise := 0 } }
  else if 25 ≤ boost then requestPoint 5 { s1 with power := { s1.power with boost := 0 } }
  else s1

/-- The reasons in force (R481). -/
def reasonsNow (slope hint : Bool) (s : State) : Nat :=
  let p := s.power
  b2n (!p.bub.isEmpty) + 2 * b2n (decide (0 < s.ctl.point ∧ s.ctl.point ≤ 4) && p.lock.isNone && !p.trip) + 4 * b2n p.unreach + 8 * b2n slope +
    16 * b2n hint + 32 * b2n (!p.rail.isEmpty) + 64 * b2n (decide (0 < p.cut)) + 128 * b2n p.trip + 256 * b2n p.susp

/-- The counters of R482: 2 µs for each reason in force in the window, an episode for each that begins. -/
def countReasons (new : Nat) (s : State) : State :=
  let p := s.power
  let us := (List.range 9).foldl (fun m k => if bitOf p.reasons k then mput (fun _ => 0) m k (mget (fun _ => 0) m k + 2) else m) p.reasonUs
  let ep := (List.range 9).foldl (fun m k => if bitOf new k ∧ !bitOf p.reasons k then mput (fun _ => 0) m k (mget (fun _ => 0) m k + 1) else m) p.reasonEp
  let pr := (List.range 32).foldl (fun m q =>
    if (partOf s q).state ≠ .absent ∧ (partOf s q).span.slices.any (fun n => decide (0 < mget (fun _ => 0) p.rail n)) then
      mput (fun _ => 0) m q (mget (fun _ => 0) m q + 2) else m) p.partRail
  { s with power := { p with reasons := new, reasonUs := us, reasonEp := ep, partRail := pr } }

/-- The model energy of a window (17 R501): `charges` names a context and a class (context × 8 + class) with its count. -/
def chargeModel (p : Nat) (temps : List Nat) (charges : List (Nat × Nat)) (s : State) : State :=
  let s1 := charges.foldl (fun t (k, n) =>
    let e := weightOf false (k % 8) p * n / 1000
    match ctxOf t (k / 8) with
    | some x => setPart x.part { partOf t x.part with energy := (partOf t x.part).energy + e } (modCtx (k / 8) (fun y => { y with energy := y.energy + e }) t)
    | none => t) s
  (List.range 32).foldl (fun t q =>
    let r := partOf t q
    if r.state = .absent then t
    else
      let e := ((r.span.slices).map fun n => 2 * sliceStatic false n (pwrOf t n).st p (retCfg t n) (temps.getD n 0)).foldl (· + ·) 0
      let act := ((ctxList t).filter fun c => c.2.part == q && c.2.state == .active).map (·.1)
      let t1 := setPart q { r with energy := r.energy + e } t
      if r.active = 0 then t1 else act.foldl (fun u c => modCtx c (fun y => { y with energy := y.energy + e / act.length }) u) t1) s1

/-- One estimate (R466 to R480), its window closed. -/
def estimate (counts temps currents : List Nat) (charges : List (Nat × Nat)) (s : State) : State :=
  let spans := s.power.spanChange || s.ctl.slewing
  let p := if spans then higherPoint s.power.winHi s.ctl.point else s.ctl.point
  let s1 := thermal temps (applyCaps s)
  let own := estimateAt false p counts temps s1
  let match_ := bitOf (pwrCfg s1) 31
  let both (f : Bool → Nat) : Nat := if match_ then Nat.max (f false) (f true) else f false
  let pest := both fun nom => estimateAt nom p counts temps s1
  let pg := (List.range 3).map (groupPower p counts)
  let pgf (g : Nat) : Nat := pg.getD g 0
  let eff := capEff s1
  let held := heldHints s1
  let hintW := (held.map fun h => h.power * 125000).foldl (· + ·) 0
  let estB := (pg).foldl (· + ·) 0
  let fast := decide (s1.power.estB + 16000000 < estB)
  let eSlope := if fast then estB - s1.power.estB - 16000000 else 0
  let e0 := Nat.max (pest - eff) eSlope
  let e := Nat.max (pest + hintW - eff) eSlope
  let full := (List.range 3).all fun g => decide (pgf g = 0) || decide (bubOf s1.power.bub g = 31)
  let (rest, m1) := raiseBubbles pgf [0, 1, 2] e0 s1.power.bub
  let m2 := if held.isEmpty then m1 else (held.foldl (fun (acc : Nat × NMap Nat) h =>
      let slack := acc.1
      let need := h.power * 125000
      let (_, m') := raiseBubbles pgf (hintGroups h.kind) (need - slack) acc.2
      (slack - need, m')) (eff - pest, m1)).2
  let hyst := bitsOf (pwrCfg s1) 7 0 * 125000
  let mayRelease := !spans && !s1.power.trip && held.isEmpty && !fast && decide (pest + hyst ≤ eff)
  let m3 := if mayRelease then ([2, 1, 0].foldl (releaseGroup pgf) (16000000, m2)).2 else m2
  let slope := fast || (mayRelease && !m3.isEmpty) || (bitOf s1.power.reasons 3 && !m3.isEmpty && !mayRelease && decide (rest = 0))
  let w : Window := { p := p, pest := pest, eff := eff, cap := s1.power.cap, pg := pg, spans := spans, hot := temps.any fun t => decide (90 ≤ t) }
  let s2 : State := { s1 with power := { s1.power with
      bub := if s1.power.trip then s1.power.bub else m3, est := Nat.min 65535 (own / 125000), estB := estB } }
  let s3 := pointSteps w e full (fun x => both fun nom => predictAt nom p x counts temps s1) s2
  let s4 := rails currents s3
  let s5 := chargeModel p temps charges s4
  let live := s5.power.hints.filter fun h => decide (s5.rc < h.start + h.dur)
  let s6 := countReasons (reasonsNow slope (!held.isEmpty) s5) s5
  { s6 with power := { s6.power with
      hints := live, spanChange := s6.ctl.slewing
      winHi := if s6.ctl.slewing then higherPoint s6.ctl.point s6.ctl.target else s6.ctl.point } }

/-- ESTIMATE_WINDOW (R466): every 2 µs the controller closes a window. Its counts, sensor readings, currents and charges are the
environment's. -/
def execEstimateWindow (counts temps currents : List Nat) (charges : List (Nat × Nat)) (s : State) : Res :=
  if s.ctl.deep = 2 ∨ s.ctl.inReset then .next s
  else
    let due := Nat.max ((s.power.lastEst / 200 + 1) * 200) (roundUp s.rc 200)
    .next (estimate counts temps currents charges { s with rc := due, power := { s.power with lastEst := due } })

/-- THERMAL_TRIP_TIMEOUT (R477): a sensor has stayed at 105 °C for 1 ms; THERM_TRIP_N is driven low. -/
def execThermalTripTimeout (s : State) : Res :=
  match s.power.tripAt with
  | some t => .next { (timeTo (t + 100000) s) with power := { s.power with thermOut := true } }
  | none => .next s

end Sys2Proof.Machine
end

