-- ==== Sys2Proof/Machine/WeaveCmds.lean ====
section
/-! DEFINITION. Machine/WeaveCmds.lean: WEAVE_INSTALL, CONTRACT_BIND, SLEEVE_CFG and frame boundaries (08 R253 to R268, 06 R189,
R190, R193; 02 R54, R55). -/
namespace Sys2Proof.Machine

/-! The checks of a table (R257) -/

/-- The slots an entry names (R255). -/
def eSlots (e : Word × Word) : List Nat :=
  (List.range (eCountM1 e + 1)).flatMap fun p => (List.range (eLenM1 e + 1)).map fun i => eStart e + p * ePeriod e + i

/-- Check 5 of one entry. -/
def entryOk (t : List Word) (e : Word × Word) : Bool :=
  let o := eOwner e
  decide (fld e.1 21 12 = 0) && decide (eGroup e ≤ 8) && (decide (o = 0) || decide (o = 63) || decide (wOwner t o ≠ 0)) &&
    (if ePeriod e = 0 then decide (eCountM1 e = 0) else decide (eLenM1 e + 1 ≤ ePeriod e)) &&
    decide (eStart e + eCountM1 e * ePeriod e + eLenM1 e < wFL t)

/-- Do two entries with nonzero owner indices name one slot? -/
def entriesMeet (a b : Word × Word) : Bool :=
  decide (eGroup a = eGroup b) && decide (eOwner a ≠ 0) && decide (eOwner b ≠ 0) && (eSlots b).any (eCovers a)

/-- The first entry that names a slot an earlier one names (check 6). -/
def firstClash (es : List (Word × Word)) : Option Nat :=
  (List.range es.length).find? fun j => (es.take j).any fun a => entriesMeet a (es.getD j (0, 0))

/-- Checks 1 to 6: the number of the first that fails with its index, where the check has one. `read` are the words read. -/
def tableBad (read : List Word) : Option (Nat × Option Nat) :=
  let w (i : Nat) : Word := wordAt read i
  let es := (List.range (wNent read)).map (wEntry read)
  if fld (w 0) 31 24 ≠ 1 ∨ fld (w 0) 23 13 ≠ 0 ∨ fld (w 1) 31 11 ≠ 0 ∨ w 4 ≠ 0 ∨ w 5 ≠ 0 ∨ w 6 ≠ 0 ∨ w 7 ≠ 0 then some (1, none)
  else if read.foldl (· + ·) 0 ≠ 0 then some (2, none)
  else if wFL read < 256 ∨ 4096 < wFL read ∨ 2012 < wNent read then some (3, none)
  else match (List.range 64).find? fun k => decide (wOwner read k ≠ 0) && (decide (k = 0) || decide (k = 63) || !ownerValid (wOwner read k)) with
    | some k => some (4, some k)
    | none => match es.findIdx? fun e => !entryOk read e with
      | some i => some (5, some i)
      | none => (firstClash es).map fun i => (6, some i)

/-- The owner indices that hold slots of a table (1 to 62). -/
def usedOwners (t : List Word) : List Nat :=
  (List.range 62).map (· + 1) |>.filter fun k => (List.range (wNent t)).any fun i => eOwner (wEntry t i) == k

/-- The groups in which an owner index holds slots. -/
def groupsOf (t : List Word) (k : Nat) : List Nat :=
  (List.range 9).filter fun g => (List.range (wNent t)).any fun i => eOwner (wEntry t i) == k && eGroup (wEntry t i) == g

/-- SLEEVE_CFG of a slice once every change admitted has taken effect (R259). -/
def latestSleeve (s : State) (n : Nat) : Nat :=
  match (sliceOf s n).pendSleeve.getLast? with
  | some p => p.value
  | none => sleeveCfg s n

/-- The background rule of R256 on one group. -/
def bgOk (t : List Word) (g : Nat) : Bool :=
  let l := (List.range (wFL t)).filter fun f => slotBg t g f
  decide (ceilDiv (wFL t) 100 ≤ l.length) && decide ((gapsOf (wFL t) l).foldl Nat.max 0 ≤ 256)

/-- Every single-slot group set (R249), as a set code of its store. -/
def plainSets : List GSet :=
  ((List.range 4).map fun i => ({ store := .w, set := i, acc := false } : GSet)) ++
    ((List.range 7).map fun i => ({ store := .a, set := i, acc := false } : GSet)) ++ [{ store := .p, set := 0, acc := false }]

/-- The first cycles of what an owner's P-store slots serve: pairs, and the slots left over (check 10; log entry 31). -/
def pairUnits : List Nat → List Nat
  | a :: b :: rest => if b = a + 1 then a :: pairUnits rest else a :: pairUnits (b :: rest)
  | l => l

/-- Check 10 for one owner in one group set: its smallest gap is at least ⌈q / r⌉. -/
def gapOk (t : List Word) (o : Nat) (g : GSet) : Bool :=
  let l := servedAt t o g
  let u := if g.store = .p then pairUnits l else l
  (gapsOf (wFL t) u).all fun x => decide (ceilDiv (ownerQ o g) (ownerRate o g) ≤ x)

/-- A contract that holds once every change admitted has taken effect (R259). -/
def Contract.stays (c : Contract) : Bool := !c.unbinding

/-- Do the slots of an owner differ between two tables? -/
def slotsDiffer (t u : List Word) (o : Nat) : Bool :=
  (List.range 9).any fun g => (List.range (Nat.max (wFL t) (wFL u))).any fun f =>
    (decide (slotOwner t g f = o) != decide (slotOwner u g f = o))

/-- Checks 7 to 11 on one slice: the check, and its index or the contract's KIND and TARGET. -/
def sliceBad (s : State) (t : List Word) (n : Nat) : Option (Nat × Option Nat) :=
  let used := usedOwners t
  let inPart (k : Nat) : Bool := match partOfSlice s n with
    | some p => let sp := oSpan (wOwner t k); sp.has n && sp.slices.all (partOf s p).span.has
    | none => false
  match used.find? fun k => !inPart k with
  | some k => some (7, some k)
  | none => match used.find? fun k => (groupsOf t k).any fun g => !ownerGroupOk (latestSleeve s n) (wOwner t k) g with
    | some k => some (8, some k)
    | none => if (List.range 9).any fun g => !bgOk t g then some (9, none)
      else match used.find? fun k => plainSets.any fun g => !gapOk t (wOwner t k) g with
        | some k => some (10, some k)
        | none =>
          let old := latestWeave s n
          ((s.contracts.filter fun c => c.stays && (oSpan c.owner).has n).find? fun c => decide (wFL old ≠ wFL t) || slotsDiffer old t c.owner).map
            fun c => (11, some (c.kind * 2 ^ 31 + c.target))

/-- The slices that a mask names. -/
def maskSlices (m : Nat) : List Nat := (List.range 64).filter fun n => bitOf m n

/-- What WEAVE_INSTALL decides: a status and RESULT, or the table to install with the floor it gives. An index that the check
does not have is open (log entry 32). -/
inductive Weaving where
  | refuse (st : Status) (result : Nat)
  | pass (floor : Nat)

/-- All checks of R257 on the words read. -/
def weaveChecks (s : State) (t : List Word) (ns : List Nat) : Weaving :=
  let open_ := Config.freeNat s.freeCtr 0 % 65536
  let bad (n : Nat) (x : Nat × Option Nat) : Weaving :=
    if x.1 = 11 then .refuse .rejectedContract (x.2.getD 0)
    else .refuse (.specific 0x80) (x.1 * 2 ^ 24 + n * 65536 + x.2.getD open_)
  match tableBad t with
  | some x => bad (ns.headD 0) x
  | none => match ns.findSome? fun n => (sliceBad s t n).map fun x => (n, x) with
    | some (n, x) => bad n x
    | none =>
      let fl := floorOf s fun n => if ns.contains n then t else latestWeave s n
      if !s.power.susp ∧ s.power.cap < fl then .refuse .capBelowFloor fl else .pass fl

/-- WEAVE_INSTALL on its table (R257 to R259). -/
def weaveOn (c : Cmd) (ns : List Nat) (s : State) : State :=
  let a := c.addr 4
  match cmdRead s (.queue c.queue) 2048 a 32 with
  | (some .ok, bs, s1) =>
    let head := wordsOfBytes 8 bs
    let more := if 2012 < wNent head then (some Status.ok, [], s1) else cmdRead s1 (.queue c.queue) 2048 (a + 32) (4 * (64 + 2 * wNent head))
    match more with
    | (some .ok, bs2, s2) =>
      let t := head ++ wordsOfBytes (bs2.length / 4) bs2
      match weaveChecks s2 t ns with
      | .refuse st r => cmdRefuse c.id st r (drawFree s2)
      | .pass fl =>
        if c.bit 6 0 then cmdDone c.id .ok 0 fl s2
        else
          let (id, s3) := freshId s2
          let p : PendWeave := { stamp := id, afterB := s.bcnt, table := t, origin := .cmd c.id }
          modCmd c.id (fun x => { x with phase := .waiting, result := fl })
            (ns.foldl (fun u n => modSlice n (fun r => { r with pendWeave := r.pendWeave ++ [p] }) u) s3)
    | (some st, _, s2) => cmdRefuse c.id st 0 s2
    | (none, _, s2) => cmdRefuse c.id .boundViolation 0 s2
  | (some st, _, s1) => cmdRefuse c.id st 0 s1
  | (none, _, s1) => cmdRefuse c.id .boundViolation 0 s1

/-- WEAVE_INSTALL (R257 to R259). -/
def execWeaveInstall (cmd : Nat) (s : State) : Res :=
  match admittedAs s cmd 0x420 with
  | some c =>
    let ns := maskSlices (c.addr 2)
    if ns.isEmpty ∨ bitOf (c.addr 4) 63 ∨ c.addr 4 % 64 ≠ 0 then .next (cmdRefuse cmd .decodeError 0 s)
    else .next (whenAwake ns 7 c.queue s (weaveOn c ns))
  | none => .next s

/-! CONTRACT_BIND (06 R189, R190; 08 R262, R263) -/

/-- The contract's context (R189): 2048 for none, and for a mover's contract. -/
def bindCtx (s : State) (c : Cmd) (kind target : Nat) : Nat :=
  let home := target / 8192 % 64; let port := target % 16
  if kind = 0 then
    if qPriv target then c.f 3 10 0 else match queueOf s target with
      | some r => dCtx r.words
      | none => 2048
  else if port = 10 then c.f 3 10 0
  else if port < 10 then (if portBound s home port then regGet s 0 (portReg home port 8) % 2048 else 2048)
  else 2048

/-- Every group set an owner is served in on a table, P-store pairs among them (R263). -/
def servedSets (t : List Word) (o : Nat) : List GSet :=
  (plainSets ++ [({ store := .p, set := 0, acc := true } : GSet)]).filter fun g => !(servedAt t o g).isEmpty

/-- The tiers whose NMUs a GEMV on an owner can use: those in UNIT of an NMU set, those in which another owner holds slots. -/
def gemvTiers (o : Nat) (sets : List GSet) : Nat :=
  ((List.range 4).filter fun i => if oKind o = 3 then bitOf (oUnit o) i else sets.any fun g => decide (g.store = .w ∧ g.set = i)).length

/-- May a GEMV be admitted on an owner that is served in these sets (R528): always counted for an NMU set (R189), else where all
three stores are reached? -/
def bindsGemv (o : Nat) (sets : List GSet) : Bool :=
  decide (oKind o = 3) || [Store.w, .a, .p].all fun st => sets.any fun g => decide (g.store = st)

/-- The largest L_path that a request of the target can meet on the owner (R189, R269, R353), by the kinds of request that the target sends
(log entry 104): a port's own requests, a mover's rows, a queue's CONVERT_COPY, the longest of its plain commands, and its GEMV. -/
def bindPath (s : State) (o kind target srcstop : Nat) (sets : List GSet) : Nat :=
  let home := target / 8192 % 64; let port := target % 16
  let stores := (sets.map GSet.store).eraseDups
  let ns := (oSpan o).slices
  let most (f : Store → Nat → Nat) : Nat := (stores.flatMap fun st => ns.map fun n => f st n).foldl Nat.max 0
  let pairs (st : Store) : Nat := b2n (sets.any fun g => g.acc && decide (g.store = st))
  let near := most fun st n => lPath s st home n
  if kind = 1 then
    if port = 10 then most fun st n => lMesh s st (srcstop % 8, srcstop / 8) n + pairs st
    else if port < 10 then most fun st n => portPath s st home n + pairs st
    else 8 + 2 * near
  else Nat.max (24 + 2 * near) (if bindsGemv o sets then 3 * gemvF s ns + 94 + 192 * gemvTiers o sets else 0)

/-- The bound of a bind: g_max the largest and q the least that its requests can meet (R189). -/
def bindBound (s : State) (o kind target srcstop qmax : Nat) : Nat :=
  let ts := (oSpan o).slices.map (latestWeave s)
  let used := ts.flatMap fun t => (servedSets t o).map fun g => (t, g)
  let used' := if kind = 0 ∧ oKind o = 3 ∧ (used.any fun e => decide (e.2.store = .w)) then used.filter fun e => decide (e.2.store = .w) else used
  let g := (used'.map fun e => gMax e.1 o e.2).foldl Nat.max 0
  let q := (used'.map fun e => ownerQ o e.2).foldl Nat.min 4096
  bindPath s o kind target srcstop (used.map (·.2)) + g * ceilDiv qmax q

/-- The first reason of R190 that refuses a bind. A home port's path enters its own slice through the mesh port where a spare serves it
(03 R74). -/
def bindReason (s : State) (c : Cmd) (kind target : Nat) : Option Nat :=
  let home := target / 8192 % 64; let port := target % 16; let o := c.w 4; let sp := oSpan o
  let mesh := decide (kind = 1 ∧ port = 10)
  let ctx := bindCtx s c kind target
  let declared (n : Nat) : Bool := bitOf (regGet s 0 (regNo n 0x220)) 31
  let span := sp.slices.filter (· < 64)
  let through := mesh || (decide (kind = 1 ∧ port < 10) && (sliceOf s home).spare.isSome)
  let enters := span.filter (· != home) ++ (if through then [home] else [])
  let part := partOfSlice s sp.first
  let inside := match part with
    | some p => sp.slices.all (partOf s p).span.has
    | none => false
  let ctxBad := if kind = 1 ∧ 12 ≤ port then false else match ctxOf s ctx with
    | some x => decide (part ≠ some x.part)
    | none => true
  let others := s.contracts.filter fun k => k.stays && k.owner == o
  let served := ((servedSets (latestWeave s home) o).map fun g => frameBytesOf (latestWeave s home) o g)
  let least := served.foldl Nat.min (served.headD 0)
  if kind = 0 ∧ !(match queueOf s target with
      | some r => r.pinned || qPriv target
      | none => qPriv target) then some 1
  else if kind = 1 ∧ port < 10 ∧ isPP1 s home port then some 2
  else if enters.any fun n => !declared n then some 3
  else if s.contracts.any fun k => k.stays && k.kind == kind && k.target == target then some 4
  else if !sp.has home ∨ !inside ∨ ctxBad then some 5
  else if !ownerValid o ∨ (span.all fun n => (servedSets (latestWeave s n) o).isEmpty) then some 6
  else if (0 < oSpanLog o ∧ !others.isEmpty) ∨ least < c.w 5 + (others.map Contract.rate).foldl (· + ·) 0 then some 7
  else none

/-- BIND. -/
def bindOn (c : Cmd) (kind target : Nat) (s : State) : State :=
  match bindReason s c kind target with
  | some r => cmdRefuse c.id .rejectedContract r s
  | none =>
    let b := bindBound s (c.w 4) kind target (c.f 3 21 16) (c.w 7)
    if c.w 8 ≠ 0 ∧ c.w 8 < b then cmdRefuse c.id .rejectedContract 8 s
    else
      let (id, s1) := freshId s
      let k : Contract :=
        { kind := kind, target := target, owner := c.w 4, rate := c.w 5, depth := c.w 6, qmax := c.w 7, bound := b
          ctx := bindCtx s c kind target, srcstop := c.f 3 21 16, tokens := c.w 6, backlog := 0, active := false, unbinding := false
          suspended := false, todo := (oSpan (c.w 4)).slices, stamp := id, origin := .cmd c.id }
      modCmd c.id (fun x => { x with phase := .waiting, result := b }) { s1 with contracts := s1.contracts ++ [k] }

/-- CONTRACT_BIND (R189, R190, R262, R263). -/
def execContractBind (cmd : Nat) (s : State) : Res :=
  match admittedAs s cmd 0x421 with
  | some c =>
    let kind := b2n (c.bit 2 29); let target := c.f 2 18 0; let port := target % 16
    if c.f 2 31 30 = 2 then
      if (s.contracts.find? fun k => k.kind == kind && k.target == target && k.stays).isSome then
        .next (startUnbind kind target (.cmd cmd) (modCmd cmd (fun x => { x with phase := .waiting }) s))
      else .next (cmdDone cmd .ok 0 0 s)
    else if c.w 7 = 0 ∨ c.w 6 < c.w 5 ∨ c.w 6 < c.w 7 ∨ (kind = 1 ∧ (port = 11 ∨ 13 < port)) ∨ (kind = 1 ∧ port = 10 ∧ 16384 < c.w 7) then
      .next (cmdRefuse cmd .decodeError 0 s)
    else .next (bindOn c kind target s)
  | none => .next s

/-! SLEEVE_CFG (02 R54, R55) -/

/-- Would a SLEEVE_CFG value take a class from a sleeve in which a table gives that class slots (R55)? -/
def sleeveBreaks (t : List Word) (old v : Nat) : Bool :=
  (usedOwners t).any fun k => match ownerClass (wOwner t k) with
    | some cls => (groupsOf t k).any fun g => decide (4 ≤ g ∧ g < 8) && classHasSleeve old cls (g - 4) && !classHasSleeve v cls (g - 4)
    | none => false

/-- Is the configuration seal of a slice's partition set (13 R391)? -/
def sealedSlice (s : State) (n : Nat) : Bool :=
  match partOfSlice s n with
  | some p => let st := (partOf s p).state; !(st == .opened || st == .absent)
  | none => false

/-- A write of SLEEVE_CFG (R52, R54, R55, R259): it waits for the slice's frame boundary. -/
def sleeveWrite (n v : Nat) (by_ : RegBy) (s : State) : RegRes :=
  let addr := regNo n 0x200 * 4
  if sealedSlice s n ∧ v % 65536 ≠ sleeveCfg s n then dropReg .writeIgnored by_ addr s
  else if sleeveBreaks (latestWeave s n) (latestSleeve s n) v then (some .rejectedContract, s)
  else
    let (id, s1) := freshId s
    (none, modSlice n (fun r => { r with pendSleeve := r.pendSleeve ++ [{ stamp := id, afterB := s.bcnt, value := v % 65536, origin := by_.origin }] }) s1)

/-! Frame boundaries -/

/-- Ends a WEAVE_INSTALL whose named slices have all installed (R258). -/
def weaveEnd (o : Origin) (s : State) : State :=
  match o with
  | .cmd id =>
    if (List.range 68).any fun n => (sliceOf s n).pendWeave.any fun p => p.origin == o then s
    else match cmdOf s id with
      | some c => cmdDone id .ok 0 c.result s
      | none => s
  | _ => s

/-- The idle and retention timers of a slice that no bound contract spans any more run again from zero (08 R281). -/
def restartTimers (ns : List Nat) (s : State) : State :=
  (ns.filter fun n => !s.contracts.any fun c => (oSpan c.owner).has n).foldl
    (fun t n => modPwr n (fun p => { p with idleFrom := s.rc, retFrom := s.rc }) t) s

/-- A contract whose span has passed its boundaries takes its change (06 R189; 08 R264). -/
def contractDue (c : Contract) (s : State) : State :=
  let same (x : Contract) : Bool := x.kind == c.kind && x.target == c.target && x.stamp == c.stamp
  if c.unbinding then
    let s1 : State := { s with contracts := s.contracts.filter fun x => !same x }
    let part := partOfSlice s (oFirst c.owner)
    let s2 := restartTimers (oSpan c.owner).slices s1
    let s3 := if c.kind = 1 ∧ c.target % 16 = 10 then
        endGrants (fun g => g.reserved && part == some g.part && g.tctx == c.ctx && (g.scope.any (oSpan c.owner).has)) false s2
      else s2
    finish c.origin .ok s3
  else
    let f (x : Contract) : Contract := { x with active := true, tokens := x.depth, backlog := 0, suspended := s.power.susp, origin := .none }
    finishBind c.origin (if s.power.susp then .guaranteeSuspended else .ok) c.bound { s with contracts := updWhere same f s.contracts }

/-- The changes of contracts at a boundary of slice `n`, for those admitted before `stamp`. -/
def contractsAt (n stamp : Nat) (s : State) : State :=
  let mine (c : Contract) : Bool := !c.todo.isEmpty && decide (c.stamp < stamp)
  let step (c : Contract) : Contract := if mine c then { c with todo := c.todo.filter (· != n) } else c
  let due := s.contracts.filter fun c => mine c && (step c).todo.isEmpty
  due.foldl (fun t c => contractDue c t) { s with contracts := s.contracts.map step }

/-- What is under way for a contract being suspended runs as B class from here: its port requests, commands and rows end
GUARANTEE_SUSPENDED without a bound, and nothing of theirs uses its owner's slots (06 R193, 08 R284). The contracts of one owner are homed on one
slice (R262), so they are suspended together. -/
def toB (c : Contract) (s : State) : State :=
  let mine (o : Option Nat) : Bool := o == some c.owner
  let hit (o : PortOp) : Bool := o.g && mine o.owner
  let cmd (d : Cmd) : Bool := d.gcls && c.kind == 0 && d.queue == c.target && (d.phase == .admitted || d.phase == .waiting)
  let k := if c.kind = 1 ∧ 12 ≤ c.target % 16 then some (c.home * 2 + (c.target % 16 - 12)) else none
  let rows (l : List Piece) : List Piece := l.map fun p => { p with g := false, bound := none }
  let chan (e : Nat × Chan) : Nat × Chan :=
    if some (e.1 / 8) = k then (e.1, { e.2 with ahead := rows e.2.ahead, rowB := (e.2.rowB.1, none), owed := 0 }) else e
  let rowsOf (e : Nat × Chan) : Nat := (e.2.ahead.filter fun p => p.g && p.rowEnd).length + (if e.2.owed = 0 then 0 else 1)
  let open_ := (s.movers.chans.filter fun e => decide (some (e.1 / 8) = k)).map rowsOf
  gTele 14 ((s.ops.filter hit).length + (s.cmds.filter cmd).length + open_.foldl (· + ·) 0)
    { s with ops := updWhere hit (fun o => { o with g := false, owner := none, suspended := true, bound := none }) s.ops
             cmds := updWhere cmd (fun d => { d with gcls := false, suspended := true, bound := none }) s.cmds
             wb := updWhere (fun e => mine e.owner) (fun e => { e with g := false, owner := none, gLeft := 0 }) s.wb
             beats := updWhere (fun b => mine b.owner) (fun b => { b with g := false, owner := none, queued := false }) s.beats
             works := updWhere (fun w => w.g && w.owner == c.owner) (fun w => { w with g := false, owner := 0, owe := 0 }) s.works
             movers := { s.movers with chans := s.movers.chans.map chan } }

/-- Buckets and suspensions of the contracts homed on slice `n` (R193, R264, R284). -/
def bucketsAt (n : Nat) (s : State) : State :=
  let s0 := if s.power.susp then (s.contracts.filter fun c => c.active && !c.suspended && c.home == n).foldl (fun t c => toB c t) s else s
  let f (c : Contract) : Contract :=
    if !c.active ∨ c.home ≠ n then c
    else if s.power.susp then { c with suspended := true }
    else if c.suspended then { c with suspended := false, tokens := c.depth, backlog := 0 }
    else { c with tokens := Nat.min c.depth (c.tokens + c.rate) }
  { s0 with contracts := s0.contracts.map f }

/-- Marks that take effect at a boundary (14 R420): a bank holds at most four; each records an entry. -/
def marksAt (n : Nat) (s : State) : State :=
  let ms := (sliceOf s n).pendMarks
  ms.foldl (fun t (b, m) =>
    let t1 := integAdd 26 1 t
    if 4 ≤ (marksOf t b).length ∨ (marksOf t b).contains m then t1
    else report .okCorrected 3 n (bankUnit (b * 524288)) .nobody 0 m
      (modSlice n (fun r => { r with marks := mput (fun _ => []) r.marks b (marksOf t b ++ [m]) }) t1))
    (modSlice n (fun r => { r with pendMarks := [] }) s)

/-- Seam lanes that are replaced at a boundary (14 R426): a lane is tier × 8 + group; the group's next spare serves it, while
one is left; the last one in use raises the service indication. -/
def lanesAt (n : Nat) (s : State) : State :=
  (sliceOf s n).pendLanes.foldl (fun t l =>
    let used := mget (fun _ => 0) (sliceOf t n).spareLanes l
    if 8 ≤ used then t
    else
      let t1 := integAdd 22 1 (modSlice n (fun r => { r with spareLanes := mput (fun _ => 0) r.spareLanes l (used + 1) }) t)
      if used + 1 = 8 then raiseSvc 4 t1 else t1)
    (modSlice n (fun r => { r with pendLanes := [] }) s)

/-- BCNT at the next frame boundary of a slice: the next multiple of FL, or of the FL of the table that waits first where that
comes sooner (R245, R258). Answers it, and whether that table is installed there. -/
def nextBoundary (s : State) (n : Nat) : Nat × Bool :=
  let r := sliceOf s n
  let next (fl b : Nat) : Nat := (b / Nat.max 1 fl + 1) * Nat.max 1 fl
  let plain := next (wFL r.weave) r.frameB
  match r.pendWeave with
  | p :: _ => let w := next (wFL p.table) (Nat.max r.frameB p.afterB); if w ≤ plain then (w, true) else (plain, false)
  | [] => (plain, false)

/-- A frame boundary of slice `n` (08 R245, R258, R259, R264; 02 R54; 06 R189, R193; 14 R420, R426): BCNT reaches the boundary; the
changes admitted before it take effect in the order of their admission. A boundary that is reported after the next one has passed
only refills the buckets: what was admitted since waits for a later one. -/
def frameBoundary (n : Nat) (s : State) : State :=
  if !s.bcRun then s
  else
    let (b, install) := nextBoundary s n
    let r := sliceOf s n
    let s0 := bucketsAt n { s with bcnt := Nat.max s.bcnt b }
    let front := r.pendWeave.head?
    let late := decide (b + Nat.max 1 (wFL r.weave) ≤ s.bcnt)
    let limit := if late then 0 else match (if install then r.pendWeave.drop 1 else r.pendWeave).head? with
      | some p => p.stamp
      | none => s.nextId
    let (now, later) := r.pendSleeve.partition fun p => decide (p.stamp < limit ∧ p.afterB < b)
    let s1 := modSlice n (fun x =>
      { x with frameB := b, pendSleeve := later
               weave := if install then (front.map PendWeave.table).getD x.weave else x.weave
               pendWeave := if install then x.pendWeave.drop 1 else x.pendWeave }) s0
    let s2 := match now.getLast? with
      | some p => regPut 0xFFFF (regNo n 0x200) p.value s1
      | none => s1
    let s3 := finishAll (now.map PendSleeve.origin) .ok s2
    let s4 := if install then weaveEnd ((front.map PendWeave.origin).getD .none) s3 else s3
    if late then s4 else lanesAt n (marksAt n (contractsAt n limit s4))

end Sys2Proof.Machine
end

