-- ==== Sys2Proof/Machine/Maint.lean ====
section
/-! DEFINITION. Machine/Maint.lean: the recorder and LOG_READ, telemetry pages, scrub, darning, the end of clears and the seam
(06 R196 to R203; 08 R275; 14 R420 to R439; 16 R482, R483; 17 R501). -/
namespace Sys2Proof.Machine

/-! Destinations of replies' data (05 R123) -/

/-- Write data to a destination and end the command: `more` is done where the write succeeds. -/
def writeDest (c : Cmd) (a align : Nat) (bs : List Byte) (st : Status) (count result : Nat) (more : State → State) (s : State) : State :=
  match destCheck s c a align bs.length with
  | .fail e _ => destRefuse c e a s
  | .spilled => modCmd c.id (fun x => { x with delayed := true }) s
  | .ok => whenAwake (cmdAddrSlices s c.ctx a bs.length) 7 c.queue s fun t =>
    let (w, t1) := cmdWrite (.queue c.queue) c.ctx a bs t
    if w = .ok ∨ w = .okCorrected then cmdDone c.id (st.join w) count result (more t1) else cmdDone c.id (st.join w) 0 result t1

/-! The error log (14 R427 to R429, 06 R202, R203) -/

/-- LOG_RECORD (R427): the recorder takes one entry, round robin over the slices' queues and the device queue. -/
def execLogRecord (s : State) : Res :=
  let l := s.log
  match ((List.range 65).map fun i => (l.turn + i) % 65).find? fun q => !(mget (fun _ => []) l.queues q).isEmpty with
  | none => .next s
  | some q =>
    let es := mget (fun _ => []) l.queues q
    let e := (es.headD (mkEntry s .ok 0 0 0 .nobody 0 0))
    let seq := l.seq
    .next { s with log := { l with
        queues := mput (fun _ => []) l.queues q (es.drop 1), turn := (q + 1) % 65, seq := (seq + 1) % 2 ^ 32
        ring := (l.ring ++ [(seq, e)]).drop (l.ring.length + 1 - 1024)
        first := if l.first.length < 16 then l.first ++ [(seq, e)] else l.first } }

/-- The eight words of a recorded entry (R204). -/
def entryWords (x : Nat × LogEntry) : List Word :=
  let n (v : Nat) : Word := BitVec.ofNat 32 v
  let e := x.2
  [n x.1, n (e.code * 2 ^ 24 + e.src * 65536 + e.lslice * 1024 + e.unit), n (e.wkind * 2 ^ 30 + e.ctx * 2 ^ 19 + e.writer), n e.addr,
   n (e.addr / 2 ^ 32), n (e.srcdev * 65536 + e.low), n e.time, n (e.time / 2 ^ 32)]

/-- LOG_READ (R202, R203). -/
def execLogRead (cmd : Nat) (s : State) : Res :=
  match admittedAs s cmd 0x710 with
  | some c =>
    let sel := c.f 2 31 28; let num := c.f 2 10 0; let start := c.w 3; let l := s.log
    if sel = 2 then
      let ws := (List.range 64).map fun k => BitVec.ofNat 32 (mget (fun _ => 0) l.counters k)
      let clr (t : State) : State := if c.bit 2 27 then { t with log := { t.log with counters := [] } } else t
      .next (writeDest c (c.addr 4) 32 (bytesOfWords ws) .ok 64 l.seq clr s)
    else if num = 0 ∨ (if sel = 0 then 1024 else 16) < num then .next (cmdRefuse cmd .decodeError 0 s)
    else
      let src := if sel = 0 then l.ring.filter fun x => decide (start ≤ x.1) else l.first
      let out := src.take num
      let old := decide (sel = 0) && (match l.ring with
        | x :: _ => decide (start < x.1)
        | [] => false)
      let st : Status := if out.length < num ∨ old then .partialDone else .ok
      let clr (t : State) : State := if sel = 1 ∧ c.bit 2 27 then { t with log := { t.log with first := t.log.first.drop num } } else t
      .next (writeDest c (c.addr 4) 32 (bytesOfWords (out.flatMap entryWords)) st out.length ((out.head?.map (·.1)).getD l.seq) clr s)
  | none => .next s

/-! Inventory (14 R430, R437) -/

/-- Spare number, plus one, that serves a bank; 0 for none (R431). -/
def spareOfBank (s : State) (bank : Nat) : Nat := mget (fun _ => 0) (sliceOf s (bank / 1024)).darned bank

/-- Banks of a slice that spares serve, in a store and, for the W-store, a tier. -/
def darnedIn (s : State) (n : Nat) (st : Store) (tier : Nat) : List Nat :=
  ((sliceOf s n).darned.map (·.1)).filter fun b => decide (b / 256 % 4 = st.code) && decide (b / 64 % 4 = tier)

/-- Spare banks of a tier-slice, of an A-store, of a P-store (R430). -/
def spareBanks (st : Store) : Nat := if st = .p then 1 else 2

/-- Free spare banks. -/
def freeSpares (s : State) (n : Nat) (st : Store) (tier : Nat) : Nat := spareBanks st - (darnedIn s n st tier).length

/-- Is spare slice `k` free (R201): it has not failed and serves no slice? -/
def spareFree (s : State) (k : Nat) : Bool := !(sliceOf s (64 + k)).failed && !(List.range 64).any fun n => (sliceOf s n).spare == some k

/-- The sum of a figure over the logical slices. -/
def overSlices (f : Nat → Nat) : Nat := ((List.range 64).map f).foldl (· + ·) 0

/-- Does tier port `t` of a slice have a lane group without parity (R426)? -/
def noParity (s : State) (n t : Nat) : Bool := (List.range 8).any fun g => decide (8 ≤ mget (fun _ => 0) (sliceOf s n).spareLanes (t * 8 + g))

/-- The 16 bits of a slice on page 0x11 (R437). -/
def sliceBits (s : State) (n : Nat) : Nat :=
  let r := sliceOf s n
  32768 * b2n (slcFailed s n) + 16384 * b2n r.spare.isSome + 4096 * freeSpares s n .a 0 + 2048 * freeSpares s n .p 0 + 1024 * b2n (!r.ivrUsed) +
    16 * ((List.range 4).map fun t => 2 ^ t * b2n (decide (freeSpares s n .w t = 0))).foldl (· + ·) 0 +
    ((List.range 4).map fun t => 2 ^ t * b2n (noParity s n t)).foldl (· + ·) 0

/-! Telemetry pages (06 R196) -/

/-- The two words of a 64-bit value. -/
def dwords (x : Nat) : List Word := [BitVec.ofNat 32 x, BitVec.ofNat 32 (x / 2 ^ 32)]

/-- A page of counters by first word: words 0 and 1 hold the REFCLK count. -/
def counterPage (s : State) (f : Nat → Nat) (n : Nat) : List Word := dwords s.rc ++ (List.range n).flatMap fun i => dwords (f (2 + 2 * i))

/-- Page 0x00 (R197). -/
def page00 (s : State) (x : Ctx) : List Word :=
  counterPage s (fun w => if w = 34 then x.energy / 1000000 else mget (fun _ => 0) x.tele w) 17

/-- Page 0x01 (16 R482). -/
def page01 (s : State) (x : Ctx) : List Word :=
  let p := s.power
  dwords s.rc ++ [BitVec.ofNat 32 p.reasons, 0] ++
    (List.range 9).flatMap (fun k => dwords (mget (fun _ => 0) p.reasonUs k) ++ dwords (mget (fun _ => 0) p.reasonEp k)) ++
    dwords (mget (fun _ => 0) p.partRail x.part) ++ dwords (mget (fun _ => 0) p.partBub x.part)

/-- Page 0x02 (17 R501). -/
def page02 (s : State) (x : Ctx) : List Word :=
  let r := partOf s x.part
  dwords s.rc ++ dwords (x.energy / 1000000) ++ dwords (r.energy / 1000000) ++
    dwords ((mget (fun _ => 0) s.meter.part x.part - r.baseM) / 1000000) ++ dwords ((mget (fun _ => 0) s.meter.alloc x.part - r.baseA) / 1000000)

/-- Page 0x10 (16 R483). -/
def page10 (s : State) : List Word :=
  let p := s.power
  let temp (i : Nat) : Nat := Nat.min 255 (mget (fun _ => 0) p.temps i)
  let hot := ((List.range 68).map temp).foldl Nat.max 0
  let one (i : Nat) : Nat := temp i * 256 + mget (fun _ => 0) p.iavg i
  dwords s.rc ++ [BitVec.ofNat 32 (p.est * 65536 + Nat.min 65535 (capEff s / 125000)), BitVec.ofNat 32 (floorNow s * 65536 + hot * 256 + s.ctl.point)] ++
    (List.range 34).map (fun i => BitVec.ofNat 32 (one (2 * i) + 65536 * one (2 * i + 1))) ++ [BitVec.ofNat 32 (p.sharedI % 65536)]

/-- Page 0x11 (14 R437). -/
def page11 (s : State) : List Word :=
  let n (x : Nat) : Word := BitVec.ofNat 32 x
  let svc := regGet s 0 (regNo 0x80 0x204) % 256
  let spares := ((List.range 4).map fun k => 2 ^ k * b2n (spareFree s k)).foldl (· + ·) 0
  let all := List.range 68
  let cnt (f : Nat → Nat) : Nat := (all.map f).foldl (· + ·) 0
  dwords s.rc ++ [n (svc * 256 + spares), n (overSlices fun i => ((List.range 4).map (freeSpares s i .w)).foldl (· + ·) 0),
    n (overSlices fun i => freeSpares s i .a 0), n (overSlices fun i => freeSpares s i .p 0),
    n (overSlices fun i => ((List.range 4).map fun t => 4 - tilesUsed s i t).foldl (· + ·) 0),
    n (16384 - overSlices fun i => ((sliceOf s i).spareLanes.map (·.2)).foldl (· + ·) 0), n (68 - cnt fun i => b2n (sliceOf s i).ivrUsed),
    n (overSlices fun i => (sliceOf s i).nmuRetired.length), n (overSlices fun i => ((sliceOf s i).marks.map fun e => e.2.length).foldl (· + ·) 0)] ++
    List.replicate 21 0 ++ (List.range 32).map fun i => n (sliceBits s (2 * i) + 65536 * sliceBits s (2 * i + 1))

/-- Page 0x12 (14 R438). -/
def page12 (s : State) : List Word :=
  counterPage s (fun w => if w = 32 then mget (fun _ => 0) s.log.counters 0x3F else mget (fun _ => 0) s.integ w) 16

/-- Page 0x13 (08 R275). -/
def page13 (s : State) : List Word :=
  counterPage s (fun w => mget (fun _ => 0) s.integ (256 + w)) 9 ++ (List.range 32).map fun p => BitVec.ofNat 32 (mget (fun _ => 0) s.integ (276 + p))

/-- The 256 B of a page: words that a page does not define are zero. -/
def pageBytes (ws : List Word) : List Byte := bytesOfWords ((ws ++ List.replicate 64 0).take 64)

/-- TELEMETRY_READ (R196). -/
def execTelemetryRead (cmd : Nat) (s : State) : Res :=
  match admittedAs s cmd 0x510 with
  | some c =>
    let page := c.f 2 23 16
    let out (ws : List Word) : Res := .next (writeDest c (c.addr 4) 256 (pageBytes ws) .ok 0 0 id s)
    if page ≤ 2 then
      match ctxOf s c.ctx with
      | some x => out (if page = 0 then page00 s x else if page = 1 then page01 s x else page02 s x)
      | none => .next (cmdRefuse cmd .boundViolation 0 s)
    else if !qPriv c.queue then .next (cmdRefuse cmd .decodeError 0 s)
    else if page = 0x10 then out (page10 s)
    else if page = 0x11 then out (page11 s)
    else if page = 0x12 then out (page12 s)
    else if page = 0x13 then out (page13 s)
    else .next (cmdRefuse cmd .decodeError 0 s)
  | none => .next s

/-! Darning (06 R201, 14 R430 to R433) -/

/-- A bank number's store. -/
def bankStore (bank : Nat) : Option Store := storeOf (bank / 256 % 4)

/-- Is it an active bank of a slice (03 R56)? -/
def bankValid (bank : Nat) : Bool :=
  match bankStore bank with
  | some st => decide (bank % 64 < st.banks) && (decide (st = .w) || decide (bank / 64 % 4 = 0)) && decide (bank / 1024 < 64)
  | none => false

/-- The bit of SVC_STAT for a store's banks (R439). -/
def svcBank (st : Store) : Nat := if st = .w then 0 else if st = .a then 1 else 2

/-- The units of a bank whose check bits differ from those of their data. -/
def oddUnits (s : State) (bank : Nat) : List Nat := unitsOf ((s.mem.chk.map (·.1)).filter fun k => decide (k / 524288 = bank))

/-- Rewrite one unit as the checker finds it: corrected ones whole, uncorrectable ones poisoned (R201, R422). Answers what it found. -/
def repairUnit (ag : Agent) (u : Nat) (s : State) : UnitState × State :=
  let r := checkUnit s.mem (marksOf s (u / 524288)) u
  let s1 := noteFound ag s { key := u, what := r.1, macros := r.2.2 }
  match r.1 with
  | .corrected => (r.1, { s1 with mem := putUnit u r.2.1 false s1.mem })
  | .uncorrectable => (r.1, integAdd 10 1 { s1 with mem := { s1.mem with tag := mput (fun _ => false) s1.mem.tag u true, owed := s1.mem.owed.filter (· != u) } })
  | _ => (r.1, s1)

/-- Move a bank to the spare `k` of its kind (R201): the copy repairs what it can, and the bank's marks are cleared. Answers the
status and the bytes copied without fault. -/
def darnBank (bank k : Nat) (s : State) : Status × Nat × State :=
  let st := (bankStore bank).getD .w
  let per (u : Nat) : Nat := if isW u then 32 else 1
  let poisoned := (unitsOf ((s.mem.tag.map (·.1)).filter fun x => decide (x / 524288 = bank))).map per |>.foldl (· + ·) 0
  let (bad, s1) := (oddUnits s bank).foldl (fun (acc : Nat × State) u =>
    let (w, t) := repairUnit { ctx := 2048, who := .nobody } u acc.2
    (if w = .uncorrectable then acc.1 + per u else acc.1, t)) (0, s)
  let s2 := modSlice (bank / 1024) (fun r => { r with
    darned := mput (fun _ => 0) r.darned bank (k + 1)
    marks := mput (fun _ => []) r.marks bank [], pendMarks := r.pendMarks.filter fun e => e.1 != bank
    corr := mclear (fun x => decide (x / 64 = bank)) r.corr }) s1
  (if bad = 0 then .ok else .uncorrectable, st.bankBytes - bad - poisoned, integAdd 28 1 s2)

/-- A spare for a bank: the lowest free one of its tier-slice, A-store or P-store. -/
def spareFor (s : State) (bank : Nat) : Option Nat :=
  match bankStore bank with
  | some st =>
    let used := (darnedIn s (bank / 1024) st (bank / 64 % 4)).map fun b => spareOfBank s b - 1
    (List.range (spareBanks st)).find? fun k => !used.contains k
  | none => none

/-- Is this bank cycle a background slot of a bank's group (01 R23)? -/
def bankBg (s : State) (bank : Nat) : Bool := bgNow s (bank * 524288)

/-- Is a command a DARN of this bank that runs (R201)? -/
def darnsBank (bank : Nat) (c : Cmd) : Bool :=
  c.phase == .admitted && c.opcode == 0x702 && decide (c.f 2 31 28 = 1) && (match storeOf (c.f 2 15 14) with
    | some st => decide (bankKey (c.f 2 21 16) st (if st = .w then c.f 2 13 12 else 0) (c.f 2 4 0) = bank)
    | none => false)

/-- A bank darn's copy ends (R201, R433): every DARN of the bank that runs completes with it, and where an automatic one runs its outcome is
recorded with SRC 0x07. -/
def darnNow (bank k : Nat) (s : State) : State :=
  let n := bank / 1024
  let (st, cnt, s1) := darnBank bank k s
  let s2 := (s.cmds.filter (darnsBank bank)).foldl (fun t c => cmdDone c.id st cnt 0 t) s1
  if (sliceOf s n).pendDarn.contains bank then
    report st 7 n (bankUnit (bank * 524288)) .nobody 0 0 (modSlice n (fun r => { r with pendDarn := r.pendDarn.filter (· != bank) }) s2)
  else s2

/-- An automatic darn begins (R433): its copy waits for the background slots of the bank (01 R23). -/
def autoDarn (bank : Nat) (s : State) : State :=
  let n := bank / 1024
  if !bitOf (regGet s 0x80100000 (regNo 0x80 0x200)) 31 ∨ spareOfBank s bank ≠ 0 ∨ (sliceOf s n).pendDarn.contains bank then s
  else if (spareFor s bank).isSome then modSlice n (fun r => { r with pendDarn := r.pendDarn ++ [bank] }) s
  else raiseSvc (svcBank ((bankStore bank).getD .w)) s

/-- One automatic darn, where this bank cycle is its background slot. -/
def darnStep (s : State) (bank : Nat) : State :=
  if !bankBg s bank then s
  else match spareFor s bank with
    | some k => darnNow bank k s
    | none => raiseSvc (svcBank ((bankStore bank).getD .w)) (modSlice (bank / 1024) (fun r => { r with pendDarn := r.pendDarn.filter (· != bank) }) s)

/-- The automatic darns that wait, in the background slots of this bank cycle. -/
def darnSteps (s : State) : State := (s.slices.flatMap fun e => e.2.pendDarn).foldl darnStep s

/-- The automatic darns that the marks of a slice call for (R433): a second marked macro of a W-store bank, a first of another. -/
def autoMarks (n : Nat) (s : State) : State :=
  ((sliceOf s n).marks.filter fun e => decide (spareOfBank s e.1 = 0) && decide ((if (bankStore e.1) = some .w then 2 else 1) ≤ e.2.length)).foldl
    (fun t e => autoDarn e.1 t) s

/-- FRAME_BOUNDARY of slice `n` (08 R245): what takes effect at the boundary, and the automatic darns that new marks call for
(14 R433). -/
def execFrameBoundary (n : Nat) (s : State) : Res := .next (if s.bcRun then autoMarks n (frameBoundary n s) else s)

/-- Map a free spare slice in place of a failed one (R75, R201, R260): it comes up cleared, with the reset weave and its own
registers. Its frames of the reset weave run from BCNT zero. -/
def darnSlice (n k : Nat) (s : State) : State :=
  let lo := regNo n 0; let hi := regNo (n + 1) 0; let sp := regNo (64 + k) 0
  let keep := regNo n 0x200
  let own := s.regs.filter fun e => decide (sp ≤ e.1 ∧ e.1 < sp + 0x4000000) && decide (e.1 - sp + lo ≠ keep)
  let regs := own.foldl (fun m e => minsert (e.1 - sp + lo) e.2 m) (s.regs.filter fun e => !(decide (lo ≤ e.1 ∧ e.1 < hi)) || decide (e.1 = keep))
  let ownDone := s.w1done.filter fun e => decide (sp ≤ e.1 ∧ e.1 < sp + 0x4000000)
  let done := ownDone.foldl (fun m e => minsert (e.1 - sp + lo) e.2 m) (s.w1done.filter fun e => !(decide (lo ≤ e.1 ∧ e.1 < hi)))
  let s1 := modSlice n (fun r => { SliceRec.zero with failed := r.failed, spare := some k, frameB := s.bcnt / 4000 * 4000 }) { s with regs := regs, w1done := done }
  let fixPort (m : NMap PortRec) : NMap PortRec := m.filter fun e => decide (e.1 / 16 ≠ n)
  { s1 with
    mem := clearKeys (fun x => decide (x / 524288 / 1024 = n)) { s1.mem with sys := mclear (fun x => decide (x / 131072 = n)) s1.mem.sys }
    ports := fixPort s1.ports
    ctl := { s1.ctl with pwr := mput (fun _ => SlcPwr.zero) s1.ctl.pwr n (pwrOf s (64 + k)) } }

/-- DARN (R201). -/
def execDarn (cmd : Nat) (s : State) : Res :=
  match admittedAs s cmd 0x702 with
  | some c =>
    let op := c.f 2 31 28; let n := c.f 2 21 16
    if op = 0 then
      .next (cmdDone cmd .ok 0 (((List.range 4).filter (spareFree s)).length + 256 * (sliceOf s n).darned.length) s)
    else if op = 1 then
      match storeOf (c.f 2 15 14) with
      | none => .next (cmdRefuse cmd .decodeError 0 s)
      | some st =>
        let bank := bankKey n st (if st = .w then c.f 2 13 12 else 0) (c.f 2 4 0)
        if !bankValid bank then .next (cmdRefuse cmd .decodeError 0 s)
        else if spareOfBank s bank ≠ 0 then .next (cmdDone cmd .ok 0 0 s)
        else .next (whenAwake [n] 7 c.queue s fun t =>
          if slcFailed t n then cmdRefuse cmd .unitFailed 0 t
          else match spareFor t bank with
            | some k => if bankBg t bank then darnNow bank k t else t
            | none => cmdRefuse cmd (.specific 0x80) 0 (raiseSvc (svcBank st) t))
    else
      let busy : Bool := match partOfSlice s n with
        | some p => !(partCtxs s p).isEmpty
        | none => false
      if !slcFailed s n ∨ busy then .next (cmdRefuse cmd (.specific 0x81) 0 s)
      else
        let free := (List.range 4).filter (spareFree s)
        let dist (k : Nat) : Nat := hops (spareStop k) (n % 8, n / 8)
        match free.find? fun k => free.all fun j => decide (dist k ≤ dist j) with
        | some k => .next (cmdDone cmd .ok 0 0 (darnSlice n k s))
        | none => .next (cmdRefuse cmd (.specific 0x80) 0 (raiseSvc 5 s))
  | none => .next s

/-! Scrub (06 R198, R199; 14 R422, R423) -/

/-- Whole minutes of REFCLK, saturating at 16 bits. -/
def minutesOf (rc : Nat) : Nat := Nat.min 65535 (rc / 6000000000)

/-- Repair every unit of a range: the worst outcome. -/
def scrubKeys (ctx : Nat) (ks : List Nat) (s : State) : Status × State :=
  (unitsOf ks).foldl (fun (acc : Status × State) u =>
    let (w, t) := repairUnit { ctx := ctx, who := .nobody } u acc.2
    (acc.1.join (match w with
      | .corrected => .okCorrected
      | .uncorrectable => .uncorrectable
      | _ => .ok), t)) (.ok, s)

/-- SCRUB_RANGE (R199): it needs neither RD nor WR. It ends in a background slot of its last beat (01 R23). -/
def scrubRange (c : Cmd) (s : State) : State :=
  let a := c.addr 4; let len := 256 * c.w 3
  match ctxOf s c.ctx, opndStore a len false false with
  | none, _ => cmdRefuse c.id .boundViolation 0 (logCheck c .boundViolation (a % 2 ^ 40) s)
  | some _, none => cmdRefuse c.id .decodeError 0 (logRegion c .decodeError a s)
  | some x, some r =>
    if a % 256 ≠ 0 then cmdRefuse c.id .decodeError 0 s
    else match rngCheck s x r with
      | .fail st _ => cmdRefuse c.id st 0 (logCheck c st (a % 2 ^ 40) s)
      | .spilled => modCmd c.id (fun y => { y with delayed := true }) s
      | .ok => whenAwake (r.slices s x) 7 c.queue s fun t =>
        if (r.slices t x).any (slcFailed t) then cmdRefuse c.id .unitFailed 0 t
        else if !((r.keys t x).getLast?.map (bgNow t)).getD true then t
        else let (st, t1) := scrubKeys c.ctx (r.keys t x) t; cmdDone c.id st len 0 t1

/-- SCRUB_CTL (R198, R199). -/
def execScrubCtl (cmd : Nat) (s : State) : Res :=
  match admittedAs s cmd 0x700 with
  | some c =>
    let op := c.f 2 31 28; let sc := s.scrub
    let done (x : ScrubState) : Res := .next (cmdDone cmd .ok 0 0 { s with scrub := x })
    if op = 0 then .next (cmdDone cmd .ok 0 (minutesOf (s.rc - sc.lastW) * 65536 + minutesOf (s.rc - sc.lastA)) s)
    else if op = 1 then
      let m := c.w 3; let st := c.f 2 17 16
      if st = 1 ∧ 60 ≤ m ∧ m ≤ 2880 then done { sc with periodW := m }
      else if 2 ≤ st ∧ 10 ≤ m ∧ m ≤ 480 then done { sc with periodA := m }
      else .next (cmdRefuse cmd .decodeError 0 s)
    else if op = 2 then .next (scrubRange c s)
    else if op = 3 then done { sc with paused := some s.rc }
    else done { sc with paused := none }
  | none => .next s

/-- SCRUB_AUTO_RESUME (R198): 60 min have passed since a PAUSE that no RESUME followed. -/
def execScrubAutoResume (s : State) : Res :=
  match s.scrub.paused with
  | some t => .next { (timeTo (t + 360000000000) s) with scrub := { s.scrub with paused := none } }
  | none => .next s

/-- Beats of a line, and of a bank (03 R56). -/
def lineBeats (st : Store) : Nat := 256 / st.beat
def bankBeats (st : Store) : Nat := lineBeats st * st.lines

/-- Is a bank number in use, for patrol scrub: an active bank, or a free spare, which stands after the active banks of its kind (R419, R422)? -/
def bankScrubbed (s : State) (bank : Nat) : Bool :=
  bankValid bank || (match bankStore bank with
    | some st =>
      let k := bank % 64 - st.banks
      decide (st.banks ≤ bank % 64) && decide (k < spareBanks st) && (decide (st = .w) || decide (bank / 64 % 4 = 0)) && decide (bank / 1024 < 64) &&
        !(darnedIn s (bank / 1024) st (bank / 64 % 4)).any fun b => spareOfBank s b == k + 1
    | none => false)

/-- Has the running pass read every bank in use of a store's kind (W, or A and P)? Failed slices are fenced. -/
def passDone (s : State) (w : Bool) : Bool :=
  (List.range 64).all fun n => slcFailed s n || ([Store.w, .a, .p].filter fun st => decide (st = .w) == w).all fun st =>
    (List.range (if st = .w then 4 else 1)).all fun t => (List.range (st.banks + spareBanks st)).all fun b =>
      !bankScrubbed s (bankKey n st t b) || decide (mget (fun _ => 0) s.scrub.pos (bankKey n st t b) = bankBeats st)

/-- The end of a pass (R420, R438): the counts of corrections and of uncorrectable words begin again. -/
def endPass (w : Bool) (s : State) : State :=
  let mine (b : Nat) : Bool := decide (bankStore b = some .w) == w
  let clr (r : SliceRec) : SliceRec := { r with corr := mclear (fun x => mine (x / 64)) r.corr }
  let s1 := integAdd (if w then 14 else 16) 1 { s with slices := s.slices.map fun e => (e.1, clr e.2) }
  { s1 with scrub := { s1.scrub with
      pos := mclear mine s1.scrub.pos, uncorr := mclear mine s1.scrub.uncorr
      lastW := if w then s1.rc else s1.scrub.lastW, lastA := if w then s1.scrub.lastA else s1.rc } }

/-- PATROL_SCRUB (14 R422): patrol scrub reads the next beat of a bank in use, free spares included, in line order, in a background slot. -/
def execPatrolScrub (bank line beat : Nat) (s : State) : Res :=
  match bankStore bank with
  | none => .next s
  | some st =>
    let n := bank / 1024; let at_ := line * lineBeats st + beat
    if !bankScrubbed s bank ∨ s.scrub.paused.isSome ∨ !s.bcRun ∨ slcFailed s n ∨ lineBeats st ≤ beat ∨
        mget (fun _ => 0) s.scrub.pos bank ≠ at_ ∨ bankBeats st ≤ at_ ∨ !bankBg s bank then .next s
    else
      let k0 := (bank * 2048 + line) * 256 + beat * st.beat
      let (bad, s1) := (unitsOf ((List.range st.beat).map (k0 + ·))).foldl (fun (acc : Nat × State) u =>
        let (w, t) := repairUnit { ctx := 2048, who := .nobody } u acc.2
        (if w = .uncorrectable then acc.1 + 1 else acc.1, t)) (0, s)
      let old := mget (fun _ => 0) s1.scrub.uncorr bank
      let s2 : State := { s1 with scrub := { s1.scrub with
          pos := mput (fun _ => 0) s1.scrub.pos bank (at_ + 1), uncorr := mput (fun _ => 0) s1.scrub.uncorr bank (old + bad) } }
      let s3 := if old < 2 ∧ 2 ≤ old + bad then autoDarn bank s2 else s2
      .next (if passDone s3 (decide (st = .w)) then endPass (decide (st = .w)) s3 else s3)

/-! The end of a clear (06 R169, R185, R187; 11 R354) -/

/-- What waits for a clear goes on. -/
def clearWaiters (id : Nat) (s : State) : State :=
  let s1 := (s.cmds.filter fun d => d.phase == .waiting && d.after == [2, id]).foldl (fun t d =>
    if d.opcode = 0x400 then finishPocket d t else if d.opcode = 0x402 then finishDestroy d t else t) s
  (s1.movers.chans.filter fun e => e.2.clear == id).foldl (fun t e =>
    let n := e.1 / 16; let m := e.1 / 8 % 2; let c := e.1 % 8
    modChan n m c (fun y => { y with clear := 0, ipc := if y.owedHalt.isSome then y.ipc else y.ipc + 32 }) t) s1

/-- CLEAR_DONE: the last lines of a clear are written, and what waits for it goes on. -/
def execClearDone (id : Nat) (s : State) : Res :=
  match s.clears.find? fun j => j.id == id with
  | some j =>
    let m := j.todo.foldl (fun m x => clearLines x.1 x.2.1 x.2.2 m) s.mem
    .next (clearWaiters id { s with mem := m, clears := s.clears.filter fun x => x.id != id })
  | none => .next s

/-! The seam (14 R426) -/

/-- A lane group of a tier port, as lanes are counted for replacement. -/
def laneGroup (tier lane : Nat) : Nat := tier * 8 + lane / 256 % 8

/-- Replace a lane at the next frame boundary of its slice, while its group has a spare. -/
def replaceLane (n l : Nat) (s : State) : State :=
  let r := sliceOf s n
  if mget (fun _ => 0) r.spareLanes l + (r.pendLanes.filter (· == l)).length < 8 then modSlice n (fun x => { x with pendLanes := x.pendLanes ++ [l] }) s else s

/-- SEAM_CALIBRATION (R426; 01 R23): in a background slot of the tier-slice, the lanes of a tier port whose margin fell below the threshold are replaced. -/
def execSeamCalibration (n tier : Nat) (weak : List Nat) (s : State) : Res :=
  if !s.bcRun ∨ slcFailed s n ∨ 4 ≤ tier ∨ !bankBg s (bankKey n .w tier 0) then .next s
  else .next (weak.foldl (fun t lane => replaceLane n (laneGroup tier lane) t) s)

/-- The bytes of a port read that crossed a tier port in the beat that failed: those of the beat of the last byte taken there. -/
def seamBytes (o : PortOp) (n tier : Nat) : List Nat :=
  let mine := (o.got.map (·.1)).filter fun i => let p := placeOf (o.keys.getD i 0); decide (p.store = .w) && decide (p.slice = n) && decide (p.tier = tier)
  match mine.getLast? with
  | some i => mine.filter fun j => decide (beatKey (o.keys.getD j 0) = beatKey (o.keys.getD i 0))
  | none => []

/-- SEAM_PARITY_ERROR (R426): a beat failed parity. Downward: a port read is delivered poisoned; an NMU fault takes the single retry
of 07 R228 without a tile swap; a GPX reissues its read, and a second failure poisons the row. Upward: the code words it carried are written poisoned. `id` names the
request, command or write-back entry. The lane is replaced. A group without parity detects nothing. -/
def execSeamParityError (n tier lane : Nat) (up : Bool) (id : Nat) (s : State) : Res :=
  let l := laneGroup tier lane
  if !slcRuns s n ∨ slcFailed s n ∨ 4 ≤ tier ∨ 8 ≤ mget (fun _ => 0) (sliceOf s n).spareLanes l then .next s
  else
    let s1 := replaceLane n l (integAdd 24 1 s)
    if up then
      let bad (e : WbEntry) : WbEntry :=
        { e with bad := e.be.foldl (fun m (o, _) =>
            let p := placeOf (entryKey s e o)
            if p.store = .w ∧ p.slice = n ∧ p.tier = tier then minsert o true m else m) e.bad }
      .next (modWb id bad s1)
    else
      let s2 := report .uncorrectable 3 n (256 + tier * 64 + 0x3F) .nobody 0 0 s1
      match opOf s2 id with
      | some o =>
        let hit := seamBytes o n tier
        let got := o.got.map fun (i, x) => if hit.contains i then (i, (x.1, true)) else (i, x)
        .next (modOp id (fun y => { y with got := got, status := if hit.isEmpty then y.status else y.status.join .uncorrectable }) s2)
      | none =>
        match s2.cmds.find? fun c => c.id == id && c.phase == .admitted with
        | some c =>
          if usesNmu s2 (n, tier) c then .next (nmuFault c n tier 68 s2)
          else if c.opcode = 0x201 ∧ !c.after.contains 1 then .next (poolParity c n tier s2)
          else .next s2
        | none => .next s2

end Sys2Proof.Machine
end

