-- ==== Sys2Proof/Machine/FabSource.lean ====
section
/-! DEFINITION. Machine/FabSource.lean: rack memory at its source: CREDIT_REQUEST, REMOTE_WRITE, REMOTE_READ, the answers to what
was sent, and the fabric timeout (12 R359 to R387). -/
namespace Sys2Proof.Machine

/-! CREDIT_REQUEST (R370, R371, R374, R377) -/

/-- Entries of a partition's held-credit table in use, with the GRANTs on their way (R377). -/
def heldUsed (s : State) (part : Nat) : Nat :=
  (s.fab.held.filter fun h => h.part == part).length + (s.fab.reqs.filter fun r => r.kind == .grant && r.part == part && !r.gone).length

/-- The message that a CREDIT_REQUEST sends (R361, R367). -/
def creditMsg (s : State) (c : Cmd) (x : Ctx) (id : Nat) : CMsg :=
  let op := c.f 2 31 30
  { ckind := op + 1, status := 0, srcdev := devId s, tenant := x.tenant, tctx := c.f 3 10 0, rsv := c.bit 2 29,
    handle := c.f 4 14 0, reqid := id, tstore := c.f 4 31 30, tpocket := c.f 4 29 26, srcstop := 0, win := c.f 5 6 0,
    arg0 := c.f 5 31 16, arg1 := 0 }

/-- Send it: the command waits for the answer. -/
def creditSend (c : Cmd) (x : Ctx) (s : State) : State :=
  let op := c.f 2 31 30; let home := qHome c.queue; let dev := c.f 3 31 16; let id := freeReqid s
  let r : FabReq :=
    { FabReq.blank with
      kind := if op = 0 then .grant else if op = 1 then .renew else .release, origin := .cmd c.id, dev := dev, ctx := c.ctx
      part := x.part, home := home, port := Config.fabricPort home dev, tag := id, handle := c.f 4 14 0, off := c.w 1, len := c.queue
      route := routeWord dev 1 0 2, words := (creditMsg s c x id).words, noWait := c.bit 2 28, tmo := c.f 6 31 16
      grec := c.addr 8, gvid := if c.bit 7 31 then some (c.f 6 15 0) else none }
  modCmd c.id (fun y => { y with phase := .waiting }) (sendMsg r s)

/-- The checks of a CREDIT_REQUEST at its source, and its message. -/
def creditOn (c : Cmd) (x : Ctx) (s : State) : State :=
  let grant := decide (c.f 2 31 30 = 0)
  let winBad := grant && !c.bit 2 29 && decide (c.f 5 6 0 = 0 ∨ 64 < c.f 5 6 0)
  if (grant && decide (c.f 4 31 30 = 0)) || winBad || !fabReach s (c.f 3 31 16) then cmdRefuse c.id .decodeError 0 s
  else if grant && decide (256 ≤ heldUsed s x.part) then cmdRefuse c.id .creditDenied 0 s
  else match (if grant then destCheck s c (c.addr 8) 32 32 else Pre.ok) with
    | .fail st _ => destRefuse c st (c.addr 8) s
    | .spilled => modCmd c.id (fun y => { y with delayed := true }) s
    | .ok => creditSend c x s

/-- CREDIT_REQUEST (R370). -/
def execCreditRequest (cmd : Nat) (s : State) : Res :=
  match admittedAs s cmd 0x600 with
  | some c =>
    match ctxOf s c.ctx with
    | some x => .next (creditOn c x s)
    | none => .next (cmdRefuse cmd .boundViolation 0 s)
  | none => .next s

/-! REMOTE_WRITE and REMOTE_READ (R364, R372, R378 to R381) -/

/-- A range cut at granule boundaries of its target: (offset in the range, bytes), each piece at most 256 B. -/
def granules (off len : Nat) : List (Nat × Nat) :=
  if len = 0 then []
  else (List.range ((off + len - 1) / 256 + 1 - off / 256)).map fun i =>
    let lo := Nat.max off ((off / 256 + i) * 256)
    (lo - off, Nat.min (off + len) ((off / 256 + i + 1) * 256) - lo)

/-- The header of a piece (04 R81): its GTA, kind and class, NP = 1 for a write and VOL = 1 for a read, which is served at the
target's banks (09 R302). -/
def pieceHdr (gta kind accop len : Nat) (g : Bool) : Nat :=
  gta * 2 ^ 64 + kind * 2 ^ 54 + b2n g * 2 ^ 53 + b2n (decide (kind = 0)) * 2 ^ 52 + b2n (decide (kind ≠ 0)) * 2 ^ 51 + 2 ^ 50 +
    accop * 2 ^ 36 + (len - 1) * 16

/-- One piece of a remote command. `held` is the grant that places it (R364); without one it goes to the resolver. -/
def remotePiece (c : Cmd) (x : Ctx) (held : Option Held) (write : Bool) (gta : Nat) (data : List (Byte × Bool)) (s : State)
    (piece : Nat × Nat) : State :=
  let home := qHome c.queue; let dev := bitsOf gta 61 46
  let a := gta + piece.1
  let kind := if !write then 0 else if c.bit 2 30 then 2 else 1
  let accop := if kind = 2 then c.f 2 29 26 else 0
  let ext := extOf (devId s) (stopNo (stopOf s home)) (c.f 9 10 0) x.tenant (if write then c.f 8 14 0 else 0)
  let slice := match held with
    | some h => recordSlice h.words (offsetOf a)
    | none => 64
  let bs := (data.drop piece.1).take piece.2
  let q : FabReq :=
    { FabReq.blank with
      kind := if write then .pieceWrite else .pieceRead, origin := .cmd c.id, dev := dev, ctx := c.ctx, part := x.part, home := home
      port := Config.fabricPort home dev, tslice := slice, handle := c.f 8 14 0, off := piece.1, len := piece.2
      route := if slice = 64 then routeWord dev 1 0 0 else routeWord dev 0 slice 0
      words := hdrWords (pieceHdr a kind accop piece.2 (c.bit 2 31)) ext
      data := if write then bs.map (·.1) else [], poison := if write then bs.map (·.2) else []
      win := match held with
        | some h => fld (wordAt h.words 4) 6 0
        | none => 0 }
  addReq q s

/-- Send the pieces of a command, which waits for their answers with its status so far. -/
def remoteStart (c : Cmd) (x : Ctx) (held : Option Held) (write : Bool) (gta : Nat) (st : Status) (data : List (Byte × Bool))
    (s : State) : State :=
  let s1 := modCmd c.id (fun y => { y with phase := .waiting, status := y.status.join st, count := 0 }) s
  pump ((granules (offsetOf gta) (c.w 3)).foldl (remotePiece c x held write gta data) s1)

/-- REMOTE_WRITE on its context (R378): the source is read, and the pieces leave within each slice's window. -/
def remoteWriteOn (c : Cmd) (x : Ctx) (s : State) : State :=
  match opndStore (c.addr 4) (c.w 3) true false, heldFor s c x (c.addr 6) (c.w 3) with
  | some r, some h =>
    let (st, bs, s1) := readRng c.agent x r s
    remoteStart c x (some h) true (c.addr 6) st bs s1
  | _, _ => dataDone c .creditDenied 0 0 s

/-- REMOTE_WRITE (R378, R379). -/
def execRemoteWrite (cmd : Nat) (s : State) : Res := .next (runData cmd 0x601 (fun _ _ => []) remoteWriteOn s)

/-- REMOTE_READ on its context (R380). -/
def remoteReadOn (c : Cmd) (x : Ctx) (s : State) : State :=
  if c.f 8 14 0 = 0 then remoteStart c x none false (c.addr 4) .ok [] s
  else match heldFor s c x (c.addr 4) (c.w 3) with
    | some h => remoteStart c x (some h) false (c.addr 4) .ok [] s
    | none => dataDone c .creditDenied 0 0 s

/-- REMOTE_READ (R380). -/
def execRemoteRead (cmd : Nat) (s : State) : Res := .next (runData cmd 0x602 (fun _ _ => []) remoteReadOn s)

/-! Answers to request frames (R363, R377, R379, R380) -/

/-- Is a status one with which a target refuses a request under R89? -/
def Status.refusal (st : Status) : Bool :=
  st == .boundViolation || st == .creditDenied || st == .rejectedContract || st == .decodeError || st == .reservedNonzero

/-- Held entries that an answer ends (R377, R384): the handle's with CREDIT_DENIED, those of the handle's target partition with
UNIT_FAILED. -/
def heldAfter (r : FabReq) (st : Status) (s : State) : State :=
  if r.handle = 0 then s
  else if st = .creditDenied then dropHeld r.part r.dev r.handle s
  else if st = .unitFailed then
    { s with fab := { s.fab with held := s.fab.held.filter fun h =>
        !(h.part == r.part && h.dev == r.dev && decide (h.handle / 1024 = r.handle / 1024)) } }
  else s

/-- Pieces of a command that have not been sent are not sent any more. -/
def stopPieces (o : Origin) (s : State) : State :=
  { s with fab := { s.fab with reqs := s.fab.reqs.filter fun r => !(r.origin == o && !r.sent) } }

/-- A command's last piece has been answered (R379): a refusal of the first piece is its status, one after bytes have been
committed gives PARTIAL with the refusing status in RESULT. -/
def remoteEnd (id : Nat) (s : State) : State :=
  if s.fab.reqs.any fun r => r.origin == .cmd id then s
  else match cmdOf s id with
    | some c =>
      match c.after with
      | code :: _ =>
        if c.count = 0 then cmdDone id (statusOf code) 0 0 s else cmdDone id .partialDone c.count code s
      | [] => cmdDone id .ok c.count 0 s
    | none => s

/-- One piece of a command is answered: `n` bytes are unaffected. -/
def pieceAnswer (id : Nat) (r : FabReq) (st : Status) (n : Nat) (s : State) : State :=
  let stop := st.refusal || st == .unitFailed
  let s1 := modCmd id (fun c =>
    { c with
      count := c.count + n
      status := if st.refusal ∨ (st = .okCorrected ∧ r.kind = .pieceWrite) then c.status else c.status.join st
      after := if st.refusal ∧ c.after = [] then [st.code] else c.after }) (heldAfter r st s)
  remoteEnd id (if stop then stopPieces r.origin s1 else s1)

/-- The bytes of a REMOTE_READ's piece are written into DST (R380): the status of the write, and the bytes written. -/
def writePiece (id : Nat) (r : FabReq) (data : List (Byte × Bool)) (s : State) : Status × Nat × State :=
  match cmdOf s id with
  | some c =>
    match ctxOf s c.ctx, opndStore (c.addr 6) (c.w 3) false true with
    | some x, some d =>
      let (st, lost, s1) := writeRng c.agent x { d with segs := [(offsetOf (c.addr 6) + r.off, data.length)] } data s
      (st, data.length - lost, s1)
    | _, _ => (.ok, 0, s)
  | none => (.ok, 0, s)

/-- The request is answered (R363): its requester is told, and what waits for its tag or window goes on. -/
def answerReq (r : FabReq) (st : Status) (count : Nat) (data : List (Byte × Bool)) (s : State) : State :=
  let s0 := dropReq r.id s
  let s1 := if r.gone then s0 else match r.origin with
    | .op id => match opOf s0 id with
      | some o =>
        let s2 := heldAfter r st s0
        respond o st count data [] (if st.refusal then portErr o.slice o.port (errBit st) s2 else s2)
      | none => s0
    | .cmd id =>
      if r.kind = .pieceRead then
        let got := data.take r.len
        let (wst, n, s2) := writePiece id r got s0
        pieceAnswer id r (st.join wst) n s2
      else pieceAnswer id r st (Nat.min count r.len) s0
    | _ => s0
  pump s1

/-- The slices that an answer reaches: the requester's home, and for a read piece those of its destination. -/
def answerSlices (s : State) (r : FabReq) : List Nat :=
  match r.origin, r.kind with
  | .cmd id, .pieceRead => match cmdOf s id with
    | some c => match ctxOf s c.ctx, opndStore (c.addr 6) (c.w 3) false true with
      | some x, some d => (r.home :: Rng.slices s x { d with segs := [(offsetOf (c.addr 6) + r.off, r.len)] }).eraseDups
      | _, _ => [r.home]
    | none => [r.home]
  | _, _ => [r.home]

/-! Frames that come in (R360, R365, R366) -/

/-- The route word of a frame (R360). -/
def frRoute (f : Frame) : Word := wordAt f.words 0
/-- FTYPE. -/
def frType (f : Frame) : Nat := fld (frRoute f) 8 6
/-- TSLICE. -/
def frSlice (f : Frame) : Nat := fld (frRoute f) 14 9
/-- RES. -/
def frRes (f : Frame) : Bool := flag (frRoute f) 15

/-- A frame that the fabric port drops (R360, R365, R366): logged with SRC 0x0A; the CODE, which the spec does not state, is
Config.frameDropCode. -/
def dropFrame (f : Frame) (srcdev : Nat) (s : State) : State :=
  logEvent { code := Config.frameDropCode % 256, src := 0x0A, lslice := 0, unit := 0x200 + f.port, wkind := 3, ctx := 0, writer := 0,
             addr := 0, srcdev := srcdev, low := 0, time := s.rc } s

/-- Do all listed fields of the header words read zero: (word, high bit, low bit)? -/
def zeroFields (f : Frame) (l : List (Nat × Nat × Nat)) : Bool := l.all fun (i, hi, lo) => decide (fld (wordAt f.words i) hi lo = 0)

/-- A frame arrives at a fabric port (R360, R365, R366): with a reserved value set, for another device, while FAB_DOMAIN is not
valid, or (a request) from a device outside the domain over unprotected links, it is dropped and logged. -/
def frameIn (f : Frame) (ftype : Nat) (clean : Bool) (sender : Option Nat) (s : State) (k : State → State) : State :=
  if !portsOpen s ∨ s.nfab ≤ f.port ∨ (frType f ≠ ftype ∧ frType f < 4) then s
  else
    let bad : Bool := decide (4 ≤ frType f ∨ fld (frRoute f) 5 0 ≠ 0 ∨ (frRes f ∧ frSlice f ≠ 0) ∨ fld (frRoute f) 31 16 ≠ devId s ∨ !devIdValid s ∨ !domValid s ∨ !clean)
    let far := match sender with
      | some d => !f.prot && decide (d < domLo s ∨ domHi s < d)
      | none => false
    if bad || far then dropFrame f (sender.getD 0) s else k s

/-- Requests that an answer with this port and TAG may belong to (R363). -/
def answered (s : State) (port tag : Nat) : List FabReq :=
  s.fab.reqs.filter fun r => r.kind.tagged && r.sent && r.port == port && r.tag == tag && !ownDev s r.dev

/-- One answer frame for a request: data gathers until LAST. -/
def takeAnswer (f : Frame) (r : FabReq) (s : State) : State :=
  let side := wordAt f.words 1
  let got := r.got ++ f.data.zip f.poison
  if flag side 17 then
    whenAwake (answerSlices s r) 8 (fld side 31 26) s (answerReq r (statusOf (fld side 25 18)) (fld side 11 0) got)
  else modReq r.id (fun x => { x with got := got }) s

/-- FABRIC_RESPONSE_FRAME (R363): the answer goes to the requester by the fabric port and TAG that it names. Of requests to
several devices under one tag, which one is meant the frame does not say: a free value. -/
def execFabricResponseFrame (f : Frame) (s : State) : Res :=
  let clean := zeroFields f [(1, 15, 12), (2, 31, 0), (3, 31, 0), (4, 31, 0), (5, 31, 0), (6, 31, 0)] && !frRes f && decide (frSlice f < 8)
  .next (frameIn f 1 clean none s fun t =>
    let l := answered t (frSlice f) (fld (wordAt f.words 1) 31 26)
    match l[Config.freeNat t.freeCtr 0 % Nat.max l.length 1]? with
    | some r => takeAnswer f r (drawFree t)
    | none => t)

/-! Answers to messages (R361, R362, R371, R373, R374, R377) -/

/-- The reserved fields of a credit message (R361). -/
def creditClean (f : Frame) : Bool := zeroFields f [(1, 19, 16), (2, 4, 0), (4, 25, 22), (4, 15, 7)]

/-- Is a CKIND one of R361? -/
def ckindOk (k : Nat) : Bool := decide (1 ≤ k ∧ k ≤ 4) || decide (9 ≤ k ∧ k ≤ 12)

/-- A credit message of kind `ck` arrives; one of another kind belongs to that kind's row, one of a reserved kind is dropped. -/
def creditFrame (f : Frame) (ck : Nat) (request : Bool) (s : State) (k : CMsg → State → State) : State :=
  let m := cmsgOf f.words
  if ckindOk m.ckind ∧ m.ckind ≠ ck then s
  else frameIn f 2 (creditClean f && ckindOk m.ckind) (if request then some m.srcdev else none) s (k m)

/-- The outstanding message of one kind that an answer names by REQID. -/
def messageOf (s : State) (kind : FabKind) (reqid : Nat) : Option FabReq :=
  s.fab.reqs.find? fun r => r.kind == kind && r.tag == reqid

/-- The record of a request that ended without a grant (R371): STATUS, and the target as requested. -/
def failRecord (r : FabReq) (st : Nat) : List Word :=
  let m := cmsgOf (0 :: r.words); let n (x : Nat) : Word := BitVec.ofNat 32 x
  [n (st * 2 ^ 24), n (r.dev * 65536 + m.tctx), n (m.tstore * 2 ^ 30 + m.tpocket * 2 ^ 26), 0, 0, 0, 0, n r.off]

/-- GVID is signalled after the record's write (R374). -/
def signalGvid (r : FabReq) (s : State) : State :=
  match r.gvid with
  | some vid => match counterOf s r.ctx vid with
    | some ph => (signalCounter ph .add 1 { lastsig := lastsigQueue r.len, who := .queue r.len, src := 2, unit := 0 }
        (touch (counterHome ph) 9 (ph % 4096) s).2).2.2
    | none => s
  | none => s

/-- A GRANT is granted: the record with its TAG is written at GREC, the credit is held, a deferred one signals GVID, and the
command that still waits completes (R371, R374, R377). -/
def granted (r : FabReq) (m : CMsg) (rec : List Word) (s : State) : State :=
  let ws := rec.take 7 ++ [BitVec.ofNat 32 r.off]
  let (wst, s1) := cmdWrite (.queue r.len) r.ctx r.grec (bytesOfWords ws) s
  let h : Held := { part := r.part, ctx := r.ctx, dev := r.dev, handle := m.handle, words := ws }
  let s2 := dropReq r.id { s1 with fab := { s1.fab with held := s1.fab.held ++ [h] } }
  let s3 := if r.deferred then signalGvid r s2 else s2
  match r.origin with
  | .cmd id => cmdDone id wst 0 (if wst = .ok ∨ wst = .okCorrected then m.handle else 0) s3
  | _ => s3

/-- A GRANT is refused: its command completes so, or a NO_WAIT request that was deferred leaves its record. -/
def notGranted (r : FabReq) (m : CMsg) (s : State) : State :=
  let s1 := dropReq r.id s
  match r.origin with
  | .cmd id => cmdDone id (statusOf m.status) 0 0 s1
  | _ => (cmdWrite (.queue r.len) r.ctx r.grec (bytesOfWords (failRecord r m.status)) s1).2

/-- A GRANT's answer: a grant that nobody wants any more is released. -/
def grantAnswer (f : Frame) (m : CMsg) (t : State) : State :=
  match messageOf t .grant m.reqid with
  | none => t
  | some r => whenAwake [r.home] 8 0 t fun u =>
    if r.gone then
      let v := dropReq r.id u
      if m.status = 0 then sendRelease r.home r.dev r.ctx r.part m.tenant m.tctx m.handle .none v else v
    else if m.status = 0 then granted r m (wordsOfBytes 8 f.data) u
    else notGranted r m u

/-- GRANT_ANSWER (R361, R371, R374, R377, R383). -/
def execGrantAnswer (f : Frame) (s : State) : Res := .next (creditFrame f 9 false s (grantAnswer f))

/-- The new expiry in a held record (R371 words 5 and 6). -/
def renewHeld (r : FabReq) (m : CMsg) (s : State) : State :=
  let f (h : Held) : Held := { h with words := (h.words.set 5 (BitVec.ofNat 32 m.arg0)).set 6 (BitVec.ofNat 32 m.arg1) }
  { s with fab := { s.fab with
      held := updWhere (fun h => h.part == r.part && h.dev == r.dev && h.handle == r.handle) f s.fab.held } }

/-- A RENEW's answer. -/
def renewAnswer (m : CMsg) (t : State) : State :=
  match messageOf t .renew m.reqid with
  | none => t
  | some r => whenAwake [r.home] 8 0 t fun u =>
    let st := statusOf m.status
    let v := dropReq r.id u
    if r.gone then v
    else
      let w := if st = .ok then renewHeld r m v else heldAfter r st v
      match r.origin with
      | .cmd id => cmdDone id st 0 (if st = .ok then m.arg0 else 0) w
      | _ => w

/-- RENEW_ANSWER (R361, R373, R377). -/
def execRenewAnswer (f : Frame) (s : State) : Res := .next (creditFrame f 10 false s renewAnswer)

/-- A RELEASE's answer: the grant has ended, and its entry leaves the table. -/
def releaseAnswer (m : CMsg) (t : State) : State :=
  match messageOf t .release m.reqid with
  | none => t
  | some r => whenAwake [r.home] 8 0 t fun u =>
    let st := statusOf m.status
    let v := dropHeld r.part r.dev r.handle (heldAfter r st (dropReq r.id u))
    match r.gone, r.origin with
    | false, .cmd id => cmdDone id st 0 0 v
    | _, _ => v

/-- RELEASE_ANSWER (R361, R373, R377). -/
def execReleaseAnswer (f : Frame) (s : State) : Res := .next (creditFrame f 11 false s releaseAnswer)

/-- A notice of deferral: a NO_WAIT GRANT completes CREDIT_DEFERRED with the entries ahead of it; another one's TMO runs. -/
def deferredNotice (m : CMsg) (t : State) : State :=
  match messageOf t .grant m.reqid with
  | none => t
  | some r => whenAwake [r.home] 8 0 t fun u =>
    if r.gone then u
    else if r.noWait then
      let v := modReq r.id (fun x => { x with deferred := true, origin := .none, since := u.rc }) u
      match r.origin with
      | .cmd id => cmdDone id .creditDeferred 0 m.arg0 v
      | _ => v
    else modReq r.id (fun x => { x with deferred := true, since := u.rc }) u

/-- DEFERRED_NOTICE (R374). -/
def execDeferredNotice (f : Frame) (s : State) : Res := .next (creditFrame f 12 false s deferredNotice)

/-- The answer to a counter signal: the SIGNAL completes with the answer's status and RESULT. -/
def signalAnswered (f : Frame) (t : State) : State :=
  let w (i : Nat) : Word := wordAt f.words (i + 1)
  match messageOf t .signal (fld (w 2) 31 16) with
  | none => t
  | some r => whenAwake [r.home] 8 0 t fun u =>
    let v := dropReq r.id u
    match r.gone, r.origin with
    | false, .cmd id => cmdDone id (statusOf (fld (w 0) 27 20)) 0 ((w 3).toNat) v
    | _, _ => v

/-- COUNTER_SIGNAL_ANSWER (R362, 10 R315). -/
def execCounterSignalAnswer (f : Frame) (s : State) : Res :=
  let w (i : Nat) : Word := wordAt f.words (i + 1)
  let clean := zeroFields f [(1, 28, 28), (1, 19, 16), (2, 4, 0), (5, 31, 0), (6, 31, 0)]
  if !flag (w 0) 29 then .next s
  else .next (frameIn f 3 clean none s (signalAnswered f))

/-! The fabric timeout (R383) -/

/-- FAB_CFG.TMO in rc (R387). -/
def fabTmo (s : State) : Nat := regGet s 0x64 (regNo 0x80 0x108) % 65536 * 100

/-- A request that has waited for FAB_TMO: its command or port request completes TIMEOUT_WATCHDOG; what answers it later is
discarded. -/
def timeoutReq (r : FabReq) (s : State) : State :=
  match r.origin with
  | .op id => match opOf s id with
    | some o => respond o .timeoutWatchdog 0 [] [] (forgetReq r s)
    | none => forgetReq r s
  | .cmd id =>
    let s1 := stopPieces r.origin s
    let s2 := (s1.fab.reqs.filter fun q => q.origin == r.origin).foldl (fun t q => forgetReq q t) s1
    match cmdOf s2 id with
    | some c => cmdDone id .timeoutWatchdog c.count 0 s2
    | none => s2
  | _ => forgetReq r s

/-- FABRIC_TIMEOUT (R383): REFCLK moves to the moment FAB_CFG.TMO µs after the frame was sent. A deferred GRANT is not timed
so. -/
def execFabricTimeout (req : Nat) (s : State) : Res :=
  match s.fab.reqs.find? fun r => r.id == req && r.sent && !r.gone && !r.deferred with
  | some r => .next (pump (timeoutReq r (timeTo (r.sentAt + fabTmo s) s)))
  | none => .next s

end Sys2Proof.Machine
end

