-- ==== Sys2Proof/Machine/MoverRows.lean ====
section
/-! DEFINITION. Machine/MoverRows.lean: the instructions of mover programs, and the start, stop and halt of their channels
(11 R336 to R358). -/
namespace Sys2Proof.Machine

/-! Operands of a MOVE (R340) -/

/-- A 32-bit or 64-bit word as a signed number. -/
def signedOf (bits x : Nat) : Int := if x % 2 ^ bits < 2 ^ (bits - 1) then (x % 2 ^ bits : Nat) else ((x % 2 ^ bits : Nat) : Int) - 2 ^ bits

/-- LEN, rows and CLASS of a MOVE. -/
def mvLen (ws : List Word) : Nat := (wordAt ws 1).toNat
def mvRows (ws : List Word) : Nat := fld (wordAt ws 0) 15 0 + 1
def mvKind (ws : List Word) : Nat := fld (wordAt ws 0) 26 25
def mvG (ws : List Word) : Bool := flag (wordAt ws 0) 27

/-- The offset that a row starts at in an operand: its sum, which must stay in the field's range (R340). -/
def rowOff (a : Nat) (en : Bool) (ofs stride row : Nat) : Option Nat :=
  let width := if bitOf a 63 then 52 else 32
  let sum : Int := (a % 2 ^ width : Nat) + (if en then signedOf 64 ofs else 0) + (row : Int) * signedOf 32 stride
  if 0 ≤ sum ∧ sum < 2 ^ width then some sum.toNat else none

/-- The source and destination offsets of a row. -/
def srcOff (ws : List Word) (ch : Chan) (row : Nat) : Option Nat :=
  rowOff (dwordAt ws 2) (flag (wordAt ws 0) 24) (ch.ofs.getD (fld (wordAt ws 0) 23 22) 0) (wordAt ws 6).toNat row
def dstOff (ws : List Word) (ch : Chan) (row : Nat) : Option Nat :=
  rowOff (dwordAt ws 4) (flag (wordAt ws 0) 21) (ch.ofs.getD (fld (wordAt ws 0) 20 19) 0) (wordAt ws 7).toNat row

/-- An operand address with its offset field replaced. -/
def withOff (a off : Nat) : Nat := if bitOf a 63 then a / 2 ^ 52 * 2 ^ 52 + off % 2 ^ 52 else a / 2 ^ 32 * 2 ^ 32 + off % 2 ^ 32

/-- The range of all rows of an operand. -/
def allRows (a len : Nat) (offs : List Nat) (rd : Bool) : Option Rng :=
  (opnd a len rd (!rd)).map fun r => { r with segs := offs.map fun o => (o, len) }

/-- The owner's contract of a mover (R353). -/
def moverContract (s : State) (n m : Nat) : Option Contract := contractOf s 1 (n * 8192 + 12 + m)

/-- The status that a COPY halts with when it is first reached (R166 to R168, R340, R342, R353). -/
def moveBad (s : State) (x : Ctx) (n m : Nat) (ch : Chan) (ws : List Word) : Option Status :=
  let len := mvLen ws; let rows := List.range (mvRows ws)
  let so := rows.map (srcOff ws ch); let dofs := rows.map (dstOff ws ch)
  if so.any Option.isNone ∨ dofs.any Option.isNone then some .boundViolation
  else
    let sl := so.map fun o => o.getD 0; let dl := dofs.map fun o => o.getD 0
    match allRows (dwordAt ws 2) len sl true, allRows (dwordAt ws 4) len dl false with
    | some a, some b =>
      match rngChecks s x [a, b] with
        | .fail st _ => some st
        | .spilled => some .boundViolation
        | .ok =>
          if !mvG ws then none
          else match moverContract s n m with
            | none => some .rejectedContract
            | some k =>
              let wBad := decide (b.st = .w) && dl.any fun o => decide (o % 32 ≠ 0 ∨ (o + len) % 32 ≠ 0)
              if a.ext ∨ b.ext ∨ wBad ∨ !ownerServes s k.owner [a.gset x] (a.slices s x) ∨ !ownerServes s k.owner [b.gset x] (b.slices s x) then
                some .rejectedContract
              else none
    | _, _ => some .decodeError

/-! MOVE: the next piece is read (R340, R347, R348) -/

/-- Read-ahead room of a channel and its mover for n bytes (R348). -/
def aheadRoom (s : State) (n m : Nat) (ch : Chan) (k : Nat) : Bool :=
  let u := ceilDiv k 64
  let all := ((List.range 8).map fun c => (chanOf s n m c).aheadUnits).foldl (· + ·) 0
  decide (ch.aheadUnits + u ≤ 128) && decide (all + u ≤ 256)

/-- A range of an operand as the group set it uses. -/
def Rng.use (s : State) (x : Ctx) (r : Rng) : SetUse :=
  { set := r.gset x, w := setW r.st (r.pocket x).set, s := pocketS (ctxSpan s x) (r.pocket x), slices := r.slices s x }

/-- The bound of a G-class row (R268, R353). -/
def rowBound (s : State) (x : Ctx) (k : Contract) (n : Nat) (a b : Rng) (nb : Nat) : Nat :=
  let far (r : Rng) : Nat := ((r.slices s x).map (lPath s r.st n)).foldl Nat.max 0
  useBound s k.owner [a.use s x, b.use s x] (8 + far a + far b) nb

/-- Step past the piece of `k` bytes at the issue point. -/
def Chan.advance (ch : Chan) (ws : List Word) (k : Nat) : Chan :=
  if ch.byte + k < mvLen ws then { ch with byte := ch.byte + k }
  else if ch.row + 1 < mvRows ws then { ch with row := ch.row + 1, byte := 0 }
  else { ch with ipc := ch.ipc + 32, row := 0, byte := 0, checked := false }

/-- The contract that a G-class row at the issue point is admitted under, where one begins there that is not suspended (R353). -/
def rowContract (s : State) (n m : Nat) (ch : Chan) (ws : List Word) : Option Contract :=
  if !mvG ws ∨ ch.byte ≠ 0 then none else (moverContract s n m).filter fun k => !k.suspended

/-- Admit the row at the issue point, where the MOVE is G class and its row begins: tokens and backlog are taken, its bound stands. -/
def admitRow (n m c : Nat) (x : Ctx) (ch : Chan) (ws : List Word) (a b : Rng) (s : State) : State :=
  match rowContract s n m ch ws with
  | some k =>
    let whole (r : Rng) : Rng := { r with segs := r.segs.map fun e => (e.1, mvLen ws) }
    let bound := rowBound s x k n (whole a) (whole b) (backlogNow (railBlocks s) s k.owner + mvLen ws)
    modChan n m c (fun y => { y with rowB := (s.bcnt, some bound), owed := mvLen ws }) (gTele 2 1 (gTake k (mvLen ws) s))
  | none => if mvG ws ∧ ch.byte = 0 then modChan n m c (fun y => { y with rowB := (s.bcnt, none) }) (gTele 14 1 s) else s

/-- The operands of the piece at a channel's issue point: source, destination and length (R340). -/
def pieceAt (ch : Chan) (ws : List Word) : Nat × Nat × Nat :=
  let so := (srcOff ws ch ch.row).getD 0 + ch.byte; let dn := (dstOff ws ch ch.row).getD 0 + ch.byte
  (withOff (dwordAt ws 2) so, withOff (dwordAt ws 4) dn, Nat.min (mvLen ws - ch.byte) (256 - dn % 256))

/-- Must the next piece of a MOVE wait: for room in the read-ahead buffer (R348), for a scoreboard entry (04 R104), or, where a G-class
row begins, for tokens or backlog room (R353)? -/
def pieceHeld (s : State) (n m c : Nat) (ch : Chan) (ws : List Word) : Bool :=
  let (src, _, k) := pieceAt ch ws
  !aheadRoom s n m ch k || unitWaits s (chanCtx s n m c) (opnd src k true false).toList ||
    (match rowContract s n m ch ws with
      | some g => (gTests g (backlogNow (railBlocks s) s g.owner) (mvLen ws)).isSome
      | none => false)

/-- The bytes that a piece has to move at its banks, or at its context's outer port: a G-class one owes what it writes (08 R265). -/
def pieceMoves (s : State) (x : Ctx) (g : Bool) (a b : Rng) : List (Nat × GSet × Nat × Nat) :=
  ((a.parts s x).map fun (n, l) => (n, a.gset x, l, 0)) ++ ((b.parts s x).map fun (n, l) => (n, b.gset x, l, if g then l else 0)) ++
    extWorks x [a, b]

/-- Read the next piece of a MOVE that has passed its checks. -/
def readPiece (n m c : Nat) (x : Ctx) (ws : List Word) (s : State) : State :=
  let ch := chanOf s n m c
  let ctx := chanCtx s n m c
  let (src, dst, k) := pieceAt ch ws
  match opnd src k true false, opnd dst k false true with
  | some a, some b =>
    if mvG ws ∧ ch.byte = 0 ∧ (moverContract s n m).isNone then oweHalt n m c .rejectedContract ch.ipc s
    else if pieceHeld s n m c ch ws then s
    else
      let s1 := admitRow n m c x ch ws a b s
      if (a.slices s1 x).any (slcFailed s1) then oweHalt n m c .unitFailed src s1
      else
        let (st, bs, s2) := readRng { ctx := ctx, who := .nobody } x a s1
        if st.rank < Status.okRetried.rank ∧ st ≠ .uncorrectable then oweHalt n m c st src s2
        else
          let chr := chanOf s2 n m c
          let g := mvG ws && chr.rowB.2.isSome
          let (id, s3) := freshId s2
          let req := if ch.byte = 0 then id else chr.rowReq
          let p : Piece :=
            { id := id, pc := ch.ipc, row := ch.row, byte := ch.byte, src := src, dst := dst, data := bs, g := g
              rowEnd := decide (ch.byte + k = mvLen ws), admitB := chr.rowB.1, bound := chr.rowB.2, rail := false, lc := ch.lc, ofs := ch.ofs }
          let s4 := addWorks id req (if g then moverContract s3 n m else none) 1 (n * 8192 + 12 + m) (bitsOf (chanCtl s n m c) 13 12)
            (fun y => if y = n then 11 + m else 10) (pieceMoves s3 x g a b) s3
          modChan n m c (fun y => ({ y with ahead := y.ahead ++ [p], owed := y.owed - k, rowReq := req }).advance ws k) s4
  | _, _ => oweHalt n m c .decodeError ch.ipc s

/-- Slices that the next piece touches. -/
def pieceSlices (s : State) (x : Ctx) (n m c : Nat) (ws : List Word) : List Nat :=
  let ch := chanOf s n m c
  let f (a off : Nat) : List Nat := match opnd (withOff a off) (mvLen ws) true false with
    | some r => r.slices s x
    | none => []
  (n :: cmdAddrSlices s (chanCtx s n m c) ch.ipc 32 ++ f (dwordAt ws 2) ((srcOff ws ch ch.row).getD 0) ++ f (dwordAt ws 4) ((dstOff ws ch ch.row).getD 0)).eraseDups

/-- Does a MOVE name a pocket whose descriptor is about to change, so that it is held for the new one (02 R48)? -/
def movePending (s : State) (n m c : Nat) (ws : List Word) : Bool :=
  [dwordAt ws 2, dwordAt ws 4].any fun a => !bitOf a 63 && (match storeOf (regionOf a) with
    | some st => pocketPending s (chanCtx s n m c) st (pocketNoOf a)
    | none => false)

/-- Issue from a MOVE of MKIND COPY. A G-class one that is refused is counted (08 R275). -/
def moveOn (n m c : Nat) (x : Ctx) (ch : Chan) (ws : List Word) (s : State) : State :=
  if ch.checked then readPiece n m c x ws s
  else if movePending s n m c ws then s
  else match moveBad s x n m ch ws with
    | some st =>
      oweHalt n m c st ch.ipc (if mvG ws ∧ st = .rejectedContract then teleAdd (chanCtx s n m c) 26 1 (gTele 4 1 s) else s)
    | none =>
      if mvLen ws = 0 then modChan n m c (fun y => { y with ipc := y.ipc + 32, row := 0, byte := 0 }) s
      else readPiece n m c x ws (modChan n m c (fun y => { y with checked := true }) s)

/-- The context of a channel. -/
def chanContext (s : State) (n m c : Nat) : Option Ctx := if chanBound s n m c then ctxOf s (chanCtx s n m c) else none

/-- May a channel issue a piece of a MOVE now? -/
def canIssue (s : State) (n m c : Nat) : Bool :=
  match issuing s n m c 1, chanContext s n m c with
  | some (ch, ws), some _ => decide (mvKind ws = 0) && !(ch.checked && pieceHeld s n m c ch ws)
  | _, _ => false

/-- How far a channel stands behind the one that its mover took last (R334). -/
def chanBehind (s : State) (n m c : Nat) : Nat := (c + 7 - mget (fun _ => 7) s.movers.turns (n * 2 + m)) % 8

/-- Is it this channel's turn: does no other channel of the mover that may issue stand before it in the rotation (R334)? -/
def chanTurn (s : State) (n m c : Nat) : Bool :=
  !(List.range 8).any fun d => decide (chanBehind s n m d < chanBehind s n m c) && canIssue s n m d

/-- Note that a mover has taken a channel. -/
def tookChan (n m c : Nat) (s : State) : State :=
  { s with movers := { s.movers with turns := mput (fun _ => 7) s.movers.turns (n * 2 + m) c } }

/-- MOVE with MKIND COPY (R334, R340, R342, R347, R348, R353): the channel issues its next piece, in its turn. -/
def execMove (n m c : Nat) (s : State) : Res :=
  match issuing s n m c 1, chanContext s n m c with
  | some (ch, ws), some x =>
    if mvKind ws ≠ 0 ∨ !cmdsRun s ∨ !chanTurn s n m c then .next s
    else .next (whenAwake (pieceSlices s x n m c ws) 0xA (chanKey n m c) s fun t => moveOn n m c x ch ws (tookChan n m c t))
  | _, _ => .next s

/-! Retirement (R347, R350) -/

/-- Put one byte run of a partly covered 64 B range into the mover's staging (R350). -/
def stagePart (n m c ctx base : Nat) (bs : List (Nat × Byte)) (s : State) : State :=
  let put (e : StageEntry) : StageEntry := { e with be := bs.foldl (fun y (o, b) => minsert o b y) e.be }
  let l := stageOf s n m
  match l.find? fun e => e.ch == c && e.ctx == ctx && e.base == base with
  | some e => setStage n m (updWhere (fun x => x.id == e.id) put l) s
  | none =>
    let (id, s1) := freshId s
    setStage n m (l ++ [put { id := id, ch := c, ctx := ctx, base := base, be := [], takenC := s.bcnt }]) s1

/-- Drain what staging must not keep: entries with all 64 bytes, and the oldest while 28 or more are held (R350). -/
def stageOverflow (n m : Nat) (s : State) : State :=
  let s1 := drainList (n * 2 + m) ((stageOf s n m).filter fun e => decide (e.be.length = 64)) s
  let l := stageOf s1 n m
  drainList (n * 2 + m) (l.take (l.length - 27)) s1

/-- Write the bytes of a piece to one 64 B range of a store: to its bank where the range is covered or the piece is G class,
else to staging. -/
def retireRange (n m c ctx : Nat) (x : Ctx) (g : Bool) (base : Nat) (bs : List (Nat × Byte)) (s : State) : State :=
  if g ∨ bs.length = 64 then
    let s1 := drainList (n * 2 + m) ((stageOf s n m).filter fun e => e.ch == c && e.ctx == ctx && e.base == base) s
    match storeOf (regionOf base) with
    | some st =>
      let p := x.pocket st (pocketNoOf base)
      let ks := bs.map fun (o, _) => (locate (ctxSpan s1 x) st p (offsetOf base + o)).key
      let (s2, w) := writeBytes { ctx := ctx, who := .nobody } (ks.zip (bs.map fun (_, b) => (b, false))) s1
      let s3 := teleMove ctx (ks.headD 0) bs.length true s2
      if w.status = .uncorrectable then failNow n m c .uncorrectable (base + (bs.headD (0, 0)).1) s3 else s3
    | none => s1
  else stageOverflow n m (stagePart n m c ctx base bs s)

/-- The write of a piece to a store, range by range. -/
def retireStore (n m c ctx : Nat) (x : Ctx) (p : Piece) (s : State) : State :=
  let items := p.data.zipIdx.map fun (b, i) => (p.dst + i, b.1)
  ((items.map fun e => e.1 / 64 * 64).eraseDups).foldl (fun t base =>
    retireRange n m c ctx x p.g base ((items.filter fun e => e.1 / 64 * 64 == base).map fun e => (e.1 - base, e.2)) t) s

/-- The write of a piece to the context's external window. -/
def retireExt (n m c ctx : Nat) (x : Ctx) (p : Piece) (s : State) : State :=
  let (s1, st, _) := extStore (ctxKey s x) (x.extBase + bitsOf p.dst 51 0) p.data s
  let s2 := teleAdd ctx 14 p.data.length s1
  if st = .ok then s2 else failNow n m c st p.dst s2

/-- The end of a G-class row: its bound is checked (08 R271, R272, R353). -/
def rowMoved (n m c ctx : Nat) (p : Piece) (s : State) : State :=
  let rail := p.rail || (chanOf s n m c).railed
  let s1 := modChan n m c (fun y => { y with railed := rail && !p.rowEnd }) s
  match (if p.g then p.bound else none) with
  | some b =>
    if p.rowEnd ∧ b < s.bcnt - p.admitB then
      recordMiss n 6 (8 * m + c) .nobody ctx p.dst (2 ^ 19 + n * 8192 + 12 + m) (s.bcnt - p.admitB - b) rail s1
    else s1
  | none => s1

/-- Retire the oldest piece of a channel. -/
def retireOn (n m c : Nat) (x : Ctx) (p : Piece) (s : State) : State :=
  let ctx := chanCtx s n m c
  let failed := match opnd p.dst p.data.length false true with
    | some r => (r.slices s x).any (slcFailed s)
    | none => false
  if p.data.any (·.2) then failNow n m c .uncorrectable p.src s
  else if failed then failNow n m c .unitFailed p.dst s
  else
    let s1 := modChan n m c (fun y =>
      { y with ahead := y.ahead.drop 1, lastSrc := p.src + p.data.length - 1, lastDst := p.dst + p.data.length - 1 }) s
    rowMoved n m c ctx p (if bitOf p.dst 63 then retireExt n m c ctx x p s1 else retireStore n m c ctx x p s1)

/-- PIECE_RETIRE (R347, R350, R351): the oldest piece of a channel retires, once its bytes have moved (08 R249). -/
def execPieceRetire (n m c : Nat) (s : State) : Res :=
  let ch := chanOf s n m c
  match ch.ahead, chanContext s n m c with
  | p :: _, some x =>
    if (ch.state = .running ∨ ch.state = .waiting) ∧ cmdsRun s ∧ !worksLeft s p.id then
      let ns := match opnd p.dst p.data.length false true with
        | some r => r.slices s x
        | none => []
      .next (whenAwake (n :: ns) 0xA (chanKey n m c) s (retireOn n m c x p))
    else .next s
  | _, _ => .next s

/-- STAGING_AGE_EXPIRY (R350): an entry that has stood 128 cc drains. -/
def execStagingAgeExpiry (n m entry : Nat) (s : State) : Res :=
  match (stageOf s n m).find? fun e => e.id == entry with
  | some e => .next (drainStage (n * 2 + m) e { s with bcnt := Nat.max s.bcnt (e.takenC + 64) }).2
  | none => .next s

/-! LOOP, WAIT, SIGNAL, END -/

/-- Add to an offset register modulo 2^64. -/
def addOfs (k : Nat) (d : Int) (ofs : List Nat) : List Nat :=
  ofs.zipIdx.map fun (x, i) => if i = k then (((x : Int) + d) % 2 ^ 64).toNat else x

/-- LOOP (R343). -/
def loopStep (ws : List Word) (ch : Chan) : Chan :=
  let w0 := wordAt ws 0
  let k := fld w0 27 26; let ora := fld w0 25 24; let orb := fld w0 23 22; let back := fld w0 7 0
  let count := (wordAt ws 1).toNat; let ia := signedOf 32 (wordAt ws 2).toNat; let ib := signedOf 32 (wordAt ws 3).toNat
  let v0 := ch.lc.getD k 0
  let v := (if v0 = 0 then count else v0) - 1
  let lc := ch.lc.zipIdx.map fun (x, i) => if i = k then v else x
  if v ≠ 0 then
    { ch with lc := lc, ofs := addOfs orb ib (addOfs ora ia ch.ofs), ipc := (ch.ipc + 2 ^ 64 - 32 * back) % 2 ^ 64 }
  else
    { ch with lc := lc, ofs := addOfs orb (-(ib * (count - 1 : Nat))) (addOfs ora (-(ia * (count - 1 : Nat))) ch.ofs), ipc := ch.ipc + 32 }

/-- Serve an instruction of a channel once its slice and those of its program run. -/
def chanAwake (n m c : Nat) (more : List Nat) (s : State) (f : State → State) : State :=
  if cmdsRun s then
    whenAwake (n :: cmdAddrSlices s (chanCtx s n m c) (chanOf s n m c).ipc 32 ++ more).eraseDups 0xA (chanKey n m c) s f
  else s

/-- LOOP (R343). -/
def execLoop (n m c : Nat) (s : State) : Res :=
  match issuing s n m c 2 with
  | some (_, ws) => .next (chanAwake n m c [] s (modChan n m c (loopStep ws)))
  | none => .next s

/-- A WAIT of a channel on a counter (R319 to R322, R344). -/
def chanWait (n m c ph : Nat) (ch : Chan) (ws : List Word) (s : State) : State :=
  let cond := fld (wordAt ws 0) 27 26; let consume := flag (wordAt ws 0) 25; let target := (wordAt ws 2).toNat
  let ctr := getCounter s ph
  if slcFailed s (counterHome ph) then oweHalt n m c .unitFailed ch.ipc s
  else if ctr.realign != decide (cond = 2) ∨ (consume ∧ cond ≠ 0) then oweHalt n m c .decodeError ch.ipc s
  else if ctr.fault then oweHalt n m c .counterFault ch.ipc s
  else if condHolds cond target ctr then
    modChan n m c (fun y => { y with ipc := y.ipc + 32 }) (if consume then putCounter ph { ctr with v := ctr.v - target } s else s)
  else if waiterRoom s (counterHome ph) (chanCtx s n m c) 0 then
    let (id, s1) := freshId s
    let w : Waiter :=
      { id := id, lock := false, phys := ph, by_ := .chan n m c, ctx := chanCtx s n m c, queue := 0, cond := cond, consume := consume
        target := target, tmo := fld (wordAt ws 1) 31 16, since := s.rc, wake := none, hid := 0, paused := none }
    modChan n m c (fun y => { y with state := .waiting }) { s1 with sync := { s1.sync with waiters := s1.sync.waiters ++ [w] } }
  else s

/-- WAIT of a mover program (R344). -/
def execMoverWait (n m c : Nat) (s : State) : Res :=
  match issuing s n m c 3 with
  | some (ch, ws) =>
    match counterOf s (chanCtx s n m c) (fld (wordAt ws 1) 15 0) with
    | some ph => .next (chanAwake n m c [counterHome ph] s (chanWait n m c ph ch ws))
    | none => .next (chanAwake n m c [] s (oweHalt n m c .boundViolation ch.ipc))
  | none => .next s

/-- The signal itself, once every earlier piece has retired and the staging is drained (R301, R345). -/
def chanSignal (n m c : Nat) (ch : Chan) (ws : List Word) (s : State) : State :=
  let s1 := drainChan n m c s
  if (chanOf s1 n m c).owedHalt.isSome then s1
  else match counterOf s1 (chanCtx s1 n m c) (fld (wordAt ws 1) 15 0) with
    | none => oweHalt n m c .boundViolation ch.ipc s1
    | some ph =>
      if slcFailed s1 (counterHome ph) then oweHalt n m c .unitFailed ch.ipc s1
      else
        let (st, _, s2) := signalCounter ph .add (wordAt ws 2).toNat (moverSrc n m c) s1
        if st = .ok then modChan n m c (fun y => { y with ipc := y.ipc + 32 }) s2 else oweHalt n m c st ch.ipc s2

/-- SIGNAL of a mover program (R345). -/
def execMoverSignal (n m c : Nat) (s : State) : Res :=
  match issuing s n m c 4 with
  | some (ch, ws) =>
    if !ch.ahead.isEmpty then .next s
    else
      let more := match counterOf s (chanCtx s n m c) (fld (wordAt ws 1) 15 0) with
        | some ph => [counterHome ph]
        | none => []
      .next (chanAwake n m c more s (chanSignal n m c ch ws))
  | none => .next s

/-- END (R346): the staging is drained and every piece has committed. -/
def chanEnd (n m c : Nat) (s : State) : State :=
  let s1 := drainChan n m c s
  if (chanOf s1 n m c).owedHalt.isSome then s1 else modChan n m c (fun y => { y with state := .idle, status := .ok, checked := false }) s1

/-- END (R346). -/
def execMoverEnd (n m c : Nat) (s : State) : Res :=
  match issuing s n m c 15 with
  | some (ch, _) => if ch.ahead.isEmpty then .next (chanAwake n m c [] s (chanEnd n m c)) else .next s
  | none => .next s

/-- MOVER_HALT (R352): the channel's first failure in program order stops it, once every earlier piece has retired. -/
def execMoverHalt (n m c : Nat) (s : State) : Res :=
  let ch := chanOf s n m c
  let due := match ch.owedHalt with
    | some e => some e
    | none => (issueBad s n m c).map fun st => (st, ch.pc)
  match due with
  | some (st, addr) =>
    if ch.state = .running ∧ !ch.spills ∧ ch.ahead.isEmpty then .next (chanAwake n m c [] s (haltFirst n m c (st, addr))) else .next s
  | none => .next s

/-! SPILL and FILL (R354 to R356) -/

/-- The pocket that a SPILL or FILL names at offset 0 (R341, R354, R355). -/
def wholePocket (a : Nat) : Option (Store × Nat) :=
  if bitOf a 63 ∨ offsetOf a ≠ 0 then none else (storeOf (regionOf a)).map fun st => (st, pocketNoOf a)

/-- The checks a SPILL and a FILL share: a PRIV channel, an aligned external image, the context's key. -/
def imageBad (s : State) (x : Ctx) (n m c : Nat) (ws : List Word) (img pocket : Nat) : Option Status :=
  if mvG ws then some .rejectedContract
  else if !chanPriv s n m c ∨ img % 4096 ≠ 0 ∨ img / 2 ^ 52 ≠ 0 ∨ (wholePocket pocket).isNone ∨ (ctxKey s x).isNone then some .decodeError
  else none

/-- Write the image of a pocket, free its lines and start their clear (R354 steps 1 to 3). -/
def spillNow (n m c ctx : Nat) (x : Ctx) (st : Store) (pk img : Nat) (s : State) : State :=
  let p := x.pocket st pk; let sp := ctxSpan s x
  let s1 := dropReuse ctx st pk (modCtx ctx (fun y => y.setPocket st pk { p with state := .spilled }) s)
  let r : Rng := { ext := false, st := st, pk := pk, segs := [(0, p.bound)], rd := false, wr := false, acc := false }
  let (_, bs, s2) := readRng { ctx := ctx, who := .nobody } x r s1
  let (s3, est, _) := extStore (ctxKey s x) img bs s2
  let s4 := teleAdd ctx 14 p.bound s3
  let (id, s5) := startClear x.part (pocketLines sp st p) s4
  modChan n m c (fun y => { y with clear := id, spilling := none, owedHalt := if est.rank < Status.partialDone.rank ∧ est ≠ .uncorrectable then some (est, y.ipc) else y.owedHalt }) s5

/-- A SPILL whose pocket is still in use drains it first (R354 step 1; 02 R48): it has begun, and requests that arrive are held. -/
def spillDrain (n m c ctx : Nat) (x : Ctx) (st : Store) (pk img : Nat) (s : State) : State :=
  if pocketInUse s ctx st pk 0 then drainPocket ctx st pk (modChan n m c (fun y => { y with spilling := some (ctx, st, pk, img) }) s)
  else spillNow n m c ctx x st pk img s

/-- The slices that hold a pocket's lines. -/
def pocketSlices (s : State) (x : Ctx) (st : Store) (pk : Nat) : List Nat :=
  Rng.slices s x { ext := false, st := st, pk := pk, segs := [(0, (x.pocket st pk).bound)], rd := false, wr := false, acc := false }

/-- SPILL of a channel's context. It is held while the pocket's descriptor is about to change (02 R48). -/
def spillOn (n m c : Nat) (x : Ctx) (ch : Chan) (ws : List Word) (s : State) : State :=
  let ctx := chanCtx s n m c
  match imageBad s x n m c ws (dwordAt ws 4) (dwordAt ws 2), wholePocket (dwordAt ws 2) with
  | some st, _ => oweHalt n m c st ch.ipc s
  | none, none => oweHalt n m c .decodeError ch.ipc s
  | none, some (st, pk) =>
    let p := x.pocket st pk
    if pocketPending s ctx st pk then s
    else if ctxContract s ctx then oweHalt n m c .rejectedContract ch.ipc s
    else if !p.valid ∨ p.state ≠ .resident then oweHalt n m c .boundViolation ch.ipc s
    else if (pocketSlices s x st pk).any (slcFailed s) then oweHalt n m c .unitFailed ch.ipc s
    else spillDrain n m c ctx x st pk (dwordAt ws 4) s

/-- SPILL (R341, R354, R356). -/
def execSpill (n m c : Nat) (s : State) : Res :=
  match (chanOf s n m c).spilling, chanContext s n m c with
  | some (ctx, st, pk, img), some x => .next (chanAwake n m c (ctxSpan s x).slices s (spillDrain n m c ctx x st pk img))
  | _, _ => match issuing s n m c 1, chanContext s n m c with
  | some (ch, ws), some x =>
    if mvKind ws ≠ 1 ∨ !ch.ahead.isEmpty then .next s
    else .next (chanAwake n m c (ctxSpan s x).slices s (spillOn n m c x ch ws))
  | _, _ => .next s

/-- Read the image back into the pocket's lines (R355). -/
def fillNow (n m c ctx : Nat) (x : Ctx) (st : Store) (pk img : Nat) (s : State) : State :=
  let p := x.pocket st pk
  let (_, bs) := extPlain s (ctxKey s x) img p.bound
  let s1 := modCtx ctx (fun y => y.setPocket st pk { p with state := .resident }) s
  let ks := pocketKeys (ctxSpan s x) st p 0 p.bound
  let (s2, _) := writeBytes { ctx := ctx, who := .nobody } (ks.zip bs) s1
  let s3 := match ks with
    | k :: _ => teleAdd ctx 12 p.bound (teleMove ctx k p.bound true s2)
    | [] => s2
  let s4 := modChan n m c (fun y => { y with ipc := y.ipc + 32 }) s3
  if bs.any (·.2) then oweHalt n m c .uncorrectable (chanOf s n m c).ipc s4 else s4

/-- FILL of a channel's context. It is held while the pocket's descriptor is about to change (02 R48). -/
def mfillOn (n m c : Nat) (x : Ctx) (ch : Chan) (ws : List Word) (s : State) : State :=
  let ctx := chanCtx s n m c
  match imageBad s x n m c ws (dwordAt ws 2) (dwordAt ws 4), wholePocket (dwordAt ws 4) with
  | some st, _ => oweHalt n m c st ch.ipc s
  | none, none => oweHalt n m c .decodeError ch.ipc s
  | none, some (st, pk) =>
    let p := x.pocket st pk
    if pocketPending s ctx st pk then s
    else if !p.valid ∨ p.state ≠ .spilled ∨ overlapsResident s x.part ctx st pk p then oweHalt n m c .boundViolation ch.ipc s
    else if (pocketSlices s x st pk).any (slcFailed s) then oweHalt n m c .unitFailed ch.ipc s
    else if awaitsClear s (ctxSpan s x) st p then s
    else fillNow n m c ctx x st pk (dwordAt ws 2) s

/-- FILL of a mover program (R341, R355, R356). -/
def execMoverFill (n m c : Nat) (s : State) : Res :=
  match issuing s n m c 1, chanContext s n m c with
  | some (ch, ws), some x =>
    if mvKind ws ≠ 2 ∨ !ch.ahead.isEmpty then .next s
    else .next (chanAwake n m c (ctxSpan s x).slices s (mfillOn n m c x ch ws))
  | _, _ => .next s

/-! START and STOP (R336, R337, R357, R358) -/

/-- The 16 words of a save image (R357). -/
def saveImage (ch : Chan) : List Word :=
  let d (x : Nat) : List Word := [BitVec.ofNat 32 x, BitVec.ofNat 32 (x / 2 ^ 32)]
  d ch.pc ++ [BitVec.ofNat 32 ch.row, BitVec.ofNat 32 ch.byte] ++ ch.ofs.flatMap d ++ ch.lc.map (BitVec.ofNat 32)

/-- The channel that a save image restores. -/
def restoreChan (ws : List Word) : Chan :=
  { Chan.zero with
    state := .running, ipc := dwordAt ws 0, row := (wordAt ws 2).toNat, byte := (wordAt ws 3).toNat
    ofs := (List.range 4).map fun i => dwordAt ws (4 + 2 * i), lc := (List.range 4).map fun i => (wordAt ws (12 + i)).toNat }

/-- Does a restored position lie outside the MOVE at its PC (R357)? -/
def restoredBad (s : State) (ctx : Nat) (ch : Chan) : Bool :=
  let (st, ws) := fetchInstr s ctx ch.ipc
  decide (st = .ok) && (if fld (wordAt ws 0) 31 28 = 1 ∧ mvKind ws = 0 then decide (mvRows ws ≤ ch.row ∨ (mvLen ws ≤ ch.byte ∧ ch.byte ≠ 0))
    else decide (ch.row ≠ 0 ∨ ch.byte ≠ 0))

/-- START takes effect, under the value just written to MCH_CTL (R337): its status and the state. -/
def chanStart (n m c : Nat) (s : State) : Status × State :=
  let v := chanCtl s n m c; let prog := chanReg8 s n m c 8
  if !bitOf v 11 ∨ (bitOf v 26 ∧ bitOf prog 63) then (.decodeError, s)
  else
    let old := chanOf s n m c
    let put (x : Chan) : State := modChan n m c (fun _ => { x with status := old.status, stopWait := [], startWait := [] }) s
    if !bitOf v 28 then (.ok, put { Chan.zero with state := .running, ipc := prog })
    else
      let a := chanReg8 s n m c 0x28 % 2 ^ 52
      let bs := extRead s a 64
      let st := if bs.any (·.2) then Status.uncorrectable else extStatus s a 64
      if st ≠ .ok then (.ok, put { Chan.zero with state := .running, ipc := prog, owedHalt := some (st, prog) })
      else
        let r := restoreChan (wordsOfBytes 16 (bs.map (·.1)))
        (.ok, put (if restoredBad s (v % 2048) r then { r with owedHalt := some (.decodeError, r.ipc) } else r))

/-- May MCH_CTL name this context (R336, 13 R395)? -/
def chanCtxOk (s : State) (n c : Nat) : Bool :=
  match ctxOf s c with
  | some x => (ctxSpan s x).has n && decide ((partOf s x.part).state ≠ .absent) && !x.destroying &&
      (decide (x.state ≠ .suspended) || decide ((partOf s x.part).active = 0))
  | none => false

/-- A write of MCH_CTL (R336, R337). -/
def mchCtlWrite (n m c v : Nat) (by_ : RegBy) (s : State) : RegRes :=
  let reg := chanReg n m c 0; let addr := reg * 4
  let ch := chanOf s n m c; let old := chanCtl s n m c
  let rest := v % 2 ^ 30
  let fields (x : Nat) : Nat := x % 2 ^ 29
  let free := decide (ch.state = .idle ∨ ch.state = .halted)
  let op := bitsOf v 31 30
  if op = 3 then reservedReg by_ addr s
  else if !free ∧ fields rest ≠ fields old then dropReg .writeIgnored by_ addr s
  else if free ∧ bitOf v 11 ∧ !chanCtxOk s n (v % 2048) then (some .boundViolation, s)
  else if op = 1 ∧ free then
    let (st, s1) := chanStart n m c (regPut 0 reg rest s)
    if st = .ok then (some .ok, (touch n 0xA (chanKey n m c) s1).2) else (some st, s)
  else
    let s1 := regPut 0 reg rest s
    if op = 1 then
      if ch.state = .stopping then
        if bitOf v 29 then (some .pendingShutdown, s)
        else (none, modChan n m c (fun x => { x with startWait := x.startWait ++ [by_.origin] }) s1)
      else (some .ok, s1)
    else if op = 2 ∧ ch.state ≠ .idle ∧ ch.state ≠ .stopping then (none, beginStop n m c (bitOf rest 27) by_.origin s1)
    else (some .ok, s1)

/-- A write of MCH_PROG, MCH_SAVE or MCH_HALTCNT (R336): dropped where it would change one that a running channel holds. -/
def mchParamWrite (n m c off v : Nat) (by_ : RegBy) (s : State) : RegRes :=
  let reg := chanReg n m c off; let ch := chanOf s n m c
  if ch.state ≠ .idle ∧ ch.state ≠ .halted ∧ v ≠ regGet s 0 reg then dropReg .writeIgnored by_ (reg * 4) s
  else (some .ok, regPut 0 reg v s)

/-- The end of a STOP (R358 steps 4 to 6), and the START that waits for it. -/
def stopDone (n m c : Nat) (s : State) : State :=
  let s1 := drainChan n m c s
  let ch := chanOf s1 n m c
  let s2 := if ch.saving then extWrite (chanReg8 s1 n m c 0x28 % 2 ^ 52) ((bytesOfWords (saveImage ch)).map fun b => (b, false)) s1 else s1
  let s3 := modChan n m c (fun x => { x with state := .idle, status := .ok, stopWait := [], startWait := [], owedHalt := none, saving := false, checked := false }) s2
  let s4 := finishAll ch.stopWait .ok s3
  if ch.startWait.isEmpty then s4
  else
    let (st, s5) := chanStart n m c s4
    finishAll ch.startWait (st.join .okDelayed) s5

/-- MOVER_STOP_DONE (R358): the staging of a stopping channel has drained, and its image is written. -/
def execMoverStopDone (n m c : Nat) (s : State) : Res :=
  let ch := chanOf s n m c
  if ch.state = .stopping ∧ !ch.spills then .next (stopDone n m c s) else .next s

end Sys2Proof.Machine
end

