-- ==== Sys2Proof/Machine/RegMap.lean ====
section
/-! DEFINITION. Machine/RegMap.lean: the register map of region 0x8 (02 R32): for each 32-bit register its fields by
access type (00 R4) as bit masks, and its reset value. -/
namespace Sys2Proof.Machine

/-- A 32-bit register: the bits of each access type and the reset value. Bits of no mask are reserved (R5). -/
structure RegSpec where
  rw : Nat
  w1 : Nat
  w1c : Nat
  sl : Nat
  ro : Nat
  reset : Nat
  deriving DecidableEq, Repr

/-- A register whose fields are all RO or reserved. -/
def roReg (mask : Nat) : RegSpec := { rw := 0, w1 := 0, w1c := 0, sl := 0, ro := mask, reset := 0 }
/-- A register of RW fields. -/
def rwReg (mask reset : Nat) : RegSpec := { rw := mask, w1 := 0, w1c := 0, sl := 0, ro := 0, reset := reset }
/-- A register of W1 fields. -/
def w1Reg (mask : Nat) : RegSpec := { rw := 0, w1 := mask, w1c := 0, sl := 0, ro := 0, reset := 0 }

/-- The registers of one port at its offset (04 R113 to R117, 09 R291). -/
def portRegSpec (p off : Nat) : Option RegSpec :=
  if off = 0x00 then some (rwReg 0x3 (if p = 10 then 1 else 0))
  else if off = 0x04 then some { rw := 0x000FF00C, w1 := 0, w1c := 0, sl := 0x00000F00, ro := 0x3, reset := 0x00044F00 }
  else if off = 0x08 then some (rwReg 0x800007FF 0)
  else if off = 0x0C then some (roReg 0xE0FF007F)
  else if off = 0x10 then some { rw := 0, w1 := 0, w1c := 0xFF, sl := 0, ro := 0, reset := 0 }
  else if off = 0x14 then some { rw := 0x1, w1 := 0, w1c := 0, sl := 0, ro := 0xF0, reset := 0 }
  else none

/-- The queue-control registers (05 R158). -/
def queueRegSpec (off : Nat) : Option RegSpec :=
  if off = 0x0 then some (rwReg 0xF0001FFF 0)
  else if off = 0x4 then some (roReg 0xFFF01FFF)
  else if off = 0x8 then some (roReg 0x00FF03FF)
  else if off = 0xC then some (rwReg 0x00001FFF 0)
  else if off = 0x10 then some (rwReg 0xFFFF1FFF 0)
  else none

/-- The weave registers (08 R261, R273, R279). -/
def weaveRegSpec (off : Nat) : Option RegSpec :=
  if off = 0x0 then some (roReg 0x9FFFFFFF)
  else if off = 0x4 then some { rw := 0, w1 := 0, w1c := 0xC0000000, sl := 0, ro := 0x000FFFFF, reset := 0 }
  else if off = 0x8 then some (roReg 0xFFFFFFFF)
  else if off = 0xC then some (rwReg 0x8FF0FFFF 0x8C8008A6)
  else if off = 0x10 then some (roReg 0xE0F0F000)
  else none

/-- The mover channel registers (11 R335), at their offset within the channel. -/
def chanRegSpec (off : Nat) : Option RegSpec :=
  if off = 0x00 then some (rwReg 0xFC003FFF 0)
  else if off = 0x04 then some (roReg 0xFFF0FFFF)
  else if off = 0x08 ∨ off = 0x0C then some (rwReg 0xFFFFFFFF 0)
  else if 0x10 ≤ off ∧ off < 0x28 then some (roReg 0xFFFFFFFF)
  else if off = 0x28 then some (rwReg 0xFFFFFFC0 0)
  else if off = 0x2C then some (rwReg 0x000FFFFF 0)
  else if off = 0x30 then some (rwReg 0x8000FFFF 0)
  else none

/-- The power registers of a slice (15 R454 to R459, 16 R475). -/
def pwrRegSpec (off : Nat) : Option RegSpec :=
  if off = 0x00 then some (rwReg 0xF0000000 0)
  else if off = 0x04 then some (roReg 0xFF80FF00)
  else if off = 0x08 ∨ off = 0x0C then some (roReg 0xFFFFFFFF)
  else if off = 0x10 then some (roReg 0xF807FFFF)
  else if off = 0x14 then some (rwReg 0x00000DFF 0x1FF)
  else if off = 0x18 then some (rwReg 0xFFFFFFFF 0x00140032)
  else if off = 0x20 then some { rw := 0xFF, w1 := 0, w1c := 0, sl := 0, ro := 0xFF00, reset := 0 }
  else if off = 0x24 then some (roReg 0xFF1FFFFF)
  else none

/-- The registers of a slice unit. -/
def sliceRegSpec (off : Nat) : Option RegSpec :=
  if off = 0x200 then some { rw := 0, w1 := 0, w1c := 0, sl := 0xFFFF, ro := 0, reset := 0xFFFF }
  else if off = 0x210 then some (roReg 0x80007F77)
  else if off = 0x220 then some (w1Reg 0x8000000F)
  else if 0x400 ≤ off ∧ off < 0x400 + 11 * 0x20 then portRegSpec ((off - 0x400) / 0x20) (off % 0x20)
  else if 0x600 ≤ off ∧ off < 0x614 then queueRegSpec (off - 0x600)
  else if 0x800 ≤ off ∧ off < 0x810 then some { rw := 0, w1 := 0, w1c := 0, sl := 1, ro := 0, reset := 0 }
  else if 0x810 ≤ off ∧ off < 0x820 then some (roReg 0x8700FFFF)
  else if off = 0x820 then some (roReg 0xFFFFFFFF)
  else if 0xA00 ≤ off ∧ off < 0xA14 then weaveRegSpec (off - 0xA00)
  else if off = 0xB00 then some (roReg 0xFF7F3F00)
  else if off = 0xB04 then some (roReg 0x07FF03FF)
  else if 0xC00 ≤ off ∧ off < 0x1000 then chanRegSpec (off % 0x40)
  else if 0x1000 ≤ off ∧ off < 0x1028 then pwrRegSpec (off - 0x1000)
  else none

/-- The registers of a partition (13 R390). -/
def partRegSpec (off : Nat) : Option RegSpec :=
  if off = 0x00 then some (rwReg 0xFC3FE000 0)
  else if off = 0x04 then some (roReg 0xFFFEFFFF)
  else if off = 0x08 then some (rwReg 0xFFFF 0)
  else if off = 0x0C then some (roReg 0xFFFF)
  else if off = 0x10 then some (rwReg 0xFFFFF000 0)
  else if off = 0x14 then some (rwReg 0x000FFFFF 0)
  else if off = 0x18 then some (roReg 0xFFFFFFFF)
  else none

/-- The device-common registers (unit 0x80). -/
def commonRegSpec (off : Nat) : Option RegSpec :=
  if off = 0x10 then some (w1Reg 0x8000FFFF)
  else if off = 0x18 then some (w1Reg 0x07FF0001)
  else if off = 0x20 then some (w1Reg 0xFF000001)
  else if off = 0x24 then some (w1Reg 0x000FFFFF)
  else if off = 0x40 ∨ off = 0x44 then some (roReg 0xFFFFFFFF)
  else if off = 0x80 then some (rwReg 0x0003FFFF 0)
  else if off = 0x84 then some (rwReg 0xFFFFFFFF 0)
  else if off = 0x88 ∨ off = 0x8C then some (rwReg 0xFFFFFFFF 0)
  else if off = 0x90 then some (roReg 0x800000FF)
  else if off = 0xA0 then some (rwReg 0 0)
  else if off = 0xA4 then some (rwReg 0x27FFFFFF 0)
  else if off = 0xA8 then some (roReg 0xFF0003FF)
  else if 0xAC ≤ off ∧ off < 0xBC then some (roReg 0xFFFFFFFF)
  else if 0xBC ≤ off ∧ off < 0xCC then some (roReg 0x8007FFFF)
  else if off = 0x100 then some (w1Reg 0xFFFF0001)
  else if off = 0x104 then some (w1Reg 0x0000FFFF)
  else if off = 0x108 then some (rwReg 0xFFFF 0x64)
  else if off = 0x200 then some (rwReg 0x80FF0000 0x80100000)
  else if off = 0x204 then some (roReg 0x7F)
  else if off = 0x300 then some { rw := 0, w1 := 0x80000FFF, w1c := 0, sl := 0, ro := 0x60000000, reset := 0 }
  else if off = 0x304 then some (rwReg 1 0)
  else if off = 0x308 then some (roReg 0xFCFF0000)
  else if off = 0x310 then some (roReg 0xFF000000)
  else if off = 0x320 then some (rwReg 0xC0000000 0)
  else if off = 0x324 then some (roReg 0xC0FF0000)
  else if off = 0x328 then some (roReg 0xF807FFFF)
  else if off = 0x340 then some (rwReg 0xC00000FF 0xC0000028)
  else if off = 0x344 then some (roReg 0xC0FFFFFF)
  else if off = 0x348 then some (roReg 0xFFFF7FFF)
  else if off = 0x34C then some (roReg 0x1FF)
  else if 0x1000 ≤ off ∧ off < 0x1400 then partRegSpec (off % 0x20)
  else if 0x2000 ≤ off ∧ off < 0x2100 then some (roReg 0x8000FFFF)
  else if 0x4000 ≤ off ∧ off < 0x6000 then some (rwReg 0x801FFFFF 0)
  else none

/-- The mirror of the meter (17 R500). -/
def meterRegSpec (off : Nat) : Option RegSpec :=
  if off = 0 then some (roReg 0xF8000000)
  else if off = 4 then some (roReg 3)
  else if off = 8 then some (roReg 1)
  else if (0x10 ≤ off ∧ off < 0x20) ∨ (0x100 ≤ off ∧ off < 0x100 + 8 * 69) ∨ (0x400 ≤ off ∧ off < 0x618) then
    some (roReg 0xFFFFFFFF)
  else none

/-- The register at an offset of a unit (02 R32): none where no register is assigned. -/
def regSpecOf (unit off : Nat) : Option RegSpec :=
  if off % 4 ≠ 0 then none
  else if unit < 0x44 then sliceRegSpec off
  else if unit = 0x80 then commonRegSpec off
  else if unit = 0x81 then (if off < 0xE000 then some (roReg 0xFFFFFFFF) else none)
  else if unit = 0xC0 then meterRegSpec off
  else none

/-- The bits of a register that are not reserved. -/
def RegSpec.used (r : RegSpec) : Nat := r.rw ||| r.w1 ||| r.w1c ||| r.sl ||| r.ro

/-- Is the register all RO and reserved (R4)? -/
def RegSpec.allRo (r : RegSpec) : Bool := decide (r.rw ||| r.w1 ||| r.w1c ||| r.sl = 0)

end Sys2Proof.Machine
end

