-- ==== Sys2Proof/Machine/Meter.lean ====
section
/-! DEFINITION. Machine/Meter.lean: the Glomet usage meter (17 R484 to R500). -/
namespace Sys2Proof.Machine

/-- Change the meter. -/
def modMeter (f : MeterState → MeterState) (s : State) : State := { s with meter := f s.meter }

/-- Meter time in rc (R485, R489): the REFCLK count, moved on by what the internal oscillator counted in gaps. -/
def meterNow (s : State) : Nat := if s.meter.gap then s.meter.time else Nat.max s.meter.time (s.rc + s.meter.gapRc)

/-- Record an audit event (R494): its code, its parameter index or channel, its source (1: a port or REG_WRITE), and the value. -/
def audit (code ix : Nat) (src : Bool) (v : Nat) (s : State) : State :=
  let n (x : Nat) : Word := BitVec.ofNat 32 x
  let t := meterNow s
  let e : List Word := [n t, n (t / 2 ^ 32), n (code * 2 ^ 24 + ix * 65536 + b2n src * 32768), n v]
  modMeter (fun m =>
    { m with
      audit := (m.audit + 1) % 2 ^ 32
      logFirst := if m.logFirst.length < 448 then m.logFirst ++ [e] else m.logFirst
      logRing := if m.logFirst.length < 448 then m.logRing else (m.logRing ++ [e]).drop (m.logRing.length + 1 - 64) }) s

/-- The tamper counter (R493). -/
def tampered (s : State) : State := modMeter (fun m => { m with tamper := satAdd 32 m.tamper 1 }) s

/-! Counting (R487 to R491) -/

/-- The rule of R491 in force: NONE before SEAL. -/
def MeterState.rule (m : MeterState) : Nat := if m.sealed then m.cfg else 0

/-- The partition that a slice channel's energy goes to (R490); 32 is UNASSIGNED. -/
def channelPart (s : State) (c : Nat) : Nat :=
  match logicalOf s c with
  | some n => if n < 64 ∧ !slcFailed s n then (partOfSlice s n).getD 32 else 32
  | none => 32

/-- Add to a sparse accumulator. -/
def addAcc (m : NMap Nat) (k e : Nat) : NMap Nat := mput (fun _ => 0) m k (mget (fun _ => 0) m k + e)

/-- Add measured (or allocated) energy to a tenant's entry, or to OTHER where it found the table full (R490). -/
def addTenant (t e : Nat) (alloc : Bool) (m : MeterState) : MeterState :=
  if t = 0 then m
  else if m.tenants.any fun x => x.1 == t then
    { m with tenants := m.tenants.map fun x => if x.1 = t then (t, if alloc then x.2.1 else x.2.1 + e, if alloc then x.2.2 + e else x.2.2) else x }
  else if alloc then { m with otherA := m.otherA + e }
  else { m with otherM := m.otherM + e }

/-- The rating of a channel over 40 ns, in pJ (R487). -/
def channelRating (c : Nat) : Nat := if c = 68 then 1200000 else 216000

/-- One channel's sample. -/
def sampleChannel (s : State) (energies : List Nat) (m : MeterState) (c : Nat) : MeterState :=
  let e := energies.getD c 0
  let m1 := { m with chan := addAcc m.chan c e, ovr := m.ovr || decide (channelRating c < e) }
  if c = 68 then { m1 with ivS := m1.ivS + e }
  else
    let p := channelPart s c
    addTenant (if p < 32 then (partOf s p).active else 0) e false { m1 with part := addAcc m1.part p e, ivP := addAcc m1.ivP p e }

/-- METER_SAMPLE (R487, R490): every 4 rc each channel is sampled; `energies` are what the channels drew in pJ. -/
def execMeterSample (energies : List Nat) (s : State) : Res :=
  let t := meterNow s + 4
  let s1 := if s.meter.gap then modMeter (fun m => { m with time := t }) s else { s with rc := s.rc + 4 }
  if s.meter.halted then .next s1
  else .next (modMeter (fun m => (List.range 69).foldl (sampleChannel s energies) m) s1)

/-- What a partition (or 32, UNASSIGNED) receives of `e` pJ of shared energy (R491). -/
def allocShare (s : State) (rule e k : Nat) : Nat :=
  let total := (s.meter.ivP.map (·.2)).foldl (· + ·) 0
  let slices (p : Nat) : Nat := if (partOf s p).state = .absent then 0 else 2 ^ (partOf s p).slog
  if rule = 1 then e * mget (fun _ => 0) s.meter.ivP k / total
  else if rule = 2 then
    (if k < 32 then e * slices k / 68 else e * (68 - ((List.range 32).map slices).foldl (· + ·) 0) / 68)
  else 0

/-- METER_ALLOCATION (R491): every 1 ms the shared energy of the interval and the residue are allocated. -/
def execMeterAllocation (s : State) : Res :=
  let m := s.meter
  if m.halted then .next s
  else
    let rule := m.rule
    let e := m.ivS + m.residue
    let shares := (List.range 33).map fun k => (k, allocShare s rule e k)
    let given := (shares.map (·.2)).foldl (· + ·) 0
    let m1 := { m with
      ivP := [], ivS := 0
      residue := if rule = 0 then 0 else e - given
      unalloc := if rule = 0 then m.unalloc + e else m.unalloc }
    .next (modMeter (fun _ => shares.foldl (fun a (k, x) =>
      addTenant (if k < 32 then (partOf s k).active else 0) x true { a with alloc := addAcc a.alloc k x }) m1) s)

/-- METER_SELF_CHECK (R488): `deviating` lists the channels whose sense path deviates. -/
def execMeterSelfCheck (deviating : List Nat) (s : State) : Res :=
  if s.meter.halted then .next s
  else .next ((deviating.filter fun c => decide (c < 69)).foldl (fun t c =>
    audit 0x07 c false 0 (tampered (modMeter (fun m => { m with faults := if m.faults.contains c then m.faults else m.faults ++ [c] }) t))) s)

/-- METER_GAP_START (R489): REFCLK has been absent for 1 µs. -/
def execMeterGapStart (s : State) : Res :=
  if s.meter.gap then .next s
  else
    let t := meterNow s
    .next (audit 0x05 0 false 0 (modMeter (fun m => { m with gap := true, gapFrom := t, time := t }) s))

/-- GAP in µs (R489), the running span included. -/
def gapMicros (s : State) : Nat := s.meter.gapUs + (if s.meter.gap then (s.meter.time - s.meter.gapFrom) / 100 else 0)

/-- METER_GAP_END (R489): REFCLK is back. -/
def execMeterGapEnd (s : State) : Res :=
  if !s.meter.gap then .next s
  else
    let us := gapMicros s
    .next (audit 0x06 0 false 0 (modMeter (fun m => { m with gap := false, gapUs := us, gapRc := m.time - s.rc }) s))

/-! Parameters (R492, R493) -/

/-- A parameter write: its index, its value, whether the value is reserved, and what storing it does. -/
def paramWrite (ix v : Nat) (bad : Bool) (store : MeterState → MeterState) (s : State) : State :=
  if bad then audit 0x09 ix false v s
  else if s.meter.sealed ∨ s.meter.written.contains ix then audit 0x03 ix false v (tampered s)
  else audit 0x02 ix false v (modMeter (fun m => store { m with written := ix :: m.written }) s)

/-- A write of MTR_CFG (R492, R500). -/
def cfgParam (v : Nat) (s : State) : State := paramWrite 0x80 v (decide (3 ≤ v)) (fun m => { m with cfg := v }) s

/-- A write of MTR_LABEL (R492). -/
def labelParam (v : Nat) (s : State) : State := paramWrite 0x81 v false (fun m => { m with label := v }) s

/-- A write of MTR_SEAL (R492): SEAL = 1 fixes every parameter, and records the seal. -/
def sealParam (v : Nat) (s : State) : State :=
  let s1 := paramWrite 0x82 v (decide (2 ≤ v)) (fun m => { m with sealed := decide (v = 1) }) s
  if !s.meter.sealed ∧ s1.meter.sealed then audit 0x08 0x82 false v s1 else s1

/-- MTR_CFG. -/
def execMtrCfg (v : Word) (s : State) : Res := .next (cfgParam v.toNat s)

/-- MTR_LABEL. -/
def execMtrLabel (v : DWord) (s : State) : Res := .next (labelParam v.toNat s)

/-- MTR_SEAL. -/
def execMtrSeal (v : Word) (s : State) : Res := .next (sealParam v.toNat s)

/-- A private write whose byte 0 is the index of a parameter (R492): one of a wrong length is not stored, and recorded. -/
def paramBytes (ix : Nat) (v : List Byte) (s : State) : State :=
  if v.length ≠ (if ix = 0x81 then 8 else 4) then audit 0x09 ix false (leNat v) s
  else if ix = 0x80 then cfgParam (leNat v) s
  else if ix = 0x81 then labelParam (leNat v) s
  else sealParam (leNat v) s

/-- A write of register unit 0xC0 (R493): dropped, counted and recorded; each register that an 8 B write covers has its own error-log entry
(06 R205). -/
def mirrorWrite (v : Nat) (size8 : Bool) (by_ : RegBy) (addr : Nat) (s : State) : RegRes :=
  let e (a : Nat) : LogEntry := mkEntry s .writeIgnored 9 0 by_.unit by_.who by_.ctx a
  let s1 := logEvent (e addr) s
  let s2 := if size8 then logEvent (e (addr + 4)) s1 else s1
  (some .writeIgnored, audit 0x04 0 true (v % 2 ^ 32) (tampered s2))

/-! Records (R495 to R499) -/

/-- A 64-bit count in µJ of an accumulator in pJ. -/
def microJ (pj : Nat) : List Word := dwords (pj / 1000000)

/-- STATE as PART_STAT bits 31:29 (13 R390). -/
def PartState.code : PartState → Nat
  | .absent => 0
  | .opened => 1
  | .sealed => 2
  | .dissolving => 3
  | .suspending => 4
  | .activating => 4

/-- The body of a record. -/
def recordBody (s : State) (type page : Nat) : List Word :=
  let m := s.meter
  let acc (x : NMap Nat) (k : Nat) : List Word := microJ (mget (fun _ => 0) x k)
  if type = 0 then
    (List.range 12).map (fun i => wordAt Config.meterDigest i) ++ (List.range 24).map fun i => wordAt Config.meterKey i
  else if type = 1 then
    ((List.range 32).flatMap fun p => acc m.part p ++ acc m.alloc p ++ [BitVec.ofNat 32 ((partOf s p).state.code * 2 ^ 29 + (partOf s p).active)]) ++
      acc m.part 32 ++ acc m.alloc 32 ++ microJ m.unalloc
  else if type = 2 then
    ((List.range 69).flatMap fun c => acc m.chan c) ++
      (List.range 3).map fun i => BitVec.ofNat 32 (((List.range 32).map fun b => b2n (m.faults.contains (32 * i + b)) * 2 ^ b).foldl (· + ·) 0)
  else if type = 3 then
    ((List.range 32).flatMap fun i => match m.tenants[32 * page + i]? with
      | some (t, me, al) => BitVec.ofNat 32 (2 ^ 31 + b2n (m.overflow.contains t) * 2 ^ 30 + t) :: (microJ me ++ microJ al)
      | none => [0, 0, 0, 0, 0]) ++ microJ m.otherM ++ microJ m.otherA
  else
    let log := m.logFirst ++ m.logRing
    (List.range 64).flatMap fun i => log.getD (64 * page + i) [0, 0, 0, 0]

/-- A whole record: header, body and signature (R495, R496). -/
def recordWords (s : State) (type page nonce : Nat) : List Word :=
  let m := s.meter
  let n (x : Nat) : Word := BitVec.ofNat 32 x
  let head : List Word := [n (0x01000000 + type * 65536 + (recordLen type page).getD 0), n m.seq] ++ dwords m.session ++ dwords Config.meterId.toNat ++
    dwords (if m.sealed then m.label else 0) ++ dwords (meterNow s) ++ dwords (gapMicros s) ++
    [n m.tamper, n m.audit, n (b2n m.sealed * 2 ^ 31 + m.rule * 2 ^ 29 + b2n (!m.faults.isEmpty) * 2 ^ 28 + b2n m.ovr * 2 ^ 27 + page), 0] ++ dwords nonce
  let signed := head ++ recordBody s type page
  let sig := Config.meterSign (sha384 (bytesOfWords signed)) s.freeCtr
  signed ++ (List.range 24).map fun i => wordAt sig i

/-- METER_READ (R498): the request joins the meter's queue. -/
def execMeterRead (cmd : Nat) (s : State) : Res :=
  match admittedAs s cmd 0x520 with
  | some c =>
    let type := c.f 2 31 24; let page := c.f 2 23 16
    if s.meter.queue.any fun q => q.2.2.2 == some cmd then .next s
    else match recordLen type page with
      | none => .next (cmdRefuse cmd .decodeError 0 s)
      | some len =>
        if s.meter.halted then .next (cmdRefuse cmd (.specific 0x80) 0 s)
        else match destCheck s c (c.addr 6) 32 (4 * len) with
          | .fail e _ => .next (destRefuse c e (c.addr 6) s)
          | .spilled => .next (modCmd cmd (fun x => { x with delayed := true }) s)
          | .ok => .next (modMeter (fun m => { m with queue := m.queue ++ [(type, page, c.addr 4, some cmd)] }) s)
  | none => .next s

/-- METER_RECORD_REQUEST (R497): a private write to the meter's address; until its record is ready, and after a request of any
other form, reads are NACKed. One whose byte 0 is the index of a parameter is a write of it (R492). -/
def execMeterRecordRequest (bytes : List Byte) (s : State) : Res :=
  let b (i : Nat) : Nat := (bytes.getD i 0).toNat
  let s1 := modMeter (fun m => { m with record := [] }) s
  if 0x80 ≤ b 0 ∧ b 0 ≤ 0x82 then .next (paramBytes (b 0) (bytes.drop 1) s)
  else if bytes.length = 12 ∧ b 2 = 0 ∧ b 3 = 0 ∧ (recordLen (b 0) (b 1)).isSome ∧ !s.meter.halted then
    .next (modMeter (fun m => { m with queue := m.queue ++ [(b 0, b 1, leNat (bytes.drop 4), none)] }) s1)
  else .next s1

/-- METER_RECORD_READY (R495 to R499): the record of the oldest request is made at one REFCLK edge, signed, and served to its
requester. -/
def execMeterRecordReady (s : State) : Res :=
  match s.meter.queue with
  | [] => .next s
  | (type, page, nonce, who) :: rest =>
    let ws := recordWords s type page nonce
    let seq := s.meter.seq
    let made (t : State) : State := drawFree (modMeter (fun m => { m with queue := rest, seq := (seq + 1) % 2 ^ 32 }) t)
    match who with
    | none =>
      if rest.any fun q => q.2.2.2.isNone then .next (made s)
      else .next (emit (.i3c (bytesOfWords ws)) (modMeter (fun m => { m with record := ws }) (made s)))
    | some id =>
      match admittedAs s id 0x520 with
      | none => .next (made s)
      | some c =>
        let dst := c.addr 6
        let (awake, s1) := touchAll (cmdAddrSlices s c.ctx dst (4 * ws.length)) 7 c.queue s
        if !awake then .next s1
        else .next (writeDest c dst 32 (bytesOfWords ws) .ok (4 * ws.length) seq (fun t => t) (made s1))

/-! The mirror (R500) -/

/-- The value of the mirror register at offset `off`. -/
def mirrorWord (s : State) (off : Nat) : Nat :=
  let m := s.meter
  let half (x : Nat) : Nat := x / 2 ^ (8 * (off % 8)) % 2 ^ 32
  let micro (x : NMap Nat) (k : Nat) : Nat := half (mget (fun _ => 0) x k / 1000000)
  if off = 0 then b2n m.halted * 2 ^ 31 + b2n m.sealed * 2 ^ 30 + b2n m.gap * 2 ^ 29 + b2n (!m.faults.isEmpty) * 2 ^ 28 + b2n m.ovr * 2 ^ 27
  else if off = 4 then m.cfg
  else if off = 8 then b2n m.sealed
  else if off = 0x10 ∨ off = 0x14 then half m.label
  else if off = 0x18 then m.tamper
  else if off = 0x1C then m.audit
  else if off < 0x400 then micro m.chan ((off - 0x100) / 8)
  else if off < 0x600 then micro (if off % 16 < 8 then m.part else m.alloc) ((off - 0x400) / 16)
  else if off < 0x608 then micro m.part 32
  else if off < 0x610 then micro m.alloc 32
  else half (m.unalloc / 1000000)

end Sys2Proof.Machine
end

