-- ==== Sys2Proof/Machine/Fail.lean ====
section
/-! DEFINITION. Machine/Fail.lean: slice failure, regulator phases, and slices cut from outside (12 R384; 13 R411;
14 R435, R436; 15 R445). -/
namespace Sys2Proof.Machine

/-- The write-back entries that a failed or wiped slice loses: those its ports hold, and those whose bytes lie on it. -/
def lostEntries (s : State) (n : Nat) : List WbEntry :=
  s.wb.filter fun e => e.home == n || (placeOf (entryKey s e 0)).slice == n

/-- One entry is lost with its slice (04 R99, R103; 12 R384): its beats go, its landed bytes leave the window, and it ends with this status,
none of its bytes written that had not been. -/
def dropEntry (st : Status) (s : State) (id : Nat) : State :=
  match wbOf s id with
  | some e =>
    let s1 := { s with beats := s.beats.filter fun b => !(b.op == id && b.kind != .read) }
    let s2 := if e.issued ∧ e.left = 0 then s1 else entryServed e s1
    let s3 := match e.cred with
      | some (h, n) => landBytes h e.home n false s2
      | none => s2
    commitEntry { e with status := e.status.join st, lost := e.be.map (·.1) } s3
  | none => s

/-- Write-back entries are lost: posted writes are reported late, flushes and non-posted writes go on with this status. -/
def dropEntries (es : List WbEntry) (st : Status) (s : State) : State := (es.map WbEntry.id).foldl (dropEntry st) s

/-- End the outstanding requests the test names with this status, without data (04 R90). -/
def endOps (p : PortOp → Bool) (st : Status) (s : State) : State :=
  let os := s.ops.filter p
  let ids := os.map PortOp.id
  let s1 := { s with beats := s.beats.filter fun b => !(ids.contains b.op && b.kind == .read) }
  os.foldl (fun t o => respond o st 0 [] [] t) s1

/-- Fault every context of a partition (R436 step 2): its outstanding requests complete UNIT_FAILED (04 R90), its grants are
revoked and its deferred requests answered by a surviving keeper (12 R384, R385). -/
def faultPart (st : Status) (p : Nat) (s : State) : State :=
  let cs := (partCtxs s p).map (·.1)
  let s1 := endOps (fun o => cs.contains o.ctx) .unitFailed s
  let s2 := cs.foldl (fun t c => faultCtx st st c t) s1
  let s3 := endGrants (fun g => g.part == p) true s2
  let f := (partOf s p).first
  if slcFailed s f ∧ slcFailed s (f + 1) then { s3 with fab := { s3.fab with deferred := s3.fab.deferred.filter fun d => d.part != p } }
  else endDeferred (fun d => d.part == p) .unitFailed s3

/-- Lose the counters and locks homed on a slice (R436 step 3). -/
def loseObjects (n : Nat) (s : State) : State :=
  { s with sync := { s.sync with
      counters := mclear (fun k => counterHome k = n) s.sync.counters
      locks := mclear (fun k => lockHome k = n) s.sync.locks } }

/-- The causes of R435, as SLICE_FAIL names them: 0 crossbar, 1 range scoreboard, 2 command unit, 3 sync unit, 4 queue cache,
5 weave-table copy, 6 regulator, 7 mesh attach, 8 system-region SRAM. SRC of the record. -/
def failSrc (cause : Nat) : Nat := if 2 ≤ cause ∧ cause ≤ 4 ∨ cause = 8 then 2 else if cause = 7 then 0x0A else 3

/-- Can the slice's queues no longer write replies (R436 step 3)? -/
def failStopsCu (cause : Nat) : Bool := decide (cause = 2 ∨ cause = 3 ∨ cause = 8)

/-- A slice fails (R435, R436): isolation, the record, the faults of its partition's contexts. A second failure of a logical
slice is that of the spare that serves it. -/
def failSlice (n cause : Nat) (s : State) : State :=
  let r := sliceOf s n
  if slcFailed s n then s
  else
    let s0 := match r.spare with
      | some k => modSlice (64 + k) (fun x => { x with failed := true }) s
      | none => s
    let s1 := modSlice n (fun x => { x with failed := true, spare := none, failedCu := failStopsCu cause }) s0
    let s2 := integAdd 30 1 (report .unitFailed (failSrc cause) n 0 .nobody 0 0 s1)
    let s3 := if (List.range 4).any (spareFree s2) then s2 else raiseSvc 5 s2
    let s4 := endOps (fun o => o.slice == n) .unitFailed s3
    let s5 := dropEntries (lostEntries s4 n) .unitFailed s4
    let s6 := { s5 with movers := { s5.movers with stage := mclear (fun k => k / 2 = n) s5.movers.stage } }
    let s7 := match partOfSlice s n with
      | some p => faultPart .unitFailed p s6
      | none => s6
    if failStopsCu cause then loseObjects n { s7 with cmds := s7.cmds.filter fun c => qHome c.queue != n } else s7

/-- SLICE_FAIL (14 R435, R436). -/
def execSliceFail (n cause : Nat) (s : State) : Res := .next (failSlice n cause s)

/-- HEARTBEAT_TIMEOUT (14 R435): the command unit's heartbeat has been absent for 64 rc. -/
def execHeartbeatTimeout (n : Nat) (s : State) : Res := .next (failSlice n 2 { s with rc := s.rc + 64 })

/-- IVR_PHASE_FAULT (15 R445): the spare phase of the slice's group takes the place of the faulted one; once it is in use, a
fault fails the slice. -/
def execIvrPhaseFault (n : Nat) (s : State) : Res :=
  if (sliceOf s n).ivrUsed then .next (failSlice n 6 s)
  else .next (raiseSvc 6 (modSlice n (fun r => { r with ivrUsed := true }) s))

/-- SLICE_CUT (13 R411): the slice has lost its clock or a supply outside a power-state sequence. -/
def execSliceCut (n : Nat) (s : State) : Res :=
  if (sliceOf s n).cutOff then .next s
  else
    let s1 := modSlice n (fun r => { r with cutOff := true }) s
    match partOfSlice s n with
    | some p =>
      let r := partOf s1 p
      .next (faultPart (if r.secure then .tainted else .unitFailed) p (setPart p { r with taint := true } s1))
    | none => .next s1

/-- Clear a slice's stores, its system region, and the state of its ports, movers, sync unit and queue cache, with its
weave (R411; 15 R461; 14 R421). -/
def wipeSlice (n : Nat) (s : State) : State :=
  let gone := (s.queues.filter fun e => decide (qHome e.1 = n)).map (·.1)
  let s1 := dropEntries (lostEntries s n) .unitFailed (endOps (fun o => o.slice == n) .unitFailed s)
  let s2 := loseObjects n (gone.foldl (fun t q => setDb q false (setEnabled q false (dropQueue q t))) s1)
  let s3 := zeroUnits n (modSlice n (fun r => { r with weave := resetWeave, pendWeave := [], pendSleeve := [] }) s2)
  { s3 with
    mem := clearKeys (fun x => decide (x / 524288 / 1024 = n)) { s3.mem with sys := mclear (fun x => decide (x / 131072 = n)) s3.mem.sys }
    ports := mclear (fun x => decide (x / 16 = n)) s3.ports
    movers := { chans := mclear (fun x => decide (x / 16 = n)) s3.movers.chans, stage := mclear (fun k => decide (k / 2 = n)) s3.movers.stage, turns := mclear (fun k => decide (k / 2 = n)) s3.movers.turns } }

/-- SLICE_SUPPLY_RETURN (13 R411): the clock and supplies are back; the slice is cleared before anything reaches it, and TAINT
falls once no context is left. -/
def execSliceSupplyReturn (n : Nat) (s : State) : Res :=
  if (sliceOf s n).cutOff then
    let s1 := wipeSlice n (modSlice n (fun r => { r with cutOff := false }) s)
    match partOfSlice s1 n with
    | some p => .next (refreshTaint p s1)
    | none => .next s1
  else .next s

end Sys2Proof.Machine
end

