-- ==== Sys2Proof/Machine/PwrStates.lean ====
section
/-! DEFINITION. Machine/PwrStates.lean: slice power states, their requests, timers and checks, and the device's deepest
state (15 R452 to R465). -/
namespace Sys2Proof.Machine

/-- The register number of a power register (R454). -/
def pwrReg (n off : Nat) : Nat := regNo n (0x1000 + off)

/-- Is a slice busy (R453)? -/
def slcBusy (s : State) (n : Nat) : Bool :=
  (s.ops.any fun o => o.slice == n) || !(lostEntries s n).isEmpty ||
  (s.cmds.any fun c => (c.phase == .admitted || c.phase == .done || (c.phase == .waiting && c.opcode != 0x301 && c.opcode != 0x302)) &&
    (qHome c.queue == n || (match ctxOf s c.ctx with
      | some x => (cmdRanges c).any fun r => (Rng.slices s x r).contains n
      | none => false))) ||
  (s.qfetch.any fun e => qHome e.1 == n) ||
  (s.movers.chans.any fun e => decide (e.1 / 16 = n) && e.2.state == .running) ||
  (s.clears.any fun j => j.todo.any fun b => decide (b.1 / 1024 = n))

/-- Does a mover channel of a slice stop: its drains are in progress (R457)? -/
def slcStops (s : State) (n : Nat) : Bool := s.movers.chans.any fun e => decide (e.1 / 16 = n) && e.2.state == .stopping

/-- A bank cycle in which a slice is busy: its timers start from it, with the values that IDLE_TMR holds then (R453, R454). -/
def restTimers (s : State) : State :=
  (List.range 68).foldl (fun t n => if slcBusy t n then modPwr n (fun p => { p with idleFrom := s.rc, retFrom := s.rc, tmr := idleTmr s n }) t else t) s

/-- The bank groups of R247 that a pocket's bank set lies in. -/
def pocketGroups (st : Store) (p : Pocket) : List Nat :=
  match st with
  | .w => [p.set]
  | .a => (setSleeves p.set).map (4 + ·)
  | .p => [8]

/-- The lowest context with a RESIDENT or CLEARING pocket in a bank group that RETAIN does not keep (R456 check 4). -/
def retainVictim (s : State) (n : Nat) : Option Nat :=
  let sel := retCfg s n
  ((ctxList s).find? fun e => e.2.pockets.any fun (i, p) => match storeOf (i / 16) with
    | some st => p.valid && decide (p.state ≠ .spilled) && decide (0 < p.bound) && pocketHasSlice (ctxSpan s e.2) p n &&
        (pocketGroups st p).any fun g => !bitOf sel g
    | none => false).map (·.1)

/-- Record a refusal (R458). -/
def pwrRefuse (n : Nat) (st : Status) (kind id : Nat) (request : Bool) (s : State) : State :=
  modPwr n (fun p =>
    { p with refuse := (p.refuse + 1) % 2 ^ 32, lastid := lastIdOf kind false id, reqBusy := false
             result := if request then st.code else p.result
             idleFrom := if request then p.idleFrom else s.rc, retFrom := if request then p.retFrom else s.rc }) s

/-- A normal-world request refused on a SECURE partition (13 R410): counted, and logged with CODE 0x26. -/
def secureRefusal (p : Nat) (by_ : RegBy) (addr : Nat) (s : State) : State :=
  let r := partOf s p
  report .secureRefused by_.src by_.slice by_.unit by_.who by_.ctx addr (setPart p { r with refuse := (r.refuse + 1) % 2 ^ 32 } s)

/-- The SECURE partition that a slice belongs to, if any. -/
def securePart (s : State) (n : Nat) : Option Nat :=
  match partOfSlice s n with
  | some p => if (partOf s p).secure then some p else none
  | none => none

/-- Checks 2 to 5 of R456 on an entry: the refusal's status, KIND and ID. -/
def entryCheck (s : State) (n : Nat) (target : PwrSt) : Option (Status × Nat × Nat) :=
  if slcFailed s n then some (.unitFailed, 5, 0)
  else match s.contracts.find? fun c => (oSpan c.owner).has n with
    | some c => some (.rejectedContract, 2, c.target)
    | none =>
      match (if target = .retain then retainVictim s n else none) with
      | some c => some (.boundViolation, 3, c)
      | none =>
        match (if target = .off then partOfSlice s n else none) with
        | some p => some (.boundViolation, 4, p)
        | none => none

/-- The bank groups that an entry into a state loses (R455). -/
def lostGroups (s : State) (n : Nat) (target : PwrSt) : List Nat :=
  if target = .retain then (List.range 9).filter fun g => !bitOf (retCfg s n) g else []

/-- Begin Prepare (R457): every write-back and staging entry of the slice is issued for drain. What RETAIN loses is settled here; a later
write of RET_CFG applies to the next entry (R455). -/
def startPrepare (n : Nat) (target : PwrSt) (s : State) : State :=
  let s1 := issueAll .waits ((s.wb.filter fun e => e.home == n).map WbEntry.id)
    (modPwr n (fun p => { p with mode := .prepare target, lost := lostGroups s n target }) s)
  (List.range 2).foldl (fun t m => drainList (n * 2 + m) (stageOf t n m) t) s1

/-- The state that a PWR_CTL OP names (R459). -/
def pwrTarget (op : Nat) : Option PwrSt :=
  if op = 1 then some .run else if op = 2 then some .idle else if op = 3 then some .retain else if op = 4 then some .off else none

/-- Does the present state lead to the target without a wake (R459)? RUN leads everywhere, IDLE to RETAIN and OFF. -/
def pwrLeads (from_ target : PwrSt) : Bool :=
  match from_ with
  | .run => true
  | .idle => target == .retain || target == .off
  | _ => false

/-- RESULT of a request that has been carried out. -/
def pwrOk (delayed : Bool) : Nat := if delayed then Status.okDelayed.code else 0

/-- Carry out a request on a slice whose state is steady (R456, R459). -/
def pwrTake (n op : Nat) (delayed : Bool) (by_ : RegBy) (s : State) : State :=
  match pwrTarget op with
  | none => modPwr n (fun p => { p with result := Status.reservedNonzero.code }) s
  | some t =>
    match (if by_.secure then none else securePart s n) with
    | some p => pwrRefuse n .secureRefused 1 p true (secureRefusal p by_ (pwrReg n 0 * 4) s)
    | none =>
      let st := (pwrOf s n).st
      if t = st then
        modPwr n (fun p =>
          { p with result := pwrOk delayed, reqBusy := false
                   idleFrom := if t = .run then s.rc else p.idleFrom, retFrom := if t = .run then s.rc else p.retFrom }) s
      else if t = .run then modPwr n (fun p => { p with mode := .waking, reqBusy := true, delayed := delayed, goal := none }) s
      else match entryCheck s n t with
        | some (e, k, i) => pwrRefuse n e k i true s
        | none =>
          if pwrLeads st t then startPrepare n t (modPwr n (fun p => { p with reqBusy := true, delayed := delayed }) s)
          else modPwr n (fun p => { p with mode := .waking, reqBusy := true, delayed := delayed, goal := some t }) s

/-- A write of PWR_CTL (R459): it completes OK once its request has started; the outcome appears in RESULT. One that waits for a wake to
end completes then (R460). -/
def pwrCtlWrite (n v : Nat) (by_ : RegBy) (s : State) : RegRes :=
  let s0 := regPut 0 (pwrReg n 0) v s
  let op := bitsOf v 31 29
  if (pwrTarget op).isNone then (some .ok, pwrTake n op false by_ s0)
  else match (pwrOf s0 n).mode with
    | .steady => (some .ok, pwrTake n op false by_ s0)
    | .prepare _ => (some .ok, pwrTake n op false by_ (modPwr n (fun p =>
        { p with mode := .steady, abort := (p.abort + 1) % 2 ^ 32, lastid := lastIdOf 0xB true 0, reqBusy := false }) s0))
    | .entering _ =>
      if bitOf v 28 then (some .ok, modPwr n (fun p => { p with result := Status.pendingShutdown.code }) s0)
      else (some .ok, modPwr n (fun p => { p with waiting := p.waiting ++ [(op, true, by_)] }) s0)
    | .waking => (none, modPwr n (fun p => { p with waiting := p.waiting ++ [(op, false, by_)] }) s0)

/-- Carry out the requests that waited, while the slice's state is steady. -/
def pwrMore : Nat → Nat → State → State
  | 0, _, s => s
  | k + 1, n, s =>
    let p := pwrOf s n
    match p.mode, p.waiting with
    | .steady, (op, delayed, by_) :: rest => 
      let s1 := pwrTake n op delayed by_ (modPwr n (fun x => { x with waiting := rest }) s)
      pwrMore k n (if delayed then s1 else finish by_.origin .ok s1)
    | _, _ => s

/-- A timer entry (R453, R456): a slice of a bound contract does not time out. -/
def timerEntry (n : Nat) (target : PwrSt) (due : Nat) (s : State) : State :=
  let s1 := { s with rc := Nat.max s.rc due }
  match entryCheck s1 n target with
  | some (.rejectedContract, _, _) => s
  | some (e, k, i) => pwrRefuse n e k i false s1
  | none => startPrepare n target s1

/-- May the timers of a slice run out: DEV_RUN, not cut off, not busy, in a steady state? -/
def timersRun (s : State) (n : Nat) : Bool :=
  portsOpen s && !(sliceOf s n).cutOff && !slcBusy s n && (pwrOf s n).mode == .steady

/-- IDLE_TIMER_EXPIRY (R453). -/
def execIdleTimerExpiry (n : Nat) (s : State) : Res :=
  let p := pwrOf s n; let t := p.tmr / 65536
  if timersRun s n ∧ p.st = .run ∧ t ≠ 0 then .next (timerEntry n .idle (p.idleFrom + t * 100) s) else .next s

/-- RETENTION_TIMER_EXPIRY (R453). -/
def execRetentionTimerExpiry (n : Nat) (s : State) : Res :=
  let p := pwrOf s n; let t := p.tmr % 65536
  if timersRun s n ∧ (p.st = .run ∨ p.st = .idle) ∧ t ≠ 0 then .next (timerEntry n .retain (p.retFrom + t * 10000) s) else .next s

/-- PREPARE_DONE (R457): the drains have committed and nothing has begun; the entry passes its commit point. -/
def execPrepareDone (n : Nat) (s : State) : Res :=
  match (pwrOf s n).mode with
  | .prepare t =>
    if slcBusy s n ∨ slcStops s n then .next s
    else .next (modPwr n (fun p => { p with mode := .entering t, wakePend := false }) s)
  | _ => .next s

/-- The registers of a slice that lie outside the control domain return to their reset values. -/
def resetSliceRegs (n : Nat) (s : State) : State :=
  let lo := regNo n 0; let hi := regNo n 0x1000; let top := regNo (n + 1) 0
  let gone (k : Nat) : Bool := decide (lo ≤ k ∧ k < top) && !decide (hi ≤ k ∧ k < regNo n 0x1028)
  { s with regs := mclear gone s.regs, w1done := mclear gone s.w1done }

/-- ENTRY_COMPLETE (R457, R459): the state is entered; OFF has cleared the slice. An event that came after the commit point
wakes it; a request that waited is carried out. -/
def execEntryComplete (n : Nat) (s : State) : Res :=
  match (pwrOf s n).mode with
  | .entering t =>
    let s1 := if t = .off then resetSliceRegs n (wipeSlice n s) else s
    let f (p : SlcPwr) : SlcPwr :=
      { p with st := t, mode := if p.wakePend then .waking else .steady, wakePend := false
               result := if p.reqBusy then pwrOk p.delayed else p.result, reqBusy := false }
    .next (pwrMore 64 n (modPwr n f s1))
  | _ => .next s

/-- The content of bank groups is lost: it reads as zero on wake (R455). -/
def loseGroups (n : Nat) (gs : List Nat) (s : State) : State :=
  if gs.isEmpty then s
  else { s with mem := clearKeys (fun k => decide (k / 524288 / 1024 = n) && gs.contains (groupOf (placeOf k))) s.mem }

/-- WAKE_DONE (R459 to R461): the slice is back in RUN; a slice that was OFF comes up cleared, and lost bank groups are
written with zeros. A request whose target needed the wake goes on, and those that waited are carried out. -/
def execWakeDone (n : Nat) (s : State) : Res :=
  let p := pwrOf s n
  if p.mode ≠ .waking ∨ !s.bcRun then .next s
  else
    let s1 := if p.st = .off then wipeSlice n s else if p.st = .retain then loseGroups n p.lost s else s
    let up := modPwr n (fun x => { x with st := .run, mode := .steady, goal := none, lost := [], idleFrom := s.rc, retFrom := s.rc }) s1
    let s2 := match p.goal with
      | some t => startPrepare n t up
      | none => if p.reqBusy then modPwr n (fun x => { x with reqBusy := false, result := pwrOk x.delayed }) up else up
    .next (pwrMore 64 n s2)

/-- Is SLC_PWR_OK of a slice low (R462)? -/
def pwrOkLow (s : State) (n : Nat) : Bool :=
  let p := pwrOf s n
  p.st == .off || (match p.mode with
    | .entering t => t == .off
    | _ => false)

/-- MA_PEND (18 R508): the mesh stop holds a flit for a slice whose SLC_PWR_OK is low: a wake event (R457). -/
def execMaPend (n : Nat) (s : State) : Res := if pwrOkLow s n then .next (touch n 8 0 s).2 else .next s

/-! DEV_DEEP (R463 to R465) -/

/-- The lowest slice that is in neither RETAIN nor OFF: a logical slice, or an unmapped spare by its physical number. -/
def deepBlocker (s : State) : Option Nat :=
  (List.range 68).find? fun n =>
    (n < 64 || !(List.range 64).any fun k => (sliceOf s k).spare == some (n - 64)) &&
      (let p := pwrOf s n
       !((p.st == .retain || p.st == .off) && p.mode == .steady))

/-- Change the control domain. -/
def modCtl (f : CtlState → CtlState) (s : State) : State := { s with ctl := f s.ctl }

/-- A DEV_PWR request (R463): refused by name, or the block holds BCNT and stops its clocks. -/
def deepTake (v : Nat) (by_ : RegBy) (s : State) : State :=
  if bitsOf v 31 30 ≠ 1 then modCtl (fun c => { c with devResult := Status.reservedNonzero.code }) s
  else match deepBlocker s with
    | some n => modCtl (fun c => { c with devResult := Status.boundViolation.code, devLast := lastIdOf 0xC false n }) s
    | none =>
      match (if by_.secure then none else (List.range 32).find? fun p => (partOf s p).state != .absent && (partOf s p).secure) with
      | some p => modCtl (fun c => { c with devResult := Status.secureRefused.code, devLast := lastIdOf 1 false p })
          (secureRefusal p by_ (regNo 0x80 0x320 * 4) s)
      | none => { (modCtl (fun c => { c with devResult := 0, deep := 2, deepWake := false }) s) with bcRun := false }

/-- A write of DEV_PWR (R463). -/
def devPwrWrite (v : Nat) (by_ : RegBy) (s : State) : RegRes := (some .ok, deepTake v by_ (regPut 0 (regNo 0x80 0x320) v s))

/-- WAKE_N (R463): the PLL locks again. -/
def execWakeN (s : State) : Res := if s.ctl.deep = 2 then .next (modCtl (fun c => { c with deepWake := true }) s) else .next s

/-- An I3C header that matches the management address in DEV_DEEP (R465): NACKed, and WAKE_REQ rises. -/
def i3cWake (s : State) : State := if s.ctl.deep = 2 then modCtl (fun c => { c with deepWake := true, wakeReq := true }) s else s

/-- I3C_WAKE (R465). -/
def execI3cWake (s : State) : Res := .next (i3cWake s)

/-- DEEP_EXIT_DONE (R463, R465): the PLL has locked; BCNT resumes from its held value, and WAKE_REQ falls. -/
def execDeepExitDone (s : State) : Res :=
  if s.ctl.deep = 2 ∧ s.ctl.deepWake ∧ !s.ctl.vhvLow then
    .next { (modCtl (fun c => { c with deep := 0, deepWake := false, wakeReq := false }) s) with bcRun := true }
  else .next s

end Sys2Proof.Machine
end

