-- ==== Sys2Proof/Machine/Parts.lean ====
section
/-! DEFINITION. Machine/Parts.lean: partitions, time-slicing, key slots, measurements and TDISP reports (13 R390 to R407). -/
namespace Sys2Proof.Machine

/-- The register number of a partition's register (R390). -/
def partReg (p off : Nat) : Nat := regNo 0x80 (0x1000 + p * 0x20 + off)

/-- Change a partition's record. -/
def modPart (p : Nat) (f : PartRec → PartRec) (s : State) : State := setPart p (f (partOf s p)) s

/-- An operation ends with this RESULT. -/
def partEnd (p result : Nat) (s : State) : State := modPart p (fun r => { r with result := result, busy := false, delayed := false }) s

/-- RESULT OK, or OK_DELAYED where the operation waited (R392, R400). -/
def okResult (delayed : Bool) : Nat := if delayed then Status.okDelayed.code else 0

/-- Does a span meet a partition that is in one of these states? -/
def meetsPart (s : State) (sp : Span) (f : PartState → Bool) : Bool :=
  (List.range 32).any fun q => f (partOf s q).state && (partOf s q).span.slices.any sp.has

/-! CONFIGURE, SEAL, DISSOLVE (R392, R393) -/

/-- FIRST and SLOG of a CONFIGURE. -/
def confSpan (v : Nat) : Span := { first := bitsOf v 21 16, slog := bitsOf v 15 13 }

/-- Is the span of a CONFIGURE allowed: 2^1 to 2^6 slices, aligned, within the 64? -/
def confSpanOk (v : Nat) : Bool :=
  let sp := confSpan v
  decide (1 ≤ sp.slog ∧ sp.slog ≤ 6) && decide (sp.first % 2 ^ sp.slog = 0) && decide (sp.first + 2 ^ sp.slog ≤ 64)

/-- The first failing precondition of a CONFIGURE, in the order of R392. -/
def confCheck (s : State) (p v : Nat) : Option Nat :=
  let sp := confSpan v
  if (partOf s p).state ≠ .absent then some 0x80
  else if !confSpanOk v then some Status.decodeError.code
  else if meetsPart s sp (fun st => st != .absent && st != .dissolving) then some Status.boundViolation.code
  else if sp.slices.any (slcFailed s) then some 0x81
  else none

/-- CONFIGURE: the partition is OPEN, or the operation waits for a DISSOLVE. -/
def configure (p v : Nat) (by_ : RegBy) (delayed : Bool) (s : State) : State :=
  let sp := confSpan v
  let waits := confSpanOk v && meetsPart s sp (· == .dissolving) && ((partOf s p).state == .absent || (partOf s p).state == .dissolving)
  if waits then
    if bitOf v 27 then modPart p (fun r => { r with result := Status.pendingShutdown.code }) s
    else modPart p (fun r => { r with waitOp := some (v, by_) }) s
  else match confCheck s p v with
    | some e => modPart p (fun r => { r with result := e }) s
    | none => modPart p (fun r =>
        { PartRec.zero with
          state := .opened, first := sp.first, slog := sp.slog, secure := bitOf v 26, result := okResult delayed, refuse := r.refuse
          queued := r.queued, baseM := mget (fun _ => 0) s.meter.part p, baseA := mget (fun _ => 0) s.meter.alloc p }) s

/-- SEAL: the SL fields of every slice of the partition are locked. -/
def sealPart (p : Nat) (s : State) : State :=
  if (partOf s p).state = .opened then refreshAll (modPart p (fun r => { r with state := .sealed, result := 0 }) s)
  else modPart p (fun r => { r with result := 0x80 }) s

/-- Every line of every active bank of a slice. -/
def sliceLines (n : Nat) : List (Nat × Nat × Nat) :=
  ((List.range 4).flatMap fun t => (List.range 16).map fun b => (bankKey n .w t b, 0, Store.w.lines)) ++
  ((List.range 32).map fun b => (bankKey n .a 0 b, 0, Store.a.lines)) ++ ((List.range 16).map fun b => (bankKey n .p 0 b, 0, Store.p.lines))

/-- DISSOLVE begins: the clear of every line of every store of its slices. -/
def dissolve (p : Nat) (s : State) : State :=
  let r := partOf s p
  if !(r.state == .opened || r.state == .sealed) ∨ !(partCtxs s p).isEmpty then modPart p (fun x => { x with result := 0x80 }) s
  else (startClear p (r.span.slices.flatMap sliceLines) (modPart p (fun x => { x with state := .dissolving, busy := true }) s)).2

/-- The slices of a dissolved partition (R393): system-region objects, weave, SL fields, PORT_CTX, PORT_ORD.CORE and mover
channel registers return to their reset values. -/
def dissolveSlice (s : State) (n : Nat) : State :=
  let put (d r v : Nat) (t : State) : State := regPut d r v t
  let s1 := modSlice n (fun r => { r with weave := resetWeave, pendWeave := [], pendSleeve := [] }) (loseObjects n s)
  let s2 := { s1 with mem := { s1.mem with sys := mclear (fun x => decide (x / 131072 = n ∧ x % 131072 < 0x1FE00)) s1.mem.sys } }
  let s3 := (List.range 4).foldl (fun t i => let r := regNo n (0x800 + 4 * i); put 0 r (regGet t 0 r / 2 * 2) t) (put 0xFFFF (regNo n 0x200) 0xFFFF s2)
  let s4 := (List.range 11).foldl (fun t q =>
    let cfg := portReg n q 4; let ord := portReg n q 0x14
    put 0 ord (regGet t 0 ord / 2 * 2) (put 0 (portReg n q 8) 0
      (put 0x44F00 cfg (bitsOf (regGet t 0x44F00 cfg) 31 12 * 4096 + 0xF00 + regGet t 0x44F00 cfg % 256) t))) s3
  let lo := regNo n 0xC00; let hi := regNo n 0x1000
  { s4 with
    regs := mclear (fun k => decide (lo ≤ k ∧ k < hi)) s4.regs
    movers := { s4.movers with chans := mclear (fun k => decide (k / 16 = n)) s4.movers.chans } }

/-! SUSPEND and ACTIVATE (R396 to R401) -/

/-- The active contexts of a partition's active tenant. -/
def tenantCtxs (s : State) (p : Nat) : List (Nat × Ctx) := (partCtxs s p).filter fun e => e.2.tenant == (partOf s p).active

/-- Commands of contexts that hold NMU or GPX state: a GEMV or a GATHER_POOL that is admitted and not complete. -/
def unitCmds (s : State) (cs : List Nat) : List Cmd :=
  s.cmds.filter fun c => cs.contains c.ctx && (c.phase == .admitted || c.phase == .waiting) && (c.opcode == 0x200 || c.opcode == 0x201)

/-- The address of the switch image (PART_SAVE). -/
def partSave (s : State) (p : Nat) : Nat := regGet s 0 (partReg p 0x10) + 2 ^ 32 * regGet s 0 (partReg p 0x14)

/-- Steps 1 and 2 of R397. -/
def suspendBegin (p : Nat) (s : State) : State :=
  let cs := tenantCtxs s p; let ids := cs.map (·.1)
  if (partOf s p).active = 0 then modPart p (fun r => { r with result := 0 }) s
  else if ids.any (ctxContract s) then modPart p (fun r => { r with result := Status.rejectedContract.code }) s
  else if cs.any fun e => (!e.2.keyEn || (ctxKey s e.2).isNone) && !(unitCmds s [e.1]).isEmpty then
    modPart p (fun r => { r with result := Status.decodeError.code }) s
  else
    let s1 := refreshAll (modPart p (fun r => { r with state := .suspending, busy := true, stopping := ids }) s)
    let pause (w : Waiter) : Waiter := if ids.contains w.ctx ∧ w.paused.isNone then { w with paused := some s1.rc } else w
    let hold (r : FabReq) : FabReq := if ids.contains r.ctx ∧ r.paused.isNone then { r with paused := some s1.rc } else r
    let s2 := { s1 with sync := { s1.sync with waiters := s1.sync.waiters.map pause }, fab := { s1.fab with reqs := s1.fab.reqs.map hold } }
    let s3 := ids.foldl (fun t c => drainCtxPorts c (partOf s p).span t) s2
    ((spanChans (partOf s p).span).filter fun k => ids.any fun c => chanServes s k.1 k.2.1 k.2.2 c).foldl (fun t k =>
      beginStop k.1 k.2.1 k.2.2 (bitOf (chanCtl t k.1 k.2.1 k.2.2) 27) .none t) s3

/-- Have the drains of step 2 ended, with the tenant's requests at other devices? -/
def suspendQuiet (s : State) (p : Nat) : Bool :=
  let r := partOf s p; let ids := r.stopping
  (ids.all fun c => (portsOfCtx s r.span c).all fun (n, q) => (portOf s n q).state == .disabled) &&
  ((spanChans r.span).all fun k => !(ids.any fun c => chanServes s k.1 k.2.1 k.2.2 c) || (let st := (chanOf s k.1 k.2.1 k.2.2).state; st == .idle || st == .halted)) &&
  !(s.ops.any fun o => ids.contains o.ctx) && !(s.fab.reqs.any fun q => ids.contains q.ctx && q.sent && !q.deferred && !q.gone)

/-- A record of a switch image: the context and its command, the place (slice index × 5 + NMU tier, or 4 for the GPX), and its bytes. -/
structure ImageRec where
  ctx : Nat
  place : Nat
  data : List Byte

/-- The bytes that an NMU's record saves (R398): the accumulators of the running GEMV as its shadow holds them, ROWS × NCOL entries. -/
def nmuRecord (s : State) (g : GemvP) (e : Nat × Nat) : List Byte :=
  let l := mget (fun _ => []) (sliceOf s e.1).nmuShadow e.2
  bytesOfWords ((l ++ List.replicate (g.rows * g.ncol) 0).take (g.rows * g.ncol))

/-- The bytes of a GPX's record: its command (log entry 58). -/
def poolRecord (c : Cmd) : List Byte :=
  let n (x : Nat) : Word := BitVec.ofNat 32 x
  bytesOfWords ([n c.ctx, n c.queue, n c.paddr, n (c.paddr / 2 ^ 32)] ++ List.replicate 12 0)

/-- The records of a switch image (R398). -/
def imageRecords (s : State) (p : Nat) : List ImageRec :=
  let r := partOf s p
  (unitCmds s r.stopping).flatMap fun c => match ctxOf s c.ctx with
    | none => []
    | some x =>
      if c.opcode = 0x200 then ((gemvOf c).nmus s x).eraseDups.map fun e =>
        { ctx := c.ctx, place := (e.1 - r.first) * 5 + e.2, data := nmuRecord s (gemvOf c) e }
      else (poolSlices s c x).eraseDups.map fun n => { ctx := c.ctx, place := (n - r.first) * 5 + 4, data := poolRecord c }

/-- The address of a record in an image (R398). -/
def recordAddr (base place : Nat) : Nat := base + 4096 + place / 5 * 163840 + place % 5 * 32768

/-- Write the switch image (R398): the header in clear, and each record under the key of its context. -/
def writeImage (p : Nat) (s : State) : State :=
  let r := partOf s p; let recs := imageRecords s p; let base := partSave s p
  let n (x : Nat) : Word := BitVec.ofNat 32 x
  let head : List Word := [n r.active, n p, n r.slog, n recs.length] ++ recs.flatMap fun e => [n e.ctx, n e.place, n e.data.length]
  let s1 := extWrite base ((bytesOfWords ((head ++ List.replicate 1024 0).take 1024)).map fun b => (b, false)) s
  recs.foldl (fun t e =>
    let key := match ctxOf t e.ctx with
      | some x => ctxKey t x
      | none => none
    (extStore key (recordAddr base e.place) (e.data.map fun b => (b, false)) t).1) s1

/-- Step 5 of R397 for the queue cache: the tenant's entries are written back and leave. -/
def evictQueues (ids : List Nat) (s : State) : State :=
  (s.queues.filterMap fun (q, r) => match r with
    | some x => if !qPriv q && ids.contains (dCtx x.words) then some q else none
    | none => none).foldl (fun t q => dropQueue q (startBack q t)) s

/-- The channels of a partition that serve one of these contexts. -/
def stoppedChans (s : State) (p : Nat) (ids : List Nat) : List (Nat × Nat × Nat) :=
  (spanChans (partOf s p).span).filter fun k => ids.any fun c => chanServes s k.1 k.2.1 k.2.2 c

/-- Step 5 of R397 for the units: the NMUs and SABs of the partition are zeroed, and the read-ahead of the stopped channels is given up. -/
def zeroShared (p : Nat) (ids : List Nat) (s : State) : State :=
  let s1 := (partOf s p).span.slices.foldl (fun t n => zeroUnits n t) s
  (stoppedChans s p ids).foldl (fun t k => modChan k.1 k.2.1 k.2.2 (fun ch => { ch with ahead := [] }) (dropAhead k.1 k.2.1 k.2.2 t)) s1

/-- Steps 4 to 6 of R397. -/
def suspendEnd (p : Nat) (s : State) : State :=
  let ids := (partOf s p).stopping
  let s1 := evictQueues ids (writeImage p s)
  let s2 := ids.foldl (fun t c => modCtx c (fun x => { x with state := if x.state = .active then .suspended else x.state }) t) s1
  let s3 := zeroShared p ids s2
  refreshAll (modPart p (fun r =>
    { r with state := .sealed, active := 0, busy := false, stopping := [], result := okResult r.delayed, delayed := false
             met := if r.active = 0 ∨ r.met.contains r.active then r.met else r.active :: r.met }) s3)

/-- The header of the image at PART_SAVE: whether it could be read, its tenant, its partition, and its records (context, place,
length). -/
def readHeader (s : State) (p : Nat) : Bool × Nat × Nat × List (Nat × Nat × Nat) :=
  let base := partSave s p
  let bs := extRead s base 4096
  let ws := wordsOfBytes 1024 (bs.map (·.1))
  let w (i : Nat) : Nat := (wordAt ws i).toNat
  (!(bs.any (·.2)) && decide (extStatus s base 4096 = .ok), w 0, w 1, (List.range (Nat.min 320 (w 3))).map fun i => (w (4 + 3 * i), w (5 + 3 * i), w (6 + 3 * i)))

/-- Is a mover channel of the partition in use for a context of another tenant (R396)? -/
def otherChan (s : State) (p tenant : Nat) : Bool :=
  (spanChans (partOf s p).span).any fun k => (chanOf s k.1 k.2.1 k.2.2).state != .idle && chanBound s k.1 k.2.1 k.2.2 &&
    (match ctxOf s (chanCtx s k.1 k.2.1 k.2.2) with
      | some x => x.tenant != tenant
      | none => false)

/-- ACTIVATE begins (R396, R400 step 1). -/
def activateBegin (p : Nat) (s : State) : State :=
  let r := partOf s p; let tenant := regGet s 0 (partReg p 8) % 65536
  let (ok, t, q, _) := readHeader s p
  if (r.active ≠ 0 ∧ r.active ≠ tenant) ∨ otherChan s p tenant then modPart p (fun x => { x with result := 0x80 }) s
  else if r.met.contains tenant ∧ ok ∧ (t ≠ tenant ∨ q ≠ p) then modPart p (fun x => { x with result := 0x82 }) s
  else refreshAll (modPart p (fun x => { x with state := .activating, busy := true }) s)

/-- The records of the image whose context is one of these, as they read: context, place, whether the read failed, and the bytes. -/
def imageReads (s : State) (p : Nat) (mine : List (Nat × Ctx)) (recs : List (Nat × Nat × Nat)) : List (Nat × Nat × Bool × List Byte) :=
  recs.filterMap fun (c, pl, len) => (mine.find? fun e => e.1 == c).map fun (_, x) =>
    let (st, bs) := extPlain s (ctxKey s x) (recordAddr (partSave s p) pl) (Nat.min 32768 len)
    (c, pl, st != .ok || bs.any (·.2), bs.map (·.1))

/-- An NMU takes its accumulators back: its GEMV goes on from the start of the saved stripe (R400 step 3). -/
def restoreRec (p : Nat) (s : State) (e : Nat × Nat × Bool × List Byte) : State :=
  let (_, pl, bad, bs) := e
  let ws := wordsOfBytes (bs.length / 4) bs
  if bad ∨ pl % 5 = 4 then s
  else modSlice ((partOf s p).first + pl / 5) (fun y =>
    { y with nmuAcc := mput (fun _ => []) y.nmuAcc (pl % 5) ws, nmuShadow := mput (fun _ => []) y.nmuShadow (pl % 5) ws }) s

/-- Steps 2 to 4 of R400: the records are restored, a context whose record cannot be read is faulted, and the tenant's contexts
run. -/
def activateEnd (p : Nat) (s : State) : State :=
  let tenant := regGet s 0 (partReg p 8) % 65536
  let mine := (partCtxs s p).filter fun e => e.2.tenant == tenant
  let (ok, _, _, recs) := readHeader s p
  let reads := if (partOf s p).met.contains tenant ∧ ok then imageReads s p mine recs else []
  let bad : List Nat := if !(partOf s p).met.contains tenant then []
    else if !ok then mine.map (·.1)
    else (reads.filter fun e => e.2.2.1).map (·.1)
  let ids := mine.map (·.1)
  let s1 := ids.foldl (fun t c => modCtx c (fun x => { x with state := if x.state = .suspended then .active else x.state }) t) (reads.foldl (restoreRec p) s)
  let go (w : Waiter) : Waiter := if ids.contains w.ctx then { w with since := w.since + (s1.rc - w.paused.getD s1.rc), paused := none } else w
  let on (r : FabReq) : FabReq :=
    if ids.contains r.ctx then { r with since := r.since + (s1.rc - r.paused.getD s1.rc), sentAt := r.sentAt + (s1.rc - r.paused.getD s1.rc), paused := none }
    else r
  let s2 := { s1 with sync := { s1.sync with waiters := s1.sync.waiters.map go }, fab := { s1.fab with reqs := s1.fab.reqs.map on } }
  let s3 := feedTenant tenant (modPart p (fun r => { r with state := .sealed, active := tenant, busy := false, result := okResult r.delayed, delayed := false }) s2)
  bad.foldl (fun t c => faultCtx .unitFailed .unitFailed c t) (refreshAll s3)

/-! PART_CTL (R391) -/

/-- Does an OP have a nonzero field that it does not use (R391)? -/
def partUnused (v : Nat) : Bool := decide (bitsOf v 31 28 ≠ 1) && decide (bitOf v 26 ∨ bitsOf v 21 13 ≠ 0)

/-- Run a PART_CTL operation on a partition that is not BUSY. -/
def partRun (p v : Nat) (by_ : RegBy) (delayed : Bool) (s : State) : State :=
  let op := bitsOf v 31 28; let r := partOf s p
  let secRef := !by_.secure && ((decide (3 ≤ op) && r.secure && decide (r.state ≠ .absent)) || (decide (op = 1) && bitOf v 26))
  if op = 0 ∨ 5 < op ∨ partUnused v then modPart p (fun x => { x with result := Status.reservedNonzero.code }) s
  else if secRef then modPart p (fun x => { x with result := Status.secureRefused.code }) (secureRefusal p by_ (partReg p 0 * 4) s)
  else if op = 1 then configure p v by_ delayed s
  else if op = 2 then sealPart p s
  else if op = 3 then dissolve p s
  else if r.state ≠ .sealed then modPart p (fun x => { x with result := 0x80 }) s
  else
    let s1 := if op = 4 then suspendBegin p s else activateBegin p s
    let ended := !(partOf s1 p).busy
    if ended ∧ delayed ∧ (partOf s1 p).result = 0 then modPart p (fun x => { x with result := Status.okDelayed.code }) s1
    else modPart p (fun x => { x with delayed := delayed && x.busy }) s1

/-- A write of PART_CTL (R391, R400): one made while BUSY is 1 is taken when BUSY falls, and completes then. -/
def partCtlWrite (p v : Nat) (by_ : RegBy) (s : State) : RegRes :=
  let s1 := regPut 0 (partReg p 0) v s
  let r := partOf s p; let op := bitsOf v 31 28
  if !r.busy ∧ r.waitOp.isNone then (some .ok, partRun p v by_ false s1)
  else if r.state = .suspending ∧ (op = 4 ∨ op = 5) ∧ r.waitOp.isNone then
    if bitOf v 27 then (some .ok, modPart p (fun x => { x with result := Status.pendingShutdown.code }) s1)
    else (some .ok, modPart p (fun x => { x with waitOp := some (v, by_) }) s1)
  else if r.state = .dissolving ∧ op = 1 ∧ confSpanOk v ∧ r.waitOp.isNone then (some .ok, configure p v by_ false s1)
  else (none, modPart p (fun x => { x with queued := x.queued ++ [(v, by_)] }) s)

/-- The operation that waits is carried out, and then the ones written while BUSY, while it is 0. -/
def partMore : Nat → Nat → State → State
  | 0, _, s => s
  | k + 1, p, s =>
    let r := partOf s p
    if r.busy then s
    else match r.waitOp, r.queued with
      | some (v, b), _ => partMore k p (partRun p v b true (modPart p (fun x => { x with waitOp := none }) s))
      | none, (v, b) :: rest => 
        partMore k p (finish b.origin .ok (partRun p v b false (regPut 0 (partReg p 0) v (modPart p (fun x => { x with queued := rest }) s))))
      | none, [] => s

/-- DISSOLVE_DONE (R393): the clear has ended; the slices are reset, the partition is ABSENT, and the CONFIGUREs that waited for
it proceed. -/
def execDissolveDone (p : Nat) (s : State) : Res :=
  let r := partOf s p
  if r.state ≠ .dissolving ∨ s.clears.any (fun j => j.part == p) then .next s
  else
    let s1 := r.span.slices.foldl dissolveSlice s
    let s2 := setPart p { PartRec.zero with refuse := r.refuse, waitOp := r.waitOp, queued := r.queued } s1
    let s3 := partMore 64 p s2
    .next ((List.range 32).foldl (fun t q =>
      match (partOf t q).waitOp with
      | some (v, _) => if bitsOf v 31 28 = 1 then partMore 64 q t else t
      | none => t) s3)

/-- SUSPEND_DONE (R397). -/
def execSuspendDone (p : Nat) (s : State) : Res :=
  if (partOf s p).state = .suspending ∧ suspendQuiet s p then .next (partMore 64 p (suspendEnd p s)) else .next s

/-- ACTIVATE_DONE (R400). -/
def execActivateDone (p : Nat) (s : State) : Res :=
  if (partOf s p).state = .activating then .next (partMore 64 p (activateEnd p s)) else .next s

/-! Key slots (R402, 18 R515) -/

/-- KEY_LOAD (R402): refused for a slot that an existing context with KEY_EN = 1 names. -/
def execKeyLoad (slot tenant : Nat) (key : BitVec 512) (s : State) : Res :=
  if 64 ≤ slot ∨ 65536 ≤ tenant then .next (emit (.keyRsp 2) s)
  else if (ctxList s).any fun e => e.2.keyEn && e.2.keySlot == slot then .next (emit (.keyRsp 1) s)
  else .next (emit (.keyRsp 0) (refreshAll { s with keys := mput (fun _ => none) s.keys slot (some (tenant, key.toNat)) }))

/-- KEY_ERASE (R402): always carried out. -/
def execKeyErase (slot : Nat) (s : State) : Res :=
  if 64 ≤ slot then .next (emit (.keyRsp 2) s)
  else .next (emit (.keyRsp 0) (refreshAll { s with keys := mput (fun _ => none) s.keys slot none }))

/-! Measurements and TDISP (R406, R407) -/

/-- A word of the fuse shadow (18 R522): the fused word, with the bits that FUSE_PROG has blown. -/
def fuseWord (s : State) (off : Nat) : Nat :=
  s.test.shadow.foldl (fun v b => if b / 32 = off / 4 ∧ !bitOf v (b % 32) then v + 2 ^ (b % 32) else v) (Config.fuse off).toNat

/-- The bytes of the fuse shadow's items: 4 B at 0x0000, and 0x0100 to 0xDFFF. -/
def fuseBytes (s : State) : List Byte :=
  leBytes 4 (fuseWord s 0) ++ (List.range 14272).flatMap fun i => leBytes 4 (fuseWord s (0x100 + 4 * i))

/-- PART_STAT (R390). -/
def partStat (s : State) (p : Nat) : Nat :=
  let r := partOf s p
  r.state.code * 2 ^ 29 + b2n r.secure * 2 ^ 28 + b2n r.busy * 2 ^ 27 + b2n r.waitOp.isSome * 2 ^ 26 + r.result * 2 ^ 18 + b2n r.taint * 2 ^ 17 +
    r.first * 2 ^ 10 + r.slog * 2 ^ 7 + (partCtxs s p).length

/-- The content of a measurement index (R407), as words. -/
def measureWords (s : State) (idx tdi : Nat) : List Word :=
  let n (x : Nat) : Word := BitVec.ofNat 32 x
  if idx = 1 then wordsOfBytes 12 s.ctl.digest
  else if idx = 2 then wordsOfBytes 13 (sha384 (fuseBytes s) ++ [Config.stepping])
  else if idx = 3 then (List.range 32).map fun p =>
    let v := partStat s p
    n (bitsOf v 31 28 * 2 ^ 28 + bitsOf v 15 7 * 2 ^ 7)
  else if idx = 4 then ((ctxList s).filter fun e => tdiOf s e.1 == some tdi).flatMap fun (c, x) =>
    [n (x.tenant * 65536 + c), n (x.keySlot * 256 + b2n x.keyEn * 64 + b2n x.dbg * 32 + x.part)]
  else (List.range 12).map fun i => wordAt Config.meterDigest i

/-- MEASUREMENT_REQUEST (R407): the content of an index, from one snapshot. Other indices have none. -/
def execMeasurementRequest (kind arg : Nat) (_nonce : BitVec 256) (s : State) : Res :=
  if 1 ≤ kind ∧ kind ≤ 5 then .next (emit (.measure (measureWords s kind arg)) s) else .next s

/-- TDISP_STATE_REPORT (R406, 18 R512): ERROR of an interface that was CONFIG_LOCKED or RUN faults every context of it. Reserved
states are ignored. -/
def execTdispStateReport (tdi state : Nat) (s : State) : Res :=
  if 3 < state then .next s
  else
    let old := mget (fun _ => 0) s.tdi tdi
    let s1 := { s with tdi := mput (fun _ => 0) s.tdi tdi state }
    if state = 3 ∧ (old = 1 ∨ old = 2) then
      .next (((ctxList s).filter fun e => tdiOf s e.1 == some tdi).foldl (fun t e => faultCtx .unitFailed .unitFailed e.1 t) s1)
    else .next s1

end Sys2Proof.Machine
end

