-- ==== Sys2Proof/Machine/Reset.lean ====
section
/-! DEFINITION. Machine/Reset.lean: resets, start-up, loss of supply or lock, the microcode, and the test access
(13 R409; 14 R421, R431; 15 R440 to R451; 18 R522 to R525). -/
namespace Sys2Proof.Machine

/-- The fields that belong to the model or to the environment, which no reset touches: the queue, the free-value counter, the
numbering, what has left the block, external memory, the integration's tie-offs, and the blown fuses. -/
def keepOutside (s t : State) : State :=
  { t with
    pending := s.pending, freeCtr := s.freeCtr, nextId := s.nextId, outbox := s.outbox
    mem := { t.mem with ext := s.mem.ext, extPoison := s.mem.extPoison, extErr := s.mem.extErr }
    pp1 := s.pp1, unconn := s.unconn, cgrp := s.cgrp, nfab := s.nfab, fstop := s.fstop
    test := { instr := s.test.instr, result := s.test.result, blown := s.test.blown, shadow := s.test.blown } }

/-- The device as a power-on reset leaves it, its initialisation fill done (R448, 17 R485). -/
def powerOn (s : State) : State :=
  let t := keepOutside (drawFree s) State.reset
  { t with freeCtr := s.freeCtr + 1, ctl := { CtlState.zero with brownout := s.ctl.vhvLow }, meter := MeterState.start (s.freeCtr + 1) }

/-- POWER_ON_RESET (R447, R448, R450): VHV has risen above 1.70 V. -/
def execPowerOnReset (s : State) : Res := .next (powerOn s)

/-- What the darning map keeps of a slice through a block reset (14 R431): marks, substitutions, spares and failures. -/
def keepDarned (r : SliceRec) : SliceRec :=
  { SliceRec.zero with
    failed := r.failed, spare := r.spare, marks := r.marks, darned := r.darned, spareLanes := r.spareLanes, ivrUsed := r.ivrUsed
    nmuRetired := r.nmuRetired, nmuTiles := r.nmuTiles }

/-- The registers that a block reset keeps: DARN_CFG and SVC_STAT. -/
def keptRegs (m : NMap Word) : NMap Word := m.filter fun e => decide (e.1 = regNo 0x80 0x200 ∨ e.1 = regNo 0x80 0x204)

/-- A block reset (R448), its initialisation fill done: everything outside the control domain and the power states; `cause` as
RST_STAT.CAUSE. While BLK_RST_N is low (cause 1) the block stays in reset. -/
def blockReset (cause : Nat) (s : State) : State :=
  let slices := (s.slices.map fun e => (e.1, keepDarned e.2)).filter fun e => decide (e.2 ≠ SliceRec.zero)
  let c := s.ctl
  { (keepOutside s State.reset) with
    regs := keptRegs s.regs, rc := s.rc, integ := s.integ.filter fun e => decide (e.1 < 256), slices := slices, meter := s.meter
    ctl := { CtlState.zero with
      cause := cause, brownout := c.brownout, unlocks := c.unlocks, phase := if cause = 1 then 0 else 4, inReset := decide (cause = 1)
      vhvLow := c.vhvLow, dynAddr := c.dynAddr, i3cIndex := c.i3cIndex } }

/-- BLOCK_RESET (R448): cause 1 BLK_RST_N, 2 RST_CTL, 3 the PLL failure. -/
def execBlockReset (cause : Nat) (s : State) : Res := if 1 ≤ cause ∧ cause ≤ 3 then .next (blockReset cause s) else .next s

/-- STARTUP_RELEASE (R450 step 5; 04 R118; 08 R260): BCNT starts at 0, the slices run the reset weave, the mesh ports are released
and the free spare slices enter OFF. -/
def execStartupRelease (s : State) : Res :=
  if 5 ≤ s.ctl.phase ∨ s.ctl.vhvLow then .next s
  else
    let free := (List.range 4).filter fun k => !(List.range 64).any fun n => (sliceOf s n).spare == some k
    let s1 := { (modCtl (fun c => { c with phase := 5, inReset := false }) s) with bcnt := 0, bcRun := true }
    .next (free.foldl (fun t k => modPwr (64 + k) (fun p => { p with st := .off }) t) s1)

/-- VHV_BROWNOUT (R447): PWR_FAIL is driven, and every slice stops without being cleared. -/
def execVhvBrownout (s : State) : Res := .next { (modCtl (fun c => { c with vhvLow := true }) s) with bcRun := false }

/-- PLL_UNLOCK (R440, R444): the derived clocks are held, and the event is counted. -/
def execPllUnlock (s : State) : Res :=
  if s.ctl.held ∨ s.ctl.deep ≠ 0 ∨ s.ctl.phase < 3 ∨ s.ctl.vhvLow then .next s
  else .next { (modCtl (fun c => { c with held := true, unlocks := satAdd 8 c.unlocks 1 }) s) with bcRun := false }

/-- PLL_RELOCK (R444 steps 2 and 3): the PLL has relocked at the point in force, and the clocks run again. -/
def execPllRelock (s : State) : Res :=
  if s.ctl.held ∧ !s.ctl.vhvLow then .next { (modCtl (fun c => { c with held := false }) s) with bcRun := decide (5 ≤ s.ctl.phase) } else .next s

/-- PLL_RELOCK_TIMEOUT (R444): the PLL has not relocked within 100 µs. -/
def execPllRelockTimeout (s : State) : Res := if s.ctl.held then .next (blockReset 3 { s with rc := s.rc + 10000 }) else .next s

/-! The microcode (R451) -/

/-- A write of CU_BOOT that is the first of its fields (R451, 00 R4): LEN = 0 sets nothing; GO digests the load area. -/
def cuBootWrite (v : Nat) (s : State) : RegRes :=
  let reg := regNo 0x80 0x300; let len := v % 4096
  if len = 0 then (some .decodeError, s)
  else
    let s1 := { (regPut 0 reg (v / 2 ^ 31 * 2 ^ 31 + len) s) with w1done := mput (fun _ => false) s.w1done reg true }
    if !bitOf v 31 then (some .ok, s1)
    else
      let d := sha384 (mgetList (fun _ => 0) s.mem.boot 0 (64 * len))
      (some .ok, emit (.measure (wordsOfBytes 12 d)) (modCtl (fun c => { c with cuState := 1, phase := 6, digest := d }) s1))

/-- MICROCODE_ANSWER (R451 steps 3 and 4). -/
def execMicrocodeAnswer (allow : Bool) (s : State) : Res :=
  if s.ctl.cuState ≠ 1 then .next s
  else if allow then .next (modCtl (fun c => { c with cuState := 2, phase := 7 }) s)
  else .next (modCtl (fun c => { c with cuState := 3 }) s)

/-! Test access (R523 to R525) -/

/-- DEBUG_LOCK (18 R522): fused, or blown by FUSE_PROG. -/
def debugLocked (s : State) : Bool := Config.debugLock || s.test.shadow.contains 8

/-- The full-device clear on entry to a test mode (06 R171, 13 R409): stores, spare banks, system region, buffers; every key slot is
emptied. -/
def fullClear (s : State) : State :=
  { s with mem := { s.mem with data := [], chk := [], tag := [], owed := [], sys := [] }, keys := [], wb := [], beats := [], ports := []
           works := [], movers := { chans := [], stage := [], turns := [] }
           slices := s.slices.map fun e => (e.1, { e.2 with nmuAcc := [], nmuShadow := [], sab := [] }) }

/-- Select a test instruction. -/
def selTest (i : Nat) (s : State) : State := { s with test := { s.test with instr := i } }

/-- RST_STAT (15 R449). -/
def rstStat (s : State) : Nat :=
  s.ctl.cause * 2 ^ 30 + b2n s.ctl.brownout * 2 ^ 29 + s.ctl.phase * 2 ^ 26 + s.ctl.unlocks * 2 ^ 16

/-- SVC_STAT (14 R439). -/
def svcStat (s : State) : Nat := regGet s 0 (regNo 0x80 0x204)

/-- WS_BYPASS (R523). -/
def execWsBypass (s : State) : Res := .next (selTest 0 s)

/-- WS_STATUS (R523): RST_STAT, SVC_STAT and the result of the last MBIST or SEAM run. -/
def execWsStatus (s : State) : Res :=
  .next (emit (.test ([BitVec.ofNat 32 (rstStat s), BitVec.ofNat 32 (svcStat s)] ++ s.test.result)) (selTest 1 s))

/-- WS_EXTEST (R523): only while BLK_RST_N is low. -/
def execWsExtest (s : State) : Res := if s.ctl.inReset then .next (selTest 2 (fullClear s)) else .next s

/-- WS_INTEST (R523): with DEBUG_LOCK blown it is refused, and the chain reads zeros. -/
def execWsIntest (s : State) : Res :=
  if debugLocked s then .next (emit (.test [0]) s)
  else if s.ctl.inReset then .next (selTest 3 (fullClear s))
  else .next s

/-- MBIST_RUN (R524): `failing` names the banks that fail; they are reported, and change no map. -/
def execMbistRun (failing : List Nat) (s : State) : Res :=
  if s.ctl.inReset then
    let t := selTest 4 (fullClear s)
    .next { t with test := { t.test with result := failing.map (BitVec.ofNat 32) } }
  else .next s

/-- SEAM_TEST (R525): `failing` names the lanes below their threshold; they are reported only. -/
def execSeamTest (failing : List Nat) (s : State) : Res :=
  if s.ctl.inReset then
    let t := selTest 5 (fullClear s)
    .next { t with test := { t.test with result := failing.map (BitVec.ofNat 32) } }
  else .next s

/-- FUSE_PROG (R522, R523): refused with DEBUG_LOCK blown; the shadow shows the fuses at the next start-up. -/
def execFuseProg (bits : List Nat) (s : State) : Res :=
  if debugLocked s then .next s
  else .next (let t := selTest 6 s
              { t with test := { t.test with blown := (t.test.blown ++ bits).eraseDups } })

end Sys2Proof.Machine
end

