-- ==== Sys2Proof/Machine/Regs.lean ====
section
/-! DEFINITION. Machine/Regs.lean: the register space (02 R32): the live value of every register, and a write of any register
under its access types (00 R4, R5) and its own rules. -/
namespace Sys2Proof.Machine

/-! Units and addresses -/

/-- The number under which the registers of a slice unit are held (02 R32): a spare slice that serves logical slice `n` shares
the registers of unit `n`. -/
def unitSlice (s : State) (u : Nat) : Nat :=
  if 64 ≤ u ∧ u < 68 then ((List.range 64).find? fun n => (sliceOf s n).spare == some (u - 64)).getD u else u

/-- Is the unit one of a slice? -/
def isSliceUnit (u : Nat) : Bool := decide (u < 0x44)

/-- Is a register of a slice unreachable because the slice is OFF (15 R452)? -/
def offHidden (s : State) (u off : Nat) : Bool :=
  isSliceUnit u && (pwrOf s (unitSlice s u)).st == .off && !decide (0x1000 ≤ off ∧ off < 0x1028)

/-- Unit and offset of a local register address (02 R32). -/
def regUnit (a : Nat) : Nat := bitsOf a 35 28
def regOff (a : Nat) : Nat := bitsOf a 15 0

/-- Does R32 decode an access of 4 or 8 bytes, and does the OFF state of its slice let it through? -/
def regAddrOk (s : State) (a : Nat) (size8 : Bool) : Bool :=
  let u := regUnit a; let off := regOff a
  decide (a / 2 ^ 36 = 8) && decide (bitsOf a 27 16 = 0) && decide (a % (if size8 then 8 else 4) = 0) &&
    (regSpecOf u off).isSome && (!size8 || (regSpecOf u (off + 4)).isSome) && !offHidden s u off

/-! Live values -/

/-- SLICE_MAP (03 R77, R74; 02 R32). -/
def sliceMap (s : State) (u : Nat) : Nat :=
  if 64 ≤ u then
    let (x, y) := spareStop (u - 64)
    b2n (decide (unitSlice s u ≠ u)) * 2 ^ 31 + u * 256 + y * 16 + x
  else
    let (x, y) := stopOf s u
    match (sliceOf s u).spare with
    | some k => 2 ^ 31 + (64 + k) * 256 + y * 16 + x
    | none => u * 256 + y * 16 + x

/-- Is a home port not connected (18 R517; 04 R79: a spare slice's never are)? -/
def portLoose (s : State) (n p : Nat) : Bool := !portWired s n p

/-- PORT_CFG (04 R114). -/
def portCfgRead (s : State) (n p : Nat) : Nat :=
  let v := portCfg s n p
  v / 16 * 16 + (if p < 4 then v % 16 / 8 * 8 else 0) + (if isPP1 s n p then 0 else v % 8 / 4 * 4) +
    (if portLoose s n p then 0 else if isPP1 s n p then 1 else 2)

/-- PORT_STAT (04 R116). -/
def portStat (s : State) (n p : Nat) : Nat :=
  let r := portOf s n p
  r.state.code * 2 ^ 30 + b2n (!r.enWait.isEmpty) * 2 ^ 29 + Nat.min (portEntries s n p).length 255 * 65536 +
    ((s.ops.filter fun o => o.slice == n && o.port == p).length + r.held.length) % 128

/-- PORT_ORD (09 R291). -/
def portOrd (s : State) (n p : Nat) : Nat :=
  (if p = 10 then 15 else coreGroup s n p) * 16 + b2n (coreOn s n p)

/-- The registers of a port. -/
def portRead (s : State) (n p off : Nat) : Nat :=
  if off = 0x00 then regGet s (portCtlReset p) (portReg n p 0)
  else if off = 0x04 then portCfgRead s n p
  else if off = 0x08 then (if p = 10 then 0 else regGet s 0 (portReg n p 8))
  else if off = 0x0C then portStat s n p
  else if off = 0x10 then regGet s 0 (portReg n p 0x10)
  else portOrd s n p

/-- QCTL_STAT (05 R158). -/
def qctlStat (s : State) (n : Nat) : Nat :=
  let r := qctlOf s n
  b2n r.busy.isSome * 2 ^ 31 + b2n r.enWait * 2 ^ 30 + r.qstate * 2 ^ 28 + r.result * 2 ^ 20 + r.qidx

/-- QCACHE_STAT (05 R158): the 16 privileged queues are always cached and pinned. -/
def qcacheStat (s : State) (n : Nat) : Nat :=
  let ten := (cachedOn s n).filter fun e => !qPriv e.1
  (16 + (ten.filter fun e => e.2.pinned).length) * 65536 + 16 + ten.length

/-- NMU_STAT (07 R212). -/
def nmuStat (s : State) (n t : Nat) : Nat :=
  let r := sliceOf s n
  b2n (nmuRetired s (n, t)) * 2 ^ 31 + Nat.min 4 (tilesUsed s n t) * 2 ^ 24 +
    mget (fun _ => 0) r.nmuRetries t % 65536

/-- The weave registers (08 R261, R273, R279). -/
def weaveRead (s : State) (n off : Nat) : Nat :=
  let r := sliceOf s n
  if off = 0x0 then b2n (!r.pendWeave.isEmpty) * 2 ^ 31 + wFL r.weave * 65536 + bgShare r.weave * 256 + wSeq r.weave % 256
  else if off = 0x4 then regGet s 0 (regNo n 0xA04) + r.missTarget
  else if off = 0x8 then r.missCount
  else if off = 0xC then regCfg s n
  else b2n (decide (r.cut ≠ 0)) * 2 ^ 31 + (r.cut - 1) * 2 ^ 29 + r.occN % 16 * 2 ^ 20 + r.maxOcc % 16 * 4096

/-- Shared landing units of a slice that no grant reserves (12 R388). -/
def sharedFree (s : State) (n : Nat) : Nat :=
  160 - ((s.fab.grants.filter fun g => !g.reserved && g.scope.contains n).map Grant.win).foldl (· + ·) 0

/-- CRED_STAT (12 R388): the internal units are those of forwarded home-port writes on their way to this slice. -/
def credStat (s : State) (n : Nat) : Nat :=
  sharedFree s n * 2 ^ 24 + rsvLanded s n % 128 * 65536 + Nat.min 32 (poolUsed s n) * 256

/-- CRED_QUEUE (12 R388): on the first two slices of a partition. -/
def credQueue (s : State) (n : Nat) : Nat :=
  match partOfSlice s n with
  | some p =>
    if n < (partOf s p).first + 2 then
      (s.fab.deferred.filter fun d => d.part == p).length * 65536 + (s.fab.grants.filter fun g => g.part == p && g.live).length
    else 0
  | none => 0

/-- The registers of a mover channel (11 R335). -/
def chanRead (s : State) (n m c off : Nat) : Nat :=
  let ch := chanOf s n m c
  let half (x : Nat) : Nat := if off % 8 = 0 then x % 2 ^ 32 else x / 2 ^ 32 % 2 ^ 32
  if off = 0x04 then
    ch.state.code * 2 ^ 29 + b2n (!ch.startWait.isEmpty) * 2 ^ 28 + ch.status.code * 2 ^ 20 +
      ((stageOf s n m).filter fun e => e.ch == c).length * 256 + Nat.min 255 ch.aheadUnits
  else if 0x10 ≤ off ∧ off < 0x18 then half ch.pc
  else if 0x18 ≤ off ∧ off < 0x20 then half ch.lastSrc
  else if 0x20 ≤ off ∧ off < 0x28 then half (ch.latched.getD ch.lastDst)
  else regGet s 0 (chanReg n m c off)

/-- STATE and TARGET of PWR_STAT (15 R459). -/
def pwrStateTarget (p : SlcPwr) : Nat × Nat :=
  match p.mode with
  | .steady => (p.st.code, 0)
  | .prepare _ => (p.st.code, 0)
  | .entering t => (4, t.code)
  | .waking => (5, p.st.code)

/-- PWR_STAT (15 R459). -/
def pwrStat (s : State) (n : Nat) : Nat :=
  let p := pwrOf s n; let (st, t) := pwrStateTarget p
  st * 2 ^ 29 + t * 2 ^ 26 + b2n p.reqBusy * 2 ^ 25 + b2n (!p.waiting.isEmpty && decide (st = 4)) * 2 ^ 24 + b2n p.wakePend * 2 ^ 23 + p.result * 256

/-- The power registers of a slice (15 R454 to R459, 16 R475). -/
def pwrRead (s : State) (n off : Nat) : Nat :=
  let p := pwrOf s n; let reg := pwrReg n off
  if off = 0x00 then regGet s 0 reg
  else if off = 0x04 then pwrStat s n
  else if off = 0x08 then p.refuse
  else if off = 0x0C then p.abort
  else if off = 0x10 then p.lastid
  else if off = 0x14 then retCfg s n
  else if off = 0x18 then idleTmr s n
  else if off = 0x20 then (Config.fmax n).toNat * 256 + railLim s n
  else Nat.min 255 (mget (fun _ => 0) s.power.iavg n) * 2 ^ 24 + mget (fun _ => 0) s.power.rail n % 32 * 65536 +
    Nat.min 65535 (mget (fun _ => 0) s.power.windows n)

/-- A register of a slice unit. -/
def sliceRead (s : State) (u off : Nat) : Nat :=
  let n := unitSlice s u
  if off = 0x200 then sleeveCfg s n
  else if off = 0x210 then sliceMap s u
  else if off = 0x220 then regGet s 0 (regNo n off)
  else if off < 0x600 then portRead s n ((off - 0x400) / 0x20) (off % 0x20)
  else if off = 0x604 then qctlStat s n
  else if off = 0x608 then qcacheStat s n
  else if off < 0x810 then regGet s 0 (regNo n off)
  else if off < 0x820 then nmuStat s n ((off - 0x810) / 4)
  else if off = 0x820 then (sliceOf s n).accSat % 2 ^ 32
  else if off < 0xB00 then weaveRead s n (off - 0xA00)
  else if off = 0xB00 then credStat s n
  else if off = 0xB04 then credQueue s n
  else if off < 0x1000 then chanRead s n ((off - 0xC00) / 0x200) ((off - 0xC00) / 0x40 % 8) (off % 0x40)
  else pwrRead s n (off - 0x1000)

/-- The registers of a partition (13 R390). -/
def partRead (s : State) (p off : Nat) : Nat :=
  if off = 0x04 then partStat s p
  else if off = 0x0C then (partOf s p).active
  else if off = 0x18 then (partOf s p).refuse
  else regGet s 0 (partReg p off)

/-- OP_STAT (15 R443): FIXED while a lock of MODE 0b10 is in force (16 R479). -/
def opStat (s : State) : Nat :=
  let c := s.ctl
  c.point * 2 ^ 29 + (if c.slewing then c.target else c.point) * 2 ^ 26 + b2n c.slewing * 2 ^ 25 +
    b2n (match s.power.lock with
      | some l => decide (l.mode = 2)
      | none => false) * 2 ^ 24

/-- DEV_PWR_STAT (15 R463). -/
def devPwrStat (s : State) : Nat := s.ctl.devResult * 65536

/-- CAP_STAT (16 R481). -/
def capStat (s : State) : Nat :=
  b2n s.power.susp * 2 ^ 31 + b2n s.power.lock.isSome * 2 ^ 30 + s.power.cap % 4096 * 4096 + Nat.min 4095 (floorNow s)

/-- PWR_EST (16 R481). -/
def pwrEst (s : State) : Nat :=
  Nat.min 65535 (s.power.est / 125000) * 65536 + bubOf s.power.bub 0 % 32 * 1024 + bubOf s.power.bub 1 % 32 * 32 + bubOf s.power.bub 2 % 32

/-- A device-common register. -/
def commonRead (s : State) (off : Nat) : Nat :=
  if off = 0x40 then s.bcnt % 2 ^ 32
  else if off = 0x44 then s.bcnt / 2 ^ 32 % 2 ^ 32
  else if off = 0x300 then regGet s 0 (regNo 0x80 off) + s.ctl.cuState % 4 * 2 ^ 29
  else if off = 0x304 then 0
  else if off = 0x308 then rstStat s
  else if off = 0x310 then opStat s
  else if off = 0x324 then devPwrStat s
  else if off = 0x328 then s.ctl.devLast
  else if off = 0x344 then capStat s
  else if off = 0x348 then pwrEst s
  else if off = 0x34C then s.power.reasons % 512
  else if 0x1000 ≤ off ∧ off < 0x1400 then partRead s ((off - 0x1000) / 0x20) (off % 0x20)
  else if 0x2000 ≤ off ∧ off < 0x2100 then
    match mget (fun _ => none) s.keys ((off - 0x2000) / 4) with
    | some (t, _) => 2 ^ 31 + t
    | none => 0
  else match commonRegSpec off with
    | some r => regGet s r.reset (regNo 0x80 off)
    | none => 0

/-- The value of the register at an offset of a unit. -/
def regRead (s : State) (u off : Nat) : Nat :=
  if isSliceUnit u then sliceRead s u off
  else if u = 0x80 then commonRead s off
  else if u = 0x81 then fuseWord s off
  else mirrorWord s off

/-- An access of 4 or 8 bytes reads the registers it covers. -/
def regRead8 (s : State) (a : Nat) (size8 : Bool) : Nat :=
  regRead s (regUnit a) (regOff a) % 2 ^ 32 + (if size8 then regRead s (regUnit a) (regOff a + 4) % 2 ^ 32 * 2 ^ 32 else 0)

/-- What a read of a register through a port does: a read of MCH_LASTSRC latches MCH_LASTDST (11 R351). REG_READ has no such effect
(06 R206). -/
def regReadEffect (a : Nat) (s : State) : State :=
  let off := regOff a; let n := unitSlice s (regUnit a)
  if isSliceUnit (regUnit a) ∧ 0xC00 ≤ off ∧ off < 0x1000 ∧ 0x18 ≤ off % 0x40 ∧ off % 0x40 < 0x20 then
    modChan n ((off - 0xC00) / 0x200) ((off - 0xC00) / 0x40 % 8) (fun ch => { ch with latched := some ch.lastDst }) s
  else s

/-! Writes -/

/-- Store a register's value, with its reset value as the default. -/
def regStore (u off d v : Nat) (s : State) : RegRes := (some .ok, regPut d (regNo u off) v s)

/-- Clear the W1C bits that a write carries. -/
def regClear (u off v : Nat) (s : State) : RegRes :=
  let r := regNo u off; let x := regGet s 0 r
  (some .ok, regPut 0 r ((List.range 32).foldl (fun t i => if bitOf x i && !bitOf v i then t + 2 ^ i else t) 0) s)

/-- A write of PORT_CFG (04 R114): TILE is ignored on ports 4 to 10. -/
def portCfgWrite (n p v : Nat) (s : State) : RegRes :=
  let keep := v / 16 * 16 + (if p < 4 then v % 16 / 8 * 8 else 0) + (if isPP1 s n p then 0 else v % 8 / 4 * 4)
  (some .ok, regPut 0x44F00 (portReg n p 4) keep s)

/-- A write of PORT_ORD (09 R291): only while the port is DISABLED; the bit of a PP1 port and of the mesh port is ignored. -/
def portOrdWrite (n p v : Nat) (by_ : RegBy) (s : State) : RegRes :=
  if (portOf s n p).state ≠ .disabled then dropReg .writeIgnored by_ (portAddr n p 0x14) s
  else if p = 10 ∨ isPP1 s n p then (some .ok, s)
  else (some .ok, regPut 0 (portReg n p 0x14) (v % 2) s)

/-- A write of a port's register. -/
def portWrite (n p off v : Nat) (by_ : RegBy) (s : State) : RegRes :=
  if off = 0x00 then portCtlWrite n p v by_ s
  else if off = 0x04 then portCfgWrite n p v s
  else if off = 0x08 then portCtxWrite n p v by_ s
  else if off = 0x10 then regClear n (0x400 + p * 0x20 + off) v s
  else portOrdWrite n p v by_ s

/-- A write of REGU_CFG (08 R279): EN = 0 keeps C at NONE and applies no allowances. -/
def reguWrite (n v : Nat) (s : State) : RegRes :=
  if bitsOf v 7 4 ≤ bitsOf v 3 0 ∨ bitsOf v 27 24 ≤ bitsOf v 23 20 ∨ 12 < bitsOf v 7 4 ∨ bitsOf v 15 8 = 0 then (some .decodeError, s)
  else
    let s1 := regPut 0x8C8008A6 (regNo n 0xA0C) v s
    (some .ok, if bitOf v 31 then s1 else modSlice n (fun r => { r with cut := 0, allow := [] }) s1)

/-- A write of IDLE_TMR (15 R454): it applies from the next bank cycle in which the slice is busy. -/
def idleTmrWrite (n v : Nat) (s : State) : RegRes :=
  let s1 := regPut 0x00140032 (pwrReg n 0x18) v s
  (some .ok, if slcBusy s n then modPwr n (fun p => { p with tmr := v }) s1 else s1)

/-- A write of RAIL_LIM (16 R475). -/
def railLimWrite (n v : Nat) (s : State) : RegRes :=
  let lim := v % 256; let fmax := (Config.fmax n).toNat
  if lim = 0 ∨ fmax < lim then (some .decodeError, s) else (some .ok, regPut fmax (pwrReg n 0x20) lim s)

/-- A write of a slice's register that R4 lets through, under the register's own rules. -/
def sliceWrite (n off v : Nat) (by_ : RegBy) (s : State) : RegRes :=
  if off = 0x200 then sleeveWrite n v by_ s
  else if off = 0x220 then regStore n off 0 v s
  else if off < 0x600 then portWrite n ((off - 0x400) / 0x20) (off % 0x20) v by_ s
  else if off = 0x600 then qctlWrite n v by_ s
  else if off = 0x60C then qctlDbWrite n v by_ s
  else if off = 0x610 then qctlRackWrite n v by_ s
  else if off < 0x820 then nmuCfgWrite n ((off - 0x800) / 4) v s
  else if off = 0xA04 then regClear n off v s
  else if off = 0xA0C then reguWrite n v s
  else if off < 0x1000 then
    let m := (off - 0xC00) / 0x200; let c := (off - 0xC00) / 0x40 % 8
    if off % 0x40 = 0 then mchCtlWrite n m c v by_ s else mchParamWrite n m c (off % 0x40) v by_ s
  else if off = 0x1000 then pwrCtlWrite n v by_ s
  else if off = 0x1014 then regStore n off 0x1FF v s
  else if off = 0x1018 then idleTmrWrite n v s
  else railLimWrite n v s

/-- A write of a partition's register (13 R390): PART_ARG and PART_SAVE are held while SWITCHING. -/
def partWrite (p off v : Nat) (by_ : RegBy) (s : State) : RegRes :=
  if off = 0x00 then partCtlWrite p v by_ s
  else if (partOf s p).state = .suspending ∨ (partOf s p).state = .activating then dropReg .writeIgnored by_ (partReg p off * 4) s
  else regStore 0x80 (0x1000 + p * 0x20 + off) 0 v s

/-- A 4 B write of half of an 8 B register whose write starts something: the other half keeps its value. -/
def halfOf (s : State) (off v : Nat) : Nat :=
  if off % 8 = 0 then v % 2 ^ 32 + 2 ^ 32 * regGet s 0 (regNo 0x80 (off + 4)) else regGet s 0 (regNo 0x80 (off - 4)) + 2 ^ 32 * v

/-- A write of a device-common register that R4 lets through, under the register's own rules. -/
def commonWrite (off v : Nat) (by_ : RegBy) (s : State) : RegRes :=
  if off = 0x80 ∨ off = 0x84 then (some .ok, cmapWrite (halfOf s off v) s)
  else if off = 0xA0 ∨ off = 0xA4 then (some .ok, dbgWrite (halfOf s off v) s)
  else if off = 0x108 then (if v % 65536 < 10 then (some .decodeError, s) else regStore 0x80 off 0x64 v s)
  else if off = 0x200 then (if bitsOf v 23 16 = 0 then (some .decodeError, s) else regStore 0x80 off 0x80100000 v s)
  else if off = 0x300 then cuBootWrite v s
  else if off = 0x304 then (if bitOf v 0 then (none, blockReset 2 s) else (some .ok, s))
  else if off = 0x320 then devPwrWrite v by_ s
  else if off = 0x340 then (if v % 256 = 0 then (some .decodeError, s) else regStore 0x80 off 0xC0000028 v s)
  else if 0x1000 ≤ off ∧ off < 0x1400 then partWrite ((off - 0x1000) / 0x20) (off % 0x20) v by_ s
  else if 0x4000 ≤ off then
    (if (ctxOf s ((off - 0x4000) / 4)).isSome then dropReg .writeIgnored by_ (regNo 0x80 off * 4) s else regStore 0x80 off 0 v s)
  else regStore 0x80 off 0 v s

/-- Does a write carry a reserved bit (00 R5)? -/
def setsReserved (u off v : Nat) : Bool :=
  match regSpecOf u off with
  | some r => (List.range 32).any fun i => bitOf v i && !bitOf r.used i
  | none => false

/-- Does R4 drop a write: the register is all RO, a W1 field has taken its first write, or a sealed SL field would change? -/
def regDrops (s : State) (u off v : Nat) : Bool :=
  match regSpecOf u off with
  | some r =>
    let k := if isSliceUnit u then unitSlice s u else u
    r.allRo || (decide (r.w1 ≠ 0) && mget (fun _ => false) s.w1done (regNo k off)) ||
      (decide (r.sl ≠ 0) && sealedSlice s k && (List.range 32).any fun i => bitOf r.sl i && (bitOf v i != bitOf (regRead s u off) i))
  | none => true

/-- A W1 register has taken its first write (00 R4). -/
def markW1 (u off : Nat) (x : RegRes) : RegRes :=
  match regSpecOf u off with
  | some r => if r.w1 ≠ 0 ∧ x.1 = some .ok then (x.1, { x.2 with w1done := mput (fun _ => false) x.2.w1done (regNo u off) true }) else x
  | none => x

/-- A write of one register under R4 and its own rules. -/
def regWrite1 (u off v : Nat) (by_ : RegBy) (s : State) : RegRes :=
  if regDrops s u off v then dropReg .writeIgnored by_ (regNo u off * 4) s
  else if isSliceUnit u then markW1 (unitSlice s u) off (sliceWrite (unitSlice s u) off v by_ s)
  else markW1 u off (commonWrite off v by_ s)

/-- The status of an 8 B write from those of its halves (06 R205). -/
def joinHalves (a b : Status) : Status :=
  if a = .writeIgnored ∨ b = .writeIgnored then .writeIgnored else if a = .ok then b else a

/-- The status of one half goes with the operation that waits for the other. -/
def lateHalf (st : Status) (by_ : RegBy) (addr : Nat) (s : State) : State :=
  if st = .ok then s
  else match by_.origin with
    | .cmd id => modCmd id (fun c => { c with status := c.status.join st }) s
    | .op id => modOp id (fun o => { o with status := o.status.join st }) s
    | .direct _ => emit (.regDone addr st) s
    | .none => s

/-- A write of two registers, each under R4. -/
def regWrite2 (u off v : Nat) (by_ : RegBy) (s : State) : RegRes :=
  let a := regNo u off * 4
  let (x, s1) := regWrite1 u off (v % 2 ^ 32) by_ s
  let (y, s2) := regWrite1 u (off + 4) (v / 2 ^ 32) by_ s1
  match x, y with
  | some p, some q => (some (joinHalves p q), s2)
  | none, some q => (none, lateHalf q by_ (a + 4) s2)
  | some p, none => (none, lateHalf p by_ a s2)
  | none, none => (none, s2)

/-- A write of a register of region 0x8 (02 R32, 00 R4, R5): `v` holds 8 B, the low register in bits 31:0. -/
def regWrite (a : Nat) (size8 : Bool) (v : Nat) (by_ : RegBy) (s : State) : RegRes :=
  let u := regUnit a; let off := regOff a
  let rst := u == 0x80 && (off == 0x304 || (size8 && off == 0x300))
  if !regAddrOk s a size8 ∨ (rst ∧ !by_.secure) then (some .decodeError, s)
  else if u = 0xC0 then mirrorWrite v size8 by_ a s
  else if setsReserved u off (v % 2 ^ 32) then reservedReg by_ a s
  else if size8 ∧ setsReserved u (off + 4) (v / 2 ^ 32) then reservedReg by_ (a + 4) s
  else if !size8 then regWrite1 u off (v % 2 ^ 32) by_ s
  else if u = 0x80 ∧ off = 0x80 then (some .ok, cmapWrite v s)
  else if u = 0x80 ∧ off = 0xA0 then (some .ok, dbgWrite v s)
  else regWrite2 u off v by_ s

end Sys2Proof.Machine
end

