-- ==== Sys2Proof/Machine/RegRows.lean ====
section
/-! DEFINITION. Machine/RegRows.lean: the commands and rows that read and write registers (06 R205, R206; 02 R32 to R54; 04 R113
to R120; 05 R158, R159; 11 R337; 13 R391; 15 R451, R459 to R465). -/
namespace Sys2Proof.Machine

/-- The local address of a unit's register. -/
def unitAddr (u off : Nat) : Nat := 0x8000000000 + u * 0x10000000 + off

/-- A row that is a 4 B write of a register by a privileged mesh requester. -/
def writeRow (a v : Nat) (w : RegWriter) (s : State) : Res := regRow w a (regWrite a false v) s

/-- REGISTER_WRITE (00 R4, R5): any register of region 0x8. -/
def execRegisterWrite (addr : Nat) (size8 : Bool) (v : DWord) (w : RegWriter) (s : State) : Res :=
  regRow w addr (regWrite addr size8 v.toNat) s

/-- The writer of a REG_WRITE: the normal world, logged as the command unit of the queue's home (06 R204, 13 R410). -/
def cmdBy (c : Cmd) : RegBy :=
  { origin := .cmd c.id, slice := qHome c.queue, src := 2, unit := 0, who := .queue c.queue, ctx := c.ctx, secure := false }

/-- A REG_WRITE ends with the write's status, or waits with it. -/
def regWriteEnd (id : Nat) (x : RegRes) : State :=
  match x with
  | (some st, t) => cmdDone id st 0 0 t
  | (none, t) => modCmd id (fun y => { y with phase := .waiting }) t

/-- A REG_READ or REG_WRITE of an address that R32 refuses: within region 0x8 it has failed step 6 of R44 and is logged (R45). -/
def regMiss (c : Cmd) (s : State) : State :=
  let s1 := if c.addr 2 / 2 ^ 36 = 8 then report .decodeError 2 (qHome c.queue) 0 (.queue c.queue) c.ctx (c.addr 2) s else s
  cmdRefuse c.id .decodeError 0 s1

/-- REG_WRITE (R205). -/
def execRegWrite (cmd : Nat) (s : State) : Res :=
  match admittedAs s cmd 0x720 with
  | some c =>
    if !regAddrOk s (c.addr 2) (c.bit 4 0) then .next (regMiss c s)
    else .next (regWriteEnd cmd (regWrite (c.addr 2) (c.bit 4 0) (c.addr 5) (cmdBy c) s))
  | none => .next s

/-- REG_READ (R206): bits 31:0 in RESULT, bits 63:32 in COUNT. -/
def execRegRead (cmd : Nat) (s : State) : Res :=
  match admittedAs s cmd 0x721 with
  | some c =>
    let a := c.addr 2; let size8 := c.bit 4 0
    if regAddrOk s a size8 then
      let v := regRead8 s a size8
      .next (cmdDone cmd .ok (v / 2 ^ 32) (v % 2 ^ 32) s)
    else .next (regMiss c s)
  | none => .next s

/-- QCTL_DB (05 R158). -/
def execQctlDb (slice : Nat) (v : Word) (w : RegWriter) (s : State) : Res := writeRow (unitAddr slice 0x60C) v.toNat w s

/-- QCTL_RACK (05 R158). -/
def execQctlRack (slice : Nat) (v : Word) (w : RegWriter) (s : State) : Res := writeRow (unitAddr slice 0x610) v.toNat w s

/-- QCTL with an OP (05 R159). -/
def qctlRow (slice op qidx : Nat) (noWait : Bool) (w : RegWriter) (s : State) : Res :=
  writeRow (unitAddr slice 0x600) (b2n noWait * 2 ^ 31 + op * 2 ^ 28 + qidx % 8192) w s

/-- QCTL ENABLE (R159). -/
def execEnable (slice qidx : Nat) (noWait : Bool) (w : RegWriter) (s : State) : Res := qctlRow slice 1 qidx noWait w s
/-- QCTL DISABLE (R159). -/
def execDisable (slice qidx : Nat) (w : RegWriter) (s : State) : Res := qctlRow slice 2 qidx false w s
/-- QCTL PIN (R159). -/
def execPin (slice qidx : Nat) (w : RegWriter) (s : State) : Res := qctlRow slice 3 qidx false w s
/-- QCTL UNPIN (R159). -/
def execUnpin (slice qidx : Nat) (w : RegWriter) (s : State) : Res := qctlRow slice 4 qidx false w s

/-- A row of a port's register; there is no port above 10. -/
def portRow (slice port off v : Nat) (w : RegWriter) (s : State) : Res :=
  if port ≤ 10 then writeRow (unitAddr slice (0x400 + port * 0x20 + off)) v w s else .next s

/-- PORT_CTL with EN = 1 (04 R118, R120). -/
def execPortEnable (slice port : Nat) (noWait : Bool) (w : RegWriter) (s : State) : Res := portRow slice port 0 (b2n noWait * 2 + 1) w s
/-- PORT_CTL with EN = 0 (04 R118). -/
def execPortDisable (slice port : Nat) (noWait : Bool) (w : RegWriter) (s : State) : Res := portRow slice port 0 (b2n noWait * 2) w s
/-- PORT_CTX (04 R115). -/
def execPortCtxWrite (slice port : Nat) (v : Word) (w : RegWriter) (s : State) : Res := portRow slice port 8 v.toNat w s

/-- SLEEVE_CFG (02 R52, R54). -/
def execSleeveCfgWrite (slice : Nat) (v : Word) (w : RegWriter) (s : State) : Res := writeRow (unitAddr slice 0x200) v.toNat w s

/-- BOOT_CTL (02 R35, R36): every boot-window access is served within its own step, so none admitted earlier is left to wait for. -/
def execBootCtlWrite (v : Word) (w : RegWriter) (s : State) : Res := writeRow (unitAddr 0x80 0x18) v.toNat w s

/-- A row of MCH_CTL that holds the OP of its row (11 R335); there are two movers of eight channels. -/
def chanRow (op slice mover ch v : Nat) (w : RegWriter) (s : State) : Res :=
  if mover < 2 ∧ ch < 8 ∧ bitsOf v 31 30 = op then writeRow (unitAddr slice (0xC00 + mover * 0x200 + ch * 0x40)) v w s else .next s

/-- MCH_CTL START (11 R337). -/
def execStart (slice mover ch : Nat) (v : Word) (w : RegWriter) (s : State) : Res := chanRow 1 slice mover ch v.toNat w s
/-- MCH_CTL STOP (11 R337, R358). -/
def execStop (slice mover ch : Nat) (v : Word) (w : RegWriter) (s : State) : Res := chanRow 2 slice mover ch v.toNat w s

/-- A row of PART_CTL that holds the OP of its row (13 R390); there are 32 partitions. -/
def partRow (op part v : Nat) (w : RegWriter) (s : State) : Res :=
  if part < 32 ∧ bitsOf v 31 28 = op then writeRow (unitAddr 0x80 (0x1000 + part * 0x20)) v w s else .next s

/-- PART_CTL CONFIGURE (R392). -/
def execConfigure (part : Nat) (v : Word) (w : RegWriter) (s : State) : Res := partRow 1 part v.toNat w s
/-- PART_CTL SEAL (R392). -/
def execSeal (part : Nat) (v : Word) (w : RegWriter) (s : State) : Res := partRow 2 part v.toNat w s
/-- PART_CTL DISSOLVE (R392, R393). -/
def execDissolve (part : Nat) (v : Word) (w : RegWriter) (s : State) : Res := partRow 3 part v.toNat w s
/-- PART_CTL SUSPEND (R397). -/
def execSuspend (part : Nat) (v : Word) (w : RegWriter) (s : State) : Res := partRow 4 part v.toNat w s
/-- PART_CTL ACTIVATE (R396, R400). -/
def execActivate (part : Nat) (v : Word) (w : RegWriter) (s : State) : Res := partRow 5 part v.toNat w s

/-- CU_BOOT (15 R451). -/
def execCuBootWrite (v : Word) (w : RegWriter) (s : State) : Res := writeRow (unitAddr 0x80 0x300) v.toNat w s

/-- PWR_CTL with an OP (15 R459). -/
def pwrRow (slice op : Nat) (noWait : Bool) (w : RegWriter) (s : State) : Res :=
  writeRow (unitAddr slice 0x1000) (op * 2 ^ 29 + b2n noWait * 2 ^ 28) w s

/-- PWR_CTL WAKE (R459). -/
def execWake (slice : Nat) (noWait : Bool) (w : RegWriter) (s : State) : Res := pwrRow slice 1 noWait w s
/-- PWR_CTL IDLE (R459). -/
def execIdle (slice : Nat) (noWait : Bool) (w : RegWriter) (s : State) : Res := pwrRow slice 2 noWait w s
/-- PWR_CTL RETAIN (R459). -/
def execRetain (slice : Nat) (noWait : Bool) (w : RegWriter) (s : State) : Res := pwrRow slice 3 noWait w s
/-- PWR_CTL OFF (R459). -/
def execOff (slice : Nat) (noWait : Bool) (w : RegWriter) (s : State) : Res := pwrRow slice 4 noWait w s

/-- DEV_PWR DEEP (R463). -/
def execDeep (w : RegWriter) (s : State) : Res := writeRow (unitAddr 0x80 0x320) (2 ^ 30) w s

/-! The management bus (15 R464, R465) -/

/-- The writer of a management transfer: the normal world; the error log has no name for it. -/
def i3cBy : RegBy := { origin := .none, slice := 0, src := 0, unit := 0, who := .nobody, ctx := 0, secure := false }

/-- The register of a management index (R464). -/
def mgmtRead (s : State) (ix : Nat) : Option Nat :=
  if ix = 0 then some (regGet s 0 (regNo 0x80 0x320))
  else if ix = 1 then some (devPwrStat s)
  else if ix = 2 then some (rstStat s)
  else if ix = 3 then some (svcStat s)
  else if ix = 4 then some (opStat s)
  else if 0x40 ≤ ix ∧ ix < 0x80 then some (pwrStat s (ix - 0x40))
  else if 0x80 ≤ ix ∧ ix < 0x84 then some (pwrStat s (unitSlice s (ix - 0x40)))
  else none

/-- A private write to the management address (R464): 5 bytes write a register, 1 byte selects one, whose value is what the
following read returns. Any other has no effect. -/
def mgmtWrite (bs : List Byte) (s : State) : State :=
  match bs with
  | [i] =>
    match mgmtRead s i.toNat with
    | some v => emit (.i3c (leBytes 4 v)) (modCtl (fun c => { c with i3cIndex := i.toNat }) s)
    | none => s
  | [i, b0, b1, b2, b3] =>
    let v := leNat [b0, b1, b2, b3]
    if i.toNat = 0 ∧ v % 2 ^ 30 = 0 then (devPwrWrite v i3cBy s).2 else s
  | _ => s

/-- MANAGEMENT_WRITE (R464, R465): in DEV_DEEP the header is NACKed and wakes the block. -/
def execManagementWrite (bytes : List Byte) (s : State) : Res :=
  if s.ctl.deep = 2 then .next (i3cWake s) else if s.ctl.vhvLow then .next s else .next (mgmtWrite bytes s)

/-- I3C_CCC (R464): ENTDAA, SETDASA, RSTDAA, GETPID, GETBCR, GETDCR and GETSTATUS by their MIPI codes; the broadcast address
never wakes the block (R465). -/
def execI3cCcc (code arg : Nat) (s : State) : Res :=
  if s.ctl.deep = 2 ∨ s.ctl.vhvLow then .next s
  else if (code = 0x07 ∨ code = 0x87) ∧ s.ctl.dynAddr.isNone then .next (modCtl (fun c => { c with dynAddr := some (arg % 128) }) s)
  else if code = 0x06 then .next (modCtl (fun c => { c with dynAddr := none }) s)
  else if code = 0x8D then .next (emit (.i3c (Config.i3cId 0)) s)
  else if code = 0x8E then .next (emit (.i3c (Config.i3cId 1)) s)
  else if code = 0x8F then .next (emit (.i3c (Config.i3cId 2)) s)
  else if code = 0x90 then .next (emit (.i3c [Config.freeByte s.freeCtr 0, Config.freeByte s.freeCtr 1]) (drawFree s))
  else .next s

end Sys2Proof.Machine
end

