-- ==== Sys2Proof/Machine/PortCmds.lean ====
section
/-! DEFINITION. Machine/PortCmds.lean: requests at a port (04 R81 to R93): READ, WRITE, ACC_WRITE, FLUSH, TSPILL and TFILL, from an
engine, through the mesh, or from a fabric port. -/
namespace Sys2Proof.Machine

/-- The request's address by its GTA bit: the local 40-bit address, or the whole one. -/
def Req.local (r : Req) : Nat := if r.h.gta then r.h.addr % 2 ^ 40 else r.h.addr

/-- Does a request come from another device (R85)? -/
def Req.foreign (s : State) (r : Req) : Bool := r.mesh && decide (extSrcdev r.ext ≠ devId s)

/-- The number PWR_LASTID gives to a request (15 R458). -/
def touchId (s : State) (r : Req) : Nat × Nat :=
  if r.mesh then (8, extStop r.ext + b2n (r.foreign s) * 64) else (6, r.port)

/-! Requests for another device (04 R89 step 3; 02 R26) -/

/-- The extension with which a home port's READ leaves: the slice's own device and stop, and the context and owner of PORT_CTX
(12 R367). -/
def homeExt (s : State) (r : Req) : Nat :=
  extOf (devId s) (stopNo (stopOf s r.slice)) (r.ctx s) ((ctxOf s (r.ctx s)).elim 0 Ctx.tenant) 0

/-- The partition that a context belongs to; 32 where there is no such context. -/
def partOfCtx (s : State) (c : Nat) : Nat := (ctxOf s c).elim 32 Ctx.part

/-- A request that names another device, by its kind and port (R89, the table after step 3). The table passes a home port's READ on before
step 5 asks for BOUND. DEDUCED (log entry 91): of a port with BOUND = 0 it leaves with PORT_CTX.CTX as stored, and TENANT 0 where no
such context exists. -/
def remoteReq (r : Req) (s : State) : State :=
  if !r.fmtOk ∨ r.foreign s then refuseReq r .decodeError 4 false s
  else if r.h.kind = 0 ∧ r.h.g then refuseG r .noContract s
  else if r.h.kind = 3 ∨ r.h.kind = 5 then refuseReq r .decodeError 4 false s
  else if r.h.kind = 4 ∧ r.mesh then refuseReq r .decodeError 4 false s
  else if r.h.kind ≠ 0 ∧ !r.mesh then refuseReq r .creditDenied 2 false s
  else if !fabOn s then refuseReq r .decodeError 4 false s
  else if r.mesh then passOut r r.ext.toNat (extCtx r.ext) (partOfCtx s (extCtx r.ext)) s
  else passOut r (homeExt s r) (r.ctx s) (partOfCtx s (r.ctx s)) s

/-! Regions without pockets (02 R31 to R34) -/

/-- The data a region access returns or stores: interleaving transforms apply to it as anywhere (R107). -/
def regionReply (r : Req) (bs : List Byte) (s : State) : State :=
  let out := readTransform r.h (bs.map fun b => (b, false))
  replyReq r .ok out.length out s

/-- The load area (R33), reached while REMAP is 0 by privileged requesters. -/
def loadArea (r : Req) (o : Nat) (s : State) : State :=
  let n := r.h.len + 1
  if !r.priv ∨ 0x40000 < o + n then refuseReq r .decodeError 4 true s
  else if r.h.g then refuseG r .noContract s
  else if r.h.kind = 0 then regionReply r (mgetList (fun _ => 0) s.mem.boot o n) s
  else
    let bs := writeTransform r.h (r.data.map (·.1))
    replyReq r .ok n [] { s with mem := { s.mem with boot := mputList (fun _ => 0) s.mem.boot o bs } }

/-- The pocket address that the boot window maps (R34). -/
def Req.remapped (r : Req) (o : Nat) : Req := { r with h := { r.h with addr := 0x2000000000 + o, gta := false } }

/-- A boot-window access through a mesh port (R33, R34): while REMAP is 1 its context is decided first (R89 step 4). -/
def bootWindow (r : Req) (s : State) : State :=
  let a := r.local; let o := a % 2 ^ 20
  let remap := regGet s 0 (regNo 0x80 0x18)
  let outside : Bool := decide (bitsOf a 35 20 ≠ 0 ∨ 2 ^ 20 < o + r.h.len + 1)
  if !bitOf remap 0 then (if outside then refuseReq r .decodeError 4 true s else loadArea r o s)
  else match ctxOf s (extCtx r.ext) with
    | none => refuseReq r (if extCtx r.ext = bitsOf remap 26 16 then .decodeError else .boundViolation)
        (if extCtx r.ext = bitsOf remap 26 16 then 4 else 3) false s
    | some x =>
      if x.tenant ≠ extTenant r.ext then refuseReq r .boundViolation 3 false s
      else if outside then refuseReq r .decodeError 4 true s
      else if extCtx r.ext ≠ bitsOf remap 26 16 ∨ x.part ≠ 0 ∨ !(x.pocket .a 0).valid then refuseReq r .decodeError 4 false s
      else acceptPocket (r.remapped o) (extCtx r.ext) .a 0 s

/-- The slice's weave table in force as its system region shows it (18 R526), `n` bytes from offset `o` of the area. -/
def weaveArea (s : State) (slice o n : Nat) : List Byte :=
  ((bytesOfWords (sliceOf s slice).weave ++ List.replicate 16384 0).drop o).take n

/-- The byte of a pocket descriptor that slice `k`'s system region shows at an offset (R37): of a context of the slice's partition. -/
def descByte (s : State) (k o : Nat) : Option Byte :=
  match Config.sysDesc o with
  | some (c, b) => match ctxOf s c with
    | some x => if partOfSlice s k = some x.part then
        some ((leBytes 8 (mget (fun _ => Pocket.zero) x.pockets (b / 8)).bits).getD (b % 8) 0) else none
    | none => none
  | none => none

/-- Bytes of a slice's system region (R31; 18 R526): the weave area shows the table in force, the pocket tables the descriptors; the bytes of
counters and locks are free values, since no rule lays them out (log entry 64). -/
def sysBytes (s : State) (k o n : Nat) : List Byte :=
  (List.range n).map fun i =>
    if 0x1A000 ≤ o + i ∧ o + i < 0x1E000 then (weaveArea s k (o + i - 0x1A000) 1).headD 0
    else if Config.sysSync (o + i) then Config.freeByte s.freeCtr (o + i)
    else (descByte s k (o + i)).getD ((sysRead s k (o + i) 1).headD 0)

/-- Does a write of the system region name a byte that only the block writes: of the weave in force (18 R526), of a pocket descriptor (R37),
or of a counter or lock (10 R306)? -/
def sysShut (s : State) (k o n : Nat) : Bool :=
  rangesMeet o n 0x1A000 0x4000 || (List.range n).any fun i => Config.sysSync (o + i) || (descByte s k (o + i)).isSome

/-- A system-region access (R31). -/
def sysRegion (r : Req) (s : State) : State :=
  let a := r.local; let k := bitsOf a 22 17; let o := bitsOf a 16 0; let n := r.h.len + 1
  if !r.priv ∨ bitsOf a 35 23 ≠ 0 ∨ 0x20000 < o + n then refuseReq r .decodeError 4 true s
  else if r.h.g then refuseG r .noContract s
  else if slcFailed s k then replyReq r .unitFailed 0 [] s
  else
    let id := touchId s r
    let (awake, s0) := if k = r.slice then (true, s) else touch k id.1 id.2 s
    if !awake then s0
    else if r.h.kind = 0 then drawFree (regionReply r (sysBytes s0 k o n) s0)
    else if sysShut s0 k o n then replyReq r .writeIgnored 0 [] (report .writeIgnored 1 r.slice r.port r.who (r.ctx s0) r.h.addr s0)
    else replyReq r .ok n [] (sysWrite k o (writeTransform r.h (r.data.map (·.1))) s0)

/-- Who writes a register through a mesh port: outstanding request `id`. -/
def reqBy (r : Req) (id : Nat) (s : State) : RegBy :=
  { origin := .op id, slice := r.slice, src := 1, unit := 10, who := r.who, ctx := r.ctx s, secure := r.secure }

/-- The PORT_ERR bit of a register write's status, if one has a bit (R117). -/
def regErr (n p : Nat) (st : Status) (s : State) : State :=
  if st = .decodeError ∨ st = .boundViolation ∨ st = .reservedNonzero then portErr n p (errBit st) s else s

/-- A register write through a mesh port: it is outstanding until the register has taken it (R89). -/
def regAccessWrite (r : Req) (s : State) : State :=
  let size8 := decide (r.h.len + 1 = 8)
  let v := leNat (writeTransform r.h (r.data.map (·.1)))
  let (id, s1) := freshId s
  let o := newOp s1 id r .reg [] [] false none false none 0 0
  let (st, s2) := regWrite (r.local) size8 v (reqBy r id s1) { s1 with ops := s1.ops ++ [o] }
  match st, opOf s2 id with
  | some x, some p => respond p x (if x = .ok then r.h.len + 1 else 0) [] [] (regErr r.slice r.port x s2)
  | _, _ => s2

/-- A register access through a mesh port (R32). -/
def regRegion (r : Req) (s : State) : State :=
  let size8 := decide (r.h.len + 1 = 8)
  if !r.priv ∨ (r.h.len + 1 ≠ 4 ∧ !size8) ∨ !regAddrOk s (r.local) size8 then refuseReq r .decodeError 4 true s
  else if r.h.g then refuseG r .noContract s
  else if r.h.kind = 1 then regAccessWrite r s
  else if regUnit (r.local) = 0x80 ∧ !r.secure ∧ (regOff (r.local) = 0x304 ∨ (size8 ∧ regOff (r.local) = 0x300)) then
    refuseReq r .decodeError 4 true s
  else regionReply r (leBytes (r.h.len + 1) (regRead8 s (r.local) size8)) (regReadEffect (r.local) s)

/-! Acceptance (R89) -/

/-- A request that its device decodes (02 R44 steps 4 to 6), with its region. -/
def localReq (r : Req) (s : State) : State :=
  let g := regionOf r.local
  let st := storeOf g
  let r1 := { r with h := { r.h with addr := if r.h.gta then r.h.addr else r.local } }
  match st with
  | some st =>
    if !r.mesh ∧ !portBound s r.slice r.port then refuseReq r .decodeError 4 false s
    else acceptPocket r1 (r.ctx s) st (pocketNoOf r.local) s
  | none =>
    if g ≠ 0 ∧ g ≠ 4 ∧ g ≠ 8 then refuseReq r .decodeError 4 false s
    else if !r.fmtOk then refuseReq r .decodeError 4 false s
    else if !r.mesh then refuseReq r .decodeError 4 true s
    else if g = 0 then bootWindow r s
    else if g = 4 then sysRegion r s
    else regRegion r s

/-- Steps 1 to 3 of R89. -/
def decodeReq (r : Req) (s : State) : State :=
  if r.h.rsvd ∨ (r.mesh ∧ r.h.kind ≠ 1 ∧ r.h.kind ≠ 2 ∧ extCred r.ext ≠ 0) then refuseReq r .reservedNonzero 5 false s
  else if !shapeOk s r.slice r.port r.ret.isSome r.h then refuseReq r .decodeError 4 false s
  else if r.h.gta ∧ !devIdValid s then refuseReq r .decodeError 4 false s
  else if r.h.gta ∧ bitsOf r.h.addr 61 46 ≠ devId s then remoteReq r s
  else localReq r s

/-- Requests of a port that came the same way (from its engines, or from the fabric ports) and are outstanding. -/
def sameWay (s : State) (r : Req) : List PortOp := (portOps s r.slice r.port).filter fun o => o.ret.isSome == r.ret.isSome

/-- A tag that is still outstanding (R88): the request is dropped and logged. -/
def dropTagDup (r : Req) (s : State) : State :=
  let e := mkEntry s .decodeError 1 r.slice r.port r.who (r.ctx s) r.h.addr
  logEvent { e with low := r.h.tag * 64 + e.low } (portErr r.slice r.port 6 s)

/-- An ENABLED port takes a request (R88, R89), and the crossbar passes on what its banks have room for. -/
def portTake (r : Req) (s : State) : State :=
  if r.ret.isNone ∧ !isPP1 s r.slice r.port ∧ ((sameWay s r).any fun o => o.tag == r.h.tag) then dropTagDup r s
  else if !r.ready s then s
  else admitBeats (decodeReq r s)

/-- Is a request a register access of the mesh port? Such an access reaches the control domain whatever the slice's power state
(15 R457, R459). -/
def Req.isReg (r : Req) : Bool := r.mesh && decide (regionOf r.local = 8)

/-- A request arrives at a port (R89, R118, R119; 15 R457; 14 R431). -/
def portArrive (r : Req) (s : State) : State :=
  match (portOf s r.slice r.port).state with
  | .disabled => replyReq r .decodeError 0 [] (portErr r.slice r.port 4 s)
  | .enabled =>
    if slcFailed s r.slice then replyReq r .unitFailed 0 [] s
    else if r.isReg then portTake r s
    else
      let id := touchId s r
      let (awake, s1) := touch r.slice id.1 id.2 s
      if awake then portTake r s1 else s1
  | _ => s

/-- The data bytes a request brings (R83, R110). -/
def dataLen (h : Hdr) : Nat :=
  if h.kind = 1 ∨ h.kind = 2 then h.len + 1 else if h.kind = 4 then 128 * (maskRows h.aux).length else 0

/-- A request of kind `kind` of an engine or a mesh requester at an active slice's port. A header of another kind belongs to
that kind's row; one of a reserved kind to any. -/
def portCmd (kind : Nat) (r : PortReq) (s : State) : State :=
  let q := reqOf s r
  if portsOpen s ∧ r.port ≤ 10 ∧ r.slice < 64 ∧ portWired s r.slice r.port ∧ (q.h.kind = kind ∨ 5 < q.h.kind) ∧ r.data.length = dataLen q.h then portArrive q s
  else s

/-- READ (R82, R86, R101). -/
def execRead (r : PortReq) (s : State) : Res := .next (portCmd 0 r s)
/-- WRITE (R82, R94 to R99). -/
def execWrite (r : PortReq) (s : State) : Res := .next (portCmd 1 r s)
/-- ACC_WRITE (R82, R98; 03 R66 to R68). -/
def execAccWrite (r : PortReq) (s : State) : Res := .next (portCmd 2 r s)
/-- FLUSH (R82, R103). -/
def execFlush (r : PortReq) (s : State) : Res := .next (portCmd 3 r s)
/-- TSPILL (R82, R110, R111). -/
def execTspill (r : PortReq) (s : State) : Res := .next (portCmd 4 r s)
/-- TFILL (R82, R110, R111). -/
def execTfill (r : PortReq) (s : State) : Res := .next (portCmd 5 r s)

end Sys2Proof.Machine
end

