-- ==== Sys2Proof/Machine/FabTarget.lean ====
section
/-! DEFINITION. Machine/FabTarget.lean: rack memory at its target: request frames, grants and their deferral, and counter signals
(12 R360 to R376, R384, R385). -/
namespace Sys2Proof.Machine

/-! Request frames (R364, R367, R382) -/

/-- The header of a request frame, from its words 1 to 4. -/
def frameHdr (f : Frame) : BitVec 128 :=
  BitVec.ofNat 128 (dwordAt f.words 1 + dwordAt f.words 3 * 2 ^ 64)

/-- Its extension, words 5 and 6. -/
def frameExt (f : Frame) : DWord := BitVec.ofNat 64 (dwordAt f.words 5)

/-- The stop of a fabric port (R359), which the integration fixes; a frame of the block's own device enters at its sender's stop k, as port
256 + k (log entry 35). -/
def portStop (s : State) (k : Nat) : Nat := if 256 ≤ k then k - 256 else mget (fun _ => 0) s.fstop k

/-- A request frame as the mesh port of slice `n` takes it: no privilege, non-posted, answered through the fabric (R363). -/
def frameReq (s : State) (f : Frame) (n : Nat) : Req :=
  let h := pp2Hdr (frameHdr f)
  { slice := n, port := 10, h := { h with np := true }, raw := frameHdr f, ext := frameExt f, data := f.data.zip f.poison, urg := 0,
    priv := false, secure := false, ret := some (extSrcdev (frameExt f), h.tag), via := portStop s f.port }

/-- An answer that the fabric port gives itself (R363, R364). -/
def portAnswer (f : Frame) (st : Status) (s : State) : State :=
  let r := frameReq s f 0
  emit (.frame f.port (responseWords (extSrcdev r.ext) r.h.tag st 0 false) [] []) s

/-- The error-log entry of a request frame whose context does not exist, so that no slice takes it (R367; 02 R45): it names logical slice 0
(log entry 105). -/
def frameLog (f : Frame) (s : State) : State :=
  let r := frameReq s f 0
  report .boundViolation 1 0 10 r.who (extCtx r.ext) r.h.addr s

/-- Deliver a request frame (R364): to the mesh port of TSLICE, or, a request that is not a write, to the first slice of the
context's partition, which resolves it. -/
def deliver (f : Frame) (s : State) : State :=
  let h := pp2Hdr (frameHdr f)
  if f.data.length ≠ dataLen h then s
  else if !frRes f then portArrive (frameReq s f (frSlice f)) s
  else if h.kind = 1 ∨ h.kind = 2 ∨ h.kind = 4 then portAnswer f .creditDenied s
  else match ctxOf s (extCtx (frameExt f)) with
    | some x => portArrive (frameReq s f (keeperSlice s x.part)) s
    | none => portAnswer f .boundViolation (frameLog f s)

/-- FABRIC_REQUEST_FRAME (R364 to R367, R382). -/
def execFabricRequestFrame (f : Frame) (s : State) : Res := .next (frameIn f 0 true (some (extSrcdev (frameExt f))) s (deliver f))

/-! Grants (R370, R371, R374, R375) -/

/-- The slices of a pocket's frame (02 R39). -/
def frameSlices (sp : Span) (p : Pocket) : List Nat := if p.spread then sp.slices else [p.home]

/-- An answer of the target to a request message, from the keeper of the partition. -/
def answerMsg (n : Nat) (q : CMsg) (ck : Nat) (st : Status) (handle arg0 arg1 : Nat) (data : List Byte) (s : State) : State :=
  let m : CMsg :=
    { CMsg.zero with
      ckind := ck, status := st.code, srcdev := q.srcdev, tenant := q.tenant, tctx := q.tctx, handle := handle, reqid := q.reqid
      arg0 := arg0, arg1 := arg1 }
  creditAnswer n q.srcdev m data s

/-- The grant record that a GRANT answer carries (R371), word 7 zero. -/
def grantWords (s : State) (m : CMsg) (sp : Span) (p : Pocket) (handle win expiry : Nat) : List Word :=
  let n (x : Nat) : Word := BitVec.ofNat 32 x
  [n handle, n (devId s * 65536 + m.tctx),
   n (m.tstore * 2 ^ 30 + m.tpocket * 2 ^ 26 + b2n p.spread * 2 ^ 25 + p.set * 2 ^ 22 + (if p.spread then sp.first else p.home) * 65536 +
     (if p.spread then sp.slog else 0) * 8192 + p.base),
   n p.bound, n (b2n m.rsv * 128 + win), n expiry, n (expiry / 2 ^ 32), 0]

/-- EXPIRY of a lifetime in ms from now; 0 for none (R371, R373). -/
def expiryOf (s : State) (life : Nat) : Nat := if life % 65536 = 0 then 0 else s.rc + life % 65536 * 100000

/-- The indices of a partition's grants (R370). -/
def usedIndices (s : State) (part : Nat) : List Nat := (s.fab.grants.filter fun g => g.part == part).map Grant.index

/-- Make a grant and answer it (R370, R371): which free index the handle takes is a free value. -/
def makeGrant (n : Nat) (m : CMsg) (x : Ctx) (st : Store) (p : Pocket) (win : Nat) (s : State) : State :=
  let sp := ctxSpan s x
  let index := 1 + unusedIn s.freeCtr 1023 ((usedIndices s x.part).map (· - 1))
  let handle := x.part * 1024 + index
  let expiry := expiryOf s m.arg0
  let g : Grant :=
    { part := x.part, index := index, srcdev := m.srcdev, tenant := m.tenant, tctx := m.tctx, store := st.code, pocket := m.tpocket,
      scope := frameSlices sp p, win := win, reserved := m.rsv, expiry := expiry, live := true, failed := false, landed := [], ends := [] }
  let s1 := drawFree { s with fab := { s.fab with grants := s.fab.grants ++ [g] } }
  answerMsg n m 9 .ok handle 0 0 (bytesOfWords (grantWords s m sp p handle win expiry) ++ List.replicate 32 0) s1

/-- Do `win` shared units stand free on every slice of a scope, and an index in the partition (R370, R374)? -/
def grantFits (s : State) (part win : Nat) (scope : List Nat) : Bool :=
  scope.all (fun n => decide (win ≤ sharedFree s n)) && decide ((usedIndices s part).length < 1023)

/-- The oldest deferred request of each source of a partition (R374). -/
def oldest (s : State) (part : Nat) : List Deferral :=
  (s.fab.deferred.filter fun d => d.part == part).foldl
    (fun l d => if l.any fun e => e.srcdev == d.srcdev && e.tenant == d.tenant then l else l ++ [d]) []

/-- Has a deferred request waited 100 µs (R374)? -/
def starved (s : State) (d : Deferral) : Bool := decide (d.since + 10000 ≤ s.rc)

/-- Defer a GRANT (R374): a notice of the entries ahead goes to the source; a full queue refuses. -/
def deferGrant (n : Nat) (m : CMsg) (x : Ctx) (s : State) : State :=
  let ahead := (s.fab.deferred.filter fun d => d.part == x.part).length
  if 1024 ≤ ahead then answerMsg n m 9 .creditDenied 0 0 0 [] s
  else
    let d : Deferral :=
      { part := x.part, srcdev := m.srcdev, tenant := m.tenant, tctx := m.tctx, store := m.tstore, pocket := m.tpocket, win := m.win
        life := m.arg0, reqid := m.reqid, tslice := n, since := s.rc }
    answerMsg n m 12 .creditDeferred 0 ahead 0 [] { s with fab := { s.fab with deferred := s.fab.deferred ++ [d] } }

/-- The mesh-port contract whose reserve a GRANT with RSV = 1 asks for (R375). -/
def rsvContract (s : State) (m : CMsg) (stop : Nat) (scope : List Nat) : Option Contract :=
  s.contracts.find? fun c => c.active && !c.unbinding && c.kind == 1 && decide (c.target % 16 = 10) && c.ctx == m.tctx &&
    c.srcstop == stop && scope.all (oSpan c.owner).has

/-- A GRANT that has passed the checks on its context and pocket (R374, R375). -/
def grantOn (n stop : Nat) (m : CMsg) (x : Ctx) (st : Store) (p : Pocket) (s : State) : State :=
  let scope := frameSlices (ctxSpan s x) p
  if m.rsv then
    match rsvContract s m stop scope with
    | some c =>
      let taken := s.fab.grants.any fun g => g.reserved && g.live && g.part == x.part && g.tctx == m.tctx && g.scope.any (oSpan c.owner).has
      if taken ∨ 1023 ≤ (usedIndices s x.part).length then answerMsg n m 9 .creditDenied 0 0 0 [] s
      else makeGrant n m x st p (ceilDiv c.qmax 256) s
    | none => answerMsg n m 9 .creditDenied 0 0 0 [] s
  else if m.win = 0 ∨ 64 < m.win then answerMsg n m 9 .decodeError 0 0 0 [] s
  else
    let own := s.fab.deferred.any fun d => d.part == x.part && d.srcdev == m.srcdev && d.tenant == m.tenant
    let blocked := (oldest s x.part).any (starved s)
    if !own ∧ !blocked ∧ grantFits s x.part m.win scope then makeGrant n m x st p m.win s
    else deferGrant n m x s

/-- A refusal at the target, logged where R45 asks for it (R367). -/
def refuseMsg (n : Nat) (m : CMsg) (ck : Nat) (st : Status) (s : State) : State :=
  answerMsg n m ck st 0 0 0 [] (report st 1 n 10 (.mesh n m.srcdev m.srcstop) m.tctx 0 s)

/-- The checks of a message on its context (R367, R384; 02 R44): TENANT is the owner of TCTX, and the context has not faulted. -/
def msgChecks (f : Frame) (m0 : CMsg) (ck : Nat) (s : State) (k : Nat → CMsg → Ctx → State → State) : State :=
  let m := { m0 with srcstop := portStop s f.port }
  match ctxOf s m.tctx with
  | none => refuseMsg 0 m ck .boundViolation s
  | some x =>
    let n := keeperSlice s x.part
    whenAwake (if slcFailed s n then [] else [n]) 8 (m.srcstop + 64) s fun t =>
      if x.tenant ≠ m.tenant then refuseMsg n m ck .boundViolation t
      else if x.state = .faulted ∨ slcFailed t n then answerMsg n m ck .unitFailed 0 0 0 [] t
      else k n m x t

/-- A GRANT message: the pocket is valid, resident and, for another device, REMOTE (02 R44 steps 7, 8 and 11). -/
def grantIn (f : Frame) (m0 : CMsg) (t : State) : State :=
  msgChecks f m0 9 t fun n m x u =>
    match storeOf m.tstore with
    | none => refuseMsg n m 9 .decodeError u
    | some st =>
      let p := x.pocket st m.tpocket
      if x.destroying ∨ x.state = .suspended ∨ !p.valid ∨ (m.srcdev ≠ devId u ∧ !p.remote) ∨ p.state ≠ .resident then
        refuseMsg n m 9 .boundViolation u
      else grantOn n m.srcstop m x st p u

/-- GRANT (R374, R375). -/
def execGrant (f : Frame) (s : State) : Res := .next (creditFrame f 1 true s (grantIn f))

/-- The grant that a handle names, live or ending. -/
def anyGrant (s : State) (handle : Nat) : Option Grant :=
  s.fab.grants.find? fun g => g.part == handle / 1024 % 32 && g.index == handle % 1024

/-- Is a message's sender the grant's holder (R370)? -/
def holds (g : Grant) (m : CMsg) : Bool := decide (g.srcdev = m.srcdev ∧ g.tenant = m.tenant ∧ g.tctx = m.tctx)

/-- A grant awaits one more answer at its end (R373). -/
def endWith (g : Grant) (ck : Nat) (m : CMsg) (s : State) : State :=
  let f (x : Grant) : Grant := { x with ends := x.ends ++ [(ck, m.srcdev, m.reqid, m.tenant)] }
  { s with fab := { s.fab with grants := updWhere (fun x => x.part == g.part && x.index == g.index) f s.fab.grants } }

/-- A RENEW message: EXPIRY becomes LIFE ms from now; while the grant is being released it completes with that release. -/
def renewIn (f : Frame) (m0 : CMsg) (t : State) : State :=
  msgChecks f m0 10 t fun n m _ u =>
    match anyGrant u m.handle with
    | some g =>
      if !holds g m ∨ (g.live ∧ grantExpired u g) ∨ (!g.live ∧ g.ends = []) then answerMsg n m 10 .creditDenied m.handle 0 0 [] u
      else if !g.live then endWith g 10 m u
      else
        let e := expiryOf u m.arg0
        let up (x : Grant) : Grant := { x with expiry := e }
        answerMsg n m 10 .ok m.handle (e % 2 ^ 32) (e / 2 ^ 32) []
          { u with fab := { u.fab with grants := updWhere (fun x => x.part == g.part && x.index == g.index) up u.fab.grants } }
    | none => answerMsg n m 10 .creditDenied m.handle 0 0 [] u

/-- RENEW (R373). -/
def execRenew (f : Frame) (s : State) : Res := .next (creditFrame f 2 true s (renewIn f))

/-- A RELEASE message: the grant ends at once; the answer goes when its landed bytes have committed on every slice. -/
def releaseIn (f : Frame) (m0 : CMsg) (t : State) : State :=
  msgChecks f m0 11 t fun n m _ u =>
    match anyGrant u m.handle with
    | some g =>
      if !holds g m ∨ (g.live ∧ grantExpired u g) ∨ (!g.live ∧ g.ends = []) then answerMsg n m 11 .creditDenied m.handle 0 0 [] u
      else endGrants (fun x => x.part == g.part && x.index == g.index) false (endWith g 11 m u)
    | none => answerMsg n m 11 .creditDenied m.handle 0 0 [] u

/-- RELEASE (R373). -/
def execRelease (f : Frame) (s : State) : Res := .next (creditFrame f 3 true s (releaseIn f))

/-- A withdrawal: the deferred GRANT that REQID names leaves the queue, without an answer. -/
def withdrawIn (m : CMsg) (t : State) : State :=
  { t with fab := { t.fab with deferred := t.fab.deferred.filter fun d =>
      !(d.srcdev == m.srcdev && d.tenant == m.tenant && d.tctx == m.tctx && d.reqid == m.reqid) } }

/-- WITHDRAW (R361, R374). -/
def execWithdraw (f : Frame) (s : State) : Res := .next (creditFrame f 4 true s withdrawIn)

/-- A source's key, by which the round robin goes (R374). -/
def Deferral.key (d : Deferral) : Nat := d.srcdev * 65536 + d.tenant

/-- The GRANT message of a deferred request. -/
def Deferral.msg (d : Deferral) : CMsg :=
  { CMsg.zero with
    ckind := 1, srcdev := d.srcdev, tenant := d.tenant, tctx := d.tctx, reqid := d.reqid, tstore := d.store, tpocket := d.pocket
    win := d.win, arg0 := d.life }

/-- The scope of a deferred request, under the descriptor its pocket has now. -/
def Deferral.place (s : State) (d : Deferral) : Option (Ctx × Store × Pocket) :=
  match ctxOf s d.tctx, storeOf d.store with
  | some x, some st => some (x, st, x.pocket st d.pocket)
  | _, _ => none

/-- Does a deferred request fit now? -/
def Deferral.fits (s : State) (d : Deferral) : Bool :=
  match d.place s with
  | some (x, _, p) => grantFits s d.part d.win (frameSlices (ctxSpan s x) p)
  | none => true

/-- The request that the round robin serves next (R374): a starved one only, where there is one; else the oldest of the next
source after the one served last whose request fits. -/
def nextServed (s : State) (part : Nat) : Option Deferral :=
  let l := oldest s part
  let all := if l.any (starved s) then l.filter (starved s) else l
  let ok := all.filter (Deferral.fits s)
  let last := mget (fun _ => 0) s.fab.served part
  let least (ds : List Deferral) : Option Deferral :=
    ds.foldl (fun b d => match b with
      | some e => if d.key < e.key then some d else b
      | none => some d) none
  match least (ok.filter fun d => decide (last ≤ d.key)) with
  | some d => some d
  | none => least ok

/-- Serve one deferred request: its context and pocket are checked again, and it is granted. -/
def serveDeferred (d : Deferral) (s : State) : State :=
  let n := keeperSlice s d.part
  let f (x : FabState) : FabState :=
    { x with deferred := x.deferred.filter (· != d), served := mput (fun _ => 0) x.served d.part (d.key + 1) }
  let s1 : State := { s with fab := f s.fab }
  match d.place s with
  | some (x, st, p) =>
    if x.state = .faulted then answerMsg n d.msg 9 .unitFailed 0 0 0 [] s1
    else if x.destroying ∨ !p.valid ∨ (d.srcdev ≠ devId s ∧ !p.remote) ∨ p.state ≠ .resident then refuseMsg n d.msg 9 .boundViolation s1
    else makeGrant n d.msg x st p d.win s1
  | none => answerMsg n d.msg 9 .boundViolation 0 0 0 [] s1

/-- DEFERRED_GRANT_SERVE (R374): units are free, and the first slice of the partition serves its next source. -/
def execDeferredGrantServe (part : Nat) (s : State) : Res :=
  match nextServed s part with
  | some d => .next (whenAwake [keeperSlice s part] 8 64 s (serveDeferred d))
  | none => .next s

/-- GRANT_EXPIRY (R373): at the REFCLK edge of EXPIRY a grant ends. -/
def execGrantExpiry (part index : Nat) (s : State) : Res :=
  match s.fab.grants.find? fun g => g.part == part && g.index == index && g.live && g.expiry != 0 with
  | some g => .next (endGrants (fun x => x.part == part && x.index == index) false (timeTo g.expiry s))
  | none => .next s

/-! Counter signals (R362; 10 R314, R315) -/

/-- The answer to a counter signal: the signal's words with ANS, STATUS and RESULT. -/
def signalAnswer (n : Nat) (f : Frame) (st : Status) (result : Nat) (s : State) : State :=
  let w (i : Nat) : Word := wordAt f.words (i + 1)
  let dev := fld (w 0) 15 0
  let ws : List Word := [BitVec.ofNat 32 (fld (w 0) 31 30 * 2 ^ 30 + 2 ^ 29 + st.code * 2 ^ 20 + dev), w 1, w 2, BitVec.ofNat 32 result, 0, 0]
  putFrame n dev 0 (Config.returnSlice dev (fld (w 2) 31 16)) 3 ws [] [] s

/-- A counter signal on its counter. LASTSIG names the sending queue of the device, which no field of the frame states: a free
value. -/
def signalIn (f : Frame) (x : Ctx) (n : Nat) (s : State) : State :=
  let w (i : Nat) : Word := wordAt f.words (i + 1)
  let dev := fld (w 0) 15 0; let c := fld (w 1) 15 5
  let who : Who := .mesh n dev (portStop s f.port)
  let refuse (t : State) : State := signalAnswer n f .boundViolation 0 (report .boundViolation 2 n 0 who c (fld (w 2) 15 0) t)
  match lookupObj x 0 (fld (w 2) 15 0) with
  | none => refuse s
  | some ph =>
    if x.state = .faulted ∨ slcFailed s (counterHome ph) then signalAnswer n f .unitFailed 0 s
    else if !(getCounter s ph).remote then refuse s
    else whenAwake [counterHome ph] 9 (ph % 4096) s fun t =>
      let src : SigSrc := { lastsig := lastsigRemote dev (Config.freeNat t.freeCtr 0 % 524288), who := who, src := 2, unit := 0 }
      let (st, r, t1) := signalCounter ph (sigOpOf (fld (w 0) 31 30)) (w 3).toNat src (drawFree t)
      signalAnswer (counterHome ph) f st r t1

/-- A counter signal: TENANT is the owner of TCTX, VID is mapped with REMOTE = 1, and the signal takes effect at the counter's home slice. -/
def signalCame (f : Frame) (t : State) : State :=
  let w (i : Nat) : Word := wordAt f.words (i + 1)
  match ctxOf t (fld (w 1) 15 5) with
  | none => signalAnswer 0 f .boundViolation 0 (report .boundViolation 2 0 0 (.mesh 0 (fld (w 0) 15 0) (portStop t f.port)) (fld (w 1) 15 5)
      (fld (w 2) 15 0) t)
  | some x =>
    let n := keeperSlice t x.part
    if x.tenant ≠ fld (w 1) 31 16 then
      signalAnswer n f .boundViolation 0 (report .boundViolation 2 n 0 (.mesh n (fld (w 0) 15 0) (portStop t f.port)) (fld (w 1) 15 5) (fld (w 2) 15 0) t)
    else signalIn f x n t

/-- COUNTER_SIGNAL_FRAME (R362; 10 R314). -/
def execCounterSignalFrame (f : Frame) (s : State) : Res :=
  let w (i : Nat) : Word := wordAt f.words (i + 1)
  let clean := zeroFields f [(1, 28, 28), (1, 19, 16), (2, 4, 0), (5, 31, 0), (6, 31, 0)]
  if flag (w 0) 29 then .next s
  else .next (frameIn f 3 clean (some (fld (w 0) 15 0)) s (signalCame f))

end Sys2Proof.Machine
end

