-- ==== Sys2Proof/Machine/Beats.lean ====
section
/-! DEFINITION. Machine/Beats.lean: one bank cycle of the whole block (03 R60), with what the block's own slices send each other as frames
(02 R26) and what waits for a bank's background slots (01 R23). -/
namespace Sys2Proof.Machine

/-! Frames that name the block's own device (02 R26; log entry 35) -/

/-- Does an output name the block's own device, so that the block decodes it itself? -/
def Out.isOwn (s : State) (o : Out) : Bool :=
  match o with
  | .frame _ ws _ _ => ownDev s (fld (wordAt ws 0) 31 16)
  | _ => false

/-- The home slice whose message a REQID names. -/
def reqidHome (s : State) (reqid : Nat) : Nat :=
  (s.fab.reqs.find? fun r => !r.kind.tagged && r.tag == reqid).elim 0 FabReq.home

/-- The stop that a frame of the block's own device enters at: its sender's. -/
def ownStop (s : State) (ws : List Word) : Nat :=
  let t := fld (wordAt ws 0) 8 6
  if t = 2 ∨ t = 3 then stopNo (stopOf s (reqidHome s (fld (wordAt ws 3) 15 0 )))
  else extStop (BitVec.ofNat 64 (dwordAt ws 5))

/-- The requests of the block to itself that a response's TAG may belong to. -/
def ownAnswered (s : State) (tag : Nat) : List FabReq :=
  s.fab.reqs.filter fun r => r.kind.tagged && r.sent && ownDev s r.dev && r.tag == tag

/-- A credit message of the block to itself (R361). -/
def ownMessage (f : Frame) (s : State) : State :=
  let m := cmsgOf f.words
  match m.ckind with
  | 1 => grantIn f m s
  | 2 => renewIn f m s
  | 3 => releaseIn f m s
  | 4 => withdrawIn m s
  | 9 => grantAnswer f m s
  | 10 => renewAnswer m s
  | 11 => releaseAnswer m s
  | 12 => deferredNotice m s
  | _ => s

/-- A frame of the block to itself takes effect as one that comes in by a fabric port does. -/
def ownDeliver (f : Frame) (s : State) : State :=
  match frType f with
  | 0 => deliver f s
  | 1 => match (ownAnswered s (fld (wordAt f.words 1) 31 26)).head? with
    | some r => takeAnswer f r s
    | none => s
  | 2 => ownMessage f s
  | 3 => if flag (wordAt f.words 1) 29 then signalAnswered f s else signalCame f s
  | _ => s

/-- The slices that a message or an answer of the block to itself must find awake. -/
def ownSlices (s : State) (f : Frame) : List Nat :=
  let m := cmsgOf f.words
  let home (k : FabKind) (id : Nat) : List Nat := ((messageOf s k id).map FabReq.home).toList
  let keeper (c : Nat) : List Nat := ((ctxOf s c).map fun x => keeperSlice s x.part).toList.filter fun n => !slcFailed s n
  match frType f with
  | 1 => ((ownAnswered s (fld (wordAt f.words 1) 31 26)).head?.map (answerSlices s)).getD []
  | 2 =>
    if m.ckind < 4 then keeper m.tctx
    else if m.ckind = 9 ∨ m.ckind = 12 then home .grant m.reqid
    else if m.ckind = 10 then home .renew m.reqid
    else if m.ckind = 11 then home .release m.reqid
    else []
  | 3 =>
    if flag (wordAt f.words 1) 29 then home .signal (fld (wordAt f.words 3) 31 16)
    else ((counterOf s (fld (wordAt f.words 2) 15 5) (fld (wordAt f.words 3) 15 0)).map counterHome).toList.filter fun n => !slcFailed s n
  | _ => []

/-- Has a frame of the block to itself been taken: a request is outstanding or answered, and what an answer or a message reaches is awake? -/
def ownTaken (f : Frame) (s t : State) : Bool :=
  if frType f = 0 then decide (t.nextId ≠ s.nextId ∨ t.outbox.length ≠ s.outbox.length)
  else (ownSlices s f).all fun n => slcRuns s n && !(sliceOf s n).cutOff

/-- One frame of the block to itself: it waits where it is not taken. -/
def ownOne (s : State) (o : Out) : State :=
  match o with
  | .frame _ ws data poison =>
    let f : Frame := { port := 256 + ownStop s ws, prot := true, words := ws, data := data, poison := poison }
    let s0 := { s with outbox := s.outbox.erase o }
    let t := ownDeliver f s0
    if ownTaken f s0 t then t else { t with outbox := s.outbox }
  | _ => s

/-- What the block's slices sent each other as frames, oldest first. -/
def ownFrames (s : State) : State := if portsOpen s then (s.outbox.reverse.filter (Out.isOwn s)).foldl ownOne s else s

/-- BANK_BEAT (03 R60): every bank of the device serves one bank cycle; the copies of automatic darns take its background slots (01 R23; 14
R433); the timers of busy slices start from it (15 R453); then the block's own frames of the cycles before arrive (02 R26). -/
def execBankBeat (s : State) : Res :=
  if s.bcRun then .next (ownFrames (bankCycle (railBlocks s) (fun _ _ q => bubbleStalls s q) (countBubble (darnSteps (restTimers s))))) else .next s

end Sys2Proof.Machine
end

