-- ==== Sys2Proof/Machine/Dispatch.lean ====
section
/-! DEFINITION. Machine/Dispatch.lean: the effect of every command, one arm per row of the opcode table. -/
namespace Sys2Proof.Machine

/-- The effect of one command or event on everything but the queue. -/
def exec (i : Instr) (s : State) : Host.Outcome State Fault Refusal :=
  match i with
  | .nop cmd => Sys2Proof.Machine.execNop cmd s
  | .slotFetch q => Sys2Proof.Machine.execSlotFetch q s
  | .link cmd => Sys2Proof.Machine.execLink cmd s
  | .queryCaps cmd => Sys2Proof.Machine.execQueryCaps cmd s
  | .fence cmd => Sys2Proof.Machine.execFence cmd s
  | .flushRange cmd => Sys2Proof.Machine.execFlushRange cmd s
  | .fill cmd => Sys2Proof.Machine.execFill cmd s
  | .copy cmd => Sys2Proof.Machine.execCopy cmd s
  | .convertCopy cmd => Sys2Proof.Machine.execConvertCopy cmd s
  | .gemv cmd => Sys2Proof.Machine.execGemv cmd s
  | .gatherPool cmd => Sys2Proof.Machine.execGatherPool cmd s
  | .gatherPoolFinish cmd => Sys2Proof.Machine.execGatherPoolFinish cmd s
  | .reduceAcc cmd => Sys2Proof.Machine.execReduceAcc cmd s
  | .signal cmd => Sys2Proof.Machine.execSignal cmd s
  | .wait cmd => Sys2Proof.Machine.execWait cmd s
  | .lockAcquire cmd => Sys2Proof.Machine.execLockAcquire cmd s
  | .lockRelease cmd => Sys2Proof.Machine.execLockRelease cmd s
  | .lockClearAbandoned cmd => Sys2Proof.Machine.execLockClearAbandoned cmd s
  | .pocketSet cmd => Sys2Proof.Machine.execPocketSet cmd s
  | .ctxCreate cmd => Sys2Proof.Machine.execCtxCreate cmd s
  | .ctxDestroy cmd => Sys2Proof.Machine.execCtxDestroy cmd s
  | .weaveInstall cmd => Sys2Proof.Machine.execWeaveInstall cmd s
  | .contractBind cmd => Sys2Proof.Machine.execContractBind cmd s
  | .powerHint cmd => Sys2Proof.Machine.execPowerHint cmd s
  | .capSet cmd => Sys2Proof.Machine.execCapSet cmd s
  | .freqLock cmd => Sys2Proof.Machine.execFreqLock cmd s
  | .freqLockAt => Sys2Proof.Machine.execFreqLockAt s
  | .telemetryRead cmd => Sys2Proof.Machine.execTelemetryRead cmd s
  | .meterRead cmd => Sys2Proof.Machine.execMeterRead cmd s
  | .creditRequest cmd => Sys2Proof.Machine.execCreditRequest cmd s
  | .remoteWrite cmd => Sys2Proof.Machine.execRemoteWrite cmd s
  | .remoteRead cmd => Sys2Proof.Machine.execRemoteRead cmd s
  | .scrubCtl cmd => Sys2Proof.Machine.execScrubCtl cmd s
  | .scrubAutoResume => Sys2Proof.Machine.execScrubAutoResume s
  | .eccTestWrite cmd => Sys2Proof.Machine.execEccTestWrite cmd s
  | .darn cmd => Sys2Proof.Machine.execDarn cmd s
  | .logRead cmd => Sys2Proof.Machine.execLogRead cmd s
  | .regWrite cmd => Sys2Proof.Machine.execRegWrite cmd s
  | .regRead cmd => Sys2Proof.Machine.execRegRead cmd s
  | .heldPacketAdmit cmd => Sys2Proof.Machine.execHeldPacketAdmit cmd s
  | .commandComplete cmd => Sys2Proof.Machine.execCommandComplete cmd s
  | .replyWriteAcknowledged cmd => Sys2Proof.Machine.execReplyWriteAcknowledged cmd s
  | .irqGapExpiry q => Sys2Proof.Machine.execIrqGapExpiry q s
  | .doorbell path ctx payload => Sys2Proof.Machine.execDoorbell path ctx payload s
  | .replyAck path ctx payload => Sys2Proof.Machine.execReplyAck path ctx payload s
  | .counterAdd path ctx payload => Sys2Proof.Machine.execCounterAdd path ctx payload s
  | .doorbellService q => Sys2Proof.Machine.execDoorbellService q s
  | .descriptorFetchDone q => Sys2Proof.Machine.execDescriptorFetchDone q s
  | .qctlDb slice v w => Sys2Proof.Machine.execQctlDb slice v w s
  | .qctlRack slice v w => Sys2Proof.Machine.execQctlRack slice v w s
  | .enable slice qidx noWait w => Sys2Proof.Machine.execEnable slice qidx noWait w s
  | .disable slice qidx w => Sys2Proof.Machine.execDisable slice qidx w s
  | .queueDisableDone q => Sys2Proof.Machine.execQueueDisableDone q s
  | .pin slice qidx w => Sys2Proof.Machine.execPin slice qidx w s
  | .unpin slice qidx w => Sys2Proof.Machine.execUnpin slice qidx w s
  | .read r => Sys2Proof.Machine.execRead r s
  | .write r => Sys2Proof.Machine.execWrite r s
  | .accWrite r => Sys2Proof.Machine.execAccWrite r s
  | .flush r => Sys2Proof.Machine.execFlush r s
  | .tspill r => Sys2Proof.Machine.execTspill r s
  | .tfill r => Sys2Proof.Machine.execTfill r s
  | .burstTimeout r => Sys2Proof.Machine.execBurstTimeout r s
  | .priorityRaise op => Sys2Proof.Machine.execPriorityRaise op s
  | .wbAgeExpiry entry => Sys2Proof.Machine.execWbAgeExpiry entry s
  | .reuseExpiry slice port ctx base => Sys2Proof.Machine.execReuseExpiry slice port ctx base s
  | .bankBeat => Sys2Proof.Machine.execBankBeat s
  | .wbEntryCommit entry => Sys2Proof.Machine.execWbEntryCommit entry s
  | .portEnable slice port noWait w => Sys2Proof.Machine.execPortEnable slice port noWait w s
  | .portDisable slice port noWait w => Sys2Proof.Machine.execPortDisable slice port noWait w s
  | .portDrainDone slice port => Sys2Proof.Machine.execPortDrainDone slice port s
  | .portClearDone slice port => Sys2Proof.Machine.execPortClearDone slice port s
  | .portCtxWrite slice port v w => Sys2Proof.Machine.execPortCtxWrite slice port v w s
  | .sleeveCfgWrite slice v w => Sys2Proof.Machine.execSleeveCfgWrite slice v w s
  | .bootCtlWrite v w => Sys2Proof.Machine.execBootCtlWrite v w s
  | .registerWrite addr size8 v w => Sys2Proof.Machine.execRegisterWrite addr size8 v w s
  | .frameBoundary slice => Sys2Proof.Machine.execFrameBoundary slice s
  | .regulatorInterval slice oqLevel => Sys2Proof.Machine.execRegulatorInterval slice oqLevel s
  | .clearDone id => Sys2Proof.Machine.execClearDone id s
  | .nmuFaultRetry slice tier tile => Sys2Proof.Machine.execNmuFaultRetry slice tier tile s
  | .waitTimeout waiter => Sys2Proof.Machine.execWaitTimeout waiter s
  | .contextWatchdog waiter => Sys2Proof.Machine.execContextWatchdog waiter s
  | .map v w => Sys2Proof.Machine.execMap v w s
  | .unmap v w => Sys2Proof.Machine.execUnmap v w s
  | .dbgSelWrite v w => Sys2Proof.Machine.execDbgSelWrite v w s
  | .resetNotify ctx hid => Sys2Proof.Machine.execResetNotify ctx hid s
  | .start slice mover ch v w => Sys2Proof.Machine.execStart slice mover ch v w s
  | .stop slice mover ch v w => Sys2Proof.Machine.execStop slice mover ch v w s
  | .moverStopDone slice mover ch => Sys2Proof.Machine.execMoverStopDone slice mover ch s
  | .move slice mover ch => Sys2Proof.Machine.execMove slice mover ch s
  | .spill slice mover ch => Sys2Proof.Machine.execSpill slice mover ch s
  | .moverFill slice mover ch => Sys2Proof.Machine.execMoverFill slice mover ch s
  | .loop slice mover ch => Sys2Proof.Machine.execLoop slice mover ch s
  | .moverWait slice mover ch => Sys2Proof.Machine.execMoverWait slice mover ch s
  | .moverSignal slice mover ch => Sys2Proof.Machine.execMoverSignal slice mover ch s
  | .moverEnd slice mover ch => Sys2Proof.Machine.execMoverEnd slice mover ch s
  | .pieceRetire slice mover ch => Sys2Proof.Machine.execPieceRetire slice mover ch s
  | .stagingAgeExpiry slice mover entry => Sys2Proof.Machine.execStagingAgeExpiry slice mover entry s
  | .moverHalt slice mover ch => Sys2Proof.Machine.execMoverHalt slice mover ch s
  | .fabricRequestFrame f => Sys2Proof.Machine.execFabricRequestFrame f s
  | .fabricResponseFrame f => Sys2Proof.Machine.execFabricResponseFrame f s
  | .grant f => Sys2Proof.Machine.execGrant f s
  | .renew f => Sys2Proof.Machine.execRenew f s
  | .release f => Sys2Proof.Machine.execRelease f s
  | .withdraw f => Sys2Proof.Machine.execWithdraw f s
  | .grantAnswer f => Sys2Proof.Machine.execGrantAnswer f s
  | .renewAnswer f => Sys2Proof.Machine.execRenewAnswer f s
  | .releaseAnswer f => Sys2Proof.Machine.execReleaseAnswer f s
  | .deferredNotice f => Sys2Proof.Machine.execDeferredNotice f s
  | .counterSignalFrame f => Sys2Proof.Machine.execCounterSignalFrame f s
  | .counterSignalAnswer f => Sys2Proof.Machine.execCounterSignalAnswer f s
  | .deferredGrantServe part => Sys2Proof.Machine.execDeferredGrantServe part s
  | .grantExpiry part index => Sys2Proof.Machine.execGrantExpiry part index s
  | .fabricTimeout reqid => Sys2Proof.Machine.execFabricTimeout reqid s
  | .configure part v w => Sys2Proof.Machine.execConfigure part v w s
  | .seal part v w => Sys2Proof.Machine.execSeal part v w s
  | .dissolve part v w => Sys2Proof.Machine.execDissolve part v w s
  | .dissolveDone part => Sys2Proof.Machine.execDissolveDone part s
  | .suspend part v w => Sys2Proof.Machine.execSuspend part v w s
  | .suspendDone part => Sys2Proof.Machine.execSuspendDone part s
  | .activate part v w => Sys2Proof.Machine.execActivate part v w s
  | .activateDone part => Sys2Proof.Machine.execActivateDone part s
  | .keyLoad slot tenant key => Sys2Proof.Machine.execKeyLoad slot tenant key s
  | .keyErase slot => Sys2Proof.Machine.execKeyErase slot s
  | .measurementRequest kind arg nonce => Sys2Proof.Machine.execMeasurementRequest kind arg nonce s
  | .tdispStateReport tdi state => Sys2Proof.Machine.execTdispStateReport tdi state s
  | .cuBootWrite v w => Sys2Proof.Machine.execCuBootWrite v w s
  | .microcodeAnswer allow => Sys2Proof.Machine.execMicrocodeAnswer allow s
  | .powerOnReset => Sys2Proof.Machine.execPowerOnReset s
  | .blockReset cause => Sys2Proof.Machine.execBlockReset cause s
  | .startupRelease => Sys2Proof.Machine.execStartupRelease s
  | .vhvBrownout => Sys2Proof.Machine.execVhvBrownout s
  | .pllUnlock => Sys2Proof.Machine.execPllUnlock s
  | .pllRelockTimeout => Sys2Proof.Machine.execPllRelockTimeout s
  | .opChangeDone => Sys2Proof.Machine.execOpChangeDone s
  | .wake slice noWait w => Sys2Proof.Machine.execWake slice noWait w s
  | .idle slice noWait w => Sys2Proof.Machine.execIdle slice noWait w s
  | .retain slice noWait w => Sys2Proof.Machine.execRetain slice noWait w s
  | .off slice noWait w => Sys2Proof.Machine.execOff slice noWait w s
  | .idleTimerExpiry slice => Sys2Proof.Machine.execIdleTimerExpiry slice s
  | .retentionTimerExpiry slice => Sys2Proof.Machine.execRetentionTimerExpiry slice s
  | .prepareDone slice => Sys2Proof.Machine.execPrepareDone slice s
  | .entryComplete slice => Sys2Proof.Machine.execEntryComplete slice s
  | .wakeDone slice => Sys2Proof.Machine.execWakeDone slice s
  | .maPend slice => Sys2Proof.Machine.execMaPend slice s
  | .deep w => Sys2Proof.Machine.execDeep w s
  | .wakeN => Sys2Proof.Machine.execWakeN s
  | .i3cWake => Sys2Proof.Machine.execI3cWake s
  | .deepExitDone => Sys2Proof.Machine.execDeepExitDone s
  | .managementWrite bytes => Sys2Proof.Machine.execManagementWrite bytes s
  | .i3cCcc code arg => Sys2Proof.Machine.execI3cCcc code arg s
  | .estimateWindow counts temps currents charges => Sys2Proof.Machine.execEstimateWindow counts temps currents charges s
  | .thermalTripTimeout => Sys2Proof.Machine.execThermalTripTimeout s
  | .ivrPhaseFault slice => Sys2Proof.Machine.execIvrPhaseFault slice s
  | .sliceFail slice cause => Sys2Proof.Machine.execSliceFail slice cause s
  | .heartbeatTimeout slice => Sys2Proof.Machine.execHeartbeatTimeout slice s
  | .sliceCut slice => Sys2Proof.Machine.execSliceCut slice s
  | .sliceSupplyReturn slice => Sys2Proof.Machine.execSliceSupplyReturn slice s
  | .patrolScrub bank line beat => Sys2Proof.Machine.execPatrolScrub bank line beat s
  | .poisonTagWrite key => Sys2Proof.Machine.execPoisonTagWrite key s
  | .seamCalibration slice tier weak => Sys2Proof.Machine.execSeamCalibration slice tier weak s
  | .seamParityError slice tier lane up id => Sys2Proof.Machine.execSeamParityError slice tier lane up id s
  | .logRecord => Sys2Proof.Machine.execLogRecord s
  | .meterSample energies => Sys2Proof.Machine.execMeterSample energies s
  | .meterAllocation => Sys2Proof.Machine.execMeterAllocation s
  | .meterSelfCheck deviating => Sys2Proof.Machine.execMeterSelfCheck deviating s
  | .meterGapStart => Sys2Proof.Machine.execMeterGapStart s
  | .meterGapEnd => Sys2Proof.Machine.execMeterGapEnd s
  | .mtrCfg v => Sys2Proof.Machine.execMtrCfg v s
  | .mtrLabel v => Sys2Proof.Machine.execMtrLabel v s
  | .mtrSeal v => Sys2Proof.Machine.execMtrSeal v s
  | .meterRecordRequest bytes => Sys2Proof.Machine.execMeterRecordRequest bytes s
  | .meterRecordReady => Sys2Proof.Machine.execMeterRecordReady s
  | .wsBypass => Sys2Proof.Machine.execWsBypass s
  | .wsStatus => Sys2Proof.Machine.execWsStatus s
  | .wsExtest => Sys2Proof.Machine.execWsExtest s
  | .wsIntest => Sys2Proof.Machine.execWsIntest s
  | .mbistRun failing => Sys2Proof.Machine.execMbistRun failing s
  | .seamTest failing => Sys2Proof.Machine.execSeamTest failing s
  | .fuseProg bits => Sys2Proof.Machine.execFuseProg bits s
  | .pllRelock => Sys2Proof.Machine.execPllRelock s
  | .descriptorWriteBackDone q ok => Sys2Proof.Machine.execDescriptorWriteBackDone q ok s
  | .hostWindowWrite fn ctx offset size v => Sys2Proof.Machine.execHostWindowWrite fn ctx offset size v s

end Sys2Proof.Machine
end

