-- ==== Sys2Proof/Safety.lean ====
section
/-! DEFINITION. Safety.lean: the terms in which claims are stated: what an event completes with, the form that the block's tables keep,
and what a command's record looks like once its effects are complete (05 R141, R142, R147). -/
namespace Sys2Proof.Machine

/-- The numbered tables of the block are in order: their keys rise strictly (log entry 33). -/
def State.tablesRise (s : State) : Bool :=
  keysRise 0 s.regs && keysRise 0 s.w1done && keysRise 0 s.log.queues && keysRise 0 s.log.counters && keysRise 0 s.integ &&
  keysRise 0 s.ctxs && keysRise 0 s.parts && keysRise 0 s.slices && keysRise 0 s.queues && keysRise 0 s.qctl && keysRise 0 s.dbPend &&
  keysRise 0 s.qEnabled && keysRise 0 s.dbDrop && keysRise 0 s.hwin && keysRise 0 s.ports && keysRise 0 s.sync.counters &&
  keysRise 0 s.sync.locks && keysRise 0 s.movers.chans && keysRise 0 s.movers.stage && keysRise 0 s.ctl.pwr && keysRise 0 s.keys &&
  keysRise 0 s.tdi && keysRise 0 s.ready && keysRise 0 s.qirq && keysRise 0 s.outerCut && keysRise 0 s.outerUsed

/-- The invariant of every run: tables in order, memories in canonical form (log entry 33). -/
def State.wf (s : State) : Bool := s.tablesRise && Memory.wf s.mem

/-- An event answers a next state with a property. -/
def Completes (i : Instr) (s : State) (P : State → Prop) : Prop := ∃ t, exec i s = .next t ∧ P t

/-- The status that a completing command replies with (R147): what it found during execution joined to what it had, OK_DELAYED
after a wait that gives it, GUARANTEE_SUSPENDED where its contract was suspended. -/
def Cmd.final (c : Cmd) (st : Status) : Status :=
  let a := c.status.join st
  let b := if c.delayed then a.join .okDelayed else a
  if c.suspended then b.join .guaranteeSuspended else b

/-- A command's record once its effects are complete (R142). -/
def Cmd.completed (c : Cmd) (st : Status) (count result : Nat) : Cmd :=
  { c with phase := .done, status := c.final st, count := count, result := result }

/-- A command's record once it is refused before any effect (R137). -/
def Cmd.refused (c : Cmd) (st : Status) (result : Nat) : Cmd := { c with phase := .done, status := st, count := 0, result := result }

/-- A context without what is only counted of it: its telemetry counters (06 R197) and attributed energy (17 R501). -/
def Ctx.core (x : Ctx) : Ctx := { x with tele := [], energy := 0 }

/-- Only the records of command `id` changed among the commands: each became `f` of what it was. -/
def CmdBecomes (id : Nat) (f : Cmd → Cmd) (s t : State) : Prop := t.cmds = s.cmds.map fun c => if c.id = id then f c else c

/-- Logical slices that serve events: in RUN, supplied, and not failed without a spare (13 R411, 14 R431, 15 R452). -/
def Serves (s : State) (ns : List Nat) : Prop :=
  ∀ n ∈ ns, slcRuns s n = true ∧ (sliceOf s n).cutOff = false ∧ slcFailed s n = false

/-- What the stores hold at one byte: its data, the check bits' difference, and the tag of its unit (14 R412 to R418). -/
def storedAt (s : State) (k : Nat) : Byte × Byte × Bool :=
  (mget (fun _ => 0) s.mem.data k, mget (fun _ => 0) s.mem.chk k, mget (fun _ => false) s.mem.tag (unitKey k))

/-- A byte of the stores reads as written: its data, check bits of its unit that match, and the tag of its unit. -/
def HoldsByte (s : State) (k : Nat) (b : Byte) (tag : Bool) : Prop :=
  mget (fun _ => 0) s.mem.data k = b ∧ (∀ i < (if isW k then 4 else 1), mget (fun _ => 0) s.mem.chk (unitKey k + i) = 0) ∧
    mget (fun _ => false) s.mem.tag (unitKey k) = tag

/-- The stores hold what they held, outside the units of these bytes. -/
def StoresKept (ks : List Nat) (s t : State) : Prop := ∀ k, unitKey k ∉ unitsOf ks → storedAt t k = storedAt s k

/-- One event was reported, as 06 R204 gives its fields, and nothing else was logged. -/
def Logged (st : Status) (src lslice unit : Nat) (who : Who) (ctx addr : Nat) (s t : State) : Prop :=
  t.log = (report st src lslice unit who ctx addr s).log

/-- The contexts are what they were, but for what is only counted of them. -/
def CtxsKept (s t : State) : Prop := ∀ c, (ctxOf t c).map Ctx.core = (ctxOf s c).map Ctx.core

/-- The mesh port of the writer's slice takes register writes: the ports are released and it is ENABLED (04 R118, R119, 15 R450). -/
def MeshOpen (w : RegWriter) (s : State) : Prop := portsOpen s = true ∧ (portOf s w.slice 10).state = .enabled

/-- A register write through the mesh port ends at once with this status: its response is the next output. -/
def Responds (a : Nat) (st : Status) (s t : State) : Prop := t.outbox = .regDone a st :: s.outbox

/-- The bit of a port's PORT_ERR is set (04 R117), and no other register changes. -/
def PortErrSet (n p bit : Nat) (s t : State) : Prop :=
  t.regs = (portErr n p bit s).regs ∧ regGet t 0 (portReg n p 0x10) = regGet s 0 (portReg n p 0x10) ||| 2 ^ bit

/-! Moving data and computing (06, 07) -/

/-- Of the slices only what is counted changed: corrections towards marks, the marks due, and saturated accumulations (14 R420, 03 R68). -/
def SlicesCounted (s t : State) : Prop :=
  ∀ n, sliceOf t n = { sliceOf s n with corr := (sliceOf t n).corr, pendMarks := (sliceOf t n).pendMarks, accSat := (sliceOf t n).accSat }

/-- Only what moving data may change differs, but for the slices: the stores' and external bytes, what reads report and count, the
commands, the backlog of their contracts, and the slices' idle timers. -/
def DataFrame (s t : State) : Prop :=
  CtxsKept s t ∧ t = { s with
    mem := { s.mem with data := t.mem.data, chk := t.mem.chk, tag := t.mem.tag, owed := t.mem.owed, ext := t.mem.ext, extPoison := t.mem.extPoison }
    freeCtr := t.freeCtr, log := t.log, integ := t.integ, ctxs := t.ctxs, slices := t.slices, cmds := t.cmds, contracts := t.contracts
    ctl := { s.ctl with pwr := t.ctl.pwr } }

/-- Only what moving data may change differs. -/
def OnlyData (s t : State) : Prop := SlicesCounted s t ∧ DataFrame s t

/-- Only what a GEMV may change differs: that, and the slices' activation buffers, accumulator files and shadow copies (07 R208, R227). -/
def OnlyGemv (s t : State) : Prop :=
  DataFrame s t ∧ ∀ n, sliceOf t n =
    { sliceOf s n with corr := (sliceOf t n).corr, pendMarks := (sliceOf t n).pendMarks, accSat := (sliceOf t n).accSat
                       nmuAcc := (sliceOf t n).nmuAcc, nmuShadow := (sliceOf t n).nmuShadow, sab := (sliceOf t n).sab }

/-- The dot product of a row's weights and a column's activations: each block of 32 is summed exactly and rounded, and the blocks are added in
order, each sum rounded (07 R217, R218). -/
def gemvDot (w x : List (List Fp)) : Fp :=
  (w.zip x).foldl (fun acc (wb, xb) =>
    let ps := List.zipWith fpMul wb xb
    round32 (fpAdd acc (round32 ((ps.drop 1).foldl fpAdd (ps.headD (.fin false 0 0)))))) (.fin false 0 0)

/-- External memory holds what it held, outside the 64 B ranges of these bytes (13 R403). -/
def ExtKept (a n : Nat) (s t : State) : Prop :=
  ∀ b, (n = 0 ∨ b / 64 < a / 64 ∨ (a + n - 1) / 64 < b / 64) → extRead t b 1 = extRead s b 1

/-- Memory holds what it held, outside an operand's range. -/
def RngKept (x : Ctx) (r : Rng) (s t : State) : Prop :=
  if r.ext then StoresKept [] s t ∧ ExtKept (x.extBase + (r.segs.headD (0, 0)).1) (r.segs.headD (0, 0)).2 s t
  else StoresKept (r.keys s x) s t ∧ t.mem.ext = s.mem.ext ∧ t.mem.extPoison = s.mem.extPoison

/-- The slices that a data command touches. -/
def dataSlices (s : State) (c : Cmd) (x : Ctx) (more : List Nat) : List Nat := ((cmdRanges c).flatMap (Rng.slices s x) ++ more).eraseDups

/-- A data command's context exists and its tenant is not suspended, and the slices it touches serve. -/
def DataServed (s : State) (c : Cmd) (x : Ctx) (more : List Nat) : Prop :=
  ctxOf s c.ctx = some x ∧ (qPriv c.queue = true ∨ ctxActive s c.ctx = true) ∧ Serves s (dataSlices s c x more)

/-- The same of one whose bytes have moved in their slots (08 R249), and whose reads meet no held range-scoreboard entry (04 R104). -/
def DataReady (s : State) (c : Cmd) (x : Ctx) (more : List Nat) : Prop :=
  DataServed s c x more ∧ unitWaits s c.ctx (unitReads s c x) = false ∧ worksLeft s c.id = false

/-- The state on which it acts: its slices' idle timers have restarted (15 R457). -/
def dataWoken (s : State) (c : Cmd) (x : Ctx) (more : List Nat) : State := (touchAll (dataSlices s c x more) 7 c.queue s).2

/-- The rows that a GEMV computes, in its order: weight pocket, stream, row of the stream, matrix row (07 R218). -/
def gemvRows (s : State) (x : Ctx) (g : GemvP) : List (Pocket × Nat × Nat × Nat) :=
  (g.pockets x).zipIdx.flatMap fun (p, pi) => (List.range (2 ^ g.slog s x)).flatMap fun i => (g.rowsOf (g.slog s x) pi i).map fun (j, r) => (p, i, j, r)

/-- The bytes that a GEMV's results may fall on. -/
def gemvWrites (s : State) (x : Ctx) (g : GemvP) (yr : Rng) : List Nat :=
  (gemvRows s x g).flatMap fun (_, _, _, r) => (List.range g.ncol).flatMap fun col =>
    let ks := pocketKeys (ctxSpan s x) yr.st (yr.pocket x) (offsetOf g.y + col * g.ystride + 4 * r) 4
    if yr.acc then (List.range 4).map (ks.headD 0 + ·) else ks

/-- The bytes that the partial sums and counts of a pool fall on (07 R234, R235). -/
def poolWrites (s : State) (x : Ctx) (g : PoolP) (d : PoolDst) : List Nat :=
  (List.range g.nbags).flatMap fun b =>
    ((List.range g.elems).map (fun i => d.sumOff b + 4 * i) ++ d.cntOff.toList.map fun f => f b).flatMap fun o =>
      (List.range 4).map ((locate (ctxSpan s x) d.rng.st (d.rng.pocket x) o).key + ·)

/-- The bytes of element `i` of a reduction's destination, and the bytes that an accumulation of it writes (07 R242). -/
def reduceKeys (s : State) (x : Ctx) (c : Cmd) (dr : Rng) (i : Nat) : List Nat :=
  pocketKeys (ctxSpan s x) dr.st (dr.pocket x) ((dr.segs.headD (0, 0)).1 + i * redBytes c) (redBytes c)
def reduceWrites (s : State) (x : Ctx) (c : Cmd) (dr : Rng) : List Nat :=
  (List.range (c.w 3)).flatMap fun i => reduceKeys s x c dr i ++ (List.range (accSize (redOp c))).map ((reduceKeys s x c dr i).headD 0 + ·)

/-! The weave (08) -/

/-- The weave table at an address of external memory (R254): its eight header words, and the owner words and slot entries that NENT counts,
where NENT is one that a table can have. -/
def tableAt (s : State) (a : Nat) : List Word :=
  let bytes (b n : Nat) : List Byte := (extRead s (bitsOf b 51 0) n).map (·.1)
  let head := wordsOfBytes 8 (bytes a 32)
  let rest := bytes (a + 32) (4 * (64 + 2 * wNent head))
  if 2012 < wNent head then head else head ++ wordsOfBytes (rest.length / 4) rest

/-- External memory answers the reads of that table with OK and no poison. -/
def tableReads (s : State) (a : Nat) : Prop :=
  let fine (b n : Nat) : Prop := (extRead s (bitsOf b 51 0) n).any (·.2) = false ∧ extStatus s (bitsOf b 51 0) n = .ok
  fine a 32 ∧ (wNent (wordsOfBytes 8 ((extRead s (bitsOf a 51 0) 32).map (·.1))) ≤ 2012 →
    fine (a + 32) (4 * (64 + 2 * wNent (wordsOfBytes 8 ((extRead s (bitsOf a 51 0) 32).map (·.1))))))

/-! Destinations of data (05 R123) -/

/-- A destination of `n` bytes passes its checks, and the slices it lies on serve. -/
def DestReady (s : State) (c : Cmd) (a align n : Nat) : Prop := destCheck s c a align n = .ok ∧ Serves s (cmdAddrSlices s c.ctx a n)

/-- The write of a destination: its status, and the state it leaves. -/
def destWrite (s : State) (c : Cmd) (a : Nat) (bs : List Byte) : Status × State :=
  cmdWrite (.queue c.queue) c.ctx a bs (touchAll (cmdAddrSlices s c.ctx a bs.length) 7 c.queue s).2

/-- Memory after that write; external memory then reads as written, and the 64 B ranges that it covers whole are without poison (18 R511). -/
def DestWritten (s : State) (c : Cmd) (a : Nat) (bs : List Byte) (t : State) : Prop :=
  t.mem = (destWrite s c a bs).2.mem ∧
  (bitOf a 63 = true → t.mem.ext = s.mem.ext ∧ t.mem.extPoison = s.mem.extPoison ∧
    ∀ x, ctxOf s c.ctx = some x → StoresKept (cmdKeys s x a bs.length) s t) ∧
  (bitOf a 63 = false → (extRead t (bitsOf a 51 0) bs.length).map (·.1) = bs ∧ StoresKept [] s t ∧
    (∀ r, bitsOf a 51 0 ≤ 64 * r → 64 * r + 64 ≤ bitsOf a 51 0 + bs.length → (extRead t (64 * r) 64).any (·.2) = false) ∧
    (∀ b, bitsOf a 51 0 ≤ b → b < bitsOf a 51 0 + bs.length → (64 * (b / 64) < bitsOf a 51 0 ∨ bitsOf a 51 0 + bs.length < 64 * (b / 64) + 64) →
      (extRead t b 1).map (·.2) = (extRead s b 1).map (·.2)) ∧
    ∀ b, (b < bitsOf a 51 0 ∨ bitsOf a 51 0 + bs.length ≤ b) → extRead t b 1 = extRead s b 1)

/-! Ports (04) -/

/-- The pocket bytes that a port request names, in stored order: offsets, pocket addresses, and places (02 R46 to R50; 04 R83, R107, R110). -/
def Req.offs (q : Req) : List Nat := byteOffs (offsetOf (q.h.addr % 2 ^ 40)) (segsOf q.h)
def Req.addrs (q : Req) (st : Store) : List Nat := q.offs.map (pocketAddr st (pocketNoOf q.local))
def Req.keys (q : Req) (s : State) (x : Ctx) (st : Store) (p : Pocket) : List Nat := q.offs.map fun o => (locate (ctxSpan s x) st p o).key

/-- A request reaches an ENABLED port of a slice that serves, connected and ready, with a free tag (R80, R88, R93, R118; 15 R457). -/
def ReqReaches (kind : Nat) (q : Req) (s : State) : Prop :=
  portsOpen s = true ∧ q.port ≤ 10 ∧ q.slice < 64 ∧ q.h.kind = kind ∧ q.data.length = dataLen q.h ∧ (portOf s q.slice q.port).state = .enabled ∧
    portWired s q.slice q.port = true ∧ Serves s [q.slice] ∧
    (q.ret.isSome = true ∨ isPP1 s q.slice q.port = true ∨ ∀ o ∈ sameWay s q, o.tag ≠ q.h.tag) ∧ q.ready s = true

/-- A pocket request of context `x` that passes steps 1 to 7 of R89; `p` is the pocket's descriptor. -/
def ReqPasses (kind : Nat) (q : Req) (s : State) (x : Ctx) (st : Store) (p : Pocket) : Prop :=
  let remote := decide (q.mesh = true ∧ extSrcdev q.ext ≠ devId s)
  ReqReaches kind q s ∧ q.h.rsvd = false ∧ shapeOk s q.slice q.port q.ret.isSome q.h = true ∧
    (q.h.gta = true → devIdValid s = true ∧ bitsOf q.h.addr 61 46 = devId s ∧ bitsOf q.h.addr 63 62 = 0 ∧ bitsOf q.h.addr 45 40 = 0) ∧
    storeOf (regionOf q.local) = some st ∧ ctxOf s (q.ctx s) = some x ∧ x.state = .active ∧ x.destroying = false ∧
    pocketPending s (q.ctx s) st (pocketNoOf q.local) = false ∧
    (if q.mesh then x.tenant = extTenant q.ext ∧ (kind ≠ 1 → kind ≠ 2 → extCred q.ext = 0) else portBound s q.slice q.port = true) ∧
    classReaches (portClass q.port) st = true ∧
    (kind = 2 → st = .p ∧ offsetOf q.h.addr % accSize q.h.accop = 0 ∧ (q.h.len + 1) % accSize q.h.accop = 0) ∧
    pocketCheck s x st (pocketNoOf q.local) ((checkSegs q.h).map fun e => (offsetOf q.h.addr + e.1, e.2)) (kind == 0 || kind == 5)
      (kind == 1 || kind == 2 || kind == 4) remote (some (portClass q.port)) = .ok p

/-- The same of a request that an engine or a mesh requester of the chip sends, in class B where it passes. -/
def PortReaches (kind : Nat) (r : PortReq) (s : State) : Prop := ReqReaches kind (reqOf s r) s
def PortPasses (kind : Nat) (r : PortReq) (s : State) (x : Ctx) (st : Store) (p : Pocket) : Prop :=
  ReqPasses kind (reqOf s r) s x st p ∧ (reqOf s r).h.g = false

/-- The slices that bytes lie on serve, and the mesh port of each but the request's own is ENABLED (04 R112, R118). -/
def KeysReached (q : Req) (keys : List Nat) (s : State) : Prop :=
  Serves s (keys.map fun k => (placeOf k).slice) ∧ ∀ k ∈ keys, (placeOf k).slice ≠ q.slice → (portOf s (placeOf k).slice 10).state = .enabled

/-- A beat, but for whether the crossbar holds it (03 R61). -/
def Beat.core (b : Beat) : Beat := { b with queued := false }

/-- Of the slices only what requesters drew on their allowances and sent in this interval changed (08 R276, R277). -/
def SlicesDrawn (s t : State) : Prop := ∀ n, sliceOf t n = { sliceOf s n with used := (sliceOf t n).used, sent := (sliceOf t n).sent }

/-- The beats that waited still wait, in order, though the crossbar may have taken some (03 R61); more may stand behind them. -/
def BeatsStay (s t : State) : Prop := (t.beats.take s.beats.length).map Beat.core = s.beats.map Beat.core ∧ SlicesDrawn s t

/-- The same beats wait, though the crossbar may have taken some (03 R61). -/
def BeatsTaken (s t : State) : Prop := t.beats.map Beat.core = s.beats.map Beat.core ∧ SlicesDrawn s t

/-- The write-back entries are the same, though some may have come to the pool of their bytes' slice (12 R368). -/
def EntriesLand (s t : State) : Prop := (t.wb.map fun e => { e with landed := false }) = s.wb.map fun e => { e with landed := false }

/-- The numbers of the write-back entries are distinct, and none is yet to be given out. -/
def EntriesNumbered (s : State) : Prop := (s.wb.map WbEntry.id).Nodup ∧ ∀ e ∈ s.wb, e.id < s.nextId

/-- No frame names the block's own device: none is an output or held for its turn, and no request at a port came as one (02 R26; log entry 35). -/
def NoOwnFrames (s : State) : Prop :=
  (∀ o ∈ s.outbox, o.isOwn s = false) ∧ (∀ o ∈ s.ops, o.ret = none) ∧ ∀ e ∈ s.ports, ∀ h ∈ e.2.held, h.2.isOwn s = false

/-- Nothing of the block takes the banks' cycles but the beats that wait: no command's or mover's bytes, no clear, no copy of a darn (03 R60). -/
def OnlyBeats (s : State) : Prop := s.works = [] ∧ s.clears = [] ∧ s.busyBanks = [] ∧ s.mem.owed = [] ∧ ∀ n, (sliceOf s n).pendDarn = []

/-- A response is the next output, or on a PP1 port with an older request still to be answered it is held for its turn (04 R86, R87). -/
def Leaves (n p id : Nat) (out : Out) (s t : State) : Prop :=
  let mine (o : PortOp) : Prop := o.slice = n ∧ o.port = p ∧ o.ret = none
  (isPP1 s n p = false ∨ ((portOf s n p).held = [] ∧ ∀ o ∈ s.ops, mine o → id ≤ o.id) → t.outbox = out :: s.outbox) ∧
  (isPP1 s n p = true → (∃ o ∈ s.ops, mine o ∧ o.id < id) → t.outbox = s.outbox ∧ ∃ k, (k, out) ∈ (portOf t n p).held)

/-- A request at a port is answered so: the response is numbered by the next number (04 R86, R87). -/
def PortAnswers (r : PortReq) (st : Status) (count : Nat) (data : List (Byte × Bool)) (zeros : List Nat) (s t : State) : Prop :=
  (isPP1 s r.slice r.port = true → ∀ o ∈ s.ops, o.id < s.nextId) →
    Leaves r.slice r.port s.nextId (.portRsp r.slice r.port (reqOf s r).h.tag st (Nat.min count 4095) data zeros) s t

/-- An outstanding request is answered so (04 R86, R87). -/
def OpAnswers (o : PortOp) (st : Status) (count : Nat) (data : List (Byte × Bool)) (s t : State) : Prop :=
  Leaves o.slice o.port o.id (.portRsp o.slice o.port o.tag st (Nat.min count 4095) data []) s t

/-- A bit of PORT_ERR is set and no other register changes (04 R117). -/
def SetsPortErr (n p bit : Nat) (s t : State) : Prop := t.regs = (portErr n p bit s).regs

/-! Movers (11) -/

/-- A running channel issues this instruction, with this OP, and its slice, those of its program and `more` serve. -/
def ChanIssues (s : State) (n m c op : Nat) (ws : List Word) (more : List Nat) : Prop :=
  cmdsRun s = true ∧ (issuing s n m c op).map (·.2) = some ws ∧ Serves s (n :: cmdAddrSlices s (chanCtx s n m c) (chanOf s n m c).ipc 32 ++ more)

/-- One channel becomes what is given, and no other channel changes. -/
def ChanBecomes (n m c : Nat) (ch : Chan) (s t : State) : Prop :=
  chanOf t n m c = ch ∧ ∀ k, k ≠ chanKey n m c → mget (fun _ => Chan.zero) t.movers.chans k = mget (fun _ => Chan.zero) s.movers.chans k

/-- A failure of the instruction at the issue point: the channel owes a halt there, and nothing else has happened (11 R352). -/
def OwesHalt (n m c : Nat) (st : Status) (addr : Nat) (s t : State) : Prop :=
  ChanBecomes n m c { chanOf s n m c with owedHalt := some (st, addr) } s t ∧
    t = { s with movers := { s.movers with chans := t.movers.chans }, ctl := { s.ctl with pwr := t.ctl.pwr } }

/-- Nothing of a channel stands in its mover's staging (11 R350). -/
def StageClear (s : State) (n m c : Nat) : Prop := ∀ e ∈ stageOf s n m, e.ch ≠ c

/-- The state on which a channel's instruction acts: the idle timers of its slices have restarted (15 R457). -/
def chanWoken (s : State) (ns : List Nat) (n m c : Nat) : State := (touchAll ns 0xA (chanKey n m c) s).2

/-! Rack memory (12) -/

/-- A frame of this type that a fabric port takes: for this device, in a valid domain, with no reserved route field set (R360, R365). -/
def FrameArrives (ftype : Nat) (f : Frame) (s : State) : Prop :=
  portsOpen s = true ∧ f.port < s.nfab ∧ frType f = ftype ∧ fld (frRoute f) 5 0 = 0 ∧ (frRes f = true → frSlice f = 0) ∧
    fld (frRoute f) 31 16 = devId s ∧ devIdValid s = true ∧ domValid s = true

/-- Its sender lies in the domain, or the link it came by is PROTECTED (R366). -/
def SenderOk (f : Frame) (dev : Nat) (s : State) : Prop := f.prot = true ∨ (domLo s ≤ dev ∧ dev ≤ domHi s)

/-- A credit message of this CKIND, without reserved bits (R361). -/
def MessageArrives (ck : Nat) (f : Frame) (s : State) : Prop := FrameArrives 2 f s ∧ creditClean f = true ∧ (cmsgOf f.words).ckind = ck

/-- The target's answer to a message is the next output: a credit message from slice `n` to the sender, under its REQID (R361, R370). -/
def TargetAnswers (n : Nat) (m : CMsg) (ck : Nat) (st : Status) (handle arg0 arg1 : Nat) (data : List Byte) (s t : State) : Prop :=
  t.outbox = .frame (Config.fabricPort n m.srcdev) (routeWord m.srcdev 0 (Config.returnSlice m.srcdev m.reqid) 2 ::
    ({ CMsg.zero with
      ckind := ck, status := st.code, srcdev := m.srcdev, tenant := m.tenant, tctx := m.tctx, handle := handle, reqid := m.reqid
      arg0 := arg0, arg1 := arg1 } : CMsg).words) data (data.map fun _ => false) :: s.outbox

/-- Only this outward request left the table of those outstanding; the others are as they were. -/
def ReqLeaves (r : FabReq) (s t : State) : Prop := t.fab.reqs = s.fab.reqs.filter fun y => y.id != r.id

/-- The grant that a handle of partition `p` and index `i` names, and no other. -/
def OneGrant (p i : Nat) (g : Grant) (s : State) : Prop := (s.fab.grants.filter fun y => y.part == p && y.index == i) = [g]

/-! The meter (17) -/

/-- The tenant that a slice channel's energy goes to; 0 for none (R490). -/
def channelTenant (s : State) (c : Nat) : Nat := if channelPart s c < 32 then (partOf s (channelPart s c)).active else 0

/-- The meter `m` with one more audit event (R494): counted, and recorded at meter time `now`: among the first 448 while they last, then in the ring of the latest 64. -/
def MeterState.audited (m : MeterState) (code ix : Nat) (src : Bool) (v now : Nat) : MeterState :=
  let e : List Word := [BitVec.ofNat 32 now, BitVec.ofNat 32 (now / 2 ^ 32), BitVec.ofNat 32 (code * 2 ^ 24 + ix * 65536 + b2n src * 32768), BitVec.ofNat 32 v]
  if m.logFirst.length < 448 then { m with audit := (m.audit + 1) % 2 ^ 32, logFirst := m.logFirst ++ [e] }
  else { m with audit := (m.audit + 1) % 2 ^ 32, logRing := ((m.logRing ++ [e]).reverse.take 64).reverse }

end Sys2Proof.Machine
end

