-- ==== Sys2Proof/Certificates/Slice0/Obligations.lean ====
section
/-! DEFINITION. Certificates/Slice0/Obligations.lean: the statements about the block, from the numbered rules of the spec. -/
open Sys2Proof Sys2Proof.Machine

/-! ## The queue of commands, and what every command keeps -/

/-- With a command at the front of the queue, a step is that command's effect on the state with the queue's rest.
An empty queue idles: the model's choice (log entry 12; the table has no row for a tick). -/
def Obligations.StepRunsFront : Prop :=
  (∀ (c : Instr) (rest : List Instr) (s : State), step { s with pending := c :: rest } = exec c { s with pending := rest }) ∧
  (∀ s : State, s.pending = [] → step s = .next s)


/-- No command ends in a fault or a refusal: each answers a next state, the commands that wait are left alone, and the model's counter
of free values never falls. -/
def Obligations.EveryCommandCompletes : Prop :=
  ∀ (c : Instr) (s : State), ∃ t, exec c s = .next t ∧ t.pending = s.pending ∧ s.freeCtr ≤ t.freeCtr

/-- The reset state has the form of log entry 33: tables in order, memories canonical. -/
def Obligations.ResetWellFormed : Prop := State.reset.wf = true

/-- Every step keeps that form: the numbered tables in order, and every memory with its keys rising and no entry equal to what an
unlisted key reads as (log entry 33). -/
def Obligations.StepKeepsWellFormed : Prop := ∀ s t : State, s.wf = true → step s = .next t → t.wf = true

/-- R517: the tie-offs do not change: which home ports speak PP1 or are not connected, the core groups, and the fabric ports with
their stops. -/
def Obligations.TieOffsNeverChange : Prop :=
  ∀ s t : State, step s = .next t → t.pp1 = s.pp1 ∧ t.unconn = s.unconn ∧ t.cgrp = s.cgrp ∧ t.nfab = s.nfab ∧ t.fstop = s.fstop

/-! ## Command queues (05) -/

/-- R133: NOP has no parameters, its words 2 to 15 are reserved, and it completes OK and has no effect. -/
def Obligations.NopHasNoEffect : Prop :=
  (∀ (i : OpInfo) (priv : Bool) (gen : Nat) (ws : List Word), opInfo 0x000 = some i →
    (∃ k, 2 ≤ k ∧ k < 16 ∧ wordAt ws k ≠ 0) → paramsReserved priv gen 0x000 i ws = true) ∧
  ∀ (id : Nat) (s : State) (c : Cmd), admittedAs s id 0x000 = some c →
    Completes (.nop id) s fun t => CmdBecomes id (fun x => x.completed .ok 0 0) s t ∧ t = { s with cmds := t.cmds }

/-- LINK sets CHAIN to TARGET; QUERY_CAPS answers the selected word, or DECODE_ERROR for a page past 3; a FENCE stays while a command
of its scope has no reply, and then completes OK with the number it waited for (R135, R181, R182). Nothing else changes; a LINK of a
privileged queue also stores its descriptor in the system region (R127).
The words of QUERY_CAPS that R182 lists for the RXM-2560: architecture and generations, stepping and capacity (2,560 MiB),
slices, partitions, sleeves and home ports, tiers, contexts, the cache and the queues; nothing else reads as other than zero on the
pages past 3. -/
def Obligations.LinkCapsFence : Prop :=
  ((∀ (id : Nat) (s : State) (c : Cmd) (r : QueueRec), admittedAs s id 0x002 = some c → queueOf s c.queue = some r →
    Completes (.link id) s fun t => queueOf t c.queue = some { r with chain := c.addr 2 } ∧ (∀ q, q ≠ c.queue → queueOf t q = queueOf s q) ∧
      CmdBecomes id (fun x => x.completed .ok 0 0) s t ∧ (qPriv c.queue = false → t.mem = s.mem) ∧
      t = { s with cmds := t.cmds, queues := t.queues, mem := { s.mem with sys := t.mem.sys } }) ∧
  (∀ (id : Nat) (s : State) (c : Cmd), admittedAs s id 0x003 = some c →
    Completes (.queryCaps id) s fun t => t = { s with cmds := t.cmds } ∧
      (c.f 2 11 4 < 4 → CmdBecomes id (fun x => x.completed .ok 0 (capWord (c.f 2 11 4) (c.f 2 3 0))) s t) ∧
      (4 ≤ c.f 2 11 4 → CmdBecomes id (fun x => x.refused .decodeError 0) s t)) ∧
  (∀ (id : Nat) (s : State) (c : Cmd), admittedAs s id 0x010 = some c →
    Completes (.fence id) s fun t => t = { s with cmds := t.cmds } ∧
      ((∃ d ∈ s.cmds, d.id ∈ c.after ∧ d.phase ≠ .replied) → t = s) ∧
      ((∀ d ∈ s.cmds, d.id ∈ c.after → d.phase = .replied) → CmdBecomes id (fun x => x.completed .ok c.after.length 0) s t))) ∧
  (capWord 0 0 = 0x046E ∧ capWord 0 1 = Config.stepping.toNat * 65536 + 2560 ∧ capWord 0 2 = 0x40200440 ∧ capWord 0 3 = 0x04400800 ∧
    capWord 0 4 = 0x02002000 ∧ capWord 1 0 = 2048 ∧ capWord 1 1 = 384 ∧ capWord 1 2 = 128 ∧
    ∀ page word, 4 ≤ page → capWord page word = 0)


/-- SLOT_FETCH of a queue that may fetch, whose slot at CHAIN reads OK: RUNG is cleared; at a HEM the queue parks with CHAIN kept, with
one reply for the place (R156); a header that fails steps 1 to 3 of R137 stops it, CHAIN kept, and its reply has the failing status
(R155); a packet with a reserved parameter is refused, and but for a LINK the chain goes on (R137 step 4); from G2 on, a packet of the timing classes Q, W
and M that passes steps 1 to 4 with CLASS = 0, whose destination lies in no spilled pocket and whose waiter entry is free, is admitted where no
other packet is held, and the chain goes on (R154). The packet's record is the newest command in each case. A refused CAP_SET answers the floor (R192).
A held packet that may be decided again and has its turn (R140) meets `admission` (steps 5 and 6 of R137 and the waits before admission):
refused, its status is final; held, it stays, marked where a spilled pocket held it; admitted, its class and bound stand and CHAIN moves
past it. One whose turn it is not stays as it is. -/
def Obligations.PacketsAreFetchedAndDecided : Prop :=
  (∀ (q : Nat) (s : State) (r : QueueRec) (bs : List Byte) (u : State), s.wf = true → queueOf s q = some r → fetchReady s q r = true →
    cmdReadWaits s (dCtx r.words) r.chain 128 = false → Serves s (cmdAddrSlices s (dCtx r.words) r.chain 128) → cmdRead s (.queue q) (dCtx r.words) r.chain 64 = (some .ok, bs, u) →
    Completes (.slotFetch q) s fun t =>
      let ws := wordsOfBytes 16 bs; let op := fld (wordAt ws 0) 31 20; let st := headerCheck (qPriv q) (dGen r.words) ws
      let new := newCmd s.nextId q r (pktCtx q r (opInfo op) ws) ws s.bcnt
      (op = 1 → fld (wordAt ws 0) 19 0 = 0 →
        (∃ x, queueOf t q = some { r with rung := false, lru := x, qstate := .parked, hemSaid := true }) ∧
          (r.hemSaid = true → t.cmds = s.cmds) ∧ (r.hemSaid = false → ∃ c, t.cmds = s.cmds ++ [c] ∧ c.isHem = true ∧ c.phase = .done ∧ c.status = .ok)) ∧
      (¬(op = 1 ∧ fld (wordAt ws 0) 19 0 = 0) → st ≠ .ok → flag (wordAt ws 0) 19 = false →
        (∃ x, queueOf t q = some { r with rung := false, lru := x, hemSaid := false, qstate := .stopped }) ∧
          ∃ i, t.cmds.getLast? = some ({ new with id := i }.refused st (refusedResult s new 0))) ∧
      (¬(op = 1 ∧ fld (wordAt ws 0) 19 0 = 0) → st = .ok → flag (wordAt ws 0) 19 = false → op ≠ 2 →
        (∀ i, opInfo op = some i → paramsReserved (qPriv q) (dGen r.words) op i ws = true) →
        (∃ x, queueOf t q = some { r with rung := false, lru := x, hemSaid := false, chain := r.chain + 64 }) ∧
          ∃ i, t.cmds.getLast? = some ({ new with id := i }.refused .reservedNonzero (refusedResult s new 0))) ∧
      (st = .ok → flag (wordAt ws 0) 19 = false → flag (wordAt ws 0) 18 = false → op ≠ 2 → dGen r.words ≠ 1 →
        (∀ i, opInfo op = some i → paramsReserved (qPriv q) (dGen r.words) op i ws = false ∧ i.cls ≠ 1) → (∀ d ∈ s.cmds, d.phase ≠ .held) →
        destSpilled s new = false → waiterFull s { new with id := s.nextId + 1 } = false →
        (∃ x, queueOf t q = some { r with rung := false, lru := x, hemSaid := false, chain := r.chain + 64 }) ∧
          ∃ i a, t.cmds.getLast? = some { new with id := i, phase := .admitted, after := a })) ∧
  (∀ (id : Nat) (s : State) (c : Cmd) (r : QueueRec), cmdOf s id = some c → c.phase = .held → cmdsRun s = true → slcRuns s (qHome c.queue) = true →
    queueOf s c.queue = some r → r.qstate = .running → r.disabling = false → (qPriv c.queue = true ∨ ctxActive s (dCtx r.words) = true) →
    Completes (.heldPacketAdmit id) s fun t =>
      let size := if c.bit 0 19 then 128 else 64
      (chosen s c = false → t = s) ∧
      (chosen s c = true → ∀ st x, admission s c = .refuse st x →
        CmdBecomes id (fun y => { y with admitB := s.bcnt }.refused st (refusedResult s c x)) s t ∧
        queueOf t c.queue = some (if c.opcode = 0x002 then { r with qstate := .stopped } else { r with chain := r.chain + size })) ∧
      (chosen s c = true → ∀ sp, admission s c = .hold sp → CmdBecomes id (fun y => { y with phase := .held, delayed := y.delayed || sp }) s t ∧
        t = { s with cmds := t.cmds }) ∧
      (chosen s c = true → ∀ g susp, admission s c = .accept g susp → queueOf t c.queue = some { r with chain := r.chain + size } ∧
        CmdBecomes id (fun y => { y with phase := .admitted, admitB := s.bcnt, gcls := g.isSome, suspended := susp, bound := g.map (·.2.2),
                                         after := if c.opcode = 0x010 then fenceScope s c
                                           else if c.opcode = 0x011 then (flushStage s c.ctx (c.addr 4 % 2 ^ 40) (256 * c.w 3)).map fun e => e.2.id
                                           else [] }) s t) ∧
      (∀ q, q ≠ c.queue → queueOf t q = queueOf s q) ∧
      CtxsKept s t ∧ t = { s with
          mem := { s.mem with sys := t.mem.sys }, nextId := t.nextId, log := t.log, integ := t.integ, ctxs := t.ctxs, slices := t.slices
          queues := t.queues, qctl := t.qctl, cmds := t.cmds, wb := t.wb, contracts := t.contracts, works := t.works })


/-- COMMAND_COMPLETE with a cached queue and a reply ring in external memory: the 32 bytes of the reply are written at slot RPROD mod
the ring's entries, no other byte of external memory and no store byte changes, RPROD rises modulo 2^16 and RPHASE inverts where the slot returns to 0, and
the command stands as replied (R141, R142).
REPLY_WRITE_ACKNOWLEDGED of a command whose queue is cached and asks for no interrupt or counter: the command is over, and nothing else
changes; where IRQM selected its reply, the queue's interrupt is requested at once outside its gap, and is owed within it;
IRQ_GAP_EXPIRY then sends the owed one at the gap's end (R145). -/
def Obligations.RepliesAreWrittenAndNotified : Prop :=
  (∀ (id : Nat) (s : State) (c : Cmd) (r : QueueRec), s.wf = true → cmdOf s id = some c → c.phase = .done → cmdsRun s = true → worksLeft s id = false →
    queueOf s c.queue = some r → (qPriv c.queue = true ∨ ∀ x, ctxOf s (dCtx r.words) = some x → x.state ≠ .suspended) →
    Serves s [qHome c.queue] → bitOf (dRbase r.words) 63 = false → dRbase r.words + 32 * dEntries r.words ≤ 2 ^ 52 →
    Completes (.commandComplete id) s fun t =>
      let n := dEntries r.words; let slot := dRbase r.words + 32 * (r.rprod % n); let prod := (r.rprod + 1) % 65536
      (extRead t slot 32).map (·.1) = bytesOfWords (replyWords r c (elapsedOf s c)) ∧
      (∀ a, a < slot ∨ slot + 32 ≤ a → extRead t a 1 = extRead s a 1) ∧
      queueOf t c.queue = some { r with rprod := prod, rphase := if prod % n = 0 then !r.rphase else r.rphase } ∧
      (∀ d, cmdOf t id = some d → d.phase = .replied ∧ d.elapsed = elapsedOf s c ∧ d.status = c.status ∧ d.count = c.count ∧ d.result = c.result) ∧
      CtxsKept s t ∧ t.mem = { s.mem with sys := t.mem.sys, ext := t.mem.ext, extPoison := t.mem.extPoison } ∧
      t = { s with
            mem := t.mem, regs := t.regs, log := t.log, integ := t.integ, ctxs := t.ctxs, slices := t.slices, queues := t.queues, cmds := t.cmds
            ctl := t.ctl }) ∧
  ((∀ (id : Nat) (s : State) (c : Cmd) (r : QueueRec), cmdOf s id = some c → c.phase = .replied → queueOf s c.queue = some r →
    (qPriv c.queue = true ∨ flag (wordAt r.words 1) 12 = false) →
    Completes (.replyWriteAcknowledged id) s fun t => t.cmds = s.cmds.filter (fun x => x.id != id) ∧
      (c.irqSel = false → t = { s with cmds := t.cmds }) ∧
      (c.irqSel = true → t = { s with cmds := t.cmds, outbox := t.outbox, qirq := t.qirq } ∧
        ((∀ w, (qirqOf s c.queue).last = some w → w + dGap r.words * 100 ≤ s.rc) →
          t.outbox = .msix (fld (wordAt r.words 1) 31 24) (fld (wordAt r.words 1) 23 13) c.queue :: s.outbox ∧
            qirqOf t c.queue = { last := some s.rc, owed := none }) ∧
        (∀ w, (qirqOf s c.queue).last = some w → s.rc < w + dGap r.words * 100 →
          t.outbox = s.outbox ∧ qirqOf t c.queue =
            { qirqOf s c.queue with owed := some (fld (wordAt r.words 1) 31 24, fld (wordAt r.words 1) 23 13, w + dGap r.words * 100) }))) ∧
  (∀ (q : Nat) (s : State) (fn vec due : Nat), (qirqOf s q).owed = some (fn, vec, due) →
    Completes (.irqGapExpiry q) s fun t => t.rc = Nat.max s.rc due ∧ t.outbox = .msix fn vec q :: s.outbox ∧
      qirqOf t q = { last := some t.rc, owed := none } ∧ t = { s with rc := t.rc, outbox := t.outbox, qirq := t.qirq }))

/-- DOORBELL, REPLY_ACK and a write of a context's window page (R148 to R153): from the host function that owns the page, or from a
core of the context's tenant, for a cached queue of that context that runs or is parked, the doorbell sets the pending bit and
changes nothing else but its slice's idle timer, and an acknowledgement that passes R144 moves RCONS; the write of DOORBELL does as the
message, the page keeping the value.
A doorbell or acknowledgement is dropped, logged and counted in DB_DROP, and changes nothing else: with a reserved bit set, for a privileged
queue, or for a queue whose enabled bit is 0 (R149, R152); a host message for a page that its function does not own is logged only (R153). -/
def Obligations.MessagesReachQueuesOrAreDropped : Prop :=
  ((∀ (path : MsgPath) (ctx : Nat) (v : DWord) (s : State) (r : QueueRec), hostMsgOk s path ctx = true → msgTenantOk s path ctx = true →
    v.toNat / 2 ^ 19 = 0 → qPriv v.toNat = false → qEnabledBit s v.toNat = true → queueOf s v.toNat = some r → dValid r.words = true → dCtx r.words = ctx →
    (r.qstate = .running ∨ r.qstate = .parked) →
    Completes (.doorbell path ctx v) s fun t => mget (fun _ => false) t.dbPend v.toNat = true ∧
      (∀ q, q ≠ v.toNat → s.wf = true → mget (fun _ => false) t.dbPend q = mget (fun _ => false) s.dbPend q) ∧
      t = { s with dbPend := t.dbPend, ctl := { s.ctl with pwr := t.ctl.pwr } }) ∧
  (∀ (fn ctx : Nat) (v : DWord) (s : State) (r : QueueRec), fn < 256 → bitOf (hwinMap s ctx) 31 = true → hwinMap s ctx % 256 = fn →
    v.toNat / 2 ^ 19 = 0 → qPriv v.toNat = false → qEnabledBit s v.toNat = true → queueOf s v.toNat = some r → dValid r.words = true → dCtx r.words = ctx →
    (r.qstate = .running ∨ r.qstate = .parked) →
    Completes (.hostWindowWrite fn ctx 0 4 v) s fun t => mget (fun _ => false) t.dbPend v.toNat = true ∧
      (s.wf = true → mget (fun _ => 0) t.hwin (ctx * 4096) = v) ∧
      t = { s with dbPend := t.dbPend, hwin := t.hwin, ctl := { s.ctl with pwr := t.ctl.pwr } }) ∧
  (∀ (path : MsgPath) (ctx : Nat) (v : DWord) (s : State) (r : QueueRec), hostMsgOk s path ctx = true → msgTenantOk s path ctx = true →
    bitsOf v.toNat 31 19 = 0 → v.toNat / 2 ^ 48 = 0 → qPriv (v.toNat % 2 ^ 19) = false → qEnabledBit s (v.toNat % 2 ^ 19) = true →
    queueOf s (v.toNat % 2 ^ 19) = some r → dValid r.words = true → dCtx r.words = ctx → (r.qstate = .running ∨ r.qstate = .parked) →
    Completes (.replyAck path ctx v) s fun t =>
      (rackOk r (bitsOf v.toNat 47 32) = true → queueOf t (v.toNat % 2 ^ 19) = some { r with rcons := bitsOf v.toNat 47 32 } ∧
        t = { s with queues := t.queues, ctl := { s.ctl with pwr := t.ctl.pwr } }) ∧
      (rackOk r (bitsOf v.toNat 47 32) = false → queueOf t (v.toNat % 2 ^ 19) = some r ∧
        Logged .decodeError 2 (qHome (v.toNat % 2 ^ 19)) (pathUnit path) .nobody ctx v.toNat s t ∧
        t = { s with log := t.log, dbDrop := t.dbDrop, ctl := { s.ctl with pwr := t.ctl.pwr } }))) ∧
  ((∀ (path : MsgPath) (ctx : Nat) (v : DWord) (s : State), hostMsgOk s path ctx = true → s.wf = true →
    (v.toNat / 2 ^ 19 ≠ 0 ∨ qPriv v.toNat = true ∨ qEnabledBit s v.toNat = false) →
    Completes (.doorbell path ctx v) s fun t => mget (fun _ => 0) t.dbDrop ctx = (mget (fun _ => 0) s.dbDrop ctx + 1) % 2 ^ 32 ∧
      (∃ st, Logged st 2 (qHome (v.toNat % 2 ^ 19)) (pathUnit path) .nobody ctx v.toNat s t ∧ (v.toNat / 2 ^ 19 ≠ 0 → st = .reservedNonzero) ∧
        (v.toNat / 2 ^ 19 = 0 → qPriv v.toNat = true → st = .boundViolation)) ∧
      t = { s with log := t.log, dbDrop := t.dbDrop }) ∧
  (∀ (path : MsgPath) (ctx : Nat) (v : DWord) (s : State), hostMsgOk s path ctx = true → s.wf = true →
    (bitsOf v.toNat 31 19 ≠ 0 ∨ v.toNat / 2 ^ 48 ≠ 0 ∨ qPriv (v.toNat % 2 ^ 19) = true ∨ qEnabledBit s (v.toNat % 2 ^ 19) = false) →
    Completes (.replyAck path ctx v) s fun t => mget (fun _ => 0) t.dbDrop ctx = (mget (fun _ => 0) s.dbDrop ctx + 1) % 2 ^ 32 ∧
      (∃ st, Logged st 2 (qHome (v.toNat % 2 ^ 19)) (pathUnit path) .nobody ctx v.toNat s t ∧
        (bitsOf v.toNat 31 19 ≠ 0 ∨ v.toNat / 2 ^ 48 ≠ 0 → st = .reservedNonzero)) ∧
      t = { s with log := t.log, dbDrop := t.dbDrop }) ∧
  (∀ (fn ctx : Nat) (v : DWord) (s : State), hostMsgOk s (.host fn) ctx = false →
    Completes (.doorbell (.host fn) ctx v) s (fun t => t.log = (winError .boundViolation fn ctx 0 s).log ∧ t = { s with log := t.log }) ∧
      Completes (.replyAck (.host fn) ctx v) s (fun t => t.log = (winError .boundViolation fn ctx 8 s).log ∧ t = { s with log := t.log }) ∧
      Completes (.counterAdd (.host fn) ctx v) s fun t => t.log = (winError .boundViolation fn ctx 0x10 s).log ∧ t = { s with log := t.log }))


/-- The command unit acts on a pending doorbell (R151): of a cached queue it clears the bit, and a parked queue runs, a running one is rung, a
stopped one is unchanged; of a queue that is not cached it starts the descriptor's fetch, the bit staying.
A descriptor fetch for a doorbell that finds room and reads OK: the fetch is over, the queue is cached with the words read, its dynamic
fields those of the words, and its doorbell is served (R150, R151, R161); and a write-back that has reached the table leaves its eight words
there, in no other byte, while one that fails is logged (R127, R162). -/
def Obligations.DoorbellsAndDescriptorTransfers : Prop :=
  (∀ (q : Nat) (s : State), s.wf = true → cmdsRun s = true → mget (fun _ => false) s.dbPend q = true → slcRuns s (qHome q) = true →
    Completes (.doorbellService q) s fun t =>
      (∀ r, queueOf s q = some r → mget (fun _ => false) t.dbPend q = false ∧
        (r.qstate = .parked → queueOf t q = some { r with qstate := .running, lru := s.nextId }) ∧
        (r.qstate = .running → queueOf t q = some { r with rung := true, lru := s.nextId }) ∧
        (r.qstate ≠ .parked → r.qstate ≠ .running → queueOf t q = some { r with lru := s.nextId }) ∧
        t = { s with dbPend := t.dbPend, nextId := s.nextId + 1, queues := t.queues, mem := { s.mem with sys := t.mem.sys } }) ∧
      (queueOf s q = none → qEnabledBit s q = true → (∀ e ∈ s.qfetch, e.1 ≠ q) →
        t = { s with qfetch := s.qfetch ++ [(q, .service)] })) ∧
  ((∀ (q : Nat) (s : State) (ws : List Word), qPriv q = false → s.qfetch = [(q, .service)] → queueOf s q = none → readDesc s q = (.ok, ws) →
    ((cachedOn s (qHome q)).filter fun e => !qPriv e.1).length < 496 →
    (∀ x, ctxOf s (dCtx ws) = some x → x.state ≠ .faulted) → fld (wordAt ws 7) 31 30 = 2 →
    Completes (.descriptorFetchDone q) s fun t =>
      (∃ r, queueOf t q = some r ∧ r.words = ws ∧ r.qstate = .running ∧ r.rcons = fld (wordAt ws 2) 15 0 ∧ r.chain = dwordAt ws 3 ∧
        r.rprod = fld (wordAt ws 7) 27 12 ∧ r.rphase = flag (wordAt ws 7) 28) ∧
      (∀ p, p ≠ q → queueOf t p = queueOf s p) ∧ (s.wf = true → mget (fun _ => false) t.dbPend q = false) ∧
      t = { s with qfetch := [], queues := t.queues, dbPend := t.dbPend, nextId := t.nextId }) ∧
  (∀ (q : Nat) (s : State) (ws : List Word), s.wf = true → s.qback = [(q, ws)] → ws.length = 8 →
    (∀ r, queueOf s q = some r → r.disabling = false) →
    Completes (.descriptorWriteBackDone q true) s (fun t => t.qback = [] ∧ (extRead t (descAddr s q) 32).map (·.1) = bytesOfWords ws ∧
      (∀ a, a < descAddr s q ∨ descAddr s q + 32 ≤ a → extRead t a 1 = extRead s a 1) ∧
      t = { s with qback := [], mem := { s.mem with ext := t.mem.ext, extPoison := t.mem.extPoison } }) ∧
    Completes (.descriptorWriteBackDone q false) s fun t => Logged .uncorrectable 2 (qHome q) 0 (.queue q) (dCtx ws) (descAddr s q) s t ∧ t = { s with qback := [], log := t.log }))

/-! ## Registers (00 R4, R5; 02 R32; 06 R205, R206) -/

/-- The rows that write one register are writes of it, of 4 bytes, at the address and with the fields that its register table gives:
QCTL and its companions (05 R158, R159), PORT_CTL and PORT_CTX (04 R113, R115), SLEEVE_CFG and BOOT_CTL (02 R35, R53), MCH_CTL
(11 R335), PART_CTL (13 R390), CU_BOOT (15 R451), PWR_CTL and DEV_PWR (15 R459, R463). -/
def Obligations.RegisterRowsAreWrites : Prop :=
  ∀ (n m k p q : Nat) (b : Bool) (v : Word) (w : RegWriter) (s : State),
    let reg (u off x : Nat) : Host.Outcome State Fault Refusal := exec (.registerWrite (unitAddr u off) false (BitVec.ofNat 64 x) w) s
    exec (.qctlDb n v w) s = reg n 0x60C v.toNat ∧ exec (.qctlRack n v w) s = reg n 0x610 v.toNat ∧
    exec (.enable n q b w) s = reg n 0x600 (b2n b * 2 ^ 31 + 1 * 2 ^ 28 + q % 8192) ∧ exec (.disable n q w) s = reg n 0x600 (2 * 2 ^ 28 + q % 8192) ∧
    exec (.pin n q w) s = reg n 0x600 (3 * 2 ^ 28 + q % 8192) ∧ exec (.unpin n q w) s = reg n 0x600 (4 * 2 ^ 28 + q % 8192) ∧
    (k ≤ 10 → exec (.portEnable n k b w) s = reg n (0x400 + k * 0x20) (b2n b * 2 + 1) ∧
      exec (.portDisable n k b w) s = reg n (0x400 + k * 0x20) (b2n b * 2) ∧ exec (.portCtxWrite n k v w) s = reg n (0x400 + k * 0x20 + 8) v.toNat) ∧
    exec (.sleeveCfgWrite n v w) s = reg n 0x200 v.toNat ∧ exec (.bootCtlWrite v w) s = reg 0x80 0x18 v.toNat ∧
    (m < 2 → k < 8 → bitsOf v.toNat 31 30 = 1 → exec (.start n m k v w) s = reg n (0xC00 + m * 0x200 + k * 0x40) v.toNat) ∧
    (m < 2 → k < 8 → bitsOf v.toNat 31 30 = 2 → exec (.stop n m k v w) s = reg n (0xC00 + m * 0x200 + k * 0x40) v.toNat) ∧
    (p < 32 → (bitsOf v.toNat 31 28 = 1 → exec (.configure p v w) s = reg 0x80 (0x1000 + p * 0x20) v.toNat) ∧
      (bitsOf v.toNat 31 28 = 2 → exec (.seal p v w) s = reg 0x80 (0x1000 + p * 0x20) v.toNat) ∧
      (bitsOf v.toNat 31 28 = 3 → exec (.dissolve p v w) s = reg 0x80 (0x1000 + p * 0x20) v.toNat) ∧
      (bitsOf v.toNat 31 28 = 4 → exec (.suspend p v w) s = reg 0x80 (0x1000 + p * 0x20) v.toNat) ∧
      (bitsOf v.toNat 31 28 = 5 → exec (.activate p v w) s = reg 0x80 (0x1000 + p * 0x20) v.toNat)) ∧
    exec (.cuBootWrite v w) s = reg 0x80 0x300 v.toNat ∧ exec (.wake n b w) s = reg n 0x1000 (1 * 2 ^ 29 + b2n b * 2 ^ 28) ∧
    exec (.idle n b w) s = reg n 0x1000 (2 * 2 ^ 29 + b2n b * 2 ^ 28) ∧ exec (.retain n b w) s = reg n 0x1000 (3 * 2 ^ 29 + b2n b * 2 ^ 28) ∧
    exec (.off n b w) s = reg n 0x1000 (4 * 2 ^ 29 + b2n b * 2 ^ 28) ∧ exec (.deep w) s = reg 0x80 0x320 (2 ^ 30)

/-- REGISTER_WRITE of 4 bytes through the mesh port (00 R4, R5; 02 R32): an address that no register decodes answers DECODE_ERROR, and
one that sets a reserved bit is dropped and logged, RESERVED_FIELD_NONZERO, each setting its PORT_ERR bit (04 R117); one that R4 drops (every field read-only, a
write-once field after its first write, a sealed field that would change) is logged, WRITE_IGNORED; and the first write of DEV_ID, a
write-once register, stores the value, so that a second write is dropped and leaves it.
REG_READ of a register completes OK, with the register's value, bits 31:0 in RESULT and bits 63:32 in COUNT, and changes nothing else;
REG_WRITE of a register completes with the status of its write, or waits where the write waits; an address that no register decodes refuses
both with DECODE_ERROR (06 R205, R206). A REG_WRITE of DEV_ID stores its first value, and a second is dropped. -/
def Obligations.RegisterWritesAndCommands : Prop :=
  ((∀ (a : Nat) (v : DWord) (w : RegWriter) (s : State), MeshOpen w s → regAddrOk s a false = false →
    Completes (.registerWrite a false v w) s fun t => Responds a .decodeError s t ∧ PortErrSet w.slice 10 4 s t ∧
      t = { s with outbox := t.outbox, regs := t.regs }) ∧
  (∀ (a : Nat) (v : DWord) (w : RegWriter) (s : State), MeshOpen w s → regAddrOk s a false = true → regUnit a ≠ 0xC0 →
    ¬(regUnit a = 0x80 ∧ regOff a = 0x304) → setsReserved (regUnit a) (regOff a) (v.toNat % 2 ^ 32) = true →
    Completes (.registerWrite a false v w) s fun t => Responds a .reservedNonzero s t ∧
      Logged .reservedNonzero 1 w.slice 10 (.mesh w.slice w.srcdev w.srcstop) 0 a s t ∧ PortErrSet w.slice 10 5 s t ∧
      t = { s with outbox := t.outbox, log := t.log, regs := t.regs }) ∧
  (∀ (a : Nat) (v : DWord) (w : RegWriter) (s : State), MeshOpen w s → regAddrOk s a false = true → regUnit a ≠ 0xC0 →
    ¬(regUnit a = 0x80 ∧ regOff a = 0x304) → setsReserved (regUnit a) (regOff a) (v.toNat % 2 ^ 32) = false →
    regDrops s (regUnit a) (regOff a) (v.toNat % 2 ^ 32) = true →
    Completes (.registerWrite a false v w) s fun t => Responds a .writeIgnored s t ∧
      Logged .writeIgnored 1 w.slice 10 (.mesh w.slice w.srcdev w.srcstop) 0 (regNo (regUnit a) (regOff a) * 4) s t ∧
      t = { s with outbox := t.outbox, log := t.log }) ∧
  (∀ (v : DWord) (w : RegWriter) (s : State), s.wf = true → MeshOpen w s → v.toNat % 2 ^ 31 < 2 ^ 16 → v.toNat < 2 ^ 32 →
    Completes (.registerWrite (unitAddr 0x80 0x10) false v w) s fun t =>
      (mget (fun _ => false) s.w1done (regNo 0x80 0x10) = false → Responds (unitAddr 0x80 0x10) .ok s t ∧ regGet t 0 (regNo 0x80 0x10) = v.toNat ∧
        mget (fun _ => false) t.w1done (regNo 0x80 0x10) = true ∧ t = { s with outbox := t.outbox, regs := t.regs, w1done := t.w1done }) ∧
      (mget (fun _ => false) s.w1done (regNo 0x80 0x10) = true → Responds (unitAddr 0x80 0x10) .writeIgnored s t ∧
        t = { s with outbox := t.outbox, log := t.log }))) ∧
  ((∀ (id : Nat) (s : State) (c : Cmd), admittedAs s id 0x721 = some c → regAddrOk s (c.addr 2) (c.bit 4 0) = true →
    Completes (.regRead id) s fun t => t = { s with cmds := t.cmds } ∧
      CmdBecomes id (fun x => x.completed .ok (regRead8 s (c.addr 2) (c.bit 4 0) / 2 ^ 32) (regRead8 s (c.addr 2) (c.bit 4 0) % 2 ^ 32)) s t) ∧
  (∀ (id : Nat) (s : State) (c : Cmd), admittedAs s id 0x721 = some c → regAddrOk s (c.addr 2) (c.bit 4 0) = false →
    Completes (.regRead id) s fun t => t = { s with cmds := t.cmds, log := t.log } ∧ CmdBecomes id (fun x => x.refused .decodeError 0) s t)) ∧
  ((∀ (id : Nat) (s u : State) (c : Cmd) (st : Status), admittedAs s id 0x720 = some c → regAddrOk s (c.addr 2) (c.bit 4 0) = true →
    regWrite (c.addr 2) (c.bit 4 0) (c.addr 5) (cmdBy c) s = (some st, u) →
    Completes (.regWrite id) s fun t => CmdBecomes id (fun x => x.completed st 0 0) u t ∧ t = { u with cmds := t.cmds }) ∧
  (∀ (id : Nat) (s u : State) (c : Cmd), admittedAs s id 0x720 = some c → regAddrOk s (c.addr 2) (c.bit 4 0) = true →
    regWrite (c.addr 2) (c.bit 4 0) (c.addr 5) (cmdBy c) s = (none, u) →
    Completes (.regWrite id) s fun t => CmdBecomes id (fun x => { x with phase := .waiting }) u t ∧ t = { u with cmds := t.cmds }) ∧
  (∀ (id : Nat) (s : State) (c : Cmd), admittedAs s id 0x720 = some c → regAddrOk s (c.addr 2) (c.bit 4 0) = false →
    Completes (.regWrite id) s fun t => t = { s with cmds := t.cmds, log := t.log } ∧ CmdBecomes id (fun x => x.refused .decodeError 0) s t) ∧
  (∀ (id : Nat) (s : State) (c : Cmd), s.wf = true → admittedAs s id 0x720 = some c → c.addr 2 = unitAddr 0x80 0x10 → c.bit 4 0 = false →
    c.addr 5 % 2 ^ 31 < 2 ^ 16 → c.addr 5 < 2 ^ 32 →
    (mget (fun _ => false) s.w1done (regNo 0x80 0x10) = false →
      Completes (.regWrite id) s fun t => CmdBecomes id (fun x => x.completed .ok 0 0) s t ∧ regGet t 0 (regNo 0x80 0x10) = c.addr 5 ∧
        mget (fun _ => false) t.w1done (regNo 0x80 0x10) = true ∧ t = { s with cmds := t.cmds, regs := t.regs, w1done := t.w1done }) ∧
    (mget (fun _ => false) s.w1done (regNo 0x80 0x10) = true →
      Completes (.regWrite id) s fun t => CmdBecomes id (fun x => x.completed .writeIgnored 0 0) s t ∧ t = { s with cmds := t.cmds, log := t.log })))


/-! ## Queue control (05 R125, R158, R159) -/

/-- QCTL_DB rings its queue, a privileged one included (R158); QCTL_RACK that passes R144 moves RCONS, and another is dropped and logged; one for an enabled queue that
is not cached has its descriptor fetched first (log entry 84).
QCTL on a slice whose operation is over (R125, R159): ENABLE of a DISABLED privileged queue whose descriptor passes its checks makes it RUNNING at
CHAIN with RCONS and RPROD zero and RPHASE one, and one that fails leaves it, RESULT saying why; ENABLE of a DISABLED tenant queue and PIN of a
tenant queue that is not cached start a descriptor fetch, BUSY set; DISABLE of a queue that is not enabled ends at once OK; UNPIN of a
privileged queue answers WRITE_IGNORED.
Pinning and disabling of a cached tenant queue (R159, R161): PIN sets the pin while fewer than 112 tenant queues of the slice are pinned, and answers
REJECTED_CONTRACT past them; UNPIN clears it unless a contract stands on the queue; DISABLE of an enabled queue starts the drain, BUSY set; and
when no command of the queue is left the descriptor starts back; with the write-back done it ends: the queue leaves the cache, and its
enabled bit is clear. -/
def Obligations.QueueControlActs : Prop :=
  ((∀ (n : Nat) (v : Word) (w : RegWriter) (s : State), n < 64 → v.toNat < 8192 → MeshOpen w s → regAddrOk s (unitAddr n 0x60C) false = true →
    Completes (.qctlDb n v w) s fun t => Responds (unitAddr n 0x60C) .ok s t ∧ mget (fun _ => false) t.dbPend (n * 8192 + v.toNat) = true ∧
      t = { s with outbox := t.outbox, dbPend := t.dbPend, regs := t.regs, ctl := { s.ctl with pwr := t.ctl.pwr } }) ∧
  (∀ (n : Nat) (v : Word) (w : RegWriter) (s : State) (r : QueueRec), n < 64 → v.toNat % 65536 < 8192 → MeshOpen w s →
    regAddrOk s (unitAddr n 0x610) false = true → queueOf s (n * 8192 + v.toNat % 8192) = some r → r.qstate ≠ .disabled →
    Completes (.qctlRack n v w) s fun t =>
      (rackOk r (v.toNat / 65536) = true → Responds (unitAddr n 0x610) .ok s t ∧
        queueOf t (n * 8192 + v.toNat % 8192) = some { r with rcons := v.toNat / 65536 } ∧
        t = { s with outbox := t.outbox, queues := t.queues, regs := t.regs, mem := { s.mem with sys := t.mem.sys } }) ∧
      (rackOk r (v.toNat / 65536) = false → Responds (unitAddr n 0x610) .writeIgnored s t ∧ t = { s with outbox := t.outbox, log := t.log })) ∧
  (∀ (n : Nat) (v : Word) (w : RegWriter) (s : State), n < 64 → v.toNat % 65536 < 8192 → MeshOpen w s →
    regAddrOk s (unitAddr n 0x610) false = true → queueOf s (n * 8192 + v.toNat % 8192) = none →
    Completes (.qctlRack n v w) s fun t => let q := n * 8192 + v.toNat % 8192
      (qEnabledBit s q = true → (∃ by_, t.qfetch = s.qfetch ++ [(q, .rack v.toNat by_)]) ∧ t = { s with qfetch := t.qfetch }) ∧
      (qEnabledBit s q = false → Responds (unitAddr n 0x610) .writeIgnored s t ∧ t = { s with outbox := t.outbox, log := t.log }))) ∧
  ((∀ (n i : Nat) (b : Bool) (w : RegWriter) (s : State), s.wf = true → n < 64 → i < 16 → MeshOpen w s → regAddrOk s (unitAddr n 0x600) false = true →
    (qctlOf s n).busy = none → qEnabledBit s (n * 8192 + i) = false →
    Completes (.enable n i b w) s fun t =>
      let q := n * 8192 + i; let ws := (readDesc s q).2; let st := enableCheck s q ws
      Responds (unitAddr n 0x600) .ok s t ∧ (qctlOf t n).result = st.code ∧ (qctlOf t n).qidx = i ∧ (qctlOf t n).busy = none ∧
      (st = .ok → qEnabledBit t q = true ∧ ∃ r, queueOf t q = some r ∧ r.qstate = .running ∧ r.chain = dwordAt ws 3 ∧ r.rcons = 0 ∧ r.rprod = 0 ∧
        r.rphase = true ∧ r.rung = false) ∧
      (st ≠ .ok → t.queues = s.queues ∧ t.qEnabled = s.qEnabled)) ∧
  (∀ (n i : Nat) (b : Bool) (w : RegWriter) (s : State), s.wf = true → n < 64 → 16 ≤ i → i < 8192 → MeshOpen w s →
    regAddrOk s (unitAddr n 0x600) false = true → (qctlOf s n).busy = none → qEnabledBit s (n * 8192 + i) = false → qdtValid s = true →
    Completes (.enable n i b w) s fun t => Responds (unitAddr n 0x600) .ok s t ∧ (qctlOf t n).busy = some (1, n * 8192 + i) ∧
      t.qfetch = s.qfetch ++ [(n * 8192 + i, .enable false)] ∧
      t = { s with outbox := t.outbox, regs := t.regs, qctl := t.qctl, qfetch := t.qfetch, ctl := { s.ctl with pwr := t.ctl.pwr } }) ∧
  (∀ (n i : Nat) (w : RegWriter) (s : State), s.wf = true → n < 64 → i < 8192 → MeshOpen w s → regAddrOk s (unitAddr n 0x600) false = true →
    (qctlOf s n).busy = none →
    (qEnabledBit s (n * 8192 + i) = false →
      Completes (.disable n i w) s fun t => Responds (unitAddr n 0x600) .ok s t ∧ (qctlOf t n).result = Status.ok.code ∧ (qctlOf t n).qstate = 0 ∧
        t = { s with outbox := t.outbox, regs := t.regs, qctl := t.qctl, ctl := { s.ctl with pwr := t.ctl.pwr } }) ∧
    (16 ≤ i → queueOf s (n * 8192 + i) = none → qdtValid s = true →
      Completes (.pin n i w) s fun t => Responds (unitAddr n 0x600) .ok s t ∧ (qctlOf t n).busy = some (3, n * 8192 + i) ∧
        t.qfetch = s.qfetch ++ [(n * 8192 + i, .pin)] ∧
        t = { s with outbox := t.outbox, regs := t.regs, qctl := t.qctl, qfetch := t.qfetch, ctl := { s.ctl with pwr := t.ctl.pwr } }) ∧
    (i < 16 →
      Completes (.unpin n i w) s fun t => Responds (unitAddr n 0x600) .ok s t ∧ (qctlOf t n).result = Status.writeIgnored.code ∧
        t = { s with outbox := t.outbox, regs := t.regs, qctl := t.qctl, ctl := { s.ctl with pwr := t.ctl.pwr } }))) ∧
  ((∀ (n i : Nat) (w : RegWriter) (s : State) (r : QueueRec), s.wf = true → n < 64 → 16 ≤ i → i < 8192 → MeshOpen w s →
    regAddrOk s (unitAddr n 0x600) false = true → (qctlOf s n).busy = none → queueOf s (n * 8192 + i) = some r →
    (r.pinned = false →
      Completes (.pin n i w) s fun t => Responds (unitAddr n 0x600) .ok s t ∧
        (((cachedOn s n).filter fun e => e.2.pinned && !qPriv e.1).length < 112 → queueOf t (n * 8192 + i) = some { r with pinned := true } ∧
          (qctlOf t n).result = Status.ok.code) ∧
        (112 ≤ ((cachedOn s n).filter fun e => e.2.pinned && !qPriv e.1).length → queueOf t (n * 8192 + i) = some r ∧
          (qctlOf t n).result = Status.rejectedContract.code)) ∧
    (Completes (.unpin n i w) s fun t => Responds (unitAddr n 0x600) .ok s t ∧
      ((∀ k ∈ s.contracts, k.kind = 0 → k.target ≠ n * 8192 + i) → queueOf t (n * 8192 + i) = some { r with pinned := false } ∧
        (qctlOf t n).result = Status.ok.code) ∧
      ((∃ k ∈ s.contracts, k.kind = 0 ∧ k.target = n * 8192 + i) → queueOf t (n * 8192 + i) = some r ∧
        (qctlOf t n).result = Status.rejectedContract.code)) ∧
    (qEnabledBit s (n * 8192 + i) = true →
      Completes (.disable n i w) s fun t => queueOf t (n * 8192 + i) = some { r with disabling := true } ∧ (qctlOf t n).busy = some (2, n * 8192 + i) ∧
        ∀ c ∈ t.cmds, c.queue = n * 8192 + i → c.phase ≠ .held)) ∧
  ((∀ (q : Nat) (s : State) (r : QueueRec), s.wf = true → qPriv q = false → queueOf s q = some r → r.disabling = true →
    (∀ c ∈ s.cmds, c.queue ≠ q) → (∀ e ∈ s.qback, e.1 ≠ q) →
    Completes (.queueDisableDone q) s fun t => queueOf t q = some { r with qstate := .disabled } ∧
      t.qback = s.qback ++ [(q, { r with qstate := .disabled }.image)] ∧ t = { s with queues := t.queues, qback := t.qback }) ∧
  (∀ (q : Nat) (ok : Bool) (ws : List Word) (s : State) (r : QueueRec), s.wf = true → qPriv q = false → queueOf s q = some r → r.disabling = true →
    r.qstate = .disabled → r.pinned = false → s.qback = [(q, ws)] → ws.length = 8 → (qctlOf s (qHome q)).enWait = false →
    (qctlOf s (qHome q)).later = [] →
    Completes (.descriptorWriteBackDone q ok) s fun t => queueOf t q = none ∧ qEnabledBit t q = false ∧
      (qctlOf t (qHome q)).busy = none ∧ (qctlOf t (qHome q)).result = Status.ok.code ∧ (qctlOf t (qHome q)).qstate = 0 ∧
      t = { s with queues := t.queues, qEnabled := t.qEnabled, qback := [], qctl := t.qctl, log := t.log
                   mem := { s.mem with ext := t.mem.ext, extPoison := t.mem.extPoison } })))

/-! ## Memory (03, 14) -/

/-- What a write of store bytes does (R62 to R65, R418): a code unit that its bytes cover whole, each byte of the A- and P-store being one, holds
the bytes written, the last one of each, with matching check bits, and its tag says whether one of them arrived poisoned; read back
it then gives them. A W-store word covered in part is merged where it checks out, and left alone where it is poisoned or
uncorrectable; no other unit changes, and reads are what else is counted and logged. -/
def Obligations.StoreWritesLand : Prop :=
  ∀ (a : Agent) (items : List (Nat × Byte × Bool)) (s : State), s.wf = true →
    let t := (writeBytes a items s).1
    let new (k : Nat) : Option (Byte × Bool) := writeAt items k
    let unit (k : Nat) : List Nat := (List.range (if isW k then 32 else 1)).map (unitKey k + ·)
    let bad (k : Nat) : Bool := (unit k).any fun j => match new j with
      | some (_, b) => b
      | none => false
    StoresKept (items.map (·.1)) s t ∧
    (∀ k b p, new k = some (b, p) → (∀ j ∈ unit k, (new j).isSome = true) → HoldsByte t k b (bad k) ∧
      (bad k = false → tagReads (isW (unitKey k)) (unitKey k % 64) false (marksOf s (unitKey k / 524288)) = false → byteAt t k = (b, false))) ∧
    (∀ k, unitKey k ∈ unitsOf (items.map (·.1)) → (∃ j ∈ unit k, new j = none) →
      (((foundAt s k).what = .clean ∨ (foundAt s k).what = .corrected) → (∀ b p, new k = some (b, p) → HoldsByte t k b (bad k)) ∧
        (new k = none → HoldsByte t k (byteAt s k).1 (bad k))) ∧
      (((foundAt s k).what = .poisoned ∨ (foundAt s k).what = .uncorrectable) → storedAt t k = storedAt s k)) ∧
    CtxsKept s t ∧ SlicesCounted s t ∧
    t = { s with
      mem := { s.mem with data := t.mem.data, chk := t.mem.chk, tag := t.mem.tag, owed := t.mem.owed }
      log := t.log, integ := t.integ, ctxs := t.ctxs, slices := t.slices }

/-! ## Moving data (06) -/

/-- FILL, COPY and CONVERT_COPY whose slices serve (R172 to R178): FILL writes byte (o mod 8) of PATTERN at each offset o of the range; COPY
writes the bytes it reads, CONVERT_COPY the destination elements of the values it reads, scaled by two to SCALE; each completes with
what its reads and writes found, COUNT being the bytes or elements written without poison, and nothing outside the destination changes. A COPY
whose source meets a held range-scoreboard entry has not started, and one whose bytes have still to move in their bank groups goes on moving:
it stays as it is (04 R104, 08 R248; log entries 78 and 110). -/
def Obligations.FillCopyConvert : Prop :=
  (∀ (id : Nat) (s : State) (c : Cmd) (x : Ctx) (b : Rng), s.wf = true → admittedAs s id 0x100 = some c → DataReady s c x [] →
    opnd (c.addr 4) (c.w 3) false true = some b →
    Completes (.fill id) s fun t =>
      let bytes : List (Byte × Bool) := (List.range (c.w 3)).map fun i => ((leBytes 8 (c.addr 6)).getD (((b.segs.headD (0, 0)).1 + i) % 8) 0, false)
      let w := writeRng c.agent x b bytes (dataWoken s c x [])
      t.mem = w.2.2.mem ∧ CmdBecomes id (fun y => y.completed w.1 (c.w 3 - w.2.1) 0) s t ∧ RngKept x b s t ∧ OnlyData s t) ∧
  (∀ (id : Nat) (s : State) (c : Cmd) (x : Ctx) (a b : Rng), s.wf = true → admittedAs s id 0x101 = some c → DataReady s c x [] →
    opnd (c.addr 4) (c.w 3) true false = some a → opnd (c.addr 6) (c.w 3) false true = some b →
    Completes (.copy id) s fun t =>
      let r := readRng c.agent x a (dataWoken s c x [])
      let w := writeRng c.agent x b r.2.1 r.2.2
      t.mem = w.2.2.mem ∧ CmdBecomes id (fun y => y.completed (r.1.join w.1) (c.w 3 - w.2.1) 0) s t ∧ RngKept x b s t ∧ OnlyData s t) ∧
  (∀ (id : Nat) (s : State) (c : Cmd) (x : Ctx), s.wf = true → admittedAs s id 0x101 = some c → DataServed s c x [] →
    (unitWaits s c.ctx (unitReads s c x) = true ∨ worksLeft s c.id = true) → Completes (.copy id) s fun t => t = { s with ctl := { s.ctl with pwr := t.ctl.pwr } }) ∧
  (∀ (id : Nat) (s : State) (c : Cmd) (x : Ctx) (a b : Rng), s.wf = true → admittedAs s id 0x102 = some c → DataReady s c x [] →
    opnd (c.addr 4) (fmtBytes (c.f 8 7 0) (c.w 3)) true false = some a → opnd (c.addr 6) (fmtBytes (c.f 8 15 8) (c.w 3)) false true = some b →
    Completes (.convertCopy id) s fun t =>
      let r := readRng c.agent x a (dataWoken s c x [])
      let vs := (elemValues (c.f 8 7 0) (c.w 3) r.2.1).map fun v => (fpScale (intVal 8 (c.f 8 31 24)) v.1, v.2)
      let w := writeRng c.agent x b (elemBytesOf (c.f 8 15 8) (c.bit 8 16) (c.bit 8 18) vs) r.2.2
      t.mem = w.2.2.mem ∧ RngKept x b s t ∧ OnlyData s t ∧
      CmdBecomes id (fun y => y.completed (r.1.join w.1) (c.w 3 - lostElems (c.f 8 15 8) (lostBytes w.2.2 x b)) 0) s t)

/-- FLUSH_RANGE (R179, R180), which admission has marked on the entries it covers and whose staging entries it has noted: the ports' reuse
entries of the range and context are gone, and the staging entries are written; with no marked write-back entry left it completes with the number of entries
counted so far and of its staging entries; otherwise it waits for the commits of the marked entries, which are issued, with that COUNT so far.
ECC_TEST_WRITE (R200) of an aligned 32 B store range that passes R44, outside SECURE partitions: it stores the 32 bytes of words 6 to 13 with the check
bits of words 14 to 17 and clears the tags, it completes OK, and it is logged; on a SECURE partition it is refused with BOUND_VIOLATION, and
logged, with no store byte changed. -/
def Obligations.FlushRangeAndEccTest : Prop :=
  (∀ (id : Nat) (s : State) (c : Cmd) (x : Ctx), s.wf = true → admittedAs s id 0x011 = some c → DataReady s c x [] →
    let base := c.addr 4 % 2 ^ 40; let len := 256 * c.w 3
    let es := s.wb.filter fun e => e.flushes.contains (.cmd id)
    let stage := (flushStage s c.ctx base len).filter fun e => c.after.contains e.2.id
    Completes (.flushRange id) s fun t =>
      (∀ n p, ∀ e ∈ (portOf t n p).reuse, ¬(e.ctx = c.ctx ∧ rangesMeet e.base 64 base len = true)) ∧
      (∃ st, (stage = [] → st = .ok) ∧
        (es = [] → CmdBecomes id (fun y => y.completed st (c.count + c.after.length) 0) s t ∧ t.wb = s.wb) ∧
        (es ≠ [] → CmdBecomes id (fun y => { y with phase := .waiting, status := y.status.join st, count := c.count + c.after.length }) s t ∧
          (EntriesNumbered s → ∀ e ∈ t.wb, .cmd id ∈ e.flushes → e.issued = true))) ∧
      (stage = [] → t.mem = s.mem) ∧
      CtxsKept s t ∧ t = { s with
          mem := { s.mem with data := t.mem.data, chk := t.mem.chk, tag := t.mem.tag, owed := t.mem.owed }, nextId := t.nextId, log := t.log
          integ := t.integ, ctxs := t.ctxs, slices := t.slices, cmds := t.cmds, ports := t.ports, ops := t.ops, wb := t.wb, beats := t.beats
          contracts := t.contracts, sync := { s.sync with waiters := t.sync.waiters }, movers := t.movers, works := t.works
          ctl := { s.ctl with pwr := t.ctl.pwr } }) ∧
  (∀ (id : Nat) (s : State) (c : Cmd) (x : Ctx) (r : Rng), s.wf = true → admittedAs s id 0x701 = some c → ctxOf s c.ctx = some x →
    Serves s (cmdAddrSlices s c.ctx (2 ^ 63 + c.addr 4 % 2 ^ 40) 32) → opndStore (c.addr 4) 32 false true = some r → c.addr 4 % 32 = 0 →
    rngCheck s x r = .ok →
    Completes (.eccTestWrite id) s fun t =>
      let ks := r.keys s x; let d := bytesOfWords ((c.words.drop 6).take 8); let chk := bytesOfWords ((c.words.drop 14).take 4)
      ((partOf s x.part).secure = false → CmdBecomes id (fun y => y.completed .ok 0 0) s t ∧
        Logged .ok 2 (qHome c.queue) 0 (.queue c.queue) (c.ctx % 2048) (c.addr 4) s t ∧
        StoresKept (if r.st = .w then (List.range 32).map (ks.headD 0 + ·) else ks) s t ∧
        (r.st = .w → isW (ks.headD 0) = true → (∀ i < d.length, mget (fun _ => 0) t.mem.data (ks.headD 0 + i) = d.getD i 0) ∧
          (∀ i < 4, i < chk.length → mget (fun _ => 0) t.mem.chk (ks.headD 0 + i) = chk.getD i 0 ^^^ (rsCheck d).getD i 0) ∧
          mget (fun _ => false) t.mem.tag (ks.headD 0) = false) ∧
        (r.st ≠ .w → ks.Nodup → ∀ i < Nat.min ks.length d.length, mget (fun _ => 0) t.mem.data (ks.getD i 0) = d.getD i 0 ∧
          mget (fun _ => 0) t.mem.chk (ks.getD i 0) = BitVec.ofNat 8 (nxor (leNat chk / 16 ^ i % 16) (hamCheck (d.getD i 0))) ∧
          mget (fun _ => false) t.mem.tag (ks.getD i 0) = false)) ∧
      ((partOf s x.part).secure = true → CmdBecomes id (fun y => y.refused .boundViolation 0) s t ∧
        Logged .boundViolation 2 (qHome c.queue) 0 (.queue c.queue) (c.ctx % 2048) (c.addr 4) s t ∧ t.mem = s.mem) ∧
      t = { s with
        mem := { s.mem with data := t.mem.data, chk := t.mem.chk, tag := t.mem.tag, owed := t.mem.owed }
        log := t.log, cmds := t.cmds, ctl := { s.ctl with pwr := t.ctl.pwr } })

/-! ## Near-memory compute (03, 07) -/

/-- Accumulation of one element on P-store bytes (R66 to R68, R239, R241): the stored element and the incoming one are combined, the result is
stored with matching check bits, poisoned where either was, the units outside are unchanged, and ACC_SAT counts a saturation. INT32 ADD is the sum
held within the format's range, saturating where it had to be; INT32 MAX is the larger.
REDUCE_ACC (R242, R243) whose slices serve, its destination on P-store bytes: COUNT is the elements left without poison, and nothing else changes
in the stores. Of one element with one source: the first term is written plainly where ACC is 0, poisoned whole where one of its bytes is, and
accumulated where it is 1. -/
def Obligations.AccumulationAndReduce : Prop :=
  ((∀ (a : Agent) (op k : Nat) (bs : List (Byte × Bool)) (s : State), s.wf = true → (∀ i < accSize op, isW (k + i) = false) →
    let t := (accumOne a op k bs (s, { status := .ok, lost := 0 })).1
    let old := (List.range (accSize op)).map fun i => byteAt s (k + i)
    let v := accElem op (leNat (old.map (·.1))) (leNat (bs.map (·.1)))
    (∀ i < accSize op, HoldsByte t (k + i) ((leBytes (accSize op) v.1).getD i 0) (old.any (·.2) || bs.any (·.2))) ∧
    StoresKept ((List.range (accSize op)).map (k + ·)) s t ∧
    (sliceOf t (placeOf k).slice).accSat = (if v.2 then ((sliceOf s (placeOf k).slice).accSat + 1) % 2 ^ 32 else (sliceOf s (placeOf k).slice).accSat) ∧
    CtxsKept s t ∧ SlicesCounted s t ∧
    t = { s with
      mem := { s.mem with data := t.mem.data, chk := t.mem.chk, tag := t.mem.tag, owed := t.mem.owed }
      log := t.log, integ := t.integ, ctxs := t.ctxs, slices := t.slices }) ∧
  (∀ a b : BitVec 32,
    let sum : Int := a.toInt + b.toInt
    accElem 4 a.toNat b.toNat = (if a.toInt < b.toInt then (b.toNat, false) else (a.toNat, false)) ∧
    accElem 0 a.toNat b.toNat = (if 2 ^ 31 ≤ sum then (0x7FFFFFFF, true) else if sum < -2 ^ 31 then (0x80000000, true) else ((a + b).toNat, false)))) ∧
  (∀ (id : Nat) (s : State) (c : Cmd) (x : Ctx) (sr dr : Rng), s.wf = true → admittedAs s id 0x202 = some c → DataReady s c x [] →
    redSrc c = some sr → redDst c = some dr → (∀ k ∈ reduceWrites s x c dr, isW k = false) →
    Completes (.reduceAcc id) s fun t =>
      OnlyData s t ∧ StoresKept (reduceWrites s x c dr) s t ∧ t.mem.ext = s.mem.ext ∧ t.mem.extPoison = s.mem.extPoison ∧
      (∃ st n, n ≤ c.w 3 ∧ CmdBecomes id (fun y => y.completed st n 0) s t) ∧
      (c.w 3 = 1 → c.w 4 = 1 →
        let u := dataWoken s c x []
        let src := pocketKeys (ctxSpan s x) sr.st (sr.pocket x) (sr.segs.getD 0 (0, 0)).1 (redBytes c)
        let bs := src.map (byteAt u)
        (c.bit 2 28 = false → t.mem = (writeBytes c.agent ((reduceKeys s x c dr 0).zip (bs.map fun b => (b.1, bs.any (·.2)))) (noteRead c.agent src u)).1.mem) ∧
        (c.bit 2 28 = true → t.mem = (accumOne c.agent (redOp c) ((reduceKeys s x c dr 0).headD 0) (src.map (byteAt u))
          (noteRead c.agent src u, { status := .ok, lost := 0 })).1.mem)))

/-- GEMV (R219 to R223) whose slices serve, with its results on P-store bytes: every result is an FP32 value, the dot product of a row's weights and a
column's activations, block by block, scaled by OSCALE, written or accumulated; nothing else changes in the stores, and in the slices only their
activation buffers and accumulator files (R208, R227). Of a GEMV of one
row and one column that no fault befell the stored value is given, and it completes OK with COUNT 1 where all it read was clean.
An NMU fault in a running GEMV (R228, R229): the first is retried and counted, a second ends it with code 0x81, and one that finds no spare tile
retires the NMU with code 0x80, raises SVC_STAT bit 3 and is logged; a fault of a tile uses a spare, and the retry starts from the shadow copy
of the accumulators (R227). -/
def Obligations.GemvAndNmuFaults : Prop :=
  (∀ (id : Nat) (s : State) (c : Cmd) (x : Ctx) (xr yr : Rng), s.wf = true → admittedAs s id 0x200 = some c →
    DataReady s c x (((gemvOf c).nmus s x).map (·.1)) → (gemvOf c).xRng = some xr → (gemvOf c).yRng = some yr →
    (∀ k ∈ gemvWrites s x (gemvOf c) yr, isW k = false) →
    let g := gemvOf c
    Completes (.gemv id) s fun t =>
      OnlyGemv s t ∧ StoresKept (gemvWrites s x g yr) s t ∧ t.mem.ext = s.mem.ext ∧ t.mem.extPoison = s.mem.extPoison ∧
      (∃ st n, n ≤ (gemvRows s x g).length * g.ncol ∧
        CmdBecomes id (fun y => y.completed st n ((c.after.filter fun m => decide (m < 2048)).length)) s t) ∧
      (∀ p i j r, gemvRows s x g = [(p, i, j, r)] → g.ncol = 1 → c.after = [] → g.k % 32 = 0 → 32 ≤ g.kstripe → g.kstripe % 32 = 0 →
        g.kstripe ≤ g.k → g.k * g.abytes ≤ 262144 →
        let q := readRng c.agent x xr (dataWoken s c x ((g.nmus s x).map (·.1)))
        let ks := gemvRowKeys s x g p i j
        let wb := ks.map (byteAt q.2.2)
        let xb := q.2.1.take (g.k * g.abytes)
        let v := gemvOut g.oscale (gemvDot (weightBlocks g (wb.map (·.1))) (chunks 32 (g.k / 32) ((elemValues g.afmt g.k xb).map (·.1))))
        let w := putResult c.agent yr.acc (pocketKeys (ctxSpan s x) yr.st (yr.pocket x) (offsetOf g.y + 4 * r) 4) v
          (wb.any (·.2) || xb.any (·.2)) (teleMove c.ctx (ks.headD 0) ks.length false (noteRead c.agent ks q.2.2))
        t.mem = w.2.2.mem ∧
          (g.n = 1 → w.2.1 = true → CmdBecomes id (fun y => y.completed ((q.1.join (readStatus q.2.2 ks)).join w.1) 1 0) s t))) ∧
  (∀ (n tier tile : Nat) (s : State) (c : Cmd), s.wf = true → s.cmds.find? (usesNmu s (n, tier)) = some c →
    Completes (.nmuFaultRetry n tier tile) s fun t =>
      let mark := nmuMark c (n, tier); let code := n * 4 + tier
      let adds (k : Nat) : Prop := CmdBecomes c.id (fun y => { y with after := y.after ++ [k * 1024 + code] }) s t
      let counts (i : Nat) : Prop := mget (fun _ => 0) t.integ i = (mget (fun _ => 0) s.integ i + 1) % 2 ^ 64
      (2 ≤ mark → t = s) ∧
      (mark < 2 → tile < 68 → 4 ≤ tilesUsed s n tier → adds 3 ∧ counts 20 ∧ nmuRetired t (n, tier) = true ∧
        Logged (.specific 0x80) 4 n (nmuUnit tier tile) .nobody (c.ctx % 2048) 0 s t ∧ bitOf (regGet t 0 (regNo 0x80 0x204)) 3 = true) ∧
      (mark = 1 → (68 ≤ tile ∨ tilesUsed s n tier < 4) → adds 2 ∧ counts 20 ∧
        Logged (.specific 0x81) 4 n (nmuUnit tier (Nat.min tile 67)) .nobody (c.ctx % 2048) 0 s t ∧
        tilesUsed t n tier = tilesUsed s n tier + (if tile < 68 then 1 else 0) ∧ t.regs = s.regs) ∧
      (mark = 0 → (68 ≤ tile ∨ tilesUsed s n tier < 4) → adds 1 ∧ counts 18 ∧
        (keysRise 0 (sliceOf s n).nmuRetries = true → mget (fun _ => 0) (sliceOf t n).nmuRetries tier = (mget (fun _ => 0) (sliceOf s n).nmuRetries tier + 1) % 65536) ∧
        tilesUsed t n tier = tilesUsed s n tier + (if tile < 68 then 1 else 0) ∧
        (keysRise 0 (sliceOf s n).nmuAcc = true → mget (fun _ => []) (sliceOf t n).nmuAcc tier = mget (fun _ => []) (sliceOf s n).nmuShadow tier) ∧
        t.log = s.log ∧ t.regs = s.regs) ∧
      (∀ m, m ≠ n → sliceOf t m = sliceOf s m) ∧
      t = { s with regs := t.regs, log := t.log, integ := t.integ, slices := t.slices, cmds := t.cmds, works := t.works, nextId := t.nextId })


/-- GATHER_POOL (R232 to R236) whose slices serve, its partial sums on P-store bytes: it skips the entries that name no row or bag, RESULT counting
them, and pools the rest, whose rows have still to pass their tiers' ports (08 R248); where it accumulates straight into its output (OMODE 2) it is then complete, else GATHER_POOL_FINISH follows. Of one
valid entry the pooled bag is given: its row's values, scaled and weighted, are accumulated into the bag's place.
GATHER_POOL_FINISH (R234, R235): each bag's sums, divided by its count for the means, zero for an empty bag, are written to OUT in its format,
nothing else changes in the stores, and the command completes with the counts it had. Of a pool of one bag the stored bytes are given. -/
def Obligations.GatherPoolPools : Prop :=
  (∀ (id : Nat) (s : State) (c : Cmd) (x : Ctx) (ir : Rng) (d : PoolDst), s.wf = true → admittedAs s id 0x201 = some c → c.after = [] →
    DataReady s c x (poolSlices s c x) → (poolOf c).idxRng = some ir → poolDst (poolOf c) = some d →
    (∀ k ∈ poolWrites s x (poolOf c) d, isW k = false) → d.rng.ext = false →
    let g := poolOf c
    let u := dataWoken s c x (poolSlices s c x)
    let z := if g.omode = 2 then u else (writeRng c.agent x d.rng (List.replicate (g.nbags * (4 * g.elems + 4)) (0, false)) u).2.2
    let q := readRng c.agent x ir z
    let raw := (chunks g.entryBytes g.nidx q.2.1).filter fun b => !b.any (·.2)
    let es := raw.filterMap fun b => poolEntry g (b.map (·.1))
    Completes (.gatherPool id) s fun t =>
      OnlyData s { t with works := s.works, nextId := s.nextId } ∧
      StoresKept ((if g.omode = 2 then [] else d.rng.keys s x) ++ poolWrites s x g d) s t ∧
      (∃ st n, n ≤ es.length ∧
        (g.omode = 2 → CmdBecomes id (fun y => y.completed st n (raw.length - es.length)) s t) ∧
        (g.omode ≠ 2 → CmdBecomes id (fun y => { y with status := y.status.join st, count := n, result := raw.length - es.length, after := [1] }) s t)) ∧
      (es = [] → t.mem = q.2.2.mem) ∧
      (∀ e, es = [e] →
        let v := drawFree q.2.2
        let (n, vs, bad, ks) := poolRow v x g e
        t.mem = (evict c.agent x (ctxSpan s x) d { slice := n, bag := e.bag, sums := vs, bad := bad, n := 1 }
          (teleAdd c.ctx 20 1 (teleMove c.ctx (ks.headD 0) ks.length false (noteRead c.agent ks v)))).mem)) ∧
  (∀ (id : Nat) (s : State) (c : Cmd) (x : Ctx) (d : PoolDst) (orr : Rng), s.wf = true → admittedAs s id 0x201 = some c → c.after.contains 1 = true →
    DataReady s c x [] → poolDst (poolOf c) = some d → (poolOf c).outRng = some orr →
    let g := poolOf c
    let out (b : Nat) : List Nat := pocketKeys (ctxSpan s x) orr.st (orr.pocket x) (offsetOf g.out + b * g.ostride) g.rowOut
    Completes (.gatherPoolFinish id) s fun t =>
      OnlyData s t ∧ StoresKept ((List.range g.nbags).flatMap out) s t ∧ t.mem.ext = s.mem.ext ∧ t.mem.extPoison = s.mem.extPoison ∧
      (∃ st, CmdBecomes id (fun y => y.completed st c.count c.result) s t) ∧
      (g.nbags = 1 →
        let u := drawFree (dataWoken s c x [])
        let ks := pocketKeys (ctxSpan s x) d.rng.st (d.rng.pocket x) (d.sumOff 0) (4 * g.elems)
        let ck := pocketKeys (ctxSpan s x) d.rng.st (d.rng.pocket x) ((d.cntOff.getD fun _ => 0) 0) 4
        let n := leNat ((ck.map (byteAt u)).map (·.1))
        let vs := (elemValues 0 g.elems (ks.map (byteAt u))).map fun v =>
          (if g.mode % 2 = 1 then (if n = 0 then .fin false 0 0 else round32 (fpDivNat v.1 n)) else v.1, (ks ++ ck).any fun k => (byteAt u k).2)
        t.mem = (writeBytes c.agent ((out 0).zip (elemBytesOf (if g.omode = 0 then g.ofmt else 0)
            (decide (g.omode = 0) && decide (g.rnd = 1)) (decide (g.omode = 0) && g.sat) vs))
          (noteRead c.agent (ks ++ ck) u)).1.mem))

/-! ## Synchronisation (10) -/

/-- R313: each change of a REALIGN counter of epoch length N and period P, and its status and RESULT (R315). ADD a adds a to V; while V reaches N, E
rises and V falls by N, and where P is nonzero and E becomes a multiple of it, the V left is added to DRIFT and V becomes 0. SUB a takes
a from V, or leaves 0 and adds the shortfall to DRIFT. SET a sets V, E unchanged, and with a ≥ N completes DECODE_ERROR. ALIGN a sets E to a and V to 0,
returning DRIFT with the V it discards, and then setting it to 0. -/
def Obligations.RealignCounterChanges : Prop :=
  ∀ (k : Counter) (a : Nat), k.realign = true → 1 ≤ k.pa →
    (k.v + a < k.pa → changeCounter .add a k = (.ok, k.e, { k with v := k.v + a })) ∧
    (k.pa ≤ k.v + a →
      let e := (k.e + 1) % 2 ^ 32; let left := k.v + a - k.pa
      (k.pb ≠ 0 ∧ e % k.pb = 0 → changeCounter .add a k = (.ok, e, { k with e := e, v := 0, drift := satAdd 32 k.drift left })) ∧
      (k.pb = 0 ∨ e % k.pb ≠ 0 → changeCounter .add a k = changeCounter .add left { k with e := e, v := 0 })) ∧
    (a ≤ k.v → changeCounter .sub a k = (.ok, k.e, { k with v := k.v - a })) ∧
    (k.v < a → changeCounter .sub a k = (.ok, k.e, { k with v := 0, drift := satAdd 32 k.drift (a - k.v) })) ∧
    (a < k.pa → changeCounter .set a k = (.ok, k.e, { k with v := a })) ∧
    (k.pa ≤ a → changeCounter .set a k = (.decodeError, 0, k)) ∧
    changeCounter .align a k = (.ok, satAdd 32 k.drift k.v, { k with e := a, v := 0, drift := 0 })

/-- SIGNAL of a mapped counter of this device with no waiters, and COUNTER_ADD, on a slice that serves (R312 to R315, R318): the counter takes
the change and its LASTSIG, and nothing else but the command changes. A STRICT counter takes an exact sum or difference; one outside 0 to LIMIT is
not applied: the counter faults, which is logged, and every waiter on it is gone; a faulted one refuses ADD and SUB; SET clears the fault, and is
refused above LIMIT, as ALIGN is. An unmapped VID completes BOUND_VIOLATION. -/
def Obligations.SignalsChangeCounters : Prop :=
  (∀ (id : Nat) (s : State) (c : Cmd) (x : Ctx), s.wf = true → admittedAs s id 0x300 = some c → ctxOf s c.ctx = some x → c.bit 2 29 = false →
    (counterOf s c.ctx (c.f 3 15 0) = none →
      Completes (.signal id) s fun t => CmdBecomes id (fun y => y.refused .boundViolation 0) s t ∧ t = { s with cmds := t.cmds }) ∧
    (∀ ph, counterOf s c.ctx (c.f 3 15 0) = some ph → Serves s [counterHome ph] →
      let k := getCounter s ph; let a := c.w 4; let op := sigOpOf (c.f 2 31 30); let r := changeCounter op a k
      let free := ∀ w ∈ s.sync.waiters, ¬(w.lock = false ∧ w.phys = ph)
      (free → r.1 = .ok → Completes (.signal id) s fun t => getCounter t ph = { r.2.2 with lastsig := lastsigQueue c.queue } ∧
        (∀ p, p ≠ ph → getCounter t p = getCounter s p) ∧ CmdBecomes id (fun y => y.completed .ok 0 r.2.1) s t ∧
        t = { s with cmds := t.cmds, sync := { s.sync with counters := t.sync.counters }, ctl := { s.ctl with pwr := t.ctl.pwr } }) ∧
      (r.1 ≠ .ok → (r.1 = .counterFault → k.fault = true) → Completes (.signal id) s fun t =>
        CmdBecomes id (fun y => y.completed r.1 0 r.2.1) s t ∧ t = { s with cmds := t.cmds, ctl := { s.ctl with pwr := t.ctl.pwr } }) ∧
      (r.1 = .counterFault → k.fault = false → Completes (.signal id) s fun t => getCounter t ph = { k with fault := true } ∧
        (∀ w ∈ t.sync.waiters, ¬(w.lock = false ∧ w.phys = ph)) ∧ (∃ d, cmdOf t id = some d ∧ d.phase = .done) ∧
        Logged .counterFault 2 (counterHome ph) 0 (.queue c.queue) (k.mapped.getD (0, 0)).1 (k.mapped.getD (0, 0)).2 s t ∧
        (free → CmdBecomes id (fun y => y.completed .counterFault 0 k.v) s t) ∧
        t = { s with cmds := t.cmds, sync := t.sync, log := t.log, movers := t.movers, outbox := t.outbox, ctl := { s.ctl with pwr := t.ctl.pwr } }))) ∧
  (∀ (k : Counter) (a : Nat), k.realign = false →
    (k.fault = false → (k.v + a ≤ k.pa → changeCounter .add a k = (.ok, k.v + a, { k with v := k.v + a })) ∧
      (k.pa < k.v + a → changeCounter .add a k = (.counterFault, k.v, { k with fault := true })) ∧
      (a ≤ k.v → changeCounter .sub a k = (.ok, k.v - a, { k with v := k.v - a })) ∧
      (k.v < a → changeCounter .sub a k = (.counterFault, k.v, { k with fault := true }))) ∧
    (k.fault = true → changeCounter .add a k = (.counterFault, k.v, k) ∧ changeCounter .sub a k = (.counterFault, k.v, k)) ∧
    (a ≤ k.pa → changeCounter .set a k = (.ok, a, { k with v := a, fault := false })) ∧
    (k.pa < a → changeCounter .set a k = (.decodeError, 0, k)) ∧ changeCounter .align a k = (.decodeError, 0, k)) ∧
  (∀ (path : MsgPath) (ctx : Nat) (v : DWord) (s : State) (ph : Nat), s.wf = true → hostMsgOk s path ctx = true → msgTenantOk s path ctx = true →
    bitsOf v.toNat 31 16 = 0 → counterOf s ctx (v.toNat % 65536) = some ph → (∀ w ∈ s.sync.waiters, ¬(w.lock = false ∧ w.phys = ph)) →
    let k := getCounter s ph; let r := changeCounter .add (bitsOf v.toNat 63 32) k
    let last := match path with
      | .host _ => lastsigHost
      | .core _ stop _ => lastsigCore stop
    let who := match path with
      | .host _ => Who.nobody
      | .core n stop _ => .mesh n (devId s) stop
    Completes (.counterAdd path ctx v) s fun t =>
      (r.1 = .ok → getCounter t ph = { r.2.2 with lastsig := last } ∧ t.log = s.log) ∧
      (r.1 ≠ .ok → k.fault = false → getCounter t ph = { k with fault := true } ∧
        Logged .counterFault 2 (counterHome ph) 0 who (k.mapped.getD (0, 0)).1 (k.mapped.getD (0, 0)).2 s t) ∧
      (r.1 ≠ .ok → k.fault = true → t.sync = s.sync ∧ t.log = s.log) ∧ (∀ p, p ≠ ph → getCounter t p = getCounter s p) ∧
      t = { s with log := t.log, sync := { s.sync with counters := t.sync.counters }, ctl := { s.ctl with pwr := t.ctl.pwr } })

/-- WAIT (R319 to R322) on a mapped counter: refused where its condition does not suit the counter or the counter is faulted; satisfied at once where
it holds, CONSUME taking TARGET from V and WAKE_EN sending the wake message; else it leaves a waiter, in the order of arrival, or stays where
there is none to take; on a queue that is closing it ends at once with TIMEOUT_WATCHDOG (05 R159). A change then satisfies a waiter whose condition holds for the value after it, and a consuming one takes TARGET. WAIT_TIMEOUT and
CONTEXT_WATCHDOG end a waiter with TIMEOUT_WATCHDOG at its time, without consuming, and a deferred CREDIT_REQUEST too, which withdraws its request (12 R374); neither acts
while the tenant is suspended (13 R394). -/
def Obligations.WaitersWaitAndEnd : Prop :=
  (∀ (id : Nat) (s : State) (c : Cmd) (ph : Nat), s.wf = true → admittedAs s id 0x301 = some c → counterOf s c.ctx (c.f 3 15 0) = some ph → c.f 2 31 30 < 3 →
    let k := getCounter s ph; let cond := c.f 2 31 30; let consume := c.bit 2 29; let wake := c.bit 5 31; let target := c.w 4
    let suits := k.realign = decide (cond = 2) ∧ (consume = true → cond = 0) ∧ (wake = false → c.f 5 21 0 = 0)
    (¬suits → Completes (.wait id) s fun t => CmdBecomes id (fun y => y.refused .decodeError 0) s t ∧ t = { s with cmds := t.cmds }) ∧
    (suits → k.fault = true → Completes (.wait id) s fun t => CmdBecomes id (fun y => y.refused .counterFault 0) s t ∧ t = { s with cmds := t.cmds }) ∧
    (suits → k.fault = false → condHolds cond target k = true → Completes (.wait id) s fun t =>
      getCounter t ph = (if consume then { k with v := k.v - target } else k) ∧ (∀ p, p ≠ ph → getCounter t p = getCounter s p) ∧
      CmdBecomes id (fun y => y.completed .ok 0 (if cond = 2 then k.e else k.v)) s t ∧
      t.outbox = (if wake then .wake (c.f 5 21 16) c.ctx (c.f 5 15 0) :: s.outbox else s.outbox) ∧
      t = { s with cmds := t.cmds, outbox := t.outbox, sync := { s.sync with counters := t.sync.counters } }) ∧
    (suits → k.fault = false → condHolds cond target k = false → queueClosing s c.queue = true → Completes (.wait id) s fun t =>
      CmdBecomes id (fun y => y.completed .timeoutWatchdog 0 (if cond = 2 then k.e else k.v)) s t ∧ t = { s with cmds := t.cmds }) ∧
    (suits → k.fault = false → condHolds cond target k = false → queueClosing s c.queue = false →
      (waiterRoom s (counterHome ph) c.ctx id = true → Completes (.wait id) s fun t => CmdBecomes id (fun y => { y with phase := .waiting }) s t ∧
        t = { s with
          cmds := t.cmds, nextId := s.nextId + 1,
          sync := { s.sync with waiters := s.sync.waiters ++ [{ id := s.nextId, lock := false, phys := ph, by_ := .cmd c.id, ctx := c.ctx, queue := c.queue, cond := cond, consume := consume, target := target, tmo := c.f 3 31 16, since := s.rc, wake := if wake then some (c.f 5 21 16, c.f 5 15 0) else none, hid := 0, paused := none }] } }) ∧
      (waiterRoom s (counterHome ph) c.ctx id = false → Completes (.wait id) s fun t => t = s))) ∧
  (∀ (s : State) (ph : Nat) (w : Waiter), s.wf = true → (s.sync.waiters.filter fun v => !v.lock && v.phys == ph) = [w] →
    let t := decideWaiters ph s
    (condHolds w.cond w.target (getCounter s ph) = false → t = s) ∧
    (condHolds w.cond w.target (getCounter s ph) = true → (∀ v ∈ t.sync.waiters, v.id ≠ w.id) ∧
      getCounter t ph = (if w.consume then { getCounter s ph with v := (getCounter s ph).v - w.target } else getCounter s ph) ∧
      (∀ j, w.by_ = .cmd j → CmdBecomes j (fun y => y.completed .ok 0 (if w.consume then (getCounter s ph).v else waitResult w.cond (getCounter s ph))) s t) ∧
      t.outbox = (match w.wake with
        | some (stop, tag) => .wake stop w.ctx tag :: s.outbox
        | none => s.outbox))) ∧
  (∀ (i : Nat) (s : State) (w : Waiter) (j : Nat), (s.sync.waiters.filter fun v => v.id == i) = [w] → w.paused = none → w.by_ = .cmd j → w.lock = false →
    let ends (due : Nat) (t : State) : Prop := t.rc = Nat.max s.rc due ∧
      CmdBecomes j (fun y => y.completed .timeoutWatchdog 0 (waitResult w.cond (getCounter s w.phys))) s t ∧
      t = { s with rc := t.rc, cmds := t.cmds, sync := { s.sync with waiters := s.sync.waiters.filter fun v => v.id != i } }
    (w.tmo ≠ 0 → Completes (.waitTimeout i) s (ends (w.since + w.tmo * 100))) ∧
    Completes (.contextWatchdog i) s (ends (w.since + wdogRc s w.ctx))) ∧
  (∀ (i : Nat) (s : State) (w : Waiter), s.sync.waiters.find? (fun v => v.id == i) = some w → w.paused ≠ none →
    exec (.waitTimeout i) s = .next s ∧ exec (.contextWatchdog i) s = .next s) ∧
  (∀ (i : Nat) (s : State) (r : FabReq), (∀ v ∈ s.sync.waiters, v.id ≠ i) → deferredReq s i = some r →
    (r.paused ≠ none → exec (.waitTimeout i) s = .next s ∧ exec (.contextWatchdog i) s = .next s) ∧
    (∀ j, r.paused = none → r.origin = .cmd j →
      let m := cmsgOf (0 :: r.words)
      let ends (due : Nat) (t : State) : Prop := t.rc = Nat.max s.rc due ∧ CmdBecomes j (fun y => y.completed .timeoutWatchdog 0 0) s t ∧
        t.fab.reqs = s.fab.reqs.map (fun y => if y.id = r.id then { y with gone := true, origin := .none } else y) ∧
        t.outbox = .frame r.port (r.route :: { CMsg.zero with
          ckind := 4, srcdev := m.srcdev, tenant := m.tenant, tctx := m.tctx, reqid := r.tag }.words) [] [] :: s.outbox ∧
        t = { s with rc := t.rc, cmds := t.cmds, outbox := t.outbox, fab := { s.fab with reqs := t.fab.reqs } }
      (r.tmo ≠ 0 → Completes (.waitTimeout i) s (ends (r.since + r.tmo * 100))) ∧
      Completes (.contextWatchdog i) s (ends (r.sentAt + wdogRc s r.ctx))))

/-- R327, R328, R330: a free lock goes to its acquirer, LOCK_ABANDONED where its flag is set; a held one answers its holder ALREADY_HELD, a TRY LOCK_BUSY,
and leaves a waiter else, or on a queue that is closing ends with TIMEOUT_WATCHDOG; a release or a clear by another answers NOT_HOLDER; a release frees it or hands it to the oldest waiter, the flag
standing; a clear clears the flag. RESULT tells the flag as it was. An unmapped LVID completes BOUND_VIOLATION. RESET_NOTIFY force-releases the
locks of its pair, logs each, and acknowledges.
CMAP_CMD (R308 to R310) through the mesh port of an enabled slice: MAP of an unmapped object of the context's partition, to a free virtual ID, sets
the mapping and the object's state from CMAP_PARAM, the last-signaller record none, and UNMAP of an object that nothing holds or waits on zeroes it; CMAP_STAT
tells the outcome, and each other case changes no object. DBG_SEL takes the view of R331 to R333, and changes no object. -/
def Obligations.LocksAndCounterMap : Prop :=
  ((∀ (id ph : Nat) (s : State) (c : Cmd), s.wf = true → lockOf s c.ctx (c.f 3 11 0) = some ph →
    let l := getLock s ph; let me := (c.ctx, c.f 4 15 0); let flagNow := if l.abandoned then 1 else 0
    let only (t : State) : Prop := (∀ p, p ≠ ph → getLock t p = getLock s p) ∧ t = { s with cmds := t.cmds, sync := { s.sync with locks := t.sync.locks } }
    let done (st : Status) (l' : Lock) (t : State) : Prop := getLock t ph = l' ∧ CmdBecomes id (fun y => y.completed st 0 flagNow) s t ∧ only t
    (admittedAs s id 0x302 = some c →
      (l.holder = none → Completes (.lockAcquire id) s
        (done (if l.abandoned then .lockAbandoned else .ok) { l with holder := some me, lastsig := lastsigQueue c.queue })) ∧
      (l.holder = some me → Completes (.lockAcquire id) s (done (.specific 0x81) l)) ∧
      (∀ h, l.holder = some h → h ≠ me → c.bit 2 31 = true → Completes (.lockAcquire id) s (done (.specific 0x80) l)) ∧
      (∀ h, l.holder = some h → h ≠ me → c.bit 2 31 = false → queueClosing s c.queue = true → Completes (.lockAcquire id) s (done .timeoutWatchdog l)) ∧
      (∀ h, l.holder = some h → h ≠ me → c.bit 2 31 = false → queueClosing s c.queue = false → waiterRoom s (lockHome ph) c.ctx id = true → Completes (.lockAcquire id) s fun t =>
        CmdBecomes id (fun y => { y with phase := .waiting }) s t ∧
        (∃ w, t.sync.waiters = s.sync.waiters ++ [w] ∧ w.lock = true ∧ w.phys = ph ∧ w.by_ = .cmd c.id ∧ w.hid = c.f 4 15 0 ∧ w.ctx = c.ctx ∧
          w.tmo = c.f 3 31 16 ∧ w.since = s.rc) ∧
        t = { s with cmds := t.cmds, nextId := s.nextId + 1, sync := { s.sync with waiters := t.sync.waiters } })) ∧
    (admittedAs s id 0x303 = some c →
      (l.holder ≠ some me → Completes (.lockRelease id) s (done (.specific 0x82) l)) ∧
      (l.holder = some me → (∀ w ∈ s.sync.waiters, ¬(w.lock = true ∧ w.phys = ph)) →
        Completes (.lockRelease id) s (done .ok { l with holder := none, lastsig := lastsigQueue c.queue })) ∧
      (∀ w, l.holder = some me → (s.sync.waiters.find? fun v => v.lock && v.phys == ph) = some w →
        Completes (.lockRelease id) s fun t => getLock t ph = { l with holder := some (w.ctx, w.hid), lastsig := lastsigQueue w.queue } ∧
          (∀ v ∈ t.sync.waiters, v.id ≠ w.id) ∧ (∀ p, p ≠ ph → getLock t p = getLock s p) ∧ t.sync.counters = s.sync.counters ∧
          ((∀ j, w.by_ = .cmd j → j ≠ id) → cmdOf t id = some (c.completed .ok 0 flagNow)) ∧
          (∀ j, w.by_ = .cmd j → j ≠ id →
            ∀ d, cmdOf s j = some d → cmdOf t j = some (d.completed (if l.abandoned then .lockAbandoned else .ok) 0 flagNow)))) ∧
    (admittedAs s id 0x304 = some c →
      (l.holder ≠ some me → Completes (.lockClearAbandoned id) s (done (.specific 0x82) l)) ∧
      (l.holder = some me → Completes (.lockClearAbandoned id) s (done .ok { l with abandoned := false })))) ∧
  (∀ (id : Nat) (s : State) (c : Cmd), lockOf s c.ctx (c.f 3 11 0) = none →
    let refused (t : State) : Prop := CmdBecomes id (fun y => y.refused .boundViolation 0) s t ∧ t = { s with cmds := t.cmds }
    (admittedAs s id 0x302 = some c → Completes (.lockAcquire id) s refused) ∧ (admittedAs s id 0x303 = some c → Completes (.lockRelease id) s refused) ∧
      (admittedAs s id 0x304 = some c → Completes (.lockClearAbandoned id) s refused)) ∧
  (∀ (ctx hid : Nat) (s : State), s.wf = true → (∀ w ∈ s.sync.waiters, w.lock = false) →
    Completes (.resetNotify ctx hid) s fun t => t.outbox = .resetAck ctx hid :: s.outbox ∧
      (∀ ph, (getLock s ph).holder = some (ctx, hid) → getLock t ph = { getLock s ph with holder := none, abandoned := true }) ∧
      (∀ ph, (getLock s ph).holder ≠ some (ctx, hid) → getLock t ph = getLock s ph) ∧
      ((∀ ph, (getLock s ph).holder ≠ some (ctx, hid)) → t.log = s.log) ∧
      t = { s with outbox := t.outbox, log := t.log, sync := { s.sync with locks := t.sync.locks } })) ∧
  ((∀ (v : DWord) (w : RegWriter) (s : State), s.wf = true → MeshOpen w s → bitsOf v.toNat 31 18 = 0 →
    let n := v.toNat; let kind := bitsOf n 61 61; let c := bitsOf n 58 48; let vid := bitsOf n 47 32; let ph := bitsOf n 17 0
    let pa := regGet s 0 (cmapParam + 1); let pb := regGet s 0 cmapParam
    let stat (r : Nat) (t : State) : Prop := regGet t 0 cmapStat = r ∧ Responds (cmapCmd * 4) .ok s t ∧ t.sync.waiters = s.sync.waiters ∧
      t = { s with regs := t.regs, outbox := t.outbox, ctxs := t.ctxs, sync := t.sync }
    let kept (t : State) : Prop := t.ctxs = s.ctxs ∧ t.sync = s.sync
    (bitsOf n 63 62 = 1 →
      (cmapMalformed s n = true → Completes (.map v w) s fun t => stat 0x12 t ∧ kept t) ∧
      (cmapMalformed s n = false → (∀ x, ctxOf s c = some x → x.destroying = true) → Completes (.map v w) s fun t => stat 0x11 t ∧ kept t) ∧
      (∀ x, cmapMalformed s n = false → ctxOf s c = some x → (ctxSpan s x).has (if kind = 1 then lockHome ph else counterHome ph) = false →
        Completes (.map v w) s fun t => stat 0x11 t ∧ kept t) ∧
      (∀ x, cmapMalformed s n = false → ctxOf s c = some x → x.destroying = false →
        (ctxSpan s x).has (if kind = 1 then lockHome ph else counterHome ph) = true →
        (if kind = 1 then (getLock s ph).mapped = none else (getCounter s ph).mapped = none) → lookupObj x kind vid = none →
        Completes (.map v w) s fun t => stat 0 t ∧
          (∃ y, ctxOf t c = some y ∧ lookupObj y kind vid = some ph ∧ y = { x with cmap := y.cmap }) ∧ (∀ d, d ≠ c → ctxOf t d = ctxOf s d) ∧
          (kind = 0 → getCounter t ph = { Counter.zero with mapped := some (c, vid), realign := bitOf n 60, remote := bitOf n 59, pa := pa, pb := pb, v := if bitOf n 60 then 0 else pb }) ∧
          (kind = 1 → getLock t ph = { Lock.zero with mapped := some (c, vid) }))) ∧
    (bitsOf n 63 62 = 2 → cmapMalformed s n = true → Completes (.unmap v w) s fun t => stat 0x12 t ∧ kept t) ∧
    (bitsOf n 63 62 = 2 → ∀ x, cmapMalformed s n = false → ctxOf s c = some x → x.destroying = false →
      (ctxSpan s x).has (if kind = 1 then lockHome ph else counterHome ph) = true →
      (lookupObj x kind vid = none → Completes (.unmap v w) s fun t => stat 0 t ∧ kept t) ∧
      (∀ q, lookupObj x kind vid = some q → objectBusy s kind q = true → Completes (.unmap v w) s fun t => stat 0x82 t ∧ kept t) ∧
      (∀ q, lookupObj x kind vid = some q → objectBusy s kind q = false → keysRise 0 x.cmap = true → Completes (.unmap v w) s fun t => stat 0 t ∧
        (kind = 0 → getCounter t q = Counter.zero) ∧ (kind = 1 → getLock t q = Lock.zero) ∧
        ∃ y, ctxOf t c = some y ∧ lookupObj y kind vid = none ∧ y = { x with cmap := y.cmap }))) ∧
  (∀ (v : DWord) (w : RegWriter) (s : State), s.wf = true → MeshOpen w s → dbgReserved v.toNat = false →
    Completes (.dbgSelWrite v w) s fun t => Responds (dbgSel * 4) .ok s t ∧
      (∀ i < 9, regGet t 0 (dbgView + i) = (dbgViewOf s v.toNat).getD i 0 % 2 ^ 32) ∧
      (∀ r, r < dbgSel ∨ dbgView + 9 ≤ r → mget (fun _ => 0) t.regs r = mget (fun _ => 0) s.regs r) ∧ t = { s with regs := t.regs, outbox := t.outbox }) ∧
  (∀ (n : Nat) (s : State) (x : Ctx), ctxOf s (bitsOf n 58 48) = some x → x.dbg = false → dbgViewOf s n = [0x11 * 2 ^ 24, 0, 0, 0, 0, 0, 0, 0, 0]))

/-! ## Contexts and pockets (02, 06) -/

/-- POCKET_SET (R184 to R186, R40, R41, R48) of a context that is not being destroyed, on slices that serve: a bad descriptor completes DECODE_ERROR, one under
a contract REJECTED_CONTRACT, one that R40 refuses BOUND_VIOLATION; a descriptor in place of one that releases no line is set at once; one that
releases lines makes the old pocket CLEARING, starts their clear and waits. The context's other pockets stand in each case.
CLEAR_DONE (R169, R185, R187): every line of the clear reads as zero with clear tags, no other byte changes, and what waited goes on: a POCKET_SET
sets its pocket and completes OK; a CTX_DESTROY frees its context and completes with its counts. -/
def Obligations.PocketsAreSetAndCleared : Prop :=
  (∀ (id : Nat) (s : State) (c : Cmd) (x : Ctx) (st : Store), s.wf = true → admittedAs s id 0x400 = some c → ctxOf s c.ctx = some x → x.destroying = false →
    storeOf (c.f 2 16 15) = some st → Serves s (ctxSpan s x).slices →
    let raw := dwordAt c.words 3; let p := Pocket.ofBits raw; let pk := c.f 2 14 11; let old := x.pocket st pk; let sp := ctxSpan s x
    let badly := (p.valid = false ∧ raw ≠ 0) ∨ (p.valid = true ∧ p.spread = true ∧ p.home ≠ 0)
    let fits := p.valid = true → r40Bad s x c.ctx st pk p = false ∧ (∀ e ∈ settingPockets s x.part, pocketsOverlap sp st p e.1 e.2 = false) ∧
      awaitsClear s sp st p = false
    let rel := releasedLines sp st old p
    let refused (e : Status) (t : State) : Prop := CmdBecomes id (fun y => y.refused e 0) s t ∧
      t = { s with cmds := t.cmds, ctl := { s.ctl with pwr := t.ctl.pwr } }
    let others (t : State) : Prop := (∀ d, d ≠ c.ctx → ctxOf t d = ctxOf s d) ∧ ∃ y, ctxOf t c.ctx = some y ∧ y = { x with pockets := y.pockets } ∧
      ∀ st' k, pocketIx st' k ≠ pocketIx st pk → y.pocket st' k = x.pocket st' k
    (badly → Completes (.pocketSet id) s (refused .decodeError)) ∧
    (¬badly → ctxContract s c.ctx = true → Completes (.pocketSet id) s (refused .rejectedContract)) ∧
    (¬badly → ctxContract s c.ctx = false → p.valid = true → r40Bad s x c.ctx st pk p = true → Completes (.pocketSet id) s (refused .boundViolation)) ∧
    (¬badly → ctxContract s c.ctx = false → fits → (old.valid = true → pocketInUse s c.ctx st pk id = false ∧ pocketSpilling s c.ctx st pk = false ∧ old.state ≠ .clearing) → keysRise 0 x.pockets = true →
      (rel = [] → Completes (.pocketSet id) s fun t => CmdBecomes id (fun y => y.completed .ok 0 0) s t ∧ others t ∧
        (∃ y, ctxOf t c.ctx = some y ∧ y.pocket st pk = p) ∧
        (∀ g ∈ t.fab.grants, g.part = x.part → g.tctx = c.ctx → g.store = st.code → g.pocket = pk → g.live = false) ∧
        t = { s with ctxs := t.ctxs, cmds := t.cmds, ports := t.ports, fab := { s.fab with grants := t.fab.grants }, outbox := t.outbox
                     ctl := { s.ctl with pwr := t.ctl.pwr } }) ∧
      (rel ≠ [] → Completes (.pocketSet id) s fun t => CmdBecomes id (fun y => { y with phase := .waiting, after := [2, s.nextId] }) s t ∧ others t ∧
        (∃ y, ctxOf t c.ctx = some y ∧ y.pocket st pk = { old with state := .clearing }) ∧
        (∃ j, t.clears = s.clears ++ [j] ∧ j.id = s.nextId ∧ j.part = x.part ∧ j.todo = rel.filter fun l => !slcFailed s (l.1 / 1024)) ∧
        t = { s with nextId := s.nextId + 1, ctxs := t.ctxs, cmds := t.cmds, clears := t.clears, ctl := { s.ctl with pwr := t.ctl.pwr } }))) ∧
  (∀ (id : Nat) (s : State) (j : ClearJob) (d : Cmd) (x : Ctx), s.wf = true → (s.clears.find? fun k => k.id == id) = some j →
    (s.cmds.filter fun e => e.phase == .waiting && e.after == [2, id]) = [d] → ctxOf s d.ctx = some x → (∀ e ∈ s.movers.chans, e.2.clear ≠ id) →
    let inside (k : Nat) : Prop := ∃ l ∈ j.todo, k / 524288 = l.1 ∧ l.2.1 ≤ k / 256 % 2048 ∧ k / 256 % 2048 < l.2.2
    Completes (.clearDone id) s fun t =>
      (∀ k, inside k → mget (fun _ => 0) t.mem.data k = 0 ∧ mget (fun _ => 0) t.mem.chk k = 0 ∧ mget (fun _ => false) t.mem.tag k = false) ∧
      (∀ k, ¬inside k → mget (fun _ => 0) t.mem.data k = mget (fun _ => 0) s.mem.data k ∧ mget (fun _ => 0) t.mem.chk k = mget (fun _ => 0) s.mem.chk k ∧
        mget (fun _ => false) t.mem.tag k = mget (fun _ => false) s.mem.tag k) ∧
      t.clears = s.clears.filter (fun k => k.id != id) ∧
      (∀ st, d.opcode = 0x400 → storeOf (d.f 2 16 15) = some st → keysRise 0 x.pockets = true → CmdBecomes d.id (fun y => y.completed .ok 0 0) s t ∧
        ∃ y, ctxOf t d.ctx = some y ∧ y.pocket st (d.f 2 14 11) = Pocket.ofBits (dwordAt d.words 3) ∧ y = { x with pockets := y.pockets }) ∧
      (d.opcode = 0x402 → ctxOf t d.ctx = none ∧ (∃ e, cmdOf t d.id = some e ∧ e.phase = .done ∧ e.count = d.count ∧ e.result = d.result)) ∧
      (∀ c, c ≠ d.ctx → ctxOf t c = ctxOf s c) ∧
      t = { s with
          mem := { s.mem with data := t.mem.data, chk := t.mem.chk, tag := t.mem.tag, owed := t.mem.owed }, ctxs := t.ctxs, parts := t.parts
          cmds := t.cmds, ports := t.ports, clears := t.clears, movers := t.movers, outbox := t.outbox, fab := { t.fab with reqs := s.fab.reqs }
          ready := t.ready })


/-- CTX_CREATE (R183, R394): a tenant of zero, unaligned external windows and a window without a key complete DECODE_ERROR; a number in use 0x80; a partition that
takes none 0x82, or that holds 64 0x81; else the context exists as its fields say, with no pocket, no mapping and no count, ACTIVE or SUSPENDED.
CTX_DESTROY (R187, R188): of a number that names no context it completes 0x80; else the context is marked as being destroyed and faulted; when all that is its own has come
to rest its contracts and credits are returned; when those are gone every valid pocket enters CLEARING, their clear starts, and the
command waits for it, COUNT being the bytes and RESULT the locks it force-released. -/
def Obligations.ContextsComeAndGo : Prop :=
  (∀ (id : Nat) (s : State) (c : Cmd), s.wf = true → admittedAs s id 0x401 = some c →
    let base := c.addr 4; let size := c.addr 6; let tenant := c.f 2 31 16; let p := c.f 2 15 11
    let badly := tenant = 0 ∨ base % 4096 ≠ 0 ∨ size % 4096 ≠ 0 ∨ base / 2 ^ 52 ≠ 0 ∨ (size ≠ 0 ∧ c.bit 3 15 = false)
    let refused (e : Status) (t : State) : Prop := CmdBecomes id (fun y => y.refused e 0) s t ∧ t = { s with cmds := t.cmds }
    (badly → Completes (.ctxCreate id) s (refused .decodeError)) ∧
    (∀ x, ¬badly → ctxOf s c.ctx = some x →
      (x.destroying = false → Completes (.ctxCreate id) s (refused (.specific 0x80))) ∧
      (x.destroying = true → c.bit 3 0 = true → Completes (.ctxCreate id) s (refused .pendingShutdown))) ∧
    (¬badly → ctxOf s c.ctx = none →
      (partTakes s p = false → Completes (.ctxCreate id) s (refused (.specific 0x82))) ∧
      (partTakes s p = true → 64 ≤ (partCtxs s p).length → Completes (.ctxCreate id) s (refused (.specific 0x81))) ∧
      (partTakes s p = true → (partCtxs s p).length < 64 → Completes (.ctxCreate id) s fun t =>
        CmdBecomes id (fun y => y.completed .ok 0 0) s t ∧ (∀ d, d ≠ c.ctx → ctxOf t d = ctxOf s d) ∧
        (∃ x, ctxOf t c.ctx = some x ∧ x.tenant = tenant ∧ x.part = p ∧ x.wdog = c.f 3 31 16 ∧ x.keyEn = c.bit 3 15 ∧ x.keySlot = c.f 3 13 8 ∧
          x.dbg = c.bit 3 1 ∧ x.extBase = base ∧ x.extSize = size ∧ x.destroying = false ∧ x.pockets = [] ∧ x.cmap = [] ∧ x.tele = [] ∧ x.energy = 0 ∧
          x.state = (if createdActive s p tenant then .active else .suspended)) ∧
        (createdActive s p tenant = true → (partOf t p).active = tenant) ∧ (createdActive s p tenant = false → t.parts = s.parts ∧ t.meter = s.meter) ∧
        t = { s with ctxs := t.ctxs, parts := t.parts, cmds := t.cmds, outbox := t.outbox, meter := t.meter, ready := t.ready }))) ∧
  (∀ (id : Nat) (s : State) (c : Cmd), s.wf = true → admittedAs s id 0x402 = some c →
    (c.after = [] → ctxOf s c.ctx = none →
      Completes (.ctxDestroy id) s fun t => CmdBecomes id (fun y => y.refused (.specific 0x80) 0) s t ∧ t = { s with cmds := t.cmds }) ∧
    (∀ x, ctxOf s c.ctx = some x →
      (c.after = [] → x.destroying = false → Serves s (ctxSpan s x).slices → Completes (.ctxDestroy id) s fun t =>
        (∃ d, cmdOf t id = some d ∧ d.after = [1]) ∧ (∃ y, ctxOf t c.ctx = some y ∧ y.destroying = true ∧ y.state = .faulted) ∧ t = { s with
            mem := { s.mem with data := t.mem.data, chk := t.mem.chk, tag := t.mem.tag, owed := t.mem.owed, sys := t.mem.sys }
            freeCtr := t.freeCtr, nextId := t.nextId, regs := t.regs, log := t.log, integ := t.integ, ctxs := t.ctxs, slices := t.slices
            queues := t.queues, qback := t.qback, dbPend := t.dbPend, qEnabled := t.qEnabled, cmds := t.cmds, ports := t.ports, ops := t.ops
            wb := t.wb, beats := t.beats, clears := t.clears, contracts := t.contracts, sync := t.sync, movers := t.movers, outbox := t.outbox
            fab := t.fab, ready := t.ready, works := t.works, ctl := { s.ctl with pwr := t.ctl.pwr } }) ∧
      (c.after = [1] → destroyQuiet s c.ctx x = true → Completes (.ctxDestroy id) s fun t => (∃ d, cmdOf t id = some d ∧ d.after = [2]) ∧ CtxsKept s t ∧
        (∀ n p, (n, p) ∈ portsOfCtx s (ctxSpan s x) c.ctx → portBound t n p = false) ∧ t = { s with
            mem := { s.mem with data := t.mem.data, chk := t.mem.chk, tag := t.mem.tag, owed := t.mem.owed, sys := t.mem.sys }
            freeCtr := t.freeCtr, nextId := t.nextId, regs := t.regs, log := t.log, integ := t.integ, ctxs := t.ctxs, slices := t.slices
            queues := t.queues, qback := t.qback, dbPend := t.dbPend, qEnabled := t.qEnabled, cmds := t.cmds, ports := t.ports, ops := t.ops
            wb := t.wb, beats := t.beats, clears := t.clears, contracts := t.contracts, sync := t.sync, movers := t.movers, outbox := t.outbox
            fab := t.fab, ready := t.ready, works := t.works, ctl := { s.ctl with pwr := t.ctl.pwr } }) ∧
      (c.after = [2] → ctxContract s c.ctx = false → (∀ r ∈ s.fab.reqs, r.ctx = c.ctx → r.gone = true) → Serves s (ctxSpan s x).slices →
        Completes (.ctxDestroy id) s fun t =>
          (∃ y, ctxOf t c.ctx = some y ∧ ∀ st k, (x.pocket st k).valid = true → (y.pocket st k).state = .clearing) ∧
          (∃ j, t.clears = s.clears ++ [j] ∧ (∃ d, cmdOf t id = some d ∧ d.phase = .waiting ∧ d.after = [2, j.id] ∧
            d.result = (locksHeld (fun h => h.1 == c.ctx) s).length) ∧ j.part = x.part) ∧ t = { s with
                mem := { s.mem with data := t.mem.data, chk := t.mem.chk, tag := t.mem.tag, owed := t.mem.owed, sys := t.mem.sys }
                freeCtr := t.freeCtr, nextId := t.nextId, regs := t.regs, log := t.log, integ := t.integ, ctxs := t.ctxs, slices := t.slices
                queues := t.queues, qback := t.qback, dbPend := t.dbPend, qEnabled := t.qEnabled, cmds := t.cmds, ports := t.ports, ops := t.ops
                wb := t.wb, beats := t.beats, clears := t.clears, contracts := t.contracts, sync := t.sync, movers := t.movers, outbox := t.outbox
                fab := t.fab, ready := t.ready, works := t.works, ctl := { s.ctl with pwr := t.ctl.pwr } })))

/-! ## The weave and contracts (08; 02 R54; 06 R189, R190) -/

/-- WEAVE_INSTALL (R257 to R259) of a table that can be read, on slices that serve: a bad header completes DECODE_ERROR; a table that fails one of the checks 1 to 6
or, on a named slice, 7 to 11 is refused with RESULT as R257 gives it, nothing installed; one whose floor is above the cap CAP_BELOW_FLOOR; a
check alone completes with the floor; else the table waits on every named slice for its frame boundary, with the command. -/
def Obligations.WeavesAreChecked : Prop :=
  ∀ (id : Nat) (s : State) (c : Cmd), s.wf = true → admittedAs s id 0x420 = some c →
    let ns := maskSlices (c.addr 2); let a := c.addr 4; let tb := tableAt s a; let first := ns.headD 0
    let refused (e : Status) (r : Nat) (t : State) : Prop := CmdBecomes id (fun y => y.refused e r) s t ∧
      t = { s with freeCtr := t.freeCtr, cmds := t.cmds, ctl := { s.ctl with pwr := t.ctl.pwr } }
    let bad (n : Nat) (x : Nat × Option Nat) (t : State) : Prop := ∃ r, refused (if x.1 = 11 then .rejectedContract else .specific 0x80) r t ∧
      (∀ i, x.2 = some i → r = (if x.1 = 11 then i else x.1 * 2 ^ 24 + n * 65536 + i)) ∧ (x.1 ≠ 11 → x.2 = none → r / 65536 = x.1 * 256 + n)
    let floor := floorOf s fun n => if ns.contains n then tb else latestWeave s n
    (ns = [] ∨ bitOf a 63 = true ∨ a % 64 ≠ 0 → Completes (.weaveInstall id) s (refused .decodeError 0)) ∧
    (ns ≠ [] → bitOf a 63 = false → a % 64 = 0 → Serves s ns → tableReads s a →
      (∀ x, tableBad tb = some x → Completes (.weaveInstall id) s (bad first x)) ∧
      (tableBad tb = none →
        (∀ ms n more x, ns = ms ++ n :: more → (∀ m ∈ ms, sliceBad s tb m = none) → sliceBad s tb n = some x → Completes (.weaveInstall id) s (bad n x)) ∧
        ((∀ n ∈ ns, sliceBad s tb n = none) →
          (s.power.susp = false → s.power.cap < floor → Completes (.weaveInstall id) s (refused .capBelowFloor floor)) ∧
          ((s.power.susp = true ∨ floor ≤ s.power.cap) → c.bit 6 0 = true → Completes (.weaveInstall id) s fun t =>
            CmdBecomes id (fun y => y.completed .ok 0 floor) s t ∧ t = { s with cmds := t.cmds, ctl := { s.ctl with pwr := t.ctl.pwr } }) ∧
          ((s.power.susp = true ∨ floor ≤ s.power.cap) → c.bit 6 0 = false → Completes (.weaveInstall id) s fun t =>
            CmdBecomes id (fun y => { y with phase := .waiting, result := floor }) s t ∧
            (∀ n, sliceOf t n = if n ∈ ns then { sliceOf s n with
              pendWeave := (sliceOf s n).pendWeave ++ [{ stamp := s.nextId, afterB := s.bcnt, table := tb, origin := .cmd id }] } else sliceOf s n) ∧
            t = { s with nextId := s.nextId + 1, slices := t.slices, cmds := t.cmds, ctl := { s.ctl with pwr := t.ctl.pwr } }))))

/-- FRAME_BOUNDARY of a slice while BCNT counts (R245, R258, R259, R264; 02 R54): BCNT has reached the boundary; a table that waited for it is in force; a
SLEEVE_CFG write that waited for it is stored; each contract homed there, if none is changing, has its rate added to its bucket up to its depth,
or is suspended while contracts are, its port requests going on as B class (R284), or resumes with a full bucket. No other slice's table changes. While BCNT stands still it has no effect.
REGULATOR_INTERVAL (R276 to R280): from the interval's occupancies the cut level rises by one up to 3 or falls by one, and stands where neither threshold is passed; each requester's
allowance is halved down to 64 B where it sent to an overloaded group, else it grows up to its full one; the interval's counts begin again and
OQ_LEVEL is sampled. The outer port's allowance of each partition that begins there is halved while the output queue is at its high mark, and grows while it is at its low mark (R278). With EN = 0 the cut is NONE and no allowance applies. Nothing else of the slice, and no other slice, changes. -/
def Obligations.BoundariesAndRegulator : Prop :=
  (∀ (n : Nat) (s : State), s.wf = true →
    (s.bcRun = false → exec (.frameBoundary n) s = .next s) ∧
    (s.bcRun = true →
      let r := sliceOf s n; let b := (nextBoundary s n).1; let install := (nextBoundary s n).2
      Completes (.frameBoundary n) s fun t =>
        t.bcnt = Nat.max s.bcnt b ∧ r.frameB < b ∧ (sliceOf t n).frameB = b ∧
        (install = true → ∃ p ps, r.pendWeave = p :: ps ∧ b % Nat.max 1 (wFL p.table) = 0 ∧ (sliceOf t n).weave = p.table ∧ (sliceOf t n).pendWeave = ps) ∧
        (install = false → b % Nat.max 1 (wFL r.weave) = 0 ∧ (sliceOf t n).weave = r.weave ∧ (sliceOf t n).pendWeave = r.pendWeave) ∧
        (∀ p, r.pendWeave = [] → r.pendSleeve = [p] → p.stamp < s.nextId → p.afterB < b → p.value < 65536 → s.bcnt < b + Nat.max 1 (wFL r.weave) →
          sleeveCfg t n = p.value ∧ (sliceOf t n).pendSleeve = []) ∧
        ((∀ k ∈ s.contracts, k.todo = []) → t.contracts = s.contracts.map fun k =>
          if k.active = false ∨ k.home ≠ n then k
          else if s.power.susp = true then { k with suspended := true }
          else if k.suspended = true then { k with suspended := false, tokens := k.depth, backlog := 0 }
          else { k with tokens := Nat.min k.depth (k.tokens + k.rate) }) ∧
        (r.pendSleeve = [] → (∀ k ∈ s.contracts, k.todo = []) → s.power.susp = true → ∀ o ∈ s.ops, o.g = true →
          (∃ k ∈ s.contracts, k.active = true ∧ k.suspended = false ∧ k.home = n ∧ o.owner = some k.owner) →
          ∃ o' ∈ t.ops, o' = { o with g := false, owner := none, suspended := true, bound := none }) ∧
        (∀ m, m ≠ n → (sliceOf t m).weave = (sliceOf s m).weave ∧ (sliceOf t m).pendWeave = (sliceOf s m).pendWeave ∧ (sliceOf t m).frameB = (sliceOf s m).frameB) ∧
        t = { s with
            regs := t.regs, bcnt := t.bcnt, log := t.log, integ := t.integ, slices := t.slices, cmds := t.cmds, ports := t.ports, ops := t.ops
            wb := t.wb, beats := t.beats, contracts := t.contracts, movers := t.movers, outbox := t.outbox
            fab := { t.fab with reqs := s.fab.reqs }, works := t.works, ctl := { s.ctl with pwr := t.ctl.pwr } })) ∧
  (∀ (n oq : Nat) (s : State), s.wf = true →
    let cfg := regCfg s n; let r := sliceOf s n; let sum (g : Nat) : Nat := mget (fun _ => 0) r.occ g
    let high := ∃ g, g < 9 ∧ bitsOf cfg 7 4 * (64 * groupBanks g) ≤ sum g
    let low := ∀ g, g < 9 → sum g ≤ bitsOf cfg 3 0 * (64 * groupBanks g)
    Completes (.regulatorInterval n oq) s fun t =>
      (bitOf cfg 31 = false → (sliceOf t n).cut = 0 ∧ (sliceOf t n).allow = []) ∧
      (bitOf cfg 31 = true → (high → (sliceOf t n).cut = Nat.min 4 (r.cut + 1)) ∧ (¬high → low → (sliceOf t n).cut = r.cut - 1) ∧
        (¬high → ¬low → (sliceOf t n).cut = r.cut) ∧
        (keysRise 0 r.allow = true → ∀ q, q < 15 → mget fullAllowance (sliceOf t n).allow q =
          if ∃ x ∈ r.sent, x / 16 = q ∧ bitsOf cfg 7 4 * (64 * groupBanks (x % 16)) ≤ sum (x % 16) then Nat.max 64 (mget fullAllowance r.allow q / 2)
          else Nat.min (fullAllowance q) (mget fullAllowance r.allow q + bitsOf cfg 15 8 * 64))) ∧
      sliceOf t n = { r with
        cut := (sliceOf t n).cut, allow := (sliceOf t n).allow, used := [], sent := [], occ := [], occN := oq % 16, maxOcc := (sliceOf t n).maxOcc } ∧
      (∀ p, let mine := p < 32 ∧ (partOf s p).state ≠ .absent ∧ (partOf s p).first = n
        let full := Config.outerFull p; let cut := mget (fun _ => 0) s.outerCut p; let cut' := mget (fun _ => 0) t.outerCut p
        (¬mine → cut' = cut ∧ mget (fun _ => 0) t.outerUsed p = mget (fun _ => 0) s.outerUsed p) ∧
        (mine → mget (fun _ => 0) t.outerUsed p = 0 ∧ (bitOf cfg 31 = false → cut' = 0) ∧
          (bitOf cfg 31 = true → bitsOf cfg 27 24 ≤ oq % 16 → cut' = full - Nat.max 64 ((full - cut) / 2)) ∧
          (bitOf cfg 31 = true → oq % 16 < bitsOf cfg 27 24 → oq % 16 ≤ bitsOf cfg 23 20 → cut' = cut - bitsOf cfg 15 8 * 64) ∧
          (bitOf cfg 31 = true → oq % 16 < bitsOf cfg 27 24 → bitsOf cfg 23 20 < oq % 16 → cut' = cut))) ∧
      (∀ m, m ≠ n → sliceOf t m = sliceOf s m) ∧ t = { s with integ := t.integ, slices := t.slices, outerCut := t.outerCut, outerUsed := t.outerUsed })

/-- CONTRACT_BIND (06 R189, R190): values that R189 forbids complete DECODE_ERROR, and a reason of R190 REJECTED_CONTRACT with its number, the contracts standing; a
bound above BOUND_MAX is reason 8; else the contract stands from then on, its bucket full and its bound in RESULT, and the command
waits until every slice of its span has passed a frame boundary. UNBIND of a target without a contract completes OK, of another it waits. At the
last boundary the contract of a bind is in effect, its command OK with the bound, and that of an unbind is gone. -/
def Obligations.ContractsAreBound : Prop :=
  (∀ (id : Nat) (s : State) (c : Cmd), admittedAs s id 0x421 = some c →
    let kind := b2n (c.bit 2 29); let target := c.f 2 18 0; let port := target % 16
    let forbidden := c.w 7 = 0 ∨ c.w 6 < c.w 5 ∨ c.w 6 < c.w 7 ∨ (kind = 1 ∧ (port = 11 ∨ 13 < port)) ∨ (kind = 1 ∧ port = 10 ∧ 16384 < c.w 7)
    let bound := bindBound s (c.w 4) kind target (c.f 3 21 16) (c.w 7)
    let refused (e : Status) (r : Nat) (t : State) : Prop := CmdBecomes id (fun y => y.refused e r) s t ∧ t = { s with cmds := t.cmds }
    (c.f 2 31 30 ≠ 2 →
      (forbidden → Completes (.contractBind id) s (refused .decodeError 0)) ∧
      (¬forbidden → (∀ r, bindReason s c kind target = some r → Completes (.contractBind id) s (refused .rejectedContract r)) ∧
        (bindReason s c kind target = none → c.w 8 ≠ 0 → c.w 8 < bound → Completes (.contractBind id) s (refused .rejectedContract 8)) ∧
        (bindReason s c kind target = none → (c.w 8 = 0 ∨ bound ≤ c.w 8) → Completes (.contractBind id) s fun t =>
          CmdBecomes id (fun y => { y with phase := .waiting, result := bound }) s t ∧
          (∃ k, t.contracts = s.contracts ++ [k] ∧ k.kind = kind ∧ k.target = target ∧ k.owner = c.w 4 ∧ k.rate = c.w 5 ∧ k.depth = c.w 6 ∧ k.qmax = c.w 7 ∧
            k.bound = bound ∧ k.tokens = c.w 6 ∧ k.backlog = 0 ∧ k.active = false ∧ k.unbinding = false ∧ k.todo = (oSpan (c.w 4)).slices ∧ k.origin = .cmd id) ∧
          t = { s with nextId := s.nextId + 1, cmds := t.cmds, contracts := t.contracts }))) ∧
    (c.f 2 31 30 = 2 →
      ((∀ k ∈ s.contracts, k.kind = kind → k.target = target → k.unbinding = true) → Completes (.contractBind id) s fun t =>
        CmdBecomes id (fun y => y.completed .ok 0 0) s t ∧ t = { s with cmds := t.cmds }) ∧
      (∀ k, k ∈ s.contracts → k.kind = kind → k.target = target → k.unbinding = false → k.origin = .none → (∀ j ∈ s.contracts, j.kind = kind → j.target = target → j = k) →
        Completes (.contractBind id) s fun t => CmdBecomes id (fun y => { y with phase := .waiting }) s t ∧
          (∃ k', k' ∈ t.contracts ∧ k'.kind = kind ∧ k'.target = target ∧ k'.unbinding = true ∧ k'.todo = (oSpan k.owner).slices ∧ k'.origin = .cmd id) ∧
          (∀ j ∈ s.contracts, j ≠ k → j ∈ t.contracts) ∧ t = { s with nextId := s.nextId + 1, cmds := t.cmds, contracts := t.contracts }))) ∧
  (∀ (n id : Nat) (s : State) (k : Contract) (c : Cmd), s.wf = true → s.bcRun = true → s.contracts = [k] → k.todo = [n] → k.stamp < s.nextId → k.origin = .cmd id →
    cmdOf s id = some c → (sliceOf s n).pendWeave = [] → (sliceOf s n).pendSleeve = [] →
    s.bcnt < (nextBoundary s n).1 + Nat.max 1 (wFL (sliceOf s n).weave) → (k.active = true → s.power.susp = true → k.suspended = true) →
    Completes (.frameBoundary n) s fun t =>
      (k.unbinding = false → (∃ k', t.contracts = [k'] ∧ k'.active = true ∧ k'.todo = [] ∧ k'.tokens = k.depth ∧ k'.backlog = 0 ∧ k'.suspended = s.power.susp) ∧
        CmdBecomes id (fun y => y.completed (if s.power.susp = true then .guaranteeSuspended else .ok) 0 k.bound) s t) ∧
      (k.unbinding = true → t.contracts = [] ∧ CmdBecomes id (fun y => y.completed .ok 0 0) s t) ∧
      t = { s with
          regs := t.regs, bcnt := t.bcnt, log := t.log, integ := t.integ, slices := t.slices, cmds := t.cmds, ports := t.ports, ops := t.ops
          wb := t.wb, beats := t.beats, contracts := t.contracts, movers := t.movers, outbox := t.outbox, fab := { t.fab with reqs := s.fab.reqs }
          works := t.works, ctl := { s.ctl with pwr := t.ctl.pwr } })

/-! ## Reading out, darning, scrub and the seam (06, 14) -/

/-- TELEMETRY_READ (R196), LOG_READ (R202, R203) and METER_READ (17 R491): a page or log is written to the destination, its status, COUNT and RESULT as the rules give; CLEAR
takes effect where the write succeeds; a page of the device is for privileged queues, an unknown page is DECODE_ERROR; a meter request
joins the meter's queue. LOG_RECORD (14 R427, R429) moves the next queue's oldest entry, numbered, to the ring of 1,024 and the first-error set of 16. -/
def Obligations.PagesAndLogsAreRead : Prop :=
  (∀ (id : Nat) (s : State) (c : Cmd), s.wf = true → admittedAs s id 0x510 = some c →
    let page := c.f 2 23 16; let refused (e : Status) (t : State) : Prop := CmdBecomes id (fun y => y.refused e 0) s t ∧ t = { s with cmds := t.cmds }
    let writes (ws : List Word) : Prop := (DestReady s c (c.addr 4) 256 256 → Completes (.telemetryRead id) s fun t =>
        (pageBytes ws).length = 256 ∧ DestWritten s c (c.addr 4) (pageBytes ws) t ∧
        CmdBecomes id (fun y => y.completed (Status.join .ok (destWrite s c (c.addr 4) (pageBytes ws)).1) 0 0) s t ∧
        CtxsKept s t ∧ t = { s with
            mem := { s.mem with data := t.mem.data, chk := t.mem.chk, tag := t.mem.tag, owed := t.mem.owed, ext := t.mem.ext, extPoison := t.mem.extPoison }
            log := t.log, integ := t.integ, ctxs := t.ctxs, slices := t.slices, cmds := t.cmds, ctl := { s.ctl with pwr := t.ctl.pwr } }) ∧
      (∀ i, destCheck s c (c.addr 4) 256 256 = .fail .boundViolation i → Completes (.telemetryRead id) s fun t =>
        CmdBecomes id (fun y => y.refused .boundViolation 0) s t ∧ Logged .boundViolation 2 (qHome c.queue) 0 (.queue c.queue) (c.ctx % 2048) (c.addr 4 % 2 ^ 40) s t ∧
          t = { s with cmds := t.cmds, log := t.log })
    (page ≤ 2 → ctxOf s c.ctx = none → Completes (.telemetryRead id) s (refused .boundViolation)) ∧
    (∀ x, ctxOf s c.ctx = some x → (page = 0 → writes (page00 s x)) ∧ (page = 1 → writes (page01 s x)) ∧ (page = 2 → writes (page02 s x))) ∧
    (2 < page → qPriv c.queue = false → Completes (.telemetryRead id) s (refused .decodeError)) ∧
    (qPriv c.queue = true → (page = 0x10 → writes (page10 s)) ∧ (page = 0x11 → writes (page11 s)) ∧ (page = 0x12 → writes (page12 s)) ∧
      (page = 0x13 → writes (page13 s)) ∧ (2 < page → page < 0x10 ∨ 0x13 < page → Completes (.telemetryRead id) s (refused .decodeError)))) ∧
  (∀ (id : Nat) (s : State) (c : Cmd), s.wf = true → admittedAs s id 0x710 = some c →
    let sel := c.f 2 31 28; let num := c.f 2 10 0; let start := c.w 3; let clear := c.bit 2 27
    let src := if sel = 0 then s.log.ring.filter fun x => decide (start ≤ x.1) else s.log.first
    let out := src.take num
    let lost := sel = 0 ∧ (match s.log.ring with
      | x :: _ => start < x.1
      | [] => False)
    let bs := if sel = 2 then bytesOfWords ((List.range 64).map fun k => BitVec.ofNat 32 (mget (fun _ => 0) s.log.counters k)) else bytesOfWords (out.flatMap entryWords)
    let w := destWrite s c (c.addr 4) bs; let good := w.1 = .ok ∨ w.1 = .okCorrected
    (sel < 2 → (num = 0 ∨ (sel = 0 ∧ 1024 < num) ∨ (sel = 1 ∧ 16 < num)) → Completes (.logRead id) s fun t =>
      CmdBecomes id (fun y => y.refused .decodeError 0) s t ∧ t = { s with cmds := t.cmds }) ∧
    (sel = 2 ∨ (sel = 1 ∧ 0 < num ∧ num ≤ 16) ∨ (sel = 0 ∧ 0 < num ∧ num ≤ 1024) → DestReady s c (c.addr 4) 32 bs.length → Completes (.logRead id) s fun t =>
      DestWritten s c (c.addr 4) bs t ∧
      (∃ st : Status, ((sel ≠ 2 ∧ (out.length < num ∨ lost)) → st = .partialDone) ∧ (¬(sel ≠ 2 ∧ (out.length < num ∨ lost)) → st = .ok) ∧
        ∃ n, (good → n = if sel = 2 then 64 else out.length) ∧ (¬good → n = 0) ∧
        CmdBecomes id (fun y => y.completed (st.join w.1) n (if sel = 2 then s.log.seq else (out.head?.map (·.1)).getD s.log.seq)) s t) ∧
      (good → clear = true → sel = 2 → t.log = { w.2.log with counters := [] }) ∧ (good → clear = true → sel = 1 → t.log = { w.2.log with first := w.2.log.first.drop num }) ∧
      ((¬good ∨ clear = false ∨ sel = 0) → t.log = w.2.log) ∧ CtxsKept s t ∧ t = { s with
          mem := { s.mem with data := t.mem.data, chk := t.mem.chk, tag := t.mem.tag, owed := t.mem.owed, ext := t.mem.ext, extPoison := t.mem.extPoison }
          log := t.log, integ := t.integ, ctxs := t.ctxs, slices := t.slices, cmds := t.cmds, ctl := { s.ctl with pwr := t.ctl.pwr } })) ∧
  (∀ (id : Nat) (s : State) (c : Cmd), admittedAs s id 0x520 = some c → (∀ e ∈ s.meter.queue, e.2.2.2 ≠ some id) →
    let refused (e : Status) (t : State) : Prop := CmdBecomes id (fun y => y.refused e 0) s t ∧ t = { s with cmds := t.cmds }
    (recordLen (c.f 2 31 24) (c.f 2 23 16) = none → Completes (.meterRead id) s (refused .decodeError)) ∧
    (∀ len, recordLen (c.f 2 31 24) (c.f 2 23 16) = some len →
      (s.meter.halted = true → Completes (.meterRead id) s (refused (.specific 0x80))) ∧
      (s.meter.halted = false → destCheck s c (c.addr 6) 32 (4 * len) = .ok → Completes (.meterRead id) s fun t =>
        t = { s with meter := { s.meter with queue := s.meter.queue ++ [(c.f 2 31 24, c.f 2 23 16, c.addr 4, some id)] } }))) ∧
  (∀ (s : State), s.wf = true → ((∀ q, q < 65 → mget (fun _ => []) s.log.queues q = []) → exec .logRecord s = .next s) ∧
    ∀ q k e es, q < 65 → mget (fun _ => []) s.log.queues q = e :: es → k < 65 → (s.log.turn + k) % 65 = q →
      (∀ j, j < k → mget (fun _ => []) s.log.queues ((s.log.turn + j) % 65) = []) → Completes .logRecord s fun t =>
        mget (fun _ => []) t.log.queues q = es ∧ (∀ p, p ≠ q → mget (fun _ => []) t.log.queues p = mget (fun _ => []) s.log.queues p) ∧
        t.log.ring = (s.log.ring ++ [(s.log.seq, e)]).drop (s.log.ring.length + 1 - 1024) ∧ t.log.seq = (s.log.seq + 1) % 2 ^ 32 ∧
        t.log.first = (if s.log.first.length < 16 then s.log.first ++ [(s.log.seq, e)] else s.log.first) ∧ t.log.turn = (q + 1) % 65 ∧
        t.log.counters = s.log.counters ∧ t = { s with log := t.log })

/-- DARN (R201): OP 0 answers the free spare slices and the darned banks. OP 1 of a valid bank that no spare serves moves it, on a slice that serves and in a background slot of the bank (02 R23), to the lowest free
spare of its kind: its code units are copied repaired, an uncorrectable one poisoned, its marks are cleared and no byte outside it changes; with
no free spare it completes 0x80 and raises the service indication. OP 2 maps the nearest free spare slice in place of a failed slice, cleared and with
the reset weave; one that has not failed, or whose partition holds contexts, completes 0x81. -/
def Obligations.DarningMapsSpares : Prop :=
  ∀ (id : Nat) (s : State) (c : Cmd), s.wf = true → admittedAs s id 0x702 = some c →
    let op := c.f 2 31 28; let n := c.f 2 21 16
    let refused (e : Status) (t : State) : Prop := CmdBecomes id (fun y => y.refused e 0) s t
    (op = 0 → Completes (.darn id) s fun t => t = { s with cmds := t.cmds } ∧
      CmdBecomes id (fun y => y.completed .ok 0 (((List.range 4).filter (spareFree s)).length + 256 * (sliceOf s n).darned.length)) s t) ∧
    (op = 1 → storeOf (c.f 2 15 14) = none → Completes (.darn id) s fun t => refused .decodeError t ∧ t = { s with cmds := t.cmds }) ∧
    (∀ st, op = 1 → storeOf (c.f 2 15 14) = some st →
      let bank := bankKey n st (if st = .w then c.f 2 13 12 else 0) (c.f 2 4 0)
      (bankValid bank = false → Completes (.darn id) s fun t => refused .decodeError t ∧ t = { s with cmds := t.cmds }) ∧
      (bankValid bank = true → spareOfBank s bank ≠ 0 → Completes (.darn id) s fun t => CmdBecomes id (fun y => y.completed .ok 0 0) s t ∧ t = { s with cmds := t.cmds }) ∧
      (bankValid bank = true → spareOfBank s bank = 0 → Serves s [n] → bankBg s bank = false → spareFor s bank ≠ none →
        Completes (.darn id) s fun t => t = { s with ctl := { s.ctl with pwr := t.ctl.pwr } }) ∧
      (bankValid bank = true → spareOfBank s bank = 0 → Serves s [n] →
        (spareFor s bank = none → Completes (.darn id) s fun t => refused (.specific 0x80) t ∧ bitOf (regGet t 0 (regNo 0x80 0x204)) (svcBank st) = true ∧
          (∀ r, r ≠ regNo 0x80 0x204 → ∀ d, regGet t d r = regGet s d r) ∧ t = { s with regs := t.regs, cmds := t.cmds, ctl := { s.ctl with pwr := t.ctl.pwr } }) ∧
        (∀ k, spareFor s bank = some k → bankBg s bank = true → s.cmds.filter (darnsBank bank) = [c] → keysRise 0 (sliceOf s n).darned = true → keysRise 0 (sliceOf s n).marks = true → Completes (.darn id) s fun t =>
          spareOfBank t bank = k + 1 ∧ (∀ b, b ≠ bank → b / 1024 = n → spareOfBank t b = spareOfBank s b ∧ marksOf t b = marksOf s b) ∧ marksOf t bank = [] ∧ (∀ e ∈ (sliceOf t n).pendMarks, e.1 ≠ bank) ∧
          (∀ u, unitKey u ∈ oddUnits s bank → ((foundAt s u).what = .corrected → HoldsByte t u (byteAt s u).1 false) ∧
            ((foundAt s u).what = .uncorrectable → mget (fun _ => false) t.mem.tag (unitKey u) = true)) ∧
          (∀ u, unitKey u ∉ oddUnits s bank → storedAt t u = storedAt s u) ∧
          (∃ e cnt, CmdBecomes id (fun y => y.completed e cnt 0) s t ∧ cnt ≤ st.bankBytes ∧ ((∀ u ∈ oddUnits s bank, (foundAt s u).what ≠ .uncorrectable) → e = .ok)) ∧
          (∀ m, m ≠ n → sliceOf t m = sliceOf s m) ∧ CtxsKept s t ∧ t = { s with
              mem := { s.mem with data := t.mem.data, chk := t.mem.chk, tag := t.mem.tag, owed := t.mem.owed, sys := t.mem.sys }, regs := t.regs
              w1done := t.w1done, log := t.log, integ := t.integ, ctxs := t.ctxs, slices := t.slices, cmds := t.cmds, ports := t.ports
              ctl := { s.ctl with pwr := t.ctl.pwr } }))) ∧
    (1 < op →
      let busy := ∃ p, partOfSlice s n = some p ∧ partCtxs s p ≠ []
      (slcFailed s n = false ∨ busy → Completes (.darn id) s fun t => refused (.specific 0x81) t ∧ t = { s with cmds := t.cmds }) ∧
      (slcFailed s n = true → ¬busy → (∀ k, k < 4 → spareFree s k = false) → Completes (.darn id) s fun t =>
        refused (.specific 0x80) t ∧ bitOf (regGet t 0 (regNo 0x80 0x204)) 5 = true ∧ t = { s with regs := t.regs, cmds := t.cmds }) ∧
      (slcFailed s n = true → ¬busy → (∃ k, k < 4 ∧ spareFree s k = true) → Completes (.darn id) s fun t =>
        (∃ k, k < 4 ∧ spareFree s k = true ∧ (sliceOf t n).spare = some k ∧
          (∀ j, j < 4 → spareFree s j = true → hops (spareStop k) (n % 8, n / 8) ≤ hops (spareStop j) (n % 8, n / 8)) ∧ pwrOf t n = pwrOf s (64 + k)) ∧
        (sliceOf t n).weave = resetWeave ∧ (sliceOf t n).failed = true ∧ (sliceOf t n).pendWeave = [] ∧ (∀ m, m ≠ n → sliceOf t m = sliceOf s m) ∧
        (∀ k, k / 524288 / 1024 = n → storedAt t k = (0, 0, false)) ∧ (∀ k, k / 524288 / 1024 ≠ n → unitKey k / 524288 / 1024 ≠ n → storedAt t k = storedAt s k) ∧
        CmdBecomes id (fun y => y.completed .ok 0 0) s t ∧ CtxsKept s t ∧ t = { s with
            mem := { s.mem with data := t.mem.data, chk := t.mem.chk, tag := t.mem.tag, owed := t.mem.owed, sys := t.mem.sys }, regs := t.regs
            w1done := t.w1done, log := t.log, integ := t.integ, ctxs := t.ctxs, slices := t.slices, cmds := t.cmds, ports := t.ports
            ctl := { s.ctl with pwr := t.ctl.pwr } }))

/-- SCRUB_CTL (R198, R199): STATUS answers the minutes since the last passes; SET_PERIOD takes 60 to 2,880 min for the W-store, 10 to 480 for the others, else DECODE_ERROR; PAUSE stops patrol
scrub until RESUME or, by SCRUB_AUTO_RESUME, 60 min; SCRUB_RANGE of an aligned range that passes R44 repairs it, poisoning what is uncorrectable. PATROL_SCRUB (14 R422) does so with
the next beat of a bank, a free spare's among them, and only with it; POISON_TAG_WRITE (14 R418) sets one owed tag. Each acts only in a background slot (R23).
SEAM_CALIBRATION, in a background slot, and SEAM_PARITY_ERROR (14 R426): a weak or failing lane is to be replaced at the next frame boundary while its group has a spare
of eight. A parity error is counted; downward it is logged with CODE 0x20 and the port read's bytes of that beat are delivered poisoned; upward the W-store
bytes of the tier that the entry carries are to be written poisoned; of a GATHER_POOL's reads that meet one, every first is read again. A group that has used its spares detects nothing. -/
def Obligations.ScrubAndSeamRepair : Prop :=
  (let repaired (units : List Nat) (s t : State) : Prop :=
    (∀ k, unitKey k ∈ units → ((foundAt s k).what = .corrected → HoldsByte t k (byteAt s k).1 false) ∧
      ((foundAt s k).what = .uncorrectable → mget (fun _ => false) t.mem.tag (unitKey k) = true) ∧
      ((foundAt s k).what = .clean ∨ (foundAt s k).what = .poisoned → storedAt t k = storedAt s k)) ∧
    (∀ k, unitKey k ∉ units → storedAt t k = storedAt s k)
  (∀ (id : Nat) (s : State) (c : Cmd), s.wf = true → admittedAs s id 0x700 = some c →
    let op := c.f 2 31 28; let m := c.w 3; let st := c.f 2 17 16; let good := (st = 1 ∧ 60 ≤ m ∧ m ≤ 2880) ∨ (2 ≤ st ∧ 10 ≤ m ∧ m ≤ 480)
    (op = 0 → Completes (.scrubCtl id) s fun t => t = { s with cmds := t.cmds } ∧
      CmdBecomes id (fun y => y.completed .ok 0 (minutesOf (s.rc - s.scrub.lastW) * 65536 + minutesOf (s.rc - s.scrub.lastA))) s t) ∧
    (op = 1 → ¬good → Completes (.scrubCtl id) s fun t => CmdBecomes id (fun y => y.refused .decodeError 0) s t ∧ t = { s with cmds := t.cmds }) ∧
    ((op = 1 ∧ good) ∨ op = 3 ∨ op = 4 → Completes (.scrubCtl id) s fun t => CmdBecomes id (fun y => y.completed .ok 0 0) s t ∧
      (op = 1 → st = 1 → t.scrub = { s.scrub with periodW := m }) ∧ (op = 1 → 2 ≤ st → t.scrub = { s.scrub with periodA := m }) ∧
      (op = 3 → t.scrub = { s.scrub with paused := some s.rc }) ∧ (op = 4 → t.scrub = { s.scrub with paused := none }) ∧ t = { s with cmds := t.cmds, scrub := t.scrub }) ∧
    (∀ x r, op = 2 → ctxOf s c.ctx = some x → opndStore (c.addr 4) (256 * m) false false = some r → c.addr 4 % 256 = 0 → rngCheck s x r = .ok →
      Serves s (r.slices s x) →
      ((∃ k, (r.keys s x).getLast? = some k ∧ bgNow s k = false) → Completes (.scrubCtl id) s fun t => t = { s with ctl := { s.ctl with pwr := t.ctl.pwr } }) ∧
      ((∀ k, (r.keys s x).getLast? = some k → bgNow s k = true) → Completes (.scrubCtl id) s fun t =>
        repaired (unitsOf (r.keys s x)) s t ∧ (∃ e, CmdBecomes id (fun y => y.completed e (256 * m) 0) s t ∧
          (e = .uncorrectable ↔ ∃ u ∈ unitsOf (r.keys s x), (foundAt s u).what = .uncorrectable)) ∧ t.scrub = s.scrub ∧
        CtxsKept s t ∧ t = { s with
            mem := { s.mem with data := t.mem.data, chk := t.mem.chk, tag := t.mem.tag, owed := t.mem.owed }, log := t.log, integ := t.integ
            ctxs := t.ctxs, slices := t.slices, cmds := t.cmds, scrub := t.scrub, ctl := { s.ctl with pwr := t.ctl.pwr } }))) ∧
  (∀ (s : State), (s.scrub.paused = none → exec .scrubAutoResume s = .next s) ∧
    ∀ at_, s.scrub.paused = some at_ → Completes .scrubAutoResume s fun t =>
      at_ + 360000000000 ≤ t.rc ∧ t.scrub = { s.scrub with paused := none } ∧ t = { s with rc := t.rc, scrub := t.scrub }) ∧
  (∀ (bank line beat : Nat) (s : State) (st : Store), s.wf = true → bankStore bank = some st → bankScrubbed s bank = true → s.scrub.paused = none → s.bcRun = true →
    Serves s [bank / 1024] → beat < lineBeats st → keysRise 0 s.scrub.pos = true →
    let at_ := line * lineBeats st + beat; let k0 := (bank * 2048 + line) * 256 + beat * st.beat
    let units := unitsOf ((List.range st.beat).map (k0 + ·)); let bad := (units.filter fun u => (foundAt s u).what == .uncorrectable).length
    let old := mget (fun _ => 0) s.scrub.uncorr bank
    (mget (fun _ => 0) s.scrub.pos bank ≠ at_ ∨ bankBeats st ≤ at_ ∨ bankBg s bank = false → exec (.patrolScrub bank line beat) s = .next s) ∧
    (mget (fun _ => 0) s.scrub.pos bank = at_ → at_ < bankBeats st → bankBg s bank = true → (2 ≤ old ∨ old + bad < 2) → Completes (.patrolScrub bank line beat) s fun t =>
      repaired units s t ∧
      (mget (fun _ => 0) t.scrub.pos bank = at_ + 1 ∨
        (mget (fun _ => 0) t.scrub.pos bank = 0 ∧ (st = .w → t.scrub.lastW = s.rc) ∧ (st ≠ .w → t.scrub.lastA = s.rc))) ∧ CtxsKept s t ∧ t = { s with
            mem := { s.mem with data := t.mem.data, chk := t.mem.chk, tag := t.mem.tag, owed := t.mem.owed }, regs := t.regs, log := t.log
            integ := t.integ, ctxs := t.ctxs, slices := t.slices, scrub := t.scrub })) ∧
  (∀ (key : Nat) (s : State), s.wf = true → (key ∉ s.mem.owed ∨ bgNow s key = false → exec (.poisonTagWrite key) s = .next s) ∧
    (key ∈ s.mem.owed → bgNow s key = true → Completes (.poisonTagWrite key) s fun t =>
      mget (fun _ => false) t.mem.tag key = true ∧ key ∉ t.mem.owed ∧ (∀ k, k ≠ key → mget (fun _ => false) t.mem.tag k = mget (fun _ => false) s.mem.tag k) ∧
      mget (fun _ => 0) t.integ 10 = (mget (fun _ => 0) s.integ 10 + 1) % 2 ^ 64 ∧ t = { s with mem := { s.mem with tag := t.mem.tag, owed := t.mem.owed }, integ := t.integ }))) ∧
  (let laneDue (n l : Nat) (s t : State) : Prop :=
    sliceOf t n = (if mget (fun _ => 0) (sliceOf s n).spareLanes l + ((sliceOf s n).pendLanes.filter (· == l)).length < 8
      then { sliceOf s n with pendLanes := (sliceOf s n).pendLanes ++ [l] } else sliceOf s n) ∧ (∀ m, m ≠ n → sliceOf t m = sliceOf s m)
  (∀ (n tier : Nat) (s : State), s.wf = true →
    (∀ weak, s.bcRun = false ∨ bankBg s (bankKey n .w tier 0) = false → exec (.seamCalibration n tier weak) s = .next s) ∧
    (s.bcRun = true → bankBg s (bankKey n .w tier 0) = true → slcFailed s n = false → tier < 4 → exec (.seamCalibration n tier []) s = .next s ∧
    ∀ lane rest, ∃ t, exec (.seamCalibration n tier (lane :: rest)) s = exec (.seamCalibration n tier rest) t ∧ laneDue n (laneGroup tier lane) s t ∧
      t = { s with slices := t.slices })) ∧
  (∀ (n tier lane id : Nat) (up : Bool) (s : State), s.wf = true → slcRuns s n = true → slcFailed s n = false → tier < 4 →
    let l := laneGroup tier lane
    (8 ≤ mget (fun _ => 0) (sliceOf s n).spareLanes l → exec (.seamParityError n tier lane up id) s = .next s) ∧
    (mget (fun _ => 0) (sliceOf s n).spareLanes l < 8 →
      (up = true → Completes (.seamParityError n tier lane up id) s fun t => laneDue n l s t ∧
        mget (fun _ => 0) t.integ 24 = (mget (fun _ => 0) s.integ 24 + 1) % 2 ^ 64 ∧
        (∀ e ∈ s.wb, e.id = id → ∃ e' ∈ t.wb, e'.id = id ∧ e' = { e with bad := e'.bad } ∧
          ∀ o b, (o, b) ∈ e.be → (placeOf (entryKey s e o)).store = .w → (placeOf (entryKey s e o)).slice = n → (placeOf (entryKey s e o)).tier = tier → (o, true) ∈ e'.bad) ∧
        t = { s with integ := t.integ, slices := t.slices, wb := t.wb }) ∧
      (∀ o, up = false → opOf s id = some o → Completes (.seamParityError n tier lane up id) s fun t => laneDue n l s t ∧
        mget (fun _ => 0) t.integ 24 = (mget (fun _ => 0) s.integ 24 + 1) % 2 ^ 64 ∧ Logged .uncorrectable 3 n (256 + tier * 64 + 0x3F) .nobody 0 0 s t ∧
        (∃ o', opOf t id = some o' ∧ o'.got = (o.got.map fun (i, x) => if i ∈ seamBytes o n tier then (i, (x.1, true)) else (i, x)) ∧
          (seamBytes o n tier ≠ [] → o'.status = o.status.join .uncorrectable) ∧ (seamBytes o n tier = [] → o'.status = o.status)) ∧
        t = { s with integ := t.integ, log := t.log, slices := t.slices, ops := t.ops }) ∧
      (∀ c, up = false → opOf s id = none → (s.cmds.find? fun y => y.id == id && y.phase == .admitted) = some c → c.opcode = 0x201 → c.after.contains 1 = false →
        let port := n * 4 + tier
        Completes (.seamParityError n tier lane up id) s fun t => laneDue n l s t ∧
          Logged .uncorrectable 3 n (256 + tier * 64 + 0x3F) .nobody 0 0 s t ∧ CmdBecomes id (fun y => { y with after := y.after ++ [1024 + port] }) s t ∧
          (poolErrors c port % 2 = 0 → ∃ w, t.works = s.works ++ [w] ∧ w.of = id ∧ w.slice = n ∧ w.st = .w ∧ w.set = tier ∧ w.left = 256) ∧
          (poolErrors c port % 2 = 1 → t.works = s.works) ∧
          t = { s with nextId := t.nextId, integ := t.integ, log := t.log, slices := t.slices, cmds := t.cmds, works := t.works }))))


/-- R75: of the free spare slices, slice darning (06 R201) takes the one whose stop is the fewest hops from the failed slice's own stop, and of two equally near the
lower-numbered. -/
def Obligations.NearestSpareIsTaken : Prop :=
  ∀ (id : Nat) (s : State) (c : Cmd) (n k : Nat), s.wf = true → admittedAs s id 0x702 = some c → c.f 2 31 28 = 2 → c.f 2 21 16 = n →
    slcFailed s n = true → (∀ p, partOfSlice s n = some p → partCtxs s p = []) → k < 4 → spareFree s k = true →
    let stop (j : Nat) : Nat × Nat := (if j % 2 = 0 then 2 else 5, if j < 2 then 2 else 5)
    let away (j : Nat) : Nat := (Int.natAbs ((stop j).1 - (n % 8 : Nat))) + Int.natAbs ((stop j).2 - (n / 8 : Nat))
    (∀ j, j < 4 → spareFree s j = true → away k ≤ away j ∧ (away j = away k → k ≤ j)) →
    Completes (.darn id) s fun t => (sliceOf t n).spare = some k

/-! ## Power capping (06 R191 to R195, 15 R442, 16) -/

/-- POWER_HINT replaces the hint of its context and KIND (R191); CAP_SET refuses a cap outside 40 to 240 W and one below the floor without FORCE, with the floor in RESULT, and else
waits for the next estimate (R192); FREQ_LOCK of a point above P4 is DECODE_ERROR, one of a later AT waits, one that another job's lock holds off completes
0x80, a release ends the lock, and a lock asks for its point and waits for the change (R194, R195). OP_CHANGE_DONE puts the asked point in force, its waiting
lock completes, and a point asked for meanwhile is next (R442).
ESTIMATE_WINDOW (R466, R474 to R478; 06 R192, R193) outside DEV_DEEP and reset: the window closes on a 2 µs boundary of REFCLK; the last cap that waited is in force, its
command complete with its RESULT, and contracts are suspended while it is below the floor; a temperature of 100 °C takes 2 W from the cap, down to the floor, below 98 °C gives them back; one of
105 °C trips: every bubble fraction is 31 and P4 is asked for; a tripped block asks for no other point; a slice whose current is above its rail
limit blocks cycles; ended hints are gone. THERMAL_TRIP_TIMEOUT drives THERM_TRIP_N (R477). -/
def Obligations.PowerCommandsAndEstimates : Prop :=
  (let held (l : FLock) (s : State) : Prop := ∃ k, s.power.lock = some k ∧ k.job ≠ l.job
  let locks (l : FLock) (id : Nat) (s t : State) : Prop :=
    (held l s → CmdBecomes id (fun y => y.completed (.specific 0x80) 0 0) s t ∧ t.power.lock = s.power.lock ∧ t.ctl = s.ctl) ∧
    (¬held l s → l.mode = 0 → CmdBecomes id (fun y => y.completed .ok 0 0) s t ∧ t.power.lock = none ∧ t.ctl = s.ctl) ∧
    (¬held l s → l.mode ≠ 0 → t.power.lock = some l ∧ (s.power.trip = false → s.ctl.slewing = false →
      (l.point = s.ctl.point → CmdBecomes id (fun y => y.completed .ok 0 0) s t ∧ t.ctl = s.ctl) ∧
      (l.point ≠ s.ctl.point → CmdBecomes id (fun y => { y with phase := .waiting }) s t ∧ t.power.lockWait = s.power.lockWait ++ [.cmd id] ∧
        t.ctl = { s.ctl with target := l.point, slewing := true })))
  (∀ (id : Nat) (s : State) (c : Cmd), admittedAs s id 0x500 = some c → Completes (.powerHint id) s fun t =>
    let dur := c.f 2 15 0; let kind := c.f 3 13 12
    (∃ r, r < 4096 ∧ CmdBecomes id (fun y => y.completed .ok 0 r) s t) ∧
    (∀ h, h ∈ t.power.hints ↔ (h ∈ s.power.hints ∧ ¬(h.ctx = c.ctx ∧ h.kind = kind)) ∨
      (dur ≠ 0 ∧ h = { ctx := c.ctx, kind := kind, start := s.rc + c.f 2 31 16 * 100, dur := dur * 100, power := c.f 3 11 0 })) ∧
    t = { s with cmds := t.cmds, power := { s.power with hints := t.power.hints } }) ∧
  (∀ (id : Nat) (s : State) (c : Cmd), admittedAs s id 0x501 = some c →
    let cap := c.f 2 11 0; let fl := floorNow s; let refused (e : Status) (t : State) : Prop := CmdBecomes id (fun y => y.refused e fl) s t ∧ t = { s with cmds := t.cmds }
    (cap < 0x140 ∨ 0x780 < cap → Completes (.capSet id) s (refused .decodeError)) ∧
    (0x140 ≤ cap → cap ≤ 0x780 → cap < fl → c.bit 2 31 = false → Completes (.capSet id) s (refused .capBelowFloor)) ∧
    (0x140 ≤ cap → cap ≤ 0x780 → (fl ≤ cap ∨ c.bit 2 31 = true) → Completes (.capSet id) s fun t =>
      CmdBecomes id (fun y => { y with phase := .waiting, result := fl }) s t ∧
      t = { s with cmds := t.cmds, power := { s.power with capPend := s.power.capPend ++ [(cap, decide (cap < fl), id)] } })) ∧
  (∀ (id : Nat) (s : State) (c : Cmd), admittedAs s id 0x502 = some c →
    let l : FLock := { mode := c.f 2 31 30, point := c.f 2 2 0, job := c.w 3, at_ := dwordAt c.words 4 }
    (4 < l.point → Completes (.freqLock id) s fun t => CmdBecomes id (fun y => y.refused .decodeError 0) s t ∧ t = { s with cmds := t.cmds }) ∧
    (l.point ≤ 4 → s.rc < l.at_ → Completes (.freqLock id) s fun t => CmdBecomes id (fun y => { y with phase := .waiting }) s t ∧
      t = { s with cmds := t.cmds, power := { s.power with lockPend := s.power.lockPend ++ [(l, .cmd id)] } }) ∧
    (l.point ≤ 4 → l.at_ ≤ s.rc → Completes (.freqLock id) s fun t => locks l id s t ∧ t.power.lockPend = s.power.lockPend ∧ t.power.cap = s.power.cap ∧ t = { s with
        regs := t.regs, cmds := t.cmds, ports := t.ports, ops := t.ops, outbox := t.outbox, power := t.power
        ctl := { t.ctl with pwr := s.ctl.pwr } })) ∧
  (∀ (s : State), (s.power.lockPend = [] → exec .freqLockAt s = .next s) ∧
    ∀ l id, s.power.lockPend = [(l, .cmd id)] → (∀ c ∈ s.cmds, c.id = id → c.phase = .waiting) → Completes .freqLockAt s fun t =>
      t.rc = Nat.max s.rc l.at_ ∧ t.power.lockPend = [] ∧ t.power.cap = s.power.cap ∧ locks l id s t ∧ t = { s with
          regs := t.regs, rc := t.rc, cmds := t.cmds, ports := t.ports, ops := t.ops, outbox := t.outbox, power := t.power
          ctl := { t.ctl with pwr := s.ctl.pwr } }) ∧
  (∀ (s : State), (s.ctl.slewing = false → exec .opChangeDone s = .next s) ∧
    (s.ctl.slewing = true → s.ctl.next = none → Completes .opChangeDone s fun t => t.ctl = { s.ctl with point := s.ctl.target, slewing := false, next := none } ∧
      t.power.lockWait = [] ∧ t.power.ovr = 0 ∧ (∀ id, s.power.lockWait = [.cmd id] → CmdBecomes id (fun y => y.completed .ok 0 0) s t) ∧ t = { s with
          regs := t.regs, cmds := t.cmds, ports := t.ports, ops := t.ops, outbox := t.outbox, power := t.power
          ctl := { t.ctl with pwr := s.ctl.pwr } }) ∧
    (∀ p, s.ctl.slewing = true → s.ctl.next = some p → p ≠ s.ctl.target → Completes .opChangeDone s fun t =>
      t.ctl = { s.ctl with point := s.ctl.target, target := p, slewing := true, next := none } ∧ t.cmds = s.cmds ∧ t.power.lockWait = s.power.lockWait ∧ t = { s with
          regs := t.regs, cmds := t.cmds, ports := t.ports, ops := t.ops, outbox := t.outbox, power := t.power
          ctl := { t.ctl with pwr := s.ctl.pwr } }))) ∧
  ((∀ (counts temps currents : List Nat) (charges : List (Nat × Nat)) (s : State), s.wf = true →
    let run := exec (.estimateWindow counts temps currents charges) s
    (s.ctl.deep = 2 ∨ s.ctl.inReset = true → run = .next s) ∧
    (s.ctl.deep ≠ 2 → s.ctl.inReset = false → Completes (.estimateWindow counts temps currents charges) s fun t =>
      s.rc ≤ t.rc ∧ s.power.lastEst < t.rc ∧ t.rc % 200 = 0 ∧ t.power.lastEst = t.rc ∧ t.power.capPend = [] ∧
      (s.power.capPend = [] → t.power.cap = s.power.cap ∧ t.power.susp = s.power.susp ∧ t.cmds = s.cmds) ∧
      (∀ pre cap below id, s.power.capPend = pre ++ [(cap, below, id)] → t.power.cap = cap ∧ t.power.susp = below) ∧
      (∀ cap below id c, s.power.capPend = [(cap, below, id)] → cmdOf s id = some c → CmdBecomes id (fun y => y.completed .ok 0 c.result) s t) ∧
      ((∃ x ∈ temps, 100 ≤ x) → t.power.cut = Nat.min (s.power.cut + 2000000) ((t.power.cap - floorNow s) * 125000)) ∧
      ((∀ x ∈ temps, x < 98) → t.power.cut = s.power.cut - 2000000) ∧
      ((∃ x ∈ temps, 105 ≤ x) → t.power.trip = true ∧ (∀ g, g < 3 → bubOf t.power.bub g = 31) ∧
        (s.ctl.slewing = false → s.ctl.point ≠ 4 → t.ctl.target = 4 ∧ t.ctl.slewing = true ∧ t.ctl.next = s.ctl.next) ∧
        (s.ctl.slewing = true → s.ctl.target ≠ 4 → t.ctl.next = some 4)) ∧
      ((∀ x ∈ temps, x ≤ 100) → t.power.trip = false) ∧
      (∀ n, n < 64 → keysRise 0 s.power.rail = true → (∀ m, m < 64 → (sliceOf s m).spare = none) →
        mget (fun _ => 0) t.power.rail n = (let i := currents.getD n 0; let lim := 20 * railLim s n; if lim < i then Nat.min 31 (ceilDiv (32 * (i - lim)) i) else 0)) ∧
      (∀ h, h ∈ t.power.hints ↔ h ∈ s.power.hints ∧ t.rc < h.start + h.dur) ∧
      t.power.lock = s.power.lock ∧ CtxsKept s t ∧ t = { s with
          freeCtr := t.freeCtr, rc := t.rc, ctxs := t.ctxs, parts := t.parts, cmds := t.cmds, power := t.power
          ctl := { t.ctl with pwr := s.ctl.pwr } })) ∧
  (∀ (s : State), (s.power.tripAt = none → exec .thermalTripTimeout s = .next s) ∧
    ∀ at_, s.power.tripAt = some at_ → Completes .thermalTripTimeout s fun t =>
      t.power.thermOut = true ∧ t = { s with rc := Nat.max s.rc (at_ + 100000), power := { s.power with thermOut := true } }))

/-! ## Slice power states (15 R452 to R465) -/

/-- PWR_CTL WAKE, IDLE, RETAIN and OFF of a logical slice, of a world that may ask (R456, R457, R459): each write completes OK once its request has started. On a steady slice, the present state ends it at once; WAKE
wakes; an entry that a check of R456 refuses is counted with its refuser, its status in RESULT; else Prepare begins, settling the bank groups that RETAIN
loses as RET_CFG has them then, or first the wake it needs. A request of the normal
world on a SECURE slice changes no state and RESULT is SECURE_REFUSED. Past the commit point it waits, or with NO_WAIT RESULT is PENDING_SHUTDOWN; while the slice wakes it waits.
The timers and the sequences of a slice (R453, R455 to R461; 18 R508): a timer that runs out while its slice may time out begins Prepare, or a check refuses it; PREPARE_DONE passes the commit point once nothing
is busy; ENTRY_COMPLETE enters the state, or wakes again where an event came, OFF clearing the stores; WAKE_DONE returns to RUN, with the contents of OFF, and of groups RETAIN
lost, reading zero; a held mesh flit wakes a slice that is off. -/
def Obligations.SlicePowerChanges : Prop :=
  (∀ (n : Nat) (nw : Bool) (w : RegWriter) (s : State), s.wf = true → n < 64 → MeshOpen w s →
    let p := pwrOf s n; let by_ := writerBy (unitAddr n 0x1000) w
    let kept (q : SlcPwr) (t : State) : Prop := pwrOf t n = q ∧ (∀ m, m ≠ n → pwrOf t m = pwrOf s m) ∧ Responds (unitAddr n 0x1000) .ok s t
    let only (q : SlcPwr) (t : State) : Prop := kept q t ∧ t = { s with regs := t.regs, outbox := t.outbox, ctl := { s.ctl with pwr := t.ctl.pwr } }
    let rows : List (Instr × Nat) := [(.wake n nw w, 1), (.idle n nw w, 2), (.retain n nw w, 3), (.off n nw w, 4)]
    let entries : List (Instr × PwrSt) := [(.idle n nw w, .idle), (.retain n nw w, .retain), (.off n nw w, .off)]
    (p.mode = .steady → (w.secure = true ∨ securePart s n = none) →
      (p.st = .run → Completes (.wake n nw w) s (only { p with result := 0, reqBusy := false, idleFrom := s.rc, retFrom := s.rc })) ∧
      (p.st ≠ .run → Completes (.wake n nw w) s (only { p with mode := .waking, reqBusy := true, delayed := false, goal := none })) ∧
      ∀ row target, (row, target) ∈ entries →
        (p.st = target → Completes row s (only { p with result := 0, reqBusy := false })) ∧
        (∀ e k i, p.st ≠ target → entryCheck s n target = some (e, k, i) → Completes row s
          (only { p with refuse := (p.refuse + 1) % 2 ^ 32, lastid := lastIdOf k false i, reqBusy := false, result := e.code })) ∧
        (p.st ≠ target → entryCheck s n target = none →
          (pwrLeads p.st target = true → Completes row s fun t => kept { p with mode := .prepare target, reqBusy := true, delayed := false, lost := lostGroups s n target } t ∧
            ((s.wb.map WbEntry.id).Nodup → ∀ e ∈ s.wb, e.home = n → ∀ e' ∈ t.wb, e'.id = e.id → e'.issued = true) ∧ CtxsKept s t ∧ SlicesCounted s t ∧
            t = { s with
              mem := { s.mem with data := t.mem.data, chk := t.mem.chk, tag := t.mem.tag, owed := t.mem.owed }
              nextId := t.nextId, regs := t.regs, log := t.log, integ := t.integ, ctxs := t.ctxs, slices := t.slices, outbox := t.outbox, wb := t.wb
              beats := t.beats, contracts := t.contracts, sync := { s.sync with waiters := t.sync.waiters }, movers := t.movers, works := t.works, ctl := { s.ctl with pwr := t.ctl.pwr } }) ∧
          (pwrLeads p.st target = false → Completes row s (only { p with mode := .waking, reqBusy := true, delayed := false, goal := some target })))) ∧
    (∀ q row op, p.mode = .steady → w.secure = false → securePart s n = some q → (row, op) ∈ rows → Completes row s fun t =>
      kept { p with refuse := (p.refuse + 1) % 2 ^ 32, lastid := lastIdOf 1 false q, reqBusy := false, result := Status.secureRefused.code } t ∧
      (partOf t q).refuse = ((partOf s q).refuse + 1) % 2 ^ 32 ∧
      Logged .secureRefused 1 w.slice 10 (.mesh w.slice w.srcdev w.srcstop) 0 (pwrReg n 0 * 4) s t ∧
      t = { s with regs := t.regs, log := t.log, parts := t.parts, outbox := t.outbox, ctl := { s.ctl with pwr := t.ctl.pwr } }) ∧
    (∀ g row op, p.mode = .entering g → (row, op) ∈ rows → Completes row s
      (only (if nw = true then { p with result := Status.pendingShutdown.code } else { p with waiting := p.waiting ++ [(op, true, by_)] }))) ∧
    (∀ row op, p.mode = .waking → (row, op) ∈ rows → Completes row s (only { p with waiting := p.waiting ++ [(op, false, by_)] })) ∧
    (∀ g, p.mode = .prepare g → p.st = .run → (w.secure = true ∨ securePart s n = none) → Completes (.wake n nw w) s
      (only { p with
        mode := .steady, abort := (p.abort + 1) % 2 ^ 32, lastid := lastIdOf 0xB true 0, reqBusy := false, result := 0, idleFrom := s.rc, retFrom := s.rc }))) ∧
  (∀ (n : Nat) (s : State), s.wf = true →
    let p := pwrOf s n
    let expiry (row : Instr) (target : PwrSt) (due : Nat) : Prop :=
      (entryCheck s n target = none → Completes row s fun t => pwrOf t n = { p with mode := .prepare target, lost := lostGroups s n target } ∧ t.rc = Nat.max s.rc due ∧ CtxsKept s t ∧ t = { s with
          mem := { s.mem with data := t.mem.data, chk := t.mem.chk, tag := t.mem.tag, owed := t.mem.owed }, nextId := t.nextId, rc := t.rc
          log := t.log, integ := t.integ, ctxs := t.ctxs, slices := t.slices, wb := t.wb, beats := t.beats, contracts := t.contracts
          sync := { s.sync with waiters := t.sync.waiters }, movers := t.movers, works := t.works, ctl := { s.ctl with pwr := t.ctl.pwr } }) ∧
      (∀ k i, entryCheck s n target = some (.rejectedContract, k, i) → exec row s = .next s) ∧
      (∀ e k i, e ≠ .rejectedContract → entryCheck s n target = some (e, k, i) → Completes row s fun t => pwrOf t n =
        { p with refuse := (p.refuse + 1) % 2 ^ 32, lastid := lastIdOf k false i, reqBusy := false, idleFrom := t.rc, retFrom := t.rc } ∧
        t = { s with rc := Nat.max s.rc due, ctl := { s.ctl with pwr := t.ctl.pwr } })
    (∀ k, k ∈ lostGroups s n .retain ↔ k < 9 ∧ bitOf (retCfg s n) k = false) ∧ lostGroups s n .idle = [] ∧ lostGroups s n .off = [] ∧
    (timersRun s n = true → p.st = .run → p.tmr / 65536 ≠ 0 → expiry (.idleTimerExpiry n) .idle (p.idleFrom + p.tmr / 65536 * 100)) ∧
    (timersRun s n = true → p.st = .run ∨ p.st = .idle → p.tmr % 65536 ≠ 0 → expiry (.retentionTimerExpiry n) .retain (p.retFrom + p.tmr % 65536 * 10000)) ∧
    (∀ g, p.mode = .prepare g → slcBusy s n = false → slcStops s n = false → Completes (.prepareDone n) s fun t =>
      pwrOf t n = { p with mode := .entering g, wakePend := false } ∧
      (∀ m, m ≠ n → pwrOf t m = pwrOf s m) ∧ t = { s with ctl := { s.ctl with pwr := t.ctl.pwr } }) ∧
    (∀ g, p.mode = .prepare g → slcBusy s n = true ∨ slcStops s n = true → exec (.prepareDone n) s = .next s) ∧
    (∀ g, p.mode = .entering g → (p.wakePend = true ∨ p.waiting = []) → Completes (.entryComplete n) s fun t =>
      pwrOf t n = { p with
        st := g, mode := (if p.wakePend = true then .waking else .steady), wakePend := false, reqBusy := false
        result := (if p.reqBusy = true then (if p.delayed = true then 3 else 0) else p.result) } ∧
      (g = .off → ∀ k, k / 524288 / 1024 = n → storedAt t k = (0, 0, false)) ∧ (g ≠ .off → t = { s with ctl := { s.ctl with pwr := t.ctl.pwr } }) ∧ CtxsKept s t ∧ t = { s with
          mem := { s.mem with data := t.mem.data, chk := t.mem.chk, tag := t.mem.tag, owed := t.mem.owed, sys := t.mem.sys }, nextId := t.nextId
          regs := t.regs, w1done := t.w1done, log := t.log, integ := t.integ, ctxs := t.ctxs, parts := t.parts, slices := t.slices
          queues := t.queues, dbPend := t.dbPend, qEnabled := t.qEnabled, cmds := t.cmds, ports := t.ports, ops := t.ops, wb := t.wb
          beats := t.beats, contracts := t.contracts, sync := t.sync, movers := t.movers, outbox := t.outbox
          fab := { t.fab with reqs := s.fab.reqs }, works := t.works, ctl := { s.ctl with pwr := t.ctl.pwr } }) ∧
    (p.mode = .waking → s.bcRun = true → p.goal = none → p.waiting = [] → Completes (.wakeDone n) s fun t =>
      pwrOf t n = { p with
        st := .run, mode := .steady, goal := none, lost := [], idleFrom := s.rc, retFrom := s.rc, reqBusy := false
        result := (if p.reqBusy = true then (if p.delayed = true then 3 else 0) else p.result) } ∧
      (∀ k, k / 524288 / 1024 = n → (p.st = .off ∨ (p.st = .retain ∧ groupOf (placeOf k) ∈ p.lost)) → mget (fun _ => 0) t.mem.data k = 0) ∧
      (p.st ≠ .off → (p.st ≠ .retain ∨ p.lost = []) → t.mem = s.mem) ∧ CtxsKept s t ∧ t = { s with
          mem := { s.mem with data := t.mem.data, chk := t.mem.chk, tag := t.mem.tag, owed := t.mem.owed, sys := t.mem.sys }, nextId := t.nextId
          regs := t.regs, log := t.log, integ := t.integ, ctxs := t.ctxs, parts := t.parts, slices := t.slices, queues := t.queues
          dbPend := t.dbPend, qEnabled := t.qEnabled, cmds := t.cmds, ports := t.ports, ops := t.ops, wb := t.wb, beats := t.beats
          contracts := t.contracts, sync := t.sync, movers := t.movers, outbox := t.outbox, fab := { t.fab with reqs := s.fab.reqs }
          works := t.works, ctl := { s.ctl with pwr := t.ctl.pwr } }) ∧
    (∀ g, p.mode = .waking → s.bcRun = true → p.goal = some g → p.waiting = [] → Completes (.wakeDone n) s fun t =>
      (pwrOf t n).st = .run ∧ (pwrOf t n).mode = .prepare g ∧ CtxsKept s t ∧ t = { s with
          mem := { s.mem with data := t.mem.data, chk := t.mem.chk, tag := t.mem.tag, owed := t.mem.owed, sys := t.mem.sys }, nextId := t.nextId
          regs := t.regs, log := t.log, integ := t.integ, ctxs := t.ctxs, parts := t.parts, slices := t.slices, queues := t.queues
          dbPend := t.dbPend, qEnabled := t.qEnabled, cmds := t.cmds, ports := t.ports, ops := t.ops, wb := t.wb, beats := t.beats
          contracts := t.contracts, sync := t.sync, movers := t.movers, outbox := t.outbox, fab := { t.fab with reqs := s.fab.reqs }
          works := t.works, ctl := { s.ctl with pwr := t.ctl.pwr } }) ∧
    (pwrOkLow s n = false → exec (.maPend n) s = .next s) ∧
    (p.st = .off → p.mode = .steady → (sliceOf s n).cutOff = false → Completes (.maPend n) s fun t =>
      pwrOf t n = { p with mode := .waking } ∧ (∀ m, m ≠ n → pwrOf t m = pwrOf s m) ∧ t = { s with ctl := { s.ctl with pwr := t.ctl.pwr } }))


/-- DEV_DEEP and the management bus (R463 to R465): DEEP is refused, BOUND_VIOLATION, while a slice is in neither RETAIN nor OFF, or SECURE_REFUSED; else the block holds BCNT. WAKE_N and an I3C header wake it, the header raising
WAKE_REQ; DEEP_EXIT_DONE lets BCNT go on from its held value, WAKE_REQ low. A management transfer reads a register, or writes DEV_PWR; the CCCs set and clear the dynamic
address and read the identity. -/
def Obligations.DeepSleepAndManagement : Prop :=
  ∀ (s : State),
    let res (c : CtlState) (t : State) : Prop := Responds (unitAddr 0x80 0x320) .ok s t ∧ t.ctl = c
    (∀ w, MeshOpen w s →
      (∀ n, deepBlocker s = some n → Completes (.deep w) s fun t =>
        res { s.ctl with devResult := Status.boundViolation.code, devLast := lastIdOf 0xC false n } t ∧ t = { s with regs := t.regs, outbox := t.outbox, ctl := t.ctl }) ∧
      (∀ q, w.secure = false → deepBlocker s = none → ((List.range 32).find? fun k => (partOf s k).state != .absent && (partOf s k).secure) = some q →
        Completes (.deep w) s fun t => res { s.ctl with devResult := Status.secureRefused.code, devLast := lastIdOf 1 false q } t ∧
          t = { s with regs := t.regs, outbox := t.outbox, ctl := t.ctl, log := t.log, parts := t.parts }) ∧
      (deepBlocker s = none → (w.secure = true ∨ ∀ k, k < 32 → (partOf s k).state = .absent ∨ (partOf s k).secure = false) → Completes (.deep w) s fun t =>
        res { s.ctl with devResult := 0, deep := 2, deepWake := false } t ∧ t = { s with regs := t.regs, outbox := t.outbox, ctl := t.ctl, bcRun := false })) ∧
    (s.ctl.deep = 2 → exec .wakeN s = .next { s with ctl := { s.ctl with deepWake := true } } ∧
      exec .i3cWake s = .next { s with ctl := { s.ctl with deepWake := true, wakeReq := true } } ∧
      (∀ bs, exec (.managementWrite bs) s = .next { s with ctl := { s.ctl with deepWake := true, wakeReq := true } }) ∧
      (∀ c a, exec (.i3cCcc c a) s = .next s) ∧
      (s.ctl.deepWake = true → s.ctl.vhvLow = false → exec .deepExitDone s = .next { s with bcRun := true, ctl := { s.ctl with deep := 0, deepWake := false, wakeReq := false } }) ∧
      (s.ctl.deepWake = false ∨ s.ctl.vhvLow = true → exec .deepExitDone s = .next s)) ∧
    (s.ctl.deep ≠ 2 → exec .wakeN s = .next s ∧ exec .i3cWake s = .next s ∧ exec .deepExitDone s = .next s) ∧
    (s.ctl.deep ≠ 2 → s.ctl.vhvLow = false →
      (∀ i v, mgmtRead s (BitVec.toNat i) = some v → exec (.managementWrite [i]) s =
        .next { s with outbox := .i3c (leBytes 4 v) :: s.outbox, ctl := { s.ctl with i3cIndex := i.toNat } }) ∧
      (∀ n, deepBlocker s = some n → Completes (.managementWrite [0, 0, 0, 0, 0x40]) s fun t =>
        t.ctl = { s.ctl with devResult := Status.boundViolation.code, devLast := lastIdOf 0xC false n } ∧ t = { s with regs := t.regs, ctl := t.ctl }) ∧
      (∀ a, s.ctl.dynAddr = none → exec (.i3cCcc 0x07 a) s = .next { s with ctl := { s.ctl with dynAddr := some (a % 128) } } ∧
        exec (.i3cCcc 0x87 a) s = .next { s with ctl := { s.ctl with dynAddr := some (a % 128) } }) ∧
      (∀ a, exec (.i3cCcc 0x06 a) s = .next { s with ctl := { s.ctl with dynAddr := none } } ∧
        exec (.i3cCcc 0x8D a) s = .next { s with outbox := .i3c (Config.i3cId 0) :: s.outbox } ∧
        exec (.i3cCcc 0x8E a) s = .next { s with outbox := .i3c (Config.i3cId 1) :: s.outbox } ∧
        exec (.i3cCcc 0x8F a) s = .next { s with outbox := .i3c (Config.i3cId 2) :: s.outbox }))

/-! ## Failures, resets and the test access (13 R411, 14 R435, R436, 15, 18) -/

/-- SLICE_FAIL (14 R435, R436) of a slice that serves: it is fenced, counted and logged; the requests of its ports end, the write-back entries it holds are lost, every
context of its partition is faulted with UNIT_FAILED, and a cause that stops the command unit loses its commands, counters and locks; other contexts stand. HEARTBEAT_TIMEOUT is that of
the command unit; IVR_PHASE_FAULT (15 R445) takes the spare phase first. SLICE_CUT taints the partition and faults its contexts; SLICE_SUPPLY_RETURN clears the slice (13 R411). -/
def Obligations.FailuresIsolate : Prop :=
  let faulted (s : State) (p : Nat) (e : Status) (t : State) : Prop := ∀ c x, ctxOf s c = some x →
    (x.part = p → x.state ≠ .faulted → ∃ y, ctxOf t c = some y ∧ y.state = .faulted ∧ y.fault = e) ∧
    (x.part ≠ p → (ctxOf t c).map Ctx.core = some x.core)
  (∀ (n cause : Nat) (s : State), s.wf = true →
    (slcFailed s n = true → exec (.sliceFail n cause) s = .next s) ∧
    (slcFailed s n = false → n < 64 → Completes (.sliceFail n cause) s fun t =>
      slcFailed t n = true ∧ (sliceOf t n).failedCu = failStopsCu cause ∧ (∀ k, (sliceOf s n).spare = some k → (sliceOf t (64 + k)).failed = true) ∧
      mget (fun _ => 0) t.integ 30 = (mget (fun _ => 0) s.integ 30 + 1) % 2 ^ 64 ∧
      (∀ o ∈ t.ops, o.slice ≠ n) ∧ (∀ e ∈ lostEntries s n, ∀ f ∈ t.wb, f.id ≠ e.id) ∧
      (∀ p, partOfSlice s n = some p → faulted s p .unitFailed t) ∧ (partOfSlice s n = none → t.ctxs = s.ctxs) ∧
      (failStopsCu cause = true → (∀ c ∈ t.cmds, qHome c.queue ≠ n) ∧ ∀ k,
        (counterHome k = n → mget (fun _ => Counter.zero) t.sync.counters k = Counter.zero) ∧
        (lockHome k = n → mget (fun _ => Lock.zero) t.sync.locks k = Lock.zero)) ∧ t = { s with
            mem := { s.mem with data := t.mem.data, chk := t.mem.chk, tag := t.mem.tag, owed := t.mem.owed, sys := t.mem.sys }, nextId := t.nextId
            regs := t.regs, log := t.log, integ := t.integ, ctxs := t.ctxs, slices := t.slices, queues := t.queues, cmds := t.cmds
            ports := t.ports, ops := t.ops, wb := t.wb, beats := t.beats, contracts := t.contracts, sync := t.sync, movers := t.movers
            outbox := t.outbox, fab := t.fab, ready := t.ready, works := t.works })) ∧
  (∀ (n : Nat) (s : State), exec (.heartbeatTimeout n) s = exec (.sliceFail n 2) { s with rc := s.rc + 64 } ∧
    ((sliceOf s n).ivrUsed = true → exec (.ivrPhaseFault n) s = exec (.sliceFail n 6) s) ∧
    (s.wf = true → (sliceOf s n).ivrUsed = false → Completes (.ivrPhaseFault n) s fun t =>
      sliceOf t n = { sliceOf s n with ivrUsed := true } ∧ (∀ m, m ≠ n → sliceOf t m = sliceOf s m) ∧ bitOf (regGet t 0 (regNo 0x80 0x204)) 6 = true ∧
      t = { s with regs := t.regs, slices := t.slices })) ∧
  (∀ (n : Nat) (s : State), s.wf = true →
    ((sliceOf s n).cutOff = true → exec (.sliceCut n) s = .next s) ∧
    ((sliceOf s n).cutOff = false → Completes (.sliceCut n) s fun t => (sliceOf t n).cutOff = true ∧
      (∀ p, partOfSlice s n = some p → (partOf t p).taint = true ∧ faulted s p (if (partOf s p).secure = true then .tainted else .unitFailed) t) ∧ t = { s with
          mem := { s.mem with data := t.mem.data, chk := t.mem.chk, tag := t.mem.tag, owed := t.mem.owed, sys := t.mem.sys }, nextId := t.nextId
          regs := t.regs, log := t.log, integ := t.integ, ctxs := t.ctxs, parts := t.parts, slices := t.slices, queues := t.queues, cmds := t.cmds
          ports := t.ports, ops := t.ops, wb := t.wb, beats := t.beats, contracts := t.contracts, sync := t.sync, movers := t.movers
          outbox := t.outbox, fab := t.fab, ready := t.ready, works := t.works }) ∧
    ((sliceOf s n).cutOff = false → exec (.sliceSupplyReturn n) s = .next s) ∧
    ((sliceOf s n).cutOff = true → Completes (.sliceSupplyReturn n) s fun t => (sliceOf t n).cutOff = false ∧ (sliceOf t n).weave = resetWeave ∧
      (∀ k, k / 524288 / 1024 = n → storedAt t k = (0, 0, false)) ∧ (∀ k, k / 131072 = n → mget (fun _ => 0) t.mem.sys k = 0) ∧
      (∀ o ∈ t.ops, o.slice ≠ n) ∧ t = { s with
          mem := { s.mem with data := t.mem.data, chk := t.mem.chk, tag := t.mem.tag, owed := t.mem.owed, sys := t.mem.sys }, regs := t.regs
          log := t.log, integ := t.integ, parts := t.parts, slices := t.slices, queues := t.queues, dbPend := t.dbPend, qEnabled := t.qEnabled
          cmds := t.cmds, ports := t.ports, ops := t.ops, wb := t.wb, beats := t.beats, contracts := t.contracts
          sync := { t.sync with waiters := s.sync.waiters }, movers := t.movers, outbox := t.outbox, fab := { t.fab with reqs := s.fab.reqs } }))

/-- Resets and start-up (15 R440 to R451; 14 R421, R431): a power-on reset leaves the device as State.reset, but for what is outside it, a new meter session and the brownout; a block reset keeps the time base, the meter,
telemetry page 0x12 (page 0x13's counts begin again), DARN_CFG, SVC_STAT and the darning map, and clears all else. STARTUP_RELEASE starts BCNT at 0 and turns the free spare slices off; loss of VHV, of the lock, and
its return stop and start the clocks, a relock that fails resetting the block. CU_BOOT digests the load area, and the answer starts the command units or leaves them stopped. -/
def Obligations.ResetsAndStartUp : Prop :=
  ∀ (s : State),
    let kept (t : State) : Prop := t.pending = s.pending ∧ t.nextId = s.nextId ∧ t.outbox = s.outbox ∧ t.mem.ext = s.mem.ext ∧ t.mem.extPoison = s.mem.extPoison ∧
      t.mem.extErr = s.mem.extErr ∧ t.pp1 = s.pp1 ∧ t.unconn = s.unconn ∧ t.cgrp = s.cgrp ∧ t.nfab = s.nfab ∧ t.fstop = s.fstop ∧
      t.test = { s.test with shadow := s.test.blown }
    let cleared (t : State) : Prop := t = { State.reset with
      pending := t.pending, nextId := t.nextId, outbox := t.outbox, mem := { Mem.zero with ext := t.mem.ext, extPoison := t.mem.extPoison, extErr := t.mem.extErr }
      pp1 := t.pp1, unconn := t.unconn, cgrp := t.cgrp, nfab := t.nfab, fstop := t.fstop, test := t.test, freeCtr := t.freeCtr, rc := t.rc, regs := t.regs
      integ := t.integ, slices := t.slices, meter := t.meter, ctl := t.ctl }
    Completes .powerOnReset s (fun t => kept t ∧ cleared t ∧ t.rc = 0 ∧ t.regs = [] ∧ t.integ = [] ∧ t.slices = [] ∧ t.freeCtr = s.freeCtr + 1 ∧
      t.meter = MeterState.start (s.freeCtr + 1) ∧ t.ctl = { State.reset.ctl with brownout := s.ctl.vhvLow }) ∧
    (∀ cause, (cause = 0 ∨ 3 < cause → exec (.blockReset cause) s = .next s) ∧
      (1 ≤ cause → cause ≤ 3 → s.wf = true → Completes (.blockReset cause) s fun t => kept t ∧ cleared t ∧ t.rc = s.rc ∧ t.integ = s.integ.filter (fun e => decide (e.1 < 256)) ∧ t.meter = s.meter ∧ t.freeCtr = s.freeCtr ∧
        (∀ r d, regGet t d r = if r = regNo 0x80 0x200 ∨ r = regNo 0x80 0x204 then regGet s d r else d % 2 ^ 32) ∧
        (∀ n, sliceOf t n = { SliceRec.zero with
          failed := (sliceOf s n).failed, spare := (sliceOf s n).spare, marks := (sliceOf s n).marks, darned := (sliceOf s n).darned
          spareLanes := (sliceOf s n).spareLanes, ivrUsed := (sliceOf s n).ivrUsed, nmuRetired := (sliceOf s n).nmuRetired
          nmuTiles := (sliceOf s n).nmuTiles }) ∧
        t.ctl = { CtlState.zero with
          cause := cause, brownout := s.ctl.brownout, unlocks := s.ctl.unlocks, phase := (if cause = 1 then 0 else 4), inReset := decide (cause = 1)
          vhvLow := s.ctl.vhvLow, dynAddr := s.ctl.dynAddr, i3cIndex := s.ctl.i3cIndex })) ∧
    (5 ≤ s.ctl.phase ∨ s.ctl.vhvLow = true → exec .startupRelease s = .next s) ∧
    (s.ctl.phase < 5 → s.ctl.vhvLow = false → s.wf = true → Completes .startupRelease s fun t => t.bcnt = 0 ∧ t.bcRun = true ∧
      t.ctl = { s.ctl with phase := 5, inReset := false, pwr := t.ctl.pwr } ∧
      (∀ k, k < 4 → (∀ n, n < 64 → (sliceOf s n).spare ≠ some k) → pwrOf t (64 + k) = { pwrOf s (64 + k) with st := .off }) ∧
      (∀ n, n < 64 → pwrOf t n = pwrOf s n) ∧ t = { s with bcnt := t.bcnt, bcRun := t.bcRun, ctl := t.ctl }) ∧
    exec .vhvBrownout s = .next { s with bcRun := false, ctl := { s.ctl with vhvLow := true } } ∧
    (s.ctl.held = false → s.ctl.deep = 0 → 3 ≤ s.ctl.phase → s.ctl.vhvLow = false →
      exec .pllUnlock s = .next { s with bcRun := false, ctl := { s.ctl with held := true, unlocks := Nat.min 255 (s.ctl.unlocks + 1) } }) ∧
    (s.ctl.held = true → exec .pllUnlock s = .next s ∧ exec .pllRelockTimeout s = exec (.blockReset 3) { s with rc := s.rc + 10000 } ∧
      (s.ctl.vhvLow = false → exec .pllRelock s = .next { s with bcRun := decide (5 ≤ s.ctl.phase), ctl := { s.ctl with held := false } })) ∧
    (s.ctl.held = false → exec .pllRelock s = .next s ∧ exec .pllRelockTimeout s = .next s) ∧
    (∀ v w, s.wf = true → MeshOpen w s → setsReserved 0x80 0x300 (BitVec.toNat v) = false → mget (fun _ => false) s.w1done (regNo 0x80 0x300) = false →
      (v.toNat % 4096 = 0 → Completes (.cuBootWrite v w) s fun t =>
        Responds (unitAddr 0x80 0x300) .decodeError s t ∧ PortErrSet w.slice 10 4 s t ∧ t = { s with regs := t.regs, outbox := t.outbox }) ∧
      (v.toNat % 4096 ≠ 0 → Completes (.cuBootWrite v w) s fun t =>
        mget (fun _ => false) t.w1done (regNo 0x80 0x300) = true ∧ regGet t 0 (regNo 0x80 0x300) = v.toNat / 2 ^ 31 * 2 ^ 31 + v.toNat % 4096 ∧
        (bitOf v.toNat 31 = false → Responds (unitAddr 0x80 0x300) .ok s t ∧ t.ctl = s.ctl) ∧
        (bitOf v.toNat 31 = true → t.ctl = { s.ctl with
            cuState := 1, phase := 6, digest := sha384 (mgetList (fun _ => 0) s.mem.boot 0 (64 * (v.toNat % 4096))) } ∧
          t.outbox = .regDone (unitAddr 0x80 0x300) .ok :: .measure (wordsOfBytes 12 t.ctl.digest) :: s.outbox) ∧
        t = { s with regs := t.regs, w1done := t.w1done, ctl := t.ctl, outbox := t.outbox })) ∧
    (s.ctl.cuState = 1 → exec (.microcodeAnswer true) s = .next { s with ctl := { s.ctl with cuState := 2, phase := 7 } } ∧
      exec (.microcodeAnswer false) s = .next { s with ctl := { s.ctl with cuState := 3 } }) ∧
    (s.ctl.cuState ≠ 1 → ∀ b, exec (.microcodeAnswer b) s = .next s)

/-- The test access (18 R522 to R525; 06 R171, 13 R409): WS_BYPASS and WS_STATUS read only; the test modes, allowed while BLK_RST_N is low, first clear every store, buffer and key;
with DEBUG_LOCK blown WS_INTEST reads zeros and FUSE_PROG has no effect, else it blows bits, which the shadow does not show yet; a blown bit stays. -/
def Obligations.TestAccessClears : Prop :=
  ∀ (s : State),
    let mode (i : Nat) (row : Instr) (result : List Word) : Prop := (s.ctl.inReset = false → exec row s = .next s) ∧
      (s.ctl.inReset = true → Completes row s fun t => t.keys = [] ∧ t.wb = [] ∧ t.beats = [] ∧ t.ports = [] ∧ t.works = [] ∧ t.movers = { chans := [], stage := [], turns := [] } ∧
        (∀ n, (sliceOf t n).nmuAcc = [] ∧ (sliceOf t n).nmuShadow = [] ∧ (sliceOf t n).sab = []) ∧
        (∀ k, storedAt t k = (0, 0, false) ∧ mget (fun _ => 0) t.mem.sys k = 0) ∧ t.mem.ext = s.mem.ext ∧ t.test = { s.test with instr := i, result := result } ∧
        t = { s with
            mem := { s.mem with data := t.mem.data, chk := t.mem.chk, tag := t.mem.tag, owed := t.mem.owed, sys := t.mem.sys }, slices := t.slices
            ports := t.ports, wb := t.wb, beats := t.beats, movers := t.movers, test := t.test, keys := t.keys, works := t.works })
    exec .wsBypass s = .next { s with test := { s.test with instr := 0 } } ∧
    exec .wsStatus s = .next { s with
      outbox := .test ([BitVec.ofNat 32 (rstStat s), BitVec.ofNat 32 (svcStat s)] ++ s.test.result) :: s.outbox, test := { s.test with instr := 1 } } ∧
    mode 2 .wsExtest s.test.result ∧ (∀ l, mode 4 (.mbistRun l) (l.map (BitVec.ofNat 32)) ∧ mode 5 (.seamTest l) (l.map (BitVec.ofNat 32))) ∧
    (debugLocked s = false → mode 3 .wsIntest s.test.result) ∧
    (debugLocked s = true → exec .wsIntest s = .next { s with outbox := .test [0] :: s.outbox } ∧ ∀ l, exec (.fuseProg l) s = .next s) ∧
    (debugLocked s = false → ∀ l, Completes (.fuseProg l) s fun t => (∀ b, b ∈ t.test.blown ↔ b ∈ s.test.blown ∨ b ∈ l) ∧
      t = { s with test := { s.test with instr := 6, blown := t.test.blown } })

/-! ## Partitions, keys and measurements (13) -/

/-- PART_CTL (R390 to R400) on a partition that is not BUSY and has nothing waiting, of a world that may ask: the write completes OK. CONFIGURE opens the partition, or its first failing precondition is
RESULT, or it waits for a DISSOLVE that it meets; SEAL seals an OPEN one; DISSOLVE of one without contexts starts the clear of every line; SUSPEND and ACTIVATE of a SEALED one begin,
or RESULT says what refuses them; the end of each leaves the partition, and its tenant's contexts, as the rules say. No context of a partition that is switching is ready (R405, log entry 81). -/
def Obligations.PartitionsChange : Prop :=
  (∀ (p : Nat) (v : Word) (w : RegWriter) (s : State), s.wf = true → p < 32 → MeshOpen w s → setsReserved 0x80 (0x1000 + p * 0x20) v.toNat = false →
    partUnused v.toNat = false → (partOf s p).busy = false → (partOf s p).waitOp = none →
    let a := unitAddr 0x80 (0x1000 + p * 0x20); let r := partOf s p; let op := bitsOf v.toNat 31 28; let sp := confSpan v.toNat
    let becomes (q : PartRec) (t : State) : Prop := partOf t p = q ∧ (∀ k, k ≠ p → partOf t k = partOf s k) ∧ t.outbox.head? = some (.regDone a .ok)
    let only (q : PartRec) (t : State) : Prop := becomes q t ∧ t = { s with regs := t.regs, parts := t.parts, outbox := t.outbox }
    let denied := w.secure = false ∧ ((3 ≤ op ∧ r.secure = true ∧ r.state ≠ .absent) ∨ (op = 1 ∧ bitOf v.toNat 26 = true))
    let row : Instr := if op = 1 then .configure p v w else if op = 3 then .dissolve p v w else if op = 4 then .suspend p v w else .activate p v w
    let bare := (tenantCtxs s p).any fun e => (!e.2.keyEn || (ctxKey s e.2).isNone) && !(unitCmds s [e.1]).isEmpty
    let waits := confSpanOk v.toNat = true ∧ meetsPart s sp (· == .dissolving) = true ∧ (r.state = .absent ∨ r.state = .dissolving)
    (denied → op ≤ 5 → Completes row s fun t => becomes { r with result := Status.secureRefused.code, refuse := (r.refuse + 1) % 2 ^ 32 } t ∧
      Logged .secureRefused 1 w.slice 10 (.mesh w.slice w.srcdev w.srcstop) 0 (partReg p 0 * 4) s t ∧
      t = { s with regs := t.regs, log := t.log, parts := t.parts, outbox := t.outbox }) ∧
    (¬denied → op = 1 →
      (waits → Completes (.configure p v w) s (only (if bitOf v.toNat 27 = true then { r with result := Status.pendingShutdown.code } else
        { r with waitOp := some (v.toNat, writerBy a w) }))) ∧
      (∀ e, ¬waits → confCheck s p v.toNat = some e → Completes (.configure p v w) s (only { r with result := e })) ∧
      (¬waits → confCheck s p v.toNat = none → Completes (.configure p v w) s (only { PartRec.zero with
        state := .opened, first := sp.first, slog := sp.slog, secure := bitOf v.toNat 26, refuse := r.refuse, queued := r.queued
        baseM := mget (fun _ => 0) s.meter.part p, baseA := mget (fun _ => 0) s.meter.alloc p }))) ∧
    (op = 2 → (r.state = .opened → Completes (.seal p v w) s fun t => becomes { r with state := .sealed, result := 0 } t ∧
        t = { s with regs := t.regs, parts := t.parts, outbox := t.outbox, ready := t.ready }) ∧
      (r.state ≠ .opened → Completes (.seal p v w) s (only { r with result := 0x80 }))) ∧
    (¬denied → op = 3 →
      ((r.state = .opened ∨ r.state = .sealed) → partCtxs s p = [] → Completes (.dissolve p v w) s fun t => becomes { r with state := .dissolving, busy := true } t ∧
        (∃ j, t.clears = s.clears ++ [j] ∧ j.id = s.nextId ∧ j.part = p ∧ j.todo = (r.span.slices.flatMap sliceLines).filter fun l => !slcFailed s (l.1 / 1024)) ∧
        t = { s with regs := t.regs, nextId := s.nextId + 1, parts := t.parts, clears := t.clears, outbox := t.outbox }) ∧
      (¬((r.state = .opened ∨ r.state = .sealed) ∧ partCtxs s p = []) → Completes (.dissolve p v w) s (only { r with result := 0x80 }))) ∧
    (¬denied → op = 4 → (r.state ≠ .sealed → Completes (.suspend p v w) s (only { r with result := 0x80 })) ∧
      (r.state = .sealed → r.active = 0 → Completes (.suspend p v w) s (only { r with result := 0, delayed := false })) ∧
      (r.state = .sealed → r.active ≠ 0 → ((tenantCtxs s p).any fun e => ctxContract s e.1) = true → Completes (.suspend p v w) s
        (only { r with result := Status.rejectedContract.code, delayed := false })) ∧
      (r.state = .sealed → r.active ≠ 0 → ((tenantCtxs s p).any fun e => ctxContract s e.1) = false → bare = true → Completes (.suspend p v w) s
        (only { r with result := Status.decodeError.code, delayed := false })) ∧
      (r.state = .sealed → r.active ≠ 0 → ((tenantCtxs s p).any fun e => ctxContract s e.1) = false → bare = false →
        Completes (.suspend p v w) s fun t => (partOf t p).state = .suspending ∧ (partOf t p).busy = true ∧ (partOf t p).stopping = (tenantCtxs s p).map (·.1) ∧
          t.outbox.head? = some (.regDone a .ok) ∧ t.ctxs = s.ctxs ∧
          (∀ w ∈ t.sync.waiters, w.ctx ∈ (tenantCtxs s p).map (·.1) → w.paused ≠ none) ∧
          t.fab.reqs = s.fab.reqs.map (fun q => if q.ctx ∈ (tenantCtxs s p).map (·.1) ∧ q.paused = none then { q with paused := some s.rc } else q) ∧
          t = { s with
            nextId := t.nextId, regs := t.regs, parts := t.parts, ports := t.ports, wb := t.wb, beats := t.beats, contracts := t.contracts
            sync := { s.sync with waiters := t.sync.waiters }, movers := t.movers, outbox := t.outbox, fab := { s.fab with reqs := t.fab.reqs }, ready := t.ready, works := t.works })) ∧
    (¬denied → op = 5 → let tenant := regGet s 0 (partReg p 8) % 65536; let h := readHeader s p
      (r.state ≠ .sealed → Completes (.activate p v w) s (only { r with result := 0x80 })) ∧
      (r.state = .sealed → ((r.active ≠ 0 ∧ r.active ≠ tenant) ∨ otherChan s p tenant = true) → Completes (.activate p v w) s
        (only { r with result := 0x80, delayed := false })) ∧
      (r.state = .sealed → ¬((r.active ≠ 0 ∧ r.active ≠ tenant) ∨ otherChan s p tenant = true) →
        ((tenant ∈ r.met ∧ h.1 = true ∧ (h.2.1 ≠ tenant ∨ h.2.2.1 ≠ p)) → Completes (.activate p v w) s (only { r with result := 0x82, delayed := false })) ∧
        (¬(tenant ∈ r.met ∧ h.1 = true ∧ (h.2.1 ≠ tenant ∨ h.2.2.1 ≠ p)) → Completes (.activate p v w) s
          fun t => becomes { r with state := .activating, busy := true, delayed := false } t ∧
            (∀ c x, ctxOf s c = some x → x.part = p → tdiOf s c ≠ none → mget (fun _ => false) t.ready c = false) ∧
            t = { s with regs := t.regs, parts := t.parts, outbox := t.outbox, ready := t.ready })))) ∧
  (∀ (p : Nat) (s : State), s.wf = true → let r := partOf s p
    (r.state ≠ .dissolving ∨ (∃ j ∈ s.clears, j.part = p) → exec (.dissolveDone p) s = .next s) ∧
    (r.state = .dissolving → (∀ j ∈ s.clears, j.part ≠ p) → (∀ q, (partOf s q).waitOp = none) → r.queued = [] → Completes (.dissolveDone p) s fun t =>
      partOf t p = { PartRec.zero with refuse := r.refuse } ∧ (∀ q, q ≠ p → partOf t q = partOf s q) ∧
      (∀ n ∈ r.span.slices, (sliceOf t n).weave = resetWeave ∧ sleeveCfg t n = 0xFFFF ∧
        (∀ k, k / 131072 = n → k % 131072 < 0x1FE00 → mget (fun _ => 0) t.mem.sys k = 0) ∧
        ∀ k, (counterHome k = n → mget (fun _ => Counter.zero) t.sync.counters k = Counter.zero) ∧
          (lockHome k = n → mget (fun _ => Lock.zero) t.sync.locks k = Lock.zero)) ∧ t = { s with
              mem := { s.mem with sys := t.mem.sys }, nextId := t.nextId, regs := t.regs, log := t.log, parts := t.parts, slices := t.slices
              cmds := t.cmds, ports := t.ports, ops := t.ops, wb := t.wb, beats := t.beats, clears := t.clears, contracts := t.contracts
              sync := t.sync, movers := t.movers, outbox := t.outbox, fab := { s.fab with reqs := t.fab.reqs }, ready := t.ready, works := t.works }) ∧
    (r.state ≠ .suspending ∨ suspendQuiet s p = false → exec (.suspendDone p) s = .next s) ∧
    (r.state = .suspending → suspendQuiet s p = true → r.waitOp = none → r.queued = [] → Completes (.suspendDone p) s fun t =>
      partOf t p = { r with
        state := .sealed, active := 0, busy := false, stopping := [], result := (if r.delayed = true then 3 else 0), delayed := false
        met := (if r.active = 0 ∨ r.met.contains r.active = true then r.met else r.active :: r.met) } ∧
      (∀ c x, ctxOf s c = some x → ctxOf t c = some (if c ∈ r.stopping ∧ x.state = .active then { x with state := .suspended } else x)) ∧
      (imageRecords s p = [] → wordsOfBytes 4 ((extRead t (partSave s p) 16).map (·.1)) =
        [BitVec.ofNat 32 r.active, BitVec.ofNat 32 p, BitVec.ofNat 32 r.slog, 0]) ∧
      (∀ n ∈ r.span.slices, (sliceOf t n).nmuAcc = [] ∧ (sliceOf t n).nmuShadow = [] ∧ (sliceOf t n).sab = []) ∧ t = { s with
          mem := { s.mem with ext := t.mem.ext, extPoison := t.mem.extPoison }, nextId := t.nextId, regs := t.regs, log := t.log, ctxs := t.ctxs
          parts := t.parts, slices := t.slices, queues := t.queues, qback := t.qback, cmds := t.cmds, ports := t.ports, ops := t.ops, wb := t.wb
          beats := t.beats, clears := t.clears, contracts := t.contracts, sync := { s.sync with waiters := t.sync.waiters }, movers := t.movers
          outbox := t.outbox, fab := { s.fab with reqs := t.fab.reqs }, ready := t.ready, works := t.works }) ∧
    (r.state ≠ .activating → exec (.activateDone p) s = .next s) ∧
    (∀ tenant, tenant = regGet s 0 (partReg p 8) % 65536 → r.state = .activating → r.waitOp = none → r.queued = [] → tenant ∉ r.met → Completes (.activateDone p) s fun t =>
      partOf t p = { r with state := .sealed, active := tenant, busy := false, result := (if r.delayed = true then 3 else 0), delayed := false } ∧
      (∀ c x, ctxOf s c = some x → ctxOf t c = some (if x.part = p ∧ x.tenant = tenant ∧ x.state = .suspended then { x with state := .active } else x)) ∧ t = { s with
          mem := { s.mem with data := t.mem.data, chk := t.mem.chk, tag := t.mem.tag, owed := t.mem.owed, sys := t.mem.sys }, nextId := t.nextId
          regs := t.regs, log := t.log, integ := t.integ, ctxs := t.ctxs, parts := t.parts, slices := t.slices, queues := t.queues, cmds := t.cmds
          ports := t.ports, ops := t.ops, wb := t.wb, beats := t.beats, clears := t.clears, contracts := t.contracts, sync := t.sync
          movers := t.movers, outbox := t.outbox, fab := t.fab, meter := t.meter, ready := t.ready, works := t.works }) ∧
    (∀ tenant, tenant = regGet s 0 (partReg p 8) % 65536 → r.state = .activating → r.waitOp = none → r.queued = [] → tenant ∈ r.met → (readHeader s p).1 = false →
      Completes (.activateDone p) s fun t => (partOf t p).state = .sealed ∧ (partOf t p).active = tenant ∧
        ∀ c x, ctxOf s c = some x → x.part = p → x.tenant = tenant → ∃ y, ctxOf t c = some y ∧ y.state = .faulted))

/-- KEY_LOAD and KEY_ERASE (R402): a slot is loaded unless a context that uses its key names it, erased always; no other slot changes. MEASUREMENT_REQUEST (R407) answers the content of an index 1 to 5
and changes nothing. TDISP_STATE_REPORT (R406) takes the state; ERROR of a locked or running interface faults every context of it. -/
def Obligations.KeysAndReports : Prop :=
  (∀ (slot tenant : Nat) (key : BitVec 512) (s : State), s.wf = true →
    let used := ∃ c x, ctxOf s c = some x ∧ x.keyEn = true ∧ x.keySlot = slot
    (64 ≤ slot ∨ 65536 ≤ tenant → exec (.keyLoad slot tenant key) s = .next { s with outbox := .keyRsp 2 :: s.outbox }) ∧
    (slot < 64 → tenant < 65536 → used → exec (.keyLoad slot tenant key) s = .next { s with outbox := .keyRsp 1 :: s.outbox }) ∧
    (slot < 64 → tenant < 65536 → ¬used → Completes (.keyLoad slot tenant key) s fun t =>
      mget (fun _ => none) t.keys slot = some (tenant, key.toNat) ∧ (∀ k, k ≠ slot → mget (fun _ => none) t.keys k = mget (fun _ => none) s.keys k) ∧
      t.outbox.head? = some (.keyRsp 0) ∧ t = { s with outbox := t.outbox, keys := t.keys, ready := t.ready }) ∧
    (64 ≤ slot → exec (.keyErase slot) s = .next { s with outbox := .keyRsp 2 :: s.outbox }) ∧
    (slot < 64 → Completes (.keyErase slot) s fun t =>
      mget (fun _ => none) t.keys slot = none ∧ (∀ k, k ≠ slot → mget (fun _ => none) t.keys k = mget (fun _ => none) s.keys k) ∧
      (∀ c x, ctxOf t c = some x → x.keyEn = true → x.keySlot = slot → readyNow t c = false) ∧ t.outbox.head? = some (.keyRsp 0) ∧ t = { s with outbox := t.outbox, keys := t.keys, ready := t.ready })) ∧
  (∀ (kind arg : Nat) (nonce : BitVec 256) (s : State),
    (1 ≤ kind → kind ≤ 5 → exec (.measurementRequest kind arg nonce) s = .next { s with outbox := .measure (measureWords s kind arg) :: s.outbox }) ∧
    (kind = 0 ∨ 5 < kind → exec (.measurementRequest kind arg nonce) s = .next s) ∧
    measureWords s 1 arg = wordsOfBytes 12 s.ctl.digest) ∧
  (∀ (tdi state : Nat) (s : State), s.wf = true → (3 < state → exec (.tdispStateReport tdi state) s = .next s) ∧
    (state ≤ 3 → Completes (.tdispStateReport tdi state) s fun t => mget (fun _ => 0) t.tdi tdi = state ∧
      (∀ k, k ≠ tdi → mget (fun _ => 0) t.tdi k = mget (fun _ => 0) s.tdi k) ∧
      (¬(state = 3 ∧ (mget (fun _ => 0) s.tdi tdi = 1 ∨ mget (fun _ => 0) s.tdi tdi = 2)) → t = { s with tdi := t.tdi }) ∧
      (state = 3 → (mget (fun _ => 0) s.tdi tdi = 1 ∨ mget (fun _ => 0) s.tdi tdi = 2) → ∀ c x, ctxOf s c = some x → tdiOf s c = some tdi →
        ∃ y, ctxOf t c = some y ∧ y.state = .faulted) ∧ t = { s with
            mem := { s.mem with data := t.mem.data, chk := t.mem.chk, tag := t.mem.tag, owed := t.mem.owed, sys := t.mem.sys }, nextId := t.nextId
            log := t.log, integ := t.integ, ctxs := t.ctxs, slices := t.slices, queues := t.queues, cmds := t.cmds, ports := t.ports, wb := t.wb
            beats := t.beats, contracts := t.contracts, sync := t.sync, movers := t.movers, outbox := t.outbox, fab := t.fab, tdi := t.tdi
            ready := t.ready, works := t.works }))

/-! ## Ports (04) -/

/-- The write-back entries keep distinct numbers, each below the next number to be given out: in every state that has them so, a step leaves them so, and reset has none
(04 R94: an entry is one range of one port's buffer; the numbers are the model's own). -/
def Obligations.EntriesStayNumbered : Prop :=
  EntriesNumbered State.reset ∧ ∀ s t : State, EntriesNumbered s → step s = .next t → EntriesNumbered t

/-- READ and TFILL of pockets in class B, at a home port or the mesh port (R89, R98, R100 to R102, R110, R111; 09 R292): bytes that this port's newest entries hold are forwarded; where live reuse
entries give every byte, VOL is 0 and nothing must come first, or the tile has no row in use, the request is answered at once, each masked row as zeros; otherwise it is
outstanding, B-class beats at its EP wait at the banks, one for each line segment it touches (03 R65) and every one of its bytes in one, and it waits for what must come first: pending accumulations of its bytes, entries of its core group on its ranges,
and under core order the earlier reads of its group on its bytes. -/
def Obligations.ReadsAreServedOrWait : Prop :=
  ∀ (r : PortReq) (s : State) (x : Ctx) (st : Store) (p : Pocket) (row : Instr) (kind : Nat), s.wf = true →
    (row, kind) ∈ [(Instr.read r, 0), (Instr.tfill r, 5)] → PortPasses kind r s x st p → KeysReached (reqOf s r) ((reqOf s r).keys s x st p) s →
    let q := reqOf s r; let n := r.slice; let c := q.ctx s; let addrs := q.addrs st; let keys := q.keys s x st p
    let fwd (a : Nat) := forwardByte s n r.port c a
    let held (a : Nat) : Option (Byte × Bool) := (fwd a).orElse fun _ => (reuseByte s n r.port c a).map fun b => (b, false)
    let got := addrs.map fun a => (held a).getD (0, false)
    let before := accPending s n r.port c addrs ++ (groupEntries s n r.port c ((addrs.map fun a => a / 64 * 64).eraseDups)).map WbEntry.id ++
      (if coreOn s n r.port = true then groupReads s n r.port c addrs ++
        (s.ops.filter fun y => y.slice == n && y.port == r.port && y.reads && y.keys.any fun k => keys.contains k).map PortOp.id else [])
    let once := keys = [] ∨ (q.h.vol = false ∧ (∀ a ∈ addrs, reuseByte s n r.port c a ≠ none) ∧ before = [])
    (once → Completes row s fun t => ∃ data zeros, PortAnswers r (if got.any (·.2) = true then .uncorrectable else .ok) (data.filter fun b => !b.2).length data zeros s t ∧
      (kind = 0 → data = readTransform q.h got ∧ zeros = []) ∧
      (kind = 5 → data.length = 2048 ∧ zeros = (List.range 16).filter (fun k => !bitOf q.h.aux k) ∧
        (∀ k i : Nat, k < 16 → i < 128 → bitOf q.h.aux k = false → data[128 * k + i]? = some (0, false)) ∧
        (∀ k i : Nat, k < 16 → i < 128 → bitOf q.h.aux k = true → data[128 * k + i]? = got[128 * ((List.range k).filter (bitOf q.h.aux)).length + i]?)) ∧
      BeatsTaken s t ∧
      t = { s with
        nextId := t.nextId, regs := t.regs, slices := t.slices, ports := t.ports, ops := t.ops, beats := t.beats, outbox := t.outbox, ctl := { s.ctl with pwr := t.ctl.pwr } }) ∧
    (¬once → Completes row s fun t => let new := (t.beats.drop s.beats.length).filter fun b => b.kind == .read
      (∃ o, t.ops = s.ops ++ [o] ∧ o.id = s.nextId ∧ o.slice = n ∧ o.port = r.port ∧ o.tag = q.h.tag ∧ o.kind = (if kind = 0 then .read else .tfill) ∧ o.ctx = c ∧
        o.keys = keys ∧ o.addrs = addrs ∧ o.got = [] ∧ o.g = false ∧ o.left = new.length ∧ o.after = before ∧ (∀ i a, addrs[i]? = some a → o.fwd.lookup i = fwd a)) ∧
      (∀ b ∈ new, b.op = s.nextId ∧ b.g = false ∧ b.ep = effPrio s n r.port q.h r.urg ∧ ∀ x ∈ b.items, keys[x.2]? = some x.1 ∧ b.slice = (placeOf x.1).slice ∧ b.bank = (placeOf x.1).bankNo) ∧
      (∀ i k, keys[i]? = some k → ∃ b ∈ new, (k, i) ∈ b.items ∧ ∀ x ∈ b.items, beatKey x.1 = beatKey k) ∧
      (new.map fun b => beatKey (b.items.headD (0, 0)).1).Nodup ∧
      BeatsStay s t ∧ (groupEntries s n r.port c ((addrs.map fun a => a / 64 * 64).eraseDups) = [] → EntriesLand s t) ∧
      t = { s with nextId := t.nextId, slices := t.slices, ops := t.ops, wb := t.wb, beats := t.beats, ctl := { s.ctl with pwr := t.ctl.pwr } })

/-- WRITE, ACC_WRITE and TSPILL of pockets in class B (R89, R94 to R100, R110; 12 R372): one that finds no room for the entries it needs (R94: of 128, 112 for both classes and 16 for G) waits, changing nothing but idle timers and what the crossbar takes; a mesh
WRITE or ACC_WRITE without a credit is CREDIT_DENIED; otherwise every byte stands in a write-back entry of its range, its credit counts the bytes as landed, the reuse entries of those
ranges are gone at the port and its core group, each entry waits for the reads of its core group that are still to take bytes of the request (09 R292), and a posted request is answered OK at once with its length, a non-posted one when
the entries that now name it have committed. -/
def Obligations.WritesEnterTheBuffer : Prop :=
  ∀ (r : PortReq) (s : State) (x : Ctx) (st : Store) (p : Pocket) (row : Instr) (kind : Nat), s.wf = true →
    (row, kind) ∈ [(Instr.write r, 1), (Instr.accWrite r, 2), (Instr.tspill r, 4)] → PortPasses kind r s x st p → KeysReached (reqOf s r) ((reqOf s r).keys s x st p) s →
    let q := reqOf s r; let n := r.slice; let pt := r.port; let c := q.ctx s; let addrs := q.addrs st
    let bases := (addrs.map fun a => a / 64 * 64).eraseDups
    let bytes := if kind = 1 then writeTransform q.h r.data else r.data
    let opens (b : Nat) : Bool := s.wb.any fun e => e.home == n && e.port == pt && e.ctx == c && e.base == b && !e.issued && e.acc.isNone
    let need := (bases.filter fun b => decide (kind = 2) || !opens b).length
    let room := ((portEntries s n pt).filter fun e => !e.g).length + (((portEntries s n pt).filter WbEntry.g).length - 16) + need ≤ 112
    let cred := creditOk s q st (pocketNoOf q.local) addrs.length
    let credited := q.mesh = true ∧ kind ≠ 4
    (credited → cred = none → Completes row s fun t => PortAnswers r .creditDenied 0 [] [] s t ∧ SetsPortErr n pt 2 s t ∧ BeatsTaken s t ∧
      t = { s with
        nextId := t.nextId, regs := t.regs, slices := t.slices, beats := t.beats, outbox := t.outbox, ctl := { s.ctl with pwr := t.ctl.pwr } }) ∧
    ((credited → cred.isSome = true) → ¬room → Completes row s fun t => BeatsTaken s t ∧
      t = { s with slices := t.slices, beats := t.beats, ctl := { s.ctl with pwr := t.ctl.pwr } }) ∧
    ((credited → cred.isSome = true) → room → Completes row s fun t =>
      (EntriesNumbered s → ∀ (i a : Nat) (b : Byte), addrs[i]? = some a → bytes[i]? = some b → (∀ j : Nat, i < j → addrs[j]? ≠ some a) → ∃ e ∈ t.wb,
        e.home = n ∧ e.port = pt ∧ e.ctx = c ∧ e.base = a / 64 * 64 ∧ e.acc = (if kind = 2 then some q.h.accop else none) ∧ e.be.lookup (a % 64) = some b ∧
        (if q.h.np then (∃ l, (s.nextId, l) ∈ e.np) else e.posted = true) ∧ ∀ j ∈ groupReads s n pt c addrs, j ∈ e.after) ∧
      (∀ m, m = pt ∨ (m < 10 ∧ sameCore s n pt m = true) → ∀ e ∈ (portOf t n m).reuse, ¬(e.ctx = c ∧ e.base ∈ bases)) ∧ BeatsStay s t ∧
      (∀ g ∈ s.fab.grants, credited → g.part = extCred q.ext / 1024 % 32 → g.index = extCred q.ext % 1024 →
        { g with landed := mput (fun _ => 0) g.landed n (g.landedOn n + addrs.length) } ∈ t.fab.grants) ∧
      (¬credited → t.fab = s.fab) ∧
      (q.h.np = false → PortAnswers r .ok (q.h.len + 1) [] [] s t ∧ t.ops.length = s.ops.length) ∧
      (q.h.np = true → addrs = [] → PortAnswers r (match (portOf s n pt).late with
        | some l => l
        | none => .ok) (q.h.len + 1) [] [] s t ∧ (portOf t n pt).late = none) ∧
      (q.h.np = true → addrs ≠ [] → t.outbox = s.outbox ∧ t.ops.length = s.ops.length + 1 ∧ ∃ o ∈ t.ops, o.id = s.nextId ∧ o.slice = n ∧ o.port = pt ∧
        o.tag = q.h.tag ∧ o.left = bases.length ∧ o.kind = (if kind = 1 then .write else if kind = 2 then .accWrite else .tspill)) ∧
      t = { s with
        nextId := t.nextId, slices := t.slices, ports := t.ports, ops := t.ops, wb := t.wb, beats := t.beats, outbox := t.outbox
        ctl := { s.ctl with pwr := t.ctl.pwr }, fab := { s.fab with grants := t.fab.grants } })

/-- FLUSH in class B (R83, R89, R99, R103): the port's reuse entries of its range and context are gone; where no write-back entry overlaps the range it is answered at once with COUNT 0 and any
late status the port owes; else every such entry is issued and owes it its commit, and it is outstanding; each entry holds one of the 224 scoreboard
entries of the slice of its bytes, or waits for one while all are held. A request of any kind at a DISABLED port completes DECODE_ERROR undecoded (R119), one at a slice that has failed UNIT_FAILED (R90), and one with a reserved bit set
RESERVED_FIELD_NONZERO (R89); an unbound home port's pocket request completes DECODE_ERROR. On a PP1 port a response waits until every older request of the port has been answered (R87, log entry 83). -/
def Obligations.FlushesAndRefusals : Prop :=
  (∀ (r : PortReq) (s : State) (x : Ctx) (st : Store) (p : Pocket), s.wf = true → PortPasses 3 r s x st p →
    let q := reqOf s r; let n := r.slice; let pt := r.port; let c := q.ctx s; let base := q.h.addr % 2 ^ 40; let len := (q.h.len + 1) * 256
    let covers (e : WbEntry) : Prop := e.home = n ∧ e.port = pt ∧ e.ctx = c ∧ rangesMeet e.base 64 base len = true
    let es := flushEntries s n pt c base len
    Completes (.flush r) s fun t =>
      (es = [] → PortAnswers r (match (portOf s n pt).late with
          | some l => l
          | none => .ok) 0 [] [] s t ∧ (portOf t n pt).late = none ∧ t.ops.length = s.ops.length) ∧
      (∀ e ∈ (portOf t n pt).reuse, ¬(e.ctx = c ∧ rangesMeet e.base 64 base len = true)) ∧
      (es ≠ [] → (∃ o ∈ t.ops, o.id = s.nextId ∧ o.kind = .flush ∧ o.slice = n ∧ o.port = pt ∧ o.tag = q.h.tag ∧ o.left = es.length) ∧ t.outbox = s.outbox ∧
        (EntriesNumbered s → ∀ e ∈ t.wb, covers e → e.issued = true ∧ .op s.nextId ∈ e.flushes ∧ e.sb ≠ .none ∧
          (e.sb = .waits → 224 ≤ sbHeld t (entrySlice t e)))) ∧
      (∀ m, sbHeld t m ≤ Nat.max 224 (sbHeld s m)) ∧ BeatsStay s t ∧
      t = { s with
        nextId := t.nextId, slices := t.slices, ports := t.ports, ops := t.ops, wb := t.wb, beats := t.beats, outbox := t.outbox
        ctl := { s.ctl with pwr := t.ctl.pwr } }) ∧
  (∀ (r : PortReq) (s : State) (row : Instr) (kind : Nat), s.wf = true →
    (row, kind) ∈ [(Instr.read r, 0), (.write r, 1), (.accWrite r, 2), (.flush r, 3), (.tspill r, 4), (.tfill r, 5)] →
    let q := reqOf s r; let n := r.slice; let pt := r.port
    (portsOpen s = true → pt ≤ 10 → n < 64 → portWired s n pt = true → q.h.kind = kind → r.data.length = dataLen q.h →
      ((portOf s n pt).state = .disabled → Completes row s fun t => PortAnswers r .decodeError 0 [] [] s t ∧ SetsPortErr n pt 4 s t ∧
        t = { s with nextId := t.nextId, regs := t.regs, ports := t.ports, outbox := t.outbox }) ∧
      ((portOf s n pt).state = .enabled → slcFailed s n = true → Completes row s fun t => PortAnswers r .unitFailed 0 [] [] s t ∧
        t = { s with nextId := t.nextId, ports := t.ports, outbox := t.outbox }) ∧
      ((portOf s n pt).state = .draining ∨ (portOf s n pt).state = .clearing → exec row s = .next s)) ∧
    (PortReaches kind r s → q.h.rsvd = true → Completes row s fun t => PortAnswers r .reservedNonzero 0 [] [] s t ∧ SetsPortErr n pt 5 s t ∧ BeatsTaken s t ∧
      t = { s with
        nextId := t.nextId, regs := t.regs, slices := t.slices, ports := t.ports, beats := t.beats, outbox := t.outbox, ctl := { s.ctl with pwr := t.ctl.pwr } }) ∧
    (PortReaches kind r s → q.h.rsvd = false → shapeOk s n pt false q.h = true → q.h.gta = false → pt < 10 → storeOf (regionOf q.h.addr) ≠ none →
      portBound s n pt = false → Completes row s fun t => PortAnswers r .decodeError 0 [] [] s t ∧ SetsPortErr n pt 4 s t ∧ BeatsTaken s t ∧
        t = { s with
          nextId := t.nextId, regs := t.regs, slices := t.slices, ports := t.ports, beats := t.beats, outbox := t.outbox, ctl := { s.ctl with pwr := t.ctl.pwr } }))

/-- BANK_BEAT (03 R57 to R60, R65; 04 R96, R110): while bank cycles run, each counts one in BCNT, and with no beat waiting and nothing else to move it changes no store byte, entry, request or output. A read's last waiting beat, alone at an idle bank that no rail limit, bubble, allowance,
scoreboard or owed tag holds, takes the store's bytes, and the read is answered, UNCORRECTABLE where a byte is poisoned; an entry's beat then writes its bytes, or combines them with what the store holds, and the entry takes its status.
PRIORITY_RAISE gives EP 3 to the B-class beats of a request that the crossbar still holds and to nothing else (R105). -/
def Obligations.BanksServeBeats : Prop :=
  (∀ s : State, (s.bcRun = false → exec .bankBeat s = .next s) ∧
    (s.bcRun = true → Completes .bankBeat s fun _ => True) ∧
    (s.bcRun = true → NoOwnFrames s → Completes .bankBeat s fun t => t.bcnt = (s.bcnt + 1) % 2 ^ 64 ∧
      (s.beats = [] → OnlyBeats s → t.mem.data = s.mem.data ∧ t.mem.chk = s.mem.chk ∧ t.outbox = s.outbox ∧ t.wb = s.wb ∧ t.ops = s.ops) ∧ CtxsKept s t ∧ t = { s with
          mem := { s.mem with data := t.mem.data, chk := t.mem.chk, tag := t.mem.tag, owed := t.mem.owed }, regs := t.regs, bcnt := t.bcnt
          log := t.log, integ := t.integ, ctxs := t.ctxs, slices := t.slices, cmds := t.cmds, ports := t.ports, ops := t.ops, wb := t.wb
          beats := t.beats, busyBanks := t.busyBanks, clears := t.clears, contracts := t.contracts, movers := t.movers, outbox := t.outbox
          power := t.power, works := t.works, outerUsed := t.outerUsed, ctl := { s.ctl with pwr := t.ctl.pwr } })) ∧
  (∀ (s : State) (b : Beat), s.wf = true → s.bcRun = true → s.beats = [b] → b.g = false → OnlyBeats s → NoOwnFrames s → beatBlocked s b = false →
    (b.queued = true ∨ (b.ep ≤ 3 ∧ regulatorOk s b = true)) → railBlocks s b.slice = false → bubbleFalls s 1 = false →
    let ks := b.items.map (·.1)
    (∀ o, b.kind = .read → opOf s b.op = some o → o.kind = .read → o.left = 1 → o.bound = none → o.suspended = false → b.items = o.keys.zipIdx →
      o.fwd = [] → o.got = [] → Completes .bankBeat s fun t => t.beats = [] ∧
        let d := ks.map (byteAt s); let data := readTransform (opHdr s o) d
        let st := if d.any (·.2) = true then .uncorrectable else o.status.join (if readStatus s ks = .okCorrected then .okCorrected else .ok)
        OpAnswers o st (data.filter fun x => !x.2).length data s t ∧ (∀ y ∈ t.ops, y.id ≠ o.id) ∧
        t.mem.data = s.mem.data) ∧
    (∀ o, b.kind = .read → opOf s b.op = some o → 1 < o.left → Completes .bankBeat s fun t => t.beats = [] ∧ t.outbox = s.outbox ∧ t.mem.data = s.mem.data ∧
      ∃ o', opOf t b.op = some o' ∧ o'.left = o.left - 1 ∧
        (keysRise 0 o.got = true → (b.items.map (·.2)).Nodup → ∀ x ∈ b.items, o'.got.lookup x.2 = some (byteAt s x.1))) ∧
    (∀ e, b.kind ≠ .read → wbOf s b.op = some e → Completes .bankBeat s fun t => t.beats = [] ∧ t.outbox = s.outbox ∧
      let bs := b.items.map fun x => ((e.be.lookup x.2).getD 0, (e.bad.lookup x.2).isSome)
      let w : State × WriteRes := match e.acc with
        | none => writeBytes { ctx := e.ctx, who := e.who } (ks.zip bs) s
        | some op => accumRun { ctx := e.ctx, who := e.who } op (b.len / accSize op) b.first bs (s, { status := .ok, lost := 0 })
      let gone := if w.2.lost = 0 then [] else (b.items.filter fun x => (byteAt w.1 x.1).2).map (·.2)
      t.mem.data = w.1.mem.data ∧ t.mem.chk = w.1.mem.chk ∧
      wbOf t b.op = some { e with
        started := true, left := e.left - 1, status := e.status.join w.2.status, lost := e.lost ++ gone, gLeft := (if e.left - 1 = 0 then 0 else e.gLeft) })) ∧
  (∀ (op : Nat) (s : State), exec (.priorityRaise op) s =
    .next { s with beats := s.beats.map fun b => if b.op = op ∧ b.g = false ∧ b.queued = false then { b with ep := 3 } else b })

/-- The other events of a port (R92, R96, R99, R100, R103; 12 R372). BURST_TIMEOUT: the port waits 4,096 pc, the request completes DECODE_ERROR and has no other effect. WB_AGE_EXPIRY: BCNT stands at least at
the end of the entry's age limit and the entry is issued. REUSE_EXPIRY: the entry's bytes are no longer served. WB_ENTRY_COMMIT of an entry whose beats are served and that waits for nothing: it leaves the
buffer; a posted write that failed is logged, sets PORT_ERR.LATE and is owed by the port; the non-posted request or the FLUSH that waits for it alone is answered. -/
def Obligations.PortEventsAct : Prop :=
  (∀ (r : PortReq) (s : State), s.wf = true → let k := (reqOf s r).h.kind
    let stalls := portsOpen s = true ∧ r.port ≤ 10 ∧ r.slice < 64 ∧ portWired s r.slice r.port = true ∧ (k = 1 ∨ k = 2 ∨ k = 4) ∧
      ((portOf s r.slice r.port).state = .disabled ∨ ((portOf s r.slice r.port).state = .enabled ∧ (reqOf s r).ready s = true))
    (stalls → Completes (.burstTimeout r) s fun t => PortAnswers r .decodeError 0 [] [] s t ∧ SetsPortErr r.slice r.port 4 s t ∧ t.bcnt = s.bcnt + 2048 ∧
        t = { s with nextId := t.nextId, regs := t.regs, bcnt := t.bcnt, ports := t.ports, outbox := t.outbox }) ∧
    (¬stalls → exec (.burstTimeout r) s = .next s)) ∧
  (∀ (id : Nat) (s : State),
    (wbOf s id = none ∨ (∃ e, wbOf s id = some e ∧ e.issued = true) → exec (.wbAgeExpiry id) s = .next s) ∧
    (∀ e, wbOf s id = some e → e.issued = false → Completes (.wbAgeExpiry id) s fun t =>
      t.bcnt = Nat.max s.bcnt (e.takenB + 2 ^ (bitsOf (portCfg s e.home e.port) 15 12 + 1)) ∧
      (∃ e', wbOf t id = some e' ∧ e'.issued = true ∧ e'.be = e.be ∧ e'.bad = e.bad ∧ e'.left = t.beats.length - s.beats.length) ∧
      t.beats.take s.beats.length = s.beats ∧
      (∀ b ∈ t.beats.drop s.beats.length, b.op = id ∧ b.kind = (if e.acc.isSome then .accum else .write) ∧ b.ep = e.ep) ∧
      (∀ o y, (o, y) ∈ e.be → ∃ b ∈ t.beats.drop s.beats.length, (entryKey s e o, o) ∈ b.items) ∧ t = { s with nextId := t.nextId, bcnt := t.bcnt, wb := t.wb, beats := t.beats })) ∧
  (∀ (n p c base : Nat) (s : State), s.wf = true → let hit (e : ReuseEntry) : Prop := e.ctx = c ∧ e.base = base
    ((∀ e ∈ (portOf s n p).reuse, ¬hit e) → exec (.reuseExpiry n p c base) s = .next s) ∧
    (∀ e, (portOf s n p).reuse = [e] → hit e → Completes (.reuseExpiry n p c base) s fun t =>
      t.bcnt = Nat.max s.bcnt (e.fillB + reuseLife s n p) ∧ portOf t n p = { portOf s n p with reuse := [] } ∧ t = { s with bcnt := t.bcnt, ports := t.ports })) ∧
  (∀ (id : Nat) (s : State), s.wf = true →
    ((∀ e, wbOf s id = some e → ¬(e.issued = true ∧ e.left = 0 ∧ allGone s e.after = true)) → exec (.wbEntryCommit id) s = .next s) ∧
    (∀ e, wbOf s id = some e → e.issued = true → e.left = 0 → allGone s e.after = true →
      let bad := e.status = .uncorrectable ∨ e.status = .unitFailed
      Completes (.wbEntryCommit id) s (fun t => (∀ y ∈ t.wb, y.id ≠ e.id) ∧ (∀ y ∈ s.wb, y.id ≠ e.id → ∃ y' ∈ t.wb, y' = { y with sb := y'.sb, landed := y'.landed }) ∧ t = { s with
          regs := t.regs, log := t.log, integ := t.integ, slices := t.slices, cmds := t.cmds, ports := t.ports, ops := t.ops, wb := t.wb
          outbox := t.outbox, fab := { t.fab with reqs := s.fab.reqs } }) ∧
      (e.np = [] → e.flushes = [] → e.cred = none → (e.posted = true → ¬bad) → Completes (.wbEntryCommit id) s fun t =>
        t = { s with wb := t.wb, slices := t.slices }) ∧
      (e.np = [] → e.flushes = [] → e.cred = none → e.posted = true → bad → Completes (.wbEntryCommit id) s fun t => Logged e.status 1 e.home e.port e.who e.ctx e.base s t ∧
        bitOf (regGet t 0 (portReg e.home e.port 0x10)) 7 = true ∧ (portOf t e.home e.port).late = some ((portOf s e.home e.port).late.getD e.status)) ∧
      (∀ i mine o, e.np = [(i, mine)] → e.flushes = [] → e.cred = none → e.posted = false → opOf s i = some o → o.left = 1 → o.kind ≠ .flush → o.bound = none → o.suspended = false →
        o.ret = none → (portOf s o.slice o.port).late = none → Completes (.wbEntryCommit id) s fun t => (∀ y ∈ t.ops, y.id ≠ o.id) ∧
          OpAnswers o (o.status.join e.status) ((opHdr s o).len + 1 - (o.bad + (mine.filter fun j => e.lost.contains j).length)) [] s t) ∧
      (∀ i o, e.np = [] → e.flushes = [.op i] → e.cred = none → e.posted = false → opOf s i = some o → o.left = 1 → o.kind = .flush → o.bound = none →
        o.suspended = false → o.ret = none → (portOf s o.slice o.port).late = none → Completes (.wbEntryCommit id) s fun t => (∀ y ∈ t.ops, y.id ≠ o.id) ∧
          OpAnswers o (o.status.join e.status) (if bad then o.entries else o.entries + 1) [] s t)))

/-- PORT_CTL, PORT_CTX, SLEEVE_CFG and BOOT_CTL of a slice that is not OFF (02 R35, R52 to R55; 04 R113, R115, R118 to R120). EN = 1 enables a DISABLED connected port (none of a slice that a spare serves is, 03 R74); while it shuts down the write waits, or with NO_WAIT
completes PENDING_SHUTDOWN; EN = 0 starts the shutdown of an ENABLED one and waits; each other case completes OK and leaves the port. The shutdown drains, clears, and ends DISABLED, and a waiting enable then completes OK_DELAYED.
PORT_CTX is written only while DISABLED, and binds only an existing context of the slice's partition that is not SUSPENDED. SLEEVE_CFG waits for the frame boundary, REJECTED_CONTRACT where the weave needs a sleeve it takes
away. BOOT_CTL takes one write. -/
def Obligations.PortsAndSleevesAreConfigured : Prop :=
  (∀ (n k : Nat) (nw : Bool) (w : RegWriter) (s : State), s.wf = true → n < 64 → k ≤ 10 → MeshOpen w s →
    let a := unitAddr n (0x400 + k * 0x20); let r := portOf s n k
    regAddrOk s a false = true →
    let others (t : State) : Prop := ∀ m j, j < 16 → (m, j) ≠ (n, k) → portOf t m j = portOf s m j
    let idle (st : Status) (t : State) : Prop := Responds a st s t ∧ (∀ m j, portOf t m j = portOf s m j) ∧
      t = { s with regs := t.regs, outbox := t.outbox, ctl := { s.ctl with pwr := t.ctl.pwr } }
    (r.state = .disabled → portWired s n k = true → Completes (.portEnable n k nw w) s fun t =>
      portOf t n k = { r with state := .enabled } ∧ others t ∧ bitOf (regGet t (portCtlReset k) (portReg n k 0)) 0 = true ∧ Responds a .ok s t ∧
        t = { s with regs := t.regs, ports := t.ports, outbox := t.outbox, ctl := { s.ctl with pwr := t.ctl.pwr } }) ∧
    (r.state = .disabled → portWired s n k = false → Completes (.portEnable n k nw w) s fun t =>
      Responds a .writeIgnored s t ∧ Logged .writeIgnored 1 w.slice 10 (.mesh w.slice w.srcdev w.srcstop) 0 a s t ∧ t = { s with log := t.log, outbox := t.outbox }) ∧
    (r.state = .enabled → Completes (.portEnable n k nw w) s (idle .ok)) ∧
    (r.state = .draining ∨ r.state = .clearing →
      (nw = true → Completes (.portEnable n k nw w) s (idle .pendingShutdown)) ∧
      (nw = false → Completes (.portEnable n k nw w) s fun t => portOf t n k = { r with enWait := r.enWait ++ [.direct a] } ∧ others t ∧ t.outbox = s.outbox ∧
        t = { s with regs := t.regs, ports := t.ports, ctl := { s.ctl with pwr := t.ctl.pwr } })) ∧
    (r.state = .enabled → Completes (.portDisable n k nw w) s fun t => portOf t n k = { r with state := .draining, disWait := r.disWait ++ [.direct a] } ∧ others t ∧
      (EntriesNumbered s → ∀ e ∈ t.wb, e.home = n → e.port = k → e.issued = true ∧ e.sb ≠ .none) ∧
      t = { s with nextId := t.nextId, regs := t.regs, ports := t.ports, wb := t.wb, beats := t.beats, ctl := { s.ctl with pwr := t.ctl.pwr } }) ∧
    (r.state ≠ .enabled → Completes (.portDisable n k nw w) s (idle .ok))) ∧
  (∀ (n k : Nat) (s : State), s.wf = true → let r := portOf s n k
    let quiet := portEntries s n k = [] ∧ (∀ o ∈ s.ops, o.slice = n → o.port = k → .op o.id ∈ r.disWait ∨ .op o.id ∈ r.enWait) ∧
      (k = 10 → ∀ b ∈ s.beats, b.slice = n → b.src / 16 ≠ n → b.g = false ∧ b.queued = false)
    (r.state = .draining → quiet → Completes (.portDrainDone n k) s fun t => portOf t n k = { r with state := .clearing, clearB := s.bcnt } ∧ t = { s with ports := t.ports }) ∧
    (¬(r.state = .draining ∧ quiet) → exec (.portDrainDone n k) s = .next s) ∧
    (r.state ≠ .clearing → exec (.portClearDone n k) s = .next s) ∧
    (∀ (a : Nat) (es : List Nat), r.state = .clearing → r.disWait = [.direct a] → r.enWait = es.map Origin.direct → Completes (.portClearDone n k) s fun t =>
      (portOf t n k).state = (if es = [] then .disabled else .enabled) ∧ (portOf t n k).reuse = [] ∧ (portOf t n k).late = none ∧ (portOf t n k).urg = 0 ∧
      t.outbox = (es.map fun b => .regDone b .okDelayed).reverse ++ .regDone a .ok :: s.outbox ∧
      regGet t 0 (portReg n k 0x10) = regGet s 0 (portReg n k 0x10) % 128 ∧ regGet t 0 (portReg n k 8) = regGet s 0 (portReg n k 8) ∧
      regGet t 0x44F00 (portReg n k 4) = regGet s 0x44F00 (portReg n k 4) ∧ t = { s with regs := t.regs, ports := t.ports, outbox := t.outbox })) ∧
  (∀ (n k : Nat) (v : Word) (w : RegWriter) (s : State), s.wf = true → n < 64 → k ≤ 10 → MeshOpen w s →
    let a := unitAddr n (0x400 + k * 0x20 + 8); let c := v.toNat % 2048; let reg := portReg n k 8
    regAddrOk s a false = true → setsReserved n (0x400 + k * 0x20 + 8) v.toNat = false →
    let binds := ∃ x, ctxOf s c = some x ∧ (ctxSpan s x).has n = true ∧ (partOf s x.part).state ≠ .absent ∧ x.state ≠ .suspended ∧ x.destroying = false
    let stores (t : State) : Prop := Responds a .ok s t ∧ regGet t 0 reg = v.toNat ∧ ∀ j, j ≠ reg → mget (fun _ => 0) t.regs j = mget (fun _ => 0) s.regs j
    (k = 10 ∨ (portOf s n k).state ≠ .disabled → Completes (.portCtxWrite n k v w) s fun t => Responds a .writeIgnored s t ∧
      Logged .writeIgnored 1 w.slice 10 (.mesh w.slice w.srcdev w.srcstop) 0 a s t ∧ t = { s with log := t.log, outbox := t.outbox }) ∧
    (k ≠ 10 → (portOf s n k).state = .disabled → (bitOf v.toNat 31 = false ∨ binds) →
      ((∀ y ∈ s.contracts, ¬(y.kind = 1 ∧ y.target = n * 8192 + k)) → Completes (.portCtxWrite n k v w) s fun t => stores t ∧
        t = { s with regs := t.regs, outbox := t.outbox }) ∧
      (∀ y, s.contracts = [y] → y.kind = 1 → y.target = n * 8192 + k → y.unbinding = false → y.origin = .none → Completes (.portCtxWrite n k v w) s fun t => stores t ∧
        t.contracts = [{ y with unbinding := true, todo := (oSpan y.owner).slices, stamp := s.nextId, active := false }] ∧
        t = { s with nextId := s.nextId + 1, regs := t.regs, contracts := t.contracts, outbox := t.outbox })) ∧
    (k ≠ 10 → (portOf s n k).state = .disabled → bitOf v.toNat 31 = true → ¬binds → Completes (.portCtxWrite n k v w) s fun t =>
      Responds a .boundViolation s t ∧ PortErrSet w.slice 10 3 s t ∧ t = { s with regs := t.regs, outbox := t.outbox })) ∧
  (∀ (n : Nat) (v : Word) (w : RegWriter) (s : State), s.wf = true → n < 64 → MeshOpen w s → let a := unitAddr n 0x200
    regAddrOk s a false = true → setsReserved n 0x200 v.toNat = false →
    (sealedSlice s n = true → v.toNat ≠ sleeveCfg s n → Completes (.sleeveCfgWrite n v w) s fun t => Responds a .writeIgnored s t ∧
      Logged .writeIgnored 1 w.slice 10 (.mesh w.slice w.srcdev w.srcstop) 0 a s t ∧ t = { s with log := t.log, outbox := t.outbox }) ∧
    (sealedSlice s n = false ∨ v.toNat = sleeveCfg s n → sleeveBreaks (latestWeave s n) (latestSleeve s n) v.toNat = true → Completes (.sleeveCfgWrite n v w) s fun t =>
      Responds a .rejectedContract s t ∧ t = { s with outbox := t.outbox }) ∧
    (sealedSlice s n = false ∨ v.toNat = sleeveCfg s n → sleeveBreaks (latestWeave s n) (latestSleeve s n) v.toNat = false → Completes (.sleeveCfgWrite n v w) s fun t =>
      sliceOf t n = { sliceOf s n with pendSleeve := (sliceOf s n).pendSleeve ++
        [{ stamp := s.nextId, afterB := s.bcnt, value := v.toNat, origin := .direct a }] } ∧ (∀ m, m ≠ n → sliceOf t m = sliceOf s m) ∧
      t = { s with nextId := s.nextId + 1, slices := t.slices })) ∧
  (∀ (v : Word) (w : RegWriter) (s : State), s.wf = true → MeshOpen w s → let a := unitAddr 0x80 0x18; setsReserved 0x80 0x18 v.toNat = false →
    (mget (fun _ => false) s.w1done (regNo 0x80 0x18) = false → Completes (.bootCtlWrite v w) s fun t => Responds a .ok s t ∧
      regGet t 0 (regNo 0x80 0x18) = v.toNat ∧ mget (fun _ => false) t.w1done (regNo 0x80 0x18) = true ∧
      t = { s with regs := t.regs, w1done := t.w1done, outbox := t.outbox }) ∧
    (mget (fun _ => false) s.w1done (regNo 0x80 0x18) = true → Completes (.bootCtlWrite v w) s fun t => Responds a .writeIgnored s t ∧
      Logged .writeIgnored 1 w.slice 10 (.mesh w.slice w.srcdev w.srcstop) 0 a s t ∧ t = { s with log := t.log, outbox := t.outbox }))

/-- The regions without pockets, through the mesh port (02 R31 to R34; 04 R89; 18 R526). The system region: bits 22:17 give the slice and bits 16:0 the offset; a set bit of 35:23, bytes past
offset 0x1FFFF, or a requester without privilege complete DECODE_ERROR, logged; a READ answers the bytes, the weave area showing the table in force and the places of descriptors the pockets (R37); a WRITE to the weave area, a descriptor, or counter or lock state
(10 R306) is dropped with WRITE_IGNORED, logged, and elsewhere stores its bytes and changes no other. The load area of the boot window, while REMAP is 0, is read and written so by privileged requesters, within 256 KiB. A register is read in 4 or
8 B, a read of MCH_LASTSRC latching MCH_LASTDST (11 R351); a WRITE that sets a reserved bit is RESERVED_FIELD_NONZERO, and one of FAB_CFG is taken. -/
def Obligations.RegionsWithoutPockets : Prop :=
  ∀ (r : PortReq) (s : State) (row : Instr) (kind : Nat), s.wf = true → (row, kind) ∈ [(Instr.read r, 0), (.write r, 1)] → PortReaches kind r s → r.port = 10 → (∀ o ∈ s.ops, o.id < s.nextId) →
    let q := reqOf s r; let a := q.h.addr; let len := q.h.len + 1; let n := r.slice
    q.h.rsvd = false → q.h.g = false → q.h.gta = false → q.h.xform = 0 → (kind = 0 → extCred q.ext = 0) → shapeOk s n 10 false q.h = true →
    let refused (t : State) : Prop := PortAnswers r .decodeError 0 [] [] s t ∧ SetsPortErr n 10 4 s t ∧ Logged .decodeError 1 n 10 q.who (extCtx q.ext) a s t ∧
      BeatsTaken s t ∧
      t = { s with
        nextId := t.nextId, regs := t.regs, log := t.log, slices := t.slices, beats := t.beats, outbox := t.outbox, ctl := { s.ctl with pwr := t.ctl.pwr } }
    let plain (bs : List Byte) : List (Byte × Bool) := bs.map fun b => (b, false)
    (bitsOf a 39 36 = 4 → let k := bitsOf a 22 17; let o := bitsOf a 16 0; let weave := bytesOfWords (sliceOf s k).weave
      (r.priv = false ∨ bitsOf a 35 23 ≠ 0 ∨ 0x20000 < o + len → Completes row s refused) ∧
      (r.priv = true → bitsOf a 35 23 = 0 → o + len ≤ 0x20000 → Serves s [k] →
        (kind = 0 → Completes row s fun t => (∃ bs, PortAnswers r .ok len (plain bs) [] s t ∧ bs.length = len ∧
            (∀ i : Nat, i < len → (o + i < 0x1A000 ∨ 0x1E000 ≤ o + i) → Config.sysSync (o + i) = false →
              bs[i]? = (descByte s k (o + i)).orElse fun _ => (sysRead s k (o + i) 1)[0]?) ∧
            (∀ i : Nat, i < len → 0x1A000 ≤ o + i → o + i < 0x1E000 → bs[i]? = some (weave.getD (o + i - 0x1A000) 0))) ∧
          BeatsTaken s t ∧ t = { s with
            freeCtr := t.freeCtr, nextId := t.nextId, slices := t.slices, beats := t.beats, outbox := t.outbox, ctl := { s.ctl with pwr := t.ctl.pwr } }) ∧
        (kind = 1 → sysShut s k o len = true → Completes row s fun t => PortAnswers r .writeIgnored 0 [] [] s t ∧
          Logged .writeIgnored 1 n 10 q.who (extCtx q.ext) a s t ∧ BeatsTaken s t ∧ t = { s with nextId := t.nextId, log := t.log, slices := t.slices, beats := t.beats, outbox := t.outbox, ctl := { s.ctl with pwr := t.ctl.pwr } }) ∧
        (kind = 1 → sysShut s k o len = false → Completes row s fun t => PortAnswers r .ok len [] [] s t ∧ sysRead t k o len = r.data ∧
          (∀ y, y < k * 0x20000 + o ∨ k * 0x20000 + o + len ≤ y → mget (fun _ => 0) t.mem.sys y = mget (fun _ => 0) s.mem.sys y) ∧
          BeatsTaken s t ∧ t = { s with mem := { s.mem with sys := t.mem.sys }, nextId := t.nextId, slices := t.slices, beats := t.beats, outbox := t.outbox, ctl := { s.ctl with pwr := t.ctl.pwr } }))) ∧
    (bitsOf a 39 36 = 0 → bitOf (regGet s 0 (regNo 0x80 0x18)) 0 = false → let o := bitsOf a 19 0
      (r.priv = false ∨ bitsOf a 35 20 ≠ 0 ∨ 0x40000 < o + len → Completes row s refused) ∧
      (r.priv = true → bitsOf a 35 20 = 0 → o + len ≤ 0x40000 →
        (kind = 0 → Completes row s fun t => PortAnswers r .ok len (plain (mgetList (fun _ => 0) s.mem.boot o len)) [] s t ∧
          BeatsTaken s t ∧ t = { s with nextId := t.nextId, slices := t.slices, beats := t.beats, outbox := t.outbox, ctl := { s.ctl with pwr := t.ctl.pwr } }) ∧
        (kind = 1 → Completes row s fun t => PortAnswers r .ok len [] [] s t ∧ mgetList (fun _ => 0) t.mem.boot o len = r.data ∧
          (∀ y, y < o ∨ o + len ≤ y → mget (fun _ => 0) t.mem.boot y = mget (fun _ => 0) s.mem.boot y) ∧
          BeatsTaken s t ∧ t = { s with mem := { s.mem with boot := t.mem.boot }, nextId := t.nextId, slices := t.slices, beats := t.beats, outbox := t.outbox, ctl := { s.ctl with pwr := t.ctl.pwr } }))) ∧
    (bitsOf a 39 36 = 8 → let size8 := decide (len = 8)
      (r.priv = false ∨ (len ≠ 4 ∧ len ≠ 8) ∨ regAddrOk s a size8 = false → Completes row s refused) ∧
      (kind = 0 → r.priv = true → len = 4 ∨ len = 8 → regAddrOk s a size8 = true → r.secure = true ∨ regUnit a ≠ 0x80 →
        Completes row s fun t => PortAnswers r .ok len (plain (leBytes len (regRead8 s a size8))) [] s t ∧
          (let k := unitSlice s (regUnit a); let mv := (regOff a - 0xC00) / 0x200; let c := regOff a / 0x40 % 8
            let latches := isSliceUnit (regUnit a) = true ∧ 0xC00 ≤ regOff a ∧ regOff a < 0x1000 ∧ regOff a % 0x40 / 8 = 3
            (latches → ChanBecomes k mv c { chanOf s k mv c with latched := some (chanOf s k mv c).lastDst } s t) ∧ (¬latches → t.movers = s.movers)) ∧
          BeatsTaken s t ∧ t = { s with nextId := t.nextId, movers := { s.movers with chans := t.movers.chans }, slices := t.slices, beats := t.beats, outbox := t.outbox }) ∧
      (kind = 1 → r.priv = true → len = 4 → regAddrOk s a false = true → regUnit a < 0x80 → setsReserved (regUnit a) (regOff a) (leNat r.data) = true →
        Completes row s fun t => PortAnswers r .reservedNonzero 0 [] [] s t ∧ SetsPortErr n 10 5 s t ∧
          Logged .reservedNonzero 1 n 10 q.who (extCtx q.ext) a s t ∧ BeatsTaken s t ∧ t = { s with nextId := t.nextId, regs := t.regs, log := t.log, slices := t.slices, beats := t.beats, outbox := t.outbox }) ∧
      (kind = 1 → r.priv = true → len = 4 → a = unitAddr 0x80 0x108 → 10 ≤ leNat r.data → leNat r.data < 0x10000 →
        Completes row s fun t => PortAnswers r .ok 4 [] [] s t ∧
        regGet t 0x64 (regNo 0x80 0x108) = leNat r.data ∧ (∀ x d, x ≠ regNo 0x80 0x108 → regGet t d x = regGet s d x) ∧
        BeatsTaken s t ∧ t = { s with nextId := t.nextId, regs := t.regs, slices := t.slices, beats := t.beats, outbox := t.outbox }))

/-- G-class requests for pockets (04 R89 step 8; 08 R264 to R268, R275, R280). READ, WRITE, ACC_WRITE, TSPILL and TFILL of a port without a contract, or of one whose tokens or backlog do not admit their bytes,
complete REJECTED_CONTRACT, counted, PORT_ERR.RCON set. One that the contract admits, its owner served in every group set it touches, takes tokens and adds to the backlog: a read's beats, and a write's entries,
are the owner's, and a posted write is answered at once; under a suspended contract it runs in class B. A FLUSH waits while one in G class is under way at its slice or at one that holds an entry of it, and one
of more than 32 entries on a slice is refused. -/
def Obligations.GuaranteedRequests : Prop :=
  ∀ (r : PortReq) (s : State) (x : Ctx) (st : Store) (p : Pocket) (row : Instr) (kind : Nat), s.wf = true →
    (row, kind) ∈ [(Instr.read r, 0), (.write r, 1), (.accWrite r, 2), (.flush r, 3), (.tspill r, 4), (.tfill r, 5)] →
    let q := reqOf s r; let n := r.slice; let pt := r.port; let target := n * 8192 + pt; let len := q.h.len + 1
    q.h.g = true → ReqPasses kind q s x st p →
    let keys := q.keys s x st p; let ns := (keys.map fun k => (placeOf k).slice).eraseDups
    (kind ≠ 3 → KeysReached q keys s) → (pt = 10 → kind = 1 ∨ kind = 2 → ∃ g, creditOk s q st (pocketNoOf q.local) keys.length = some g ∧ g.reserved = true ∧ rsvLanded s n + (keys.length + 255) / 256 ≤ 64) →
    let rejected (t : State) : Prop := PortAnswers r .rejectedContract 0 [] [] s t ∧ SetsPortErr n pt 1 s t ∧ mget (fun _ => 0) t.integ 260 = satAdd 32 (mget (fun _ => 0) s.integ 260) 1 ∧
      BeatsTaken s t ∧ t = { s with
        nextId := t.nextId, regs := t.regs, integ := t.integ, slices := t.slices, beats := t.beats, outbox := t.outbox, ctl := { s.ctl with pwr := t.ctl.pwr } }
    let waiting (o : Nat) : Nat := backlogNow (railBlocks s) s o
    (kind ≠ 3 → contractOf s 1 target = none → Completes row s rejected) ∧
    (∀ c, kind ≠ 3 → contractOf s 1 target = some c → c.suspended = false → (c.tokens < len ∨ c.qmax < waiting c.owner + len) → Completes row s rejected) ∧
    (∀ c, contractOf s 1 target = some c → (pt = 10 → c.srcstop = extStop q.ext ∧ c.ctx = extCtx q.ext) → q.h.xform = 0 → (st = .w → kind = 1 → wholeWords keys = true) →
      ownerServes s c.owner [{ store := st, set := p.set, acc := decide (kind = 2) }] ns = true →
      let took (t : State) : Prop := ∃ d, contractOf t 1 target = some d ∧ d = { c with tokens := c.tokens - len, backlog := d.backlog } ∧ d.backlog ≤ c.backlog + len
      (c.suspended = false → len ≤ c.tokens → waiting c.owner + len ≤ c.qmax →
        (kind = 0 → s.wb = [] → (portOf s n pt).reuse = [] → Completes row s fun t => took t ∧
          (∃ o, t.ops = s.ops ++ [o] ∧ o.id = s.nextId ∧ o.g = true ∧ o.owner = some c.owner ∧ o.keys = keys ∧ o.bound ≠ none ∧ o.acceptB = s.bcnt) ∧
          (∀ b ∈ t.beats.drop s.beats.length, b.op = s.nextId ∧ b.g = true ∧ b.owner = some c.owner) ∧ t.outbox = s.outbox) ∧
        (kind = 1 ∨ kind = 2 ∨ kind = 4 → q.h.np = false → s.wb = [] → Completes row s fun t => took t ∧ PortAnswers r .ok len [] [] s t ∧
          (keys ≠ [] → t.wb ≠ []) ∧ ∀ e ∈ t.wb, e.g = true ∧ e.owner = some c.owner ∧ e.home = n ∧ e.port = pt)) ∧
      (c.suspended = true → kind = 0 → s.wb = [] → (portOf s n pt).reuse = [] → Completes row s fun t => t.contracts = s.contracts ∧
        (∃ o, t.ops = s.ops ++ [o] ∧ o.id = s.nextId ∧ o.g = false ∧ o.suspended = true ∧ o.keys = keys) ∧ t.outbox = s.outbox)) ∧
    let es := flushEntries s n pt (q.ctx s) (q.h.addr % 2 ^ 40) ((q.h.len + 1) * 256); let fs := n :: es.map fun e => (placeOf (entryKey s e 0)).slice
    let still := ∀ k ∈ fs, flushHeld s k = false
    (kind = 3 → ¬still → Completes row s fun t => BeatsTaken s t ∧ t = { s with slices := t.slices, beats := t.beats, ctl := { s.ctl with pwr := t.ctl.pwr } }) ∧
    (kind = 3 → still → 32 < mostOnSlice s es → Completes row s rejected) ∧
    (kind = 3 → still → contractOf s 1 target = none → Completes row s rejected)

/-! ## Movers (11) -/

/-- The instructions of a running channel that order and count (R343 to R346, R352): LOOP steps its counter, adds its increments to two offset registers and goes BACK, or at the end takes the
sums away again and goes on; WAIT goes on where the counter satisfies it, taking the target from it with CONSUME, or waits; SIGNAL, once every earlier piece has retired, adds to the counter; END
leaves the channel IDLE with OK. A failing one owes a halt; MOVER_HALT halts the channel with its first failure, which is logged, or with the failure of its fetch or its encoding. -/
def Obligations.MoverProgramsRun : Prop :=
  (∀ (n m c : Nat) (s : State) (ws : List Word), s.wf = true → ChanIssues s n m c 2 ws [] → let ch := chanOf s n m c
    let k := fld (wordAt ws 0) 27 26; let a := fld (wordAt ws 0) 25 24; let b := fld (wordAt ws 0) 23 22; let count := (wordAt ws 1).toNat
    let v := (if ch.lc.getD k 0 = 0 then count else ch.lc.getD k 0) - 1
    let times : Int := if v ≠ 0 then 1 else -((count - 1 : Nat) : Int)
    let add (j : Nat) : Int := (if j = a then times * (wordAt ws 2).toInt else 0) + (if j = b then times * (wordAt ws 3).toInt else 0)
    Completes (.loop n m c) s fun t => (∃ ofs, ChanBecomes n m c { ch with
        lc := ch.lc.set k v, ofs := ofs, ipc := (if v ≠ 0 then (ch.ipc + 2 ^ 64 - 32 * fld (wordAt ws 0) 7 0) % 2 ^ 64 else ch.ipc + 32) } s t ∧
      ∀ (j x : Nat), ch.ofs[j]? = some x → ofs[j]? = some (if j = a ∨ j = b then (((x : Int) + add j) % 2 ^ 64).toNat else x)) ∧
      t = { s with movers := { s.movers with chans := t.movers.chans }, ctl := { s.ctl with pwr := t.ctl.pwr } }) ∧
  (∀ (n m c : Nat) (s : State) (ws : List Word), s.wf = true → let ch := chanOf s n m c
    let vid := fld (wordAt ws 1) 15 0; let cond := fld (wordAt ws 0) 27 26; let consume := flag (wordAt ws 0) 25; let target := (wordAt ws 2).toNat
    (ChanIssues s n m c 3 ws [] → counterOf s (chanCtx s n m c) vid = none → Completes (.moverWait n m c) s (OwesHalt n m c .boundViolation ch.ipc s)) ∧
    (∀ ph, ChanIssues s n m c 3 ws [counterHome ph] → counterOf s (chanCtx s n m c) vid = some ph → let k := getCounter s ph
      let bad := k.realign ≠ decide (cond = 2) ∨ (consume = true ∧ cond ≠ 0)
      (bad → Completes (.moverWait n m c) s (OwesHalt n m c .decodeError ch.ipc s)) ∧
      (¬bad → k.fault = true → Completes (.moverWait n m c) s (OwesHalt n m c .counterFault ch.ipc s)) ∧
      (¬bad → k.fault = false → condHolds cond target k = true → Completes (.moverWait n m c) s fun t => ChanBecomes n m c { ch with ipc := ch.ipc + 32 } s t ∧
        getCounter t ph = (if consume = true then { k with v := k.v - target } else k) ∧ (∀ p, p ≠ ph → getCounter t p = getCounter s p) ∧
        t = { s with sync := { s.sync with counters := t.sync.counters }, movers := { s.movers with chans := t.movers.chans }, ctl := { s.ctl with pwr := t.ctl.pwr } }) ∧
      (¬bad → k.fault = false → condHolds cond target k = false → waiterRoom s (counterHome ph) (chanCtx s n m c) 0 = true → Completes (.moverWait n m c) s fun t =>
        ChanBecomes n m c { ch with state := .waiting } s t ∧
        (∃ w, t.sync.waiters = s.sync.waiters ++ [w] ∧ w.id = s.nextId ∧ w.lock = false ∧ w.phys = ph ∧ w.by_ = .chan n m c ∧ w.cond = cond ∧ w.consume = consume ∧
          w.target = target ∧ w.tmo = fld (wordAt ws 1) 31 16 ∧ w.since = s.rc) ∧
        t = { s with
          nextId := s.nextId + 1, sync := { s.sync with waiters := t.sync.waiters }, movers := { s.movers with chans := t.movers.chans }
          ctl := { s.ctl with pwr := t.ctl.pwr } }) ∧
      (¬bad → k.fault = false → condHolds cond target k = false → waiterRoom s (counterHome ph) (chanCtx s n m c) 0 = false → Completes (.moverWait n m c) s fun t =>
        t = { s with ctl := { s.ctl with pwr := t.ctl.pwr } }))) ∧
  (∀ (n m c : Nat) (s : State) (ws : List Word), s.wf = true → let ch := chanOf s n m c; let vid := fld (wordAt ws 1) 15 0
    (ch.ahead ≠ [] → exec (.moverSignal n m c) s = .next s ∧ exec (.moverEnd n m c) s = .next s) ∧
    (ChanIssues s n m c 4 ws [] → ch.ahead = [] → StageClear s n m c → counterOf s (chanCtx s n m c) vid = none →
      Completes (.moverSignal n m c) s (OwesHalt n m c .boundViolation ch.ipc s)) ∧
    (∀ ph, ChanIssues s n m c 4 ws [counterHome ph] → ch.ahead = [] → StageClear s n m c → counterOf s (chanCtx s n m c) vid = some ph →
      let k := getCounter s ph; let r := changeCounter .add (wordAt ws 2).toNat k
      (r.1 = .ok → (∀ w ∈ s.sync.waiters, ¬(w.lock = false ∧ w.phys = ph)) → Completes (.moverSignal n m c) s fun t => ChanBecomes n m c { ch with ipc := ch.ipc + 32 } s t ∧
        getCounter t ph = { r.2.2 with lastsig := lastsigMover n m } ∧ (∀ p, p ≠ ph → getCounter t p = getCounter s p) ∧
        t = { s with sync := { s.sync with counters := t.sync.counters }, movers := { s.movers with chans := t.movers.chans }, ctl := { s.ctl with pwr := t.ctl.pwr } }) ∧
      (r.1 ≠ .ok → (r.1 = .counterFault → k.fault = true) → Completes (.moverSignal n m c) s (OwesHalt n m c r.1 ch.ipc s))) ∧
    (ChanIssues s n m c 15 ws [] → ch.ahead = [] → Completes (.moverEnd n m c) s fun t => StageClear t n m c ∧ CtxsKept s t ∧ t = { s with
        mem := { s.mem with data := t.mem.data, chk := t.mem.chk, tag := t.mem.tag, owed := t.mem.owed }, log := t.log, integ := t.integ
        ctxs := t.ctxs, slices := t.slices, contracts := t.contracts, sync := { s.sync with waiters := t.sync.waiters }, movers := t.movers
        works := t.works, ctl := { s.ctl with pwr := t.ctl.pwr } }) ∧
    (ChanIssues s n m c 15 ws [] → ch.ahead = [] → StageClear s n m c → Completes (.moverEnd n m c) s fun t =>
      ChanBecomes n m c { ch with state := .idle, status := .ok, checked := false } s t ∧
      t = { s with movers := { s.movers with chans := t.movers.chans }, ctl := { s.ctl with pwr := t.ctl.pwr } })) ∧
  (∀ (n m c : Nat) (s : State) (st : Status) (addr : Nat), s.wf = true → let ch := chanOf s n m c
    (ch.owedHalt = some (st, addr) ∨ (ch.owedHalt = none ∧ issueBad s n m c = some st ∧ addr = ch.pc)) →
    (¬(ch.state = .running ∧ ch.spills = false ∧ ch.ahead = []) → exec (.moverHalt n m c) s = .next s) ∧
    (ch.state = .running → ch.spills = false → ch.ahead = [] → cmdsRun s = true → Serves s (n :: cmdAddrSlices s (chanCtx s n m c) ch.ipc 32) → StageClear s n m c →
      bitOf (regGet s 0 (chanReg n m c 0x30)) 31 = false → Completes (.moverHalt n m c) s fun t =>
        ChanBecomes n m c { ch with state := .halted, status := st, owedHalt := none, checked := false, owed := 0 } s t ∧ (ch.owed = 0 → t.contracts = s.contracts) ∧
        Logged st 6 n (8 * m + c) .nobody (chanCtx s n m c) addr s t ∧ (∀ w ∈ t.sync.waiters, w.by_ ≠ .chan n m c) ∧
        t = { s with
          log := t.log, contracts := t.contracts, sync := { s.sync with waiters := t.sync.waiters }, movers := { s.movers with chans := t.movers.chans }
          ctl := { s.ctl with pwr := t.ctl.pwr } }))

/-- MOVE, its pieces, and SPILL and FILL (R340 to R342, R347 to R356). A COPY that fails its checks owes a halt; one of B class that has passed them reads its next piece, up to the next 256 B boundary of
the destination, where the read-ahead has room and the bytes meet no held range-scoreboard entry (04 R104), and steps past it; running channels of a mover
take turns (R334). A piece retires in order, once its bytes have moved: a poisoned one owes UNCORRECTABLE and discards the later ones, and a WAIT that the channel
had gone on to is given up; a whole 64 B range is written, a part of one waits in
staging, a piece for external memory is written there; a staging entry that has stood its time is written. SPILL of a RESIDENT pocket first drains what uses it and waits; once nothing does it writes its image, leaves it SPILLED and starts the clear of its
lines; FILL of a SPILLED pocket whose lines are free reads the image back and leaves it RESIDENT; either is held while a change of the pocket's descriptor is pending (02 R48). -/
def Obligations.MoversMoveData : Prop :=
  (∀ (n m c : Nat) (s : State) (ws : List Word) (x : Ctx), s.wf = true → let ch := chanOf s n m c
    ChanIssues s n m c 1 ws (pieceSlices s x n m c ws) → chanContext s n m c = some x → mvKind ws = 0 →
    let u := chanWoken s (pieceSlices s x n m c ws) n m c; let len := mvLen ws
    let turns (t : State) : Prop := t.movers.turns = mput (fun _ => 7) s.movers.turns (n * 2 + m) c
    let took (y : Chan) (t : State) : Prop := ChanBecomes n m c y s t ∧ turns t ∧
      t = { s with movers := { s.movers with chans := t.movers.chans, turns := t.movers.turns }, ctl := { s.ctl with pwr := t.ctl.pwr } }
    let ready := ch.checked = true ∨ (movePending s n m c ws = false ∧ moveBad s x n m ch ws = none)
    (chanTurn s n m c = false → exec (.move n m c) s = .next s) ∧
    (chanTurn s n m c = true →
    (ch.checked = false → movePending s n m c ws = true → Completes (.move n m c) s (took ch)) ∧
    (∀ st, ch.checked = false → movePending s n m c ws = false → moveBad s x n m ch ws = some st →
      (¬(mvG ws = true ∧ st = .rejectedContract) → Completes (.move n m c) s (took { ch with owedHalt := some (st, ch.ipc) })) ∧
      (mvG ws = true → st = .rejectedContract → Completes (.move n m c) s fun t =>
        ChanBecomes n m c { ch with owedHalt := some (st, ch.ipc) } s t ∧ mget (fun _ => 0) t.integ 260 = satAdd 32 (mget (fun _ => 0) s.integ 260) 1 ∧ CtxsKept s t ∧
        t = { s with
          integ := t.integ, ctxs := t.ctxs, movers := { s.movers with chans := t.movers.chans, turns := t.movers.turns }, ctl := { s.ctl with pwr := t.ctl.pwr } })) ∧
    (ch.checked = false → ready → len = 0 → Completes (.move n m c) s (took { ch with ipc := ch.ipc + 32, row := 0, byte := 0 })) ∧
    (∀ so dn a b, ready → (ch.checked = true ∨ len ≠ 0) → mvG ws = false → srcOff ws ch ch.row = some so → dstOff ws ch ch.row = some dn →
      let k := Nat.min (len - ch.byte) (256 - (dn + ch.byte) % 256)
      let src := withOff (dwordAt ws 2) (so + ch.byte); let dst := withOff (dwordAt ws 4) (dn + ch.byte)
      opnd src k true false = some a → opnd dst k false true = some b →
      let waits := unitWaits s (chanCtx s n m c) [a]
      (aheadRoom s n m ch k = false ∨ waits = true → Completes (.move n m c) s (took { ch with checked := true })) ∧
      (aheadRoom s n m ch k = true → waits = false → (∀ j ∈ a.slices s x, slcFailed s j = false) →
        let r := readRng { ctx := chanCtx s n m c, who := .nobody } x a u
        (Status.okRetried.rank ≤ r.1.rank ∨ r.1 = .uncorrectable) → Completes (.move n m c) s fun t =>
          (∃ p y, ChanBecomes n m c { y with ahead := ch.ahead ++ [p], owed := ch.owed - k, rowReq := (if ch.byte = 0 then s.nextId else ch.rowReq) } s t ∧
            p.id = s.nextId ∧ p.src = src ∧ p.dst = dst ∧ p.data = r.2.1 ∧ p.pc = ch.ipc ∧ p.row = ch.row ∧ p.byte = ch.byte ∧
            p.lc = ch.lc ∧ p.ofs = ch.ofs ∧ p.g = false ∧
            y = (if ch.byte + k < len then { ch with checked := true, byte := ch.byte + k }
              else if ch.row + 1 < mvRows ws then { ch with checked := true, row := ch.row + 1, byte := 0 }
              else { ch with checked := false, ipc := ch.ipc + 32, row := 0, byte := 0 })) ∧ turns t ∧
          t.works.take s.works.length = s.works ∧ (∀ w ∈ t.works.drop s.works.length, w.of = s.nextId ∧ w.g = false) ∧ CtxsKept s t ∧ t = { s with
              mem := { s.mem with owed := t.mem.owed }, freeCtr := t.freeCtr, nextId := t.nextId, log := t.log, integ := t.integ, ctxs := t.ctxs
              slices := t.slices, contracts := t.contracts, movers := t.movers, works := t.works, ctl := { s.ctl with pwr := t.ctl.pwr } })))) ∧
  (∀ (n m c : Nat) (s : State) (x : Ctx) (p : Piece) (rest : List Piece), s.wf = true → let ch := chanOf s n m c
    ch.ahead = p :: rest → chanContext s n m c = some x → (ch.state = .running ∨ ch.state = .waiting) → cmdsRun s = true → p.g = false →
    (worksLeft s p.id = true → exec (.pieceRetire n m c) s = .next s) ∧ (worksLeft s p.id = false →
    let ns := match opnd p.dst p.data.length false true with
      | some r => r.slices s x
      | none => []
    Serves s (n :: ns) →
    let moved : Chan := { ch with ahead := rest, railed := (p.rail || ch.railed) && !p.rowEnd, lastSrc := p.src + p.data.length - 1, lastDst := p.dst + p.data.length - 1 }
    let base := p.dst / 64 * 64; let one := p.dst / 64 = (p.dst + p.data.length - 1) / 64
    (p.data.any (·.2) = true → Completes (.pieceRetire n m c) s (fun t =>
      ChanBecomes n m c { ch with
        ahead := [], ipc := p.pc, row := p.row, byte := p.byte, lc := p.lc, ofs := p.ofs, checked := false, owed := 0
        state := .running, owedHalt := some (.uncorrectable, p.src) } s t ∧
      t.works = s.works.filter (fun w => !(ch.ahead.map Piece.id).contains w.of) ∧
      t.sync.waiters = s.sync.waiters.filter (fun w => w.by_ != .chan n m c) ∧
      t = { s with contracts := t.contracts, sync := { s.sync with waiters := t.sync.waiters }, movers := { s.movers with chans := t.movers.chans }, works := t.works, ctl := { s.ctl with pwr := t.ctl.pwr } })) ∧
    (∀ st, p.data.any (·.2) = false → bitOf p.dst 63 = false → storeOf (regionOf p.dst) = some st → p.dst % 64 = 0 → p.data.length = 64 → StageClear s n m c →
      Completes (.pieceRetire n m c) s fun t =>
        let ks := (List.range 64).map fun i => (locate (ctxSpan s x) st (x.pocket st (pocketNoOf p.dst)) (offsetOf base + i)).key
        let w := writeBytes { ctx := chanCtx s n m c, who := .nobody } (ks.zip (p.data.map fun b => (b.1, false))) (chanWoken s (n :: ns) n m c)
        t.mem = w.1.mem ∧ (w.2.status ≠ .uncorrectable → ChanBecomes n m c moved s t) ∧ StoresKept ks s t ∧ CtxsKept s t ∧ t = { s with
            mem := { s.mem with data := t.mem.data, chk := t.mem.chk, tag := t.mem.tag, owed := t.mem.owed, ext := t.mem.ext, extPoison := t.mem.extPoison }
            nextId := t.nextId, regs := t.regs, log := t.log, integ := t.integ, ctxs := t.ctxs, slices := t.slices, contracts := t.contracts
            sync := { s.sync with waiters := t.sync.waiters }, movers := t.movers, works := t.works, ctl := { s.ctl with pwr := t.ctl.pwr } }) ∧
    (p.data.any (·.2) = false → bitOf p.dst 63 = false → one → p.data.length < 64 → p.data ≠ [] → StageClear s n m c → (stageOf s n m).length < 27 →
      (∀ e ∈ stageOf s n m, e.be.length ≠ 64) → Completes (.pieceRetire n m c) s fun t => ChanBecomes n m c moved s t ∧
        (∃ e, stageOf t n m = stageOf s n m ++ [e] ∧ e.id = s.nextId ∧ e.ch = c ∧ e.ctx = chanCtx s n m c ∧ e.base = base ∧ e.takenC = s.bcnt ∧
          ∀ i (b : Byte × Bool), p.data[i]? = some b → e.be.lookup (p.dst % 64 + i) = some b.1) ∧
        t = { s with nextId := s.nextId + 1, movers := t.movers, ctl := { s.ctl with pwr := t.ctl.pwr } }) ∧
    (p.data.any (·.2) = false → bitOf p.dst 63 = true → Completes (.pieceRetire n m c) s fun t =>
      let w := extStore (ctxKey s x) (x.extBase + bitsOf p.dst 51 0) p.data s
      t.mem.ext = w.1.mem.ext ∧ t.mem.extPoison = w.1.mem.extPoison ∧ (w.2.1 = .ok → ChanBecomes n m c moved s t) ∧ StoresKept [] s t ∧ CtxsKept s t ∧ t = { s with
          mem := { s.mem with data := t.mem.data, chk := t.mem.chk, tag := t.mem.tag, owed := t.mem.owed, ext := t.mem.ext, extPoison := t.mem.extPoison }
          nextId := t.nextId, regs := t.regs, log := t.log, integ := t.integ, ctxs := t.ctxs, slices := t.slices, contracts := t.contracts
          sync := { s.sync with waiters := t.sync.waiters }, movers := t.movers, works := t.works, ctl := { s.ctl with pwr := t.ctl.pwr } }))) ∧
  (∀ (n m id : Nat) (s : State), s.wf = true →
    ((∀ e ∈ stageOf s n m, e.id ≠ id) → exec (.stagingAgeExpiry n m id) s = .next s) ∧
    (∀ e x st, m < 2 → (stageOf s n m).find? (fun e => e.id == id) = some e → ctxOf s e.ctx = some x → storeOf (regionOf e.base) = some st →
      Completes (.stagingAgeExpiry n m id) s fun t => t.bcnt = Nat.max s.bcnt (e.takenC + 64) ∧ stageOf t n m = (stageOf s n m).filter (fun y => y.id != id) ∧
        let ks := e.be.map fun y => (locate (ctxSpan s x) st (x.pocket st (pocketNoOf e.base)) (offsetOf e.base + y.1)).key
        t.mem = (writeBytes { ctx := e.ctx, who := .nobody } (ks.zip (e.be.map fun y => (y.2, false))) s).1.mem ∧ StoresKept ks s t ∧ CtxsKept s t ∧ t = { s with
            mem := { s.mem with data := t.mem.data, chk := t.mem.chk, tag := t.mem.tag, owed := t.mem.owed }, bcnt := t.bcnt, log := t.log
            integ := t.integ, ctxs := t.ctxs, slices := t.slices, contracts := t.contracts, sync := { s.sync with waiters := t.sync.waiters }
            movers := t.movers, works := t.works })) ∧
  (let spilled (s : State) (n m c : Nat) (x : Ctx) (st : Store) (pk img : Nat) (t : State) : Prop :=
    let cx := chanCtx s n m c; let p := x.pocket st pk
    (∃ y, ctxOf t cx = some y ∧ y.pocket st pk = { p with state := .spilled } ∧ y.part = x.part ∧ y.tenant = x.tenant ∧ y.state = x.state) ∧
    (∃ j, t.clears = s.clears ++ [j] ∧ j.id = s.nextId ∧ j.part = x.part ∧ j.todo = (pocketLines (ctxSpan s x) st p).filter fun l => !slcFailed s (l.1 / 1024)) ∧
    (chanOf t n m c).clear = s.nextId ∧ (chanOf t n m c).spilling = none ∧
    t.mem.ext = (extStore (ctxKey s x) img ((pocketKeys (ctxSpan s x) st p 0 p.bound).map (byteAt s)) s).1.mem.ext ∧ StoresKept [] s t
  (∀ (n m c : Nat) (s : State) (x : Ctx) (st : Store) (pk img : Nat), s.wf = true → keysRise 0 x.pockets = true → (chanOf s n m c).spilling = some (chanCtx s n m c, st, pk, img) →
    chanContext s n m c = some x → cmdsRun s = true → Serves s (n :: cmdAddrSlices s (chanCtx s n m c) (chanOf s n m c).ipc 32 ++ (ctxSpan s x).slices) →
    pocketInUse s (chanCtx s n m c) st pk 0 = false → Completes (.spill n m c) s fun t => spilled s n m c x st pk img t ∧ t = { s with
        mem := { s.mem with data := t.mem.data, chk := t.mem.chk, tag := t.mem.tag, owed := t.mem.owed, ext := t.mem.ext, extPoison := t.mem.extPoison }
        freeCtr := t.freeCtr, nextId := t.nextId, log := t.log, integ := t.integ, ctxs := t.ctxs, slices := t.slices, ports := t.ports, wb := t.wb
        beats := t.beats, clears := t.clears, contracts := t.contracts, sync := { s.sync with waiters := t.sync.waiters }, movers := t.movers
        works := t.works, ctl := { s.ctl with pwr := t.ctl.pwr } }) ∧
  (∀ (n m c : Nat) (s : State) (ws : List Word) (x : Ctx), s.wf = true → keysRise 0 x.pockets = true → let ch := chanOf s n m c; let cx := chanCtx s n m c
    ChanIssues s n m c 1 ws (ctxSpan s x).slices → chanContext s n m c = some x → ch.ahead = [] → ch.spilling = none →
    (∀ st, mvKind ws = 1 → imageBad s x n m c ws (dwordAt ws 4) (dwordAt ws 2) = some st → Completes (.spill n m c) s (OwesHalt n m c st ch.ipc s)) ∧
    (∀ st pk, mvKind ws = 1 → imageBad s x n m c ws (dwordAt ws 4) (dwordAt ws 2) = none → wholePocket (dwordAt ws 2) = some (st, pk) → let p := x.pocket st pk
      (pocketPending s cx st pk = true → Completes (.spill n m c) s fun t => t = { s with ctl := { s.ctl with pwr := t.ctl.pwr } }) ∧
      (pocketPending s cx st pk = false →
      (ctxContract s cx = true → Completes (.spill n m c) s (OwesHalt n m c .rejectedContract ch.ipc s)) ∧
      (ctxContract s cx = false → (p.valid = false ∨ p.state ≠ .resident) → Completes (.spill n m c) s (OwesHalt n m c .boundViolation ch.ipc s)) ∧
      (ctxContract s cx = false → p.valid = true → p.state = .resident → pocketInUse s cx st pk 0 = false → Completes (.spill n m c) s fun t =>
        spilled s n m c x st pk (dwordAt ws 4) t ∧ t = { s with
            mem := { s.mem with data := t.mem.data, chk := t.mem.chk, tag := t.mem.tag, owed := t.mem.owed, ext := t.mem.ext, extPoison := t.mem.extPoison }
            freeCtr := t.freeCtr, nextId := t.nextId, log := t.log, integ := t.integ, ctxs := t.ctxs, slices := t.slices, ports := t.ports
            wb := t.wb, beats := t.beats, clears := t.clears, contracts := t.contracts, sync := { s.sync with waiters := t.sync.waiters }
            movers := t.movers, works := t.works, ctl := { s.ctl with pwr := t.ctl.pwr } }) ∧
      (ctxContract s cx = false → p.valid = true → p.state = .resident → pocketInUse s cx st pk 0 = true → Completes (.spill n m c) s fun t =>
        (chanOf t n m c).spilling = some (cx, st, pk, dwordAt ws 4) ∧ t.clears = s.clears ∧ CtxsKept s t ∧
        ((s.wb.map WbEntry.id).Nodup → ∀ e ∈ t.wb, e.ctx = cx → e.base / 2 ^ 32 = pocketAddr st pk 0 / 2 ^ 32 → e.base < 2 ^ 40 → e.issued = true) ∧ t = { s with
            mem := { s.mem with data := t.mem.data, chk := t.mem.chk, tag := t.mem.tag, owed := t.mem.owed, ext := t.mem.ext, extPoison := t.mem.extPoison }
            freeCtr := t.freeCtr, nextId := t.nextId, log := t.log, integ := t.integ, ctxs := t.ctxs, slices := t.slices, ports := t.ports
            wb := t.wb, beats := t.beats, clears := t.clears, contracts := t.contracts, sync := { s.sync with waiters := t.sync.waiters }
            movers := t.movers, works := t.works, ctl := { s.ctl with pwr := t.ctl.pwr } }))) ∧
    (∀ st, mvKind ws = 2 → imageBad s x n m c ws (dwordAt ws 2) (dwordAt ws 4) = some st → Completes (.moverFill n m c) s (OwesHalt n m c st ch.ipc s)) ∧
    (∀ st pk, mvKind ws = 2 → imageBad s x n m c ws (dwordAt ws 2) (dwordAt ws 4) = none → wholePocket (dwordAt ws 4) = some (st, pk) → let p := x.pocket st pk
      (pocketPending s cx st pk = true → Completes (.moverFill n m c) s fun t => t = { s with ctl := { s.ctl with pwr := t.ctl.pwr } }) ∧
      (pocketPending s cx st pk = false →
      let bad := p.valid = false ∨ p.state ≠ .spilled ∨ overlapsResident s x.part cx st pk p = true
      (bad → Completes (.moverFill n m c) s (OwesHalt n m c .boundViolation ch.ipc s)) ∧
      (¬bad → awaitsClear s (ctxSpan s x) st p = true → Completes (.moverFill n m c) s fun t => t = { s with ctl := { s.ctl with pwr := t.ctl.pwr } }) ∧
      (¬bad → awaitsClear s (ctxSpan s x) st p = false → Completes (.moverFill n m c) s fun t =>
        (∃ y, ctxOf t cx = some y ∧ y.pocket st pk = { p with state := .resident } ∧ y.part = x.part ∧ y.tenant = x.tenant ∧ y.state = x.state) ∧
        (chanOf t n m c).ipc = ch.ipc + 32 ∧ (chanOf t n m c).state = ch.state ∧
        (let bs := (extPlain s (ctxKey s x) (dwordAt ws 2) p.bound).2; let ks := pocketKeys (ctxSpan s x) st p 0 p.bound
          t.mem.data = (writeBytes { ctx := cx, who := .nobody } (ks.zip bs) s).1.mem.data ∧ StoresKept ks s t ∧
          (chanOf t n m c).owedHalt = (if bs.any (·.2) then some (.uncorrectable, ch.ipc) else none)) ∧ t = { s with
              mem := { s.mem with data := t.mem.data, chk := t.mem.chk, tag := t.mem.tag, owed := t.mem.owed }, log := t.log, integ := t.integ
              ctxs := t.ctxs, slices := t.slices, movers := t.movers, ctl := { s.ctl with pwr := t.ctl.pwr } })))))

/-- Starting and stopping a channel (R336, R337, R357, R358). START of an IDLE or HALTED channel with a context it may name begins its program, or the position that its save image holds; an unbound channel, or a PRIV one whose program lies in a pocket,
is refused. While the channel runs a START that changes no field completes OK, and one that does is dropped; while it stops, START waits, or with NO_WAIT completes PENDING_SHUTDOWN. STOP gives up the read-ahead and ends when the
staging has drained, its image, 16 words of position, offsets and loop counters, being written where SAVE asks for it. -/
def Obligations.MoversStartAndStop : Prop :=
  (∀ (n m c : Nat) (v : Word) (w : RegWriter) (s : State), s.wf = true → n < 64 → m < 2 → c < 8 → MeshOpen w s →
    let a := unitAddr n (0xC00 + m * 0x200 + c * 0x40); let ch := chanOf s n m c; let x := v.toNat; let prog := chanReg8 s n m c 8
    regAddrOk s a false = true → setsReserved n (0xC00 + m * 0x200 + c * 0x40) x = false → bitsOf x 31 30 = 1 →
    let free := ch.state = .idle ∨ ch.state = .halted; let same := x % 2 ^ 29 = chanCtl s n m c % 2 ^ 29
    let only (t : State) : Prop := t = { s with regs := t.regs, movers := { s.movers with chans := t.movers.chans }, outbox := t.outbox, ctl := { s.ctl with pwr := t.ctl.pwr } }
    let runs (y : Chan) (t : State) : Prop := ChanBecomes n m c y s t ∧ chanCtl t n m c = x % 2 ^ 30 ∧ Responds a .ok s t ∧ only t
    (free → bitOf x 11 = true → chanCtxOk s n (x % 2048) = false → Completes (.start n m c v w) s fun t => Responds a .boundViolation s t ∧
      PortErrSet w.slice 10 3 s t ∧ t = { s with regs := t.regs, outbox := t.outbox }) ∧
    (free → (bitOf x 11 = false ∨ (chanCtxOk s n (x % 2048) = true ∧ bitOf x 26 = true ∧ bitOf prog 63 = true)) → Completes (.start n m c v w) s fun t =>
      Responds a .decodeError s t ∧ PortErrSet w.slice 10 4 s t ∧ t = { s with regs := t.regs, outbox := t.outbox }) ∧
    (free → bitOf x 11 = true → chanCtxOk s n (x % 2048) = true → (bitOf x 26 = false ∨ bitOf prog 63 = false) →
      (bitOf x 28 = false → Completes (.start n m c v w) s (runs { Chan.zero with state := .running, ipc := prog, status := ch.status })) ∧
      (bitOf x 28 = true → let at_ := chanReg8 s n m c 0x28 % 2 ^ 52
        let d (i : Nat) : Nat := leNat (((extRead s at_ 64).map (·.1)).drop (4 * i) |>.take 4)
        let y : Chan := { Chan.zero with
          state := .running, status := ch.status, ipc := d 0 + 2 ^ 32 * d 1, row := d 2, byte := d 3
          ofs := (List.range 4).map (fun i => d (4 + 2 * i) + 2 ^ 32 * d (5 + 2 * i)), lc := (List.range 4).map fun i => d (12 + i) }
        ((extRead s at_ 64).any (·.2) = false → extStatus s at_ 64 = .ok → Completes (.start n m c v w) s
          (runs (if restoredBad (regPut 0 (chanReg n m c 0) (x % 2 ^ 30) s) (x % 2048) y = true then { y with owedHalt := some (.decodeError, y.ipc) } else y))) ∧
        ((extRead s at_ 64).any (·.2) = true → Completes (.start n m c v w) s
          (runs { Chan.zero with state := .running, ipc := prog, status := ch.status, owedHalt := some (.uncorrectable, prog) })))) ∧
    (¬free → ¬same → Completes (.start n m c v w) s fun t => Responds a .writeIgnored s t ∧
      Logged .writeIgnored 1 w.slice 10 (.mesh w.slice w.srcdev w.srcstop) 0 a s t ∧ t = { s with log := t.log, outbox := t.outbox }) ∧
    (¬free → same → ch.state ≠ .stopping → Completes (.start n m c v w) s fun t => Responds a .ok s t ∧ t = { s with regs := t.regs, outbox := t.outbox }) ∧
    (same → ch.state = .stopping → bitOf x 29 = true → Completes (.start n m c v w) s fun t => Responds a .pendingShutdown s t ∧
      t = { s with regs := t.regs, outbox := t.outbox }) ∧
    (same → ch.state = .stopping → bitOf x 29 = false → Completes (.start n m c v w) s fun t =>
      ChanBecomes n m c { ch with startWait := ch.startWait ++ [.direct a] } s t ∧ t.outbox = s.outbox ∧ only t)) ∧
  (∀ (n m c : Nat) (v : Word) (w : RegWriter) (s : State), s.wf = true → n < 64 → m < 2 → c < 8 → MeshOpen w s →
    let a := unitAddr n (0xC00 + m * 0x200 + c * 0x40); let ch := chanOf s n m c; let x := v.toNat
    regAddrOk s a false = true → setsReserved n (0xC00 + m * 0x200 + c * 0x40) x = false → bitsOf x 31 30 = 2 → x % 2 ^ 29 = chanCtl s n m c % 2 ^ 29 →
    ((ch.state = .running ∨ ch.state = .waiting) → ch.ahead = [] → Completes (.stop n m c v w) s fun t =>
      ChanBecomes n m c { ch with state := .stopping, saving := bitOf x 27, stopWait := [.direct a], owedHalt := none, owed := 0 } s t ∧
      (ch.owed = 0 → t.contracts = s.contracts) ∧ t.outbox = s.outbox ∧
      (∀ y ∈ t.sync.waiters, y.by_ ≠ .chan n m c) ∧
      t = { s with
        regs := t.regs, contracts := t.contracts, sync := { s.sync with waiters := t.sync.waiters }, movers := { s.movers with chans := t.movers.chans } }) ∧
    (∀ p rest, (ch.state = .running ∨ ch.state = .waiting) → ch.ahead = p :: rest → Completes (.stop n m c v w) s fun t =>
      (chanOf t n m c).state = .stopping ∧ (chanOf t n m c).ahead = [] ∧ (chanOf t n m c).ipc = p.pc ∧ (chanOf t n m c).row = p.row ∧
      (chanOf t n m c).byte = p.byte ∧ (chanOf t n m c).lc = p.lc ∧ (chanOf t n m c).ofs = p.ofs) ∧
    (ch.state = .stopping → Completes (.stop n m c v w) s fun t => Responds a .ok s t ∧ t = { s with regs := t.regs, outbox := t.outbox }) ∧
    (ch.state = .idle → (bitOf x 11 = false ∨ chanCtxOk s n (x % 2048) = true) → Completes (.stop n m c v w) s fun t => Responds a .ok s t ∧
      t = { s with regs := t.regs, outbox := t.outbox })) ∧
  (∀ (n m c : Nat) (s : State), s.wf = true → let ch := chanOf s n m c
    (¬(ch.state = .stopping ∧ ch.spills = false) → exec (.moverStopDone n m c) s = .next s) ∧
    (∀ as : List Nat, ch.state = .stopping → ch.spills = false → StageClear s n m c → ch.stopWait = as.map Origin.direct → ch.startWait = [] →
      Completes (.moverStopDone n m c) s fun t =>
        ChanBecomes n m c { ch with state := .idle, status := .ok, stopWait := [], owedHalt := none, saving := false, checked := false } s t ∧
        t.outbox = (as.map fun a => .regDone a .ok).reverse ++ s.outbox ∧
        (ch.saving = false → t.mem = s.mem) ∧
        (ch.saving = true → ch.ahead = [] → let at_ := chanReg8 s n m c 0x28 % 2 ^ 52
          let d (z : Nat) : List Word := [BitVec.ofNat 32 z, BitVec.ofNat 32 (z / 2 ^ 32)]
          let words := d ch.ipc ++ [BitVec.ofNat 32 ch.row, BitVec.ofNat 32 ch.byte] ++ ch.ofs.flatMap d ++ ch.lc.map (BitVec.ofNat 32)
          (extRead t at_ (4 * words.length)).map (·.1) = bytesOfWords words ∧ (at_ % 64 = 0 → words.length = 16 → (extRead t at_ 64).any (·.2) = false) ∧ StoresKept [] s t ∧
          ∀ b, (b < at_ ∨ at_ + 4 * words.length ≤ b) → extRead t b 1 = extRead s b 1) ∧
        t = { s with
          mem := { s.mem with ext := t.mem.ext, extPoison := t.mem.extPoison }, movers := { s.movers with chans := t.movers.chans }, outbox := t.outbox }))

/-- R336: the fields of MCH_CTL other than OP and NO_WAIT, and MCH_PROG, MCH_SAVE and MCH_HALTCNT, change only while the channel is IDLE or HALTED; at any other time a write that would change one of
them is dropped whole with WRITE_IGNORED, logged; and BOUND with a context whose span does not hold the slice completes BOUND_VIOLATION, the register unchanged. -/
def Obligations.MoverParametersHold : Prop :=
  ∀ (n m c off : Nat) (v : DWord) (w : RegWriter) (s : State), s.wf = true → n < 64 → m < 2 → c < 8 → MeshOpen w s →
    let a := unitAddr n (0xC00 + m * 0x200 + c * 0x40 + off); let reg := regNo n (0xC00 + m * 0x200 + c * 0x40 + off); let x := v.toNat % 2 ^ 32
    let ch := chanOf s n m c; let free := ch.state = .idle ∨ ch.state = .halted
    let dropped (t : State) : Prop := Responds a .writeIgnored s t ∧ Logged .writeIgnored 1 w.slice 10 (.mesh w.slice w.srcdev w.srcstop) 0 a s t ∧
      t = { s with log := t.log, outbox := t.outbox }
    let stored (y : Nat) (t : State) : Prop := Responds a .ok s t ∧ regGet t 0 reg = y ∧ (∀ z d, z ≠ reg → regGet t d z = regGet s d z) ∧
      t = { s with regs := t.regs, outbox := t.outbox }
    regAddrOk s a false = true → setsReserved n (0xC00 + m * 0x200 + c * 0x40 + off) x = false →
    (off ∈ [0x08, 0x0C, 0x28, 0x2C, 0x30] →
      (free ∨ x = regGet s 0 reg → Completes (.registerWrite a false v w) s (stored x)) ∧
      (¬free → x ≠ regGet s 0 reg → Completes (.registerWrite a false v w) s dropped)) ∧
    (off = 0 → bitsOf x 31 30 ≠ 3 →
      (¬free → x % 2 ^ 29 ≠ regGet s 0 reg % 2 ^ 29 → Completes (.registerWrite a false v w) s dropped) ∧
      (free → bitOf x 11 = true → (∀ y, ctxOf s (x % 2 ^ 11) = some y → (ctxSpan s y).has n = false) → Completes (.registerWrite a false v w) s fun t =>
        Responds a .boundViolation s t ∧ PortErrSet w.slice 10 3 s t ∧ t = { s with regs := t.regs, outbox := t.outbox }) ∧
      (free → bitsOf x 31 30 = 0 → (bitOf x 11 = true → chanCtxOk s n (x % 2 ^ 11) = true) → Completes (.registerWrite a false v w) s (stored (x % 2 ^ 30))))

/-! ## Rack memory (12) -/

/-- What a source sends (R361, R364, R370, R372, R377 to R380). CREDIT_REQUEST: a GRANT with a bad store or window, or a request that no fabric port carries (18 R517: without a valid domain or a port, but for one to the block's own device), completes DECODE_ERROR; one for a full table of held credits CREDIT_DENIED; one whose record's
destination fails its checks as they say, one whose record's pocket is spilled is held (02 R46); otherwise its message leaves under a REQID that no outstanding message holds, and it waits. REMOTE_WRITE and REMOTE_READ, when nothing of the block waits to be sent: without a held credit that covers the
range CREDIT_DENIED; otherwise one piece for each granule of the target, in order, with its bytes; a piece that a tag and its window or allowance let go has left as a frame, and the command waits. -/
def Obligations.SourcesSendRequests : Prop :=
  (∀ (id : Nat) (s : State) (c : Cmd), s.wf = true → admittedAs s id 0x600 = some c → let op := c.f 2 31 30; let home := qHome c.queue; let dev := c.f 3 31 16
    let refused (st : Status) (t : State) : Prop := CmdBecomes id (fun y => y.refused st 0) s t ∧ t = { s with cmds := t.cmds }
    (ctxOf s c.ctx = none → Completes (.creditRequest id) s (refused .boundViolation)) ∧
    (∀ x, ctxOf s c.ctx = some x →
      let bad := (op = 0 ∧ c.f 4 31 30 = 0) ∨ (op = 0 ∧ c.bit 2 29 = false ∧ (c.f 5 6 0 = 0 ∨ 64 < c.f 5 6 0)) ∨ fabReach s dev = false
      let full := op = 0 ∧ 256 ≤ (s.fab.held.filter fun h => h.part == x.part).length + (s.fab.reqs.filter fun r => r.kind == .grant && r.part == x.part && !r.gone).length
      (bad → Completes (.creditRequest id) s (refused .decodeError)) ∧ (¬bad → full → Completes (.creditRequest id) s (refused .creditDenied)) ∧
      (∀ st r, ¬bad → ¬full → op = 0 → destCheck s c (c.addr 8) 32 32 = .fail st r → Completes (.creditRequest id) s fun t =>
        CmdBecomes id (fun y => y.refused st 0) s t ∧ t = { s with cmds := t.cmds, log := t.log }) ∧
      (¬bad → ¬full → op = 0 → destCheck s c (c.addr 8) 32 32 = .spilled → Completes (.creditRequest id) s fun t =>
        CmdBecomes id (fun y => { y with delayed := true }) s t ∧ t = { s with cmds := t.cmds }) ∧
      (¬bad → ¬full → op ≤ 2 → (op = 0 → destCheck s c (c.addr 8) 32 32 = .ok) → Completes (.creditRequest id) s fun t => ∃ r, t.fab.reqs = s.fab.reqs ++ [r] ∧
        r.kind = (if op = 0 then .grant else if op = 1 then .renew else .release) ∧ r.origin = .cmd id ∧ r.dev = dev ∧ r.part = x.part ∧ r.ctx = c.ctx ∧ r.home = home ∧
        r.handle = c.f 4 14 0 ∧ r.sent = true ∧ r.sentAt = s.rc ∧ r.gone = false ∧ r.deferred = false ∧
        (∀ y ∈ s.fab.reqs, (y.kind = .grant ∨ y.kind = .renew ∨ y.kind = .release ∨ y.kind = .signal) → (∀ z ∈ s.fab.reqs, z.tag < 65536) → s.fab.reqs.length < 65536 → y.tag ≠ r.tag) ∧
        t.outbox = .frame (Config.fabricPort home dev) (routeWord dev 1 0 2 :: ({ CMsg.zero with
          ckind := op + 1, srcdev := devId s, tenant := x.tenant, tctx := c.f 3 10 0, rsv := c.bit 2 29, handle := c.f 4 14 0, reqid := r.tag
          tstore := c.f 4 31 30, tpocket := c.f 4 29 26, win := c.f 5 6 0, arg0 := c.f 5 31 16 } : CMsg).words) [] [] :: s.outbox ∧
        CmdBecomes id (fun y => { y with phase := .waiting }) s t ∧
        t = { s with freeCtr := t.freeCtr, nextId := t.nextId, cmds := t.cmds, outbox := t.outbox, fab := { s.fab with reqs := t.fab.reqs } }))) ∧
  (∀ (id : Nat) (s : State) (c : Cmd) (x : Ctx) (write : Bool), s.wf = true → admittedAs s id (if write then 0x601 else 0x602) = some c → DataReady s c x [] → c.gcls = false →
    (∀ y ∈ s.fab.reqs, y.sent = true) →
    let row : Instr := if write then .remoteWrite id else .remoteRead id
    let gta := if write then c.addr 6 else c.addr 4; let dev := bitsOf gta 61 46; let cred := c.f 8 14 0
    let held := if write = false ∧ cred = 0 then none else heldFor s c x gta (c.w 3)
    let sends (st : Status) (data : List (Byte × Bool)) (t : State) : Prop := let new := t.fab.reqs.drop s.fab.reqs.length
      t.fab.reqs.length = s.fab.reqs.length + new.length ∧ new.map (fun r => (r.off, r.len)) = granules (offsetOf gta) (c.w 3) ∧
      (∀ r ∈ new, r.kind = (if write then .pieceWrite else .pieceRead) ∧ r.origin = .cmd id ∧ r.dev = dev ∧ r.ctx = c.ctx ∧ r.part = x.part ∧ r.handle = cred ∧ r.gone = false ∧
        (∀ h, held = some h → r.tslice = recordSlice h.words (offsetOf (gta + r.off)) ∧ r.win = fld (wordAt h.words 4) 6 0) ∧ (held = none → r.tslice = 64) ∧
        (write = true → r.data = ((data.drop r.off).take r.len).map (·.1) ∧ r.poison = ((data.drop r.off).take r.len).map (·.2)) ∧
        (r.sent = true → .frame r.port (r.route :: withTag r.words r.tag) r.data r.poison ∈ t.outbox ∧ r.sentAt = s.rc) ∧ (r.sent = false → canSend t r = false)) ∧
      CmdBecomes id (fun y => { y with phase := .waiting, status := y.status.join st, count := 0 }) s t
    (write = true ∨ cred ≠ 0 → held = none → Completes row s fun t => CmdBecomes id (fun y => y.completed .creditDenied 0 0) s t ∧
      t = { s with cmds := t.cmds, ctl := { s.ctl with pwr := t.ctl.pwr } }) ∧
    (∀ h r, write = true → held = some h → opndStore (c.addr 4) (c.w 3) true false = some r → Completes row s fun t =>
      let rd := readRng c.agent x r (dataWoken s c x []); sends rd.1 rd.2.1 t ∧ StoresKept [] s t ∧ CtxsKept s t ∧ t = { s with
          mem := { s.mem with owed := t.mem.owed }, freeCtr := t.freeCtr, nextId := t.nextId, log := t.log, integ := t.integ, ctxs := t.ctxs
          slices := t.slices, cmds := t.cmds, contracts := t.contracts, outbox := t.outbox, fab := { s.fab with reqs := t.fab.reqs }
          works := t.works, ctl := { s.ctl with pwr := t.ctl.pwr } }) ∧
    (write = false → (cred = 0 ∨ held ≠ none) → Completes row s fun t => sends .ok [] t ∧ CtxsKept s t ∧ t = { s with
        freeCtr := t.freeCtr, nextId := t.nextId, ctxs := t.ctxs, cmds := t.cmds, contracts := t.contracts, outbox := t.outbox
        fab := { s.fab with reqs := t.fab.reqs }, works := t.works, ctl := { s.ctl with pwr := t.ctl.pwr } }))

/-- What answers do at their source (R361 to R363, R371 to R374, R377 to R380, R383). A granted GRANT writes its record with the command's TAG, holds the credit and completes with the handle as RESULT; one that nobody wants is released. A refusal completes the
command. RENEW completes with the new expiry, in the held record; RELEASE drops the credit; a deferral completes a NO_WAIT GRANT CREDIT_DEFERRED. A response frame gathers data until LAST, and then its port or command has its answer; a counter signal's answer is
its command's. FABRIC_TIMEOUT: the time stands at least FAB_CFG.TMO after the frame was sent, and its requester is told TIMEOUT_WATCHDOG. -/
def Obligations.AnswersReachTheirRequests : Prop :=
  (∀ (f : Frame) (s : State) (id : Nat) (r : FabReq), s.wf = true → let m := cmsgOf f.words; let u := (touchAll [r.home] 8 0 s).2
    (MessageArrives 9 f s → messageOf s .grant m.reqid = none → exec (.grantAnswer f) s = .next s) ∧
    (MessageArrives 9 f s → messageOf s .grant m.reqid = some r → Serves s [r.home] → r.gone = false → r.origin = .cmd id → r.deferred = false →
      (m.status = 0 → Completes (.grantAnswer f) s fun t => let ws := (wordsOfBytes 8 f.data).take 7 ++ [BitVec.ofNat 32 r.off]
        let wr := cmdWrite (.queue r.len) r.ctx r.grec (bytesOfWords ws) u
        t.mem = wr.2.mem ∧ t.fab.held = s.fab.held ++ [{ part := r.part, ctx := r.ctx, dev := r.dev, handle := m.handle, words := ws }] ∧ ReqLeaves r s t ∧
        CmdBecomes id (fun y => y.completed wr.1 0 (if wr.1 = .ok ∨ wr.1 = .okCorrected then m.handle else 0)) s t ∧ CtxsKept s t ∧ t = { s with
            mem := { s.mem with data := t.mem.data, chk := t.mem.chk, tag := t.mem.tag, owed := t.mem.owed, ext := t.mem.ext, extPoison := t.mem.extPoison }
            freeCtr := t.freeCtr, nextId := t.nextId, log := t.log, integ := t.integ, ctxs := t.ctxs, slices := t.slices, cmds := t.cmds
            sync := t.sync, movers := t.movers, outbox := t.outbox, fab := t.fab, ctl := { s.ctl with pwr := t.ctl.pwr } }) ∧
      (m.status ≠ 0 → Completes (.grantAnswer f) s fun t => CmdBecomes id (fun y => y.completed (statusOf m.status) 0 0) s t ∧ ReqLeaves r s t ∧
        t = { s with cmds := t.cmds, fab := { s.fab with reqs := t.fab.reqs }, ctl := { s.ctl with pwr := t.ctl.pwr } })) ∧
    (MessageArrives 9 f s → messageOf s .grant m.reqid = some r → Serves s [r.home] → r.gone = true → m.status = 0 → Completes (.grantAnswer f) s fun t => ∃ q,
      t.fab.reqs = (s.fab.reqs.filter fun y => y.id != r.id) ++ [q] ∧ q.kind = .release ∧ q.handle = m.handle ∧ q.dev = r.dev ∧
      t.outbox = .frame (Config.fabricPort r.home r.dev) (routeWord r.dev 1 0 2 :: ({ CMsg.zero with
        ckind := 3, srcdev := devId s, tenant := m.tenant, tctx := m.tctx, handle := m.handle, reqid := q.tag } : CMsg).words) [] [] :: s.outbox) ∧
    (MessageArrives 10 f s → messageOf s .renew m.reqid = some r → Serves s [r.home] → r.gone = false → r.origin = .cmd id → Completes (.renewAnswer f) s fun t =>
      let st := statusOf m.status; ReqLeaves r s t ∧ CmdBecomes id (fun y => y.completed st 0 (if st = .ok then m.arg0 else 0)) s t ∧
      (st = .ok → t.fab.held = s.fab.held.map fun h => if h.part = r.part ∧ h.dev = r.dev ∧ h.handle = r.handle then
        { h with words := (h.words.set 5 (BitVec.ofNat 32 m.arg0)).set 6 (BitVec.ofNat 32 m.arg1) } else h) ∧
      (st = .creditDenied → r.handle ≠ 0 → t.fab.held = s.fab.held.filter fun h => !(h.part == r.part && h.dev == r.dev && h.handle == r.handle)) ∧ t = { s with log := t.log, cmds := t.cmds, fab := t.fab, ctl := { s.ctl with pwr := t.ctl.pwr } }) ∧
    (MessageArrives 11 f s → messageOf s .release m.reqid = some r → Serves s [r.home] → r.gone = false → r.origin = .cmd id → statusOf m.status ≠ .unitFailed →
      Completes (.releaseAnswer f) s fun t => ReqLeaves r s t ∧ CmdBecomes id (fun y => y.completed (statusOf m.status) 0 0) s t ∧
        t.fab.held = s.fab.held.filter (fun h => !(h.part == r.part && h.dev == r.dev && h.handle == r.handle)) ∧ t = { s with log := t.log, cmds := t.cmds, fab := t.fab, ctl := { s.ctl with pwr := t.ctl.pwr } }) ∧
    (MessageArrives 12 f s → messageOf s .grant m.reqid = some r → Serves s [r.home] → r.gone = false → r.origin = .cmd id →
      (r.noWait = true → Completes (.deferredNotice f) s fun t => CmdBecomes id (fun y => y.completed .creditDeferred 0 m.arg0) s t ∧
        t.fab.reqs = s.fab.reqs.map (fun y => if y.id = r.id then { y with deferred := true, origin := .none, since := s.rc } else y) ∧ t = { s with log := t.log, cmds := t.cmds, fab := { s.fab with reqs := t.fab.reqs }, ctl := { s.ctl with pwr := t.ctl.pwr } }) ∧
      (r.noWait = false → Completes (.deferredNotice f) s fun t =>
        t.fab.reqs = s.fab.reqs.map (fun y => if y.id = r.id then { y with deferred := true, since := s.rc } else y) ∧
        t = { s with fab := { s.fab with reqs := t.fab.reqs }, ctl := { s.ctl with pwr := t.ctl.pwr } }))) ∧
  (∀ (f : Frame) (s : State) (r : FabReq), s.wf = true → let side := wordAt f.words 1; let st := statusOf (fld side 25 18); let data := r.got ++ f.data.zip f.poison
    FrameArrives 1 f s → zeroFields f [(1, 15, 12), (2, 31, 0), (3, 31, 0), (4, 31, 0), (5, 31, 0), (6, 31, 0)] = true → frRes f = false → frSlice f < 8 →
    answered s (frSlice f) (fld side 31 26) = [r] →
    (flag side 17 = false → Completes (.fabricResponseFrame f) s fun t => t.fab.reqs = s.fab.reqs.map (fun y => if y.id = r.id then { y with got := data } else y) ∧
      t = { s with freeCtr := t.freeCtr, fab := { s.fab with reqs := t.fab.reqs } }) ∧
    (∀ i o, flag side 17 = true → r.origin = .op i → opOf s i = some o → o.ret = none → r.gone = false → Serves s (answerSlices s r) →
      (∀ y ∈ s.fab.reqs, y.sent = true) → Completes (.fabricResponseFrame f) s fun t => ReqLeaves r s t ∧ (∀ y ∈ t.ops, y.id ≠ o.id) ∧
        OpAnswers o st (fld side 11 0) data s t ∧ CtxsKept s t ∧ t = { s with
            mem := { s.mem with data := t.mem.data, chk := t.mem.chk, tag := t.mem.tag, owed := t.mem.owed, ext := t.mem.ext, extPoison := t.mem.extPoison }
            freeCtr := t.freeCtr, regs := t.regs, log := t.log, integ := t.integ, ctxs := t.ctxs, slices := t.slices, cmds := t.cmds
            ports := t.ports, ops := t.ops, outbox := t.outbox, fab := t.fab, ctl := { s.ctl with pwr := t.ctl.pwr } }) ∧
    (∀ i c, flag side 17 = true → r.kind = .pieceWrite → r.origin = .cmd i → cmdOf s i = some c → c.id = i → c.after = [] → r.gone = false → Serves s (answerSlices s r) →
      (∀ y ∈ s.fab.reqs, y.sent = true ∧ (y.origin = .cmd i → y.id = r.id)) → (∀ d ∈ s.cmds, d.id = i → d = c) →
      let n := c.count + Nat.min (fld side 11 0) r.len
      Completes (.fabricResponseFrame f) s fun t => ReqLeaves r s t ∧
        (st.refusal = false → CmdBecomes i (fun y => (if st = .okCorrected then y else { y with status := y.status.join st }).completed .ok n 0) s t) ∧
        (st.refusal = true → n = 0 → CmdBecomes i (fun y => ({ y with after := [st.code] } : Cmd).completed st 0 0) s t) ∧
        (st.refusal = true → n ≠ 0 → CmdBecomes i (fun y => ({ y with after := [st.code] } : Cmd).completed .partialDone n st.code) s t) ∧ CtxsKept s t ∧ t = { s with
            mem := { s.mem with data := t.mem.data, chk := t.mem.chk, tag := t.mem.tag, owed := t.mem.owed, ext := t.mem.ext, extPoison := t.mem.extPoison }
            freeCtr := t.freeCtr, regs := t.regs, log := t.log, integ := t.integ, ctxs := t.ctxs, slices := t.slices, cmds := t.cmds
            ports := t.ports, ops := t.ops, outbox := t.outbox, fab := t.fab, ctl := { s.ctl with pwr := t.ctl.pwr } })) ∧
  (∀ (f : Frame) (s : State) (id : Nat) (r : FabReq), s.wf = true → let w (i : Nat) : Word := wordAt f.words (i + 1)
    FrameArrives 3 f s → zeroFields f [(1, 28, 28), (1, 19, 16), (2, 4, 0), (5, 31, 0), (6, 31, 0)] = true → flag (w 0) 29 = true →
    (messageOf s .signal (fld (w 2) 31 16) = none → exec (.counterSignalAnswer f) s = .next s) ∧
    (messageOf s .signal (fld (w 2) 31 16) = some r → Serves s [r.home] → r.gone = false → r.origin = .cmd id → Completes (.counterSignalAnswer f) s fun t => ReqLeaves r s t ∧
      CmdBecomes id (fun y => y.completed (statusOf (fld (w 0) 27 20)) 0 (w 3).toNat) s t ∧
      t = { s with cmds := t.cmds, fab := { s.fab with reqs := t.fab.reqs }, ctl := { s.ctl with pwr := t.ctl.pwr } })) ∧
  (∀ (q : Nat) (s : State), s.wf = true → let live (y : FabReq) : Prop := y.id = q ∧ y.sent = true ∧ y.gone = false ∧ y.deferred = false
    ((∀ y ∈ s.fab.reqs, ¬live y) → exec (.fabricTimeout q) s = .next s) ∧
    (∀ r, r ∈ s.fab.reqs → live r → (∀ y ∈ s.fab.reqs, y.sent = true ∧ (y.id = q → y = r)) →
      (∀ i o, r.origin = .op i → opOf s i = some o → o.ret = none → Completes (.fabricTimeout q) s fun t => t.rc = Nat.max s.rc (r.sentAt + fabTmo s) ∧
        OpAnswers o .timeoutWatchdog 0 [] s t ∧ (∀ y ∈ t.ops, y.id ≠ o.id) ∧
        t.fab.reqs = s.fab.reqs.map (fun y => if y.id = q then { y with gone := true, origin := .none } else y) ∧ CtxsKept s t ∧ t = { s with
            freeCtr := t.freeCtr, regs := t.regs, rc := t.rc, ctxs := t.ctxs, cmds := t.cmds, ports := t.ports, ops := t.ops, outbox := t.outbox
            fab := { s.fab with reqs := t.fab.reqs } }) ∧
      (∀ i c, r.origin = .cmd i → cmdOf s i = some c → (∀ d ∈ s.cmds, d.id = i → d = c) → (∀ y ∈ s.fab.reqs, y.origin = .cmd i → y.id = q) → Completes (.fabricTimeout q) s fun t =>
        t.rc = Nat.max s.rc (r.sentAt + fabTmo s) ∧ CmdBecomes i (fun y => y.completed .timeoutWatchdog c.count 0) s t ∧
        t.fab.reqs = s.fab.reqs.map (fun y => if y.id = q then { y with gone := true, origin := .none } else y) ∧ CtxsKept s t ∧ t = { s with
            freeCtr := t.freeCtr, regs := t.regs, rc := t.rc, ctxs := t.ctxs, cmds := t.cmds, ports := t.ports, ops := t.ops, outbox := t.outbox
            fab := { s.fab with reqs := t.fab.reqs } })))

/-- What a target does (R360, R364 to R367, R370 to R375, R382). A frame for another device, with a reserved field set, or a request from outside the domain over an unprotected link is dropped and logged. A request frame for no slice that writes is CREDIT_DENIED; a
read of a pocket is outstanding at the mesh port of its slice, for the sender's TAG. GRANT: an unknown context, another tenant's, or a pocket that may not be reached refuses; where window units are free and no older request stands before it, the grant is made under an unused index and its
record answered; otherwise it is deferred with a notice of the entries ahead. RENEW gives a new expiry; RELEASE and the expiry end a grant, which leaves once its bytes have committed; WITHDRAW removes a deferred request; the next one that fits is served. A counter signal changes a REMOTE counter of
the sender's tenant and is answered; of no context, of another tenant's or of no counter BOUND_VIOLATION, logged. -/
def Obligations.TargetsServeRequests : Prop :=
  (∀ (f : Frame) (s : State), portsOpen s = true → f.port < s.nfab →
    let dropped (d : Nat) (t : State) : Prop := t = { s with log := t.log } ∧ ∃ e : LogEntry, t.log = (logEvent e s).log ∧ e.src = 0x0A ∧ e.unit = 0x200 + f.port ∧ e.srcdev = d ∧ e.time = s.rc
    let wrong := fld (frRoute f) 31 16 ≠ devId s ∨ fld (frRoute f) 5 0 ≠ 0 ∨ devIdValid s = false ∨ domValid s = false
    let m := cmsgOf f.words; let far (d : Nat) : Prop := f.prot = false ∧ (d < domLo s ∨ domHi s < d)
    (frType f = 0 → (wrong ∨ far (extSrcdev (frameExt f))) → Completes (.fabricRequestFrame f) s (dropped (extSrcdev (frameExt f)))) ∧
    (frType f = 1 → wrong → Completes (.fabricResponseFrame f) s (dropped 0)) ∧
    (∀ row k, (row, k) ∈ [(Instr.grant f, 1), (Instr.renew f, 2), (Instr.release f, 3), (Instr.withdraw f, 4)] → frType f = 2 → m.ckind = k →
      (wrong ∨ creditClean f = false ∨ far m.srcdev) → Completes row s (dropped m.srcdev)) ∧
    (∀ row k, (row, k) ∈ [(Instr.grantAnswer f, 9), (Instr.renewAnswer f, 10), (Instr.releaseAnswer f, 11), (Instr.deferredNotice f, 12)] → frType f = 2 → m.ckind = k →
      (wrong ∨ creditClean f = false) → Completes row s (dropped 0)) ∧
    (frType f = 3 → flag (wordAt f.words 1) 29 = false → (wrong ∨ far (fld (wordAt f.words 1) 15 0)) → Completes (.counterSignalFrame f) s (dropped (fld (wordAt f.words 1) 15 0))) ∧
    (frType f = 3 → flag (wordAt f.words 1) 29 = true → wrong → Completes (.counterSignalAnswer f) s (dropped 0))) ∧
  (∀ (f : Frame) (s : State), s.wf = true → FrameArrives 0 f s → SenderOk f (extSrcdev (frameExt f)) s → let h := pp2Hdr (frameHdr f); let q := frameReq s f (frSlice f)
    f.data.length = dataLen h → f.poison.length = f.data.length →
    (frRes f = true → (h.kind = 1 ∨ h.kind = 2 ∨ h.kind = 4) → Completes (.fabricRequestFrame f) s fun t => t = { s with outbox := t.outbox } ∧
      t.outbox = .frame f.port (responseWords (extSrcdev (frameExt f)) h.tag .creditDenied 0 false) [] [] :: s.outbox) ∧
    (∀ x st p, frRes f = false → ReqPasses 0 q s x st p → q.h.g = false → KeysReached q (q.keys s x st p) s → q.keys s x st p ≠ [] → h.vol = true →
      Completes (.fabricRequestFrame f) s fun t => (∃ o, t.ops = s.ops ++ [o] ∧ o.id = s.nextId ∧ o.slice = frSlice f ∧ o.port = 10 ∧ o.kind = .read ∧
        o.keys = q.keys s x st p ∧ o.ret = some (extSrcdev (frameExt f), h.tag) ∧ o.got = []) ∧ t.outbox = s.outbox ∧ t.mem = s.mem)) ∧
  (∀ (f : Frame) (s : State), s.wf = true → MessageArrives 1 f s → let m := { cmsgOf f.words with srcstop := portStop s f.port }; SenderOk f m.srcdev s →
    (ctxOf s m.tctx = none → Completes (.grant f) s fun t => TargetAnswers 0 m 9 .boundViolation 0 0 0 [] s t ∧
      Logged .boundViolation 1 0 10 (.mesh 0 m.srcdev m.srcstop) m.tctx 0 s t ∧ t = { s with log := t.log, outbox := t.outbox }) ∧
    (∀ x, ctxOf s m.tctx = some x → let n := keeperSlice s x.part; let p (st : Store) : Pocket := x.pocket st m.tpocket
      let refused (st : Status) (t : State) : Prop := TargetAnswers n m 9 st 0 0 0 [] s t ∧ Logged st 1 n 10 (.mesh n m.srcdev m.srcstop) m.tctx 0 s t ∧
        t = { s with log := t.log, outbox := t.outbox, ctl := { s.ctl with pwr := t.ctl.pwr } }
      let plain (st : Status) (t : State) : Prop := TargetAnswers n m 9 st 0 0 0 [] s t ∧ t = { s with outbox := t.outbox, ctl := { s.ctl with pwr := t.ctl.pwr } }
      Serves s [n] →
      (x.tenant ≠ m.tenant → Completes (.grant f) s (refused .boundViolation)) ∧ (x.tenant = m.tenant → x.state = .faulted → Completes (.grant f) s (plain .unitFailed)) ∧
      (x.tenant = m.tenant → x.state ≠ .faulted → storeOf m.tstore = none → Completes (.grant f) s (refused .decodeError)) ∧
      (∀ st, x.tenant = m.tenant → x.state ≠ .faulted → storeOf m.tstore = some st →
        let closed := x.destroying = true ∨ x.state = .suspended ∨ (p st).valid = false ∨ (m.srcdev ≠ devId s ∧ (p st).remote = false) ∨ (p st).state ≠ .resident
        let scope := if (p st).spread then (ctxSpan s x).slices else [(p st).home]
        let first := (∀ d ∈ s.fab.deferred, ¬(d.part = x.part ∧ d.srcdev = m.srcdev ∧ d.tenant = m.tenant)) ∧ ∀ d ∈ s.fab.deferred, d.part = x.part → s.rc < d.since + 10000
        let ahead := (s.fab.deferred.filter fun d => d.part == x.part).length
        (closed → Completes (.grant f) s (refused .boundViolation)) ∧
        (¬closed → m.rsv = false → (m.win = 0 ∨ 64 < m.win) → Completes (.grant f) s (plain .decodeError)) ∧
        (∀ win, ¬closed → (m.rsv = false → win = m.win ∧ 1 ≤ m.win ∧ m.win ≤ 64 ∧ first ∧ grantFits s x.part m.win scope = true) →
          (m.rsv = true → ∃ k, rsvContract s m m.srcstop scope = some k ∧ win = ceilDiv k.qmax 256 ∧ (usedIndices s x.part).length < 1023 ∧
            ∀ g ∈ s.fab.grants, ¬(g.reserved = true ∧ g.live = true ∧ g.part = x.part ∧ g.tctx = m.tctx ∧ (g.scope.any (oSpan k.owner).has) = true)) →
          Completes (.grant f) s fun t => ∃ g, t.fab.grants = s.fab.grants ++ [g] ∧ g.part = x.part ∧ 1 ≤ g.index ∧ g.index ≤ 1023 ∧
            ((∀ y ∈ s.fab.grants, 1 ≤ y.index ∧ y.index ≤ 1023) → ∀ y ∈ s.fab.grants, y.part = x.part → y.index ≠ g.index) ∧
            g.srcdev = m.srcdev ∧ g.tenant = m.tenant ∧ g.tctx = m.tctx ∧ g.store = st.code ∧ g.pocket = m.tpocket ∧ g.scope = scope ∧ g.win = win ∧
            g.expiry = (if m.arg0 % 65536 = 0 then 0 else s.rc + m.arg0 % 65536 * 100000) ∧ g.live = true ∧ g.landed = [] ∧
            TargetAnswers n m 9 .ok (x.part * 1024 + g.index) 0 0
              (bytesOfWords (grantWords s m (ctxSpan s x) (p st) (x.part * 1024 + g.index) win g.expiry) ++ List.replicate 32 0) s t ∧
            t = { s with freeCtr := s.freeCtr + 1, outbox := t.outbox, fab := { s.fab with grants := t.fab.grants }, ctl := { s.ctl with pwr := t.ctl.pwr } }) ∧
        (¬closed → m.rsv = true → rsvContract s m m.srcstop scope = none → Completes (.grant f) s (plain .creditDenied)) ∧
        (¬closed → m.rsv = false → 1 ≤ m.win → m.win ≤ 64 → grantFits s x.part m.win scope = false →
          (ahead < 1024 → Completes (.grant f) s fun t => TargetAnswers n m 12 .creditDeferred 0 ahead 0 [] s t ∧ t.fab.deferred = s.fab.deferred ++
            [{ part := x.part, srcdev := m.srcdev, tenant := m.tenant, tctx := m.tctx, store := m.tstore, pocket := m.tpocket, win := m.win, life := m.arg0
               reqid := m.reqid, tslice := n, since := s.rc }] ∧
            t = { s with outbox := t.outbox, fab := { s.fab with deferred := t.fab.deferred }, ctl := { s.ctl with pwr := t.ctl.pwr } }) ∧
          (1024 ≤ ahead → Completes (.grant f) s (plain .creditDenied)))))) ∧
  (∀ (f : Frame) (s : State) (x : Ctx) (k : Nat) (row : Instr), s.wf = true → (row, k) ∈ [(Instr.renew f, 2), (Instr.release f, 3)] → MessageArrives k f s →
    let m := { cmsgOf f.words with srcstop := portStop s f.port }
    SenderOk f m.srcdev s → ctxOf s m.tctx = some x → x.tenant = m.tenant → x.state ≠ .faulted → let n := keeperSlice s x.part; Serves s [n] →
    (anyGrant s m.handle = none → Completes row s fun t => TargetAnswers n m (k + 8) .creditDenied m.handle 0 0 [] s t ∧
      t = { s with outbox := t.outbox, ctl := { s.ctl with pwr := t.ctl.pwr } }) ∧
    (∀ g, anyGrant s m.handle = some g →
      (holds g m = false ∨ (g.live = true ∧ grantExpired s g = true) → Completes row s fun t => TargetAnswers n m (k + 8) .creditDenied m.handle 0 0 [] s t ∧
        t = { s with outbox := t.outbox, ctl := { s.ctl with pwr := t.ctl.pwr } }) ∧
      (k = 2 → holds g m = true → g.live = true → grantExpired s g = false → Completes row s fun t =>
        let e := if m.arg0 % 65536 = 0 then 0 else s.rc + m.arg0 % 65536 * 100000
        t.fab.grants = s.fab.grants.map (fun y => if y.part = g.part ∧ y.index = g.index then { y with expiry := e } else y) ∧
        TargetAnswers n m 10 .ok m.handle (e % 2 ^ 32) (e / 2 ^ 32) [] s t ∧
        t = { s with outbox := t.outbox, fab := { s.fab with grants := t.fab.grants }, ctl := { s.ctl with pwr := t.ctl.pwr } }) ∧
      (k = 3 → holds g m = true → g.live = true → grantExpired s g = false → OneGrant g.part g.index g s → (∀ y ∈ s.fab.grants, y.live = true) →
        (g.landed ≠ [] → Completes row s fun t => t.outbox = s.outbox ∧
          t.fab.grants = s.fab.grants.map (fun y => if y.part = g.part ∧ y.index = g.index then { y with live := false, ends := y.ends ++ [(11, m.srcdev, m.reqid, m.tenant)] } else y) ∧ t = { s with log := t.log, outbox := t.outbox, fab := { t.fab with reqs := s.fab.reqs }, ctl := { s.ctl with pwr := t.ctl.pwr } }) ∧
        (g.landed = [] → g.ends = [] → g.part = x.part → g.failed = false → Completes row s fun t =>
          t.fab.grants = s.fab.grants.filter (fun y => !(y.part == g.part && y.index == g.index)) ∧ TargetAnswers n m 11 .ok m.handle 0 0 [] s t ∧ t = { s with log := t.log, outbox := t.outbox, fab := { t.fab with reqs := s.fab.reqs }, ctl := { s.ctl with pwr := t.ctl.pwr } })))) ∧
  (∀ (f : Frame) (s : State), MessageArrives 4 f s → let m := cmsgOf f.words; SenderOk f m.srcdev s → exec (.withdraw f) s = .next { s with fab := { s.fab with
    deferred := s.fab.deferred.filter fun d => !(d.srcdev == m.srcdev && d.tenant == m.tenant && d.tctx == m.tctx && d.reqid == m.reqid) } }) ∧
  (∀ (part : Nat) (s : State), s.wf = true → keysRise 0 s.fab.served = true → (nextServed s part = none → exec (.deferredGrantServe part) s = .next s) ∧
    (∀ d x st p, nextServed s part = some d → Serves s [keeperSlice s part] → d.place s = some (x, st, p) → x.state = .faulted → Completes (.deferredGrantServe part) s fun t =>
      t.fab.deferred = s.fab.deferred.filter (· != d) ∧ t.fab.grants = s.fab.grants ∧ TargetAnswers (keeperSlice s d.part) d.msg 9 .unitFailed 0 0 0 [] s t ∧ t = { s with
          freeCtr := t.freeCtr, log := t.log, outbox := t.outbox, fab := { t.fab with reqs := s.fab.reqs }, ctl := { s.ctl with pwr := t.ctl.pwr } }) ∧
    (∀ d x st p, nextServed s part = some d → Serves s [keeperSlice s part] → d.place s = some (x, st, p) → x.state ≠ .faulted → x.destroying = false → p.valid = true →
      (d.srcdev = devId s ∨ p.remote = true) → p.state = .resident → Completes (.deferredGrantServe part) s fun t =>
        t.fab.deferred = s.fab.deferred.filter (· != d) ∧ mget (fun _ => 0) t.fab.served d.part = d.srcdev * 65536 + d.tenant + 1 ∧
        (∃ g, t.fab.grants = s.fab.grants ++ [g] ∧ g.part = x.part ∧ g.srcdev = d.srcdev ∧ g.tenant = d.tenant ∧ g.tctx = d.tctx ∧ g.store = st.code ∧ g.pocket = d.pocket ∧
          g.win = d.win ∧ g.live = true ∧ g.landed = [] ∧ g.scope = (if p.spread then (ctxSpan s x).slices else [p.home])) ∧ t.outbox.length = s.outbox.length + 1 ∧ t = { s with
              freeCtr := t.freeCtr, log := t.log, outbox := t.outbox, fab := { t.fab with reqs := s.fab.reqs }
              ctl := { s.ctl with pwr := t.ctl.pwr } })) ∧
  (∀ (part index : Nat) (s : State), let due (y : Grant) : Prop := y.part = part ∧ y.index = index ∧ y.live = true ∧ y.expiry ≠ 0
    ((∀ y ∈ s.fab.grants, ¬due y) → exec (.grantExpiry part index) s = .next s) ∧
    (∀ g, OneGrant part index g s → due g → (∀ y ∈ s.fab.grants, y.live = true) → Completes (.grantExpiry part index) s fun t => t.rc = Nat.max s.rc g.expiry ∧
      (g.landed = [] → t.fab.grants = s.fab.grants.filter (fun y => !(y.part == part && y.index == index)) ∧ (g.ends = [] → t.outbox = s.outbox)) ∧
      (g.landed ≠ [] → t.fab.grants = s.fab.grants.map (fun y => if y.part = part ∧ y.index = index then { y with live := false } else y) ∧ t.outbox = s.outbox) ∧ t = { s with rc := t.rc, outbox := t.outbox, fab := { t.fab with reqs := s.fab.reqs } })) ∧
  (∀ (f : Frame) (s : State), s.wf = true → let w (i : Nat) : Word := wordAt f.words (i + 1); let dev := fld (w 0) 15 0; let tc := fld (w 1) 15 5
    FrameArrives 3 f s → SenderOk f dev s → zeroFields f [(1, 28, 28), (1, 19, 16), (2, 4, 0), (5, 31, 0), (6, 31, 0)] = true → flag (w 0) 29 = false →
    let answers (k : Nat) (st : Status) (res : Nat) (t : State) : Prop := t.outbox = .frame (Config.fabricPort k dev) (routeWord dev 0 (Config.returnSlice dev (fld (w 2) 31 16)) 3 ::
      [BitVec.ofNat 32 (fld (w 0) 31 30 * 2 ^ 30 + 2 ^ 29 + st.code * 2 ^ 20 + dev), w 1, w 2, BitVec.ofNat 32 res, 0, 0]) [] [] :: s.outbox
    (ctxOf s tc = none → Completes (.counterSignalFrame f) s fun t => answers 0 .boundViolation 0 t ∧
      Logged .boundViolation 2 0 0 (.mesh 0 dev (portStop s f.port)) tc (fld (w 2) 15 0) s t ∧ t = { s with log := t.log, outbox := t.outbox }) ∧
    (∀ x, ctxOf s tc = some x → let n := keeperSlice s x.part
    (x.tenant ≠ fld (w 1) 31 16 ∨ lookupObj x 0 (fld (w 2) 15 0) = none → Completes (.counterSignalFrame f) s fun t => answers n .boundViolation 0 t ∧
      Logged .boundViolation 2 n 0 (.mesh n dev (portStop s f.port)) tc (fld (w 2) 15 0) s t ∧ t = { s with log := t.log, outbox := t.outbox }) ∧
    (∀ ph, x.tenant = fld (w 1) 31 16 → lookupObj x 0 (fld (w 2) 15 0) = some ph → x.state ≠ .faulted → slcFailed s (counterHome ph) = false →
      let k := getCounter s ph; let r := changeCounter (sigOpOf (fld (w 0) 31 30)) (w 3).toNat k
      (k.remote = false → Completes (.counterSignalFrame f) s fun t => answers n .boundViolation 0 t ∧
        Logged .boundViolation 2 n 0 (.mesh n dev (portStop s f.port)) tc (fld (w 2) 15 0) s t ∧ t = { s with log := t.log, outbox := t.outbox }) ∧
      (k.remote = true → Serves s [counterHome ph] → r.1 = .ok → (∀ y ∈ s.sync.waiters, ¬(y.lock = false ∧ y.phys = ph)) → Completes (.counterSignalFrame f) s fun t =>
        (∃ src, getCounter t ph = { r.2.2 with lastsig := src }) ∧ (∀ j, j ≠ ph → getCounter t j = getCounter s j) ∧ answers (counterHome ph) .ok r.2.1 t ∧
        t = { s with freeCtr := s.freeCtr + 1, sync := { s.sync with counters := t.sync.counters }, outbox := t.outbox, ctl := { s.ctl with pwr := t.ctl.pwr } }) ∧
      (k.remote = true → Serves s [counterHome ph] → r.1 ≠ .ok → (r.1 = .counterFault → k.fault = true) → Completes (.counterSignalFrame f) s fun t =>
        answers (counterHome ph) r.1 r.2.1 t ∧ t = { s with freeCtr := s.freeCtr + 1, outbox := t.outbox, ctl := { s.ctl with pwr := t.ctl.pwr } }))))

/-- R387: FAB_CFG is the device-common register at local address 0x88_0000_0108. Its TMO is 0x0064 after every reset of the block; a write below 10 completes DECODE_ERROR and leaves the register
unchanged, the register access's mesh port recording the error (04 R117); 10 to 65,535 are stored and read back; bits 31:16 are reserved, so that a write that sets one changes nothing. TMO is the response timeout in µs: a FABRIC_TIMEOUT of a frame that was sent moves
REFCLK to at least that time after it. -/
def Obligations.FabCfgHoldsItsTimeout : Prop :=
  let a := unitAddr 0x80 0x108
  let tmo (s : State) : Nat := regGet s 0x64 (regNo 0x80 0x108)
  a = 0x8800000108 ∧ tmo State.reset = 0x64 ∧ (∀ s : State, Completes .powerOnReset s fun t => tmo t = 0x64) ∧
  (∀ (s : State) (cause : Nat), s.wf = true → 1 ≤ cause → cause ≤ 3 → Completes (.blockReset cause) s fun t => tmo t = 0x64) ∧
  (∀ (v : DWord) (w : RegWriter) (s : State), s.wf = true → MeshOpen w s → let x := v.toNat % 2 ^ 32
    (x < 10 → Completes (.registerWrite a false v w) s fun t => Responds a .decodeError s t ∧ tmo t = tmo s ∧ PortErrSet w.slice 10 4 s t ∧
      t = { s with regs := t.regs, outbox := t.outbox }) ∧
    (10 ≤ x → x < 2 ^ 16 → Completes (.registerWrite a false v w) s fun t => Responds a .ok s t ∧ tmo t = x ∧ regRead8 t a false = x ∧
      t = { s with regs := t.regs, outbox := t.outbox }) ∧
    (2 ^ 16 ≤ x → Completes (.registerWrite a false v w) s fun t => Responds a .reservedNonzero s t ∧ tmo t = tmo s ∧ PortErrSet w.slice 10 5 s t ∧
      t = { s with regs := t.regs, log := t.log, outbox := t.outbox })) ∧
  (∀ (s : State) (r : FabReq) (req : Nat), (s.fab.reqs.find? fun r => r.id == req && r.sent && !r.gone && !r.deferred) = some r →
    Completes (.fabricTimeout req) s fun t => Nat.max s.rc (r.sentAt + 100 * (tmo s % 2 ^ 16)) ≤ t.rc)

/-! ## The usage meter (17) -/

/-- The meter's counting (R485 to R491). Each sample passes 4 rc and adds every channel's energy to its channel, to the partition its slice belongs to, and to that partition's tenant, or to OTHER where the table of tenants was full; a channel above its rating is remembered. Each allocation gives the
interval's shared energy out by the rule in force, in proportion to what the partitions drew or by slices, and keeps the residue, so that under PROPORTIONAL none is lost; with NONE it stays unallocated. The self-check marks deviating channels, each counted as tampering and audited; a gap is audited
at both ends, and its span is counted. A halted meter counts none of these. -/
def Obligations.TheMeterCounts : Prop :=
  (∀ (energies : List Nat) (s : State), let m := s.meter
    let drawn (p : Nat → Bool) : Nat := (((List.range 68).filter p).map fun c => energies.getD c 0).foldl (· + ·) 0
    Completes (.meterSample energies) s (fun t => (m.gap = false → t.rc = s.rc + 4) ∧ (m.gap = true → t.rc = s.rc ∧ t.meter.time = m.time + 4) ∧ t = { s with rc := t.rc, meter := t.meter }) ∧
    (m.halted = true → Completes (.meterSample energies) s fun t => t.meter = { m with time := t.meter.time }) ∧
    (m.halted = false → keysRise 0 m.chan = true → keysRise 0 m.part = true → keysRise 0 m.ivP = true → Completes (.meterSample energies) s fun t =>
      (∀ c, c < 69 → mget (fun _ => 0) t.meter.chan c = mget (fun _ => 0) m.chan c + energies.getD c 0) ∧
      (∀ p, mget (fun _ => 0) t.meter.part p = mget (fun _ => 0) m.part p + drawn (fun c => channelPart s c == p)) ∧
      (∀ p, mget (fun _ => 0) t.meter.ivP p = mget (fun _ => 0) m.ivP p + drawn (fun c => channelPart s c == p)) ∧ t.meter.ivS = m.ivS + energies.getD 68 0 ∧
      (t.meter.ovr = true ↔ m.ovr = true ∨ (∃ c, c < 68 ∧ 216000 < energies.getD c 0) ∨ 1200000 < energies.getD 68 0) ∧
      t.meter.tenants = m.tenants.map (fun x => (x.1, x.2.1 + drawn (fun c => channelTenant s c == x.1 && x.1 != 0), x.2.2)) ∧
      t.meter.otherM = m.otherM + drawn (fun c => channelTenant s c != 0 && !m.tenants.any fun x => x.1 == channelTenant s c) ∧
      t.meter = { m with
        time := t.meter.time, chan := t.meter.chan, part := t.meter.part, ivP := t.meter.ivP, ivS := t.meter.ivS, ovr := t.meter.ovr, tenants := t.meter.tenants
        otherM := t.meter.otherM })) ∧
  (∀ s : State, let m := s.meter; let e := m.ivS + m.residue; let rule := if m.sealed then m.cfg else 0
    (m.halted = true → exec .meterAllocation s = .next s) ∧
    (m.halted = false → keysRise 0 m.alloc = true → keysRise 0 m.ivP = true → Completes .meterAllocation s fun t =>
      let total := (m.ivP.map (·.2)).foldl (· + ·) 0
      let held (p : Nat) : Nat := if (partOf s p).state = .absent then 0 else 2 ^ (partOf s p).slog
      let free := 68 - ((List.range 32).map held).foldl (· + ·) 0
      let share (k : Nat) : Nat := if rule = 1 then e * mget (fun _ => 0) m.ivP k / total else if rule = 2 then e * (if k < 32 then held k else free) / 68 else 0
      let given := ((List.range 33).map share).foldl (· + ·) 0
      (∀ k, k < 33 → mget (fun _ => 0) t.meter.alloc k = mget (fun _ => 0) m.alloc k + share k) ∧ t.meter.ivP = [] ∧ t.meter.ivS = 0 ∧
      (rule = 0 → t.meter.unalloc = m.unalloc + e ∧ t.meter.residue = 0) ∧ (rule ≠ 0 → t.meter.unalloc = m.unalloc ∧ t.meter.residue = e - given) ∧
      (rule = 1 → given + t.meter.residue = e) ∧
      t.meter.tenants = m.tenants.map (fun x => (x.1, x.2.1, x.2.2 +
        (((List.range 32).filter fun k => (partOf s k).active == x.1 && x.1 != 0).map share).foldl (· + ·) 0)) ∧
      t = { s with meter := { m with
        alloc := t.meter.alloc, ivP := [], ivS := 0, residue := t.meter.residue, unalloc := t.meter.unalloc, tenants := t.meter.tenants, otherA := t.meter.otherA } })) ∧
  (∀ (deviating : List Nat) (s : State), let m := s.meter; let n := (deviating.filter fun c => decide (c < 69)).length
    (m.halted = true → exec (.meterSelfCheck deviating) s = .next s) ∧
    (m.halted = false → m.audit < 2 ^ 32 → m.tamper < 2 ^ 32 → Completes (.meterSelfCheck deviating) s fun t =>
      (∀ c, c ∈ t.meter.faults ↔ c ∈ m.faults ∨ (c ∈ deviating ∧ c < 69)) ∧ t.meter.audit = (m.audit + n) % 2 ^ 32 ∧ t.meter.tamper = Nat.min (m.tamper + n) (2 ^ 32 - 1) ∧
      t = { s with meter := { m with faults := t.meter.faults, audit := t.meter.audit, tamper := t.meter.tamper, logFirst := t.meter.logFirst, logRing := t.meter.logRing } }) ∧
    (∀ c, m.halted = false → c < 69 → c ∉ m.faults → exec (.meterSelfCheck [c]) s = .next { s with
      meter := ({ m with faults := m.faults ++ [c], tamper := satAdd 32 m.tamper 1 } : MeterState).audited 7 c false 0 (meterNow s) })) ∧
  (∀ s : State, let m := s.meter
    (m.gap = true → exec .meterGapStart s = .next s) ∧
    (m.gap = false → exec .meterGapStart s = .next { s with
      meter := ({ m with gap := true, gapFrom := meterNow s, time := meterNow s } : MeterState).audited 5 0 false 0 (meterNow s) }) ∧
    (m.gap = false → exec .meterGapEnd s = .next s) ∧
    (m.gap = true → exec .meterGapEnd s = .next { s with
      meter := ({ m with gap := false, gapUs := m.gapUs + (m.time - m.gapFrom) / 100, gapRc := m.time - s.rc } : MeterState).audited 6 0 false 0 (Nat.max m.time s.rc) }))

/-- The meter's parameters and records (R492 to R500). A write of MTR_CFG, MTR_LABEL or MTR_SEAL of a reserved value is audited and stores nothing; a second write, or one after the seal, is tampering, audited, and stores nothing; the first stores its value, audited, and SEAL = 1 seals every
parameter, audited once more. A private write to a parameter's index is a write of it, and one of a wrong length is audited and stores nothing (log entry 82). A request of the meter's own form joins its queue. The oldest request's record is its header, with the next sequence number, its body and a signature over the SHA-384 of both, of the length its TYPE gives, and goes to the bus, or to its command's destination. -/
def Obligations.TheMeterRecords : Prop :=
  (∀ (s : State) (row : Instr) (ix v : Nat) (bad : Bool) (f : MeterState → MeterState),
    ((∃ w : Word, row = .mtrCfg w ∧ ix = 0x80 ∧ v = w.toNat ∧ bad = decide (3 ≤ v) ∧ f = fun m => { m with cfg := v }) ∨
      (∃ w : DWord, row = .mtrLabel w ∧ ix = 0x81 ∧ v = w.toNat ∧ bad = false ∧ f = fun m => { m with label := v }) ∨
      (∃ w : Word, row = .mtrSeal w ∧ ix = 0x82 ∧ v = w.toNat ∧ bad = decide (2 ≤ v) ∧ f = fun m => { m with sealed := decide (v = 1) })) → let m := s.meter
    (bad = true → exec row s = .next { s with meter := m.audited 9 ix false v (meterNow s) }) ∧
    (bad = false → (m.sealed = true ∨ m.written.contains ix = true) → exec row s = .next { s with
      meter := ({ m with tamper := satAdd 32 m.tamper 1 } : MeterState).audited 3 ix false v (meterNow s) }) ∧
    (bad = false → m.sealed = false → m.written.contains ix = false → exec row s = .next { s with
      meter := let m1 := (f { m with written := ix :: m.written }).audited 2 ix false v (meterNow s)
        if ix = 0x82 ∧ v = 1 then m1.audited 8 ix false v (meterNow s) else m1 })) ∧
  (∀ (bytes : List Byte) (s : State), let b (i : Nat) : Nat := (bytes.getD i 0).toNat
    let good := bytes.length = 12 ∧ b 2 = 0 ∧ b 3 = 0 ∧ recordLen (b 0) (b 1) ≠ none ∧ s.meter.halted = false
    (good → exec (.meterRecordRequest bytes) s = .next { s with meter := { s.meter with record := [], queue := s.meter.queue ++ [(b 0, b 1, leNat (bytes.drop 4), none)] } }) ∧
    (¬good → ¬(0x80 ≤ b 0 ∧ b 0 ≤ 0x82) → exec (.meterRecordRequest bytes) s = .next { s with meter := { s.meter with record := [] } })) ∧
  (∀ (v : List Byte) (s : State),
    (∀ ix : Byte, 0x80 ≤ ix.toNat → ix.toNat ≤ 0x82 → v.length ≠ (if ix.toNat = 0x81 then 8 else 4) → exec (.meterRecordRequest (ix :: v)) s = .next { s with
      meter := s.meter.audited 9 ix.toNat false (leNat v) (meterNow s) }) ∧
    (v.length = 4 → exec (.meterRecordRequest (0x80 :: v)) s = exec (.mtrCfg (BitVec.ofNat 32 (leNat v))) s ∧
      exec (.meterRecordRequest (0x82 :: v)) s = exec (.mtrSeal (BitVec.ofNat 32 (leNat v))) s) ∧
    (v.length = 8 → exec (.meterRecordRequest (0x81 :: v)) s = exec (.mtrLabel (BitVec.ofNat 64 (leNat v))) s)) ∧
  (∀ (s : State) (type page nonce : Nat), let ws := recordWords s type page nonce
    (∃ signed, ws = signed ++ (List.range 24).map (wordAt (Config.meterSign (sha384 (bytesOfWords signed)) s.freeCtr)) ∧ wordAt signed 1 = BitVec.ofNat 32 s.meter.seq) ∧
    (∀ len, recordLen type page = some len → (∀ e ∈ s.meter.logFirst ++ s.meter.logRing, e.length = 4) → ws.length = len)) ∧
  (∀ s : State, s.wf = true → (s.meter.queue = [] → exec .meterRecordReady s = .next s) ∧
    (∀ type page nonce rest, s.meter.queue = (type, page, nonce, none) :: rest → let ws := recordWords s type page nonce
      let made : MeterState := { s.meter with queue := rest, seq := (s.meter.seq + 1) % 2 ^ 32 }
      ((∃ q ∈ rest, q.2.2.2 = none) → exec .meterRecordReady s = .next { s with freeCtr := s.freeCtr + 1, meter := made }) ∧
      ((∀ q ∈ rest, q.2.2.2 ≠ none) → exec .meterRecordReady s = .next { s with
        freeCtr := s.freeCtr + 1, meter := { made with record := ws }, outbox := .i3c (bytesOfWords ws) :: s.outbox })) ∧
    (∀ type page nonce id rest c, s.meter.queue = (type, page, nonce, some id) :: rest → admittedAs s id 0x520 = some c → let ws := recordWords s type page nonce
      DestReady s c (c.addr 6) 32 (4 * ws.length) → Completes .meterRecordReady s fun t => let w := destWrite s c (c.addr 6) (bytesOfWords ws)
        DestWritten s c (c.addr 6) (bytesOfWords ws) t ∧ t.meter = { s.meter with queue := rest, seq := (s.meter.seq + 1) % 2 ^ 32 } ∧
        CmdBecomes id (fun y => y.completed (Status.join .ok w.1) (if w.1 = .ok ∨ w.1 = .okCorrected then 4 * ws.length else 0) s.meter.seq) s t ∧ CtxsKept s t ∧ t = { s with
            mem := { s.mem with data := t.mem.data, chk := t.mem.chk, tag := t.mem.tag, owed := t.mem.owed, ext := t.mem.ext, extPoison := t.mem.extPoison }
            freeCtr := t.freeCtr, log := t.log, integ := t.integ, ctxs := t.ctxs, slices := t.slices, cmds := t.cmds, outbox := t.outbox
            meter := t.meter, ctl := { s.ctl with pwr := t.ctl.pwr } }))
end

