-- ==== Sys2Proof/Laws/Maps.lean ====
section
/-! SUPPORT. Laws/Maps.lean: the laws of the canonical maps: reading after writing, and that every operation keeps the form. -/
namespace Sys2Proof.Laws
open Sys2Proof.Machine

variable {α : Type}

theorem keysRise_mono {lo hi : Nat} (h : lo ≤ hi) : ∀ {m : NMap α}, keysRise hi m = true → keysRise lo m = true
  | [], _ => rfl
  | (k, _) :: m, hm => by
    simp only [keysRise, Bool.and_eq_true, decide_eq_true_eq] at hm ⊢
    exact ⟨Nat.le_trans h hm.1, hm.2⟩

theorem keysRise_minsert (k : Nat) (v : α) : ∀ {lo : Nat} {m : NMap α}, lo ≤ k → keysRise lo m = true →
    keysRise lo (minsert k v m) = true
  | lo, [], h, _ => by simp [minsert, keysRise, h]
  | lo, (j, w) :: m, h, hm => by
    simp only [keysRise, Bool.and_eq_true, decide_eq_true_eq] at hm
    unfold minsert
    split
    · next e => subst e; simp [keysRise, h, hm.2]
    · split
      · next e => simp only [keysRise, Bool.and_eq_true, decide_eq_true_eq]; exact ⟨h, by omega, hm.2⟩
      · next a b =>
        simp only [keysRise, Bool.and_eq_true, decide_eq_true_eq]
        exact ⟨hm.1, keysRise_minsert k v (by omega) hm.2⟩

theorem keysRise_mremove (k : Nat) : ∀ {lo : Nat} {m : NMap α}, keysRise lo m = true → keysRise lo (mremove k m) = true
  | _, [], _ => rfl
  | lo, (j, w) :: m, hm => by
    simp only [keysRise, Bool.and_eq_true, decide_eq_true_eq] at hm
    unfold mremove
    split
    · exact keysRise_mono (by omega) hm.2
    · split
      · simp [keysRise, hm.1, hm.2]
      · simp only [keysRise, Bool.and_eq_true, decide_eq_true_eq]
        exact ⟨hm.1, keysRise_mremove k hm.2⟩

theorem keysRise_filter (p : Nat × α → Bool) : ∀ {lo : Nat} {m : NMap α}, keysRise lo m = true → keysRise lo (m.filter p) = true
  | _, [], _ => rfl
  | lo, (j, w) :: m, hm => by
    simp only [keysRise, Bool.and_eq_true, decide_eq_true_eq] at hm
    rw [List.filter_cons]
    split
    · simp only [keysRise, Bool.and_eq_true, decide_eq_true_eq]
      exact ⟨hm.1, keysRise_filter p hm.2⟩
    · exact keysRise_mono (by omega) (keysRise_filter p hm.2)

/-- A change of the values keeps the keys rising. -/
theorem keysRise_map {β : Type} (f : Nat × α → β) : ∀ {lo : Nat} {m : NMap α}, keysRise lo m = true →
    keysRise lo (m.map fun e => (e.1, f e)) = true
  | _, [], _ => rfl
  | lo, (j, w) :: m, hm => by
    simp only [keysRise, Bool.and_eq_true, decide_eq_true_eq] at hm
    simp only [List.map_cons, keysRise, Bool.and_eq_true, decide_eq_true_eq]
    exact ⟨hm.1, keysRise_map f hm.2⟩

/-- A change of the entries that keeps each key keeps the keys rising. -/
theorem keysRise_mapKeys {β : Type} {f : Nat × α → Nat × β} (hf : ∀ e, (f e).1 = e.1) {lo : Nat} {m : NMap α} (h : keysRise lo m = true) :
    keysRise lo (m.map f) = true := by
  have e : f = fun x => (x.1, (f x).2) := funext fun x => Prod.ext (hf x) rfl
  rw [e]
  exact keysRise_map _ h

theorem keysRise_foldl {β : Type} (f : NMap α → β → NMap α) (hf : ∀ m x, keysRise 0 m = true → keysRise 0 (f m x) = true) :
    ∀ (l : List β) {m : NMap α}, keysRise 0 m = true → keysRise 0 (l.foldl f m) = true
  | [], _, h => h
  | x :: l, _, h => keysRise_foldl f hf l (hf _ x h)

theorem mem_minsert {k : Nat} {v : α} {e : Nat × α} : ∀ {m : NMap α}, e ∈ minsert k v m → e = (k, v) ∨ e ∈ m
  | [], h => by simp [minsert] at h; exact Or.inl h
  | (j, w) :: m, h => by
    unfold minsert at h
    split at h
    · rcases List.mem_cons.1 h with h | h
      · exact Or.inl h
      · exact Or.inr (List.mem_cons_of_mem _ h)
    · split at h
      · rcases List.mem_cons.1 h with h | h
        · exact Or.inl h
        · exact Or.inr h
      · rcases List.mem_cons.1 h with h | h
        · exact Or.inr (h ▸ List.mem_cons_self)
        · rcases mem_minsert h with h | h
          · exact Or.inl h
          · exact Or.inr (List.mem_cons_of_mem _ h)

theorem mem_mremove {k : Nat} {e : Nat × α} : ∀ {m : NMap α}, e ∈ mremove k m → e ∈ m
  | [], h => h
  | (j, w) :: m, h => by
    unfold mremove at h
    split at h
    · exact List.mem_cons_of_mem _ h
    · split at h
      · exact h
      · rcases List.mem_cons.1 h with h | h
        · exact h ▸ List.mem_cons_self
        · exact List.mem_cons_of_mem _ (mem_mremove h)

variable {d : Nat → α}

/-! Reading after writing -/

theorem mget_of_lt {k : Nat} : ∀ {lo : Nat} {m : NMap α}, keysRise lo m = true → k < lo → mget d m k = d k
  | _, [], _, _ => rfl
  | lo, (j, w) :: m, hm, h => by
    simp only [keysRise, Bool.and_eq_true, decide_eq_true_eq] at hm
    unfold mget
    rw [if_neg (by omega), if_pos (by omega)]

theorem mget_minsert (k i : Nat) (v : α) : ∀ {lo : Nat} {m : NMap α}, keysRise lo m = true →
    mget d (minsert k v m) i = if i = k then v else mget d m i
  | _, [], _ => by
    by_cases h : i = k <;> simp [minsert, mget, h]
  | lo, (j, w) :: m, hm => by
    simp only [keysRise, Bool.and_eq_true, decide_eq_true_eq] at hm
    unfold minsert
    split
    · next e =>
      subst e
      by_cases h : i = k
      · simp [mget, h]
      · simp [mget, h]
    · split
      · next a b =>
        by_cases h : i = k
        · simp [mget, h]
        · by_cases h2 : i < k
          · have : mget d ((j, w) :: m) i = d i := mget_of_lt (lo := j) (by simp [keysRise, hm.2]) (by omega)
            rw [mget, if_neg h, if_pos h2, if_neg h, this]
          · rw [mget, if_neg h, if_neg h2, if_neg h]
      · next a b =>
        have ih := mget_minsert k i v hm.2
        by_cases h : i = j
        · subst h
          have : ¬ i = k := fun e => a e.symm
          simp [mget, this]
        · by_cases h2 : i < j
          · have : ¬ i = k := by omega
            simp [mget, h, h2, this]
          · simp only [mget, h, h2, if_false, ih]

theorem mget_mremove (k i : Nat) : ∀ {lo : Nat} {m : NMap α}, keysRise lo m = true →
    mget d (mremove k m) i = if i = k then d k else mget d m i
  | _, [], _ => by
    by_cases h : i = k <;> simp [mremove, mget, h]
  | lo, (j, w) :: m, hm => by
    simp only [keysRise, Bool.and_eq_true, decide_eq_true_eq] at hm
    unfold mremove
    split
    · next e =>
      subst e
      by_cases h : i = k
      · subst h; rw [if_pos rfl, mget_of_lt hm.2 (by omega)]
      · by_cases h2 : i < k
        · rw [if_neg h, mget_of_lt hm.2 (by omega), mget, if_neg h, if_pos h2]
        · rw [if_neg h, mget, if_neg h, if_neg h2]
    · split
      · next a b =>
        by_cases h : i = k
        · subst h; rw [if_pos rfl, mget, if_neg a, if_pos b]
        · rw [if_neg h]
      · next a b =>
        have ih := mget_mremove k i hm.2
        by_cases h : i = j
        · subst h
          have : ¬ i = k := fun e => a e.symm
          simp [mget, this]
        · by_cases h2 : i < j
          · have : ¬ i = k := by omega
            simp [mget, h, h2, this]
          · simp only [mget, h, h2, if_false, ih]

variable [DecidableEq α]

theorem mwf_iff {m : NMap α} : mwf d m = true ↔ keysRise 0 m = true ∧ ∀ e ∈ m, e.2 ≠ d e.1 := by
  simp [mwf, List.all_eq_true]

/-- Dropping entries keeps the keys rising. -/
theorem keysRise_mclear {m : NMap α} (p : Nat → Bool) (h : keysRise 0 m = true) : keysRise 0 (mclear p m) = true := keysRise_filter _ h

/-- Storing a value keeps the keys rising. -/
theorem keysRise_mput {m : NMap α} (k : Nat) (v : α) (h : keysRise 0 m = true) : keysRise 0 (mput d m k v) = true := by
  unfold mput
  split
  · exact keysRise_mremove k h
  · exact keysRise_minsert k v (Nat.zero_le _) h

/-- Storing a value keeps the canonical form. -/
theorem mwf_mput {m : NMap α} (k : Nat) (v : α) (h : mwf d m = true) : mwf d (mput d m k v) = true := by
  rw [mwf_iff] at h ⊢
  unfold mput
  split
  · exact ⟨keysRise_mremove k h.1, fun e he => h.2 e (mem_mremove he)⟩
  · next hv =>
    refine ⟨keysRise_minsert k v (Nat.zero_le _) h.1, fun e he => ?_⟩
    rcases mem_minsert he with rfl | he
    · exact hv
    · exact h.2 e he

/-- Dropping entries keeps the canonical form. -/
theorem mwf_mclear {m : NMap α} (p : Nat → Bool) (h : mwf d m = true) : mwf d (mclear p m) = true := by
  rw [mwf_iff] at h ⊢
  exact ⟨keysRise_filter _ h.1, fun e he => h.2 e (List.mem_filter.1 he).1⟩

/-- Storing a list of values keeps the canonical form. -/
theorem mwf_mputList {m : NMap α} (k : Nat) (vs : List α) (h : mwf d m = true) : mwf d (mputList d m k vs) = true := by
  induction vs generalizing m k with
  | nil => exact h
  | cons v vs ih => exact ih _ (mwf_mput k v h)

theorem mwf_nil : mwf d ([] : NMap α) = true := rfl

/-- Reading after storing: the stored key reads the value, every other key reads as before. -/
theorem mget_mput {m : NMap α} (k i : Nat) (v : α) (h : mwf d m = true) :
    mget d (mput d m k v) i = if i = k then v else mget d m i := by
  have hr := (mwf_iff.1 h).1
  unfold mput
  split
  · next e => rw [mget_mremove k i hr, e]
  · rw [mget_minsert k i v hr]

theorem mget_mput_same {m : NMap α} (k : Nat) (v : α) (h : mwf d m = true) : mget d (mput d m k v) k = v := by
  rw [mget_mput k k v h, if_pos rfl]

theorem mget_mput_other {m : NMap α} {k i : Nat} (v : α) (h : mwf d m = true) (e : i ≠ k) :
    mget d (mput d m k v) i = mget d m i := by
  rw [mget_mput k i v h, if_neg e]

/-- Reading after an insertion, whatever the order of the keys. -/
theorem mget_minsert_any (k i : Nat) (v : α) : ∀ (m : NMap α), mget d (minsert k v m) i = if i = k then v else mget d m i
  | [] => by
    by_cases h : i = k <;> simp [minsert, mget, h]
  | (j, w) :: m => by
    unfold minsert
    split
    · next e =>
      subst e
      by_cases h : i = k <;> simp [mget, h]
    · split
      · next a b =>
        by_cases h : i = k
        · simp [mget, h]
        · by_cases h2 : i < k
          · rw [mget, if_neg h, if_pos h2, if_neg h, mget, if_neg (by omega), if_pos (by omega)]
          · rw [mget, if_neg h, if_neg h2, if_neg h]
      · next a b =>
        have ih := mget_minsert_any k i v m
        by_cases h : i = j
        · subst h
          have : ¬ i = k := fun e => a e.symm
          simp [mget, this]
        · by_cases h2 : i < j
          · have : ¬ i = k := by omega
            simp [mget, h, h2, this]
          · rw [mget, if_neg h, if_neg h2, ih, mget, if_neg h, if_neg h2]

end Sys2Proof.Laws
end

