-- ==== Sys2Proof/Laws/Alters.lean ====
section
/-! SUPPORT. Laws/Alters.lean: which kinds of state an operation may change. A kind is a bit of a mask; `Alters M r t` says that `t`
differs from `r` in the kinds of `M` at most, and in no waiting command and no tie-off (18 R517). The lemmas alters_<operation> give each
operation's own mask; alters_set_<fields> a change of fields. The bits: 0 freeCtr, 1 nextId, 2 mem.data, 3 mem.chk, 4 mem.tag, 5 mem.owed, 6 mem.sys, 7 mem.boot, 8 mem.ext, 9 mem.extPoison, 10 mem.extErr, 11 regs, 12 w1done, 13 bcnt, 14 bcRun, 15 rc, 16 log, 17 integ, 18 ctxs, 19 ctxCore, 20 parts, 21 slices, 22 queues, 23 qctl, 24 qfetch, 25 qback, 26 dbPend, 27 qEnabled, 28 dbDrop, 29 hwin, 30 cmds, 31 ports, 32 ops, 33 wb, 34 beats, 35 busyBanks, 36 clears, 37 contracts, 38 sync.waiters, 39 movers, 40 outbox, 41 fab.reqs, 42 ctl.pwr, 43 ctl.rest, 44 power, 45 meter, 46 scrub, 47 test, 48 keys, 49 tdi, 50 ready, 51 qirq, 52 works, 53 outerCut, 54 outerUsed, 55 sync.rest, 56 fab.rest. -/
namespace Sys2Proof.Laws
open Sys2Proof.Machine

/-- The kinds of mask `a` are among those of `b`. -/
def Within (a b : Nat) : Prop := a &&& b = a

theorem Within.refl (a : Nat) : Within a a := Nat.and_self a

theorem Within.of {a b c : Nat} (h : Within b c) (e : Nat.beq (Nat.land a b) a = true) : Within a c := by
  have e : a &&& b = a := Nat.eq_of_beq_eq_true e
  unfold Within at *
  rw [← e, Nat.and_assoc, h]

theorem Within.clash {a M i : Nat} {p : Prop} (h : Within a M) (ha : a.testBit i = true) (hM : M.testBit i = false) : p := by
  have := congrArg (fun n => n.testBit i) h
  simp only [Nat.testBit_and, ha, hM, Bool.and_false] at this
  exact absurd this (by decide)

/-- The memories differ in the kinds of `M` at most. -/
structure MemAlters (M : Nat) (r t : Mem) : Prop where
  data : M.testBit 2 = false → t.data = r.data
  chk : M.testBit 3 = false → t.chk = r.chk
  tag : M.testBit 4 = false → t.tag = r.tag
  owed : M.testBit 5 = false → t.owed = r.owed
  sys : M.testBit 6 = false → t.sys = r.sys
  boot : M.testBit 7 = false → t.boot = r.boot
  ext : M.testBit 8 = false → t.ext = r.ext
  extPoison : M.testBit 9 = false → t.extPoison = r.extPoison
  extErr : M.testBit 10 = false → t.extErr = r.extErr

/-- The ctl parts differ in the kinds of `M` at most. -/
structure CtlAlters (M : Nat) (r t : CtlState) : Prop where
  pwr : M.testBit 42 = false → t.pwr = r.pwr
  rest : M.testBit 43 = false → { t with pwr := [] } = { r with pwr := [] }

/-- The sync parts differ in the kinds of `M` at most. -/
structure SyncAlters (M : Nat) (r t : SyncState) : Prop where
  waiters : M.testBit 38 = false → t.waiters = r.waiters
  rest : M.testBit 55 = false → { t with waiters := [] } = { r with waiters := [] }

/-- The fab parts differ in the kinds of `M` at most. -/
structure FabAlters (M : Nat) (r t : FabState) : Prop where
  reqs : M.testBit 41 = false → t.reqs = r.reqs
  rest : M.testBit 56 = false → { t with reqs := [] } = { r with reqs := [] }

/-- The states differ in the kinds of `M` at most. -/
structure Alters (M : Nat) (r t : State) : Prop where
  pending : t.pending = r.pending
  pp1 : t.pp1 = r.pp1
  unconn : t.unconn = r.unconn
  cgrp : t.cgrp = r.cgrp
  nfab : t.nfab = r.nfab
  fstop : t.fstop = r.fstop
  freeCtr : M.testBit 0 = false → t.freeCtr = r.freeCtr
  nextId : M.testBit 1 = false → t.nextId = r.nextId
  mem_data : M.testBit 2 = false → t.mem.data = r.mem.data
  mem_chk : M.testBit 3 = false → t.mem.chk = r.mem.chk
  mem_tag : M.testBit 4 = false → t.mem.tag = r.mem.tag
  mem_owed : M.testBit 5 = false → t.mem.owed = r.mem.owed
  mem_sys : M.testBit 6 = false → t.mem.sys = r.mem.sys
  mem_boot : M.testBit 7 = false → t.mem.boot = r.mem.boot
  mem_ext : M.testBit 8 = false → t.mem.ext = r.mem.ext
  mem_extPoison : M.testBit 9 = false → t.mem.extPoison = r.mem.extPoison
  mem_extErr : M.testBit 10 = false → t.mem.extErr = r.mem.extErr
  regs : M.testBit 11 = false → t.regs = r.regs
  w1done : M.testBit 12 = false → t.w1done = r.w1done
  bcnt : M.testBit 13 = false → t.bcnt = r.bcnt
  bcRun : M.testBit 14 = false → t.bcRun = r.bcRun
  rc : M.testBit 15 = false → t.rc = r.rc
  log : M.testBit 16 = false → t.log = r.log
  integ : M.testBit 17 = false → t.integ = r.integ
  ctxs : M.testBit 18 = false → t.ctxs = r.ctxs
  ctxCore : M.testBit 19 = false → ∀ c, (ctxOf t c).map Ctx.core = (ctxOf r c).map Ctx.core
  parts : M.testBit 20 = false → t.parts = r.parts
  slices : M.testBit 21 = false → t.slices = r.slices
  queues : M.testBit 22 = false → t.queues = r.queues
  qctl : M.testBit 23 = false → t.qctl = r.qctl
  qfetch : M.testBit 24 = false → t.qfetch = r.qfetch
  qback : M.testBit 25 = false → t.qback = r.qback
  dbPend : M.testBit 26 = false → t.dbPend = r.dbPend
  qEnabled : M.testBit 27 = false → t.qEnabled = r.qEnabled
  dbDrop : M.testBit 28 = false → t.dbDrop = r.dbDrop
  hwin : M.testBit 29 = false → t.hwin = r.hwin
  cmds : M.testBit 30 = false → t.cmds = r.cmds
  ports : M.testBit 31 = false → t.ports = r.ports
  ops : M.testBit 32 = false → t.ops = r.ops
  wb : M.testBit 33 = false → t.wb = r.wb
  beats : M.testBit 34 = false → t.beats = r.beats
  busyBanks : M.testBit 35 = false → t.busyBanks = r.busyBanks
  clears : M.testBit 36 = false → t.clears = r.clears
  contracts : M.testBit 37 = false → t.contracts = r.contracts
  sync_waiters : M.testBit 38 = false → t.sync.waiters = r.sync.waiters
  movers : M.testBit 39 = false → t.movers = r.movers
  outbox : M.testBit 40 = false → t.outbox = r.outbox
  fab_reqs : M.testBit 41 = false → t.fab.reqs = r.fab.reqs
  ctl_pwr : M.testBit 42 = false → t.ctl.pwr = r.ctl.pwr
  ctl_rest : M.testBit 43 = false → { t.ctl with pwr := [] } = { r.ctl with pwr := [] }
  power : M.testBit 44 = false → t.power = r.power
  meter : M.testBit 45 = false → t.meter = r.meter
  scrub : M.testBit 46 = false → t.scrub = r.scrub
  test : M.testBit 47 = false → t.test = r.test
  keys : M.testBit 48 = false → t.keys = r.keys
  tdi : M.testBit 49 = false → t.tdi = r.tdi
  ready : M.testBit 50 = false → t.ready = r.ready
  qirq : M.testBit 51 = false → t.qirq = r.qirq
  works : M.testBit 52 = false → t.works = r.works
  outerCut : M.testBit 53 = false → t.outerCut = r.outerCut
  outerUsed : M.testBit 54 = false → t.outerUsed = r.outerUsed
  sync_rest : M.testBit 55 = false → { t.sync with waiters := [] } = { r.sync with waiters := [] }
  fab_rest : M.testBit 56 = false → { t.fab with reqs := [] } = { r.fab with reqs := [] }

/-- An outcome is a next state that differs in the kinds of `M` at most. -/
def AltersOut (M : Nat) (r : State) (o : Host.Outcome State Fault Refusal) : Prop := ∃ t, o = .next t ∧ Alters M r t

theorem Alters.refl (M : Nat) (s : State) : Alters M s s :=
  ⟨rfl, rfl, rfl, rfl, rfl, rfl, fun _ => rfl, fun _ => rfl, fun _ => rfl, fun _ => rfl, fun _ => rfl, fun _ => rfl, fun _ => rfl, fun _ => rfl, fun _ => rfl, fun _ => rfl, fun _ => rfl, fun _ => rfl, fun _ => rfl, fun _ => rfl, fun _ => rfl, fun _ => rfl, fun _ => rfl, fun _ => rfl, fun _ => rfl, fun _ _ => rfl, fun _ => rfl, fun _ => rfl, fun _ => rfl, fun _ => rfl, fun _ => rfl, fun _ => rfl, fun _ => rfl, fun _ => rfl, fun _ => rfl, fun _ => rfl, fun _ => rfl, fun _ => rfl, fun _ => rfl, fun _ => rfl, fun _ => rfl, fun _ => rfl, fun _ => rfl, fun _ => rfl, fun _ => rfl, fun _ => rfl, fun _ => rfl, fun _ => rfl, fun _ => rfl, fun _ => rfl, fun _ => rfl, fun _ => rfl, fun _ => rfl, fun _ => rfl, fun _ => rfl, fun _ => rfl, fun _ => rfl, fun _ => rfl, fun _ => rfl, fun _ => rfl, fun _ => rfl, fun _ => rfl, fun _ => rfl⟩

theorem Alters.trans {M : Nat} {a b c : State} (h : Alters M a b) (k : Alters M b c) : Alters M a c :=
  ⟨k.pending.trans h.pending, k.pp1.trans h.pp1, k.unconn.trans h.unconn, k.cgrp.trans h.cgrp, k.nfab.trans h.nfab, k.fstop.trans h.fstop, fun e => (k.freeCtr e).trans (h.freeCtr e), fun e => (k.nextId e).trans (h.nextId e), fun e => (k.mem_data e).trans (h.mem_data e), fun e => (k.mem_chk e).trans (h.mem_chk e), fun e => (k.mem_tag e).trans (h.mem_tag e), fun e => (k.mem_owed e).trans (h.mem_owed e), fun e => (k.mem_sys e).trans (h.mem_sys e), fun e => (k.mem_boot e).trans (h.mem_boot e), fun e => (k.mem_ext e).trans (h.mem_ext e), fun e => (k.mem_extPoison e).trans (h.mem_extPoison e), fun e => (k.mem_extErr e).trans (h.mem_extErr e), fun e => (k.regs e).trans (h.regs e), fun e => (k.w1done e).trans (h.w1done e), fun e => (k.bcnt e).trans (h.bcnt e), fun e => (k.bcRun e).trans (h.bcRun e), fun e => (k.rc e).trans (h.rc e), fun e => (k.log e).trans (h.log e), fun e => (k.integ e).trans (h.integ e), fun e => (k.ctxs e).trans (h.ctxs e), fun e c => (k.ctxCore e c).trans (h.ctxCore e c), fun e => (k.parts e).trans (h.parts e), fun e => (k.slices e).trans (h.slices e), fun e => (k.queues e).trans (h.queues e), fun e => (k.qctl e).trans (h.qctl e), fun e => (k.qfetch e).trans (h.qfetch e), fun e => (k.qback e).trans (h.qback e), fun e => (k.dbPend e).trans (h.dbPend e), fun e => (k.qEnabled e).trans (h.qEnabled e), fun e => (k.dbDrop e).trans (h.dbDrop e), fun e => (k.hwin e).trans (h.hwin e), fun e => (k.cmds e).trans (h.cmds e), fun e => (k.ports e).trans (h.ports e), fun e => (k.ops e).trans (h.ops e), fun e => (k.wb e).trans (h.wb e), fun e => (k.beats e).trans (h.beats e), fun e => (k.busyBanks e).trans (h.busyBanks e), fun e => (k.clears e).trans (h.clears e), fun e => (k.contracts e).trans (h.contracts e), fun e => (k.sync_waiters e).trans (h.sync_waiters e), fun e => (k.movers e).trans (h.movers e), fun e => (k.outbox e).trans (h.outbox e), fun e => (k.fab_reqs e).trans (h.fab_reqs e), fun e => (k.ctl_pwr e).trans (h.ctl_pwr e), fun e => (k.ctl_rest e).trans (h.ctl_rest e), fun e => (k.power e).trans (h.power e), fun e => (k.meter e).trans (h.meter e), fun e => (k.scrub e).trans (h.scrub e), fun e => (k.test e).trans (h.test e), fun e => (k.keys e).trans (h.keys e), fun e => (k.tdi e).trans (h.tdi e), fun e => (k.ready e).trans (h.ready e), fun e => (k.qirq e).trans (h.qirq e), fun e => (k.works e).trans (h.works e), fun e => (k.outerCut e).trans (h.outerCut e), fun e => (k.outerUsed e).trans (h.outerUsed e), fun e => (k.sync_rest e).trans (h.sync_rest e), fun e => (k.fab_rest e).trans (h.fab_rest e)⟩

theorem MemAlters.refl (M : Nat) (m : Mem) : MemAlters M m m := ⟨fun _ => rfl, fun _ => rfl, fun _ => rfl, fun _ => rfl, fun _ => rfl, fun _ => rfl, fun _ => rfl, fun _ => rfl, fun _ => rfl⟩

theorem MemAlters.trans {M : Nat} {a b c : Mem} (h : MemAlters M a b) (k : MemAlters M b c) : MemAlters M a c :=
  ⟨fun e => (k.data e).trans (h.data e), fun e => (k.chk e).trans (h.chk e), fun e => (k.tag e).trans (h.tag e), fun e => (k.owed e).trans (h.owed e), fun e => (k.sys e).trans (h.sys e), fun e => (k.boot e).trans (h.boot e), fun e => (k.ext e).trans (h.ext e), fun e => (k.extPoison e).trans (h.extPoison e), fun e => (k.extErr e).trans (h.extErr e)⟩

theorem memAlters_set_sys {M : Nat} {r m : Mem} {x_sys : NMap Byte} (h : MemAlters M r m) (hm : Within 64 M) :
    MemAlters M r (Mem.mk m.data m.chk m.tag m.owed x_sys m.boot m.ext m.extPoison m.extErr) :=
  ⟨h.data, h.chk, h.tag, h.owed, fun e => hm.clash (i := 6) rfl e, h.boot, h.ext, h.extPoison, h.extErr⟩

theorem memAlters_set_data_chk_tag_owed {M : Nat} {r m : Mem} {x_data : NMap Byte} {x_chk : NMap Byte} {x_tag : NMap Bool} {x_owed : List Nat} (h : MemAlters M r m) (hm : Within 60 M) :
    MemAlters M r (Mem.mk x_data x_chk x_tag x_owed m.sys m.boot m.ext m.extPoison m.extErr) :=
  ⟨fun e => hm.clash (i := 2) rfl e, fun e => hm.clash (i := 3) rfl e, fun e => hm.clash (i := 4) rfl e, fun e => hm.clash (i := 5) rfl e, h.sys, h.boot, h.ext, h.extPoison, h.extErr⟩

theorem memAlters_set_owed {M : Nat} {r m : Mem} {x_owed : List Nat} (h : MemAlters M r m) (hm : Within 32 M) :
    MemAlters M r (Mem.mk m.data m.chk m.tag x_owed m.sys m.boot m.ext m.extPoison m.extErr) :=
  ⟨h.data, h.chk, h.tag, fun e => hm.clash (i := 5) rfl e, h.sys, h.boot, h.ext, h.extPoison, h.extErr⟩

theorem memAlters_set_tag {M : Nat} {r m : Mem} {x_tag : NMap Bool} (h : MemAlters M r m) (hm : Within 16 M) :
    MemAlters M r (Mem.mk m.data m.chk x_tag m.owed m.sys m.boot m.ext m.extPoison m.extErr) :=
  ⟨h.data, h.chk, fun e => hm.clash (i := 4) rfl e, h.owed, h.sys, h.boot, h.ext, h.extPoison, h.extErr⟩

theorem memAlters_set_tag_owed {M : Nat} {r m : Mem} {x_tag : NMap Bool} {x_owed : List Nat} (h : MemAlters M r m) (hm : Within 48 M) :
    MemAlters M r (Mem.mk m.data m.chk x_tag x_owed m.sys m.boot m.ext m.extPoison m.extErr) :=
  ⟨h.data, h.chk, fun e => hm.clash (i := 4) rfl e, fun e => hm.clash (i := 5) rfl e, h.sys, h.boot, h.ext, h.extPoison, h.extErr⟩

theorem memAlters_set_boot {M : Nat} {r m : Mem} {x_boot : NMap Byte} (h : MemAlters M r m) (hm : Within 128 M) :
    MemAlters M r (Mem.mk m.data m.chk m.tag m.owed m.sys x_boot m.ext m.extPoison m.extErr) :=
  ⟨h.data, h.chk, h.tag, h.owed, h.sys, fun e => hm.clash (i := 7) rfl e, h.ext, h.extPoison, h.extErr⟩

theorem memAlters_set_ext_extPoison {M : Nat} {r m : Mem} {x_ext : NMap Byte} {x_extPoison : NMap Bool} (h : MemAlters M r m) (hm : Within 768 M) :
    MemAlters M r (Mem.mk m.data m.chk m.tag m.owed m.sys m.boot x_ext x_extPoison m.extErr) :=
  ⟨h.data, h.chk, h.tag, h.owed, h.sys, h.boot, fun e => hm.clash (i := 8) rfl e, fun e => hm.clash (i := 9) rfl e, h.extErr⟩

theorem memAlters_set_data_chk_tag_owed_sys {M : Nat} {r m : Mem} {x_data : NMap Byte} {x_chk : NMap Byte} {x_tag : NMap Bool} {x_owed : List Nat} {x_sys : NMap Byte} (h : MemAlters M r m) (hm : Within 124 M) :
    MemAlters M r (Mem.mk x_data x_chk x_tag x_owed x_sys m.boot m.ext m.extPoison m.extErr) :=
  ⟨fun e => hm.clash (i := 2) rfl e, fun e => hm.clash (i := 3) rfl e, fun e => hm.clash (i := 4) rfl e, fun e => hm.clash (i := 5) rfl e, fun e => hm.clash (i := 6) rfl e, h.boot, h.ext, h.extPoison, h.extErr⟩

theorem memAlters_putUnit {M : Nat} {r m : Mem} (u : Nat) (bs : List Byte) (tag : Bool) (h : MemAlters M r m) (hm : Within 60 M) :
    MemAlters M r (putUnit u bs tag m) := memAlters_set_data_chk_tag_owed h hm

theorem memAlters_putUnits {M : Nat} {r : Mem} (bad : Bool) (k : Nat) (hm : Within 60 M) (bs : List (Byte × Nat)) : ∀ {m : Mem},
    MemAlters M r m → MemAlters M r (bs.foldl (fun m (b, i) => putUnit (k + i) [b] bad m) m) := by
  induction bs with
  | nil => exact fun h => h
  | cons b bs ih => exact fun h => ih (memAlters_putUnit _ _ _ h hm)

theorem memAlters_clearKeys {M : Nat} {r m : Mem} (p : Nat → Bool) (h : MemAlters M r m) (hm : Within 60 M) :
    MemAlters M r (clearKeys p m) := memAlters_set_data_chk_tag_owed h hm

theorem memAlters_clearLines {M : Nat} {r m : Mem} (bank lo hi : Nat) (h : MemAlters M r m) (hm : Within 60 M) :
    MemAlters M r (clearLines bank lo hi m) := memAlters_clearKeys _ h hm

theorem ctlAlters_any {M : Nat} (r t : CtlState) (hm : Within 13194139533312 M) : CtlAlters M r t :=
  ⟨fun e => hm.clash (i := 42) rfl e, fun e => hm.clash (i := 43) rfl e⟩

theorem ctlAlters_pwr {M : Nat} (r : CtlState) (x : NMap SlcPwr) (hm : Within 4398046511104 M) : CtlAlters M r { r with pwr := x } :=
  ⟨fun e => hm.clash (i := 42) rfl e, fun _ => rfl⟩

theorem ctlAlters_rest {M : Nat} (r t : CtlState) (hm : Within 8796093022208 M) (h : t.pwr = r.pwr) : CtlAlters M r t :=
  ⟨fun _ => h, fun e => hm.clash (i := 43) rfl e⟩

theorem syncAlters_any {M : Nat} (r t : SyncState) (hm : Within 36029071896870912 M) : SyncAlters M r t :=
  ⟨fun e => hm.clash (i := 38) rfl e, fun e => hm.clash (i := 55) rfl e⟩

theorem syncAlters_waiters {M : Nat} (r : SyncState) (x : List Waiter) (hm : Within 274877906944 M) : SyncAlters M r { r with waiters := x } :=
  ⟨fun e => hm.clash (i := 38) rfl e, fun _ => rfl⟩

theorem syncAlters_rest {M : Nat} (r t : SyncState) (hm : Within 36028797018963968 M) (h : t.waiters = r.waiters) : SyncAlters M r t :=
  ⟨fun _ => h, fun e => hm.clash (i := 55) rfl e⟩

theorem fabAlters_any {M : Nat} (r t : FabState) (hm : Within 72059793061183488 M) : FabAlters M r t :=
  ⟨fun e => hm.clash (i := 41) rfl e, fun e => hm.clash (i := 56) rfl e⟩

theorem fabAlters_reqs {M : Nat} (r : FabState) (x : List FabReq) (hm : Within 2199023255552 M) : FabAlters M r { r with reqs := x } :=
  ⟨fun e => hm.clash (i := 41) rfl e, fun _ => rfl⟩

theorem fabAlters_rest {M : Nat} (r t : FabState) (hm : Within 72057594037927936 M) (h : t.reqs = r.reqs) : FabAlters M r t :=
  ⟨fun _ => h, fun e => hm.clash (i := 56) rfl e⟩

/-- The same claim of a state given field by field: a head that only a state written out has. -/
def AltersF (M : Nat) (r t : State) : Prop := Alters M r t

theorem AltersF.mkIff {M : Nat} {r : State} {x_pending : List Instr} {x_freeCtr : Nat} {x_nextId : Nat} {x_mem : Mem} {x_regs : NMap Word} {x_w1done : NMap Bool} {x_bcnt : Nat} {x_bcRun : Bool} {x_rc : Nat} {x_log : LogState} {x_integ : NMap Nat} {x_ctxs : NMap (Option Ctx)} {x_parts : NMap PartRec} {x_slices : NMap SliceRec} {x_queues : NMap (Option QueueRec)} {x_qctl : NMap QctlRec} {x_qfetch : List (Nat × FetchFor)} {x_qback : List (Nat × List Word)} {x_dbPend : NMap Bool} {x_qEnabled : NMap Bool} {x_dbDrop : NMap Nat} {x_qirq : NMap QIrq} {x_hwin : NMap DWord} {x_cmds : List Cmd} {x_ports : NMap PortRec} {x_ops : List PortOp} {x_wb : List WbEntry} {x_beats : List Beat} {x_works : List Work} {x_outerCut : NMap Nat} {x_outerUsed : NMap Nat} {x_busyBanks : List Nat} {x_clears : List ClearJob} {x_contracts : List Contract} {x_sync : SyncState} {x_movers : MoverState} {x_outbox : List Out} {x_fab : FabState} {x_ctl : CtlState} {x_power : PowerState} {x_meter : MeterState} {x_scrub : ScrubState} {x_test : TestState} {x_keys : NMap (Option (Nat × Nat))} {x_tdi : NMap Nat} {x_ready : NMap Bool} {x_pp1 : NMap Bool} {x_unconn : NMap Bool} {x_cgrp : NMap Nat} {x_nfab : Nat} {x_fstop : NMap Nat} :
    Alters M r (State.mk x_pending x_freeCtr x_nextId x_mem x_regs x_w1done x_bcnt x_bcRun x_rc x_log x_integ x_ctxs x_parts x_slices x_queues x_qctl x_qfetch x_qback x_dbPend x_qEnabled x_dbDrop x_qirq x_hwin x_cmds x_ports x_ops x_wb x_beats x_works x_outerCut x_outerUsed x_busyBanks x_clears x_contracts x_sync x_movers x_outbox x_fab x_ctl x_power x_meter x_scrub x_test x_keys x_tdi x_ready x_pp1 x_unconn x_cgrp x_nfab x_fstop) ↔ AltersF M r (State.mk x_pending x_freeCtr x_nextId x_mem x_regs x_w1done x_bcnt x_bcRun x_rc x_log x_integ x_ctxs x_parts x_slices x_queues x_qctl x_qfetch x_qback x_dbPend x_qEnabled x_dbDrop x_qirq x_hwin x_cmds x_ports x_ops x_wb x_beats x_works x_outerCut x_outerUsed x_busyBanks x_clears x_contracts x_sync x_movers x_outbox x_fab x_ctl x_power x_meter x_scrub x_test x_keys x_tdi x_ready x_pp1 x_unconn x_cgrp x_nfab x_fstop) := Iff.rfl

theorem alters_set_bcRun {M : Nat} {r s : State} {x_bcRun : Bool} (h : Alters M r s) (hm : Within 16384 M) :
    AltersF M r (State.mk s.pending s.freeCtr s.nextId s.mem s.regs s.w1done s.bcnt x_bcRun s.rc s.log s.integ s.ctxs s.parts s.slices s.queues s.qctl s.qfetch s.qback s.dbPend s.qEnabled s.dbDrop s.qirq s.hwin s.cmds s.ports s.ops s.wb s.beats s.works s.outerCut s.outerUsed s.busyBanks s.clears s.contracts s.sync s.movers s.outbox s.fab s.ctl s.power s.meter s.scrub s.test s.keys s.tdi s.ready s.pp1 s.unconn s.cgrp s.nfab s.fstop) :=
  ⟨h.pending, h.pp1, h.unconn, h.cgrp, h.nfab, h.fstop, h.freeCtr, h.nextId, h.mem_data, h.mem_chk, h.mem_tag, h.mem_owed, h.mem_sys, h.mem_boot, h.mem_ext, h.mem_extPoison, h.mem_extErr, h.regs, h.w1done, h.bcnt, fun e => hm.clash (i := 14) rfl e, h.rc, h.log, h.integ, h.ctxs, h.ctxCore, h.parts, h.slices, h.queues, h.qctl, h.qfetch, h.qback, h.dbPend, h.qEnabled, h.dbDrop, h.hwin, h.cmds, h.ports, h.ops, h.wb, h.beats, h.busyBanks, h.clears, h.contracts, h.sync_waiters, h.movers, h.outbox, h.fab_reqs, h.ctl_pwr, h.ctl_rest, h.power, h.meter, h.scrub, h.test, h.keys, h.tdi, h.ready, h.qirq, h.works, h.outerCut, h.outerUsed, h.sync_rest, h.fab_rest⟩

theorem alters_set_bcnt {M : Nat} {r s : State} {x_bcnt : Nat} (h : Alters M r s) (hm : Within 8192 M) :
    AltersF M r (State.mk s.pending s.freeCtr s.nextId s.mem s.regs s.w1done x_bcnt s.bcRun s.rc s.log s.integ s.ctxs s.parts s.slices s.queues s.qctl s.qfetch s.qback s.dbPend s.qEnabled s.dbDrop s.qirq s.hwin s.cmds s.ports s.ops s.wb s.beats s.works s.outerCut s.outerUsed s.busyBanks s.clears s.contracts s.sync s.movers s.outbox s.fab s.ctl s.power s.meter s.scrub s.test s.keys s.tdi s.ready s.pp1 s.unconn s.cgrp s.nfab s.fstop) :=
  ⟨h.pending, h.pp1, h.unconn, h.cgrp, h.nfab, h.fstop, h.freeCtr, h.nextId, h.mem_data, h.mem_chk, h.mem_tag, h.mem_owed, h.mem_sys, h.mem_boot, h.mem_ext, h.mem_extPoison, h.mem_extErr, h.regs, h.w1done, fun e => hm.clash (i := 13) rfl e, h.bcRun, h.rc, h.log, h.integ, h.ctxs, h.ctxCore, h.parts, h.slices, h.queues, h.qctl, h.qfetch, h.qback, h.dbPend, h.qEnabled, h.dbDrop, h.hwin, h.cmds, h.ports, h.ops, h.wb, h.beats, h.busyBanks, h.clears, h.contracts, h.sync_waiters, h.movers, h.outbox, h.fab_reqs, h.ctl_pwr, h.ctl_rest, h.power, h.meter, h.scrub, h.test, h.keys, h.tdi, h.ready, h.qirq, h.works, h.outerCut, h.outerUsed, h.sync_rest, h.fab_rest⟩

theorem alters_set_beats {M : Nat} {r s : State} {x_beats : List Beat} (h : Alters M r s) (hm : Within 17179869184 M) :
    AltersF M r (State.mk s.pending s.freeCtr s.nextId s.mem s.regs s.w1done s.bcnt s.bcRun s.rc s.log s.integ s.ctxs s.parts s.slices s.queues s.qctl s.qfetch s.qback s.dbPend s.qEnabled s.dbDrop s.qirq s.hwin s.cmds s.ports s.ops s.wb x_beats s.works s.outerCut s.outerUsed s.busyBanks s.clears s.contracts s.sync s.movers s.outbox s.fab s.ctl s.power s.meter s.scrub s.test s.keys s.tdi s.ready s.pp1 s.unconn s.cgrp s.nfab s.fstop) :=
  ⟨h.pending, h.pp1, h.unconn, h.cgrp, h.nfab, h.fstop, h.freeCtr, h.nextId, h.mem_data, h.mem_chk, h.mem_tag, h.mem_owed, h.mem_sys, h.mem_boot, h.mem_ext, h.mem_extPoison, h.mem_extErr, h.regs, h.w1done, h.bcnt, h.bcRun, h.rc, h.log, h.integ, h.ctxs, h.ctxCore, h.parts, h.slices, h.queues, h.qctl, h.qfetch, h.qback, h.dbPend, h.qEnabled, h.dbDrop, h.hwin, h.cmds, h.ports, h.ops, h.wb, fun e => hm.clash (i := 34) rfl e, h.busyBanks, h.clears, h.contracts, h.sync_waiters, h.movers, h.outbox, h.fab_reqs, h.ctl_pwr, h.ctl_rest, h.power, h.meter, h.scrub, h.test, h.keys, h.tdi, h.ready, h.qirq, h.works, h.outerCut, h.outerUsed, h.sync_rest, h.fab_rest⟩

theorem alters_set_busyBanks {M : Nat} {r s : State} {x_busyBanks : List Nat} (h : Alters M r s) (hm : Within 34359738368 M) :
    AltersF M r (State.mk s.pending s.freeCtr s.nextId s.mem s.regs s.w1done s.bcnt s.bcRun s.rc s.log s.integ s.ctxs s.parts s.slices s.queues s.qctl s.qfetch s.qback s.dbPend s.qEnabled s.dbDrop s.qirq s.hwin s.cmds s.ports s.ops s.wb s.beats s.works s.outerCut s.outerUsed x_busyBanks s.clears s.contracts s.sync s.movers s.outbox s.fab s.ctl s.power s.meter s.scrub s.test s.keys s.tdi s.ready s.pp1 s.unconn s.cgrp s.nfab s.fstop) :=
  ⟨h.pending, h.pp1, h.unconn, h.cgrp, h.nfab, h.fstop, h.freeCtr, h.nextId, h.mem_data, h.mem_chk, h.mem_tag, h.mem_owed, h.mem_sys, h.mem_boot, h.mem_ext, h.mem_extPoison, h.mem_extErr, h.regs, h.w1done, h.bcnt, h.bcRun, h.rc, h.log, h.integ, h.ctxs, h.ctxCore, h.parts, h.slices, h.queues, h.qctl, h.qfetch, h.qback, h.dbPend, h.qEnabled, h.dbDrop, h.hwin, h.cmds, h.ports, h.ops, h.wb, h.beats, fun e => hm.clash (i := 35) rfl e, h.clears, h.contracts, h.sync_waiters, h.movers, h.outbox, h.fab_reqs, h.ctl_pwr, h.ctl_rest, h.power, h.meter, h.scrub, h.test, h.keys, h.tdi, h.ready, h.qirq, h.works, h.outerCut, h.outerUsed, h.sync_rest, h.fab_rest⟩

theorem alters_set_clears {M : Nat} {r s : State} {x_clears : List ClearJob} (h : Alters M r s) (hm : Within 68719476736 M) :
    AltersF M r (State.mk s.pending s.freeCtr s.nextId s.mem s.regs s.w1done s.bcnt s.bcRun s.rc s.log s.integ s.ctxs s.parts s.slices s.queues s.qctl s.qfetch s.qback s.dbPend s.qEnabled s.dbDrop s.qirq s.hwin s.cmds s.ports s.ops s.wb s.beats s.works s.outerCut s.outerUsed s.busyBanks x_clears s.contracts s.sync s.movers s.outbox s.fab s.ctl s.power s.meter s.scrub s.test s.keys s.tdi s.ready s.pp1 s.unconn s.cgrp s.nfab s.fstop) :=
  ⟨h.pending, h.pp1, h.unconn, h.cgrp, h.nfab, h.fstop, h.freeCtr, h.nextId, h.mem_data, h.mem_chk, h.mem_tag, h.mem_owed, h.mem_sys, h.mem_boot, h.mem_ext, h.mem_extPoison, h.mem_extErr, h.regs, h.w1done, h.bcnt, h.bcRun, h.rc, h.log, h.integ, h.ctxs, h.ctxCore, h.parts, h.slices, h.queues, h.qctl, h.qfetch, h.qback, h.dbPend, h.qEnabled, h.dbDrop, h.hwin, h.cmds, h.ports, h.ops, h.wb, h.beats, h.busyBanks, fun e => hm.clash (i := 36) rfl e, h.contracts, h.sync_waiters, h.movers, h.outbox, h.fab_reqs, h.ctl_pwr, h.ctl_rest, h.power, h.meter, h.scrub, h.test, h.keys, h.tdi, h.ready, h.qirq, h.works, h.outerCut, h.outerUsed, h.sync_rest, h.fab_rest⟩

theorem alters_set_cmds {M : Nat} {r s : State} {x_cmds : List Cmd} (h : Alters M r s) (hm : Within 1073741824 M) :
    AltersF M r (State.mk s.pending s.freeCtr s.nextId s.mem s.regs s.w1done s.bcnt s.bcRun s.rc s.log s.integ s.ctxs s.parts s.slices s.queues s.qctl s.qfetch s.qback s.dbPend s.qEnabled s.dbDrop s.qirq s.hwin x_cmds s.ports s.ops s.wb s.beats s.works s.outerCut s.outerUsed s.busyBanks s.clears s.contracts s.sync s.movers s.outbox s.fab s.ctl s.power s.meter s.scrub s.test s.keys s.tdi s.ready s.pp1 s.unconn s.cgrp s.nfab s.fstop) :=
  ⟨h.pending, h.pp1, h.unconn, h.cgrp, h.nfab, h.fstop, h.freeCtr, h.nextId, h.mem_data, h.mem_chk, h.mem_tag, h.mem_owed, h.mem_sys, h.mem_boot, h.mem_ext, h.mem_extPoison, h.mem_extErr, h.regs, h.w1done, h.bcnt, h.bcRun, h.rc, h.log, h.integ, h.ctxs, h.ctxCore, h.parts, h.slices, h.queues, h.qctl, h.qfetch, h.qback, h.dbPend, h.qEnabled, h.dbDrop, h.hwin, fun e => hm.clash (i := 30) rfl e, h.ports, h.ops, h.wb, h.beats, h.busyBanks, h.clears, h.contracts, h.sync_waiters, h.movers, h.outbox, h.fab_reqs, h.ctl_pwr, h.ctl_rest, h.power, h.meter, h.scrub, h.test, h.keys, h.tdi, h.ready, h.qirq, h.works, h.outerCut, h.outerUsed, h.sync_rest, h.fab_rest⟩

theorem alters_set_contracts {M : Nat} {r s : State} {x_contracts : List Contract} (h : Alters M r s) (hm : Within 137438953472 M) :
    AltersF M r (State.mk s.pending s.freeCtr s.nextId s.mem s.regs s.w1done s.bcnt s.bcRun s.rc s.log s.integ s.ctxs s.parts s.slices s.queues s.qctl s.qfetch s.qback s.dbPend s.qEnabled s.dbDrop s.qirq s.hwin s.cmds s.ports s.ops s.wb s.beats s.works s.outerCut s.outerUsed s.busyBanks s.clears x_contracts s.sync s.movers s.outbox s.fab s.ctl s.power s.meter s.scrub s.test s.keys s.tdi s.ready s.pp1 s.unconn s.cgrp s.nfab s.fstop) :=
  ⟨h.pending, h.pp1, h.unconn, h.cgrp, h.nfab, h.fstop, h.freeCtr, h.nextId, h.mem_data, h.mem_chk, h.mem_tag, h.mem_owed, h.mem_sys, h.mem_boot, h.mem_ext, h.mem_extPoison, h.mem_extErr, h.regs, h.w1done, h.bcnt, h.bcRun, h.rc, h.log, h.integ, h.ctxs, h.ctxCore, h.parts, h.slices, h.queues, h.qctl, h.qfetch, h.qback, h.dbPend, h.qEnabled, h.dbDrop, h.hwin, h.cmds, h.ports, h.ops, h.wb, h.beats, h.busyBanks, h.clears, fun e => hm.clash (i := 37) rfl e, h.sync_waiters, h.movers, h.outbox, h.fab_reqs, h.ctl_pwr, h.ctl_rest, h.power, h.meter, h.scrub, h.test, h.keys, h.tdi, h.ready, h.qirq, h.works, h.outerCut, h.outerUsed, h.sync_rest, h.fab_rest⟩

theorem alters_set_ctl {M : Nat} {r s : State} {x_ctl : CtlState} (h : Alters M r s) (h_ctl : CtlAlters M s.ctl x_ctl) :
    AltersF M r (State.mk s.pending s.freeCtr s.nextId s.mem s.regs s.w1done s.bcnt s.bcRun s.rc s.log s.integ s.ctxs s.parts s.slices s.queues s.qctl s.qfetch s.qback s.dbPend s.qEnabled s.dbDrop s.qirq s.hwin s.cmds s.ports s.ops s.wb s.beats s.works s.outerCut s.outerUsed s.busyBanks s.clears s.contracts s.sync s.movers s.outbox s.fab x_ctl s.power s.meter s.scrub s.test s.keys s.tdi s.ready s.pp1 s.unconn s.cgrp s.nfab s.fstop) :=
  ⟨h.pending, h.pp1, h.unconn, h.cgrp, h.nfab, h.fstop, h.freeCtr, h.nextId, h.mem_data, h.mem_chk, h.mem_tag, h.mem_owed, h.mem_sys, h.mem_boot, h.mem_ext, h.mem_extPoison, h.mem_extErr, h.regs, h.w1done, h.bcnt, h.bcRun, h.rc, h.log, h.integ, h.ctxs, h.ctxCore, h.parts, h.slices, h.queues, h.qctl, h.qfetch, h.qback, h.dbPend, h.qEnabled, h.dbDrop, h.hwin, h.cmds, h.ports, h.ops, h.wb, h.beats, h.busyBanks, h.clears, h.contracts, h.sync_waiters, h.movers, h.outbox, h.fab_reqs, fun e => (h_ctl.pwr e).trans (h.ctl_pwr e), fun e => (h_ctl.rest e).trans (h.ctl_rest e), h.power, h.meter, h.scrub, h.test, h.keys, h.tdi, h.ready, h.qirq, h.works, h.outerCut, h.outerUsed, h.sync_rest, h.fab_rest⟩

theorem alters_set_ctxs {M : Nat} {r s : State} {x_ctxs : NMap (Option Ctx)} (h : Alters M r s) (hm : Within 786432 M) :
    AltersF M r (State.mk s.pending s.freeCtr s.nextId s.mem s.regs s.w1done s.bcnt s.bcRun s.rc s.log s.integ x_ctxs s.parts s.slices s.queues s.qctl s.qfetch s.qback s.dbPend s.qEnabled s.dbDrop s.qirq s.hwin s.cmds s.ports s.ops s.wb s.beats s.works s.outerCut s.outerUsed s.busyBanks s.clears s.contracts s.sync s.movers s.outbox s.fab s.ctl s.power s.meter s.scrub s.test s.keys s.tdi s.ready s.pp1 s.unconn s.cgrp s.nfab s.fstop) :=
  ⟨h.pending, h.pp1, h.unconn, h.cgrp, h.nfab, h.fstop, h.freeCtr, h.nextId, h.mem_data, h.mem_chk, h.mem_tag, h.mem_owed, h.mem_sys, h.mem_boot, h.mem_ext, h.mem_extPoison, h.mem_extErr, h.regs, h.w1done, h.bcnt, h.bcRun, h.rc, h.log, h.integ, fun e => hm.clash (i := 18) rfl e, fun e => hm.clash (i := 19) rfl e, h.parts, h.slices, h.queues, h.qctl, h.qfetch, h.qback, h.dbPend, h.qEnabled, h.dbDrop, h.hwin, h.cmds, h.ports, h.ops, h.wb, h.beats, h.busyBanks, h.clears, h.contracts, h.sync_waiters, h.movers, h.outbox, h.fab_reqs, h.ctl_pwr, h.ctl_rest, h.power, h.meter, h.scrub, h.test, h.keys, h.tdi, h.ready, h.qirq, h.works, h.outerCut, h.outerUsed, h.sync_rest, h.fab_rest⟩

theorem alters_set_dbDrop {M : Nat} {r s : State} {x_dbDrop : NMap Nat} (h : Alters M r s) (hm : Within 268435456 M) :
    AltersF M r (State.mk s.pending s.freeCtr s.nextId s.mem s.regs s.w1done s.bcnt s.bcRun s.rc s.log s.integ s.ctxs s.parts s.slices s.queues s.qctl s.qfetch s.qback s.dbPend s.qEnabled x_dbDrop s.qirq s.hwin s.cmds s.ports s.ops s.wb s.beats s.works s.outerCut s.outerUsed s.busyBanks s.clears s.contracts s.sync s.movers s.outbox s.fab s.ctl s.power s.meter s.scrub s.test s.keys s.tdi s.ready s.pp1 s.unconn s.cgrp s.nfab s.fstop) :=
  ⟨h.pending, h.pp1, h.unconn, h.cgrp, h.nfab, h.fstop, h.freeCtr, h.nextId, h.mem_data, h.mem_chk, h.mem_tag, h.mem_owed, h.mem_sys, h.mem_boot, h.mem_ext, h.mem_extPoison, h.mem_extErr, h.regs, h.w1done, h.bcnt, h.bcRun, h.rc, h.log, h.integ, h.ctxs, h.ctxCore, h.parts, h.slices, h.queues, h.qctl, h.qfetch, h.qback, h.dbPend, h.qEnabled, fun e => hm.clash (i := 28) rfl e, h.hwin, h.cmds, h.ports, h.ops, h.wb, h.beats, h.busyBanks, h.clears, h.contracts, h.sync_waiters, h.movers, h.outbox, h.fab_reqs, h.ctl_pwr, h.ctl_rest, h.power, h.meter, h.scrub, h.test, h.keys, h.tdi, h.ready, h.qirq, h.works, h.outerCut, h.outerUsed, h.sync_rest, h.fab_rest⟩

theorem alters_set_dbPend {M : Nat} {r s : State} {x_dbPend : NMap Bool} (h : Alters M r s) (hm : Within 67108864 M) :
    AltersF M r (State.mk s.pending s.freeCtr s.nextId s.mem s.regs s.w1done s.bcnt s.bcRun s.rc s.log s.integ s.ctxs s.parts s.slices s.queues s.qctl s.qfetch s.qback x_dbPend s.qEnabled s.dbDrop s.qirq s.hwin s.cmds s.ports s.ops s.wb s.beats s.works s.outerCut s.outerUsed s.busyBanks s.clears s.contracts s.sync s.movers s.outbox s.fab s.ctl s.power s.meter s.scrub s.test s.keys s.tdi s.ready s.pp1 s.unconn s.cgrp s.nfab s.fstop) :=
  ⟨h.pending, h.pp1, h.unconn, h.cgrp, h.nfab, h.fstop, h.freeCtr, h.nextId, h.mem_data, h.mem_chk, h.mem_tag, h.mem_owed, h.mem_sys, h.mem_boot, h.mem_ext, h.mem_extPoison, h.mem_extErr, h.regs, h.w1done, h.bcnt, h.bcRun, h.rc, h.log, h.integ, h.ctxs, h.ctxCore, h.parts, h.slices, h.queues, h.qctl, h.qfetch, h.qback, fun e => hm.clash (i := 26) rfl e, h.qEnabled, h.dbDrop, h.hwin, h.cmds, h.ports, h.ops, h.wb, h.beats, h.busyBanks, h.clears, h.contracts, h.sync_waiters, h.movers, h.outbox, h.fab_reqs, h.ctl_pwr, h.ctl_rest, h.power, h.meter, h.scrub, h.test, h.keys, h.tdi, h.ready, h.qirq, h.works, h.outerCut, h.outerUsed, h.sync_rest, h.fab_rest⟩

theorem alters_set_fab {M : Nat} {r s : State} {x_fab : FabState} (h : Alters M r s) (h_fab : FabAlters M s.fab x_fab) :
    AltersF M r (State.mk s.pending s.freeCtr s.nextId s.mem s.regs s.w1done s.bcnt s.bcRun s.rc s.log s.integ s.ctxs s.parts s.slices s.queues s.qctl s.qfetch s.qback s.dbPend s.qEnabled s.dbDrop s.qirq s.hwin s.cmds s.ports s.ops s.wb s.beats s.works s.outerCut s.outerUsed s.busyBanks s.clears s.contracts s.sync s.movers s.outbox x_fab s.ctl s.power s.meter s.scrub s.test s.keys s.tdi s.ready s.pp1 s.unconn s.cgrp s.nfab s.fstop) :=
  ⟨h.pending, h.pp1, h.unconn, h.cgrp, h.nfab, h.fstop, h.freeCtr, h.nextId, h.mem_data, h.mem_chk, h.mem_tag, h.mem_owed, h.mem_sys, h.mem_boot, h.mem_ext, h.mem_extPoison, h.mem_extErr, h.regs, h.w1done, h.bcnt, h.bcRun, h.rc, h.log, h.integ, h.ctxs, h.ctxCore, h.parts, h.slices, h.queues, h.qctl, h.qfetch, h.qback, h.dbPend, h.qEnabled, h.dbDrop, h.hwin, h.cmds, h.ports, h.ops, h.wb, h.beats, h.busyBanks, h.clears, h.contracts, h.sync_waiters, h.movers, h.outbox, fun e => (h_fab.reqs e).trans (h.fab_reqs e), h.ctl_pwr, h.ctl_rest, h.power, h.meter, h.scrub, h.test, h.keys, h.tdi, h.ready, h.qirq, h.works, h.outerCut, h.outerUsed, h.sync_rest, fun e => (h_fab.rest e).trans (h.fab_rest e)⟩

theorem alters_set_freeCtr {M : Nat} {r s : State} {x_freeCtr : Nat} (h : Alters M r s) (hm : Within 1 M) :
    AltersF M r (State.mk s.pending x_freeCtr s.nextId s.mem s.regs s.w1done s.bcnt s.bcRun s.rc s.log s.integ s.ctxs s.parts s.slices s.queues s.qctl s.qfetch s.qback s.dbPend s.qEnabled s.dbDrop s.qirq s.hwin s.cmds s.ports s.ops s.wb s.beats s.works s.outerCut s.outerUsed s.busyBanks s.clears s.contracts s.sync s.movers s.outbox s.fab s.ctl s.power s.meter s.scrub s.test s.keys s.tdi s.ready s.pp1 s.unconn s.cgrp s.nfab s.fstop) :=
  ⟨h.pending, h.pp1, h.unconn, h.cgrp, h.nfab, h.fstop, fun e => hm.clash (i := 0) rfl e, h.nextId, h.mem_data, h.mem_chk, h.mem_tag, h.mem_owed, h.mem_sys, h.mem_boot, h.mem_ext, h.mem_extPoison, h.mem_extErr, h.regs, h.w1done, h.bcnt, h.bcRun, h.rc, h.log, h.integ, h.ctxs, h.ctxCore, h.parts, h.slices, h.queues, h.qctl, h.qfetch, h.qback, h.dbPend, h.qEnabled, h.dbDrop, h.hwin, h.cmds, h.ports, h.ops, h.wb, h.beats, h.busyBanks, h.clears, h.contracts, h.sync_waiters, h.movers, h.outbox, h.fab_reqs, h.ctl_pwr, h.ctl_rest, h.power, h.meter, h.scrub, h.test, h.keys, h.tdi, h.ready, h.qirq, h.works, h.outerCut, h.outerUsed, h.sync_rest, h.fab_rest⟩

theorem alters_set_hwin {M : Nat} {r s : State} {x_hwin : NMap DWord} (h : Alters M r s) (hm : Within 536870912 M) :
    AltersF M r (State.mk s.pending s.freeCtr s.nextId s.mem s.regs s.w1done s.bcnt s.bcRun s.rc s.log s.integ s.ctxs s.parts s.slices s.queues s.qctl s.qfetch s.qback s.dbPend s.qEnabled s.dbDrop s.qirq x_hwin s.cmds s.ports s.ops s.wb s.beats s.works s.outerCut s.outerUsed s.busyBanks s.clears s.contracts s.sync s.movers s.outbox s.fab s.ctl s.power s.meter s.scrub s.test s.keys s.tdi s.ready s.pp1 s.unconn s.cgrp s.nfab s.fstop) :=
  ⟨h.pending, h.pp1, h.unconn, h.cgrp, h.nfab, h.fstop, h.freeCtr, h.nextId, h.mem_data, h.mem_chk, h.mem_tag, h.mem_owed, h.mem_sys, h.mem_boot, h.mem_ext, h.mem_extPoison, h.mem_extErr, h.regs, h.w1done, h.bcnt, h.bcRun, h.rc, h.log, h.integ, h.ctxs, h.ctxCore, h.parts, h.slices, h.queues, h.qctl, h.qfetch, h.qback, h.dbPend, h.qEnabled, h.dbDrop, fun e => hm.clash (i := 29) rfl e, h.cmds, h.ports, h.ops, h.wb, h.beats, h.busyBanks, h.clears, h.contracts, h.sync_waiters, h.movers, h.outbox, h.fab_reqs, h.ctl_pwr, h.ctl_rest, h.power, h.meter, h.scrub, h.test, h.keys, h.tdi, h.ready, h.qirq, h.works, h.outerCut, h.outerUsed, h.sync_rest, h.fab_rest⟩

theorem alters_set_integ {M : Nat} {r s : State} {x_integ : NMap Nat} (h : Alters M r s) (hm : Within 131072 M) :
    AltersF M r (State.mk s.pending s.freeCtr s.nextId s.mem s.regs s.w1done s.bcnt s.bcRun s.rc s.log x_integ s.ctxs s.parts s.slices s.queues s.qctl s.qfetch s.qback s.dbPend s.qEnabled s.dbDrop s.qirq s.hwin s.cmds s.ports s.ops s.wb s.beats s.works s.outerCut s.outerUsed s.busyBanks s.clears s.contracts s.sync s.movers s.outbox s.fab s.ctl s.power s.meter s.scrub s.test s.keys s.tdi s.ready s.pp1 s.unconn s.cgrp s.nfab s.fstop) :=
  ⟨h.pending, h.pp1, h.unconn, h.cgrp, h.nfab, h.fstop, h.freeCtr, h.nextId, h.mem_data, h.mem_chk, h.mem_tag, h.mem_owed, h.mem_sys, h.mem_boot, h.mem_ext, h.mem_extPoison, h.mem_extErr, h.regs, h.w1done, h.bcnt, h.bcRun, h.rc, h.log, fun e => hm.clash (i := 17) rfl e, h.ctxs, h.ctxCore, h.parts, h.slices, h.queues, h.qctl, h.qfetch, h.qback, h.dbPend, h.qEnabled, h.dbDrop, h.hwin, h.cmds, h.ports, h.ops, h.wb, h.beats, h.busyBanks, h.clears, h.contracts, h.sync_waiters, h.movers, h.outbox, h.fab_reqs, h.ctl_pwr, h.ctl_rest, h.power, h.meter, h.scrub, h.test, h.keys, h.tdi, h.ready, h.qirq, h.works, h.outerCut, h.outerUsed, h.sync_rest, h.fab_rest⟩

theorem alters_set_keys {M : Nat} {r s : State} {x_keys : NMap (Option (Nat × Nat))} (h : Alters M r s) (hm : Within 281474976710656 M) :
    AltersF M r (State.mk s.pending s.freeCtr s.nextId s.mem s.regs s.w1done s.bcnt s.bcRun s.rc s.log s.integ s.ctxs s.parts s.slices s.queues s.qctl s.qfetch s.qback s.dbPend s.qEnabled s.dbDrop s.qirq s.hwin s.cmds s.ports s.ops s.wb s.beats s.works s.outerCut s.outerUsed s.busyBanks s.clears s.contracts s.sync s.movers s.outbox s.fab s.ctl s.power s.meter s.scrub s.test x_keys s.tdi s.ready s.pp1 s.unconn s.cgrp s.nfab s.fstop) :=
  ⟨h.pending, h.pp1, h.unconn, h.cgrp, h.nfab, h.fstop, h.freeCtr, h.nextId, h.mem_data, h.mem_chk, h.mem_tag, h.mem_owed, h.mem_sys, h.mem_boot, h.mem_ext, h.mem_extPoison, h.mem_extErr, h.regs, h.w1done, h.bcnt, h.bcRun, h.rc, h.log, h.integ, h.ctxs, h.ctxCore, h.parts, h.slices, h.queues, h.qctl, h.qfetch, h.qback, h.dbPend, h.qEnabled, h.dbDrop, h.hwin, h.cmds, h.ports, h.ops, h.wb, h.beats, h.busyBanks, h.clears, h.contracts, h.sync_waiters, h.movers, h.outbox, h.fab_reqs, h.ctl_pwr, h.ctl_rest, h.power, h.meter, h.scrub, h.test, fun e => hm.clash (i := 48) rfl e, h.tdi, h.ready, h.qirq, h.works, h.outerCut, h.outerUsed, h.sync_rest, h.fab_rest⟩

theorem alters_set_log {M : Nat} {r s : State} {x_log : LogState} (h : Alters M r s) (hm : Within 65536 M) :
    AltersF M r (State.mk s.pending s.freeCtr s.nextId s.mem s.regs s.w1done s.bcnt s.bcRun s.rc x_log s.integ s.ctxs s.parts s.slices s.queues s.qctl s.qfetch s.qback s.dbPend s.qEnabled s.dbDrop s.qirq s.hwin s.cmds s.ports s.ops s.wb s.beats s.works s.outerCut s.outerUsed s.busyBanks s.clears s.contracts s.sync s.movers s.outbox s.fab s.ctl s.power s.meter s.scrub s.test s.keys s.tdi s.ready s.pp1 s.unconn s.cgrp s.nfab s.fstop) :=
  ⟨h.pending, h.pp1, h.unconn, h.cgrp, h.nfab, h.fstop, h.freeCtr, h.nextId, h.mem_data, h.mem_chk, h.mem_tag, h.mem_owed, h.mem_sys, h.mem_boot, h.mem_ext, h.mem_extPoison, h.mem_extErr, h.regs, h.w1done, h.bcnt, h.bcRun, h.rc, fun e => hm.clash (i := 16) rfl e, h.integ, h.ctxs, h.ctxCore, h.parts, h.slices, h.queues, h.qctl, h.qfetch, h.qback, h.dbPend, h.qEnabled, h.dbDrop, h.hwin, h.cmds, h.ports, h.ops, h.wb, h.beats, h.busyBanks, h.clears, h.contracts, h.sync_waiters, h.movers, h.outbox, h.fab_reqs, h.ctl_pwr, h.ctl_rest, h.power, h.meter, h.scrub, h.test, h.keys, h.tdi, h.ready, h.qirq, h.works, h.outerCut, h.outerUsed, h.sync_rest, h.fab_rest⟩

theorem alters_set_mem {M : Nat} {r s : State} {x_mem : Mem} (h : Alters M r s) (hx : MemAlters M s.mem x_mem) :
    AltersF M r (State.mk s.pending s.freeCtr s.nextId x_mem s.regs s.w1done s.bcnt s.bcRun s.rc s.log s.integ s.ctxs s.parts s.slices s.queues s.qctl s.qfetch s.qback s.dbPend s.qEnabled s.dbDrop s.qirq s.hwin s.cmds s.ports s.ops s.wb s.beats s.works s.outerCut s.outerUsed s.busyBanks s.clears s.contracts s.sync s.movers s.outbox s.fab s.ctl s.power s.meter s.scrub s.test s.keys s.tdi s.ready s.pp1 s.unconn s.cgrp s.nfab s.fstop) :=
  ⟨h.pending, h.pp1, h.unconn, h.cgrp, h.nfab, h.fstop, h.freeCtr, h.nextId, fun e => (hx.data e).trans (h.mem_data e), fun e => (hx.chk e).trans (h.mem_chk e), fun e => (hx.tag e).trans (h.mem_tag e), fun e => (hx.owed e).trans (h.mem_owed e), fun e => (hx.sys e).trans (h.mem_sys e), fun e => (hx.boot e).trans (h.mem_boot e), fun e => (hx.ext e).trans (h.mem_ext e), fun e => (hx.extPoison e).trans (h.mem_extPoison e), fun e => (hx.extErr e).trans (h.mem_extErr e), h.regs, h.w1done, h.bcnt, h.bcRun, h.rc, h.log, h.integ, h.ctxs, h.ctxCore, h.parts, h.slices, h.queues, h.qctl, h.qfetch, h.qback, h.dbPend, h.qEnabled, h.dbDrop, h.hwin, h.cmds, h.ports, h.ops, h.wb, h.beats, h.busyBanks, h.clears, h.contracts, h.sync_waiters, h.movers, h.outbox, h.fab_reqs, h.ctl_pwr, h.ctl_rest, h.power, h.meter, h.scrub, h.test, h.keys, h.tdi, h.ready, h.qirq, h.works, h.outerCut, h.outerUsed, h.sync_rest, h.fab_rest⟩

theorem alters_set_meter {M : Nat} {r s : State} {x_meter : MeterState} (h : Alters M r s) (hm : Within 35184372088832 M) :
    AltersF M r (State.mk s.pending s.freeCtr s.nextId s.mem s.regs s.w1done s.bcnt s.bcRun s.rc s.log s.integ s.ctxs s.parts s.slices s.queues s.qctl s.qfetch s.qback s.dbPend s.qEnabled s.dbDrop s.qirq s.hwin s.cmds s.ports s.ops s.wb s.beats s.works s.outerCut s.outerUsed s.busyBanks s.clears s.contracts s.sync s.movers s.outbox s.fab s.ctl s.power x_meter s.scrub s.test s.keys s.tdi s.ready s.pp1 s.unconn s.cgrp s.nfab s.fstop) :=
  ⟨h.pending, h.pp1, h.unconn, h.cgrp, h.nfab, h.fstop, h.freeCtr, h.nextId, h.mem_data, h.mem_chk, h.mem_tag, h.mem_owed, h.mem_sys, h.mem_boot, h.mem_ext, h.mem_extPoison, h.mem_extErr, h.regs, h.w1done, h.bcnt, h.bcRun, h.rc, h.log, h.integ, h.ctxs, h.ctxCore, h.parts, h.slices, h.queues, h.qctl, h.qfetch, h.qback, h.dbPend, h.qEnabled, h.dbDrop, h.hwin, h.cmds, h.ports, h.ops, h.wb, h.beats, h.busyBanks, h.clears, h.contracts, h.sync_waiters, h.movers, h.outbox, h.fab_reqs, h.ctl_pwr, h.ctl_rest, h.power, fun e => hm.clash (i := 45) rfl e, h.scrub, h.test, h.keys, h.tdi, h.ready, h.qirq, h.works, h.outerCut, h.outerUsed, h.sync_rest, h.fab_rest⟩

theorem alters_set_movers {M : Nat} {r s : State} {x_movers : MoverState} (h : Alters M r s) (hm : Within 549755813888 M) :
    AltersF M r (State.mk s.pending s.freeCtr s.nextId s.mem s.regs s.w1done s.bcnt s.bcRun s.rc s.log s.integ s.ctxs s.parts s.slices s.queues s.qctl s.qfetch s.qback s.dbPend s.qEnabled s.dbDrop s.qirq s.hwin s.cmds s.ports s.ops s.wb s.beats s.works s.outerCut s.outerUsed s.busyBanks s.clears s.contracts s.sync x_movers s.outbox s.fab s.ctl s.power s.meter s.scrub s.test s.keys s.tdi s.ready s.pp1 s.unconn s.cgrp s.nfab s.fstop) :=
  ⟨h.pending, h.pp1, h.unconn, h.cgrp, h.nfab, h.fstop, h.freeCtr, h.nextId, h.mem_data, h.mem_chk, h.mem_tag, h.mem_owed, h.mem_sys, h.mem_boot, h.mem_ext, h.mem_extPoison, h.mem_extErr, h.regs, h.w1done, h.bcnt, h.bcRun, h.rc, h.log, h.integ, h.ctxs, h.ctxCore, h.parts, h.slices, h.queues, h.qctl, h.qfetch, h.qback, h.dbPend, h.qEnabled, h.dbDrop, h.hwin, h.cmds, h.ports, h.ops, h.wb, h.beats, h.busyBanks, h.clears, h.contracts, h.sync_waiters, fun e => hm.clash (i := 39) rfl e, h.outbox, h.fab_reqs, h.ctl_pwr, h.ctl_rest, h.power, h.meter, h.scrub, h.test, h.keys, h.tdi, h.ready, h.qirq, h.works, h.outerCut, h.outerUsed, h.sync_rest, h.fab_rest⟩

theorem alters_set_nextId {M : Nat} {r s : State} {x_nextId : Nat} (h : Alters M r s) (hm : Within 2 M) :
    AltersF M r (State.mk s.pending s.freeCtr x_nextId s.mem s.regs s.w1done s.bcnt s.bcRun s.rc s.log s.integ s.ctxs s.parts s.slices s.queues s.qctl s.qfetch s.qback s.dbPend s.qEnabled s.dbDrop s.qirq s.hwin s.cmds s.ports s.ops s.wb s.beats s.works s.outerCut s.outerUsed s.busyBanks s.clears s.contracts s.sync s.movers s.outbox s.fab s.ctl s.power s.meter s.scrub s.test s.keys s.tdi s.ready s.pp1 s.unconn s.cgrp s.nfab s.fstop) :=
  ⟨h.pending, h.pp1, h.unconn, h.cgrp, h.nfab, h.fstop, h.freeCtr, fun e => hm.clash (i := 1) rfl e, h.mem_data, h.mem_chk, h.mem_tag, h.mem_owed, h.mem_sys, h.mem_boot, h.mem_ext, h.mem_extPoison, h.mem_extErr, h.regs, h.w1done, h.bcnt, h.bcRun, h.rc, h.log, h.integ, h.ctxs, h.ctxCore, h.parts, h.slices, h.queues, h.qctl, h.qfetch, h.qback, h.dbPend, h.qEnabled, h.dbDrop, h.hwin, h.cmds, h.ports, h.ops, h.wb, h.beats, h.busyBanks, h.clears, h.contracts, h.sync_waiters, h.movers, h.outbox, h.fab_reqs, h.ctl_pwr, h.ctl_rest, h.power, h.meter, h.scrub, h.test, h.keys, h.tdi, h.ready, h.qirq, h.works, h.outerCut, h.outerUsed, h.sync_rest, h.fab_rest⟩

theorem alters_set_ops {M : Nat} {r s : State} {x_ops : List PortOp} (h : Alters M r s) (hm : Within 4294967296 M) :
    AltersF M r (State.mk s.pending s.freeCtr s.nextId s.mem s.regs s.w1done s.bcnt s.bcRun s.rc s.log s.integ s.ctxs s.parts s.slices s.queues s.qctl s.qfetch s.qback s.dbPend s.qEnabled s.dbDrop s.qirq s.hwin s.cmds s.ports x_ops s.wb s.beats s.works s.outerCut s.outerUsed s.busyBanks s.clears s.contracts s.sync s.movers s.outbox s.fab s.ctl s.power s.meter s.scrub s.test s.keys s.tdi s.ready s.pp1 s.unconn s.cgrp s.nfab s.fstop) :=
  ⟨h.pending, h.pp1, h.unconn, h.cgrp, h.nfab, h.fstop, h.freeCtr, h.nextId, h.mem_data, h.mem_chk, h.mem_tag, h.mem_owed, h.mem_sys, h.mem_boot, h.mem_ext, h.mem_extPoison, h.mem_extErr, h.regs, h.w1done, h.bcnt, h.bcRun, h.rc, h.log, h.integ, h.ctxs, h.ctxCore, h.parts, h.slices, h.queues, h.qctl, h.qfetch, h.qback, h.dbPend, h.qEnabled, h.dbDrop, h.hwin, h.cmds, h.ports, fun e => hm.clash (i := 32) rfl e, h.wb, h.beats, h.busyBanks, h.clears, h.contracts, h.sync_waiters, h.movers, h.outbox, h.fab_reqs, h.ctl_pwr, h.ctl_rest, h.power, h.meter, h.scrub, h.test, h.keys, h.tdi, h.ready, h.qirq, h.works, h.outerCut, h.outerUsed, h.sync_rest, h.fab_rest⟩

theorem alters_set_outbox {M : Nat} {r s : State} {x_outbox : List Out} (h : Alters M r s) (hm : Within 1099511627776 M) :
    AltersF M r (State.mk s.pending s.freeCtr s.nextId s.mem s.regs s.w1done s.bcnt s.bcRun s.rc s.log s.integ s.ctxs s.parts s.slices s.queues s.qctl s.qfetch s.qback s.dbPend s.qEnabled s.dbDrop s.qirq s.hwin s.cmds s.ports s.ops s.wb s.beats s.works s.outerCut s.outerUsed s.busyBanks s.clears s.contracts s.sync s.movers x_outbox s.fab s.ctl s.power s.meter s.scrub s.test s.keys s.tdi s.ready s.pp1 s.unconn s.cgrp s.nfab s.fstop) :=
  ⟨h.pending, h.pp1, h.unconn, h.cgrp, h.nfab, h.fstop, h.freeCtr, h.nextId, h.mem_data, h.mem_chk, h.mem_tag, h.mem_owed, h.mem_sys, h.mem_boot, h.mem_ext, h.mem_extPoison, h.mem_extErr, h.regs, h.w1done, h.bcnt, h.bcRun, h.rc, h.log, h.integ, h.ctxs, h.ctxCore, h.parts, h.slices, h.queues, h.qctl, h.qfetch, h.qback, h.dbPend, h.qEnabled, h.dbDrop, h.hwin, h.cmds, h.ports, h.ops, h.wb, h.beats, h.busyBanks, h.clears, h.contracts, h.sync_waiters, h.movers, fun e => hm.clash (i := 40) rfl e, h.fab_reqs, h.ctl_pwr, h.ctl_rest, h.power, h.meter, h.scrub, h.test, h.keys, h.tdi, h.ready, h.qirq, h.works, h.outerCut, h.outerUsed, h.sync_rest, h.fab_rest⟩

theorem alters_set_outerUsed {M : Nat} {r s : State} {x_outerUsed : NMap Nat} (h : Alters M r s) (hm : Within 18014398509481984 M) :
    AltersF M r (State.mk s.pending s.freeCtr s.nextId s.mem s.regs s.w1done s.bcnt s.bcRun s.rc s.log s.integ s.ctxs s.parts s.slices s.queues s.qctl s.qfetch s.qback s.dbPend s.qEnabled s.dbDrop s.qirq s.hwin s.cmds s.ports s.ops s.wb s.beats s.works s.outerCut x_outerUsed s.busyBanks s.clears s.contracts s.sync s.movers s.outbox s.fab s.ctl s.power s.meter s.scrub s.test s.keys s.tdi s.ready s.pp1 s.unconn s.cgrp s.nfab s.fstop) :=
  ⟨h.pending, h.pp1, h.unconn, h.cgrp, h.nfab, h.fstop, h.freeCtr, h.nextId, h.mem_data, h.mem_chk, h.mem_tag, h.mem_owed, h.mem_sys, h.mem_boot, h.mem_ext, h.mem_extPoison, h.mem_extErr, h.regs, h.w1done, h.bcnt, h.bcRun, h.rc, h.log, h.integ, h.ctxs, h.ctxCore, h.parts, h.slices, h.queues, h.qctl, h.qfetch, h.qback, h.dbPend, h.qEnabled, h.dbDrop, h.hwin, h.cmds, h.ports, h.ops, h.wb, h.beats, h.busyBanks, h.clears, h.contracts, h.sync_waiters, h.movers, h.outbox, h.fab_reqs, h.ctl_pwr, h.ctl_rest, h.power, h.meter, h.scrub, h.test, h.keys, h.tdi, h.ready, h.qirq, h.works, h.outerCut, fun e => hm.clash (i := 54) rfl e, h.sync_rest, h.fab_rest⟩

theorem alters_set_parts {M : Nat} {r s : State} {x_parts : NMap PartRec} (h : Alters M r s) (hm : Within 1048576 M) :
    AltersF M r (State.mk s.pending s.freeCtr s.nextId s.mem s.regs s.w1done s.bcnt s.bcRun s.rc s.log s.integ s.ctxs x_parts s.slices s.queues s.qctl s.qfetch s.qback s.dbPend s.qEnabled s.dbDrop s.qirq s.hwin s.cmds s.ports s.ops s.wb s.beats s.works s.outerCut s.outerUsed s.busyBanks s.clears s.contracts s.sync s.movers s.outbox s.fab s.ctl s.power s.meter s.scrub s.test s.keys s.tdi s.ready s.pp1 s.unconn s.cgrp s.nfab s.fstop) :=
  ⟨h.pending, h.pp1, h.unconn, h.cgrp, h.nfab, h.fstop, h.freeCtr, h.nextId, h.mem_data, h.mem_chk, h.mem_tag, h.mem_owed, h.mem_sys, h.mem_boot, h.mem_ext, h.mem_extPoison, h.mem_extErr, h.regs, h.w1done, h.bcnt, h.bcRun, h.rc, h.log, h.integ, h.ctxs, h.ctxCore, fun e => hm.clash (i := 20) rfl e, h.slices, h.queues, h.qctl, h.qfetch, h.qback, h.dbPend, h.qEnabled, h.dbDrop, h.hwin, h.cmds, h.ports, h.ops, h.wb, h.beats, h.busyBanks, h.clears, h.contracts, h.sync_waiters, h.movers, h.outbox, h.fab_reqs, h.ctl_pwr, h.ctl_rest, h.power, h.meter, h.scrub, h.test, h.keys, h.tdi, h.ready, h.qirq, h.works, h.outerCut, h.outerUsed, h.sync_rest, h.fab_rest⟩

theorem alters_set_ports {M : Nat} {r s : State} {x_ports : NMap PortRec} (h : Alters M r s) (hm : Within 2147483648 M) :
    AltersF M r (State.mk s.pending s.freeCtr s.nextId s.mem s.regs s.w1done s.bcnt s.bcRun s.rc s.log s.integ s.ctxs s.parts s.slices s.queues s.qctl s.qfetch s.qback s.dbPend s.qEnabled s.dbDrop s.qirq s.hwin s.cmds x_ports s.ops s.wb s.beats s.works s.outerCut s.outerUsed s.busyBanks s.clears s.contracts s.sync s.movers s.outbox s.fab s.ctl s.power s.meter s.scrub s.test s.keys s.tdi s.ready s.pp1 s.unconn s.cgrp s.nfab s.fstop) :=
  ⟨h.pending, h.pp1, h.unconn, h.cgrp, h.nfab, h.fstop, h.freeCtr, h.nextId, h.mem_data, h.mem_chk, h.mem_tag, h.mem_owed, h.mem_sys, h.mem_boot, h.mem_ext, h.mem_extPoison, h.mem_extErr, h.regs, h.w1done, h.bcnt, h.bcRun, h.rc, h.log, h.integ, h.ctxs, h.ctxCore, h.parts, h.slices, h.queues, h.qctl, h.qfetch, h.qback, h.dbPend, h.qEnabled, h.dbDrop, h.hwin, h.cmds, fun e => hm.clash (i := 31) rfl e, h.ops, h.wb, h.beats, h.busyBanks, h.clears, h.contracts, h.sync_waiters, h.movers, h.outbox, h.fab_reqs, h.ctl_pwr, h.ctl_rest, h.power, h.meter, h.scrub, h.test, h.keys, h.tdi, h.ready, h.qirq, h.works, h.outerCut, h.outerUsed, h.sync_rest, h.fab_rest⟩

theorem alters_set_power {M : Nat} {r s : State} {x_power : PowerState} (h : Alters M r s) (hm : Within 17592186044416 M) :
    AltersF M r (State.mk s.pending s.freeCtr s.nextId s.mem s.regs s.w1done s.bcnt s.bcRun s.rc s.log s.integ s.ctxs s.parts s.slices s.queues s.qctl s.qfetch s.qback s.dbPend s.qEnabled s.dbDrop s.qirq s.hwin s.cmds s.ports s.ops s.wb s.beats s.works s.outerCut s.outerUsed s.busyBanks s.clears s.contracts s.sync s.movers s.outbox s.fab s.ctl x_power s.meter s.scrub s.test s.keys s.tdi s.ready s.pp1 s.unconn s.cgrp s.nfab s.fstop) :=
  ⟨h.pending, h.pp1, h.unconn, h.cgrp, h.nfab, h.fstop, h.freeCtr, h.nextId, h.mem_data, h.mem_chk, h.mem_tag, h.mem_owed, h.mem_sys, h.mem_boot, h.mem_ext, h.mem_extPoison, h.mem_extErr, h.regs, h.w1done, h.bcnt, h.bcRun, h.rc, h.log, h.integ, h.ctxs, h.ctxCore, h.parts, h.slices, h.queues, h.qctl, h.qfetch, h.qback, h.dbPend, h.qEnabled, h.dbDrop, h.hwin, h.cmds, h.ports, h.ops, h.wb, h.beats, h.busyBanks, h.clears, h.contracts, h.sync_waiters, h.movers, h.outbox, h.fab_reqs, h.ctl_pwr, h.ctl_rest, fun e => hm.clash (i := 44) rfl e, h.meter, h.scrub, h.test, h.keys, h.tdi, h.ready, h.qirq, h.works, h.outerCut, h.outerUsed, h.sync_rest, h.fab_rest⟩

theorem alters_set_qEnabled {M : Nat} {r s : State} {x_qEnabled : NMap Bool} (h : Alters M r s) (hm : Within 134217728 M) :
    AltersF M r (State.mk s.pending s.freeCtr s.nextId s.mem s.regs s.w1done s.bcnt s.bcRun s.rc s.log s.integ s.ctxs s.parts s.slices s.queues s.qctl s.qfetch s.qback s.dbPend x_qEnabled s.dbDrop s.qirq s.hwin s.cmds s.ports s.ops s.wb s.beats s.works s.outerCut s.outerUsed s.busyBanks s.clears s.contracts s.sync s.movers s.outbox s.fab s.ctl s.power s.meter s.scrub s.test s.keys s.tdi s.ready s.pp1 s.unconn s.cgrp s.nfab s.fstop) :=
  ⟨h.pending, h.pp1, h.unconn, h.cgrp, h.nfab, h.fstop, h.freeCtr, h.nextId, h.mem_data, h.mem_chk, h.mem_tag, h.mem_owed, h.mem_sys, h.mem_boot, h.mem_ext, h.mem_extPoison, h.mem_extErr, h.regs, h.w1done, h.bcnt, h.bcRun, h.rc, h.log, h.integ, h.ctxs, h.ctxCore, h.parts, h.slices, h.queues, h.qctl, h.qfetch, h.qback, h.dbPend, fun e => hm.clash (i := 27) rfl e, h.dbDrop, h.hwin, h.cmds, h.ports, h.ops, h.wb, h.beats, h.busyBanks, h.clears, h.contracts, h.sync_waiters, h.movers, h.outbox, h.fab_reqs, h.ctl_pwr, h.ctl_rest, h.power, h.meter, h.scrub, h.test, h.keys, h.tdi, h.ready, h.qirq, h.works, h.outerCut, h.outerUsed, h.sync_rest, h.fab_rest⟩

theorem alters_set_qback {M : Nat} {r s : State} {x_qback : List (Nat × List Word)} (h : Alters M r s) (hm : Within 33554432 M) :
    AltersF M r (State.mk s.pending s.freeCtr s.nextId s.mem s.regs s.w1done s.bcnt s.bcRun s.rc s.log s.integ s.ctxs s.parts s.slices s.queues s.qctl s.qfetch x_qback s.dbPend s.qEnabled s.dbDrop s.qirq s.hwin s.cmds s.ports s.ops s.wb s.beats s.works s.outerCut s.outerUsed s.busyBanks s.clears s.contracts s.sync s.movers s.outbox s.fab s.ctl s.power s.meter s.scrub s.test s.keys s.tdi s.ready s.pp1 s.unconn s.cgrp s.nfab s.fstop) :=
  ⟨h.pending, h.pp1, h.unconn, h.cgrp, h.nfab, h.fstop, h.freeCtr, h.nextId, h.mem_data, h.mem_chk, h.mem_tag, h.mem_owed, h.mem_sys, h.mem_boot, h.mem_ext, h.mem_extPoison, h.mem_extErr, h.regs, h.w1done, h.bcnt, h.bcRun, h.rc, h.log, h.integ, h.ctxs, h.ctxCore, h.parts, h.slices, h.queues, h.qctl, h.qfetch, fun e => hm.clash (i := 25) rfl e, h.dbPend, h.qEnabled, h.dbDrop, h.hwin, h.cmds, h.ports, h.ops, h.wb, h.beats, h.busyBanks, h.clears, h.contracts, h.sync_waiters, h.movers, h.outbox, h.fab_reqs, h.ctl_pwr, h.ctl_rest, h.power, h.meter, h.scrub, h.test, h.keys, h.tdi, h.ready, h.qirq, h.works, h.outerCut, h.outerUsed, h.sync_rest, h.fab_rest⟩

theorem alters_set_qctl {M : Nat} {r s : State} {x_qctl : NMap QctlRec} (h : Alters M r s) (hm : Within 8388608 M) :
    AltersF M r (State.mk s.pending s.freeCtr s.nextId s.mem s.regs s.w1done s.bcnt s.bcRun s.rc s.log s.integ s.ctxs s.parts s.slices s.queues x_qctl s.qfetch s.qback s.dbPend s.qEnabled s.dbDrop s.qirq s.hwin s.cmds s.ports s.ops s.wb s.beats s.works s.outerCut s.outerUsed s.busyBanks s.clears s.contracts s.sync s.movers s.outbox s.fab s.ctl s.power s.meter s.scrub s.test s.keys s.tdi s.ready s.pp1 s.unconn s.cgrp s.nfab s.fstop) :=
  ⟨h.pending, h.pp1, h.unconn, h.cgrp, h.nfab, h.fstop, h.freeCtr, h.nextId, h.mem_data, h.mem_chk, h.mem_tag, h.mem_owed, h.mem_sys, h.mem_boot, h.mem_ext, h.mem_extPoison, h.mem_extErr, h.regs, h.w1done, h.bcnt, h.bcRun, h.rc, h.log, h.integ, h.ctxs, h.ctxCore, h.parts, h.slices, h.queues, fun e => hm.clash (i := 23) rfl e, h.qfetch, h.qback, h.dbPend, h.qEnabled, h.dbDrop, h.hwin, h.cmds, h.ports, h.ops, h.wb, h.beats, h.busyBanks, h.clears, h.contracts, h.sync_waiters, h.movers, h.outbox, h.fab_reqs, h.ctl_pwr, h.ctl_rest, h.power, h.meter, h.scrub, h.test, h.keys, h.tdi, h.ready, h.qirq, h.works, h.outerCut, h.outerUsed, h.sync_rest, h.fab_rest⟩

theorem alters_set_qfetch {M : Nat} {r s : State} {x_qfetch : List (Nat × FetchFor)} (h : Alters M r s) (hm : Within 16777216 M) :
    AltersF M r (State.mk s.pending s.freeCtr s.nextId s.mem s.regs s.w1done s.bcnt s.bcRun s.rc s.log s.integ s.ctxs s.parts s.slices s.queues s.qctl x_qfetch s.qback s.dbPend s.qEnabled s.dbDrop s.qirq s.hwin s.cmds s.ports s.ops s.wb s.beats s.works s.outerCut s.outerUsed s.busyBanks s.clears s.contracts s.sync s.movers s.outbox s.fab s.ctl s.power s.meter s.scrub s.test s.keys s.tdi s.ready s.pp1 s.unconn s.cgrp s.nfab s.fstop) :=
  ⟨h.pending, h.pp1, h.unconn, h.cgrp, h.nfab, h.fstop, h.freeCtr, h.nextId, h.mem_data, h.mem_chk, h.mem_tag, h.mem_owed, h.mem_sys, h.mem_boot, h.mem_ext, h.mem_extPoison, h.mem_extErr, h.regs, h.w1done, h.bcnt, h.bcRun, h.rc, h.log, h.integ, h.ctxs, h.ctxCore, h.parts, h.slices, h.queues, h.qctl, fun e => hm.clash (i := 24) rfl e, h.qback, h.dbPend, h.qEnabled, h.dbDrop, h.hwin, h.cmds, h.ports, h.ops, h.wb, h.beats, h.busyBanks, h.clears, h.contracts, h.sync_waiters, h.movers, h.outbox, h.fab_reqs, h.ctl_pwr, h.ctl_rest, h.power, h.meter, h.scrub, h.test, h.keys, h.tdi, h.ready, h.qirq, h.works, h.outerCut, h.outerUsed, h.sync_rest, h.fab_rest⟩

theorem alters_set_qirq {M : Nat} {r s : State} {x_qirq : NMap QIrq} (h : Alters M r s) (hm : Within 2251799813685248 M) :
    AltersF M r (State.mk s.pending s.freeCtr s.nextId s.mem s.regs s.w1done s.bcnt s.bcRun s.rc s.log s.integ s.ctxs s.parts s.slices s.queues s.qctl s.qfetch s.qback s.dbPend s.qEnabled s.dbDrop x_qirq s.hwin s.cmds s.ports s.ops s.wb s.beats s.works s.outerCut s.outerUsed s.busyBanks s.clears s.contracts s.sync s.movers s.outbox s.fab s.ctl s.power s.meter s.scrub s.test s.keys s.tdi s.ready s.pp1 s.unconn s.cgrp s.nfab s.fstop) :=
  ⟨h.pending, h.pp1, h.unconn, h.cgrp, h.nfab, h.fstop, h.freeCtr, h.nextId, h.mem_data, h.mem_chk, h.mem_tag, h.mem_owed, h.mem_sys, h.mem_boot, h.mem_ext, h.mem_extPoison, h.mem_extErr, h.regs, h.w1done, h.bcnt, h.bcRun, h.rc, h.log, h.integ, h.ctxs, h.ctxCore, h.parts, h.slices, h.queues, h.qctl, h.qfetch, h.qback, h.dbPend, h.qEnabled, h.dbDrop, h.hwin, h.cmds, h.ports, h.ops, h.wb, h.beats, h.busyBanks, h.clears, h.contracts, h.sync_waiters, h.movers, h.outbox, h.fab_reqs, h.ctl_pwr, h.ctl_rest, h.power, h.meter, h.scrub, h.test, h.keys, h.tdi, h.ready, fun e => hm.clash (i := 51) rfl e, h.works, h.outerCut, h.outerUsed, h.sync_rest, h.fab_rest⟩

theorem alters_set_queues {M : Nat} {r s : State} {x_queues : NMap (Option QueueRec)} (h : Alters M r s) (hm : Within 4194304 M) :
    AltersF M r (State.mk s.pending s.freeCtr s.nextId s.mem s.regs s.w1done s.bcnt s.bcRun s.rc s.log s.integ s.ctxs s.parts s.slices x_queues s.qctl s.qfetch s.qback s.dbPend s.qEnabled s.dbDrop s.qirq s.hwin s.cmds s.ports s.ops s.wb s.beats s.works s.outerCut s.outerUsed s.busyBanks s.clears s.contracts s.sync s.movers s.outbox s.fab s.ctl s.power s.meter s.scrub s.test s.keys s.tdi s.ready s.pp1 s.unconn s.cgrp s.nfab s.fstop) :=
  ⟨h.pending, h.pp1, h.unconn, h.cgrp, h.nfab, h.fstop, h.freeCtr, h.nextId, h.mem_data, h.mem_chk, h.mem_tag, h.mem_owed, h.mem_sys, h.mem_boot, h.mem_ext, h.mem_extPoison, h.mem_extErr, h.regs, h.w1done, h.bcnt, h.bcRun, h.rc, h.log, h.integ, h.ctxs, h.ctxCore, h.parts, h.slices, fun e => hm.clash (i := 22) rfl e, h.qctl, h.qfetch, h.qback, h.dbPend, h.qEnabled, h.dbDrop, h.hwin, h.cmds, h.ports, h.ops, h.wb, h.beats, h.busyBanks, h.clears, h.contracts, h.sync_waiters, h.movers, h.outbox, h.fab_reqs, h.ctl_pwr, h.ctl_rest, h.power, h.meter, h.scrub, h.test, h.keys, h.tdi, h.ready, h.qirq, h.works, h.outerCut, h.outerUsed, h.sync_rest, h.fab_rest⟩

theorem alters_set_rc {M : Nat} {r s : State} {x_rc : Nat} (h : Alters M r s) (hm : Within 32768 M) :
    AltersF M r (State.mk s.pending s.freeCtr s.nextId s.mem s.regs s.w1done s.bcnt s.bcRun x_rc s.log s.integ s.ctxs s.parts s.slices s.queues s.qctl s.qfetch s.qback s.dbPend s.qEnabled s.dbDrop s.qirq s.hwin s.cmds s.ports s.ops s.wb s.beats s.works s.outerCut s.outerUsed s.busyBanks s.clears s.contracts s.sync s.movers s.outbox s.fab s.ctl s.power s.meter s.scrub s.test s.keys s.tdi s.ready s.pp1 s.unconn s.cgrp s.nfab s.fstop) :=
  ⟨h.pending, h.pp1, h.unconn, h.cgrp, h.nfab, h.fstop, h.freeCtr, h.nextId, h.mem_data, h.mem_chk, h.mem_tag, h.mem_owed, h.mem_sys, h.mem_boot, h.mem_ext, h.mem_extPoison, h.mem_extErr, h.regs, h.w1done, h.bcnt, h.bcRun, fun e => hm.clash (i := 15) rfl e, h.log, h.integ, h.ctxs, h.ctxCore, h.parts, h.slices, h.queues, h.qctl, h.qfetch, h.qback, h.dbPend, h.qEnabled, h.dbDrop, h.hwin, h.cmds, h.ports, h.ops, h.wb, h.beats, h.busyBanks, h.clears, h.contracts, h.sync_waiters, h.movers, h.outbox, h.fab_reqs, h.ctl_pwr, h.ctl_rest, h.power, h.meter, h.scrub, h.test, h.keys, h.tdi, h.ready, h.qirq, h.works, h.outerCut, h.outerUsed, h.sync_rest, h.fab_rest⟩

theorem alters_set_ready {M : Nat} {r s : State} {x_ready : NMap Bool} (h : Alters M r s) (hm : Within 1125899906842624 M) :
    AltersF M r (State.mk s.pending s.freeCtr s.nextId s.mem s.regs s.w1done s.bcnt s.bcRun s.rc s.log s.integ s.ctxs s.parts s.slices s.queues s.qctl s.qfetch s.qback s.dbPend s.qEnabled s.dbDrop s.qirq s.hwin s.cmds s.ports s.ops s.wb s.beats s.works s.outerCut s.outerUsed s.busyBanks s.clears s.contracts s.sync s.movers s.outbox s.fab s.ctl s.power s.meter s.scrub s.test s.keys s.tdi x_ready s.pp1 s.unconn s.cgrp s.nfab s.fstop) :=
  ⟨h.pending, h.pp1, h.unconn, h.cgrp, h.nfab, h.fstop, h.freeCtr, h.nextId, h.mem_data, h.mem_chk, h.mem_tag, h.mem_owed, h.mem_sys, h.mem_boot, h.mem_ext, h.mem_extPoison, h.mem_extErr, h.regs, h.w1done, h.bcnt, h.bcRun, h.rc, h.log, h.integ, h.ctxs, h.ctxCore, h.parts, h.slices, h.queues, h.qctl, h.qfetch, h.qback, h.dbPend, h.qEnabled, h.dbDrop, h.hwin, h.cmds, h.ports, h.ops, h.wb, h.beats, h.busyBanks, h.clears, h.contracts, h.sync_waiters, h.movers, h.outbox, h.fab_reqs, h.ctl_pwr, h.ctl_rest, h.power, h.meter, h.scrub, h.test, h.keys, h.tdi, fun e => hm.clash (i := 50) rfl e, h.qirq, h.works, h.outerCut, h.outerUsed, h.sync_rest, h.fab_rest⟩

theorem alters_set_regs {M : Nat} {r s : State} {x_regs : NMap Word} (h : Alters M r s) (hm : Within 2048 M) :
    AltersF M r (State.mk s.pending s.freeCtr s.nextId s.mem x_regs s.w1done s.bcnt s.bcRun s.rc s.log s.integ s.ctxs s.parts s.slices s.queues s.qctl s.qfetch s.qback s.dbPend s.qEnabled s.dbDrop s.qirq s.hwin s.cmds s.ports s.ops s.wb s.beats s.works s.outerCut s.outerUsed s.busyBanks s.clears s.contracts s.sync s.movers s.outbox s.fab s.ctl s.power s.meter s.scrub s.test s.keys s.tdi s.ready s.pp1 s.unconn s.cgrp s.nfab s.fstop) :=
  ⟨h.pending, h.pp1, h.unconn, h.cgrp, h.nfab, h.fstop, h.freeCtr, h.nextId, h.mem_data, h.mem_chk, h.mem_tag, h.mem_owed, h.mem_sys, h.mem_boot, h.mem_ext, h.mem_extPoison, h.mem_extErr, fun e => hm.clash (i := 11) rfl e, h.w1done, h.bcnt, h.bcRun, h.rc, h.log, h.integ, h.ctxs, h.ctxCore, h.parts, h.slices, h.queues, h.qctl, h.qfetch, h.qback, h.dbPend, h.qEnabled, h.dbDrop, h.hwin, h.cmds, h.ports, h.ops, h.wb, h.beats, h.busyBanks, h.clears, h.contracts, h.sync_waiters, h.movers, h.outbox, h.fab_reqs, h.ctl_pwr, h.ctl_rest, h.power, h.meter, h.scrub, h.test, h.keys, h.tdi, h.ready, h.qirq, h.works, h.outerCut, h.outerUsed, h.sync_rest, h.fab_rest⟩

theorem alters_set_scrub {M : Nat} {r s : State} {x_scrub : ScrubState} (h : Alters M r s) (hm : Within 70368744177664 M) :
    AltersF M r (State.mk s.pending s.freeCtr s.nextId s.mem s.regs s.w1done s.bcnt s.bcRun s.rc s.log s.integ s.ctxs s.parts s.slices s.queues s.qctl s.qfetch s.qback s.dbPend s.qEnabled s.dbDrop s.qirq s.hwin s.cmds s.ports s.ops s.wb s.beats s.works s.outerCut s.outerUsed s.busyBanks s.clears s.contracts s.sync s.movers s.outbox s.fab s.ctl s.power s.meter x_scrub s.test s.keys s.tdi s.ready s.pp1 s.unconn s.cgrp s.nfab s.fstop) :=
  ⟨h.pending, h.pp1, h.unconn, h.cgrp, h.nfab, h.fstop, h.freeCtr, h.nextId, h.mem_data, h.mem_chk, h.mem_tag, h.mem_owed, h.mem_sys, h.mem_boot, h.mem_ext, h.mem_extPoison, h.mem_extErr, h.regs, h.w1done, h.bcnt, h.bcRun, h.rc, h.log, h.integ, h.ctxs, h.ctxCore, h.parts, h.slices, h.queues, h.qctl, h.qfetch, h.qback, h.dbPend, h.qEnabled, h.dbDrop, h.hwin, h.cmds, h.ports, h.ops, h.wb, h.beats, h.busyBanks, h.clears, h.contracts, h.sync_waiters, h.movers, h.outbox, h.fab_reqs, h.ctl_pwr, h.ctl_rest, h.power, h.meter, fun e => hm.clash (i := 46) rfl e, h.test, h.keys, h.tdi, h.ready, h.qirq, h.works, h.outerCut, h.outerUsed, h.sync_rest, h.fab_rest⟩

theorem alters_set_slices {M : Nat} {r s : State} {x_slices : NMap SliceRec} (h : Alters M r s) (hm : Within 2097152 M) :
    AltersF M r (State.mk s.pending s.freeCtr s.nextId s.mem s.regs s.w1done s.bcnt s.bcRun s.rc s.log s.integ s.ctxs s.parts x_slices s.queues s.qctl s.qfetch s.qback s.dbPend s.qEnabled s.dbDrop s.qirq s.hwin s.cmds s.ports s.ops s.wb s.beats s.works s.outerCut s.outerUsed s.busyBanks s.clears s.contracts s.sync s.movers s.outbox s.fab s.ctl s.power s.meter s.scrub s.test s.keys s.tdi s.ready s.pp1 s.unconn s.cgrp s.nfab s.fstop) :=
  ⟨h.pending, h.pp1, h.unconn, h.cgrp, h.nfab, h.fstop, h.freeCtr, h.nextId, h.mem_data, h.mem_chk, h.mem_tag, h.mem_owed, h.mem_sys, h.mem_boot, h.mem_ext, h.mem_extPoison, h.mem_extErr, h.regs, h.w1done, h.bcnt, h.bcRun, h.rc, h.log, h.integ, h.ctxs, h.ctxCore, h.parts, fun e => hm.clash (i := 21) rfl e, h.queues, h.qctl, h.qfetch, h.qback, h.dbPend, h.qEnabled, h.dbDrop, h.hwin, h.cmds, h.ports, h.ops, h.wb, h.beats, h.busyBanks, h.clears, h.contracts, h.sync_waiters, h.movers, h.outbox, h.fab_reqs, h.ctl_pwr, h.ctl_rest, h.power, h.meter, h.scrub, h.test, h.keys, h.tdi, h.ready, h.qirq, h.works, h.outerCut, h.outerUsed, h.sync_rest, h.fab_rest⟩

theorem alters_set_sync {M : Nat} {r s : State} {x_sync : SyncState} (h : Alters M r s) (h_sync : SyncAlters M s.sync x_sync) :
    AltersF M r (State.mk s.pending s.freeCtr s.nextId s.mem s.regs s.w1done s.bcnt s.bcRun s.rc s.log s.integ s.ctxs s.parts s.slices s.queues s.qctl s.qfetch s.qback s.dbPend s.qEnabled s.dbDrop s.qirq s.hwin s.cmds s.ports s.ops s.wb s.beats s.works s.outerCut s.outerUsed s.busyBanks s.clears s.contracts x_sync s.movers s.outbox s.fab s.ctl s.power s.meter s.scrub s.test s.keys s.tdi s.ready s.pp1 s.unconn s.cgrp s.nfab s.fstop) :=
  ⟨h.pending, h.pp1, h.unconn, h.cgrp, h.nfab, h.fstop, h.freeCtr, h.nextId, h.mem_data, h.mem_chk, h.mem_tag, h.mem_owed, h.mem_sys, h.mem_boot, h.mem_ext, h.mem_extPoison, h.mem_extErr, h.regs, h.w1done, h.bcnt, h.bcRun, h.rc, h.log, h.integ, h.ctxs, h.ctxCore, h.parts, h.slices, h.queues, h.qctl, h.qfetch, h.qback, h.dbPend, h.qEnabled, h.dbDrop, h.hwin, h.cmds, h.ports, h.ops, h.wb, h.beats, h.busyBanks, h.clears, h.contracts, fun e => (h_sync.waiters e).trans (h.sync_waiters e), h.movers, h.outbox, h.fab_reqs, h.ctl_pwr, h.ctl_rest, h.power, h.meter, h.scrub, h.test, h.keys, h.tdi, h.ready, h.qirq, h.works, h.outerCut, h.outerUsed, fun e => (h_sync.rest e).trans (h.sync_rest e), h.fab_rest⟩

theorem alters_set_tdi {M : Nat} {r s : State} {x_tdi : NMap Nat} (h : Alters M r s) (hm : Within 562949953421312 M) :
    AltersF M r (State.mk s.pending s.freeCtr s.nextId s.mem s.regs s.w1done s.bcnt s.bcRun s.rc s.log s.integ s.ctxs s.parts s.slices s.queues s.qctl s.qfetch s.qback s.dbPend s.qEnabled s.dbDrop s.qirq s.hwin s.cmds s.ports s.ops s.wb s.beats s.works s.outerCut s.outerUsed s.busyBanks s.clears s.contracts s.sync s.movers s.outbox s.fab s.ctl s.power s.meter s.scrub s.test s.keys x_tdi s.ready s.pp1 s.unconn s.cgrp s.nfab s.fstop) :=
  ⟨h.pending, h.pp1, h.unconn, h.cgrp, h.nfab, h.fstop, h.freeCtr, h.nextId, h.mem_data, h.mem_chk, h.mem_tag, h.mem_owed, h.mem_sys, h.mem_boot, h.mem_ext, h.mem_extPoison, h.mem_extErr, h.regs, h.w1done, h.bcnt, h.bcRun, h.rc, h.log, h.integ, h.ctxs, h.ctxCore, h.parts, h.slices, h.queues, h.qctl, h.qfetch, h.qback, h.dbPend, h.qEnabled, h.dbDrop, h.hwin, h.cmds, h.ports, h.ops, h.wb, h.beats, h.busyBanks, h.clears, h.contracts, h.sync_waiters, h.movers, h.outbox, h.fab_reqs, h.ctl_pwr, h.ctl_rest, h.power, h.meter, h.scrub, h.test, h.keys, fun e => hm.clash (i := 49) rfl e, h.ready, h.qirq, h.works, h.outerCut, h.outerUsed, h.sync_rest, h.fab_rest⟩

theorem alters_set_test {M : Nat} {r s : State} {x_test : TestState} (h : Alters M r s) (hm : Within 140737488355328 M) :
    AltersF M r (State.mk s.pending s.freeCtr s.nextId s.mem s.regs s.w1done s.bcnt s.bcRun s.rc s.log s.integ s.ctxs s.parts s.slices s.queues s.qctl s.qfetch s.qback s.dbPend s.qEnabled s.dbDrop s.qirq s.hwin s.cmds s.ports s.ops s.wb s.beats s.works s.outerCut s.outerUsed s.busyBanks s.clears s.contracts s.sync s.movers s.outbox s.fab s.ctl s.power s.meter s.scrub x_test s.keys s.tdi s.ready s.pp1 s.unconn s.cgrp s.nfab s.fstop) :=
  ⟨h.pending, h.pp1, h.unconn, h.cgrp, h.nfab, h.fstop, h.freeCtr, h.nextId, h.mem_data, h.mem_chk, h.mem_tag, h.mem_owed, h.mem_sys, h.mem_boot, h.mem_ext, h.mem_extPoison, h.mem_extErr, h.regs, h.w1done, h.bcnt, h.bcRun, h.rc, h.log, h.integ, h.ctxs, h.ctxCore, h.parts, h.slices, h.queues, h.qctl, h.qfetch, h.qback, h.dbPend, h.qEnabled, h.dbDrop, h.hwin, h.cmds, h.ports, h.ops, h.wb, h.beats, h.busyBanks, h.clears, h.contracts, h.sync_waiters, h.movers, h.outbox, h.fab_reqs, h.ctl_pwr, h.ctl_rest, h.power, h.meter, h.scrub, fun e => hm.clash (i := 47) rfl e, h.keys, h.tdi, h.ready, h.qirq, h.works, h.outerCut, h.outerUsed, h.sync_rest, h.fab_rest⟩

theorem alters_set_w1done {M : Nat} {r s : State} {x_w1done : NMap Bool} (h : Alters M r s) (hm : Within 4096 M) :
    AltersF M r (State.mk s.pending s.freeCtr s.nextId s.mem s.regs x_w1done s.bcnt s.bcRun s.rc s.log s.integ s.ctxs s.parts s.slices s.queues s.qctl s.qfetch s.qback s.dbPend s.qEnabled s.dbDrop s.qirq s.hwin s.cmds s.ports s.ops s.wb s.beats s.works s.outerCut s.outerUsed s.busyBanks s.clears s.contracts s.sync s.movers s.outbox s.fab s.ctl s.power s.meter s.scrub s.test s.keys s.tdi s.ready s.pp1 s.unconn s.cgrp s.nfab s.fstop) :=
  ⟨h.pending, h.pp1, h.unconn, h.cgrp, h.nfab, h.fstop, h.freeCtr, h.nextId, h.mem_data, h.mem_chk, h.mem_tag, h.mem_owed, h.mem_sys, h.mem_boot, h.mem_ext, h.mem_extPoison, h.mem_extErr, h.regs, fun e => hm.clash (i := 12) rfl e, h.bcnt, h.bcRun, h.rc, h.log, h.integ, h.ctxs, h.ctxCore, h.parts, h.slices, h.queues, h.qctl, h.qfetch, h.qback, h.dbPend, h.qEnabled, h.dbDrop, h.hwin, h.cmds, h.ports, h.ops, h.wb, h.beats, h.busyBanks, h.clears, h.contracts, h.sync_waiters, h.movers, h.outbox, h.fab_reqs, h.ctl_pwr, h.ctl_rest, h.power, h.meter, h.scrub, h.test, h.keys, h.tdi, h.ready, h.qirq, h.works, h.outerCut, h.outerUsed, h.sync_rest, h.fab_rest⟩

theorem alters_set_wb {M : Nat} {r s : State} {x_wb : List WbEntry} (h : Alters M r s) (hm : Within 8589934592 M) :
    AltersF M r (State.mk s.pending s.freeCtr s.nextId s.mem s.regs s.w1done s.bcnt s.bcRun s.rc s.log s.integ s.ctxs s.parts s.slices s.queues s.qctl s.qfetch s.qback s.dbPend s.qEnabled s.dbDrop s.qirq s.hwin s.cmds s.ports s.ops x_wb s.beats s.works s.outerCut s.outerUsed s.busyBanks s.clears s.contracts s.sync s.movers s.outbox s.fab s.ctl s.power s.meter s.scrub s.test s.keys s.tdi s.ready s.pp1 s.unconn s.cgrp s.nfab s.fstop) :=
  ⟨h.pending, h.pp1, h.unconn, h.cgrp, h.nfab, h.fstop, h.freeCtr, h.nextId, h.mem_data, h.mem_chk, h.mem_tag, h.mem_owed, h.mem_sys, h.mem_boot, h.mem_ext, h.mem_extPoison, h.mem_extErr, h.regs, h.w1done, h.bcnt, h.bcRun, h.rc, h.log, h.integ, h.ctxs, h.ctxCore, h.parts, h.slices, h.queues, h.qctl, h.qfetch, h.qback, h.dbPend, h.qEnabled, h.dbDrop, h.hwin, h.cmds, h.ports, h.ops, fun e => hm.clash (i := 33) rfl e, h.beats, h.busyBanks, h.clears, h.contracts, h.sync_waiters, h.movers, h.outbox, h.fab_reqs, h.ctl_pwr, h.ctl_rest, h.power, h.meter, h.scrub, h.test, h.keys, h.tdi, h.ready, h.qirq, h.works, h.outerCut, h.outerUsed, h.sync_rest, h.fab_rest⟩

theorem alters_set_works {M : Nat} {r s : State} {x_works : List Work} (h : Alters M r s) (hm : Within 4503599627370496 M) :
    AltersF M r (State.mk s.pending s.freeCtr s.nextId s.mem s.regs s.w1done s.bcnt s.bcRun s.rc s.log s.integ s.ctxs s.parts s.slices s.queues s.qctl s.qfetch s.qback s.dbPend s.qEnabled s.dbDrop s.qirq s.hwin s.cmds s.ports s.ops s.wb s.beats x_works s.outerCut s.outerUsed s.busyBanks s.clears s.contracts s.sync s.movers s.outbox s.fab s.ctl s.power s.meter s.scrub s.test s.keys s.tdi s.ready s.pp1 s.unconn s.cgrp s.nfab s.fstop) :=
  ⟨h.pending, h.pp1, h.unconn, h.cgrp, h.nfab, h.fstop, h.freeCtr, h.nextId, h.mem_data, h.mem_chk, h.mem_tag, h.mem_owed, h.mem_sys, h.mem_boot, h.mem_ext, h.mem_extPoison, h.mem_extErr, h.regs, h.w1done, h.bcnt, h.bcRun, h.rc, h.log, h.integ, h.ctxs, h.ctxCore, h.parts, h.slices, h.queues, h.qctl, h.qfetch, h.qback, h.dbPend, h.qEnabled, h.dbDrop, h.hwin, h.cmds, h.ports, h.ops, h.wb, h.beats, h.busyBanks, h.clears, h.contracts, h.sync_waiters, h.movers, h.outbox, h.fab_reqs, h.ctl_pwr, h.ctl_rest, h.power, h.meter, h.scrub, h.test, h.keys, h.tdi, h.ready, h.qirq, fun e => hm.clash (i := 52) rfl e, h.outerCut, h.outerUsed, h.sync_rest, h.fab_rest⟩

theorem alters_set_bcnt_bcRun {M : Nat} {r s : State} {x_bcnt : Nat} {x_bcRun : Bool} (h : Alters M r s) (hm : Within 24576 M) :
    AltersF M r (State.mk s.pending s.freeCtr s.nextId s.mem s.regs s.w1done x_bcnt x_bcRun s.rc s.log s.integ s.ctxs s.parts s.slices s.queues s.qctl s.qfetch s.qback s.dbPend s.qEnabled s.dbDrop s.qirq s.hwin s.cmds s.ports s.ops s.wb s.beats s.works s.outerCut s.outerUsed s.busyBanks s.clears s.contracts s.sync s.movers s.outbox s.fab s.ctl s.power s.meter s.scrub s.test s.keys s.tdi s.ready s.pp1 s.unconn s.cgrp s.nfab s.fstop) :=
  ⟨h.pending, h.pp1, h.unconn, h.cgrp, h.nfab, h.fstop, h.freeCtr, h.nextId, h.mem_data, h.mem_chk, h.mem_tag, h.mem_owed, h.mem_sys, h.mem_boot, h.mem_ext, h.mem_extPoison, h.mem_extErr, h.regs, h.w1done, fun e => hm.clash (i := 13) rfl e, fun e => hm.clash (i := 14) rfl e, h.rc, h.log, h.integ, h.ctxs, h.ctxCore, h.parts, h.slices, h.queues, h.qctl, h.qfetch, h.qback, h.dbPend, h.qEnabled, h.dbDrop, h.hwin, h.cmds, h.ports, h.ops, h.wb, h.beats, h.busyBanks, h.clears, h.contracts, h.sync_waiters, h.movers, h.outbox, h.fab_reqs, h.ctl_pwr, h.ctl_rest, h.power, h.meter, h.scrub, h.test, h.keys, h.tdi, h.ready, h.qirq, h.works, h.outerCut, h.outerUsed, h.sync_rest, h.fab_rest⟩

theorem alters_set_bcnt_busyBanks {M : Nat} {r s : State} {x_bcnt : Nat} {x_busyBanks : List Nat} (h : Alters M r s) (hm : Within 34359746560 M) :
    AltersF M r (State.mk s.pending s.freeCtr s.nextId s.mem s.regs s.w1done x_bcnt s.bcRun s.rc s.log s.integ s.ctxs s.parts s.slices s.queues s.qctl s.qfetch s.qback s.dbPend s.qEnabled s.dbDrop s.qirq s.hwin s.cmds s.ports s.ops s.wb s.beats s.works s.outerCut s.outerUsed x_busyBanks s.clears s.contracts s.sync s.movers s.outbox s.fab s.ctl s.power s.meter s.scrub s.test s.keys s.tdi s.ready s.pp1 s.unconn s.cgrp s.nfab s.fstop) :=
  ⟨h.pending, h.pp1, h.unconn, h.cgrp, h.nfab, h.fstop, h.freeCtr, h.nextId, h.mem_data, h.mem_chk, h.mem_tag, h.mem_owed, h.mem_sys, h.mem_boot, h.mem_ext, h.mem_extPoison, h.mem_extErr, h.regs, h.w1done, fun e => hm.clash (i := 13) rfl e, h.bcRun, h.rc, h.log, h.integ, h.ctxs, h.ctxCore, h.parts, h.slices, h.queues, h.qctl, h.qfetch, h.qback, h.dbPend, h.qEnabled, h.dbDrop, h.hwin, h.cmds, h.ports, h.ops, h.wb, h.beats, fun e => hm.clash (i := 35) rfl e, h.clears, h.contracts, h.sync_waiters, h.movers, h.outbox, h.fab_reqs, h.ctl_pwr, h.ctl_rest, h.power, h.meter, h.scrub, h.test, h.keys, h.tdi, h.ready, h.qirq, h.works, h.outerCut, h.outerUsed, h.sync_rest, h.fab_rest⟩

theorem alters_set_ctl_power {M : Nat} {r s : State} {x_ctl : CtlState} {x_power : PowerState} (h : Alters M r s) (h_ctl : CtlAlters M s.ctl x_ctl) (hm : Within 17592186044416 M) :
    AltersF M r (State.mk s.pending s.freeCtr s.nextId s.mem s.regs s.w1done s.bcnt s.bcRun s.rc s.log s.integ s.ctxs s.parts s.slices s.queues s.qctl s.qfetch s.qback s.dbPend s.qEnabled s.dbDrop s.qirq s.hwin s.cmds s.ports s.ops s.wb s.beats s.works s.outerCut s.outerUsed s.busyBanks s.clears s.contracts s.sync s.movers s.outbox s.fab x_ctl x_power s.meter s.scrub s.test s.keys s.tdi s.ready s.pp1 s.unconn s.cgrp s.nfab s.fstop) :=
  ⟨h.pending, h.pp1, h.unconn, h.cgrp, h.nfab, h.fstop, h.freeCtr, h.nextId, h.mem_data, h.mem_chk, h.mem_tag, h.mem_owed, h.mem_sys, h.mem_boot, h.mem_ext, h.mem_extPoison, h.mem_extErr, h.regs, h.w1done, h.bcnt, h.bcRun, h.rc, h.log, h.integ, h.ctxs, h.ctxCore, h.parts, h.slices, h.queues, h.qctl, h.qfetch, h.qback, h.dbPend, h.qEnabled, h.dbDrop, h.hwin, h.cmds, h.ports, h.ops, h.wb, h.beats, h.busyBanks, h.clears, h.contracts, h.sync_waiters, h.movers, h.outbox, h.fab_reqs, fun e => (h_ctl.pwr e).trans (h.ctl_pwr e), fun e => (h_ctl.rest e).trans (h.ctl_rest e), fun e => hm.clash (i := 44) rfl e, h.meter, h.scrub, h.test, h.keys, h.tdi, h.ready, h.qirq, h.works, h.outerCut, h.outerUsed, h.sync_rest, h.fab_rest⟩

theorem alters_set_mem_clears {M : Nat} {r s : State} {x_mem : Mem} {x_clears : List ClearJob} (h : Alters M r s) (hx : MemAlters M s.mem x_mem) (hm : Within 68719476736 M) :
    AltersF M r (State.mk s.pending s.freeCtr s.nextId x_mem s.regs s.w1done s.bcnt s.bcRun s.rc s.log s.integ s.ctxs s.parts s.slices s.queues s.qctl s.qfetch s.qback s.dbPend s.qEnabled s.dbDrop s.qirq s.hwin s.cmds s.ports s.ops s.wb s.beats s.works s.outerCut s.outerUsed s.busyBanks x_clears s.contracts s.sync s.movers s.outbox s.fab s.ctl s.power s.meter s.scrub s.test s.keys s.tdi s.ready s.pp1 s.unconn s.cgrp s.nfab s.fstop) :=
  ⟨h.pending, h.pp1, h.unconn, h.cgrp, h.nfab, h.fstop, h.freeCtr, h.nextId, fun e => (hx.data e).trans (h.mem_data e), fun e => (hx.chk e).trans (h.mem_chk e), fun e => (hx.tag e).trans (h.mem_tag e), fun e => (hx.owed e).trans (h.mem_owed e), fun e => (hx.sys e).trans (h.mem_sys e), fun e => (hx.boot e).trans (h.mem_boot e), fun e => (hx.ext e).trans (h.mem_ext e), fun e => (hx.extPoison e).trans (h.mem_extPoison e), fun e => (hx.extErr e).trans (h.mem_extErr e), h.regs, h.w1done, h.bcnt, h.bcRun, h.rc, h.log, h.integ, h.ctxs, h.ctxCore, h.parts, h.slices, h.queues, h.qctl, h.qfetch, h.qback, h.dbPend, h.qEnabled, h.dbDrop, h.hwin, h.cmds, h.ports, h.ops, h.wb, h.beats, h.busyBanks, fun e => hm.clash (i := 36) rfl e, h.contracts, h.sync_waiters, h.movers, h.outbox, h.fab_reqs, h.ctl_pwr, h.ctl_rest, h.power, h.meter, h.scrub, h.test, h.keys, h.tdi, h.ready, h.qirq, h.works, h.outerCut, h.outerUsed, h.sync_rest, h.fab_rest⟩

theorem alters_set_mem_test {M : Nat} {r s : State} {x_mem : Mem} {x_test : TestState} (h : Alters M r s) (hx : MemAlters M s.mem x_mem) (hm : Within 140737488355328 M) :
    AltersF M r (State.mk s.pending s.freeCtr s.nextId x_mem s.regs s.w1done s.bcnt s.bcRun s.rc s.log s.integ s.ctxs s.parts s.slices s.queues s.qctl s.qfetch s.qback s.dbPend s.qEnabled s.dbDrop s.qirq s.hwin s.cmds s.ports s.ops s.wb s.beats s.works s.outerCut s.outerUsed s.busyBanks s.clears s.contracts s.sync s.movers s.outbox s.fab s.ctl s.power s.meter s.scrub x_test s.keys s.tdi s.ready s.pp1 s.unconn s.cgrp s.nfab s.fstop) :=
  ⟨h.pending, h.pp1, h.unconn, h.cgrp, h.nfab, h.fstop, h.freeCtr, h.nextId, fun e => (hx.data e).trans (h.mem_data e), fun e => (hx.chk e).trans (h.mem_chk e), fun e => (hx.tag e).trans (h.mem_tag e), fun e => (hx.owed e).trans (h.mem_owed e), fun e => (hx.sys e).trans (h.mem_sys e), fun e => (hx.boot e).trans (h.mem_boot e), fun e => (hx.ext e).trans (h.mem_ext e), fun e => (hx.extPoison e).trans (h.mem_extPoison e), fun e => (hx.extErr e).trans (h.mem_extErr e), h.regs, h.w1done, h.bcnt, h.bcRun, h.rc, h.log, h.integ, h.ctxs, h.ctxCore, h.parts, h.slices, h.queues, h.qctl, h.qfetch, h.qback, h.dbPend, h.qEnabled, h.dbDrop, h.hwin, h.cmds, h.ports, h.ops, h.wb, h.beats, h.busyBanks, h.clears, h.contracts, h.sync_waiters, h.movers, h.outbox, h.fab_reqs, h.ctl_pwr, h.ctl_rest, h.power, h.meter, h.scrub, fun e => hm.clash (i := 47) rfl e, h.keys, h.tdi, h.ready, h.qirq, h.works, h.outerCut, h.outerUsed, h.sync_rest, h.fab_rest⟩

theorem alters_set_ops_wb {M : Nat} {r s : State} {x_ops : List PortOp} {x_wb : List WbEntry} (h : Alters M r s) (hm : Within 12884901888 M) :
    AltersF M r (State.mk s.pending s.freeCtr s.nextId s.mem s.regs s.w1done s.bcnt s.bcRun s.rc s.log s.integ s.ctxs s.parts s.slices s.queues s.qctl s.qfetch s.qback s.dbPend s.qEnabled s.dbDrop s.qirq s.hwin s.cmds s.ports x_ops x_wb s.beats s.works s.outerCut s.outerUsed s.busyBanks s.clears s.contracts s.sync s.movers s.outbox s.fab s.ctl s.power s.meter s.scrub s.test s.keys s.tdi s.ready s.pp1 s.unconn s.cgrp s.nfab s.fstop) :=
  ⟨h.pending, h.pp1, h.unconn, h.cgrp, h.nfab, h.fstop, h.freeCtr, h.nextId, h.mem_data, h.mem_chk, h.mem_tag, h.mem_owed, h.mem_sys, h.mem_boot, h.mem_ext, h.mem_extPoison, h.mem_extErr, h.regs, h.w1done, h.bcnt, h.bcRun, h.rc, h.log, h.integ, h.ctxs, h.ctxCore, h.parts, h.slices, h.queues, h.qctl, h.qfetch, h.qback, h.dbPend, h.qEnabled, h.dbDrop, h.hwin, h.cmds, h.ports, fun e => hm.clash (i := 32) rfl e, fun e => hm.clash (i := 33) rfl e, h.beats, h.busyBanks, h.clears, h.contracts, h.sync_waiters, h.movers, h.outbox, h.fab_reqs, h.ctl_pwr, h.ctl_rest, h.power, h.meter, h.scrub, h.test, h.keys, h.tdi, h.ready, h.qirq, h.works, h.outerCut, h.outerUsed, h.sync_rest, h.fab_rest⟩

theorem alters_set_outerCut_outerUsed {M : Nat} {r s : State} {x_outerCut : NMap Nat} {x_outerUsed : NMap Nat} (h : Alters M r s) (hm : Within 27021597764222976 M) :
    AltersF M r (State.mk s.pending s.freeCtr s.nextId s.mem s.regs s.w1done s.bcnt s.bcRun s.rc s.log s.integ s.ctxs s.parts s.slices s.queues s.qctl s.qfetch s.qback s.dbPend s.qEnabled s.dbDrop s.qirq s.hwin s.cmds s.ports s.ops s.wb s.beats s.works x_outerCut x_outerUsed s.busyBanks s.clears s.contracts s.sync s.movers s.outbox s.fab s.ctl s.power s.meter s.scrub s.test s.keys s.tdi s.ready s.pp1 s.unconn s.cgrp s.nfab s.fstop) :=
  ⟨h.pending, h.pp1, h.unconn, h.cgrp, h.nfab, h.fstop, h.freeCtr, h.nextId, h.mem_data, h.mem_chk, h.mem_tag, h.mem_owed, h.mem_sys, h.mem_boot, h.mem_ext, h.mem_extPoison, h.mem_extErr, h.regs, h.w1done, h.bcnt, h.bcRun, h.rc, h.log, h.integ, h.ctxs, h.ctxCore, h.parts, h.slices, h.queues, h.qctl, h.qfetch, h.qback, h.dbPend, h.qEnabled, h.dbDrop, h.hwin, h.cmds, h.ports, h.ops, h.wb, h.beats, h.busyBanks, h.clears, h.contracts, h.sync_waiters, h.movers, h.outbox, h.fab_reqs, h.ctl_pwr, h.ctl_rest, h.power, h.meter, h.scrub, h.test, h.keys, h.tdi, h.ready, h.qirq, h.works, fun e => hm.clash (i := 53) rfl e, fun e => hm.clash (i := 54) rfl e, h.sync_rest, h.fab_rest⟩

theorem alters_set_ports_ops {M : Nat} {r s : State} {x_ports : NMap PortRec} {x_ops : List PortOp} (h : Alters M r s) (hm : Within 6442450944 M) :
    AltersF M r (State.mk s.pending s.freeCtr s.nextId s.mem s.regs s.w1done s.bcnt s.bcRun s.rc s.log s.integ s.ctxs s.parts s.slices s.queues s.qctl s.qfetch s.qback s.dbPend s.qEnabled s.dbDrop s.qirq s.hwin s.cmds x_ports x_ops s.wb s.beats s.works s.outerCut s.outerUsed s.busyBanks s.clears s.contracts s.sync s.movers s.outbox s.fab s.ctl s.power s.meter s.scrub s.test s.keys s.tdi s.ready s.pp1 s.unconn s.cgrp s.nfab s.fstop) :=
  ⟨h.pending, h.pp1, h.unconn, h.cgrp, h.nfab, h.fstop, h.freeCtr, h.nextId, h.mem_data, h.mem_chk, h.mem_tag, h.mem_owed, h.mem_sys, h.mem_boot, h.mem_ext, h.mem_extPoison, h.mem_extErr, h.regs, h.w1done, h.bcnt, h.bcRun, h.rc, h.log, h.integ, h.ctxs, h.ctxCore, h.parts, h.slices, h.queues, h.qctl, h.qfetch, h.qback, h.dbPend, h.qEnabled, h.dbDrop, h.hwin, h.cmds, fun e => hm.clash (i := 31) rfl e, fun e => hm.clash (i := 32) rfl e, h.wb, h.beats, h.busyBanks, h.clears, h.contracts, h.sync_waiters, h.movers, h.outbox, h.fab_reqs, h.ctl_pwr, h.ctl_rest, h.power, h.meter, h.scrub, h.test, h.keys, h.tdi, h.ready, h.qirq, h.works, h.outerCut, h.outerUsed, h.sync_rest, h.fab_rest⟩

theorem alters_set_rc_power {M : Nat} {r s : State} {x_rc : Nat} {x_power : PowerState} (h : Alters M r s) (hm : Within 17592186077184 M) :
    AltersF M r (State.mk s.pending s.freeCtr s.nextId s.mem s.regs s.w1done s.bcnt s.bcRun x_rc s.log s.integ s.ctxs s.parts s.slices s.queues s.qctl s.qfetch s.qback s.dbPend s.qEnabled s.dbDrop s.qirq s.hwin s.cmds s.ports s.ops s.wb s.beats s.works s.outerCut s.outerUsed s.busyBanks s.clears s.contracts s.sync s.movers s.outbox s.fab s.ctl x_power s.meter s.scrub s.test s.keys s.tdi s.ready s.pp1 s.unconn s.cgrp s.nfab s.fstop) :=
  ⟨h.pending, h.pp1, h.unconn, h.cgrp, h.nfab, h.fstop, h.freeCtr, h.nextId, h.mem_data, h.mem_chk, h.mem_tag, h.mem_owed, h.mem_sys, h.mem_boot, h.mem_ext, h.mem_extPoison, h.mem_extErr, h.regs, h.w1done, h.bcnt, h.bcRun, fun e => hm.clash (i := 15) rfl e, h.log, h.integ, h.ctxs, h.ctxCore, h.parts, h.slices, h.queues, h.qctl, h.qfetch, h.qback, h.dbPend, h.qEnabled, h.dbDrop, h.hwin, h.cmds, h.ports, h.ops, h.wb, h.beats, h.busyBanks, h.clears, h.contracts, h.sync_waiters, h.movers, h.outbox, h.fab_reqs, h.ctl_pwr, h.ctl_rest, fun e => hm.clash (i := 44) rfl e, h.meter, h.scrub, h.test, h.keys, h.tdi, h.ready, h.qirq, h.works, h.outerCut, h.outerUsed, h.sync_rest, h.fab_rest⟩

theorem alters_set_regs_movers {M : Nat} {r s : State} {x_regs : NMap Word} {x_movers : MoverState} (h : Alters M r s) (hm : Within 549755815936 M) :
    AltersF M r (State.mk s.pending s.freeCtr s.nextId s.mem x_regs s.w1done s.bcnt s.bcRun s.rc s.log s.integ s.ctxs s.parts s.slices s.queues s.qctl s.qfetch s.qback s.dbPend s.qEnabled s.dbDrop s.qirq s.hwin s.cmds s.ports s.ops s.wb s.beats s.works s.outerCut s.outerUsed s.busyBanks s.clears s.contracts s.sync x_movers s.outbox s.fab s.ctl s.power s.meter s.scrub s.test s.keys s.tdi s.ready s.pp1 s.unconn s.cgrp s.nfab s.fstop) :=
  ⟨h.pending, h.pp1, h.unconn, h.cgrp, h.nfab, h.fstop, h.freeCtr, h.nextId, h.mem_data, h.mem_chk, h.mem_tag, h.mem_owed, h.mem_sys, h.mem_boot, h.mem_ext, h.mem_extPoison, h.mem_extErr, fun e => hm.clash (i := 11) rfl e, h.w1done, h.bcnt, h.bcRun, h.rc, h.log, h.integ, h.ctxs, h.ctxCore, h.parts, h.slices, h.queues, h.qctl, h.qfetch, h.qback, h.dbPend, h.qEnabled, h.dbDrop, h.hwin, h.cmds, h.ports, h.ops, h.wb, h.beats, h.busyBanks, h.clears, h.contracts, h.sync_waiters, fun e => hm.clash (i := 39) rfl e, h.outbox, h.fab_reqs, h.ctl_pwr, h.ctl_rest, h.power, h.meter, h.scrub, h.test, h.keys, h.tdi, h.ready, h.qirq, h.works, h.outerCut, h.outerUsed, h.sync_rest, h.fab_rest⟩

theorem alters_set_regs_w1done {M : Nat} {r s : State} {x_regs : NMap Word} {x_w1done : NMap Bool} (h : Alters M r s) (hm : Within 6144 M) :
    AltersF M r (State.mk s.pending s.freeCtr s.nextId s.mem x_regs x_w1done s.bcnt s.bcRun s.rc s.log s.integ s.ctxs s.parts s.slices s.queues s.qctl s.qfetch s.qback s.dbPend s.qEnabled s.dbDrop s.qirq s.hwin s.cmds s.ports s.ops s.wb s.beats s.works s.outerCut s.outerUsed s.busyBanks s.clears s.contracts s.sync s.movers s.outbox s.fab s.ctl s.power s.meter s.scrub s.test s.keys s.tdi s.ready s.pp1 s.unconn s.cgrp s.nfab s.fstop) :=
  ⟨h.pending, h.pp1, h.unconn, h.cgrp, h.nfab, h.fstop, h.freeCtr, h.nextId, h.mem_data, h.mem_chk, h.mem_tag, h.mem_owed, h.mem_sys, h.mem_boot, h.mem_ext, h.mem_extPoison, h.mem_extErr, fun e => hm.clash (i := 11) rfl e, fun e => hm.clash (i := 12) rfl e, h.bcnt, h.bcRun, h.rc, h.log, h.integ, h.ctxs, h.ctxCore, h.parts, h.slices, h.queues, h.qctl, h.qfetch, h.qback, h.dbPend, h.qEnabled, h.dbDrop, h.hwin, h.cmds, h.ports, h.ops, h.wb, h.beats, h.busyBanks, h.clears, h.contracts, h.sync_waiters, h.movers, h.outbox, h.fab_reqs, h.ctl_pwr, h.ctl_rest, h.power, h.meter, h.scrub, h.test, h.keys, h.tdi, h.ready, h.qirq, h.works, h.outerCut, h.outerUsed, h.sync_rest, h.fab_rest⟩

theorem alters_set_sync_fab {M : Nat} {r s : State} {x_sync : SyncState} {x_fab : FabState} (h : Alters M r s) (h_sync : SyncAlters M s.sync x_sync) (h_fab : FabAlters M s.fab x_fab) :
    AltersF M r (State.mk s.pending s.freeCtr s.nextId s.mem s.regs s.w1done s.bcnt s.bcRun s.rc s.log s.integ s.ctxs s.parts s.slices s.queues s.qctl s.qfetch s.qback s.dbPend s.qEnabled s.dbDrop s.qirq s.hwin s.cmds s.ports s.ops s.wb s.beats s.works s.outerCut s.outerUsed s.busyBanks s.clears s.contracts x_sync s.movers s.outbox x_fab s.ctl s.power s.meter s.scrub s.test s.keys s.tdi s.ready s.pp1 s.unconn s.cgrp s.nfab s.fstop) :=
  ⟨h.pending, h.pp1, h.unconn, h.cgrp, h.nfab, h.fstop, h.freeCtr, h.nextId, h.mem_data, h.mem_chk, h.mem_tag, h.mem_owed, h.mem_sys, h.mem_boot, h.mem_ext, h.mem_extPoison, h.mem_extErr, h.regs, h.w1done, h.bcnt, h.bcRun, h.rc, h.log, h.integ, h.ctxs, h.ctxCore, h.parts, h.slices, h.queues, h.qctl, h.qfetch, h.qback, h.dbPend, h.qEnabled, h.dbDrop, h.hwin, h.cmds, h.ports, h.ops, h.wb, h.beats, h.busyBanks, h.clears, h.contracts, fun e => (h_sync.waiters e).trans (h.sync_waiters e), h.movers, h.outbox, fun e => (h_fab.reqs e).trans (h.fab_reqs e), h.ctl_pwr, h.ctl_rest, h.power, h.meter, h.scrub, h.test, h.keys, h.tdi, h.ready, h.qirq, h.works, h.outerCut, h.outerUsed, fun e => (h_sync.rest e).trans (h.sync_rest e), fun e => (h_fab.rest e).trans (h.fab_rest e)⟩

theorem alters_set_wb_beats {M : Nat} {r s : State} {x_wb : List WbEntry} {x_beats : List Beat} (h : Alters M r s) (hm : Within 25769803776 M) :
    AltersF M r (State.mk s.pending s.freeCtr s.nextId s.mem s.regs s.w1done s.bcnt s.bcRun s.rc s.log s.integ s.ctxs s.parts s.slices s.queues s.qctl s.qfetch s.qback s.dbPend s.qEnabled s.dbDrop s.qirq s.hwin s.cmds s.ports s.ops x_wb x_beats s.works s.outerCut s.outerUsed s.busyBanks s.clears s.contracts s.sync s.movers s.outbox s.fab s.ctl s.power s.meter s.scrub s.test s.keys s.tdi s.ready s.pp1 s.unconn s.cgrp s.nfab s.fstop) :=
  ⟨h.pending, h.pp1, h.unconn, h.cgrp, h.nfab, h.fstop, h.freeCtr, h.nextId, h.mem_data, h.mem_chk, h.mem_tag, h.mem_owed, h.mem_sys, h.mem_boot, h.mem_ext, h.mem_extPoison, h.mem_extErr, h.regs, h.w1done, h.bcnt, h.bcRun, h.rc, h.log, h.integ, h.ctxs, h.ctxCore, h.parts, h.slices, h.queues, h.qctl, h.qfetch, h.qback, h.dbPend, h.qEnabled, h.dbDrop, h.hwin, h.cmds, h.ports, h.ops, fun e => hm.clash (i := 33) rfl e, fun e => hm.clash (i := 34) rfl e, h.busyBanks, h.clears, h.contracts, h.sync_waiters, h.movers, h.outbox, h.fab_reqs, h.ctl_pwr, h.ctl_rest, h.power, h.meter, h.scrub, h.test, h.keys, h.tdi, h.ready, h.qirq, h.works, h.outerCut, h.outerUsed, h.sync_rest, h.fab_rest⟩

theorem alters_set_freeCtr_ctl_meter {M : Nat} {r s : State} {x_freeCtr : Nat} {x_ctl : CtlState} {x_meter : MeterState} (h : Alters M r s) (h_ctl : CtlAlters M s.ctl x_ctl) (hm : Within 35184372088833 M) :
    AltersF M r (State.mk s.pending x_freeCtr s.nextId s.mem s.regs s.w1done s.bcnt s.bcRun s.rc s.log s.integ s.ctxs s.parts s.slices s.queues s.qctl s.qfetch s.qback s.dbPend s.qEnabled s.dbDrop s.qirq s.hwin s.cmds s.ports s.ops s.wb s.beats s.works s.outerCut s.outerUsed s.busyBanks s.clears s.contracts s.sync s.movers s.outbox s.fab x_ctl s.power x_meter s.scrub s.test s.keys s.tdi s.ready s.pp1 s.unconn s.cgrp s.nfab s.fstop) :=
  ⟨h.pending, h.pp1, h.unconn, h.cgrp, h.nfab, h.fstop, fun e => hm.clash (i := 0) rfl e, h.nextId, h.mem_data, h.mem_chk, h.mem_tag, h.mem_owed, h.mem_sys, h.mem_boot, h.mem_ext, h.mem_extPoison, h.mem_extErr, h.regs, h.w1done, h.bcnt, h.bcRun, h.rc, h.log, h.integ, h.ctxs, h.ctxCore, h.parts, h.slices, h.queues, h.qctl, h.qfetch, h.qback, h.dbPend, h.qEnabled, h.dbDrop, h.hwin, h.cmds, h.ports, h.ops, h.wb, h.beats, h.busyBanks, h.clears, h.contracts, h.sync_waiters, h.movers, h.outbox, h.fab_reqs, fun e => (h_ctl.pwr e).trans (h.ctl_pwr e), fun e => (h_ctl.rest e).trans (h.ctl_rest e), h.power, fun e => hm.clash (i := 45) rfl e, h.scrub, h.test, h.keys, h.tdi, h.ready, h.qirq, h.works, h.outerCut, h.outerUsed, h.sync_rest, h.fab_rest⟩

theorem alters_set_mem_ports_ctl {M : Nat} {r s : State} {x_mem : Mem} {x_ports : NMap PortRec} {x_ctl : CtlState} (h : Alters M r s) (hx : MemAlters M s.mem x_mem) (h_ctl : CtlAlters M s.ctl x_ctl) (hm : Within 2147483648 M) :
    AltersF M r (State.mk s.pending s.freeCtr s.nextId x_mem s.regs s.w1done s.bcnt s.bcRun s.rc s.log s.integ s.ctxs s.parts s.slices s.queues s.qctl s.qfetch s.qback s.dbPend s.qEnabled s.dbDrop s.qirq s.hwin s.cmds x_ports s.ops s.wb s.beats s.works s.outerCut s.outerUsed s.busyBanks s.clears s.contracts s.sync s.movers s.outbox s.fab x_ctl s.power s.meter s.scrub s.test s.keys s.tdi s.ready s.pp1 s.unconn s.cgrp s.nfab s.fstop) :=
  ⟨h.pending, h.pp1, h.unconn, h.cgrp, h.nfab, h.fstop, h.freeCtr, h.nextId, fun e => (hx.data e).trans (h.mem_data e), fun e => (hx.chk e).trans (h.mem_chk e), fun e => (hx.tag e).trans (h.mem_tag e), fun e => (hx.owed e).trans (h.mem_owed e), fun e => (hx.sys e).trans (h.mem_sys e), fun e => (hx.boot e).trans (h.mem_boot e), fun e => (hx.ext e).trans (h.mem_ext e), fun e => (hx.extPoison e).trans (h.mem_extPoison e), fun e => (hx.extErr e).trans (h.mem_extErr e), h.regs, h.w1done, h.bcnt, h.bcRun, h.rc, h.log, h.integ, h.ctxs, h.ctxCore, h.parts, h.slices, h.queues, h.qctl, h.qfetch, h.qback, h.dbPend, h.qEnabled, h.dbDrop, h.hwin, h.cmds, fun e => hm.clash (i := 31) rfl e, h.ops, h.wb, h.beats, h.busyBanks, h.clears, h.contracts, h.sync_waiters, h.movers, h.outbox, h.fab_reqs, fun e => (h_ctl.pwr e).trans (h.ctl_pwr e), fun e => (h_ctl.rest e).trans (h.ctl_rest e), h.power, h.meter, h.scrub, h.test, h.keys, h.tdi, h.ready, h.qirq, h.works, h.outerCut, h.outerUsed, h.sync_rest, h.fab_rest⟩

theorem alters_set_mem_ports_movers {M : Nat} {r s : State} {x_mem : Mem} {x_ports : NMap PortRec} {x_movers : MoverState} (h : Alters M r s) (hx : MemAlters M s.mem x_mem) (hm : Within 551903297536 M) :
    AltersF M r (State.mk s.pending s.freeCtr s.nextId x_mem s.regs s.w1done s.bcnt s.bcRun s.rc s.log s.integ s.ctxs s.parts s.slices s.queues s.qctl s.qfetch s.qback s.dbPend s.qEnabled s.dbDrop s.qirq s.hwin s.cmds x_ports s.ops s.wb s.beats s.works s.outerCut s.outerUsed s.busyBanks s.clears s.contracts s.sync x_movers s.outbox s.fab s.ctl s.power s.meter s.scrub s.test s.keys s.tdi s.ready s.pp1 s.unconn s.cgrp s.nfab s.fstop) :=
  ⟨h.pending, h.pp1, h.unconn, h.cgrp, h.nfab, h.fstop, h.freeCtr, h.nextId, fun e => (hx.data e).trans (h.mem_data e), fun e => (hx.chk e).trans (h.mem_chk e), fun e => (hx.tag e).trans (h.mem_tag e), fun e => (hx.owed e).trans (h.mem_owed e), fun e => (hx.sys e).trans (h.mem_sys e), fun e => (hx.boot e).trans (h.mem_boot e), fun e => (hx.ext e).trans (h.mem_ext e), fun e => (hx.extPoison e).trans (h.mem_extPoison e), fun e => (hx.extErr e).trans (h.mem_extErr e), h.regs, h.w1done, h.bcnt, h.bcRun, h.rc, h.log, h.integ, h.ctxs, h.ctxCore, h.parts, h.slices, h.queues, h.qctl, h.qfetch, h.qback, h.dbPend, h.qEnabled, h.dbDrop, h.hwin, h.cmds, fun e => hm.clash (i := 31) rfl e, h.ops, h.wb, h.beats, h.busyBanks, h.clears, h.contracts, h.sync_waiters, fun e => hm.clash (i := 39) rfl e, h.outbox, h.fab_reqs, h.ctl_pwr, h.ctl_rest, h.power, h.meter, h.scrub, h.test, h.keys, h.tdi, h.ready, h.qirq, h.works, h.outerCut, h.outerUsed, h.sync_rest, h.fab_rest⟩

theorem alters_set_regs_integ_slices_ctl {M : Nat} {r s : State} {x_regs : NMap Word} {x_integ : NMap Nat} {x_slices : NMap SliceRec} {x_ctl : CtlState} (h : Alters M r s) (h_ctl : CtlAlters M s.ctl x_ctl) (hm : Within 2230272 M) :
    AltersF M r (State.mk s.pending s.freeCtr s.nextId s.mem x_regs s.w1done s.bcnt s.bcRun s.rc s.log x_integ s.ctxs s.parts x_slices s.queues s.qctl s.qfetch s.qback s.dbPend s.qEnabled s.dbDrop s.qirq s.hwin s.cmds s.ports s.ops s.wb s.beats s.works s.outerCut s.outerUsed s.busyBanks s.clears s.contracts s.sync s.movers s.outbox s.fab x_ctl s.power s.meter s.scrub s.test s.keys s.tdi s.ready s.pp1 s.unconn s.cgrp s.nfab s.fstop) :=
  ⟨h.pending, h.pp1, h.unconn, h.cgrp, h.nfab, h.fstop, h.freeCtr, h.nextId, h.mem_data, h.mem_chk, h.mem_tag, h.mem_owed, h.mem_sys, h.mem_boot, h.mem_ext, h.mem_extPoison, h.mem_extErr, fun e => hm.clash (i := 11) rfl e, h.w1done, h.bcnt, h.bcRun, h.rc, h.log, fun e => hm.clash (i := 17) rfl e, h.ctxs, h.ctxCore, h.parts, fun e => hm.clash (i := 21) rfl e, h.queues, h.qctl, h.qfetch, h.qback, h.dbPend, h.qEnabled, h.dbDrop, h.hwin, h.cmds, h.ports, h.ops, h.wb, h.beats, h.busyBanks, h.clears, h.contracts, h.sync_waiters, h.movers, h.outbox, h.fab_reqs, fun e => (h_ctl.pwr e).trans (h.ctl_pwr e), fun e => (h_ctl.rest e).trans (h.ctl_rest e), h.power, h.meter, h.scrub, h.test, h.keys, h.tdi, h.ready, h.qirq, h.works, h.outerCut, h.outerUsed, h.sync_rest, h.fab_rest⟩

theorem alters_set_cmds_ops_wb_beats_works_movers {M : Nat} {r s : State} {x_cmds : List Cmd} {x_ops : List PortOp} {x_wb : List WbEntry} {x_beats : List Beat} {x_works : List Work} {x_movers : MoverState} (h : Alters M r s) (hm : Within 4504180521697280 M) :
    AltersF M r (State.mk s.pending s.freeCtr s.nextId s.mem s.regs s.w1done s.bcnt s.bcRun s.rc s.log s.integ s.ctxs s.parts s.slices s.queues s.qctl s.qfetch s.qback s.dbPend s.qEnabled s.dbDrop s.qirq s.hwin x_cmds s.ports x_ops x_wb x_beats x_works s.outerCut s.outerUsed s.busyBanks s.clears s.contracts s.sync x_movers s.outbox s.fab s.ctl s.power s.meter s.scrub s.test s.keys s.tdi s.ready s.pp1 s.unconn s.cgrp s.nfab s.fstop) :=
  ⟨h.pending, h.pp1, h.unconn, h.cgrp, h.nfab, h.fstop, h.freeCtr, h.nextId, h.mem_data, h.mem_chk, h.mem_tag, h.mem_owed, h.mem_sys, h.mem_boot, h.mem_ext, h.mem_extPoison, h.mem_extErr, h.regs, h.w1done, h.bcnt, h.bcRun, h.rc, h.log, h.integ, h.ctxs, h.ctxCore, h.parts, h.slices, h.queues, h.qctl, h.qfetch, h.qback, h.dbPend, h.qEnabled, h.dbDrop, h.hwin, fun e => hm.clash (i := 30) rfl e, h.ports, fun e => hm.clash (i := 32) rfl e, fun e => hm.clash (i := 33) rfl e, fun e => hm.clash (i := 34) rfl e, h.busyBanks, h.clears, h.contracts, h.sync_waiters, fun e => hm.clash (i := 39) rfl e, h.outbox, h.fab_reqs, h.ctl_pwr, h.ctl_rest, h.power, h.meter, h.scrub, h.test, h.keys, h.tdi, h.ready, h.qirq, fun e => hm.clash (i := 52) rfl e, h.outerCut, h.outerUsed, h.sync_rest, h.fab_rest⟩

theorem alters_set_mem_slices_ports_wb_beats_works_movers_keys {M : Nat} {r s : State} {x_mem : Mem} {x_slices : NMap SliceRec} {x_ports : NMap PortRec} {x_wb : List WbEntry} {x_beats : List Beat} {x_works : List Work} {x_movers : MoverState} {x_keys : NMap (Option (Nat × Nat))} (h : Alters M r s) (hx : MemAlters M s.mem x_mem) (hm : Within 4785652279279616 M) :
    AltersF M r (State.mk s.pending s.freeCtr s.nextId x_mem s.regs s.w1done s.bcnt s.bcRun s.rc s.log s.integ s.ctxs s.parts x_slices s.queues s.qctl s.qfetch s.qback s.dbPend s.qEnabled s.dbDrop s.qirq s.hwin s.cmds x_ports s.ops x_wb x_beats x_works s.outerCut s.outerUsed s.busyBanks s.clears s.contracts s.sync x_movers s.outbox s.fab s.ctl s.power s.meter s.scrub s.test x_keys s.tdi s.ready s.pp1 s.unconn s.cgrp s.nfab s.fstop) :=
  ⟨h.pending, h.pp1, h.unconn, h.cgrp, h.nfab, h.fstop, h.freeCtr, h.nextId, fun e => (hx.data e).trans (h.mem_data e), fun e => (hx.chk e).trans (h.mem_chk e), fun e => (hx.tag e).trans (h.mem_tag e), fun e => (hx.owed e).trans (h.mem_owed e), fun e => (hx.sys e).trans (h.mem_sys e), fun e => (hx.boot e).trans (h.mem_boot e), fun e => (hx.ext e).trans (h.mem_ext e), fun e => (hx.extPoison e).trans (h.mem_extPoison e), fun e => (hx.extErr e).trans (h.mem_extErr e), h.regs, h.w1done, h.bcnt, h.bcRun, h.rc, h.log, h.integ, h.ctxs, h.ctxCore, h.parts, fun e => hm.clash (i := 21) rfl e, h.queues, h.qctl, h.qfetch, h.qback, h.dbPend, h.qEnabled, h.dbDrop, h.hwin, h.cmds, fun e => hm.clash (i := 31) rfl e, h.ops, fun e => hm.clash (i := 33) rfl e, fun e => hm.clash (i := 34) rfl e, h.busyBanks, h.clears, h.contracts, h.sync_waiters, fun e => hm.clash (i := 39) rfl e, h.outbox, h.fab_reqs, h.ctl_pwr, h.ctl_rest, h.power, h.meter, h.scrub, h.test, fun e => hm.clash (i := 48) rfl e, h.tdi, h.ready, h.qirq, fun e => hm.clash (i := 52) rfl e, h.outerCut, h.outerUsed, h.sync_rest, h.fab_rest⟩

theorem Alters.ctl_but_pwr {M : Nat} {r t : State} (h : Alters M r t) (e : M.testBit 43 = false) : t.ctl = { r.ctl with pwr := t.ctl.pwr } := by
  have k := congrArg (fun c : CtlState => { c with pwr := t.ctl.pwr }) (h.ctl_rest e)
  exact k

theorem Alters.ctl_eq {M : Nat} {r t : State} (h : Alters M r t) (e : M.testBit 43 = false) (e2 : M.testBit 42 = false) : t.ctl = r.ctl := by
  rw [h.ctl_but_pwr e, h.ctl_pwr e2]

theorem Alters.sync_but_waiters {M : Nat} {r t : State} (h : Alters M r t) (e : M.testBit 55 = false) : t.sync = { r.sync with waiters := t.sync.waiters } := by
  have k := congrArg (fun c : SyncState => { c with waiters := t.sync.waiters }) (h.sync_rest e)
  exact k

theorem Alters.sync_eq {M : Nat} {r t : State} (h : Alters M r t) (e : M.testBit 55 = false) (e2 : M.testBit 38 = false) : t.sync = r.sync := by
  rw [h.sync_but_waiters e, h.sync_waiters e2]

theorem Alters.fab_but_reqs {M : Nat} {r t : State} (h : Alters M r t) (e : M.testBit 56 = false) : t.fab = { r.fab with reqs := t.fab.reqs } := by
  have k := congrArg (fun c : FabState => { c with reqs := t.fab.reqs }) (h.fab_rest e)
  exact k

theorem Alters.fab_eq {M : Nat} {r t : State} (h : Alters M r t) (e : M.testBit 56 = false) (e2 : M.testBit 41 = false) : t.fab = r.fab := by
  rw [h.fab_but_reqs e, h.fab_reqs e2]


theorem Alters.ite {M : Nat} {r a b : State} {c : Prop} [Decidable c] (h : Alters M r a) (k : Alters M r b) : Alters M r (if c then a else b) := by
  split
  · exact h
  · exact k

theorem Alters.iteS {M : Nat} {α : Type} {r : State} {a b : α × State} {c : Prop} [Decidable c] (h : Alters M r a.2) (k : Alters M r b.2) :
    Alters M r (if c then a else b).2 := by
  split
  · exact h
  · exact k

theorem AltersOut.next {M : Nat} {r t : State} (h : Alters M r t) : AltersOut M r (.next t) := ⟨t, rfl, h⟩

theorem AltersOut.ite {M : Nat} {r : State} {a b : Host.Outcome State Fault Refusal} {c : Prop} [Decidable c] (h : AltersOut M r a)
    (k : AltersOut M r b) : AltersOut M r (if c then a else b) := by
  split
  · exact h
  · exact k

theorem Alters.foldlP {M : Nat} {α β : Type} {r : State} {p : β → State} {f : β → α → β} : ∀ (l : List α) {b : β}, Alters M r (p b) →
    (∀ t x, Alters M r (p t) → Alters M r (p (f t x))) → Alters M r (p (l.foldl f b))
  | [], _, h, _ => h
  | x :: l, _, h, hf => Alters.foldlP l (hf _ x h) hf

theorem Alters.foldl {M : Nat} {α : Type} {r : State} {f : State → α → State} (l : List α) {s : State} (h : Alters M r s)
    (hf : ∀ t x, Alters M r t → Alters M r (f t x)) : Alters M r (l.foldl f s) := Alters.foldlP (p := id) l h hf

theorem Alters.foldlT {M : Nat} {α β γ : Type} {r : State} {f : β × γ × State → α → β × γ × State} (l : List α) {b : β × γ × State}
    (h : Alters M r b.2.2) (hf : ∀ t x, Alters M r t.2.2 → Alters M r (f t x).2.2) : Alters M r (l.foldl f b).2.2 :=
  Alters.foldlP (p := fun x : β × γ × State => x.2.2) l h hf

theorem Alters.fst {M : Nat} {α : Type} {r t : State} {a : α} {e : State × α} (q : e = (t, a)) (h : Alters M r e.1) : Alters M r t := by
  rw [q] at h; exact h

theorem Alters.snd {M : Nat} {α : Type} {r t : State} {a : α} {e : α × State} (q : e = (a, t)) (h : Alters M r e.2) : Alters M r t := by
  rw [q] at h; exact h

theorem Alters.thd {M : Nat} {α β : Type} {r t : State} {a : α} {b : β} {e : α × β × State} (q : e = (a, b, t)) (h : Alters M r e.2.2) :
    Alters M r t := by
  rw [q] at h; exact h

end Sys2Proof.Laws
end

