-- ==== Sys2Proof/Laws/AltersAwake.lean ====
section
/-! SUPPORT. Laws/AltersAwake.lean: which kinds of state the operations of Machine/Awake.lean may change (Laws/Alters.lean). -/
namespace Sys2Proof.Laws
open Sys2Proof.Machine
set_option linter.all false

theorem alters_modPwr {M : Nat} {r : State} (n : Nat) (f : SlcPwr → SlcPwr) (s : State) (h3 : Alters M r s) (hm : Within 4398046511104 M) :
    Alters M r (modPwr n f s) := by
  unfold modPwr
  try extract_lets
  repeat' first
    | with_reducible assumption
    | ((with_reducible refine Within.of hm ?_); exact rfl)
    | intro _
    | exact ctlAlters_pwr _ _ (Within.of hm rfl)
    | exact ctlAlters_rest _ _ (Within.of hm rfl) rfl
    | exact ctlAlters_any _ _ (Within.of hm rfl)
    | with_reducible apply alters_set_ctl
    | simp only [AltersF.mkIff]
    | simp +zetaDelta only [AltersF.mkIff]
    | assumption

theorem alters_touch {M : Nat} {r : State} (n : Nat) (kind : Nat) (id : Nat) (s : State) (h4 : Alters M r s) (hm : Within 4398046511104 M) :
    Alters M r (touch n kind id s).2 := by
  unfold touch
  try extract_lets
  repeat' first
    | with_reducible assumption
    | ((with_reducible refine Within.of hm ?_); exact rfl)
    | intro _
    | with_reducible apply alters_modPwr
    | with_reducible apply Alters.iteS
    | with_reducible apply Alters.ite
    | (refine Alters.snd (by assumption) ?_)
    | (refine Alters.fst (by assumption) ?_)
    | (refine Alters.thd (by assumption) ?_)
    | split
    | simp +zetaDelta only [AltersF.mkIff]
    | assumption

theorem alters_touchAll {M : Nat} {r : State} (ns : List Nat) (kind : Nat) (id : Nat) (s : State) (h4 : Alters M r s) (hm : Within 4398046511104 M) :
    Alters M r (touchAll ns kind id s).2 := by
  unfold touchAll
  try extract_lets
  repeat' first
    | with_reducible assumption
    | ((with_reducible refine Within.of hm ?_); exact rfl)
    | intro _
    | with_reducible apply alters_touch
    | with_reducible apply Alters.foldl
    | with_reducible apply Alters.foldlP (p := Prod.snd)
    | with_reducible apply Alters.foldlP (p := Prod.fst)
    | with_reducible apply Alters.foldlT
    | (refine Alters.snd (by assumption) ?_)
    | (refine Alters.fst (by assumption) ?_)
    | (refine Alters.thd (by assumption) ?_)
    | split
    | simp +zetaDelta only [AltersF.mkIff]
    | assumption

theorem alters_feedTenant {M : Nat} {r : State} (t : Nat) (s : State) (h2 : Alters M r s) (hm : Within 35184372088832 M) :
    Alters M r (feedTenant t s) := by
  unfold feedTenant
  try extract_lets
  repeat' first
    | with_reducible assumption
    | ((with_reducible refine Within.of hm ?_); exact rfl)
    | intro _
    | with_reducible apply Alters.ite
    | with_reducible apply alters_set_meter
    | simp only [AltersF.mkIff]
    | split
    | simp +zetaDelta only [AltersF.mkIff]
    | assumption

end Sys2Proof.Laws
end

