-- ==== Sys2Proof/Laws/AltersOps.lean ====
section
/-! SUPPORT. Laws/AltersOps.lean: which kinds of state the operations of Machine/Ops.lean may change (Laws/Alters.lean). -/
namespace Sys2Proof.Laws
open Sys2Proof.Machine
set_option linter.all false

theorem alters_freshId {M : Nat} {r : State} (s : State) (h1 : Alters M r s) (hm : Within 2 M) :
    Alters M r (freshId s).2 := by
  unfold freshId
  try extract_lets
  repeat' first
    | with_reducible assumption
    | ((with_reducible refine Within.of hm ?_); exact rfl)
    | intro _
    | with_reducible apply alters_set_nextId
    | simp only [AltersF.mkIff]
    | simp +zetaDelta only [AltersF.mkIff]
    | assumption

theorem alters_setCtx {M : Nat} {r : State} (c : Nat) (x : Option Ctx) (s : State) (h3 : Alters M r s) (hm : Within 786432 M) :
    Alters M r (setCtx c x s) := by
  unfold setCtx
  try extract_lets
  repeat' first
    | with_reducible assumption
    | ((with_reducible refine Within.of hm ?_); exact rfl)
    | intro _
    | with_reducible apply alters_set_ctxs
    | simp only [AltersF.mkIff]
    | simp +zetaDelta only [AltersF.mkIff]
    | assumption

theorem alters_modCtx {M : Nat} {r : State} (c : Nat) (f : Ctx → Ctx) (s : State) (h3 : Alters M r s) (hm : Within 786432 M) :
    Alters M r (modCtx c f s) := by
  unfold modCtx
  try extract_lets
  repeat' first
    | with_reducible assumption
    | ((with_reducible refine Within.of hm ?_); exact rfl)
    | intro _
    | with_reducible apply alters_setCtx
    | (refine Alters.snd (by assumption) ?_)
    | (refine Alters.fst (by assumption) ?_)
    | (refine Alters.thd (by assumption) ?_)
    | split
    | simp +zetaDelta only [AltersF.mkIff]
    | assumption

/-- A change of what is only counted of a context. -/
theorem alters_modCtx_core {M : Nat} {r : State} (c : Nat) (f : Ctx → Ctx) (s : State) (h : Alters M r s) (hf : ∀ x, (f x).core = x.core)
    (hm : Within 262144 M) : Alters M r (modCtx c f s) := by
  unfold modCtx
  split
  · next x e =>
    refine h.trans ?_
    have k : ∀ i, ((ctxOf (setCtx c (some (f x)) s) i).map Ctx.core) = (ctxOf s i).map Ctx.core := by
      intro i
      simp only [ctxOf, setCtx, mput, reduceCtorEq, if_false, mget_minsert_any]
      split
      · next q =>
        subst q
        unfold ctxOf at e
        rw [e, Option.map_some, Option.map_some, hf]
      · rfl
    exact ⟨rfl, rfl, rfl, rfl, rfl, rfl, fun _ => rfl, fun _ => rfl, fun _ => rfl, fun _ => rfl, fun _ => rfl, fun _ => rfl, fun _ => rfl, fun _ => rfl, fun _ => rfl, fun _ => rfl, fun _ => rfl, fun _ => rfl, fun _ => rfl, fun _ => rfl, fun _ => rfl, fun _ => rfl, fun _ => rfl, fun _ => rfl, fun e => hm.clash (i := 18) rfl e, fun _ => k, fun _ => rfl, fun _ => rfl, fun _ => rfl, fun _ => rfl, fun _ => rfl, fun _ => rfl, fun _ => rfl, fun _ => rfl, fun _ => rfl, fun _ => rfl, fun _ => rfl, fun _ => rfl, fun _ => rfl, fun _ => rfl, fun _ => rfl, fun _ => rfl, fun _ => rfl, fun _ => rfl, fun _ => rfl, fun _ => rfl, fun _ => rfl, fun _ => rfl, fun _ => rfl, fun _ => rfl, fun _ => rfl, fun _ => rfl, fun _ => rfl, fun _ => rfl, fun _ => rfl, fun _ => rfl, fun _ => rfl, fun _ => rfl, fun _ => rfl, fun _ => rfl, fun _ => rfl, fun _ => rfl, fun _ => rfl⟩
  · exact h

theorem alters_teleAdd {M : Nat} {r : State} (c : Nat) (i : Nat) (n : Nat) (s : State) (h4 : Alters M r s) (hm : Within 262144 M) :
    Alters M r (teleAdd c i n s) := by
  unfold teleAdd
  try extract_lets
  repeat' first
    | exact fun _ => rfl
    | with_reducible assumption
    | ((with_reducible refine Within.of hm ?_); exact rfl)
    | intro _
    | with_reducible apply alters_modCtx_core
    | simp +zetaDelta only [AltersF.mkIff]
    | assumption

theorem alters_modSlice {M : Nat} {r : State} (n : Nat) (f : SliceRec → SliceRec) (s : State) (h3 : Alters M r s) (hm : Within 2097152 M) :
    Alters M r (modSlice n f s) := by
  unfold modSlice
  try extract_lets
  repeat' first
    | with_reducible assumption
    | ((with_reducible refine Within.of hm ?_); exact rfl)
    | intro _
    | with_reducible apply alters_set_slices
    | simp only [AltersF.mkIff]
    | simp +zetaDelta only [AltersF.mkIff]
    | assumption

theorem alters_logEvent {M : Nat} {r : State} (e : LogEntry) (s : State) (h2 : Alters M r s) (hm : Within 65536 M) :
    Alters M r (logEvent e s) := by
  unfold logEvent
  try extract_lets
  repeat' first
    | with_reducible assumption
    | ((with_reducible refine Within.of hm ?_); exact rfl)
    | intro _
    | with_reducible apply Alters.ite
    | with_reducible apply alters_set_log
    | simp only [AltersF.mkIff]
    | split
    | simp +zetaDelta only [AltersF.mkIff]
    | assumption

theorem alters_report {M : Nat} {r : State} (st : Status) (src : Nat) (lslice : Nat) (unit : Nat) (who : Who) (ctx : Nat) (addr : Nat) (s : State) (h8 : Alters M r s) (hm : Within 65536 M) :
    Alters M r (report st src lslice unit who ctx addr s) := by
  unfold report
  try extract_lets
  repeat' first
    | with_reducible assumption
    | ((with_reducible refine Within.of hm ?_); exact rfl)
    | intro _
    | with_reducible apply alters_logEvent
    | simp +zetaDelta only [AltersF.mkIff]
    | assumption

theorem alters_drawFree {M : Nat} {r : State} (s : State) (h1 : Alters M r s) (hm : Within 1 M) :
    Alters M r (drawFree s) := by
  unfold drawFree
  try extract_lets
  repeat' first
    | with_reducible assumption
    | ((with_reducible refine Within.of hm ?_); exact rfl)
    | intro _
    | with_reducible apply alters_set_freeCtr
    | simp only [AltersF.mkIff]
    | simp +zetaDelta only [AltersF.mkIff]
    | assumption

theorem alters_modCmd {M : Nat} {r : State} (id : Nat) (f : Cmd → Cmd) (s : State) (h3 : Alters M r s) (hm : Within 1073741824 M) :
    Alters M r (modCmd id f s) := by
  unfold modCmd
  try extract_lets
  repeat' first
    | with_reducible assumption
    | ((with_reducible refine Within.of hm ?_); exact rfl)
    | intro _
    | with_reducible apply alters_set_cmds
    | simp only [AltersF.mkIff]
    | simp +zetaDelta only [AltersF.mkIff]
    | assumption

theorem alters_cmdDone {M : Nat} {r : State} (id : Nat) (st : Status) (count : Nat) (result : Nat) (s : State) (h5 : Alters M r s) (hm : Within 1073741824 M) :
    Alters M r (cmdDone id st count result s) := by
  unfold cmdDone
  try extract_lets
  repeat' first
    | with_reducible assumption
    | ((with_reducible refine Within.of hm ?_); exact rfl)
    | intro _
    | with_reducible apply alters_modCmd
    | with_reducible apply Alters.ite
    | split
    | simp +zetaDelta only [AltersF.mkIff]
    | assumption

theorem alters_emit {M : Nat} {r : State} (o : Out) (s : State) (h2 : Alters M r s) (hm : Within 1099511627776 M) :
    Alters M r (emit o s) := by
  unfold emit
  try extract_lets
  repeat' first
    | with_reducible assumption
    | ((with_reducible refine Within.of hm ?_); exact rfl)
    | intro _
    | with_reducible apply alters_set_outbox
    | simp only [AltersF.mkIff]
    | simp +zetaDelta only [AltersF.mkIff]
    | assumption

theorem alters_cmdRefuse {M : Nat} {r : State} (id : Nat) (st : Status) (result : Nat) (s : State) (h4 : Alters M r s) (hm : Within 1073741824 M) :
    Alters M r (cmdRefuse id st result s) := by
  unfold cmdRefuse
  try extract_lets
  repeat' first
    | with_reducible assumption
    | ((with_reducible refine Within.of hm ?_); exact rfl)
    | intro _
    | with_reducible apply alters_modCmd
    | simp +zetaDelta only [AltersF.mkIff]
    | assumption

theorem alters_regPut {M : Nat} {r : State} (d : Nat) (v1 : Nat) (v : Nat) (s : State) (h4 : Alters M r s) (hm : Within 2048 M) :
    Alters M r (regPut d v1 v s) := by
  unfold regPut
  try extract_lets
  repeat' first
    | with_reducible assumption
    | ((with_reducible refine Within.of hm ?_); exact rfl)
    | intro _
    | with_reducible apply alters_set_regs
    | simp only [AltersF.mkIff]
    | simp +zetaDelta only [AltersF.mkIff]
    | assumption

theorem alters_portErr {M : Nat} {r : State} (n : Nat) (p : Nat) (bit : Nat) (s : State) (h4 : Alters M r s) (hm : Within 2048 M) :
    Alters M r (portErr n p bit s) := by
  unfold portErr
  try extract_lets
  repeat' first
    | with_reducible assumption
    | ((with_reducible refine Within.of hm ?_); exact rfl)
    | intro _
    | with_reducible apply alters_regPut
    | simp +zetaDelta only [AltersF.mkIff]
    | assumption

theorem alters_responseFrame {M : Nat} {r : State} (slice : Nat) (dev : Nat) (tag : Nat) (st : Status) (count : Nat) (data : List (Byte × Bool)) (s : State) (h7 : Alters M r s) (hm : Within 1099511627776 M) :
    Alters M r (responseFrame slice dev tag st count data s) := by
  unfold responseFrame
  try extract_lets
  repeat' first
    | with_reducible assumption
    | ((with_reducible refine Within.of hm ?_); exact rfl)
    | intro _
    | with_reducible apply alters_emit
    | simp +zetaDelta only [AltersF.mkIff]
    | assumption

theorem alters_modPort {M : Nat} {r : State} (n : Nat) (p : Nat) (f : PortRec → PortRec) (s : State) (h4 : Alters M r s) (hm : Within 2147483648 M) :
    Alters M r (modPort n p f s) := by
  unfold modPort
  try extract_lets
  repeat' first
    | with_reducible assumption
    | ((with_reducible refine Within.of hm ?_); exact rfl)
    | intro _
    | with_reducible apply alters_set_ports
    | simp only [AltersF.mkIff]
    | simp +zetaDelta only [AltersF.mkIff]
    | assumption

theorem alters_sendHeld {M : Nat} {r : State} (n : Nat) (p : Nat) (s : State) (h3 : Alters M r s) (hm : Within 1101659111424 M) :
    Alters M r (sendHeld n p s) := by
  unfold sendHeld
  try extract_lets
  repeat' first
    | with_reducible assumption
    | ((with_reducible refine Within.of hm ?_); exact rfl)
    | intro _
    | with_reducible apply alters_modPort
    | with_reducible apply alters_emit
    | with_reducible apply Alters.ite
    | with_reducible apply Alters.foldl
    | with_reducible apply Alters.foldlP (p := Prod.snd)
    | with_reducible apply Alters.foldlP (p := Prod.fst)
    | with_reducible apply Alters.foldlT
    | (refine Alters.snd (by assumption) ?_)
    | (refine Alters.fst (by assumption) ?_)
    | (refine Alters.thd (by assumption) ?_)
    | split
    | simp +zetaDelta only [AltersF.mkIff]
    | assumption

theorem alters_answer {M : Nat} {r : State} (n : Nat) (p : Nat) (id : Nat) (o : Out) (s : State) (h5 : Alters M r s) (hm : Within 1101659111424 M) :
    Alters M r (answer n p id o s) := by
  unfold answer
  try extract_lets
  repeat' first
    | with_reducible assumption
    | ((with_reducible refine Within.of hm ?_); exact rfl)
    | intro _
    | with_reducible apply alters_emit
    | with_reducible apply alters_modPort
    | with_reducible apply alters_sendHeld
    | with_reducible apply Alters.ite
    | split
    | simp +zetaDelta only [AltersF.mkIff]
    | assumption

theorem alters_respond {M : Nat} {r : State} (o : PortOp) (st : Status) (count : Nat) (data : List (Byte × Bool)) (zeroRows : List Nat) (s : State) (h6 : Alters M r s) (hm : Within 1105954080768 M) :
    Alters M r (respond o st count data zeroRows s) := by
  unfold respond
  try extract_lets
  repeat' first
    | with_reducible assumption
    | ((with_reducible refine Within.of hm ?_); exact rfl)
    | intro _
    | with_reducible apply alters_portErr
    | with_reducible apply alters_responseFrame
    | with_reducible apply alters_answer
    | with_reducible apply Alters.ite
    | (refine Alters.snd (by assumption) ?_)
    | (refine Alters.fst (by assumption) ?_)
    | (refine Alters.thd (by assumption) ?_)
    | with_reducible apply alters_set_ops
    | simp only [AltersF.mkIff]
    | split
    | simp +zetaDelta only [AltersF.mkIff]
    | assumption

theorem alters_finish {M : Nat} {r : State} (o : Origin) (st : Status) (s : State) (h3 : Alters M r s) (hm : Within 1107027822592 M) :
    Alters M r (finish o st s) := by
  unfold finish
  try extract_lets
  repeat' first
    | with_reducible assumption
    | ((with_reducible refine Within.of hm ?_); exact rfl)
    | intro _
    | with_reducible apply alters_cmdDone
    | with_reducible apply alters_emit
    | with_reducible apply alters_respond
    | with_reducible apply Alters.ite
    | (refine Alters.snd (by assumption) ?_)
    | (refine Alters.fst (by assumption) ?_)
    | (refine Alters.thd (by assumption) ?_)
    | split
    | simp +zetaDelta only [AltersF.mkIff]
    | assumption

theorem alters_dropReg {M : Nat} {r : State} (st : Status) (by_ : RegBy) (addr : Nat) (s : State) (h4 : Alters M r s) (hm : Within 65536 M) :
    Alters M r (dropReg st by_ addr s).2 := by
  unfold dropReg
  try extract_lets
  repeat' first
    | with_reducible assumption
    | ((with_reducible refine Within.of hm ?_); exact rfl)
    | intro _
    | with_reducible apply alters_report
    | simp +zetaDelta only [AltersF.mkIff]
    | assumption

theorem alters_reservedReg {M : Nat} {r : State} (by_ : RegBy) (addr : Nat) (s : State) (h3 : Alters M r s) (hm : Within 65536 M) :
    Alters M r (reservedReg by_ addr s).2 := by
  unfold reservedReg
  try extract_lets
  repeat' first
    | with_reducible assumption
    | ((with_reducible refine Within.of hm ?_); exact rfl)
    | intro _
    | with_reducible apply alters_dropReg
    | with_reducible apply Alters.iteS
    | with_reducible apply Alters.ite
    | split
    | simp +zetaDelta only [AltersF.mkIff]
    | assumption

theorem alters_setPart {M : Nat} {r : State} (p : Nat) (x : PartRec) (s : State) (h3 : Alters M r s) (hm : Within 1048576 M) :
    Alters M r (setPart p x s) := by
  unfold setPart
  try extract_lets
  repeat' first
    | with_reducible assumption
    | ((with_reducible refine Within.of hm ?_); exact rfl)
    | intro _
    | with_reducible apply alters_set_parts
    | simp only [AltersF.mkIff]
    | simp +zetaDelta only [AltersF.mkIff]
    | assumption

theorem alters_modOp {M : Nat} {r : State} (id : Nat) (f : PortOp → PortOp) (s : State) (h3 : Alters M r s) (hm : Within 4294967296 M) :
    Alters M r (modOp id f s) := by
  unfold modOp
  try extract_lets
  repeat' first
    | with_reducible assumption
    | ((with_reducible refine Within.of hm ?_); exact rfl)
    | intro _
    | with_reducible apply alters_set_ops
    | simp only [AltersF.mkIff]
    | simp +zetaDelta only [AltersF.mkIff]
    | assumption

theorem alters_zeroUnits {M : Nat} {r : State} (n : Nat) (s : State) (h2 : Alters M r s) (hm : Within 2097152 M) :
    Alters M r (zeroUnits n s) := by
  unfold zeroUnits
  try extract_lets
  repeat' first
    | with_reducible assumption
    | ((with_reducible refine Within.of hm ?_); exact rfl)
    | intro _
    | with_reducible apply alters_modSlice
    | simp +zetaDelta only [AltersF.mkIff]
    | assumption

theorem alters_finishAll {M : Nat} {r : State} (os : List Origin) (st : Status) (s : State) (h3 : Alters M r s) (hm : Within 1107027822592 M) :
    Alters M r (finishAll os st s) := by
  unfold finishAll
  try extract_lets
  repeat' first
    | with_reducible assumption
    | ((with_reducible refine Within.of hm ?_); exact rfl)
    | intro _
    | with_reducible apply alters_finish
    | with_reducible apply Alters.foldl
    | with_reducible apply Alters.foldlP (p := Prod.snd)
    | with_reducible apply Alters.foldlP (p := Prod.fst)
    | with_reducible apply Alters.foldlT
    | simp +zetaDelta only [AltersF.mkIff]
    | assumption

end Sys2Proof.Laws
end

