-- ==== Sys2Proof/Laws/AltersGrants.lean ====
section
/-! SUPPORT. Laws/AltersGrants.lean: which kinds of state the operations of Machine/Grants.lean may change (Laws/Alters.lean). -/
namespace Sys2Proof.Laws
open Sys2Proof.Machine
set_option linter.all false

theorem alters_modReq {M : Nat} {r : State} (id : Nat) (f : FabReq → FabReq) (s : State) (h3 : Alters M r s) (hm : Within 2199023255552 M) :
    Alters M r (modReq id f s) := by
  unfold modReq
  try extract_lets
  repeat' first
    | with_reducible assumption
    | ((with_reducible refine Within.of hm ?_); exact rfl)
    | intro _
    | exact fabAlters_reqs _ _ (Within.of hm rfl)
    | exact fabAlters_rest _ _ (Within.of hm rfl) rfl
    | exact fabAlters_any _ _ (Within.of hm rfl)
    | with_reducible apply alters_set_fab
    | simp only [AltersF.mkIff]
    | simp +zetaDelta only [AltersF.mkIff]
    | assumption

theorem alters_forgetReq {M : Nat} {r : State} (v0 : FabReq) (s : State) (h2 : Alters M r s) (hm : Within 2199023255552 M) :
    Alters M r (forgetReq v0 s) := by
  unfold forgetReq
  try extract_lets
  repeat' first
    | with_reducible assumption
    | ((with_reducible refine Within.of hm ?_); exact rfl)
    | intro _
    | with_reducible apply alters_modReq
    | simp +zetaDelta only [AltersF.mkIff]
    | assumption

theorem alters_sendWithdraw {M : Nat} {r : State} (v0 : FabReq) (s : State) (h2 : Alters M r s) (hm : Within 1099511627776 M) :
    Alters M r (sendWithdraw v0 s) := by
  unfold sendWithdraw
  try extract_lets
  repeat' first
    | with_reducible assumption
    | ((with_reducible refine Within.of hm ?_); exact rfl)
    | intro _
    | with_reducible apply alters_emit
    | simp +zetaDelta only [AltersF.mkIff]
    | assumption

theorem alters_putFrame {M : Nat} {r : State} (n : Nat) (dev : Nat) (res : Nat) (tslice : Nat) (ftype : Nat) (ws : List Word) (data : List Byte) (poison : List Bool) (s : State) (h9 : Alters M r s) (hm : Within 1099511627776 M) :
    Alters M r (putFrame n dev res tslice ftype ws data poison s) := by
  unfold putFrame
  try extract_lets
  repeat' first
    | with_reducible assumption
    | ((with_reducible refine Within.of hm ?_); exact rfl)
    | intro _
    | with_reducible apply alters_emit
    | simp +zetaDelta only [AltersF.mkIff]
    | assumption

theorem alters_creditAnswer {M : Nat} {r : State} (n : Nat) (dev : Nat) (m : CMsg) (data : List Byte) (s : State) (h5 : Alters M r s) (hm : Within 1099511627776 M) :
    Alters M r (creditAnswer n dev m data s) := by
  unfold creditAnswer
  try extract_lets
  repeat' first
    | with_reducible assumption
    | ((with_reducible refine Within.of hm ?_); exact rfl)
    | intro _
    | with_reducible apply alters_putFrame
    | simp +zetaDelta only [AltersF.mkIff]
    | assumption

theorem alters_answerEnds {M : Nat} {r : State} (g : Grant) (s : State) (h2 : Alters M r s) (hm : Within 1099511627776 M) :
    Alters M r (answerEnds g s) := by
  unfold answerEnds
  try extract_lets
  repeat' first
    | with_reducible assumption
    | ((with_reducible refine Within.of hm ?_); exact rfl)
    | intro _
    | with_reducible apply alters_creditAnswer
    | with_reducible apply Alters.ite
    | with_reducible apply Alters.foldl
    | with_reducible apply Alters.foldlP (p := Prod.snd)
    | with_reducible apply Alters.foldlP (p := Prod.fst)
    | with_reducible apply Alters.foldlT
    | (refine Alters.snd (by assumption) ?_)
    | (refine Alters.fst (by assumption) ?_)
    | (refine Alters.thd (by assumption) ?_)
    | split
    | simp +zetaDelta only [AltersF.mkIff]
    | assumption

theorem alters_sweepGrants {M : Nat} {r : State} (s : State) (h1 : Alters M r s) (hm : Within 72058693549555712 M) :
    Alters M r (sweepGrants s) := by
  unfold sweepGrants
  try extract_lets
  repeat' first
    | with_reducible assumption
    | ((with_reducible refine Within.of hm ?_); exact rfl)
    | intro _
    | with_reducible apply alters_answerEnds
    | exact fabAlters_reqs _ _ (Within.of hm rfl)
    | exact fabAlters_rest _ _ (Within.of hm rfl) rfl
    | exact fabAlters_any _ _ (Within.of hm rfl)
    | with_reducible apply Alters.foldl
    | with_reducible apply Alters.foldlP (p := Prod.snd)
    | with_reducible apply Alters.foldlP (p := Prod.fst)
    | with_reducible apply Alters.foldlT
    | with_reducible apply alters_set_fab
    | simp only [AltersF.mkIff]
    | simp +zetaDelta only [AltersF.mkIff]
    | assumption

theorem alters_endGrants {M : Nat} {r : State} (p : Grant → Bool) (failed : Bool) (s : State) (h3 : Alters M r s) (hm : Within 72058693549555712 M) :
    Alters M r (endGrants p failed s) := by
  unfold endGrants
  try extract_lets
  repeat' first
    | with_reducible assumption
    | ((with_reducible refine Within.of hm ?_); exact rfl)
    | intro _
    | with_reducible apply alters_sweepGrants
    | exact fabAlters_reqs _ _ (Within.of hm rfl)
    | exact fabAlters_rest _ _ (Within.of hm rfl) rfl
    | exact fabAlters_any _ _ (Within.of hm rfl)
    | with_reducible apply alters_set_fab
    | simp only [AltersF.mkIff]
    | simp +zetaDelta only [AltersF.mkIff]
    | assumption

theorem alters_dropReq {M : Nat} {r : State} (id : Nat) (s : State) (h2 : Alters M r s) (hm : Within 2199023255552 M) :
    Alters M r (dropReq id s) := by
  unfold dropReq
  try extract_lets
  repeat' first
    | with_reducible assumption
    | ((with_reducible refine Within.of hm ?_); exact rfl)
    | intro _
    | exact fabAlters_reqs _ _ (Within.of hm rfl)
    | exact fabAlters_rest _ _ (Within.of hm rfl) rfl
    | exact fabAlters_any _ _ (Within.of hm rfl)
    | with_reducible apply alters_set_fab
    | simp only [AltersF.mkIff]
    | simp +zetaDelta only [AltersF.mkIff]
    | assumption

theorem alters_dropHeld {M : Nat} {r : State} (part : Nat) (dev : Nat) (handle : Nat) (s : State) (h4 : Alters M r s) (hm : Within 72057594037927936 M) :
    Alters M r (dropHeld part dev handle s) := by
  unfold dropHeld
  try extract_lets
  repeat' first
    | with_reducible assumption
    | ((with_reducible refine Within.of hm ?_); exact rfl)
    | intro _
    | exact fabAlters_reqs _ _ (Within.of hm rfl)
    | exact fabAlters_rest _ _ (Within.of hm rfl) rfl
    | exact fabAlters_any _ _ (Within.of hm rfl)
    | with_reducible apply alters_set_fab
    | simp only [AltersF.mkIff]
    | simp +zetaDelta only [AltersF.mkIff]
    | assumption

theorem alters_sendMsg {M : Nat} {r : State} (v0 : FabReq) (s : State) (h2 : Alters M r s) (hm : Within 3298534883331 M) :
    Alters M r (sendMsg v0 s) := by
  unfold sendMsg
  try extract_lets
  repeat' first
    | with_reducible assumption
    | ((with_reducible refine Within.of hm ?_); exact rfl)
    | intro _
    | with_reducible apply alters_freshId
    | with_reducible apply alters_drawFree
    | with_reducible apply alters_emit
    | exact fabAlters_reqs _ _ (Within.of hm rfl)
    | exact fabAlters_rest _ _ (Within.of hm rfl) rfl
    | exact fabAlters_any _ _ (Within.of hm rfl)
    | (refine Alters.snd (by assumption) ?_)
    | (refine Alters.fst (by assumption) ?_)
    | (refine Alters.thd (by assumption) ?_)
    | with_reducible apply alters_set_fab
    | simp only [AltersF.mkIff]
    | split
    | simp +zetaDelta only [AltersF.mkIff]
    | assumption

theorem alters_sendRelease {M : Nat} {r : State} (home : Nat) (dev : Nat) (ctx : Nat) (part : Nat) (tenant : Nat) (tctx : Nat) (handle : Nat) (origin : Origin) (s : State) (h9 : Alters M r s) (hm : Within 3298534883331 M) :
    Alters M r (sendRelease home dev ctx part tenant tctx handle origin s) := by
  unfold sendRelease
  try extract_lets
  repeat' first
    | with_reducible assumption
    | ((with_reducible refine Within.of hm ?_); exact rfl)
    | intro _
    | with_reducible apply alters_sendMsg
    | simp +zetaDelta only [AltersF.mkIff]
    | assumption

theorem alters_endDeferred {M : Nat} {r : State} (p : Deferral → Bool) (st : Status) (s : State) (h3 : Alters M r s) (hm : Within 72058693549555712 M) :
    Alters M r (endDeferred p st s) := by
  unfold endDeferred
  try extract_lets
  repeat' first
    | with_reducible assumption
    | ((with_reducible refine Within.of hm ?_); exact rfl)
    | intro _
    | with_reducible apply alters_creditAnswer
    | exact fabAlters_reqs _ _ (Within.of hm rfl)
    | exact fabAlters_rest _ _ (Within.of hm rfl) rfl
    | exact fabAlters_any _ _ (Within.of hm rfl)
    | with_reducible apply Alters.foldl
    | with_reducible apply Alters.foldlP (p := Prod.snd)
    | with_reducible apply Alters.foldlP (p := Prod.fst)
    | with_reducible apply Alters.foldlT
    | with_reducible apply alters_set_fab
    | simp only [AltersF.mkIff]
    | simp +zetaDelta only [AltersF.mkIff]
    | assumption

theorem alters_returnCredits {M : Nat} {r : State} (c : Nat) (home : Nat) (part : Nat) (tenant : Nat) (s : State) (h5 : Alters M r s) (hm : Within 72060892572811267 M) :
    Alters M r (returnCredits c home part tenant s) := by
  unfold returnCredits
  try extract_lets
  repeat' first
    | with_reducible assumption
    | ((with_reducible refine Within.of hm ?_); exact rfl)
    | intro _
    | with_reducible apply alters_sendRelease
    | with_reducible apply alters_dropHeld
    | with_reducible apply alters_forgetReq
    | with_reducible apply alters_sendWithdraw
    | with_reducible apply Alters.foldl
    | with_reducible apply Alters.foldlP (p := Prod.snd)
    | with_reducible apply Alters.foldlP (p := Prod.fst)
    | with_reducible apply Alters.foldlT
    | simp +zetaDelta only [AltersF.mkIff]
    | assumption

end Sys2Proof.Laws
end

