-- ==== Sys2Proof/Laws/AltersStore.lean ====
section
/-! SUPPORT. Laws/AltersStore.lean: which kinds of state the operations of Machine/Store.lean may change (Laws/Alters.lean). -/
namespace Sys2Proof.Laws
open Sys2Proof.Machine
set_option linter.all false

theorem alters_integAdd {M : Nat} {r : State} (i : Nat) (n : Nat) (s : State) (h3 : Alters M r s) (hm : Within 131072 M) :
    Alters M r (integAdd i n s) := by
  unfold integAdd
  try extract_lets
  repeat' first
    | with_reducible assumption
    | ((with_reducible refine Within.of hm ?_); exact rfl)
    | intro _
    | with_reducible apply alters_set_integ
    | simp only [AltersF.mkIff]
    | simp +zetaDelta only [AltersF.mkIff]
    | assumption

theorem alters_countMacros {M : Nat} {r : State} (bank : Nat) (ms : List Nat) (s : State) (h3 : Alters M r s) (hm : Within 2097152 M) :
    Alters M r (countMacros bank ms s) := by
  unfold countMacros
  try extract_lets
  repeat' first
    | with_reducible assumption
    | ((with_reducible refine Within.of hm ?_); exact rfl)
    | intro _
    | with_reducible apply alters_modSlice
    | with_reducible apply Alters.ite
    | with_reducible apply Alters.foldl
    | with_reducible apply Alters.foldlP (p := Prod.snd)
    | with_reducible apply Alters.foldlP (p := Prod.fst)
    | with_reducible apply Alters.foldlT
    | split
    | simp +zetaDelta only [AltersF.mkIff]
    | assumption

theorem alters_noteFound {M : Nat} {r : State} (c : Agent) (s : State) (f : Found) (h2 : Alters M r s) (hm : Within 2555936 M) :
    Alters M r (noteFound c s f) := by
  unfold noteFound
  try extract_lets
  repeat' first
    | with_reducible assumption
    | ((with_reducible refine Within.of hm ?_); exact rfl)
    | intro _
    | with_reducible apply alters_integAdd
    | with_reducible apply alters_teleAdd
    | with_reducible apply alters_countMacros
    | with_reducible apply alters_report
    | with_reducible exact MemAlters.refl _ _
    | with_reducible apply memAlters_set_owed
    | with_reducible apply Alters.ite
    | (refine Alters.snd (by assumption) ?_)
    | (refine Alters.fst (by assumption) ?_)
    | (refine Alters.thd (by assumption) ?_)
    | with_reducible apply alters_set_log
    | with_reducible apply alters_set_mem
    | simp only [AltersF.mkIff]
    | split
    | simp +zetaDelta only [AltersF.mkIff]
    | assumption

theorem alters_writeUnit {M : Nat} {r : State} (items : List (Nat × Byte × Bool)) (c : Agent) (acc : State × WriteRes) (u : Nat) (h3 : Alters M r acc.1) (hm : Within 2555964 M) :
    Alters M r (writeUnit items c acc u).1 := by
  unfold writeUnit
  try extract_lets
  repeat' first
    | with_reducible assumption
    | ((with_reducible refine Within.of hm ?_); exact rfl)
    | intro _
    | with_reducible apply alters_noteFound
    | with_reducible exact MemAlters.refl _ _
    | with_reducible apply memAlters_putUnit
    | with_reducible apply Alters.iteS
    | with_reducible apply Alters.ite
    | (refine Alters.snd (by assumption) ?_)
    | (refine Alters.fst (by assumption) ?_)
    | (refine Alters.thd (by assumption) ?_)
    | with_reducible apply alters_set_mem
    | simp only [AltersF.mkIff]
    | split
    | simp +zetaDelta only [AltersF.mkIff]
    | assumption

theorem alters_writeBytes {M : Nat} {r : State} (c : Agent) (items : List (Nat × Byte × Bool)) (s : State) (h3 : Alters M r s) (hm : Within 2555964 M) :
    Alters M r (writeBytes c items s).1 := by
  unfold writeBytes
  try extract_lets
  repeat' first
    | with_reducible assumption
    | ((with_reducible refine Within.of hm ?_); exact rfl)
    | intro _
    | with_reducible apply alters_writeUnit
    | with_reducible apply Alters.foldl
    | with_reducible apply Alters.foldlP (p := Prod.snd)
    | with_reducible apply Alters.foldlP (p := Prod.fst)
    | with_reducible apply Alters.foldlT
    | simp +zetaDelta only [AltersF.mkIff]
    | assumption

theorem alters_noteRead {M : Nat} {r : State} (c : Agent) (ks : List Nat) (s : State) (h3 : Alters M r s) (hm : Within 2555936 M) :
    Alters M r (noteRead c ks s) := by
  unfold noteRead
  try extract_lets
  repeat' first
    | with_reducible assumption
    | ((with_reducible refine Within.of hm ?_); exact rfl)
    | intro _
    | with_reducible apply alters_noteFound
    | with_reducible apply Alters.foldl
    | with_reducible apply Alters.foldlP (p := Prod.snd)
    | with_reducible apply Alters.foldlP (p := Prod.fst)
    | with_reducible apply Alters.foldlT
    | simp +zetaDelta only [AltersF.mkIff]
    | assumption

theorem alters_extWrite {M : Nat} {r : State} (a : Nat) (bs : List (Byte × Bool)) (s : State) (h3 : Alters M r s) (hm : Within 768 M) :
    Alters M r (extWrite a bs s) := by
  unfold extWrite
  try extract_lets
  repeat' first
    | with_reducible assumption
    | ((with_reducible refine Within.of hm ?_); exact rfl)
    | intro _
    | with_reducible exact MemAlters.refl _ _
    | with_reducible apply memAlters_set_ext_extPoison
    | with_reducible apply Alters.foldl
    | with_reducible apply Alters.foldlP (p := Prod.snd)
    | with_reducible apply Alters.foldlP (p := Prod.fst)
    | with_reducible apply Alters.foldlT
    | with_reducible apply alters_set_mem
    | simp only [AltersF.mkIff]
    | simp +zetaDelta only [AltersF.mkIff]
    | assumption

theorem alters_sysWrite {M : Nat} {r : State} (slice : Nat) (off : Nat) (bs : List Byte) (s : State) (h4 : Alters M r s) (hm : Within 64 M) :
    Alters M r (sysWrite slice off bs s) := by
  unfold sysWrite
  try extract_lets
  repeat' first
    | with_reducible assumption
    | ((with_reducible refine Within.of hm ?_); exact rfl)
    | intro _
    | with_reducible exact MemAlters.refl _ _
    | with_reducible apply memAlters_set_sys
    | with_reducible apply alters_set_mem
    | simp only [AltersF.mkIff]
    | simp +zetaDelta only [AltersF.mkIff]
    | assumption

end Sys2Proof.Laws
end

