-- ==== Sys2Proof/Laws/AltersSync.lean ====
section
/-! SUPPORT. Laws/AltersSync.lean: which kinds of state the operations of Machine/Sync.lean may change (Laws/Alters.lean). -/
namespace Sys2Proof.Laws
open Sys2Proof.Machine
set_option linter.all false

theorem alters_modChan {M : Nat} {r : State} (n : Nat) (m : Nat) (c : Nat) (f : Chan → Chan) (s : State) (h5 : Alters M r s) (hm : Within 549755813888 M) :
    Alters M r (modChan n m c f s) := by
  unfold modChan
  try extract_lets
  repeat' first
    | with_reducible assumption
    | ((with_reducible refine Within.of hm ?_); exact rfl)
    | intro _
    | with_reducible apply alters_set_movers
    | simp only [AltersF.mkIff]
    | simp +zetaDelta only [AltersF.mkIff]
    | assumption

theorem alters_dropWaiter {M : Nat} {r : State} (id : Nat) (s : State) (h2 : Alters M r s) (hm : Within 274877906944 M) :
    Alters M r (dropWaiter id s) := by
  unfold dropWaiter
  try extract_lets
  repeat' first
    | with_reducible assumption
    | ((with_reducible refine Within.of hm ?_); exact rfl)
    | intro _
    | exact syncAlters_waiters _ _ (Within.of hm rfl)
    | exact syncAlters_rest _ _ (Within.of hm rfl) rfl
    | exact syncAlters_any _ _ (Within.of hm rfl)
    | with_reducible apply alters_set_sync
    | simp only [AltersF.mkIff]
    | simp +zetaDelta only [AltersF.mkIff]
    | assumption

theorem alters_endWaiter {M : Nat} {r : State} (w : Waiter) (st : Status) (res : Nat) (s : State) (h4 : Alters M r s) (hm : Within 1925219090432 M) :
    Alters M r (endWaiter w st res s) := by
  unfold endWaiter
  try extract_lets
  repeat' first
    | with_reducible assumption
    | ((with_reducible refine Within.of hm ?_); exact rfl)
    | intro _
    | with_reducible apply alters_dropWaiter
    | with_reducible apply alters_cmdDone
    | with_reducible apply alters_modChan
    | with_reducible apply alters_emit
    | with_reducible apply Alters.ite
    | (refine Alters.snd (by assumption) ?_)
    | (refine Alters.fst (by assumption) ?_)
    | (refine Alters.thd (by assumption) ?_)
    | split
    | simp +zetaDelta only [AltersF.mkIff]
    | assumption

theorem alters_decidePlain {M : Nat} {r : State} (ph : Nat) (s : State) (h2 : Alters M r s) (hm : Within 1925219090432 M) :
    Alters M r (decidePlain ph s) := by
  unfold decidePlain
  try extract_lets
  repeat' first
    | with_reducible assumption
    | ((with_reducible refine Within.of hm ?_); exact rfl)
    | intro _
    | with_reducible apply alters_endWaiter
    | with_reducible apply Alters.ite
    | with_reducible apply Alters.foldl
    | with_reducible apply Alters.foldlP (p := Prod.snd)
    | with_reducible apply Alters.foldlP (p := Prod.fst)
    | with_reducible apply Alters.foldlT
    | split
    | simp +zetaDelta only [AltersF.mkIff]
    | assumption

theorem alters_putCounter {M : Nat} {r : State} (ph : Nat) (c : Counter) (s : State) (h3 : Alters M r s) (hm : Within 36028797018963968 M) :
    Alters M r (putCounter ph c s) := by
  unfold putCounter
  try extract_lets
  repeat' first
    | with_reducible assumption
    | ((with_reducible refine Within.of hm ?_); exact rfl)
    | intro _
    | exact syncAlters_waiters _ _ (Within.of hm rfl)
    | exact syncAlters_rest _ _ (Within.of hm rfl) rfl
    | exact syncAlters_any _ _ (Within.of hm rfl)
    | with_reducible apply alters_set_sync
    | simp only [AltersF.mkIff]
    | simp +zetaDelta only [AltersF.mkIff]
    | assumption

theorem alters_decideConsume {M : Nat} {r : State} (ph : Nat) (v1 : List Waiter) (v2 : State) (h3 : Alters M r v2) (hm : Within 36030722238054400 M) :
    Alters M r (decideConsume ph v1 v2) := by
  induction v1 generalizing v2 with
  | nil => exact h3
  | cons w ws ih =>
    unfold decideConsume
    try extract_lets
    split
    · exact ih _ (alters_endWaiter _ _ _ _ (alters_putCounter _ _ _ h3 (hm.of rfl)) (hm.of rfl))
    · exact h3

theorem alters_decideWaiters {M : Nat} {r : State} (ph : Nat) (s : State) (h2 : Alters M r s) (hm : Within 36030722238054400 M) :
    Alters M r (decideWaiters ph s) := by
  unfold decideWaiters
  try extract_lets
  repeat' first
    | with_reducible assumption
    | ((with_reducible refine Within.of hm ?_); exact rfl)
    | intro _
    | with_reducible apply alters_decidePlain
    | with_reducible apply alters_decideConsume
    | simp +zetaDelta only [AltersF.mkIff]
    | assumption

theorem alters_endWaiters {M : Nat} {r : State} (p : Waiter → Bool) (st : Status) (s : State) (h3 : Alters M r s) (hm : Within 1925219090432 M) :
    Alters M r (endWaiters p st s) := by
  unfold endWaiters
  try extract_lets
  repeat' first
    | with_reducible assumption
    | ((with_reducible refine Within.of hm ?_); exact rfl)
    | intro _
    | with_reducible apply alters_endWaiter
    | with_reducible apply Alters.ite
    | with_reducible apply Alters.foldl
    | with_reducible apply Alters.foldlP (p := Prod.snd)
    | with_reducible apply Alters.foldlP (p := Prod.fst)
    | with_reducible apply Alters.foldlT
    | split
    | simp +zetaDelta only [AltersF.mkIff]
    | assumption

theorem alters_reportFault {M : Nat} {r : State} (ph : Nat) (c : Counter) (src : SigSrc) (s : State) (h4 : Alters M r s) (hm : Within 65536 M) :
    Alters M r (reportFault ph c src s) := by
  unfold reportFault
  try extract_lets
  repeat' first
    | with_reducible assumption
    | ((with_reducible refine Within.of hm ?_); exact rfl)
    | intro _
    | with_reducible apply alters_report
    | (refine Alters.snd (by assumption) ?_)
    | (refine Alters.fst (by assumption) ?_)
    | (refine Alters.thd (by assumption) ?_)
    | split
    | simp +zetaDelta only [AltersF.mkIff]
    | assumption

theorem alters_signalCounter {M : Nat} {r : State} (ph : Nat) (op : SigOp) (a : Nat) (src : SigSrc) (s : State) (h5 : Alters M r s) (hm : Within 36030722238119936 M) :
    Alters M r (signalCounter ph op a src s).2.2 := by
  unfold signalCounter
  try extract_lets
  repeat' first
    | with_reducible assumption
    | ((with_reducible refine Within.of hm ?_); exact rfl)
    | intro _
    | with_reducible apply alters_decideWaiters
    | with_reducible apply alters_putCounter
    | with_reducible apply alters_endWaiters
    | with_reducible apply alters_reportFault
    | with_reducible apply Alters.iteS
    | with_reducible apply Alters.ite
    | (refine Alters.snd (by assumption) ?_)
    | (refine Alters.fst (by assumption) ?_)
    | (refine Alters.thd (by assumption) ?_)
    | split
    | simp +zetaDelta only [AltersF.mkIff]
    | assumption

theorem alters_putLock {M : Nat} {r : State} (ph : Nat) (l : Lock) (s : State) (h3 : Alters M r s) (hm : Within 36028797018963968 M) :
    Alters M r (putLock ph l s) := by
  unfold putLock
  try extract_lets
  repeat' first
    | with_reducible assumption
    | ((with_reducible refine Within.of hm ?_); exact rfl)
    | intro _
    | exact syncAlters_waiters _ _ (Within.of hm rfl)
    | exact syncAlters_rest _ _ (Within.of hm rfl) rfl
    | exact syncAlters_any _ _ (Within.of hm rfl)
    | with_reducible apply alters_set_sync
    | simp only [AltersF.mkIff]
    | simp +zetaDelta only [AltersF.mkIff]
    | assumption

theorem alters_giveUpLock {M : Nat} {r : State} (ph : Nat) (abandon : Bool) (s : State) (h3 : Alters M r s) (hm : Within 36030722238054400 M) :
    Alters M r (giveUpLock ph abandon s) := by
  unfold giveUpLock
  try extract_lets
  repeat' first
    | with_reducible assumption
    | ((with_reducible refine Within.of hm ?_); exact rfl)
    | intro _
    | with_reducible apply alters_endWaiter
    | with_reducible apply alters_putLock
    | (refine Alters.snd (by assumption) ?_)
    | (refine Alters.fst (by assumption) ?_)
    | (refine Alters.thd (by assumption) ?_)
    | split
    | simp +zetaDelta only [AltersF.mkIff]
    | assumption

theorem alters_reportForce {M : Nat} {r : State} (ph : Nat) (l : Lock) (s : State) (h3 : Alters M r s) (hm : Within 65536 M) :
    Alters M r (reportForce ph l s) := by
  unfold reportForce
  try extract_lets
  repeat' first
    | with_reducible assumption
    | ((with_reducible refine Within.of hm ?_); exact rfl)
    | intro _
    | with_reducible apply alters_logEvent
    | (refine Alters.snd (by assumption) ?_)
    | (refine Alters.fst (by assumption) ?_)
    | (refine Alters.thd (by assumption) ?_)
    | split
    | simp +zetaDelta only [AltersF.mkIff]
    | assumption

theorem alters_forceRelease {M : Nat} {r : State} (s : State) (ph : Nat) (h1 : Alters M r s) (hm : Within 36030722238119936 M) :
    Alters M r (forceRelease s ph) := by
  unfold forceRelease
  try extract_lets
  repeat' first
    | with_reducible assumption
    | ((with_reducible refine Within.of hm ?_); exact rfl)
    | intro _
    | with_reducible apply alters_giveUpLock
    | with_reducible apply alters_reportForce
    | simp +zetaDelta only [AltersF.mkIff]
    | assumption

end Sys2Proof.Laws
end

