-- ==== Sys2Proof/Laws/AltersQueues.lean ====
section
/-! SUPPORT. Laws/AltersQueues.lean: which kinds of state the operations of Machine/Queues.lean may change (Laws/Alters.lean). -/
namespace Sys2Proof.Laws
open Sys2Proof.Machine
set_option linter.all false

theorem alters_winError {M : Nat} {r : State} (st : Status) (fn : Nat) (c : Nat) (off : Nat) (s : State) (h5 : Alters M r s) (hm : Within 65536 M) :
    Alters M r (winError st fn c off s) := by
  unfold winError
  try extract_lets
  repeat' first
    | with_reducible assumption
    | ((with_reducible refine Within.of hm ?_); exact rfl)
    | intro _
    | with_reducible apply alters_logEvent
    | simp +zetaDelta only [AltersF.mkIff]
    | assumption

theorem alters_countDrop {M : Nat} {r : State} (c : Nat) (s : State) (h2 : Alters M r s) (hm : Within 268435456 M) :
    Alters M r (countDrop c s) := by
  unfold countDrop
  try extract_lets
  repeat' first
    | with_reducible assumption
    | ((with_reducible refine Within.of hm ?_); exact rfl)
    | intro _
    | with_reducible apply alters_set_dbDrop
    | simp only [AltersF.mkIff]
    | simp +zetaDelta only [AltersF.mkIff]
    | assumption

theorem alters_dropMsg {M : Nat} {r : State} (st : Status) (n : Nat) (unit : Nat) (c : Nat) (payload : Nat) (s : State) (h6 : Alters M r s) (hm : Within 268500992 M) :
    Alters M r (dropMsg st n unit c payload s) := by
  unfold dropMsg
  try extract_lets
  repeat' first
    | with_reducible assumption
    | ((with_reducible refine Within.of hm ?_); exact rfl)
    | intro _
    | with_reducible apply alters_countDrop
    | with_reducible apply alters_report
    | simp +zetaDelta only [AltersF.mkIff]
    | assumption

theorem alters_counterAddMsg {M : Nat} {r : State} (unit : Nat) (n : Nat) (c : Nat) (payload : Nat) (lastsig : Nat) (who : Who) (tenantOk : Bool) (s : State) (h8 : Alters M r s) (hm : Within 36035120553066496 M) :
    Alters M r (counterAddMsg unit n c payload lastsig who tenantOk s) := by
  unfold counterAddMsg
  try extract_lets
  repeat' first
    | with_reducible assumption
    | ((with_reducible refine Within.of hm ?_); exact rfl)
    | intro _
    | with_reducible apply alters_dropMsg
    | with_reducible apply alters_signalCounter
    | with_reducible apply alters_touch
    | with_reducible apply Alters.ite
    | (refine Alters.snd (by assumption) ?_)
    | (refine Alters.fst (by assumption) ?_)
    | (refine Alters.thd (by assumption) ?_)
    | split
    | simp +zetaDelta only [AltersF.mkIff]
    | assumption

theorem alters_setDb {M : Nat} {r : State} (q : Nat) (b : Bool) (s : State) (h3 : Alters M r s) (hm : Within 67108864 M) :
    Alters M r (setDb q b s) := by
  unfold setDb
  try extract_lets
  repeat' first
    | with_reducible assumption
    | ((with_reducible refine Within.of hm ?_); exact rfl)
    | intro _
    | with_reducible apply alters_set_dbPend
    | simp only [AltersF.mkIff]
    | simp +zetaDelta only [AltersF.mkIff]
    | assumption

theorem alters_keepPriv {M : Nat} {r : State} (q : Nat) (v1 : QueueRec) (s : State) (h3 : Alters M r s) (hm : Within 64 M) :
    Alters M r (keepPriv q v1 s) := by
  unfold keepPriv
  try extract_lets
  repeat' first
    | with_reducible assumption
    | ((with_reducible refine Within.of hm ?_); exact rfl)
    | intro _
    | with_reducible apply alters_sysWrite
    | simp +zetaDelta only [AltersF.mkIff]
    | assumption

theorem alters_putQueue {M : Nat} {r : State} (q : Nat) (v1 : QueueRec) (s : State) (h3 : Alters M r s) (hm : Within 4194368 M) :
    Alters M r (putQueue q v1 s) := by
  unfold putQueue
  try extract_lets
  repeat' first
    | with_reducible assumption
    | ((with_reducible refine Within.of hm ?_); exact rfl)
    | intro _
    | with_reducible apply alters_keepPriv
    | with_reducible apply Alters.ite
    | with_reducible apply alters_set_queues
    | simp only [AltersF.mkIff]
    | split
    | simp +zetaDelta only [AltersF.mkIff]
    | assumption

theorem alters_modQueue {M : Nat} {r : State} (q : Nat) (f : QueueRec → QueueRec) (s : State) (h3 : Alters M r s) (hm : Within 4194368 M) :
    Alters M r (modQueue q f s) := by
  unfold modQueue
  try extract_lets
  repeat' first
    | with_reducible assumption
    | ((with_reducible refine Within.of hm ?_); exact rfl)
    | intro _
    | with_reducible apply alters_putQueue
    | (refine Alters.snd (by assumption) ?_)
    | (refine Alters.fst (by assumption) ?_)
    | (refine Alters.thd (by assumption) ?_)
    | split
    | simp +zetaDelta only [AltersF.mkIff]
    | assumption

theorem alters_msgAtQueue {M : Nat} {r : State} (kind : Nat) (unit : Nat) (c : Nat) (payload : Nat) (tenantOk : Bool) (v5 : QueueRec) (s : State) (h7 : Alters M r s) (hm : Within 339804224 M) :
    Alters M r (msgAtQueue kind unit c payload tenantOk v5 s) := by
  unfold msgAtQueue
  try extract_lets
  repeat' first
    | with_reducible assumption
    | ((with_reducible refine Within.of hm ?_); exact rfl)
    | intro _
    | with_reducible apply alters_dropMsg
    | with_reducible apply alters_setDb
    | with_reducible apply alters_modQueue
    | with_reducible apply Alters.ite
    | split
    | simp +zetaDelta only [AltersF.mkIff]
    | assumption

theorem alters_startFetch {M : Nat} {r : State} (q : Nat) (w : FetchFor) (s : State) (h3 : Alters M r s) (hm : Within 16777216 M) :
    Alters M r (startFetch q w s) := by
  unfold startFetch
  try extract_lets
  repeat' first
    | with_reducible assumption
    | ((with_reducible refine Within.of hm ?_); exact rfl)
    | intro _
    | with_reducible apply alters_set_qfetch
    | simp only [AltersF.mkIff]
    | simp +zetaDelta only [AltersF.mkIff]
    | assumption

theorem alters_queueMsg {M : Nat} {r : State} (kind : Nat) (unit : Nat) (c : Nat) (payload : Nat) (tenantOk : Bool) (s : State) (h6 : Alters M r s) (hm : Within 4398403092544 M) :
    Alters M r (queueMsg kind unit c payload tenantOk s) := by
  unfold queueMsg
  try extract_lets
  repeat' first
    | with_reducible assumption
    | ((with_reducible refine Within.of hm ?_); exact rfl)
    | intro _
    | with_reducible apply alters_dropMsg
    | with_reducible apply alters_msgAtQueue
    | with_reducible apply alters_touch
    | with_reducible apply alters_startFetch
    | with_reducible apply Alters.ite
    | (refine Alters.snd (by assumption) ?_)
    | (refine Alters.fst (by assumption) ?_)
    | (refine Alters.thd (by assumption) ?_)
    | split
    | simp +zetaDelta only [AltersF.mkIff]
    | assumption

theorem alters_execHostWindowWrite {M : Nat} {r : State} (fn : Nat) (c : Nat) (off : Nat) (size : Nat) (v : DWord) (s : State) (h6 : Alters M r s) (hm : Within 36035121178017856 M) :
    AltersOut M r (execHostWindowWrite fn c off size v s) := by
  unfold execHostWindowWrite
  try extract_lets
  repeat' first
    | with_reducible assumption
    | ((with_reducible refine Within.of hm ?_); exact rfl)
    | intro _
    | with_reducible apply AltersOut.next
    | with_reducible apply alters_winError
    | with_reducible apply alters_counterAddMsg
    | with_reducible apply alters_queueMsg
    | with_reducible apply AltersOut.ite
    | with_reducible apply Alters.ite
    | (refine Alters.snd (by assumption) ?_)
    | (refine Alters.fst (by assumption) ?_)
    | (refine Alters.thd (by assumption) ?_)
    | with_reducible apply alters_set_hwin
    | simp only [AltersF.mkIff]
    | split
    | simp +zetaDelta only [AltersF.mkIff]
    | assumption

theorem alters_dropQueue {M : Nat} {r : State} (q : Nat) (s : State) (h2 : Alters M r s) (hm : Within 4194304 M) :
    Alters M r (dropQueue q s) := by
  unfold dropQueue
  try extract_lets
  repeat' first
    | with_reducible assumption
    | ((with_reducible refine Within.of hm ?_); exact rfl)
    | intro _
    | with_reducible apply alters_set_queues
    | simp only [AltersF.mkIff]
    | simp +zetaDelta only [AltersF.mkIff]
    | assumption

theorem alters_startBack {M : Nat} {r : State} (q : Nat) (s : State) (h2 : Alters M r s) (hm : Within 33554432 M) :
    Alters M r (startBack q s) := by
  unfold startBack
  try extract_lets
  repeat' first
    | with_reducible assumption
    | ((with_reducible refine Within.of hm ?_); exact rfl)
    | intro _
    | with_reducible apply Alters.ite
    | (refine Alters.snd (by assumption) ?_)
    | (refine Alters.fst (by assumption) ?_)
    | (refine Alters.thd (by assumption) ?_)
    | with_reducible apply alters_set_qback
    | simp only [AltersF.mkIff]
    | split
    | simp +zetaDelta only [AltersF.mkIff]
    | assumption

theorem alters_makeRoom {M : Nat} {r : State} (n : Nat) (s : State) (h2 : Alters M r s) (hm : Within 37748736 M) :
    Alters M r (makeRoom n s).2 := by
  unfold makeRoom
  try extract_lets
  repeat' first
    | with_reducible assumption
    | ((with_reducible refine Within.of hm ?_); exact rfl)
    | intro _
    | with_reducible apply alters_dropQueue
    | with_reducible apply alters_startBack
    | with_reducible apply Alters.iteS
    | with_reducible apply Alters.ite
    | with_reducible apply Alters.foldl
    | with_reducible apply Alters.foldlP (p := Prod.snd)
    | with_reducible apply Alters.foldlP (p := Prod.fst)
    | with_reducible apply Alters.foldlT
    | (refine Alters.snd (by assumption) ?_)
    | (refine Alters.fst (by assumption) ?_)
    | (refine Alters.thd (by assumption) ?_)
    | split
    | simp +zetaDelta only [AltersF.mkIff]
    | assumption

theorem alters_modQctl {M : Nat} {r : State} (n : Nat) (f : QctlRec → QctlRec) (s : State) (h3 : Alters M r s) (hm : Within 8388608 M) :
    Alters M r (modQctl n f s) := by
  unfold modQctl
  try extract_lets
  repeat' first
    | with_reducible assumption
    | ((with_reducible refine Within.of hm ?_); exact rfl)
    | intro _
    | with_reducible apply alters_set_qctl
    | simp only [AltersF.mkIff]
    | simp +zetaDelta only [AltersF.mkIff]
    | assumption

theorem alters_qctlEnd {M : Nat} {r : State} (q : Nat) (st : Status) (s : State) (h3 : Alters M r s) (hm : Within 8388608 M) :
    Alters M r (qctlEnd q st s) := by
  unfold qctlEnd
  try extract_lets
  repeat' first
    | with_reducible assumption
    | ((with_reducible refine Within.of hm ?_); exact rfl)
    | intro _
    | with_reducible apply alters_modQctl
    | simp +zetaDelta only [AltersF.mkIff]
    | assumption

theorem alters_setEnabled {M : Nat} {r : State} (q : Nat) (b : Bool) (s : State) (h3 : Alters M r s) (hm : Within 134217728 M) :
    Alters M r (setEnabled q b s) := by
  unfold setEnabled
  try extract_lets
  repeat' first
    | with_reducible assumption
    | ((with_reducible refine Within.of hm ?_); exact rfl)
    | intro _
    | with_reducible apply alters_set_qEnabled
    | simp only [AltersF.mkIff]
    | simp +zetaDelta only [AltersF.mkIff]
    | assumption

theorem alters_enableNow {M : Nat} {r : State} (q : Nat) (delayed : Bool) (ws : List Word) (s : State) (h4 : Alters M r s) (hm : Within 146800706 M) :
    Alters M r (enableNow q delayed ws s) := by
  unfold enableNow
  try extract_lets
  repeat' first
    | with_reducible assumption
    | ((with_reducible refine Within.of hm ?_); exact rfl)
    | intro _
    | with_reducible apply alters_qctlEnd
    | with_reducible apply alters_setEnabled
    | with_reducible apply alters_putQueue
    | with_reducible apply Alters.ite
    | with_reducible apply alters_set_nextId
    | simp only [AltersF.mkIff]
    | split
    | simp +zetaDelta only [AltersF.mkIff]
    | assumption

theorem alters_reEnable {M : Nat} {r : State} (q : Nat) (ws : List Word) (s : State) (h3 : Alters M r s) (hm : Within 12582976 M) :
    Alters M r (reEnable q ws s) := by
  unfold reEnable
  try extract_lets
  repeat' first
    | with_reducible assumption
    | ((with_reducible refine Within.of hm ?_); exact rfl)
    | intro _
    | with_reducible apply alters_qctlEnd
    | with_reducible apply alters_modQueue
    | with_reducible apply Alters.ite
    | (refine Alters.snd (by assumption) ?_)
    | (refine Alters.fst (by assumption) ?_)
    | (refine Alters.thd (by assumption) ?_)
    | split
    | simp +zetaDelta only [AltersF.mkIff]
    | assumption

theorem alters_startDisable {M : Nat} {r : State} (q : Nat) (s : State) (h2 : Alters M r s) (hm : Within 4130688993344 M) :
    Alters M r (startDisable q s) := by
  unfold startDisable
  try extract_lets
  repeat' first
    | with_reducible assumption
    | ((with_reducible refine Within.of hm ?_); exact rfl)
    | intro _
    | with_reducible apply alters_modQueue
    | with_reducible apply alters_endWaiters
    | with_reducible apply alters_forgetReq
    | with_reducible apply alters_sendWithdraw
    | with_reducible apply alters_finish
    | with_reducible apply Alters.foldl
    | with_reducible apply Alters.foldlP (p := Prod.snd)
    | with_reducible apply Alters.foldlP (p := Prod.fst)
    | with_reducible apply Alters.foldlT
    | (refine Alters.snd (by assumption) ?_)
    | (refine Alters.fst (by assumption) ?_)
    | (refine Alters.thd (by assumption) ?_)
    | with_reducible apply alters_set_cmds
    | simp only [AltersF.mkIff]
    | split
    | simp +zetaDelta only [AltersF.mkIff]
    | assumption

theorem alters_qctlRun {M : Nat} {r : State} (n : Nat) (v : Nat) (s : State) (h3 : Alters M r s) (hm : Within 4130848376898 M) :
    Alters M r (qctlRun n v s) := by
  unfold qctlRun
  try extract_lets
  repeat' first
    | with_reducible assumption
    | ((with_reducible refine Within.of hm ?_); exact rfl)
    | intro _
    | with_reducible apply alters_modQctl
    | with_reducible apply alters_enableNow
    | with_reducible apply alters_qctlEnd
    | with_reducible apply alters_startFetch
    | with_reducible apply alters_reEnable
    | with_reducible apply alters_startDisable
    | with_reducible apply alters_modQueue
    | with_reducible apply Alters.ite
    | (refine Alters.snd (by assumption) ?_)
    | (refine Alters.fst (by assumption) ?_)
    | (refine Alters.thd (by assumption) ?_)
    | split
    | simp +zetaDelta only [AltersF.mkIff]
    | assumption

theorem alters_qctlMore {M : Nat} {r : State} (v0 : Nat) (v1 : Nat) (v2 : State) (h3 : Alters M r v2) (hm : Within 4130848376898 M) :
    Alters M r (qctlMore v0 v1 v2) := by
  induction v0 generalizing v2 with
  | zero => exact h3
  | succ k ih =>
    unfold qctlMore
    try extract_lets
    split
    · exact ih _ (alters_finish _ _ _ (alters_qctlRun _ _ _ (alters_regPut _ _ _ _ (alters_modQctl _ _ _ h3 (hm.of rfl)) (hm.of rfl)) (hm.of rfl)) (hm.of rfl))
    · exact h3

theorem alters_useQueue {M : Nat} {r : State} (q : Nat) (s : State) (h2 : Alters M r s) (hm : Within 4194370 M) :
    Alters M r (useQueue q s) := by
  unfold useQueue
  try extract_lets
  repeat' first
    | with_reducible assumption
    | ((with_reducible refine Within.of hm ?_); exact rfl)
    | intro _
    | with_reducible apply alters_modQueue
    | with_reducible apply alters_set_nextId
    | simp only [AltersF.mkIff]
    | simp +zetaDelta only [AltersF.mkIff]
    | assumption

theorem alters_serveDoorbell {M : Nat} {r : State} (q : Nat) (v1 : QueueRec) (s : State) (h3 : Alters M r s) (hm : Within 71303234 M) :
    Alters M r (serveDoorbell q v1 s) := by
  unfold serveDoorbell
  try extract_lets
  repeat' first
    | with_reducible assumption
    | ((with_reducible refine Within.of hm ?_); exact rfl)
    | intro _
    | with_reducible apply alters_useQueue
    | with_reducible apply alters_setDb
    | with_reducible apply alters_modQueue
    | (refine Alters.snd (by assumption) ?_)
    | (refine Alters.fst (by assumption) ?_)
    | (refine Alters.thd (by assumption) ?_)
    | split
    | simp +zetaDelta only [AltersF.mkIff]
    | assumption

theorem alters_rackDrop {M : Nat} {r : State} (q : Nat) (v : Nat) (by_ : RegBy) (s : State) (h4 : Alters M r s) (hm : Within 65536 M) :
    Alters M r (rackDrop q v by_ s).2 := by
  unfold rackDrop
  try extract_lets
  repeat' first
    | with_reducible assumption
    | ((with_reducible refine Within.of hm ?_); exact rfl)
    | intro _
    | with_reducible apply alters_report
    | simp +zetaDelta only [AltersF.mkIff]
    | assumption

theorem alters_rackTake {M : Nat} {r : State} (q : Nat) (v : Nat) (by_ : RegBy) (v3 : QueueRec) (s : State) (h5 : Alters M r s) (hm : Within 4261952 M) :
    Alters M r (rackTake q v by_ v3 s).2 := by
  unfold rackTake
  try extract_lets
  repeat' first
    | with_reducible assumption
    | ((with_reducible refine Within.of hm ?_); exact rfl)
    | intro _
    | with_reducible apply alters_modQueue
    | with_reducible apply alters_regPut
    | with_reducible apply alters_rackDrop
    | with_reducible apply Alters.iteS
    | with_reducible apply Alters.ite
    | split
    | simp +zetaDelta only [AltersF.mkIff]
    | assumption

theorem alters_rackFetched {M : Nat} {r : State} (q : Nat) (v : Nat) (by_ : RegBy) (s : State) (h4 : Alters M r s) (hm : Within 1107032082496 M) :
    Alters M r (rackFetched q v by_ s) := by
  unfold rackFetched
  try extract_lets
  repeat' first
    | with_reducible assumption
    | ((with_reducible refine Within.of hm ?_); exact rfl)
    | intro _
    | with_reducible apply alters_rackTake
    | with_reducible apply alters_rackDrop
    | with_reducible apply alters_finish
    | (refine Alters.snd (by assumption) ?_)
    | (refine Alters.fst (by assumption) ?_)
    | (refine Alters.thd (by assumption) ?_)
    | split
    | simp +zetaDelta only [AltersF.mkIff]
    | assumption

theorem alters_fetched {M : Nat} {r : State} (q : Nat) (w : FetchFor) (s1 : State) (h3 : Alters M r s1) (hm : Within 4131217541186 M) :
    Alters M r (fetched q w s1) := by
  unfold fetched
  try extract_lets
  repeat' first
    | with_reducible assumption
    | ((with_reducible refine Within.of hm ?_); exact rfl)
    | intro _
    | with_reducible apply alters_report
    | with_reducible apply alters_setDb
    | with_reducible apply alters_makeRoom
    | with_reducible apply alters_putQueue
    | with_reducible apply alters_qctlMore
    | with_reducible apply alters_qctlEnd
    | with_reducible apply alters_enableNow
    | with_reducible apply alters_reEnable
    | with_reducible apply alters_setEnabled
    | with_reducible apply alters_startDisable
    | with_reducible apply alters_modQueue
    | with_reducible apply alters_serveDoorbell
    | with_reducible apply alters_msgAtQueue
    | with_reducible apply alters_rackFetched
    | with_reducible apply Alters.ite
    | (refine Alters.snd (by assumption) ?_)
    | (refine Alters.fst (by assumption) ?_)
    | (refine Alters.thd (by assumption) ?_)
    | split
    | simp +zetaDelta only [AltersF.mkIff]
    | assumption

theorem alters_execDescriptorFetchDone {M : Nat} {r : State} (q : Nat) (s : State) (h2 : Alters M r s) (hm : Within 4131217541186 M) :
    AltersOut M r (execDescriptorFetchDone q s) := by
  unfold execDescriptorFetchDone
  try extract_lets
  repeat' first
    | with_reducible assumption
    | ((with_reducible refine Within.of hm ?_); exact rfl)
    | intro _
    | with_reducible apply AltersOut.next
    | with_reducible apply alters_makeRoom
    | with_reducible apply alters_fetched
    | with_reducible apply AltersOut.ite
    | with_reducible apply Alters.ite
    | (refine Alters.snd (by assumption) ?_)
    | (refine Alters.fst (by assumption) ?_)
    | (refine Alters.thd (by assumption) ?_)
    | with_reducible apply alters_set_qfetch
    | simp only [AltersF.mkIff]
    | split
    | simp +zetaDelta only [AltersF.mkIff]
    | assumption

theorem alters_qctlWrite {M : Nat} {r : State} (n : Nat) (v : Nat) (by_ : RegBy) (s : State) (h4 : Alters M r s) (hm : Within 8528894888002 M) :
    Alters M r (qctlWrite n v by_ s).2 := by
  unfold qctlWrite
  try extract_lets
  repeat' first
    | with_reducible assumption
    | ((with_reducible refine Within.of hm ?_); exact rfl)
    | intro _
    | with_reducible apply alters_touch
    | with_reducible apply alters_qctlRun
    | with_reducible apply alters_regPut
    | with_reducible apply alters_modQctl
    | with_reducible apply Alters.iteS
    | with_reducible apply Alters.ite
    | (refine Alters.snd (by assumption) ?_)
    | (refine Alters.fst (by assumption) ?_)
    | (refine Alters.thd (by assumption) ?_)
    | split
    | simp +zetaDelta only [AltersF.mkIff]
    | assumption

theorem alters_qctlDbWrite {M : Nat} {r : State} (n : Nat) (v : Nat) (v2 : RegBy) (s : State) (h4 : Alters M r s) (hm : Within 4398113622016 M) :
    Alters M r (qctlDbWrite n v v2 s).2 := by
  unfold qctlDbWrite
  try extract_lets
  repeat' first
    | with_reducible assumption
    | ((with_reducible refine Within.of hm ?_); exact rfl)
    | intro _
    | with_reducible apply alters_setDb
    | with_reducible apply alters_regPut
    | with_reducible apply alters_touch
    | simp +zetaDelta only [AltersF.mkIff]
    | assumption

theorem alters_qctlRackWrite {M : Nat} {r : State} (n : Nat) (v : Nat) (by_ : RegBy) (s : State) (h4 : Alters M r s) (hm : Within 21039168 M) :
    Alters M r (qctlRackWrite n v by_ s).2 := by
  unfold qctlRackWrite
  try extract_lets
  repeat' first
    | with_reducible assumption
    | ((with_reducible refine Within.of hm ?_); exact rfl)
    | intro _
    | with_reducible apply alters_rackTake
    | with_reducible apply alters_startFetch
    | with_reducible apply alters_rackDrop
    | with_reducible apply Alters.iteS
    | with_reducible apply Alters.ite
    | (refine Alters.snd (by assumption) ?_)
    | (refine Alters.fst (by assumption) ?_)
    | (refine Alters.thd (by assumption) ?_)
    | split
    | simp +zetaDelta only [AltersF.mkIff]
    | assumption

theorem alters_disableEnd {M : Nat} {r : State} (q : Nat) (v1 : QueueRec) (s : State) (h3 : Alters M r s) (hm : Within 4130848376898 M) :
    Alters M r (disableEnd q v1 s) := by
  unfold disableEnd
  try extract_lets
  repeat' first
    | with_reducible assumption
    | ((with_reducible refine Within.of hm ?_); exact rfl)
    | intro _
    | with_reducible apply alters_setEnabled
    | with_reducible apply alters_putQueue
    | with_reducible apply alters_dropQueue
    | with_reducible apply alters_modQctl
    | with_reducible apply alters_qctlMore
    | with_reducible apply alters_enableNow
    | with_reducible apply alters_startFetch
    | with_reducible apply alters_qctlEnd
    | with_reducible apply Alters.ite
    | split
    | simp +zetaDelta only [AltersF.mkIff]
    | assumption

theorem alters_execDescriptorWriteBackDone {M : Nat} {r : State} (q : Nat) (ok : Bool) (s : State) (h3 : Alters M r s) (hm : Within 4130881997634 M) :
    AltersOut M r (execDescriptorWriteBackDone q ok s) := by
  unfold execDescriptorWriteBackDone
  try extract_lets
  repeat' first
    | with_reducible assumption
    | ((with_reducible refine Within.of hm ?_); exact rfl)
    | intro _
    | with_reducible apply AltersOut.next
    | with_reducible apply alters_extWrite
    | with_reducible apply alters_report
    | with_reducible apply alters_disableEnd
    | with_reducible apply AltersOut.ite
    | with_reducible apply Alters.ite
    | (refine Alters.snd (by assumption) ?_)
    | (refine Alters.fst (by assumption) ?_)
    | (refine Alters.thd (by assumption) ?_)
    | with_reducible apply alters_set_qback
    | simp only [AltersF.mkIff]
    | split
    | simp +zetaDelta only [AltersF.mkIff]
    | assumption

theorem alters_execQueueDisableDone {M : Nat} {r : State} (q : Nat) (s : State) (h2 : Alters M r s) (hm : Within 4130881931330 M) :
    AltersOut M r (execQueueDisableDone q s) := by
  unfold execQueueDisableDone
  try extract_lets
  repeat' first
    | with_reducible assumption
    | ((with_reducible refine Within.of hm ?_); exact rfl)
    | intro _
    | with_reducible apply AltersOut.next
    | with_reducible apply alters_disableEnd
    | with_reducible apply alters_startBack
    | with_reducible apply alters_putQueue
    | with_reducible apply AltersOut.ite
    | with_reducible apply Alters.ite
    | (refine Alters.snd (by assumption) ?_)
    | (refine Alters.fst (by assumption) ?_)
    | (refine Alters.thd (by assumption) ?_)
    | split
    | simp +zetaDelta only [AltersF.mkIff]
    | assumption

theorem alters_execReplyAck {M : Nat} {r : State} (path : MsgPath) (c : Nat) (v : DWord) (s : State) (h4 : Alters M r s) (hm : Within 4398403092544 M) :
    AltersOut M r (execReplyAck path c v s) := by
  unfold execReplyAck
  try extract_lets
  repeat' first
    | with_reducible assumption
    | ((with_reducible refine Within.of hm ?_); exact rfl)
    | intro _
    | with_reducible apply AltersOut.next
    | with_reducible apply alters_queueMsg
    | with_reducible apply alters_winError
    | with_reducible apply AltersOut.ite
    | with_reducible apply Alters.ite
    | split
    | simp +zetaDelta only [AltersF.mkIff]
    | assumption

theorem alters_execCounterAdd {M : Nat} {r : State} (path : MsgPath) (c : Nat) (v : DWord) (s : State) (h4 : Alters M r s) (hm : Within 36035120553066496 M) :
    AltersOut M r (execCounterAdd path c v s) := by
  unfold execCounterAdd
  try extract_lets
  repeat' first
    | with_reducible assumption
    | ((with_reducible refine Within.of hm ?_); exact rfl)
    | intro _
    | with_reducible apply AltersOut.next
    | with_reducible apply alters_counterAddMsg
    | with_reducible apply alters_winError
    | with_reducible apply AltersOut.ite
    | with_reducible apply Alters.ite
    | (refine Alters.snd (by assumption) ?_)
    | (refine Alters.fst (by assumption) ?_)
    | (refine Alters.thd (by assumption) ?_)
    | split
    | simp +zetaDelta only [AltersF.mkIff]
    | assumption

theorem alters_execDoorbell {M : Nat} {r : State} (path : MsgPath) (c : Nat) (v : DWord) (s : State) (h4 : Alters M r s) (hm : Within 4398403092544 M) :
    AltersOut M r (execDoorbell path c v s) := by
  unfold execDoorbell
  try extract_lets
  repeat' first
    | with_reducible assumption
    | ((with_reducible refine Within.of hm ?_); exact rfl)
    | intro _
    | with_reducible apply AltersOut.next
    | with_reducible apply alters_queueMsg
    | with_reducible apply alters_winError
    | with_reducible apply AltersOut.ite
    | with_reducible apply Alters.ite
    | split
    | simp +zetaDelta only [AltersF.mkIff]
    | assumption

theorem alters_execDoorbellService {M : Nat} {r : State} (q : Nat) (s : State) (h2 : Alters M r s) (hm : Within 88080450 M) :
    AltersOut M r (execDoorbellService q s) := by
  unfold execDoorbellService
  try extract_lets
  repeat' first
    | with_reducible assumption
    | ((with_reducible refine Within.of hm ?_); exact rfl)
    | intro _
    | with_reducible apply AltersOut.next
    | with_reducible apply alters_serveDoorbell
    | with_reducible apply alters_setDb
    | with_reducible apply alters_startFetch
    | with_reducible apply AltersOut.ite
    | with_reducible apply Alters.ite
    | (refine Alters.snd (by assumption) ?_)
    | (refine Alters.fst (by assumption) ?_)
    | (refine Alters.thd (by assumption) ?_)
    | split
    | simp +zetaDelta only [AltersF.mkIff]
    | assumption

end Sys2Proof.Laws
end

