-- ==== Sys2Proof/Laws/AltersSyncCmds.lean ====
section
/-! SUPPORT. Laws/AltersSyncCmds.lean: which kinds of state the operations of Machine/SyncCmds.lean may change (Laws/Alters.lean). -/
namespace Sys2Proof.Laws
open Sys2Proof.Machine
set_option linter.all false

theorem alters_mapObject {M : Nat} {r : State} (s : State) (v : Nat) (c : Nat) (vid : Nat) (ph : Nat) (h1 : Alters M r s) (hm : Within 36028797019750400 M) :
    Alters M r (mapObject s v c vid ph) := by
  unfold mapObject
  try extract_lets
  repeat' first
    | with_reducible assumption
    | ((with_reducible refine Within.of hm ?_); exact rfl)
    | intro _
    | with_reducible apply alters_modCtx
    | with_reducible apply alters_putLock
    | with_reducible apply alters_putCounter
    | with_reducible apply Alters.ite
    | split
    | simp +zetaDelta only [AltersF.mkIff]
    | assumption

theorem alters_unmapObject {M : Nat} {r : State} (s : State) (kind : Nat) (c : Nat) (vid : Nat) (ph : Nat) (h1 : Alters M r s) (hm : Within 36028797019750400 M) :
    Alters M r (unmapObject s kind c vid ph) := by
  unfold unmapObject
  try extract_lets
  repeat' first
    | with_reducible assumption
    | ((with_reducible refine Within.of hm ?_); exact rfl)
    | intro _
    | with_reducible apply alters_modCtx
    | with_reducible apply alters_putLock
    | with_reducible apply alters_putCounter
    | with_reducible apply Alters.ite
    | split
    | simp +zetaDelta only [AltersF.mkIff]
    | assumption

theorem alters_cmapOp {M : Nat} {r : State} (v : Nat) (s : State) (h2 : Alters M r s) (hm : Within 36028797019750400 M) :
    Alters M r (cmapOp v s).2 := by
  unfold cmapOp
  try extract_lets
  repeat' first
    | with_reducible assumption
    | ((with_reducible refine Within.of hm ?_); exact rfl)
    | intro _
    | with_reducible apply alters_mapObject
    | with_reducible apply alters_unmapObject
    | with_reducible apply Alters.iteS
    | with_reducible apply Alters.ite
    | (refine Alters.snd (by assumption) ?_)
    | (refine Alters.fst (by assumption) ?_)
    | (refine Alters.thd (by assumption) ?_)
    | split
    | simp +zetaDelta only [AltersF.mkIff]
    | assumption

theorem alters_cmapWrite {M : Nat} {r : State} (v : Nat) (s : State) (h2 : Alters M r s) (hm : Within 36028797019752448 M) :
    Alters M r (cmapWrite v s) := by
  unfold cmapWrite
  try extract_lets
  repeat' first
    | with_reducible assumption
    | ((with_reducible refine Within.of hm ?_); exact rfl)
    | intro _
    | with_reducible apply alters_regPut
    | with_reducible apply alters_cmapOp
    | (refine Alters.snd (by assumption) ?_)
    | (refine Alters.fst (by assumption) ?_)
    | (refine Alters.thd (by assumption) ?_)
    | split
    | simp +zetaDelta only [AltersF.mkIff]
    | assumption

theorem alters_dbgWrite {M : Nat} {r : State} (v : Nat) (s : State) (h2 : Alters M r s) (hm : Within 2048 M) :
    Alters M r (dbgWrite v s) := by
  unfold dbgWrite
  try extract_lets
  repeat' first
    | with_reducible assumption
    | ((with_reducible refine Within.of hm ?_); exact rfl)
    | intro _
    | with_reducible apply alters_regPut
    | with_reducible apply Alters.foldl
    | with_reducible apply Alters.foldlP (p := Prod.snd)
    | with_reducible apply Alters.foldlP (p := Prod.fst)
    | with_reducible apply Alters.foldlT
    | (refine Alters.snd (by assumption) ?_)
    | (refine Alters.fst (by assumption) ?_)
    | (refine Alters.thd (by assumption) ?_)
    | split
    | simp +zetaDelta only [AltersF.mkIff]
    | assumption

theorem alters_clearAbandonedOn {M : Nat} {r : State} (c : Cmd) (ph : Nat) (s : State) (h3 : Alters M r s) (hm : Within 36028798092705792 M) :
    Alters M r (clearAbandonedOn c ph s) := by
  unfold clearAbandonedOn
  try extract_lets
  repeat' first
    | with_reducible assumption
    | ((with_reducible refine Within.of hm ?_); exact rfl)
    | intro _
    | with_reducible apply alters_cmdDone
    | with_reducible apply alters_putLock
    | with_reducible apply Alters.ite
    | split
    | simp +zetaDelta only [AltersF.mkIff]
    | assumption

theorem alters_execLockClearAbandoned {M : Nat} {r : State} (cmd : Nat) (s : State) (h2 : Alters M r s) (hm : Within 36028798092705792 M) :
    AltersOut M r (execLockClearAbandoned cmd s) := by
  unfold execLockClearAbandoned
  try extract_lets
  repeat' first
    | with_reducible assumption
    | ((with_reducible refine Within.of hm ?_); exact rfl)
    | intro _
    | with_reducible apply AltersOut.next
    | with_reducible apply alters_clearAbandonedOn
    | with_reducible apply alters_cmdRefuse
    | (refine Alters.snd (by assumption) ?_)
    | (refine Alters.fst (by assumption) ?_)
    | (refine Alters.thd (by assumption) ?_)
    | split
    | simp +zetaDelta only [AltersF.mkIff]
    | assumption

theorem alters_rowErr {M : Nat} {r : State} (n : Nat) (st : Status) (s : State) (h3 : Alters M r s) (hm : Within 2048 M) :
    Alters M r (rowErr n st s) := by
  unfold rowErr
  try extract_lets
  repeat' first
    | with_reducible assumption
    | ((with_reducible refine Within.of hm ?_); exact rfl)
    | intro _
    | with_reducible apply alters_portErr
    | with_reducible apply Alters.ite
    | split
    | simp +zetaDelta only [AltersF.mkIff]
    | assumption

theorem alters_regRow {M : Nat} {r : State} (w : RegWriter) (addr : Nat) (f : RegBy → State → RegRes) (s : State) (h3 : ∀ a0 a1, Alters M r a1 → Alters M r (f a0 a1).2) (h4 : Alters M r s) (hm : Within 1099511629824 M) :
    AltersOut M r (regRow w addr f s) := by
  unfold regRow
  try extract_lets
  repeat' first
    | with_reducible assumption
    | ((with_reducible refine Within.of hm ?_); exact rfl)
    | intro _
    | with_reducible apply h3
    | with_reducible apply AltersOut.next
    | with_reducible apply alters_emit
    | with_reducible apply alters_rowErr
    | with_reducible apply AltersOut.ite
    | with_reducible apply Alters.ite
    | (refine Alters.snd (by assumption) ?_)
    | (refine Alters.fst (by assumption) ?_)
    | (refine Alters.thd (by assumption) ?_)
    | split
    | simp +zetaDelta only [AltersF.mkIff]
    | assumption

theorem alters_releaseOn {M : Nat} {r : State} (c : Cmd) (ph : Nat) (s : State) (h3 : Alters M r s) (hm : Within 36030722238054400 M) :
    Alters M r (releaseOn c ph s) := by
  unfold releaseOn
  try extract_lets
  repeat' first
    | with_reducible assumption
    | ((with_reducible refine Within.of hm ?_); exact rfl)
    | intro _
    | with_reducible apply alters_cmdDone
    | with_reducible apply alters_giveUpLock
    | with_reducible apply alters_putLock
    | with_reducible apply Alters.ite
    | split
    | simp +zetaDelta only [AltersF.mkIff]
    | assumption

theorem alters_execLockRelease {M : Nat} {r : State} (cmd : Nat) (s : State) (h2 : Alters M r s) (hm : Within 36030722238054400 M) :
    AltersOut M r (execLockRelease cmd s) := by
  unfold execLockRelease
  try extract_lets
  repeat' first
    | with_reducible assumption
    | ((with_reducible refine Within.of hm ?_); exact rfl)
    | intro _
    | with_reducible apply AltersOut.next
    | with_reducible apply alters_releaseOn
    | with_reducible apply alters_cmdRefuse
    | (refine Alters.snd (by assumption) ?_)
    | (refine Alters.fst (by assumption) ?_)
    | (refine Alters.thd (by assumption) ?_)
    | split
    | simp +zetaDelta only [AltersF.mkIff]
    | assumption

theorem alters_cmapRow {M : Nat} {r : State} (v : Nat) (by_ : RegBy) (s : State) (h3 : Alters M r s) (hm : Within 36028797019817984 M) :
    Alters M r (cmapRow v by_ s).2 := by
  unfold cmapRow
  try extract_lets
  repeat' first
    | with_reducible assumption
    | ((with_reducible refine Within.of hm ?_); exact rfl)
    | intro _
    | with_reducible apply alters_dropReg
    | with_reducible apply alters_cmapWrite
    | with_reducible apply Alters.iteS
    | with_reducible apply Alters.ite
    | split
    | simp +zetaDelta only [AltersF.mkIff]
    | assumption

theorem alters_execMap {M : Nat} {r : State} (v : DWord) (w : RegWriter) (s : State) (h3 : Alters M r s) (hm : Within 36029896531445760 M) :
    AltersOut M r (execMap v w s) := by
  unfold execMap
  try extract_lets
  repeat' first
    | with_reducible assumption
    | ((with_reducible refine Within.of hm ?_); exact rfl)
    | intro _
    | with_reducible apply AltersOut.next
    | with_reducible apply alters_regRow
    | with_reducible apply alters_cmapRow
    | with_reducible apply AltersOut.ite
    | with_reducible apply Alters.ite
    | split
    | simp +zetaDelta only [AltersF.mkIff]
    | assumption

theorem alters_execResetNotify {M : Nat} {r : State} (ctx : Nat) (hid : Nat) (s : State) (h3 : Alters M r s) (hm : Within 36030722238119936 M) :
    AltersOut M r (execResetNotify ctx hid s) := by
  unfold execResetNotify
  try extract_lets
  repeat' first
    | with_reducible assumption
    | ((with_reducible refine Within.of hm ?_); exact rfl)
    | intro _
    | with_reducible apply AltersOut.next
    | with_reducible apply alters_emit
    | with_reducible apply alters_forceRelease
    | with_reducible apply Alters.foldl
    | with_reducible apply Alters.foldlP (p := Prod.snd)
    | with_reducible apply Alters.foldlP (p := Prod.fst)
    | with_reducible apply Alters.foldlT
    | simp +zetaDelta only [AltersF.mkIff]
    | assumption

theorem alters_timeTo {M : Nat} {r : State} (t : Nat) (s : State) (h2 : Alters M r s) (hm : Within 32768 M) :
    Alters M r (timeTo t s) := by
  unfold timeTo
  try extract_lets
  repeat' first
    | with_reducible assumption
    | ((with_reducible refine Within.of hm ?_); exact rfl)
    | intro _
    | with_reducible apply alters_set_rc
    | simp only [AltersF.mkIff]
    | simp +zetaDelta only [AltersF.mkIff]
    | assumption

theorem alters_execUnmap {M : Nat} {r : State} (v : DWord) (w : RegWriter) (s : State) (h3 : Alters M r s) (hm : Within 36029896531445760 M) :
    AltersOut M r (execUnmap v w s) := by
  unfold execUnmap
  try extract_lets
  repeat' first
    | with_reducible assumption
    | ((with_reducible refine Within.of hm ?_); exact rfl)
    | intro _
    | with_reducible apply AltersOut.next
    | with_reducible apply alters_regRow
    | with_reducible apply alters_cmapRow
    | with_reducible apply AltersOut.ite
    | with_reducible apply Alters.ite
    | split
    | simp +zetaDelta only [AltersF.mkIff]
    | assumption

theorem alters_dbgRow {M : Nat} {r : State} (v : Nat) (by_ : RegBy) (s : State) (h3 : Alters M r s) (hm : Within 67584 M) :
    Alters M r (dbgRow v by_ s).2 := by
  unfold dbgRow
  try extract_lets
  repeat' first
    | with_reducible assumption
    | ((with_reducible refine Within.of hm ?_); exact rfl)
    | intro _
    | with_reducible apply alters_dropReg
    | with_reducible apply alters_dbgWrite
    | with_reducible apply Alters.iteS
    | with_reducible apply Alters.ite
    | split
    | simp +zetaDelta only [AltersF.mkIff]
    | assumption

theorem alters_execDbgSelWrite {M : Nat} {r : State} (v : DWord) (w : RegWriter) (s : State) (h3 : Alters M r s) (hm : Within 1099511695360 M) :
    AltersOut M r (execDbgSelWrite v w s) := by
  unfold execDbgSelWrite
  try extract_lets
  repeat' first
    | with_reducible assumption
    | ((with_reducible refine Within.of hm ?_); exact rfl)
    | intro _
    | with_reducible apply AltersOut.next
    | with_reducible apply alters_regRow
    | with_reducible apply alters_dbgRow
    | simp +zetaDelta only [AltersF.mkIff]
    | assumption

theorem alters_waitOn {M : Nat} {r : State} (c : Cmd) (ph : Nat) (s : State) (h3 : Alters M r s) (hm : Within 36030172482240514 M) :
    Alters M r (waitOn c ph s) := by
  unfold waitOn
  try extract_lets
  repeat' first
    | with_reducible assumption
    | ((with_reducible refine Within.of hm ?_); exact rfl)
    | intro _
    | with_reducible apply alters_cmdRefuse
    | with_reducible apply alters_putCounter
    | with_reducible apply alters_cmdDone
    | with_reducible apply alters_emit
    | with_reducible apply alters_freshId
    | with_reducible apply alters_modCmd
    | exact syncAlters_waiters _ _ (Within.of hm rfl)
    | exact syncAlters_rest _ _ (Within.of hm rfl) rfl
    | exact syncAlters_any _ _ (Within.of hm rfl)
    | with_reducible apply Alters.ite
    | (refine Alters.snd (by assumption) ?_)
    | (refine Alters.fst (by assumption) ?_)
    | (refine Alters.thd (by assumption) ?_)
    | with_reducible apply alters_set_sync
    | simp only [AltersF.mkIff]
    | split
    | simp +zetaDelta only [AltersF.mkIff]
    | assumption

theorem alters_execWait {M : Nat} {r : State} (cmd : Nat) (s : State) (h2 : Alters M r s) (hm : Within 36030172482240514 M) :
    AltersOut M r (execWait cmd s) := by
  unfold execWait
  try extract_lets
  repeat' first
    | with_reducible assumption
    | ((with_reducible refine Within.of hm ?_); exact rfl)
    | intro _
    | with_reducible apply AltersOut.next
    | with_reducible apply alters_waitOn
    | with_reducible apply alters_cmdRefuse
    | (refine Alters.snd (by assumption) ?_)
    | (refine Alters.fst (by assumption) ?_)
    | (refine Alters.thd (by assumption) ?_)
    | split
    | simp +zetaDelta only [AltersF.mkIff]
    | assumption

theorem alters_acquireOn {M : Nat} {r : State} (c : Cmd) (ph : Nat) (s : State) (h3 : Alters M r s) (hm : Within 36029072970612738 M) :
    Alters M r (acquireOn c ph s) := by
  unfold acquireOn
  try extract_lets
  repeat' first
    | with_reducible assumption
    | ((with_reducible refine Within.of hm ?_); exact rfl)
    | intro _
    | with_reducible apply alters_cmdDone
    | with_reducible apply alters_putLock
    | with_reducible apply alters_freshId
    | with_reducible apply alters_modCmd
    | exact syncAlters_waiters _ _ (Within.of hm rfl)
    | exact syncAlters_rest _ _ (Within.of hm rfl) rfl
    | exact syncAlters_any _ _ (Within.of hm rfl)
    | with_reducible apply Alters.ite
    | (refine Alters.snd (by assumption) ?_)
    | (refine Alters.fst (by assumption) ?_)
    | (refine Alters.thd (by assumption) ?_)
    | with_reducible apply alters_set_sync
    | simp only [AltersF.mkIff]
    | split
    | simp +zetaDelta only [AltersF.mkIff]
    | assumption

theorem alters_execLockAcquire {M : Nat} {r : State} (cmd : Nat) (s : State) (h2 : Alters M r s) (hm : Within 36029072970612738 M) :
    AltersOut M r (execLockAcquire cmd s) := by
  unfold execLockAcquire
  try extract_lets
  repeat' first
    | with_reducible assumption
    | ((with_reducible refine Within.of hm ?_); exact rfl)
    | intro _
    | with_reducible apply AltersOut.next
    | with_reducible apply alters_acquireOn
    | with_reducible apply alters_cmdRefuse
    | (refine Alters.snd (by assumption) ?_)
    | (refine Alters.fst (by assumption) ?_)
    | (refine Alters.thd (by assumption) ?_)
    | split
    | simp +zetaDelta only [AltersF.mkIff]
    | assumption

end Sys2Proof.Laws
end

