-- ==== Sys2Proof/Laws/AltersWeave.lean ====
section
/-! SUPPORT. Laws/AltersWeave.lean: which kinds of state the operations of Machine/Weave.lean may change (Laws/Alters.lean). -/
namespace Sys2Proof.Laws
open Sys2Proof.Machine
set_option linter.all false

theorem alters_modContract {M : Nat} {r : State} (kind : Nat) (target : Nat) (f : Contract → Contract) (s : State) (h4 : Alters M r s) (hm : Within 137438953472 M) :
    Alters M r (modContract kind target f s) := by
  unfold modContract
  try extract_lets
  repeat' first
    | with_reducible assumption
    | ((with_reducible refine Within.of hm ?_); exact rfl)
    | intro _
    | with_reducible apply alters_set_contracts
    | simp only [AltersF.mkIff]
    | simp +zetaDelta only [AltersF.mkIff]
    | assumption

theorem alters_gMoved {M : Nat} {r : State} (kind : Nat) (target : Nat) (n : Nat) (s : State) (h4 : Alters M r s) (hm : Within 137438953472 M) :
    Alters M r (gMoved kind target n s) := by
  unfold gMoved
  try extract_lets
  repeat' first
    | with_reducible assumption
    | ((with_reducible refine Within.of hm ?_); exact rfl)
    | intro _
    | with_reducible apply alters_modContract
    | simp +zetaDelta only [AltersF.mkIff]
    | assumption

theorem alters_dropWorks {M : Nat} {r : State} (id : Nat) (s : State) (h2 : Alters M r s) (hm : Within 4503737066323968 M) :
    Alters M r (dropWorks id s) := by
  unfold dropWorks
  try extract_lets
  repeat' first
    | with_reducible assumption
    | ((with_reducible refine Within.of hm ?_); exact rfl)
    | intro _
    | with_reducible apply alters_gMoved
    | with_reducible apply Alters.foldl
    | with_reducible apply Alters.foldlP (p := Prod.snd)
    | with_reducible apply Alters.foldlP (p := Prod.fst)
    | with_reducible apply Alters.foldlT
    | with_reducible apply alters_set_works
    | simp only [AltersF.mkIff]
    | simp +zetaDelta only [AltersF.mkIff]
    | assumption

theorem alters_modWork {M : Nat} {r : State} (id : Nat) (f : Work → Work) (s : State) (h3 : Alters M r s) (hm : Within 4503599627370496 M) :
    Alters M r (modWork id f s) := by
  unfold modWork
  try extract_lets
  repeat' first
    | with_reducible assumption
    | ((with_reducible refine Within.of hm ?_); exact rfl)
    | intro _
    | with_reducible apply alters_set_works
    | simp only [AltersF.mkIff]
    | simp +zetaDelta only [AltersF.mkIff]
    | assumption

theorem alters_moveWork {M : Nat} {r : State} (w : Work) (n : Nat) (s : State) (h3 : Alters M r s) (hm : Within 4503737066323968 M) :
    Alters M r (moveWork w n s) := by
  unfold moveWork
  try extract_lets
  repeat' first
    | with_reducible assumption
    | ((with_reducible refine Within.of hm ?_); exact rfl)
    | intro _
    | with_reducible apply alters_gMoved
    | with_reducible apply alters_modWork
    | with_reducible apply Alters.ite
    | split
    | simp +zetaDelta only [AltersF.mkIff]
    | assumption

theorem alters_gTele {M : Nat} {r : State} (w : Nat) (n : Nat) (s : State) (h3 : Alters M r s) (hm : Within 131072 M) :
    Alters M r (gTele w n s) := by
  unfold gTele
  try extract_lets
  repeat' first
    | with_reducible assumption
    | ((with_reducible refine Within.of hm ?_); exact rfl)
    | intro _
    | with_reducible apply alters_integAdd
    | simp +zetaDelta only [AltersF.mkIff]
    | assumption

theorem alters_recordMiss {M : Nat} {r : State} (home : Nat) (src : Nat) (unit : Nat) (who : Who) (ctx : Nat) (addr : Nat) (target : Nat) (ovr : Nat) (rail : Bool) (s : State) (h10 : Alters M r s) (hm : Within 2295808 M) :
    Alters M r (recordMiss home src unit who ctx addr target ovr rail s) := by
  unfold recordMiss
  try extract_lets
  repeat' first
    | with_reducible assumption
    | ((with_reducible refine Within.of hm ?_); exact rfl)
    | intro _
    | with_reducible apply alters_report
    | with_reducible apply alters_modSlice
    | with_reducible apply alters_regPut
    | with_reducible apply alters_gTele
    | with_reducible apply Alters.ite
    | (refine Alters.snd (by assumption) ?_)
    | (refine Alters.fst (by assumption) ?_)
    | (refine Alters.thd (by assumption) ?_)
    | with_reducible apply alters_set_integ
    | simp only [AltersF.mkIff]
    | split
    | simp +zetaDelta only [AltersF.mkIff]
    | assumption

theorem alters_finishBind {M : Nat} {r : State} (o : Origin) (st : Status) (result : Nat) (s : State) (h4 : Alters M r s) (hm : Within 1107027822592 M) :
    Alters M r (finishBind o st result s) := by
  unfold finishBind
  try extract_lets
  repeat' first
    | with_reducible assumption
    | ((with_reducible refine Within.of hm ?_); exact rfl)
    | intro _
    | with_reducible apply alters_cmdDone
    | with_reducible apply alters_finish
    | (refine Alters.snd (by assumption) ?_)
    | (refine Alters.fst (by assumption) ?_)
    | (refine Alters.thd (by assumption) ?_)
    | split
    | simp +zetaDelta only [AltersF.mkIff]
    | assumption

theorem alters_startUnbind {M : Nat} {r : State} (kind : Nat) (target : Nat) (o : Origin) (s : State) (h4 : Alters M r s) (hm : Within 1244466776066 M) :
    Alters M r (startUnbind kind target o s) := by
  unfold startUnbind
  try extract_lets
  repeat' first
    | with_reducible assumption
    | ((with_reducible refine Within.of hm ?_); exact rfl)
    | intro _
    | with_reducible apply alters_freshId
    | with_reducible apply alters_finishBind
    | (refine Alters.snd (by assumption) ?_)
    | (refine Alters.fst (by assumption) ?_)
    | (refine Alters.thd (by assumption) ?_)
    | with_reducible apply alters_set_contracts
    | simp only [AltersF.mkIff]
    | split
    | simp +zetaDelta only [AltersF.mkIff]
    | assumption

theorem alters_unbindPort {M : Nat} {r : State} (target : Nat) (s : State) (h2 : Alters M r s) (hm : Within 1244466776066 M) :
    Alters M r (unbindPort target s) := by
  unfold unbindPort
  try extract_lets
  repeat' first
    | with_reducible assumption
    | ((with_reducible refine Within.of hm ?_); exact rfl)
    | intro _
    | with_reducible apply alters_startUnbind
    | with_reducible apply alters_set_contracts
    | simp only [AltersF.mkIff]
    | simp +zetaDelta only [AltersF.mkIff]
    | assumption

theorem alters_gTake {M : Nat} {r : State} (c : Contract) (n : Nat) (s : State) (h3 : Alters M r s) (hm : Within 137438953472 M) :
    Alters M r (gTake c n s) := by
  unfold gTake
  try extract_lets
  repeat' first
    | with_reducible assumption
    | ((with_reducible refine Within.of hm ?_); exact rfl)
    | intro _
    | with_reducible apply alters_modContract
    | simp +zetaDelta only [AltersF.mkIff]
    | assumption

theorem alters_addWorks {M : Nat} {r : State} (of : Nat) (req : Nat) (k : Option Contract) (kind : Nat) (target : Nat) (ep : Nat) (reqr : Nat → Nat) (l : List (Nat × GSet × Nat × Nat)) (s : State) (h9 : Alters M r s) (hm : Within 4503599627370498 M) :
    Alters M r (addWorks of req k kind target ep reqr l s) := by
  unfold addWorks
  try extract_lets
  repeat' first
    | with_reducible assumption
    | ((with_reducible refine Within.of hm ?_); exact rfl)
    | intro _
    | with_reducible apply alters_freshId
    | with_reducible apply Alters.ite
    | with_reducible apply Alters.foldl
    | with_reducible apply Alters.foldlP (p := Prod.snd)
    | with_reducible apply Alters.foldlP (p := Prod.fst)
    | with_reducible apply Alters.foldlT
    | (refine Alters.snd (by assumption) ?_)
    | (refine Alters.fst (by assumption) ?_)
    | (refine Alters.thd (by assumption) ?_)
    | with_reducible apply alters_set_works
    | simp only [AltersF.mkIff]
    | split
    | simp +zetaDelta only [AltersF.mkIff]
    | assumption

theorem alters_moveWorks {M : Nat} {r : State} (v0 : List Work) (v1 : Nat) (v2 : State) (h3 : Alters M r v2) (hm : Within 4503737066323968 M) :
    Alters M r (moveWorks v0 v1 v2) := by
  induction v0 generalizing v1 v2 with
  | nil => exact h3
  | cons w ws ih =>
    unfold moveWorks
    repeat' first
      | split
      | exact h3
      | exact ih _ _ (alters_moveWork _ _ _ h3 (hm.of rfl))

end Sys2Proof.Laws
end

