-- ==== Sys2Proof/Laws/AltersCmds.lean ====
section
/-! SUPPORT. Laws/AltersCmds.lean: which kinds of state the operations of Machine/Cmds.lean may change (Laws/Alters.lean). -/
namespace Sys2Proof.Laws
open Sys2Proof.Machine
set_option linter.all false

theorem alters_whenAwake {M : Nat} {r : State} (ns : List Nat) (kind : Nat) (id : Nat) (s : State) (f : State → State) (h4 : Alters M r s) (h5 : ∀ a0, Alters M r a0 → Alters M r (f a0)) (hm : Within 4398046511104 M) :
    Alters M r (whenAwake ns kind id s f) := by
  unfold whenAwake
  try extract_lets
  repeat' first
    | with_reducible assumption
    | ((with_reducible refine Within.of hm ?_); exact rfl)
    | intro _
    | with_reducible apply h5
    | with_reducible apply alters_touchAll
    | with_reducible apply Alters.ite
    | (refine Alters.snd (by assumption) ?_)
    | (refine Alters.fst (by assumption) ?_)
    | (refine Alters.thd (by assumption) ?_)
    | split
    | simp +zetaDelta only [AltersF.mkIff]
    | assumption

theorem alters_cmdWrite {M : Nat} {r : State} (who : Who) (ctx : Nat) (a : Nat) (bs : List Byte) (s : State) (h5 : Alters M r s) (hm : Within 2556732 M) :
    Alters M r (cmdWrite who ctx a bs s).2 := by
  unfold cmdWrite
  try extract_lets
  repeat' first
    | with_reducible assumption
    | ((with_reducible refine Within.of hm ?_); exact rfl)
    | intro _
    | with_reducible apply alters_writeBytes
    | with_reducible apply alters_extWrite
    | with_reducible apply Alters.iteS
    | with_reducible apply Alters.ite
    | (refine Alters.snd (by assumption) ?_)
    | (refine Alters.fst (by assumption) ?_)
    | (refine Alters.thd (by assumption) ?_)
    | split
    | simp +zetaDelta only [AltersF.mkIff]
    | assumption

theorem alters_logCheck {M : Nat} {r : State} (c : Cmd) (st : Status) (a : Nat) (s : State) (h4 : Alters M r s) (hm : Within 65536 M) :
    Alters M r (logCheck c st a s) := by
  unfold logCheck
  try extract_lets
  repeat' first
    | with_reducible assumption
    | ((with_reducible refine Within.of hm ?_); exact rfl)
    | intro _
    | with_reducible apply alters_report
    | with_reducible apply Alters.ite
    | split
    | simp +zetaDelta only [AltersF.mkIff]
    | assumption

theorem alters_logRegion {M : Nat} {r : State} (c : Cmd) (st : Status) (a : Nat) (s : State) (h4 : Alters M r s) (hm : Within 65536 M) :
    Alters M r (logRegion c st a s) := by
  unfold logRegion
  try extract_lets
  repeat' first
    | with_reducible assumption
    | ((with_reducible refine Within.of hm ?_); exact rfl)
    | intro _
    | with_reducible apply alters_report
    | with_reducible apply Alters.ite
    | split
    | simp +zetaDelta only [AltersF.mkIff]
    | assumption

theorem alters_destRefuse {M : Nat} {r : State} (c : Cmd) (st : Status) (a : Nat) (s : State) (h4 : Alters M r s) (hm : Within 1073807360 M) :
    Alters M r (destRefuse c st a s) := by
  unfold destRefuse
  try extract_lets
  repeat' first
    | with_reducible assumption
    | ((with_reducible refine Within.of hm ?_); exact rfl)
    | intro _
    | with_reducible apply alters_cmdRefuse
    | with_reducible apply alters_logCheck
    | with_reducible apply alters_logRegion
    | with_reducible apply Alters.ite
    | split
    | simp +zetaDelta only [AltersF.mkIff]
    | assumption

theorem alters_replyLost {M : Nat} {r : State} (c : Cmd) (s : State) (h2 : Alters M r s) (hm : Within 1140916224 M) :
    Alters M r (replyLost c s) := by
  unfold replyLost
  try extract_lets
  repeat' first
    | with_reducible assumption
    | ((with_reducible refine Within.of hm ?_); exact rfl)
    | intro _
    | with_reducible apply alters_report
    | with_reducible apply alters_setDb
    | with_reducible apply alters_set_cmds
    | simp only [AltersF.mkIff]
    | simp +zetaDelta only [AltersF.mkIff]
    | assumption

theorem alters_missCheckCmd {M : Nat} {r : State} (c : Cmd) (s : State) (h2 : Alters M r s) (hm : Within 2557952 M) :
    Alters M r (missCheckCmd c s) := by
  unfold missCheckCmd
  try extract_lets
  repeat' first
    | with_reducible assumption
    | ((with_reducible refine Within.of hm ?_); exact rfl)
    | intro _
    | with_reducible apply alters_teleAdd
    | with_reducible apply alters_recordMiss
    | with_reducible apply Alters.ite
    | (refine Alters.snd (by assumption) ?_)
    | (refine Alters.fst (by assumption) ?_)
    | (refine Alters.thd (by assumption) ?_)
    | split
    | simp +zetaDelta only [AltersF.mkIff]
    | assumption

theorem alters_writeReply {M : Nat} {r : State} (c : Cmd) (s : State) (h2 : Alters M r s) (hm : Within 1080494972 M) :
    Alters M r (writeReply c s) := by
  unfold writeReply
  try extract_lets
  repeat' first
    | with_reducible assumption
    | ((with_reducible refine Within.of hm ?_); exact rfl)
    | intro _
    | with_reducible apply alters_cmdWrite
    | with_reducible apply alters_report
    | with_reducible apply alters_putQueue
    | with_reducible apply alters_modCmd
    | with_reducible apply alters_missCheckCmd
    | with_reducible apply alters_teleAdd
    | with_reducible apply Alters.ite
    | (refine Alters.snd (by assumption) ?_)
    | (refine Alters.fst (by assumption) ?_)
    | (refine Alters.thd (by assumption) ?_)
    | split
    | simp +zetaDelta only [AltersF.mkIff]
    | assumption

theorem alters_execCommandComplete {M : Nat} {r : State} (cmd : Nat) (s : State) (h2 : Alters M r s) (hm : Within 4399227669372 M) :
    AltersOut M r (execCommandComplete cmd s) := by
  unfold execCommandComplete
  try extract_lets
  repeat' first
    | with_reducible assumption
    | ((with_reducible refine Within.of hm ?_); exact rfl)
    | intro _
    | with_reducible apply AltersOut.next
    | with_reducible apply alters_makeRoom
    | with_reducible apply alters_replyLost
    | with_reducible apply alters_whenAwake
    | with_reducible apply alters_writeReply
    | with_reducible apply AltersOut.ite
    | with_reducible apply Alters.ite
    | (refine Alters.snd (by assumption) ?_)
    | (refine Alters.fst (by assumption) ?_)
    | (refine Alters.thd (by assumption) ?_)
    | split
    | simp +zetaDelta only [AltersF.mkIff]
    | assumption

theorem alters_putQirq {M : Nat} {r : State} (q : Nat) (i : QIrq) (s : State) (h3 : Alters M r s) (hm : Within 2251799813685248 M) :
    Alters M r (putQirq q i s) := by
  unfold putQirq
  try extract_lets
  repeat' first
    | with_reducible assumption
    | ((with_reducible refine Within.of hm ?_); exact rfl)
    | intro _
    | with_reducible apply alters_set_qirq
    | simp only [AltersF.mkIff]
    | simp +zetaDelta only [AltersF.mkIff]
    | assumption

theorem alters_stopQueue {M : Nat} {r : State} (q : Nat) (s : State) (h2 : Alters M r s) (hm : Within 4194368 M) :
    Alters M r (stopQueue q s) := by
  unfold stopQueue
  try extract_lets
  repeat' first
    | with_reducible assumption
    | ((with_reducible refine Within.of hm ?_); exact rfl)
    | intro _
    | with_reducible apply alters_modQueue
    | simp +zetaDelta only [AltersF.mkIff]
    | assumption

theorem alters_tookTurn {M : Nat} {r : State} (c : Cmd) (s : State) (h2 : Alters M r s) (hm : Within 8388608 M) :
    Alters M r (tookTurn c s) := by
  unfold tookTurn
  try extract_lets
  repeat' first
    | with_reducible assumption
    | ((with_reducible refine Within.of hm ?_); exact rfl)
    | intro _
    | with_reducible apply alters_modQctl
    | simp +zetaDelta only [AltersF.mkIff]
    | assumption

theorem alters_logRefused {M : Nat} {r : State} (c : Cmd) (st : Status) (s : State) (h3 : Alters M r s) (hm : Within 65536 M) :
    Alters M r (logRefused c st s) := by
  unfold logRefused
  try extract_lets
  repeat' first
    | with_reducible assumption
    | ((with_reducible refine Within.of hm ?_); exact rfl)
    | intro _
    | with_reducible apply alters_logCheck
    | with_reducible apply alters_logRegion
    | with_reducible apply alters_report
    | with_reducible apply Alters.ite
    | (refine Alters.snd (by assumption) ?_)
    | (refine Alters.fst (by assumption) ?_)
    | (refine Alters.thd (by assumption) ?_)
    | split
    | simp +zetaDelta only [AltersF.mkIff]
    | assumption

theorem alters_refusePkt {M : Nat} {r : State} (c : Cmd) (st : Status) (result : Nat) (s : State) (h4 : Alters M r s) (hm : Within 1074200576 M) :
    Alters M r (refusePkt c st result s) := by
  unfold refusePkt
  try extract_lets
  repeat' first
    | with_reducible assumption
    | ((with_reducible refine Within.of hm ?_); exact rfl)
    | intro _
    | with_reducible apply alters_logRefused
    | with_reducible apply alters_teleAdd
    | with_reducible apply alters_gTele
    | with_reducible apply alters_cmdRefuse
    | with_reducible apply alters_modCmd
    | with_reducible apply Alters.ite
    | split
    | simp +zetaDelta only [AltersF.mkIff]
    | assumption

theorem alters_advanceChain {M : Nat} {r : State} (q : Nat) (size : Nat) (s : State) (h3 : Alters M r s) (hm : Within 4194368 M) :
    Alters M r (advanceChain q size s) := by
  unfold advanceChain
  try extract_lets
  repeat' first
    | with_reducible assumption
    | ((with_reducible refine Within.of hm ?_); exact rfl)
    | intro _
    | with_reducible apply alters_modQueue
    | simp +zetaDelta only [AltersF.mkIff]
    | assumption

theorem alters_flushAdmit {M : Nat} {r : State} (c : Cmd) (x : Ctx) (g : Bool) (s : State) (h4 : Alters M r s) (hm : Within 147104727040 M) :
    Alters M r (flushAdmit c x g s) := by
  unfold flushAdmit
  try extract_lets
  repeat' first
    | with_reducible assumption
    | ((with_reducible refine Within.of hm ?_); exact rfl)
    | intro _
    | with_reducible apply alters_modCmd
    | with_reducible apply alters_modSlice
    | with_reducible apply alters_gMoved
    | with_reducible apply Alters.ite
    | with_reducible apply Alters.foldl
    | with_reducible apply Alters.foldlP (p := Prod.snd)
    | with_reducible apply Alters.foldlP (p := Prod.fst)
    | with_reducible apply Alters.foldlT
    | with_reducible apply alters_set_wb
    | simp only [AltersF.mkIff]
    | split
    | simp +zetaDelta only [AltersF.mkIff]
    | assumption

theorem alters_admitPkt {M : Nat} {r : State} (c : Cmd) (g : Option (Contract × Nat × Nat)) (susp : Bool) (s : State) (h4 : Alters M r s) (hm : Within 4503746732490754 M) :
    Alters M r (admitPkt c g susp s) := by
  unfold admitPkt
  try extract_lets
  repeat' first
    | with_reducible assumption
    | ((with_reducible refine Within.of hm ?_); exact rfl)
    | intro _
    | with_reducible apply alters_teleAdd
    | with_reducible apply alters_gTele
    | with_reducible apply alters_gTake
    | with_reducible apply alters_modCmd
    | with_reducible apply alters_flushAdmit
    | with_reducible apply alters_addWorks
    | with_reducible apply Alters.ite
    | (refine Alters.snd (by assumption) ?_)
    | (refine Alters.fst (by assumption) ?_)
    | (refine Alters.thd (by assumption) ?_)
    | split
    | simp +zetaDelta only [AltersF.mkIff]
    | assumption

theorem alters_decidePkt {M : Nat} {r : State} (c : Cmd) (s0 : State) (h2 : Alters M r s0) (hm : Within 4503746745139266 M) :
    Alters M r (decidePkt c s0) := by
  unfold decidePkt
  try extract_lets
  repeat' first
    | with_reducible assumption
    | ((with_reducible refine Within.of hm ?_); exact rfl)
    | intro _
    | with_reducible apply alters_tookTurn
    | with_reducible apply alters_refusePkt
    | with_reducible apply alters_stopQueue
    | with_reducible apply alters_advanceChain
    | with_reducible apply alters_modCmd
    | with_reducible apply alters_admitPkt
    | with_reducible apply Alters.ite
    | (refine Alters.snd (by assumption) ?_)
    | (refine Alters.fst (by assumption) ?_)
    | (refine Alters.thd (by assumption) ?_)
    | split
    | simp +zetaDelta only [AltersF.mkIff]
    | assumption

theorem alters_execHeldPacketAdmit {M : Nat} {r : State} (cmd : Nat) (s : State) (h2 : Alters M r s) (hm : Within 4503746745139266 M) :
    AltersOut M r (execHeldPacketAdmit cmd s) := by
  unfold execHeldPacketAdmit
  try extract_lets
  repeat' first
    | with_reducible assumption
    | ((with_reducible refine Within.of hm ?_); exact rfl)
    | intro _
    | with_reducible apply AltersOut.next
    | with_reducible apply alters_decidePkt
    | with_reducible apply AltersOut.ite
    | with_reducible apply Alters.ite
    | (refine Alters.snd (by assumption) ?_)
    | (refine Alters.fst (by assumption) ?_)
    | (refine Alters.thd (by assumption) ?_)
    | split
    | simp +zetaDelta only [AltersF.mkIff]
    | assumption

theorem alters_execQueryCaps {M : Nat} {r : State} (cmd : Nat) (s : State) (h2 : Alters M r s) (hm : Within 1073741824 M) :
    AltersOut M r (execQueryCaps cmd s) := by
  unfold execQueryCaps
  try extract_lets
  repeat' first
    | with_reducible assumption
    | ((with_reducible refine Within.of hm ?_); exact rfl)
    | intro _
    | with_reducible apply AltersOut.next
    | with_reducible apply alters_cmdRefuse
    | with_reducible apply alters_cmdDone
    | with_reducible apply AltersOut.ite
    | with_reducible apply Alters.ite
    | (refine Alters.snd (by assumption) ?_)
    | (refine Alters.fst (by assumption) ?_)
    | (refine Alters.thd (by assumption) ?_)
    | split
    | simp +zetaDelta only [AltersF.mkIff]
    | assumption

theorem alters_cmdRead {M : Nat} {r : State} (s : State) (who : Who) (ctx : Nat) (a : Nat) (n : Nat) (h1 : Alters M r s) (hm : Within 2555937 M) :
    Alters M r (cmdRead s who ctx a n).2.2 := by
  unfold cmdRead
  try extract_lets
  repeat' first
    | with_reducible assumption
    | ((with_reducible refine Within.of hm ?_); exact rfl)
    | intro _
    | with_reducible apply alters_drawFree
    | with_reducible apply alters_noteRead
    | with_reducible apply Alters.iteS
    | with_reducible apply Alters.ite
    | (refine Alters.snd (by assumption) ?_)
    | (refine Alters.fst (by assumption) ?_)
    | (refine Alters.thd (by assumption) ?_)
    | split
    | simp +zetaDelta only [AltersF.mkIff]
    | assumption

theorem alters_cntEnable {M : Nat} {r : State} (q : Nat) (s : State) (h2 : Alters M r s) (hm : Within 36035120284631040 M) :
    Alters M r (cntEnable q s) := by
  unfold cntEnable
  try extract_lets
  repeat' first
    | with_reducible assumption
    | ((with_reducible refine Within.of hm ?_); exact rfl)
    | intro _
    | with_reducible apply alters_signalCounter
    | with_reducible apply alters_touch
    | with_reducible apply Alters.ite
    | (refine Alters.snd (by assumption) ?_)
    | (refine Alters.fst (by assumption) ?_)
    | (refine Alters.thd (by assumption) ?_)
    | split
    | simp +zetaDelta only [AltersF.mkIff]
    | assumption

theorem alters_queueIrq {M : Nat} {r : State} (q : Nat) (v1 : QueueRec) (s : State) (h3 : Alters M r s) (hm : Within 2252899325313024 M) :
    Alters M r (queueIrq q v1 s) := by
  unfold queueIrq
  try extract_lets
  repeat' first
    | with_reducible assumption
    | ((with_reducible refine Within.of hm ?_); exact rfl)
    | intro _
    | with_reducible apply alters_emit
    | with_reducible apply alters_putQirq
    | with_reducible apply Alters.ite
    | split
    | simp +zetaDelta only [AltersF.mkIff]
    | assumption

theorem alters_execReplyWriteAcknowledged {M : Nat} {r : State} (cmd : Nat) (s : State) (h2 : Alters M r s) (hm : Within 38286920136065088 M) :
    AltersOut M r (execReplyWriteAcknowledged cmd s) := by
  unfold execReplyWriteAcknowledged
  try extract_lets
  repeat' first
    | with_reducible assumption
    | ((with_reducible refine Within.of hm ?_); exact rfl)
    | intro _
    | with_reducible apply AltersOut.next
    | with_reducible apply alters_putQueue
    | with_reducible apply alters_makeRoom
    | with_reducible apply alters_cntEnable
    | with_reducible apply alters_queueIrq
    | with_reducible apply AltersOut.ite
    | with_reducible apply Alters.ite
    | (refine Alters.snd (by assumption) ?_)
    | (refine Alters.fst (by assumption) ?_)
    | (refine Alters.thd (by assumption) ?_)
    | with_reducible apply alters_set_cmds
    | simp only [AltersF.mkIff]
    | split
    | simp +zetaDelta only [AltersF.mkIff]
    | assumption

theorem alters_parkAt {M : Nat} {r : State} (q : Nat) (v1 : QueueRec) (ws : List Word) (s : State) (h4 : Alters M r s) (hm : Within 1077936194 M) :
    Alters M r (parkAt q v1 ws s) := by
  unfold parkAt
  try extract_lets
  repeat' first
    | with_reducible assumption
    | ((with_reducible refine Within.of hm ?_); exact rfl)
    | intro _
    | with_reducible apply alters_modQueue
    | with_reducible apply alters_freshId
    | with_reducible apply Alters.ite
    | (refine Alters.snd (by assumption) ?_)
    | (refine Alters.fst (by assumption) ?_)
    | (refine Alters.thd (by assumption) ?_)
    | with_reducible apply alters_set_cmds
    | simp only [AltersF.mkIff]
    | split
    | simp +zetaDelta only [AltersF.mkIff]
    | assumption

theorem alters_execFence {M : Nat} {r : State} (cmd : Nat) (s : State) (h2 : Alters M r s) (hm : Within 1073741824 M) :
    AltersOut M r (execFence cmd s) := by
  unfold execFence
  try extract_lets
  repeat' first
    | with_reducible assumption
    | ((with_reducible refine Within.of hm ?_); exact rfl)
    | intro _
    | with_reducible apply AltersOut.next
    | with_reducible apply alters_cmdDone
    | with_reducible apply AltersOut.ite
    | with_reducible apply Alters.ite
    | (refine Alters.snd (by assumption) ?_)
    | (refine Alters.fst (by assumption) ?_)
    | (refine Alters.thd (by assumption) ?_)
    | split
    | simp +zetaDelta only [AltersF.mkIff]
    | assumption

theorem alters_fetchFailed {M : Nat} {r : State} (q : Nat) (v1 : QueueRec) (st : Status) (s : State) (h4 : Alters M r s) (hm : Within 1078001730 M) :
    Alters M r (fetchFailed q v1 st s) := by
  unfold fetchFailed
  try extract_lets
  repeat' first
    | with_reducible assumption
    | ((with_reducible refine Within.of hm ?_); exact rfl)
    | intro _
    | with_reducible apply alters_freshId
    | with_reducible apply alters_stopQueue
    | with_reducible apply alters_logCheck
    | (refine Alters.snd (by assumption) ?_)
    | (refine Alters.fst (by assumption) ?_)
    | (refine Alters.thd (by assumption) ?_)
    | with_reducible apply alters_set_cmds
    | simp only [AltersF.mkIff]
    | split
    | simp +zetaDelta only [AltersF.mkIff]
    | assumption

theorem alters_takePacket {M : Nat} {r : State} (q : Nat) (v1 : QueueRec) (ws : List Word) (s : State) (h4 : Alters M r s) (hm : Within 4503746745139266 M) :
    Alters M r (takePacket q v1 ws s) := by
  unfold takePacket
  try extract_lets
  repeat' first
    | with_reducible assumption
    | ((with_reducible refine Within.of hm ?_); exact rfl)
    | intro _
    | with_reducible apply alters_freshId
    | with_reducible apply alters_modQueue
    | with_reducible apply alters_stopQueue
    | with_reducible apply alters_refusePkt
    | with_reducible apply alters_advanceChain
    | with_reducible apply alters_decidePkt
    | with_reducible apply Alters.ite
    | (refine Alters.snd (by assumption) ?_)
    | (refine Alters.fst (by assumption) ?_)
    | (refine Alters.thd (by assumption) ?_)
    | with_reducible apply alters_set_cmds
    | simp only [AltersF.mkIff]
    | split
    | simp +zetaDelta only [AltersF.mkIff]
    | assumption

theorem alters_fetchSlot {M : Nat} {r : State} (q : Nat) (v1 : QueueRec) (s : State) (h3 : Alters M r s) (hm : Within 4503746745139299 M) :
    Alters M r (fetchSlot q v1 s) := by
  unfold fetchSlot
  try extract_lets
  repeat' first
    | with_reducible assumption
    | ((with_reducible refine Within.of hm ?_); exact rfl)
    | intro _
    | with_reducible apply alters_useQueue
    | with_reducible apply alters_modQueue
    | with_reducible apply alters_cmdRead
    | with_reducible apply alters_parkAt
    | with_reducible apply alters_takePacket
    | with_reducible apply alters_fetchFailed
    | with_reducible apply Alters.ite
    | (refine Alters.snd (by assumption) ?_)
    | (refine Alters.fst (by assumption) ?_)
    | (refine Alters.thd (by assumption) ?_)
    | split
    | simp +zetaDelta only [AltersF.mkIff]
    | assumption

theorem alters_execSlotFetch {M : Nat} {r : State} (q : Nat) (s : State) (h2 : Alters M r s) (hm : Within 4508144791650403 M) :
    AltersOut M r (execSlotFetch q s) := by
  unfold execSlotFetch
  try extract_lets
  repeat' first
    | with_reducible assumption
    | ((with_reducible refine Within.of hm ?_); exact rfl)
    | intro _
    | with_reducible apply AltersOut.next
    | with_reducible apply alters_whenAwake
    | with_reducible apply alters_fetchSlot
    | with_reducible apply AltersOut.ite
    | with_reducible apply Alters.ite
    | (refine Alters.snd (by assumption) ?_)
    | (refine Alters.fst (by assumption) ?_)
    | (refine Alters.thd (by assumption) ?_)
    | split
    | simp +zetaDelta only [AltersF.mkIff]
    | assumption

theorem alters_execNop {M : Nat} {r : State} (cmd : Nat) (s : State) (h2 : Alters M r s) (hm : Within 1073741824 M) :
    AltersOut M r (execNop cmd s) := by
  unfold execNop
  try extract_lets
  repeat' first
    | with_reducible assumption
    | ((with_reducible refine Within.of hm ?_); exact rfl)
    | intro _
    | with_reducible apply AltersOut.next
    | with_reducible apply alters_cmdDone
    | (refine Alters.snd (by assumption) ?_)
    | (refine Alters.fst (by assumption) ?_)
    | (refine Alters.thd (by assumption) ?_)
    | split
    | simp +zetaDelta only [AltersF.mkIff]
    | assumption

theorem alters_execLink {M : Nat} {r : State} (cmd : Nat) (s : State) (h2 : Alters M r s) (hm : Within 1077936192 M) :
    AltersOut M r (execLink cmd s) := by
  unfold execLink
  try extract_lets
  repeat' first
    | with_reducible assumption
    | ((with_reducible refine Within.of hm ?_); exact rfl)
    | intro _
    | with_reducible apply AltersOut.next
    | with_reducible apply alters_cmdDone
    | with_reducible apply alters_modQueue
    | (refine Alters.snd (by assumption) ?_)
    | (refine Alters.fst (by assumption) ?_)
    | (refine Alters.thd (by assumption) ?_)
    | split
    | simp +zetaDelta only [AltersF.mkIff]
    | assumption

theorem alters_execIrqGapExpiry {M : Nat} {r : State} (q : Nat) (s : State) (h2 : Alters M r s) (hm : Within 2252899325345792 M) :
    AltersOut M r (execIrqGapExpiry q s) := by
  unfold execIrqGapExpiry
  try extract_lets
  repeat' first
    | with_reducible assumption
    | ((with_reducible refine Within.of hm ?_); exact rfl)
    | intro _
    | with_reducible apply AltersOut.next
    | with_reducible apply alters_timeTo
    | with_reducible apply alters_emit
    | with_reducible apply alters_putQirq
    | (refine Alters.snd (by assumption) ?_)
    | (refine Alters.fst (by assumption) ?_)
    | (refine Alters.thd (by assumption) ?_)
    | split
    | simp +zetaDelta only [AltersF.mkIff]
    | assumption

end Sys2Proof.Laws
end

