-- ==== Sys2Proof/Laws/AltersPortOps.lean ====
section
/-! SUPPORT. Laws/AltersPortOps.lean: which kinds of state the operations of Machine/PortOps.lean may change (Laws/Alters.lean). -/
namespace Sys2Proof.Laws
open Sys2Proof.Machine
set_option linter.all false

theorem alters_modWb {M : Nat} {r : State} (id : Nat) (f : WbEntry → WbEntry) (s : State) (h3 : Alters M r s) (hm : Within 8589934592 M) :
    Alters M r (modWb id f s) := by
  unfold modWb
  try extract_lets
  repeat' first
    | with_reducible assumption
    | ((with_reducible refine Within.of hm ?_); exact rfl)
    | intro _
    | with_reducible apply alters_set_wb
    | simp only [AltersF.mkIff]
    | simp +zetaDelta only [AltersF.mkIff]
    | assumption

theorem alters_queueBeats {M : Nat} {r : State} (op : Nat) (req : Nat) (kind : BeatKind) (parts : List (List (Nat × Nat))) (home : Nat) (port : Nat) (g : Bool) (owner : Option Nat) (set : Nat) (ep : Nat) (s : State) (h11 : Alters M r s) (hm : Within 17179869186 M) :
    Alters M r (queueBeats op req kind parts home port g owner set ep s) := by
  unfold queueBeats
  try extract_lets
  repeat' first
    | with_reducible assumption
    | ((with_reducible refine Within.of hm ?_); exact rfl)
    | intro _
    | with_reducible apply alters_freshId
    | with_reducible apply Alters.foldl
    | with_reducible apply Alters.foldlP (p := Prod.snd)
    | with_reducible apply Alters.foldlP (p := Prod.fst)
    | with_reducible apply Alters.foldlT
    | (refine Alters.snd (by assumption) ?_)
    | (refine Alters.fst (by assumption) ?_)
    | (refine Alters.thd (by assumption) ?_)
    | with_reducible apply alters_set_beats
    | simp only [AltersF.mkIff]
    | split
    | simp +zetaDelta only [AltersF.mkIff]
    | assumption

theorem alters_issueEntry {M : Nat} {r : State} (ask : SbHold) (s : State) (id : Nat) (h2 : Alters M r s) (hm : Within 25769803778 M) :
    Alters M r (issueEntry ask s id) := by
  unfold issueEntry
  try extract_lets
  repeat' first
    | with_reducible assumption
    | ((with_reducible refine Within.of hm ?_); exact rfl)
    | intro _
    | with_reducible apply alters_modWb
    | with_reducible apply alters_queueBeats
    | with_reducible apply Alters.ite
    | (refine Alters.snd (by assumption) ?_)
    | (refine Alters.fst (by assumption) ?_)
    | (refine Alters.thd (by assumption) ?_)
    | split
    | simp +zetaDelta only [AltersF.mkIff]
    | assumption

theorem alters_landOne {M : Nat} {r : State} (s : State) (id : Nat) (h1 : Alters M r s) (hm : Within 8589934592 M) :
    Alters M r (landOne s id) := by
  unfold landOne
  try extract_lets
  repeat' first
    | with_reducible assumption
    | ((with_reducible refine Within.of hm ?_); exact rfl)
    | intro _
    | with_reducible apply alters_modWb
    | with_reducible apply Alters.ite
    | (refine Alters.snd (by assumption) ?_)
    | (refine Alters.fst (by assumption) ?_)
    | (refine Alters.thd (by assumption) ?_)
    | split
    | simp +zetaDelta only [AltersF.mkIff]
    | assumption

theorem alters_landAll {M : Nat} {r : State} (s : State) (h1 : Alters M r s) (hm : Within 8589934592 M) :
    Alters M r (landAll s) := by
  unfold landAll
  try extract_lets
  repeat' first
    | with_reducible assumption
    | ((with_reducible refine Within.of hm ?_); exact rfl)
    | intro _
    | with_reducible apply alters_landOne
    | with_reducible apply Alters.foldl
    | with_reducible apply Alters.foldlP (p := Prod.snd)
    | with_reducible apply Alters.foldlP (p := Prod.fst)
    | with_reducible apply Alters.foldlT
    | simp +zetaDelta only [AltersF.mkIff]
    | assumption

theorem alters_grantOne {M : Nat} {r : State} (s : State) (id : Nat) (h1 : Alters M r s) (hm : Within 8589934592 M) :
    Alters M r (grantOne s id) := by
  unfold grantOne
  try extract_lets
  repeat' first
    | with_reducible assumption
    | ((with_reducible refine Within.of hm ?_); exact rfl)
    | intro _
    | with_reducible apply alters_modWb
    | with_reducible apply Alters.ite
    | (refine Alters.snd (by assumption) ?_)
    | (refine Alters.fst (by assumption) ?_)
    | (refine Alters.thd (by assumption) ?_)
    | split
    | simp +zetaDelta only [AltersF.mkIff]
    | assumption

theorem alters_grantSb {M : Nat} {r : State} (s : State) (h1 : Alters M r s) (hm : Within 8589934592 M) :
    Alters M r (grantSb s) := by
  unfold grantSb
  try extract_lets
  repeat' first
    | with_reducible assumption
    | ((with_reducible refine Within.of hm ?_); exact rfl)
    | intro _
    | with_reducible apply alters_grantOne
    | with_reducible apply Alters.foldl
    | with_reducible apply Alters.foldlP (p := Prod.snd)
    | with_reducible apply Alters.foldlP (p := Prod.fst)
    | with_reducible apply Alters.foldlT
    | simp +zetaDelta only [AltersF.mkIff]
    | assumption

theorem alters_issueAll {M : Nat} {r : State} (ask : SbHold) (ids : List Nat) (s : State) (h3 : Alters M r s) (hm : Within 25769803778 M) :
    Alters M r (issueAll ask ids s) := by
  unfold issueAll
  try extract_lets
  repeat' first
    | with_reducible assumption
    | ((with_reducible refine Within.of hm ?_); exact rfl)
    | intro _
    | with_reducible apply alters_issueEntry
    | with_reducible apply alters_landAll
    | with_reducible apply alters_grantSb
    | with_reducible apply Alters.ite
    | with_reducible apply Alters.foldl
    | with_reducible apply Alters.foldlP (p := Prod.snd)
    | with_reducible apply Alters.foldlP (p := Prod.fst)
    | with_reducible apply Alters.foldlT
    | split
    | simp +zetaDelta only [AltersF.mkIff]
    | assumption

theorem alters_intoEntry {M : Nat} {r : State} (w : WriteInto) (base : Nat) (bytes : List (Nat × Byte × Bool)) (s : State) (h4 : Alters M r s) (hm : Within 8589934594 M) :
    Alters M r (intoEntry w base bytes s) := by
  unfold intoEntry
  try extract_lets
  repeat' first
    | with_reducible assumption
    | ((with_reducible refine Within.of hm ?_); exact rfl)
    | intro _
    | with_reducible apply alters_modWb
    | with_reducible apply alters_freshId
    | with_reducible apply Alters.ite
    | with_reducible apply Alters.foldl
    | with_reducible apply Alters.foldlP (p := Prod.snd)
    | with_reducible apply Alters.foldlP (p := Prod.fst)
    | with_reducible apply Alters.foldlT
    | (refine Alters.snd (by assumption) ?_)
    | (refine Alters.fst (by assumption) ?_)
    | (refine Alters.thd (by assumption) ?_)
    | with_reducible apply alters_set_wb
    | simp only [AltersF.mkIff]
    | split
    | simp +zetaDelta only [AltersF.mkIff]
    | assumption

theorem alters_slotDrain {M : Nat} {r : State} (ids : List Nat) (owner : Option Nat) (req : Nat) (s : State) (h4 : Alters M r s) (hm : Within 25769803776 M) :
    Alters M r (slotDrain ids owner req s) := by
  unfold slotDrain
  try extract_lets
  repeat' first
    | with_reducible assumption
    | ((with_reducible refine Within.of hm ?_); exact rfl)
    | intro _
    | with_reducible apply Alters.ite
    | with_reducible apply alters_set_wb_beats
    | simp only [AltersF.mkIff]
    | split
    | simp +zetaDelta only [AltersF.mkIff]
    | assumption

theorem alters_invalidateReuse {M : Nat} {r : State} (n : Nat) (p : Nat) (c : Nat) (bases : List Nat) (s : State) (h5 : Alters M r s) (hm : Within 6442450944 M) :
    Alters M r (invalidateReuse n p c bases s) := by
  unfold invalidateReuse
  try extract_lets
  repeat' first
    | with_reducible assumption
    | ((with_reducible refine Within.of hm ?_); exact rfl)
    | intro _
    | with_reducible apply alters_modPort
    | with_reducible apply alters_set_ops
    | simp only [AltersF.mkIff]
    | simp +zetaDelta only [AltersF.mkIff]
    | assumption

theorem alters_invalidateCore {M : Nat} {r : State} (w : WriteInto) (bases : List Nat) (s : State) (h3 : Alters M r s) (hm : Within 6442450944 M) :
    Alters M r (invalidateCore w bases s) := by
  unfold invalidateCore
  try extract_lets
  repeat' first
    | with_reducible assumption
    | ((with_reducible refine Within.of hm ?_); exact rfl)
    | intro _
    | with_reducible apply alters_invalidateReuse
    | with_reducible apply Alters.foldl
    | with_reducible apply Alters.foldlP (p := Prod.snd)
    | with_reducible apply Alters.foldlP (p := Prod.fst)
    | with_reducible apply Alters.foldlT
    | simp +zetaDelta only [AltersF.mkIff]
    | assumption

theorem alters_drainExcess {M : Nat} {r : State} (n : Nat) (p : Nat) (s : State) (h3 : Alters M r s) (hm : Within 25769803778 M) :
    Alters M r (drainExcess n p s) := by
  unfold drainExcess
  try extract_lets
  repeat' first
    | with_reducible assumption
    | ((with_reducible refine Within.of hm ?_); exact rfl)
    | intro _
    | with_reducible apply alters_issueAll
    | with_reducible apply Alters.ite
    | split
    | simp +zetaDelta only [AltersF.mkIff]
    | assumption

theorem alters_acceptBytes {M : Nat} {r : State} (w : WriteInto) (items : List (Nat × Byte × Bool)) (s : State) (h3 : Alters M r s) (hm : Within 32212254722 M) :
    Alters M r (acceptBytes w items s) := by
  unfold acceptBytes
  try extract_lets
  repeat' first
    | with_reducible assumption
    | ((with_reducible refine Within.of hm ?_); exact rfl)
    | intro _
    | with_reducible apply alters_invalidateCore
    | with_reducible apply alters_intoEntry
    | with_reducible apply alters_issueAll
    | with_reducible apply alters_drainExcess
    | with_reducible apply Alters.ite
    | with_reducible apply Alters.foldl
    | with_reducible apply Alters.foldlP (p := Prod.snd)
    | with_reducible apply Alters.foldlP (p := Prod.fst)
    | with_reducible apply Alters.foldlT
    | (refine Alters.snd (by assumption) ?_)
    | (refine Alters.fst (by assumption) ?_)
    | (refine Alters.thd (by assumption) ?_)
    | split
    | simp +zetaDelta only [AltersF.mkIff]
    | assumption

end Sys2Proof.Laws
end

