-- ==== Sys2Proof/Laws/AltersPortServe.lean ====
section
/-! SUPPORT. Laws/AltersPortServe.lean: which kinds of state the operations of Machine/PortServe.lean may change (Laws/Alters.lean). -/
namespace Sys2Proof.Laws
open Sys2Proof.Machine
set_option linter.all false

theorem alters_teleMove {M : Nat} {r : State} (c : Nat) (k : Nat) (n : Nat) (write : Bool) (s : State) (h5 : Alters M r s) (hm : Within 262144 M) :
    Alters M r (teleMove c k n write s) := by
  unfold teleMove
  try extract_lets
  repeat' first
    | with_reducible assumption
    | ((with_reducible refine Within.of hm ?_); exact rfl)
    | intro _
    | with_reducible apply alters_teleAdd
    | with_reducible apply Alters.ite
    | (refine Alters.snd (by assumption) ?_)
    | (refine Alters.fst (by assumption) ?_)
    | (refine Alters.thd (by assumption) ?_)
    | split
    | simp +zetaDelta only [AltersF.mkIff]
    | assumption

theorem alters_drawAllow {M : Nat} {r : State} (n : Nat) (reqr : Nat) (group : Nat) (ep : Nat) (len : Nat) (s : State) (h6 : Alters M r s) (hm : Within 2097152 M) :
    Alters M r (drawAllow n reqr group ep len s) := by
  unfold drawAllow
  try extract_lets
  repeat' first
    | with_reducible assumption
    | ((with_reducible refine Within.of hm ?_); exact rfl)
    | intro _
    | with_reducible apply alters_modSlice
    | with_reducible apply Alters.ite
    | split
    | simp +zetaDelta only [AltersF.mkIff]
    | assumption

theorem alters_serveUnits {M : Nat} {r : State} (stalled : Nat → Nat → Nat → Bool) (first : Bool) (c : Cycle) (e : Nat × GSet) (h3 : Alters M r c.state) (hm : Within 4503737068421120 M) :
    Alters M r (serveUnits stalled first c e).state := by
  unfold serveUnits
  try extract_lets
  repeat' first
    | with_reducible assumption
    | ((with_reducible refine Within.of hm ?_); exact rfl)
    | intro _
    | with_reducible apply alters_moveWork
    | with_reducible apply alters_drawAllow
    | with_reducible apply Alters.ite
    | (refine Alters.snd (by assumption) ?_)
    | (refine Alters.fst (by assumption) ?_)
    | (refine Alters.thd (by assumption) ?_)
    | split
    | simp +zetaDelta only [AltersF.mkIff]
    | assumption
    | dsimp only

theorem alters_accumOne {M : Nat} {r : State} (c : Agent) (op : Nat) (k : Nat) (bs : List (Byte × Bool)) (acc : State × WriteRes) (h5 : Alters M r acc.1) (hm : Within 2555964 M) :
    Alters M r (accumOne c op k bs acc).1 := by
  have k1 := alters_noteRead c ((List.range (accSize op)).map (k + ·)) _ h5 (hm.of rfl)
  unfold accumOne
  dsimp only
  split
  · refine alters_modSlice _ _ _ ?_ (hm.of rfl)
    simp only [AltersF.mkIff]
    exact alters_set_mem k1 (memAlters_putUnits _ _ (hm.of rfl) _ (MemAlters.refl _ _))
  · simp only [AltersF.mkIff]
    exact alters_set_mem k1 (memAlters_putUnits _ _ (hm.of rfl) _ (MemAlters.refl _ _))

theorem alters_accumRun {M : Nat} {r : State} (c : Agent) (op : Nat) (v2 : Nat) (v3 : Nat) (v4 : List (Byte × Bool)) (v5 : State × WriteRes) (h6 : Alters M r v5.1) (hm : Within 2555964 M) :
    Alters M r (accumRun c op v2 v3 v4 v5).1 := by
  induction v2 generalizing v3 v4 v5 with
  | zero => exact h6
  | succ m ih =>
    unfold accumRun
    exact ih _ _ _ (alters_accumOne _ _ _ _ _ h6 (hm.of rfl))

theorem alters_flushMoved {M : Nat} {r : State} (e : WbEntry) (s : State) (h2 : Alters M r s) (hm : Within 137438953472 M) :
    Alters M r (flushMoved e s) := by
  unfold flushMoved
  try extract_lets
  repeat' first
    | with_reducible assumption
    | ((with_reducible refine Within.of hm ?_); exact rfl)
    | intro _
    | with_reducible apply alters_gMoved
    | with_reducible apply Alters.ite
    | with_reducible apply Alters.foldl
    | with_reducible apply Alters.foldlP (p := Prod.snd)
    | with_reducible apply Alters.foldlP (p := Prod.fst)
    | with_reducible apply Alters.foldlT
    | (refine Alters.snd (by assumption) ?_)
    | (refine Alters.fst (by assumption) ?_)
    | (refine Alters.thd (by assumption) ?_)
    | split
    | simp +zetaDelta only [AltersF.mkIff]
    | assumption

theorem alters_entryServed {M : Nat} {r : State} (e : WbEntry) (s : State) (h2 : Alters M r s) (hm : Within 137438953472 M) :
    Alters M r (entryServed e s) := by
  unfold entryServed
  try extract_lets
  repeat' first
    | with_reducible assumption
    | ((with_reducible refine Within.of hm ?_); exact rfl)
    | intro _
    | with_reducible apply alters_flushMoved
    | with_reducible apply alters_gMoved
    | with_reducible apply Alters.ite
    | split
    | simp +zetaDelta only [AltersF.mkIff]
    | assumption

theorem alters_lateReport {M : Nat} {r : State} (e : WbEntry) (s : State) (h2 : Alters M r s) (hm : Within 2147551232 M) :
    Alters M r (lateReport e s) := by
  unfold lateReport
  try extract_lets
  repeat' first
    | with_reducible assumption
    | ((with_reducible refine Within.of hm ?_); exact rfl)
    | intro _
    | with_reducible apply alters_portErr
    | with_reducible apply alters_report
    | with_reducible apply alters_modPort
    | with_reducible apply Alters.ite
    | split
    | simp +zetaDelta only [AltersF.mkIff]
    | assumption

theorem alters_takeLate {M : Nat} {r : State} (n : Nat) (p : Nat) (st : Status) (s : State) (h4 : Alters M r s) (hm : Within 2147483648 M) :
    Alters M r (takeLate n p st s).2 := by
  unfold takeLate
  try extract_lets
  repeat' first
    | with_reducible assumption
    | ((with_reducible refine Within.of hm ?_); exact rfl)
    | intro _
    | with_reducible apply alters_modPort
    | (refine Alters.snd (by assumption) ?_)
    | (refine Alters.fst (by assumption) ?_)
    | (refine Alters.thd (by assumption) ?_)
    | split
    | simp +zetaDelta only [AltersF.mkIff]
    | assumption

theorem alters_missCheckOp {M : Nat} {r : State} (o : PortOp) (s : State) (h2 : Alters M r s) (hm : Within 2295808 M) :
    Alters M r (missCheckOp o s) := by
  unfold missCheckOp
  try extract_lets
  repeat' first
    | with_reducible assumption
    | ((with_reducible refine Within.of hm ?_); exact rfl)
    | intro _
    | with_reducible apply alters_recordMiss
    | with_reducible apply Alters.ite
    | (refine Alters.snd (by assumption) ?_)
    | (refine Alters.fst (by assumption) ?_)
    | (refine Alters.thd (by assumption) ?_)
    | split
    | simp +zetaDelta only [AltersF.mkIff]
    | assumption

theorem alters_opEntryDone {M : Nat} {r : State} (e : WbEntry) (s : State) (id : Nat) (mine : List Nat) (h2 : Alters M r s) (hm : Within 1105956374528 M) :
    Alters M r (opEntryDone e s id mine) := by
  unfold opEntryDone
  try extract_lets
  repeat' first
    | with_reducible assumption
    | ((with_reducible refine Within.of hm ?_); exact rfl)
    | intro _
    | with_reducible apply alters_modOp
    | with_reducible apply alters_takeLate
    | with_reducible apply alters_respond
    | with_reducible apply alters_missCheckOp
    | with_reducible apply Alters.ite
    | (refine Alters.snd (by assumption) ?_)
    | (refine Alters.fst (by assumption) ?_)
    | (refine Alters.thd (by assumption) ?_)
    | split
    | simp +zetaDelta only [AltersF.mkIff]
    | assumption

theorem alters_cmdEntryDone {M : Nat} {r : State} (e : WbEntry) (s : State) (id : Nat) (h2 : Alters M r s) (hm : Within 1073741824 M) :
    Alters M r (cmdEntryDone e s id) := by
  unfold cmdEntryDone
  try extract_lets
  repeat' first
    | with_reducible assumption
    | ((with_reducible refine Within.of hm ?_); exact rfl)
    | intro _
    | with_reducible apply alters_modCmd
    | with_reducible apply alters_cmdDone
    | with_reducible apply Alters.ite
    | (refine Alters.snd (by assumption) ?_)
    | (refine Alters.fst (by assumption) ?_)
    | (refine Alters.thd (by assumption) ?_)
    | split
    | simp +zetaDelta only [AltersF.mkIff]
    | assumption

theorem alters_commitEntry {M : Nat} {r : State} (e : WbEntry) (s : State) (h2 : Alters M r s) (hm : Within 1115620050944 M) :
    Alters M r (commitEntry e s) := by
  unfold commitEntry
  try extract_lets
  repeat' first
    | with_reducible assumption
    | ((with_reducible refine Within.of hm ?_); exact rfl)
    | intro _
    | with_reducible apply alters_lateReport
    | with_reducible apply alters_opEntryDone
    | with_reducible apply alters_cmdEntryDone
    | with_reducible apply alters_landAll
    | with_reducible apply alters_grantSb
    | with_reducible apply Alters.foldl
    | with_reducible apply Alters.foldlP (p := Prod.snd)
    | with_reducible apply Alters.foldlP (p := Prod.fst)
    | with_reducible apply Alters.foldlT
    | (refine Alters.snd (by assumption) ?_)
    | (refine Alters.fst (by assumption) ?_)
    | (refine Alters.thd (by assumption) ?_)
    | with_reducible apply alters_set_slices
    | with_reducible apply alters_set_wb
    | simp only [AltersF.mkIff]
    | split
    | simp +zetaDelta only [AltersF.mkIff]
    | assumption

theorem alters_fillReuse {M : Nat} {r : State} (o : PortOp) (d : List (Byte × Bool)) (s : State) (h3 : Alters M r s) (hm : Within 2147483648 M) :
    Alters M r (fillReuse o d s) := by
  unfold fillReuse
  try extract_lets
  repeat' first
    | with_reducible assumption
    | ((with_reducible refine Within.of hm ?_); exact rfl)
    | intro _
    | with_reducible apply alters_modPort
    | with_reducible apply Alters.foldl
    | with_reducible apply Alters.foldlP (p := Prod.snd)
    | with_reducible apply Alters.foldlP (p := Prod.fst)
    | with_reducible apply Alters.foldlT
    | (refine Alters.snd (by assumption) ?_)
    | (refine Alters.fst (by assumption) ?_)
    | (refine Alters.thd (by assumption) ?_)
    | split
    | simp +zetaDelta only [AltersF.mkIff]
    | assumption

theorem alters_finishRead {M : Nat} {r : State} (o : PortOp) (s : State) (h2 : Alters M r s) (hm : Within 1105956374528 M) :
    Alters M r (finishRead o s) := by
  unfold finishRead
  try extract_lets
  repeat' first
    | with_reducible assumption
    | ((with_reducible refine Within.of hm ?_); exact rfl)
    | intro _
    | with_reducible apply alters_missCheckOp
    | with_reducible apply alters_fillReuse
    | with_reducible apply alters_respond
    | with_reducible apply Alters.ite
    | (refine Alters.snd (by assumption) ?_)
    | (refine Alters.fst (by assumption) ?_)
    | (refine Alters.thd (by assumption) ?_)
    | split
    | simp +zetaDelta only [AltersF.mkIff]
    | assumption

theorem alters_dropOlder {M : Nat} {r : State} (own : Bool) (o : PortOp) (s : State) (h3 : Alters M r s) (hm : Within 6442450944 M) :
    Alters M r (dropOlder own o s) := by
  unfold dropOlder
  try extract_lets
  repeat' first
    | with_reducible assumption
    | ((with_reducible refine Within.of hm ?_); exact rfl)
    | intro _
    | with_reducible apply alters_modPort
    | with_reducible apply Alters.ite
    | with_reducible apply Alters.foldl
    | with_reducible apply Alters.foldlP (p := Prod.snd)
    | with_reducible apply Alters.foldlP (p := Prod.fst)
    | with_reducible apply Alters.foldlT
    | with_reducible apply alters_set_ops
    | simp only [AltersF.mkIff]
    | split
    | simp +zetaDelta only [AltersF.mkIff]
    | assumption

theorem alters_serveRead {M : Nat} {r : State} (b : Beat) (o : PortOp) (s : State) (h3 : Alters M r s) (hm : Within 1105956636704 M) :
    Alters M r (serveRead b o s) := by
  unfold serveRead
  try extract_lets
  repeat' first
    | with_reducible assumption
    | ((with_reducible refine Within.of hm ?_); exact rfl)
    | intro _
    | with_reducible apply alters_teleMove
    | with_reducible apply alters_noteRead
    | with_reducible apply alters_modOp
    | with_reducible apply alters_finishRead
    | with_reducible apply alters_dropOlder
    | with_reducible apply Alters.ite
    | with_reducible apply Alters.foldl
    | with_reducible apply Alters.foldlP (p := Prod.snd)
    | with_reducible apply Alters.foldlP (p := Prod.fst)
    | with_reducible apply Alters.foldlT
    | (refine Alters.snd (by assumption) ?_)
    | (refine Alters.fst (by assumption) ?_)
    | (refine Alters.thd (by assumption) ?_)
    | split
    | simp +zetaDelta only [AltersF.mkIff]
    | assumption

theorem alters_serveWrite {M : Nat} {r : State} (b : Beat) (e : WbEntry) (s : State) (h3 : Alters M r s) (hm : Within 146031444028 M) :
    Alters M r (serveWrite b e s) := by
  unfold serveWrite
  try extract_lets
  repeat' first
    | with_reducible assumption
    | ((with_reducible refine Within.of hm ?_); exact rfl)
    | intro _
    | with_reducible apply alters_accumRun
    | with_reducible apply alters_writeBytes
    | with_reducible apply alters_teleMove
    | with_reducible apply alters_modWb
    | with_reducible apply alters_entryServed
    | with_reducible apply Alters.ite
    | (refine Alters.snd (by assumption) ?_)
    | (refine Alters.fst (by assumption) ?_)
    | (refine Alters.thd (by assumption) ?_)
    | split
    | simp +zetaDelta only [AltersF.mkIff]
    | assumption

theorem alters_serveBeat {M : Nat} {r : State} (b : Beat) (s : State) (h2 : Alters M r s) (hm : Within 1269165393980 M) :
    Alters M r (serveBeat b s) := by
  unfold serveBeat
  try extract_lets
  repeat' first
    | with_reducible assumption
    | ((with_reducible refine Within.of hm ?_); exact rfl)
    | intro _
    | with_reducible apply alters_serveRead
    | with_reducible apply alters_gMoved
    | with_reducible apply alters_serveWrite
    | with_reducible apply Alters.ite
    | (refine Alters.snd (by assumption) ?_)
    | (refine Alters.fst (by assumption) ?_)
    | (refine Alters.thd (by assumption) ?_)
    | with_reducible apply alters_set_beats
    | simp only [AltersF.mkIff]
    | split
    | simp +zetaDelta only [AltersF.mkIff]
    | assumption

theorem alters_serveBank {M : Nat} {r : State} (stalled : Nat → Nat → Bool) (c : Cycle) (bank : Nat) (h2 : Alters M r c.state) (hm : Within 1269165393980 M) :
    Alters M r (serveBank stalled c bank).state := by
  unfold serveBank
  try extract_lets
  repeat' first
    | with_reducible assumption
    | ((with_reducible refine Within.of hm ?_); exact rfl)
    | intro _
    | with_reducible apply alters_modSlice
    | with_reducible apply alters_serveBeat
    | with_reducible apply Alters.foldl
    | with_reducible apply Alters.foldlP (p := Cycle.state)
    | with_reducible apply Alters.foldlP (p := Prod.snd)
    | with_reducible apply Alters.foldlP (p := Prod.fst)
    | with_reducible apply Alters.foldlT
    | (refine Alters.snd (by assumption) ?_)
    | (refine Alters.fst (by assumption) ?_)
    | (refine Alters.thd (by assumption) ?_)
    | split
    | simp +zetaDelta only [AltersF.mkIff]
    | assumption
    | dsimp only

theorem alters_serveB {M : Nat} {r : State} (stalled : Nat → Nat → Bool) (c : Cycle) (h2 : Alters M r c.state) (hm : Within 1269165393980 M) :
    Alters M r (serveB stalled c).state := by
  unfold serveB
  try extract_lets
  repeat' first
    | with_reducible assumption
    | ((with_reducible refine Within.of hm ?_); exact rfl)
    | intro _
    | with_reducible apply alters_serveBank
    | with_reducible apply Alters.foldl
    | with_reducible apply Alters.foldlP (p := Cycle.state)
    | with_reducible apply Alters.foldlP (p := Prod.snd)
    | with_reducible apply Alters.foldlP (p := Prod.fst)
    | with_reducible apply Alters.foldlT
    | simp +zetaDelta only [AltersF.mkIff]
    | assumption
    | dsimp only

theorem alters_regulatorCount {M : Nat} {r : State} (b : Beat) (s : State) (h2 : Alters M r s) (hm : Within 2097152 M) :
    Alters M r (regulatorCount b s) := by
  unfold regulatorCount
  try extract_lets
  repeat' first
    | with_reducible assumption
    | ((with_reducible refine Within.of hm ?_); exact rfl)
    | intro _
    | with_reducible apply alters_drawAllow
    | simp +zetaDelta only [AltersF.mkIff]
    | assumption

theorem alters_admitBeat {M : Nat} {r : State} (s : State) (b : Beat) (h1 : Alters M r s) (hm : Within 17181966336 M) :
    Alters M r (admitBeat s b) := by
  unfold admitBeat
  try extract_lets
  repeat' first
    | with_reducible assumption
    | ((with_reducible refine Within.of hm ?_); exact rfl)
    | intro _
    | with_reducible apply alters_regulatorCount
    | with_reducible apply Alters.ite
    | with_reducible apply alters_set_beats
    | simp only [AltersF.mkIff]
    | split
    | simp +zetaDelta only [AltersF.mkIff]
    | assumption

theorem alters_admitBeats {M : Nat} {r : State} (s : State) (h1 : Alters M r s) (hm : Within 17181966336 M) :
    Alters M r (admitBeats s) := by
  unfold admitBeats
  try extract_lets
  repeat' first
    | with_reducible assumption
    | ((with_reducible refine Within.of hm ?_); exact rfl)
    | intro _
    | with_reducible apply alters_admitBeat
    | with_reducible apply Alters.foldl
    | with_reducible apply Alters.foldlP (p := Prod.snd)
    | with_reducible apply Alters.foldlP (p := Prod.fst)
    | with_reducible apply Alters.foldlT
    | simp +zetaDelta only [AltersF.mkIff]
    | assumption

theorem alters_renewReuse {M : Nat} {r : State} (o : PortOp) (s : State) (h2 : Alters M r s) (hm : Within 2147483648 M) :
    Alters M r (renewReuse o s) := by
  unfold renewReuse
  try extract_lets
  repeat' first
    | with_reducible assumption
    | ((with_reducible refine Within.of hm ?_); exact rfl)
    | intro _
    | with_reducible apply alters_modPort
    | with_reducible apply Alters.foldl
    | with_reducible apply Alters.foldlP (p := Prod.snd)
    | with_reducible apply Alters.foldlP (p := Prod.fst)
    | with_reducible apply Alters.foldlT
    | (refine Alters.snd (by assumption) ?_)
    | (refine Alters.fst (by assumption) ?_)
    | (refine Alters.thd (by assumption) ?_)
    | split
    | simp +zetaDelta only [AltersF.mkIff]
    | assumption

theorem alters_startRead {M : Nat} {r : State} (o : PortOp) (vol : Bool) (set : Nat) (ep : Nat) (s : State) (h5 : Alters M r s) (hm : Within 1131726178306 M) :
    Alters M r (startRead o vol set ep s) := by
  unfold startRead
  try extract_lets
  repeat' first
    | with_reducible assumption
    | ((with_reducible refine Within.of hm ?_); exact rfl)
    | intro _
    | with_reducible apply alters_finishRead
    | with_reducible apply alters_dropOlder
    | with_reducible apply alters_renewReuse
    | with_reducible apply alters_queueBeats
    | with_reducible apply alters_issueAll
    | with_reducible apply Alters.ite
    | (refine Alters.snd (by assumption) ?_)
    | (refine Alters.fst (by assumption) ?_)
    | (refine Alters.thd (by assumption) ?_)
    | with_reducible apply alters_set_ops
    | simp only [AltersF.mkIff]
    | split
    | simp +zetaDelta only [AltersF.mkIff]
    | assumption

theorem alters_railWork {M : Nat} {r : State} (w : Work) (s : State) (h2 : Alters M r s) (hm : Within 550829555712 M) :
    Alters M r (railWork w s) := by
  unfold railWork
  try extract_lets
  repeat' first
    | with_reducible assumption
    | ((with_reducible refine Within.of hm ?_); exact rfl)
    | intro _
    | with_reducible apply alters_modCmd
    | (refine Alters.snd (by assumption) ?_)
    | (refine Alters.fst (by assumption) ?_)
    | (refine Alters.thd (by assumption) ?_)
    | with_reducible apply alters_set_movers
    | simp only [AltersF.mkIff]
    | split
    | simp +zetaDelta only [AltersF.mkIff]
    | assumption

theorem alters_owedStep {M : Nat} {r : State} (rail : Nat → Bool) (c : Cycle) (h2 : Alters M r c.state) (hm : Within 131120 M) :
    Alters M r (owedStep rail c).state := by
  unfold owedStep
  try extract_lets
  repeat' first
    | with_reducible assumption
    | ((with_reducible refine Within.of hm ?_); exact rfl)
    | intro _
    | with_reducible apply alters_integAdd
    | with_reducible exact MemAlters.refl _ _
    | with_reducible apply memAlters_set_tag_owed
    | with_reducible apply Alters.ite
    | with_reducible apply Alters.foldl
    | with_reducible apply Alters.foldlP (p := Cycle.state)
    | with_reducible apply Alters.foldlP (p := Prod.snd)
    | with_reducible apply Alters.foldlP (p := Prod.fst)
    | with_reducible apply Alters.foldlT
    | with_reducible apply alters_set_mem
    | simp only [AltersF.mkIff]
    | split
    | simp +zetaDelta only [AltersF.mkIff]
    | assumption
    | dsimp only

theorem alters_outerStep {M : Nat} {r : State} (s : State) (w : Work) (h1 : Alters M r s) (hm : Within 22518135575805952 M) :
    Alters M r (outerStep s w) := by
  unfold outerStep
  try extract_lets
  repeat' first
    | with_reducible assumption
    | ((with_reducible refine Within.of hm ?_); exact rfl)
    | intro _
    | with_reducible apply alters_moveWork
    | with_reducible apply alters_set_outerUsed
    | simp only [AltersF.mkIff]
    | simp +zetaDelta only [AltersF.mkIff]
    | assumption

theorem alters_serveOuter {M : Nat} {r : State} (s : State) (h1 : Alters M r s) (hm : Within 22518135575805952 M) :
    Alters M r (serveOuter s) := by
  unfold serveOuter
  try extract_lets
  repeat' first
    | with_reducible assumption
    | ((with_reducible refine Within.of hm ?_); exact rfl)
    | intro _
    | with_reducible apply alters_outerStep
    | with_reducible apply Alters.foldl
    | with_reducible apply Alters.foldlP (p := Prod.snd)
    | with_reducible apply Alters.foldlP (p := Prod.fst)
    | with_reducible apply Alters.foldlT
    | simp +zetaDelta only [AltersF.mkIff]
    | assumption

theorem alters_reserveBeat {M : Nat} {r : State} (b : Beat) (s : State) (h2 : Alters M r s) (hm : Within 17179869184 M) :
    Alters M r (reserveBeat b s) := by
  unfold reserveBeat
  try extract_lets
  repeat' first
    | with_reducible assumption
    | ((with_reducible refine Within.of hm ?_); exact rfl)
    | intro _
    | with_reducible apply alters_set_beats
    | simp only [AltersF.mkIff]
    | simp +zetaDelta only [AltersF.mkIff]
    | assumption

theorem alters_sampleOcc {M : Nat} {r : State} (s : State) (h1 : Alters M r s) (hm : Within 2097152 M) :
    Alters M r (sampleOcc s) := by
  unfold sampleOcc
  try extract_lets
  repeat' first
    | with_reducible assumption
    | ((with_reducible refine Within.of hm ?_); exact rfl)
    | intro _
    | with_reducible apply alters_modSlice
    | with_reducible apply Alters.foldl
    | with_reducible apply Alters.foldlP (p := Prod.snd)
    | with_reducible apply Alters.foldlP (p := Prod.fst)
    | with_reducible apply Alters.foldlT
    | (refine Alters.snd (by assumption) ?_)
    | (refine Alters.fst (by assumption) ?_)
    | (refine Alters.thd (by assumption) ?_)
    | split
    | simp +zetaDelta only [AltersF.mkIff]
    | assumption

theorem alters_clearStep {M : Nat} {r : State} (rail : Nat → Bool) (c : Cycle) (h2 : Alters M r c.state) (hm : Within 68719476796 M) :
    Alters M r (clearStep rail c).state := by
  unfold clearStep
  try extract_lets
  repeat' first
    | with_reducible assumption
    | ((with_reducible refine Within.of hm ?_); exact rfl)
    | intro _
    | with_reducible exact MemAlters.refl _ _
    | with_reducible apply memAlters_clearLines
    | with_reducible apply Alters.ite
    | with_reducible apply Alters.foldl
    | with_reducible apply Alters.foldlP (p := Cycle.state)
    | with_reducible apply Alters.foldlP (p := Prod.snd)
    | with_reducible apply Alters.foldlP (p := Prod.fst)
    | with_reducible apply Alters.foldlT
    | (refine Alters.snd (by assumption) ?_)
    | (refine Alters.fst (by assumption) ?_)
    | (refine Alters.thd (by assumption) ?_)
    | with_reducible apply alters_set_mem_clears
    | simp only [AltersF.mkIff]
    | split
    | simp +zetaDelta only [AltersF.mkIff]
    | assumption
    | dsimp only

theorem alters_railBeat {M : Nat} {r : State} (b : Beat) (s : State) (h2 : Alters M r s) (hm : Within 5368709120 M) :
    Alters M r (railBeat b s) := by
  unfold railBeat
  try extract_lets
  repeat' first
    | with_reducible assumption
    | ((with_reducible refine Within.of hm ?_); exact rfl)
    | intro _
    | with_reducible apply alters_modOp
    | with_reducible apply alters_modCmd
    | with_reducible apply Alters.foldl
    | with_reducible apply Alters.foldlP (p := Prod.snd)
    | with_reducible apply Alters.foldlP (p := Prod.fst)
    | with_reducible apply Alters.foldlT
    | (refine Alters.snd (by assumption) ?_)
    | (refine Alters.fst (by assumption) ?_)
    | (refine Alters.thd (by assumption) ?_)
    | split
    | simp +zetaDelta only [AltersF.mkIff]
    | assumption

theorem alters_serveSlot {M : Nat} {r : State} (busy : List Nat) (v1 : List Beat) (v2 : Nat) (v3 : Cycle) (h4 : Alters M r v3.state) (hm : Within 1269165393980 M) :
    Alters M r (serveSlot busy v1 v2 v3).state := by
  induction v1 generalizing v2 v3 with
  | nil => exact h4
  | cons b bs ih =>
    unfold serveSlot
    split
    · refine ih _ _ ?_
      split
      · exact alters_reserveBeat _ _ h4 (hm.of rfl)
      · exact alters_serveBeat _ _ h4 (hm.of rfl)
    · exact h4

theorem alters_serveOwner {M : Nat} {r : State} (busy : List Nat) (rail : Bool) (c : Cycle) (n : Nat) (o : Nat) (gs : GSet) (h3 : Alters M r c.state) (hm : Within 4505419622320188 M) :
    Alters M r (serveOwner busy rail c n o gs).state := by
  unfold serveOwner
  extract_lets t f keys bs ws rq
  split
  · exact h3
  · split
    · split
      · split
        · exact alters_railWork _ _ h3 (hm.of rfl)
        · exact alters_moveWorks _ _ _ h3 (hm.of rfl)
      · split
        · show Alters M r (Option.elim _ _ _)
          cases (bs.filter fun b => b.req == rq).head? with
          | none => exact h3
          | some b => exact alters_railBeat _ _ h3 (hm.of rfl)
        · exact alters_serveSlot _ _ _ _ h3 (hm.of rfl)
    · split
      · exact h3
      · split
        · show Alters M r (Option.elim _ _ _)
          cases (bs.filter fun b => b.req == rq).head? with
          | none => exact h3
          | some b => exact alters_railBeat _ _ h3 (hm.of rfl)
        · exact alters_serveSlot _ _ _ _ h3 (hm.of rfl)

theorem alters_serveReserved {M : Nat} {r : State} (c : Cycle) (h1 : Alters M r c.state) (hm : Within 1269165393980 M) :
    Alters M r (serveReserved c).state := by
  unfold serveReserved
  refine Alters.foldlP (p := Cycle.state) _ h1 fun c x h => ?_
  split
  · exact h
  · exact alters_serveBeat _ _ h (hm.of rfl)

theorem alters_bankCycle {M : Nat} {r : State} (rail : Nat → Bool) (stalled : Nat → Nat → Nat → Bool) (s : State) (h3 : Alters M r s) (hm : Within 22519921211025468 M) :
    Alters M r (bankCycle rail stalled s) := by
  unfold bankCycle
  extract_lets two c0 c1 c2 off c3 c4 busy
  have k0 : Alters M r c0.state := alters_admitBeats _ (alters_set_busyBanks h3 (hm.of rfl)) (hm.of rfl)
  have k1 : Alters M r c1.state := Alters.foldlP (p := Cycle.state) _ (alters_serveReserved _ k0 (hm.of rfl)) fun c x h => alters_serveOwner _ _ _ _ _ _ h (hm.of rfl)
  have k2 : Alters M r c2.state := alters_clearStep _ _ (alters_owedStep _ _ k1 (hm.of rfl)) (hm.of rfl)
  have k3 : Alters M r c3.state := alters_serveB _ _ (Alters.foldlP (p := Cycle.state) _ k2 fun c x h => alters_serveUnits _ _ _ _ h (hm.of rfl)) (hm.of rfl)
  have k4 : Alters M r c4.state := Alters.foldlP (p := Cycle.state) _ k3 fun c x h => alters_serveUnits _ _ _ _ h (hm.of rfl)
  exact alters_sampleOcc _ (alters_set_bcnt_busyBanks (alters_serveOuter _ k4 (hm.of rfl)) (hm.of rfl)) (hm.of rfl)

end Sys2Proof.Laws
end

