-- ==== Sys2Proof/Laws/AltersMovers.lean ====
section
/-! SUPPORT. Laws/AltersMovers.lean: which kinds of state the operations of Machine/Movers.lean may change (Laws/Alters.lean). -/
namespace Sys2Proof.Laws
open Sys2Proof.Machine
set_option linter.all false

theorem alters_setStage {M : Nat} {r : State} (n : Nat) (m : Nat) (l : List StageEntry) (s : State) (h4 : Alters M r s) (hm : Within 549755813888 M) :
    Alters M r (setStage n m l s) := by
  unfold setStage
  try extract_lets
  repeat' first
    | with_reducible assumption
    | ((with_reducible refine Within.of hm ?_); exact rfl)
    | intro _
    | with_reducible apply alters_set_movers
    | simp only [AltersF.mkIff]
    | simp +zetaDelta only [AltersF.mkIff]
    | assumption

theorem alters_dropAhead {M : Nat} {r : State} (n : Nat) (m : Nat) (c : Nat) (s : State) (h4 : Alters M r s) (hm : Within 4504286822137856 M) :
    Alters M r (dropAhead n m c s) := by
  unfold dropAhead
  try extract_lets
  repeat' first
    | with_reducible assumption
    | ((with_reducible refine Within.of hm ?_); exact rfl)
    | intro _
    | with_reducible apply alters_dropWorks
    | with_reducible apply alters_modChan
    | with_reducible apply alters_gMoved
    | with_reducible apply Alters.ite
    | with_reducible apply Alters.foldl
    | with_reducible apply Alters.foldlP (p := Prod.snd)
    | with_reducible apply Alters.foldlP (p := Prod.fst)
    | with_reducible apply Alters.foldlT
    | split
    | simp +zetaDelta only [AltersF.mkIff]
    | assumption

theorem alters_dropChanWaiter {M : Nat} {r : State} (n : Nat) (m : Nat) (c : Nat) (s : State) (h4 : Alters M r s) (hm : Within 274877906944 M) :
    Alters M r (dropChanWaiter n m c s) := by
  unfold dropChanWaiter
  try extract_lets
  repeat' first
    | with_reducible assumption
    | ((with_reducible refine Within.of hm ?_); exact rfl)
    | intro _
    | exact syncAlters_waiters _ _ (Within.of hm rfl)
    | exact syncAlters_rest _ _ (Within.of hm rfl) rfl
    | exact syncAlters_any _ _ (Within.of hm rfl)
    | with_reducible apply alters_set_sync
    | simp only [AltersF.mkIff]
    | simp +zetaDelta only [AltersF.mkIff]
    | assumption

theorem alters_failNow {M : Nat} {r : State} (n : Nat) (m : Nat) (c : Nat) (st : Status) (addr : Nat) (s : State) (h6 : Alters M r s) (hm : Within 4504561700044800 M) :
    Alters M r (failNow n m c st addr s) := by
  unfold failNow
  try extract_lets
  repeat' first
    | with_reducible assumption
    | ((with_reducible refine Within.of hm ?_); exact rfl)
    | intro _
    | with_reducible apply alters_modChan
    | with_reducible apply alters_dropAhead
    | with_reducible apply alters_dropChanWaiter
    | with_reducible apply Alters.ite
    | split
    | simp +zetaDelta only [AltersF.mkIff]
    | assumption

theorem alters_drainStage {M : Nat} {r : State} (k : Nat) (e : StageEntry) (s : State) (h3 : Alters M r s) (hm : Within 4504561702600764 M) :
    Alters M r (drainStage k e s).2 := by
  unfold drainStage
  try extract_lets
  repeat' first
    | with_reducible assumption
    | ((with_reducible refine Within.of hm ?_); exact rfl)
    | intro _
    | with_reducible apply alters_setStage
    | with_reducible apply alters_writeBytes
    | with_reducible apply alters_teleMove
    | with_reducible apply alters_failNow
    | with_reducible apply Alters.iteS
    | with_reducible apply Alters.ite
    | (refine Alters.snd (by assumption) ?_)
    | (refine Alters.fst (by assumption) ?_)
    | (refine Alters.thd (by assumption) ?_)
    | split
    | simp +zetaDelta only [AltersF.mkIff]
    | assumption

theorem alters_beginStop {M : Nat} {r : State} (n : Nat) (m : Nat) (c : Nat) (save : Bool) (o : Origin) (s : State) (h6 : Alters M r s) (hm : Within 4504561700044800 M) :
    Alters M r (beginStop n m c save o s) := by
  unfold beginStop
  try extract_lets
  repeat' first
    | with_reducible assumption
    | ((with_reducible refine Within.of hm ?_); exact rfl)
    | intro _
    | with_reducible apply alters_modChan
    | with_reducible apply alters_dropAhead
    | with_reducible apply alters_dropChanWaiter
    | with_reducible apply Alters.ite
    | split
    | simp +zetaDelta only [AltersF.mkIff]
    | assumption

theorem alters_drainList {M : Nat} {r : State} (k : Nat) (es : List StageEntry) (s : State) (h3 : Alters M r s) (hm : Within 4504561702600764 M) :
    Alters M r (drainList k es s) := by
  unfold drainList
  try extract_lets
  repeat' first
    | with_reducible assumption
    | ((with_reducible refine Within.of hm ?_); exact rfl)
    | intro _
    | with_reducible apply alters_drainStage
    | with_reducible apply Alters.foldl
    | with_reducible apply Alters.foldlP (p := Prod.snd)
    | with_reducible apply Alters.foldlP (p := Prod.fst)
    | with_reducible apply Alters.foldlT
    | simp +zetaDelta only [AltersF.mkIff]
    | assumption

theorem alters_drainChan {M : Nat} {r : State} (n : Nat) (m : Nat) (c : Nat) (s : State) (h4 : Alters M r s) (hm : Within 4504561702600764 M) :
    Alters M r (drainChan n m c s) := by
  unfold drainChan
  try extract_lets
  repeat' first
    | with_reducible assumption
    | ((with_reducible refine Within.of hm ?_); exact rfl)
    | intro _
    | with_reducible apply alters_drainList
    | simp +zetaDelta only [AltersF.mkIff]
    | assumption

theorem alters_haltChan {M : Nat} {r : State} (n : Nat) (m : Nat) (c : Nat) (st : Status) (addr : Nat) (s : State) (h6 : Alters M r s) (hm : Within 40534459306934332 M) :
    Alters M r (haltChan n m c st addr s) := by
  unfold haltChan
  try extract_lets
  repeat' first
    | with_reducible assumption
    | ((with_reducible refine Within.of hm ?_); exact rfl)
    | intro _
    | with_reducible apply alters_drainChan
    | with_reducible apply alters_modChan
    | with_reducible apply alters_dropAhead
    | with_reducible apply alters_dropChanWaiter
    | with_reducible apply alters_report
    | with_reducible apply alters_signalCounter
    | with_reducible apply Alters.ite
    | (refine Alters.snd (by assumption) ?_)
    | (refine Alters.fst (by assumption) ?_)
    | (refine Alters.thd (by assumption) ?_)
    | split
    | simp +zetaDelta only [AltersF.mkIff]
    | assumption

theorem alters_faultChan {M : Nat} {r : State} (st : Status) (s : State) (k : Nat × Nat × Nat) (h2 : Alters M r s) (hm : Within 40534459306934332 M) :
    Alters M r (faultChan st s k) := by
  unfold faultChan
  try extract_lets
  repeat' first
    | with_reducible assumption
    | ((with_reducible refine Within.of hm ?_); exact rfl)
    | intro _
    | with_reducible apply alters_modChan
    | with_reducible apply alters_haltChan
    | with_reducible apply Alters.ite
    | (refine Alters.snd (by assumption) ?_)
    | (refine Alters.fst (by assumption) ?_)
    | (refine Alters.thd (by assumption) ?_)
    | split
    | simp +zetaDelta only [AltersF.mkIff]
    | assumption

theorem alters_oweHalt {M : Nat} {r : State} (n : Nat) (m : Nat) (c : Nat) (st : Status) (addr : Nat) (s : State) (h6 : Alters M r s) (hm : Within 549755813888 M) :
    Alters M r (oweHalt n m c st addr s) := by
  unfold oweHalt
  try extract_lets
  repeat' first
    | with_reducible assumption
    | ((with_reducible refine Within.of hm ?_); exact rfl)
    | intro _
    | with_reducible apply alters_modChan
    | with_reducible apply Alters.ite
    | split
    | simp +zetaDelta only [AltersF.mkIff]
    | assumption

theorem alters_drainFirst {M : Nat} {r : State} (n : Nat) (m : Nat) (c : Nat) (s : State) (h4 : Alters M r s) (hm : Within 4504561702600764 M) :
    Alters M r (drainFirst n m c s).2 := by
  unfold drainFirst
  try extract_lets
  repeat' first
    | with_reducible assumption
    | ((with_reducible refine Within.of hm ?_); exact rfl)
    | intro _
    | with_reducible apply alters_drainStage
    | with_reducible apply Alters.iteS
    | with_reducible apply Alters.ite
    | with_reducible apply Alters.foldl
    | with_reducible apply Alters.foldlP (p := Prod.snd)
    | with_reducible apply Alters.foldlP (p := Prod.fst)
    | with_reducible apply Alters.foldlT
    | (refine Alters.snd (by assumption) ?_)
    | (refine Alters.fst (by assumption) ?_)
    | (refine Alters.thd (by assumption) ?_)
    | split
    | simp +zetaDelta only [AltersF.mkIff]
    | assumption

theorem alters_haltFirst {M : Nat} {r : State} (n : Nat) (m : Nat) (c : Nat) (due : Status × Nat) (s : State) (h5 : Alters M r s) (hm : Within 40534459306934332 M) :
    Alters M r (haltFirst n m c due s) := by
  unfold haltFirst
  try extract_lets
  repeat' first
    | with_reducible assumption
    | ((with_reducible refine Within.of hm ?_); exact rfl)
    | intro _
    | with_reducible apply alters_drainFirst
    | with_reducible apply alters_haltChan
    | (refine Alters.snd (by assumption) ?_)
    | (refine Alters.fst (by assumption) ?_)
    | (refine Alters.thd (by assumption) ?_)
    | split
    | simp +zetaDelta only [AltersF.mkIff]
    | assumption

end Sys2Proof.Laws
end

