-- ==== Sys2Proof/Laws/AltersDataCmds.lean ====
section
/-! SUPPORT. Laws/AltersDataCmds.lean: which kinds of state the operations of Machine/DataCmds.lean may change (Laws/Alters.lean). -/
namespace Sys2Proof.Laws
open Sys2Proof.Machine
set_option linter.all false

theorem alters_readRng {M : Nat} {r : State} (ag : Agent) (x : Ctx) (v2 : Rng) (s : State) (h4 : Alters M r s) (hm : Within 2555937 M) :
    Alters M r (readRng ag x v2 s).2.2 := by
  unfold readRng
  try extract_lets
  repeat' first
    | with_reducible assumption
    | ((with_reducible refine Within.of hm ?_); exact rfl)
    | intro _
    | with_reducible apply alters_teleAdd
    | with_reducible apply alters_noteRead
    | with_reducible apply alters_teleMove
    | with_reducible apply alters_drawFree
    | with_reducible apply Alters.iteS
    | with_reducible apply Alters.ite
    | (refine Alters.snd (by assumption) ?_)
    | (refine Alters.fst (by assumption) ?_)
    | (refine Alters.thd (by assumption) ?_)
    | split
    | simp +zetaDelta only [AltersF.mkIff]
    | assumption

theorem alters_extPut64 {M : Nat} {r : State} (key : Option Nat) (base : Nat) (bs : List (Nat × Byte × Bool)) (acc : State × Status × Nat) (h4 : Alters M r acc.1) (hm : Within 768 M) :
    Alters M r (extPut64 key base bs acc).1 := by
  obtain ⟨s, st, lost⟩ := acc
  unfold extPut64
  dsimp only
  generalize extPlain s key base 64 = e
  obtain ⟨rs, old⟩ := e
  dsimp only
  split
  · exact h4
  · split
    · exact h4
    · exact alters_extWrite _ _ _ h4 (hm.of rfl)

theorem alters_extStore {M : Nat} {r : State} (key : Option Nat) (a : Nat) (bs : List (Byte × Bool)) (s : State) (h4 : Alters M r s) (hm : Within 768 M) :
    Alters M r (extStore key a bs s).1 := by
  unfold extStore
  try extract_lets
  repeat' first
    | with_reducible assumption
    | ((with_reducible refine Within.of hm ?_); exact rfl)
    | intro _
    | with_reducible apply alters_extPut64
    | with_reducible apply Alters.foldl
    | with_reducible apply Alters.foldlP (p := Prod.snd)
    | with_reducible apply Alters.foldlP (p := Prod.fst)
    | with_reducible apply Alters.foldlT
    | (refine Alters.snd (by assumption) ?_)
    | (refine Alters.fst (by assumption) ?_)
    | (refine Alters.thd (by assumption) ?_)
    | split
    | simp +zetaDelta only [AltersF.mkIff]
    | assumption

theorem alters_eccPut {M : Nat} {r : State} (k : Nat) (d : List Byte) (chk : List Byte) (s : State) (h4 : Alters M r s) (hm : Within 60 M) :
    Alters M r (eccPut k d chk s) := by
  unfold eccPut
  try extract_lets
  repeat' first
    | with_reducible assumption
    | ((with_reducible refine Within.of hm ?_); exact rfl)
    | intro _
    | with_reducible exact MemAlters.refl _ _
    | with_reducible apply memAlters_set_data_chk_tag_owed
    | with_reducible apply Alters.ite
    | with_reducible apply alters_set_mem
    | simp only [AltersF.mkIff]
    | split
    | simp +zetaDelta only [AltersF.mkIff]
    | assumption

theorem alters_eccPutByte {M : Nat} {r : State} (k : Nat) (b : Byte) (chk : Nat) (s : State) (h4 : Alters M r s) (hm : Within 60 M) :
    Alters M r (eccPutByte k b chk s) := by
  unfold eccPutByte
  try extract_lets
  repeat' first
    | with_reducible assumption
    | ((with_reducible refine Within.of hm ?_); exact rfl)
    | intro _
    | with_reducible exact MemAlters.refl _ _
    | with_reducible apply memAlters_set_data_chk_tag_owed
    | with_reducible apply alters_set_mem
    | simp only [AltersF.mkIff]
    | simp +zetaDelta only [AltersF.mkIff]
    | assumption

theorem alters_eccTestOn {M : Nat} {r : State} (c : Cmd) (s : State) (h2 : Alters M r s) (hm : Within 1073807420 M) :
    Alters M r (eccTestOn c s) := by
  unfold eccTestOn
  try extract_lets
  repeat' first
    | with_reducible assumption
    | ((with_reducible refine Within.of hm ?_); exact rfl)
    | intro _
    | with_reducible apply alters_report
    | with_reducible apply alters_cmdRefuse
    | with_reducible apply alters_modCmd
    | with_reducible apply alters_eccPut
    | with_reducible apply alters_eccPutByte
    | with_reducible apply alters_cmdDone
    | with_reducible apply Alters.ite
    | with_reducible apply Alters.foldl
    | with_reducible apply Alters.foldlP (p := Prod.snd)
    | with_reducible apply Alters.foldlP (p := Prod.fst)
    | with_reducible apply Alters.foldlT
    | (refine Alters.snd (by assumption) ?_)
    | (refine Alters.fst (by assumption) ?_)
    | (refine Alters.thd (by assumption) ?_)
    | split
    | simp +zetaDelta only [AltersF.mkIff]
    | assumption

theorem alters_execEccTestWrite {M : Nat} {r : State} (cmd : Nat) (s : State) (h2 : Alters M r s) (hm : Within 4399120318524 M) :
    AltersOut M r (execEccTestWrite cmd s) := by
  unfold execEccTestWrite
  try extract_lets
  repeat' first
    | with_reducible assumption
    | ((with_reducible refine Within.of hm ?_); exact rfl)
    | intro _
    | with_reducible apply AltersOut.next
    | with_reducible apply alters_whenAwake
    | with_reducible apply alters_eccTestOn
    | (refine Alters.snd (by assumption) ?_)
    | (refine Alters.fst (by assumption) ?_)
    | (refine Alters.thd (by assumption) ?_)
    | split
    | simp +zetaDelta only [AltersF.mkIff]
    | assumption

theorem alters_raiseSvc {M : Nat} {r : State} (bit : Nat) (s : State) (h2 : Alters M r s) (hm : Within 2048 M) :
    Alters M r (raiseSvc bit s) := by
  unfold raiseSvc
  try extract_lets
  repeat' first
    | with_reducible assumption
    | ((with_reducible refine Within.of hm ?_); exact rfl)
    | intro _
    | with_reducible apply alters_regPut
    | simp +zetaDelta only [AltersF.mkIff]
    | assumption

theorem alters_dataDone {M : Nat} {r : State} (c : Cmd) (st : Status) (count : Nat) (result : Nat) (s : State) (h5 : Alters M r s) (hm : Within 4503738140065792 M) :
    Alters M r (dataDone c st count result s) := by
  unfold dataDone
  try extract_lets
  repeat' first
    | with_reducible assumption
    | ((with_reducible refine Within.of hm ?_); exact rfl)
    | intro _
    | with_reducible apply alters_cmdDone
    | with_reducible apply alters_dropWorks
    | simp +zetaDelta only [AltersF.mkIff]
    | assumption

theorem alters_runData {M : Nat} {r : State} (cmd : Nat) (op : Nat) (extra : Cmd → Ctx → List Nat) (f : Cmd → Ctx → State → State) (s : State) (h4 : ∀ a0 a1 a2, Alters M r a2 → Alters M r (f a0 a1 a2)) (h5 : Alters M r s) (hm : Within 4508136186576896 M) :
    Alters M r (runData cmd op extra f s) := by
  unfold runData
  try extract_lets
  repeat' first
    | with_reducible assumption
    | ((with_reducible refine Within.of hm ?_); exact rfl)
    | intro _
    | with_reducible apply h4
    | with_reducible apply alters_whenAwake
    | with_reducible apply alters_dataDone
    | with_reducible apply Alters.ite
    | (refine Alters.snd (by assumption) ?_)
    | (refine Alters.fst (by assumption) ?_)
    | (refine Alters.thd (by assumption) ?_)
    | split
    | simp +zetaDelta only [AltersF.mkIff]
    | assumption

theorem alters_writeRng {M : Nat} {r : State} (ag : Agent) (x : Ctx) (v2 : Rng) (bs : List (Byte × Bool)) (s : State) (h5 : Alters M r s) (hm : Within 2556732 M) :
    Alters M r (writeRng ag x v2 bs s).2.2 := by
  unfold writeRng
  try extract_lets
  repeat' first
    | with_reducible assumption
    | ((with_reducible refine Within.of hm ?_); exact rfl)
    | intro _
    | with_reducible apply alters_extStore
    | with_reducible apply alters_teleAdd
    | with_reducible apply alters_writeBytes
    | with_reducible apply alters_teleMove
    | with_reducible apply Alters.iteS
    | with_reducible apply Alters.ite
    | (refine Alters.snd (by assumption) ?_)
    | (refine Alters.fst (by assumption) ?_)
    | (refine Alters.thd (by assumption) ?_)
    | split
    | simp +zetaDelta only [AltersF.mkIff]
    | assumption

theorem alters_evict {M : Nat} {r : State} (ag : Agent) (x : Ctx) (sp : Span) (d : PoolDst) (p : Partial) (s : State) (h6 : Alters M r s) (hm : Within 2555964 M) :
    Alters M r (evict ag x sp d p s) := by
  unfold evict
  try extract_lets
  repeat' first
    | with_reducible assumption
    | ((with_reducible refine Within.of hm ?_); exact rfl)
    | intro _
    | with_reducible apply alters_teleMove
    | with_reducible apply alters_accumOne
    | with_reducible apply Alters.foldl
    | with_reducible apply Alters.foldlP (p := Prod.snd)
    | with_reducible apply Alters.foldlP (p := Prod.fst)
    | with_reducible apply Alters.foldlT
    | (refine Alters.snd (by assumption) ?_)
    | (refine Alters.fst (by assumption) ?_)
    | (refine Alters.thd (by assumption) ?_)
    | split
    | simp +zetaDelta only [AltersF.mkIff]
    | assumption

theorem alters_poolOne {M : Nat} {r : State} (c : Cmd) (x : Ctx) (g : PoolP) (d : PoolDst) (acc : State × List Partial × Nat) (e : PoolEntry × Bool) (h5 : Alters M r acc.1) (hm : Within 2555964 M) :
    Alters M r (poolOne c x g d acc e).1 := by
  unfold poolOne
  try extract_lets
  repeat' first
    | with_reducible assumption
    | ((with_reducible refine Within.of hm ?_); exact rfl)
    | intro _
    | with_reducible apply alters_teleAdd
    | with_reducible apply alters_teleMove
    | with_reducible apply alters_noteRead
    | with_reducible apply alters_evict
    | with_reducible apply Alters.iteS
    | with_reducible apply Alters.ite
    | (refine Alters.snd (by assumption) ?_)
    | (refine Alters.fst (by assumption) ?_)
    | (refine Alters.thd (by assumption) ?_)
    | split
    | simp +zetaDelta only [AltersF.mkIff]
    | assumption

theorem alters_poolWorks {M : Nat} {r : State} (c : Cmd) (x : Ctx) (g : PoolP) (es : List PoolEntry) (s : State) (h5 : Alters M r s) (hm : Within 4503599627370498 M) :
    Alters M r (poolWorks c x g es s) := by
  unfold poolWorks
  try extract_lets
  repeat' first
    | with_reducible assumption
    | ((with_reducible refine Within.of hm ?_); exact rfl)
    | intro _
    | with_reducible apply alters_addWorks
    | simp +zetaDelta only [AltersF.mkIff]
    | assumption

theorem alters_poolOn {M : Nat} {r : State} (c : Cmd) (x : Ctx) (s : State) (h3 : Alters M r s) (hm : Within 4503600703669055 M) :
    Alters M r (poolOn c x s) := by
  unfold poolOn
  try extract_lets
  repeat' first
    | with_reducible assumption
    | ((with_reducible refine Within.of hm ?_); exact rfl)
    | intro _
    | with_reducible apply alters_writeRng
    | with_reducible apply alters_readRng
    | with_reducible apply alters_poolOne
    | with_reducible apply alters_drawFree
    | with_reducible apply alters_poolWorks
    | with_reducible apply alters_evict
    | with_reducible apply alters_cmdDone
    | with_reducible apply alters_modCmd
    | with_reducible apply Alters.ite
    | with_reducible apply Alters.foldl
    | with_reducible apply Alters.foldlP (p := Prod.snd)
    | with_reducible apply Alters.foldlP (p := Prod.fst)
    | with_reducible apply Alters.foldlT
    | (refine Alters.snd (by assumption) ?_)
    | (refine Alters.fst (by assumption) ?_)
    | (refine Alters.thd (by assumption) ?_)
    | split
    | simp +zetaDelta only [AltersF.mkIff]
    | assumption

theorem alters_execGatherPool {M : Nat} {r : State} (cmd : Nat) (s : State) (h2 : Alters M r s) (hm : Within 4508136189133631 M) :
    AltersOut M r (execGatherPool cmd s) := by
  unfold execGatherPool
  try extract_lets
  repeat' first
    | with_reducible assumption
    | ((with_reducible refine Within.of hm ?_); exact rfl)
    | intro _
    | with_reducible apply AltersOut.next
    | with_reducible apply alters_runData
    | with_reducible apply alters_poolOn
    | with_reducible apply AltersOut.ite
    | with_reducible apply Alters.ite
    | (refine Alters.snd (by assumption) ?_)
    | (refine Alters.fst (by assumption) ?_)
    | (refine Alters.thd (by assumption) ?_)
    | split
    | simp +zetaDelta only [AltersF.mkIff]
    | assumption

theorem alters_reduceElem {M : Nat} {r : State} (c : Cmd) (x : Ctx) (sr : Rng) (dr : Rng) (acc : Status × Nat × State) (i : Nat) (h5 : Alters M r acc.2.2) (hm : Within 2555964 M) :
    Alters M r (reduceElem c x sr dr acc i).2.2 := by
  unfold reduceElem
  try extract_lets
  repeat' first
    | with_reducible assumption
    | ((with_reducible refine Within.of hm ?_); exact rfl)
    | intro _
    | with_reducible apply alters_teleMove
    | with_reducible apply alters_writeBytes
    | with_reducible apply alters_noteRead
    | with_reducible apply alters_accumOne
    | with_reducible apply Alters.iteS
    | with_reducible apply Alters.ite
    | with_reducible apply Alters.foldl
    | with_reducible apply Alters.foldlP (p := Prod.snd)
    | with_reducible apply Alters.foldlP (p := Prod.fst)
    | with_reducible apply Alters.foldlT
    | (refine Alters.snd (by assumption) ?_)
    | (refine Alters.fst (by assumption) ?_)
    | (refine Alters.thd (by assumption) ?_)
    | split
    | simp +zetaDelta only [AltersF.mkIff]
    | assumption

theorem alters_reduceOn {M : Nat} {r : State} (c : Cmd) (x : Ctx) (s : State) (h3 : Alters M r s) (hm : Within 4503738142621757 M) :
    Alters M r (reduceOn c x s) := by
  unfold reduceOn
  try extract_lets
  repeat' first
    | with_reducible assumption
    | ((with_reducible refine Within.of hm ?_); exact rfl)
    | intro _
    | with_reducible apply alters_reduceElem
    | with_reducible apply alters_dataDone
    | with_reducible apply alters_drawFree
    | with_reducible apply Alters.ite
    | with_reducible apply Alters.foldl
    | with_reducible apply Alters.foldlP (p := Prod.snd)
    | with_reducible apply Alters.foldlP (p := Prod.fst)
    | with_reducible apply Alters.foldlT
    | (refine Alters.snd (by assumption) ?_)
    | (refine Alters.fst (by assumption) ?_)
    | (refine Alters.thd (by assumption) ?_)
    | split
    | simp +zetaDelta only [AltersF.mkIff]
    | assumption

theorem alters_execReduceAcc {M : Nat} {r : State} (cmd : Nat) (s : State) (h2 : Alters M r s) (hm : Within 4508136189132861 M) :
    AltersOut M r (execReduceAcc cmd s) := by
  unfold execReduceAcc
  try extract_lets
  repeat' first
    | with_reducible assumption
    | ((with_reducible refine Within.of hm ?_); exact rfl)
    | intro _
    | with_reducible apply AltersOut.next
    | with_reducible apply alters_runData
    | with_reducible apply alters_reduceOn
    | simp +zetaDelta only [AltersF.mkIff]
    | assumption

theorem alters_keepFile {M : Nat} {r : State} (e : Nat × Nat) (v1 : NmuFile) (s : State) (h3 : Alters M r s) (hm : Within 2097152 M) :
    Alters M r (keepFile e v1 s) := by
  unfold keepFile
  try extract_lets
  repeat' first
    | with_reducible assumption
    | ((with_reducible refine Within.of hm ?_); exact rfl)
    | intro _
    | with_reducible apply alters_modSlice
    | simp +zetaDelta only [AltersF.mkIff]
    | assumption

theorem alters_flushOn {M : Nat} {r : State} (c : Cmd) (v1 : Ctx) (s : State) (h3 : Alters M r s) (hm : Within 4504594988597310 M) :
    Alters M r (flushOn c v1 s) := by
  unfold flushOn
  try extract_lets
  repeat' first
    | with_reducible assumption
    | ((with_reducible refine Within.of hm ?_); exact rfl)
    | intro _
    | with_reducible apply alters_drainStage
    | with_reducible apply alters_dataDone
    | with_reducible apply alters_modCmd
    | with_reducible apply alters_issueAll
    | with_reducible apply alters_slotDrain
    | with_reducible apply Alters.ite
    | with_reducible apply Alters.foldl
    | with_reducible apply Alters.foldlP (p := Prod.snd)
    | with_reducible apply Alters.foldlP (p := Prod.fst)
    | with_reducible apply Alters.foldlT
    | (refine Alters.snd (by assumption) ?_)
    | (refine Alters.fst (by assumption) ?_)
    | (refine Alters.thd (by assumption) ?_)
    | with_reducible apply alters_set_ports_ops
    | simp only [AltersF.mkIff]
    | split
    | simp +zetaDelta only [AltersF.mkIff]
    | assumption

theorem alters_gemvRow {M : Nat} {r : State} (c : Cmd) (x : Ctx) (g : GemvP) (p : Pocket) (i : Nat) (acc : Status × List (List (List Fp) × Bool) × State) (j : Nat) (h6 : Alters M r acc.2.2) (hm : Within 2555936 M) :
    Alters M r (gemvRow c x g p i acc j).2.2 := by
  unfold gemvRow
  try extract_lets
  repeat' first
    | with_reducible assumption
    | ((with_reducible refine Within.of hm ?_); exact rfl)
    | intro _
    | with_reducible apply alters_teleMove
    | with_reducible apply alters_noteRead
    | (refine Alters.snd (by assumption) ?_)
    | (refine Alters.fst (by assumption) ?_)
    | (refine Alters.thd (by assumption) ?_)
    | split
    | simp +zetaDelta only [AltersF.mkIff]
    | assumption

theorem alters_copyOn {M : Nat} {r : State} (c : Cmd) (x : Ctx) (s : State) (h3 : Alters M r s) (hm : Within 4503738142622525 M) :
    Alters M r (copyOn c x s) := by
  unfold copyOn
  try extract_lets
  repeat' first
    | with_reducible assumption
    | ((with_reducible refine Within.of hm ?_); exact rfl)
    | intro _
    | with_reducible apply alters_readRng
    | with_reducible apply alters_writeRng
    | with_reducible apply alters_dataDone
    | (refine Alters.snd (by assumption) ?_)
    | (refine Alters.fst (by assumption) ?_)
    | (refine Alters.thd (by assumption) ?_)
    | split
    | simp +zetaDelta only [AltersF.mkIff]
    | assumption

theorem alters_nmuAgain {M : Nat} {r : State} (c : Cmd) (n : Nat) (tier : Nat) (s : State) (h4 : Alters M r s) (hm : Within 4503599629467650 M) :
    Alters M r (nmuAgain c n tier s) := by
  unfold nmuAgain
  try extract_lets
  repeat' first
    | with_reducible assumption
    | ((with_reducible refine Within.of hm ?_); exact rfl)
    | intro _
    | with_reducible apply alters_addWorks
    | with_reducible apply alters_modSlice
    | with_reducible apply Alters.ite
    | split
    | simp +zetaDelta only [AltersF.mkIff]
    | assumption

theorem alters_nmuFault {M : Nat} {r : State} (c : Cmd) (n : Nat) (tier : Nat) (tile : Nat) (s : State) (h5 : Alters M r s) (hm : Within 4503600703408130 M) :
    Alters M r (nmuFault c n tier tile s) := by
  unfold nmuFault
  try extract_lets
  repeat' first
    | with_reducible assumption
    | ((with_reducible refine Within.of hm ?_); exact rfl)
    | intro _
    | with_reducible apply alters_modCmd
    | with_reducible apply alters_modSlice
    | with_reducible apply alters_integAdd
    | with_reducible apply alters_raiseSvc
    | with_reducible apply alters_report
    | with_reducible apply alters_nmuAgain
    | with_reducible apply Alters.ite
    | split
    | simp +zetaDelta only [AltersF.mkIff]
    | assumption

theorem alters_convertOn {M : Nat} {r : State} (c : Cmd) (x : Ctx) (s : State) (h3 : Alters M r s) (hm : Within 4503738142622525 M) :
    Alters M r (convertOn c x s) := by
  unfold convertOn
  try extract_lets
  repeat' first
    | with_reducible assumption
    | ((with_reducible refine Within.of hm ?_); exact rfl)
    | intro _
    | with_reducible apply alters_readRng
    | with_reducible apply alters_writeRng
    | with_reducible apply alters_dataDone
    | (refine Alters.snd (by assumption) ?_)
    | (refine Alters.fst (by assumption) ?_)
    | (refine Alters.thd (by assumption) ?_)
    | split
    | simp +zetaDelta only [AltersF.mkIff]
    | assumption

theorem alters_execConvertCopy {M : Nat} {r : State} (cmd : Nat) (s : State) (h2 : Alters M r s) (hm : Within 4508136189133629 M) :
    AltersOut M r (execConvertCopy cmd s) := by
  unfold execConvertCopy
  try extract_lets
  repeat' first
    | with_reducible assumption
    | ((with_reducible refine Within.of hm ?_); exact rfl)
    | intro _
    | with_reducible apply AltersOut.next
    | with_reducible apply alters_runData
    | with_reducible apply alters_convertOn
    | simp +zetaDelta only [AltersF.mkIff]
    | assumption

theorem alters_poolParity {M : Nat} {r : State} (c : Cmd) (n : Nat) (tier : Nat) (s : State) (h4 : Alters M r s) (hm : Within 4503600701112322 M) :
    Alters M r (poolParity c n tier s) := by
  unfold poolParity
  try extract_lets
  repeat' first
    | with_reducible assumption
    | ((with_reducible refine Within.of hm ?_); exact rfl)
    | intro _
    | with_reducible apply alters_modCmd
    | with_reducible apply alters_addWorks
    | with_reducible apply Alters.ite
    | split
    | simp +zetaDelta only [AltersF.mkIff]
    | assumption

theorem alters_execFlushRange {M : Nat} {r : State} (cmd : Nat) (s : State) (h2 : Alters M r s) (hm : Within 4508993035108414 M) :
    AltersOut M r (execFlushRange cmd s) := by
  unfold execFlushRange
  try extract_lets
  repeat' first
    | with_reducible assumption
    | ((with_reducible refine Within.of hm ?_); exact rfl)
    | intro _
    | with_reducible apply AltersOut.next
    | with_reducible apply alters_runData
    | with_reducible apply alters_flushOn
    | simp +zetaDelta only [AltersF.mkIff]
    | assumption

theorem alters_sabLoad {M : Nat} {r : State} (ms : List (Nat × Nat)) (bs : List Byte) (s : State) (n : Nat) (h3 : Alters M r s) (hm : Within 2097152 M) :
    Alters M r (sabLoad ms bs s n) := by
  unfold sabLoad
  try extract_lets
  repeat' first
    | with_reducible assumption
    | ((with_reducible refine Within.of hm ?_); exact rfl)
    | intro _
    | with_reducible apply alters_modSlice
    | with_reducible apply Alters.ite
    | with_reducible apply Alters.foldl
    | with_reducible apply Alters.foldlP (p := Prod.snd)
    | with_reducible apply Alters.foldlP (p := Prod.fst)
    | with_reducible apply Alters.foldlT
    | (refine Alters.snd (by assumption) ?_)
    | (refine Alters.fst (by assumption) ?_)
    | (refine Alters.thd (by assumption) ?_)
    | split
    | simp +zetaDelta only [AltersF.mkIff]
    | assumption

theorem alters_putResult {M : Nat} {r : State} (ag : Agent) (acc : Bool) (ks : List Nat) (v : Nat) (bad : Bool) (s : State) (h6 : Alters M r s) (hm : Within 2555964 M) :
    Alters M r (putResult ag acc ks v bad s).2.2 := by
  unfold putResult
  try extract_lets
  repeat' first
    | with_reducible assumption
    | ((with_reducible refine Within.of hm ?_); exact rfl)
    | intro _
    | with_reducible apply alters_accumOne
    | with_reducible apply alters_writeBytes
    | with_reducible apply alters_teleMove
    | with_reducible apply Alters.iteS
    | with_reducible apply Alters.ite
    | (refine Alters.snd (by assumption) ?_)
    | (refine Alters.fst (by assumption) ?_)
    | (refine Alters.thd (by assumption) ?_)
    | split
    | simp +zetaDelta only [AltersF.mkIff]
    | assumption

theorem alters_gemvNmu {M : Nat} {r : State} (c : Cmd) (x : Ctx) (g : GemvP) (gx : GemvX) (acc : Status × Nat × State) (e : Pocket × Nat × Nat) (h5 : Alters M r acc.2.2) (hm : Within 2555964 M) :
    Alters M r (gemvNmu c x g gx acc e).2.2 := by
  unfold gemvNmu
  try extract_lets
  repeat' first
    | with_reducible assumption
    | ((with_reducible refine Within.of hm ?_); exact rfl)
    | intro _
    | with_reducible apply alters_gemvRow
    | with_reducible apply alters_putResult
    | with_reducible apply alters_keepFile
    | with_reducible apply Alters.iteS
    | with_reducible apply Alters.ite
    | with_reducible apply Alters.foldl
    | with_reducible apply Alters.foldlP (p := Prod.snd)
    | with_reducible apply Alters.foldlP (p := Prod.fst)
    | with_reducible apply Alters.foldlT
    | (refine Alters.snd (by assumption) ?_)
    | (refine Alters.fst (by assumption) ?_)
    | (refine Alters.thd (by assumption) ?_)
    | split
    | simp +zetaDelta only [AltersF.mkIff]
    | assumption

theorem alters_gemvOn {M : Nat} {r : State} (c : Cmd) (x : Ctx) (s : State) (h3 : Alters M r s) (hm : Within 4503738142621757 M) :
    Alters M r (gemvOn c x s) := by
  unfold gemvOn
  try extract_lets
  repeat' first
    | with_reducible assumption
    | ((with_reducible refine Within.of hm ?_); exact rfl)
    | intro _
    | with_reducible apply alters_readRng
    | with_reducible apply alters_sabLoad
    | with_reducible apply alters_gemvNmu
    | with_reducible apply alters_teleAdd
    | with_reducible apply alters_drawFree
    | with_reducible apply alters_dataDone
    | with_reducible apply Alters.ite
    | with_reducible apply Alters.foldl
    | with_reducible apply Alters.foldlP (p := Prod.snd)
    | with_reducible apply Alters.foldlP (p := Prod.fst)
    | with_reducible apply Alters.foldlT
    | (refine Alters.snd (by assumption) ?_)
    | (refine Alters.fst (by assumption) ?_)
    | (refine Alters.thd (by assumption) ?_)
    | split
    | simp +zetaDelta only [AltersF.mkIff]
    | assumption

theorem alters_fillOn {M : Nat} {r : State} (c : Cmd) (x : Ctx) (s : State) (h3 : Alters M r s) (hm : Within 4503738142622524 M) :
    Alters M r (fillOn c x s) := by
  unfold fillOn
  try extract_lets
  repeat' first
    | with_reducible assumption
    | ((with_reducible refine Within.of hm ?_); exact rfl)
    | intro _
    | with_reducible apply alters_writeRng
    | with_reducible apply alters_dataDone
    | (refine Alters.snd (by assumption) ?_)
    | (refine Alters.fst (by assumption) ?_)
    | (refine Alters.thd (by assumption) ?_)
    | split
    | simp +zetaDelta only [AltersF.mkIff]
    | assumption

theorem alters_execFill {M : Nat} {r : State} (cmd : Nat) (s : State) (h2 : Alters M r s) (hm : Within 4508136189133628 M) :
    AltersOut M r (execFill cmd s) := by
  unfold execFill
  try extract_lets
  repeat' first
    | with_reducible assumption
    | ((with_reducible refine Within.of hm ?_); exact rfl)
    | intro _
    | with_reducible apply AltersOut.next
    | with_reducible apply alters_runData
    | with_reducible apply alters_fillOn
    | simp +zetaDelta only [AltersF.mkIff]
    | assumption

theorem alters_execCopy {M : Nat} {r : State} (cmd : Nat) (s : State) (h2 : Alters M r s) (hm : Within 4508136189133629 M) :
    AltersOut M r (execCopy cmd s) := by
  unfold execCopy
  try extract_lets
  repeat' first
    | with_reducible assumption
    | ((with_reducible refine Within.of hm ?_); exact rfl)
    | intro _
    | with_reducible apply AltersOut.next
    | with_reducible apply alters_runData
    | with_reducible apply alters_copyOn
    | simp +zetaDelta only [AltersF.mkIff]
    | assumption

theorem alters_execGemv {M : Nat} {r : State} (cmd : Nat) (s : State) (h2 : Alters M r s) (hm : Within 4508136189132861 M) :
    AltersOut M r (execGemv cmd s) := by
  unfold execGemv
  try extract_lets
  repeat' first
    | with_reducible assumption
    | ((with_reducible refine Within.of hm ?_); exact rfl)
    | intro _
    | with_reducible apply AltersOut.next
    | with_reducible apply alters_runData
    | with_reducible apply alters_gemvOn
    | simp +zetaDelta only [AltersF.mkIff]
    | assumption

theorem alters_poolFinishOn {M : Nat} {r : State} (c : Cmd) (x : Ctx) (s : State) (h3 : Alters M r s) (hm : Within 4503738142621757 M) :
    Alters M r (poolFinishOn c x s) := by
  unfold poolFinishOn
  try extract_lets
  repeat' first
    | with_reducible assumption
    | ((with_reducible refine Within.of hm ?_); exact rfl)
    | intro _
    | with_reducible apply alters_noteRead
    | with_reducible apply alters_writeBytes
    | with_reducible apply alters_teleMove
    | with_reducible apply alters_drawFree
    | with_reducible apply alters_dataDone
    | with_reducible apply Alters.ite
    | with_reducible apply Alters.foldl
    | with_reducible apply Alters.foldlP (p := Prod.snd)
    | with_reducible apply Alters.foldlP (p := Prod.fst)
    | with_reducible apply Alters.foldlT
    | (refine Alters.snd (by assumption) ?_)
    | (refine Alters.fst (by assumption) ?_)
    | (refine Alters.thd (by assumption) ?_)
    | split
    | simp +zetaDelta only [AltersF.mkIff]
    | assumption

theorem alters_execGatherPoolFinish {M : Nat} {r : State} (cmd : Nat) (s : State) (h2 : Alters M r s) (hm : Within 4508136189132861 M) :
    AltersOut M r (execGatherPoolFinish cmd s) := by
  unfold execGatherPoolFinish
  try extract_lets
  repeat' first
    | with_reducible assumption
    | ((with_reducible refine Within.of hm ?_); exact rfl)
    | intro _
    | with_reducible apply AltersOut.next
    | with_reducible apply alters_runData
    | with_reducible apply alters_poolFinishOn
    | with_reducible apply AltersOut.ite
    | with_reducible apply Alters.ite
    | (refine Alters.snd (by assumption) ?_)
    | (refine Alters.fst (by assumption) ?_)
    | (refine Alters.thd (by assumption) ?_)
    | split
    | simp +zetaDelta only [AltersF.mkIff]
    | assumption

theorem alters_execNmuFaultRetry {M : Nat} {r : State} (n : Nat) (tier : Nat) (tile : Nat) (s : State) (h4 : Alters M r s) (hm : Within 4503600703408130 M) :
    AltersOut M r (execNmuFaultRetry n tier tile s) := by
  unfold execNmuFaultRetry
  try extract_lets
  repeat' first
    | with_reducible assumption
    | ((with_reducible refine Within.of hm ?_); exact rfl)
    | intro _
    | with_reducible apply AltersOut.next
    | with_reducible apply alters_nmuFault
    | (refine Alters.snd (by assumption) ?_)
    | (refine Alters.fst (by assumption) ?_)
    | (refine Alters.thd (by assumption) ?_)
    | split
    | simp +zetaDelta only [AltersF.mkIff]
    | assumption

end Sys2Proof.Laws
end

