-- ==== Sys2Proof/Laws/AltersFabSend.lean ====
section
/-! SUPPORT. Laws/AltersFabSend.lean: which kinds of state the operations of Machine/FabSend.lean may change (Laws/Alters.lean). -/
namespace Sys2Proof.Laws
open Sys2Proof.Machine
set_option linter.all false

theorem alters_sendReq {M : Nat} {r : State} (v0 : FabReq) (s : State) (h2 : Alters M r s) (hm : Within 3298535145473 M) :
    Alters M r (sendReq v0 s) := by
  unfold sendReq
  try extract_lets
  repeat' first
    | with_reducible assumption
    | ((with_reducible refine Within.of hm ?_); exact rfl)
    | intro _
    | with_reducible apply alters_teleAdd
    | with_reducible apply alters_drawFree
    | with_reducible apply alters_emit
    | with_reducible apply alters_modReq
    | with_reducible apply Alters.ite
    | split
    | simp +zetaDelta only [AltersF.mkIff]
    | assumption

theorem alters_pump {M : Nat} {r : State} (s : State) (h1 : Alters M r s) (hm : Within 3298535145473 M) :
    Alters M r (pump s) := by
  unfold pump
  try extract_lets
  repeat' first
    | with_reducible assumption
    | ((with_reducible refine Within.of hm ?_); exact rfl)
    | intro _
    | with_reducible apply alters_sendReq
    | exact fabAlters_reqs _ _ (Within.of hm rfl)
    | exact fabAlters_rest _ _ (Within.of hm rfl) rfl
    | exact fabAlters_any _ _ (Within.of hm rfl)
    | with_reducible apply Alters.ite
    | with_reducible apply Alters.foldl
    | with_reducible apply Alters.foldlP (p := Prod.snd)
    | with_reducible apply Alters.foldlP (p := Prod.fst)
    | with_reducible apply Alters.foldlT
    | with_reducible apply alters_set_fab
    | simp only [AltersF.mkIff]
    | split
    | simp +zetaDelta only [AltersF.mkIff]
    | assumption

theorem alters_addReq {M : Nat} {r : State} (v0 : FabReq) (s : State) (h2 : Alters M r s) (hm : Within 2199023255554 M) :
    Alters M r (addReq v0 s) := by
  unfold addReq
  try extract_lets
  repeat' first
    | with_reducible assumption
    | ((with_reducible refine Within.of hm ?_); exact rfl)
    | intro _
    | with_reducible apply alters_freshId
    | exact fabAlters_reqs _ _ (Within.of hm rfl)
    | exact fabAlters_rest _ _ (Within.of hm rfl) rfl
    | exact fabAlters_any _ _ (Within.of hm rfl)
    | (refine Alters.snd (by assumption) ?_)
    | (refine Alters.fst (by assumption) ?_)
    | (refine Alters.thd (by assumption) ?_)
    | with_reducible apply alters_set_fab
    | simp only [AltersF.mkIff]
    | split
    | simp +zetaDelta only [AltersF.mkIff]
    | assumption

theorem alters_passOut {M : Nat} {r : State} (v0 : Req) (ext : Nat) (ctx : Nat) (part : Nat) (s : State) (h5 : Alters M r s) (hm : Within 3302830112771 M) :
    Alters M r (passOut v0 ext ctx part s) := by
  unfold passOut
  try extract_lets
  repeat' first
    | with_reducible assumption
    | ((with_reducible refine Within.of hm ?_); exact rfl)
    | intro _
    | with_reducible apply alters_freshId
    | with_reducible apply alters_pump
    | with_reducible apply alters_addReq
    | with_reducible apply Alters.ite
    | (refine Alters.snd (by assumption) ?_)
    | (refine Alters.fst (by assumption) ?_)
    | (refine Alters.thd (by assumption) ?_)
    | with_reducible apply alters_set_ops
    | simp only [AltersF.mkIff]
    | split
    | simp +zetaDelta only [AltersF.mkIff]
    | assumption

end Sys2Proof.Laws
end

