-- ==== Sys2Proof/Laws/AltersFabSource.lean ====
section
/-! SUPPORT. Laws/AltersFabSource.lean: which kinds of state the operations of Machine/FabSource.lean may change (Laws/Alters.lean). -/
namespace Sys2Proof.Laws
open Sys2Proof.Machine
set_option linter.all false

theorem alters_signalGvid {M : Nat} {r : State} (v0 : FabReq) (s : State) (h2 : Alters M r s) (hm : Within 36035120284631040 M) :
    Alters M r (signalGvid v0 s) := by
  unfold signalGvid
  try extract_lets
  repeat' first
    | with_reducible assumption
    | ((with_reducible refine Within.of hm ?_); exact rfl)
    | intro _
    | with_reducible apply alters_signalCounter
    | with_reducible apply alters_touch
    | (refine Alters.snd (by assumption) ?_)
    | (refine Alters.fst (by assumption) ?_)
    | (refine Alters.thd (by assumption) ?_)
    | split
    | simp +zetaDelta only [AltersF.mkIff]
    | assumption

theorem alters_heldAfter {M : Nat} {r : State} (v0 : FabReq) (st : Status) (s : State) (h3 : Alters M r s) (hm : Within 72057594037927936 M) :
    Alters M r (heldAfter v0 st s) := by
  unfold heldAfter
  try extract_lets
  repeat' first
    | with_reducible assumption
    | ((with_reducible refine Within.of hm ?_); exact rfl)
    | intro _
    | with_reducible apply alters_dropHeld
    | exact fabAlters_reqs _ _ (Within.of hm rfl)
    | exact fabAlters_rest _ _ (Within.of hm rfl) rfl
    | exact fabAlters_any _ _ (Within.of hm rfl)
    | with_reducible apply Alters.ite
    | with_reducible apply alters_set_fab
    | simp only [AltersF.mkIff]
    | split
    | simp +zetaDelta only [AltersF.mkIff]
    | assumption

theorem alters_writePiece {M : Nat} {r : State} (id : Nat) (v1 : FabReq) (data : List (Byte × Bool)) (s : State) (h4 : Alters M r s) (hm : Within 2556732 M) :
    Alters M r (writePiece id v1 data s).2.2 := by
  unfold writePiece
  try extract_lets
  repeat' first
    | with_reducible assumption
    | ((with_reducible refine Within.of hm ?_); exact rfl)
    | intro _
    | with_reducible apply alters_writeRng
    | (refine Alters.snd (by assumption) ?_)
    | (refine Alters.fst (by assumption) ?_)
    | (refine Alters.thd (by assumption) ?_)
    | split
    | simp +zetaDelta only [AltersF.mkIff]
    | assumption

theorem alters_remoteEnd {M : Nat} {r : State} (id : Nat) (s : State) (h2 : Alters M r s) (hm : Within 1073741824 M) :
    Alters M r (remoteEnd id s) := by
  unfold remoteEnd
  try extract_lets
  repeat' first
    | with_reducible assumption
    | ((with_reducible refine Within.of hm ?_); exact rfl)
    | intro _
    | with_reducible apply alters_cmdDone
    | with_reducible apply Alters.ite
    | (refine Alters.snd (by assumption) ?_)
    | (refine Alters.fst (by assumption) ?_)
    | (refine Alters.thd (by assumption) ?_)
    | split
    | simp +zetaDelta only [AltersF.mkIff]
    | assumption

theorem alters_stopPieces {M : Nat} {r : State} (o : Origin) (s : State) (h2 : Alters M r s) (hm : Within 2199023255552 M) :
    Alters M r (stopPieces o s) := by
  unfold stopPieces
  try extract_lets
  repeat' first
    | with_reducible assumption
    | ((with_reducible refine Within.of hm ?_); exact rfl)
    | intro _
    | exact fabAlters_reqs _ _ (Within.of hm rfl)
    | exact fabAlters_rest _ _ (Within.of hm rfl) rfl
    | exact fabAlters_any _ _ (Within.of hm rfl)
    | with_reducible apply alters_set_fab
    | simp only [AltersF.mkIff]
    | simp +zetaDelta only [AltersF.mkIff]
    | assumption

theorem alters_pieceAnswer {M : Nat} {r : State} (id : Nat) (v1 : FabReq) (st : Status) (n : Nat) (s : State) (h5 : Alters M r s) (hm : Within 72059794134925312 M) :
    Alters M r (pieceAnswer id v1 st n s) := by
  unfold pieceAnswer
  try extract_lets
  repeat' first
    | with_reducible assumption
    | ((with_reducible refine Within.of hm ?_); exact rfl)
    | intro _
    | with_reducible apply alters_modCmd
    | with_reducible apply alters_heldAfter
    | with_reducible apply alters_remoteEnd
    | with_reducible apply alters_stopPieces
    | with_reducible apply Alters.ite
    | split
    | simp +zetaDelta only [AltersF.mkIff]
    | assumption

theorem alters_answerReq {M : Nat} {r : State} (v0 : FabReq) (st : Status) (count : Nat) (data : List (Byte × Bool)) (s : State) (h5 : Alters M r s) (hm : Within 72060900091562813 M) :
    Alters M r (answerReq v0 st count data s) := by
  unfold answerReq
  try extract_lets
  repeat' first
    | with_reducible assumption
    | ((with_reducible refine Within.of hm ?_); exact rfl)
    | intro _
    | with_reducible apply alters_dropReq
    | with_reducible apply alters_heldAfter
    | with_reducible apply alters_respond
    | with_reducible apply alters_portErr
    | with_reducible apply alters_writePiece
    | with_reducible apply alters_pieceAnswer
    | with_reducible apply alters_pump
    | with_reducible apply Alters.ite
    | (refine Alters.snd (by assumption) ?_)
    | (refine Alters.fst (by assumption) ?_)
    | (refine Alters.thd (by assumption) ?_)
    | split
    | simp +zetaDelta only [AltersF.mkIff]
    | assumption

theorem alters_takeAnswer {M : Nat} {r : State} (f : Frame) (v1 : FabReq) (s : State) (h3 : Alters M r s) (hm : Within 72065298138073917 M) :
    Alters M r (takeAnswer f v1 s) := by
  unfold takeAnswer
  try extract_lets
  repeat' first
    | with_reducible assumption
    | ((with_reducible refine Within.of hm ?_); exact rfl)
    | intro _
    | with_reducible apply alters_whenAwake
    | with_reducible apply alters_answerReq
    | with_reducible apply alters_modReq
    | with_reducible apply Alters.ite
    | split
    | simp +zetaDelta only [AltersF.mkIff]
    | assumption

theorem alters_granted {M : Nat} {r : State} (v0 : FabReq) (m : CMsg) (rec : List Word) (s : State) (h4 : Alters M r s) (hm : Within 108094913348305724 M) :
    Alters M r (granted v0 m rec s) := by
  unfold granted
  try extract_lets
  repeat' first
    | with_reducible assumption
    | ((with_reducible refine Within.of hm ?_); exact rfl)
    | intro _
    | with_reducible apply alters_cmdWrite
    | with_reducible apply alters_dropReq
    | with_reducible apply alters_signalGvid
    | with_reducible apply alters_cmdDone
    | exact fabAlters_reqs _ _ (Within.of hm rfl)
    | exact fabAlters_rest _ _ (Within.of hm rfl) rfl
    | exact fabAlters_any _ _ (Within.of hm rfl)
    | with_reducible apply Alters.ite
    | (refine Alters.snd (by assumption) ?_)
    | (refine Alters.fst (by assumption) ?_)
    | (refine Alters.thd (by assumption) ?_)
    | with_reducible apply alters_set_fab
    | simp only [AltersF.mkIff]
    | split
    | simp +zetaDelta only [AltersF.mkIff]
    | assumption

theorem alters_notGranted {M : Nat} {r : State} (v0 : FabReq) (m : CMsg) (s : State) (h3 : Alters M r s) (hm : Within 2200099554108 M) :
    Alters M r (notGranted v0 m s) := by
  unfold notGranted
  try extract_lets
  repeat' first
    | with_reducible assumption
    | ((with_reducible refine Within.of hm ?_); exact rfl)
    | intro _
    | with_reducible apply alters_dropReq
    | with_reducible apply alters_cmdDone
    | with_reducible apply alters_cmdWrite
    | (refine Alters.snd (by assumption) ?_)
    | (refine Alters.fst (by assumption) ?_)
    | (refine Alters.thd (by assumption) ?_)
    | split
    | simp +zetaDelta only [AltersF.mkIff]
    | assumption

theorem alters_grantAnswer {M : Nat} {r : State} (f : Frame) (m : CMsg) (t : State) (h3 : Alters M r t) (hm : Within 108094913348305727 M) :
    Alters M r (grantAnswer f m t) := by
  unfold grantAnswer
  try extract_lets
  repeat' first
    | with_reducible assumption
    | ((with_reducible refine Within.of hm ?_); exact rfl)
    | intro _
    | with_reducible apply alters_whenAwake
    | with_reducible apply alters_dropReq
    | with_reducible apply alters_sendRelease
    | with_reducible apply alters_granted
    | with_reducible apply alters_notGranted
    | with_reducible apply Alters.ite
    | (refine Alters.snd (by assumption) ?_)
    | (refine Alters.fst (by assumption) ?_)
    | (refine Alters.thd (by assumption) ?_)
    | split
    | simp +zetaDelta only [AltersF.mkIff]
    | assumption

theorem alters_renewHeld {M : Nat} {r : State} (v0 : FabReq) (m : CMsg) (s : State) (h3 : Alters M r s) (hm : Within 72057594037927936 M) :
    Alters M r (renewHeld v0 m s) := by
  unfold renewHeld
  try extract_lets
  repeat' first
    | with_reducible assumption
    | ((with_reducible refine Within.of hm ?_); exact rfl)
    | intro _
    | exact fabAlters_reqs _ _ (Within.of hm rfl)
    | exact fabAlters_rest _ _ (Within.of hm rfl) rfl
    | exact fabAlters_any _ _ (Within.of hm rfl)
    | with_reducible apply alters_set_fab
    | simp only [AltersF.mkIff]
    | simp +zetaDelta only [AltersF.mkIff]
    | assumption

theorem alters_renewAnswer {M : Nat} {r : State} (m : CMsg) (t : State) (h2 : Alters M r t) (hm : Within 72064192181436416 M) :
    Alters M r (renewAnswer m t) := by
  unfold renewAnswer
  try extract_lets
  repeat' first
    | with_reducible assumption
    | ((with_reducible refine Within.of hm ?_); exact rfl)
    | intro _
    | with_reducible apply alters_whenAwake
    | with_reducible apply alters_dropReq
    | with_reducible apply alters_renewHeld
    | with_reducible apply alters_heldAfter
    | with_reducible apply alters_cmdDone
    | with_reducible apply Alters.ite
    | (refine Alters.snd (by assumption) ?_)
    | (refine Alters.fst (by assumption) ?_)
    | (refine Alters.thd (by assumption) ?_)
    | split
    | simp +zetaDelta only [AltersF.mkIff]
    | assumption

theorem alters_releaseAnswer {M : Nat} {r : State} (m : CMsg) (t : State) (h2 : Alters M r t) (hm : Within 72064192181436416 M) :
    Alters M r (releaseAnswer m t) := by
  unfold releaseAnswer
  try extract_lets
  repeat' first
    | with_reducible assumption
    | ((with_reducible refine Within.of hm ?_); exact rfl)
    | intro _
    | with_reducible apply alters_whenAwake
    | with_reducible apply alters_dropHeld
    | with_reducible apply alters_heldAfter
    | with_reducible apply alters_dropReq
    | with_reducible apply alters_cmdDone
    | (refine Alters.snd (by assumption) ?_)
    | (refine Alters.fst (by assumption) ?_)
    | (refine Alters.thd (by assumption) ?_)
    | split
    | simp +zetaDelta only [AltersF.mkIff]
    | assumption

theorem alters_deferredNotice {M : Nat} {r : State} (m : CMsg) (t : State) (h2 : Alters M r t) (hm : Within 6598143508480 M) :
    Alters M r (deferredNotice m t) := by
  unfold deferredNotice
  try extract_lets
  repeat' first
    | with_reducible assumption
    | ((with_reducible refine Within.of hm ?_); exact rfl)
    | intro _
    | with_reducible apply alters_whenAwake
    | with_reducible apply alters_modReq
    | with_reducible apply alters_cmdDone
    | with_reducible apply Alters.ite
    | (refine Alters.snd (by assumption) ?_)
    | (refine Alters.fst (by assumption) ?_)
    | (refine Alters.thd (by assumption) ?_)
    | split
    | simp +zetaDelta only [AltersF.mkIff]
    | assumption

theorem alters_signalAnswered {M : Nat} {r : State} (f : Frame) (t : State) (h2 : Alters M r t) (hm : Within 6598143508480 M) :
    Alters M r (signalAnswered f t) := by
  unfold signalAnswered
  try extract_lets
  repeat' first
    | with_reducible assumption
    | ((with_reducible refine Within.of hm ?_); exact rfl)
    | intro _
    | with_reducible apply alters_whenAwake
    | with_reducible apply alters_dropReq
    | with_reducible apply alters_cmdDone
    | (refine Alters.snd (by assumption) ?_)
    | (refine Alters.fst (by assumption) ?_)
    | (refine Alters.thd (by assumption) ?_)
    | split
    | simp +zetaDelta only [AltersF.mkIff]
    | assumption

theorem alters_dropFrame {M : Nat} {r : State} (f : Frame) (srcdev : Nat) (s : State) (h3 : Alters M r s) (hm : Within 65536 M) :
    Alters M r (dropFrame f srcdev s) := by
  unfold dropFrame
  try extract_lets
  repeat' first
    | with_reducible assumption
    | ((with_reducible refine Within.of hm ?_); exact rfl)
    | intro _
    | with_reducible apply alters_logEvent
    | simp +zetaDelta only [AltersF.mkIff]
    | assumption

theorem alters_frameIn {M : Nat} {r : State} (f : Frame) (ftype : Nat) (clean : Bool) (sender : Option Nat) (s : State) (k : State → State) (h5 : Alters M r s) (h6 : ∀ a0, Alters M r a0 → Alters M r (k a0)) (hm : Within 65536 M) :
    Alters M r (frameIn f ftype clean sender s k) := by
  unfold frameIn
  try extract_lets
  repeat' first
    | with_reducible assumption
    | ((with_reducible refine Within.of hm ?_); exact rfl)
    | intro _
    | with_reducible apply h6
    | with_reducible apply alters_dropFrame
    | with_reducible apply Alters.ite
    | (refine Alters.snd (by assumption) ?_)
    | (refine Alters.fst (by assumption) ?_)
    | (refine Alters.thd (by assumption) ?_)
    | split
    | simp +zetaDelta only [AltersF.mkIff]
    | assumption

theorem alters_timeoutReq {M : Nat} {r : State} (v0 : FabReq) (s : State) (h2 : Alters M r s) (hm : Within 3306051078144 M) :
    Alters M r (timeoutReq v0 s) := by
  unfold timeoutReq
  try extract_lets
  repeat' first
    | with_reducible assumption
    | ((with_reducible refine Within.of hm ?_); exact rfl)
    | intro _
    | with_reducible apply alters_respond
    | with_reducible apply alters_forgetReq
    | with_reducible apply alters_stopPieces
    | with_reducible apply alters_cmdDone
    | with_reducible apply Alters.foldl
    | with_reducible apply Alters.foldlP (p := Prod.snd)
    | with_reducible apply Alters.foldlP (p := Prod.fst)
    | with_reducible apply Alters.foldlT
    | (refine Alters.snd (by assumption) ?_)
    | (refine Alters.fst (by assumption) ?_)
    | (refine Alters.thd (by assumption) ?_)
    | split
    | simp +zetaDelta only [AltersF.mkIff]
    | assumption

theorem alters_execFabricTimeout {M : Nat} {r : State} (req : Nat) (s : State) (h2 : Alters M r s) (hm : Within 3306051373057 M) :
    AltersOut M r (execFabricTimeout req s) := by
  unfold execFabricTimeout
  try extract_lets
  repeat' first
    | with_reducible assumption
    | ((with_reducible refine Within.of hm ?_); exact rfl)
    | intro _
    | with_reducible apply AltersOut.next
    | with_reducible apply alters_pump
    | with_reducible apply alters_timeoutReq
    | with_reducible apply alters_timeTo
    | (refine Alters.snd (by assumption) ?_)
    | (refine Alters.fst (by assumption) ?_)
    | (refine Alters.thd (by assumption) ?_)
    | split
    | simp +zetaDelta only [AltersF.mkIff]
    | assumption

theorem alters_remotePiece {M : Nat} {r : State} (c : Cmd) (x : Ctx) (held : Option Held) (write : Bool) (gta : Nat) (data : List (Byte × Bool)) (s : State) (piece : Nat × Nat) (h7 : Alters M r s) (hm : Within 2199023255554 M) :
    Alters M r (remotePiece c x held write gta data s piece) := by
  unfold remotePiece
  try extract_lets
  repeat' first
    | with_reducible assumption
    | ((with_reducible refine Within.of hm ?_); exact rfl)
    | intro _
    | with_reducible apply alters_addReq
    | with_reducible apply Alters.ite
    | (refine Alters.snd (by assumption) ?_)
    | (refine Alters.fst (by assumption) ?_)
    | (refine Alters.thd (by assumption) ?_)
    | split
    | simp +zetaDelta only [AltersF.mkIff]
    | assumption

theorem alters_remoteStart {M : Nat} {r : State} (c : Cmd) (x : Ctx) (held : Option Held) (write : Bool) (gta : Nat) (st : Status) (data : List (Byte × Bool)) (s : State) (h8 : Alters M r s) (hm : Within 3299608887299 M) :
    Alters M r (remoteStart c x held write gta st data s) := by
  unfold remoteStart
  try extract_lets
  repeat' first
    | with_reducible assumption
    | ((with_reducible refine Within.of hm ?_); exact rfl)
    | intro _
    | with_reducible apply alters_modCmd
    | with_reducible apply alters_pump
    | with_reducible apply alters_remotePiece
    | with_reducible apply Alters.foldl
    | with_reducible apply Alters.foldlP (p := Prod.snd)
    | with_reducible apply Alters.foldlP (p := Prod.fst)
    | with_reducible apply Alters.foldlT
    | simp +zetaDelta only [AltersF.mkIff]
    | assumption

theorem alters_creditFrame {M : Nat} {r : State} (f : Frame) (ck : Nat) (request : Bool) (s : State) (k : CMsg → State → State) (h4 : Alters M r s) (h5 : ∀ a0 a1, Alters M r a1 → Alters M r (k a0 a1)) (hm : Within 65536 M) :
    Alters M r (creditFrame f ck request s k) := by
  unfold creditFrame
  try extract_lets
  repeat' first
    | with_reducible assumption
    | ((with_reducible refine Within.of hm ?_); exact rfl)
    | intro _
    | with_reducible apply h5
    | with_reducible apply alters_frameIn
    | with_reducible apply Alters.ite
    | split
    | simp +zetaDelta only [AltersF.mkIff]
    | assumption

theorem alters_execDeferredNotice {M : Nat} {r : State} (f : Frame) (s : State) (h2 : Alters M r s) (hm : Within 6598143574016 M) :
    AltersOut M r (execDeferredNotice f s) := by
  unfold execDeferredNotice
  try extract_lets
  repeat' first
    | with_reducible assumption
    | ((with_reducible refine Within.of hm ?_); exact rfl)
    | intro _
    | with_reducible apply AltersOut.next
    | with_reducible apply alters_creditFrame
    | with_reducible apply alters_deferredNotice
    | simp +zetaDelta only [AltersF.mkIff]
    | assumption

theorem alters_execCounterSignalAnswer {M : Nat} {r : State} (f : Frame) (s : State) (h2 : Alters M r s) (hm : Within 6598143574016 M) :
    AltersOut M r (execCounterSignalAnswer f s) := by
  unfold execCounterSignalAnswer
  try extract_lets
  repeat' first
    | with_reducible assumption
    | ((with_reducible refine Within.of hm ?_); exact rfl)
    | intro _
    | with_reducible apply AltersOut.next
    | with_reducible apply alters_frameIn
    | with_reducible apply alters_signalAnswered
    | with_reducible apply AltersOut.ite
    | with_reducible apply Alters.ite
    | split
    | simp +zetaDelta only [AltersF.mkIff]
    | assumption

theorem alters_remoteWriteOn {M : Nat} {r : State} (c : Cmd) (x : Ctx) (s : State) (h3 : Alters M r s) (hm : Within 4507036677505059 M) :
    Alters M r (remoteWriteOn c x s) := by
  unfold remoteWriteOn
  try extract_lets
  repeat' first
    | with_reducible assumption
    | ((with_reducible refine Within.of hm ?_); exact rfl)
    | intro _
    | with_reducible apply alters_readRng
    | with_reducible apply alters_remoteStart
    | with_reducible apply alters_dataDone
    | (refine Alters.snd (by assumption) ?_)
    | (refine Alters.fst (by assumption) ?_)
    | (refine Alters.thd (by assumption) ?_)
    | split
    | simp +zetaDelta only [AltersF.mkIff]
    | assumption

theorem alters_execRemoteWrite {M : Nat} {r : State} (cmd : Nat) (s : State) (h2 : Alters M r s) (hm : Within 4511434724016163 M) :
    AltersOut M r (execRemoteWrite cmd s) := by
  unfold execRemoteWrite
  try extract_lets
  repeat' first
    | with_reducible assumption
    | ((with_reducible refine Within.of hm ?_); exact rfl)
    | intro _
    | with_reducible apply AltersOut.next
    | with_reducible apply alters_runData
    | with_reducible apply alters_remoteWriteOn
    | simp +zetaDelta only [AltersF.mkIff]
    | assumption

theorem alters_execGrantAnswer {M : Nat} {r : State} (f : Frame) (s : State) (h2 : Alters M r s) (hm : Within 108094913348305727 M) :
    AltersOut M r (execGrantAnswer f s) := by
  unfold execGrantAnswer
  try extract_lets
  repeat' first
    | with_reducible assumption
    | ((with_reducible refine Within.of hm ?_); exact rfl)
    | intro _
    | with_reducible apply AltersOut.next
    | with_reducible apply alters_creditFrame
    | with_reducible apply alters_grantAnswer
    | simp +zetaDelta only [AltersF.mkIff]
    | assumption

theorem alters_creditSend {M : Nat} {r : State} (c : Cmd) (x : Ctx) (s : State) (h3 : Alters M r s) (hm : Within 3299608625155 M) :
    Alters M r (creditSend c x s) := by
  unfold creditSend
  try extract_lets
  repeat' first
    | with_reducible assumption
    | ((with_reducible refine Within.of hm ?_); exact rfl)
    | intro _
    | with_reducible apply alters_modCmd
    | with_reducible apply alters_sendMsg
    | with_reducible apply Alters.ite
    | split
    | simp +zetaDelta only [AltersF.mkIff]
    | assumption

theorem alters_creditOn {M : Nat} {r : State} (c : Cmd) (x : Ctx) (s : State) (h3 : Alters M r s) (hm : Within 3299608690691 M) :
    Alters M r (creditOn c x s) := by
  unfold creditOn
  try extract_lets
  repeat' first
    | with_reducible assumption
    | ((with_reducible refine Within.of hm ?_); exact rfl)
    | intro _
    | with_reducible apply alters_cmdRefuse
    | with_reducible apply alters_destRefuse
    | with_reducible apply alters_modCmd
    | with_reducible apply alters_creditSend
    | with_reducible apply Alters.ite
    | (refine Alters.snd (by assumption) ?_)
    | (refine Alters.fst (by assumption) ?_)
    | (refine Alters.thd (by assumption) ?_)
    | split
    | simp +zetaDelta only [AltersF.mkIff]
    | assumption

theorem alters_execCreditRequest {M : Nat} {r : State} (cmd : Nat) (s : State) (h2 : Alters M r s) (hm : Within 3299608690691 M) :
    AltersOut M r (execCreditRequest cmd s) := by
  unfold execCreditRequest
  try extract_lets
  repeat' first
    | with_reducible assumption
    | ((with_reducible refine Within.of hm ?_); exact rfl)
    | intro _
    | with_reducible apply AltersOut.next
    | with_reducible apply alters_creditOn
    | with_reducible apply alters_cmdRefuse
    | (refine Alters.snd (by assumption) ?_)
    | (refine Alters.fst (by assumption) ?_)
    | (refine Alters.thd (by assumption) ?_)
    | split
    | simp +zetaDelta only [AltersF.mkIff]
    | assumption

theorem alters_remoteReadOn {M : Nat} {r : State} (c : Cmd) (x : Ctx) (s : State) (h3 : Alters M r s) (hm : Within 4507036675211267 M) :
    Alters M r (remoteReadOn c x s) := by
  unfold remoteReadOn
  try extract_lets
  repeat' first
    | with_reducible assumption
    | ((with_reducible refine Within.of hm ?_); exact rfl)
    | intro _
    | with_reducible apply alters_remoteStart
    | with_reducible apply alters_dataDone
    | with_reducible apply Alters.ite
    | (refine Alters.snd (by assumption) ?_)
    | (refine Alters.fst (by assumption) ?_)
    | (refine Alters.thd (by assumption) ?_)
    | split
    | simp +zetaDelta only [AltersF.mkIff]
    | assumption

theorem alters_execRemoteRead {M : Nat} {r : State} (cmd : Nat) (s : State) (h2 : Alters M r s) (hm : Within 4511434721722371 M) :
    AltersOut M r (execRemoteRead cmd s) := by
  unfold execRemoteRead
  try extract_lets
  repeat' first
    | with_reducible assumption
    | ((with_reducible refine Within.of hm ?_); exact rfl)
    | intro _
    | with_reducible apply AltersOut.next
    | with_reducible apply alters_runData
    | with_reducible apply alters_remoteReadOn
    | simp +zetaDelta only [AltersF.mkIff]
    | assumption

theorem alters_execFabricResponseFrame {M : Nat} {r : State} (f : Frame) (s : State) (h2 : Alters M r s) (hm : Within 72065298138073917 M) :
    AltersOut M r (execFabricResponseFrame f s) := by
  unfold execFabricResponseFrame
  try extract_lets
  repeat' first
    | with_reducible assumption
    | ((with_reducible refine Within.of hm ?_); exact rfl)
    | intro _
    | with_reducible apply AltersOut.next
    | with_reducible apply alters_frameIn
    | with_reducible apply alters_takeAnswer
    | with_reducible apply alters_drawFree
    | (refine Alters.snd (by assumption) ?_)
    | (refine Alters.fst (by assumption) ?_)
    | (refine Alters.thd (by assumption) ?_)
    | split
    | simp +zetaDelta only [AltersF.mkIff]
    | assumption

theorem alters_execRenewAnswer {M : Nat} {r : State} (f : Frame) (s : State) (h2 : Alters M r s) (hm : Within 72064192181501952 M) :
    AltersOut M r (execRenewAnswer f s) := by
  unfold execRenewAnswer
  try extract_lets
  repeat' first
    | with_reducible assumption
    | ((with_reducible refine Within.of hm ?_); exact rfl)
    | intro _
    | with_reducible apply AltersOut.next
    | with_reducible apply alters_creditFrame
    | with_reducible apply alters_renewAnswer
    | simp +zetaDelta only [AltersF.mkIff]
    | assumption

theorem alters_execReleaseAnswer {M : Nat} {r : State} (f : Frame) (s : State) (h2 : Alters M r s) (hm : Within 72064192181501952 M) :
    AltersOut M r (execReleaseAnswer f s) := by
  unfold execReleaseAnswer
  try extract_lets
  repeat' first
    | with_reducible assumption
    | ((with_reducible refine Within.of hm ?_); exact rfl)
    | intro _
    | with_reducible apply AltersOut.next
    | with_reducible apply alters_creditFrame
    | with_reducible apply alters_releaseAnswer
    | simp +zetaDelta only [AltersF.mkIff]
    | assumption

end Sys2Proof.Laws
end

