-- ==== Sys2Proof/Laws/AltersPortAccept.lean ====
section
/-! SUPPORT. Laws/AltersPortAccept.lean: which kinds of state the operations of Machine/PortAccept.lean may change (Laws/Alters.lean). -/
namespace Sys2Proof.Laws
open Sys2Proof.Machine
set_option linter.all false

theorem alters_landBytes {M : Nat} {r : State} (handle : Nat) (n : Nat) (len : Nat) (add : Bool) (s : State) (h5 : Alters M r s) (hm : Within 72057594037927936 M) :
    Alters M r (landBytes handle n len add s) := by
  unfold landBytes
  try extract_lets
  repeat' first
    | with_reducible assumption
    | ((with_reducible refine Within.of hm ?_); exact rfl)
    | intro _
    | exact fabAlters_reqs _ _ (Within.of hm rfl)
    | exact fabAlters_rest _ _ (Within.of hm rfl) rfl
    | exact fabAlters_any _ _ (Within.of hm rfl)
    | with_reducible apply Alters.ite
    | with_reducible apply alters_set_fab
    | simp only [AltersF.mkIff]
    | split
    | simp +zetaDelta only [AltersF.mkIff]
    | assumption

theorem alters_gIdle {M : Nat} {r : State} (v0 : Req) (g : GClass) (moved : Nat) (s : State) (h4 : Alters M r s) (hm : Within 137438953472 M) :
    Alters M r (gIdle v0 g moved s) := by
  unfold gIdle
  try extract_lets
  repeat' first
    | with_reducible assumption
    | ((with_reducible refine Within.of hm ?_); exact rfl)
    | intro _
    | with_reducible apply alters_gMoved
    | with_reducible apply Alters.ite
    | split
    | simp +zetaDelta only [AltersF.mkIff]
    | assumption

theorem alters_replyReq {M : Nat} {r : State} (v0 : Req) (st : Status) (count : Nat) (data : List (Byte × Bool)) (s : State) (h5 : Alters M r s) (hm : Within 1101659111426 M) :
    Alters M r (replyReq v0 st count data s) := by
  unfold replyReq
  try extract_lets
  repeat' first
    | with_reducible assumption
    | ((with_reducible refine Within.of hm ?_); exact rfl)
    | intro _
    | with_reducible apply alters_responseFrame
    | with_reducible apply alters_freshId
    | with_reducible apply alters_answer
    | (refine Alters.snd (by assumption) ?_)
    | (refine Alters.fst (by assumption) ?_)
    | (refine Alters.thd (by assumption) ?_)
    | split
    | simp +zetaDelta only [AltersF.mkIff]
    | assumption

theorem alters_refuseReq {M : Nat} {r : State} (v0 : Req) (st : Status) (bit : Nat) (logged : Bool) (s : State) (h5 : Alters M r s) (hm : Within 1101659179010 M) :
    Alters M r (refuseReq v0 st bit logged s) := by
  unfold refuseReq
  try extract_lets
  repeat' first
    | with_reducible assumption
    | ((with_reducible refine Within.of hm ?_); exact rfl)
    | intro _
    | with_reducible apply alters_portErr
    | with_reducible apply alters_report
    | with_reducible apply alters_replyReq
    | with_reducible apply Alters.ite
    | split
    | simp +zetaDelta only [AltersF.mkIff]
    | assumption

theorem alters_refuseG {M : Nat} {r : State} (v0 : Req) (why : GRefusal) (s : State) (h3 : Alters M r s) (hm : Within 1101659310082 M) :
    Alters M r (refuseG v0 why s) := by
  unfold refuseG
  try extract_lets
  repeat' first
    | with_reducible assumption
    | ((with_reducible refine Within.of hm ?_); exact rfl)
    | intro _
    | with_reducible apply alters_gTele
    | with_reducible apply alters_refuseReq
    | (refine Alters.snd (by assumption) ?_)
    | (refine Alters.fst (by assumption) ?_)
    | (refine Alters.thd (by assumption) ?_)
    | split
    | simp +zetaDelta only [AltersF.mkIff]
    | assumption

theorem alters_GClass_take {M : Nat} {r : State} (g : GClass) (n : Nat) (s : State) (h3 : Alters M r s) (hm : Within 137439084544 M) :
    Alters M r (GClass.take g n s) := by
  unfold GClass.take
  try extract_lets
  repeat' first
    | with_reducible assumption
    | ((with_reducible refine Within.of hm ?_); exact rfl)
    | intro _
    | with_reducible apply alters_gTele
    | with_reducible apply alters_gTake
    | with_reducible apply Alters.ite
    | (refine Alters.snd (by assumption) ?_)
    | (refine Alters.fst (by assumption) ?_)
    | (refine Alters.thd (by assumption) ?_)
    | split
    | simp +zetaDelta only [AltersF.mkIff]
    | assumption

theorem alters_acceptFlush {M : Nat} {r : State} (v0 : Req) (es : List WbEntry) (g : GClass) (s : State) (h4 : Alters M r s) (hm : Within 1269165064194 M) :
    Alters M r (acceptFlush v0 es g s) := by
  unfold acceptFlush
  try extract_lets
  repeat' first
    | with_reducible assumption
    | ((with_reducible refine Within.of hm ?_); exact rfl)
    | intro _
    | with_reducible apply alters_freshId
    | with_reducible apply alters_GClass_take
    | with_reducible apply alters_modPort
    | with_reducible apply alters_takeLate
    | with_reducible apply alters_replyReq
    | with_reducible apply alters_issueAll
    | with_reducible apply alters_slotDrain
    | with_reducible apply alters_gMoved
    | with_reducible apply alters_modSlice
    | with_reducible apply Alters.ite
    | with_reducible apply Alters.foldl
    | with_reducible apply Alters.foldlP (p := Prod.snd)
    | with_reducible apply Alters.foldlP (p := Prod.fst)
    | with_reducible apply Alters.foldlT
    | (refine Alters.snd (by assumption) ?_)
    | (refine Alters.fst (by assumption) ?_)
    | (refine Alters.thd (by assumption) ?_)
    | with_reducible apply alters_set_ops
    | with_reducible apply alters_set_ops_wb
    | simp only [AltersF.mkIff]
    | split
    | simp +zetaDelta only [AltersF.mkIff]
    | assumption

theorem alters_acceptWrite {M : Nat} {r : State} (v0 : Req) (addrs : List Nat) (p : Pocket) (g : GClass) (cred : Option Nat) (s : State) (h6 : Alters M r s) (hm : Within 72058863200894978 M) :
    Alters M r (acceptWrite v0 addrs p g cred s) := by
  unfold acceptWrite
  try extract_lets
  repeat' first
    | with_reducible assumption
    | ((with_reducible refine Within.of hm ?_); exact rfl)
    | intro _
    | with_reducible apply alters_freshId
    | with_reducible apply alters_issueAll
    | with_reducible apply alters_gIdle
    | with_reducible apply alters_GClass_take
    | with_reducible apply alters_landBytes
    | with_reducible apply alters_replyReq
    | with_reducible apply alters_acceptBytes
    | with_reducible apply alters_takeLate
    | with_reducible apply Alters.ite
    | (refine Alters.snd (by assumption) ?_)
    | (refine Alters.fst (by assumption) ?_)
    | (refine Alters.thd (by assumption) ?_)
    | with_reducible apply alters_set_ops
    | simp only [AltersF.mkIff]
    | split
    | simp +zetaDelta only [AltersF.mkIff]
    | assumption

theorem alters_acceptRead {M : Nat} {r : State} (v0 : Req) (addrs : List Nat) (keys : List Nat) (p : Pocket) (g : GClass) (s : State) (h6 : Alters M r s) (hm : Within 1269165131778 M) :
    Alters M r (acceptRead v0 addrs keys p g s) := by
  unfold acceptRead
  try extract_lets
  repeat' first
    | with_reducible assumption
    | ((with_reducible refine Within.of hm ?_); exact rfl)
    | intro _
    | with_reducible apply alters_freshId
    | with_reducible apply alters_startRead
    | with_reducible apply alters_GClass_take
    | with_reducible apply alters_gIdle
    | with_reducible apply Alters.ite
    | (refine Alters.snd (by assumption) ?_)
    | (refine Alters.fst (by assumption) ?_)
    | (refine Alters.thd (by assumption) ?_)
    | split
    | simp +zetaDelta only [AltersF.mkIff]
    | assumption

theorem alters_acceptStore {M : Nat} {r : State} (v0 : Req) (x : Ctx) (st : Store) (pk : Nat) (p : Pocket) (s : State) (h6 : Alters M r s) (hm : Within 72063261249570818 M) :
    Alters M r (acceptStore v0 x st pk p s) := by
  unfold acceptStore
  try extract_lets
  repeat' first
    | with_reducible assumption
    | ((with_reducible refine Within.of hm ?_); exact rfl)
    | intro _
    | with_reducible apply alters_refuseG
    | with_reducible apply alters_acceptFlush
    | with_reducible apply alters_touchAll
    | with_reducible apply alters_refuseReq
    | with_reducible apply alters_acceptWrite
    | with_reducible apply alters_acceptRead
    | with_reducible apply Alters.ite
    | (refine Alters.snd (by assumption) ?_)
    | (refine Alters.fst (by assumption) ?_)
    | (refine Alters.thd (by assumption) ?_)
    | split
    | simp +zetaDelta only [AltersF.mkIff]
    | assumption

theorem alters_acceptPocket {M : Nat} {r : State} (v0 : Req) (c : Nat) (st : Store) (pk : Nat) (s : State) (h5 : Alters M r s) (hm : Within 72063261249570818 M) :
    Alters M r (acceptPocket v0 c st pk s) := by
  unfold acceptPocket
  try extract_lets
  repeat' first
    | with_reducible assumption
    | ((with_reducible refine Within.of hm ?_); exact rfl)
    | intro _
    | with_reducible apply alters_refuseReq
    | with_reducible apply alters_replyReq
    | with_reducible apply alters_acceptStore
    | with_reducible apply Alters.ite
    | (refine Alters.snd (by assumption) ?_)
    | (refine Alters.fst (by assumption) ?_)
    | (refine Alters.thd (by assumption) ?_)
    | split
    | simp +zetaDelta only [AltersF.mkIff]
    | assumption

end Sys2Proof.Laws
end

