-- ==== Sys2Proof/Laws/AltersPortRows.lean ====
section
/-! SUPPORT. Laws/AltersPortRows.lean: which kinds of state the operations of Machine/PortRows.lean may change (Laws/Alters.lean). -/
namespace Sys2Proof.Laws
open Sys2Proof.Machine
set_option linter.all false

theorem alters_startDrain {M : Nat} {r : State} (n : Nat) (p : Nat) (s : State) (h3 : Alters M r s) (hm : Within 27917287426 M) :
    Alters M r (startDrain n p s) := by
  unfold startDrain
  try extract_lets
  repeat' first
    | with_reducible assumption
    | ((with_reducible refine Within.of hm ?_); exact rfl)
    | intro _
    | with_reducible apply alters_issueAll
    | with_reducible apply alters_modPort
    | simp +zetaDelta only [AltersF.mkIff]
    | assumption

theorem alters_portCtlWrite {M : Nat} {r : State} (n : Nat) (p : Nat) (v : Nat) (by_ : RegBy) (s : State) (h5 : Alters M r s) (hm : Within 4425963866114 M) :
    Alters M r (portCtlWrite n p v by_ s).2 := by
  unfold portCtlWrite
  try extract_lets
  repeat' first
    | with_reducible assumption
    | ((with_reducible refine Within.of hm ?_); exact rfl)
    | intro _
    | with_reducible apply alters_touch
    | with_reducible apply alters_regPut
    | with_reducible apply alters_dropReg
    | with_reducible apply alters_modPort
    | with_reducible apply alters_startDrain
    | with_reducible apply Alters.iteS
    | with_reducible apply Alters.ite
    | (refine Alters.snd (by assumption) ?_)
    | (refine Alters.fst (by assumption) ?_)
    | (refine Alters.thd (by assumption) ?_)
    | split
    | simp +zetaDelta only [AltersF.mkIff]
    | assumption

theorem alters_portCtxWrite {M : Nat} {r : State} (n : Nat) (p : Nat) (v : Nat) (by_ : RegBy) (s : State) (h5 : Alters M r s) (hm : Within 1244466841602 M) :
    Alters M r (portCtxWrite n p v by_ s).2 := by
  unfold portCtxWrite
  try extract_lets
  repeat' first
    | with_reducible assumption
    | ((with_reducible refine Within.of hm ?_); exact rfl)
    | intro _
    | with_reducible apply alters_dropReg
    | with_reducible apply alters_unbindPort
    | with_reducible apply alters_regPut
    | with_reducible apply Alters.iteS
    | with_reducible apply Alters.ite
    | (refine Alters.snd (by assumption) ?_)
    | (refine Alters.fst (by assumption) ?_)
    | (refine Alters.thd (by assumption) ?_)
    | split
    | simp +zetaDelta only [AltersF.mkIff]
    | assumption

theorem alters_execPoisonTagWrite {M : Nat} {r : State} (key : Nat) (s : State) (h2 : Alters M r s) (hm : Within 131120 M) :
    AltersOut M r (execPoisonTagWrite key s) := by
  unfold execPoisonTagWrite
  split
  · refine AltersOut.next ?_
    exact alters_set_mem (s := integAdd 10 1 s) (alters_integAdd _ _ _ h2 (hm.of rfl))
      (memAlters_set_tag_owed (MemAlters.refl M s.mem) (hm.of rfl))
  · exact AltersOut.next h2

theorem alters_execBurstTimeout {M : Nat} {r : State} (v0 : PortReq) (s : State) (h2 : Alters M r s) (hm : Within 1101659187202 M) :
    AltersOut M r (execBurstTimeout v0 s) := by
  unfold execBurstTimeout
  try extract_lets
  repeat' first
    | with_reducible assumption
    | ((with_reducible refine Within.of hm ?_); exact rfl)
    | intro _
    | with_reducible apply AltersOut.next
    | with_reducible apply alters_refuseReq
    | with_reducible apply AltersOut.ite
    | with_reducible apply Alters.ite
    | (refine Alters.snd (by assumption) ?_)
    | (refine Alters.fst (by assumption) ?_)
    | (refine Alters.thd (by assumption) ?_)
    | with_reducible apply alters_set_bcnt
    | simp only [AltersF.mkIff]
    | split
    | simp +zetaDelta only [AltersF.mkIff]
    | assumption

theorem alters_execPriorityRaise {M : Nat} {r : State} (op : Nat) (s : State) (h2 : Alters M r s) (hm : Within 17179869184 M) :
    AltersOut M r (execPriorityRaise op s) := by
  unfold execPriorityRaise
  try extract_lets
  repeat' first
    | with_reducible assumption
    | ((with_reducible refine Within.of hm ?_); exact rfl)
    | intro _
    | with_reducible apply AltersOut.next
    | with_reducible apply alters_set_beats
    | simp only [AltersF.mkIff]
    | simp +zetaDelta only [AltersF.mkIff]
    | assumption

theorem alters_execWbAgeExpiry {M : Nat} {r : State} (entry : Nat) (s : State) (h2 : Alters M r s) (hm : Within 25769811970 M) :
    AltersOut M r (execWbAgeExpiry entry s) := by
  unfold execWbAgeExpiry
  try extract_lets
  repeat' first
    | with_reducible assumption
    | ((with_reducible refine Within.of hm ?_); exact rfl)
    | intro _
    | with_reducible apply AltersOut.next
    | with_reducible apply alters_issueAll
    | with_reducible apply AltersOut.ite
    | with_reducible apply Alters.ite
    | (refine Alters.snd (by assumption) ?_)
    | (refine Alters.fst (by assumption) ?_)
    | (refine Alters.thd (by assumption) ?_)
    | with_reducible apply alters_set_bcnt
    | simp only [AltersF.mkIff]
    | split
    | simp +zetaDelta only [AltersF.mkIff]
    | assumption

theorem alters_execReuseExpiry {M : Nat} {r : State} (n : Nat) (p : Nat) (c : Nat) (base : Nat) (s : State) (h5 : Alters M r s) (hm : Within 2147491840 M) :
    AltersOut M r (execReuseExpiry n p c base s) := by
  unfold execReuseExpiry
  try extract_lets
  repeat' first
    | with_reducible assumption
    | ((with_reducible refine Within.of hm ?_); exact rfl)
    | intro _
    | with_reducible apply AltersOut.next
    | with_reducible apply alters_modPort
    | (refine Alters.snd (by assumption) ?_)
    | (refine Alters.fst (by assumption) ?_)
    | (refine Alters.thd (by assumption) ?_)
    | with_reducible apply alters_set_bcnt
    | simp only [AltersF.mkIff]
    | split
    | simp +zetaDelta only [AltersF.mkIff]
    | assumption

theorem alters_countBubble {M : Nat} {r : State} (s : State) (h1 : Alters M r s) (hm : Within 17592186044416 M) :
    Alters M r (countBubble s) := by
  unfold countBubble
  try extract_lets
  repeat' first
    | with_reducible assumption
    | ((with_reducible refine Within.of hm ?_); exact rfl)
    | intro _
    | with_reducible apply Alters.ite
    | with_reducible apply Alters.foldl
    | with_reducible apply Alters.foldlP (p := Prod.snd)
    | with_reducible apply Alters.foldlP (p := Prod.fst)
    | with_reducible apply Alters.foldlT
    | with_reducible apply alters_set_power
    | simp only [AltersF.mkIff]
    | split
    | simp +zetaDelta only [AltersF.mkIff]
    | assumption

theorem alters_execWbEntryCommit {M : Nat} {r : State} (entry : Nat) (s : State) (h2 : Alters M r s) (hm : Within 72058709657978880 M) :
    AltersOut M r (execWbEntryCommit entry s) := by
  unfold execWbEntryCommit
  try extract_lets
  repeat' first
    | with_reducible assumption
    | ((with_reducible refine Within.of hm ?_); exact rfl)
    | intro _
    | with_reducible apply AltersOut.next
    | with_reducible apply alters_commitEntry
    | with_reducible apply alters_sweepGrants
    | with_reducible apply alters_landBytes
    | with_reducible apply AltersOut.ite
    | with_reducible apply Alters.ite
    | (refine Alters.snd (by assumption) ?_)
    | (refine Alters.fst (by assumption) ?_)
    | (refine Alters.thd (by assumption) ?_)
    | split
    | simp +zetaDelta only [AltersF.mkIff]
    | assumption

theorem alters_execPortDrainDone {M : Nat} {r : State} (n : Nat) (p : Nat) (s : State) (h3 : Alters M r s) (hm : Within 2147483648 M) :
    AltersOut M r (execPortDrainDone n p s) := by
  unfold execPortDrainDone
  try extract_lets
  repeat' first
    | with_reducible assumption
    | ((with_reducible refine Within.of hm ?_); exact rfl)
    | intro _
    | with_reducible apply AltersOut.next
    | with_reducible apply alters_modPort
    | with_reducible apply AltersOut.ite
    | with_reducible apply Alters.ite
    | split
    | simp +zetaDelta only [AltersF.mkIff]
    | assumption

theorem alters_execPortClearDone {M : Nat} {r : State} (n : Nat) (p : Nat) (s : State) (h3 : Alters M r s) (hm : Within 1107027822592 M) :
    AltersOut M r (execPortClearDone n p s) := by
  unfold execPortClearDone
  try extract_lets
  repeat' first
    | with_reducible assumption
    | ((with_reducible refine Within.of hm ?_); exact rfl)
    | intro _
    | with_reducible apply AltersOut.next
    | with_reducible apply alters_modPort
    | with_reducible apply alters_regPut
    | with_reducible apply alters_finishAll
    | with_reducible apply AltersOut.ite
    | with_reducible apply Alters.ite
    | split
    | simp +zetaDelta only [AltersF.mkIff]
    | assumption

theorem alters_outerNext {M : Nat} {r : State} (cfg : Nat) (oq : Nat) (p : Nat) (s : State) (h4 : Alters M r s) (hm : Within 27021597764222976 M) :
    Alters M r (outerNext cfg oq p s) := by
  unfold outerNext
  try extract_lets
  repeat' first
    | with_reducible assumption
    | ((with_reducible refine Within.of hm ?_); exact rfl)
    | intro _
    | with_reducible apply Alters.ite
    | with_reducible apply alters_set_outerCut_outerUsed
    | simp only [AltersF.mkIff]
    | split
    | simp +zetaDelta only [AltersF.mkIff]
    | assumption

theorem alters_execRegulatorInterval {M : Nat} {r : State} (n : Nat) (oqLevel : Nat) (s : State) (h3 : Alters M r s) (hm : Within 27021597766451200 M) :
    AltersOut M r (execRegulatorInterval n oqLevel s) := by
  unfold execRegulatorInterval
  try extract_lets
  repeat' first
    | with_reducible assumption
    | ((with_reducible refine Within.of hm ?_); exact rfl)
    | intro _
    | with_reducible apply AltersOut.next
    | with_reducible apply alters_modSlice
    | with_reducible apply alters_outerNext
    | with_reducible apply alters_gTele
    | with_reducible apply AltersOut.ite
    | with_reducible apply Alters.ite
    | with_reducible apply Alters.foldl
    | with_reducible apply Alters.foldlP (p := Prod.snd)
    | with_reducible apply Alters.foldlP (p := Prod.fst)
    | with_reducible apply Alters.foldlT
    | split
    | simp +zetaDelta only [AltersF.mkIff]
    | assumption

end Sys2Proof.Laws
end

