-- ==== Sys2Proof/Laws/AltersFaults.lean ====
section
/-! SUPPORT. Laws/AltersFaults.lean: which kinds of state the operations of Machine/Faults.lean may change (Laws/Alters.lean). -/
namespace Sys2Proof.Laws
open Sys2Proof.Machine
set_option linter.all false

theorem alters_drainPocket {M : Nat} {r : State} (c : Nat) (st : Store) (pk : Nat) (s : State) (h4 : Alters M r s) (hm : Within 4504587472404542 M) :
    Alters M r (drainPocket c st pk s) := by
  unfold drainPocket
  try extract_lets
  repeat' first
    | with_reducible assumption
    | ((with_reducible refine Within.of hm ?_); exact rfl)
    | intro _
    | with_reducible apply alters_issueAll
    | with_reducible apply alters_drainStage
    | with_reducible apply Alters.foldl
    | with_reducible apply Alters.foldlP (p := Prod.snd)
    | with_reducible apply Alters.foldlP (p := Prod.fst)
    | with_reducible apply Alters.foldlT
    | (refine Alters.snd (by assumption) ?_)
    | (refine Alters.fst (by assumption) ?_)
    | (refine Alters.thd (by assumption) ?_)
    | split
    | simp +zetaDelta only [AltersF.mkIff]
    | assumption

theorem alters_startClear {M : Nat} {r : State} (part : Nat) (todo : List (Nat × Nat × Nat)) (s : State) (h3 : Alters M r s) (hm : Within 68719476738 M) :
    Alters M r (startClear part todo s).2 := by
  unfold startClear
  try extract_lets
  repeat' first
    | with_reducible assumption
    | ((with_reducible refine Within.of hm ?_); exact rfl)
    | intro _
    | with_reducible apply alters_freshId
    | (refine Alters.snd (by assumption) ?_)
    | (refine Alters.fst (by assumption) ?_)
    | (refine Alters.thd (by assumption) ?_)
    | with_reducible apply alters_set_clears
    | simp only [AltersF.mkIff]
    | split
    | simp +zetaDelta only [AltersF.mkIff]
    | assumption

theorem alters_refreshReady {M : Nat} {r : State} (s : State) (c : Nat) (h1 : Alters M r s) (hm : Within 1126999418470400 M) :
    Alters M r (refreshReady s c) := by
  unfold refreshReady
  try extract_lets
  repeat' first
    | with_reducible assumption
    | ((with_reducible refine Within.of hm ?_); exact rfl)
    | intro _
    | with_reducible apply alters_emit
    | with_reducible apply Alters.ite
    | (refine Alters.snd (by assumption) ?_)
    | (refine Alters.fst (by assumption) ?_)
    | (refine Alters.thd (by assumption) ?_)
    | with_reducible apply alters_set_ready
    | simp only [AltersF.mkIff]
    | split
    | simp +zetaDelta only [AltersF.mkIff]
    | assumption

theorem alters_refreshAll {M : Nat} {r : State} (s : State) (h1 : Alters M r s) (hm : Within 1126999418470400 M) :
    Alters M r (refreshAll s) := by
  unfold refreshAll
  try extract_lets
  repeat' first
    | with_reducible assumption
    | ((with_reducible refine Within.of hm ?_); exact rfl)
    | intro _
    | with_reducible apply alters_refreshReady
    | with_reducible apply Alters.foldl
    | with_reducible apply Alters.foldlP (p := Prod.snd)
    | with_reducible apply Alters.foldlP (p := Prod.fst)
    | with_reducible apply Alters.foldlT
    | simp +zetaDelta only [AltersF.mkIff]
    | assumption

theorem alters_drainCtxPorts {M : Nat} {r : State} (c : Nat) (sp : Span) (s : State) (h3 : Alters M r s) (hm : Within 27917287426 M) :
    Alters M r (drainCtxPorts c sp s) := by
  unfold drainCtxPorts
  try extract_lets
  repeat' first
    | with_reducible assumption
    | ((with_reducible refine Within.of hm ?_); exact rfl)
    | intro _
    | with_reducible apply alters_startDrain
    | with_reducible apply Alters.ite
    | with_reducible apply Alters.foldl
    | with_reducible apply Alters.foldlP (p := Prod.snd)
    | with_reducible apply Alters.foldlP (p := Prod.fst)
    | with_reducible apply Alters.foldlT
    | (refine Alters.snd (by assumption) ?_)
    | (refine Alters.fst (by assumption) ?_)
    | (refine Alters.thd (by assumption) ?_)
    | split
    | simp +zetaDelta only [AltersF.mkIff]
    | assumption

theorem alters_faultCmd {M : Nat} {r : State} (st : Status) (wst : Status) (s : State) (d : Cmd) (h3 : Alters M r s) (hm : Within 4507045264883712 M) :
    Alters M r (faultCmd st wst s d) := by
  unfold faultCmd
  try extract_lets
  repeat' first
    | with_reducible assumption
    | ((with_reducible refine Within.of hm ?_); exact rfl)
    | intro _
    | with_reducible apply alters_gMoved
    | with_reducible apply alters_forgetReq
    | with_reducible apply alters_sendWithdraw
    | with_reducible apply alters_cmdDone
    | with_reducible apply alters_dropWorks
    | with_reducible apply Alters.ite
    | with_reducible apply Alters.foldl
    | with_reducible apply Alters.foldlP (p := Prod.snd)
    | with_reducible apply Alters.foldlP (p := Prod.fst)
    | with_reducible apply Alters.foldlT
    | with_reducible apply alters_set_wb
    | simp only [AltersF.mkIff]
    | split
    | simp +zetaDelta only [AltersF.mkIff]
    | assumption

theorem alters_stopCtxQueues {M : Nat} {r : State} (c : Nat) (s : State) (h2 : Alters M r s) (hm : Within 4194368 M) :
    Alters M r (stopCtxQueues c s) := by
  unfold stopCtxQueues
  try extract_lets
  repeat' first
    | with_reducible assumption
    | ((with_reducible refine Within.of hm ?_); exact rfl)
    | intro _
    | with_reducible apply alters_stopQueue
    | with_reducible apply Alters.ite
    | with_reducible apply Alters.foldl
    | with_reducible apply Alters.foldlP (p := Prod.snd)
    | with_reducible apply Alters.foldlP (p := Prod.fst)
    | with_reducible apply Alters.foldlT
    | (refine Alters.snd (by assumption) ?_)
    | (refine Alters.fst (by assumption) ?_)
    | (refine Alters.thd (by assumption) ?_)
    | split
    | simp +zetaDelta only [AltersF.mkIff]
    | assumption

theorem alters_tdispError {M : Nat} {r : State} (c : Nat) (s : State) (h2 : Alters M r s) (hm : Within 1099511627776 M) :
    Alters M r (tdispError c s) := by
  unfold tdispError
  try extract_lets
  repeat' first
    | with_reducible assumption
    | ((with_reducible refine Within.of hm ?_); exact rfl)
    | intro _
    | with_reducible apply alters_emit
    | with_reducible apply Alters.ite
    | (refine Alters.snd (by assumption) ?_)
    | (refine Alters.fst (by assumption) ?_)
    | (refine Alters.thd (by assumption) ?_)
    | split
    | simp +zetaDelta only [AltersF.mkIff]
    | assumption

theorem alters_faultCtx {M : Nat} {r : State} (st : Status) (wst : Status) (c : Nat) (s : State) (h4 : Alters M r s) (hm : Within 113720180196966526 M) :
    Alters M r (faultCtx st wst c s) := by
  unfold faultCtx
  try extract_lets
  repeat' first
    | with_reducible assumption
    | ((with_reducible refine Within.of hm ?_); exact rfl)
    | intro _
    | with_reducible apply alters_setCtx
    | with_reducible apply alters_faultChan
    | with_reducible apply alters_endWaiters
    | with_reducible apply alters_faultCmd
    | with_reducible apply alters_drainCtxPorts
    | with_reducible apply alters_stopCtxQueues
    | with_reducible apply alters_endGrants
    | with_reducible apply alters_tdispError
    | with_reducible apply alters_refreshReady
    | with_reducible apply Alters.ite
    | with_reducible apply Alters.foldl
    | with_reducible apply Alters.foldlP (p := Prod.snd)
    | with_reducible apply Alters.foldlP (p := Prod.fst)
    | with_reducible apply Alters.foldlT
    | (refine Alters.snd (by assumption) ?_)
    | (refine Alters.fst (by assumption) ?_)
    | (refine Alters.thd (by assumption) ?_)
    | with_reducible apply alters_set_cmds
    | simp only [AltersF.mkIff]
    | split
    | simp +zetaDelta only [AltersF.mkIff]
    | assumption

end Sys2Proof.Laws
end

