-- ==== Sys2Proof/Laws/AltersCtxCmds.lean ====
section
/-! SUPPORT. Laws/AltersCtxCmds.lean: which kinds of state the operations of Machine/CtxCmds.lean may change (Laws/Alters.lean). -/
namespace Sys2Proof.Laws
open Sys2Proof.Machine
set_option linter.all false

theorem alters_dropReuse {M : Nat} {r : State} (c : Nat) (st : Store) (pk : Nat) (s : State) (h4 : Alters M r s) (hm : Within 2147483648 M) :
    Alters M r (dropReuse c st pk s) := by
  unfold dropReuse
  try extract_lets
  repeat' first
    | with_reducible assumption
    | ((with_reducible refine Within.of hm ?_); exact rfl)
    | intro _
    | (refine Alters.snd (by assumption) ?_)
    | (refine Alters.fst (by assumption) ?_)
    | (refine Alters.thd (by assumption) ?_)
    | with_reducible apply alters_set_ports
    | simp only [AltersF.mkIff]
    | split
    | simp +zetaDelta only [AltersF.mkIff]
    | assumption

theorem alters_destroyBegin {M : Nat} {r : State} (c : Cmd) (x : Ctx) (s : State) (h3 : Alters M r s) (hm : Within 113720180196966526 M) :
    Alters M r (destroyBegin c x s) := by
  unfold destroyBegin
  try extract_lets
  repeat' first
    | with_reducible assumption
    | ((with_reducible refine Within.of hm ?_); exact rfl)
    | intro _
    | with_reducible apply alters_modCtx
    | with_reducible apply alters_drainCtxPorts
    | with_reducible apply alters_faultCtx
    | with_reducible apply alters_beginStop
    | with_reducible apply alters_issueAll
    | with_reducible apply alters_modCmd
    | with_reducible apply Alters.foldl
    | with_reducible apply Alters.foldlP (p := Prod.snd)
    | with_reducible apply Alters.foldlP (p := Prod.fst)
    | with_reducible apply Alters.foldlT
    | simp +zetaDelta only [AltersF.mkIff]
    | assumption

theorem alters_destroySync {M : Nat} {r : State} (c : Nat) (x : Ctx) (s : State) (h3 : Alters M r s) (hm : Within 36030722238906368 M) :
    Alters M r (destroySync c x s).2 := by
  unfold destroySync
  try extract_lets
  repeat' first
    | with_reducible assumption
    | ((with_reducible refine Within.of hm ?_); exact rfl)
    | intro _
    | with_reducible apply alters_forceRelease
    | with_reducible apply alters_unmapObject
    | with_reducible apply Alters.foldl
    | with_reducible apply Alters.foldlP (p := Prod.snd)
    | with_reducible apply Alters.foldlP (p := Prod.fst)
    | with_reducible apply Alters.foldlT
    | (refine Alters.snd (by assumption) ?_)
    | (refine Alters.fst (by assumption) ?_)
    | (refine Alters.thd (by assumption) ?_)
    | split
    | simp +zetaDelta only [AltersF.mkIff]
    | assumption

theorem alters_placePocket {M : Nat} {r : State} (c : Nat) (x : Ctx) (st : Store) (pk : Nat) (p : Pocket) (s : State) (h6 : Alters M r s) (hm : Within 72058695697825792 M) :
    Alters M r (placePocket c x st pk p s) := by
  unfold placePocket
  try extract_lets
  repeat' first
    | with_reducible assumption
    | ((with_reducible refine Within.of hm ?_); exact rfl)
    | intro _
    | with_reducible apply alters_endGrants
    | with_reducible apply alters_dropReuse
    | with_reducible apply alters_modCtx
    | simp +zetaDelta only [AltersF.mkIff]
    | assumption

theorem alters_finishPocket {M : Nat} {r : State} (c : Cmd) (s : State) (h2 : Alters M r s) (hm : Within 72058696771567616 M) :
    Alters M r (finishPocket c s) := by
  unfold finishPocket
  try extract_lets
  repeat' first
    | with_reducible assumption
    | ((with_reducible refine Within.of hm ?_); exact rfl)
    | intro _
    | with_reducible apply alters_cmdDone
    | with_reducible apply alters_placePocket
    | (refine Alters.snd (by assumption) ?_)
    | (refine Alters.fst (by assumption) ?_)
    | (refine Alters.thd (by assumption) ?_)
    | split
    | simp +zetaDelta only [AltersF.mkIff]
    | assumption

theorem alters_refreshTaint {M : Nat} {r : State} (p : Nat) (s : State) (h2 : Alters M r s) (hm : Within 1048576 M) :
    Alters M r (refreshTaint p s) := by
  unfold refreshTaint
  try extract_lets
  repeat' first
    | with_reducible assumption
    | ((with_reducible refine Within.of hm ?_); exact rfl)
    | intro _
    | with_reducible apply alters_setPart
    | with_reducible apply Alters.ite
    | split
    | simp +zetaDelta only [AltersF.mkIff]
    | assumption

theorem alters_finishDestroy {M : Nat} {r : State} (c : Cmd) (s : State) (h2 : Alters M r s) (hm : Within 1127000494047232 M) :
    Alters M r (finishDestroy c s) := by
  unfold finishDestroy
  try extract_lets
  repeat' first
    | with_reducible assumption
    | ((with_reducible refine Within.of hm ?_); exact rfl)
    | intro _
    | with_reducible apply alters_tdispError
    | with_reducible apply alters_refreshReady
    | with_reducible apply alters_setCtx
    | with_reducible apply alters_setPart
    | with_reducible apply alters_cmdDone
    | with_reducible apply alters_refreshTaint
    | with_reducible apply Alters.ite
    | with_reducible apply Alters.foldl
    | with_reducible apply Alters.foldlP (p := Prod.snd)
    | with_reducible apply Alters.foldlP (p := Prod.fst)
    | with_reducible apply Alters.foldlT
    | (refine Alters.snd (by assumption) ?_)
    | (refine Alters.fst (by assumption) ?_)
    | (refine Alters.thd (by assumption) ?_)
    | split
    | simp +zetaDelta only [AltersF.mkIff]
    | assumption

theorem alters_destroyQueues {M : Nat} {r : State} (c : Nat) (s : State) (h2 : Alters M r s) (hm : Within 239075392 M) :
    Alters M r (destroyQueues c s) := by
  unfold destroyQueues
  try extract_lets
  repeat' first
    | with_reducible assumption
    | ((with_reducible refine Within.of hm ?_); exact rfl)
    | intro _
    | with_reducible apply alters_setDb
    | with_reducible apply alters_setEnabled
    | with_reducible apply alters_dropQueue
    | with_reducible apply alters_startBack
    | with_reducible apply alters_modQueue
    | with_reducible apply Alters.ite
    | with_reducible apply Alters.foldl
    | with_reducible apply Alters.foldlP (p := Prod.snd)
    | with_reducible apply Alters.foldlP (p := Prod.fst)
    | with_reducible apply Alters.foldlT
    | (refine Alters.snd (by assumption) ?_)
    | (refine Alters.fst (by assumption) ?_)
    | (refine Alters.thd (by assumption) ?_)
    | split
    | simp +zetaDelta only [AltersF.mkIff]
    | assumption

theorem alters_signalRemote {M : Nat} {r : State} (c : Cmd) (tenant : Nat) (part : Nat) (s : State) (h4 : Alters M r s) (hm : Within 3299608625155 M) :
    Alters M r (signalRemote c tenant part s) := by
  unfold signalRemote
  try extract_lets
  repeat' first
    | with_reducible assumption
    | ((with_reducible refine Within.of hm ?_); exact rfl)
    | intro _
    | with_reducible apply alters_cmdRefuse
    | with_reducible apply alters_modCmd
    | with_reducible apply alters_sendMsg
    | with_reducible apply Alters.ite
    | split
    | simp +zetaDelta only [AltersF.mkIff]
    | assumption

theorem alters_signalLocal {M : Nat} {r : State} (c : Cmd) (ph : Nat) (s : State) (h3 : Alters M r s) (hm : Within 36030722238119936 M) :
    Alters M r (signalLocal c ph s) := by
  unfold signalLocal
  try extract_lets
  repeat' first
    | with_reducible assumption
    | ((with_reducible refine Within.of hm ?_); exact rfl)
    | intro _
    | with_reducible apply alters_cmdRefuse
    | with_reducible apply alters_signalCounter
    | with_reducible apply alters_cmdDone
    | with_reducible apply Alters.ite
    | (refine Alters.snd (by assumption) ?_)
    | (refine Alters.fst (by assumption) ?_)
    | (refine Alters.thd (by assumption) ?_)
    | split
    | simp +zetaDelta only [AltersF.mkIff]
    | assumption

theorem alters_execSignal {M : Nat} {r : State} (cmd : Nat) (s : State) (h2 : Alters M r s) (hm : Within 36037319307886595 M) :
    AltersOut M r (execSignal cmd s) := by
  unfold execSignal
  try extract_lets
  repeat' first
    | with_reducible assumption
    | ((with_reducible refine Within.of hm ?_); exact rfl)
    | intro _
    | with_reducible apply AltersOut.next
    | with_reducible apply alters_signalRemote
    | with_reducible apply alters_whenAwake
    | with_reducible apply alters_signalLocal
    | with_reducible apply alters_cmdRefuse
    | with_reducible apply AltersOut.ite
    | with_reducible apply Alters.ite
    | (refine Alters.snd (by assumption) ?_)
    | (refine Alters.fst (by assumption) ?_)
    | (refine Alters.thd (by assumption) ?_)
    | split
    | simp +zetaDelta only [AltersF.mkIff]
    | assumption

theorem alters_pocketSetOn {M : Nat} {r : State} (c : Cmd) (x : Ctx) (st : Store) (s : State) (h4 : Alters M r s) (hm : Within 76563352963186750 M) :
    Alters M r (pocketSetOn c x st s) := by
  unfold pocketSetOn
  try extract_lets
  repeat' first
    | with_reducible assumption
    | ((with_reducible refine Within.of hm ?_); exact rfl)
    | intro _
    | with_reducible apply alters_cmdRefuse
    | with_reducible apply alters_drainPocket
    | with_reducible apply alters_modCmd
    | with_reducible apply alters_cmdDone
    | with_reducible apply alters_placePocket
    | with_reducible apply alters_startClear
    | with_reducible apply alters_modCtx
    | with_reducible apply Alters.ite
    | (refine Alters.snd (by assumption) ?_)
    | (refine Alters.fst (by assumption) ?_)
    | (refine Alters.thd (by assumption) ?_)
    | split
    | simp +zetaDelta only [AltersF.mkIff]
    | assumption

theorem alters_destroyUnits {M : Nat} {r : State} (x : Ctx) (s : State) (h2 : Alters M r s) (hm : Within 2097152 M) :
    Alters M r (destroyUnits x s) := by
  unfold destroyUnits
  try extract_lets
  repeat' first
    | with_reducible assumption
    | ((with_reducible refine Within.of hm ?_); exact rfl)
    | intro _
    | with_reducible apply alters_zeroUnits
    | with_reducible apply Alters.foldl
    | with_reducible apply Alters.foldlP (p := Prod.snd)
    | with_reducible apply Alters.foldlP (p := Prod.fst)
    | with_reducible apply Alters.foldlT
    | simp +zetaDelta only [AltersF.mkIff]
    | assumption

theorem alters_destroyClear {M : Nat} {r : State} (c : Cmd) (x : Ctx) (s : State) (h3 : Alters M r s) (hm : Within 36030791199555650 M) :
    Alters M r (destroyClear c x s) := by
  unfold destroyClear
  try extract_lets
  repeat' first
    | with_reducible assumption
    | ((with_reducible refine Within.of hm ?_); exact rfl)
    | intro _
    | with_reducible apply alters_destroySync
    | with_reducible apply alters_destroyUnits
    | with_reducible apply alters_destroyQueues
    | with_reducible apply alters_startClear
    | with_reducible apply alters_modCmd
    | with_reducible apply alters_modCtx
    | with_reducible apply Alters.ite
    | (refine Alters.snd (by assumption) ?_)
    | (refine Alters.fst (by assumption) ?_)
    | (refine Alters.thd (by assumption) ?_)
    | split
    | simp +zetaDelta only [AltersF.mkIff]
    | assumption

theorem alters_createOn {M : Nat} {r : State} (c : Cmd) (s : State) (h2 : Alters M r s) (hm : Within 1162184866136064 M) :
    Alters M r (createOn c s) := by
  unfold createOn
  try extract_lets
  repeat' first
    | with_reducible assumption
    | ((with_reducible refine Within.of hm ?_); exact rfl)
    | intro _
    | with_reducible apply alters_cmdRefuse
    | with_reducible apply alters_setCtx
    | with_reducible apply alters_feedTenant
    | with_reducible apply alters_setPart
    | with_reducible apply alters_cmdDone
    | with_reducible apply alters_refreshReady
    | with_reducible apply Alters.ite
    | split
    | simp +zetaDelta only [AltersF.mkIff]
    | assumption

theorem alters_execPocketSet {M : Nat} {r : State} (cmd : Nat) (s : State) (h2 : Alters M r s) (hm : Within 76567751009697854 M) :
    AltersOut M r (execPocketSet cmd s) := by
  unfold execPocketSet
  try extract_lets
  repeat' first
    | with_reducible assumption
    | ((with_reducible refine Within.of hm ?_); exact rfl)
    | intro _
    | with_reducible apply AltersOut.next
    | with_reducible apply alters_cmdRefuse
    | with_reducible apply alters_whenAwake
    | with_reducible apply alters_pocketSetOn
    | with_reducible apply AltersOut.ite
    | with_reducible apply Alters.ite
    | (refine Alters.snd (by assumption) ?_)
    | (refine Alters.fst (by assumption) ?_)
    | (refine Alters.thd (by assumption) ?_)
    | split
    | simp +zetaDelta only [AltersF.mkIff]
    | assumption

theorem alters_execCtxCreate {M : Nat} {r : State} (cmd : Nat) (s : State) (h2 : Alters M r s) (hm : Within 1162184866136064 M) :
    AltersOut M r (execCtxCreate cmd s) := by
  unfold execCtxCreate
  try extract_lets
  repeat' first
    | with_reducible assumption
    | ((with_reducible refine Within.of hm ?_); exact rfl)
    | intro _
    | with_reducible apply AltersOut.next
    | with_reducible apply alters_cmdRefuse
    | with_reducible apply alters_modCmd
    | with_reducible apply alters_createOn
    | with_reducible apply AltersOut.ite
    | with_reducible apply Alters.ite
    | (refine Alters.snd (by assumption) ?_)
    | (refine Alters.fst (by assumption) ?_)
    | (refine Alters.thd (by assumption) ?_)
    | split
    | simp +zetaDelta only [AltersF.mkIff]
    | assumption

theorem alters_destroyReturn {M : Nat} {r : State} (c : Cmd) (x : Ctx) (s : State) (h3 : Alters M r s) (hm : Within 72061037527959555 M) :
    Alters M r (destroyReturn c x s) := by
  have k1 := Alters.foldl (portsOfCtx s (ctxSpan s x) c.ctx)
    (f := fun t x => regPut 0 (portReg x.1 x.2 8) (regGet t 0 (portReg x.1 x.2 8) % 2048) t) h3 fun t x k => alters_regPut _ _ _ _ k (hm.of rfl)
  have k2 := Alters.foldl ((spanChans (ctxSpan s x)).filter fun k => chanServes s k.1 k.2.1 k.2.2 c.ctx)
    (f := fun t x => regPut 0 (chanReg x.1 x.2.1 x.2.2 0) (chanCtl t x.1 x.2.1 x.2.2 - 2048) t) k1 fun t x k => alters_regPut _ _ _ _ k (hm.of rfl)
  exact alters_modCmd _ _ _ (alters_returnCredits _ _ _ _ _ (alters_endDeferred _ _ _ (alters_endGrants _ _ _
    (Alters.foldl _ k2 fun t k h => alters_startUnbind _ _ _ _ h (hm.of rfl)) (hm.of rfl)) (hm.of rfl)) (hm.of rfl)) (hm.of rfl)

theorem alters_execCtxDestroy {M : Nat} {r : State} (cmd : Nat) (s : State) (h2 : Alters M r s) (hm : Within 113724651492804735 M) :
    AltersOut M r (execCtxDestroy cmd s) := by
  unfold execCtxDestroy
  split
  · next c e =>
    split
    · split
      · split
        · exact AltersOut.next (alters_modCmd _ _ _ h2 (hm.of rfl))
        · exact AltersOut.next (alters_whenAwake _ _ _ _ _ h2 (fun t k => alters_destroyBegin _ _ _ k (hm.of rfl)) (hm.of rfl))
      · split
        · split
          · exact AltersOut.next (alters_destroyReturn _ _ _ h2 (hm.of rfl))
          · exact AltersOut.next h2
        · split
          · split
            · exact AltersOut.next h2
            · exact AltersOut.next (alters_whenAwake _ _ _ _ _ h2 (fun t k => alters_destroyClear _ _ _ k (hm.of rfl)) (hm.of rfl))
          · exact AltersOut.next h2
    · split
      · exact AltersOut.next (alters_cmdRefuse _ _ _ _ h2 (hm.of rfl))
      · exact AltersOut.next h2
  · exact AltersOut.next h2

theorem alters_endDeferredReq {M : Nat} {r : State} (v0 : FabReq) (s : State) (h2 : Alters M r s) (hm : Within 3306051078144 M) :
    Alters M r (endDeferredReq v0 s) := by
  unfold endDeferredReq
  try extract_lets
  repeat' first
    | with_reducible assumption
    | ((with_reducible refine Within.of hm ?_); exact rfl)
    | intro _
    | with_reducible apply alters_forgetReq
    | with_reducible apply alters_sendWithdraw
    | with_reducible apply alters_finish
    | simp +zetaDelta only [AltersF.mkIff]
    | assumption

theorem alters_execWaitTimeout {M : Nat} {r : State} (waiter : Nat) (s : State) (h2 : Alters M r s) (hm : Within 4130684831744 M) :
    AltersOut M r (execWaitTimeout waiter s) := by
  unfold execWaitTimeout
  try extract_lets
  repeat' first
    | with_reducible assumption
    | ((with_reducible refine Within.of hm ?_); exact rfl)
    | intro _
    | with_reducible apply AltersOut.next
    | with_reducible apply alters_endWaiters
    | with_reducible apply alters_timeTo
    | with_reducible apply alters_endDeferredReq
    | with_reducible apply AltersOut.ite
    | with_reducible apply Alters.ite
    | (refine Alters.snd (by assumption) ?_)
    | (refine Alters.fst (by assumption) ?_)
    | (refine Alters.thd (by assumption) ?_)
    | split
    | simp +zetaDelta only [AltersF.mkIff]
    | assumption

theorem alters_execContextWatchdog {M : Nat} {r : State} (waiter : Nat) (s : State) (h2 : Alters M r s) (hm : Within 4130684831744 M) :
    AltersOut M r (execContextWatchdog waiter s) := by
  unfold execContextWatchdog
  try extract_lets
  repeat' first
    | with_reducible assumption
    | ((with_reducible refine Within.of hm ?_); exact rfl)
    | intro _
    | with_reducible apply AltersOut.next
    | with_reducible apply alters_endWaiters
    | with_reducible apply alters_timeTo
    | with_reducible apply alters_endDeferredReq
    | with_reducible apply AltersOut.ite
    | with_reducible apply Alters.ite
    | (refine Alters.snd (by assumption) ?_)
    | (refine Alters.fst (by assumption) ?_)
    | (refine Alters.thd (by assumption) ?_)
    | split
    | simp +zetaDelta only [AltersF.mkIff]
    | assumption

end Sys2Proof.Laws
end

