-- ==== Sys2Proof/Laws/AltersWeaveCmds.lean ====
section
/-! SUPPORT. Laws/AltersWeaveCmds.lean: which kinds of state the operations of Machine/WeaveCmds.lean may change (Laws/Alters.lean). -/
namespace Sys2Proof.Laws
open Sys2Proof.Machine
set_option linter.all false

theorem alters_sleeveWrite {M : Nat} {r : State} (n : Nat) (v : Nat) (by_ : RegBy) (s : State) (h4 : Alters M r s) (hm : Within 2162690 M) :
    Alters M r (sleeveWrite n v by_ s).2 := by
  unfold sleeveWrite
  try extract_lets
  repeat' first
    | with_reducible assumption
    | ((with_reducible refine Within.of hm ?_); exact rfl)
    | intro _
    | with_reducible apply alters_dropReg
    | with_reducible apply alters_freshId
    | with_reducible apply alters_modSlice
    | with_reducible apply Alters.iteS
    | with_reducible apply Alters.ite
    | (refine Alters.snd (by assumption) ?_)
    | (refine Alters.fst (by assumption) ?_)
    | (refine Alters.thd (by assumption) ?_)
    | split
    | simp +zetaDelta only [AltersF.mkIff]
    | assumption

theorem alters_weaveOn {M : Nat} {r : State} (c : Cmd) (ns : List Nat) (s : State) (h3 : Alters M r s) (hm : Within 1076297763 M) :
    Alters M r (weaveOn c ns s) := by
  unfold weaveOn
  try extract_lets
  repeat' first
    | with_reducible assumption
    | ((with_reducible refine Within.of hm ?_); exact rfl)
    | intro _
    | with_reducible apply alters_cmdRead
    | with_reducible apply alters_cmdRefuse
    | with_reducible apply alters_drawFree
    | with_reducible apply alters_cmdDone
    | with_reducible apply alters_freshId
    | with_reducible apply alters_modCmd
    | with_reducible apply alters_modSlice
    | with_reducible apply Alters.ite
    | with_reducible apply Alters.foldl
    | with_reducible apply Alters.foldlP (p := Prod.snd)
    | with_reducible apply Alters.foldlP (p := Prod.fst)
    | with_reducible apply Alters.foldlT
    | (refine Alters.snd (by assumption) ?_)
    | (refine Alters.fst (by assumption) ?_)
    | (refine Alters.thd (by assumption) ?_)
    | split
    | simp +zetaDelta only [AltersF.mkIff]
    | assumption

theorem alters_execWeaveInstall {M : Nat} {r : State} (cmd : Nat) (s : State) (h2 : Alters M r s) (hm : Within 4399122808867 M) :
    AltersOut M r (execWeaveInstall cmd s) := by
  unfold execWeaveInstall
  try extract_lets
  repeat' first
    | with_reducible assumption
    | ((with_reducible refine Within.of hm ?_); exact rfl)
    | intro _
    | with_reducible apply AltersOut.next
    | with_reducible apply alters_cmdRefuse
    | with_reducible apply alters_whenAwake
    | with_reducible apply alters_weaveOn
    | with_reducible apply AltersOut.ite
    | with_reducible apply Alters.ite
    | (refine Alters.snd (by assumption) ?_)
    | (refine Alters.fst (by assumption) ?_)
    | (refine Alters.thd (by assumption) ?_)
    | split
    | simp +zetaDelta only [AltersF.mkIff]
    | assumption

theorem alters_restartTimers {M : Nat} {r : State} (ns : List Nat) (s : State) (h2 : Alters M r s) (hm : Within 4398046511104 M) :
    Alters M r (restartTimers ns s) := by
  unfold restartTimers
  try extract_lets
  repeat' first
    | with_reducible assumption
    | ((with_reducible refine Within.of hm ?_); exact rfl)
    | intro _
    | with_reducible apply alters_modPwr
    | with_reducible apply Alters.foldl
    | with_reducible apply Alters.foldlP (p := Prod.snd)
    | with_reducible apply Alters.foldlP (p := Prod.fst)
    | with_reducible apply Alters.foldlT
    | simp +zetaDelta only [AltersF.mkIff]
    | assumption

theorem alters_contractDue {M : Nat} {r : State} (c : Contract) (s : State) (h2 : Alters M r s) (hm : Within 72063236551215104 M) :
    Alters M r (contractDue c s) := by
  unfold contractDue
  try extract_lets
  repeat' first
    | with_reducible assumption
    | ((with_reducible refine Within.of hm ?_); exact rfl)
    | intro _
    | with_reducible apply alters_restartTimers
    | with_reducible apply alters_endGrants
    | with_reducible apply alters_finish
    | with_reducible apply alters_finishBind
    | with_reducible apply Alters.ite
    | with_reducible apply alters_set_contracts
    | simp only [AltersF.mkIff]
    | split
    | simp +zetaDelta only [AltersF.mkIff]
    | assumption

theorem alters_contractsAt {M : Nat} {r : State} (n : Nat) (stamp : Nat) (s : State) (h3 : Alters M r s) (hm : Within 72063236551215104 M) :
    Alters M r (contractsAt n stamp s) := by
  unfold contractsAt
  try extract_lets
  repeat' first
    | with_reducible assumption
    | ((with_reducible refine Within.of hm ?_); exact rfl)
    | intro _
    | with_reducible apply alters_contractDue
    | with_reducible apply Alters.ite
    | with_reducible apply Alters.foldl
    | with_reducible apply Alters.foldlP (p := Prod.snd)
    | with_reducible apply Alters.foldlP (p := Prod.fst)
    | with_reducible apply Alters.foldlT
    | with_reducible apply alters_set_contracts
    | simp only [AltersF.mkIff]
    | split
    | simp +zetaDelta only [AltersF.mkIff]
    | assumption

theorem alters_toB {M : Nat} {r : State} (c : Contract) (s : State) (h2 : Alters M r s) (hm : Within 4504180521828352 M) :
    Alters M r (toB c s) := by
  unfold toB
  extract_lets mine hit cmd k rows chan rowsOf open_
  exact alters_gTele _ _ _ (alters_set_cmds_ops_wb_beats_works_movers h2 (hm.of rfl)) (hm.of rfl)

theorem alters_bucketsAt {M : Nat} {r : State} (n : Nat) (s : State) (h2 : Alters M r s) (hm : Within 4504317960781824 M) :
    Alters M r (bucketsAt n s) := by
  unfold bucketsAt
  try extract_lets
  repeat' first
    | with_reducible assumption
    | ((with_reducible refine Within.of hm ?_); exact rfl)
    | intro _
    | with_reducible apply alters_toB
    | with_reducible apply Alters.ite
    | with_reducible apply Alters.foldl
    | with_reducible apply Alters.foldlP (p := Prod.snd)
    | with_reducible apply Alters.foldlP (p := Prod.fst)
    | with_reducible apply Alters.foldlT
    | with_reducible apply alters_set_contracts
    | simp only [AltersF.mkIff]
    | split
    | simp +zetaDelta only [AltersF.mkIff]
    | assumption

theorem alters_weaveEnd {M : Nat} {r : State} (o : Origin) (s : State) (h2 : Alters M r s) (hm : Within 1073741824 M) :
    Alters M r (weaveEnd o s) := by
  unfold weaveEnd
  try extract_lets
  repeat' first
    | with_reducible assumption
    | ((with_reducible refine Within.of hm ?_); exact rfl)
    | intro _
    | with_reducible apply alters_cmdDone
    | with_reducible apply Alters.ite
    | (refine Alters.snd (by assumption) ?_)
    | (refine Alters.fst (by assumption) ?_)
    | (refine Alters.thd (by assumption) ?_)
    | split
    | simp +zetaDelta only [AltersF.mkIff]
    | assumption

theorem alters_lanesAt {M : Nat} {r : State} (n : Nat) (s : State) (h2 : Alters M r s) (hm : Within 2230272 M) :
    Alters M r (lanesAt n s) := by
  unfold lanesAt
  try extract_lets
  repeat' first
    | with_reducible assumption
    | ((with_reducible refine Within.of hm ?_); exact rfl)
    | intro _
    | with_reducible apply alters_integAdd
    | with_reducible apply alters_modSlice
    | with_reducible apply alters_raiseSvc
    | with_reducible apply Alters.ite
    | with_reducible apply Alters.foldl
    | with_reducible apply Alters.foldlP (p := Prod.snd)
    | with_reducible apply Alters.foldlP (p := Prod.fst)
    | with_reducible apply Alters.foldlT
    | split
    | simp +zetaDelta only [AltersF.mkIff]
    | assumption

theorem alters_marksAt {M : Nat} {r : State} (n : Nat) (s : State) (h2 : Alters M r s) (hm : Within 2293760 M) :
    Alters M r (marksAt n s) := by
  unfold marksAt
  try extract_lets
  repeat' first
    | with_reducible assumption
    | ((with_reducible refine Within.of hm ?_); exact rfl)
    | intro _
    | with_reducible apply alters_integAdd
    | with_reducible apply alters_report
    | with_reducible apply alters_modSlice
    | with_reducible apply Alters.ite
    | with_reducible apply Alters.foldl
    | with_reducible apply Alters.foldlP (p := Prod.snd)
    | with_reducible apply Alters.foldlP (p := Prod.fst)
    | with_reducible apply Alters.foldlT
    | (refine Alters.snd (by assumption) ?_)
    | (refine Alters.fst (by assumption) ?_)
    | (refine Alters.thd (by assumption) ?_)
    | split
    | simp +zetaDelta only [AltersF.mkIff]
    | assumption

theorem alters_frameBoundary {M : Nat} {r : State} (n : Nat) (s : State) (h2 : Alters M r s) (hm : Within 76567411706505216 M) :
    Alters M r (frameBoundary n s) := by
  unfold frameBoundary
  try extract_lets
  repeat' first
    | with_reducible assumption
    | ((with_reducible refine Within.of hm ?_); exact rfl)
    | intro _
    | with_reducible apply alters_bucketsAt
    | with_reducible apply alters_modSlice
    | with_reducible apply alters_regPut
    | with_reducible apply alters_finishAll
    | with_reducible apply alters_weaveEnd
    | with_reducible apply alters_lanesAt
    | with_reducible apply alters_marksAt
    | with_reducible apply alters_contractsAt
    | with_reducible apply Alters.ite
    | (refine Alters.snd (by assumption) ?_)
    | (refine Alters.fst (by assumption) ?_)
    | (refine Alters.thd (by assumption) ?_)
    | with_reducible apply alters_set_bcnt
    | simp only [AltersF.mkIff]
    | split
    | simp +zetaDelta only [AltersF.mkIff]
    | assumption

theorem alters_bindOn {M : Nat} {r : State} (c : Cmd) (kind : Nat) (target : Nat) (s : State) (h4 : Alters M r s) (hm : Within 138512695298 M) :
    Alters M r (bindOn c kind target s) := by
  unfold bindOn
  try extract_lets
  repeat' first
    | with_reducible assumption
    | ((with_reducible refine Within.of hm ?_); exact rfl)
    | intro _
    | with_reducible apply alters_cmdRefuse
    | with_reducible apply alters_freshId
    | with_reducible apply alters_modCmd
    | with_reducible apply Alters.ite
    | (refine Alters.snd (by assumption) ?_)
    | (refine Alters.fst (by assumption) ?_)
    | (refine Alters.thd (by assumption) ?_)
    | with_reducible apply alters_set_contracts
    | simp only [AltersF.mkIff]
    | split
    | simp +zetaDelta only [AltersF.mkIff]
    | assumption

theorem alters_execContractBind {M : Nat} {r : State} (cmd : Nat) (s : State) (h2 : Alters M r s) (hm : Within 1244466776066 M) :
    AltersOut M r (execContractBind cmd s) := by
  unfold execContractBind
  try extract_lets
  repeat' first
    | with_reducible assumption
    | ((with_reducible refine Within.of hm ?_); exact rfl)
    | intro _
    | with_reducible apply AltersOut.next
    | with_reducible apply alters_startUnbind
    | with_reducible apply alters_modCmd
    | with_reducible apply alters_cmdDone
    | with_reducible apply alters_cmdRefuse
    | with_reducible apply alters_bindOn
    | with_reducible apply AltersOut.ite
    | with_reducible apply Alters.ite
    | (refine Alters.snd (by assumption) ?_)
    | (refine Alters.fst (by assumption) ?_)
    | (refine Alters.thd (by assumption) ?_)
    | split
    | simp +zetaDelta only [AltersF.mkIff]
    | assumption

end Sys2Proof.Laws
end

