-- ==== Sys2Proof/Laws/AltersMaint.lean ====
section
/-! SUPPORT. Laws/AltersMaint.lean: which kinds of state the operations of Machine/Maint.lean may change (Laws/Alters.lean). -/
namespace Sys2Proof.Laws
open Sys2Proof.Machine
set_option linter.all false

theorem alters_writeDest {M : Nat} {r : State} (c : Cmd) (a : Nat) (align : Nat) (bs : List Byte) (st : Status) (count : Nat) (result : Nat) (more : State → State) (s : State) (h8 : ∀ a0, Alters M r a0 → Alters M r (more a0)) (h9 : Alters M r s) (hm : Within 4399122809660 M) :
    Alters M r (writeDest c a align bs st count result more s) := by
  unfold writeDest
  try extract_lets
  repeat' first
    | with_reducible assumption
    | ((with_reducible refine Within.of hm ?_); exact rfl)
    | intro _
    | with_reducible apply h8
    | with_reducible apply alters_destRefuse
    | with_reducible apply alters_modCmd
    | with_reducible apply alters_whenAwake
    | with_reducible apply alters_cmdWrite
    | with_reducible apply alters_cmdDone
    | with_reducible apply Alters.ite
    | (refine Alters.snd (by assumption) ?_)
    | (refine Alters.fst (by assumption) ?_)
    | (refine Alters.thd (by assumption) ?_)
    | split
    | simp +zetaDelta only [AltersF.mkIff]
    | assumption

theorem alters_execTelemetryRead {M : Nat} {r : State} (cmd : Nat) (s : State) (h2 : Alters M r s) (hm : Within 4399122809660 M) :
    AltersOut M r (execTelemetryRead cmd s) := by
  unfold execTelemetryRead
  try extract_lets
  repeat' first
    | with_reducible assumption
    | ((with_reducible refine Within.of hm ?_); exact rfl)
    | intro _
    | with_reducible apply AltersOut.next
    | with_reducible apply alters_writeDest
    | with_reducible apply alters_cmdRefuse
    | with_reducible apply AltersOut.ite
    | with_reducible apply Alters.ite
    | (refine Alters.snd (by assumption) ?_)
    | (refine Alters.fst (by assumption) ?_)
    | (refine Alters.thd (by assumption) ?_)
    | split
    | simp +zetaDelta only [AltersF.mkIff]
    | assumption

theorem alters_repairUnit {M : Nat} {r : State} (ag : Agent) (u : Nat) (s : State) (h3 : Alters M r s) (hm : Within 2555964 M) :
    Alters M r (repairUnit ag u s).2 := by
  unfold repairUnit
  try extract_lets
  repeat' first
    | with_reducible assumption
    | ((with_reducible refine Within.of hm ?_); exact rfl)
    | intro _
    | with_reducible apply alters_noteFound
    | with_reducible apply alters_integAdd
    | with_reducible exact MemAlters.refl _ _
    | with_reducible apply memAlters_putUnit
    | with_reducible apply memAlters_set_tag_owed
    | (refine Alters.snd (by assumption) ?_)
    | (refine Alters.fst (by assumption) ?_)
    | (refine Alters.thd (by assumption) ?_)
    | with_reducible apply alters_set_mem
    | simp only [AltersF.mkIff]
    | split
    | simp +zetaDelta only [AltersF.mkIff]
    | assumption

theorem alters_scrubKeys {M : Nat} {r : State} (ctx : Nat) (ks : List Nat) (s : State) (h3 : Alters M r s) (hm : Within 2555964 M) :
    Alters M r (scrubKeys ctx ks s).2 := by
  unfold scrubKeys
  try extract_lets
  repeat' first
    | with_reducible assumption
    | ((with_reducible refine Within.of hm ?_); exact rfl)
    | intro _
    | with_reducible apply alters_repairUnit
    | with_reducible apply Alters.foldl
    | with_reducible apply Alters.foldlP (p := Prod.snd)
    | with_reducible apply Alters.foldlP (p := Prod.fst)
    | with_reducible apply Alters.foldlT
    | (refine Alters.snd (by assumption) ?_)
    | (refine Alters.fst (by assumption) ?_)
    | (refine Alters.thd (by assumption) ?_)
    | split
    | simp +zetaDelta only [AltersF.mkIff]
    | assumption

theorem alters_clearWaiters {M : Nat} {r : State} (id : Nat) (s : State) (h2 : Alters M r s) (hm : Within 73185146435272704 M) :
    Alters M r (clearWaiters id s) := by
  unfold clearWaiters
  try extract_lets
  repeat' first
    | with_reducible assumption
    | ((with_reducible refine Within.of hm ?_); exact rfl)
    | intro _
    | with_reducible apply alters_finishPocket
    | with_reducible apply alters_finishDestroy
    | with_reducible apply alters_modChan
    | with_reducible apply Alters.ite
    | with_reducible apply Alters.foldl
    | with_reducible apply Alters.foldlP (p := Prod.snd)
    | with_reducible apply Alters.foldlP (p := Prod.fst)
    | with_reducible apply Alters.foldlT
    | split
    | simp +zetaDelta only [AltersF.mkIff]
    | assumption

theorem alters_execClearDone {M : Nat} {r : State} (id : Nat) (s : State) (h2 : Alters M r s) (hm : Within 73185215154749500 M) :
    AltersOut M r (execClearDone id s) := by
  have wf : ∀ (l : List (Nat × Nat × Nat)) (m : Mem), MemAlters M s.mem m → MemAlters M s.mem (l.foldl (fun m x => clearLines x.1 x.2.1 x.2.2 m) m) := by
    intro l
    induction l with
    | nil => exact fun m h => h
    | cons u l ih => exact fun m h => ih _ (memAlters_clearLines _ _ _ h (hm.of rfl))
  unfold execClearDone
  split
  · exact AltersOut.next (alters_clearWaiters _ _ (alters_set_mem_clears h2 (wf _ _ (MemAlters.refl _ _)) (hm.of rfl)) (hm.of rfl))
  · exact AltersOut.next h2

theorem alters_scrubRange {M : Nat} {r : State} (c : Cmd) (s : State) (h2 : Alters M r s) (hm : Within 4399122808892 M) :
    Alters M r (scrubRange c s) := by
  unfold scrubRange
  try extract_lets
  repeat' first
    | with_reducible assumption
    | ((with_reducible refine Within.of hm ?_); exact rfl)
    | intro _
    | with_reducible apply alters_cmdRefuse
    | with_reducible apply alters_logCheck
    | with_reducible apply alters_logRegion
    | with_reducible apply alters_modCmd
    | with_reducible apply alters_whenAwake
    | with_reducible apply alters_scrubKeys
    | with_reducible apply alters_cmdDone
    | with_reducible apply Alters.ite
    | (refine Alters.snd (by assumption) ?_)
    | (refine Alters.fst (by assumption) ?_)
    | (refine Alters.thd (by assumption) ?_)
    | split
    | simp +zetaDelta only [AltersF.mkIff]
    | assumption

theorem alters_execScrubCtl {M : Nat} {r : State} (cmd : Nat) (s : State) (h2 : Alters M r s) (hm : Within 74767866986556 M) :
    AltersOut M r (execScrubCtl cmd s) := by
  unfold execScrubCtl
  try extract_lets
  repeat' first
    | with_reducible assumption
    | ((with_reducible refine Within.of hm ?_); exact rfl)
    | intro _
    | with_reducible apply AltersOut.next
    | with_reducible apply alters_cmdDone
    | with_reducible apply alters_cmdRefuse
    | with_reducible apply alters_scrubRange
    | with_reducible apply AltersOut.ite
    | with_reducible apply Alters.ite
    | (refine Alters.snd (by assumption) ?_)
    | (refine Alters.fst (by assumption) ?_)
    | (refine Alters.thd (by assumption) ?_)
    | with_reducible apply alters_set_scrub
    | simp only [AltersF.mkIff]
    | split
    | simp +zetaDelta only [AltersF.mkIff]
    | assumption

theorem alters_endPass {M : Nat} {r : State} (w : Bool) (s : State) (h2 : Alters M r s) (hm : Within 70368746405888 M) :
    Alters M r (endPass w s) := by
  unfold endPass
  try extract_lets
  repeat' first
    | with_reducible assumption
    | ((with_reducible refine Within.of hm ?_); exact rfl)
    | intro _
    | with_reducible apply alters_integAdd
    | with_reducible apply Alters.ite
    | with_reducible apply alters_set_scrub
    | with_reducible apply alters_set_slices
    | simp only [AltersF.mkIff]
    | split
    | simp +zetaDelta only [AltersF.mkIff]
    | assumption

theorem alters_darnSlice {M : Nat} {r : State} (n : Nat) (k : Nat) (s : State) (h3 : Alters M r s) (hm : Within 4400196098172 M) :
    Alters M r (darnSlice n k s) := by
  unfold darnSlice
  try extract_lets
  repeat' first
    | with_reducible assumption
    | ((with_reducible refine Within.of hm ?_); exact rfl)
    | intro _
    | with_reducible apply alters_modSlice
    | with_reducible exact MemAlters.refl _ _
    | with_reducible apply memAlters_clearKeys
    | with_reducible apply memAlters_set_sys
    | exact ctlAlters_pwr _ _ (Within.of hm rfl)
    | exact ctlAlters_rest _ _ (Within.of hm rfl) rfl
    | exact ctlAlters_any _ _ (Within.of hm rfl)
    | with_reducible apply Alters.foldl
    | with_reducible apply Alters.foldlP (p := Prod.snd)
    | with_reducible apply Alters.foldlP (p := Prod.fst)
    | with_reducible apply Alters.foldlT
    | with_reducible apply alters_set_mem_ports_ctl
    | with_reducible apply alters_set_regs_w1done
    | simp only [AltersF.mkIff]
    | simp +zetaDelta only [AltersF.mkIff]
    | assumption

theorem alters_darnBank {M : Nat} {r : State} (bank : Nat) (k : Nat) (s : State) (h3 : Alters M r s) (hm : Within 2555964 M) :
    Alters M r (darnBank bank k s).2.2 := by
  unfold darnBank
  try extract_lets
  repeat' first
    | with_reducible assumption
    | ((with_reducible refine Within.of hm ?_); exact rfl)
    | intro _
    | with_reducible apply alters_repairUnit
    | with_reducible apply alters_modSlice
    | with_reducible apply alters_integAdd
    | with_reducible apply Alters.iteS
    | with_reducible apply Alters.ite
    | with_reducible apply Alters.foldl
    | with_reducible apply Alters.foldlP (p := Prod.snd)
    | with_reducible apply Alters.foldlP (p := Prod.fst)
    | with_reducible apply Alters.foldlT
    | (refine Alters.snd (by assumption) ?_)
    | (refine Alters.fst (by assumption) ?_)
    | (refine Alters.thd (by assumption) ?_)
    | split
    | simp +zetaDelta only [AltersF.mkIff]
    | assumption

theorem alters_darnNow {M : Nat} {r : State} (bank : Nat) (k : Nat) (s : State) (h3 : Alters M r s) (hm : Within 1076297788 M) :
    Alters M r (darnNow bank k s) := by
  unfold darnNow
  try extract_lets
  repeat' first
    | with_reducible assumption
    | ((with_reducible refine Within.of hm ?_); exact rfl)
    | intro _
    | with_reducible apply alters_darnBank
    | with_reducible apply alters_cmdDone
    | with_reducible apply alters_report
    | with_reducible apply alters_modSlice
    | with_reducible apply Alters.ite
    | with_reducible apply Alters.foldl
    | with_reducible apply Alters.foldlP (p := Prod.snd)
    | with_reducible apply Alters.foldlP (p := Prod.fst)
    | with_reducible apply Alters.foldlT
    | (refine Alters.snd (by assumption) ?_)
    | (refine Alters.fst (by assumption) ?_)
    | (refine Alters.thd (by assumption) ?_)
    | split
    | simp +zetaDelta only [AltersF.mkIff]
    | assumption

theorem alters_execDarn {M : Nat} {r : State} (cmd : Nat) (s : State) (h2 : Alters M r s) (hm : Within 4401270298748 M) :
    AltersOut M r (execDarn cmd s) := by
  unfold execDarn
  try extract_lets
  repeat' first
    | with_reducible assumption
    | ((with_reducible refine Within.of hm ?_); exact rfl)
    | intro _
    | with_reducible apply AltersOut.next
    | with_reducible apply alters_cmdDone
    | with_reducible apply alters_cmdRefuse
    | with_reducible apply alters_whenAwake
    | with_reducible apply alters_darnNow
    | with_reducible apply alters_raiseSvc
    | with_reducible apply alters_darnSlice
    | with_reducible apply AltersOut.ite
    | with_reducible apply Alters.ite
    | (refine Alters.snd (by assumption) ?_)
    | (refine Alters.fst (by assumption) ?_)
    | (refine Alters.thd (by assumption) ?_)
    | split
    | simp +zetaDelta only [AltersF.mkIff]
    | assumption

theorem alters_darnStep {M : Nat} {r : State} (s : State) (bank : Nat) (h1 : Alters M r s) (hm : Within 1076299836 M) :
    Alters M r (darnStep s bank) := by
  unfold darnStep
  try extract_lets
  repeat' first
    | with_reducible assumption
    | ((with_reducible refine Within.of hm ?_); exact rfl)
    | intro _
    | with_reducible apply alters_darnNow
    | with_reducible apply alters_raiseSvc
    | with_reducible apply alters_modSlice
    | with_reducible apply Alters.ite
    | (refine Alters.snd (by assumption) ?_)
    | (refine Alters.fst (by assumption) ?_)
    | (refine Alters.thd (by assumption) ?_)
    | split
    | simp +zetaDelta only [AltersF.mkIff]
    | assumption

theorem alters_execScrubAutoResume {M : Nat} {r : State} (s : State) (h1 : Alters M r s) (hm : Within 70368744210432 M) :
    AltersOut M r (execScrubAutoResume s) := by
  unfold execScrubAutoResume
  try extract_lets
  repeat' first
    | with_reducible assumption
    | ((with_reducible refine Within.of hm ?_); exact rfl)
    | intro _
    | with_reducible apply AltersOut.next
    | with_reducible apply alters_timeTo
    | (refine Alters.snd (by assumption) ?_)
    | (refine Alters.fst (by assumption) ?_)
    | (refine Alters.thd (by assumption) ?_)
    | with_reducible apply alters_set_scrub
    | simp only [AltersF.mkIff]
    | split
    | simp +zetaDelta only [AltersF.mkIff]
    | assumption

theorem alters_replaceLane {M : Nat} {r : State} (n : Nat) (l : Nat) (s : State) (h3 : Alters M r s) (hm : Within 2097152 M) :
    Alters M r (replaceLane n l s) := by
  unfold replaceLane
  try extract_lets
  repeat' first
    | with_reducible assumption
    | ((with_reducible refine Within.of hm ?_); exact rfl)
    | intro _
    | with_reducible apply alters_modSlice
    | with_reducible apply Alters.ite
    | split
    | simp +zetaDelta only [AltersF.mkIff]
    | assumption

theorem alters_autoDarn {M : Nat} {r : State} (bank : Nat) (s : State) (h2 : Alters M r s) (hm : Within 2099200 M) :
    Alters M r (autoDarn bank s) := by
  unfold autoDarn
  try extract_lets
  repeat' first
    | with_reducible assumption
    | ((with_reducible refine Within.of hm ?_); exact rfl)
    | intro _
    | with_reducible apply alters_modSlice
    | with_reducible apply alters_raiseSvc
    | with_reducible apply Alters.ite
    | split
    | simp +zetaDelta only [AltersF.mkIff]
    | assumption

theorem alters_autoMarks {M : Nat} {r : State} (n : Nat) (s : State) (h2 : Alters M r s) (hm : Within 2099200 M) :
    Alters M r (autoMarks n s) := by
  unfold autoMarks
  try extract_lets
  repeat' first
    | with_reducible assumption
    | ((with_reducible refine Within.of hm ?_); exact rfl)
    | intro _
    | with_reducible apply alters_autoDarn
    | with_reducible apply Alters.ite
    | with_reducible apply Alters.foldl
    | with_reducible apply Alters.foldlP (p := Prod.snd)
    | with_reducible apply Alters.foldlP (p := Prod.fst)
    | with_reducible apply Alters.foldlT
    | split
    | simp +zetaDelta only [AltersF.mkIff]
    | assumption

theorem alters_execSeamCalibration {M : Nat} {r : State} (n : Nat) (tier : Nat) (weak : List Nat) (s : State) (h4 : Alters M r s) (hm : Within 2097152 M) :
    AltersOut M r (execSeamCalibration n tier weak s) := by
  unfold execSeamCalibration
  try extract_lets
  repeat' first
    | with_reducible assumption
    | ((with_reducible refine Within.of hm ?_); exact rfl)
    | intro _
    | with_reducible apply AltersOut.next
    | with_reducible apply alters_replaceLane
    | with_reducible apply AltersOut.ite
    | with_reducible apply Alters.ite
    | with_reducible apply Alters.foldl
    | with_reducible apply Alters.foldlP (p := Prod.snd)
    | with_reducible apply Alters.foldlP (p := Prod.fst)
    | with_reducible apply Alters.foldlT
    | split
    | simp +zetaDelta only [AltersF.mkIff]
    | assumption

theorem alters_darnSteps {M : Nat} {r : State} (s : State) (h1 : Alters M r s) (hm : Within 1076299836 M) :
    Alters M r (darnSteps s) := by
  unfold darnSteps
  try extract_lets
  repeat' first
    | with_reducible assumption
    | ((with_reducible refine Within.of hm ?_); exact rfl)
    | intro _
    | with_reducible apply alters_darnStep
    | with_reducible apply Alters.foldl
    | with_reducible apply Alters.foldlP (p := Prod.snd)
    | with_reducible apply Alters.foldlP (p := Prod.fst)
    | with_reducible apply Alters.foldlT
    | simp +zetaDelta only [AltersF.mkIff]
    | assumption

theorem alters_execFrameBoundary {M : Nat} {r : State} (n : Nat) (s : State) (h2 : Alters M r s) (hm : Within 76567411706505216 M) :
    AltersOut M r (execFrameBoundary n s) := by
  unfold execFrameBoundary
  try extract_lets
  repeat' first
    | with_reducible assumption
    | ((with_reducible refine Within.of hm ?_); exact rfl)
    | intro _
    | with_reducible apply AltersOut.next
    | with_reducible apply alters_autoMarks
    | with_reducible apply alters_frameBoundary
    | with_reducible apply AltersOut.ite
    | with_reducible apply Alters.ite
    | split
    | simp +zetaDelta only [AltersF.mkIff]
    | assumption

theorem alters_execSeamParityError {M : Nat} {r : State} (n : Nat) (tier : Nat) (lane : Nat) (up : Bool) (id : Nat) (s : State) (h6 : Alters M r s) (hm : Within 4503613588310018 M) :
    AltersOut M r (execSeamParityError n tier lane up id s) := by
  unfold execSeamParityError
  try extract_lets
  repeat' first
    | with_reducible assumption
    | ((with_reducible refine Within.of hm ?_); exact rfl)
    | intro _
    | with_reducible apply AltersOut.next
    | with_reducible apply alters_replaceLane
    | with_reducible apply alters_integAdd
    | with_reducible apply alters_modWb
    | with_reducible apply alters_report
    | with_reducible apply alters_modOp
    | with_reducible apply alters_nmuFault
    | with_reducible apply alters_poolParity
    | with_reducible apply AltersOut.ite
    | with_reducible apply Alters.ite
    | with_reducible apply Alters.foldl
    | with_reducible apply Alters.foldlP (p := Prod.snd)
    | with_reducible apply Alters.foldlP (p := Prod.fst)
    | with_reducible apply Alters.foldlT
    | (refine Alters.snd (by assumption) ?_)
    | (refine Alters.fst (by assumption) ?_)
    | (refine Alters.thd (by assumption) ?_)
    | split
    | simp +zetaDelta only [AltersF.mkIff]
    | assumption

theorem alters_execLogRead {M : Nat} {r : State} (cmd : Nat) (s : State) (h2 : Alters M r s) (hm : Within 4399122809660 M) :
    AltersOut M r (execLogRead cmd s) := by
  unfold execLogRead
  try extract_lets
  repeat' first
    | with_reducible assumption
    | ((with_reducible refine Within.of hm ?_); exact rfl)
    | intro _
    | with_reducible apply AltersOut.next
    | with_reducible apply alters_writeDest
    | with_reducible apply alters_cmdRefuse
    | with_reducible apply AltersOut.ite
    | with_reducible apply Alters.ite
    | (refine Alters.snd (by assumption) ?_)
    | (refine Alters.fst (by assumption) ?_)
    | (refine Alters.thd (by assumption) ?_)
    | with_reducible apply alters_set_log
    | simp only [AltersF.mkIff]
    | split
    | simp +zetaDelta only [AltersF.mkIff]
    | assumption

theorem alters_execPatrolScrub {M : Nat} {r : State} (bank : Nat) (line : Nat) (beat : Nat) (s : State) (h4 : Alters M r s) (hm : Within 70368746735676 M) :
    AltersOut M r (execPatrolScrub bank line beat s) := by
  unfold execPatrolScrub
  try extract_lets
  repeat' first
    | with_reducible assumption
    | ((with_reducible refine Within.of hm ?_); exact rfl)
    | intro _
    | with_reducible apply AltersOut.next
    | with_reducible apply alters_repairUnit
    | with_reducible apply alters_autoDarn
    | with_reducible apply alters_endPass
    | with_reducible apply AltersOut.ite
    | with_reducible apply Alters.ite
    | with_reducible apply Alters.foldl
    | with_reducible apply Alters.foldlP (p := Prod.snd)
    | with_reducible apply Alters.foldlP (p := Prod.fst)
    | with_reducible apply Alters.foldlT
    | (refine Alters.snd (by assumption) ?_)
    | (refine Alters.fst (by assumption) ?_)
    | (refine Alters.thd (by assumption) ?_)
    | with_reducible apply alters_set_scrub
    | simp only [AltersF.mkIff]
    | split
    | simp +zetaDelta only [AltersF.mkIff]
    | assumption

theorem alters_execLogRecord {M : Nat} {r : State} (s : State) (h1 : Alters M r s) (hm : Within 65536 M) :
    AltersOut M r (execLogRecord s) := by
  unfold execLogRecord
  try extract_lets
  repeat' first
    | with_reducible assumption
    | ((with_reducible refine Within.of hm ?_); exact rfl)
    | intro _
    | with_reducible apply AltersOut.next
    | with_reducible apply AltersOut.ite
    | with_reducible apply Alters.ite
    | (refine Alters.snd (by assumption) ?_)
    | (refine Alters.fst (by assumption) ?_)
    | (refine Alters.thd (by assumption) ?_)
    | with_reducible apply alters_set_log
    | simp only [AltersF.mkIff]
    | split
    | simp +zetaDelta only [AltersF.mkIff]
    | assumption

end Sys2Proof.Laws
end

