-- ==== Sys2Proof/Laws/AltersMeter.lean ====
section
/-! SUPPORT. Laws/AltersMeter.lean: which kinds of state the operations of Machine/Meter.lean may change (Laws/Alters.lean). -/
namespace Sys2Proof.Laws
open Sys2Proof.Machine
set_option linter.all false

theorem alters_modMeter {M : Nat} {r : State} (f : MeterState → MeterState) (s : State) (h2 : Alters M r s) (hm : Within 35184372088832 M) :
    Alters M r (modMeter f s) := by
  unfold modMeter
  try extract_lets
  repeat' first
    | with_reducible assumption
    | ((with_reducible refine Within.of hm ?_); exact rfl)
    | intro _
    | with_reducible apply alters_set_meter
    | simp only [AltersF.mkIff]
    | simp +zetaDelta only [AltersF.mkIff]
    | assumption

theorem alters_audit {M : Nat} {r : State} (code : Nat) (ix : Nat) (src : Bool) (v : Nat) (s : State) (h5 : Alters M r s) (hm : Within 35184372088832 M) :
    Alters M r (audit code ix src v s) := by
  unfold audit
  try extract_lets
  repeat' first
    | with_reducible assumption
    | ((with_reducible refine Within.of hm ?_); exact rfl)
    | intro _
    | with_reducible apply alters_modMeter
    | with_reducible apply Alters.ite
    | split
    | simp +zetaDelta only [AltersF.mkIff]
    | assumption

theorem alters_tampered {M : Nat} {r : State} (s : State) (h1 : Alters M r s) (hm : Within 35184372088832 M) :
    Alters M r (tampered s) := by
  unfold tampered
  try extract_lets
  repeat' first
    | with_reducible assumption
    | ((with_reducible refine Within.of hm ?_); exact rfl)
    | intro _
    | with_reducible apply alters_modMeter
    | simp +zetaDelta only [AltersF.mkIff]
    | assumption

theorem alters_paramWrite {M : Nat} {r : State} (ix : Nat) (v : Nat) (bad : Bool) (store : MeterState → MeterState) (s : State) (h5 : Alters M r s) (hm : Within 35184372088832 M) :
    Alters M r (paramWrite ix v bad store s) := by
  unfold paramWrite
  try extract_lets
  repeat' first
    | with_reducible assumption
    | ((with_reducible refine Within.of hm ?_); exact rfl)
    | intro _
    | with_reducible apply alters_audit
    | with_reducible apply alters_tampered
    | with_reducible apply alters_modMeter
    | with_reducible apply Alters.ite
    | split
    | simp +zetaDelta only [AltersF.mkIff]
    | assumption

theorem alters_labelParam {M : Nat} {r : State} (v : Nat) (s : State) (h2 : Alters M r s) (hm : Within 35184372088832 M) :
    Alters M r (labelParam v s) := by
  unfold labelParam
  try extract_lets
  repeat' first
    | with_reducible assumption
    | ((with_reducible refine Within.of hm ?_); exact rfl)
    | intro _
    | with_reducible apply alters_paramWrite
    | simp +zetaDelta only [AltersF.mkIff]
    | assumption

theorem alters_execMtrLabel {M : Nat} {r : State} (v : DWord) (s : State) (h2 : Alters M r s) (hm : Within 35184372088832 M) :
    AltersOut M r (execMtrLabel v s) := by
  unfold execMtrLabel
  try extract_lets
  repeat' first
    | with_reducible assumption
    | ((with_reducible refine Within.of hm ?_); exact rfl)
    | intro _
    | with_reducible apply AltersOut.next
    | with_reducible apply alters_labelParam
    | simp +zetaDelta only [AltersF.mkIff]
    | assumption

theorem alters_sealParam {M : Nat} {r : State} (v : Nat) (s : State) (h2 : Alters M r s) (hm : Within 35184372088832 M) :
    Alters M r (sealParam v s) := by
  unfold sealParam
  try extract_lets
  repeat' first
    | with_reducible assumption
    | ((with_reducible refine Within.of hm ?_); exact rfl)
    | intro _
    | with_reducible apply alters_paramWrite
    | with_reducible apply alters_audit
    | with_reducible apply Alters.ite
    | split
    | simp +zetaDelta only [AltersF.mkIff]
    | assumption

theorem alters_execMtrSeal {M : Nat} {r : State} (v : Word) (s : State) (h2 : Alters M r s) (hm : Within 35184372088832 M) :
    AltersOut M r (execMtrSeal v s) := by
  unfold execMtrSeal
  try extract_lets
  repeat' first
    | with_reducible assumption
    | ((with_reducible refine Within.of hm ?_); exact rfl)
    | intro _
    | with_reducible apply AltersOut.next
    | with_reducible apply alters_sealParam
    | simp +zetaDelta only [AltersF.mkIff]
    | assumption

theorem alters_mirrorWrite {M : Nat} {r : State} (v : Nat) (size8 : Bool) (by_ : RegBy) (addr : Nat) (s : State) (h5 : Alters M r s) (hm : Within 35184372154368 M) :
    Alters M r (mirrorWrite v size8 by_ addr s).2 := by
  unfold mirrorWrite
  try extract_lets
  repeat' first
    | with_reducible assumption
    | ((with_reducible refine Within.of hm ?_); exact rfl)
    | intro _
    | with_reducible apply alters_logEvent
    | with_reducible apply alters_audit
    | with_reducible apply alters_tampered
    | with_reducible apply Alters.iteS
    | with_reducible apply Alters.ite
    | split
    | simp +zetaDelta only [AltersF.mkIff]
    | assumption

theorem alters_execMeterGapEnd {M : Nat} {r : State} (s : State) (h1 : Alters M r s) (hm : Within 35184372088832 M) :
    AltersOut M r (execMeterGapEnd s) := by
  unfold execMeterGapEnd
  try extract_lets
  repeat' first
    | with_reducible assumption
    | ((with_reducible refine Within.of hm ?_); exact rfl)
    | intro _
    | with_reducible apply AltersOut.next
    | with_reducible apply alters_audit
    | with_reducible apply alters_modMeter
    | with_reducible apply AltersOut.ite
    | with_reducible apply Alters.ite
    | split
    | simp +zetaDelta only [AltersF.mkIff]
    | assumption

theorem alters_execMeterAllocation {M : Nat} {r : State} (s : State) (h1 : Alters M r s) (hm : Within 35184372088832 M) :
    AltersOut M r (execMeterAllocation s) := by
  unfold execMeterAllocation
  try extract_lets
  repeat' first
    | with_reducible assumption
    | ((with_reducible refine Within.of hm ?_); exact rfl)
    | intro _
    | with_reducible apply AltersOut.next
    | with_reducible apply alters_modMeter
    | with_reducible apply AltersOut.ite
    | with_reducible apply Alters.ite
    | with_reducible apply Alters.foldl
    | with_reducible apply Alters.foldlP (p := Prod.snd)
    | with_reducible apply Alters.foldlP (p := Prod.fst)
    | with_reducible apply Alters.foldlT
    | (refine Alters.snd (by assumption) ?_)
    | (refine Alters.fst (by assumption) ?_)
    | (refine Alters.thd (by assumption) ?_)
    | split
    | simp +zetaDelta only [AltersF.mkIff]
    | assumption

theorem alters_execMeterGapStart {M : Nat} {r : State} (s : State) (h1 : Alters M r s) (hm : Within 35184372088832 M) :
    AltersOut M r (execMeterGapStart s) := by
  unfold execMeterGapStart
  try extract_lets
  repeat' first
    | with_reducible assumption
    | ((with_reducible refine Within.of hm ?_); exact rfl)
    | intro _
    | with_reducible apply AltersOut.next
    | with_reducible apply alters_audit
    | with_reducible apply alters_modMeter
    | with_reducible apply AltersOut.ite
    | with_reducible apply Alters.ite
    | split
    | simp +zetaDelta only [AltersF.mkIff]
    | assumption

theorem alters_execMeterRecordReady {M : Nat} {r : State} (s : State) (h1 : Alters M r s) (hm : Within 40683006526269 M) :
    AltersOut M r (execMeterRecordReady s) := by
  unfold execMeterRecordReady
  try extract_lets
  repeat' first
    | with_reducible assumption
    | ((with_reducible refine Within.of hm ?_); exact rfl)
    | intro _
    | with_reducible apply AltersOut.next
    | with_reducible apply alters_drawFree
    | with_reducible apply alters_modMeter
    | with_reducible apply alters_emit
    | with_reducible apply alters_touchAll
    | with_reducible apply alters_writeDest
    | with_reducible apply AltersOut.ite
    | with_reducible apply Alters.ite
    | (refine Alters.snd (by assumption) ?_)
    | (refine Alters.fst (by assumption) ?_)
    | (refine Alters.thd (by assumption) ?_)
    | split
    | simp +zetaDelta only [AltersF.mkIff]
    | assumption

theorem alters_execMeterRead {M : Nat} {r : State} (cmd : Nat) (s : State) (h2 : Alters M r s) (hm : Within 35185445896192 M) :
    AltersOut M r (execMeterRead cmd s) := by
  unfold execMeterRead
  try extract_lets
  repeat' first
    | with_reducible assumption
    | ((with_reducible refine Within.of hm ?_); exact rfl)
    | intro _
    | with_reducible apply AltersOut.next
    | with_reducible apply alters_cmdRefuse
    | with_reducible apply alters_destRefuse
    | with_reducible apply alters_modCmd
    | with_reducible apply alters_modMeter
    | with_reducible apply AltersOut.ite
    | with_reducible apply Alters.ite
    | (refine Alters.snd (by assumption) ?_)
    | (refine Alters.fst (by assumption) ?_)
    | (refine Alters.thd (by assumption) ?_)
    | split
    | simp +zetaDelta only [AltersF.mkIff]
    | assumption

theorem alters_execMeterSample {M : Nat} {r : State} (energies : List Nat) (s : State) (h2 : Alters M r s) (hm : Within 35184372121600 M) :
    AltersOut M r (execMeterSample energies s) := by
  unfold execMeterSample
  try extract_lets
  repeat' first
    | with_reducible assumption
    | ((with_reducible refine Within.of hm ?_); exact rfl)
    | intro _
    | with_reducible apply AltersOut.next
    | with_reducible apply alters_modMeter
    | with_reducible apply AltersOut.ite
    | with_reducible apply Alters.ite
    | with_reducible apply Alters.foldl
    | with_reducible apply Alters.foldlP (p := Prod.snd)
    | with_reducible apply Alters.foldlP (p := Prod.fst)
    | with_reducible apply Alters.foldlT
    | with_reducible apply alters_set_rc
    | simp only [AltersF.mkIff]
    | split
    | simp +zetaDelta only [AltersF.mkIff]
    | assumption

theorem alters_execMeterSelfCheck {M : Nat} {r : State} (deviating : List Nat) (s : State) (h2 : Alters M r s) (hm : Within 35184372088832 M) :
    AltersOut M r (execMeterSelfCheck deviating s) := by
  unfold execMeterSelfCheck
  try extract_lets
  repeat' first
    | with_reducible assumption
    | ((with_reducible refine Within.of hm ?_); exact rfl)
    | intro _
    | with_reducible apply AltersOut.next
    | with_reducible apply alters_audit
    | with_reducible apply alters_tampered
    | with_reducible apply alters_modMeter
    | with_reducible apply AltersOut.ite
    | with_reducible apply Alters.ite
    | with_reducible apply Alters.foldl
    | with_reducible apply Alters.foldlP (p := Prod.snd)
    | with_reducible apply Alters.foldlP (p := Prod.fst)
    | with_reducible apply Alters.foldlT
    | split
    | simp +zetaDelta only [AltersF.mkIff]
    | assumption

theorem alters_cfgParam {M : Nat} {r : State} (v : Nat) (s : State) (h2 : Alters M r s) (hm : Within 35184372088832 M) :
    Alters M r (cfgParam v s) := by
  unfold cfgParam
  try extract_lets
  repeat' first
    | with_reducible assumption
    | ((with_reducible refine Within.of hm ?_); exact rfl)
    | intro _
    | with_reducible apply alters_paramWrite
    | simp +zetaDelta only [AltersF.mkIff]
    | assumption

theorem alters_execMtrCfg {M : Nat} {r : State} (v : Word) (s : State) (h2 : Alters M r s) (hm : Within 35184372088832 M) :
    AltersOut M r (execMtrCfg v s) := by
  unfold execMtrCfg
  try extract_lets
  repeat' first
    | with_reducible assumption
    | ((with_reducible refine Within.of hm ?_); exact rfl)
    | intro _
    | with_reducible apply AltersOut.next
    | with_reducible apply alters_cfgParam
    | simp +zetaDelta only [AltersF.mkIff]
    | assumption

theorem alters_paramBytes {M : Nat} {r : State} (ix : Nat) (v : List Byte) (s : State) (h3 : Alters M r s) (hm : Within 35184372088832 M) :
    Alters M r (paramBytes ix v s) := by
  unfold paramBytes
  try extract_lets
  repeat' first
    | with_reducible assumption
    | ((with_reducible refine Within.of hm ?_); exact rfl)
    | intro _
    | with_reducible apply alters_audit
    | with_reducible apply alters_cfgParam
    | with_reducible apply alters_labelParam
    | with_reducible apply alters_sealParam
    | with_reducible apply Alters.ite
    | split
    | simp +zetaDelta only [AltersF.mkIff]
    | assumption

theorem alters_execMeterRecordRequest {M : Nat} {r : State} (bytes : List Byte) (s : State) (h2 : Alters M r s) (hm : Within 35184372088832 M) :
    AltersOut M r (execMeterRecordRequest bytes s) := by
  unfold execMeterRecordRequest
  try extract_lets
  repeat' first
    | with_reducible assumption
    | ((with_reducible refine Within.of hm ?_); exact rfl)
    | intro _
    | with_reducible apply AltersOut.next
    | with_reducible apply alters_modMeter
    | with_reducible apply alters_paramBytes
    | with_reducible apply AltersOut.ite
    | with_reducible apply Alters.ite
    | split
    | simp +zetaDelta only [AltersF.mkIff]
    | assumption

end Sys2Proof.Laws
end

