-- ==== Sys2Proof/Laws/AltersMoverRows.lean ====
section
/-! SUPPORT. Laws/AltersMoverRows.lean: which kinds of state the operations of Machine/MoverRows.lean may change (Laws/Alters.lean). -/
namespace Sys2Proof.Laws
open Sys2Proof.Machine
set_option linter.all false

theorem alters_spillNow {M : Nat} {r : State} (n : Nat) (m : Nat) (c : Nat) (ctx : Nat) (x : Ctx) (st : Store) (pk : Nat) (img : Nat) (s : State) (h9 : Alters M r s) (hm : Within 620625855267 M) :
    Alters M r (spillNow n m c ctx x st pk img s) := by
  unfold spillNow
  try extract_lets
  repeat' first
    | with_reducible assumption
    | ((with_reducible refine Within.of hm ?_); exact rfl)
    | intro _
    | with_reducible apply alters_dropReuse
    | with_reducible apply alters_modCtx
    | with_reducible apply alters_readRng
    | with_reducible apply alters_extStore
    | with_reducible apply alters_teleAdd
    | with_reducible apply alters_startClear
    | with_reducible apply alters_modChan
    | with_reducible apply Alters.ite
    | (refine Alters.snd (by assumption) ?_)
    | (refine Alters.fst (by assumption) ?_)
    | (refine Alters.thd (by assumption) ?_)
    | split
    | simp +zetaDelta only [AltersF.mkIff]
    | assumption

theorem alters_spillDrain {M : Nat} {r : State} (n : Nat) (m : Nat) (c : Nat) (ctx : Nat) (x : Ctx) (st : Store) (pk : Nat) (img : Nat) (s : State) (h9 : Alters M r s) (hm : Within 4504658339889983 M) :
    Alters M r (spillDrain n m c ctx x st pk img s) := by
  unfold spillDrain
  try extract_lets
  repeat' first
    | with_reducible assumption
    | ((with_reducible refine Within.of hm ?_); exact rfl)
    | intro _
    | with_reducible apply alters_drainPocket
    | with_reducible apply alters_modChan
    | with_reducible apply alters_spillNow
    | with_reducible apply Alters.ite
    | split
    | simp +zetaDelta only [AltersF.mkIff]
    | assumption

theorem alters_chanStart {M : Nat} {r : State} (n : Nat) (m : Nat) (c : Nat) (s : State) (h4 : Alters M r s) (hm : Within 549755813888 M) :
    Alters M r (chanStart n m c s).2 := by
  unfold chanStart
  try extract_lets
  repeat' first
    | with_reducible assumption
    | ((with_reducible refine Within.of hm ?_); exact rfl)
    | intro _
    | with_reducible apply alters_modChan
    | with_reducible apply Alters.iteS
    | with_reducible apply Alters.ite
    | split
    | simp +zetaDelta only [AltersF.mkIff]
    | assumption

theorem alters_mchCtlWrite {M : Nat} {r : State} (n : Nat) (m : Nat) (c : Nat) (v : Nat) (by_ : RegBy) (s : State) (h6 : Alters M r s) (hm : Within 4508959746623488 M) :
    Alters M r (mchCtlWrite n m c v by_ s).2 := by
  unfold mchCtlWrite
  try extract_lets
  repeat' first
    | with_reducible assumption
    | ((with_reducible refine Within.of hm ?_); exact rfl)
    | intro _
    | with_reducible apply alters_reservedReg
    | with_reducible apply alters_dropReg
    | with_reducible apply alters_chanStart
    | with_reducible apply alters_regPut
    | with_reducible apply alters_touch
    | with_reducible apply alters_modChan
    | with_reducible apply alters_beginStop
    | with_reducible apply Alters.iteS
    | with_reducible apply Alters.ite
    | (refine Alters.snd (by assumption) ?_)
    | (refine Alters.fst (by assumption) ?_)
    | (refine Alters.thd (by assumption) ?_)
    | split
    | simp +zetaDelta only [AltersF.mkIff]
    | assumption

theorem alters_mchParamWrite {M : Nat} {r : State} (n : Nat) (m : Nat) (c : Nat) (off : Nat) (v : Nat) (by_ : RegBy) (s : State) (h7 : Alters M r s) (hm : Within 67584 M) :
    Alters M r (mchParamWrite n m c off v by_ s).2 := by
  unfold mchParamWrite
  try extract_lets
  repeat' first
    | with_reducible assumption
    | ((with_reducible refine Within.of hm ?_); exact rfl)
    | intro _
    | with_reducible apply alters_dropReg
    | with_reducible apply alters_regPut
    | with_reducible apply Alters.iteS
    | with_reducible apply Alters.ite
    | split
    | simp +zetaDelta only [AltersF.mkIff]
    | assumption

theorem alters_rowMoved {M : Nat} {r : State} (n : Nat) (m : Nat) (c : Nat) (ctx : Nat) (p : Piece) (s : State) (h6 : Alters M r s) (hm : Within 549758109696 M) :
    Alters M r (rowMoved n m c ctx p s) := by
  unfold rowMoved
  try extract_lets
  repeat' first
    | with_reducible assumption
    | ((with_reducible refine Within.of hm ?_); exact rfl)
    | intro _
    | with_reducible apply alters_modChan
    | with_reducible apply alters_recordMiss
    | with_reducible apply Alters.ite
    | (refine Alters.snd (by assumption) ?_)
    | (refine Alters.fst (by assumption) ?_)
    | (refine Alters.thd (by assumption) ?_)
    | split
    | simp +zetaDelta only [AltersF.mkIff]
    | assumption

theorem alters_retireExt {M : Nat} {r : State} (n : Nat) (m : Nat) (c : Nat) (ctx : Nat) (x : Ctx) (p : Piece) (s : State) (h7 : Alters M r s) (hm : Within 4504561700307712 M) :
    Alters M r (retireExt n m c ctx x p s) := by
  unfold retireExt
  try extract_lets
  repeat' first
    | with_reducible assumption
    | ((with_reducible refine Within.of hm ?_); exact rfl)
    | intro _
    | with_reducible apply alters_extStore
    | with_reducible apply alters_teleAdd
    | with_reducible apply alters_failNow
    | with_reducible apply Alters.ite
    | (refine Alters.snd (by assumption) ?_)
    | (refine Alters.fst (by assumption) ?_)
    | (refine Alters.thd (by assumption) ?_)
    | split
    | simp +zetaDelta only [AltersF.mkIff]
    | assumption

theorem alters_stageOverflow {M : Nat} {r : State} (n : Nat) (m : Nat) (s : State) (h3 : Alters M r s) (hm : Within 4504561702600764 M) :
    Alters M r (stageOverflow n m s) := by
  unfold stageOverflow
  try extract_lets
  repeat' first
    | with_reducible assumption
    | ((with_reducible refine Within.of hm ?_); exact rfl)
    | intro _
    | with_reducible apply alters_drainList
    | simp +zetaDelta only [AltersF.mkIff]
    | assumption

theorem alters_stagePart {M : Nat} {r : State} (n : Nat) (m : Nat) (c : Nat) (ctx : Nat) (base : Nat) (bs : List (Nat × Byte)) (s : State) (h7 : Alters M r s) (hm : Within 549755813890 M) :
    Alters M r (stagePart n m c ctx base bs s) := by
  unfold stagePart
  try extract_lets
  repeat' first
    | with_reducible assumption
    | ((with_reducible refine Within.of hm ?_); exact rfl)
    | intro _
    | with_reducible apply alters_setStage
    | with_reducible apply alters_freshId
    | with_reducible apply Alters.foldl
    | with_reducible apply Alters.foldlP (p := Prod.snd)
    | with_reducible apply Alters.foldlP (p := Prod.fst)
    | with_reducible apply Alters.foldlT
    | (refine Alters.snd (by assumption) ?_)
    | (refine Alters.fst (by assumption) ?_)
    | (refine Alters.thd (by assumption) ?_)
    | split
    | simp +zetaDelta only [AltersF.mkIff]
    | assumption

theorem alters_retireRange {M : Nat} {r : State} (n : Nat) (m : Nat) (c : Nat) (ctx : Nat) (x : Ctx) (g : Bool) (base : Nat) (bs : List (Nat × Byte)) (s : State) (h9 : Alters M r s) (hm : Within 4504561702600766 M) :
    Alters M r (retireRange n m c ctx x g base bs s) := by
  unfold retireRange
  try extract_lets
  repeat' first
    | with_reducible assumption
    | ((with_reducible refine Within.of hm ?_); exact rfl)
    | intro _
    | with_reducible apply alters_drainList
    | with_reducible apply alters_writeBytes
    | with_reducible apply alters_teleMove
    | with_reducible apply alters_failNow
    | with_reducible apply alters_stageOverflow
    | with_reducible apply alters_stagePart
    | with_reducible apply Alters.ite
    | (refine Alters.snd (by assumption) ?_)
    | (refine Alters.fst (by assumption) ?_)
    | (refine Alters.thd (by assumption) ?_)
    | split
    | simp +zetaDelta only [AltersF.mkIff]
    | assumption

theorem alters_retireStore {M : Nat} {r : State} (n : Nat) (m : Nat) (c : Nat) (ctx : Nat) (x : Ctx) (p : Piece) (s : State) (h7 : Alters M r s) (hm : Within 4504561702600766 M) :
    Alters M r (retireStore n m c ctx x p s) := by
  unfold retireStore
  try extract_lets
  repeat' first
    | with_reducible assumption
    | ((with_reducible refine Within.of hm ?_); exact rfl)
    | intro _
    | with_reducible apply alters_retireRange
    | with_reducible apply Alters.foldl
    | with_reducible apply Alters.foldlP (p := Prod.snd)
    | with_reducible apply Alters.foldlP (p := Prod.fst)
    | with_reducible apply Alters.foldlT
    | (refine Alters.snd (by assumption) ?_)
    | (refine Alters.fst (by assumption) ?_)
    | (refine Alters.thd (by assumption) ?_)
    | split
    | simp +zetaDelta only [AltersF.mkIff]
    | assumption

theorem alters_retireOn {M : Nat} {r : State} (n : Nat) (m : Nat) (c : Nat) (x : Ctx) (p : Piece) (s : State) (h6 : Alters M r s) (hm : Within 4504561702603582 M) :
    Alters M r (retireOn n m c x p s) := by
  unfold retireOn
  try extract_lets
  repeat' first
    | with_reducible assumption
    | ((with_reducible refine Within.of hm ?_); exact rfl)
    | intro _
    | with_reducible apply alters_failNow
    | with_reducible apply alters_modChan
    | with_reducible apply alters_rowMoved
    | with_reducible apply alters_retireExt
    | with_reducible apply alters_retireStore
    | with_reducible apply Alters.ite
    | (refine Alters.snd (by assumption) ?_)
    | (refine Alters.fst (by assumption) ?_)
    | (refine Alters.thd (by assumption) ?_)
    | split
    | simp +zetaDelta only [AltersF.mkIff]
    | assumption

theorem alters_chanWait {M : Nat} {r : State} (n : Nat) (m : Nat) (c : Nat) (ph : Nat) (ch : Chan) (ws : List Word) (s : State) (h7 : Alters M r s) (hm : Within 36029621652684802 M) :
    Alters M r (chanWait n m c ph ch ws s) := by
  unfold chanWait
  try extract_lets
  repeat' first
    | with_reducible assumption
    | ((with_reducible refine Within.of hm ?_); exact rfl)
    | intro _
    | with_reducible apply alters_oweHalt
    | with_reducible apply alters_modChan
    | with_reducible apply alters_putCounter
    | with_reducible apply alters_freshId
    | exact syncAlters_waiters _ _ (Within.of hm rfl)
    | exact syncAlters_rest _ _ (Within.of hm rfl) rfl
    | exact syncAlters_any _ _ (Within.of hm rfl)
    | with_reducible apply Alters.ite
    | (refine Alters.snd (by assumption) ?_)
    | (refine Alters.fst (by assumption) ?_)
    | (refine Alters.thd (by assumption) ?_)
    | with_reducible apply alters_set_sync
    | simp only [AltersF.mkIff]
    | split
    | simp +zetaDelta only [AltersF.mkIff]
    | assumption

theorem alters_execPieceRetire {M : Nat} {r : State} (n : Nat) (m : Nat) (c : Nat) (s : State) (h4 : Alters M r s) (hm : Within 4508959749114686 M) :
    AltersOut M r (execPieceRetire n m c s) := by
  unfold execPieceRetire
  try extract_lets
  repeat' first
    | with_reducible assumption
    | ((with_reducible refine Within.of hm ?_); exact rfl)
    | intro _
    | with_reducible apply AltersOut.next
    | with_reducible apply alters_whenAwake
    | with_reducible apply alters_retireOn
    | with_reducible apply AltersOut.ite
    | with_reducible apply Alters.ite
    | (refine Alters.snd (by assumption) ?_)
    | (refine Alters.fst (by assumption) ?_)
    | (refine Alters.thd (by assumption) ?_)
    | split
    | simp +zetaDelta only [AltersF.mkIff]
    | assumption

theorem alters_chanAwake {M : Nat} {r : State} (n : Nat) (m : Nat) (c : Nat) (more : List Nat) (s : State) (f : State → State) (h5 : Alters M r s) (h6 : ∀ a0, Alters M r a0 → Alters M r (f a0)) (hm : Within 4398046511104 M) :
    Alters M r (chanAwake n m c more s f) := by
  unfold chanAwake
  try extract_lets
  repeat' first
    | with_reducible assumption
    | ((with_reducible refine Within.of hm ?_); exact rfl)
    | intro _
    | with_reducible apply h6
    | with_reducible apply alters_whenAwake
    | with_reducible apply Alters.ite
    | split
    | simp +zetaDelta only [AltersF.mkIff]
    | assumption

theorem alters_chanEnd {M : Nat} {r : State} (n : Nat) (m : Nat) (c : Nat) (s : State) (h4 : Alters M r s) (hm : Within 4504561702600764 M) :
    Alters M r (chanEnd n m c s) := by
  unfold chanEnd
  try extract_lets
  repeat' first
    | with_reducible assumption
    | ((with_reducible refine Within.of hm ?_); exact rfl)
    | intro _
    | with_reducible apply alters_drainChan
    | with_reducible apply alters_modChan
    | with_reducible apply Alters.ite
    | split
    | simp +zetaDelta only [AltersF.mkIff]
    | assumption

theorem alters_execMoverEnd {M : Nat} {r : State} (n : Nat) (m : Nat) (c : Nat) (s : State) (h4 : Alters M r s) (hm : Within 4508959749111868 M) :
    AltersOut M r (execMoverEnd n m c s) := by
  unfold execMoverEnd
  try extract_lets
  repeat' first
    | with_reducible assumption
    | ((with_reducible refine Within.of hm ?_); exact rfl)
    | intro _
    | with_reducible apply AltersOut.next
    | with_reducible apply alters_chanAwake
    | with_reducible apply alters_chanEnd
    | with_reducible apply AltersOut.ite
    | with_reducible apply Alters.ite
    | (refine Alters.snd (by assumption) ?_)
    | (refine Alters.fst (by assumption) ?_)
    | (refine Alters.thd (by assumption) ?_)
    | split
    | simp +zetaDelta only [AltersF.mkIff]
    | assumption

theorem alters_admitRow {M : Nat} {r : State} (n : Nat) (m : Nat) (c : Nat) (x : Ctx) (ch : Chan) (ws : List Word) (a : Rng) (b : Rng) (s : State) (h9 : Alters M r s) (hm : Within 687194898432 M) :
    Alters M r (admitRow n m c x ch ws a b s) := by
  unfold admitRow
  try extract_lets
  repeat' first
    | with_reducible assumption
    | ((with_reducible refine Within.of hm ?_); exact rfl)
    | intro _
    | with_reducible apply alters_modChan
    | with_reducible apply alters_gTele
    | with_reducible apply alters_gTake
    | with_reducible apply Alters.ite
    | (refine Alters.snd (by assumption) ?_)
    | (refine Alters.fst (by assumption) ?_)
    | (refine Alters.thd (by assumption) ?_)
    | split
    | simp +zetaDelta only [AltersF.mkIff]
    | assumption

theorem alters_readPiece {M : Nat} {r : State} (n : Nat) (m : Nat) (c : Nat) (x : Ctx) (ws : List Word) (s : State) (h6 : Alters M r s) (hm : Within 4504286824693795 M) :
    Alters M r (readPiece n m c x ws s) := by
  unfold readPiece
  dsimp only
  split
  · next a b _ _ =>
    split
    · exact alters_oweHalt _ _ _ _ _ _ h6 (hm.of rfl)
    · split
      · exact h6
      · have k1 := alters_admitRow n m c x (chanOf s n m c) ws a b _ h6 (hm.of rfl)
        split
        · exact alters_oweHalt _ _ _ _ _ _ k1 (hm.of rfl)
        · have k2 := alters_readRng { ctx := chanCtx s n m c, who := .nobody } x a _ k1 (hm.of rfl)
          split
          · exact alters_oweHalt _ _ _ _ _ _ k2 (hm.of rfl)
          · with_reducible refine alters_modChan _ _ _ _ _ (alters_addWorks _ _ _ _ _ _ _ _ _ ?_ (hm.of rfl)) (hm.of rfl)
            exact alters_freshId _ k2 (hm.of rfl)
  · exact alters_oweHalt _ _ _ _ _ _ h6 (hm.of rfl)

theorem alters_fillNow {M : Nat} {r : State} (n : Nat) (m : Nat) (c : Nat) (ctx : Nat) (x : Ctx) (st : Store) (pk : Nat) (img : Nat) (s : State) (h9 : Alters M r s) (hm : Within 549758894140 M) :
    Alters M r (fillNow n m c ctx x st pk img s) := by
  unfold fillNow
  try extract_lets
  repeat' first
    | with_reducible assumption
    | ((with_reducible refine Within.of hm ?_); exact rfl)
    | intro _
    | with_reducible apply alters_modCtx
    | with_reducible apply alters_writeBytes
    | with_reducible apply alters_teleAdd
    | with_reducible apply alters_teleMove
    | with_reducible apply alters_modChan
    | with_reducible apply alters_oweHalt
    | with_reducible apply Alters.ite
    | (refine Alters.snd (by assumption) ?_)
    | (refine Alters.fst (by assumption) ?_)
    | (refine Alters.thd (by assumption) ?_)
    | split
    | simp +zetaDelta only [AltersF.mkIff]
    | assumption

theorem alters_mfillOn {M : Nat} {r : State} (n : Nat) (m : Nat) (c : Nat) (x : Ctx) (ch : Chan) (ws : List Word) (s : State) (h7 : Alters M r s) (hm : Within 549758894140 M) :
    Alters M r (mfillOn n m c x ch ws s) := by
  unfold mfillOn
  try extract_lets
  repeat' first
    | with_reducible assumption
    | ((with_reducible refine Within.of hm ?_); exact rfl)
    | intro _
    | with_reducible apply alters_oweHalt
    | with_reducible apply alters_fillNow
    | with_reducible apply Alters.ite
    | (refine Alters.snd (by assumption) ?_)
    | (refine Alters.fst (by assumption) ?_)
    | (refine Alters.thd (by assumption) ?_)
    | split
    | simp +zetaDelta only [AltersF.mkIff]
    | assumption

theorem alters_execMoverFill {M : Nat} {r : State} (n : Nat) (m : Nat) (c : Nat) (s : State) (h4 : Alters M r s) (hm : Within 4947805405244 M) :
    AltersOut M r (execMoverFill n m c s) := by
  unfold execMoverFill
  try extract_lets
  repeat' first
    | with_reducible assumption
    | ((with_reducible refine Within.of hm ?_); exact rfl)
    | intro _
    | with_reducible apply AltersOut.next
    | with_reducible apply alters_chanAwake
    | with_reducible apply alters_mfillOn
    | with_reducible apply AltersOut.ite
    | with_reducible apply Alters.ite
    | (refine Alters.snd (by assumption) ?_)
    | (refine Alters.fst (by assumption) ?_)
    | (refine Alters.thd (by assumption) ?_)
    | split
    | simp +zetaDelta only [AltersF.mkIff]
    | assumption

theorem alters_spillOn {M : Nat} {r : State} (n : Nat) (m : Nat) (c : Nat) (x : Ctx) (ch : Chan) (ws : List Word) (s : State) (h7 : Alters M r s) (hm : Within 4504658339889983 M) :
    Alters M r (spillOn n m c x ch ws s) := by
  unfold spillOn
  try extract_lets
  repeat' first
    | with_reducible assumption
    | ((with_reducible refine Within.of hm ?_); exact rfl)
    | intro _
    | with_reducible apply alters_oweHalt
    | with_reducible apply alters_spillDrain
    | with_reducible apply Alters.ite
    | (refine Alters.snd (by assumption) ?_)
    | (refine Alters.fst (by assumption) ?_)
    | (refine Alters.thd (by assumption) ?_)
    | split
    | simp +zetaDelta only [AltersF.mkIff]
    | assumption

theorem alters_execSpill {M : Nat} {r : State} (n : Nat) (m : Nat) (c : Nat) (s : State) (h4 : Alters M r s) (hm : Within 4509056386401087 M) :
    AltersOut M r (execSpill n m c s) := by
  unfold execSpill
  try extract_lets
  repeat' first
    | with_reducible assumption
    | ((with_reducible refine Within.of hm ?_); exact rfl)
    | intro _
    | with_reducible apply AltersOut.next
    | with_reducible apply alters_chanAwake
    | with_reducible apply alters_spillDrain
    | with_reducible apply alters_spillOn
    | with_reducible apply AltersOut.ite
    | with_reducible apply Alters.ite
    | (refine Alters.snd (by assumption) ?_)
    | (refine Alters.fst (by assumption) ?_)
    | (refine Alters.thd (by assumption) ?_)
    | split
    | simp +zetaDelta only [AltersF.mkIff]
    | assumption

theorem alters_moveOn {M : Nat} {r : State} (n : Nat) (m : Nat) (c : Nat) (x : Ctx) (ch : Chan) (ws : List Word) (s : State) (h7 : Alters M r s) (hm : Within 4504286824693795 M) :
    Alters M r (moveOn n m c x ch ws s) := by
  unfold moveOn
  try extract_lets
  repeat' first
    | with_reducible assumption
    | ((with_reducible refine Within.of hm ?_); exact rfl)
    | intro _
    | with_reducible apply alters_readPiece
    | with_reducible apply alters_oweHalt
    | with_reducible apply alters_teleAdd
    | with_reducible apply alters_gTele
    | with_reducible apply alters_modChan
    | with_reducible apply Alters.ite
    | (refine Alters.snd (by assumption) ?_)
    | (refine Alters.fst (by assumption) ?_)
    | (refine Alters.thd (by assumption) ?_)
    | split
    | simp +zetaDelta only [AltersF.mkIff]
    | assumption

theorem alters_tookChan {M : Nat} {r : State} (n : Nat) (m : Nat) (c : Nat) (s : State) (h4 : Alters M r s) (hm : Within 549755813888 M) :
    Alters M r (tookChan n m c s) := by
  unfold tookChan
  try extract_lets
  repeat' first
    | with_reducible assumption
    | ((with_reducible refine Within.of hm ?_); exact rfl)
    | intro _
    | with_reducible apply alters_set_movers
    | simp only [AltersF.mkIff]
    | simp +zetaDelta only [AltersF.mkIff]
    | assumption

theorem alters_execMove {M : Nat} {r : State} (n : Nat) (m : Nat) (c : Nat) (s : State) (h4 : Alters M r s) (hm : Within 4508684871204899 M) :
    AltersOut M r (execMove n m c s) := by
  unfold execMove
  try extract_lets
  repeat' first
    | with_reducible assumption
    | ((with_reducible refine Within.of hm ?_); exact rfl)
    | intro _
    | with_reducible apply AltersOut.next
    | with_reducible apply alters_whenAwake
    | with_reducible apply alters_moveOn
    | with_reducible apply alters_tookChan
    | with_reducible apply AltersOut.ite
    | with_reducible apply Alters.ite
    | (refine Alters.snd (by assumption) ?_)
    | (refine Alters.fst (by assumption) ?_)
    | (refine Alters.thd (by assumption) ?_)
    | split
    | simp +zetaDelta only [AltersF.mkIff]
    | assumption

theorem alters_execLoop {M : Nat} {r : State} (n : Nat) (m : Nat) (c : Nat) (s : State) (h4 : Alters M r s) (hm : Within 4947802324992 M) :
    AltersOut M r (execLoop n m c s) := by
  unfold execLoop
  try extract_lets
  repeat' first
    | with_reducible assumption
    | ((with_reducible refine Within.of hm ?_); exact rfl)
    | intro _
    | with_reducible apply AltersOut.next
    | with_reducible apply alters_chanAwake
    | with_reducible apply alters_modChan
    | (refine Alters.snd (by assumption) ?_)
    | (refine Alters.fst (by assumption) ?_)
    | (refine Alters.thd (by assumption) ?_)
    | split
    | simp +zetaDelta only [AltersF.mkIff]
    | assumption

theorem alters_stopDone {M : Nat} {r : State} (n : Nat) (m : Nat) (c : Nat) (s : State) (h4 : Alters M r s) (hm : Within 4505668730424124 M) :
    Alters M r (stopDone n m c s) := by
  unfold stopDone
  try extract_lets
  repeat' first
    | with_reducible assumption
    | ((with_reducible refine Within.of hm ?_); exact rfl)
    | intro _
    | with_reducible apply alters_drainChan
    | with_reducible apply alters_extWrite
    | with_reducible apply alters_modChan
    | with_reducible apply alters_finishAll
    | with_reducible apply alters_chanStart
    | with_reducible apply Alters.ite
    | (refine Alters.snd (by assumption) ?_)
    | (refine Alters.fst (by assumption) ?_)
    | (refine Alters.thd (by assumption) ?_)
    | split
    | simp +zetaDelta only [AltersF.mkIff]
    | assumption

theorem alters_execMoverStopDone {M : Nat} {r : State} (n : Nat) (m : Nat) (c : Nat) (s : State) (h4 : Alters M r s) (hm : Within 4505668730424124 M) :
    AltersOut M r (execMoverStopDone n m c s) := by
  unfold execMoverStopDone
  try extract_lets
  repeat' first
    | with_reducible assumption
    | ((with_reducible refine Within.of hm ?_); exact rfl)
    | intro _
    | with_reducible apply AltersOut.next
    | with_reducible apply alters_stopDone
    | with_reducible apply AltersOut.ite
    | with_reducible apply Alters.ite
    | split
    | simp +zetaDelta only [AltersF.mkIff]
    | assumption

theorem alters_chanSignal {M : Nat} {r : State} (n : Nat) (m : Nat) (c : Nat) (ch : Chan) (ws : List Word) (s : State) (h6 : Alters M r s) (hm : Within 40534459306934332 M) :
    Alters M r (chanSignal n m c ch ws s) := by
  unfold chanSignal
  try extract_lets
  repeat' first
    | with_reducible assumption
    | ((with_reducible refine Within.of hm ?_); exact rfl)
    | intro _
    | with_reducible apply alters_drainChan
    | with_reducible apply alters_oweHalt
    | with_reducible apply alters_signalCounter
    | with_reducible apply alters_modChan
    | with_reducible apply Alters.ite
    | (refine Alters.snd (by assumption) ?_)
    | (refine Alters.fst (by assumption) ?_)
    | (refine Alters.thd (by assumption) ?_)
    | split
    | simp +zetaDelta only [AltersF.mkIff]
    | assumption

theorem alters_execMoverWait {M : Nat} {r : State} (n : Nat) (m : Nat) (c : Nat) (s : State) (h4 : Alters M r s) (hm : Within 36034019699195906 M) :
    AltersOut M r (execMoverWait n m c s) := by
  unfold execMoverWait
  try extract_lets
  repeat' first
    | with_reducible assumption
    | ((with_reducible refine Within.of hm ?_); exact rfl)
    | intro _
    | with_reducible apply AltersOut.next
    | with_reducible apply alters_chanAwake
    | with_reducible apply alters_chanWait
    | with_reducible apply alters_oweHalt
    | (refine Alters.snd (by assumption) ?_)
    | (refine Alters.fst (by assumption) ?_)
    | (refine Alters.thd (by assumption) ?_)
    | split
    | simp +zetaDelta only [AltersF.mkIff]
    | assumption

theorem alters_execMoverSignal {M : Nat} {r : State} (n : Nat) (m : Nat) (c : Nat) (s : State) (h4 : Alters M r s) (hm : Within 40538857353445436 M) :
    AltersOut M r (execMoverSignal n m c s) := by
  unfold execMoverSignal
  try extract_lets
  repeat' first
    | with_reducible assumption
    | ((with_reducible refine Within.of hm ?_); exact rfl)
    | intro _
    | with_reducible apply AltersOut.next
    | with_reducible apply alters_chanAwake
    | with_reducible apply alters_chanSignal
    | with_reducible apply AltersOut.ite
    | with_reducible apply Alters.ite
    | (refine Alters.snd (by assumption) ?_)
    | (refine Alters.fst (by assumption) ?_)
    | (refine Alters.thd (by assumption) ?_)
    | split
    | simp +zetaDelta only [AltersF.mkIff]
    | assumption

theorem alters_execStagingAgeExpiry {M : Nat} {r : State} (n : Nat) (m : Nat) (entry : Nat) (s : State) (h4 : Alters M r s) (hm : Within 4504561702608956 M) :
    AltersOut M r (execStagingAgeExpiry n m entry s) := by
  unfold execStagingAgeExpiry
  try extract_lets
  repeat' first
    | with_reducible assumption
    | ((with_reducible refine Within.of hm ?_); exact rfl)
    | intro _
    | with_reducible apply AltersOut.next
    | with_reducible apply alters_drainStage
    | (refine Alters.snd (by assumption) ?_)
    | (refine Alters.fst (by assumption) ?_)
    | (refine Alters.thd (by assumption) ?_)
    | with_reducible apply alters_set_bcnt
    | simp only [AltersF.mkIff]
    | split
    | simp +zetaDelta only [AltersF.mkIff]
    | assumption

theorem alters_execMoverHalt {M : Nat} {r : State} (n : Nat) (m : Nat) (c : Nat) (s : State) (h4 : Alters M r s) (hm : Within 40538857353445436 M) :
    AltersOut M r (execMoverHalt n m c s) := by
  unfold execMoverHalt
  try extract_lets
  repeat' first
    | with_reducible assumption
    | ((with_reducible refine Within.of hm ?_); exact rfl)
    | intro _
    | with_reducible apply AltersOut.next
    | with_reducible apply alters_chanAwake
    | with_reducible apply alters_haltFirst
    | with_reducible apply AltersOut.ite
    | with_reducible apply Alters.ite
    | (refine Alters.snd (by assumption) ?_)
    | (refine Alters.fst (by assumption) ?_)
    | (refine Alters.thd (by assumption) ?_)
    | split
    | simp +zetaDelta only [AltersF.mkIff]
    | assumption

end Sys2Proof.Laws
end

