-- ==== Sys2Proof/Laws/AltersPackets.lean ====
section
/-! SUPPORT. Laws/AltersPackets.lean: which kinds of state the operations of Machine/Packets.lean may change (Laws/Alters.lean). -/
namespace Sys2Proof.Laws
open Sys2Proof.Machine
set_option linter.all false

theorem alters_nmuCfgWrite {M : Nat} {r : State} (n : Nat) (t : Nat) (v : Nat) (s : State) (h4 : Alters M r s) (hm : Within 2099200 M) :
    Alters M r (nmuCfgWrite n t v s).2 := by
  unfold nmuCfgWrite
  try extract_lets
  repeat' first
    | with_reducible assumption
    | ((with_reducible refine Within.of hm ?_); exact rfl)
    | intro _
    | with_reducible apply alters_regPut
    | with_reducible apply alters_modSlice
    | simp +zetaDelta only [AltersF.mkIff]
    | assumption

end Sys2Proof.Laws
end

