-- ==== Sys2Proof/Laws/AltersFail.lean ====
section
/-! SUPPORT. Laws/AltersFail.lean: which kinds of state the operations of Machine/Fail.lean may change (Laws/Alters.lean). -/
namespace Sys2Proof.Laws
open Sys2Proof.Machine
set_option linter.all false

theorem alters_dropEntry {M : Nat} {r : State} (st : Status) (s : State) (id : Nat) (h2 : Alters M r s) (hm : Within 72058864276801536 M) :
    Alters M r (dropEntry st s id) := by
  unfold dropEntry
  try extract_lets
  repeat' first
    | with_reducible assumption
    | ((with_reducible refine Within.of hm ?_); exact rfl)
    | intro _
    | with_reducible apply alters_entryServed
    | with_reducible apply alters_landBytes
    | with_reducible apply alters_commitEntry
    | with_reducible apply Alters.ite
    | (refine Alters.snd (by assumption) ?_)
    | (refine Alters.fst (by assumption) ?_)
    | (refine Alters.thd (by assumption) ?_)
    | with_reducible apply alters_set_beats
    | simp only [AltersF.mkIff]
    | split
    | simp +zetaDelta only [AltersF.mkIff]
    | assumption

theorem alters_dropEntries {M : Nat} {r : State} (es : List WbEntry) (st : Status) (s : State) (h3 : Alters M r s) (hm : Within 72058864276801536 M) :
    Alters M r (dropEntries es st s) := by
  unfold dropEntries
  try extract_lets
  repeat' first
    | with_reducible assumption
    | ((with_reducible refine Within.of hm ?_); exact rfl)
    | intro _
    | with_reducible apply alters_dropEntry
    | with_reducible apply Alters.foldl
    | with_reducible apply Alters.foldlP (p := Prod.snd)
    | with_reducible apply Alters.foldlP (p := Prod.fst)
    | with_reducible apply Alters.foldlT
    | simp +zetaDelta only [AltersF.mkIff]
    | assumption

theorem alters_endOps {M : Nat} {r : State} (p : PortOp → Bool) (st : Status) (s : State) (h3 : Alters M r s) (hm : Within 1123133949952 M) :
    Alters M r (endOps p st s) := by
  unfold endOps
  try extract_lets
  repeat' first
    | with_reducible assumption
    | ((with_reducible refine Within.of hm ?_); exact rfl)
    | intro _
    | with_reducible apply alters_respond
    | with_reducible apply Alters.foldl
    | with_reducible apply Alters.foldlP (p := Prod.snd)
    | with_reducible apply Alters.foldlP (p := Prod.fst)
    | with_reducible apply Alters.foldlT
    | with_reducible apply alters_set_beats
    | simp only [AltersF.mkIff]
    | simp +zetaDelta only [AltersF.mkIff]
    | assumption

theorem alters_loseObjects {M : Nat} {r : State} (n : Nat) (s : State) (h2 : Alters M r s) (hm : Within 36028797018963968 M) :
    Alters M r (loseObjects n s) := by
  unfold loseObjects
  try extract_lets
  repeat' first
    | with_reducible assumption
    | ((with_reducible refine Within.of hm ?_); exact rfl)
    | intro _
    | exact syncAlters_waiters _ _ (Within.of hm rfl)
    | exact syncAlters_rest _ _ (Within.of hm rfl) rfl
    | exact syncAlters_any _ _ (Within.of hm rfl)
    | with_reducible apply alters_set_sync
    | simp only [AltersF.mkIff]
    | simp +zetaDelta only [AltersF.mkIff]
    | assumption

theorem alters_wipeSlice {M : Nat} {r : State} (n : Nat) (s : State) (h2 : Alters M r s) (hm : Within 108088211257100412 M) :
    Alters M r (wipeSlice n s) := by
  unfold wipeSlice
  try extract_lets
  repeat' first
    | with_reducible assumption
    | ((with_reducible refine Within.of hm ?_); exact rfl)
    | intro _
    | with_reducible apply alters_dropEntries
    | with_reducible apply alters_endOps
    | with_reducible apply alters_loseObjects
    | with_reducible apply alters_setDb
    | with_reducible apply alters_setEnabled
    | with_reducible apply alters_dropQueue
    | with_reducible apply alters_zeroUnits
    | with_reducible apply alters_modSlice
    | with_reducible exact MemAlters.refl _ _
    | with_reducible apply memAlters_clearKeys
    | with_reducible apply memAlters_set_sys
    | with_reducible apply Alters.foldl
    | with_reducible apply Alters.foldlP (p := Prod.snd)
    | with_reducible apply Alters.foldlP (p := Prod.fst)
    | with_reducible apply Alters.foldlT
    | with_reducible apply alters_set_mem_ports_movers
    | simp only [AltersF.mkIff]
    | simp +zetaDelta only [AltersF.mkIff]
    | assumption

theorem alters_faultPart {M : Nat} {r : State} (st : Status) (p : Nat) (s : State) (h3 : Alters M r s) (hm : Within 113720184491935870 M) :
    Alters M r (faultPart st p s) := by
  unfold faultPart
  try extract_lets
  repeat' first
    | with_reducible assumption
    | ((with_reducible refine Within.of hm ?_); exact rfl)
    | intro _
    | with_reducible apply alters_endOps
    | with_reducible apply alters_faultCtx
    | with_reducible apply alters_endGrants
    | with_reducible apply alters_endDeferred
    | exact fabAlters_reqs _ _ (Within.of hm rfl)
    | exact fabAlters_rest _ _ (Within.of hm rfl) rfl
    | exact fabAlters_any _ _ (Within.of hm rfl)
    | with_reducible apply Alters.ite
    | with_reducible apply Alters.foldl
    | with_reducible apply Alters.foldlP (p := Prod.snd)
    | with_reducible apply Alters.foldlP (p := Prod.fst)
    | with_reducible apply Alters.foldlT
    | with_reducible apply alters_set_fab
    | simp only [AltersF.mkIff]
    | split
    | simp +zetaDelta only [AltersF.mkIff]
    | assumption

theorem alters_execSliceSupplyReturn {M : Nat} {r : State} (n : Nat) (s : State) (h2 : Alters M r s) (hm : Within 108088211258148988 M) :
    AltersOut M r (execSliceSupplyReturn n s) := by
  unfold execSliceSupplyReturn
  try extract_lets
  repeat' first
    | with_reducible assumption
    | ((with_reducible refine Within.of hm ?_); exact rfl)
    | intro _
    | with_reducible apply AltersOut.next
    | with_reducible apply alters_wipeSlice
    | with_reducible apply alters_modSlice
    | with_reducible apply alters_refreshTaint
    | with_reducible apply AltersOut.ite
    | with_reducible apply Alters.ite
    | (refine Alters.snd (by assumption) ?_)
    | (refine Alters.fst (by assumption) ?_)
    | (refine Alters.thd (by assumption) ?_)
    | split
    | simp +zetaDelta only [AltersF.mkIff]
    | assumption

theorem alters_failSlice {M : Nat} {r : State} (n : Nat) (cause : Nat) (s : State) (h3 : Alters M r s) (hm : Within 113720184491935870 M) :
    Alters M r (failSlice n cause s) := by
  unfold failSlice
  try extract_lets
  repeat' first
    | with_reducible assumption
    | ((with_reducible refine Within.of hm ?_); exact rfl)
    | intro _
    | with_reducible apply alters_modSlice
    | with_reducible apply alters_integAdd
    | with_reducible apply alters_report
    | with_reducible apply alters_raiseSvc
    | with_reducible apply alters_endOps
    | with_reducible apply alters_dropEntries
    | with_reducible apply alters_faultPart
    | with_reducible apply alters_loseObjects
    | with_reducible apply Alters.ite
    | (refine Alters.snd (by assumption) ?_)
    | (refine Alters.fst (by assumption) ?_)
    | (refine Alters.thd (by assumption) ?_)
    | with_reducible apply alters_set_cmds
    | with_reducible apply alters_set_movers
    | simp only [AltersF.mkIff]
    | split
    | simp +zetaDelta only [AltersF.mkIff]
    | assumption

theorem alters_execSliceFail {M : Nat} {r : State} (n : Nat) (cause : Nat) (s : State) (h3 : Alters M r s) (hm : Within 113720184491935870 M) :
    AltersOut M r (execSliceFail n cause s) := by
  unfold execSliceFail
  try extract_lets
  repeat' first
    | with_reducible assumption
    | ((with_reducible refine Within.of hm ?_); exact rfl)
    | intro _
    | with_reducible apply AltersOut.next
    | with_reducible apply alters_failSlice
    | simp +zetaDelta only [AltersF.mkIff]
    | assumption

theorem alters_execIvrPhaseFault {M : Nat} {r : State} (n : Nat) (s : State) (h2 : Alters M r s) (hm : Within 113720184491935870 M) :
    AltersOut M r (execIvrPhaseFault n s) := by
  unfold execIvrPhaseFault
  try extract_lets
  repeat' first
    | with_reducible assumption
    | ((with_reducible refine Within.of hm ?_); exact rfl)
    | intro _
    | with_reducible apply AltersOut.next
    | with_reducible apply alters_failSlice
    | with_reducible apply alters_raiseSvc
    | with_reducible apply alters_modSlice
    | with_reducible apply AltersOut.ite
    | with_reducible apply Alters.ite
    | split
    | simp +zetaDelta only [AltersF.mkIff]
    | assumption

theorem alters_execHeartbeatTimeout {M : Nat} {r : State} (n : Nat) (s : State) (h2 : Alters M r s) (hm : Within 113720184491968638 M) :
    AltersOut M r (execHeartbeatTimeout n s) := by
  unfold execHeartbeatTimeout
  try extract_lets
  repeat' first
    | with_reducible assumption
    | ((with_reducible refine Within.of hm ?_); exact rfl)
    | intro _
    | with_reducible apply AltersOut.next
    | with_reducible apply alters_failSlice
    | with_reducible apply alters_set_rc
    | simp only [AltersF.mkIff]
    | simp +zetaDelta only [AltersF.mkIff]
    | assumption

theorem alters_execSliceCut {M : Nat} {r : State} (n : Nat) (s : State) (h2 : Alters M r s) (hm : Within 113720184492984446 M) :
    AltersOut M r (execSliceCut n s) := by
  unfold execSliceCut
  try extract_lets
  repeat' first
    | with_reducible assumption
    | ((with_reducible refine Within.of hm ?_); exact rfl)
    | intro _
    | with_reducible apply AltersOut.next
    | with_reducible apply alters_modSlice
    | with_reducible apply alters_faultPart
    | with_reducible apply alters_setPart
    | with_reducible apply AltersOut.ite
    | with_reducible apply Alters.ite
    | (refine Alters.snd (by assumption) ?_)
    | (refine Alters.fst (by assumption) ?_)
    | (refine Alters.thd (by assumption) ?_)
    | split
    | simp +zetaDelta only [AltersF.mkIff]
    | assumption

end Sys2Proof.Laws
end

