-- ==== Sys2Proof/Laws/AltersPwrStates.lean ====
section
/-! SUPPORT. Laws/AltersPwrStates.lean: which kinds of state the operations of Machine/PwrStates.lean may change (Laws/Alters.lean). -/
namespace Sys2Proof.Laws
open Sys2Proof.Machine
set_option linter.all false

theorem alters_pwrRefuse {M : Nat} {r : State} (n : Nat) (st : Status) (kind : Nat) (id : Nat) (request : Bool) (s : State) (h6 : Alters M r s) (hm : Within 4398046511104 M) :
    Alters M r (pwrRefuse n st kind id request s) := by
  unfold pwrRefuse
  try extract_lets
  repeat' first
    | with_reducible assumption
    | ((with_reducible refine Within.of hm ?_); exact rfl)
    | intro _
    | with_reducible apply alters_modPwr
    | with_reducible apply Alters.ite
    | split
    | simp +zetaDelta only [AltersF.mkIff]
    | assumption

theorem alters_secureRefusal {M : Nat} {r : State} (p : Nat) (by_ : RegBy) (addr : Nat) (s : State) (h4 : Alters M r s) (hm : Within 1114112 M) :
    Alters M r (secureRefusal p by_ addr s) := by
  unfold secureRefusal
  try extract_lets
  repeat' first
    | with_reducible assumption
    | ((with_reducible refine Within.of hm ?_); exact rfl)
    | intro _
    | with_reducible apply alters_report
    | with_reducible apply alters_setPart
    | simp +zetaDelta only [AltersF.mkIff]
    | assumption

theorem alters_startPrepare {M : Nat} {r : State} (n : Nat) (target : PwrSt) (s : State) (h3 : Alters M r s) (hm : Within 4508985518915646 M) :
    Alters M r (startPrepare n target s) := by
  unfold startPrepare
  try extract_lets
  repeat' first
    | with_reducible assumption
    | ((with_reducible refine Within.of hm ?_); exact rfl)
    | intro _
    | with_reducible apply alters_issueAll
    | with_reducible apply alters_modPwr
    | with_reducible apply alters_drainList
    | with_reducible apply Alters.foldl
    | with_reducible apply Alters.foldlP (p := Prod.snd)
    | with_reducible apply Alters.foldlP (p := Prod.fst)
    | with_reducible apply Alters.foldlT
    | simp +zetaDelta only [AltersF.mkIff]
    | assumption

theorem alters_pwrTake {M : Nat} {r : State} (n : Nat) (op : Nat) (delayed : Bool) (by_ : RegBy) (s : State) (h5 : Alters M r s) (hm : Within 4508985519964222 M) :
    Alters M r (pwrTake n op delayed by_ s) := by
  unfold pwrTake
  try extract_lets
  repeat' first
    | with_reducible assumption
    | ((with_reducible refine Within.of hm ?_); exact rfl)
    | intro _
    | with_reducible apply alters_modPwr
    | with_reducible apply alters_pwrRefuse
    | with_reducible apply alters_secureRefusal
    | with_reducible apply alters_startPrepare
    | with_reducible apply Alters.ite
    | (refine Alters.snd (by assumption) ?_)
    | (refine Alters.fst (by assumption) ?_)
    | (refine Alters.thd (by assumption) ?_)
    | split
    | simp +zetaDelta only [AltersF.mkIff]
    | assumption

theorem alters_pwrCtlWrite {M : Nat} {r : State} (n : Nat) (v : Nat) (by_ : RegBy) (s : State) (h4 : Alters M r s) (hm : Within 4508985519966270 M) :
    Alters M r (pwrCtlWrite n v by_ s).2 := by
  unfold pwrCtlWrite
  try extract_lets
  repeat' first
    | with_reducible assumption
    | ((with_reducible refine Within.of hm ?_); exact rfl)
    | intro _
    | with_reducible apply alters_regPut
    | with_reducible apply alters_pwrTake
    | with_reducible apply alters_modPwr
    | with_reducible apply Alters.iteS
    | with_reducible apply Alters.ite
    | (refine Alters.snd (by assumption) ?_)
    | (refine Alters.fst (by assumption) ?_)
    | (refine Alters.thd (by assumption) ?_)
    | split
    | simp +zetaDelta only [AltersF.mkIff]
    | assumption

theorem alters_modCtl {M : Nat} {r : State} (f : CtlState → CtlState) (s : State) (h2 : Alters M r s) (hf : ∀ c : CtlState, (f c).pwr = c.pwr) (hm : Within 8796093022208 M) :
    Alters M r (modCtl f s) := by
  unfold modCtl
  simp only [AltersF.mkIff]
  exact alters_set_ctl h2 (ctlAlters_rest _ _ (hm.of rfl) (hf _))

theorem alters_deepTake {M : Nat} {r : State} (v : Nat) (by_ : RegBy) (s : State) (h3 : Alters M r s) (hm : Within 8796094152704 M) :
    Alters M r (deepTake v by_ s) := by
  unfold deepTake
  try extract_lets
  repeat' first
    | exact fun _ => rfl
    | with_reducible assumption
    | ((with_reducible refine Within.of hm ?_); exact rfl)
    | intro _
    | with_reducible apply alters_modCtl
    | with_reducible apply alters_secureRefusal
    | with_reducible apply Alters.ite
    | (refine Alters.snd (by assumption) ?_)
    | (refine Alters.fst (by assumption) ?_)
    | (refine Alters.thd (by assumption) ?_)
    | with_reducible apply alters_set_bcRun
    | simp only [AltersF.mkIff]
    | split
    | simp +zetaDelta only [AltersF.mkIff]
    | assumption

theorem alters_devPwrWrite {M : Nat} {r : State} (v : Nat) (by_ : RegBy) (s : State) (h3 : Alters M r s) (hm : Within 8796094154752 M) :
    Alters M r (devPwrWrite v by_ s).2 := by
  unfold devPwrWrite
  try extract_lets
  repeat' first
    | with_reducible assumption
    | ((with_reducible refine Within.of hm ?_); exact rfl)
    | intro _
    | with_reducible apply alters_deepTake
    | with_reducible apply alters_regPut
    | simp +zetaDelta only [AltersF.mkIff]
    | assumption

theorem alters_i3cWake {M : Nat} {r : State} (s : State) (h1 : Alters M r s) (hm : Within 8796093022208 M) :
    Alters M r (i3cWake s) := by
  unfold i3cWake
  try extract_lets
  repeat' first
    | exact fun _ => rfl
    | with_reducible assumption
    | ((with_reducible refine Within.of hm ?_); exact rfl)
    | intro _
    | with_reducible apply alters_modCtl
    | with_reducible apply Alters.ite
    | split
    | simp +zetaDelta only [AltersF.mkIff]
    | assumption

theorem alters_timerEntry {M : Nat} {r : State} (n : Nat) (target : PwrSt) (due : Nat) (s : State) (h4 : Alters M r s) (hm : Within 4508985518948414 M) :
    Alters M r (timerEntry n target due s) := by
  unfold timerEntry
  try extract_lets
  repeat' first
    | with_reducible assumption
    | ((with_reducible refine Within.of hm ?_); exact rfl)
    | intro _
    | with_reducible apply alters_pwrRefuse
    | with_reducible apply alters_startPrepare
    | (refine Alters.snd (by assumption) ?_)
    | (refine Alters.fst (by assumption) ?_)
    | (refine Alters.thd (by assumption) ?_)
    | with_reducible apply alters_set_rc
    | simp only [AltersF.mkIff]
    | split
    | simp +zetaDelta only [AltersF.mkIff]
    | assumption

theorem alters_execRetentionTimerExpiry {M : Nat} {r : State} (n : Nat) (s : State) (h2 : Alters M r s) (hm : Within 4508985518948414 M) :
    AltersOut M r (execRetentionTimerExpiry n s) := by
  unfold execRetentionTimerExpiry
  try extract_lets
  repeat' first
    | with_reducible assumption
    | ((with_reducible refine Within.of hm ?_); exact rfl)
    | intro _
    | with_reducible apply AltersOut.next
    | with_reducible apply alters_timerEntry
    | with_reducible apply AltersOut.ite
    | with_reducible apply Alters.ite
    | split
    | simp +zetaDelta only [AltersF.mkIff]
    | assumption

theorem alters_execPrepareDone {M : Nat} {r : State} (n : Nat) (s : State) (h2 : Alters M r s) (hm : Within 4398046511104 M) :
    AltersOut M r (execPrepareDone n s) := by
  unfold execPrepareDone
  try extract_lets
  repeat' first
    | with_reducible assumption
    | ((with_reducible refine Within.of hm ?_); exact rfl)
    | intro _
    | with_reducible apply AltersOut.next
    | with_reducible apply alters_modPwr
    | with_reducible apply AltersOut.ite
    | with_reducible apply Alters.ite
    | (refine Alters.snd (by assumption) ?_)
    | (refine Alters.fst (by assumption) ?_)
    | (refine Alters.thd (by assumption) ?_)
    | split
    | simp +zetaDelta only [AltersF.mkIff]
    | assumption

theorem alters_execI3cWake {M : Nat} {r : State} (s : State) (h1 : Alters M r s) (hm : Within 8796093022208 M) :
    AltersOut M r (execI3cWake s) := by
  unfold execI3cWake
  try extract_lets
  repeat' first
    | with_reducible assumption
    | ((with_reducible refine Within.of hm ?_); exact rfl)
    | intro _
    | with_reducible apply AltersOut.next
    | with_reducible apply alters_i3cWake
    | simp +zetaDelta only [AltersF.mkIff]
    | assumption

theorem alters_execIdleTimerExpiry {M : Nat} {r : State} (n : Nat) (s : State) (h2 : Alters M r s) (hm : Within 4508985518948414 M) :
    AltersOut M r (execIdleTimerExpiry n s) := by
  unfold execIdleTimerExpiry
  try extract_lets
  repeat' first
    | with_reducible assumption
    | ((with_reducible refine Within.of hm ?_); exact rfl)
    | intro _
    | with_reducible apply AltersOut.next
    | with_reducible apply alters_timerEntry
    | with_reducible apply AltersOut.ite
    | with_reducible apply Alters.ite
    | split
    | simp +zetaDelta only [AltersF.mkIff]
    | assumption

theorem alters_restTimers {M : Nat} {r : State} (s : State) (h1 : Alters M r s) (hm : Within 4398046511104 M) :
    Alters M r (restTimers s) := by
  unfold restTimers
  try extract_lets
  repeat' first
    | with_reducible assumption
    | ((with_reducible refine Within.of hm ?_); exact rfl)
    | intro _
    | with_reducible apply alters_modPwr
    | with_reducible apply Alters.ite
    | with_reducible apply Alters.foldl
    | with_reducible apply Alters.foldlP (p := Prod.snd)
    | with_reducible apply Alters.foldlP (p := Prod.fst)
    | with_reducible apply Alters.foldlT
    | split
    | simp +zetaDelta only [AltersF.mkIff]
    | assumption

theorem alters_resetSliceRegs {M : Nat} {r : State} (n : Nat) (s : State) (h2 : Alters M r s) (hm : Within 6144 M) :
    Alters M r (resetSliceRegs n s) := by
  unfold resetSliceRegs
  try extract_lets
  repeat' first
    | with_reducible assumption
    | ((with_reducible refine Within.of hm ?_); exact rfl)
    | intro _
    | with_reducible apply alters_set_regs_w1done
    | simp only [AltersF.mkIff]
    | simp +zetaDelta only [AltersF.mkIff]
    | assumption

theorem alters_pwrMore {M : Nat} {r : State} (v0 : Nat) (v1 : Nat) (v2 : State) (h3 : Alters M r v2) (hm : Within 4510092547786814 M) :
    Alters M r (pwrMore v0 v1 v2) := by
  induction v0 generalizing v2 with
  | zero => exact h3
  | succ k ih =>
    unfold pwrMore
    extract_lets p
    split
    · refine ih _ ?_
      split
      · exact alters_pwrTake _ _ _ _ _ (alters_modPwr _ _ _ h3 (hm.of rfl)) (hm.of rfl)
      · exact alters_finish _ _ _ (alters_pwrTake _ _ _ _ _ (alters_modPwr _ _ _ h3 (hm.of rfl)) (hm.of rfl)) (hm.of rfl)
    · exact h3

theorem alters_execEntryComplete {M : Nat} {r : State} (n : Nat) (s : State) (h2 : Alters M r s) (hm : Within 112596483810203774 M) :
    AltersOut M r (execEntryComplete n s) := by
  unfold execEntryComplete
  try extract_lets
  repeat' first
    | with_reducible assumption
    | ((with_reducible refine Within.of hm ?_); exact rfl)
    | intro _
    | with_reducible apply AltersOut.next
    | with_reducible apply alters_resetSliceRegs
    | with_reducible apply alters_wipeSlice
    | with_reducible apply alters_pwrMore
    | with_reducible apply alters_modPwr
    | with_reducible apply AltersOut.ite
    | with_reducible apply Alters.ite
    | (refine Alters.snd (by assumption) ?_)
    | (refine Alters.fst (by assumption) ?_)
    | (refine Alters.thd (by assumption) ?_)
    | split
    | simp +zetaDelta only [AltersF.mkIff]
    | assumption

theorem alters_loseGroups {M : Nat} {r : State} (n : Nat) (gs : List Nat) (s : State) (h3 : Alters M r s) (hm : Within 60 M) :
    Alters M r (loseGroups n gs s) := by
  unfold loseGroups
  try extract_lets
  repeat' first
    | with_reducible assumption
    | ((with_reducible refine Within.of hm ?_); exact rfl)
    | intro _
    | with_reducible exact MemAlters.refl _ _
    | with_reducible apply memAlters_clearKeys
    | with_reducible apply Alters.ite
    | with_reducible apply alters_set_mem
    | simp only [AltersF.mkIff]
    | split
    | simp +zetaDelta only [AltersF.mkIff]
    | assumption

theorem alters_execWakeDone {M : Nat} {r : State} (n : Nat) (s : State) (h2 : Alters M r s) (hm : Within 112596483810199678 M) :
    AltersOut M r (execWakeDone n s) := by
  unfold execWakeDone
  try extract_lets
  repeat' first
    | with_reducible assumption
    | ((with_reducible refine Within.of hm ?_); exact rfl)
    | intro _
    | with_reducible apply AltersOut.next
    | with_reducible apply alters_wipeSlice
    | with_reducible apply alters_loseGroups
    | with_reducible apply alters_modPwr
    | with_reducible apply alters_startPrepare
    | with_reducible apply alters_pwrMore
    | with_reducible apply AltersOut.ite
    | with_reducible apply Alters.ite
    | (refine Alters.snd (by assumption) ?_)
    | (refine Alters.fst (by assumption) ?_)
    | (refine Alters.thd (by assumption) ?_)
    | split
    | simp +zetaDelta only [AltersF.mkIff]
    | assumption

theorem alters_execMaPend {M : Nat} {r : State} (n : Nat) (s : State) (h2 : Alters M r s) (hm : Within 4398046511104 M) :
    AltersOut M r (execMaPend n s) := by
  unfold execMaPend
  try extract_lets
  repeat' first
    | with_reducible assumption
    | ((with_reducible refine Within.of hm ?_); exact rfl)
    | intro _
    | with_reducible apply AltersOut.next
    | with_reducible apply alters_touch
    | with_reducible apply AltersOut.ite
    | with_reducible apply Alters.ite
    | split
    | simp +zetaDelta only [AltersF.mkIff]
    | assumption

theorem alters_execWakeN {M : Nat} {r : State} (s : State) (h1 : Alters M r s) (hm : Within 8796093022208 M) :
    AltersOut M r (execWakeN s) := by
  unfold execWakeN
  try extract_lets
  repeat' first
    | exact fun _ => rfl
    | with_reducible assumption
    | ((with_reducible refine Within.of hm ?_); exact rfl)
    | intro _
    | with_reducible apply AltersOut.next
    | with_reducible apply alters_modCtl
    | with_reducible apply AltersOut.ite
    | with_reducible apply Alters.ite
    | split
    | simp +zetaDelta only [AltersF.mkIff]
    | assumption

theorem alters_execDeepExitDone {M : Nat} {r : State} (s : State) (h1 : Alters M r s) (hm : Within 8796093038592 M) :
    AltersOut M r (execDeepExitDone s) := by
  unfold execDeepExitDone
  try extract_lets
  repeat' first
    | exact fun _ => rfl
    | with_reducible assumption
    | ((with_reducible refine Within.of hm ?_); exact rfl)
    | intro _
    | with_reducible apply AltersOut.next
    | with_reducible apply alters_modCtl
    | with_reducible apply AltersOut.ite
    | with_reducible apply Alters.ite
    | with_reducible apply alters_set_bcRun
    | simp only [AltersF.mkIff]
    | split
    | simp +zetaDelta only [AltersF.mkIff]
    | assumption

end Sys2Proof.Laws
end

