-- ==== Sys2Proof/Laws/AltersParts.lean ====
section
/-! SUPPORT. Laws/AltersParts.lean: which kinds of state the operations of Machine/Parts.lean may change (Laws/Alters.lean). -/
namespace Sys2Proof.Laws
open Sys2Proof.Machine
set_option linter.all false

theorem alters_restoreRec {M : Nat} {r : State} (p : Nat) (s : State) (e : Nat × Nat × Bool × List Byte) (h2 : Alters M r s) (hm : Within 2097152 M) :
    Alters M r (restoreRec p s e) := by
  unfold restoreRec
  try extract_lets
  repeat' first
    | with_reducible assumption
    | ((with_reducible refine Within.of hm ?_); exact rfl)
    | intro _
    | with_reducible apply alters_modSlice
    | with_reducible apply Alters.ite
    | (refine Alters.snd (by assumption) ?_)
    | (refine Alters.fst (by assumption) ?_)
    | (refine Alters.thd (by assumption) ?_)
    | split
    | simp +zetaDelta only [AltersF.mkIff]
    | assumption

theorem alters_modPart {M : Nat} {r : State} (p : Nat) (f : PartRec → PartRec) (s : State) (h3 : Alters M r s) (hm : Within 1048576 M) :
    Alters M r (modPart p f s) := by
  unfold modPart
  try extract_lets
  repeat' first
    | with_reducible assumption
    | ((with_reducible refine Within.of hm ?_); exact rfl)
    | intro _
    | with_reducible apply alters_setPart
    | simp +zetaDelta only [AltersF.mkIff]
    | assumption

theorem alters_configure {M : Nat} {r : State} (p : Nat) (v : Nat) (by_ : RegBy) (delayed : Bool) (s : State) (h5 : Alters M r s) (hm : Within 1048576 M) :
    Alters M r (configure p v by_ delayed s) := by
  unfold configure
  try extract_lets
  repeat' first
    | with_reducible assumption
    | ((with_reducible refine Within.of hm ?_); exact rfl)
    | intro _
    | with_reducible apply alters_modPart
    | with_reducible apply Alters.ite
    | (refine Alters.snd (by assumption) ?_)
    | (refine Alters.fst (by assumption) ?_)
    | (refine Alters.thd (by assumption) ?_)
    | split
    | simp +zetaDelta only [AltersF.mkIff]
    | assumption

theorem alters_sealPart {M : Nat} {r : State} (p : Nat) (s : State) (h2 : Alters M r s) (hm : Within 1126999419518976 M) :
    Alters M r (sealPart p s) := by
  unfold sealPart
  try extract_lets
  repeat' first
    | with_reducible assumption
    | ((with_reducible refine Within.of hm ?_); exact rfl)
    | intro _
    | with_reducible apply alters_refreshAll
    | with_reducible apply alters_modPart
    | with_reducible apply Alters.ite
    | split
    | simp +zetaDelta only [AltersF.mkIff]
    | assumption

theorem alters_dissolve {M : Nat} {r : State} (p : Nat) (s : State) (h2 : Alters M r s) (hm : Within 68720525314 M) :
    Alters M r (dissolve p s) := by
  unfold dissolve
  try extract_lets
  repeat' first
    | with_reducible assumption
    | ((with_reducible refine Within.of hm ?_); exact rfl)
    | intro _
    | with_reducible apply alters_modPart
    | with_reducible apply alters_startClear
    | with_reducible apply Alters.ite
    | split
    | simp +zetaDelta only [AltersF.mkIff]
    | assumption

theorem alters_suspendBegin {M : Nat} {r : State} (p : Nat) (s : State) (h2 : Alters M r s) (hm : Within 5633788060106754 M) :
    Alters M r (suspendBegin p s) := by
  unfold suspendBegin
  try extract_lets
  repeat' first
    | with_reducible assumption
    | ((with_reducible refine Within.of hm ?_); exact rfl)
    | intro _
    | with_reducible apply alters_modPart
    | with_reducible apply alters_refreshAll
    | with_reducible apply alters_drainCtxPorts
    | with_reducible apply alters_beginStop
    | exact syncAlters_waiters _ _ (Within.of hm rfl)
    | exact syncAlters_rest _ _ (Within.of hm rfl) rfl
    | exact syncAlters_any _ _ (Within.of hm rfl)
    | exact fabAlters_reqs _ _ (Within.of hm rfl)
    | exact fabAlters_rest _ _ (Within.of hm rfl) rfl
    | exact fabAlters_any _ _ (Within.of hm rfl)
    | with_reducible apply Alters.ite
    | with_reducible apply Alters.foldl
    | with_reducible apply Alters.foldlP (p := Prod.snd)
    | with_reducible apply Alters.foldlP (p := Prod.fst)
    | with_reducible apply Alters.foldlT
    | with_reducible apply alters_set_sync_fab
    | simp only [AltersF.mkIff]
    | split
    | simp +zetaDelta only [AltersF.mkIff]
    | assumption

theorem alters_activateBegin {M : Nat} {r : State} (p : Nat) (s : State) (h2 : Alters M r s) (hm : Within 1126999419518976 M) :
    Alters M r (activateBegin p s) := by
  unfold activateBegin
  try extract_lets
  repeat' first
    | with_reducible assumption
    | ((with_reducible refine Within.of hm ?_); exact rfl)
    | intro _
    | with_reducible apply alters_modPart
    | with_reducible apply alters_refreshAll
    | with_reducible apply Alters.ite
    | (refine Alters.snd (by assumption) ?_)
    | (refine Alters.fst (by assumption) ?_)
    | (refine Alters.thd (by assumption) ?_)
    | split
    | simp +zetaDelta only [AltersF.mkIff]
    | assumption

theorem alters_partRun {M : Nat} {r : State} (p : Nat) (v : Nat) (by_ : RegBy) (delayed : Bool) (s : State) (h5 : Alters M r s) (hm : Within 5633856779649026 M) :
    Alters M r (partRun p v by_ delayed s) := by
  unfold partRun
  try extract_lets
  repeat' first
    | with_reducible assumption
    | ((with_reducible refine Within.of hm ?_); exact rfl)
    | intro _
    | with_reducible apply alters_modPart
    | with_reducible apply alters_secureRefusal
    | with_reducible apply alters_configure
    | with_reducible apply alters_sealPart
    | with_reducible apply alters_dissolve
    | with_reducible apply alters_suspendBegin
    | with_reducible apply alters_activateBegin
    | with_reducible apply Alters.ite
    | split
    | simp +zetaDelta only [AltersF.mkIff]
    | assumption

theorem alters_partCtlWrite {M : Nat} {r : State} (p : Nat) (v : Nat) (by_ : RegBy) (s : State) (h4 : Alters M r s) (hm : Within 5633856779651074 M) :
    Alters M r (partCtlWrite p v by_ s).2 := by
  unfold partCtlWrite
  try extract_lets
  repeat' first
    | with_reducible assumption
    | ((with_reducible refine Within.of hm ?_); exact rfl)
    | intro _
    | with_reducible apply alters_regPut
    | with_reducible apply alters_partRun
    | with_reducible apply alters_modPart
    | with_reducible apply alters_configure
    | with_reducible apply Alters.iteS
    | with_reducible apply Alters.ite
    | split
    | simp +zetaDelta only [AltersF.mkIff]
    | assumption

theorem alters_partMore {M : Nat} {r : State} (v0 : Nat) (v1 : Nat) (v2 : State) (h3 : Alters M r v2) (hm : Within 5633862148360194 M) :
    Alters M r (partMore v0 v1 v2) := by
  induction v0 generalizing v2 with
  | zero => exact h3
  | succ k ih =>
    unfold partMore
    extract_lets p
    split
    · exact h3
    · split
      · exact ih _ (alters_partRun _ _ _ _ _ (alters_modPart _ _ _ h3 (hm.of rfl)) (hm.of rfl))
      · exact ih _ (alters_finish _ _ _ (alters_partRun _ _ _ _ _ (alters_regPut _ _ _ _ (alters_modPart _ _ _ h3 (hm.of rfl)) (hm.of rfl)) (hm.of rfl)) (hm.of rfl))
      · exact h3

theorem alters_activateEnd {M : Nat} {r : State} (p : Nat) (s : State) (h2 : Alters M r s) (hm : Within 113755364570103934 M) :
    Alters M r (activateEnd p s) := by
  unfold activateEnd
  try extract_lets
  repeat' first
    | with_reducible assumption
    | ((with_reducible refine Within.of hm ?_); exact rfl)
    | intro _
    | with_reducible apply alters_modCtx
    | with_reducible apply alters_restoreRec
    | with_reducible apply alters_feedTenant
    | with_reducible apply alters_modPart
    | with_reducible apply alters_faultCtx
    | with_reducible apply alters_refreshAll
    | exact syncAlters_waiters _ _ (Within.of hm rfl)
    | exact syncAlters_rest _ _ (Within.of hm rfl) rfl
    | exact syncAlters_any _ _ (Within.of hm rfl)
    | exact fabAlters_reqs _ _ (Within.of hm rfl)
    | exact fabAlters_rest _ _ (Within.of hm rfl) rfl
    | exact fabAlters_any _ _ (Within.of hm rfl)
    | with_reducible apply Alters.ite
    | with_reducible apply Alters.foldl
    | with_reducible apply Alters.foldlP (p := Prod.snd)
    | with_reducible apply Alters.foldlP (p := Prod.fst)
    | with_reducible apply Alters.foldlT
    | (refine Alters.snd (by assumption) ?_)
    | (refine Alters.fst (by assumption) ?_)
    | (refine Alters.thd (by assumption) ?_)
    | with_reducible apply alters_set_sync_fab
    | simp only [AltersF.mkIff]
    | split
    | simp +zetaDelta only [AltersF.mkIff]
    | assumption

theorem alters_execActivateDone {M : Nat} {r : State} (p : Nat) (s : State) (h2 : Alters M r s) (hm : Within 113755437584550014 M) :
    AltersOut M r (execActivateDone p s) := by
  unfold execActivateDone
  try extract_lets
  repeat' first
    | with_reducible assumption
    | ((with_reducible refine Within.of hm ?_); exact rfl)
    | intro _
    | with_reducible apply AltersOut.next
    | with_reducible apply alters_partMore
    | with_reducible apply alters_activateEnd
    | with_reducible apply AltersOut.ite
    | with_reducible apply Alters.ite
    | split
    | simp +zetaDelta only [AltersF.mkIff]
    | assumption

theorem alters_dissolveSlice {M : Nat} {r : State} (s : State) (n : Nat) (h1 : Alters M r s) (hm : Within 36029346776877120 M) :
    Alters M r (dissolveSlice s n) := by
  have k1 := alters_modSlice n (fun r => { r with weave := resetWeave, pendWeave := [], pendSleeve := [] }) _ (alters_loseObjects n _ h1 (hm.of rfl)) (hm.of rfl)
  have k2 := alters_set_mem k1 (memAlters_set_sys (x_sys := mclear (fun x => decide (x / 131072 = n ∧ x % 131072 < 0x1FE00))
    (modSlice n (fun r => { r with weave := resetWeave, pendWeave := [], pendSleeve := [] }) (loseObjects n s)).mem.sys) (MemAlters.refl _ _) (hm.of rfl))
  unfold dissolveSlice
  extract_lets put s1 src s2 s3 s4 lo hi
  replace k2 : Alters M r s2 := k2
  have k3 : Alters M r s3 := Alters.foldl _ (alters_regPut _ _ _ _ k2 (hm.of rfl)) fun t i k => alters_regPut _ _ _ _ k (hm.of rfl)
  have k4 : Alters M r s4 := by
    unfold s4
    with_reducible apply Alters.foldl
    · exact k3
    · intro t q k
      extract_lets cfg ord
      unfold put
      with_reducible exact alters_regPut _ _ _ _ (alters_regPut _ _ _ _ (alters_regPut _ _ _ _ k (hm.of rfl)) (hm.of rfl)) (hm.of rfl)
  simp only [AltersF.mkIff]
  exact alters_set_regs_movers k4 (hm.of rfl)

theorem alters_execDissolveDone {M : Nat} {r : State} (p : Nat) (s : State) (h2 : Alters M r s) (hm : Within 41662659169421378 M) :
    AltersOut M r (execDissolveDone p s) := by
  unfold execDissolveDone
  with_reducible apply AltersOut.ite
  · exact AltersOut.next h2
  · with_reducible apply AltersOut.next
    with_reducible apply Alters.foldl
    · refine alters_partMore _ _ _ ?_ (hm.of rfl)
      refine alters_setPart _ _ _ ?_ (hm.of rfl)
      with_reducible apply Alters.foldl
      · exact h2
      · exact fun t n k => alters_dissolveSlice _ _ k (hm.of rfl)
    · intro t q k
      split
      · with_reducible apply Alters.ite
        · exact alters_partMore _ _ _ k (hm.of rfl)
        · exact k
      · exact k

theorem alters_evictQueues {M : Nat} {r : State} (ids : List Nat) (s : State) (h2 : Alters M r s) (hm : Within 37748736 M) :
    Alters M r (evictQueues ids s) := by
  unfold evictQueues
  try extract_lets
  repeat' first
    | with_reducible assumption
    | ((with_reducible refine Within.of hm ?_); exact rfl)
    | intro _
    | with_reducible apply alters_dropQueue
    | with_reducible apply alters_startBack
    | with_reducible apply Alters.ite
    | with_reducible apply Alters.foldl
    | with_reducible apply Alters.foldlP (p := Prod.snd)
    | with_reducible apply Alters.foldlP (p := Prod.fst)
    | with_reducible apply Alters.foldlT
    | (refine Alters.snd (by assumption) ?_)
    | (refine Alters.fst (by assumption) ?_)
    | (refine Alters.thd (by assumption) ?_)
    | split
    | simp +zetaDelta only [AltersF.mkIff]
    | assumption

theorem alters_execKeyLoad {M : Nat} {r : State} (slot : Nat) (tenant : Nat) (key : BitVec 512) (s : State) (h4 : Alters M r s) (hm : Within 1408474395181056 M) :
    AltersOut M r (execKeyLoad slot tenant key s) := by
  unfold execKeyLoad
  try extract_lets
  repeat' first
    | with_reducible assumption
    | ((with_reducible refine Within.of hm ?_); exact rfl)
    | intro _
    | with_reducible apply AltersOut.next
    | with_reducible apply alters_emit
    | with_reducible apply alters_refreshAll
    | with_reducible apply AltersOut.ite
    | with_reducible apply Alters.ite
    | with_reducible apply alters_set_keys
    | simp only [AltersF.mkIff]
    | split
    | simp +zetaDelta only [AltersF.mkIff]
    | assumption

theorem alters_writeImage {M : Nat} {r : State} (p : Nat) (s : State) (h2 : Alters M r s) (hm : Within 768 M) :
    Alters M r (writeImage p s) := by
  unfold writeImage
  try extract_lets
  repeat' first
    | with_reducible assumption
    | ((with_reducible refine Within.of hm ?_); exact rfl)
    | intro _
    | with_reducible apply alters_extWrite
    | with_reducible apply alters_extStore
    | with_reducible apply Alters.foldl
    | with_reducible apply Alters.foldlP (p := Prod.snd)
    | with_reducible apply Alters.foldlP (p := Prod.fst)
    | with_reducible apply Alters.foldlT
    | (refine Alters.snd (by assumption) ?_)
    | (refine Alters.fst (by assumption) ?_)
    | (refine Alters.thd (by assumption) ?_)
    | split
    | simp +zetaDelta only [AltersF.mkIff]
    | assumption

theorem alters_zeroShared {M : Nat} {r : State} (p : Nat) (ids : List Nat) (s : State) (h3 : Alters M r s) (hm : Within 4504286824235008 M) :
    Alters M r (zeroShared p ids s) := by
  unfold zeroShared
  try extract_lets
  repeat' first
    | with_reducible assumption
    | ((with_reducible refine Within.of hm ?_); exact rfl)
    | intro _
    | with_reducible apply alters_zeroUnits
    | with_reducible apply alters_modChan
    | with_reducible apply alters_dropAhead
    | with_reducible apply Alters.foldl
    | with_reducible apply Alters.foldlP (p := Prod.snd)
    | with_reducible apply Alters.foldlP (p := Prod.fst)
    | with_reducible apply Alters.foldlT
    | simp +zetaDelta only [AltersF.mkIff]
    | assumption

theorem alters_suspendEnd {M : Nat} {r : State} (p : Nat) (s : State) (h2 : Alters M r s) (hm : Within 5631286282289920 M) :
    Alters M r (suspendEnd p s) := by
  unfold suspendEnd
  try extract_lets
  repeat' first
    | with_reducible assumption
    | ((with_reducible refine Within.of hm ?_); exact rfl)
    | intro _
    | with_reducible apply alters_evictQueues
    | with_reducible apply alters_writeImage
    | with_reducible apply alters_modCtx
    | with_reducible apply alters_zeroShared
    | with_reducible apply alters_refreshAll
    | with_reducible apply alters_modPart
    | with_reducible apply Alters.ite
    | with_reducible apply Alters.foldl
    | with_reducible apply Alters.foldlP (p := Prod.snd)
    | with_reducible apply Alters.foldlP (p := Prod.fst)
    | with_reducible apply Alters.foldlT
    | split
    | simp +zetaDelta only [AltersF.mkIff]
    | assumption

theorem alters_execSuspendDone {M : Nat} {r : State} (p : Nat) (s : State) (h2 : Alters M r s) (hm : Within 5633862188993282 M) :
    AltersOut M r (execSuspendDone p s) := by
  unfold execSuspendDone
  try extract_lets
  repeat' first
    | with_reducible assumption
    | ((with_reducible refine Within.of hm ?_); exact rfl)
    | intro _
    | with_reducible apply AltersOut.next
    | with_reducible apply alters_partMore
    | with_reducible apply alters_suspendEnd
    | with_reducible apply AltersOut.ite
    | with_reducible apply Alters.ite
    | split
    | simp +zetaDelta only [AltersF.mkIff]
    | assumption

theorem alters_execMeasurementRequest {M : Nat} {r : State} (kind : Nat) (arg : Nat) (_nonce : BitVec 256) (s : State) (h4 : Alters M r s) (hm : Within 1099511627776 M) :
    AltersOut M r (execMeasurementRequest kind arg _nonce s) := by
  unfold execMeasurementRequest
  try extract_lets
  repeat' first
    | with_reducible assumption
    | ((with_reducible refine Within.of hm ?_); exact rfl)
    | intro _
    | with_reducible apply AltersOut.next
    | with_reducible apply alters_emit
    | with_reducible apply AltersOut.ite
    | with_reducible apply Alters.ite
    | split
    | simp +zetaDelta only [AltersF.mkIff]
    | assumption

theorem alters_execKeyErase {M : Nat} {r : State} (slot : Nat) (s : State) (h2 : Alters M r s) (hm : Within 1408474395181056 M) :
    AltersOut M r (execKeyErase slot s) := by
  unfold execKeyErase
  try extract_lets
  repeat' first
    | with_reducible assumption
    | ((with_reducible refine Within.of hm ?_); exact rfl)
    | intro _
    | with_reducible apply AltersOut.next
    | with_reducible apply alters_emit
    | with_reducible apply alters_refreshAll
    | with_reducible apply AltersOut.ite
    | with_reducible apply Alters.ite
    | with_reducible apply alters_set_keys
    | simp only [AltersF.mkIff]
    | split
    | simp +zetaDelta only [AltersF.mkIff]
    | assumption

theorem alters_execTdispStateReport {M : Nat} {r : State} (tdi : Nat) (state : Nat) (s : State) (h3 : Alters M r s) (hm : Within 114283130150387838 M) :
    AltersOut M r (execTdispStateReport tdi state s) := by
  unfold execTdispStateReport
  try extract_lets
  repeat' first
    | with_reducible assumption
    | ((with_reducible refine Within.of hm ?_); exact rfl)
    | intro _
    | with_reducible apply AltersOut.next
    | with_reducible apply alters_faultCtx
    | with_reducible apply AltersOut.ite
    | with_reducible apply Alters.ite
    | with_reducible apply Alters.foldl
    | with_reducible apply Alters.foldlP (p := Prod.snd)
    | with_reducible apply Alters.foldlP (p := Prod.fst)
    | with_reducible apply Alters.foldlT
    | with_reducible apply alters_set_tdi
    | simp only [AltersF.mkIff]
    | split
    | simp +zetaDelta only [AltersF.mkIff]
    | assumption

theorem alters_partEnd {M : Nat} {r : State} (p : Nat) (result : Nat) (s : State) (h3 : Alters M r s) (hm : Within 1048576 M) :
    Alters M r (partEnd p result s) := by
  unfold partEnd
  try extract_lets
  repeat' first
    | with_reducible assumption
    | ((with_reducible refine Within.of hm ?_); exact rfl)
    | intro _
    | with_reducible apply alters_modPart
    | simp +zetaDelta only [AltersF.mkIff]
    | assumption

end Sys2Proof.Laws
end

