-- ==== Sys2Proof/Laws/AltersReset.lean ====
section
/-! SUPPORT. Laws/AltersReset.lean: which kinds of state the operations of Machine/Reset.lean may change (Laws/Alters.lean). -/
namespace Sys2Proof.Laws
open Sys2Proof.Machine
set_option linter.all false

theorem alters_cuBootWrite {M : Nat} {r : State} (v : Nat) (s : State) (h2 : Alters M r s) (hm : Within 9895604656128 M) :
    Alters M r (cuBootWrite v s).2 := by
  unfold cuBootWrite
  try extract_lets
  repeat' first
    | exact fun _ => rfl
    | with_reducible assumption
    | ((with_reducible refine Within.of hm ?_); exact rfl)
    | intro _
    | with_reducible apply alters_regPut
    | with_reducible apply alters_emit
    | with_reducible apply alters_modCtl
    | with_reducible apply Alters.iteS
    | with_reducible apply Alters.ite
    | with_reducible apply alters_set_w1done
    | simp only [AltersF.mkIff]
    | split
    | simp +zetaDelta only [AltersF.mkIff]
    | assumption

theorem alters_blockReset {M : Nat} {r : State} (cause : Nat) (s : State) (h2 : Alters M r s) (hm : Within 144078904192104700 M) :
    Alters M r (blockReset cause s) := by
  exact h2.trans ⟨rfl, rfl, rfl, rfl, rfl, rfl, fun _ => rfl, fun _ => rfl, fun e => hm.clash (i := 2) rfl e, fun e => hm.clash (i := 3) rfl e, fun e => hm.clash (i := 4) rfl e, fun e => hm.clash (i := 5) rfl e, fun e => hm.clash (i := 6) rfl e, fun e => hm.clash (i := 7) rfl e, fun _ => rfl, fun _ => rfl, fun _ => rfl, fun e => hm.clash (i := 11) rfl e, fun e => hm.clash (i := 12) rfl e, fun e => hm.clash (i := 13) rfl e, fun e => hm.clash (i := 14) rfl e, fun _ => rfl, fun e => hm.clash (i := 16) rfl e, fun e => hm.clash (i := 17) rfl e, fun e => hm.clash (i := 18) rfl e, fun e => hm.clash (i := 19) rfl e, fun e => hm.clash (i := 20) rfl e, fun e => hm.clash (i := 21) rfl e, fun e => hm.clash (i := 22) rfl e, fun e => hm.clash (i := 23) rfl e, fun e => hm.clash (i := 24) rfl e, fun e => hm.clash (i := 25) rfl e, fun e => hm.clash (i := 26) rfl e, fun e => hm.clash (i := 27) rfl e, fun e => hm.clash (i := 28) rfl e, fun e => hm.clash (i := 29) rfl e, fun e => hm.clash (i := 30) rfl e, fun e => hm.clash (i := 31) rfl e, fun e => hm.clash (i := 32) rfl e, fun e => hm.clash (i := 33) rfl e, fun e => hm.clash (i := 34) rfl e, fun e => hm.clash (i := 35) rfl e, fun e => hm.clash (i := 36) rfl e, fun e => hm.clash (i := 37) rfl e, fun e => hm.clash (i := 38) rfl e, fun e => hm.clash (i := 39) rfl e, fun _ => rfl, fun e => hm.clash (i := 41) rfl e, fun e => hm.clash (i := 42) rfl e, fun e => hm.clash (i := 43) rfl e, fun e => hm.clash (i := 44) rfl e, fun _ => rfl, fun e => hm.clash (i := 46) rfl e, fun e => hm.clash (i := 47) rfl e, fun e => hm.clash (i := 48) rfl e, fun e => hm.clash (i := 49) rfl e, fun e => hm.clash (i := 50) rfl e, fun e => hm.clash (i := 51) rfl e, fun e => hm.clash (i := 52) rfl e, fun e => hm.clash (i := 53) rfl e, fun e => hm.clash (i := 54) rfl e, fun e => hm.clash (i := 55) rfl e, fun e => hm.clash (i := 56) rfl e⟩

theorem alters_execStartupRelease {M : Nat} {r : State} (s : State) (h1 : Alters M r s) (hm : Within 13194139557888 M) :
    AltersOut M r (execStartupRelease s) := by
  unfold execStartupRelease
  try extract_lets
  repeat' first
    | exact fun _ => rfl
    | with_reducible assumption
    | ((with_reducible refine Within.of hm ?_); exact rfl)
    | intro _
    | with_reducible apply AltersOut.next
    | with_reducible apply alters_modCtl
    | with_reducible apply alters_modPwr
    | with_reducible apply AltersOut.ite
    | with_reducible apply Alters.ite
    | with_reducible apply Alters.foldl
    | with_reducible apply Alters.foldlP (p := Prod.snd)
    | with_reducible apply Alters.foldlP (p := Prod.fst)
    | with_reducible apply Alters.foldlT
    | with_reducible apply alters_set_bcnt_bcRun
    | simp only [AltersF.mkIff]
    | split
    | simp +zetaDelta only [AltersF.mkIff]
    | assumption

theorem alters_selTest {M : Nat} {r : State} (i : Nat) (s : State) (h2 : Alters M r s) (hm : Within 140737488355328 M) :
    Alters M r (selTest i s) := by
  unfold selTest
  try extract_lets
  repeat' first
    | with_reducible assumption
    | ((with_reducible refine Within.of hm ?_); exact rfl)
    | intro _
    | with_reducible apply alters_set_test
    | simp only [AltersF.mkIff]
    | simp +zetaDelta only [AltersF.mkIff]
    | assumption

theorem alters_fullClear {M : Nat} {r : State} (s : State) (h1 : Alters M r s) (hm : Within 4785652279279740 M) :
    Alters M r (fullClear s) := by
  unfold fullClear
  try extract_lets
  repeat' first
    | with_reducible assumption
    | ((with_reducible refine Within.of hm ?_); exact rfl)
    | intro _
    | with_reducible exact MemAlters.refl _ _
    | with_reducible apply memAlters_set_data_chk_tag_owed_sys
    | with_reducible apply alters_set_mem_slices_ports_wb_beats_works_movers_keys
    | simp only [AltersF.mkIff]
    | simp +zetaDelta only [AltersF.mkIff]
    | assumption

theorem alters_execMbistRun {M : Nat} {r : State} (failing : List Nat) (s : State) (h2 : Alters M r s) (hm : Within 4926389767635068 M) :
    AltersOut M r (execMbistRun failing s) := by
  unfold execMbistRun
  try extract_lets
  repeat' first
    | with_reducible assumption
    | ((with_reducible refine Within.of hm ?_); exact rfl)
    | intro _
    | with_reducible apply AltersOut.next
    | with_reducible apply alters_selTest
    | with_reducible apply alters_fullClear
    | with_reducible apply AltersOut.ite
    | with_reducible apply Alters.ite
    | with_reducible apply alters_set_test
    | simp only [AltersF.mkIff]
    | split
    | simp +zetaDelta only [AltersF.mkIff]
    | assumption

theorem alters_execSeamTest {M : Nat} {r : State} (failing : List Nat) (s : State) (h2 : Alters M r s) (hm : Within 4926389767635068 M) :
    AltersOut M r (execSeamTest failing s) := by
  unfold execSeamTest
  try extract_lets
  repeat' first
    | with_reducible assumption
    | ((with_reducible refine Within.of hm ?_); exact rfl)
    | intro _
    | with_reducible apply AltersOut.next
    | with_reducible apply alters_selTest
    | with_reducible apply alters_fullClear
    | with_reducible apply AltersOut.ite
    | with_reducible apply Alters.ite
    | with_reducible apply alters_set_test
    | simp only [AltersF.mkIff]
    | split
    | simp +zetaDelta only [AltersF.mkIff]
    | assumption

theorem alters_execPllRelockTimeout {M : Nat} {r : State} (s : State) (h1 : Alters M r s) (hm : Within 144078904192137468 M) :
    AltersOut M r (execPllRelockTimeout s) := by
  unfold execPllRelockTimeout
  try extract_lets
  repeat' first
    | with_reducible assumption
    | ((with_reducible refine Within.of hm ?_); exact rfl)
    | intro _
    | with_reducible apply AltersOut.next
    | with_reducible apply alters_blockReset
    | with_reducible apply AltersOut.ite
    | with_reducible apply Alters.ite
    | with_reducible apply alters_set_rc
    | simp only [AltersF.mkIff]
    | split
    | simp +zetaDelta only [AltersF.mkIff]
    | assumption

theorem alters_execPllRelock {M : Nat} {r : State} (s : State) (h1 : Alters M r s) (hm : Within 8796093038592 M) :
    AltersOut M r (execPllRelock s) := by
  unfold execPllRelock
  try extract_lets
  repeat' first
    | exact fun _ => rfl
    | with_reducible assumption
    | ((with_reducible refine Within.of hm ?_); exact rfl)
    | intro _
    | with_reducible apply AltersOut.next
    | with_reducible apply alters_modCtl
    | with_reducible apply AltersOut.ite
    | with_reducible apply Alters.ite
    | with_reducible apply alters_set_bcRun
    | simp only [AltersF.mkIff]
    | split
    | simp +zetaDelta only [AltersF.mkIff]
    | assumption

theorem alters_execWsIntest {M : Nat} {r : State} (s : State) (h1 : Alters M r s) (hm : Within 4927489279262844 M) :
    AltersOut M r (execWsIntest s) := by
  unfold execWsIntest
  try extract_lets
  repeat' first
    | with_reducible assumption
    | ((with_reducible refine Within.of hm ?_); exact rfl)
    | intro _
    | with_reducible apply AltersOut.next
    | with_reducible apply alters_emit
    | with_reducible apply alters_selTest
    | with_reducible apply alters_fullClear
    | with_reducible apply AltersOut.ite
    | with_reducible apply Alters.ite
    | split
    | simp +zetaDelta only [AltersF.mkIff]
    | assumption

theorem alters_execWsStatus {M : Nat} {r : State} (s : State) (h1 : Alters M r s) (hm : Within 141836999983104 M) :
    AltersOut M r (execWsStatus s) := by
  unfold execWsStatus
  try extract_lets
  repeat' first
    | with_reducible assumption
    | ((with_reducible refine Within.of hm ?_); exact rfl)
    | intro _
    | with_reducible apply AltersOut.next
    | with_reducible apply alters_emit
    | with_reducible apply alters_selTest
    | simp +zetaDelta only [AltersF.mkIff]
    | assumption

theorem alters_execMicrocodeAnswer {M : Nat} {r : State} (allow : Bool) (s : State) (h2 : Alters M r s) (hm : Within 8796093022208 M) :
    AltersOut M r (execMicrocodeAnswer allow s) := by
  unfold execMicrocodeAnswer
  try extract_lets
  repeat' first
    | exact fun _ => rfl
    | with_reducible assumption
    | ((with_reducible refine Within.of hm ?_); exact rfl)
    | intro _
    | with_reducible apply AltersOut.next
    | with_reducible apply alters_modCtl
    | with_reducible apply AltersOut.ite
    | with_reducible apply Alters.ite
    | split
    | simp +zetaDelta only [AltersF.mkIff]
    | assumption

theorem alters_execWsExtest {M : Nat} {r : State} (s : State) (h1 : Alters M r s) (hm : Within 4926389767635068 M) :
    AltersOut M r (execWsExtest s) := by
  unfold execWsExtest
  try extract_lets
  repeat' first
    | with_reducible assumption
    | ((with_reducible refine Within.of hm ?_); exact rfl)
    | intro _
    | with_reducible apply AltersOut.next
    | with_reducible apply alters_selTest
    | with_reducible apply alters_fullClear
    | with_reducible apply AltersOut.ite
    | with_reducible apply Alters.ite
    | split
    | simp +zetaDelta only [AltersF.mkIff]
    | assumption

theorem alters_execVhvBrownout {M : Nat} {r : State} (s : State) (h1 : Alters M r s) (hm : Within 8796093038592 M) :
    AltersOut M r (execVhvBrownout s) := by
  unfold execVhvBrownout
  try extract_lets
  repeat' first
    | exact fun _ => rfl
    | with_reducible assumption
    | ((with_reducible refine Within.of hm ?_); exact rfl)
    | intro _
    | with_reducible apply AltersOut.next
    | with_reducible apply alters_modCtl
    | with_reducible apply alters_set_bcRun
    | simp only [AltersF.mkIff]
    | simp +zetaDelta only [AltersF.mkIff]
    | assumption

theorem alters_powerOn {M : Nat} {r : State} (s : State) (h1 : Alters M r s) (hm : Within 144114088564226301 M) :
    Alters M r (powerOn s) := by
  exact h1.trans ⟨rfl, rfl, rfl, rfl, rfl, rfl, fun e => hm.clash (i := 0) rfl e, fun _ => rfl, fun e => hm.clash (i := 2) rfl e, fun e => hm.clash (i := 3) rfl e, fun e => hm.clash (i := 4) rfl e, fun e => hm.clash (i := 5) rfl e, fun e => hm.clash (i := 6) rfl e, fun e => hm.clash (i := 7) rfl e, fun _ => rfl, fun _ => rfl, fun _ => rfl, fun e => hm.clash (i := 11) rfl e, fun e => hm.clash (i := 12) rfl e, fun e => hm.clash (i := 13) rfl e, fun e => hm.clash (i := 14) rfl e, fun e => hm.clash (i := 15) rfl e, fun e => hm.clash (i := 16) rfl e, fun e => hm.clash (i := 17) rfl e, fun e => hm.clash (i := 18) rfl e, fun e => hm.clash (i := 19) rfl e, fun e => hm.clash (i := 20) rfl e, fun e => hm.clash (i := 21) rfl e, fun e => hm.clash (i := 22) rfl e, fun e => hm.clash (i := 23) rfl e, fun e => hm.clash (i := 24) rfl e, fun e => hm.clash (i := 25) rfl e, fun e => hm.clash (i := 26) rfl e, fun e => hm.clash (i := 27) rfl e, fun e => hm.clash (i := 28) rfl e, fun e => hm.clash (i := 29) rfl e, fun e => hm.clash (i := 30) rfl e, fun e => hm.clash (i := 31) rfl e, fun e => hm.clash (i := 32) rfl e, fun e => hm.clash (i := 33) rfl e, fun e => hm.clash (i := 34) rfl e, fun e => hm.clash (i := 35) rfl e, fun e => hm.clash (i := 36) rfl e, fun e => hm.clash (i := 37) rfl e, fun e => hm.clash (i := 38) rfl e, fun e => hm.clash (i := 39) rfl e, fun _ => rfl, fun e => hm.clash (i := 41) rfl e, fun e => hm.clash (i := 42) rfl e, fun e => hm.clash (i := 43) rfl e, fun e => hm.clash (i := 44) rfl e, fun e => hm.clash (i := 45) rfl e, fun e => hm.clash (i := 46) rfl e, fun e => hm.clash (i := 47) rfl e, fun e => hm.clash (i := 48) rfl e, fun e => hm.clash (i := 49) rfl e, fun e => hm.clash (i := 50) rfl e, fun e => hm.clash (i := 51) rfl e, fun e => hm.clash (i := 52) rfl e, fun e => hm.clash (i := 53) rfl e, fun e => hm.clash (i := 54) rfl e, fun e => hm.clash (i := 55) rfl e, fun e => hm.clash (i := 56) rfl e⟩

theorem alters_execPowerOnReset {M : Nat} {r : State} (s : State) (h1 : Alters M r s) (hm : Within 144114088564226301 M) :
    AltersOut M r (execPowerOnReset s) := by
  unfold execPowerOnReset
  try extract_lets
  repeat' first
    | with_reducible assumption
    | ((with_reducible refine Within.of hm ?_); exact rfl)
    | intro _
    | with_reducible apply AltersOut.next
    | with_reducible apply alters_powerOn
    | simp +zetaDelta only [AltersF.mkIff]
    | assumption

theorem alters_execBlockReset {M : Nat} {r : State} (cause : Nat) (s : State) (h2 : Alters M r s) (hm : Within 144078904192104700 M) :
    AltersOut M r (execBlockReset cause s) := by
  unfold execBlockReset
  try extract_lets
  repeat' first
    | with_reducible assumption
    | ((with_reducible refine Within.of hm ?_); exact rfl)
    | intro _
    | with_reducible apply AltersOut.next
    | with_reducible apply alters_blockReset
    | with_reducible apply AltersOut.ite
    | with_reducible apply Alters.ite
    | split
    | simp +zetaDelta only [AltersF.mkIff]
    | assumption

theorem alters_execPllUnlock {M : Nat} {r : State} (s : State) (h1 : Alters M r s) (hm : Within 8796093038592 M) :
    AltersOut M r (execPllUnlock s) := by
  unfold execPllUnlock
  try extract_lets
  repeat' first
    | exact fun _ => rfl
    | with_reducible assumption
    | ((with_reducible refine Within.of hm ?_); exact rfl)
    | intro _
    | with_reducible apply AltersOut.next
    | with_reducible apply alters_modCtl
    | with_reducible apply AltersOut.ite
    | with_reducible apply Alters.ite
    | with_reducible apply alters_set_bcRun
    | simp only [AltersF.mkIff]
    | split
    | simp +zetaDelta only [AltersF.mkIff]
    | assumption

theorem alters_execWsBypass {M : Nat} {r : State} (s : State) (h1 : Alters M r s) (hm : Within 140737488355328 M) :
    AltersOut M r (execWsBypass s) := by
  unfold execWsBypass
  try extract_lets
  repeat' first
    | with_reducible assumption
    | ((with_reducible refine Within.of hm ?_); exact rfl)
    | intro _
    | with_reducible apply AltersOut.next
    | with_reducible apply alters_selTest
    | simp +zetaDelta only [AltersF.mkIff]
    | assumption

theorem alters_execFuseProg {M : Nat} {r : State} (bits : List Nat) (s : State) (h2 : Alters M r s) (hm : Within 140737488355328 M) :
    AltersOut M r (execFuseProg bits s) := by
  unfold execFuseProg
  try extract_lets
  repeat' first
    | with_reducible assumption
    | ((with_reducible refine Within.of hm ?_); exact rfl)
    | intro _
    | with_reducible apply AltersOut.next
    | with_reducible apply alters_selTest
    | with_reducible apply AltersOut.ite
    | with_reducible apply Alters.ite
    | with_reducible apply alters_set_test
    | simp only [AltersF.mkIff]
    | split
    | simp +zetaDelta only [AltersF.mkIff]
    | assumption

end Sys2Proof.Laws
end

