-- ==== Sys2Proof/Laws/AltersRegs.lean ====
section
/-! SUPPORT. Laws/AltersRegs.lean: which kinds of state the operations of Machine/Regs.lean may change (Laws/Alters.lean). -/
namespace Sys2Proof.Laws
open Sys2Proof.Machine
set_option linter.all false

theorem alters_regStore {M : Nat} {r : State} (u : Nat) (off : Nat) (d : Nat) (v : Nat) (s : State) (h5 : Alters M r s) (hm : Within 2048 M) :
    Alters M r (regStore u off d v s).2 := by
  unfold regStore
  try extract_lets
  repeat' first
    | with_reducible assumption
    | ((with_reducible refine Within.of hm ?_); exact rfl)
    | intro _
    | with_reducible apply alters_regPut
    | simp +zetaDelta only [AltersF.mkIff]
    | assumption

theorem alters_portCfgWrite {M : Nat} {r : State} (n : Nat) (p : Nat) (v : Nat) (s : State) (h4 : Alters M r s) (hm : Within 2048 M) :
    Alters M r (portCfgWrite n p v s).2 := by
  unfold portCfgWrite
  try extract_lets
  repeat' first
    | with_reducible assumption
    | ((with_reducible refine Within.of hm ?_); exact rfl)
    | intro _
    | with_reducible apply alters_regPut
    | with_reducible apply Alters.iteS
    | with_reducible apply Alters.ite
    | split
    | simp +zetaDelta only [AltersF.mkIff]
    | assumption

theorem alters_regClear {M : Nat} {r : State} (u : Nat) (off : Nat) (v : Nat) (s : State) (h4 : Alters M r s) (hm : Within 2048 M) :
    Alters M r (regClear u off v s).2 := by
  unfold regClear
  try extract_lets
  repeat' first
    | with_reducible assumption
    | ((with_reducible refine Within.of hm ?_); exact rfl)
    | intro _
    | with_reducible apply alters_regPut
    | with_reducible apply Alters.iteS
    | with_reducible apply Alters.ite
    | with_reducible apply Alters.foldl
    | with_reducible apply Alters.foldlP (p := Prod.snd)
    | with_reducible apply Alters.foldlP (p := Prod.fst)
    | with_reducible apply Alters.foldlT
    | split
    | simp +zetaDelta only [AltersF.mkIff]
    | assumption

theorem alters_portOrdWrite {M : Nat} {r : State} (n : Nat) (p : Nat) (v : Nat) (by_ : RegBy) (s : State) (h5 : Alters M r s) (hm : Within 67584 M) :
    Alters M r (portOrdWrite n p v by_ s).2 := by
  unfold portOrdWrite
  try extract_lets
  repeat' first
    | with_reducible assumption
    | ((with_reducible refine Within.of hm ?_); exact rfl)
    | intro _
    | with_reducible apply alters_dropReg
    | with_reducible apply alters_regPut
    | with_reducible apply Alters.iteS
    | with_reducible apply Alters.ite
    | split
    | simp +zetaDelta only [AltersF.mkIff]
    | assumption

theorem alters_portWrite {M : Nat} {r : State} (n : Nat) (p : Nat) (off : Nat) (v : Nat) (by_ : RegBy) (s : State) (h6 : Alters M r s) (hm : Within 5668283156482 M) :
    Alters M r (portWrite n p off v by_ s).2 := by
  unfold portWrite
  try extract_lets
  repeat' first
    | with_reducible assumption
    | ((with_reducible refine Within.of hm ?_); exact rfl)
    | intro _
    | with_reducible apply alters_portCtlWrite
    | with_reducible apply alters_portCfgWrite
    | with_reducible apply alters_portCtxWrite
    | with_reducible apply alters_regClear
    | with_reducible apply alters_portOrdWrite
    | with_reducible apply Alters.iteS
    | with_reducible apply Alters.ite
    | split
    | simp +zetaDelta only [AltersF.mkIff]
    | assumption

theorem alters_reguWrite {M : Nat} {r : State} (n : Nat) (v : Nat) (s : State) (h3 : Alters M r s) (hm : Within 2099200 M) :
    Alters M r (reguWrite n v s).2 := by
  unfold reguWrite
  try extract_lets
  repeat' first
    | with_reducible assumption
    | ((with_reducible refine Within.of hm ?_); exact rfl)
    | intro _
    | with_reducible apply alters_regPut
    | with_reducible apply alters_modSlice
    | with_reducible apply Alters.iteS
    | with_reducible apply Alters.ite
    | split
    | simp +zetaDelta only [AltersF.mkIff]
    | assumption

theorem alters_idleTmrWrite {M : Nat} {r : State} (n : Nat) (v : Nat) (s : State) (h3 : Alters M r s) (hm : Within 4398046513152 M) :
    Alters M r (idleTmrWrite n v s).2 := by
  unfold idleTmrWrite
  try extract_lets
  repeat' first
    | with_reducible assumption
    | ((with_reducible refine Within.of hm ?_); exact rfl)
    | intro _
    | with_reducible apply alters_regPut
    | with_reducible apply alters_modPwr
    | with_reducible apply Alters.iteS
    | with_reducible apply Alters.ite
    | split
    | simp +zetaDelta only [AltersF.mkIff]
    | assumption

theorem alters_railLimWrite {M : Nat} {r : State} (n : Nat) (v : Nat) (s : State) (h3 : Alters M r s) (hm : Within 2048 M) :
    Alters M r (railLimWrite n v s).2 := by
  unfold railLimWrite
  try extract_lets
  repeat' first
    | with_reducible assumption
    | ((with_reducible refine Within.of hm ?_); exact rfl)
    | intro _
    | with_reducible apply alters_regPut
    | with_reducible apply Alters.iteS
    | with_reducible apply Alters.ite
    | split
    | simp +zetaDelta only [AltersF.mkIff]
    | assumption

theorem alters_sliceWrite {M : Nat} {r : State} (n : Nat) (off : Nat) (v : Nat) (by_ : RegBy) (s : State) (h5 : Alters M r s) (hm : Within 4512291801729150 M) :
    Alters M r (sliceWrite n off v by_ s).2 := by
  unfold sliceWrite
  try extract_lets
  repeat' first
    | with_reducible assumption
    | ((with_reducible refine Within.of hm ?_); exact rfl)
    | intro _
    | with_reducible apply alters_sleeveWrite
    | with_reducible apply alters_regStore
    | with_reducible apply alters_portWrite
    | with_reducible apply alters_qctlWrite
    | with_reducible apply alters_qctlDbWrite
    | with_reducible apply alters_qctlRackWrite
    | with_reducible apply alters_nmuCfgWrite
    | with_reducible apply alters_regClear
    | with_reducible apply alters_reguWrite
    | with_reducible apply alters_mchCtlWrite
    | with_reducible apply alters_mchParamWrite
    | with_reducible apply alters_pwrCtlWrite
    | with_reducible apply alters_idleTmrWrite
    | with_reducible apply alters_railLimWrite
    | with_reducible apply Alters.iteS
    | with_reducible apply Alters.ite
    | split
    | simp +zetaDelta only [AltersF.mkIff]
    | assumption

theorem alters_partWrite {M : Nat} {r : State} (p : Nat) (off : Nat) (v : Nat) (by_ : RegBy) (s : State) (h5 : Alters M r s) (hm : Within 5633856779651074 M) :
    Alters M r (partWrite p off v by_ s).2 := by
  unfold partWrite
  try extract_lets
  repeat' first
    | with_reducible assumption
    | ((with_reducible refine Within.of hm ?_); exact rfl)
    | intro _
    | with_reducible apply alters_partCtlWrite
    | with_reducible apply alters_dropReg
    | with_reducible apply alters_regStore
    | with_reducible apply Alters.iteS
    | with_reducible apply Alters.ite
    | split
    | simp +zetaDelta only [AltersF.mkIff]
    | assumption

theorem alters_commonWrite {M : Nat} {r : State} (off : Nat) (v : Nat) (by_ : RegBy) (s : State) (h4 : Alters M r s) (hm : Within 144080003703732478 M) :
    Alters M r (commonWrite off v by_ s).2 := by
  unfold commonWrite
  try extract_lets
  repeat' first
    | with_reducible assumption
    | ((with_reducible refine Within.of hm ?_); exact rfl)
    | intro _
    | with_reducible apply alters_cmapWrite
    | with_reducible apply alters_dbgWrite
    | with_reducible apply alters_regStore
    | with_reducible apply alters_cuBootWrite
    | with_reducible apply alters_blockReset
    | with_reducible apply alters_devPwrWrite
    | with_reducible apply alters_partWrite
    | with_reducible apply alters_dropReg
    | with_reducible apply Alters.iteS
    | with_reducible apply Alters.ite
    | split
    | simp +zetaDelta only [AltersF.mkIff]
    | assumption

theorem alters_markW1 {M : Nat} {r : State} (u : Nat) (off : Nat) (x : RegRes) (h3 : Alters M r x.2) (hm : Within 4096 M) :
    Alters M r (markW1 u off x).2 := by
  unfold markW1
  try extract_lets
  repeat' first
    | with_reducible assumption
    | ((with_reducible refine Within.of hm ?_); exact rfl)
    | intro _
    | with_reducible apply Alters.iteS
    | with_reducible apply Alters.ite
    | (refine Alters.snd (by assumption) ?_)
    | (refine Alters.fst (by assumption) ?_)
    | (refine Alters.thd (by assumption) ?_)
    | with_reducible apply alters_set_w1done
    | simp only [AltersF.mkIff]
    | split
    | simp +zetaDelta only [AltersF.mkIff]
    | assumption

theorem alters_regWrite1 {M : Nat} {r : State} (u : Nat) (off : Nat) (v : Nat) (by_ : RegBy) (s : State) (h5 : Alters M r s) (hm : Within 144080003703732478 M) :
    Alters M r (regWrite1 u off v by_ s).2 := by
  unfold regWrite1
  try extract_lets
  repeat' first
    | with_reducible assumption
    | ((with_reducible refine Within.of hm ?_); exact rfl)
    | intro _
    | with_reducible apply alters_dropReg
    | with_reducible apply alters_markW1
    | with_reducible apply alters_sliceWrite
    | with_reducible apply alters_commonWrite
    | with_reducible apply Alters.iteS
    | with_reducible apply Alters.ite
    | split
    | simp +zetaDelta only [AltersF.mkIff]
    | assumption

theorem alters_lateHalf {M : Nat} {r : State} (st : Status) (by_ : RegBy) (addr : Nat) (s : State) (h4 : Alters M r s) (hm : Within 1104880336896 M) :
    Alters M r (lateHalf st by_ addr s) := by
  unfold lateHalf
  try extract_lets
  repeat' first
    | with_reducible assumption
    | ((with_reducible refine Within.of hm ?_); exact rfl)
    | intro _
    | with_reducible apply alters_modCmd
    | with_reducible apply alters_modOp
    | with_reducible apply alters_emit
    | with_reducible apply Alters.ite
    | (refine Alters.snd (by assumption) ?_)
    | (refine Alters.fst (by assumption) ?_)
    | (refine Alters.thd (by assumption) ?_)
    | split
    | simp +zetaDelta only [AltersF.mkIff]
    | assumption

theorem alters_regWrite2 {M : Nat} {r : State} (u : Nat) (off : Nat) (v : Nat) (by_ : RegBy) (s : State) (h5 : Alters M r s) (hm : Within 144080003703732478 M) :
    Alters M r (regWrite2 u off v by_ s).2 := by
  unfold regWrite2
  try extract_lets
  repeat' first
    | with_reducible assumption
    | ((with_reducible refine Within.of hm ?_); exact rfl)
    | intro _
    | with_reducible apply alters_regWrite1
    | with_reducible apply alters_lateHalf
    | (refine Alters.snd (by assumption) ?_)
    | (refine Alters.fst (by assumption) ?_)
    | (refine Alters.thd (by assumption) ?_)
    | split
    | simp +zetaDelta only [AltersF.mkIff]
    | assumption

theorem alters_regWrite {M : Nat} {r : State} (a : Nat) (size8 : Bool) (v : Nat) (by_ : RegBy) (s : State) (h5 : Alters M r s) (hm : Within 144115188075821310 M) :
    Alters M r (regWrite a size8 v by_ s).2 := by
  unfold regWrite
  try extract_lets
  repeat' first
    | with_reducible assumption
    | ((with_reducible refine Within.of hm ?_); exact rfl)
    | intro _
    | with_reducible apply alters_mirrorWrite
    | with_reducible apply alters_reservedReg
    | with_reducible apply alters_regWrite1
    | with_reducible apply alters_cmapWrite
    | with_reducible apply alters_dbgWrite
    | with_reducible apply alters_regWrite2
    | with_reducible apply Alters.iteS
    | with_reducible apply Alters.ite
    | split
    | simp +zetaDelta only [AltersF.mkIff]
    | assumption

theorem alters_regReadEffect {M : Nat} {r : State} (a : Nat) (s : State) (h2 : Alters M r s) (hm : Within 549755813888 M) :
    Alters M r (regReadEffect a s) := by
  unfold regReadEffect
  try extract_lets
  repeat' first
    | with_reducible assumption
    | ((with_reducible refine Within.of hm ?_); exact rfl)
    | intro _
    | with_reducible apply alters_modChan
    | with_reducible apply Alters.ite
    | split
    | simp +zetaDelta only [AltersF.mkIff]
    | assumption

end Sys2Proof.Laws
end

