-- ==== Sys2Proof/Laws/AltersPortCmds.lean ====
section
/-! SUPPORT. Laws/AltersPortCmds.lean: which kinds of state the operations of Machine/PortCmds.lean may change (Laws/Alters.lean). -/
namespace Sys2Proof.Laws
open Sys2Proof.Machine
set_option linter.all false

theorem alters_dropTagDup {M : Nat} {r : State} (v0 : Req) (s : State) (h2 : Alters M r s) (hm : Within 67584 M) :
    Alters M r (dropTagDup v0 s) := by
  unfold dropTagDup
  try extract_lets
  repeat' first
    | with_reducible assumption
    | ((with_reducible refine Within.of hm ?_); exact rfl)
    | intro _
    | with_reducible apply alters_logEvent
    | with_reducible apply alters_portErr
    | simp +zetaDelta only [AltersF.mkIff]
    | assumption

theorem alters_remoteReq {M : Nat} {r : State} (v0 : Req) (s : State) (h2 : Alters M r s) (hm : Within 3304977795075 M) :
    Alters M r (remoteReq v0 s) := by
  unfold remoteReq
  try extract_lets
  repeat' first
    | with_reducible assumption
    | ((with_reducible refine Within.of hm ?_); exact rfl)
    | intro _
    | with_reducible apply alters_refuseReq
    | with_reducible apply alters_refuseG
    | with_reducible apply alters_passOut
    | with_reducible apply Alters.ite
    | split
    | simp +zetaDelta only [AltersF.mkIff]
    | assumption

theorem alters_regionReply {M : Nat} {r : State} (v0 : Req) (bs : List Byte) (s : State) (h3 : Alters M r s) (hm : Within 1101659111426 M) :
    Alters M r (regionReply v0 bs s) := by
  unfold regionReply
  try extract_lets
  repeat' first
    | with_reducible assumption
    | ((with_reducible refine Within.of hm ?_); exact rfl)
    | intro _
    | with_reducible apply alters_replyReq
    | simp +zetaDelta only [AltersF.mkIff]
    | assumption

theorem alters_loadArea {M : Nat} {r : State} (v0 : Req) (o : Nat) (s : State) (h3 : Alters M r s) (hm : Within 1101659310210 M) :
    Alters M r (loadArea v0 o s) := by
  unfold loadArea
  try extract_lets
  repeat' first
    | with_reducible assumption
    | ((with_reducible refine Within.of hm ?_); exact rfl)
    | intro _
    | with_reducible apply alters_refuseReq
    | with_reducible apply alters_refuseG
    | with_reducible apply alters_regionReply
    | with_reducible apply alters_replyReq
    | with_reducible exact MemAlters.refl _ _
    | with_reducible apply memAlters_set_boot
    | with_reducible apply Alters.ite
    | with_reducible apply alters_set_mem
    | simp only [AltersF.mkIff]
    | split
    | simp +zetaDelta only [AltersF.mkIff]
    | assumption

theorem alters_bootWindow {M : Nat} {r : State} (v0 : Req) (s : State) (h2 : Alters M r s) (hm : Within 72063261249570946 M) :
    Alters M r (bootWindow v0 s) := by
  unfold bootWindow
  try extract_lets
  repeat' first
    | with_reducible assumption
    | ((with_reducible refine Within.of hm ?_); exact rfl)
    | intro _
    | with_reducible apply alters_refuseReq
    | with_reducible apply alters_loadArea
    | with_reducible apply alters_acceptPocket
    | with_reducible apply Alters.ite
    | (refine Alters.snd (by assumption) ?_)
    | (refine Alters.fst (by assumption) ?_)
    | (refine Alters.thd (by assumption) ?_)
    | split
    | simp +zetaDelta only [AltersF.mkIff]
    | assumption

theorem alters_sysRegion {M : Nat} {r : State} (v0 : Req) (s : State) (h2 : Alters M r s) (hm : Within 5499705821251 M) :
    Alters M r (sysRegion v0 s) := by
  unfold sysRegion
  try extract_lets
  repeat' first
    | with_reducible assumption
    | ((with_reducible refine Within.of hm ?_); exact rfl)
    | intro _
    | with_reducible apply alters_refuseReq
    | with_reducible apply alters_refuseG
    | with_reducible apply alters_replyReq
    | with_reducible apply alters_touch
    | with_reducible apply alters_drawFree
    | with_reducible apply alters_regionReply
    | with_reducible apply alters_report
    | with_reducible apply alters_sysWrite
    | with_reducible apply Alters.ite
    | (refine Alters.snd (by assumption) ?_)
    | (refine Alters.fst (by assumption) ?_)
    | (refine Alters.thd (by assumption) ?_)
    | split
    | simp +zetaDelta only [AltersF.mkIff]
    | assumption

theorem alters_regErr {M : Nat} {r : State} (n : Nat) (p : Nat) (st : Status) (s : State) (h4 : Alters M r s) (hm : Within 2048 M) :
    Alters M r (regErr n p st s) := by
  unfold regErr
  try extract_lets
  repeat' first
    | with_reducible assumption
    | ((with_reducible refine Within.of hm ?_); exact rfl)
    | intro _
    | with_reducible apply alters_portErr
    | with_reducible apply Alters.ite
    | split
    | simp +zetaDelta only [AltersF.mkIff]
    | assumption

theorem alters_regAccessWrite {M : Nat} {r : State} (v0 : Req) (s : State) (h2 : Alters M r s) (hm : Within 144115188075821310 M) :
    Alters M r (regAccessWrite v0 s) := by
  unfold regAccessWrite
  try extract_lets
  repeat' first
    | with_reducible assumption
    | ((with_reducible refine Within.of hm ?_); exact rfl)
    | intro _
    | with_reducible apply alters_freshId
    | with_reducible apply alters_regWrite
    | with_reducible apply alters_respond
    | with_reducible apply alters_regErr
    | with_reducible apply Alters.ite
    | (refine Alters.snd (by assumption) ?_)
    | (refine Alters.fst (by assumption) ?_)
    | (refine Alters.thd (by assumption) ?_)
    | with_reducible apply alters_set_ops
    | simp only [AltersF.mkIff]
    | split
    | simp +zetaDelta only [AltersF.mkIff]
    | assumption

theorem alters_regRegion {M : Nat} {r : State} (v0 : Req) (s : State) (h2 : Alters M r s) (hm : Within 144115188075821310 M) :
    Alters M r (regRegion v0 s) := by
  unfold regRegion
  try extract_lets
  repeat' first
    | with_reducible assumption
    | ((with_reducible refine Within.of hm ?_); exact rfl)
    | intro _
    | with_reducible apply alters_refuseReq
    | with_reducible apply alters_refuseG
    | with_reducible apply alters_regAccessWrite
    | with_reducible apply alters_regionReply
    | with_reducible apply alters_regReadEffect
    | with_reducible apply Alters.ite
    | split
    | simp +zetaDelta only [AltersF.mkIff]
    | assumption

theorem alters_localReq {M : Nat} {r : State} (v0 : Req) (s : State) (h2 : Alters M r s) (hm : Within 144115188075821311 M) :
    Alters M r (localReq v0 s) := by
  unfold localReq
  try extract_lets
  repeat' first
    | with_reducible assumption
    | ((with_reducible refine Within.of hm ?_); exact rfl)
    | intro _
    | with_reducible apply alters_refuseReq
    | with_reducible apply alters_acceptPocket
    | with_reducible apply alters_bootWindow
    | with_reducible apply alters_sysRegion
    | with_reducible apply alters_regRegion
    | with_reducible apply Alters.ite
    | (refine Alters.snd (by assumption) ?_)
    | (refine Alters.fst (by assumption) ?_)
    | (refine Alters.thd (by assumption) ?_)
    | split
    | simp +zetaDelta only [AltersF.mkIff]
    | assumption

theorem alters_decodeReq {M : Nat} {r : State} (v0 : Req) (s : State) (h2 : Alters M r s) (hm : Within 144115188075821311 M) :
    Alters M r (decodeReq v0 s) := by
  unfold decodeReq
  try extract_lets
  repeat' first
    | with_reducible assumption
    | ((with_reducible refine Within.of hm ?_); exact rfl)
    | intro _
    | with_reducible apply alters_refuseReq
    | with_reducible apply alters_remoteReq
    | with_reducible apply alters_localReq
    | with_reducible apply Alters.ite
    | split
    | simp +zetaDelta only [AltersF.mkIff]
    | assumption

theorem alters_portTake {M : Nat} {r : State} (v0 : Req) (s : State) (h2 : Alters M r s) (hm : Within 144115188075821311 M) :
    Alters M r (portTake v0 s) := by
  unfold portTake
  try extract_lets
  repeat' first
    | with_reducible assumption
    | ((with_reducible refine Within.of hm ?_); exact rfl)
    | intro _
    | with_reducible apply alters_dropTagDup
    | with_reducible apply alters_admitBeats
    | with_reducible apply alters_decodeReq
    | with_reducible apply Alters.ite
    | split
    | simp +zetaDelta only [AltersF.mkIff]
    | assumption

theorem alters_portArrive {M : Nat} {r : State} (v0 : Req) (s : State) (h2 : Alters M r s) (hm : Within 144115188075821311 M) :
    Alters M r (portArrive v0 s) := by
  unfold portArrive
  try extract_lets
  repeat' first
    | with_reducible assumption
    | ((with_reducible refine Within.of hm ?_); exact rfl)
    | intro _
    | with_reducible apply alters_replyReq
    | with_reducible apply alters_portErr
    | with_reducible apply alters_portTake
    | with_reducible apply alters_touch
    | with_reducible apply Alters.ite
    | (refine Alters.snd (by assumption) ?_)
    | (refine Alters.fst (by assumption) ?_)
    | (refine Alters.thd (by assumption) ?_)
    | split
    | simp +zetaDelta only [AltersF.mkIff]
    | assumption

theorem alters_portCmd {M : Nat} {r : State} (kind : Nat) (v1 : PortReq) (s : State) (h3 : Alters M r s) (hm : Within 144115188075821311 M) :
    Alters M r (portCmd kind v1 s) := by
  unfold portCmd
  try extract_lets
  repeat' first
    | with_reducible assumption
    | ((with_reducible refine Within.of hm ?_); exact rfl)
    | intro _
    | with_reducible apply alters_portArrive
    | with_reducible apply Alters.ite
    | split
    | simp +zetaDelta only [AltersF.mkIff]
    | assumption

theorem alters_execFlush {M : Nat} {r : State} (v0 : PortReq) (s : State) (h2 : Alters M r s) (hm : Within 144115188075821311 M) :
    AltersOut M r (execFlush v0 s) := by
  unfold execFlush
  try extract_lets
  repeat' first
    | with_reducible assumption
    | ((with_reducible refine Within.of hm ?_); exact rfl)
    | intro _
    | with_reducible apply AltersOut.next
    | with_reducible apply alters_portCmd
    | simp +zetaDelta only [AltersF.mkIff]
    | assumption

theorem alters_execWrite {M : Nat} {r : State} (v0 : PortReq) (s : State) (h2 : Alters M r s) (hm : Within 144115188075821311 M) :
    AltersOut M r (execWrite v0 s) := by
  unfold execWrite
  try extract_lets
  repeat' first
    | with_reducible assumption
    | ((with_reducible refine Within.of hm ?_); exact rfl)
    | intro _
    | with_reducible apply AltersOut.next
    | with_reducible apply alters_portCmd
    | simp +zetaDelta only [AltersF.mkIff]
    | assumption

theorem alters_execAccWrite {M : Nat} {r : State} (v0 : PortReq) (s : State) (h2 : Alters M r s) (hm : Within 144115188075821311 M) :
    AltersOut M r (execAccWrite v0 s) := by
  unfold execAccWrite
  try extract_lets
  repeat' first
    | with_reducible assumption
    | ((with_reducible refine Within.of hm ?_); exact rfl)
    | intro _
    | with_reducible apply AltersOut.next
    | with_reducible apply alters_portCmd
    | simp +zetaDelta only [AltersF.mkIff]
    | assumption

theorem alters_execTspill {M : Nat} {r : State} (v0 : PortReq) (s : State) (h2 : Alters M r s) (hm : Within 144115188075821311 M) :
    AltersOut M r (execTspill v0 s) := by
  unfold execTspill
  try extract_lets
  repeat' first
    | with_reducible assumption
    | ((with_reducible refine Within.of hm ?_); exact rfl)
    | intro _
    | with_reducible apply AltersOut.next
    | with_reducible apply alters_portCmd
    | simp +zetaDelta only [AltersF.mkIff]
    | assumption

theorem alters_execTfill {M : Nat} {r : State} (v0 : PortReq) (s : State) (h2 : Alters M r s) (hm : Within 144115188075821311 M) :
    AltersOut M r (execTfill v0 s) := by
  unfold execTfill
  try extract_lets
  repeat' first
    | with_reducible assumption
    | ((with_reducible refine Within.of hm ?_); exact rfl)
    | intro _
    | with_reducible apply AltersOut.next
    | with_reducible apply alters_portCmd
    | simp +zetaDelta only [AltersF.mkIff]
    | assumption

theorem alters_execRead {M : Nat} {r : State} (v0 : PortReq) (s : State) (h2 : Alters M r s) (hm : Within 144115188075821311 M) :
    AltersOut M r (execRead v0 s) := by
  unfold execRead
  try extract_lets
  repeat' first
    | with_reducible assumption
    | ((with_reducible refine Within.of hm ?_); exact rfl)
    | intro _
    | with_reducible apply AltersOut.next
    | with_reducible apply alters_portCmd
    | simp +zetaDelta only [AltersF.mkIff]
    | assumption

end Sys2Proof.Laws
end

