-- ==== Sys2Proof/Laws/AltersFabTarget.lean ====
section
/-! SUPPORT. Laws/AltersFabTarget.lean: which kinds of state the operations of Machine/FabTarget.lean may change (Laws/Alters.lean). -/
namespace Sys2Proof.Laws
open Sys2Proof.Machine
set_option linter.all false

theorem alters_answerMsg {M : Nat} {r : State} (n : Nat) (q : CMsg) (ck : Nat) (st : Status) (handle : Nat) (arg0 : Nat) (arg1 : Nat) (data : List Byte) (s : State) (h9 : Alters M r s) (hm : Within 1099511627776 M) :
    Alters M r (answerMsg n q ck st handle arg0 arg1 data s) := by
  unfold answerMsg
  try extract_lets
  repeat' first
    | with_reducible assumption
    | ((with_reducible refine Within.of hm ?_); exact rfl)
    | intro _
    | with_reducible apply alters_creditAnswer
    | simp +zetaDelta only [AltersF.mkIff]
    | assumption

theorem alters_refuseMsg {M : Nat} {r : State} (n : Nat) (m : CMsg) (ck : Nat) (st : Status) (s : State) (h5 : Alters M r s) (hm : Within 1099511693312 M) :
    Alters M r (refuseMsg n m ck st s) := by
  unfold refuseMsg
  try extract_lets
  repeat' first
    | with_reducible assumption
    | ((with_reducible refine Within.of hm ?_); exact rfl)
    | intro _
    | with_reducible apply alters_answerMsg
    | with_reducible apply alters_report
    | simp +zetaDelta only [AltersF.mkIff]
    | assumption

theorem alters_msgChecks {M : Nat} {r : State} (f : Frame) (m0 : CMsg) (ck : Nat) (s : State) (k : Nat → CMsg → Ctx → State → State) (h4 : Alters M r s) (h5 : ∀ a0 a1 a2 a3, Alters M r a3 → Alters M r (k a0 a1 a2 a3)) (hm : Within 5497558204416 M) :
    Alters M r (msgChecks f m0 ck s k) := by
  unfold msgChecks
  try extract_lets
  repeat' first
    | with_reducible assumption
    | ((with_reducible refine Within.of hm ?_); exact rfl)
    | intro _
    | with_reducible apply h5
    | with_reducible apply alters_refuseMsg
    | with_reducible apply alters_whenAwake
    | with_reducible apply alters_answerMsg
    | with_reducible apply Alters.ite
    | (refine Alters.snd (by assumption) ?_)
    | (refine Alters.fst (by assumption) ?_)
    | (refine Alters.thd (by assumption) ?_)
    | split
    | simp +zetaDelta only [AltersF.mkIff]
    | assumption

theorem alters_endWith {M : Nat} {r : State} (g : Grant) (ck : Nat) (m : CMsg) (s : State) (h4 : Alters M r s) (hm : Within 72057594037927936 M) :
    Alters M r (endWith g ck m s) := by
  unfold endWith
  try extract_lets
  repeat' first
    | with_reducible assumption
    | ((with_reducible refine Within.of hm ?_); exact rfl)
    | intro _
    | exact fabAlters_reqs _ _ (Within.of hm rfl)
    | exact fabAlters_rest _ _ (Within.of hm rfl) rfl
    | exact fabAlters_any _ _ (Within.of hm rfl)
    | with_reducible apply alters_set_fab
    | simp only [AltersF.mkIff]
    | simp +zetaDelta only [AltersF.mkIff]
    | assumption

theorem alters_releaseIn {M : Nat} {r : State} (f : Frame) (m0 : CMsg) (t : State) (h3 : Alters M r t) (hm : Within 72063091596132352 M) :
    Alters M r (releaseIn f m0 t) := by
  unfold releaseIn
  try extract_lets
  repeat' first
    | with_reducible assumption
    | ((with_reducible refine Within.of hm ?_); exact rfl)
    | intro _
    | with_reducible apply alters_msgChecks
    | with_reducible apply alters_answerMsg
    | with_reducible apply alters_endGrants
    | with_reducible apply alters_endWith
    | with_reducible apply Alters.ite
    | (refine Alters.snd (by assumption) ?_)
    | (refine Alters.fst (by assumption) ?_)
    | (refine Alters.thd (by assumption) ?_)
    | split
    | simp +zetaDelta only [AltersF.mkIff]
    | assumption

theorem alters_portAnswer {M : Nat} {r : State} (f : Frame) (st : Status) (s : State) (h3 : Alters M r s) (hm : Within 1099511627776 M) :
    Alters M r (portAnswer f st s) := by
  unfold portAnswer
  try extract_lets
  repeat' first
    | with_reducible assumption
    | ((with_reducible refine Within.of hm ?_); exact rfl)
    | intro _
    | with_reducible apply alters_emit
    | simp +zetaDelta only [AltersF.mkIff]
    | assumption

theorem alters_frameLog {M : Nat} {r : State} (f : Frame) (s : State) (h2 : Alters M r s) (hm : Within 65536 M) :
    Alters M r (frameLog f s) := by
  unfold frameLog
  try extract_lets
  repeat' first
    | with_reducible assumption
    | ((with_reducible refine Within.of hm ?_); exact rfl)
    | intro _
    | with_reducible apply alters_report
    | simp +zetaDelta only [AltersF.mkIff]
    | assumption

theorem alters_deliver {M : Nat} {r : State} (f : Frame) (s : State) (h2 : Alters M r s) (hm : Within 144115188075821311 M) :
    Alters M r (deliver f s) := by
  unfold deliver
  try extract_lets
  repeat' first
    | with_reducible assumption
    | ((with_reducible refine Within.of hm ?_); exact rfl)
    | intro _
    | with_reducible apply alters_portArrive
    | with_reducible apply alters_portAnswer
    | with_reducible apply alters_frameLog
    | with_reducible apply Alters.ite
    | (refine Alters.snd (by assumption) ?_)
    | (refine Alters.fst (by assumption) ?_)
    | (refine Alters.thd (by assumption) ?_)
    | split
    | simp +zetaDelta only [AltersF.mkIff]
    | assumption

theorem alters_makeGrant {M : Nat} {r : State} (n : Nat) (m : CMsg) (x : Ctx) (st : Store) (p : Pocket) (win : Nat) (s : State) (h7 : Alters M r s) (hm : Within 72058693549555713 M) :
    Alters M r (makeGrant n m x st p win s) := by
  unfold makeGrant
  try extract_lets
  repeat' first
    | with_reducible assumption
    | ((with_reducible refine Within.of hm ?_); exact rfl)
    | intro _
    | with_reducible apply alters_drawFree
    | with_reducible apply alters_answerMsg
    | exact fabAlters_reqs _ _ (Within.of hm rfl)
    | exact fabAlters_rest _ _ (Within.of hm rfl) rfl
    | exact fabAlters_any _ _ (Within.of hm rfl)
    | with_reducible apply alters_set_fab
    | simp only [AltersF.mkIff]
    | simp +zetaDelta only [AltersF.mkIff]
    | assumption

theorem alters_deferGrant {M : Nat} {r : State} (n : Nat) (m : CMsg) (x : Ctx) (s : State) (h4 : Alters M r s) (hm : Within 72058693549555712 M) :
    Alters M r (deferGrant n m x s) := by
  unfold deferGrant
  try extract_lets
  repeat' first
    | with_reducible assumption
    | ((with_reducible refine Within.of hm ?_); exact rfl)
    | intro _
    | with_reducible apply alters_answerMsg
    | exact fabAlters_reqs _ _ (Within.of hm rfl)
    | exact fabAlters_rest _ _ (Within.of hm rfl) rfl
    | exact fabAlters_any _ _ (Within.of hm rfl)
    | with_reducible apply Alters.ite
    | with_reducible apply alters_set_fab
    | simp only [AltersF.mkIff]
    | split
    | simp +zetaDelta only [AltersF.mkIff]
    | assumption

theorem alters_grantOn {M : Nat} {r : State} (n : Nat) (stop : Nat) (m : CMsg) (x : Ctx) (st : Store) (p : Pocket) (s : State) (h7 : Alters M r s) (hm : Within 72058693549555713 M) :
    Alters M r (grantOn n stop m x st p s) := by
  unfold grantOn
  try extract_lets
  repeat' first
    | with_reducible assumption
    | ((with_reducible refine Within.of hm ?_); exact rfl)
    | intro _
    | with_reducible apply alters_answerMsg
    | with_reducible apply alters_makeGrant
    | with_reducible apply alters_deferGrant
    | with_reducible apply Alters.ite
    | (refine Alters.snd (by assumption) ?_)
    | (refine Alters.fst (by assumption) ?_)
    | (refine Alters.thd (by assumption) ?_)
    | split
    | simp +zetaDelta only [AltersF.mkIff]
    | assumption

theorem alters_grantIn {M : Nat} {r : State} (f : Frame) (m0 : CMsg) (t : State) (h3 : Alters M r t) (hm : Within 72063091596132353 M) :
    Alters M r (grantIn f m0 t) := by
  unfold grantIn
  try extract_lets
  repeat' first
    | with_reducible assumption
    | ((with_reducible refine Within.of hm ?_); exact rfl)
    | intro _
    | with_reducible apply alters_msgChecks
    | with_reducible apply alters_refuseMsg
    | with_reducible apply alters_grantOn
    | with_reducible apply Alters.ite
    | (refine Alters.snd (by assumption) ?_)
    | (refine Alters.fst (by assumption) ?_)
    | (refine Alters.thd (by assumption) ?_)
    | split
    | simp +zetaDelta only [AltersF.mkIff]
    | assumption

theorem alters_renewIn {M : Nat} {r : State} (f : Frame) (m0 : CMsg) (t : State) (h3 : Alters M r t) (hm : Within 72063091596132352 M) :
    Alters M r (renewIn f m0 t) := by
  unfold renewIn
  try extract_lets
  repeat' first
    | with_reducible assumption
    | ((with_reducible refine Within.of hm ?_); exact rfl)
    | intro _
    | with_reducible apply alters_msgChecks
    | with_reducible apply alters_answerMsg
    | with_reducible apply alters_endWith
    | exact fabAlters_reqs _ _ (Within.of hm rfl)
    | exact fabAlters_rest _ _ (Within.of hm rfl) rfl
    | exact fabAlters_any _ _ (Within.of hm rfl)
    | with_reducible apply Alters.ite
    | (refine Alters.snd (by assumption) ?_)
    | (refine Alters.fst (by assumption) ?_)
    | (refine Alters.thd (by assumption) ?_)
    | with_reducible apply alters_set_fab
    | simp only [AltersF.mkIff]
    | split
    | simp +zetaDelta only [AltersF.mkIff]
    | assumption

theorem alters_withdrawIn {M : Nat} {r : State} (m : CMsg) (t : State) (h2 : Alters M r t) (hm : Within 72057594037927936 M) :
    Alters M r (withdrawIn m t) := by
  unfold withdrawIn
  try extract_lets
  repeat' first
    | with_reducible assumption
    | ((with_reducible refine Within.of hm ?_); exact rfl)
    | intro _
    | exact fabAlters_reqs _ _ (Within.of hm rfl)
    | exact fabAlters_rest _ _ (Within.of hm rfl) rfl
    | exact fabAlters_any _ _ (Within.of hm rfl)
    | with_reducible apply alters_set_fab
    | simp only [AltersF.mkIff]
    | simp +zetaDelta only [AltersF.mkIff]
    | assumption

theorem alters_signalAnswer {M : Nat} {r : State} (n : Nat) (f : Frame) (st : Status) (result : Nat) (s : State) (h5 : Alters M r s) (hm : Within 1099511627776 M) :
    Alters M r (signalAnswer n f st result s) := by
  unfold signalAnswer
  try extract_lets
  repeat' first
    | with_reducible assumption
    | ((with_reducible refine Within.of hm ?_); exact rfl)
    | intro _
    | with_reducible apply alters_putFrame
    | simp +zetaDelta only [AltersF.mkIff]
    | assumption

theorem alters_signalIn {M : Nat} {r : State} (f : Frame) (x : Ctx) (n : Nat) (s : State) (h4 : Alters M r s) (hm : Within 36035120284631041 M) :
    Alters M r (signalIn f x n s) := by
  unfold signalIn
  try extract_lets
  repeat' first
    | with_reducible assumption
    | ((with_reducible refine Within.of hm ?_); exact rfl)
    | intro _
    | with_reducible apply alters_signalAnswer
    | with_reducible apply alters_report
    | with_reducible apply alters_whenAwake
    | with_reducible apply alters_signalCounter
    | with_reducible apply alters_drawFree
    | with_reducible apply Alters.ite
    | (refine Alters.snd (by assumption) ?_)
    | (refine Alters.fst (by assumption) ?_)
    | (refine Alters.thd (by assumption) ?_)
    | split
    | simp +zetaDelta only [AltersF.mkIff]
    | assumption

theorem alters_signalCame {M : Nat} {r : State} (f : Frame) (t : State) (h2 : Alters M r t) (hm : Within 36035120284631041 M) :
    Alters M r (signalCame f t) := by
  unfold signalCame
  try extract_lets
  repeat' first
    | with_reducible assumption
    | ((with_reducible refine Within.of hm ?_); exact rfl)
    | intro _
    | with_reducible apply alters_signalAnswer
    | with_reducible apply alters_report
    | with_reducible apply alters_signalIn
    | with_reducible apply Alters.ite
    | (refine Alters.snd (by assumption) ?_)
    | (refine Alters.fst (by assumption) ?_)
    | (refine Alters.thd (by assumption) ?_)
    | split
    | simp +zetaDelta only [AltersF.mkIff]
    | assumption

theorem alters_execFabricRequestFrame {M : Nat} {r : State} (f : Frame) (s : State) (h2 : Alters M r s) (hm : Within 144115188075821311 M) :
    AltersOut M r (execFabricRequestFrame f s) := by
  unfold execFabricRequestFrame
  try extract_lets
  repeat' first
    | with_reducible assumption
    | ((with_reducible refine Within.of hm ?_); exact rfl)
    | intro _
    | with_reducible apply AltersOut.next
    | with_reducible apply alters_frameIn
    | with_reducible apply alters_deliver
    | simp +zetaDelta only [AltersF.mkIff]
    | assumption

theorem alters_serveDeferred {M : Nat} {r : State} (d : Deferral) (s : State) (h2 : Alters M r s) (hm : Within 72058693549621249 M) :
    Alters M r (serveDeferred d s) := by
  unfold serveDeferred
  try extract_lets
  repeat' first
    | with_reducible assumption
    | ((with_reducible refine Within.of hm ?_); exact rfl)
    | intro _
    | with_reducible apply alters_answerMsg
    | with_reducible apply alters_refuseMsg
    | with_reducible apply alters_makeGrant
    | exact fabAlters_reqs _ _ (Within.of hm rfl)
    | exact fabAlters_rest _ _ (Within.of hm rfl) rfl
    | exact fabAlters_any _ _ (Within.of hm rfl)
    | with_reducible apply Alters.ite
    | (refine Alters.snd (by assumption) ?_)
    | (refine Alters.fst (by assumption) ?_)
    | (refine Alters.thd (by assumption) ?_)
    | with_reducible apply alters_set_fab
    | simp only [AltersF.mkIff]
    | split
    | simp +zetaDelta only [AltersF.mkIff]
    | assumption

theorem alters_execCounterSignalFrame {M : Nat} {r : State} (f : Frame) (s : State) (h2 : Alters M r s) (hm : Within 36035120284631041 M) :
    AltersOut M r (execCounterSignalFrame f s) := by
  unfold execCounterSignalFrame
  try extract_lets
  repeat' first
    | with_reducible assumption
    | ((with_reducible refine Within.of hm ?_); exact rfl)
    | intro _
    | with_reducible apply AltersOut.next
    | with_reducible apply alters_frameIn
    | with_reducible apply alters_signalCame
    | with_reducible apply AltersOut.ite
    | with_reducible apply Alters.ite
    | split
    | simp +zetaDelta only [AltersF.mkIff]
    | assumption

theorem alters_execGrant {M : Nat} {r : State} (f : Frame) (s : State) (h2 : Alters M r s) (hm : Within 72063091596132353 M) :
    AltersOut M r (execGrant f s) := by
  unfold execGrant
  try extract_lets
  repeat' first
    | with_reducible assumption
    | ((with_reducible refine Within.of hm ?_); exact rfl)
    | intro _
    | with_reducible apply AltersOut.next
    | with_reducible apply alters_creditFrame
    | with_reducible apply alters_grantIn
    | simp +zetaDelta only [AltersF.mkIff]
    | assumption

theorem alters_execGrantExpiry {M : Nat} {r : State} (part : Nat) (index : Nat) (s : State) (h3 : Alters M r s) (hm : Within 72058693549588480 M) :
    AltersOut M r (execGrantExpiry part index s) := by
  unfold execGrantExpiry
  try extract_lets
  repeat' first
    | with_reducible assumption
    | ((with_reducible refine Within.of hm ?_); exact rfl)
    | intro _
    | with_reducible apply AltersOut.next
    | with_reducible apply alters_endGrants
    | with_reducible apply alters_timeTo
    | (refine Alters.snd (by assumption) ?_)
    | (refine Alters.fst (by assumption) ?_)
    | (refine Alters.thd (by assumption) ?_)
    | split
    | simp +zetaDelta only [AltersF.mkIff]
    | assumption

theorem alters_execRelease {M : Nat} {r : State} (f : Frame) (s : State) (h2 : Alters M r s) (hm : Within 72063091596132352 M) :
    AltersOut M r (execRelease f s) := by
  unfold execRelease
  try extract_lets
  repeat' first
    | with_reducible assumption
    | ((with_reducible refine Within.of hm ?_); exact rfl)
    | intro _
    | with_reducible apply AltersOut.next
    | with_reducible apply alters_creditFrame
    | with_reducible apply alters_releaseIn
    | simp +zetaDelta only [AltersF.mkIff]
    | assumption

theorem alters_execRenew {M : Nat} {r : State} (f : Frame) (s : State) (h2 : Alters M r s) (hm : Within 72063091596132352 M) :
    AltersOut M r (execRenew f s) := by
  unfold execRenew
  try extract_lets
  repeat' first
    | with_reducible assumption
    | ((with_reducible refine Within.of hm ?_); exact rfl)
    | intro _
    | with_reducible apply AltersOut.next
    | with_reducible apply alters_creditFrame
    | with_reducible apply alters_renewIn
    | simp +zetaDelta only [AltersF.mkIff]
    | assumption

theorem alters_execWithdraw {M : Nat} {r : State} (f : Frame) (s : State) (h2 : Alters M r s) (hm : Within 72057594037993472 M) :
    AltersOut M r (execWithdraw f s) := by
  unfold execWithdraw
  try extract_lets
  repeat' first
    | with_reducible assumption
    | ((with_reducible refine Within.of hm ?_); exact rfl)
    | intro _
    | with_reducible apply AltersOut.next
    | with_reducible apply alters_creditFrame
    | with_reducible apply alters_withdrawIn
    | simp +zetaDelta only [AltersF.mkIff]
    | assumption

theorem alters_execDeferredGrantServe {M : Nat} {r : State} (part : Nat) (s : State) (h2 : Alters M r s) (hm : Within 72063091596132353 M) :
    AltersOut M r (execDeferredGrantServe part s) := by
  unfold execDeferredGrantServe
  try extract_lets
  repeat' first
    | with_reducible assumption
    | ((with_reducible refine Within.of hm ?_); exact rfl)
    | intro _
    | with_reducible apply AltersOut.next
    | with_reducible apply alters_whenAwake
    | with_reducible apply alters_serveDeferred
    | (refine Alters.snd (by assumption) ?_)
    | (refine Alters.fst (by assumption) ?_)
    | (refine Alters.thd (by assumption) ?_)
    | split
    | simp +zetaDelta only [AltersF.mkIff]
    | assumption

end Sys2Proof.Laws
end

