-- ==== Sys2Proof/Laws/AltersBeats.lean ====
section
/-! SUPPORT. Laws/AltersBeats.lean: which kinds of state the operations of Machine/Beats.lean may change (Laws/Alters.lean). -/
namespace Sys2Proof.Laws
open Sys2Proof.Machine
set_option linter.all false

theorem alters_ownMessage {M : Nat} {r : State} (f : Frame) (s : State) (h2 : Alters M r s) (hm : Within 108094913348305727 M) :
    Alters M r (ownMessage f s) := by
  unfold ownMessage
  try extract_lets
  repeat' first
    | with_reducible assumption
    | ((with_reducible refine Within.of hm ?_); exact rfl)
    | intro _
    | with_reducible apply alters_grantIn
    | with_reducible apply alters_renewIn
    | with_reducible apply alters_releaseIn
    | with_reducible apply alters_withdrawIn
    | with_reducible apply alters_grantAnswer
    | with_reducible apply alters_renewAnswer
    | with_reducible apply alters_releaseAnswer
    | with_reducible apply alters_deferredNotice
    | with_reducible apply Alters.ite
    | (refine Alters.snd (by assumption) ?_)
    | (refine Alters.fst (by assumption) ?_)
    | (refine Alters.thd (by assumption) ?_)
    | split
    | simp +zetaDelta only [AltersF.mkIff]
    | assumption

theorem alters_ownDeliver {M : Nat} {r : State} (f : Frame) (s : State) (h2 : Alters M r s) (hm : Within 144115188075822079 M) :
    Alters M r (ownDeliver f s) := by
  unfold ownDeliver
  try extract_lets
  repeat' first
    | with_reducible assumption
    | ((with_reducible refine Within.of hm ?_); exact rfl)
    | intro _
    | with_reducible apply alters_deliver
    | with_reducible apply alters_takeAnswer
    | with_reducible apply alters_ownMessage
    | with_reducible apply alters_signalAnswered
    | with_reducible apply alters_signalCame
    | with_reducible apply Alters.ite
    | (refine Alters.snd (by assumption) ?_)
    | (refine Alters.fst (by assumption) ?_)
    | (refine Alters.thd (by assumption) ?_)
    | split
    | simp +zetaDelta only [AltersF.mkIff]
    | assumption

theorem alters_ownOne {M : Nat} {r : State} (s : State) (o : Out) (h1 : Alters M r s) (hm : Within 144115188075822079 M) :
    Alters M r (ownOne s o) := by
  unfold ownOne
  try extract_lets
  repeat' first
    | with_reducible assumption
    | ((with_reducible refine Within.of hm ?_); exact rfl)
    | intro _
    | with_reducible apply alters_ownDeliver
    | with_reducible apply Alters.ite
    | (refine Alters.snd (by assumption) ?_)
    | (refine Alters.fst (by assumption) ?_)
    | (refine Alters.thd (by assumption) ?_)
    | with_reducible apply alters_set_outbox
    | simp only [AltersF.mkIff]
    | split
    | simp +zetaDelta only [AltersF.mkIff]
    | assumption

theorem alters_ownFrames {M : Nat} {r : State} (s : State) (h1 : Alters M r s) (hm : Within 144115188075822079 M) :
    Alters M r (ownFrames s) := by
  unfold ownFrames
  try extract_lets
  repeat' first
    | with_reducible assumption
    | ((with_reducible refine Within.of hm ?_); exact rfl)
    | intro _
    | with_reducible apply alters_ownOne
    | with_reducible apply Alters.ite
    | with_reducible apply Alters.foldl
    | with_reducible apply Alters.foldlP (p := Prod.snd)
    | with_reducible apply Alters.foldlP (p := Prod.fst)
    | with_reducible apply Alters.foldlT
    | split
    | simp +zetaDelta only [AltersF.mkIff]
    | assumption

theorem alters_execBankBeat {M : Nat} {r : State} (s : State) (h1 : Alters M r s) (hm : Within 144115188075822079 M) :
    AltersOut M r (execBankBeat s) := by
  unfold execBankBeat
  split
  · have k := alters_countBubble _ (alters_darnSteps _ (alters_restTimers _ h1 (hm.of rfl)) (hm.of rfl)) (hm.of rfl)
    exact AltersOut.next (alters_ownFrames _ (alters_bankCycle _ _ _ k (hm.of rfl)) (hm.of rfl))
  · exact AltersOut.next h1

end Sys2Proof.Laws
end

