-- ==== Sys2Proof/Laws/AltersPower.lean ====
section
/-! SUPPORT. Laws/AltersPower.lean: which kinds of state the operations of Machine/Power.lean may change (Laws/Alters.lean). -/
namespace Sys2Proof.Laws
open Sys2Proof.Machine
set_option linter.all false

theorem alters_requestPoint {M : Nat} {r : State} (p : Nat) (s : State) (h2 : Alters M r s) (hm : Within 26388279066624 M) :
    Alters M r (requestPoint p s) := by
  unfold requestPoint
  try extract_lets
  repeat' first
    | with_reducible assumption
    | ((with_reducible refine Within.of hm ?_); exact rfl)
    | intro _
    | exact ctlAlters_pwr _ _ (Within.of hm rfl)
    | exact ctlAlters_rest _ _ (Within.of hm rfl) rfl
    | exact ctlAlters_any _ _ (Within.of hm rfl)
    | with_reducible apply Alters.ite
    | with_reducible apply alters_set_ctl
    | with_reducible apply alters_set_ctl_power
    | simp only [AltersF.mkIff]
    | split
    | simp +zetaDelta only [AltersF.mkIff]
    | assumption

theorem alters_lockNow {M : Nat} {r : State} (l : FLock) (o : Origin) (s : State) (h3 : Alters M r s) (hm : Within 27495306889216 M) :
    Alters M r (lockNow l o s) := by
  unfold lockNow
  try extract_lets
  repeat' first
    | with_reducible assumption
    | ((with_reducible refine Within.of hm ?_); exact rfl)
    | intro _
    | with_reducible apply alters_finish
    | with_reducible apply alters_requestPoint
    | with_reducible apply Alters.ite
    | (refine Alters.snd (by assumption) ?_)
    | (refine Alters.fst (by assumption) ?_)
    | (refine Alters.thd (by assumption) ?_)
    | with_reducible apply alters_set_power
    | simp only [AltersF.mkIff]
    | split
    | simp +zetaDelta only [AltersF.mkIff]
    | assumption

theorem alters_execFreqLock {M : Nat} {r : State} (cmd : Nat) (s : State) (h2 : Alters M r s) (hm : Within 27495306889216 M) :
    AltersOut M r (execFreqLock cmd s) := by
  unfold execFreqLock
  try extract_lets
  repeat' first
    | with_reducible assumption
    | ((with_reducible refine Within.of hm ?_); exact rfl)
    | intro _
    | with_reducible apply AltersOut.next
    | with_reducible apply alters_modCmd
    | with_reducible apply alters_cmdRefuse
    | with_reducible apply alters_lockNow
    | with_reducible apply AltersOut.ite
    | with_reducible apply Alters.ite
    | (refine Alters.snd (by assumption) ?_)
    | (refine Alters.fst (by assumption) ?_)
    | (refine Alters.thd (by assumption) ?_)
    | with_reducible apply alters_set_power
    | simp only [AltersF.mkIff]
    | split
    | simp +zetaDelta only [AltersF.mkIff]
    | assumption

theorem alters_thermal {M : Nat} {r : State} (temps : List Nat) (s : State) (h2 : Alters M r s) (hm : Within 26388279066624 M) :
    Alters M r (thermal temps s) := by
  unfold thermal
  try extract_lets
  repeat' first
    | with_reducible assumption
    | ((with_reducible refine Within.of hm ?_); exact rfl)
    | intro _
    | with_reducible apply alters_requestPoint
    | with_reducible apply Alters.ite
    | (refine Alters.snd (by assumption) ?_)
    | (refine Alters.fst (by assumption) ?_)
    | (refine Alters.thd (by assumption) ?_)
    | with_reducible apply alters_set_power
    | simp only [AltersF.mkIff]
    | split
    | simp +zetaDelta only [AltersF.mkIff]
    | assumption

theorem alters_applyCaps {M : Nat} {r : State} (s : State) (h1 : Alters M r s) (hm : Within 17593259786240 M) :
    Alters M r (applyCaps s) := by
  unfold applyCaps
  try extract_lets
  repeat' first
    | with_reducible assumption
    | ((with_reducible refine Within.of hm ?_); exact rfl)
    | intro _
    | with_reducible apply alters_cmdDone
    | with_reducible apply Alters.foldl
    | with_reducible apply Alters.foldlP (p := Prod.snd)
    | with_reducible apply Alters.foldlP (p := Prod.fst)
    | with_reducible apply Alters.foldlT
    | (refine Alters.snd (by assumption) ?_)
    | (refine Alters.fst (by assumption) ?_)
    | (refine Alters.thd (by assumption) ?_)
    | with_reducible apply alters_set_power
    | simp only [AltersF.mkIff]
    | split
    | simp +zetaDelta only [AltersF.mkIff]
    | assumption

theorem alters_pointSteps {M : Nat} {r : State} (w : Window) (e : Nat) (full : Bool) (pr : Nat → Nat) (s : State) (h5 : Alters M r s) (hm : Within 26388279066624 M) :
    Alters M r (pointSteps w e full pr s) := by
  unfold pointSteps
  try extract_lets
  repeat' first
    | with_reducible assumption
    | ((with_reducible refine Within.of hm ?_); exact rfl)
    | intro _
    | with_reducible apply alters_requestPoint
    | with_reducible apply Alters.ite
    | (refine Alters.snd (by assumption) ?_)
    | (refine Alters.fst (by assumption) ?_)
    | (refine Alters.thd (by assumption) ?_)
    | with_reducible apply alters_set_power
    | simp only [AltersF.mkIff]
    | split
    | simp +zetaDelta only [AltersF.mkIff]
    | assumption

theorem alters_rails {M : Nat} {r : State} (currents : List Nat) (s : State) (h2 : Alters M r s) (hm : Within 17592186044417 M) :
    Alters M r (rails currents s) := by
  unfold rails
  try extract_lets
  repeat' first
    | with_reducible assumption
    | ((with_reducible refine Within.of hm ?_); exact rfl)
    | intro _
    | with_reducible apply alters_drawFree
    | with_reducible apply Alters.ite
    | with_reducible apply Alters.foldl
    | with_reducible apply Alters.foldlP (p := Prod.snd)
    | with_reducible apply Alters.foldlP (p := Prod.fst)
    | with_reducible apply Alters.foldlT
    | (refine Alters.snd (by assumption) ?_)
    | (refine Alters.fst (by assumption) ?_)
    | (refine Alters.thd (by assumption) ?_)
    | with_reducible apply alters_set_power
    | simp only [AltersF.mkIff]
    | split
    | simp +zetaDelta only [AltersF.mkIff]
    | assumption

theorem alters_chargeModel {M : Nat} {r : State} (p : Nat) (temps : List Nat) (charges : List (Nat × Nat)) (s : State) (h4 : Alters M r s) (hm : Within 1310720 M) :
    Alters M r (chargeModel p temps charges s) := by
  have R : Within 262144 M := hm.of rfl
  unfold chargeModel
  extract_lets s1
  have k1 : Alters M r s1 := by
    apply Alters.foldl
    · assumption
    · intro t x h
      dsimp only
      split
      · exact alters_setPart _ _ _ (alters_modCtx_core _ _ _ h (fun _ => rfl) R) (hm.of rfl)
      · exact h
  refine Alters.foldl _ k1 fun t q h => ?_
  extract_lets r e act t1
  split
  · exact h
  · split
    · exact alters_setPart _ _ _ h (hm.of rfl)
    · exact Alters.foldl _ (alters_setPart _ _ _ h (hm.of rfl)) fun u c k => alters_modCtx_core _ _ _ k (fun _ => rfl) R

theorem alters_countReasons {M : Nat} {r : State} (new : Nat) (s : State) (h2 : Alters M r s) (hm : Within 17592186044416 M) :
    Alters M r (countReasons new s) := by
  unfold countReasons
  exact alters_set_power h2 (hm.of rfl)

theorem alters_estimate {M : Nat} {r : State} (counts : List Nat) (temps : List Nat) (currents : List Nat) (charges : List (Nat × Nat)) (s : State) (h5 : Alters M r s) (hm : Within 26389354119169 M) :
    Alters M r (estimate counts temps currents charges s) := by
  have k1 : Alters M r (thermal temps (applyCaps s)) := alters_thermal _ _ (alters_applyCaps _ h5 (hm.of rfl)) (hm.of rfl)
  unfold estimate
  generalize thermal temps (applyCaps s) = s1 at k1 ⊢
  dsimp only
  refine alters_set_power (alters_countReasons _ _ (alters_chargeModel _ _ _ _ (alters_rails _ _ (alters_pointSteps _ _ _ _ _ ?_ (hm.of rfl)) (hm.of rfl)) (hm.of rfl)) (hm.of rfl)) (hm.of rfl)
  exact alters_set_power k1 (hm.of rfl)

theorem alters_execEstimateWindow {M : Nat} {r : State} (counts : List Nat) (temps : List Nat) (currents : List Nat) (charges : List (Nat × Nat)) (s : State) (h5 : Alters M r s) (hm : Within 26389354151937 M) :
    AltersOut M r (execEstimateWindow counts temps currents charges s) := by
  unfold execEstimateWindow
  split
  · exact AltersOut.next h5
  · exact AltersOut.next (alters_estimate _ _ _ _ _ (alters_set_rc_power h5 (hm.of rfl)) (hm.of rfl))

theorem alters_execCapSet {M : Nat} {r : State} (cmd : Nat) (s : State) (h2 : Alters M r s) (hm : Within 17593259786240 M) :
    AltersOut M r (execCapSet cmd s) := by
  unfold execCapSet
  try extract_lets
  repeat' first
    | with_reducible assumption
    | ((with_reducible refine Within.of hm ?_); exact rfl)
    | intro _
    | with_reducible apply AltersOut.next
    | with_reducible apply alters_cmdRefuse
    | with_reducible apply alters_modCmd
    | with_reducible apply AltersOut.ite
    | with_reducible apply Alters.ite
    | (refine Alters.snd (by assumption) ?_)
    | (refine Alters.fst (by assumption) ?_)
    | (refine Alters.thd (by assumption) ?_)
    | with_reducible apply alters_set_power
    | simp only [AltersF.mkIff]
    | split
    | simp +zetaDelta only [AltersF.mkIff]
    | assumption

theorem alters_execPowerHint {M : Nat} {r : State} (cmd : Nat) (s : State) (h2 : Alters M r s) (hm : Within 17593259786240 M) :
    AltersOut M r (execPowerHint cmd s) := by
  unfold execPowerHint
  try extract_lets
  repeat' first
    | with_reducible assumption
    | ((with_reducible refine Within.of hm ?_); exact rfl)
    | intro _
    | with_reducible apply AltersOut.next
    | with_reducible apply alters_cmdDone
    | with_reducible apply AltersOut.ite
    | with_reducible apply Alters.ite
    | (refine Alters.snd (by assumption) ?_)
    | (refine Alters.fst (by assumption) ?_)
    | (refine Alters.thd (by assumption) ?_)
    | with_reducible apply alters_set_power
    | simp only [AltersF.mkIff]
    | split
    | simp +zetaDelta only [AltersF.mkIff]
    | assumption

theorem alters_execOpChangeDone {M : Nat} {r : State} (s : State) (h1 : Alters M r s) (hm : Within 27495306889216 M) :
    AltersOut M r (execOpChangeDone s) := by
  unfold execOpChangeDone
  try extract_lets
  repeat' first
    | with_reducible assumption
    | ((with_reducible refine Within.of hm ?_); exact rfl)
    | intro _
    | with_reducible apply AltersOut.next
    | with_reducible apply alters_requestPoint
    | with_reducible apply alters_finishAll
    | exact ctlAlters_pwr _ _ (Within.of hm rfl)
    | exact ctlAlters_rest _ _ (Within.of hm rfl) rfl
    | exact ctlAlters_any _ _ (Within.of hm rfl)
    | with_reducible apply AltersOut.ite
    | with_reducible apply Alters.ite
    | (refine Alters.snd (by assumption) ?_)
    | (refine Alters.fst (by assumption) ?_)
    | (refine Alters.thd (by assumption) ?_)
    | with_reducible apply alters_set_ctl_power
    | with_reducible apply alters_set_power
    | simp only [AltersF.mkIff]
    | split
    | simp +zetaDelta only [AltersF.mkIff]
    | assumption

theorem alters_execFreqLockAt {M : Nat} {r : State} (s : State) (h1 : Alters M r s) (hm : Within 27495306921984 M) :
    AltersOut M r (execFreqLockAt s) := by
  unfold execFreqLockAt
  try extract_lets
  repeat' first
    | with_reducible assumption
    | ((with_reducible refine Within.of hm ?_); exact rfl)
    | intro _
    | with_reducible apply AltersOut.next
    | with_reducible apply alters_timeTo
    | with_reducible apply alters_lockNow
    | with_reducible apply Alters.foldl
    | with_reducible apply Alters.foldlP (p := Prod.snd)
    | with_reducible apply Alters.foldlP (p := Prod.fst)
    | with_reducible apply Alters.foldlT
    | (refine Alters.snd (by assumption) ?_)
    | (refine Alters.fst (by assumption) ?_)
    | (refine Alters.thd (by assumption) ?_)
    | with_reducible apply alters_set_power
    | simp only [AltersF.mkIff]
    | split
    | simp +zetaDelta only [AltersF.mkIff]
    | assumption

theorem alters_execThermalTripTimeout {M : Nat} {r : State} (s : State) (h1 : Alters M r s) (hm : Within 17592186077184 M) :
    AltersOut M r (execThermalTripTimeout s) := by
  unfold execThermalTripTimeout
  try extract_lets
  repeat' first
    | with_reducible assumption
    | ((with_reducible refine Within.of hm ?_); exact rfl)
    | intro _
    | with_reducible apply AltersOut.next
    | with_reducible apply alters_timeTo
    | (refine Alters.snd (by assumption) ?_)
    | (refine Alters.fst (by assumption) ?_)
    | (refine Alters.thd (by assumption) ?_)
    | with_reducible apply alters_set_power
    | simp only [AltersF.mkIff]
    | split
    | simp +zetaDelta only [AltersF.mkIff]
    | assumption

end Sys2Proof.Laws
end

