-- ==== Sys2Proof/Laws/AltersRegRows.lean ====
section
/-! SUPPORT. Laws/AltersRegRows.lean: which kinds of state the operations of Machine/RegRows.lean may change (Laws/Alters.lean). -/
namespace Sys2Proof.Laws
open Sys2Proof.Machine
set_option linter.all false

theorem alters_mgmtWrite {M : Nat} {r : State} (bs : List Byte) (s : State) (h2 : Alters M r s) (hm : Within 9895605782528 M) :
    Alters M r (mgmtWrite bs s) := by
  unfold mgmtWrite
  try extract_lets
  repeat' first
    | exact fun _ => rfl
    | with_reducible assumption
    | ((with_reducible refine Within.of hm ?_); exact rfl)
    | intro _
    | with_reducible apply alters_emit
    | with_reducible apply alters_modCtl
    | with_reducible apply alters_devPwrWrite
    | with_reducible apply Alters.ite
    | (refine Alters.snd (by assumption) ?_)
    | (refine Alters.fst (by assumption) ?_)
    | (refine Alters.thd (by assumption) ?_)
    | split
    | simp +zetaDelta only [AltersF.mkIff]
    | assumption

theorem alters_execManagementWrite {M : Nat} {r : State} (bytes : List Byte) (s : State) (h2 : Alters M r s) (hm : Within 9895605782528 M) :
    AltersOut M r (execManagementWrite bytes s) := by
  unfold execManagementWrite
  try extract_lets
  repeat' first
    | with_reducible assumption
    | ((with_reducible refine Within.of hm ?_); exact rfl)
    | intro _
    | with_reducible apply AltersOut.next
    | with_reducible apply alters_i3cWake
    | with_reducible apply alters_mgmtWrite
    | with_reducible apply AltersOut.ite
    | with_reducible apply Alters.ite
    | split
    | simp +zetaDelta only [AltersF.mkIff]
    | assumption

theorem alters_writeRow {M : Nat} {r : State} (a : Nat) (v : Nat) (w : RegWriter) (s : State) (h4 : Alters M r s) (hm : Within 144115188075821310 M) :
    AltersOut M r (writeRow a v w s) := by
  unfold writeRow
  try extract_lets
  repeat' first
    | with_reducible assumption
    | ((with_reducible refine Within.of hm ?_); exact rfl)
    | intro _
    | with_reducible apply AltersOut.next
    | with_reducible apply alters_regRow
    | with_reducible apply alters_regWrite
    | simp +zetaDelta only [AltersF.mkIff]
    | assumption

theorem alters_pwrRow {M : Nat} {r : State} (slice : Nat) (op : Nat) (noWait : Bool) (w : RegWriter) (s : State) (h5 : Alters M r s) (hm : Within 144115188075821310 M) :
    AltersOut M r (pwrRow slice op noWait w s) := by
  unfold pwrRow
  try extract_lets
  repeat' first
    | with_reducible assumption
    | ((with_reducible refine Within.of hm ?_); exact rfl)
    | intro _
    | with_reducible apply AltersOut.next
    | with_reducible apply alters_writeRow
    | simp +zetaDelta only [AltersF.mkIff]
    | assumption

theorem alters_execWake {M : Nat} {r : State} (slice : Nat) (noWait : Bool) (w : RegWriter) (s : State) (h4 : Alters M r s) (hm : Within 144115188075821310 M) :
    AltersOut M r (execWake slice noWait w s) := by
  unfold execWake
  try extract_lets
  repeat' first
    | with_reducible assumption
    | ((with_reducible refine Within.of hm ?_); exact rfl)
    | intro _
    | with_reducible apply AltersOut.next
    | with_reducible apply alters_pwrRow
    | simp +zetaDelta only [AltersF.mkIff]
    | assumption

theorem alters_partRow {M : Nat} {r : State} (op : Nat) (part : Nat) (v : Nat) (w : RegWriter) (s : State) (h5 : Alters M r s) (hm : Within 144115188075821310 M) :
    AltersOut M r (partRow op part v w s) := by
  unfold partRow
  try extract_lets
  repeat' first
    | with_reducible assumption
    | ((with_reducible refine Within.of hm ?_); exact rfl)
    | intro _
    | with_reducible apply AltersOut.next
    | with_reducible apply alters_writeRow
    | with_reducible apply AltersOut.ite
    | with_reducible apply Alters.ite
    | split
    | simp +zetaDelta only [AltersF.mkIff]
    | assumption

theorem alters_execDissolve {M : Nat} {r : State} (part : Nat) (v : Word) (w : RegWriter) (s : State) (h4 : Alters M r s) (hm : Within 144115188075821310 M) :
    AltersOut M r (execDissolve part v w s) := by
  unfold execDissolve
  try extract_lets
  repeat' first
    | with_reducible assumption
    | ((with_reducible refine Within.of hm ?_); exact rfl)
    | intro _
    | with_reducible apply AltersOut.next
    | with_reducible apply alters_partRow
    | simp +zetaDelta only [AltersF.mkIff]
    | assumption

theorem alters_execSeal {M : Nat} {r : State} (part : Nat) (v : Word) (w : RegWriter) (s : State) (h4 : Alters M r s) (hm : Within 144115188075821310 M) :
    AltersOut M r (execSeal part v w s) := by
  unfold execSeal
  try extract_lets
  repeat' first
    | with_reducible assumption
    | ((with_reducible refine Within.of hm ?_); exact rfl)
    | intro _
    | with_reducible apply AltersOut.next
    | with_reducible apply alters_partRow
    | simp +zetaDelta only [AltersF.mkIff]
    | assumption

theorem alters_chanRow {M : Nat} {r : State} (op : Nat) (slice : Nat) (mover : Nat) (ch : Nat) (v : Nat) (w : RegWriter) (s : State) (h7 : Alters M r s) (hm : Within 144115188075821310 M) :
    AltersOut M r (chanRow op slice mover ch v w s) := by
  unfold chanRow
  try extract_lets
  repeat' first
    | with_reducible assumption
    | ((with_reducible refine Within.of hm ?_); exact rfl)
    | intro _
    | with_reducible apply AltersOut.next
    | with_reducible apply alters_writeRow
    | with_reducible apply AltersOut.ite
    | with_reducible apply Alters.ite
    | split
    | simp +zetaDelta only [AltersF.mkIff]
    | assumption

theorem alters_execStart {M : Nat} {r : State} (slice : Nat) (mover : Nat) (ch : Nat) (v : Word) (w : RegWriter) (s : State) (h6 : Alters M r s) (hm : Within 144115188075821310 M) :
    AltersOut M r (execStart slice mover ch v w s) := by
  unfold execStart
  try extract_lets
  repeat' first
    | with_reducible assumption
    | ((with_reducible refine Within.of hm ?_); exact rfl)
    | intro _
    | with_reducible apply AltersOut.next
    | with_reducible apply alters_chanRow
    | simp +zetaDelta only [AltersF.mkIff]
    | assumption

theorem alters_execConfigure {M : Nat} {r : State} (part : Nat) (v : Word) (w : RegWriter) (s : State) (h4 : Alters M r s) (hm : Within 144115188075821310 M) :
    AltersOut M r (execConfigure part v w s) := by
  unfold execConfigure
  try extract_lets
  repeat' first
    | with_reducible assumption
    | ((with_reducible refine Within.of hm ?_); exact rfl)
    | intro _
    | with_reducible apply AltersOut.next
    | with_reducible apply alters_partRow
    | simp +zetaDelta only [AltersF.mkIff]
    | assumption

theorem alters_regMiss {M : Nat} {r : State} (c : Cmd) (s : State) (h2 : Alters M r s) (hm : Within 1073807360 M) :
    Alters M r (regMiss c s) := by
  unfold regMiss
  try extract_lets
  repeat' first
    | with_reducible assumption
    | ((with_reducible refine Within.of hm ?_); exact rfl)
    | intro _
    | with_reducible apply alters_report
    | with_reducible apply alters_cmdRefuse
    | with_reducible apply Alters.ite
    | split
    | simp +zetaDelta only [AltersF.mkIff]
    | assumption

theorem alters_regWriteEnd {M : Nat} {r : State} (id : Nat) (x : RegRes) (h2 : Alters M r x.2) (hm : Within 1073741824 M) :
    Alters M r (regWriteEnd id x) := by
  unfold regWriteEnd
  try extract_lets
  repeat' first
    | with_reducible assumption
    | ((with_reducible refine Within.of hm ?_); exact rfl)
    | intro _
    | with_reducible apply alters_cmdDone
    | with_reducible apply alters_modCmd
    | (refine Alters.snd (by assumption) ?_)
    | (refine Alters.fst (by assumption) ?_)
    | (refine Alters.thd (by assumption) ?_)
    | split
    | simp +zetaDelta only [AltersF.mkIff]
    | assumption

theorem alters_execRegWrite {M : Nat} {r : State} (cmd : Nat) (s : State) (h2 : Alters M r s) (hm : Within 144115188075821310 M) :
    AltersOut M r (execRegWrite cmd s) := by
  unfold execRegWrite
  try extract_lets
  repeat' first
    | with_reducible assumption
    | ((with_reducible refine Within.of hm ?_); exact rfl)
    | intro _
    | with_reducible apply AltersOut.next
    | with_reducible apply alters_regMiss
    | with_reducible apply alters_regWriteEnd
    | with_reducible apply alters_regWrite
    | with_reducible apply AltersOut.ite
    | with_reducible apply Alters.ite
    | (refine Alters.snd (by assumption) ?_)
    | (refine Alters.fst (by assumption) ?_)
    | (refine Alters.thd (by assumption) ?_)
    | split
    | simp +zetaDelta only [AltersF.mkIff]
    | assumption

theorem alters_execRetain {M : Nat} {r : State} (slice : Nat) (noWait : Bool) (w : RegWriter) (s : State) (h4 : Alters M r s) (hm : Within 144115188075821310 M) :
    AltersOut M r (execRetain slice noWait w s) := by
  unfold execRetain
  try extract_lets
  repeat' first
    | with_reducible assumption
    | ((with_reducible refine Within.of hm ?_); exact rfl)
    | intro _
    | with_reducible apply AltersOut.next
    | with_reducible apply alters_pwrRow
    | simp +zetaDelta only [AltersF.mkIff]
    | assumption

theorem alters_execCuBootWrite {M : Nat} {r : State} (v : Word) (w : RegWriter) (s : State) (h3 : Alters M r s) (hm : Within 144115188075821310 M) :
    AltersOut M r (execCuBootWrite v w s) := by
  unfold execCuBootWrite
  try extract_lets
  repeat' first
    | with_reducible assumption
    | ((with_reducible refine Within.of hm ?_); exact rfl)
    | intro _
    | with_reducible apply AltersOut.next
    | with_reducible apply alters_writeRow
    | simp +zetaDelta only [AltersF.mkIff]
    | assumption

theorem alters_execRegRead {M : Nat} {r : State} (cmd : Nat) (s : State) (h2 : Alters M r s) (hm : Within 1073807360 M) :
    AltersOut M r (execRegRead cmd s) := by
  unfold execRegRead
  try extract_lets
  repeat' first
    | with_reducible assumption
    | ((with_reducible refine Within.of hm ?_); exact rfl)
    | intro _
    | with_reducible apply AltersOut.next
    | with_reducible apply alters_cmdDone
    | with_reducible apply alters_regMiss
    | with_reducible apply AltersOut.ite
    | with_reducible apply Alters.ite
    | (refine Alters.snd (by assumption) ?_)
    | (refine Alters.fst (by assumption) ?_)
    | (refine Alters.thd (by assumption) ?_)
    | split
    | simp +zetaDelta only [AltersF.mkIff]
    | assumption

theorem alters_qctlRow {M : Nat} {r : State} (slice : Nat) (op : Nat) (qidx : Nat) (noWait : Bool) (w : RegWriter) (s : State) (h6 : Alters M r s) (hm : Within 144115188075821310 M) :
    AltersOut M r (qctlRow slice op qidx noWait w s) := by
  unfold qctlRow
  try extract_lets
  repeat' first
    | with_reducible assumption
    | ((with_reducible refine Within.of hm ?_); exact rfl)
    | intro _
    | with_reducible apply AltersOut.next
    | with_reducible apply alters_writeRow
    | simp +zetaDelta only [AltersF.mkIff]
    | assumption

theorem alters_execUnpin {M : Nat} {r : State} (slice : Nat) (qidx : Nat) (w : RegWriter) (s : State) (h4 : Alters M r s) (hm : Within 144115188075821310 M) :
    AltersOut M r (execUnpin slice qidx w s) := by
  unfold execUnpin
  try extract_lets
  repeat' first
    | with_reducible assumption
    | ((with_reducible refine Within.of hm ?_); exact rfl)
    | intro _
    | with_reducible apply AltersOut.next
    | with_reducible apply alters_qctlRow
    | simp +zetaDelta only [AltersF.mkIff]
    | assumption

theorem alters_execOff {M : Nat} {r : State} (slice : Nat) (noWait : Bool) (w : RegWriter) (s : State) (h4 : Alters M r s) (hm : Within 144115188075821310 M) :
    AltersOut M r (execOff slice noWait w s) := by
  unfold execOff
  try extract_lets
  repeat' first
    | with_reducible assumption
    | ((with_reducible refine Within.of hm ?_); exact rfl)
    | intro _
    | with_reducible apply AltersOut.next
    | with_reducible apply alters_pwrRow
    | simp +zetaDelta only [AltersF.mkIff]
    | assumption

theorem alters_portRow {M : Nat} {r : State} (slice : Nat) (port : Nat) (off : Nat) (v : Nat) (w : RegWriter) (s : State) (h6 : Alters M r s) (hm : Within 144115188075821310 M) :
    AltersOut M r (portRow slice port off v w s) := by
  unfold portRow
  try extract_lets
  repeat' first
    | with_reducible assumption
    | ((with_reducible refine Within.of hm ?_); exact rfl)
    | intro _
    | with_reducible apply AltersOut.next
    | with_reducible apply alters_writeRow
    | with_reducible apply AltersOut.ite
    | with_reducible apply Alters.ite
    | split
    | simp +zetaDelta only [AltersF.mkIff]
    | assumption

theorem alters_execPortCtxWrite {M : Nat} {r : State} (slice : Nat) (port : Nat) (v : Word) (w : RegWriter) (s : State) (h5 : Alters M r s) (hm : Within 144115188075821310 M) :
    AltersOut M r (execPortCtxWrite slice port v w s) := by
  unfold execPortCtxWrite
  try extract_lets
  repeat' first
    | with_reducible assumption
    | ((with_reducible refine Within.of hm ?_); exact rfl)
    | intro _
    | with_reducible apply AltersOut.next
    | with_reducible apply alters_portRow
    | simp +zetaDelta only [AltersF.mkIff]
    | assumption

theorem alters_execPortDisable {M : Nat} {r : State} (slice : Nat) (port : Nat) (noWait : Bool) (w : RegWriter) (s : State) (h5 : Alters M r s) (hm : Within 144115188075821310 M) :
    AltersOut M r (execPortDisable slice port noWait w s) := by
  unfold execPortDisable
  try extract_lets
  repeat' first
    | with_reducible assumption
    | ((with_reducible refine Within.of hm ?_); exact rfl)
    | intro _
    | with_reducible apply AltersOut.next
    | with_reducible apply alters_portRow
    | simp +zetaDelta only [AltersF.mkIff]
    | assumption

theorem alters_execQctlDb {M : Nat} {r : State} (slice : Nat) (v : Word) (w : RegWriter) (s : State) (h4 : Alters M r s) (hm : Within 144115188075821310 M) :
    AltersOut M r (execQctlDb slice v w s) := by
  unfold execQctlDb
  try extract_lets
  repeat' first
    | with_reducible assumption
    | ((with_reducible refine Within.of hm ?_); exact rfl)
    | intro _
    | with_reducible apply AltersOut.next
    | with_reducible apply alters_writeRow
    | simp +zetaDelta only [AltersF.mkIff]
    | assumption

theorem alters_execPortEnable {M : Nat} {r : State} (slice : Nat) (port : Nat) (noWait : Bool) (w : RegWriter) (s : State) (h5 : Alters M r s) (hm : Within 144115188075821310 M) :
    AltersOut M r (execPortEnable slice port noWait w s) := by
  unfold execPortEnable
  try extract_lets
  repeat' first
    | with_reducible assumption
    | ((with_reducible refine Within.of hm ?_); exact rfl)
    | intro _
    | with_reducible apply AltersOut.next
    | with_reducible apply alters_portRow
    | simp +zetaDelta only [AltersF.mkIff]
    | assumption

theorem alters_execIdle {M : Nat} {r : State} (slice : Nat) (noWait : Bool) (w : RegWriter) (s : State) (h4 : Alters M r s) (hm : Within 144115188075821310 M) :
    AltersOut M r (execIdle slice noWait w s) := by
  unfold execIdle
  try extract_lets
  repeat' first
    | with_reducible assumption
    | ((with_reducible refine Within.of hm ?_); exact rfl)
    | intro _
    | with_reducible apply AltersOut.next
    | with_reducible apply alters_pwrRow
    | simp +zetaDelta only [AltersF.mkIff]
    | assumption

theorem alters_execDisable {M : Nat} {r : State} (slice : Nat) (qidx : Nat) (w : RegWriter) (s : State) (h4 : Alters M r s) (hm : Within 144115188075821310 M) :
    AltersOut M r (execDisable slice qidx w s) := by
  unfold execDisable
  try extract_lets
  repeat' first
    | with_reducible assumption
    | ((with_reducible refine Within.of hm ?_); exact rfl)
    | intro _
    | with_reducible apply AltersOut.next
    | with_reducible apply alters_qctlRow
    | simp +zetaDelta only [AltersF.mkIff]
    | assumption

theorem alters_execDeep {M : Nat} {r : State} (w : RegWriter) (s : State) (h2 : Alters M r s) (hm : Within 144115188075821310 M) :
    AltersOut M r (execDeep w s) := by
  unfold execDeep
  try extract_lets
  repeat' first
    | with_reducible assumption
    | ((with_reducible refine Within.of hm ?_); exact rfl)
    | intro _
    | with_reducible apply AltersOut.next
    | with_reducible apply alters_writeRow
    | simp +zetaDelta only [AltersF.mkIff]
    | assumption

theorem alters_execQctlRack {M : Nat} {r : State} (slice : Nat) (v : Word) (w : RegWriter) (s : State) (h4 : Alters M r s) (hm : Within 144115188075821310 M) :
    AltersOut M r (execQctlRack slice v w s) := by
  unfold execQctlRack
  try extract_lets
  repeat' first
    | with_reducible assumption
    | ((with_reducible refine Within.of hm ?_); exact rfl)
    | intro _
    | with_reducible apply AltersOut.next
    | with_reducible apply alters_writeRow
    | simp +zetaDelta only [AltersF.mkIff]
    | assumption

theorem alters_execEnable {M : Nat} {r : State} (slice : Nat) (qidx : Nat) (noWait : Bool) (w : RegWriter) (s : State) (h5 : Alters M r s) (hm : Within 144115188075821310 M) :
    AltersOut M r (execEnable slice qidx noWait w s) := by
  unfold execEnable
  try extract_lets
  repeat' first
    | with_reducible assumption
    | ((with_reducible refine Within.of hm ?_); exact rfl)
    | intro _
    | with_reducible apply AltersOut.next
    | with_reducible apply alters_qctlRow
    | simp +zetaDelta only [AltersF.mkIff]
    | assumption

theorem alters_execPin {M : Nat} {r : State} (slice : Nat) (qidx : Nat) (w : RegWriter) (s : State) (h4 : Alters M r s) (hm : Within 144115188075821310 M) :
    AltersOut M r (execPin slice qidx w s) := by
  unfold execPin
  try extract_lets
  repeat' first
    | with_reducible assumption
    | ((with_reducible refine Within.of hm ?_); exact rfl)
    | intro _
    | with_reducible apply AltersOut.next
    | with_reducible apply alters_qctlRow
    | simp +zetaDelta only [AltersF.mkIff]
    | assumption

theorem alters_execSleeveCfgWrite {M : Nat} {r : State} (slice : Nat) (v : Word) (w : RegWriter) (s : State) (h4 : Alters M r s) (hm : Within 144115188075821310 M) :
    AltersOut M r (execSleeveCfgWrite slice v w s) := by
  unfold execSleeveCfgWrite
  try extract_lets
  repeat' first
    | with_reducible assumption
    | ((with_reducible refine Within.of hm ?_); exact rfl)
    | intro _
    | with_reducible apply AltersOut.next
    | with_reducible apply alters_writeRow
    | simp +zetaDelta only [AltersF.mkIff]
    | assumption

theorem alters_execBootCtlWrite {M : Nat} {r : State} (v : Word) (w : RegWriter) (s : State) (h3 : Alters M r s) (hm : Within 144115188075821310 M) :
    AltersOut M r (execBootCtlWrite v w s) := by
  unfold execBootCtlWrite
  try extract_lets
  repeat' first
    | with_reducible assumption
    | ((with_reducible refine Within.of hm ?_); exact rfl)
    | intro _
    | with_reducible apply AltersOut.next
    | with_reducible apply alters_writeRow
    | simp +zetaDelta only [AltersF.mkIff]
    | assumption

theorem alters_execRegisterWrite {M : Nat} {r : State} (addr : Nat) (size8 : Bool) (v : DWord) (w : RegWriter) (s : State) (h5 : Alters M r s) (hm : Within 144115188075821310 M) :
    AltersOut M r (execRegisterWrite addr size8 v w s) := by
  unfold execRegisterWrite
  try extract_lets
  repeat' first
    | with_reducible assumption
    | ((with_reducible refine Within.of hm ?_); exact rfl)
    | intro _
    | with_reducible apply AltersOut.next
    | with_reducible apply alters_regRow
    | with_reducible apply alters_regWrite
    | simp +zetaDelta only [AltersF.mkIff]
    | assumption

theorem alters_execStop {M : Nat} {r : State} (slice : Nat) (mover : Nat) (ch : Nat) (v : Word) (w : RegWriter) (s : State) (h6 : Alters M r s) (hm : Within 144115188075821310 M) :
    AltersOut M r (execStop slice mover ch v w s) := by
  unfold execStop
  try extract_lets
  repeat' first
    | with_reducible assumption
    | ((with_reducible refine Within.of hm ?_); exact rfl)
    | intro _
    | with_reducible apply AltersOut.next
    | with_reducible apply alters_chanRow
    | simp +zetaDelta only [AltersF.mkIff]
    | assumption

theorem alters_execSuspend {M : Nat} {r : State} (part : Nat) (v : Word) (w : RegWriter) (s : State) (h4 : Alters M r s) (hm : Within 144115188075821310 M) :
    AltersOut M r (execSuspend part v w s) := by
  unfold execSuspend
  try extract_lets
  repeat' first
    | with_reducible assumption
    | ((with_reducible refine Within.of hm ?_); exact rfl)
    | intro _
    | with_reducible apply AltersOut.next
    | with_reducible apply alters_partRow
    | simp +zetaDelta only [AltersF.mkIff]
    | assumption

theorem alters_execActivate {M : Nat} {r : State} (part : Nat) (v : Word) (w : RegWriter) (s : State) (h4 : Alters M r s) (hm : Within 144115188075821310 M) :
    AltersOut M r (execActivate part v w s) := by
  unfold execActivate
  try extract_lets
  repeat' first
    | with_reducible assumption
    | ((with_reducible refine Within.of hm ?_); exact rfl)
    | intro _
    | with_reducible apply AltersOut.next
    | with_reducible apply alters_partRow
    | simp +zetaDelta only [AltersF.mkIff]
    | assumption

theorem alters_execI3cCcc {M : Nat} {r : State} (code : Nat) (arg : Nat) (s : State) (h3 : Alters M r s) (hm : Within 9895604649985 M) :
    AltersOut M r (execI3cCcc code arg s) := by
  unfold execI3cCcc
  try extract_lets
  repeat' first
    | exact fun _ => rfl
    | with_reducible assumption
    | ((with_reducible refine Within.of hm ?_); exact rfl)
    | intro _
    | with_reducible apply AltersOut.next
    | with_reducible apply alters_modCtl
    | with_reducible apply alters_emit
    | with_reducible apply alters_drawFree
    | with_reducible apply AltersOut.ite
    | with_reducible apply Alters.ite
    | split
    | simp +zetaDelta only [AltersF.mkIff]
    | assumption

end Sys2Proof.Laws
end

