-- ==== Sys2Proof/Laws/Memory.lean ====
section
/-! SUPPORT. Laws/Memory.lean: every operation on the memories keeps their canonical form. -/
namespace Sys2Proof.Laws
open Sys2Proof.Machine

theorem memory_wf_iff {m : Mem} : Memory.wf m = true ↔ mwf (fun _ => 0) m.data = true ∧ mwf (fun _ => 0) m.chk = true ∧
    mwf (fun _ => false) m.tag = true ∧ mwf (fun _ => 0) m.sys = true ∧ mwf (fun _ => 0) m.boot = true ∧ mwf (fun _ => 0) m.ext = true ∧
    mwf (fun _ => false) m.extPoison = true ∧ mwf (fun _ => 0) m.extErr = true := by
  simp only [Memory.wf, Bool.and_eq_true, and_assoc]

theorem memory_wf_putUnit (u : Nat) (bs : List Byte) (tag : Bool) {m : Mem} (h : Memory.wf m = true) : Memory.wf (putUnit u bs tag m) = true := by
  rw [memory_wf_iff] at h ⊢
  exact ⟨mwf_mputList _ _ h.1, mwf_mputList _ _ h.2.1, mwf_mput _ _ h.2.2.1, h.2.2.2⟩

theorem memory_wf_putUnits (bad : Bool) (k : Nat) (bs : List (Byte × Nat)) : ∀ {m : Mem}, Memory.wf m = true →
    Memory.wf (bs.foldl (fun m (b, i) => putUnit (k + i) [b] bad m) m) = true := by
  induction bs with
  | nil => exact fun h => h
  | cons b bs ih => exact fun h => ih (memory_wf_putUnit _ _ _ h)

theorem memory_wf_clearKeys (p : Nat → Bool) {m : Mem} (h : Memory.wf m = true) : Memory.wf (clearKeys p m) = true := by
  rw [memory_wf_iff] at h ⊢
  exact ⟨mwf_mclear _ h.1, mwf_mclear _ h.2.1, mwf_mclear _ h.2.2.1, h.2.2.2⟩

theorem memory_wf_clearLines (bank lo hi : Nat) {m : Mem} (h : Memory.wf m = true) : Memory.wf (clearLines bank lo hi m) = true :=
  memory_wf_clearKeys _ h

/-- A change of the system region that keeps its form. -/
theorem memory_wf_sys {m : Mem} (x : NMap Byte) (h : Memory.wf m = true) (hx : mwf (fun _ => 0) m.sys = true → mwf (fun _ => 0) x = true) :
    Memory.wf { m with sys := x } = true := by
  rw [memory_wf_iff] at h ⊢
  exact ⟨h.1, h.2.1, h.2.2.1, hx h.2.2.2.1, h.2.2.2.2⟩

/-- A tag set, and what tags are owed changed. -/
theorem memory_wf_tag (k : Nat) (v : Bool) (o : List Nat) {m : Mem} (h : Memory.wf m = true) :
    Memory.wf { m with tag := mput (fun _ => false) m.tag k v, owed := o } = true := by
  rw [memory_wf_iff] at h ⊢
  exact ⟨h.1, h.2.1, mwf_mput _ _ h.2.2.1, h.2.2.2⟩

/-- External bytes written keep the form (18 R511). -/
theorem mwf_extMark (a : Nat) (ps : List Bool) : ∀ (l : List Nat) {m : NMap Bool}, mwf (fun _ => false) m = true →
    mwf (fun _ => false) (l.foldl (extMark a ps) m) = true
  | [], _, h => h
  | b :: l, m, h => by
    refine mwf_extMark a ps l ?_
    unfold extMark
    split
    · exact mwf_mput _ _ h
    · exact h

theorem memory_wf_ext (a : Nat) (bs : List (Byte × Bool)) {s : State} (h : Memory.wf s.mem = true) :
    Memory.wf (extWrite a bs s).mem = true := by
  rw [memory_wf_iff] at h ⊢
  exact ⟨h.1, h.2.1, h.2.2.1, h.2.2.2.1, h.2.2.2.2.1, mwf_mputList _ _ h.2.2.2.2.2.1, mwf_extMark _ _ _ h.2.2.2.2.2.2.1,
    h.2.2.2.2.2.2.2⟩

end Sys2Proof.Laws
end

