-- ==== Sys2Proof/Laws/Keep.lean ====
section
/-! SUPPORT. Laws/Keep.lean: what every operation of the block keeps: the queue of waiting commands, the tie-offs of the integration
(18 R517) and the form of the tables and memories; and that the counter of free values never falls. -/
namespace Sys2Proof.Laws
set_option linter.all false
set_option Elab.async false
open Sys2Proof.Machine

/-- What every effect keeps from `r` to `t`. -/
structure Keep (r t : State) : Prop where
  pending : t.pending = r.pending
  pp1 : t.pp1 = r.pp1
  unconn : t.unconn = r.unconn
  cgrp : t.cgrp = r.cgrp
  nfab : t.nfab = r.nfab
  fstop : t.fstop = r.fstop
  free : r.freeCtr ≤ t.freeCtr
  wf : r.wf = true → t.wf = true

/-- An outcome is a next state that keeps what every effect keeps. -/
def KeepOut (r : State) (o : Host.Outcome State Fault Refusal) : Prop := ∃ t, o = .next t ∧ Keep r t

theorem Keep.refl (s : State) : Keep s s := ⟨rfl, rfl, rfl, rfl, rfl, rfl, Nat.le_refl _, id⟩

theorem Keep.trans {a b c : State} (h : Keep a b) (k : Keep b c) : Keep a c :=
  ⟨k.pending.trans h.pending, k.pp1.trans h.pp1, k.unconn.trans h.unconn, k.cgrp.trans h.cgrp, k.nfab.trans h.nfab,
    k.fstop.trans h.fstop, Nat.le_trans h.free k.free, fun w => k.wf (h.wf w)⟩

/-- The parts of the form of the tables and memories. -/
theorem wf_iff {s : State} : s.wf = true ↔
    keysRise 0 s.regs = true ∧ keysRise 0 s.w1done = true ∧ keysRise 0 s.log.queues = true ∧ keysRise 0 s.log.counters = true ∧ keysRise 0
    s.integ = true ∧ keysRise 0 s.ctxs = true ∧ keysRise 0 s.parts = true ∧ keysRise 0 s.slices = true ∧ keysRise 0 s.queues = true ∧
    keysRise 0 s.qctl = true ∧ keysRise 0 s.dbPend = true ∧ keysRise 0 s.qEnabled = true ∧ keysRise 0 s.dbDrop = true ∧ keysRise 0 s.hwin =
    true ∧ keysRise 0 s.ports = true ∧ keysRise 0 s.sync.counters = true ∧ keysRise 0 s.sync.locks = true ∧ keysRise 0 s.movers.chans = true
    ∧ keysRise 0 s.movers.stage = true ∧ keysRise 0 s.ctl.pwr = true ∧ keysRise 0 s.keys = true ∧ keysRise 0 s.tdi = true ∧ keysRise 0
    s.ready = true ∧ keysRise 0 s.qirq = true ∧ keysRise 0 s.outerCut = true ∧ keysRise 0 s.outerUsed = true ∧ Memory.wf s.mem = true := by
  simp only [State.wf, State.tablesRise, Bool.and_eq_true, and_assoc]

/-- A change of fields that are no table neither adds to nor takes from it: the form a rewriter uses. -/
theorem Keep.mkIff {r s : State} {x_nextId : Nat} {x_bcnt : Nat} {x_bcRun : Bool} {x_rc : Nat} {x_qfetch : List (Nat × FetchFor)} {x_qback : List
    (Nat × List Word)} {x_cmds : List Cmd} {x_ops : List PortOp} {x_wb : List WbEntry} {x_beats : List Beat} {x_works : List Work} {x_busyBanks : List Nat} {x_clears :
    List ClearJob} {x_contracts : List Contract} {x_outbox : List Out} {x_fab : FabState} {x_power : PowerState} {x_meter : MeterState} {x_scrub
    : ScrubState} {x_test : TestState} :
    Keep r (State.mk s.pending s.freeCtr x_nextId s.mem s.regs s.w1done x_bcnt x_bcRun x_rc s.log s.integ s.ctxs s.parts s.slices s.queues s.qctl
    x_qfetch x_qback s.dbPend s.qEnabled s.dbDrop s.qirq s.hwin x_cmds s.ports x_ops x_wb x_beats x_works s.outerCut s.outerUsed x_busyBanks x_clears x_contracts s.sync s.movers
    x_outbox x_fab s.ctl x_power x_meter x_scrub x_test s.keys s.tdi s.ready s.pp1 s.unconn s.cgrp s.nfab s.fstop) ↔ Keep r s :=
  ⟨fun h => ⟨h.pending, h.pp1, h.unconn, h.cgrp, h.nfab, h.fstop, h.free, h.wf⟩,
    fun h => ⟨h.pending, h.pp1, h.unconn, h.cgrp, h.nfab, h.fstop, h.free, h.wf⟩⟩

/-- The same claim of a state given field by field: a head that only a state written out has. -/
def KeepF (r t : State) : Prop := Keep r t

theorem KeepF.mkIff {r : State} {x_pending : List Instr} {x_freeCtr : Nat} {x_nextId : Nat} {x_mem : Mem} {x_regs : NMap Word} {x_w1done : NMap
    Bool} {x_bcnt : Nat} {x_bcRun : Bool} {x_rc : Nat} {x_log : LogState} {x_integ : NMap Nat} {x_ctxs : NMap (Option Ctx)} {x_parts : NMap
    PartRec} {x_slices : NMap SliceRec} {x_queues : NMap (Option QueueRec)} {x_qctl : NMap QctlRec} {x_qfetch : List (Nat × FetchFor)} {x_qback :
    List (Nat × List Word)} {x_dbPend : NMap Bool} {x_qEnabled : NMap Bool} {x_dbDrop : NMap Nat} {x_qirq : NMap QIrq} {x_hwin : NMap DWord} {x_cmds : List Cmd}
    {x_ports : NMap PortRec} {x_ops : List PortOp} {x_wb : List WbEntry} {x_beats : List Beat} {x_works : List Work} {x_outerCut x_outerUsed : NMap Nat} {x_busyBanks : List Nat} {x_clears : List
    ClearJob} {x_contracts : List Contract} {x_sync : SyncState} {x_movers : MoverState} {x_outbox : List Out} {x_fab : FabState} {x_ctl :
    CtlState} {x_power : PowerState} {x_meter : MeterState} {x_scrub : ScrubState} {x_test : TestState} {x_keys : NMap (Option (Nat × Nat))}
    {x_tdi : NMap Nat} {x_ready : NMap Bool} {x_pp1 : NMap Bool} {x_unconn : NMap Bool} {x_cgrp : NMap Nat} {x_nfab : Nat} {x_fstop : NMap Nat} :
    Keep r (State.mk x_pending x_freeCtr x_nextId x_mem x_regs x_w1done x_bcnt x_bcRun x_rc x_log x_integ x_ctxs x_parts x_slices x_queues x_qctl
    x_qfetch x_qback x_dbPend x_qEnabled x_dbDrop x_qirq x_hwin x_cmds x_ports x_ops x_wb x_beats x_works x_outerCut x_outerUsed x_busyBanks x_clears x_contracts x_sync x_movers
    x_outbox x_fab x_ctl x_power x_meter x_scrub x_test x_keys x_tdi x_ready x_pp1 x_unconn x_cgrp x_nfab x_fstop) ↔ KeepF r (State.mk x_pending
    x_freeCtr x_nextId x_mem x_regs x_w1done x_bcnt x_bcRun x_rc x_log x_integ x_ctxs x_parts x_slices x_queues x_qctl x_qfetch x_qback x_dbPend
    x_qEnabled x_dbDrop x_qirq x_hwin x_cmds x_ports x_ops x_wb x_beats x_works x_outerCut x_outerUsed x_busyBanks x_clears x_contracts x_sync x_movers x_outbox x_fab x_ctl x_power
    x_meter x_scrub x_test x_keys x_tdi x_ready x_pp1 x_unconn x_cgrp x_nfab x_fstop) := Iff.rfl

/-- A change of tables, each keeping its form. -/
theorem KeepF.of {r s : State} {x_nextId : Nat} {x_mem : Mem} {x_regs : NMap Word} {x_w1done : NMap Bool} {x_bcnt : Nat} {x_bcRun : Bool} {x_rc :
    Nat} {x_log : LogState} {x_integ : NMap Nat} {x_ctxs : NMap (Option Ctx)} {x_parts : NMap PartRec} {x_slices : NMap SliceRec} {x_queues :
    NMap (Option QueueRec)} {x_qctl : NMap QctlRec} {x_qfetch : List (Nat × FetchFor)} {x_qback : List (Nat × List Word)} {x_dbPend : NMap Bool}
    {x_qEnabled : NMap Bool} {x_dbDrop : NMap Nat} {x_qirq : NMap QIrq} {x_hwin : NMap DWord} {x_cmds : List Cmd} {x_ports : NMap PortRec} {x_ops : List PortOp} {x_wb
    : List WbEntry} {x_beats : List Beat} {x_works : List Work} {x_outerCut x_outerUsed : NMap Nat} {x_busyBanks : List Nat} {x_clears : List ClearJob} {x_contracts : List Contract} {x_sync : SyncState}
    {x_movers : MoverState} {x_outbox : List Out} {x_fab : FabState} {x_ctl : CtlState} {x_power : PowerState} {x_meter : MeterState} {x_scrub :
    ScrubState} {x_test : TestState} {x_keys : NMap (Option (Nat × Nat))} {x_tdi : NMap Nat} {x_ready : NMap Bool}
    (h : Keep r s)
    (h1 : keysRise 0 s.regs = true → keysRise 0 x_regs = true := by first | with_reducible exact id | exact fun h => (by first | with_reducible exact h | with_reducible exact keysRise_mput _ _ h | with_reducible exact keysRise_mclear _ h | with_reducible exact keysRise_filter _ h | with_reducible exact keysRise_map _ h | with_reducible rfl | (simp_all [keysRise_mput, keysRise_mclear, keysRise_filter, keysRise_map, countWord, keysRise]; done) | (split <;> (simp_all [keysRise_mput, keysRise_mclear, keysRise_filter, keysRise_map, countWord, keysRise]; done))))
    (h2 : keysRise 0 s.w1done = true → keysRise 0 x_w1done = true := by first | with_reducible exact id | exact fun h => (by first | with_reducible exact h | with_reducible exact keysRise_mput _ _ h | with_reducible exact keysRise_mclear _ h | with_reducible exact keysRise_filter _ h | with_reducible exact keysRise_map _ h | with_reducible rfl | (simp_all [keysRise_mput, keysRise_mclear, keysRise_filter, keysRise_map, countWord, keysRise]; done) | (split <;> (simp_all [keysRise_mput, keysRise_mclear, keysRise_filter, keysRise_map, countWord, keysRise]; done))))
    (h3 : keysRise 0 s.log.queues = true → keysRise 0 x_log.queues = true := by first | with_reducible exact id | exact fun h => (by first | with_reducible exact h | with_reducible exact keysRise_mput _ _ h | with_reducible exact keysRise_mclear _ h | with_reducible exact keysRise_filter _ h | with_reducible exact keysRise_map _ h | with_reducible rfl | (simp_all [keysRise_mput, keysRise_mclear, keysRise_filter, keysRise_map, countWord, keysRise]; done) | (split <;> (simp_all [keysRise_mput, keysRise_mclear, keysRise_filter, keysRise_map, countWord, keysRise]; done))))
    (h4 : keysRise 0 s.log.counters = true → keysRise 0 x_log.counters = true := by first | with_reducible exact id | exact fun h => (by first | with_reducible exact h | with_reducible exact keysRise_mput _ _ h | with_reducible exact keysRise_mclear _ h | with_reducible exact keysRise_filter _ h | with_reducible exact keysRise_map _ h | with_reducible rfl | (simp_all [keysRise_mput, keysRise_mclear, keysRise_filter, keysRise_map, countWord, keysRise]; done) | (split <;> (simp_all [keysRise_mput, keysRise_mclear, keysRise_filter, keysRise_map, countWord, keysRise]; done))))
    (h5 : keysRise 0 s.integ = true → keysRise 0 x_integ = true := by first | with_reducible exact id | exact fun h => (by first | with_reducible exact h | with_reducible exact keysRise_mput _ _ h | with_reducible exact keysRise_mclear _ h | with_reducible exact keysRise_filter _ h | with_reducible exact keysRise_map _ h | with_reducible rfl | (simp_all [keysRise_mput, keysRise_mclear, keysRise_filter, keysRise_map, countWord, keysRise]; done) | (split <;> (simp_all [keysRise_mput, keysRise_mclear, keysRise_filter, keysRise_map, countWord, keysRise]; done))))
    (h6 : keysRise 0 s.ctxs = true → keysRise 0 x_ctxs = true := by first | with_reducible exact id | exact fun h => (by first | with_reducible exact h | with_reducible exact keysRise_mput _ _ h | with_reducible exact keysRise_mclear _ h | with_reducible exact keysRise_filter _ h | with_reducible exact keysRise_map _ h | with_reducible rfl | (simp_all [keysRise_mput, keysRise_mclear, keysRise_filter, keysRise_map, countWord, keysRise]; done) | (split <;> (simp_all [keysRise_mput, keysRise_mclear, keysRise_filter, keysRise_map, countWord, keysRise]; done))))
    (h7 : keysRise 0 s.parts = true → keysRise 0 x_parts = true := by first | with_reducible exact id | exact fun h => (by first | with_reducible exact h | with_reducible exact keysRise_mput _ _ h | with_reducible exact keysRise_mclear _ h | with_reducible exact keysRise_filter _ h | with_reducible exact keysRise_map _ h | with_reducible rfl | (simp_all [keysRise_mput, keysRise_mclear, keysRise_filter, keysRise_map, countWord, keysRise]; done) | (split <;> (simp_all [keysRise_mput, keysRise_mclear, keysRise_filter, keysRise_map, countWord, keysRise]; done))))
    (h8 : keysRise 0 s.slices = true → keysRise 0 x_slices = true := by first | with_reducible exact id | exact fun h => (by first | with_reducible exact h | with_reducible exact keysRise_mput _ _ h | with_reducible exact keysRise_mclear _ h | with_reducible exact keysRise_filter _ h | with_reducible exact keysRise_map _ h | with_reducible rfl | (simp_all [keysRise_mput, keysRise_mclear, keysRise_filter, keysRise_map, countWord, keysRise]; done) | (split <;> (simp_all [keysRise_mput, keysRise_mclear, keysRise_filter, keysRise_map, countWord, keysRise]; done))))
    (h9 : keysRise 0 s.queues = true → keysRise 0 x_queues = true := by first | with_reducible exact id | exact fun h => (by first | with_reducible exact h | with_reducible exact keysRise_mput _ _ h | with_reducible exact keysRise_mclear _ h | with_reducible exact keysRise_filter _ h | with_reducible exact keysRise_map _ h | with_reducible rfl | (simp_all [keysRise_mput, keysRise_mclear, keysRise_filter, keysRise_map, countWord, keysRise]; done) | (split <;> (simp_all [keysRise_mput, keysRise_mclear, keysRise_filter, keysRise_map, countWord, keysRise]; done))))
    (h10 : keysRise 0 s.qctl = true → keysRise 0 x_qctl = true := by first | with_reducible exact id | exact fun h => (by first | with_reducible exact h | with_reducible exact keysRise_mput _ _ h | with_reducible exact keysRise_mclear _ h | with_reducible exact keysRise_filter _ h | with_reducible exact keysRise_map _ h | with_reducible rfl | (simp_all [keysRise_mput, keysRise_mclear, keysRise_filter, keysRise_map, countWord, keysRise]; done) | (split <;> (simp_all [keysRise_mput, keysRise_mclear, keysRise_filter, keysRise_map, countWord, keysRise]; done))))
    (h11 : keysRise 0 s.dbPend = true → keysRise 0 x_dbPend = true := by first | with_reducible exact id | exact fun h => (by first | with_reducible exact h | with_reducible exact keysRise_mput _ _ h | with_reducible exact keysRise_mclear _ h | with_reducible exact keysRise_filter _ h | with_reducible exact keysRise_map _ h | with_reducible rfl | (simp_all [keysRise_mput, keysRise_mclear, keysRise_filter, keysRise_map, countWord, keysRise]; done) | (split <;> (simp_all [keysRise_mput, keysRise_mclear, keysRise_filter, keysRise_map, countWord, keysRise]; done))))
    (h12 : keysRise 0 s.qEnabled = true → keysRise 0 x_qEnabled = true := by first | with_reducible exact id | exact fun h => (by first | with_reducible exact h | with_reducible exact keysRise_mput _ _ h | with_reducible exact keysRise_mclear _ h | with_reducible exact keysRise_filter _ h | with_reducible exact keysRise_map _ h | with_reducible rfl | (simp_all [keysRise_mput, keysRise_mclear, keysRise_filter, keysRise_map, countWord, keysRise]; done) | (split <;> (simp_all [keysRise_mput, keysRise_mclear, keysRise_filter, keysRise_map, countWord, keysRise]; done))))
    (h13 : keysRise 0 s.dbDrop = true → keysRise 0 x_dbDrop = true := by first | with_reducible exact id | exact fun h => (by first | with_reducible exact h | with_reducible exact keysRise_mput _ _ h | with_reducible exact keysRise_mclear _ h | with_reducible exact keysRise_filter _ h | with_reducible exact keysRise_map _ h | with_reducible rfl | (simp_all [keysRise_mput, keysRise_mclear, keysRise_filter, keysRise_map, countWord, keysRise]; done) | (split <;> (simp_all [keysRise_mput, keysRise_mclear, keysRise_filter, keysRise_map, countWord, keysRise]; done))))
    (h14 : keysRise 0 s.hwin = true → keysRise 0 x_hwin = true := by first | with_reducible exact id | exact fun h => (by first | with_reducible exact h | with_reducible exact keysRise_mput _ _ h | with_reducible exact keysRise_mclear _ h | with_reducible exact keysRise_filter _ h | with_reducible exact keysRise_map _ h | with_reducible rfl | (simp_all [keysRise_mput, keysRise_mclear, keysRise_filter, keysRise_map, countWord, keysRise]; done) | (split <;> (simp_all [keysRise_mput, keysRise_mclear, keysRise_filter, keysRise_map, countWord, keysRise]; done))))
    (h15 : keysRise 0 s.ports = true → keysRise 0 x_ports = true := by first | with_reducible exact id | exact fun h => (by first | with_reducible exact h | with_reducible exact keysRise_mput _ _ h | with_reducible exact keysRise_mclear _ h | with_reducible exact keysRise_filter _ h | with_reducible exact keysRise_map _ h | with_reducible rfl | (simp_all [keysRise_mput, keysRise_mclear, keysRise_filter, keysRise_map, countWord, keysRise]; done) | (split <;> (simp_all [keysRise_mput, keysRise_mclear, keysRise_filter, keysRise_map, countWord, keysRise]; done))))
    (h16 : keysRise 0 s.sync.counters = true → keysRise 0 x_sync.counters = true := by first | with_reducible exact id | exact fun h => (by first | with_reducible exact h | with_reducible exact keysRise_mput _ _ h | with_reducible exact keysRise_mclear _ h | with_reducible exact keysRise_filter _ h | with_reducible exact keysRise_map _ h | with_reducible rfl | (simp_all [keysRise_mput, keysRise_mclear, keysRise_filter, keysRise_map, countWord, keysRise]; done) | (split <;> (simp_all [keysRise_mput, keysRise_mclear, keysRise_filter, keysRise_map, countWord, keysRise]; done))))
    (h17 : keysRise 0 s.sync.locks = true → keysRise 0 x_sync.locks = true := by first | with_reducible exact id | exact fun h => (by first | with_reducible exact h | with_reducible exact keysRise_mput _ _ h | with_reducible exact keysRise_mclear _ h | with_reducible exact keysRise_filter _ h | with_reducible exact keysRise_map _ h | with_reducible rfl | (simp_all [keysRise_mput, keysRise_mclear, keysRise_filter, keysRise_map, countWord, keysRise]; done) | (split <;> (simp_all [keysRise_mput, keysRise_mclear, keysRise_filter, keysRise_map, countWord, keysRise]; done))))
    (h18 : keysRise 0 s.movers.chans = true → keysRise 0 x_movers.chans = true := by first | with_reducible exact id | exact fun h => (by first | with_reducible exact h | with_reducible exact keysRise_mput _ _ h | with_reducible exact keysRise_mclear _ h | with_reducible exact keysRise_filter _ h | with_reducible exact keysRise_map _ h | with_reducible rfl | (simp_all [keysRise_mput, keysRise_mclear, keysRise_filter, keysRise_map, countWord, keysRise]; done) | (split <;> (simp_all [keysRise_mput, keysRise_mclear, keysRise_filter, keysRise_map, countWord, keysRise]; done))))
    (h19 : keysRise 0 s.movers.stage = true → keysRise 0 x_movers.stage = true := by first | with_reducible exact id | exact fun h => (by first | with_reducible exact h | with_reducible exact keysRise_mput _ _ h | with_reducible exact keysRise_mclear _ h | with_reducible exact keysRise_filter _ h | with_reducible exact keysRise_map _ h | with_reducible rfl | (simp_all [keysRise_mput, keysRise_mclear, keysRise_filter, keysRise_map, countWord, keysRise]; done) | (split <;> (simp_all [keysRise_mput, keysRise_mclear, keysRise_filter, keysRise_map, countWord, keysRise]; done))))
    (h20 : keysRise 0 s.ctl.pwr = true → keysRise 0 x_ctl.pwr = true := by first | with_reducible exact id | exact fun h => (by first | with_reducible exact h | with_reducible exact keysRise_mput _ _ h | with_reducible exact keysRise_mclear _ h | with_reducible exact keysRise_filter _ h | with_reducible exact keysRise_map _ h | with_reducible rfl | (simp_all [keysRise_mput, keysRise_mclear, keysRise_filter, keysRise_map, countWord, keysRise]; done) | (split <;> (simp_all [keysRise_mput, keysRise_mclear, keysRise_filter, keysRise_map, countWord, keysRise]; done))))
    (h21 : keysRise 0 s.keys = true → keysRise 0 x_keys = true := by first | with_reducible exact id | exact fun h => (by first | with_reducible exact h | with_reducible exact keysRise_mput _ _ h | with_reducible exact keysRise_mclear _ h | with_reducible exact keysRise_filter _ h | with_reducible exact keysRise_map _ h | with_reducible rfl | (simp_all [keysRise_mput, keysRise_mclear, keysRise_filter, keysRise_map, countWord, keysRise]; done) | (split <;> (simp_all [keysRise_mput, keysRise_mclear, keysRise_filter, keysRise_map, countWord, keysRise]; done))))
    (h22 : keysRise 0 s.tdi = true → keysRise 0 x_tdi = true := by first | with_reducible exact id | exact fun h => (by first | with_reducible exact h | with_reducible exact keysRise_mput _ _ h | with_reducible exact keysRise_mclear _ h | with_reducible exact keysRise_filter _ h | with_reducible exact keysRise_map _ h | with_reducible rfl | (simp_all [keysRise_mput, keysRise_mclear, keysRise_filter, keysRise_map, countWord, keysRise]; done) | (split <;> (simp_all [keysRise_mput, keysRise_mclear, keysRise_filter, keysRise_map, countWord, keysRise]; done))))
    (h23 : keysRise 0 s.ready = true → keysRise 0 x_ready = true := by first | with_reducible exact id | exact fun h => (by first | with_reducible exact h | with_reducible exact keysRise_mput _ _ h | with_reducible exact keysRise_mclear _ h | with_reducible exact keysRise_filter _ h | with_reducible exact keysRise_map _ h | with_reducible rfl | (simp_all [keysRise_mput, keysRise_mclear, keysRise_filter, keysRise_map, countWord, keysRise]; done) | (split <;> (simp_all [keysRise_mput, keysRise_mclear, keysRise_filter, keysRise_map, countWord, keysRise]; done))))
    (h24 : keysRise 0 s.qirq = true → keysRise 0 x_qirq = true := by first | with_reducible exact id | exact fun h => (by first | with_reducible exact h | with_reducible exact keysRise_mput _ _ h | with_reducible exact keysRise_mclear _ h | with_reducible exact keysRise_filter _ h | with_reducible exact keysRise_map _ h | with_reducible rfl | (simp_all [keysRise_mput, keysRise_mclear, keysRise_filter, keysRise_map, countWord, keysRise]; done) | (split <;> (simp_all [keysRise_mput, keysRise_mclear, keysRise_filter, keysRise_map, countWord, keysRise]; done))))
    (h25 : keysRise 0 s.outerCut = true → keysRise 0 x_outerCut = true := by first | with_reducible exact id | exact fun h => (by first | with_reducible exact h | with_reducible exact keysRise_mput _ _ h | with_reducible exact keysRise_mclear _ h | with_reducible exact keysRise_filter _ h | with_reducible exact keysRise_map _ h | with_reducible rfl | (simp_all [keysRise_mput, keysRise_mclear, keysRise_filter, keysRise_map, countWord, keysRise]; done) | (split <;> (simp_all [keysRise_mput, keysRise_mclear, keysRise_filter, keysRise_map, countWord, keysRise]; done))))
    (h26 : keysRise 0 s.outerUsed = true → keysRise 0 x_outerUsed = true := by first | with_reducible exact id | exact fun h => (by first | with_reducible exact h | with_reducible exact keysRise_mput _ _ h | with_reducible exact keysRise_mclear _ h | with_reducible exact keysRise_filter _ h | with_reducible exact keysRise_map _ h | with_reducible rfl | (simp_all [keysRise_mput, keysRise_mclear, keysRise_filter, keysRise_map, countWord, keysRise]; done) | (split <;> (simp_all [keysRise_mput, keysRise_mclear, keysRise_filter, keysRise_map, countWord, keysRise]; done))))
    (hm : Memory.wf s.mem = true → Memory.wf x_mem = true := by first | with_reducible exact id | exact fun h => (by first | with_reducible exact h | with_reducible exact memory_wf_putUnit _ _ _ h | with_reducible exact memory_wf_clearKeys _ h | with_reducible exact memory_wf_sys _ h fun h => mwf_mputList _ _ h | with_reducible exact memory_wf_sys _ h fun h => mwf_mclear _ h | (simp_all [memory_wf_iff, mwf_mput, mwf_mclear, mwf_mputList]; done))) :
    KeepF r (State.mk s.pending s.freeCtr x_nextId x_mem x_regs x_w1done x_bcnt x_bcRun x_rc x_log x_integ x_ctxs x_parts x_slices x_queues x_qctl
    x_qfetch x_qback x_dbPend x_qEnabled x_dbDrop x_qirq x_hwin x_cmds x_ports x_ops x_wb x_beats x_works x_outerCut x_outerUsed x_busyBanks x_clears x_contracts x_sync x_movers
    x_outbox x_fab x_ctl x_power x_meter x_scrub x_test x_keys x_tdi x_ready s.pp1 s.unconn s.cgrp s.nfab s.fstop) :=
  h.trans ⟨rfl, rfl, rfl, rfl, rfl, rfl, Nat.le_refl _, fun w => by
    obtain ⟨a1, a2, a3, a4, a5, a6, a7, a8, a9, a10, a11, a12, a13, a14, a15, a16, a17, a18, a19, a20, a21, a22, a23, a24, a25, a26, am⟩ := wf_iff.1 w
    exact wf_iff.2 ⟨h1 a1, h2 a2, h3 a3, h4 a4, h5 a5, h6 a6, h7 a7, h8 a8, h9 a9, h10 a10, h11 a11, h12 a12, h13 a13, h14 a14, h15 a15, h16 a16, h17 a17, h18 a18, h19 a19, h20 a20, h21 a21, h22 a22, h23 a23, h24 a24, h25 a25, h26 a26, hm am⟩⟩

/-- A change of the memories and of fields that are no table. -/
theorem Keep.mk2 {r s : State} {x_mem : Mem} {x_nextId : Nat} {x_bcnt : Nat} {x_bcRun : Bool} {x_rc : Nat} {x_qfetch : List (Nat × FetchFor)} {x_qback : List
    (Nat × List Word)} {x_cmds : List Cmd} {x_ops : List PortOp} {x_wb : List WbEntry} {x_beats : List Beat} {x_works : List Work} {x_busyBanks : List Nat} {x_clears :
    List ClearJob} {x_contracts : List Contract} {x_outbox : List Out} {x_fab : FabState} {x_power : PowerState} {x_meter : MeterState} {x_scrub
    : ScrubState} {x_test : TestState}
    (h : Keep r s) (hm : Memory.wf s.mem = true → Memory.wf x_mem = true) :
    Keep r (State.mk s.pending s.freeCtr x_nextId x_mem s.regs s.w1done x_bcnt x_bcRun x_rc s.log s.integ s.ctxs s.parts s.slices s.queues s.qctl
    x_qfetch x_qback s.dbPend s.qEnabled s.dbDrop s.qirq s.hwin x_cmds s.ports x_ops x_wb x_beats x_works s.outerCut s.outerUsed x_busyBanks x_clears x_contracts s.sync s.movers
    x_outbox x_fab s.ctl x_power x_meter x_scrub x_test s.keys s.tdi s.ready s.pp1 s.unconn s.cgrp s.nfab s.fstop) :=
  KeepF.of h (hm := hm)

theorem KeepOut.next {r t : State} (h : Keep r t) : KeepOut r (.next t) := ⟨t, rfl, h⟩

theorem Keep.ite {r a b : State} {c : Prop} [Decidable c] (h : Keep r a) (k : Keep r b) : Keep r (if c then a else b) := by
  split
  · exact h
  · exact k

theorem Keep.iteS {α : Type} {r : State} {a b : α × State} {c : Prop} [Decidable c] (h : Keep r a.2) (k : Keep r b.2) :
    Keep r (if c then a else b).2 := by
  split
  · exact h
  · exact k

theorem KeepOut.ite {r : State} {a b : Host.Outcome State Fault Refusal} {c : Prop} [Decidable c] (h : KeepOut r a) (k : KeepOut r b) :
    KeepOut r (if c then a else b) := by
  split
  · exact h
  · exact k

theorem Keep.foldl {α : Type} {r : State} {f : State → α → State} : ∀ (l : List α) {s : State}, Keep r s →
    (∀ t x, Keep r t → Keep r (f t x)) → Keep r (l.foldl f s)
  | [], _, h, _ => h
  | x :: l, _, h, hf => Keep.foldl l (hf _ x h) hf

/-- A fold whose accumulator carries the state in some component. -/
theorem Keep.foldlP {α β : Type} {r : State} {p : β → State} {f : β → α → β} : ∀ (l : List α) {b : β}, Keep r (p b) →
    (∀ t x, Keep r (p t) → Keep r (p (f t x))) → Keep r (p (l.foldl f b))
  | [], _, h, _ => h
  | x :: l, _, h, hf => Keep.foldlP l (hf _ x h) hf

/-- The same where the state is the third component. -/
theorem Keep.foldlT {α β γ : Type} {r : State} {f : β × γ × State → α → β × γ × State} (l : List α) {b : β × γ × State} (h : Keep r b.2.2)
    (hf : ∀ t x, Keep r t.2.2 → Keep r (f t x).2.2) : Keep r (l.foldl f b).2.2 :=
  Keep.foldlP (p := fun x : β × γ × State => x.2.2) l h hf

theorem Keep.fst {α : Type} {r t : State} {a : α} {e : State × α} (q : e = (t, a)) (h : Keep r e.1) : Keep r t := by
  rw [q] at h; exact h

theorem Keep.snd {α : Type} {r t : State} {a : α} {e : α × State} (q : e = (a, t)) (h : Keep r e.2) : Keep r t := by
  rw [q] at h; exact h

theorem Keep.thd {α β : Type} {r t : State} {a : α} {b : β} {e : α × β × State} (q : e = (a, b, t)) (h : Keep r e.2.2) : Keep r t := by
  rw [q] at h; exact h

end Sys2Proof.Laws
end

