-- ==== Sys2Proof/Laws/KeepAwake.lean ====
section
/-! SUPPORT. Laws/KeepAwake.lean: the operations of Machine/Awake.lean keep what every effect keeps (Laws/Keep.lean). -/
namespace Sys2Proof.Laws
open Sys2Proof.Machine
set_option linter.all false
set_option Elab.async false

theorem keep_modPwr {r : State} (n : Nat) (f : SlcPwr → SlcPwr) (s : State) (h3 : Keep r s) :
    Keep r (modPwr n f s) := by
  unfold modPwr
  try extract_lets
  repeat' first
    | with_reducible assumption
    | intro _
    | simp only [Keep.mkIff]
    | (simp +zetaDelta only [KeepF.mkIff]; refine KeepF.of ?_)
    | simp +zetaDelta only [Keep.mkIff]
    | assumption

theorem keep_touch {r : State} (n : Nat) (kind : Nat) (id : Nat) (s : State) (h4 : Keep r s) :
    Keep r (touch n kind id s).2 := by
  unfold touch
  try extract_lets
  repeat' first
    | with_reducible assumption
    | intro _
    | with_reducible apply keep_modPwr
    | with_reducible apply Keep.iteS
    | with_reducible apply Keep.ite
    | (refine Keep.snd (by assumption) ?_)
    | (refine Keep.fst (by assumption) ?_)
    | (refine Keep.thd (by assumption) ?_)
    | split
    | simp +zetaDelta only [Keep.mkIff]
    | assumption

theorem keep_touchAll {r : State} (ns : List Nat) (kind : Nat) (id : Nat) (s : State) (h4 : Keep r s) :
    Keep r (touchAll ns kind id s).2 := by
  unfold touchAll
  try extract_lets
  repeat' first
    | with_reducible assumption
    | intro _
    | with_reducible apply keep_touch
    | with_reducible apply Keep.foldl
    | with_reducible apply Keep.foldlP (p := Prod.snd)
    | with_reducible apply Keep.foldlP (p := Prod.fst)
    | with_reducible apply Keep.foldlT
    | (refine Keep.snd (by assumption) ?_)
    | (refine Keep.fst (by assumption) ?_)
    | (refine Keep.thd (by assumption) ?_)
    | split
    | simp +zetaDelta only [Keep.mkIff]
    | assumption

theorem keep_feedTenant {r : State} (t : Nat) (s : State) (h2 : Keep r s) :
    Keep r (feedTenant t s) := by
  unfold feedTenant
  try extract_lets
  repeat' first
    | with_reducible assumption
    | intro _
    | with_reducible apply Keep.ite
    | split
    | simp only [Keep.mkIff]
    | (simp +zetaDelta only [KeepF.mkIff]; refine KeepF.of ?_)
    | simp +zetaDelta only [Keep.mkIff]
    | assumption

end Sys2Proof.Laws
end

