-- ==== Sys2Proof/Laws/KeepOps.lean ====
section
/-! SUPPORT. Laws/KeepOps.lean: the operations of Machine/Ops.lean keep what every effect keeps (Laws/Keep.lean). -/
namespace Sys2Proof.Laws
open Sys2Proof.Machine
set_option linter.all false
set_option Elab.async false

theorem keep_freshId {r : State} (s : State) (h1 : Keep r s) :
    Keep r (freshId s).2 := by
  unfold freshId
  try extract_lets
  repeat' first
    | with_reducible assumption
    | intro _
    | simp only [Keep.mkIff]
    | (simp +zetaDelta only [KeepF.mkIff]; refine KeepF.of ?_)
    | simp +zetaDelta only [Keep.mkIff]
    | assumption

theorem keep_setCtx {r : State} (c : Nat) (x : Option Ctx) (s : State) (h3 : Keep r s) :
    Keep r (setCtx c x s) := by
  unfold setCtx
  try extract_lets
  repeat' first
    | with_reducible assumption
    | intro _
    | simp only [Keep.mkIff]
    | (simp +zetaDelta only [KeepF.mkIff]; refine KeepF.of ?_)
    | simp +zetaDelta only [Keep.mkIff]
    | assumption

theorem keep_modCtx {r : State} (c : Nat) (f : Ctx → Ctx) (s : State) (h3 : Keep r s) :
    Keep r (modCtx c f s) := by
  unfold modCtx
  try extract_lets
  repeat' first
    | with_reducible assumption
    | intro _
    | with_reducible apply keep_setCtx
    | (refine Keep.snd (by assumption) ?_)
    | (refine Keep.fst (by assumption) ?_)
    | (refine Keep.thd (by assumption) ?_)
    | split
    | simp +zetaDelta only [Keep.mkIff]
    | assumption

theorem keep_teleAdd {r : State} (c : Nat) (i : Nat) (n : Nat) (s : State) (h4 : Keep r s) :
    Keep r (teleAdd c i n s) := by
  unfold teleAdd
  try extract_lets
  repeat' first
    | with_reducible assumption
    | intro _
    | with_reducible apply keep_modCtx
    | simp +zetaDelta only [Keep.mkIff]
    | assumption

theorem keep_modSlice {r : State} (n : Nat) (f : SliceRec → SliceRec) (s : State) (h3 : Keep r s) :
    Keep r (modSlice n f s) := by
  unfold modSlice
  try extract_lets
  repeat' first
    | with_reducible assumption
    | intro _
    | simp only [Keep.mkIff]
    | (simp +zetaDelta only [KeepF.mkIff]; refine KeepF.of ?_)
    | simp +zetaDelta only [Keep.mkIff]
    | assumption

theorem keep_logEvent {r : State} (e : LogEntry) (s : State) (h2 : Keep r s) :
    Keep r (logEvent e s) := by
  unfold logEvent
  try extract_lets
  repeat' first
    | with_reducible assumption
    | intro _
    | with_reducible apply Keep.ite
    | split
    | simp only [Keep.mkIff]
    | (simp +zetaDelta only [KeepF.mkIff]; refine KeepF.of ?_)
    | simp +zetaDelta only [Keep.mkIff]
    | assumption

theorem keep_report {r : State} (st : Status) (src : Nat) (lslice : Nat) (unit : Nat) (who : Who) (ctx : Nat) (addr : Nat) (s : State) (h8 : Keep r s) :
    Keep r (report st src lslice unit who ctx addr s) := by
  unfold report
  try extract_lets
  repeat' first
    | with_reducible assumption
    | intro _
    | with_reducible apply keep_logEvent
    | simp +zetaDelta only [Keep.mkIff]
    | assumption

theorem keep_drawFree {r : State} (s : State) (h1 : Keep r s) :
    Keep r (drawFree s) := by
  exact h1.trans ⟨rfl, rfl, rfl, rfl, rfl, rfl, Nat.le_succ _, id⟩

theorem keep_modCmd {r : State} (id : Nat) (f : Cmd → Cmd) (s : State) (h3 : Keep r s) :
    Keep r (modCmd id f s) := by
  unfold modCmd
  try extract_lets
  repeat' first
    | with_reducible assumption
    | intro _
    | simp only [Keep.mkIff]
    | (simp +zetaDelta only [KeepF.mkIff]; refine KeepF.of ?_)
    | simp +zetaDelta only [Keep.mkIff]
    | assumption

theorem keep_cmdDone {r : State} (id : Nat) (st : Status) (count : Nat) (result : Nat) (s : State) (h5 : Keep r s) :
    Keep r (cmdDone id st count result s) := by
  unfold cmdDone
  try extract_lets
  repeat' first
    | with_reducible assumption
    | intro _
    | with_reducible apply keep_modCmd
    | with_reducible apply Keep.ite
    | split
    | simp +zetaDelta only [Keep.mkIff]
    | assumption

theorem keep_emit {r : State} (o : Out) (s : State) (h2 : Keep r s) :
    Keep r (emit o s) := by
  unfold emit
  try extract_lets
  repeat' first
    | with_reducible assumption
    | intro _
    | simp only [Keep.mkIff]
    | (simp +zetaDelta only [KeepF.mkIff]; refine KeepF.of ?_)
    | simp +zetaDelta only [Keep.mkIff]
    | assumption

theorem keep_cmdRefuse {r : State} (id : Nat) (st : Status) (result : Nat) (s : State) (h4 : Keep r s) :
    Keep r (cmdRefuse id st result s) := by
  unfold cmdRefuse
  try extract_lets
  repeat' first
    | with_reducible assumption
    | intro _
    | with_reducible apply keep_modCmd
    | simp +zetaDelta only [Keep.mkIff]
    | assumption

theorem keep_regPut {r : State} (d : Nat) (v1 : Nat) (v : Nat) (s : State) (h4 : Keep r s) :
    Keep r (regPut d v1 v s) := by
  unfold regPut
  try extract_lets
  repeat' first
    | with_reducible assumption
    | intro _
    | simp only [Keep.mkIff]
    | (simp +zetaDelta only [KeepF.mkIff]; refine KeepF.of ?_)
    | simp +zetaDelta only [Keep.mkIff]
    | assumption

theorem keep_portErr {r : State} (n : Nat) (p : Nat) (bit : Nat) (s : State) (h4 : Keep r s) :
    Keep r (portErr n p bit s) := by
  unfold portErr
  try extract_lets
  repeat' first
    | with_reducible assumption
    | intro _
    | with_reducible apply keep_regPut
    | simp +zetaDelta only [Keep.mkIff]
    | assumption

theorem keep_responseFrame {r : State} (slice : Nat) (dev : Nat) (tag : Nat) (st : Status) (count : Nat) (data : List (Byte × Bool)) (s : State) (h7 : Keep r s) :
    Keep r (responseFrame slice dev tag st count data s) := by
  unfold responseFrame
  try extract_lets
  repeat' first
    | with_reducible assumption
    | intro _
    | with_reducible apply keep_emit
    | simp +zetaDelta only [Keep.mkIff]
    | assumption

theorem keep_modPort {r : State} (n : Nat) (p : Nat) (f : PortRec → PortRec) (s : State) (h4 : Keep r s) :
    Keep r (modPort n p f s) := by
  unfold modPort
  try extract_lets
  repeat' first
    | with_reducible assumption
    | intro _
    | simp only [Keep.mkIff]
    | (simp +zetaDelta only [KeepF.mkIff]; refine KeepF.of ?_)
    | simp +zetaDelta only [Keep.mkIff]
    | assumption

theorem keep_sendHeld {r : State} (n : Nat) (p : Nat) (s : State) (h3 : Keep r s) :
    Keep r (sendHeld n p s) := by
  unfold sendHeld
  try extract_lets
  repeat' first
    | with_reducible assumption
    | intro _
    | with_reducible apply keep_modPort
    | with_reducible apply keep_emit
    | with_reducible apply Keep.ite
    | with_reducible apply Keep.foldl
    | with_reducible apply Keep.foldlP (p := Prod.snd)
    | with_reducible apply Keep.foldlP (p := Prod.fst)
    | with_reducible apply Keep.foldlT
    | (refine Keep.snd (by assumption) ?_)
    | (refine Keep.fst (by assumption) ?_)
    | (refine Keep.thd (by assumption) ?_)
    | split
    | simp +zetaDelta only [Keep.mkIff]
    | assumption

theorem keep_answer {r : State} (n : Nat) (p : Nat) (id : Nat) (o : Out) (s : State) (h5 : Keep r s) :
    Keep r (answer n p id o s) := by
  unfold answer
  try extract_lets
  repeat' first
    | with_reducible assumption
    | intro _
    | with_reducible apply keep_emit
    | with_reducible apply keep_modPort
    | with_reducible apply keep_sendHeld
    | with_reducible apply Keep.ite
    | split
    | simp +zetaDelta only [Keep.mkIff]
    | assumption

theorem keep_respond {r : State} (o : PortOp) (st : Status) (count : Nat) (data : List (Byte × Bool)) (zeroRows : List Nat) (s : State) (h6 : Keep r s) :
    Keep r (respond o st count data zeroRows s) := by
  unfold respond
  try extract_lets
  repeat' first
    | with_reducible assumption
    | intro _
    | with_reducible apply keep_portErr
    | with_reducible apply keep_responseFrame
    | with_reducible apply keep_answer
    | with_reducible apply Keep.ite
    | (refine Keep.snd (by assumption) ?_)
    | (refine Keep.fst (by assumption) ?_)
    | (refine Keep.thd (by assumption) ?_)
    | split
    | simp only [Keep.mkIff]
    | (simp +zetaDelta only [KeepF.mkIff]; refine KeepF.of ?_)
    | simp +zetaDelta only [Keep.mkIff]
    | assumption

theorem keep_finish {r : State} (o : Origin) (st : Status) (s : State) (h3 : Keep r s) :
    Keep r (finish o st s) := by
  unfold finish
  try extract_lets
  repeat' first
    | with_reducible assumption
    | intro _
    | with_reducible apply keep_cmdDone
    | with_reducible apply keep_emit
    | with_reducible apply keep_respond
    | with_reducible apply Keep.ite
    | (refine Keep.snd (by assumption) ?_)
    | (refine Keep.fst (by assumption) ?_)
    | (refine Keep.thd (by assumption) ?_)
    | split
    | simp +zetaDelta only [Keep.mkIff]
    | assumption

theorem keep_dropReg {r : State} (st : Status) (by_ : RegBy) (addr : Nat) (s : State) (h4 : Keep r s) :
    Keep r (dropReg st by_ addr s).2 := by
  unfold dropReg
  try extract_lets
  repeat' first
    | with_reducible assumption
    | intro _
    | with_reducible apply keep_report
    | simp +zetaDelta only [Keep.mkIff]
    | assumption

theorem keep_reservedReg {r : State} (by_ : RegBy) (addr : Nat) (s : State) (h3 : Keep r s) :
    Keep r (reservedReg by_ addr s).2 := by
  unfold reservedReg
  try extract_lets
  repeat' first
    | with_reducible assumption
    | intro _
    | with_reducible apply keep_dropReg
    | with_reducible apply Keep.iteS
    | with_reducible apply Keep.ite
    | split
    | simp +zetaDelta only [Keep.mkIff]
    | assumption

theorem keep_setPart {r : State} (p : Nat) (x : PartRec) (s : State) (h3 : Keep r s) :
    Keep r (setPart p x s) := by
  unfold setPart
  try extract_lets
  repeat' first
    | with_reducible assumption
    | intro _
    | simp only [Keep.mkIff]
    | (simp +zetaDelta only [KeepF.mkIff]; refine KeepF.of ?_)
    | simp +zetaDelta only [Keep.mkIff]
    | assumption

theorem keep_modOp {r : State} (id : Nat) (f : PortOp → PortOp) (s : State) (h3 : Keep r s) :
    Keep r (modOp id f s) := by
  unfold modOp
  try extract_lets
  repeat' first
    | with_reducible assumption
    | intro _
    | simp only [Keep.mkIff]
    | (simp +zetaDelta only [KeepF.mkIff]; refine KeepF.of ?_)
    | simp +zetaDelta only [Keep.mkIff]
    | assumption

theorem keep_zeroUnits {r : State} (n : Nat) (s : State) (h2 : Keep r s) :
    Keep r (zeroUnits n s) := by
  unfold zeroUnits
  try extract_lets
  repeat' first
    | with_reducible assumption
    | intro _
    | with_reducible apply keep_modSlice
    | simp +zetaDelta only [Keep.mkIff]
    | assumption

theorem keep_finishAll {r : State} (os : List Origin) (st : Status) (s : State) (h3 : Keep r s) :
    Keep r (finishAll os st s) := by
  unfold finishAll
  try extract_lets
  repeat' first
    | with_reducible assumption
    | intro _
    | with_reducible apply keep_finish
    | with_reducible apply Keep.foldl
    | with_reducible apply Keep.foldlP (p := Prod.snd)
    | with_reducible apply Keep.foldlP (p := Prod.fst)
    | with_reducible apply Keep.foldlT
    | simp +zetaDelta only [Keep.mkIff]
    | assumption

end Sys2Proof.Laws
end

