-- ==== Sys2Proof/Laws/KeepGrants.lean ====
section
/-! SUPPORT. Laws/KeepGrants.lean: the operations of Machine/Grants.lean keep what every effect keeps (Laws/Keep.lean). -/
namespace Sys2Proof.Laws
open Sys2Proof.Machine
set_option linter.all false
set_option Elab.async false

theorem keep_modReq {r : State} (id : Nat) (f : FabReq → FabReq) (s : State) (h3 : Keep r s) :
    Keep r (modReq id f s) := by
  unfold modReq
  try extract_lets
  repeat' first
    | with_reducible assumption
    | intro _
    | simp only [Keep.mkIff]
    | (simp +zetaDelta only [KeepF.mkIff]; refine KeepF.of ?_)
    | simp +zetaDelta only [Keep.mkIff]
    | assumption

theorem keep_forgetReq {r : State} (v0 : FabReq) (s : State) (h2 : Keep r s) :
    Keep r (forgetReq v0 s) := by
  unfold forgetReq
  try extract_lets
  repeat' first
    | with_reducible assumption
    | intro _
    | with_reducible apply keep_modReq
    | simp +zetaDelta only [Keep.mkIff]
    | assumption

theorem keep_sendWithdraw {r : State} (v0 : FabReq) (s : State) (h2 : Keep r s) :
    Keep r (sendWithdraw v0 s) := by
  unfold sendWithdraw
  try extract_lets
  repeat' first
    | with_reducible assumption
    | intro _
    | with_reducible apply keep_emit
    | simp +zetaDelta only [Keep.mkIff]
    | assumption

theorem keep_putFrame {r : State} (n : Nat) (dev : Nat) (res : Nat) (tslice : Nat) (ftype : Nat) (ws : List Word) (data : List Byte) (poison : List Bool) (s : State) (h9 : Keep r s) :
    Keep r (putFrame n dev res tslice ftype ws data poison s) := by
  unfold putFrame
  try extract_lets
  repeat' first
    | with_reducible assumption
    | intro _
    | with_reducible apply keep_emit
    | simp +zetaDelta only [Keep.mkIff]
    | assumption

theorem keep_creditAnswer {r : State} (n : Nat) (dev : Nat) (m : CMsg) (data : List Byte) (s : State) (h5 : Keep r s) :
    Keep r (creditAnswer n dev m data s) := by
  unfold creditAnswer
  try extract_lets
  repeat' first
    | with_reducible assumption
    | intro _
    | with_reducible apply keep_putFrame
    | simp +zetaDelta only [Keep.mkIff]
    | assumption

theorem keep_answerEnds {r : State} (g : Grant) (s : State) (h2 : Keep r s) :
    Keep r (answerEnds g s) := by
  unfold answerEnds
  try extract_lets
  repeat' first
    | with_reducible assumption
    | intro _
    | with_reducible apply keep_creditAnswer
    | with_reducible apply Keep.ite
    | with_reducible apply Keep.foldl
    | with_reducible apply Keep.foldlP (p := Prod.snd)
    | with_reducible apply Keep.foldlP (p := Prod.fst)
    | with_reducible apply Keep.foldlT
    | (refine Keep.snd (by assumption) ?_)
    | (refine Keep.fst (by assumption) ?_)
    | (refine Keep.thd (by assumption) ?_)
    | split
    | simp +zetaDelta only [Keep.mkIff]
    | assumption

theorem keep_sweepGrants {r : State} (s : State) (h1 : Keep r s) :
    Keep r (sweepGrants s) := by
  unfold sweepGrants
  try extract_lets
  repeat' first
    | with_reducible assumption
    | intro _
    | with_reducible apply keep_answerEnds
    | with_reducible apply Keep.foldl
    | with_reducible apply Keep.foldlP (p := Prod.snd)
    | with_reducible apply Keep.foldlP (p := Prod.fst)
    | with_reducible apply Keep.foldlT
    | simp only [Keep.mkIff]
    | (simp +zetaDelta only [KeepF.mkIff]; refine KeepF.of ?_)
    | simp +zetaDelta only [Keep.mkIff]
    | assumption

theorem keep_endGrants {r : State} (p : Grant → Bool) (failed : Bool) (s : State) (h3 : Keep r s) :
    Keep r (endGrants p failed s) := by
  unfold endGrants
  try extract_lets
  repeat' first
    | with_reducible assumption
    | intro _
    | with_reducible apply keep_sweepGrants
    | simp only [Keep.mkIff]
    | (simp +zetaDelta only [KeepF.mkIff]; refine KeepF.of ?_)
    | simp +zetaDelta only [Keep.mkIff]
    | assumption

theorem keep_dropReq {r : State} (id : Nat) (s : State) (h2 : Keep r s) :
    Keep r (dropReq id s) := by
  unfold dropReq
  try extract_lets
  repeat' first
    | with_reducible assumption
    | intro _
    | simp only [Keep.mkIff]
    | (simp +zetaDelta only [KeepF.mkIff]; refine KeepF.of ?_)
    | simp +zetaDelta only [Keep.mkIff]
    | assumption

theorem keep_dropHeld {r : State} (part : Nat) (dev : Nat) (handle : Nat) (s : State) (h4 : Keep r s) :
    Keep r (dropHeld part dev handle s) := by
  unfold dropHeld
  try extract_lets
  repeat' first
    | with_reducible assumption
    | intro _
    | simp only [Keep.mkIff]
    | (simp +zetaDelta only [KeepF.mkIff]; refine KeepF.of ?_)
    | simp +zetaDelta only [Keep.mkIff]
    | assumption

theorem keep_sendMsg {r : State} (v0 : FabReq) (s : State) (h2 : Keep r s) :
    Keep r (sendMsg v0 s) := by
  unfold sendMsg
  try extract_lets
  repeat' first
    | with_reducible assumption
    | intro _
    | with_reducible apply keep_freshId
    | with_reducible apply keep_drawFree
    | with_reducible apply keep_emit
    | (refine Keep.snd (by assumption) ?_)
    | (refine Keep.fst (by assumption) ?_)
    | (refine Keep.thd (by assumption) ?_)
    | split
    | simp only [Keep.mkIff]
    | (simp +zetaDelta only [KeepF.mkIff]; refine KeepF.of ?_)
    | simp +zetaDelta only [Keep.mkIff]
    | assumption

theorem keep_sendRelease {r : State} (home : Nat) (dev : Nat) (ctx : Nat) (part : Nat) (tenant : Nat) (tctx : Nat) (handle : Nat) (origin : Origin) (s : State) (h9 : Keep r s) :
    Keep r (sendRelease home dev ctx part tenant tctx handle origin s) := by
  unfold sendRelease
  try extract_lets
  repeat' first
    | with_reducible assumption
    | intro _
    | with_reducible apply keep_sendMsg
    | simp +zetaDelta only [Keep.mkIff]
    | assumption

theorem keep_endDeferred {r : State} (p : Deferral → Bool) (st : Status) (s : State) (h3 : Keep r s) :
    Keep r (endDeferred p st s) := by
  unfold endDeferred
  try extract_lets
  repeat' first
    | with_reducible assumption
    | intro _
    | with_reducible apply keep_creditAnswer
    | with_reducible apply Keep.foldl
    | with_reducible apply Keep.foldlP (p := Prod.snd)
    | with_reducible apply Keep.foldlP (p := Prod.fst)
    | with_reducible apply Keep.foldlT
    | simp only [Keep.mkIff]
    | (simp +zetaDelta only [KeepF.mkIff]; refine KeepF.of ?_)
    | simp +zetaDelta only [Keep.mkIff]
    | assumption

theorem keep_returnCredits {r : State} (c : Nat) (home : Nat) (part : Nat) (tenant : Nat) (s : State) (h5 : Keep r s) :
    Keep r (returnCredits c home part tenant s) := by
  unfold returnCredits
  try extract_lets
  repeat' first
    | with_reducible assumption
    | intro _
    | with_reducible apply keep_sendRelease
    | with_reducible apply keep_dropHeld
    | with_reducible apply keep_forgetReq
    | with_reducible apply keep_sendWithdraw
    | with_reducible apply Keep.foldl
    | with_reducible apply Keep.foldlP (p := Prod.snd)
    | with_reducible apply Keep.foldlP (p := Prod.fst)
    | with_reducible apply Keep.foldlT
    | simp +zetaDelta only [Keep.mkIff]
    | assumption

end Sys2Proof.Laws
end

