-- ==== Sys2Proof/Laws/KeepStore.lean ====
section
/-! SUPPORT. Laws/KeepStore.lean: the operations of Machine/Store.lean keep what every effect keeps (Laws/Keep.lean). -/
namespace Sys2Proof.Laws
open Sys2Proof.Machine
set_option linter.all false
set_option Elab.async false

theorem keep_integAdd {r : State} (i : Nat) (n : Nat) (s : State) (h3 : Keep r s) :
    Keep r (integAdd i n s) := by
  unfold integAdd
  try extract_lets
  repeat' first
    | with_reducible assumption
    | intro _
    | simp only [Keep.mkIff]
    | (simp +zetaDelta only [KeepF.mkIff]; refine KeepF.of ?_)
    | simp +zetaDelta only [Keep.mkIff]
    | assumption

theorem keep_countMacros {r : State} (bank : Nat) (ms : List Nat) (s : State) (h3 : Keep r s) :
    Keep r (countMacros bank ms s) := by
  unfold countMacros
  try extract_lets
  repeat' first
    | with_reducible assumption
    | intro _
    | with_reducible apply keep_modSlice
    | with_reducible apply Keep.ite
    | with_reducible apply Keep.foldl
    | with_reducible apply Keep.foldlP (p := Prod.snd)
    | with_reducible apply Keep.foldlP (p := Prod.fst)
    | with_reducible apply Keep.foldlT
    | split
    | simp +zetaDelta only [Keep.mkIff]
    | assumption

theorem keep_noteFound {r : State} (c : Agent) (s : State) (f : Found) (h2 : Keep r s) :
    Keep r (noteFound c s f) := by
  unfold noteFound
  try extract_lets
  repeat' first
    | with_reducible assumption
    | intro _
    | with_reducible apply keep_integAdd
    | with_reducible apply keep_teleAdd
    | with_reducible apply keep_countMacros
    | with_reducible apply keep_report
    | with_reducible apply Keep.ite
    | (refine Keep.snd (by assumption) ?_)
    | (refine Keep.fst (by assumption) ?_)
    | (refine Keep.thd (by assumption) ?_)
    | split
    | simp only [Keep.mkIff]
    | (simp +zetaDelta only [KeepF.mkIff]; refine KeepF.of ?_)
    | simp +zetaDelta only [Keep.mkIff]
    | assumption

theorem keep_writeUnit {r : State} (items : List (Nat × Byte × Bool)) (c : Agent) (acc : State × WriteRes) (u : Nat) (h3 : Keep r acc.1) :
    Keep r (writeUnit items c acc u).1 := by
  unfold writeUnit
  try extract_lets
  repeat' first
    | with_reducible assumption
    | intro _
    | with_reducible apply keep_noteFound
    | with_reducible apply Keep.iteS
    | with_reducible apply Keep.ite
    | (refine Keep.snd (by assumption) ?_)
    | (refine Keep.fst (by assumption) ?_)
    | (refine Keep.thd (by assumption) ?_)
    | split
    | simp only [Keep.mkIff]
    | (simp +zetaDelta only [KeepF.mkIff]; refine KeepF.of ?_)
    | simp +zetaDelta only [Keep.mkIff]
    | assumption

theorem keep_writeBytes {r : State} (c : Agent) (items : List (Nat × Byte × Bool)) (s : State) (h3 : Keep r s) :
    Keep r (writeBytes c items s).1 := by
  unfold writeBytes
  try extract_lets
  repeat' first
    | with_reducible assumption
    | intro _
    | with_reducible apply keep_writeUnit
    | with_reducible apply Keep.foldl
    | with_reducible apply Keep.foldlP (p := Prod.snd)
    | with_reducible apply Keep.foldlP (p := Prod.fst)
    | with_reducible apply Keep.foldlT
    | simp +zetaDelta only [Keep.mkIff]
    | assumption

theorem keep_noteRead {r : State} (c : Agent) (ks : List Nat) (s : State) (h3 : Keep r s) :
    Keep r (noteRead c ks s) := by
  unfold noteRead
  try extract_lets
  repeat' first
    | with_reducible assumption
    | intro _
    | with_reducible apply keep_noteFound
    | with_reducible apply Keep.foldl
    | with_reducible apply Keep.foldlP (p := Prod.snd)
    | with_reducible apply Keep.foldlP (p := Prod.fst)
    | with_reducible apply Keep.foldlT
    | simp +zetaDelta only [Keep.mkIff]
    | assumption

theorem keep_extWrite {r : State} (a : Nat) (bs : List (Byte × Bool)) (s : State) (h3 : Keep r s) :
    Keep r (extWrite a bs s) := by
  exact Keep.mk2 h3 fun h => memory_wf_ext a bs (s := s) h

theorem keep_sysWrite {r : State} (slice : Nat) (off : Nat) (bs : List Byte) (s : State) (h4 : Keep r s) :
    Keep r (sysWrite slice off bs s) := by
  unfold sysWrite
  try extract_lets
  repeat' first
    | with_reducible assumption
    | intro _
    | simp only [Keep.mkIff]
    | (simp +zetaDelta only [KeepF.mkIff]; refine KeepF.of ?_)
    | simp +zetaDelta only [Keep.mkIff]
    | assumption

end Sys2Proof.Laws
end

