-- ==== Sys2Proof/Laws/KeepSync.lean ====
section
/-! SUPPORT. Laws/KeepSync.lean: the operations of Machine/Sync.lean keep what every effect keeps (Laws/Keep.lean). -/
namespace Sys2Proof.Laws
open Sys2Proof.Machine
set_option linter.all false
set_option Elab.async false

theorem keep_modChan {r : State} (n : Nat) (m : Nat) (c : Nat) (f : Chan → Chan) (s : State) (h5 : Keep r s) :
    Keep r (modChan n m c f s) := by
  unfold modChan
  try extract_lets
  repeat' first
    | with_reducible assumption
    | intro _
    | simp only [Keep.mkIff]
    | (simp +zetaDelta only [KeepF.mkIff]; refine KeepF.of ?_)
    | simp +zetaDelta only [Keep.mkIff]
    | assumption

theorem keep_dropWaiter {r : State} (id : Nat) (s : State) (h2 : Keep r s) :
    Keep r (dropWaiter id s) := by
  unfold dropWaiter
  try extract_lets
  repeat' first
    | with_reducible assumption
    | intro _
    | simp only [Keep.mkIff]
    | (simp +zetaDelta only [KeepF.mkIff]; refine KeepF.of ?_)
    | simp +zetaDelta only [Keep.mkIff]
    | assumption

theorem keep_endWaiter {r : State} (w : Waiter) (st : Status) (res : Nat) (s : State) (h4 : Keep r s) :
    Keep r (endWaiter w st res s) := by
  unfold endWaiter
  try extract_lets
  repeat' first
    | with_reducible assumption
    | intro _
    | with_reducible apply keep_dropWaiter
    | with_reducible apply keep_cmdDone
    | with_reducible apply keep_modChan
    | with_reducible apply keep_emit
    | with_reducible apply Keep.ite
    | (refine Keep.snd (by assumption) ?_)
    | (refine Keep.fst (by assumption) ?_)
    | (refine Keep.thd (by assumption) ?_)
    | split
    | simp +zetaDelta only [Keep.mkIff]
    | assumption

theorem keep_decidePlain {r : State} (ph : Nat) (s : State) (h2 : Keep r s) :
    Keep r (decidePlain ph s) := by
  unfold decidePlain
  try extract_lets
  repeat' first
    | with_reducible assumption
    | intro _
    | with_reducible apply keep_endWaiter
    | with_reducible apply Keep.ite
    | with_reducible apply Keep.foldl
    | with_reducible apply Keep.foldlP (p := Prod.snd)
    | with_reducible apply Keep.foldlP (p := Prod.fst)
    | with_reducible apply Keep.foldlT
    | split
    | simp +zetaDelta only [Keep.mkIff]
    | assumption

theorem keep_putCounter {r : State} (ph : Nat) (c : Counter) (s : State) (h3 : Keep r s) :
    Keep r (putCounter ph c s) := by
  unfold putCounter
  try extract_lets
  repeat' first
    | with_reducible assumption
    | intro _
    | simp only [Keep.mkIff]
    | (simp +zetaDelta only [KeepF.mkIff]; refine KeepF.of ?_)
    | simp +zetaDelta only [Keep.mkIff]
    | assumption

theorem keep_decideConsume {r : State} (ph : Nat) (v1 : List Waiter) (v2 : State) (h3 : Keep r v2) :
    Keep r (decideConsume ph v1 v2) := by
  induction v1 generalizing v2 with
  | nil => exact h3
  | cons w ws ih =>
    unfold decideConsume
    try extract_lets
    split
    · exact ih _ (keep_endWaiter _ _ _ _ (keep_putCounter _ _ _ h3))
    · exact h3

theorem keep_decideWaiters {r : State} (ph : Nat) (s : State) (h2 : Keep r s) :
    Keep r (decideWaiters ph s) := by
  unfold decideWaiters
  try extract_lets
  repeat' first
    | with_reducible assumption
    | intro _
    | with_reducible apply keep_decidePlain
    | with_reducible apply keep_decideConsume
    | simp +zetaDelta only [Keep.mkIff]
    | assumption

theorem keep_endWaiters {r : State} (p : Waiter → Bool) (st : Status) (s : State) (h3 : Keep r s) :
    Keep r (endWaiters p st s) := by
  unfold endWaiters
  try extract_lets
  repeat' first
    | with_reducible assumption
    | intro _
    | with_reducible apply keep_endWaiter
    | with_reducible apply Keep.ite
    | with_reducible apply Keep.foldl
    | with_reducible apply Keep.foldlP (p := Prod.snd)
    | with_reducible apply Keep.foldlP (p := Prod.fst)
    | with_reducible apply Keep.foldlT
    | split
    | simp +zetaDelta only [Keep.mkIff]
    | assumption

theorem keep_reportFault {r : State} (ph : Nat) (c : Counter) (src : SigSrc) (s : State) (h4 : Keep r s) :
    Keep r (reportFault ph c src s) := by
  unfold reportFault
  try extract_lets
  repeat' first
    | with_reducible assumption
    | intro _
    | with_reducible apply keep_report
    | (refine Keep.snd (by assumption) ?_)
    | (refine Keep.fst (by assumption) ?_)
    | (refine Keep.thd (by assumption) ?_)
    | split
    | simp +zetaDelta only [Keep.mkIff]
    | assumption

theorem keep_signalCounter {r : State} (ph : Nat) (op : SigOp) (a : Nat) (src : SigSrc) (s : State) (h5 : Keep r s) :
    Keep r (signalCounter ph op a src s).2.2 := by
  unfold signalCounter
  try extract_lets
  repeat' first
    | with_reducible assumption
    | intro _
    | with_reducible apply keep_decideWaiters
    | with_reducible apply keep_putCounter
    | with_reducible apply keep_endWaiters
    | with_reducible apply keep_reportFault
    | with_reducible apply Keep.iteS
    | with_reducible apply Keep.ite
    | (refine Keep.snd (by assumption) ?_)
    | (refine Keep.fst (by assumption) ?_)
    | (refine Keep.thd (by assumption) ?_)
    | split
    | simp +zetaDelta only [Keep.mkIff]
    | assumption

theorem keep_putLock {r : State} (ph : Nat) (l : Lock) (s : State) (h3 : Keep r s) :
    Keep r (putLock ph l s) := by
  unfold putLock
  try extract_lets
  repeat' first
    | with_reducible assumption
    | intro _
    | simp only [Keep.mkIff]
    | (simp +zetaDelta only [KeepF.mkIff]; refine KeepF.of ?_)
    | simp +zetaDelta only [Keep.mkIff]
    | assumption

theorem keep_giveUpLock {r : State} (ph : Nat) (abandon : Bool) (s : State) (h3 : Keep r s) :
    Keep r (giveUpLock ph abandon s) := by
  unfold giveUpLock
  try extract_lets
  repeat' first
    | with_reducible assumption
    | intro _
    | with_reducible apply keep_endWaiter
    | with_reducible apply keep_putLock
    | (refine Keep.snd (by assumption) ?_)
    | (refine Keep.fst (by assumption) ?_)
    | (refine Keep.thd (by assumption) ?_)
    | split
    | simp +zetaDelta only [Keep.mkIff]
    | assumption

theorem keep_reportForce {r : State} (ph : Nat) (l : Lock) (s : State) (h3 : Keep r s) :
    Keep r (reportForce ph l s) := by
  unfold reportForce
  try extract_lets
  repeat' first
    | with_reducible assumption
    | intro _
    | with_reducible apply keep_logEvent
    | (refine Keep.snd (by assumption) ?_)
    | (refine Keep.fst (by assumption) ?_)
    | (refine Keep.thd (by assumption) ?_)
    | split
    | simp +zetaDelta only [Keep.mkIff]
    | assumption

theorem keep_forceRelease {r : State} (s : State) (ph : Nat) (h1 : Keep r s) :
    Keep r (forceRelease s ph) := by
  unfold forceRelease
  try extract_lets
  repeat' first
    | with_reducible assumption
    | intro _
    | with_reducible apply keep_giveUpLock
    | with_reducible apply keep_reportForce
    | simp +zetaDelta only [Keep.mkIff]
    | assumption

end Sys2Proof.Laws
end

