-- ==== Sys2Proof/Laws/KeepQueues.lean ====
section
/-! SUPPORT. Laws/KeepQueues.lean: the operations of Machine/Queues.lean keep what every effect keeps (Laws/Keep.lean). -/
namespace Sys2Proof.Laws
open Sys2Proof.Machine
set_option linter.all false
set_option Elab.async false

theorem keep_winError {r : State} (st : Status) (fn : Nat) (c : Nat) (off : Nat) (s : State) (h5 : Keep r s) :
    Keep r (winError st fn c off s) := by
  unfold winError
  try extract_lets
  repeat' first
    | with_reducible assumption
    | intro _
    | with_reducible apply keep_logEvent
    | simp +zetaDelta only [Keep.mkIff]
    | assumption

theorem keep_countDrop {r : State} (c : Nat) (s : State) (h2 : Keep r s) :
    Keep r (countDrop c s) := by
  unfold countDrop
  try extract_lets
  repeat' first
    | with_reducible assumption
    | intro _
    | simp only [Keep.mkIff]
    | (simp +zetaDelta only [KeepF.mkIff]; refine KeepF.of ?_)
    | simp +zetaDelta only [Keep.mkIff]
    | assumption

theorem keep_dropMsg {r : State} (st : Status) (n : Nat) (unit : Nat) (c : Nat) (payload : Nat) (s : State) (h6 : Keep r s) :
    Keep r (dropMsg st n unit c payload s) := by
  unfold dropMsg
  try extract_lets
  repeat' first
    | with_reducible assumption
    | intro _
    | with_reducible apply keep_countDrop
    | with_reducible apply keep_report
    | simp +zetaDelta only [Keep.mkIff]
    | assumption

theorem keep_counterAddMsg {r : State} (unit : Nat) (n : Nat) (c : Nat) (payload : Nat) (lastsig : Nat) (who : Who) (tenantOk : Bool) (s : State) (h8 : Keep r s) :
    Keep r (counterAddMsg unit n c payload lastsig who tenantOk s) := by
  unfold counterAddMsg
  try extract_lets
  repeat' first
    | with_reducible assumption
    | intro _
    | with_reducible apply keep_dropMsg
    | with_reducible apply keep_signalCounter
    | with_reducible apply keep_touch
    | with_reducible apply Keep.ite
    | (refine Keep.snd (by assumption) ?_)
    | (refine Keep.fst (by assumption) ?_)
    | (refine Keep.thd (by assumption) ?_)
    | split
    | simp +zetaDelta only [Keep.mkIff]
    | assumption

theorem keep_setDb {r : State} (q : Nat) (b : Bool) (s : State) (h3 : Keep r s) :
    Keep r (setDb q b s) := by
  unfold setDb
  try extract_lets
  repeat' first
    | with_reducible assumption
    | intro _
    | simp only [Keep.mkIff]
    | (simp +zetaDelta only [KeepF.mkIff]; refine KeepF.of ?_)
    | simp +zetaDelta only [Keep.mkIff]
    | assumption

theorem keep_keepPriv {r : State} (q : Nat) (v1 : QueueRec) (s : State) (h3 : Keep r s) :
    Keep r (keepPriv q v1 s) := by
  unfold keepPriv
  try extract_lets
  repeat' first
    | with_reducible assumption
    | intro _
    | with_reducible apply keep_sysWrite
    | simp +zetaDelta only [Keep.mkIff]
    | assumption

theorem keep_putQueue {r : State} (q : Nat) (v1 : QueueRec) (s : State) (h3 : Keep r s) :
    Keep r (putQueue q v1 s) := by
  unfold putQueue
  try extract_lets
  repeat' first
    | with_reducible assumption
    | intro _
    | with_reducible apply keep_keepPriv
    | with_reducible apply Keep.ite
    | split
    | simp only [Keep.mkIff]
    | (simp +zetaDelta only [KeepF.mkIff]; refine KeepF.of ?_)
    | simp +zetaDelta only [Keep.mkIff]
    | assumption

theorem keep_modQueue {r : State} (q : Nat) (f : QueueRec → QueueRec) (s : State) (h3 : Keep r s) :
    Keep r (modQueue q f s) := by
  unfold modQueue
  try extract_lets
  repeat' first
    | with_reducible assumption
    | intro _
    | with_reducible apply keep_putQueue
    | (refine Keep.snd (by assumption) ?_)
    | (refine Keep.fst (by assumption) ?_)
    | (refine Keep.thd (by assumption) ?_)
    | split
    | simp +zetaDelta only [Keep.mkIff]
    | assumption

theorem keep_msgAtQueue {r : State} (kind : Nat) (unit : Nat) (c : Nat) (payload : Nat) (tenantOk : Bool) (v5 : QueueRec) (s : State) (h7 : Keep r s) :
    Keep r (msgAtQueue kind unit c payload tenantOk v5 s) := by
  unfold msgAtQueue
  try extract_lets
  repeat' first
    | with_reducible assumption
    | intro _
    | with_reducible apply keep_dropMsg
    | with_reducible apply keep_setDb
    | with_reducible apply keep_modQueue
    | with_reducible apply Keep.ite
    | split
    | simp +zetaDelta only [Keep.mkIff]
    | assumption

theorem keep_startFetch {r : State} (q : Nat) (w : FetchFor) (s : State) (h3 : Keep r s) :
    Keep r (startFetch q w s) := by
  unfold startFetch
  try extract_lets
  repeat' first
    | with_reducible assumption
    | intro _
    | simp only [Keep.mkIff]
    | (simp +zetaDelta only [KeepF.mkIff]; refine KeepF.of ?_)
    | simp +zetaDelta only [Keep.mkIff]
    | assumption

theorem keep_queueMsg {r : State} (kind : Nat) (unit : Nat) (c : Nat) (payload : Nat) (tenantOk : Bool) (s : State) (h6 : Keep r s) :
    Keep r (queueMsg kind unit c payload tenantOk s) := by
  unfold queueMsg
  try extract_lets
  repeat' first
    | with_reducible assumption
    | intro _
    | with_reducible apply keep_dropMsg
    | with_reducible apply keep_msgAtQueue
    | with_reducible apply keep_touch
    | with_reducible apply keep_startFetch
    | with_reducible apply Keep.ite
    | (refine Keep.snd (by assumption) ?_)
    | (refine Keep.fst (by assumption) ?_)
    | (refine Keep.thd (by assumption) ?_)
    | split
    | simp +zetaDelta only [Keep.mkIff]
    | assumption

theorem keep_execHostWindowWrite {r : State} (fn : Nat) (c : Nat) (off : Nat) (size : Nat) (v : DWord) (s : State) (h6 : Keep r s) :
    KeepOut r (execHostWindowWrite fn c off size v s) := by
  unfold execHostWindowWrite
  try extract_lets
  repeat' first
    | with_reducible assumption
    | intro _
    | with_reducible apply KeepOut.next
    | with_reducible apply keep_winError
    | with_reducible apply keep_counterAddMsg
    | with_reducible apply keep_queueMsg
    | with_reducible apply KeepOut.ite
    | with_reducible apply Keep.ite
    | (refine Keep.snd (by assumption) ?_)
    | (refine Keep.fst (by assumption) ?_)
    | (refine Keep.thd (by assumption) ?_)
    | split
    | simp only [Keep.mkIff]
    | (simp +zetaDelta only [KeepF.mkIff]; refine KeepF.of ?_)
    | simp +zetaDelta only [Keep.mkIff]
    | assumption

theorem keep_dropQueue {r : State} (q : Nat) (s : State) (h2 : Keep r s) :
    Keep r (dropQueue q s) := by
  unfold dropQueue
  try extract_lets
  repeat' first
    | with_reducible assumption
    | intro _
    | simp only [Keep.mkIff]
    | (simp +zetaDelta only [KeepF.mkIff]; refine KeepF.of ?_)
    | simp +zetaDelta only [Keep.mkIff]
    | assumption

theorem keep_startBack {r : State} (q : Nat) (s : State) (h2 : Keep r s) :
    Keep r (startBack q s) := by
  unfold startBack
  try extract_lets
  repeat' first
    | with_reducible assumption
    | intro _
    | with_reducible apply Keep.ite
    | (refine Keep.snd (by assumption) ?_)
    | (refine Keep.fst (by assumption) ?_)
    | (refine Keep.thd (by assumption) ?_)
    | split
    | simp only [Keep.mkIff]
    | (simp +zetaDelta only [KeepF.mkIff]; refine KeepF.of ?_)
    | simp +zetaDelta only [Keep.mkIff]
    | assumption

theorem keep_makeRoom {r : State} (n : Nat) (s : State) (h2 : Keep r s) :
    Keep r (makeRoom n s).2 := by
  unfold makeRoom
  try extract_lets
  repeat' first
    | with_reducible assumption
    | intro _
    | with_reducible apply keep_dropQueue
    | with_reducible apply keep_startBack
    | with_reducible apply Keep.iteS
    | with_reducible apply Keep.ite
    | with_reducible apply Keep.foldl
    | with_reducible apply Keep.foldlP (p := Prod.snd)
    | with_reducible apply Keep.foldlP (p := Prod.fst)
    | with_reducible apply Keep.foldlT
    | (refine Keep.snd (by assumption) ?_)
    | (refine Keep.fst (by assumption) ?_)
    | (refine Keep.thd (by assumption) ?_)
    | split
    | simp +zetaDelta only [Keep.mkIff]
    | assumption

theorem keep_modQctl {r : State} (n : Nat) (f : QctlRec → QctlRec) (s : State) (h3 : Keep r s) :
    Keep r (modQctl n f s) := by
  unfold modQctl
  try extract_lets
  repeat' first
    | with_reducible assumption
    | intro _
    | simp only [Keep.mkIff]
    | (simp +zetaDelta only [KeepF.mkIff]; refine KeepF.of ?_)
    | simp +zetaDelta only [Keep.mkIff]
    | assumption

theorem keep_qctlEnd {r : State} (q : Nat) (st : Status) (s : State) (h3 : Keep r s) :
    Keep r (qctlEnd q st s) := by
  unfold qctlEnd
  try extract_lets
  repeat' first
    | with_reducible assumption
    | intro _
    | with_reducible apply keep_modQctl
    | simp +zetaDelta only [Keep.mkIff]
    | assumption

theorem keep_setEnabled {r : State} (q : Nat) (b : Bool) (s : State) (h3 : Keep r s) :
    Keep r (setEnabled q b s) := by
  unfold setEnabled
  try extract_lets
  repeat' first
    | with_reducible assumption
    | intro _
    | simp only [Keep.mkIff]
    | (simp +zetaDelta only [KeepF.mkIff]; refine KeepF.of ?_)
    | simp +zetaDelta only [Keep.mkIff]
    | assumption

theorem keep_enableNow {r : State} (q : Nat) (delayed : Bool) (ws : List Word) (s : State) (h4 : Keep r s) :
    Keep r (enableNow q delayed ws s) := by
  unfold enableNow
  try extract_lets
  repeat' first
    | with_reducible assumption
    | intro _
    | with_reducible apply keep_qctlEnd
    | with_reducible apply keep_setEnabled
    | with_reducible apply keep_putQueue
    | with_reducible apply Keep.ite
    | split
    | simp only [Keep.mkIff]
    | (simp +zetaDelta only [KeepF.mkIff]; refine KeepF.of ?_)
    | simp +zetaDelta only [Keep.mkIff]
    | assumption

theorem keep_reEnable {r : State} (q : Nat) (ws : List Word) (s : State) (h3 : Keep r s) :
    Keep r (reEnable q ws s) := by
  unfold reEnable
  try extract_lets
  repeat' first
    | with_reducible assumption
    | intro _
    | with_reducible apply keep_qctlEnd
    | with_reducible apply keep_modQueue
    | with_reducible apply Keep.ite
    | (refine Keep.snd (by assumption) ?_)
    | (refine Keep.fst (by assumption) ?_)
    | (refine Keep.thd (by assumption) ?_)
    | split
    | simp +zetaDelta only [Keep.mkIff]
    | assumption

theorem keep_startDisable {r : State} (q : Nat) (s : State) (h2 : Keep r s) :
    Keep r (startDisable q s) := by
  unfold startDisable
  try extract_lets
  repeat' first
    | with_reducible assumption
    | intro _
    | with_reducible apply keep_modQueue
    | with_reducible apply keep_endWaiters
    | with_reducible apply keep_forgetReq
    | with_reducible apply keep_sendWithdraw
    | with_reducible apply keep_finish
    | with_reducible apply Keep.foldl
    | with_reducible apply Keep.foldlP (p := Prod.snd)
    | with_reducible apply Keep.foldlP (p := Prod.fst)
    | with_reducible apply Keep.foldlT
    | (refine Keep.snd (by assumption) ?_)
    | (refine Keep.fst (by assumption) ?_)
    | (refine Keep.thd (by assumption) ?_)
    | split
    | simp only [Keep.mkIff]
    | (simp +zetaDelta only [KeepF.mkIff]; refine KeepF.of ?_)
    | simp +zetaDelta only [Keep.mkIff]
    | assumption

theorem keep_qctlRun {r : State} (n : Nat) (v : Nat) (s : State) (h3 : Keep r s) :
    Keep r (qctlRun n v s) := by
  unfold qctlRun
  try extract_lets
  repeat' first
    | with_reducible assumption
    | intro _
    | with_reducible apply keep_modQctl
    | with_reducible apply keep_enableNow
    | with_reducible apply keep_qctlEnd
    | with_reducible apply keep_startFetch
    | with_reducible apply keep_reEnable
    | with_reducible apply keep_startDisable
    | with_reducible apply keep_modQueue
    | with_reducible apply Keep.ite
    | (refine Keep.snd (by assumption) ?_)
    | (refine Keep.fst (by assumption) ?_)
    | (refine Keep.thd (by assumption) ?_)
    | split
    | simp +zetaDelta only [Keep.mkIff]
    | assumption

theorem keep_qctlMore {r : State} (v0 : Nat) (v1 : Nat) (v2 : State) (h3 : Keep r v2) :
    Keep r (qctlMore v0 v1 v2) := by
  induction v0 generalizing v2 with
  | zero => exact h3
  | succ k ih =>
    unfold qctlMore
    extract_lets r
    split
    · exact ih _ (keep_finish _ _ _ (keep_qctlRun _ _ _ (keep_regPut _ _ _ _ (keep_modQctl _ _ _ h3))))
    · exact h3

theorem keep_useQueue {r : State} (q : Nat) (s : State) (h2 : Keep r s) :
    Keep r (useQueue q s) := by
  unfold useQueue
  try extract_lets
  repeat' first
    | with_reducible assumption
    | intro _
    | with_reducible apply keep_modQueue
    | simp only [Keep.mkIff]
    | (simp +zetaDelta only [KeepF.mkIff]; refine KeepF.of ?_)
    | simp +zetaDelta only [Keep.mkIff]
    | assumption

theorem keep_serveDoorbell {r : State} (q : Nat) (v1 : QueueRec) (s : State) (h3 : Keep r s) :
    Keep r (serveDoorbell q v1 s) := by
  unfold serveDoorbell
  try extract_lets
  repeat' first
    | with_reducible assumption
    | intro _
    | with_reducible apply keep_useQueue
    | with_reducible apply keep_setDb
    | with_reducible apply keep_modQueue
    | (refine Keep.snd (by assumption) ?_)
    | (refine Keep.fst (by assumption) ?_)
    | (refine Keep.thd (by assumption) ?_)
    | split
    | simp +zetaDelta only [Keep.mkIff]
    | assumption

theorem keep_rackDrop {r : State} (q : Nat) (v : Nat) (by_ : RegBy) (s : State) (h4 : Keep r s) :
    Keep r (rackDrop q v by_ s).2 := by
  unfold rackDrop
  try extract_lets
  repeat' first
    | with_reducible assumption
    | intro _
    | with_reducible apply keep_report
    | simp +zetaDelta only [Keep.mkIff]
    | assumption

theorem keep_rackTake {r : State} (q : Nat) (v : Nat) (by_ : RegBy) (v3 : QueueRec) (s : State) (h5 : Keep r s) :
    Keep r (rackTake q v by_ v3 s).2 := by
  unfold rackTake
  try extract_lets
  repeat' first
    | with_reducible assumption
    | intro _
    | with_reducible apply keep_modQueue
    | with_reducible apply keep_regPut
    | with_reducible apply keep_rackDrop
    | with_reducible apply Keep.iteS
    | with_reducible apply Keep.ite
    | split
    | simp +zetaDelta only [Keep.mkIff]
    | assumption

theorem keep_rackFetched {r : State} (q : Nat) (v : Nat) (by_ : RegBy) (s : State) (h4 : Keep r s) :
    Keep r (rackFetched q v by_ s) := by
  unfold rackFetched
  try extract_lets
  repeat' first
    | with_reducible assumption
    | intro _
    | with_reducible apply keep_rackTake
    | with_reducible apply keep_rackDrop
    | with_reducible apply keep_finish
    | (refine Keep.snd (by assumption) ?_)
    | (refine Keep.fst (by assumption) ?_)
    | (refine Keep.thd (by assumption) ?_)
    | split
    | simp +zetaDelta only [Keep.mkIff]
    | assumption

theorem keep_fetched {r : State} (q : Nat) (w : FetchFor) (s1 : State) (h3 : Keep r s1) :
    Keep r (fetched q w s1) := by
  unfold fetched
  try extract_lets
  repeat' first
    | with_reducible assumption
    | intro _
    | with_reducible apply keep_report
    | with_reducible apply keep_setDb
    | with_reducible apply keep_makeRoom
    | with_reducible apply keep_putQueue
    | with_reducible apply keep_qctlMore
    | with_reducible apply keep_qctlEnd
    | with_reducible apply keep_enableNow
    | with_reducible apply keep_reEnable
    | with_reducible apply keep_setEnabled
    | with_reducible apply keep_startDisable
    | with_reducible apply keep_modQueue
    | with_reducible apply keep_serveDoorbell
    | with_reducible apply keep_msgAtQueue
    | with_reducible apply keep_rackFetched
    | with_reducible apply Keep.ite
    | (refine Keep.snd (by assumption) ?_)
    | (refine Keep.fst (by assumption) ?_)
    | (refine Keep.thd (by assumption) ?_)
    | split
    | simp +zetaDelta only [Keep.mkIff]
    | assumption

theorem keep_execDescriptorFetchDone {r : State} (q : Nat) (s : State) (h2 : Keep r s) :
    KeepOut r (execDescriptorFetchDone q s) := by
  unfold execDescriptorFetchDone
  try extract_lets
  repeat' first
    | with_reducible assumption
    | intro _
    | with_reducible apply KeepOut.next
    | with_reducible apply keep_makeRoom
    | with_reducible apply keep_fetched
    | with_reducible apply KeepOut.ite
    | with_reducible apply Keep.ite
    | (refine Keep.snd (by assumption) ?_)
    | (refine Keep.fst (by assumption) ?_)
    | (refine Keep.thd (by assumption) ?_)
    | split
    | simp only [Keep.mkIff]
    | (simp +zetaDelta only [KeepF.mkIff]; refine KeepF.of ?_)
    | simp +zetaDelta only [Keep.mkIff]
    | assumption

theorem keep_qctlWrite {r : State} (n : Nat) (v : Nat) (by_ : RegBy) (s : State) (h4 : Keep r s) :
    Keep r (qctlWrite n v by_ s).2 := by
  unfold qctlWrite
  try extract_lets
  repeat' first
    | with_reducible assumption
    | intro _
    | with_reducible apply keep_touch
    | with_reducible apply keep_qctlRun
    | with_reducible apply keep_regPut
    | with_reducible apply keep_modQctl
    | with_reducible apply Keep.iteS
    | with_reducible apply Keep.ite
    | (refine Keep.snd (by assumption) ?_)
    | (refine Keep.fst (by assumption) ?_)
    | (refine Keep.thd (by assumption) ?_)
    | split
    | simp +zetaDelta only [Keep.mkIff]
    | assumption

theorem keep_qctlDbWrite {r : State} (n : Nat) (v : Nat) (v2 : RegBy) (s : State) (h4 : Keep r s) :
    Keep r (qctlDbWrite n v v2 s).2 := by
  unfold qctlDbWrite
  try extract_lets
  repeat' first
    | with_reducible assumption
    | intro _
    | with_reducible apply keep_setDb
    | with_reducible apply keep_regPut
    | with_reducible apply keep_touch
    | simp +zetaDelta only [Keep.mkIff]
    | assumption

theorem keep_qctlRackWrite {r : State} (n : Nat) (v : Nat) (by_ : RegBy) (s : State) (h4 : Keep r s) :
    Keep r (qctlRackWrite n v by_ s).2 := by
  unfold qctlRackWrite
  try extract_lets
  repeat' first
    | with_reducible assumption
    | intro _
    | with_reducible apply keep_rackTake
    | with_reducible apply keep_startFetch
    | with_reducible apply keep_rackDrop
    | with_reducible apply Keep.iteS
    | with_reducible apply Keep.ite
    | (refine Keep.snd (by assumption) ?_)
    | (refine Keep.fst (by assumption) ?_)
    | (refine Keep.thd (by assumption) ?_)
    | split
    | simp +zetaDelta only [Keep.mkIff]
    | assumption

theorem keep_disableEnd {r : State} (q : Nat) (v1 : QueueRec) (s : State) (h3 : Keep r s) :
    Keep r (disableEnd q v1 s) := by
  unfold disableEnd
  try extract_lets
  repeat' first
    | with_reducible assumption
    | intro _
    | with_reducible apply keep_setEnabled
    | with_reducible apply keep_putQueue
    | with_reducible apply keep_dropQueue
    | with_reducible apply keep_modQctl
    | with_reducible apply keep_qctlMore
    | with_reducible apply keep_enableNow
    | with_reducible apply keep_startFetch
    | with_reducible apply keep_qctlEnd
    | with_reducible apply Keep.ite
    | split
    | simp +zetaDelta only [Keep.mkIff]
    | assumption

theorem keep_execDescriptorWriteBackDone {r : State} (q : Nat) (ok : Bool) (s : State) (h3 : Keep r s) :
    KeepOut r (execDescriptorWriteBackDone q ok s) := by
  unfold execDescriptorWriteBackDone
  try extract_lets
  repeat' first
    | with_reducible assumption
    | intro _
    | with_reducible apply KeepOut.next
    | with_reducible apply keep_extWrite
    | with_reducible apply keep_report
    | with_reducible apply keep_disableEnd
    | with_reducible apply KeepOut.ite
    | with_reducible apply Keep.ite
    | (refine Keep.snd (by assumption) ?_)
    | (refine Keep.fst (by assumption) ?_)
    | (refine Keep.thd (by assumption) ?_)
    | split
    | simp only [Keep.mkIff]
    | (simp +zetaDelta only [KeepF.mkIff]; refine KeepF.of ?_)
    | simp +zetaDelta only [Keep.mkIff]
    | assumption

theorem keep_execQueueDisableDone {r : State} (q : Nat) (s : State) (h2 : Keep r s) :
    KeepOut r (execQueueDisableDone q s) := by
  unfold execQueueDisableDone
  try extract_lets
  repeat' first
    | with_reducible assumption
    | intro _
    | with_reducible apply KeepOut.next
    | with_reducible apply keep_disableEnd
    | with_reducible apply keep_startBack
    | with_reducible apply keep_putQueue
    | with_reducible apply KeepOut.ite
    | with_reducible apply Keep.ite
    | (refine Keep.snd (by assumption) ?_)
    | (refine Keep.fst (by assumption) ?_)
    | (refine Keep.thd (by assumption) ?_)
    | split
    | simp +zetaDelta only [Keep.mkIff]
    | assumption

theorem keep_execReplyAck {r : State} (path : MsgPath) (c : Nat) (v : DWord) (s : State) (h4 : Keep r s) :
    KeepOut r (execReplyAck path c v s) := by
  unfold execReplyAck
  try extract_lets
  repeat' first
    | with_reducible assumption
    | intro _
    | with_reducible apply KeepOut.next
    | with_reducible apply keep_queueMsg
    | with_reducible apply keep_winError
    | with_reducible apply KeepOut.ite
    | with_reducible apply Keep.ite
    | split
    | simp +zetaDelta only [Keep.mkIff]
    | assumption

theorem keep_execCounterAdd {r : State} (path : MsgPath) (c : Nat) (v : DWord) (s : State) (h4 : Keep r s) :
    KeepOut r (execCounterAdd path c v s) := by
  unfold execCounterAdd
  try extract_lets
  repeat' first
    | with_reducible assumption
    | intro _
    | with_reducible apply KeepOut.next
    | with_reducible apply keep_counterAddMsg
    | with_reducible apply keep_winError
    | with_reducible apply KeepOut.ite
    | with_reducible apply Keep.ite
    | (refine Keep.snd (by assumption) ?_)
    | (refine Keep.fst (by assumption) ?_)
    | (refine Keep.thd (by assumption) ?_)
    | split
    | simp +zetaDelta only [Keep.mkIff]
    | assumption

theorem keep_execDoorbell {r : State} (path : MsgPath) (c : Nat) (v : DWord) (s : State) (h4 : Keep r s) :
    KeepOut r (execDoorbell path c v s) := by
  unfold execDoorbell
  try extract_lets
  repeat' first
    | with_reducible assumption
    | intro _
    | with_reducible apply KeepOut.next
    | with_reducible apply keep_queueMsg
    | with_reducible apply keep_winError
    | with_reducible apply KeepOut.ite
    | with_reducible apply Keep.ite
    | split
    | simp +zetaDelta only [Keep.mkIff]
    | assumption

theorem keep_execDoorbellService {r : State} (q : Nat) (s : State) (h2 : Keep r s) :
    KeepOut r (execDoorbellService q s) := by
  unfold execDoorbellService
  try extract_lets
  repeat' first
    | with_reducible assumption
    | intro _
    | with_reducible apply KeepOut.next
    | with_reducible apply keep_serveDoorbell
    | with_reducible apply keep_setDb
    | with_reducible apply keep_startFetch
    | with_reducible apply KeepOut.ite
    | with_reducible apply Keep.ite
    | (refine Keep.snd (by assumption) ?_)
    | (refine Keep.fst (by assumption) ?_)
    | (refine Keep.thd (by assumption) ?_)
    | split
    | simp +zetaDelta only [Keep.mkIff]
    | assumption

end Sys2Proof.Laws
end

