-- ==== Sys2Proof/Laws/KeepSyncCmds.lean ====
section
/-! SUPPORT. Laws/KeepSyncCmds.lean: the operations of Machine/SyncCmds.lean keep what every effect keeps (Laws/Keep.lean). -/
namespace Sys2Proof.Laws
open Sys2Proof.Machine
set_option linter.all false
set_option Elab.async false

theorem keep_mapObject {r : State} (s : State) (v : Nat) (c : Nat) (vid : Nat) (ph : Nat) (h1 : Keep r s) :
    Keep r (mapObject s v c vid ph) := by
  unfold mapObject
  try extract_lets
  repeat' first
    | with_reducible assumption
    | intro _
    | with_reducible apply keep_modCtx
    | with_reducible apply keep_putLock
    | with_reducible apply keep_putCounter
    | with_reducible apply Keep.ite
    | split
    | simp +zetaDelta only [Keep.mkIff]
    | assumption

theorem keep_unmapObject {r : State} (s : State) (kind : Nat) (c : Nat) (vid : Nat) (ph : Nat) (h1 : Keep r s) :
    Keep r (unmapObject s kind c vid ph) := by
  unfold unmapObject
  try extract_lets
  repeat' first
    | with_reducible assumption
    | intro _
    | with_reducible apply keep_modCtx
    | with_reducible apply keep_putLock
    | with_reducible apply keep_putCounter
    | with_reducible apply Keep.ite
    | split
    | simp +zetaDelta only [Keep.mkIff]
    | assumption

theorem keep_cmapOp {r : State} (v : Nat) (s : State) (h2 : Keep r s) :
    Keep r (cmapOp v s).2 := by
  unfold cmapOp
  try extract_lets
  repeat' first
    | with_reducible assumption
    | intro _
    | with_reducible apply keep_mapObject
    | with_reducible apply keep_unmapObject
    | with_reducible apply Keep.iteS
    | with_reducible apply Keep.ite
    | (refine Keep.snd (by assumption) ?_)
    | (refine Keep.fst (by assumption) ?_)
    | (refine Keep.thd (by assumption) ?_)
    | split
    | simp +zetaDelta only [Keep.mkIff]
    | assumption

theorem keep_cmapWrite {r : State} (v : Nat) (s : State) (h2 : Keep r s) :
    Keep r (cmapWrite v s) := by
  unfold cmapWrite
  try extract_lets
  repeat' first
    | with_reducible assumption
    | intro _
    | with_reducible apply keep_regPut
    | with_reducible apply keep_cmapOp
    | (refine Keep.snd (by assumption) ?_)
    | (refine Keep.fst (by assumption) ?_)
    | (refine Keep.thd (by assumption) ?_)
    | split
    | simp +zetaDelta only [Keep.mkIff]
    | assumption

theorem keep_dbgWrite {r : State} (v : Nat) (s : State) (h2 : Keep r s) :
    Keep r (dbgWrite v s) := by
  unfold dbgWrite
  try extract_lets
  repeat' first
    | with_reducible assumption
    | intro _
    | with_reducible apply keep_regPut
    | with_reducible apply Keep.foldl
    | with_reducible apply Keep.foldlP (p := Prod.snd)
    | with_reducible apply Keep.foldlP (p := Prod.fst)
    | with_reducible apply Keep.foldlT
    | (refine Keep.snd (by assumption) ?_)
    | (refine Keep.fst (by assumption) ?_)
    | (refine Keep.thd (by assumption) ?_)
    | split
    | simp +zetaDelta only [Keep.mkIff]
    | assumption

theorem keep_clearAbandonedOn {r : State} (c : Cmd) (ph : Nat) (s : State) (h3 : Keep r s) :
    Keep r (clearAbandonedOn c ph s) := by
  unfold clearAbandonedOn
  try extract_lets
  repeat' first
    | with_reducible assumption
    | intro _
    | with_reducible apply keep_cmdDone
    | with_reducible apply keep_putLock
    | with_reducible apply Keep.ite
    | split
    | simp +zetaDelta only [Keep.mkIff]
    | assumption

theorem keep_execLockClearAbandoned {r : State} (cmd : Nat) (s : State) (h2 : Keep r s) :
    KeepOut r (execLockClearAbandoned cmd s) := by
  unfold execLockClearAbandoned
  try extract_lets
  repeat' first
    | with_reducible assumption
    | intro _
    | with_reducible apply KeepOut.next
    | with_reducible apply keep_clearAbandonedOn
    | with_reducible apply keep_cmdRefuse
    | (refine Keep.snd (by assumption) ?_)
    | (refine Keep.fst (by assumption) ?_)
    | (refine Keep.thd (by assumption) ?_)
    | split
    | simp +zetaDelta only [Keep.mkIff]
    | assumption

theorem keep_rowErr {r : State} (n : Nat) (st : Status) (s : State) (h3 : Keep r s) :
    Keep r (rowErr n st s) := by
  unfold rowErr
  try extract_lets
  repeat' first
    | with_reducible assumption
    | intro _
    | with_reducible apply keep_portErr
    | with_reducible apply Keep.ite
    | split
    | simp +zetaDelta only [Keep.mkIff]
    | assumption

theorem keep_regRow {r : State} (w : RegWriter) (addr : Nat) (f : RegBy → State → RegRes) (s : State) (h3 : ∀ a0 a1, Keep r a1 → Keep r (f a0 a1).2) (h4 : Keep r s) :
    KeepOut r (regRow w addr f s) := by
  unfold regRow
  try extract_lets
  repeat' first
    | with_reducible assumption
    | intro _
    | with_reducible apply h3
    | with_reducible apply KeepOut.next
    | with_reducible apply keep_emit
    | with_reducible apply keep_rowErr
    | with_reducible apply KeepOut.ite
    | with_reducible apply Keep.ite
    | (refine Keep.snd (by assumption) ?_)
    | (refine Keep.fst (by assumption) ?_)
    | (refine Keep.thd (by assumption) ?_)
    | split
    | simp +zetaDelta only [Keep.mkIff]
    | assumption

theorem keep_releaseOn {r : State} (c : Cmd) (ph : Nat) (s : State) (h3 : Keep r s) :
    Keep r (releaseOn c ph s) := by
  unfold releaseOn
  try extract_lets
  repeat' first
    | with_reducible assumption
    | intro _
    | with_reducible apply keep_cmdDone
    | with_reducible apply keep_giveUpLock
    | with_reducible apply keep_putLock
    | with_reducible apply Keep.ite
    | split
    | simp +zetaDelta only [Keep.mkIff]
    | assumption

theorem keep_execLockRelease {r : State} (cmd : Nat) (s : State) (h2 : Keep r s) :
    KeepOut r (execLockRelease cmd s) := by
  unfold execLockRelease
  try extract_lets
  repeat' first
    | with_reducible assumption
    | intro _
    | with_reducible apply KeepOut.next
    | with_reducible apply keep_releaseOn
    | with_reducible apply keep_cmdRefuse
    | (refine Keep.snd (by assumption) ?_)
    | (refine Keep.fst (by assumption) ?_)
    | (refine Keep.thd (by assumption) ?_)
    | split
    | simp +zetaDelta only [Keep.mkIff]
    | assumption

theorem keep_cmapRow {r : State} (v : Nat) (by_ : RegBy) (s : State) (h3 : Keep r s) :
    Keep r (cmapRow v by_ s).2 := by
  unfold cmapRow
  try extract_lets
  repeat' first
    | with_reducible assumption
    | intro _
    | with_reducible apply keep_dropReg
    | with_reducible apply keep_cmapWrite
    | with_reducible apply Keep.iteS
    | with_reducible apply Keep.ite
    | split
    | simp +zetaDelta only [Keep.mkIff]
    | assumption

theorem keep_execMap {r : State} (v : DWord) (w : RegWriter) (s : State) (h3 : Keep r s) :
    KeepOut r (execMap v w s) := by
  unfold execMap
  try extract_lets
  repeat' first
    | with_reducible assumption
    | intro _
    | with_reducible apply KeepOut.next
    | with_reducible apply keep_regRow
    | with_reducible apply keep_cmapRow
    | with_reducible apply KeepOut.ite
    | with_reducible apply Keep.ite
    | split
    | simp +zetaDelta only [Keep.mkIff]
    | assumption

theorem keep_execResetNotify {r : State} (ctx : Nat) (hid : Nat) (s : State) (h3 : Keep r s) :
    KeepOut r (execResetNotify ctx hid s) := by
  unfold execResetNotify
  try extract_lets
  repeat' first
    | with_reducible assumption
    | intro _
    | with_reducible apply KeepOut.next
    | with_reducible apply keep_emit
    | with_reducible apply keep_forceRelease
    | with_reducible apply Keep.foldl
    | with_reducible apply Keep.foldlP (p := Prod.snd)
    | with_reducible apply Keep.foldlP (p := Prod.fst)
    | with_reducible apply Keep.foldlT
    | simp +zetaDelta only [Keep.mkIff]
    | assumption

theorem keep_timeTo {r : State} (t : Nat) (s : State) (h2 : Keep r s) :
    Keep r (timeTo t s) := by
  unfold timeTo
  try extract_lets
  repeat' first
    | with_reducible assumption
    | intro _
    | simp only [Keep.mkIff]
    | (simp +zetaDelta only [KeepF.mkIff]; refine KeepF.of ?_)
    | simp +zetaDelta only [Keep.mkIff]
    | assumption

theorem keep_execUnmap {r : State} (v : DWord) (w : RegWriter) (s : State) (h3 : Keep r s) :
    KeepOut r (execUnmap v w s) := by
  unfold execUnmap
  try extract_lets
  repeat' first
    | with_reducible assumption
    | intro _
    | with_reducible apply KeepOut.next
    | with_reducible apply keep_regRow
    | with_reducible apply keep_cmapRow
    | with_reducible apply KeepOut.ite
    | with_reducible apply Keep.ite
    | split
    | simp +zetaDelta only [Keep.mkIff]
    | assumption

theorem keep_dbgRow {r : State} (v : Nat) (by_ : RegBy) (s : State) (h3 : Keep r s) :
    Keep r (dbgRow v by_ s).2 := by
  unfold dbgRow
  try extract_lets
  repeat' first
    | with_reducible assumption
    | intro _
    | with_reducible apply keep_dropReg
    | with_reducible apply keep_dbgWrite
    | with_reducible apply Keep.iteS
    | with_reducible apply Keep.ite
    | split
    | simp +zetaDelta only [Keep.mkIff]
    | assumption

theorem keep_execDbgSelWrite {r : State} (v : DWord) (w : RegWriter) (s : State) (h3 : Keep r s) :
    KeepOut r (execDbgSelWrite v w s) := by
  unfold execDbgSelWrite
  try extract_lets
  repeat' first
    | with_reducible assumption
    | intro _
    | with_reducible apply KeepOut.next
    | with_reducible apply keep_regRow
    | with_reducible apply keep_dbgRow
    | simp +zetaDelta only [Keep.mkIff]
    | assumption

theorem keep_waitOn {r : State} (c : Cmd) (ph : Nat) (s : State) (h3 : Keep r s) :
    Keep r (waitOn c ph s) := by
  unfold waitOn
  try extract_lets
  repeat' first
    | with_reducible assumption
    | intro _
    | with_reducible apply keep_cmdRefuse
    | with_reducible apply keep_putCounter
    | with_reducible apply keep_cmdDone
    | with_reducible apply keep_emit
    | with_reducible apply keep_freshId
    | with_reducible apply keep_modCmd
    | with_reducible apply Keep.ite
    | (refine Keep.snd (by assumption) ?_)
    | (refine Keep.fst (by assumption) ?_)
    | (refine Keep.thd (by assumption) ?_)
    | split
    | simp only [Keep.mkIff]
    | (simp +zetaDelta only [KeepF.mkIff]; refine KeepF.of ?_)
    | simp +zetaDelta only [Keep.mkIff]
    | assumption

theorem keep_execWait {r : State} (cmd : Nat) (s : State) (h2 : Keep r s) :
    KeepOut r (execWait cmd s) := by
  unfold execWait
  try extract_lets
  repeat' first
    | with_reducible assumption
    | intro _
    | with_reducible apply KeepOut.next
    | with_reducible apply keep_waitOn
    | with_reducible apply keep_cmdRefuse
    | (refine Keep.snd (by assumption) ?_)
    | (refine Keep.fst (by assumption) ?_)
    | (refine Keep.thd (by assumption) ?_)
    | split
    | simp +zetaDelta only [Keep.mkIff]
    | assumption

theorem keep_acquireOn {r : State} (c : Cmd) (ph : Nat) (s : State) (h3 : Keep r s) :
    Keep r (acquireOn c ph s) := by
  unfold acquireOn
  try extract_lets
  repeat' first
    | with_reducible assumption
    | intro _
    | with_reducible apply keep_cmdDone
    | with_reducible apply keep_putLock
    | with_reducible apply keep_freshId
    | with_reducible apply keep_modCmd
    | with_reducible apply Keep.ite
    | (refine Keep.snd (by assumption) ?_)
    | (refine Keep.fst (by assumption) ?_)
    | (refine Keep.thd (by assumption) ?_)
    | split
    | simp only [Keep.mkIff]
    | (simp +zetaDelta only [KeepF.mkIff]; refine KeepF.of ?_)
    | simp +zetaDelta only [Keep.mkIff]
    | assumption

theorem keep_execLockAcquire {r : State} (cmd : Nat) (s : State) (h2 : Keep r s) :
    KeepOut r (execLockAcquire cmd s) := by
  unfold execLockAcquire
  try extract_lets
  repeat' first
    | with_reducible assumption
    | intro _
    | with_reducible apply KeepOut.next
    | with_reducible apply keep_acquireOn
    | with_reducible apply keep_cmdRefuse
    | (refine Keep.snd (by assumption) ?_)
    | (refine Keep.fst (by assumption) ?_)
    | (refine Keep.thd (by assumption) ?_)
    | split
    | simp +zetaDelta only [Keep.mkIff]
    | assumption

end Sys2Proof.Laws
end

