-- ==== Sys2Proof/Laws/KeepWeave.lean ====
section
/-! SUPPORT. Laws/KeepWeave.lean: the operations of Machine/Weave.lean keep what every effect keeps (Laws/Keep.lean). -/
namespace Sys2Proof.Laws
open Sys2Proof.Machine
set_option linter.all false
set_option Elab.async false

theorem keep_modContract {r : State} (kind : Nat) (target : Nat) (f : Contract → Contract) (s : State) (h4 : Keep r s) :
    Keep r (modContract kind target f s) := by
  unfold modContract
  try extract_lets
  repeat' first
    | with_reducible assumption
    | intro _
    | simp only [Keep.mkIff]
    | (simp +zetaDelta only [KeepF.mkIff]; refine KeepF.of ?_)
    | simp +zetaDelta only [Keep.mkIff]
    | assumption

theorem keep_gMoved {r : State} (kind : Nat) (target : Nat) (n : Nat) (s : State) (h4 : Keep r s) :
    Keep r (gMoved kind target n s) := by
  unfold gMoved
  try extract_lets
  repeat' first
    | with_reducible assumption
    | intro _
    | with_reducible apply keep_modContract
    | simp +zetaDelta only [Keep.mkIff]
    | assumption

theorem keep_dropWorks {r : State} (id : Nat) (s : State) (h2 : Keep r s) :
    Keep r (dropWorks id s) := by
  unfold dropWorks
  try extract_lets
  repeat' first
    | with_reducible assumption
    | intro _
    | with_reducible apply keep_gMoved
    | with_reducible apply Keep.foldl
    | with_reducible apply Keep.foldlP (p := Prod.snd)
    | with_reducible apply Keep.foldlP (p := Prod.fst)
    | with_reducible apply Keep.foldlT
    | simp only [Keep.mkIff]
    | (simp +zetaDelta only [KeepF.mkIff]; refine KeepF.of ?_)
    | simp +zetaDelta only [Keep.mkIff]
    | assumption

theorem keep_modWork {r : State} (id : Nat) (f : Work → Work) (s : State) (h3 : Keep r s) :
    Keep r (modWork id f s) := by
  unfold modWork
  try extract_lets
  repeat' first
    | with_reducible assumption
    | intro _
    | simp only [Keep.mkIff]
    | (simp +zetaDelta only [KeepF.mkIff]; refine KeepF.of ?_)
    | simp +zetaDelta only [Keep.mkIff]
    | assumption

theorem keep_moveWork {r : State} (w : Work) (n : Nat) (s : State) (h3 : Keep r s) :
    Keep r (moveWork w n s) := by
  unfold moveWork
  try extract_lets
  repeat' first
    | with_reducible assumption
    | intro _
    | with_reducible apply keep_gMoved
    | with_reducible apply keep_modWork
    | with_reducible apply Keep.ite
    | split
    | simp +zetaDelta only [Keep.mkIff]
    | assumption

theorem keep_gTele {r : State} (w : Nat) (n : Nat) (s : State) (h3 : Keep r s) :
    Keep r (gTele w n s) := by
  unfold gTele
  try extract_lets
  repeat' first
    | with_reducible assumption
    | intro _
    | with_reducible apply keep_integAdd
    | simp +zetaDelta only [Keep.mkIff]
    | assumption

theorem keep_recordMiss {r : State} (home : Nat) (src : Nat) (unit : Nat) (who : Who) (ctx : Nat) (addr : Nat) (target : Nat) (ovr : Nat) (rail : Bool) (s : State) (h10 : Keep r s) :
    Keep r (recordMiss home src unit who ctx addr target ovr rail s) := by
  unfold recordMiss
  extract_lets s1 s2 reg s3 s4 s5 worst
  have k3 : Keep r s3 := keep_regPut _ _ _ _ (keep_modSlice _ _ _ (keep_report _ _ _ _ _ _ _ _ h10))
  have k4 : Keep r s4 := keep_gTele _ _ _ (by
    split
    · exact keep_gTele _ _ _ k3
    · exact k3)
  have k5 : Keep r s5 := by
    show Keep r (match partOfSlice s home with
      | some p => _
      | none => s4)
    split
    · exact KeepF.of k4
    · exact k4
  exact KeepF.of k5

theorem keep_finishBind {r : State} (o : Origin) (st : Status) (result : Nat) (s : State) (h4 : Keep r s) :
    Keep r (finishBind o st result s) := by
  unfold finishBind
  try extract_lets
  repeat' first
    | with_reducible assumption
    | intro _
    | with_reducible apply keep_cmdDone
    | with_reducible apply keep_finish
    | (refine Keep.snd (by assumption) ?_)
    | (refine Keep.fst (by assumption) ?_)
    | (refine Keep.thd (by assumption) ?_)
    | split
    | simp +zetaDelta only [Keep.mkIff]
    | assumption

theorem keep_startUnbind {r : State} (kind : Nat) (target : Nat) (o : Origin) (s : State) (h4 : Keep r s) :
    Keep r (startUnbind kind target o s) := by
  unfold startUnbind
  try extract_lets
  repeat' first
    | with_reducible assumption
    | intro _
    | with_reducible apply keep_freshId
    | with_reducible apply keep_finishBind
    | (refine Keep.snd (by assumption) ?_)
    | (refine Keep.fst (by assumption) ?_)
    | (refine Keep.thd (by assumption) ?_)
    | split
    | simp only [Keep.mkIff]
    | (simp +zetaDelta only [KeepF.mkIff]; refine KeepF.of ?_)
    | simp +zetaDelta only [Keep.mkIff]
    | assumption

theorem keep_unbindPort {r : State} (target : Nat) (s : State) (h2 : Keep r s) :
    Keep r (unbindPort target s) := by
  unfold unbindPort
  try extract_lets
  repeat' first
    | with_reducible assumption
    | intro _
    | with_reducible apply keep_startUnbind
    | simp only [Keep.mkIff]
    | (simp +zetaDelta only [KeepF.mkIff]; refine KeepF.of ?_)
    | simp +zetaDelta only [Keep.mkIff]
    | assumption

theorem keep_gTake {r : State} (c : Contract) (n : Nat) (s : State) (h3 : Keep r s) :
    Keep r (gTake c n s) := by
  unfold gTake
  try extract_lets
  repeat' first
    | with_reducible assumption
    | intro _
    | with_reducible apply keep_modContract
    | simp +zetaDelta only [Keep.mkIff]
    | assumption

theorem keep_addWorks {r : State} (of : Nat) (req : Nat) (k : Option Contract) (kind : Nat) (target : Nat) (ep : Nat) (reqr : Nat → Nat) (l : List (Nat × GSet × Nat × Nat)) (s : State) (h9 : Keep r s) :
    Keep r (addWorks of req k kind target ep reqr l s) := by
  unfold addWorks
  try extract_lets
  repeat' first
    | with_reducible assumption
    | intro _
    | with_reducible apply keep_freshId
    | with_reducible apply Keep.ite
    | with_reducible apply Keep.foldl
    | with_reducible apply Keep.foldlP (p := Prod.snd)
    | with_reducible apply Keep.foldlP (p := Prod.fst)
    | with_reducible apply Keep.foldlT
    | (refine Keep.snd (by assumption) ?_)
    | (refine Keep.fst (by assumption) ?_)
    | (refine Keep.thd (by assumption) ?_)
    | split
    | simp only [Keep.mkIff]
    | (simp +zetaDelta only [KeepF.mkIff]; refine KeepF.of ?_)
    | simp +zetaDelta only [Keep.mkIff]
    | assumption

theorem keep_moveWorks {r : State} (v0 : List Work) (v1 : Nat) (v2 : State) (h3 : Keep r v2) :
    Keep r (moveWorks v0 v1 v2) := by
  induction v0 generalizing v1 v2 with
  | nil => exact h3
  | cons w ws ih =>
    unfold moveWorks
    repeat' first
      | split
      | exact h3
      | exact ih _ _ (keep_moveWork _ _ _ h3)

end Sys2Proof.Laws
end

