-- ==== Sys2Proof/Laws/KeepCmds.lean ====
section
/-! SUPPORT. Laws/KeepCmds.lean: the operations of Machine/Cmds.lean keep what every effect keeps (Laws/Keep.lean). -/
namespace Sys2Proof.Laws
open Sys2Proof.Machine
set_option linter.all false
set_option Elab.async false

theorem keep_whenAwake {r : State} (ns : List Nat) (kind : Nat) (id : Nat) (s : State) (f : State → State) (h4 : Keep r s) (h5 : ∀ a0, Keep r a0 → Keep r (f a0)) :
    Keep r (whenAwake ns kind id s f) := by
  unfold whenAwake
  try extract_lets
  repeat' first
    | with_reducible assumption
    | intro _
    | with_reducible apply h5
    | with_reducible apply keep_touchAll
    | with_reducible apply Keep.ite
    | (refine Keep.snd (by assumption) ?_)
    | (refine Keep.fst (by assumption) ?_)
    | (refine Keep.thd (by assumption) ?_)
    | split
    | simp +zetaDelta only [Keep.mkIff]
    | assumption

theorem keep_cmdWrite {r : State} (who : Who) (ctx : Nat) (a : Nat) (bs : List Byte) (s : State) (h5 : Keep r s) :
    Keep r (cmdWrite who ctx a bs s).2 := by
  unfold cmdWrite
  try extract_lets
  repeat' first
    | with_reducible assumption
    | intro _
    | with_reducible apply keep_writeBytes
    | with_reducible apply keep_extWrite
    | with_reducible apply Keep.iteS
    | with_reducible apply Keep.ite
    | (refine Keep.snd (by assumption) ?_)
    | (refine Keep.fst (by assumption) ?_)
    | (refine Keep.thd (by assumption) ?_)
    | split
    | simp +zetaDelta only [Keep.mkIff]
    | assumption

theorem keep_logCheck {r : State} (c : Cmd) (st : Status) (a : Nat) (s : State) (h4 : Keep r s) :
    Keep r (logCheck c st a s) := by
  unfold logCheck
  try extract_lets
  repeat' first
    | with_reducible assumption
    | intro _
    | with_reducible apply keep_report
    | with_reducible apply Keep.ite
    | split
    | simp +zetaDelta only [Keep.mkIff]
    | assumption

theorem keep_logRegion {r : State} (c : Cmd) (st : Status) (a : Nat) (s : State) (h4 : Keep r s) :
    Keep r (logRegion c st a s) := by
  unfold logRegion
  try extract_lets
  repeat' first
    | with_reducible assumption
    | intro _
    | with_reducible apply keep_report
    | with_reducible apply Keep.ite
    | split
    | simp +zetaDelta only [Keep.mkIff]
    | assumption

theorem keep_destRefuse {r : State} (c : Cmd) (st : Status) (a : Nat) (s : State) (h4 : Keep r s) :
    Keep r (destRefuse c st a s) := by
  unfold destRefuse
  try extract_lets
  repeat' first
    | with_reducible assumption
    | intro _
    | with_reducible apply keep_cmdRefuse
    | with_reducible apply keep_logCheck
    | with_reducible apply keep_logRegion
    | with_reducible apply Keep.ite
    | split
    | simp +zetaDelta only [Keep.mkIff]
    | assumption

theorem keep_replyLost {r : State} (c : Cmd) (s : State) (h2 : Keep r s) :
    Keep r (replyLost c s) := by
  unfold replyLost
  try extract_lets
  repeat' first
    | with_reducible assumption
    | intro _
    | with_reducible apply keep_report
    | with_reducible apply keep_setDb
    | simp only [Keep.mkIff]
    | (simp +zetaDelta only [KeepF.mkIff]; refine KeepF.of ?_)
    | simp +zetaDelta only [Keep.mkIff]
    | assumption

theorem keep_missCheckCmd {r : State} (c : Cmd) (s : State) (h2 : Keep r s) :
    Keep r (missCheckCmd c s) := by
  unfold missCheckCmd
  try extract_lets
  repeat' first
    | with_reducible assumption
    | intro _
    | with_reducible apply keep_teleAdd
    | with_reducible apply keep_recordMiss
    | with_reducible apply Keep.ite
    | (refine Keep.snd (by assumption) ?_)
    | (refine Keep.fst (by assumption) ?_)
    | (refine Keep.thd (by assumption) ?_)
    | split
    | simp +zetaDelta only [Keep.mkIff]
    | assumption

theorem keep_writeReply {r : State} (c : Cmd) (s : State) (h2 : Keep r s) :
    Keep r (writeReply c s) := by
  unfold writeReply
  try extract_lets
  repeat' first
    | with_reducible assumption
    | intro _
    | with_reducible apply keep_cmdWrite
    | with_reducible apply keep_report
    | with_reducible apply keep_putQueue
    | with_reducible apply keep_modCmd
    | with_reducible apply keep_missCheckCmd
    | with_reducible apply keep_teleAdd
    | with_reducible apply Keep.ite
    | (refine Keep.snd (by assumption) ?_)
    | (refine Keep.fst (by assumption) ?_)
    | (refine Keep.thd (by assumption) ?_)
    | split
    | simp +zetaDelta only [Keep.mkIff]
    | assumption

theorem keep_execCommandComplete {r : State} (cmd : Nat) (s : State) (h2 : Keep r s) :
    KeepOut r (execCommandComplete cmd s) := by
  unfold execCommandComplete
  try extract_lets
  repeat' first
    | with_reducible assumption
    | intro _
    | with_reducible apply KeepOut.next
    | with_reducible apply keep_makeRoom
    | with_reducible apply keep_replyLost
    | with_reducible apply keep_whenAwake
    | with_reducible apply keep_writeReply
    | with_reducible apply KeepOut.ite
    | with_reducible apply Keep.ite
    | (refine Keep.snd (by assumption) ?_)
    | (refine Keep.fst (by assumption) ?_)
    | (refine Keep.thd (by assumption) ?_)
    | split
    | simp +zetaDelta only [Keep.mkIff]
    | assumption

theorem keep_putQirq {r : State} (q : Nat) (i : QIrq) (s : State) (h3 : Keep r s) :
    Keep r (putQirq q i s) := by
  unfold putQirq
  try extract_lets
  repeat' first
    | with_reducible assumption
    | intro _
    | simp only [Keep.mkIff]
    | (simp +zetaDelta only [KeepF.mkIff]; refine KeepF.of ?_)
    | simp +zetaDelta only [Keep.mkIff]
    | assumption

theorem keep_stopQueue {r : State} (q : Nat) (s : State) (h2 : Keep r s) :
    Keep r (stopQueue q s) := by
  unfold stopQueue
  try extract_lets
  repeat' first
    | with_reducible assumption
    | intro _
    | with_reducible apply keep_modQueue
    | simp +zetaDelta only [Keep.mkIff]
    | assumption

theorem keep_tookTurn {r : State} (c : Cmd) (s : State) (h2 : Keep r s) :
    Keep r (tookTurn c s) := by
  unfold tookTurn
  try extract_lets
  repeat' first
    | with_reducible assumption
    | intro _
    | with_reducible apply keep_modQctl
    | simp +zetaDelta only [Keep.mkIff]
    | assumption

theorem keep_logRefused {r : State} (c : Cmd) (st : Status) (s : State) (h3 : Keep r s) :
    Keep r (logRefused c st s) := by
  unfold logRefused
  try extract_lets
  repeat' first
    | with_reducible assumption
    | intro _
    | with_reducible apply keep_logCheck
    | with_reducible apply keep_logRegion
    | with_reducible apply keep_report
    | with_reducible apply Keep.ite
    | (refine Keep.snd (by assumption) ?_)
    | (refine Keep.fst (by assumption) ?_)
    | (refine Keep.thd (by assumption) ?_)
    | split
    | simp +zetaDelta only [Keep.mkIff]
    | assumption

theorem keep_refusePkt {r : State} (c : Cmd) (st : Status) (result : Nat) (s : State) (h4 : Keep r s) :
    Keep r (refusePkt c st result s) := by
  unfold refusePkt
  try extract_lets
  repeat' first
    | with_reducible assumption
    | intro _
    | with_reducible apply keep_logRefused
    | with_reducible apply keep_teleAdd
    | with_reducible apply keep_gTele
    | with_reducible apply keep_cmdRefuse
    | with_reducible apply keep_modCmd
    | with_reducible apply Keep.ite
    | split
    | simp +zetaDelta only [Keep.mkIff]
    | assumption

theorem keep_advanceChain {r : State} (q : Nat) (size : Nat) (s : State) (h3 : Keep r s) :
    Keep r (advanceChain q size s) := by
  unfold advanceChain
  try extract_lets
  repeat' first
    | with_reducible assumption
    | intro _
    | with_reducible apply keep_modQueue
    | simp +zetaDelta only [Keep.mkIff]
    | assumption

theorem keep_flushAdmit {r : State} (c : Cmd) (x : Ctx) (g : Bool) (s : State) (h4 : Keep r s) :
    Keep r (flushAdmit c x g s) := by
  unfold flushAdmit
  try extract_lets
  repeat' first
    | with_reducible assumption
    | intro _
    | with_reducible apply keep_modCmd
    | with_reducible apply keep_modSlice
    | with_reducible apply keep_gMoved
    | with_reducible apply Keep.ite
    | with_reducible apply Keep.foldl
    | with_reducible apply Keep.foldlP (p := Prod.snd)
    | with_reducible apply Keep.foldlP (p := Prod.fst)
    | with_reducible apply Keep.foldlT
    | split
    | simp only [Keep.mkIff]
    | (simp +zetaDelta only [KeepF.mkIff]; refine KeepF.of ?_)
    | simp +zetaDelta only [Keep.mkIff]
    | assumption

theorem keep_admitPkt {r : State} (c : Cmd) (g : Option (Contract × Nat × Nat)) (susp : Bool) (s : State) (h4 : Keep r s) :
    Keep r (admitPkt c g susp s) := by
  unfold admitPkt
  try extract_lets
  repeat' first
    | with_reducible assumption
    | intro _
    | with_reducible apply keep_teleAdd
    | with_reducible apply keep_gTele
    | with_reducible apply keep_gTake
    | with_reducible apply keep_modCmd
    | with_reducible apply keep_flushAdmit
    | with_reducible apply keep_addWorks
    | with_reducible apply Keep.ite
    | (refine Keep.snd (by assumption) ?_)
    | (refine Keep.fst (by assumption) ?_)
    | (refine Keep.thd (by assumption) ?_)
    | split
    | simp +zetaDelta only [Keep.mkIff]
    | assumption

theorem keep_decidePkt {r : State} (c : Cmd) (s0 : State) (h2 : Keep r s0) :
    Keep r (decidePkt c s0) := by
  unfold decidePkt
  try extract_lets
  repeat' first
    | with_reducible assumption
    | intro _
    | with_reducible apply keep_tookTurn
    | with_reducible apply keep_refusePkt
    | with_reducible apply keep_stopQueue
    | with_reducible apply keep_advanceChain
    | with_reducible apply keep_modCmd
    | with_reducible apply keep_admitPkt
    | with_reducible apply Keep.ite
    | (refine Keep.snd (by assumption) ?_)
    | (refine Keep.fst (by assumption) ?_)
    | (refine Keep.thd (by assumption) ?_)
    | split
    | simp +zetaDelta only [Keep.mkIff]
    | assumption

theorem keep_execHeldPacketAdmit {r : State} (cmd : Nat) (s : State) (h2 : Keep r s) :
    KeepOut r (execHeldPacketAdmit cmd s) := by
  unfold execHeldPacketAdmit
  try extract_lets
  repeat' first
    | with_reducible assumption
    | intro _
    | with_reducible apply KeepOut.next
    | with_reducible apply keep_decidePkt
    | with_reducible apply KeepOut.ite
    | with_reducible apply Keep.ite
    | (refine Keep.snd (by assumption) ?_)
    | (refine Keep.fst (by assumption) ?_)
    | (refine Keep.thd (by assumption) ?_)
    | split
    | simp +zetaDelta only [Keep.mkIff]
    | assumption

theorem keep_execQueryCaps {r : State} (cmd : Nat) (s : State) (h2 : Keep r s) :
    KeepOut r (execQueryCaps cmd s) := by
  unfold execQueryCaps
  try extract_lets
  repeat' first
    | with_reducible assumption
    | intro _
    | with_reducible apply KeepOut.next
    | with_reducible apply keep_cmdRefuse
    | with_reducible apply keep_cmdDone
    | with_reducible apply KeepOut.ite
    | with_reducible apply Keep.ite
    | (refine Keep.snd (by assumption) ?_)
    | (refine Keep.fst (by assumption) ?_)
    | (refine Keep.thd (by assumption) ?_)
    | split
    | simp +zetaDelta only [Keep.mkIff]
    | assumption

theorem keep_cmdRead {r : State} (s : State) (who : Who) (ctx : Nat) (a : Nat) (n : Nat) (h1 : Keep r s) :
    Keep r (cmdRead s who ctx a n).2.2 := by
  unfold cmdRead
  try extract_lets
  repeat' first
    | with_reducible assumption
    | intro _
    | with_reducible apply keep_drawFree
    | with_reducible apply keep_noteRead
    | with_reducible apply Keep.iteS
    | with_reducible apply Keep.ite
    | (refine Keep.snd (by assumption) ?_)
    | (refine Keep.fst (by assumption) ?_)
    | (refine Keep.thd (by assumption) ?_)
    | split
    | simp +zetaDelta only [Keep.mkIff]
    | assumption

theorem keep_cntEnable {r : State} (q : Nat) (s : State) (h2 : Keep r s) :
    Keep r (cntEnable q s) := by
  unfold cntEnable
  try extract_lets
  repeat' first
    | with_reducible assumption
    | intro _
    | with_reducible apply keep_signalCounter
    | with_reducible apply keep_touch
    | with_reducible apply Keep.ite
    | (refine Keep.snd (by assumption) ?_)
    | (refine Keep.fst (by assumption) ?_)
    | (refine Keep.thd (by assumption) ?_)
    | split
    | simp +zetaDelta only [Keep.mkIff]
    | assumption

theorem keep_queueIrq {r : State} (q : Nat) (v1 : QueueRec) (s : State) (h3 : Keep r s) :
    Keep r (queueIrq q v1 s) := by
  unfold queueIrq
  try extract_lets
  repeat' first
    | with_reducible assumption
    | intro _
    | with_reducible apply keep_emit
    | with_reducible apply keep_putQirq
    | with_reducible apply Keep.ite
    | split
    | simp +zetaDelta only [Keep.mkIff]
    | assumption

theorem keep_execReplyWriteAcknowledged {r : State} (cmd : Nat) (s : State) (h2 : Keep r s) :
    KeepOut r (execReplyWriteAcknowledged cmd s) := by
  unfold execReplyWriteAcknowledged
  try extract_lets
  repeat' first
    | with_reducible assumption
    | intro _
    | with_reducible apply KeepOut.next
    | with_reducible apply keep_putQueue
    | with_reducible apply keep_makeRoom
    | with_reducible apply keep_cntEnable
    | with_reducible apply keep_queueIrq
    | with_reducible apply KeepOut.ite
    | with_reducible apply Keep.ite
    | (refine Keep.snd (by assumption) ?_)
    | (refine Keep.fst (by assumption) ?_)
    | (refine Keep.thd (by assumption) ?_)
    | split
    | simp only [Keep.mkIff]
    | (simp +zetaDelta only [KeepF.mkIff]; refine KeepF.of ?_)
    | simp +zetaDelta only [Keep.mkIff]
    | assumption

theorem keep_parkAt {r : State} (q : Nat) (v1 : QueueRec) (ws : List Word) (s : State) (h4 : Keep r s) :
    Keep r (parkAt q v1 ws s) := by
  unfold parkAt
  try extract_lets
  repeat' first
    | with_reducible assumption
    | intro _
    | with_reducible apply keep_modQueue
    | with_reducible apply keep_freshId
    | with_reducible apply Keep.ite
    | (refine Keep.snd (by assumption) ?_)
    | (refine Keep.fst (by assumption) ?_)
    | (refine Keep.thd (by assumption) ?_)
    | split
    | simp only [Keep.mkIff]
    | (simp +zetaDelta only [KeepF.mkIff]; refine KeepF.of ?_)
    | simp +zetaDelta only [Keep.mkIff]
    | assumption

theorem keep_execFence {r : State} (cmd : Nat) (s : State) (h2 : Keep r s) :
    KeepOut r (execFence cmd s) := by
  unfold execFence
  try extract_lets
  repeat' first
    | with_reducible assumption
    | intro _
    | with_reducible apply KeepOut.next
    | with_reducible apply keep_cmdDone
    | with_reducible apply KeepOut.ite
    | with_reducible apply Keep.ite
    | (refine Keep.snd (by assumption) ?_)
    | (refine Keep.fst (by assumption) ?_)
    | (refine Keep.thd (by assumption) ?_)
    | split
    | simp +zetaDelta only [Keep.mkIff]
    | assumption

theorem keep_fetchFailed {r : State} (q : Nat) (v1 : QueueRec) (st : Status) (s : State) (h4 : Keep r s) :
    Keep r (fetchFailed q v1 st s) := by
  unfold fetchFailed
  try extract_lets
  repeat' first
    | with_reducible assumption
    | intro _
    | with_reducible apply keep_freshId
    | with_reducible apply keep_stopQueue
    | with_reducible apply keep_logCheck
    | (refine Keep.snd (by assumption) ?_)
    | (refine Keep.fst (by assumption) ?_)
    | (refine Keep.thd (by assumption) ?_)
    | split
    | simp only [Keep.mkIff]
    | (simp +zetaDelta only [KeepF.mkIff]; refine KeepF.of ?_)
    | simp +zetaDelta only [Keep.mkIff]
    | assumption

theorem keep_takePacket {r : State} (q : Nat) (v1 : QueueRec) (ws : List Word) (s : State) (h4 : Keep r s) :
    Keep r (takePacket q v1 ws s) := by
  unfold takePacket
  try extract_lets
  repeat' first
    | with_reducible assumption
    | intro _
    | with_reducible apply keep_freshId
    | with_reducible apply keep_modQueue
    | with_reducible apply keep_stopQueue
    | with_reducible apply keep_refusePkt
    | with_reducible apply keep_advanceChain
    | with_reducible apply keep_decidePkt
    | with_reducible apply Keep.ite
    | (refine Keep.snd (by assumption) ?_)
    | (refine Keep.fst (by assumption) ?_)
    | (refine Keep.thd (by assumption) ?_)
    | split
    | simp only [Keep.mkIff]
    | (simp +zetaDelta only [KeepF.mkIff]; refine KeepF.of ?_)
    | simp +zetaDelta only [Keep.mkIff]
    | assumption

theorem keep_fetchSlot {r : State} (q : Nat) (v1 : QueueRec) (s : State) (h3 : Keep r s) :
    Keep r (fetchSlot q v1 s) := by
  unfold fetchSlot
  try extract_lets
  repeat' first
    | with_reducible assumption
    | intro _
    | with_reducible apply keep_useQueue
    | with_reducible apply keep_modQueue
    | with_reducible apply keep_cmdRead
    | with_reducible apply keep_parkAt
    | with_reducible apply keep_takePacket
    | with_reducible apply keep_fetchFailed
    | with_reducible apply Keep.ite
    | (refine Keep.snd (by assumption) ?_)
    | (refine Keep.fst (by assumption) ?_)
    | (refine Keep.thd (by assumption) ?_)
    | split
    | simp +zetaDelta only [Keep.mkIff]
    | assumption

theorem keep_execSlotFetch {r : State} (q : Nat) (s : State) (h2 : Keep r s) :
    KeepOut r (execSlotFetch q s) := by
  unfold execSlotFetch
  try extract_lets
  repeat' first
    | with_reducible assumption
    | intro _
    | with_reducible apply KeepOut.next
    | with_reducible apply keep_whenAwake
    | with_reducible apply keep_fetchSlot
    | with_reducible apply KeepOut.ite
    | with_reducible apply Keep.ite
    | (refine Keep.snd (by assumption) ?_)
    | (refine Keep.fst (by assumption) ?_)
    | (refine Keep.thd (by assumption) ?_)
    | split
    | simp +zetaDelta only [Keep.mkIff]
    | assumption

theorem keep_execNop {r : State} (cmd : Nat) (s : State) (h2 : Keep r s) :
    KeepOut r (execNop cmd s) := by
  unfold execNop
  try extract_lets
  repeat' first
    | with_reducible assumption
    | intro _
    | with_reducible apply KeepOut.next
    | with_reducible apply keep_cmdDone
    | (refine Keep.snd (by assumption) ?_)
    | (refine Keep.fst (by assumption) ?_)
    | (refine Keep.thd (by assumption) ?_)
    | split
    | simp +zetaDelta only [Keep.mkIff]
    | assumption

theorem keep_execLink {r : State} (cmd : Nat) (s : State) (h2 : Keep r s) :
    KeepOut r (execLink cmd s) := by
  unfold execLink
  try extract_lets
  repeat' first
    | with_reducible assumption
    | intro _
    | with_reducible apply KeepOut.next
    | with_reducible apply keep_cmdDone
    | with_reducible apply keep_modQueue
    | (refine Keep.snd (by assumption) ?_)
    | (refine Keep.fst (by assumption) ?_)
    | (refine Keep.thd (by assumption) ?_)
    | split
    | simp +zetaDelta only [Keep.mkIff]
    | assumption

theorem keep_execIrqGapExpiry {r : State} (q : Nat) (s : State) (h2 : Keep r s) :
    KeepOut r (execIrqGapExpiry q s) := by
  unfold execIrqGapExpiry
  try extract_lets
  repeat' first
    | with_reducible assumption
    | intro _
    | with_reducible apply KeepOut.next
    | with_reducible apply keep_timeTo
    | with_reducible apply keep_emit
    | with_reducible apply keep_putQirq
    | (refine Keep.snd (by assumption) ?_)
    | (refine Keep.fst (by assumption) ?_)
    | (refine Keep.thd (by assumption) ?_)
    | split
    | simp +zetaDelta only [Keep.mkIff]
    | assumption

end Sys2Proof.Laws
end

