-- ==== Sys2Proof/Laws/KeepPortOps.lean ====
section
/-! SUPPORT. Laws/KeepPortOps.lean: the operations of Machine/PortOps.lean keep what every effect keeps (Laws/Keep.lean). -/
namespace Sys2Proof.Laws
open Sys2Proof.Machine
set_option linter.all false
set_option Elab.async false

theorem keep_modWb {r : State} (id : Nat) (f : WbEntry → WbEntry) (s : State) (h3 : Keep r s) :
    Keep r (modWb id f s) := by
  unfold modWb
  try extract_lets
  repeat' first
    | with_reducible assumption
    | intro _
    | simp only [Keep.mkIff]
    | (simp +zetaDelta only [KeepF.mkIff]; refine KeepF.of ?_)
    | simp +zetaDelta only [Keep.mkIff]
    | assumption

theorem keep_queueBeats {r : State} (op : Nat) (req : Nat) (kind : BeatKind) (parts : List (List (Nat × Nat))) (home : Nat) (port : Nat) (g : Bool) (owner : Option Nat) (set : Nat) (ep : Nat) (s : State) (h11 : Keep r s) :
    Keep r (queueBeats op req kind parts home port g owner set ep s) := by
  unfold queueBeats
  try extract_lets
  repeat' first
    | with_reducible assumption
    | intro _
    | with_reducible apply keep_freshId
    | with_reducible apply Keep.foldl
    | with_reducible apply Keep.foldlP (p := Prod.snd)
    | with_reducible apply Keep.foldlP (p := Prod.fst)
    | with_reducible apply Keep.foldlT
    | (refine Keep.snd (by assumption) ?_)
    | (refine Keep.fst (by assumption) ?_)
    | (refine Keep.thd (by assumption) ?_)
    | split
    | simp only [Keep.mkIff]
    | (simp +zetaDelta only [KeepF.mkIff]; refine KeepF.of ?_)
    | simp +zetaDelta only [Keep.mkIff]
    | assumption

theorem keep_issueEntry {r : State} (ask : SbHold) (s : State) (id : Nat) (h2 : Keep r s) :
    Keep r (issueEntry ask s id) := by
  unfold issueEntry
  try extract_lets
  repeat' first
    | with_reducible assumption
    | intro _
    | with_reducible apply keep_modWb
    | with_reducible apply keep_queueBeats
    | with_reducible apply Keep.ite
    | (refine Keep.snd (by assumption) ?_)
    | (refine Keep.fst (by assumption) ?_)
    | (refine Keep.thd (by assumption) ?_)
    | split
    | simp +zetaDelta only [Keep.mkIff]
    | assumption

theorem keep_landOne {r : State} (s : State) (id : Nat) (h1 : Keep r s) :
    Keep r (landOne s id) := by
  unfold landOne
  try extract_lets
  repeat' first
    | with_reducible assumption
    | intro _
    | with_reducible apply keep_modWb
    | with_reducible apply Keep.ite
    | (refine Keep.snd (by assumption) ?_)
    | (refine Keep.fst (by assumption) ?_)
    | (refine Keep.thd (by assumption) ?_)
    | split
    | simp +zetaDelta only [Keep.mkIff]
    | assumption

theorem keep_landAll {r : State} (s : State) (h1 : Keep r s) :
    Keep r (landAll s) := by
  unfold landAll
  try extract_lets
  repeat' first
    | with_reducible assumption
    | intro _
    | with_reducible apply keep_landOne
    | with_reducible apply Keep.foldl
    | with_reducible apply Keep.foldlP (p := Prod.snd)
    | with_reducible apply Keep.foldlP (p := Prod.fst)
    | with_reducible apply Keep.foldlT
    | simp +zetaDelta only [Keep.mkIff]
    | assumption

theorem keep_grantOne {r : State} (s : State) (id : Nat) (h1 : Keep r s) :
    Keep r (grantOne s id) := by
  unfold grantOne
  try extract_lets
  repeat' first
    | with_reducible assumption
    | intro _
    | with_reducible apply keep_modWb
    | with_reducible apply Keep.ite
    | (refine Keep.snd (by assumption) ?_)
    | (refine Keep.fst (by assumption) ?_)
    | (refine Keep.thd (by assumption) ?_)
    | split
    | simp +zetaDelta only [Keep.mkIff]
    | assumption

theorem keep_grantSb {r : State} (s : State) (h1 : Keep r s) :
    Keep r (grantSb s) := by
  unfold grantSb
  try extract_lets
  repeat' first
    | with_reducible assumption
    | intro _
    | with_reducible apply keep_grantOne
    | with_reducible apply Keep.foldl
    | with_reducible apply Keep.foldlP (p := Prod.snd)
    | with_reducible apply Keep.foldlP (p := Prod.fst)
    | with_reducible apply Keep.foldlT
    | simp +zetaDelta only [Keep.mkIff]
    | assumption

theorem keep_issueAll {r : State} (ask : SbHold) (ids : List Nat) (s : State) (h3 : Keep r s) :
    Keep r (issueAll ask ids s) := by
  unfold issueAll
  try extract_lets
  repeat' first
    | with_reducible assumption
    | intro _
    | with_reducible apply keep_issueEntry
    | with_reducible apply keep_landAll
    | with_reducible apply keep_grantSb
    | with_reducible apply Keep.ite
    | with_reducible apply Keep.foldl
    | with_reducible apply Keep.foldlP (p := Prod.snd)
    | with_reducible apply Keep.foldlP (p := Prod.fst)
    | with_reducible apply Keep.foldlT
    | split
    | simp +zetaDelta only [Keep.mkIff]
    | assumption

theorem keep_intoEntry {r : State} (w : WriteInto) (base : Nat) (bytes : List (Nat × Byte × Bool)) (s : State) (h4 : Keep r s) :
    Keep r (intoEntry w base bytes s) := by
  unfold intoEntry
  try extract_lets
  repeat' first
    | with_reducible assumption
    | intro _
    | with_reducible apply keep_modWb
    | with_reducible apply keep_freshId
    | with_reducible apply Keep.ite
    | with_reducible apply Keep.foldl
    | with_reducible apply Keep.foldlP (p := Prod.snd)
    | with_reducible apply Keep.foldlP (p := Prod.fst)
    | with_reducible apply Keep.foldlT
    | (refine Keep.snd (by assumption) ?_)
    | (refine Keep.fst (by assumption) ?_)
    | (refine Keep.thd (by assumption) ?_)
    | split
    | simp only [Keep.mkIff]
    | (simp +zetaDelta only [KeepF.mkIff]; refine KeepF.of ?_)
    | simp +zetaDelta only [Keep.mkIff]
    | assumption

theorem keep_slotDrain {r : State} (ids : List Nat) (owner : Option Nat) (req : Nat) (s : State) (h4 : Keep r s) :
    Keep r (slotDrain ids owner req s) := by
  unfold slotDrain
  try extract_lets
  repeat' first
    | with_reducible assumption
    | intro _
    | with_reducible apply Keep.ite
    | split
    | simp only [Keep.mkIff]
    | (simp +zetaDelta only [KeepF.mkIff]; refine KeepF.of ?_)
    | simp +zetaDelta only [Keep.mkIff]
    | assumption

theorem keep_invalidateReuse {r : State} (n : Nat) (p : Nat) (c : Nat) (bases : List Nat) (s : State) (h5 : Keep r s) :
    Keep r (invalidateReuse n p c bases s) := by
  unfold invalidateReuse
  try extract_lets
  repeat' first
    | with_reducible assumption
    | intro _
    | with_reducible apply keep_modPort
    | simp only [Keep.mkIff]
    | (simp +zetaDelta only [KeepF.mkIff]; refine KeepF.of ?_)
    | simp +zetaDelta only [Keep.mkIff]
    | assumption

theorem keep_invalidateCore {r : State} (w : WriteInto) (bases : List Nat) (s : State) (h3 : Keep r s) :
    Keep r (invalidateCore w bases s) := by
  unfold invalidateCore
  try extract_lets
  repeat' first
    | with_reducible assumption
    | intro _
    | with_reducible apply keep_invalidateReuse
    | with_reducible apply Keep.foldl
    | with_reducible apply Keep.foldlP (p := Prod.snd)
    | with_reducible apply Keep.foldlP (p := Prod.fst)
    | with_reducible apply Keep.foldlT
    | simp +zetaDelta only [Keep.mkIff]
    | assumption

theorem keep_drainExcess {r : State} (n : Nat) (p : Nat) (s : State) (h3 : Keep r s) :
    Keep r (drainExcess n p s) := by
  unfold drainExcess
  try extract_lets
  repeat' first
    | with_reducible assumption
    | intro _
    | with_reducible apply keep_issueAll
    | with_reducible apply Keep.ite
    | split
    | simp +zetaDelta only [Keep.mkIff]
    | assumption

theorem keep_acceptBytes {r : State} (w : WriteInto) (items : List (Nat × Byte × Bool)) (s : State) (h3 : Keep r s) :
    Keep r (acceptBytes w items s) := by
  unfold acceptBytes
  try extract_lets
  repeat' first
    | with_reducible assumption
    | intro _
    | with_reducible apply keep_invalidateCore
    | with_reducible apply keep_intoEntry
    | with_reducible apply keep_issueAll
    | with_reducible apply keep_drainExcess
    | with_reducible apply Keep.ite
    | with_reducible apply Keep.foldl
    | with_reducible apply Keep.foldlP (p := Prod.snd)
    | with_reducible apply Keep.foldlP (p := Prod.fst)
    | with_reducible apply Keep.foldlT
    | (refine Keep.snd (by assumption) ?_)
    | (refine Keep.fst (by assumption) ?_)
    | (refine Keep.thd (by assumption) ?_)
    | split
    | simp +zetaDelta only [Keep.mkIff]
    | assumption

end Sys2Proof.Laws
end

