-- ==== Sys2Proof/Laws/KeepPortServe.lean ====
section
/-! SUPPORT. Laws/KeepPortServe.lean: the operations of Machine/PortServe.lean keep what every effect keeps (Laws/Keep.lean). -/
namespace Sys2Proof.Laws
open Sys2Proof.Machine
set_option linter.all false
set_option Elab.async false

theorem keep_teleMove {r : State} (c : Nat) (k : Nat) (n : Nat) (write : Bool) (s : State) (h5 : Keep r s) :
    Keep r (teleMove c k n write s) := by
  unfold teleMove
  try extract_lets
  repeat' first
    | with_reducible assumption
    | intro _
    | with_reducible apply keep_teleAdd
    | with_reducible apply Keep.ite
    | (refine Keep.snd (by assumption) ?_)
    | (refine Keep.fst (by assumption) ?_)
    | (refine Keep.thd (by assumption) ?_)
    | split
    | simp +zetaDelta only [Keep.mkIff]
    | assumption

theorem keep_drawAllow {r : State} (n : Nat) (reqr : Nat) (group : Nat) (ep : Nat) (len : Nat) (s : State) (h6 : Keep r s) :
    Keep r (drawAllow n reqr group ep len s) := by
  unfold drawAllow
  try extract_lets
  repeat' first
    | with_reducible assumption
    | intro _
    | with_reducible apply keep_modSlice
    | with_reducible apply Keep.ite
    | split
    | simp +zetaDelta only [Keep.mkIff]
    | assumption

theorem keep_serveUnits {r : State} (stalled : Nat → Nat → Nat → Bool) (first : Bool) (c : Cycle) (e : Nat × GSet) (h3 : Keep r c.state) :
    Keep r (serveUnits stalled first c e).state := by
  unfold serveUnits
  try extract_lets
  repeat' first
    | with_reducible assumption
    | intro _
    | with_reducible apply keep_moveWork
    | with_reducible apply keep_drawAllow
    | with_reducible apply Keep.ite
    | (refine Keep.snd (by assumption) ?_)
    | (refine Keep.fst (by assumption) ?_)
    | (refine Keep.thd (by assumption) ?_)
    | split
    | simp +zetaDelta only [Keep.mkIff]
    | assumption
    | dsimp only

theorem keep_accumOne {r : State} (c : Agent) (op : Nat) (k : Nat) (bs : List (Byte × Bool)) (acc : State × WriteRes) (h5 : Keep r acc.1) :
    Keep r (accumOne c op k bs acc).1 := by
  have k1 := keep_noteRead c ((List.range (accSize op)).map (k + ·)) _ h5
  unfold accumOne
  dsimp only
  split
  · exact keep_modSlice _ _ _ (Keep.mk2 k1 fun h => memory_wf_putUnits _ _ _ h)
  · exact Keep.mk2 k1 fun h => memory_wf_putUnits _ _ _ h

theorem keep_accumRun {r : State} (c : Agent) (op : Nat) (v2 : Nat) (v3 : Nat) (v4 : List (Byte × Bool)) (v5 : State × WriteRes) (h6 : Keep r v5.1) :
    Keep r (accumRun c op v2 v3 v4 v5).1 := by
  induction v2 generalizing v3 v4 v5 with
  | zero => exact h6
  | succ m ih =>
    unfold accumRun
    exact ih _ _ _ (keep_accumOne _ _ _ _ _ h6)

theorem keep_flushMoved {r : State} (e : WbEntry) (s : State) (h2 : Keep r s) :
    Keep r (flushMoved e s) := by
  unfold flushMoved
  try extract_lets
  repeat' first
    | with_reducible assumption
    | intro _
    | with_reducible apply keep_gMoved
    | with_reducible apply Keep.ite
    | with_reducible apply Keep.foldl
    | with_reducible apply Keep.foldlP (p := Prod.snd)
    | with_reducible apply Keep.foldlP (p := Prod.fst)
    | with_reducible apply Keep.foldlT
    | (refine Keep.snd (by assumption) ?_)
    | (refine Keep.fst (by assumption) ?_)
    | (refine Keep.thd (by assumption) ?_)
    | split
    | simp +zetaDelta only [Keep.mkIff]
    | assumption

theorem keep_entryServed {r : State} (e : WbEntry) (s : State) (h2 : Keep r s) :
    Keep r (entryServed e s) := by
  unfold entryServed
  try extract_lets
  repeat' first
    | with_reducible assumption
    | intro _
    | with_reducible apply keep_flushMoved
    | with_reducible apply keep_gMoved
    | with_reducible apply Keep.ite
    | split
    | simp +zetaDelta only [Keep.mkIff]
    | assumption

theorem keep_lateReport {r : State} (e : WbEntry) (s : State) (h2 : Keep r s) :
    Keep r (lateReport e s) := by
  unfold lateReport
  try extract_lets
  repeat' first
    | with_reducible assumption
    | intro _
    | with_reducible apply keep_portErr
    | with_reducible apply keep_report
    | with_reducible apply keep_modPort
    | with_reducible apply Keep.ite
    | split
    | simp +zetaDelta only [Keep.mkIff]
    | assumption

theorem keep_takeLate {r : State} (n : Nat) (p : Nat) (st : Status) (s : State) (h4 : Keep r s) :
    Keep r (takeLate n p st s).2 := by
  unfold takeLate
  try extract_lets
  repeat' first
    | with_reducible assumption
    | intro _
    | with_reducible apply keep_modPort
    | (refine Keep.snd (by assumption) ?_)
    | (refine Keep.fst (by assumption) ?_)
    | (refine Keep.thd (by assumption) ?_)
    | split
    | simp +zetaDelta only [Keep.mkIff]
    | assumption

theorem keep_missCheckOp {r : State} (o : PortOp) (s : State) (h2 : Keep r s) :
    Keep r (missCheckOp o s) := by
  unfold missCheckOp
  try extract_lets
  repeat' first
    | with_reducible assumption
    | intro _
    | with_reducible apply keep_recordMiss
    | with_reducible apply Keep.ite
    | (refine Keep.snd (by assumption) ?_)
    | (refine Keep.fst (by assumption) ?_)
    | (refine Keep.thd (by assumption) ?_)
    | split
    | simp +zetaDelta only [Keep.mkIff]
    | assumption

theorem keep_opEntryDone {r : State} (e : WbEntry) (s : State) (id : Nat) (mine : List Nat) (h2 : Keep r s) :
    Keep r (opEntryDone e s id mine) := by
  unfold opEntryDone
  try extract_lets
  repeat' first
    | with_reducible assumption
    | intro _
    | with_reducible apply keep_modOp
    | with_reducible apply keep_takeLate
    | with_reducible apply keep_respond
    | with_reducible apply keep_missCheckOp
    | with_reducible apply Keep.ite
    | (refine Keep.snd (by assumption) ?_)
    | (refine Keep.fst (by assumption) ?_)
    | (refine Keep.thd (by assumption) ?_)
    | split
    | simp +zetaDelta only [Keep.mkIff]
    | assumption

theorem keep_cmdEntryDone {r : State} (e : WbEntry) (s : State) (id : Nat) (h2 : Keep r s) :
    Keep r (cmdEntryDone e s id) := by
  unfold cmdEntryDone
  try extract_lets
  repeat' first
    | with_reducible assumption
    | intro _
    | with_reducible apply keep_modCmd
    | with_reducible apply keep_cmdDone
    | with_reducible apply Keep.ite
    | (refine Keep.snd (by assumption) ?_)
    | (refine Keep.fst (by assumption) ?_)
    | (refine Keep.thd (by assumption) ?_)
    | split
    | simp +zetaDelta only [Keep.mkIff]
    | assumption

theorem keep_commitEntry {r : State} (e : WbEntry) (s : State) (h2 : Keep r s) :
    Keep r (commitEntry e s) := by
  unfold commitEntry
  try extract_lets
  repeat' first
    | with_reducible assumption
    | intro _
    | with_reducible apply keep_lateReport
    | with_reducible apply keep_opEntryDone
    | with_reducible apply keep_cmdEntryDone
    | with_reducible apply keep_landAll
    | with_reducible apply keep_grantSb
    | with_reducible apply Keep.foldl
    | with_reducible apply Keep.foldlP (p := Prod.snd)
    | with_reducible apply Keep.foldlP (p := Prod.fst)
    | with_reducible apply Keep.foldlT
    | (refine Keep.snd (by assumption) ?_)
    | (refine Keep.fst (by assumption) ?_)
    | (refine Keep.thd (by assumption) ?_)
    | split
    | simp only [Keep.mkIff]
    | (simp +zetaDelta only [KeepF.mkIff]; refine KeepF.of ?_)
    | simp +zetaDelta only [Keep.mkIff]
    | assumption

theorem keep_fillReuse {r : State} (o : PortOp) (d : List (Byte × Bool)) (s : State) (h3 : Keep r s) :
    Keep r (fillReuse o d s) := by
  unfold fillReuse
  try extract_lets
  repeat' first
    | with_reducible assumption
    | intro _
    | with_reducible apply keep_modPort
    | with_reducible apply Keep.foldl
    | with_reducible apply Keep.foldlP (p := Prod.snd)
    | with_reducible apply Keep.foldlP (p := Prod.fst)
    | with_reducible apply Keep.foldlT
    | (refine Keep.snd (by assumption) ?_)
    | (refine Keep.fst (by assumption) ?_)
    | (refine Keep.thd (by assumption) ?_)
    | split
    | simp +zetaDelta only [Keep.mkIff]
    | assumption

theorem keep_finishRead {r : State} (o : PortOp) (s : State) (h2 : Keep r s) :
    Keep r (finishRead o s) := by
  unfold finishRead
  try extract_lets
  repeat' first
    | with_reducible assumption
    | intro _
    | with_reducible apply keep_missCheckOp
    | with_reducible apply keep_fillReuse
    | with_reducible apply keep_respond
    | with_reducible apply Keep.ite
    | (refine Keep.snd (by assumption) ?_)
    | (refine Keep.fst (by assumption) ?_)
    | (refine Keep.thd (by assumption) ?_)
    | split
    | simp +zetaDelta only [Keep.mkIff]
    | assumption

theorem keep_dropOlder {r : State} (own : Bool) (o : PortOp) (s : State) (h3 : Keep r s) :
    Keep r (dropOlder own o s) := by
  unfold dropOlder
  try extract_lets
  repeat' first
    | with_reducible assumption
    | intro _
    | with_reducible apply keep_modPort
    | with_reducible apply Keep.ite
    | with_reducible apply Keep.foldl
    | with_reducible apply Keep.foldlP (p := Prod.snd)
    | with_reducible apply Keep.foldlP (p := Prod.fst)
    | with_reducible apply Keep.foldlT
    | split
    | simp only [Keep.mkIff]
    | (simp +zetaDelta only [KeepF.mkIff]; refine KeepF.of ?_)
    | simp +zetaDelta only [Keep.mkIff]
    | assumption

theorem keep_serveRead {r : State} (b : Beat) (o : PortOp) (s : State) (h3 : Keep r s) :
    Keep r (serveRead b o s) := by
  unfold serveRead
  try extract_lets
  repeat' first
    | with_reducible assumption
    | intro _
    | with_reducible apply keep_teleMove
    | with_reducible apply keep_noteRead
    | with_reducible apply keep_modOp
    | with_reducible apply keep_finishRead
    | with_reducible apply keep_dropOlder
    | with_reducible apply Keep.ite
    | with_reducible apply Keep.foldl
    | with_reducible apply Keep.foldlP (p := Prod.snd)
    | with_reducible apply Keep.foldlP (p := Prod.fst)
    | with_reducible apply Keep.foldlT
    | (refine Keep.snd (by assumption) ?_)
    | (refine Keep.fst (by assumption) ?_)
    | (refine Keep.thd (by assumption) ?_)
    | split
    | simp +zetaDelta only [Keep.mkIff]
    | assumption

theorem keep_serveWrite {r : State} (b : Beat) (e : WbEntry) (s : State) (h3 : Keep r s) :
    Keep r (serveWrite b e s) := by
  unfold serveWrite
  try extract_lets
  repeat' first
    | with_reducible assumption
    | intro _
    | with_reducible apply keep_accumRun
    | with_reducible apply keep_writeBytes
    | with_reducible apply keep_teleMove
    | with_reducible apply keep_modWb
    | with_reducible apply keep_entryServed
    | with_reducible apply Keep.ite
    | (refine Keep.snd (by assumption) ?_)
    | (refine Keep.fst (by assumption) ?_)
    | (refine Keep.thd (by assumption) ?_)
    | split
    | simp +zetaDelta only [Keep.mkIff]
    | assumption

theorem keep_serveBeat {r : State} (b : Beat) (s : State) (h2 : Keep r s) :
    Keep r (serveBeat b s) := by
  unfold serveBeat
  try extract_lets
  repeat' first
    | with_reducible assumption
    | intro _
    | with_reducible apply keep_serveRead
    | with_reducible apply keep_gMoved
    | with_reducible apply keep_serveWrite
    | with_reducible apply Keep.ite
    | (refine Keep.snd (by assumption) ?_)
    | (refine Keep.fst (by assumption) ?_)
    | (refine Keep.thd (by assumption) ?_)
    | split
    | simp only [Keep.mkIff]
    | (simp +zetaDelta only [KeepF.mkIff]; refine KeepF.of ?_)
    | simp +zetaDelta only [Keep.mkIff]
    | assumption

theorem keep_serveBank {r : State} (stalled : Nat → Nat → Bool) (c : Cycle) (bank : Nat) (h2 : Keep r c.state) :
    Keep r (serveBank stalled c bank).state := by
  unfold serveBank
  try extract_lets
  repeat' first
    | with_reducible assumption
    | intro _
    | with_reducible apply keep_modSlice
    | with_reducible apply keep_serveBeat
    | with_reducible apply Keep.foldl
    | with_reducible apply Keep.foldlP (p := Cycle.state)
    | with_reducible apply Keep.foldlP (p := Prod.snd)
    | with_reducible apply Keep.foldlP (p := Prod.fst)
    | with_reducible apply Keep.foldlT
    | (refine Keep.snd (by assumption) ?_)
    | (refine Keep.fst (by assumption) ?_)
    | (refine Keep.thd (by assumption) ?_)
    | split
    | simp +zetaDelta only [Keep.mkIff]
    | assumption
    | dsimp only

theorem keep_serveB {r : State} (stalled : Nat → Nat → Bool) (c : Cycle) (h2 : Keep r c.state) :
    Keep r (serveB stalled c).state := by
  unfold serveB
  try extract_lets
  repeat' first
    | with_reducible assumption
    | intro _
    | with_reducible apply keep_serveBank
    | with_reducible apply Keep.foldl
    | with_reducible apply Keep.foldlP (p := Cycle.state)
    | with_reducible apply Keep.foldlP (p := Prod.snd)
    | with_reducible apply Keep.foldlP (p := Prod.fst)
    | with_reducible apply Keep.foldlT
    | simp +zetaDelta only [Keep.mkIff]
    | assumption
    | dsimp only

theorem keep_regulatorCount {r : State} (b : Beat) (s : State) (h2 : Keep r s) :
    Keep r (regulatorCount b s) := by
  unfold regulatorCount
  try extract_lets
  repeat' first
    | with_reducible assumption
    | intro _
    | with_reducible apply keep_drawAllow
    | simp +zetaDelta only [Keep.mkIff]
    | assumption

theorem keep_admitBeat {r : State} (s : State) (b : Beat) (h1 : Keep r s) :
    Keep r (admitBeat s b) := by
  unfold admitBeat
  try extract_lets
  repeat' first
    | with_reducible assumption
    | intro _
    | with_reducible apply keep_regulatorCount
    | with_reducible apply Keep.ite
    | split
    | simp only [Keep.mkIff]
    | (simp +zetaDelta only [KeepF.mkIff]; refine KeepF.of ?_)
    | simp +zetaDelta only [Keep.mkIff]
    | assumption

theorem keep_admitBeats {r : State} (s : State) (h1 : Keep r s) :
    Keep r (admitBeats s) := by
  unfold admitBeats
  try extract_lets
  repeat' first
    | with_reducible assumption
    | intro _
    | with_reducible apply keep_admitBeat
    | with_reducible apply Keep.foldl
    | with_reducible apply Keep.foldlP (p := Prod.snd)
    | with_reducible apply Keep.foldlP (p := Prod.fst)
    | with_reducible apply Keep.foldlT
    | simp +zetaDelta only [Keep.mkIff]
    | assumption

theorem keep_renewReuse {r : State} (o : PortOp) (s : State) (h2 : Keep r s) :
    Keep r (renewReuse o s) := by
  unfold renewReuse
  try extract_lets
  repeat' first
    | with_reducible assumption
    | intro _
    | with_reducible apply keep_modPort
    | with_reducible apply Keep.foldl
    | with_reducible apply Keep.foldlP (p := Prod.snd)
    | with_reducible apply Keep.foldlP (p := Prod.fst)
    | with_reducible apply Keep.foldlT
    | (refine Keep.snd (by assumption) ?_)
    | (refine Keep.fst (by assumption) ?_)
    | (refine Keep.thd (by assumption) ?_)
    | split
    | simp +zetaDelta only [Keep.mkIff]
    | assumption

theorem keep_startRead {r : State} (o : PortOp) (vol : Bool) (set : Nat) (ep : Nat) (s : State) (h5 : Keep r s) :
    Keep r (startRead o vol set ep s) := by
  unfold startRead
  try extract_lets
  repeat' first
    | with_reducible assumption
    | intro _
    | with_reducible apply keep_finishRead
    | with_reducible apply keep_dropOlder
    | with_reducible apply keep_renewReuse
    | with_reducible apply keep_queueBeats
    | with_reducible apply keep_issueAll
    | with_reducible apply Keep.ite
    | (refine Keep.snd (by assumption) ?_)
    | (refine Keep.fst (by assumption) ?_)
    | (refine Keep.thd (by assumption) ?_)
    | split
    | simp only [Keep.mkIff]
    | (simp +zetaDelta only [KeepF.mkIff]; refine KeepF.of ?_)
    | simp +zetaDelta only [Keep.mkIff]
    | assumption

theorem keep_railWork {r : State} (w : Work) (s : State) (h2 : Keep r s) :
    Keep r (railWork w s) := by
  unfold railWork
  try extract_lets
  repeat' first
    | with_reducible assumption
    | intro _
    | with_reducible apply keep_modCmd
    | (refine Keep.snd (by assumption) ?_)
    | (refine Keep.fst (by assumption) ?_)
    | (refine Keep.thd (by assumption) ?_)
    | split
    | simp only [Keep.mkIff]
    | (simp +zetaDelta only [KeepF.mkIff]; refine KeepF.of ?_)
    | simp +zetaDelta only [Keep.mkIff]
    | assumption

theorem keep_owedStep {r : State} (rail : Nat → Bool) (c : Cycle) (h2 : Keep r c.state) :
    Keep r (owedStep rail c).state := by
  unfold owedStep
  try extract_lets
  repeat' first
    | with_reducible assumption
    | intro _
    | with_reducible apply keep_integAdd
    | with_reducible apply Keep.ite
    | with_reducible apply Keep.foldl
    | with_reducible apply Keep.foldlP (p := Cycle.state)
    | with_reducible apply Keep.foldlP (p := Prod.snd)
    | with_reducible apply Keep.foldlP (p := Prod.fst)
    | with_reducible apply Keep.foldlT
    | split
    | simp only [Keep.mkIff]
    | (simp +zetaDelta only [KeepF.mkIff]; refine KeepF.of ?_)
    | simp +zetaDelta only [Keep.mkIff]
    | assumption
    | dsimp only

theorem keep_outerStep {r : State} (s : State) (w : Work) (h1 : Keep r s) :
    Keep r (outerStep s w) := by
  unfold outerStep
  try extract_lets
  repeat' first
    | with_reducible assumption
    | intro _
    | with_reducible apply keep_moveWork
    | simp only [Keep.mkIff]
    | (simp +zetaDelta only [KeepF.mkIff]; refine KeepF.of ?_)
    | simp +zetaDelta only [Keep.mkIff]
    | assumption

theorem keep_serveOuter {r : State} (s : State) (h1 : Keep r s) :
    Keep r (serveOuter s) := by
  unfold serveOuter
  try extract_lets
  repeat' first
    | with_reducible assumption
    | intro _
    | with_reducible apply keep_outerStep
    | with_reducible apply Keep.foldl
    | with_reducible apply Keep.foldlP (p := Prod.snd)
    | with_reducible apply Keep.foldlP (p := Prod.fst)
    | with_reducible apply Keep.foldlT
    | simp +zetaDelta only [Keep.mkIff]
    | assumption

theorem keep_reserveBeat {r : State} (b : Beat) (s : State) (h2 : Keep r s) :
    Keep r (reserveBeat b s) := by
  unfold reserveBeat
  try extract_lets
  repeat' first
    | with_reducible assumption
    | intro _
    | simp only [Keep.mkIff]
    | (simp +zetaDelta only [KeepF.mkIff]; refine KeepF.of ?_)
    | simp +zetaDelta only [Keep.mkIff]
    | assumption

theorem keep_sampleOcc {r : State} (s : State) (h1 : Keep r s) :
    Keep r (sampleOcc s) := by
  unfold sampleOcc
  try extract_lets
  repeat' first
    | with_reducible assumption
    | intro _
    | with_reducible apply keep_modSlice
    | with_reducible apply Keep.foldl
    | with_reducible apply Keep.foldlP (p := Prod.snd)
    | with_reducible apply Keep.foldlP (p := Prod.fst)
    | with_reducible apply Keep.foldlT
    | (refine Keep.snd (by assumption) ?_)
    | (refine Keep.fst (by assumption) ?_)
    | (refine Keep.thd (by assumption) ?_)
    | split
    | simp +zetaDelta only [Keep.mkIff]
    | assumption

theorem keep_clearStep {r : State} (rail : Nat → Bool) (c : Cycle) (h2 : Keep r c.state) :
    Keep r (clearStep rail c).state := by
  unfold clearStep
  refine Keep.foldlP (p := Cycle.state) _ h2 fun c j h => Keep.foldlP (p := Cycle.state) _ h fun c x h => ?_
  dsimp only
  split
  · exact h
  · exact Keep.mk2 h fun h => memory_wf_clearLines _ _ _ h

theorem keep_railBeat {r : State} (b : Beat) (s : State) (h2 : Keep r s) :
    Keep r (railBeat b s) := by
  unfold railBeat
  try extract_lets
  repeat' first
    | with_reducible assumption
    | intro _
    | with_reducible apply keep_modOp
    | with_reducible apply keep_modCmd
    | with_reducible apply Keep.foldl
    | with_reducible apply Keep.foldlP (p := Prod.snd)
    | with_reducible apply Keep.foldlP (p := Prod.fst)
    | with_reducible apply Keep.foldlT
    | (refine Keep.snd (by assumption) ?_)
    | (refine Keep.fst (by assumption) ?_)
    | (refine Keep.thd (by assumption) ?_)
    | split
    | simp +zetaDelta only [Keep.mkIff]
    | assumption

theorem keep_serveSlot {r : State} (busy : List Nat) (v1 : List Beat) (v2 : Nat) (v3 : Cycle) (h4 : Keep r v3.state) :
    Keep r (serveSlot busy v1 v2 v3).state := by
  induction v1 generalizing v2 v3 with
  | nil => exact h4
  | cons b bs ih =>
    unfold serveSlot
    split
    · refine ih _ _ ?_
      split
      · exact keep_reserveBeat _ _ h4
      · exact keep_serveBeat _ _ h4
    · exact h4

theorem keep_serveOwner {r : State} (busy : List Nat) (rail : Bool) (c : Cycle) (n : Nat) (o : Nat) (gs : GSet) (h3 : Keep r c.state) :
    Keep r (serveOwner busy rail c n o gs).state := by
  unfold serveOwner
  extract_lets t f keys bs ws rq
  split
  · exact h3
  · split
    · split
      · split
        · exact keep_railWork _ _ h3
        · exact keep_moveWorks _ _ _ h3
      · split
        · show Keep r (Option.elim _ _ _)
          cases (bs.filter fun b => b.req == rq).head? with
          | none => exact h3
          | some b => exact keep_railBeat _ _ h3
        · exact keep_serveSlot _ _ _ _ h3
    · split
      · exact h3
      · split
        · show Keep r (Option.elim _ _ _)
          cases (bs.filter fun b => b.req == rq).head? with
          | none => exact h3
          | some b => exact keep_railBeat _ _ h3
        · exact keep_serveSlot _ _ _ _ h3

theorem keep_serveReserved {r : State} (c : Cycle) (h1 : Keep r c.state) :
    Keep r (serveReserved c).state := by
  unfold serveReserved
  refine Keep.foldlP (p := Cycle.state) _ h1 fun c x h => ?_
  split
  · exact h
  · exact keep_serveBeat _ _ h

theorem keep_bankCycle {r : State} (rail : Nat → Bool) (stalled : Nat → Nat → Nat → Bool) (s : State) (h3 : Keep r s) :
    Keep r (bankCycle rail stalled s) := by
  unfold bankCycle
  extract_lets two c0 c1 c2 off c3 c4 busy
  have k0 : Keep r c0.state := keep_admitBeats _ (Keep.mkIff.2 h3)
  have k1 : Keep r c1.state := Keep.foldlP (p := Cycle.state) _ (keep_serveReserved _ k0) fun c x h => keep_serveOwner _ _ _ _ _ _ h
  have k2 : Keep r c2.state := keep_clearStep _ _ (keep_owedStep _ _ k1)
  have k3 : Keep r c3.state := keep_serveB _ _ (Keep.foldlP (p := Cycle.state) _ k2 fun c x h => keep_serveUnits _ _ _ _ h)
  have k4 : Keep r c4.state := Keep.foldlP (p := Cycle.state) _ k3 fun c x h => keep_serveUnits _ _ _ _ h
  exact keep_sampleOcc _ (Keep.mkIff.2 (keep_serveOuter _ k4))

end Sys2Proof.Laws
end

