-- ==== Sys2Proof/Laws/KeepMovers.lean ====
section
/-! SUPPORT. Laws/KeepMovers.lean: the operations of Machine/Movers.lean keep what every effect keeps (Laws/Keep.lean). -/
namespace Sys2Proof.Laws
open Sys2Proof.Machine
set_option linter.all false
set_option Elab.async false

theorem keep_setStage {r : State} (n : Nat) (m : Nat) (l : List StageEntry) (s : State) (h4 : Keep r s) :
    Keep r (setStage n m l s) := by
  unfold setStage
  try extract_lets
  repeat' first
    | with_reducible assumption
    | intro _
    | simp only [Keep.mkIff]
    | (simp +zetaDelta only [KeepF.mkIff]; refine KeepF.of ?_)
    | simp +zetaDelta only [Keep.mkIff]
    | assumption

theorem keep_dropAhead {r : State} (n : Nat) (m : Nat) (c : Nat) (s : State) (h4 : Keep r s) :
    Keep r (dropAhead n m c s) := by
  unfold dropAhead
  try extract_lets
  repeat' first
    | with_reducible assumption
    | intro _
    | with_reducible apply keep_dropWorks
    | with_reducible apply keep_modChan
    | with_reducible apply keep_gMoved
    | with_reducible apply Keep.ite
    | with_reducible apply Keep.foldl
    | with_reducible apply Keep.foldlP (p := Prod.snd)
    | with_reducible apply Keep.foldlP (p := Prod.fst)
    | with_reducible apply Keep.foldlT
    | split
    | simp +zetaDelta only [Keep.mkIff]
    | assumption

theorem keep_dropChanWaiter {r : State} (n : Nat) (m : Nat) (c : Nat) (s : State) (h4 : Keep r s) :
    Keep r (dropChanWaiter n m c s) := by
  unfold dropChanWaiter
  try extract_lets
  repeat' first
    | with_reducible assumption
    | intro _
    | simp only [Keep.mkIff]
    | (simp +zetaDelta only [KeepF.mkIff]; refine KeepF.of ?_)
    | simp +zetaDelta only [Keep.mkIff]
    | assumption

theorem keep_failNow {r : State} (n : Nat) (m : Nat) (c : Nat) (st : Status) (addr : Nat) (s : State) (h6 : Keep r s) :
    Keep r (failNow n m c st addr s) := by
  unfold failNow
  try extract_lets
  repeat' first
    | with_reducible assumption
    | intro _
    | with_reducible apply keep_modChan
    | with_reducible apply keep_dropAhead
    | with_reducible apply keep_dropChanWaiter
    | with_reducible apply Keep.ite
    | split
    | simp +zetaDelta only [Keep.mkIff]
    | assumption

theorem keep_drainStage {r : State} (k : Nat) (e : StageEntry) (s : State) (h3 : Keep r s) :
    Keep r (drainStage k e s).2 := by
  unfold drainStage
  try extract_lets
  repeat' first
    | with_reducible assumption
    | intro _
    | with_reducible apply keep_setStage
    | with_reducible apply keep_writeBytes
    | with_reducible apply keep_teleMove
    | with_reducible apply keep_failNow
    | with_reducible apply Keep.iteS
    | with_reducible apply Keep.ite
    | (refine Keep.snd (by assumption) ?_)
    | (refine Keep.fst (by assumption) ?_)
    | (refine Keep.thd (by assumption) ?_)
    | split
    | simp +zetaDelta only [Keep.mkIff]
    | assumption

theorem keep_beginStop {r : State} (n : Nat) (m : Nat) (c : Nat) (save : Bool) (o : Origin) (s : State) (h6 : Keep r s) :
    Keep r (beginStop n m c save o s) := by
  unfold beginStop
  try extract_lets
  repeat' first
    | with_reducible assumption
    | intro _
    | with_reducible apply keep_modChan
    | with_reducible apply keep_dropAhead
    | with_reducible apply keep_dropChanWaiter
    | with_reducible apply Keep.ite
    | split
    | simp +zetaDelta only [Keep.mkIff]
    | assumption

theorem keep_drainList {r : State} (k : Nat) (es : List StageEntry) (s : State) (h3 : Keep r s) :
    Keep r (drainList k es s) := by
  unfold drainList
  try extract_lets
  repeat' first
    | with_reducible assumption
    | intro _
    | with_reducible apply keep_drainStage
    | with_reducible apply Keep.foldl
    | with_reducible apply Keep.foldlP (p := Prod.snd)
    | with_reducible apply Keep.foldlP (p := Prod.fst)
    | with_reducible apply Keep.foldlT
    | simp +zetaDelta only [Keep.mkIff]
    | assumption

theorem keep_drainChan {r : State} (n : Nat) (m : Nat) (c : Nat) (s : State) (h4 : Keep r s) :
    Keep r (drainChan n m c s) := by
  unfold drainChan
  try extract_lets
  repeat' first
    | with_reducible assumption
    | intro _
    | with_reducible apply keep_drainList
    | simp +zetaDelta only [Keep.mkIff]
    | assumption

theorem keep_haltChan {r : State} (n : Nat) (m : Nat) (c : Nat) (st : Status) (addr : Nat) (s : State) (h6 : Keep r s) :
    Keep r (haltChan n m c st addr s) := by
  unfold haltChan
  try extract_lets
  repeat' first
    | with_reducible assumption
    | intro _
    | with_reducible apply keep_drainChan
    | with_reducible apply keep_modChan
    | with_reducible apply keep_dropAhead
    | with_reducible apply keep_dropChanWaiter
    | with_reducible apply keep_report
    | with_reducible apply keep_signalCounter
    | with_reducible apply Keep.ite
    | (refine Keep.snd (by assumption) ?_)
    | (refine Keep.fst (by assumption) ?_)
    | (refine Keep.thd (by assumption) ?_)
    | split
    | simp +zetaDelta only [Keep.mkIff]
    | assumption

theorem keep_faultChan {r : State} (st : Status) (s : State) (k : Nat × Nat × Nat) (h2 : Keep r s) :
    Keep r (faultChan st s k) := by
  unfold faultChan
  try extract_lets
  repeat' first
    | with_reducible assumption
    | intro _
    | with_reducible apply keep_modChan
    | with_reducible apply keep_haltChan
    | with_reducible apply Keep.ite
    | (refine Keep.snd (by assumption) ?_)
    | (refine Keep.fst (by assumption) ?_)
    | (refine Keep.thd (by assumption) ?_)
    | split
    | simp +zetaDelta only [Keep.mkIff]
    | assumption

theorem keep_oweHalt {r : State} (n : Nat) (m : Nat) (c : Nat) (st : Status) (addr : Nat) (s : State) (h6 : Keep r s) :
    Keep r (oweHalt n m c st addr s) := by
  unfold oweHalt
  try extract_lets
  repeat' first
    | with_reducible assumption
    | intro _
    | with_reducible apply keep_modChan
    | with_reducible apply Keep.ite
    | split
    | simp +zetaDelta only [Keep.mkIff]
    | assumption

theorem keep_drainFirst {r : State} (n : Nat) (m : Nat) (c : Nat) (s : State) (h4 : Keep r s) :
    Keep r (drainFirst n m c s).2 := by
  unfold drainFirst
  try extract_lets
  repeat' first
    | with_reducible assumption
    | intro _
    | with_reducible apply keep_drainStage
    | with_reducible apply Keep.iteS
    | with_reducible apply Keep.ite
    | with_reducible apply Keep.foldl
    | with_reducible apply Keep.foldlP (p := Prod.snd)
    | with_reducible apply Keep.foldlP (p := Prod.fst)
    | with_reducible apply Keep.foldlT
    | (refine Keep.snd (by assumption) ?_)
    | (refine Keep.fst (by assumption) ?_)
    | (refine Keep.thd (by assumption) ?_)
    | split
    | simp +zetaDelta only [Keep.mkIff]
    | assumption

theorem keep_haltFirst {r : State} (n : Nat) (m : Nat) (c : Nat) (due : Status × Nat) (s : State) (h5 : Keep r s) :
    Keep r (haltFirst n m c due s) := by
  unfold haltFirst
  try extract_lets
  repeat' first
    | with_reducible assumption
    | intro _
    | with_reducible apply keep_drainFirst
    | with_reducible apply keep_haltChan
    | (refine Keep.snd (by assumption) ?_)
    | (refine Keep.fst (by assumption) ?_)
    | (refine Keep.thd (by assumption) ?_)
    | split
    | simp +zetaDelta only [Keep.mkIff]
    | assumption

end Sys2Proof.Laws
end

