-- ==== Sys2Proof/Laws/KeepDataCmds.lean ====
section
/-! SUPPORT. Laws/KeepDataCmds.lean: the operations of Machine/DataCmds.lean keep what every effect keeps (Laws/Keep.lean). -/
namespace Sys2Proof.Laws
open Sys2Proof.Machine
set_option linter.all false
set_option Elab.async false

theorem keep_readRng {r : State} (ag : Agent) (x : Ctx) (v2 : Rng) (s : State) (h4 : Keep r s) :
    Keep r (readRng ag x v2 s).2.2 := by
  unfold readRng
  try extract_lets
  repeat' first
    | with_reducible assumption
    | intro _
    | with_reducible apply keep_teleAdd
    | with_reducible apply keep_noteRead
    | with_reducible apply keep_teleMove
    | with_reducible apply keep_drawFree
    | with_reducible apply Keep.iteS
    | with_reducible apply Keep.ite
    | (refine Keep.snd (by assumption) ?_)
    | (refine Keep.fst (by assumption) ?_)
    | (refine Keep.thd (by assumption) ?_)
    | split
    | simp +zetaDelta only [Keep.mkIff]
    | assumption

theorem keep_extPut64 {r : State} (key : Option Nat) (base : Nat) (bs : List (Nat × Byte × Bool)) (acc : State × Status × Nat) (h4 : Keep r acc.1) :
    Keep r (extPut64 key base bs acc).1 := by
  obtain ⟨s, st, lost⟩ := acc
  unfold extPut64
  dsimp only
  generalize extPlain s key base 64 = e
  obtain ⟨rs, old⟩ := e
  dsimp only
  split
  · exact h4
  · split
    · exact h4
    · exact keep_extWrite _ _ _ h4

theorem keep_extStore {r : State} (key : Option Nat) (a : Nat) (bs : List (Byte × Bool)) (s : State) (h4 : Keep r s) :
    Keep r (extStore key a bs s).1 := by
  unfold extStore
  try extract_lets
  repeat' first
    | with_reducible assumption
    | intro _
    | with_reducible apply keep_extPut64
    | with_reducible apply Keep.foldl
    | with_reducible apply Keep.foldlP (p := Prod.snd)
    | with_reducible apply Keep.foldlP (p := Prod.fst)
    | with_reducible apply Keep.foldlT
    | (refine Keep.snd (by assumption) ?_)
    | (refine Keep.fst (by assumption) ?_)
    | (refine Keep.thd (by assumption) ?_)
    | split
    | simp +zetaDelta only [Keep.mkIff]
    | assumption

theorem keep_eccPut {r : State} (k : Nat) (d : List Byte) (chk : List Byte) (s : State) (h4 : Keep r s) :
    Keep r (eccPut k d chk s) := by
  unfold eccPut
  try extract_lets
  repeat' first
    | with_reducible assumption
    | intro _
    | with_reducible apply Keep.ite
    | split
    | simp only [Keep.mkIff]
    | (simp +zetaDelta only [KeepF.mkIff]; refine KeepF.of ?_)
    | simp +zetaDelta only [Keep.mkIff]
    | assumption

theorem keep_eccPutByte {r : State} (k : Nat) (b : Byte) (chk : Nat) (s : State) (h4 : Keep r s) :
    Keep r (eccPutByte k b chk s) := by
  unfold eccPutByte
  try extract_lets
  repeat' first
    | with_reducible assumption
    | intro _
    | simp only [Keep.mkIff]
    | (simp +zetaDelta only [KeepF.mkIff]; refine KeepF.of ?_)
    | simp +zetaDelta only [Keep.mkIff]
    | assumption

theorem keep_eccTestOn {r : State} (c : Cmd) (s : State) (h2 : Keep r s) :
    Keep r (eccTestOn c s) := by
  unfold eccTestOn
  try extract_lets
  repeat' first
    | with_reducible assumption
    | intro _
    | with_reducible apply keep_report
    | with_reducible apply keep_cmdRefuse
    | with_reducible apply keep_modCmd
    | with_reducible apply keep_eccPut
    | with_reducible apply keep_eccPutByte
    | with_reducible apply keep_cmdDone
    | with_reducible apply Keep.ite
    | with_reducible apply Keep.foldl
    | with_reducible apply Keep.foldlP (p := Prod.snd)
    | with_reducible apply Keep.foldlP (p := Prod.fst)
    | with_reducible apply Keep.foldlT
    | (refine Keep.snd (by assumption) ?_)
    | (refine Keep.fst (by assumption) ?_)
    | (refine Keep.thd (by assumption) ?_)
    | split
    | simp +zetaDelta only [Keep.mkIff]
    | assumption

theorem keep_execEccTestWrite {r : State} (cmd : Nat) (s : State) (h2 : Keep r s) :
    KeepOut r (execEccTestWrite cmd s) := by
  unfold execEccTestWrite
  try extract_lets
  repeat' first
    | with_reducible assumption
    | intro _
    | with_reducible apply KeepOut.next
    | with_reducible apply keep_whenAwake
    | with_reducible apply keep_eccTestOn
    | (refine Keep.snd (by assumption) ?_)
    | (refine Keep.fst (by assumption) ?_)
    | (refine Keep.thd (by assumption) ?_)
    | split
    | simp +zetaDelta only [Keep.mkIff]
    | assumption

theorem keep_raiseSvc {r : State} (bit : Nat) (s : State) (h2 : Keep r s) :
    Keep r (raiseSvc bit s) := by
  unfold raiseSvc
  try extract_lets
  repeat' first
    | with_reducible assumption
    | intro _
    | with_reducible apply keep_regPut
    | simp +zetaDelta only [Keep.mkIff]
    | assumption

theorem keep_dataDone {r : State} (c : Cmd) (st : Status) (count : Nat) (result : Nat) (s : State) (h5 : Keep r s) :
    Keep r (dataDone c st count result s) := by
  unfold dataDone
  try extract_lets
  repeat' first
    | with_reducible assumption
    | intro _
    | with_reducible apply keep_cmdDone
    | with_reducible apply keep_dropWorks
    | simp +zetaDelta only [Keep.mkIff]
    | assumption

theorem keep_runData {r : State} (cmd : Nat) (op : Nat) (extra : Cmd → Ctx → List Nat) (f : Cmd → Ctx → State → State) (s : State) (h4 : ∀ a0 a1 a2, Keep r a2 → Keep r (f a0 a1 a2)) (h5 : Keep r s) :
    Keep r (runData cmd op extra f s) := by
  unfold runData
  try extract_lets
  repeat' first
    | with_reducible assumption
    | intro _
    | with_reducible apply h4
    | with_reducible apply keep_whenAwake
    | with_reducible apply keep_dataDone
    | with_reducible apply Keep.ite
    | (refine Keep.snd (by assumption) ?_)
    | (refine Keep.fst (by assumption) ?_)
    | (refine Keep.thd (by assumption) ?_)
    | split
    | simp +zetaDelta only [Keep.mkIff]
    | assumption

theorem keep_writeRng {r : State} (ag : Agent) (x : Ctx) (v2 : Rng) (bs : List (Byte × Bool)) (s : State) (h5 : Keep r s) :
    Keep r (writeRng ag x v2 bs s).2.2 := by
  unfold writeRng
  try extract_lets
  repeat' first
    | with_reducible assumption
    | intro _
    | with_reducible apply keep_extStore
    | with_reducible apply keep_teleAdd
    | with_reducible apply keep_writeBytes
    | with_reducible apply keep_teleMove
    | with_reducible apply Keep.iteS
    | with_reducible apply Keep.ite
    | (refine Keep.snd (by assumption) ?_)
    | (refine Keep.fst (by assumption) ?_)
    | (refine Keep.thd (by assumption) ?_)
    | split
    | simp +zetaDelta only [Keep.mkIff]
    | assumption

theorem keep_evict {r : State} (ag : Agent) (x : Ctx) (sp : Span) (d : PoolDst) (p : Partial) (s : State) (h6 : Keep r s) :
    Keep r (evict ag x sp d p s) := by
  unfold evict
  try extract_lets
  repeat' first
    | with_reducible assumption
    | intro _
    | with_reducible apply keep_teleMove
    | with_reducible apply keep_accumOne
    | with_reducible apply Keep.foldl
    | with_reducible apply Keep.foldlP (p := Prod.snd)
    | with_reducible apply Keep.foldlP (p := Prod.fst)
    | with_reducible apply Keep.foldlT
    | (refine Keep.snd (by assumption) ?_)
    | (refine Keep.fst (by assumption) ?_)
    | (refine Keep.thd (by assumption) ?_)
    | split
    | simp +zetaDelta only [Keep.mkIff]
    | assumption

theorem keep_poolOne {r : State} (c : Cmd) (x : Ctx) (g : PoolP) (d : PoolDst) (acc : State × List Partial × Nat) (e : PoolEntry × Bool) (h5 : Keep r acc.1) :
    Keep r (poolOne c x g d acc e).1 := by
  unfold poolOne
  try extract_lets
  repeat' first
    | with_reducible assumption
    | intro _
    | with_reducible apply keep_teleAdd
    | with_reducible apply keep_teleMove
    | with_reducible apply keep_noteRead
    | with_reducible apply keep_evict
    | with_reducible apply Keep.iteS
    | with_reducible apply Keep.ite
    | (refine Keep.snd (by assumption) ?_)
    | (refine Keep.fst (by assumption) ?_)
    | (refine Keep.thd (by assumption) ?_)
    | split
    | simp +zetaDelta only [Keep.mkIff]
    | assumption

theorem keep_poolWorks {r : State} (c : Cmd) (x : Ctx) (g : PoolP) (es : List PoolEntry) (s : State) (h5 : Keep r s) :
    Keep r (poolWorks c x g es s) := by
  unfold poolWorks
  try extract_lets
  repeat' first
    | with_reducible assumption
    | intro _
    | with_reducible apply keep_addWorks
    | simp +zetaDelta only [Keep.mkIff]
    | assumption

theorem keep_poolOn {r : State} (c : Cmd) (x : Ctx) (s : State) (h3 : Keep r s) :
    Keep r (poolOn c x s) := by
  unfold poolOn
  try extract_lets
  repeat' first
    | with_reducible assumption
    | intro _
    | with_reducible apply keep_writeRng
    | with_reducible apply keep_readRng
    | with_reducible apply keep_poolOne
    | with_reducible apply keep_drawFree
    | with_reducible apply keep_poolWorks
    | with_reducible apply keep_evict
    | with_reducible apply keep_cmdDone
    | with_reducible apply keep_modCmd
    | with_reducible apply Keep.ite
    | with_reducible apply Keep.foldl
    | with_reducible apply Keep.foldlP (p := Prod.snd)
    | with_reducible apply Keep.foldlP (p := Prod.fst)
    | with_reducible apply Keep.foldlT
    | (refine Keep.snd (by assumption) ?_)
    | (refine Keep.fst (by assumption) ?_)
    | (refine Keep.thd (by assumption) ?_)
    | split
    | simp +zetaDelta only [Keep.mkIff]
    | assumption

theorem keep_execGatherPool {r : State} (cmd : Nat) (s : State) (h2 : Keep r s) :
    KeepOut r (execGatherPool cmd s) := by
  unfold execGatherPool
  try extract_lets
  repeat' first
    | with_reducible assumption
    | intro _
    | with_reducible apply KeepOut.next
    | with_reducible apply keep_runData
    | with_reducible apply keep_poolOn
    | with_reducible apply KeepOut.ite
    | with_reducible apply Keep.ite
    | (refine Keep.snd (by assumption) ?_)
    | (refine Keep.fst (by assumption) ?_)
    | (refine Keep.thd (by assumption) ?_)
    | split
    | simp +zetaDelta only [Keep.mkIff]
    | assumption

theorem keep_reduceElem {r : State} (c : Cmd) (x : Ctx) (sr : Rng) (dr : Rng) (acc : Status × Nat × State) (i : Nat) (h5 : Keep r acc.2.2) :
    Keep r (reduceElem c x sr dr acc i).2.2 := by
  unfold reduceElem
  try extract_lets
  repeat' first
    | with_reducible assumption
    | intro _
    | with_reducible apply keep_teleMove
    | with_reducible apply keep_writeBytes
    | with_reducible apply keep_noteRead
    | with_reducible apply keep_accumOne
    | with_reducible apply Keep.iteS
    | with_reducible apply Keep.ite
    | with_reducible apply Keep.foldl
    | with_reducible apply Keep.foldlP (p := Prod.snd)
    | with_reducible apply Keep.foldlP (p := Prod.fst)
    | with_reducible apply Keep.foldlT
    | (refine Keep.snd (by assumption) ?_)
    | (refine Keep.fst (by assumption) ?_)
    | (refine Keep.thd (by assumption) ?_)
    | split
    | simp +zetaDelta only [Keep.mkIff]
    | assumption

theorem keep_reduceOn {r : State} (c : Cmd) (x : Ctx) (s : State) (h3 : Keep r s) :
    Keep r (reduceOn c x s) := by
  unfold reduceOn
  try extract_lets
  repeat' first
    | with_reducible assumption
    | intro _
    | with_reducible apply keep_reduceElem
    | with_reducible apply keep_dataDone
    | with_reducible apply keep_drawFree
    | with_reducible apply Keep.ite
    | with_reducible apply Keep.foldl
    | with_reducible apply Keep.foldlP (p := Prod.snd)
    | with_reducible apply Keep.foldlP (p := Prod.fst)
    | with_reducible apply Keep.foldlT
    | (refine Keep.snd (by assumption) ?_)
    | (refine Keep.fst (by assumption) ?_)
    | (refine Keep.thd (by assumption) ?_)
    | split
    | simp +zetaDelta only [Keep.mkIff]
    | assumption

theorem keep_execReduceAcc {r : State} (cmd : Nat) (s : State) (h2 : Keep r s) :
    KeepOut r (execReduceAcc cmd s) := by
  unfold execReduceAcc
  try extract_lets
  repeat' first
    | with_reducible assumption
    | intro _
    | with_reducible apply KeepOut.next
    | with_reducible apply keep_runData
    | with_reducible apply keep_reduceOn
    | simp +zetaDelta only [Keep.mkIff]
    | assumption

theorem keep_keepFile {r : State} (e : Nat × Nat) (v1 : NmuFile) (s : State) (h3 : Keep r s) :
    Keep r (keepFile e v1 s) := by
  unfold keepFile
  try extract_lets
  repeat' first
    | with_reducible assumption
    | intro _
    | with_reducible apply keep_modSlice
    | simp +zetaDelta only [Keep.mkIff]
    | assumption

theorem keep_flushOn {r : State} (c : Cmd) (v1 : Ctx) (s : State) (h3 : Keep r s) :
    Keep r (flushOn c v1 s) := by
  unfold flushOn
  try extract_lets
  repeat' first
    | with_reducible assumption
    | intro _
    | with_reducible apply keep_drainStage
    | with_reducible apply keep_dataDone
    | with_reducible apply keep_modCmd
    | with_reducible apply keep_issueAll
    | with_reducible apply keep_slotDrain
    | with_reducible apply Keep.ite
    | with_reducible apply Keep.foldl
    | with_reducible apply Keep.foldlP (p := Prod.snd)
    | with_reducible apply Keep.foldlP (p := Prod.fst)
    | with_reducible apply Keep.foldlT
    | (refine Keep.snd (by assumption) ?_)
    | (refine Keep.fst (by assumption) ?_)
    | (refine Keep.thd (by assumption) ?_)
    | split
    | simp only [Keep.mkIff]
    | (simp +zetaDelta only [KeepF.mkIff]; refine KeepF.of ?_)
    | simp +zetaDelta only [Keep.mkIff]
    | assumption

theorem keep_gemvRow {r : State} (c : Cmd) (x : Ctx) (g : GemvP) (p : Pocket) (i : Nat) (acc : Status × List (List (List Fp) × Bool) × State) (j : Nat) (h6 : Keep r acc.2.2) :
    Keep r (gemvRow c x g p i acc j).2.2 := by
  unfold gemvRow
  try extract_lets
  repeat' first
    | with_reducible assumption
    | intro _
    | with_reducible apply keep_teleMove
    | with_reducible apply keep_noteRead
    | (refine Keep.snd (by assumption) ?_)
    | (refine Keep.fst (by assumption) ?_)
    | (refine Keep.thd (by assumption) ?_)
    | split
    | simp +zetaDelta only [Keep.mkIff]
    | assumption

theorem keep_copyOn {r : State} (c : Cmd) (x : Ctx) (s : State) (h3 : Keep r s) :
    Keep r (copyOn c x s) := by
  unfold copyOn
  try extract_lets
  repeat' first
    | with_reducible assumption
    | intro _
    | with_reducible apply keep_readRng
    | with_reducible apply keep_writeRng
    | with_reducible apply keep_dataDone
    | (refine Keep.snd (by assumption) ?_)
    | (refine Keep.fst (by assumption) ?_)
    | (refine Keep.thd (by assumption) ?_)
    | split
    | simp +zetaDelta only [Keep.mkIff]
    | assumption

theorem keep_nmuAgain {r : State} (c : Cmd) (n : Nat) (tier : Nat) (s : State) (h4 : Keep r s) :
    Keep r (nmuAgain c n tier s) := by
  unfold nmuAgain
  try extract_lets
  repeat' first
    | with_reducible assumption
    | intro _
    | with_reducible apply keep_addWorks
    | with_reducible apply keep_modSlice
    | with_reducible apply Keep.ite
    | split
    | simp +zetaDelta only [Keep.mkIff]
    | assumption

theorem keep_nmuFault {r : State} (c : Cmd) (n : Nat) (tier : Nat) (tile : Nat) (s : State) (h5 : Keep r s) :
    Keep r (nmuFault c n tier tile s) := by
  unfold nmuFault
  try extract_lets
  repeat' first
    | with_reducible assumption
    | intro _
    | with_reducible apply keep_modCmd
    | with_reducible apply keep_modSlice
    | with_reducible apply keep_integAdd
    | with_reducible apply keep_raiseSvc
    | with_reducible apply keep_report
    | with_reducible apply keep_nmuAgain
    | with_reducible apply Keep.ite
    | split
    | simp +zetaDelta only [Keep.mkIff]
    | assumption

theorem keep_convertOn {r : State} (c : Cmd) (x : Ctx) (s : State) (h3 : Keep r s) :
    Keep r (convertOn c x s) := by
  unfold convertOn
  try extract_lets
  repeat' first
    | with_reducible assumption
    | intro _
    | with_reducible apply keep_readRng
    | with_reducible apply keep_writeRng
    | with_reducible apply keep_dataDone
    | (refine Keep.snd (by assumption) ?_)
    | (refine Keep.fst (by assumption) ?_)
    | (refine Keep.thd (by assumption) ?_)
    | split
    | simp +zetaDelta only [Keep.mkIff]
    | assumption

theorem keep_execConvertCopy {r : State} (cmd : Nat) (s : State) (h2 : Keep r s) :
    KeepOut r (execConvertCopy cmd s) := by
  unfold execConvertCopy
  try extract_lets
  repeat' first
    | with_reducible assumption
    | intro _
    | with_reducible apply KeepOut.next
    | with_reducible apply keep_runData
    | with_reducible apply keep_convertOn
    | simp +zetaDelta only [Keep.mkIff]
    | assumption

theorem keep_poolParity {r : State} (c : Cmd) (n : Nat) (tier : Nat) (s : State) (h4 : Keep r s) :
    Keep r (poolParity c n tier s) := by
  unfold poolParity
  try extract_lets
  repeat' first
    | with_reducible assumption
    | intro _
    | with_reducible apply keep_modCmd
    | with_reducible apply keep_addWorks
    | with_reducible apply Keep.ite
    | split
    | simp +zetaDelta only [Keep.mkIff]
    | assumption

theorem keep_execFlushRange {r : State} (cmd : Nat) (s : State) (h2 : Keep r s) :
    KeepOut r (execFlushRange cmd s) := by
  unfold execFlushRange
  try extract_lets
  repeat' first
    | with_reducible assumption
    | intro _
    | with_reducible apply KeepOut.next
    | with_reducible apply keep_runData
    | with_reducible apply keep_flushOn
    | simp +zetaDelta only [Keep.mkIff]
    | assumption

theorem keep_sabLoad {r : State} (ms : List (Nat × Nat)) (bs : List Byte) (s : State) (n : Nat) (h3 : Keep r s) :
    Keep r (sabLoad ms bs s n) := by
  unfold sabLoad
  try extract_lets
  repeat' first
    | with_reducible assumption
    | intro _
    | with_reducible apply keep_modSlice
    | with_reducible apply Keep.ite
    | with_reducible apply Keep.foldl
    | with_reducible apply Keep.foldlP (p := Prod.snd)
    | with_reducible apply Keep.foldlP (p := Prod.fst)
    | with_reducible apply Keep.foldlT
    | (refine Keep.snd (by assumption) ?_)
    | (refine Keep.fst (by assumption) ?_)
    | (refine Keep.thd (by assumption) ?_)
    | split
    | simp +zetaDelta only [Keep.mkIff]
    | assumption

theorem keep_putResult {r : State} (ag : Agent) (acc : Bool) (ks : List Nat) (v : Nat) (bad : Bool) (s : State) (h6 : Keep r s) :
    Keep r (putResult ag acc ks v bad s).2.2 := by
  unfold putResult
  try extract_lets
  repeat' first
    | with_reducible assumption
    | intro _
    | with_reducible apply keep_accumOne
    | with_reducible apply keep_writeBytes
    | with_reducible apply keep_teleMove
    | with_reducible apply Keep.iteS
    | with_reducible apply Keep.ite
    | (refine Keep.snd (by assumption) ?_)
    | (refine Keep.fst (by assumption) ?_)
    | (refine Keep.thd (by assumption) ?_)
    | split
    | simp +zetaDelta only [Keep.mkIff]
    | assumption

theorem keep_gemvNmu {r : State} (c : Cmd) (x : Ctx) (g : GemvP) (gx : GemvX) (acc : Status × Nat × State) (e : Pocket × Nat × Nat) (h5 : Keep r acc.2.2) :
    Keep r (gemvNmu c x g gx acc e).2.2 := by
  unfold gemvNmu
  try extract_lets
  repeat' first
    | with_reducible assumption
    | intro _
    | with_reducible apply keep_gemvRow
    | with_reducible apply keep_putResult
    | with_reducible apply keep_keepFile
    | with_reducible apply Keep.iteS
    | with_reducible apply Keep.ite
    | with_reducible apply Keep.foldl
    | with_reducible apply Keep.foldlP (p := Prod.snd)
    | with_reducible apply Keep.foldlP (p := Prod.fst)
    | with_reducible apply Keep.foldlT
    | (refine Keep.snd (by assumption) ?_)
    | (refine Keep.fst (by assumption) ?_)
    | (refine Keep.thd (by assumption) ?_)
    | split
    | simp +zetaDelta only [Keep.mkIff]
    | assumption

theorem keep_gemvOn {r : State} (c : Cmd) (x : Ctx) (s : State) (h3 : Keep r s) :
    Keep r (gemvOn c x s) := by
  unfold gemvOn
  try extract_lets
  repeat' first
    | with_reducible assumption
    | intro _
    | with_reducible apply keep_readRng
    | with_reducible apply keep_sabLoad
    | with_reducible apply keep_gemvNmu
    | with_reducible apply keep_teleAdd
    | with_reducible apply keep_drawFree
    | with_reducible apply keep_dataDone
    | with_reducible apply Keep.ite
    | with_reducible apply Keep.foldl
    | with_reducible apply Keep.foldlP (p := Prod.snd)
    | with_reducible apply Keep.foldlP (p := Prod.fst)
    | with_reducible apply Keep.foldlT
    | (refine Keep.snd (by assumption) ?_)
    | (refine Keep.fst (by assumption) ?_)
    | (refine Keep.thd (by assumption) ?_)
    | split
    | simp +zetaDelta only [Keep.mkIff]
    | assumption

theorem keep_fillOn {r : State} (c : Cmd) (x : Ctx) (s : State) (h3 : Keep r s) :
    Keep r (fillOn c x s) := by
  unfold fillOn
  try extract_lets
  repeat' first
    | with_reducible assumption
    | intro _
    | with_reducible apply keep_writeRng
    | with_reducible apply keep_dataDone
    | (refine Keep.snd (by assumption) ?_)
    | (refine Keep.fst (by assumption) ?_)
    | (refine Keep.thd (by assumption) ?_)
    | split
    | simp +zetaDelta only [Keep.mkIff]
    | assumption

theorem keep_execFill {r : State} (cmd : Nat) (s : State) (h2 : Keep r s) :
    KeepOut r (execFill cmd s) := by
  unfold execFill
  try extract_lets
  repeat' first
    | with_reducible assumption
    | intro _
    | with_reducible apply KeepOut.next
    | with_reducible apply keep_runData
    | with_reducible apply keep_fillOn
    | simp +zetaDelta only [Keep.mkIff]
    | assumption

theorem keep_execCopy {r : State} (cmd : Nat) (s : State) (h2 : Keep r s) :
    KeepOut r (execCopy cmd s) := by
  unfold execCopy
  try extract_lets
  repeat' first
    | with_reducible assumption
    | intro _
    | with_reducible apply KeepOut.next
    | with_reducible apply keep_runData
    | with_reducible apply keep_copyOn
    | simp +zetaDelta only [Keep.mkIff]
    | assumption

theorem keep_execGemv {r : State} (cmd : Nat) (s : State) (h2 : Keep r s) :
    KeepOut r (execGemv cmd s) := by
  unfold execGemv
  try extract_lets
  repeat' first
    | with_reducible assumption
    | intro _
    | with_reducible apply KeepOut.next
    | with_reducible apply keep_runData
    | with_reducible apply keep_gemvOn
    | simp +zetaDelta only [Keep.mkIff]
    | assumption

theorem keep_poolFinishOn {r : State} (c : Cmd) (x : Ctx) (s : State) (h3 : Keep r s) :
    Keep r (poolFinishOn c x s) := by
  unfold poolFinishOn
  try extract_lets
  repeat' first
    | with_reducible assumption
    | intro _
    | with_reducible apply keep_noteRead
    | with_reducible apply keep_writeBytes
    | with_reducible apply keep_teleMove
    | with_reducible apply keep_drawFree
    | with_reducible apply keep_dataDone
    | with_reducible apply Keep.ite
    | with_reducible apply Keep.foldl
    | with_reducible apply Keep.foldlP (p := Prod.snd)
    | with_reducible apply Keep.foldlP (p := Prod.fst)
    | with_reducible apply Keep.foldlT
    | (refine Keep.snd (by assumption) ?_)
    | (refine Keep.fst (by assumption) ?_)
    | (refine Keep.thd (by assumption) ?_)
    | split
    | simp +zetaDelta only [Keep.mkIff]
    | assumption

theorem keep_execGatherPoolFinish {r : State} (cmd : Nat) (s : State) (h2 : Keep r s) :
    KeepOut r (execGatherPoolFinish cmd s) := by
  unfold execGatherPoolFinish
  try extract_lets
  repeat' first
    | with_reducible assumption
    | intro _
    | with_reducible apply KeepOut.next
    | with_reducible apply keep_runData
    | with_reducible apply keep_poolFinishOn
    | with_reducible apply KeepOut.ite
    | with_reducible apply Keep.ite
    | (refine Keep.snd (by assumption) ?_)
    | (refine Keep.fst (by assumption) ?_)
    | (refine Keep.thd (by assumption) ?_)
    | split
    | simp +zetaDelta only [Keep.mkIff]
    | assumption

theorem keep_execNmuFaultRetry {r : State} (n : Nat) (tier : Nat) (tile : Nat) (s : State) (h4 : Keep r s) :
    KeepOut r (execNmuFaultRetry n tier tile s) := by
  unfold execNmuFaultRetry
  try extract_lets
  repeat' first
    | with_reducible assumption
    | intro _
    | with_reducible apply KeepOut.next
    | with_reducible apply keep_nmuFault
    | (refine Keep.snd (by assumption) ?_)
    | (refine Keep.fst (by assumption) ?_)
    | (refine Keep.thd (by assumption) ?_)
    | split
    | simp +zetaDelta only [Keep.mkIff]
    | assumption

end Sys2Proof.Laws
end

