-- ==== Sys2Proof/Laws/KeepFabSend.lean ====
section
/-! SUPPORT. Laws/KeepFabSend.lean: the operations of Machine/FabSend.lean keep what every effect keeps (Laws/Keep.lean). -/
namespace Sys2Proof.Laws
open Sys2Proof.Machine
set_option linter.all false
set_option Elab.async false

theorem keep_sendReq {r : State} (v0 : FabReq) (s : State) (h2 : Keep r s) :
    Keep r (sendReq v0 s) := by
  unfold sendReq
  try extract_lets
  repeat' first
    | with_reducible assumption
    | intro _
    | with_reducible apply keep_teleAdd
    | with_reducible apply keep_drawFree
    | with_reducible apply keep_emit
    | with_reducible apply keep_modReq
    | with_reducible apply Keep.ite
    | split
    | simp +zetaDelta only [Keep.mkIff]
    | assumption

theorem keep_pump {r : State} (s : State) (h1 : Keep r s) :
    Keep r (pump s) := by
  unfold pump
  try extract_lets
  repeat' first
    | with_reducible assumption
    | intro _
    | with_reducible apply keep_sendReq
    | with_reducible apply Keep.ite
    | with_reducible apply Keep.foldl
    | with_reducible apply Keep.foldlP (p := Prod.snd)
    | with_reducible apply Keep.foldlP (p := Prod.fst)
    | with_reducible apply Keep.foldlT
    | split
    | simp only [Keep.mkIff]
    | (simp +zetaDelta only [KeepF.mkIff]; refine KeepF.of ?_)
    | simp +zetaDelta only [Keep.mkIff]
    | assumption

theorem keep_addReq {r : State} (v0 : FabReq) (s : State) (h2 : Keep r s) :
    Keep r (addReq v0 s) := by
  unfold addReq
  try extract_lets
  repeat' first
    | with_reducible assumption
    | intro _
    | with_reducible apply keep_freshId
    | (refine Keep.snd (by assumption) ?_)
    | (refine Keep.fst (by assumption) ?_)
    | (refine Keep.thd (by assumption) ?_)
    | split
    | simp only [Keep.mkIff]
    | (simp +zetaDelta only [KeepF.mkIff]; refine KeepF.of ?_)
    | simp +zetaDelta only [Keep.mkIff]
    | assumption

theorem keep_passOut {r : State} (v0 : Req) (ext : Nat) (ctx : Nat) (part : Nat) (s : State) (h5 : Keep r s) :
    Keep r (passOut v0 ext ctx part s) := by
  unfold passOut
  try extract_lets
  repeat' first
    | with_reducible assumption
    | intro _
    | with_reducible apply keep_freshId
    | with_reducible apply keep_pump
    | with_reducible apply keep_addReq
    | with_reducible apply Keep.ite
    | (refine Keep.snd (by assumption) ?_)
    | (refine Keep.fst (by assumption) ?_)
    | (refine Keep.thd (by assumption) ?_)
    | split
    | simp only [Keep.mkIff]
    | (simp +zetaDelta only [KeepF.mkIff]; refine KeepF.of ?_)
    | simp +zetaDelta only [Keep.mkIff]
    | assumption

end Sys2Proof.Laws
end

