-- ==== Sys2Proof/Laws/KeepFabSource.lean ====
section
/-! SUPPORT. Laws/KeepFabSource.lean: the operations of Machine/FabSource.lean keep what every effect keeps (Laws/Keep.lean). -/
namespace Sys2Proof.Laws
open Sys2Proof.Machine
set_option linter.all false
set_option Elab.async false

theorem keep_signalGvid {r : State} (v0 : FabReq) (s : State) (h2 : Keep r s) :
    Keep r (signalGvid v0 s) := by
  unfold signalGvid
  try extract_lets
  repeat' first
    | with_reducible assumption
    | intro _
    | with_reducible apply keep_signalCounter
    | with_reducible apply keep_touch
    | (refine Keep.snd (by assumption) ?_)
    | (refine Keep.fst (by assumption) ?_)
    | (refine Keep.thd (by assumption) ?_)
    | split
    | simp +zetaDelta only [Keep.mkIff]
    | assumption

theorem keep_heldAfter {r : State} (v0 : FabReq) (st : Status) (s : State) (h3 : Keep r s) :
    Keep r (heldAfter v0 st s) := by
  unfold heldAfter
  try extract_lets
  repeat' first
    | with_reducible assumption
    | intro _
    | with_reducible apply keep_dropHeld
    | with_reducible apply Keep.ite
    | split
    | simp only [Keep.mkIff]
    | (simp +zetaDelta only [KeepF.mkIff]; refine KeepF.of ?_)
    | simp +zetaDelta only [Keep.mkIff]
    | assumption

theorem keep_writePiece {r : State} (id : Nat) (v1 : FabReq) (data : List (Byte × Bool)) (s : State) (h4 : Keep r s) :
    Keep r (writePiece id v1 data s).2.2 := by
  unfold writePiece
  try extract_lets
  repeat' first
    | with_reducible assumption
    | intro _
    | with_reducible apply keep_writeRng
    | (refine Keep.snd (by assumption) ?_)
    | (refine Keep.fst (by assumption) ?_)
    | (refine Keep.thd (by assumption) ?_)
    | split
    | simp +zetaDelta only [Keep.mkIff]
    | assumption

theorem keep_remoteEnd {r : State} (id : Nat) (s : State) (h2 : Keep r s) :
    Keep r (remoteEnd id s) := by
  unfold remoteEnd
  try extract_lets
  repeat' first
    | with_reducible assumption
    | intro _
    | with_reducible apply keep_cmdDone
    | with_reducible apply Keep.ite
    | (refine Keep.snd (by assumption) ?_)
    | (refine Keep.fst (by assumption) ?_)
    | (refine Keep.thd (by assumption) ?_)
    | split
    | simp +zetaDelta only [Keep.mkIff]
    | assumption

theorem keep_stopPieces {r : State} (o : Origin) (s : State) (h2 : Keep r s) :
    Keep r (stopPieces o s) := by
  unfold stopPieces
  try extract_lets
  repeat' first
    | with_reducible assumption
    | intro _
    | simp only [Keep.mkIff]
    | (simp +zetaDelta only [KeepF.mkIff]; refine KeepF.of ?_)
    | simp +zetaDelta only [Keep.mkIff]
    | assumption

theorem keep_pieceAnswer {r : State} (id : Nat) (v1 : FabReq) (st : Status) (n : Nat) (s : State) (h5 : Keep r s) :
    Keep r (pieceAnswer id v1 st n s) := by
  unfold pieceAnswer
  try extract_lets
  repeat' first
    | with_reducible assumption
    | intro _
    | with_reducible apply keep_modCmd
    | with_reducible apply keep_heldAfter
    | with_reducible apply keep_remoteEnd
    | with_reducible apply keep_stopPieces
    | with_reducible apply Keep.ite
    | split
    | simp +zetaDelta only [Keep.mkIff]
    | assumption

theorem keep_answerReq {r : State} (v0 : FabReq) (st : Status) (count : Nat) (data : List (Byte × Bool)) (s : State) (h5 : Keep r s) :
    Keep r (answerReq v0 st count data s) := by
  unfold answerReq
  try extract_lets
  repeat' first
    | with_reducible assumption
    | intro _
    | with_reducible apply keep_dropReq
    | with_reducible apply keep_heldAfter
    | with_reducible apply keep_respond
    | with_reducible apply keep_portErr
    | with_reducible apply keep_writePiece
    | with_reducible apply keep_pieceAnswer
    | with_reducible apply keep_pump
    | with_reducible apply Keep.ite
    | (refine Keep.snd (by assumption) ?_)
    | (refine Keep.fst (by assumption) ?_)
    | (refine Keep.thd (by assumption) ?_)
    | split
    | simp +zetaDelta only [Keep.mkIff]
    | assumption

theorem keep_takeAnswer {r : State} (f : Frame) (v1 : FabReq) (s : State) (h3 : Keep r s) :
    Keep r (takeAnswer f v1 s) := by
  unfold takeAnswer
  try extract_lets
  repeat' first
    | with_reducible assumption
    | intro _
    | with_reducible apply keep_whenAwake
    | with_reducible apply keep_answerReq
    | with_reducible apply keep_modReq
    | with_reducible apply Keep.ite
    | split
    | simp +zetaDelta only [Keep.mkIff]
    | assumption

theorem keep_granted {r : State} (v0 : FabReq) (m : CMsg) (rec : List Word) (s : State) (h4 : Keep r s) :
    Keep r (granted v0 m rec s) := by
  unfold granted
  try extract_lets
  repeat' first
    | with_reducible assumption
    | intro _
    | with_reducible apply keep_cmdWrite
    | with_reducible apply keep_dropReq
    | with_reducible apply keep_signalGvid
    | with_reducible apply keep_cmdDone
    | with_reducible apply Keep.ite
    | (refine Keep.snd (by assumption) ?_)
    | (refine Keep.fst (by assumption) ?_)
    | (refine Keep.thd (by assumption) ?_)
    | split
    | simp only [Keep.mkIff]
    | (simp +zetaDelta only [KeepF.mkIff]; refine KeepF.of ?_)
    | simp +zetaDelta only [Keep.mkIff]
    | assumption

theorem keep_notGranted {r : State} (v0 : FabReq) (m : CMsg) (s : State) (h3 : Keep r s) :
    Keep r (notGranted v0 m s) := by
  unfold notGranted
  try extract_lets
  repeat' first
    | with_reducible assumption
    | intro _
    | with_reducible apply keep_dropReq
    | with_reducible apply keep_cmdDone
    | with_reducible apply keep_cmdWrite
    | (refine Keep.snd (by assumption) ?_)
    | (refine Keep.fst (by assumption) ?_)
    | (refine Keep.thd (by assumption) ?_)
    | split
    | simp +zetaDelta only [Keep.mkIff]
    | assumption

theorem keep_grantAnswer {r : State} (f : Frame) (m : CMsg) (t : State) (h3 : Keep r t) :
    Keep r (grantAnswer f m t) := by
  unfold grantAnswer
  try extract_lets
  repeat' first
    | with_reducible assumption
    | intro _
    | with_reducible apply keep_whenAwake
    | with_reducible apply keep_dropReq
    | with_reducible apply keep_sendRelease
    | with_reducible apply keep_granted
    | with_reducible apply keep_notGranted
    | with_reducible apply Keep.ite
    | (refine Keep.snd (by assumption) ?_)
    | (refine Keep.fst (by assumption) ?_)
    | (refine Keep.thd (by assumption) ?_)
    | split
    | simp +zetaDelta only [Keep.mkIff]
    | assumption

theorem keep_renewHeld {r : State} (v0 : FabReq) (m : CMsg) (s : State) (h3 : Keep r s) :
    Keep r (renewHeld v0 m s) := by
  unfold renewHeld
  try extract_lets
  repeat' first
    | with_reducible assumption
    | intro _
    | simp only [Keep.mkIff]
    | (simp +zetaDelta only [KeepF.mkIff]; refine KeepF.of ?_)
    | simp +zetaDelta only [Keep.mkIff]
    | assumption

theorem keep_renewAnswer {r : State} (m : CMsg) (t : State) (h2 : Keep r t) :
    Keep r (renewAnswer m t) := by
  unfold renewAnswer
  try extract_lets
  repeat' first
    | with_reducible assumption
    | intro _
    | with_reducible apply keep_whenAwake
    | with_reducible apply keep_dropReq
    | with_reducible apply keep_renewHeld
    | with_reducible apply keep_heldAfter
    | with_reducible apply keep_cmdDone
    | with_reducible apply Keep.ite
    | (refine Keep.snd (by assumption) ?_)
    | (refine Keep.fst (by assumption) ?_)
    | (refine Keep.thd (by assumption) ?_)
    | split
    | simp +zetaDelta only [Keep.mkIff]
    | assumption

theorem keep_releaseAnswer {r : State} (m : CMsg) (t : State) (h2 : Keep r t) :
    Keep r (releaseAnswer m t) := by
  unfold releaseAnswer
  try extract_lets
  repeat' first
    | with_reducible assumption
    | intro _
    | with_reducible apply keep_whenAwake
    | with_reducible apply keep_dropHeld
    | with_reducible apply keep_heldAfter
    | with_reducible apply keep_dropReq
    | with_reducible apply keep_cmdDone
    | (refine Keep.snd (by assumption) ?_)
    | (refine Keep.fst (by assumption) ?_)
    | (refine Keep.thd (by assumption) ?_)
    | split
    | simp +zetaDelta only [Keep.mkIff]
    | assumption

theorem keep_deferredNotice {r : State} (m : CMsg) (t : State) (h2 : Keep r t) :
    Keep r (deferredNotice m t) := by
  unfold deferredNotice
  try extract_lets
  repeat' first
    | with_reducible assumption
    | intro _
    | with_reducible apply keep_whenAwake
    | with_reducible apply keep_modReq
    | with_reducible apply keep_cmdDone
    | with_reducible apply Keep.ite
    | (refine Keep.snd (by assumption) ?_)
    | (refine Keep.fst (by assumption) ?_)
    | (refine Keep.thd (by assumption) ?_)
    | split
    | simp +zetaDelta only [Keep.mkIff]
    | assumption

theorem keep_signalAnswered {r : State} (f : Frame) (t : State) (h2 : Keep r t) :
    Keep r (signalAnswered f t) := by
  unfold signalAnswered
  try extract_lets
  repeat' first
    | with_reducible assumption
    | intro _
    | with_reducible apply keep_whenAwake
    | with_reducible apply keep_dropReq
    | with_reducible apply keep_cmdDone
    | (refine Keep.snd (by assumption) ?_)
    | (refine Keep.fst (by assumption) ?_)
    | (refine Keep.thd (by assumption) ?_)
    | split
    | simp +zetaDelta only [Keep.mkIff]
    | assumption

theorem keep_dropFrame {r : State} (f : Frame) (srcdev : Nat) (s : State) (h3 : Keep r s) :
    Keep r (dropFrame f srcdev s) := by
  unfold dropFrame
  try extract_lets
  repeat' first
    | with_reducible assumption
    | intro _
    | with_reducible apply keep_logEvent
    | simp +zetaDelta only [Keep.mkIff]
    | assumption

theorem keep_frameIn {r : State} (f : Frame) (ftype : Nat) (clean : Bool) (sender : Option Nat) (s : State) (k : State → State) (h5 : Keep r s) (h6 : ∀ a0, Keep r a0 → Keep r (k a0)) :
    Keep r (frameIn f ftype clean sender s k) := by
  unfold frameIn
  try extract_lets
  repeat' first
    | with_reducible assumption
    | intro _
    | with_reducible apply h6
    | with_reducible apply keep_dropFrame
    | with_reducible apply Keep.ite
    | (refine Keep.snd (by assumption) ?_)
    | (refine Keep.fst (by assumption) ?_)
    | (refine Keep.thd (by assumption) ?_)
    | split
    | simp +zetaDelta only [Keep.mkIff]
    | assumption

theorem keep_timeoutReq {r : State} (v0 : FabReq) (s : State) (h2 : Keep r s) :
    Keep r (timeoutReq v0 s) := by
  unfold timeoutReq
  try extract_lets
  repeat' first
    | with_reducible assumption
    | intro _
    | with_reducible apply keep_respond
    | with_reducible apply keep_forgetReq
    | with_reducible apply keep_stopPieces
    | with_reducible apply keep_cmdDone
    | with_reducible apply Keep.foldl
    | with_reducible apply Keep.foldlP (p := Prod.snd)
    | with_reducible apply Keep.foldlP (p := Prod.fst)
    | with_reducible apply Keep.foldlT
    | (refine Keep.snd (by assumption) ?_)
    | (refine Keep.fst (by assumption) ?_)
    | (refine Keep.thd (by assumption) ?_)
    | split
    | simp +zetaDelta only [Keep.mkIff]
    | assumption

theorem keep_execFabricTimeout {r : State} (req : Nat) (s : State) (h2 : Keep r s) :
    KeepOut r (execFabricTimeout req s) := by
  unfold execFabricTimeout
  try extract_lets
  repeat' first
    | with_reducible assumption
    | intro _
    | with_reducible apply KeepOut.next
    | with_reducible apply keep_pump
    | with_reducible apply keep_timeoutReq
    | with_reducible apply keep_timeTo
    | (refine Keep.snd (by assumption) ?_)
    | (refine Keep.fst (by assumption) ?_)
    | (refine Keep.thd (by assumption) ?_)
    | split
    | simp +zetaDelta only [Keep.mkIff]
    | assumption

theorem keep_remotePiece {r : State} (c : Cmd) (x : Ctx) (held : Option Held) (write : Bool) (gta : Nat) (data : List (Byte × Bool)) (s : State) (piece : Nat × Nat) (h7 : Keep r s) :
    Keep r (remotePiece c x held write gta data s piece) := by
  unfold remotePiece
  try extract_lets
  repeat' first
    | with_reducible assumption
    | intro _
    | with_reducible apply keep_addReq
    | with_reducible apply Keep.ite
    | (refine Keep.snd (by assumption) ?_)
    | (refine Keep.fst (by assumption) ?_)
    | (refine Keep.thd (by assumption) ?_)
    | split
    | simp +zetaDelta only [Keep.mkIff]
    | assumption

theorem keep_remoteStart {r : State} (c : Cmd) (x : Ctx) (held : Option Held) (write : Bool) (gta : Nat) (st : Status) (data : List (Byte × Bool)) (s : State) (h8 : Keep r s) :
    Keep r (remoteStart c x held write gta st data s) := by
  unfold remoteStart
  try extract_lets
  repeat' first
    | with_reducible assumption
    | intro _
    | with_reducible apply keep_modCmd
    | with_reducible apply keep_pump
    | with_reducible apply keep_remotePiece
    | with_reducible apply Keep.foldl
    | with_reducible apply Keep.foldlP (p := Prod.snd)
    | with_reducible apply Keep.foldlP (p := Prod.fst)
    | with_reducible apply Keep.foldlT
    | simp +zetaDelta only [Keep.mkIff]
    | assumption

theorem keep_creditFrame {r : State} (f : Frame) (ck : Nat) (request : Bool) (s : State) (k : CMsg → State → State) (h4 : Keep r s) (h5 : ∀ a0 a1, Keep r a1 → Keep r (k a0 a1)) :
    Keep r (creditFrame f ck request s k) := by
  unfold creditFrame
  try extract_lets
  repeat' first
    | with_reducible assumption
    | intro _
    | with_reducible apply h5
    | with_reducible apply keep_frameIn
    | with_reducible apply Keep.ite
    | split
    | simp +zetaDelta only [Keep.mkIff]
    | assumption

theorem keep_execDeferredNotice {r : State} (f : Frame) (s : State) (h2 : Keep r s) :
    KeepOut r (execDeferredNotice f s) := by
  unfold execDeferredNotice
  try extract_lets
  repeat' first
    | with_reducible assumption
    | intro _
    | with_reducible apply KeepOut.next
    | with_reducible apply keep_creditFrame
    | with_reducible apply keep_deferredNotice
    | simp +zetaDelta only [Keep.mkIff]
    | assumption

theorem keep_execCounterSignalAnswer {r : State} (f : Frame) (s : State) (h2 : Keep r s) :
    KeepOut r (execCounterSignalAnswer f s) := by
  unfold execCounterSignalAnswer
  try extract_lets
  repeat' first
    | with_reducible assumption
    | intro _
    | with_reducible apply KeepOut.next
    | with_reducible apply keep_frameIn
    | with_reducible apply keep_signalAnswered
    | with_reducible apply KeepOut.ite
    | with_reducible apply Keep.ite
    | split
    | simp +zetaDelta only [Keep.mkIff]
    | assumption

theorem keep_remoteWriteOn {r : State} (c : Cmd) (x : Ctx) (s : State) (h3 : Keep r s) :
    Keep r (remoteWriteOn c x s) := by
  unfold remoteWriteOn
  try extract_lets
  repeat' first
    | with_reducible assumption
    | intro _
    | with_reducible apply keep_readRng
    | with_reducible apply keep_remoteStart
    | with_reducible apply keep_dataDone
    | (refine Keep.snd (by assumption) ?_)
    | (refine Keep.fst (by assumption) ?_)
    | (refine Keep.thd (by assumption) ?_)
    | split
    | simp +zetaDelta only [Keep.mkIff]
    | assumption

theorem keep_execRemoteWrite {r : State} (cmd : Nat) (s : State) (h2 : Keep r s) :
    KeepOut r (execRemoteWrite cmd s) := by
  unfold execRemoteWrite
  try extract_lets
  repeat' first
    | with_reducible assumption
    | intro _
    | with_reducible apply KeepOut.next
    | with_reducible apply keep_runData
    | with_reducible apply keep_remoteWriteOn
    | simp +zetaDelta only [Keep.mkIff]
    | assumption

theorem keep_execGrantAnswer {r : State} (f : Frame) (s : State) (h2 : Keep r s) :
    KeepOut r (execGrantAnswer f s) := by
  unfold execGrantAnswer
  try extract_lets
  repeat' first
    | with_reducible assumption
    | intro _
    | with_reducible apply KeepOut.next
    | with_reducible apply keep_creditFrame
    | with_reducible apply keep_grantAnswer
    | simp +zetaDelta only [Keep.mkIff]
    | assumption

theorem keep_creditSend {r : State} (c : Cmd) (x : Ctx) (s : State) (h3 : Keep r s) :
    Keep r (creditSend c x s) := by
  unfold creditSend
  try extract_lets
  repeat' first
    | with_reducible assumption
    | intro _
    | with_reducible apply keep_modCmd
    | with_reducible apply keep_sendMsg
    | with_reducible apply Keep.ite
    | split
    | simp +zetaDelta only [Keep.mkIff]
    | assumption

theorem keep_creditOn {r : State} (c : Cmd) (x : Ctx) (s : State) (h3 : Keep r s) :
    Keep r (creditOn c x s) := by
  unfold creditOn
  try extract_lets
  repeat' first
    | with_reducible assumption
    | intro _
    | with_reducible apply keep_cmdRefuse
    | with_reducible apply keep_destRefuse
    | with_reducible apply keep_modCmd
    | with_reducible apply keep_creditSend
    | with_reducible apply Keep.ite
    | (refine Keep.snd (by assumption) ?_)
    | (refine Keep.fst (by assumption) ?_)
    | (refine Keep.thd (by assumption) ?_)
    | split
    | simp +zetaDelta only [Keep.mkIff]
    | assumption

theorem keep_execCreditRequest {r : State} (cmd : Nat) (s : State) (h2 : Keep r s) :
    KeepOut r (execCreditRequest cmd s) := by
  unfold execCreditRequest
  try extract_lets
  repeat' first
    | with_reducible assumption
    | intro _
    | with_reducible apply KeepOut.next
    | with_reducible apply keep_creditOn
    | with_reducible apply keep_cmdRefuse
    | (refine Keep.snd (by assumption) ?_)
    | (refine Keep.fst (by assumption) ?_)
    | (refine Keep.thd (by assumption) ?_)
    | split
    | simp +zetaDelta only [Keep.mkIff]
    | assumption

theorem keep_remoteReadOn {r : State} (c : Cmd) (x : Ctx) (s : State) (h3 : Keep r s) :
    Keep r (remoteReadOn c x s) := by
  unfold remoteReadOn
  try extract_lets
  repeat' first
    | with_reducible assumption
    | intro _
    | with_reducible apply keep_remoteStart
    | with_reducible apply keep_dataDone
    | with_reducible apply Keep.ite
    | (refine Keep.snd (by assumption) ?_)
    | (refine Keep.fst (by assumption) ?_)
    | (refine Keep.thd (by assumption) ?_)
    | split
    | simp +zetaDelta only [Keep.mkIff]
    | assumption

theorem keep_execRemoteRead {r : State} (cmd : Nat) (s : State) (h2 : Keep r s) :
    KeepOut r (execRemoteRead cmd s) := by
  unfold execRemoteRead
  try extract_lets
  repeat' first
    | with_reducible assumption
    | intro _
    | with_reducible apply KeepOut.next
    | with_reducible apply keep_runData
    | with_reducible apply keep_remoteReadOn
    | simp +zetaDelta only [Keep.mkIff]
    | assumption

theorem keep_execFabricResponseFrame {r : State} (f : Frame) (s : State) (h2 : Keep r s) :
    KeepOut r (execFabricResponseFrame f s) := by
  unfold execFabricResponseFrame
  try extract_lets
  repeat' first
    | with_reducible assumption
    | intro _
    | with_reducible apply KeepOut.next
    | with_reducible apply keep_frameIn
    | with_reducible apply keep_takeAnswer
    | with_reducible apply keep_drawFree
    | (refine Keep.snd (by assumption) ?_)
    | (refine Keep.fst (by assumption) ?_)
    | (refine Keep.thd (by assumption) ?_)
    | split
    | simp +zetaDelta only [Keep.mkIff]
    | assumption

theorem keep_execRenewAnswer {r : State} (f : Frame) (s : State) (h2 : Keep r s) :
    KeepOut r (execRenewAnswer f s) := by
  unfold execRenewAnswer
  try extract_lets
  repeat' first
    | with_reducible assumption
    | intro _
    | with_reducible apply KeepOut.next
    | with_reducible apply keep_creditFrame
    | with_reducible apply keep_renewAnswer
    | simp +zetaDelta only [Keep.mkIff]
    | assumption

theorem keep_execReleaseAnswer {r : State} (f : Frame) (s : State) (h2 : Keep r s) :
    KeepOut r (execReleaseAnswer f s) := by
  unfold execReleaseAnswer
  try extract_lets
  repeat' first
    | with_reducible assumption
    | intro _
    | with_reducible apply KeepOut.next
    | with_reducible apply keep_creditFrame
    | with_reducible apply keep_releaseAnswer
    | simp +zetaDelta only [Keep.mkIff]
    | assumption

end Sys2Proof.Laws
end

