-- ==== Sys2Proof/Laws/KeepPortAccept.lean ====
section
/-! SUPPORT. Laws/KeepPortAccept.lean: the operations of Machine/PortAccept.lean keep what every effect keeps (Laws/Keep.lean). -/
namespace Sys2Proof.Laws
open Sys2Proof.Machine
set_option linter.all false
set_option Elab.async false

theorem keep_landBytes {r : State} (handle : Nat) (n : Nat) (len : Nat) (add : Bool) (s : State) (h5 : Keep r s) :
    Keep r (landBytes handle n len add s) := by
  unfold landBytes
  try extract_lets
  repeat' first
    | with_reducible assumption
    | intro _
    | with_reducible apply Keep.ite
    | split
    | simp only [Keep.mkIff]
    | (simp +zetaDelta only [KeepF.mkIff]; refine KeepF.of ?_)
    | simp +zetaDelta only [Keep.mkIff]
    | assumption

theorem keep_gIdle {r : State} (v0 : Req) (g : GClass) (moved : Nat) (s : State) (h4 : Keep r s) :
    Keep r (gIdle v0 g moved s) := by
  unfold gIdle
  try extract_lets
  repeat' first
    | with_reducible assumption
    | intro _
    | with_reducible apply keep_gMoved
    | with_reducible apply Keep.ite
    | split
    | simp +zetaDelta only [Keep.mkIff]
    | assumption

theorem keep_replyReq {r : State} (v0 : Req) (st : Status) (count : Nat) (data : List (Byte × Bool)) (s : State) (h5 : Keep r s) :
    Keep r (replyReq v0 st count data s) := by
  unfold replyReq
  try extract_lets
  repeat' first
    | with_reducible assumption
    | intro _
    | with_reducible apply keep_responseFrame
    | with_reducible apply keep_freshId
    | with_reducible apply keep_answer
    | (refine Keep.snd (by assumption) ?_)
    | (refine Keep.fst (by assumption) ?_)
    | (refine Keep.thd (by assumption) ?_)
    | split
    | simp +zetaDelta only [Keep.mkIff]
    | assumption

theorem keep_refuseReq {r : State} (v0 : Req) (st : Status) (bit : Nat) (logged : Bool) (s : State) (h5 : Keep r s) :
    Keep r (refuseReq v0 st bit logged s) := by
  unfold refuseReq
  try extract_lets
  repeat' first
    | with_reducible assumption
    | intro _
    | with_reducible apply keep_portErr
    | with_reducible apply keep_report
    | with_reducible apply keep_replyReq
    | with_reducible apply Keep.ite
    | split
    | simp +zetaDelta only [Keep.mkIff]
    | assumption

theorem keep_refuseG {r : State} (v0 : Req) (why : GRefusal) (s : State) (h3 : Keep r s) :
    Keep r (refuseG v0 why s) := by
  unfold refuseG
  try extract_lets
  repeat' first
    | with_reducible assumption
    | intro _
    | with_reducible apply keep_gTele
    | with_reducible apply keep_refuseReq
    | (refine Keep.snd (by assumption) ?_)
    | (refine Keep.fst (by assumption) ?_)
    | (refine Keep.thd (by assumption) ?_)
    | split
    | simp +zetaDelta only [Keep.mkIff]
    | assumption

theorem keep_GClass_take {r : State} (g : GClass) (n : Nat) (s : State) (h3 : Keep r s) :
    Keep r (GClass.take g n s) := by
  unfold GClass.take
  try extract_lets
  repeat' first
    | with_reducible assumption
    | intro _
    | with_reducible apply keep_gTele
    | with_reducible apply keep_gTake
    | with_reducible apply Keep.ite
    | (refine Keep.snd (by assumption) ?_)
    | (refine Keep.fst (by assumption) ?_)
    | (refine Keep.thd (by assumption) ?_)
    | split
    | simp +zetaDelta only [Keep.mkIff]
    | assumption

theorem keep_acceptFlush {r : State} (v0 : Req) (es : List WbEntry) (g : GClass) (s : State) (h4 : Keep r s) :
    Keep r (acceptFlush v0 es g s) := by
  unfold acceptFlush
  try extract_lets
  repeat' first
    | with_reducible assumption
    | intro _
    | with_reducible apply keep_freshId
    | with_reducible apply keep_GClass_take
    | with_reducible apply keep_modPort
    | with_reducible apply keep_takeLate
    | with_reducible apply keep_replyReq
    | with_reducible apply keep_issueAll
    | with_reducible apply keep_slotDrain
    | with_reducible apply keep_gMoved
    | with_reducible apply keep_modSlice
    | with_reducible apply Keep.ite
    | with_reducible apply Keep.foldl
    | with_reducible apply Keep.foldlP (p := Prod.snd)
    | with_reducible apply Keep.foldlP (p := Prod.fst)
    | with_reducible apply Keep.foldlT
    | (refine Keep.snd (by assumption) ?_)
    | (refine Keep.fst (by assumption) ?_)
    | (refine Keep.thd (by assumption) ?_)
    | split
    | simp only [Keep.mkIff]
    | (simp +zetaDelta only [KeepF.mkIff]; refine KeepF.of ?_)
    | simp +zetaDelta only [Keep.mkIff]
    | assumption

theorem keep_acceptWrite {r : State} (v0 : Req) (addrs : List Nat) (p : Pocket) (g : GClass) (cred : Option Nat) (s : State) (h6 : Keep r s) :
    Keep r (acceptWrite v0 addrs p g cred s) := by
  unfold acceptWrite
  try extract_lets
  repeat' first
    | with_reducible assumption
    | intro _
    | with_reducible apply keep_freshId
    | with_reducible apply keep_issueAll
    | with_reducible apply keep_gIdle
    | with_reducible apply keep_GClass_take
    | with_reducible apply keep_landBytes
    | with_reducible apply keep_replyReq
    | with_reducible apply keep_acceptBytes
    | with_reducible apply keep_takeLate
    | with_reducible apply Keep.ite
    | (refine Keep.snd (by assumption) ?_)
    | (refine Keep.fst (by assumption) ?_)
    | (refine Keep.thd (by assumption) ?_)
    | split
    | simp only [Keep.mkIff]
    | (simp +zetaDelta only [KeepF.mkIff]; refine KeepF.of ?_)
    | simp +zetaDelta only [Keep.mkIff]
    | assumption

theorem keep_acceptRead {r : State} (v0 : Req) (addrs : List Nat) (keys : List Nat) (p : Pocket) (g : GClass) (s : State) (h6 : Keep r s) :
    Keep r (acceptRead v0 addrs keys p g s) := by
  unfold acceptRead
  try extract_lets
  repeat' first
    | with_reducible assumption
    | intro _
    | with_reducible apply keep_freshId
    | with_reducible apply keep_startRead
    | with_reducible apply keep_GClass_take
    | with_reducible apply keep_gIdle
    | with_reducible apply Keep.ite
    | (refine Keep.snd (by assumption) ?_)
    | (refine Keep.fst (by assumption) ?_)
    | (refine Keep.thd (by assumption) ?_)
    | split
    | simp +zetaDelta only [Keep.mkIff]
    | assumption

theorem keep_acceptStore {r : State} (v0 : Req) (x : Ctx) (st : Store) (pk : Nat) (p : Pocket) (s : State) (h6 : Keep r s) :
    Keep r (acceptStore v0 x st pk p s) := by
  unfold acceptStore
  try extract_lets
  repeat' first
    | with_reducible assumption
    | intro _
    | with_reducible apply keep_refuseG
    | with_reducible apply keep_acceptFlush
    | with_reducible apply keep_touchAll
    | with_reducible apply keep_refuseReq
    | with_reducible apply keep_acceptWrite
    | with_reducible apply keep_acceptRead
    | with_reducible apply Keep.ite
    | (refine Keep.snd (by assumption) ?_)
    | (refine Keep.fst (by assumption) ?_)
    | (refine Keep.thd (by assumption) ?_)
    | split
    | simp +zetaDelta only [Keep.mkIff]
    | assumption

theorem keep_acceptPocket {r : State} (v0 : Req) (c : Nat) (st : Store) (pk : Nat) (s : State) (h5 : Keep r s) :
    Keep r (acceptPocket v0 c st pk s) := by
  unfold acceptPocket
  try extract_lets
  repeat' first
    | with_reducible assumption
    | intro _
    | with_reducible apply keep_refuseReq
    | with_reducible apply keep_replyReq
    | with_reducible apply keep_acceptStore
    | with_reducible apply Keep.ite
    | (refine Keep.snd (by assumption) ?_)
    | (refine Keep.fst (by assumption) ?_)
    | (refine Keep.thd (by assumption) ?_)
    | split
    | simp +zetaDelta only [Keep.mkIff]
    | assumption

end Sys2Proof.Laws
end

