-- ==== Sys2Proof/Laws/KeepPortRows.lean ====
section
/-! SUPPORT. Laws/KeepPortRows.lean: the operations of Machine/PortRows.lean keep what every effect keeps (Laws/Keep.lean). -/
namespace Sys2Proof.Laws
open Sys2Proof.Machine
set_option linter.all false
set_option Elab.async false

theorem keep_startDrain {r : State} (n : Nat) (p : Nat) (s : State) (h3 : Keep r s) :
    Keep r (startDrain n p s) := by
  unfold startDrain
  try extract_lets
  repeat' first
    | with_reducible assumption
    | intro _
    | with_reducible apply keep_issueAll
    | with_reducible apply keep_modPort
    | simp +zetaDelta only [Keep.mkIff]
    | assumption

theorem keep_portCtlWrite {r : State} (n : Nat) (p : Nat) (v : Nat) (by_ : RegBy) (s : State) (h5 : Keep r s) :
    Keep r (portCtlWrite n p v by_ s).2 := by
  unfold portCtlWrite
  try extract_lets
  repeat' first
    | with_reducible assumption
    | intro _
    | with_reducible apply keep_touch
    | with_reducible apply keep_regPut
    | with_reducible apply keep_dropReg
    | with_reducible apply keep_modPort
    | with_reducible apply keep_startDrain
    | with_reducible apply Keep.iteS
    | with_reducible apply Keep.ite
    | (refine Keep.snd (by assumption) ?_)
    | (refine Keep.fst (by assumption) ?_)
    | (refine Keep.thd (by assumption) ?_)
    | split
    | simp +zetaDelta only [Keep.mkIff]
    | assumption

theorem keep_portCtxWrite {r : State} (n : Nat) (p : Nat) (v : Nat) (by_ : RegBy) (s : State) (h5 : Keep r s) :
    Keep r (portCtxWrite n p v by_ s).2 := by
  unfold portCtxWrite
  try extract_lets
  repeat' first
    | with_reducible assumption
    | intro _
    | with_reducible apply keep_dropReg
    | with_reducible apply keep_unbindPort
    | with_reducible apply keep_regPut
    | with_reducible apply Keep.iteS
    | with_reducible apply Keep.ite
    | (refine Keep.snd (by assumption) ?_)
    | (refine Keep.fst (by assumption) ?_)
    | (refine Keep.thd (by assumption) ?_)
    | split
    | simp +zetaDelta only [Keep.mkIff]
    | assumption

theorem keep_execPoisonTagWrite {r : State} (key : Nat) (s : State) (h2 : Keep r s) :
    KeepOut r (execPoisonTagWrite key s) := by
  unfold execPoisonTagWrite
  split
  · refine KeepOut.next (Keep.mk2 (keep_integAdd _ _ _ h2) fun h => ?_)
    exact memory_wf_tag (m := s.mem) key true _ h
  · exact KeepOut.next h2

theorem keep_execBurstTimeout {r : State} (v0 : PortReq) (s : State) (h2 : Keep r s) :
    KeepOut r (execBurstTimeout v0 s) := by
  unfold execBurstTimeout
  try extract_lets
  repeat' first
    | with_reducible assumption
    | intro _
    | with_reducible apply KeepOut.next
    | with_reducible apply keep_refuseReq
    | with_reducible apply KeepOut.ite
    | with_reducible apply Keep.ite
    | (refine Keep.snd (by assumption) ?_)
    | (refine Keep.fst (by assumption) ?_)
    | (refine Keep.thd (by assumption) ?_)
    | split
    | simp only [Keep.mkIff]
    | (simp +zetaDelta only [KeepF.mkIff]; refine KeepF.of ?_)
    | simp +zetaDelta only [Keep.mkIff]
    | assumption

theorem keep_execPriorityRaise {r : State} (op : Nat) (s : State) (h2 : Keep r s) :
    KeepOut r (execPriorityRaise op s) := by
  unfold execPriorityRaise
  try extract_lets
  repeat' first
    | with_reducible assumption
    | intro _
    | with_reducible apply KeepOut.next
    | simp only [Keep.mkIff]
    | (simp +zetaDelta only [KeepF.mkIff]; refine KeepF.of ?_)
    | simp +zetaDelta only [Keep.mkIff]
    | assumption

theorem keep_execWbAgeExpiry {r : State} (entry : Nat) (s : State) (h2 : Keep r s) :
    KeepOut r (execWbAgeExpiry entry s) := by
  unfold execWbAgeExpiry
  try extract_lets
  repeat' first
    | with_reducible assumption
    | intro _
    | with_reducible apply KeepOut.next
    | with_reducible apply keep_issueAll
    | with_reducible apply KeepOut.ite
    | with_reducible apply Keep.ite
    | (refine Keep.snd (by assumption) ?_)
    | (refine Keep.fst (by assumption) ?_)
    | (refine Keep.thd (by assumption) ?_)
    | split
    | simp only [Keep.mkIff]
    | (simp +zetaDelta only [KeepF.mkIff]; refine KeepF.of ?_)
    | simp +zetaDelta only [Keep.mkIff]
    | assumption

theorem keep_execReuseExpiry {r : State} (n : Nat) (p : Nat) (c : Nat) (base : Nat) (s : State) (h5 : Keep r s) :
    KeepOut r (execReuseExpiry n p c base s) := by
  unfold execReuseExpiry
  try extract_lets
  repeat' first
    | with_reducible assumption
    | intro _
    | with_reducible apply KeepOut.next
    | with_reducible apply keep_modPort
    | (refine Keep.snd (by assumption) ?_)
    | (refine Keep.fst (by assumption) ?_)
    | (refine Keep.thd (by assumption) ?_)
    | split
    | simp only [Keep.mkIff]
    | (simp +zetaDelta only [KeepF.mkIff]; refine KeepF.of ?_)
    | simp +zetaDelta only [Keep.mkIff]
    | assumption

theorem keep_countBubble {r : State} (s : State) (h1 : Keep r s) :
    Keep r (countBubble s) := by
  unfold countBubble
  try extract_lets
  repeat' first
    | with_reducible assumption
    | intro _
    | with_reducible apply Keep.ite
    | with_reducible apply Keep.foldl
    | with_reducible apply Keep.foldlP (p := Prod.snd)
    | with_reducible apply Keep.foldlP (p := Prod.fst)
    | with_reducible apply Keep.foldlT
    | split
    | simp only [Keep.mkIff]
    | (simp +zetaDelta only [KeepF.mkIff]; refine KeepF.of ?_)
    | simp +zetaDelta only [Keep.mkIff]
    | assumption

theorem keep_execWbEntryCommit {r : State} (entry : Nat) (s : State) (h2 : Keep r s) :
    KeepOut r (execWbEntryCommit entry s) := by
  unfold execWbEntryCommit
  try extract_lets
  repeat' first
    | with_reducible assumption
    | intro _
    | with_reducible apply KeepOut.next
    | with_reducible apply keep_commitEntry
    | with_reducible apply keep_sweepGrants
    | with_reducible apply keep_landBytes
    | with_reducible apply KeepOut.ite
    | with_reducible apply Keep.ite
    | (refine Keep.snd (by assumption) ?_)
    | (refine Keep.fst (by assumption) ?_)
    | (refine Keep.thd (by assumption) ?_)
    | split
    | simp +zetaDelta only [Keep.mkIff]
    | assumption

theorem keep_execPortDrainDone {r : State} (n : Nat) (p : Nat) (s : State) (h3 : Keep r s) :
    KeepOut r (execPortDrainDone n p s) := by
  unfold execPortDrainDone
  try extract_lets
  repeat' first
    | with_reducible assumption
    | intro _
    | with_reducible apply KeepOut.next
    | with_reducible apply keep_modPort
    | with_reducible apply KeepOut.ite
    | with_reducible apply Keep.ite
    | split
    | simp +zetaDelta only [Keep.mkIff]
    | assumption

theorem keep_execPortClearDone {r : State} (n : Nat) (p : Nat) (s : State) (h3 : Keep r s) :
    KeepOut r (execPortClearDone n p s) := by
  unfold execPortClearDone
  try extract_lets
  repeat' first
    | with_reducible assumption
    | intro _
    | with_reducible apply KeepOut.next
    | with_reducible apply keep_modPort
    | with_reducible apply keep_regPut
    | with_reducible apply keep_finishAll
    | with_reducible apply KeepOut.ite
    | with_reducible apply Keep.ite
    | split
    | simp +zetaDelta only [Keep.mkIff]
    | assumption

theorem keep_outerNext {r : State} (cfg : Nat) (oq : Nat) (p : Nat) (s : State) (h4 : Keep r s) :
    Keep r (outerNext cfg oq p s) := by
  unfold outerNext
  try extract_lets
  repeat' first
    | with_reducible assumption
    | intro _
    | with_reducible apply Keep.ite
    | split
    | simp only [Keep.mkIff]
    | (simp +zetaDelta only [KeepF.mkIff]; refine KeepF.of ?_)
    | simp +zetaDelta only [Keep.mkIff]
    | assumption

theorem keep_execRegulatorInterval {r : State} (n : Nat) (oqLevel : Nat) (s : State) (h3 : Keep r s) :
    KeepOut r (execRegulatorInterval n oqLevel s) := by
  unfold execRegulatorInterval
  try extract_lets
  repeat' first
    | with_reducible assumption
    | intro _
    | with_reducible apply KeepOut.next
    | with_reducible apply keep_modSlice
    | with_reducible apply keep_outerNext
    | with_reducible apply keep_gTele
    | with_reducible apply KeepOut.ite
    | with_reducible apply Keep.ite
    | with_reducible apply Keep.foldl
    | with_reducible apply Keep.foldlP (p := Prod.snd)
    | with_reducible apply Keep.foldlP (p := Prod.fst)
    | with_reducible apply Keep.foldlT
    | split
    | simp +zetaDelta only [Keep.mkIff]
    | assumption

end Sys2Proof.Laws
end

