-- ==== Sys2Proof/Laws/KeepFaults.lean ====
section
/-! SUPPORT. Laws/KeepFaults.lean: the operations of Machine/Faults.lean keep what every effect keeps (Laws/Keep.lean). -/
namespace Sys2Proof.Laws
open Sys2Proof.Machine
set_option linter.all false
set_option Elab.async false

theorem keep_drainPocket {r : State} (c : Nat) (st : Store) (pk : Nat) (s : State) (h4 : Keep r s) :
    Keep r (drainPocket c st pk s) := by
  unfold drainPocket
  try extract_lets
  repeat' first
    | with_reducible assumption
    | intro _
    | with_reducible apply keep_issueAll
    | with_reducible apply keep_drainStage
    | with_reducible apply Keep.foldl
    | with_reducible apply Keep.foldlP (p := Prod.snd)
    | with_reducible apply Keep.foldlP (p := Prod.fst)
    | with_reducible apply Keep.foldlT
    | (refine Keep.snd (by assumption) ?_)
    | (refine Keep.fst (by assumption) ?_)
    | (refine Keep.thd (by assumption) ?_)
    | split
    | simp +zetaDelta only [Keep.mkIff]
    | assumption

theorem keep_startClear {r : State} (part : Nat) (todo : List (Nat × Nat × Nat)) (s : State) (h3 : Keep r s) :
    Keep r (startClear part todo s).2 := by
  unfold startClear
  try extract_lets
  repeat' first
    | with_reducible assumption
    | intro _
    | with_reducible apply keep_freshId
    | (refine Keep.snd (by assumption) ?_)
    | (refine Keep.fst (by assumption) ?_)
    | (refine Keep.thd (by assumption) ?_)
    | split
    | simp only [Keep.mkIff]
    | (simp +zetaDelta only [KeepF.mkIff]; refine KeepF.of ?_)
    | simp +zetaDelta only [Keep.mkIff]
    | assumption

theorem keep_refreshReady {r : State} (s : State) (c : Nat) (h1 : Keep r s) :
    Keep r (refreshReady s c) := by
  unfold refreshReady
  try extract_lets
  repeat' first
    | with_reducible assumption
    | intro _
    | with_reducible apply keep_emit
    | with_reducible apply Keep.ite
    | (refine Keep.snd (by assumption) ?_)
    | (refine Keep.fst (by assumption) ?_)
    | (refine Keep.thd (by assumption) ?_)
    | split
    | simp only [Keep.mkIff]
    | (simp +zetaDelta only [KeepF.mkIff]; refine KeepF.of ?_)
    | simp +zetaDelta only [Keep.mkIff]
    | assumption

theorem keep_refreshAll {r : State} (s : State) (h1 : Keep r s) :
    Keep r (refreshAll s) := by
  unfold refreshAll
  try extract_lets
  repeat' first
    | with_reducible assumption
    | intro _
    | with_reducible apply keep_refreshReady
    | with_reducible apply Keep.foldl
    | with_reducible apply Keep.foldlP (p := Prod.snd)
    | with_reducible apply Keep.foldlP (p := Prod.fst)
    | with_reducible apply Keep.foldlT
    | simp +zetaDelta only [Keep.mkIff]
    | assumption

theorem keep_drainCtxPorts {r : State} (c : Nat) (sp : Span) (s : State) (h3 : Keep r s) :
    Keep r (drainCtxPorts c sp s) := by
  unfold drainCtxPorts
  try extract_lets
  repeat' first
    | with_reducible assumption
    | intro _
    | with_reducible apply keep_startDrain
    | with_reducible apply Keep.ite
    | with_reducible apply Keep.foldl
    | with_reducible apply Keep.foldlP (p := Prod.snd)
    | with_reducible apply Keep.foldlP (p := Prod.fst)
    | with_reducible apply Keep.foldlT
    | (refine Keep.snd (by assumption) ?_)
    | (refine Keep.fst (by assumption) ?_)
    | (refine Keep.thd (by assumption) ?_)
    | split
    | simp +zetaDelta only [Keep.mkIff]
    | assumption

theorem keep_faultCmd {r : State} (st : Status) (wst : Status) (s : State) (d : Cmd) (h3 : Keep r s) :
    Keep r (faultCmd st wst s d) := by
  unfold faultCmd
  try extract_lets
  repeat' first
    | with_reducible assumption
    | intro _
    | with_reducible apply keep_gMoved
    | with_reducible apply keep_forgetReq
    | with_reducible apply keep_sendWithdraw
    | with_reducible apply keep_cmdDone
    | with_reducible apply keep_dropWorks
    | with_reducible apply Keep.ite
    | with_reducible apply Keep.foldl
    | with_reducible apply Keep.foldlP (p := Prod.snd)
    | with_reducible apply Keep.foldlP (p := Prod.fst)
    | with_reducible apply Keep.foldlT
    | split
    | simp only [Keep.mkIff]
    | (simp +zetaDelta only [KeepF.mkIff]; refine KeepF.of ?_)
    | simp +zetaDelta only [Keep.mkIff]
    | assumption

theorem keep_stopCtxQueues {r : State} (c : Nat) (s : State) (h2 : Keep r s) :
    Keep r (stopCtxQueues c s) := by
  unfold stopCtxQueues
  try extract_lets
  repeat' first
    | with_reducible assumption
    | intro _
    | with_reducible apply keep_stopQueue
    | with_reducible apply Keep.ite
    | with_reducible apply Keep.foldl
    | with_reducible apply Keep.foldlP (p := Prod.snd)
    | with_reducible apply Keep.foldlP (p := Prod.fst)
    | with_reducible apply Keep.foldlT
    | (refine Keep.snd (by assumption) ?_)
    | (refine Keep.fst (by assumption) ?_)
    | (refine Keep.thd (by assumption) ?_)
    | split
    | simp +zetaDelta only [Keep.mkIff]
    | assumption

theorem keep_tdispError {r : State} (c : Nat) (s : State) (h2 : Keep r s) :
    Keep r (tdispError c s) := by
  unfold tdispError
  try extract_lets
  repeat' first
    | with_reducible assumption
    | intro _
    | with_reducible apply keep_emit
    | with_reducible apply Keep.ite
    | (refine Keep.snd (by assumption) ?_)
    | (refine Keep.fst (by assumption) ?_)
    | (refine Keep.thd (by assumption) ?_)
    | split
    | simp +zetaDelta only [Keep.mkIff]
    | assumption

theorem keep_faultCtx {r : State} (st : Status) (wst : Status) (c : Nat) (s : State) (h4 : Keep r s) :
    Keep r (faultCtx st wst c s) := by
  unfold faultCtx
  try extract_lets
  repeat' first
    | with_reducible assumption
    | intro _
    | with_reducible apply keep_setCtx
    | with_reducible apply keep_faultChan
    | with_reducible apply keep_endWaiters
    | with_reducible apply keep_faultCmd
    | with_reducible apply keep_drainCtxPorts
    | with_reducible apply keep_stopCtxQueues
    | with_reducible apply keep_endGrants
    | with_reducible apply keep_tdispError
    | with_reducible apply keep_refreshReady
    | with_reducible apply Keep.ite
    | with_reducible apply Keep.foldl
    | with_reducible apply Keep.foldlP (p := Prod.snd)
    | with_reducible apply Keep.foldlP (p := Prod.fst)
    | with_reducible apply Keep.foldlT
    | (refine Keep.snd (by assumption) ?_)
    | (refine Keep.fst (by assumption) ?_)
    | (refine Keep.thd (by assumption) ?_)
    | split
    | simp only [Keep.mkIff]
    | (simp +zetaDelta only [KeepF.mkIff]; refine KeepF.of ?_)
    | simp +zetaDelta only [Keep.mkIff]
    | assumption

end Sys2Proof.Laws
end

