-- ==== Sys2Proof/Laws/KeepCtxCmds.lean ====
section
/-! SUPPORT. Laws/KeepCtxCmds.lean: the operations of Machine/CtxCmds.lean keep what every effect keeps (Laws/Keep.lean). -/
namespace Sys2Proof.Laws
open Sys2Proof.Machine
set_option linter.all false
set_option Elab.async false

theorem keep_dropReuse {r : State} (c : Nat) (st : Store) (pk : Nat) (s : State) (h4 : Keep r s) :
    Keep r (dropReuse c st pk s) := by
  unfold dropReuse
  extract_lets here f
  exact KeepF.of h4 (h15 := fun h => keysRise_map (fun e => f e.2) h)

theorem keep_destroyBegin {r : State} (c : Cmd) (x : Ctx) (s : State) (h3 : Keep r s) :
    Keep r (destroyBegin c x s) := by
  unfold destroyBegin
  try extract_lets
  repeat' first
    | with_reducible assumption
    | intro _
    | with_reducible apply keep_modCtx
    | with_reducible apply keep_drainCtxPorts
    | with_reducible apply keep_faultCtx
    | with_reducible apply keep_beginStop
    | with_reducible apply keep_issueAll
    | with_reducible apply keep_modCmd
    | with_reducible apply Keep.foldl
    | with_reducible apply Keep.foldlP (p := Prod.snd)
    | with_reducible apply Keep.foldlP (p := Prod.fst)
    | with_reducible apply Keep.foldlT
    | simp +zetaDelta only [Keep.mkIff]
    | assumption

theorem keep_destroySync {r : State} (c : Nat) (x : Ctx) (s : State) (h3 : Keep r s) :
    Keep r (destroySync c x s).2 := by
  unfold destroySync
  try extract_lets
  repeat' first
    | with_reducible assumption
    | intro _
    | with_reducible apply keep_forceRelease
    | with_reducible apply keep_unmapObject
    | with_reducible apply Keep.foldl
    | with_reducible apply Keep.foldlP (p := Prod.snd)
    | with_reducible apply Keep.foldlP (p := Prod.fst)
    | with_reducible apply Keep.foldlT
    | (refine Keep.snd (by assumption) ?_)
    | (refine Keep.fst (by assumption) ?_)
    | (refine Keep.thd (by assumption) ?_)
    | split
    | simp +zetaDelta only [Keep.mkIff]
    | assumption

theorem keep_placePocket {r : State} (c : Nat) (x : Ctx) (st : Store) (pk : Nat) (p : Pocket) (s : State) (h6 : Keep r s) :
    Keep r (placePocket c x st pk p s) := by
  unfold placePocket
  try extract_lets
  repeat' first
    | with_reducible assumption
    | intro _
    | with_reducible apply keep_endGrants
    | with_reducible apply keep_dropReuse
    | with_reducible apply keep_modCtx
    | simp +zetaDelta only [Keep.mkIff]
    | assumption

theorem keep_finishPocket {r : State} (c : Cmd) (s : State) (h2 : Keep r s) :
    Keep r (finishPocket c s) := by
  unfold finishPocket
  try extract_lets
  repeat' first
    | with_reducible assumption
    | intro _
    | with_reducible apply keep_cmdDone
    | with_reducible apply keep_placePocket
    | (refine Keep.snd (by assumption) ?_)
    | (refine Keep.fst (by assumption) ?_)
    | (refine Keep.thd (by assumption) ?_)
    | split
    | simp +zetaDelta only [Keep.mkIff]
    | assumption

theorem keep_refreshTaint {r : State} (p : Nat) (s : State) (h2 : Keep r s) :
    Keep r (refreshTaint p s) := by
  unfold refreshTaint
  try extract_lets
  repeat' first
    | with_reducible assumption
    | intro _
    | with_reducible apply keep_setPart
    | with_reducible apply Keep.ite
    | split
    | simp +zetaDelta only [Keep.mkIff]
    | assumption

theorem keep_finishDestroy {r : State} (c : Cmd) (s : State) (h2 : Keep r s) :
    Keep r (finishDestroy c s) := by
  unfold finishDestroy
  try extract_lets
  repeat' first
    | with_reducible assumption
    | intro _
    | with_reducible apply keep_tdispError
    | with_reducible apply keep_refreshReady
    | with_reducible apply keep_setCtx
    | with_reducible apply keep_setPart
    | with_reducible apply keep_cmdDone
    | with_reducible apply keep_refreshTaint
    | with_reducible apply Keep.ite
    | with_reducible apply Keep.foldl
    | with_reducible apply Keep.foldlP (p := Prod.snd)
    | with_reducible apply Keep.foldlP (p := Prod.fst)
    | with_reducible apply Keep.foldlT
    | (refine Keep.snd (by assumption) ?_)
    | (refine Keep.fst (by assumption) ?_)
    | (refine Keep.thd (by assumption) ?_)
    | split
    | simp +zetaDelta only [Keep.mkIff]
    | assumption

theorem keep_destroyQueues {r : State} (c : Nat) (s : State) (h2 : Keep r s) :
    Keep r (destroyQueues c s) := by
  unfold destroyQueues
  try extract_lets
  repeat' first
    | with_reducible assumption
    | intro _
    | with_reducible apply keep_setDb
    | with_reducible apply keep_setEnabled
    | with_reducible apply keep_dropQueue
    | with_reducible apply keep_startBack
    | with_reducible apply keep_modQueue
    | with_reducible apply Keep.ite
    | with_reducible apply Keep.foldl
    | with_reducible apply Keep.foldlP (p := Prod.snd)
    | with_reducible apply Keep.foldlP (p := Prod.fst)
    | with_reducible apply Keep.foldlT
    | (refine Keep.snd (by assumption) ?_)
    | (refine Keep.fst (by assumption) ?_)
    | (refine Keep.thd (by assumption) ?_)
    | split
    | simp +zetaDelta only [Keep.mkIff]
    | assumption

theorem keep_signalRemote {r : State} (c : Cmd) (tenant : Nat) (part : Nat) (s : State) (h4 : Keep r s) :
    Keep r (signalRemote c tenant part s) := by
  unfold signalRemote
  try extract_lets
  repeat' first
    | with_reducible assumption
    | intro _
    | with_reducible apply keep_cmdRefuse
    | with_reducible apply keep_modCmd
    | with_reducible apply keep_sendMsg
    | with_reducible apply Keep.ite
    | split
    | simp +zetaDelta only [Keep.mkIff]
    | assumption

theorem keep_signalLocal {r : State} (c : Cmd) (ph : Nat) (s : State) (h3 : Keep r s) :
    Keep r (signalLocal c ph s) := by
  unfold signalLocal
  try extract_lets
  repeat' first
    | with_reducible assumption
    | intro _
    | with_reducible apply keep_cmdRefuse
    | with_reducible apply keep_signalCounter
    | with_reducible apply keep_cmdDone
    | with_reducible apply Keep.ite
    | (refine Keep.snd (by assumption) ?_)
    | (refine Keep.fst (by assumption) ?_)
    | (refine Keep.thd (by assumption) ?_)
    | split
    | simp +zetaDelta only [Keep.mkIff]
    | assumption

theorem keep_execSignal {r : State} (cmd : Nat) (s : State) (h2 : Keep r s) :
    KeepOut r (execSignal cmd s) := by
  unfold execSignal
  try extract_lets
  repeat' first
    | with_reducible assumption
    | intro _
    | with_reducible apply KeepOut.next
    | with_reducible apply keep_signalRemote
    | with_reducible apply keep_whenAwake
    | with_reducible apply keep_signalLocal
    | with_reducible apply keep_cmdRefuse
    | with_reducible apply KeepOut.ite
    | with_reducible apply Keep.ite
    | (refine Keep.snd (by assumption) ?_)
    | (refine Keep.fst (by assumption) ?_)
    | (refine Keep.thd (by assumption) ?_)
    | split
    | simp +zetaDelta only [Keep.mkIff]
    | assumption

theorem keep_pocketSetOn {r : State} (c : Cmd) (x : Ctx) (st : Store) (s : State) (h4 : Keep r s) :
    Keep r (pocketSetOn c x st s) := by
  unfold pocketSetOn
  try extract_lets
  repeat' first
    | with_reducible assumption
    | intro _
    | with_reducible apply keep_cmdRefuse
    | with_reducible apply keep_drainPocket
    | with_reducible apply keep_modCmd
    | with_reducible apply keep_cmdDone
    | with_reducible apply keep_placePocket
    | with_reducible apply keep_startClear
    | with_reducible apply keep_modCtx
    | with_reducible apply Keep.ite
    | (refine Keep.snd (by assumption) ?_)
    | (refine Keep.fst (by assumption) ?_)
    | (refine Keep.thd (by assumption) ?_)
    | split
    | simp +zetaDelta only [Keep.mkIff]
    | assumption

theorem keep_destroyUnits {r : State} (x : Ctx) (s : State) (h2 : Keep r s) :
    Keep r (destroyUnits x s) := by
  unfold destroyUnits
  try extract_lets
  repeat' first
    | with_reducible assumption
    | intro _
    | with_reducible apply keep_zeroUnits
    | with_reducible apply Keep.foldl
    | with_reducible apply Keep.foldlP (p := Prod.snd)
    | with_reducible apply Keep.foldlP (p := Prod.fst)
    | with_reducible apply Keep.foldlT
    | simp +zetaDelta only [Keep.mkIff]
    | assumption

theorem keep_destroyClear {r : State} (c : Cmd) (x : Ctx) (s : State) (h3 : Keep r s) :
    Keep r (destroyClear c x s) := by
  have k1 := keep_destroySync c.ctx x s h3
  unfold destroyClear
  generalize destroySync c.ctx x s = e at k1 ⊢
  obtain ⟨locks, s1⟩ := e
  dsimp only
  have k2 := keep_destroyUnits x _ (keep_destroyQueues c.ctx _ k1)
  generalize destroyUnits x (destroyQueues c.ctx s1) = s2 at k2 ⊢
  generalize List.flatMap _ x.pockets = parts
  have k3 := keep_startClear x.part parts _ k2
  generalize startClear x.part parts s2 = e at k3 ⊢
  obtain ⟨id, s3⟩ := e
  exact keep_modCmd _ _ _ (keep_modCtx _ _ _ k3)

theorem keep_createOn {r : State} (c : Cmd) (s : State) (h2 : Keep r s) :
    Keep r (createOn c s) := by
  unfold createOn
  try extract_lets
  repeat' first
    | with_reducible assumption
    | intro _
    | with_reducible apply keep_cmdRefuse
    | with_reducible apply keep_setCtx
    | with_reducible apply keep_feedTenant
    | with_reducible apply keep_setPart
    | with_reducible apply keep_cmdDone
    | with_reducible apply keep_refreshReady
    | with_reducible apply Keep.ite
    | split
    | simp +zetaDelta only [Keep.mkIff]
    | assumption

theorem keep_execPocketSet {r : State} (cmd : Nat) (s : State) (h2 : Keep r s) :
    KeepOut r (execPocketSet cmd s) := by
  unfold execPocketSet
  try extract_lets
  repeat' first
    | with_reducible assumption
    | intro _
    | with_reducible apply KeepOut.next
    | with_reducible apply keep_cmdRefuse
    | with_reducible apply keep_whenAwake
    | with_reducible apply keep_pocketSetOn
    | with_reducible apply KeepOut.ite
    | with_reducible apply Keep.ite
    | (refine Keep.snd (by assumption) ?_)
    | (refine Keep.fst (by assumption) ?_)
    | (refine Keep.thd (by assumption) ?_)
    | split
    | simp +zetaDelta only [Keep.mkIff]
    | assumption

theorem keep_execCtxCreate {r : State} (cmd : Nat) (s : State) (h2 : Keep r s) :
    KeepOut r (execCtxCreate cmd s) := by
  unfold execCtxCreate
  try extract_lets
  repeat' first
    | with_reducible assumption
    | intro _
    | with_reducible apply KeepOut.next
    | with_reducible apply keep_cmdRefuse
    | with_reducible apply keep_modCmd
    | with_reducible apply keep_createOn
    | with_reducible apply KeepOut.ite
    | with_reducible apply Keep.ite
    | (refine Keep.snd (by assumption) ?_)
    | (refine Keep.fst (by assumption) ?_)
    | (refine Keep.thd (by assumption) ?_)
    | split
    | simp +zetaDelta only [Keep.mkIff]
    | assumption

theorem keep_destroyReturn {r : State} (c : Cmd) (x : Ctx) (s : State) (h3 : Keep r s) :
    Keep r (destroyReturn c x s) := by
  have k1 := Keep.foldl (portsOfCtx s (ctxSpan s x) c.ctx)
    (f := fun t x => regPut 0 (portReg x.1 x.2 8) (regGet t 0 (portReg x.1 x.2 8) % 2048) t) h3 fun t x k => keep_regPut _ _ _ _ k
  have k2 := Keep.foldl ((spanChans (ctxSpan s x)).filter fun k => chanServes s k.1 k.2.1 k.2.2 c.ctx)
    (f := fun t x => regPut 0 (chanReg x.1 x.2.1 x.2.2 0) (chanCtl t x.1 x.2.1 x.2.2 - 2048) t) k1 fun t x k => keep_regPut _ _ _ _ k
  exact keep_modCmd _ _ _ (keep_returnCredits _ _ _ _ _ (keep_endDeferred _ _ _ (keep_endGrants _ _ _
    (Keep.foldl _ k2 fun t k h => keep_startUnbind _ _ _ _ h))))

theorem keep_execCtxDestroy {r : State} (cmd : Nat) (s : State) (h2 : Keep r s) :
    KeepOut r (execCtxDestroy cmd s) := by
  unfold execCtxDestroy
  split
  · next c e =>
    split
    · split
      · split
        · exact KeepOut.next (keep_modCmd _ _ _ h2)
        · exact KeepOut.next (keep_whenAwake _ _ _ _ _ h2 fun t k => keep_destroyBegin _ _ _ k)
      · split
        · split
          · exact KeepOut.next (keep_destroyReturn _ _ _ h2)
          · exact KeepOut.next h2
        · split
          · split
            · exact KeepOut.next h2
            · exact KeepOut.next (keep_whenAwake _ _ _ _ _ h2 fun t k => keep_destroyClear _ _ _ k)
          · exact KeepOut.next h2
    · split
      · exact KeepOut.next (keep_cmdRefuse _ _ _ _ h2)
      · exact KeepOut.next h2
  · exact KeepOut.next h2

theorem keep_endDeferredReq {r : State} (v0 : FabReq) (s : State) (h2 : Keep r s) :
    Keep r (endDeferredReq v0 s) := by
  unfold endDeferredReq
  try extract_lets
  repeat' first
    | with_reducible assumption
    | intro _
    | with_reducible apply keep_forgetReq
    | with_reducible apply keep_sendWithdraw
    | with_reducible apply keep_finish
    | simp +zetaDelta only [Keep.mkIff]
    | assumption

theorem keep_execWaitTimeout {r : State} (waiter : Nat) (s : State) (h2 : Keep r s) :
    KeepOut r (execWaitTimeout waiter s) := by
  unfold execWaitTimeout
  try extract_lets
  repeat' first
    | with_reducible assumption
    | intro _
    | with_reducible apply KeepOut.next
    | with_reducible apply keep_endWaiters
    | with_reducible apply keep_timeTo
    | with_reducible apply keep_endDeferredReq
    | with_reducible apply KeepOut.ite
    | with_reducible apply Keep.ite
    | (refine Keep.snd (by assumption) ?_)
    | (refine Keep.fst (by assumption) ?_)
    | (refine Keep.thd (by assumption) ?_)
    | split
    | simp +zetaDelta only [Keep.mkIff]
    | assumption

theorem keep_execContextWatchdog {r : State} (waiter : Nat) (s : State) (h2 : Keep r s) :
    KeepOut r (execContextWatchdog waiter s) := by
  unfold execContextWatchdog
  try extract_lets
  repeat' first
    | with_reducible assumption
    | intro _
    | with_reducible apply KeepOut.next
    | with_reducible apply keep_endWaiters
    | with_reducible apply keep_timeTo
    | with_reducible apply keep_endDeferredReq
    | with_reducible apply KeepOut.ite
    | with_reducible apply Keep.ite
    | (refine Keep.snd (by assumption) ?_)
    | (refine Keep.fst (by assumption) ?_)
    | (refine Keep.thd (by assumption) ?_)
    | split
    | simp +zetaDelta only [Keep.mkIff]
    | assumption

end Sys2Proof.Laws
end

