-- ==== Sys2Proof/Laws/KeepWeaveCmds.lean ====
section
/-! SUPPORT. Laws/KeepWeaveCmds.lean: the operations of Machine/WeaveCmds.lean keep what every effect keeps (Laws/Keep.lean). -/
namespace Sys2Proof.Laws
open Sys2Proof.Machine
set_option linter.all false
set_option Elab.async false

theorem keep_sleeveWrite {r : State} (n : Nat) (v : Nat) (by_ : RegBy) (s : State) (h4 : Keep r s) :
    Keep r (sleeveWrite n v by_ s).2 := by
  unfold sleeveWrite
  try extract_lets
  repeat' first
    | with_reducible assumption
    | intro _
    | with_reducible apply keep_dropReg
    | with_reducible apply keep_freshId
    | with_reducible apply keep_modSlice
    | with_reducible apply Keep.iteS
    | with_reducible apply Keep.ite
    | (refine Keep.snd (by assumption) ?_)
    | (refine Keep.fst (by assumption) ?_)
    | (refine Keep.thd (by assumption) ?_)
    | split
    | simp +zetaDelta only [Keep.mkIff]
    | assumption

theorem keep_weaveOn {r : State} (c : Cmd) (ns : List Nat) (s : State) (h3 : Keep r s) :
    Keep r (weaveOn c ns s) := by
  unfold weaveOn
  try extract_lets
  repeat' first
    | with_reducible assumption
    | intro _
    | with_reducible apply keep_cmdRead
    | with_reducible apply keep_cmdRefuse
    | with_reducible apply keep_drawFree
    | with_reducible apply keep_cmdDone
    | with_reducible apply keep_freshId
    | with_reducible apply keep_modCmd
    | with_reducible apply keep_modSlice
    | with_reducible apply Keep.ite
    | with_reducible apply Keep.foldl
    | with_reducible apply Keep.foldlP (p := Prod.snd)
    | with_reducible apply Keep.foldlP (p := Prod.fst)
    | with_reducible apply Keep.foldlT
    | (refine Keep.snd (by assumption) ?_)
    | (refine Keep.fst (by assumption) ?_)
    | (refine Keep.thd (by assumption) ?_)
    | split
    | simp +zetaDelta only [Keep.mkIff]
    | assumption

theorem keep_execWeaveInstall {r : State} (cmd : Nat) (s : State) (h2 : Keep r s) :
    KeepOut r (execWeaveInstall cmd s) := by
  unfold execWeaveInstall
  try extract_lets
  repeat' first
    | with_reducible assumption
    | intro _
    | with_reducible apply KeepOut.next
    | with_reducible apply keep_cmdRefuse
    | with_reducible apply keep_whenAwake
    | with_reducible apply keep_weaveOn
    | with_reducible apply KeepOut.ite
    | with_reducible apply Keep.ite
    | (refine Keep.snd (by assumption) ?_)
    | (refine Keep.fst (by assumption) ?_)
    | (refine Keep.thd (by assumption) ?_)
    | split
    | simp +zetaDelta only [Keep.mkIff]
    | assumption

theorem keep_restartTimers {r : State} (ns : List Nat) (s : State) (h2 : Keep r s) :
    Keep r (restartTimers ns s) := by
  unfold restartTimers
  try extract_lets
  repeat' first
    | with_reducible assumption
    | intro _
    | with_reducible apply keep_modPwr
    | with_reducible apply Keep.foldl
    | with_reducible apply Keep.foldlP (p := Prod.snd)
    | with_reducible apply Keep.foldlP (p := Prod.fst)
    | with_reducible apply Keep.foldlT
    | simp +zetaDelta only [Keep.mkIff]
    | assumption

theorem keep_contractDue {r : State} (c : Contract) (s : State) (h2 : Keep r s) :
    Keep r (contractDue c s) := by
  unfold contractDue
  try extract_lets
  repeat' first
    | with_reducible assumption
    | intro _
    | with_reducible apply keep_restartTimers
    | with_reducible apply keep_endGrants
    | with_reducible apply keep_finish
    | with_reducible apply keep_finishBind
    | with_reducible apply Keep.ite
    | split
    | simp only [Keep.mkIff]
    | (simp +zetaDelta only [KeepF.mkIff]; refine KeepF.of ?_)
    | simp +zetaDelta only [Keep.mkIff]
    | assumption

theorem keep_contractsAt {r : State} (n : Nat) (stamp : Nat) (s : State) (h3 : Keep r s) :
    Keep r (contractsAt n stamp s) := by
  unfold contractsAt
  try extract_lets
  repeat' first
    | with_reducible assumption
    | intro _
    | with_reducible apply keep_contractDue
    | with_reducible apply Keep.ite
    | with_reducible apply Keep.foldl
    | with_reducible apply Keep.foldlP (p := Prod.snd)
    | with_reducible apply Keep.foldlP (p := Prod.fst)
    | with_reducible apply Keep.foldlT
    | split
    | simp only [Keep.mkIff]
    | (simp +zetaDelta only [KeepF.mkIff]; refine KeepF.of ?_)
    | simp +zetaDelta only [Keep.mkIff]
    | assumption

theorem keep_toB {r : State} (c : Contract) (s : State) (h2 : Keep r s) :
    Keep r (toB c s) := by
  unfold toB
  extract_lets mine hit cmd k rows chan rowsOf open_
  refine keep_gTele _ _ _ ?_
  refine KeepF.of h2 (h18 := fun h => keysRise_mapKeys (fun e => ?_) h)
  unfold chan
  split <;> rfl

theorem keep_bucketsAt {r : State} (n : Nat) (s : State) (h2 : Keep r s) :
    Keep r (bucketsAt n s) := by
  unfold bucketsAt
  try extract_lets
  repeat' first
    | with_reducible assumption
    | intro _
    | with_reducible apply keep_toB
    | with_reducible apply Keep.ite
    | with_reducible apply Keep.foldl
    | with_reducible apply Keep.foldlP (p := Prod.snd)
    | with_reducible apply Keep.foldlP (p := Prod.fst)
    | with_reducible apply Keep.foldlT
    | split
    | simp only [Keep.mkIff]
    | (simp +zetaDelta only [KeepF.mkIff]; refine KeepF.of ?_)
    | simp +zetaDelta only [Keep.mkIff]
    | assumption

theorem keep_weaveEnd {r : State} (o : Origin) (s : State) (h2 : Keep r s) :
    Keep r (weaveEnd o s) := by
  unfold weaveEnd
  try extract_lets
  repeat' first
    | with_reducible assumption
    | intro _
    | with_reducible apply keep_cmdDone
    | with_reducible apply Keep.ite
    | (refine Keep.snd (by assumption) ?_)
    | (refine Keep.fst (by assumption) ?_)
    | (refine Keep.thd (by assumption) ?_)
    | split
    | simp +zetaDelta only [Keep.mkIff]
    | assumption

theorem keep_lanesAt {r : State} (n : Nat) (s : State) (h2 : Keep r s) :
    Keep r (lanesAt n s) := by
  unfold lanesAt
  try extract_lets
  repeat' first
    | with_reducible assumption
    | intro _
    | with_reducible apply keep_integAdd
    | with_reducible apply keep_modSlice
    | with_reducible apply keep_raiseSvc
    | with_reducible apply Keep.ite
    | with_reducible apply Keep.foldl
    | with_reducible apply Keep.foldlP (p := Prod.snd)
    | with_reducible apply Keep.foldlP (p := Prod.fst)
    | with_reducible apply Keep.foldlT
    | split
    | simp +zetaDelta only [Keep.mkIff]
    | assumption

theorem keep_marksAt {r : State} (n : Nat) (s : State) (h2 : Keep r s) :
    Keep r (marksAt n s) := by
  unfold marksAt
  try extract_lets
  repeat' first
    | with_reducible assumption
    | intro _
    | with_reducible apply keep_integAdd
    | with_reducible apply keep_report
    | with_reducible apply keep_modSlice
    | with_reducible apply Keep.ite
    | with_reducible apply Keep.foldl
    | with_reducible apply Keep.foldlP (p := Prod.snd)
    | with_reducible apply Keep.foldlP (p := Prod.fst)
    | with_reducible apply Keep.foldlT
    | (refine Keep.snd (by assumption) ?_)
    | (refine Keep.fst (by assumption) ?_)
    | (refine Keep.thd (by assumption) ?_)
    | split
    | simp +zetaDelta only [Keep.mkIff]
    | assumption

theorem keep_frameBoundary {r : State} (n : Nat) (s : State) (h2 : Keep r s) :
    Keep r (frameBoundary n s) := by
  unfold frameBoundary
  try extract_lets
  repeat' first
    | with_reducible assumption
    | intro _
    | with_reducible apply keep_bucketsAt
    | with_reducible apply keep_modSlice
    | with_reducible apply keep_regPut
    | with_reducible apply keep_finishAll
    | with_reducible apply keep_weaveEnd
    | with_reducible apply keep_lanesAt
    | with_reducible apply keep_marksAt
    | with_reducible apply keep_contractsAt
    | with_reducible apply Keep.ite
    | (refine Keep.snd (by assumption) ?_)
    | (refine Keep.fst (by assumption) ?_)
    | (refine Keep.thd (by assumption) ?_)
    | split
    | simp only [Keep.mkIff]
    | (simp +zetaDelta only [KeepF.mkIff]; refine KeepF.of ?_)
    | simp +zetaDelta only [Keep.mkIff]
    | assumption

theorem keep_bindOn {r : State} (c : Cmd) (kind : Nat) (target : Nat) (s : State) (h4 : Keep r s) :
    Keep r (bindOn c kind target s) := by
  unfold bindOn
  try extract_lets
  repeat' first
    | with_reducible assumption
    | intro _
    | with_reducible apply keep_cmdRefuse
    | with_reducible apply keep_freshId
    | with_reducible apply keep_modCmd
    | with_reducible apply Keep.ite
    | (refine Keep.snd (by assumption) ?_)
    | (refine Keep.fst (by assumption) ?_)
    | (refine Keep.thd (by assumption) ?_)
    | split
    | simp only [Keep.mkIff]
    | (simp +zetaDelta only [KeepF.mkIff]; refine KeepF.of ?_)
    | simp +zetaDelta only [Keep.mkIff]
    | assumption

theorem keep_execContractBind {r : State} (cmd : Nat) (s : State) (h2 : Keep r s) :
    KeepOut r (execContractBind cmd s) := by
  unfold execContractBind
  try extract_lets
  repeat' first
    | with_reducible assumption
    | intro _
    | with_reducible apply KeepOut.next
    | with_reducible apply keep_startUnbind
    | with_reducible apply keep_modCmd
    | with_reducible apply keep_cmdDone
    | with_reducible apply keep_cmdRefuse
    | with_reducible apply keep_bindOn
    | with_reducible apply KeepOut.ite
    | with_reducible apply Keep.ite
    | (refine Keep.snd (by assumption) ?_)
    | (refine Keep.fst (by assumption) ?_)
    | (refine Keep.thd (by assumption) ?_)
    | split
    | simp +zetaDelta only [Keep.mkIff]
    | assumption

end Sys2Proof.Laws
end

