-- ==== Sys2Proof/Laws/KeepMaint.lean ====
section
/-! SUPPORT. Laws/KeepMaint.lean: the operations of Machine/Maint.lean keep what every effect keeps (Laws/Keep.lean). -/
namespace Sys2Proof.Laws
open Sys2Proof.Machine
set_option linter.all false
set_option Elab.async false

theorem keep_writeDest {r : State} (c : Cmd) (a : Nat) (align : Nat) (bs : List Byte) (st : Status) (count : Nat) (result : Nat) (more : State → State) (s : State) (h8 : ∀ a0, Keep r a0 → Keep r (more a0)) (h9 : Keep r s) :
    Keep r (writeDest c a align bs st count result more s) := by
  unfold writeDest
  try extract_lets
  repeat' first
    | with_reducible assumption
    | intro _
    | with_reducible apply h8
    | with_reducible apply keep_destRefuse
    | with_reducible apply keep_modCmd
    | with_reducible apply keep_whenAwake
    | with_reducible apply keep_cmdWrite
    | with_reducible apply keep_cmdDone
    | with_reducible apply Keep.ite
    | (refine Keep.snd (by assumption) ?_)
    | (refine Keep.fst (by assumption) ?_)
    | (refine Keep.thd (by assumption) ?_)
    | split
    | simp +zetaDelta only [Keep.mkIff]
    | assumption

theorem keep_execTelemetryRead {r : State} (cmd : Nat) (s : State) (h2 : Keep r s) :
    KeepOut r (execTelemetryRead cmd s) := by
  unfold execTelemetryRead
  try extract_lets
  repeat' first
    | with_reducible assumption
    | intro _
    | with_reducible apply KeepOut.next
    | with_reducible apply keep_writeDest
    | with_reducible apply keep_cmdRefuse
    | with_reducible apply KeepOut.ite
    | with_reducible apply Keep.ite
    | (refine Keep.snd (by assumption) ?_)
    | (refine Keep.fst (by assumption) ?_)
    | (refine Keep.thd (by assumption) ?_)
    | split
    | simp +zetaDelta only [Keep.mkIff]
    | assumption

theorem keep_repairUnit {r : State} (ag : Agent) (u : Nat) (s : State) (h3 : Keep r s) :
    Keep r (repairUnit ag u s).2 := by
  unfold repairUnit
  try extract_lets
  repeat' first
    | with_reducible assumption
    | intro _
    | with_reducible apply keep_noteFound
    | with_reducible apply keep_integAdd
    | (refine Keep.snd (by assumption) ?_)
    | (refine Keep.fst (by assumption) ?_)
    | (refine Keep.thd (by assumption) ?_)
    | split
    | simp only [Keep.mkIff]
    | (simp +zetaDelta only [KeepF.mkIff]; refine KeepF.of ?_)
    | simp +zetaDelta only [Keep.mkIff]
    | assumption

theorem keep_scrubKeys {r : State} (ctx : Nat) (ks : List Nat) (s : State) (h3 : Keep r s) :
    Keep r (scrubKeys ctx ks s).2 := by
  unfold scrubKeys
  try extract_lets
  repeat' first
    | with_reducible assumption
    | intro _
    | with_reducible apply keep_repairUnit
    | with_reducible apply Keep.foldl
    | with_reducible apply Keep.foldlP (p := Prod.snd)
    | with_reducible apply Keep.foldlP (p := Prod.fst)
    | with_reducible apply Keep.foldlT
    | (refine Keep.snd (by assumption) ?_)
    | (refine Keep.fst (by assumption) ?_)
    | (refine Keep.thd (by assumption) ?_)
    | split
    | simp +zetaDelta only [Keep.mkIff]
    | assumption

theorem keep_clearWaiters {r : State} (id : Nat) (s : State) (h2 : Keep r s) :
    Keep r (clearWaiters id s) := by
  unfold clearWaiters
  try extract_lets
  repeat' first
    | with_reducible assumption
    | intro _
    | with_reducible apply keep_finishPocket
    | with_reducible apply keep_finishDestroy
    | with_reducible apply keep_modChan
    | with_reducible apply Keep.ite
    | with_reducible apply Keep.foldl
    | with_reducible apply Keep.foldlP (p := Prod.snd)
    | with_reducible apply Keep.foldlP (p := Prod.fst)
    | with_reducible apply Keep.foldlT
    | split
    | simp +zetaDelta only [Keep.mkIff]
    | assumption

theorem keep_execClearDone {r : State} (id : Nat) (s : State) (h2 : Keep r s) :
    KeepOut r (execClearDone id s) := by
  have wf : ∀ (l : List (Nat × Nat × Nat)) (m : Mem), Memory.wf m = true → Memory.wf (l.foldl (fun m x => clearLines x.1 x.2.1 x.2.2 m) m) = true := by
    intro l
    induction l with
    | nil => exact fun m h => h
    | cons u l ih => exact fun m h => ih _ (memory_wf_clearLines _ _ _ h)
  unfold execClearDone
  split
  · exact KeepOut.next (keep_clearWaiters _ _ (Keep.mk2 h2 fun h => wf _ _ h))
  · exact KeepOut.next h2

theorem keep_scrubRange {r : State} (c : Cmd) (s : State) (h2 : Keep r s) :
    Keep r (scrubRange c s) := by
  unfold scrubRange
  try extract_lets
  repeat' first
    | with_reducible assumption
    | intro _
    | with_reducible apply keep_cmdRefuse
    | with_reducible apply keep_logCheck
    | with_reducible apply keep_logRegion
    | with_reducible apply keep_modCmd
    | with_reducible apply keep_whenAwake
    | with_reducible apply keep_scrubKeys
    | with_reducible apply keep_cmdDone
    | with_reducible apply Keep.ite
    | (refine Keep.snd (by assumption) ?_)
    | (refine Keep.fst (by assumption) ?_)
    | (refine Keep.thd (by assumption) ?_)
    | split
    | simp +zetaDelta only [Keep.mkIff]
    | assumption

theorem keep_execScrubCtl {r : State} (cmd : Nat) (s : State) (h2 : Keep r s) :
    KeepOut r (execScrubCtl cmd s) := by
  unfold execScrubCtl
  try extract_lets
  repeat' first
    | with_reducible assumption
    | intro _
    | with_reducible apply KeepOut.next
    | with_reducible apply keep_cmdDone
    | with_reducible apply keep_cmdRefuse
    | with_reducible apply keep_scrubRange
    | with_reducible apply KeepOut.ite
    | with_reducible apply Keep.ite
    | (refine Keep.snd (by assumption) ?_)
    | (refine Keep.fst (by assumption) ?_)
    | (refine Keep.thd (by assumption) ?_)
    | split
    | simp only [Keep.mkIff]
    | (simp +zetaDelta only [KeepF.mkIff]; refine KeepF.of ?_)
    | simp +zetaDelta only [Keep.mkIff]
    | assumption

theorem keep_endPass {r : State} (w : Bool) (s : State) (h2 : Keep r s) :
    Keep r (endPass w s) := by
  unfold endPass
  try extract_lets
  repeat' first
    | with_reducible assumption
    | intro _
    | with_reducible apply keep_integAdd
    | with_reducible apply Keep.ite
    | split
    | simp only [Keep.mkIff]
    | (simp +zetaDelta only [KeepF.mkIff]; refine KeepF.of ?_)
    | simp +zetaDelta only [Keep.mkIff]
    | assumption

theorem keep_darnSlice {r : State} (n : Nat) (k : Nat) (s : State) (h3 : Keep r s) :
    Keep r (darnSlice n k s) := by
  unfold darnSlice
  extract_lets lo hi sp keep own regs ownDone done z s1 fixPort
  have k0 : Keep r { s with regs := regs, w1done := done } :=
    KeepF.of h3 (h1 := fun h => keysRise_foldl _ (fun m e h => keysRise_minsert _ _ (Nat.zero_le _) h) own (keysRise_filter _ h))
      (h2 := fun h => keysRise_foldl _ (fun m e h => keysRise_minsert _ _ (Nat.zero_le _) h) ownDone (keysRise_filter _ h))
  have k1 : Keep r s1 := keep_modSlice _ _ _ k0
  exact KeepF.of k1 (h15 := fun h => keysRise_filter _ h) (h20 := fun h => keysRise_mput (d := fun _ => SlcPwr.zero) n (pwrOf s (64 + k)) h) (hm := (fun h => memory_wf_clearKeys _ (memory_wf_sys _ h fun h => mwf_mclear _ h)))

theorem keep_darnBank {r : State} (bank : Nat) (k : Nat) (s : State) (h3 : Keep r s) :
    Keep r (darnBank bank k s).2.2 := by
  unfold darnBank
  try extract_lets
  repeat' first
    | with_reducible assumption
    | intro _
    | with_reducible apply keep_repairUnit
    | with_reducible apply keep_modSlice
    | with_reducible apply keep_integAdd
    | with_reducible apply Keep.iteS
    | with_reducible apply Keep.ite
    | with_reducible apply Keep.foldl
    | with_reducible apply Keep.foldlP (p := Prod.snd)
    | with_reducible apply Keep.foldlP (p := Prod.fst)
    | with_reducible apply Keep.foldlT
    | (refine Keep.snd (by assumption) ?_)
    | (refine Keep.fst (by assumption) ?_)
    | (refine Keep.thd (by assumption) ?_)
    | split
    | simp +zetaDelta only [Keep.mkIff]
    | assumption

theorem keep_darnNow {r : State} (bank : Nat) (k : Nat) (s : State) (h3 : Keep r s) :
    Keep r (darnNow bank k s) := by
  unfold darnNow
  try extract_lets
  repeat' first
    | with_reducible assumption
    | intro _
    | with_reducible apply keep_darnBank
    | with_reducible apply keep_cmdDone
    | with_reducible apply keep_report
    | with_reducible apply keep_modSlice
    | with_reducible apply Keep.ite
    | with_reducible apply Keep.foldl
    | with_reducible apply Keep.foldlP (p := Prod.snd)
    | with_reducible apply Keep.foldlP (p := Prod.fst)
    | with_reducible apply Keep.foldlT
    | (refine Keep.snd (by assumption) ?_)
    | (refine Keep.fst (by assumption) ?_)
    | (refine Keep.thd (by assumption) ?_)
    | split
    | simp +zetaDelta only [Keep.mkIff]
    | assumption

theorem keep_execDarn {r : State} (cmd : Nat) (s : State) (h2 : Keep r s) :
    KeepOut r (execDarn cmd s) := by
  unfold execDarn
  try extract_lets
  repeat' first
    | with_reducible assumption
    | intro _
    | with_reducible apply KeepOut.next
    | with_reducible apply keep_cmdDone
    | with_reducible apply keep_cmdRefuse
    | with_reducible apply keep_whenAwake
    | with_reducible apply keep_darnNow
    | with_reducible apply keep_raiseSvc
    | with_reducible apply keep_darnSlice
    | with_reducible apply KeepOut.ite
    | with_reducible apply Keep.ite
    | (refine Keep.snd (by assumption) ?_)
    | (refine Keep.fst (by assumption) ?_)
    | (refine Keep.thd (by assumption) ?_)
    | split
    | simp +zetaDelta only [Keep.mkIff]
    | assumption

theorem keep_darnStep {r : State} (s : State) (bank : Nat) (h1 : Keep r s) :
    Keep r (darnStep s bank) := by
  unfold darnStep
  try extract_lets
  repeat' first
    | with_reducible assumption
    | intro _
    | with_reducible apply keep_darnNow
    | with_reducible apply keep_raiseSvc
    | with_reducible apply keep_modSlice
    | with_reducible apply Keep.ite
    | (refine Keep.snd (by assumption) ?_)
    | (refine Keep.fst (by assumption) ?_)
    | (refine Keep.thd (by assumption) ?_)
    | split
    | simp +zetaDelta only [Keep.mkIff]
    | assumption

theorem keep_execScrubAutoResume {r : State} (s : State) (h1 : Keep r s) :
    KeepOut r (execScrubAutoResume s) := by
  unfold execScrubAutoResume
  try extract_lets
  repeat' first
    | with_reducible assumption
    | intro _
    | with_reducible apply KeepOut.next
    | with_reducible apply keep_timeTo
    | (refine Keep.snd (by assumption) ?_)
    | (refine Keep.fst (by assumption) ?_)
    | (refine Keep.thd (by assumption) ?_)
    | split
    | simp only [Keep.mkIff]
    | (simp +zetaDelta only [KeepF.mkIff]; refine KeepF.of ?_)
    | simp +zetaDelta only [Keep.mkIff]
    | assumption

theorem keep_replaceLane {r : State} (n : Nat) (l : Nat) (s : State) (h3 : Keep r s) :
    Keep r (replaceLane n l s) := by
  unfold replaceLane
  try extract_lets
  repeat' first
    | with_reducible assumption
    | intro _
    | with_reducible apply keep_modSlice
    | with_reducible apply Keep.ite
    | split
    | simp +zetaDelta only [Keep.mkIff]
    | assumption

theorem keep_autoDarn {r : State} (bank : Nat) (s : State) (h2 : Keep r s) :
    Keep r (autoDarn bank s) := by
  unfold autoDarn
  try extract_lets
  repeat' first
    | with_reducible assumption
    | intro _
    | with_reducible apply keep_modSlice
    | with_reducible apply keep_raiseSvc
    | with_reducible apply Keep.ite
    | split
    | simp +zetaDelta only [Keep.mkIff]
    | assumption

theorem keep_autoMarks {r : State} (n : Nat) (s : State) (h2 : Keep r s) :
    Keep r (autoMarks n s) := by
  unfold autoMarks
  try extract_lets
  repeat' first
    | with_reducible assumption
    | intro _
    | with_reducible apply keep_autoDarn
    | with_reducible apply Keep.ite
    | with_reducible apply Keep.foldl
    | with_reducible apply Keep.foldlP (p := Prod.snd)
    | with_reducible apply Keep.foldlP (p := Prod.fst)
    | with_reducible apply Keep.foldlT
    | split
    | simp +zetaDelta only [Keep.mkIff]
    | assumption

theorem keep_execSeamCalibration {r : State} (n : Nat) (tier : Nat) (weak : List Nat) (s : State) (h4 : Keep r s) :
    KeepOut r (execSeamCalibration n tier weak s) := by
  unfold execSeamCalibration
  try extract_lets
  repeat' first
    | with_reducible assumption
    | intro _
    | with_reducible apply KeepOut.next
    | with_reducible apply keep_replaceLane
    | with_reducible apply KeepOut.ite
    | with_reducible apply Keep.ite
    | with_reducible apply Keep.foldl
    | with_reducible apply Keep.foldlP (p := Prod.snd)
    | with_reducible apply Keep.foldlP (p := Prod.fst)
    | with_reducible apply Keep.foldlT
    | split
    | simp +zetaDelta only [Keep.mkIff]
    | assumption

theorem keep_darnSteps {r : State} (s : State) (h1 : Keep r s) :
    Keep r (darnSteps s) := by
  unfold darnSteps
  try extract_lets
  repeat' first
    | with_reducible assumption
    | intro _
    | with_reducible apply keep_darnStep
    | with_reducible apply Keep.foldl
    | with_reducible apply Keep.foldlP (p := Prod.snd)
    | with_reducible apply Keep.foldlP (p := Prod.fst)
    | with_reducible apply Keep.foldlT
    | simp +zetaDelta only [Keep.mkIff]
    | assumption

theorem keep_execFrameBoundary {r : State} (n : Nat) (s : State) (h2 : Keep r s) :
    KeepOut r (execFrameBoundary n s) := by
  unfold execFrameBoundary
  try extract_lets
  repeat' first
    | with_reducible assumption
    | intro _
    | with_reducible apply KeepOut.next
    | with_reducible apply keep_autoMarks
    | with_reducible apply keep_frameBoundary
    | with_reducible apply KeepOut.ite
    | with_reducible apply Keep.ite
    | split
    | simp +zetaDelta only [Keep.mkIff]
    | assumption

theorem keep_execSeamParityError {r : State} (n : Nat) (tier : Nat) (lane : Nat) (up : Bool) (id : Nat) (s : State) (h6 : Keep r s) :
    KeepOut r (execSeamParityError n tier lane up id s) := by
  unfold execSeamParityError
  try extract_lets
  repeat' first
    | with_reducible assumption
    | intro _
    | with_reducible apply KeepOut.next
    | with_reducible apply keep_replaceLane
    | with_reducible apply keep_integAdd
    | with_reducible apply keep_modWb
    | with_reducible apply keep_report
    | with_reducible apply keep_modOp
    | with_reducible apply keep_nmuFault
    | with_reducible apply keep_poolParity
    | with_reducible apply KeepOut.ite
    | with_reducible apply Keep.ite
    | with_reducible apply Keep.foldl
    | with_reducible apply Keep.foldlP (p := Prod.snd)
    | with_reducible apply Keep.foldlP (p := Prod.fst)
    | with_reducible apply Keep.foldlT
    | (refine Keep.snd (by assumption) ?_)
    | (refine Keep.fst (by assumption) ?_)
    | (refine Keep.thd (by assumption) ?_)
    | split
    | simp +zetaDelta only [Keep.mkIff]
    | assumption

theorem keep_execLogRead {r : State} (cmd : Nat) (s : State) (h2 : Keep r s) :
    KeepOut r (execLogRead cmd s) := by
  unfold execLogRead
  try extract_lets
  repeat' first
    | with_reducible assumption
    | intro _
    | with_reducible apply KeepOut.next
    | with_reducible apply keep_writeDest
    | with_reducible apply keep_cmdRefuse
    | with_reducible apply KeepOut.ite
    | with_reducible apply Keep.ite
    | (refine Keep.snd (by assumption) ?_)
    | (refine Keep.fst (by assumption) ?_)
    | (refine Keep.thd (by assumption) ?_)
    | split
    | simp only [Keep.mkIff]
    | (simp +zetaDelta only [KeepF.mkIff]; refine KeepF.of ?_)
    | simp +zetaDelta only [Keep.mkIff]
    | assumption

theorem keep_execPatrolScrub {r : State} (bank : Nat) (line : Nat) (beat : Nat) (s : State) (h4 : Keep r s) :
    KeepOut r (execPatrolScrub bank line beat s) := by
  unfold execPatrolScrub
  try extract_lets
  repeat' first
    | with_reducible assumption
    | intro _
    | with_reducible apply KeepOut.next
    | with_reducible apply keep_repairUnit
    | with_reducible apply keep_autoDarn
    | with_reducible apply keep_endPass
    | with_reducible apply KeepOut.ite
    | with_reducible apply Keep.ite
    | with_reducible apply Keep.foldl
    | with_reducible apply Keep.foldlP (p := Prod.snd)
    | with_reducible apply Keep.foldlP (p := Prod.fst)
    | with_reducible apply Keep.foldlT
    | (refine Keep.snd (by assumption) ?_)
    | (refine Keep.fst (by assumption) ?_)
    | (refine Keep.thd (by assumption) ?_)
    | split
    | simp only [Keep.mkIff]
    | (simp +zetaDelta only [KeepF.mkIff]; refine KeepF.of ?_)
    | simp +zetaDelta only [Keep.mkIff]
    | assumption

theorem keep_execLogRecord {r : State} (s : State) (h1 : Keep r s) :
    KeepOut r (execLogRecord s) := by
  unfold execLogRecord
  try extract_lets
  repeat' first
    | with_reducible assumption
    | intro _
    | with_reducible apply KeepOut.next
    | with_reducible apply KeepOut.ite
    | with_reducible apply Keep.ite
    | (refine Keep.snd (by assumption) ?_)
    | (refine Keep.fst (by assumption) ?_)
    | (refine Keep.thd (by assumption) ?_)
    | split
    | simp only [Keep.mkIff]
    | (simp +zetaDelta only [KeepF.mkIff]; refine KeepF.of ?_)
    | simp +zetaDelta only [Keep.mkIff]
    | assumption

end Sys2Proof.Laws
end

