-- ==== Sys2Proof/Laws/KeepMeter.lean ====
section
/-! SUPPORT. Laws/KeepMeter.lean: the operations of Machine/Meter.lean keep what every effect keeps (Laws/Keep.lean). -/
namespace Sys2Proof.Laws
open Sys2Proof.Machine
set_option linter.all false
set_option Elab.async false

theorem keep_modMeter {r : State} (f : MeterState → MeterState) (s : State) (h2 : Keep r s) :
    Keep r (modMeter f s) := by
  unfold modMeter
  try extract_lets
  repeat' first
    | with_reducible assumption
    | intro _
    | simp only [Keep.mkIff]
    | (simp +zetaDelta only [KeepF.mkIff]; refine KeepF.of ?_)
    | simp +zetaDelta only [Keep.mkIff]
    | assumption

theorem keep_audit {r : State} (code : Nat) (ix : Nat) (src : Bool) (v : Nat) (s : State) (h5 : Keep r s) :
    Keep r (audit code ix src v s) := by
  unfold audit
  try extract_lets
  repeat' first
    | with_reducible assumption
    | intro _
    | with_reducible apply keep_modMeter
    | with_reducible apply Keep.ite
    | split
    | simp +zetaDelta only [Keep.mkIff]
    | assumption

theorem keep_tampered {r : State} (s : State) (h1 : Keep r s) :
    Keep r (tampered s) := by
  unfold tampered
  try extract_lets
  repeat' first
    | with_reducible assumption
    | intro _
    | with_reducible apply keep_modMeter
    | simp +zetaDelta only [Keep.mkIff]
    | assumption

theorem keep_paramWrite {r : State} (ix : Nat) (v : Nat) (bad : Bool) (store : MeterState → MeterState) (s : State) (h5 : Keep r s) :
    Keep r (paramWrite ix v bad store s) := by
  unfold paramWrite
  try extract_lets
  repeat' first
    | with_reducible assumption
    | intro _
    | with_reducible apply keep_audit
    | with_reducible apply keep_tampered
    | with_reducible apply keep_modMeter
    | with_reducible apply Keep.ite
    | split
    | simp +zetaDelta only [Keep.mkIff]
    | assumption

theorem keep_labelParam {r : State} (v : Nat) (s : State) (h2 : Keep r s) :
    Keep r (labelParam v s) := by
  unfold labelParam
  try extract_lets
  repeat' first
    | with_reducible assumption
    | intro _
    | with_reducible apply keep_paramWrite
    | simp +zetaDelta only [Keep.mkIff]
    | assumption

theorem keep_execMtrLabel {r : State} (v : DWord) (s : State) (h2 : Keep r s) :
    KeepOut r (execMtrLabel v s) := by
  unfold execMtrLabel
  try extract_lets
  repeat' first
    | with_reducible assumption
    | intro _
    | with_reducible apply KeepOut.next
    | with_reducible apply keep_labelParam
    | simp +zetaDelta only [Keep.mkIff]
    | assumption

theorem keep_sealParam {r : State} (v : Nat) (s : State) (h2 : Keep r s) :
    Keep r (sealParam v s) := by
  unfold sealParam
  try extract_lets
  repeat' first
    | with_reducible assumption
    | intro _
    | with_reducible apply keep_paramWrite
    | with_reducible apply keep_audit
    | with_reducible apply Keep.ite
    | split
    | simp +zetaDelta only [Keep.mkIff]
    | assumption

theorem keep_execMtrSeal {r : State} (v : Word) (s : State) (h2 : Keep r s) :
    KeepOut r (execMtrSeal v s) := by
  unfold execMtrSeal
  try extract_lets
  repeat' first
    | with_reducible assumption
    | intro _
    | with_reducible apply KeepOut.next
    | with_reducible apply keep_sealParam
    | simp +zetaDelta only [Keep.mkIff]
    | assumption

theorem keep_mirrorWrite {r : State} (v : Nat) (size8 : Bool) (by_ : RegBy) (addr : Nat) (s : State) (h5 : Keep r s) :
    Keep r (mirrorWrite v size8 by_ addr s).2 := by
  unfold mirrorWrite
  try extract_lets
  repeat' first
    | with_reducible assumption
    | intro _
    | with_reducible apply keep_logEvent
    | with_reducible apply keep_audit
    | with_reducible apply keep_tampered
    | with_reducible apply Keep.iteS
    | with_reducible apply Keep.ite
    | split
    | simp +zetaDelta only [Keep.mkIff]
    | assumption

theorem keep_execMeterGapEnd {r : State} (s : State) (h1 : Keep r s) :
    KeepOut r (execMeterGapEnd s) := by
  unfold execMeterGapEnd
  try extract_lets
  repeat' first
    | with_reducible assumption
    | intro _
    | with_reducible apply KeepOut.next
    | with_reducible apply keep_audit
    | with_reducible apply keep_modMeter
    | with_reducible apply KeepOut.ite
    | with_reducible apply Keep.ite
    | split
    | simp +zetaDelta only [Keep.mkIff]
    | assumption

theorem keep_execMeterAllocation {r : State} (s : State) (h1 : Keep r s) :
    KeepOut r (execMeterAllocation s) := by
  unfold execMeterAllocation
  try extract_lets
  repeat' first
    | with_reducible assumption
    | intro _
    | with_reducible apply KeepOut.next
    | with_reducible apply keep_modMeter
    | with_reducible apply KeepOut.ite
    | with_reducible apply Keep.ite
    | with_reducible apply Keep.foldl
    | with_reducible apply Keep.foldlP (p := Prod.snd)
    | with_reducible apply Keep.foldlP (p := Prod.fst)
    | with_reducible apply Keep.foldlT
    | (refine Keep.snd (by assumption) ?_)
    | (refine Keep.fst (by assumption) ?_)
    | (refine Keep.thd (by assumption) ?_)
    | split
    | simp +zetaDelta only [Keep.mkIff]
    | assumption

theorem keep_execMeterGapStart {r : State} (s : State) (h1 : Keep r s) :
    KeepOut r (execMeterGapStart s) := by
  unfold execMeterGapStart
  try extract_lets
  repeat' first
    | with_reducible assumption
    | intro _
    | with_reducible apply KeepOut.next
    | with_reducible apply keep_audit
    | with_reducible apply keep_modMeter
    | with_reducible apply KeepOut.ite
    | with_reducible apply Keep.ite
    | split
    | simp +zetaDelta only [Keep.mkIff]
    | assumption

theorem keep_execMeterRecordReady {r : State} (s : State) (h1 : Keep r s) :
    KeepOut r (execMeterRecordReady s) := by
  unfold execMeterRecordReady
  try extract_lets
  repeat' first
    | with_reducible assumption
    | intro _
    | with_reducible apply KeepOut.next
    | with_reducible apply keep_drawFree
    | with_reducible apply keep_modMeter
    | with_reducible apply keep_emit
    | with_reducible apply keep_touchAll
    | with_reducible apply keep_writeDest
    | with_reducible apply KeepOut.ite
    | with_reducible apply Keep.ite
    | (refine Keep.snd (by assumption) ?_)
    | (refine Keep.fst (by assumption) ?_)
    | (refine Keep.thd (by assumption) ?_)
    | split
    | simp +zetaDelta only [Keep.mkIff]
    | assumption

theorem keep_execMeterRead {r : State} (cmd : Nat) (s : State) (h2 : Keep r s) :
    KeepOut r (execMeterRead cmd s) := by
  unfold execMeterRead
  try extract_lets
  repeat' first
    | with_reducible assumption
    | intro _
    | with_reducible apply KeepOut.next
    | with_reducible apply keep_cmdRefuse
    | with_reducible apply keep_destRefuse
    | with_reducible apply keep_modCmd
    | with_reducible apply keep_modMeter
    | with_reducible apply KeepOut.ite
    | with_reducible apply Keep.ite
    | (refine Keep.snd (by assumption) ?_)
    | (refine Keep.fst (by assumption) ?_)
    | (refine Keep.thd (by assumption) ?_)
    | split
    | simp +zetaDelta only [Keep.mkIff]
    | assumption

theorem keep_execMeterSample {r : State} (energies : List Nat) (s : State) (h2 : Keep r s) :
    KeepOut r (execMeterSample energies s) := by
  unfold execMeterSample
  try extract_lets
  repeat' first
    | with_reducible assumption
    | intro _
    | with_reducible apply KeepOut.next
    | with_reducible apply keep_modMeter
    | with_reducible apply KeepOut.ite
    | with_reducible apply Keep.ite
    | with_reducible apply Keep.foldl
    | with_reducible apply Keep.foldlP (p := Prod.snd)
    | with_reducible apply Keep.foldlP (p := Prod.fst)
    | with_reducible apply Keep.foldlT
    | split
    | simp only [Keep.mkIff]
    | (simp +zetaDelta only [KeepF.mkIff]; refine KeepF.of ?_)
    | simp +zetaDelta only [Keep.mkIff]
    | assumption

theorem keep_execMeterSelfCheck {r : State} (deviating : List Nat) (s : State) (h2 : Keep r s) :
    KeepOut r (execMeterSelfCheck deviating s) := by
  unfold execMeterSelfCheck
  try extract_lets
  repeat' first
    | with_reducible assumption
    | intro _
    | with_reducible apply KeepOut.next
    | with_reducible apply keep_audit
    | with_reducible apply keep_tampered
    | with_reducible apply keep_modMeter
    | with_reducible apply KeepOut.ite
    | with_reducible apply Keep.ite
    | with_reducible apply Keep.foldl
    | with_reducible apply Keep.foldlP (p := Prod.snd)
    | with_reducible apply Keep.foldlP (p := Prod.fst)
    | with_reducible apply Keep.foldlT
    | split
    | simp +zetaDelta only [Keep.mkIff]
    | assumption

theorem keep_cfgParam {r : State} (v : Nat) (s : State) (h2 : Keep r s) :
    Keep r (cfgParam v s) := by
  unfold cfgParam
  try extract_lets
  repeat' first
    | with_reducible assumption
    | intro _
    | with_reducible apply keep_paramWrite
    | simp +zetaDelta only [Keep.mkIff]
    | assumption

theorem keep_execMtrCfg {r : State} (v : Word) (s : State) (h2 : Keep r s) :
    KeepOut r (execMtrCfg v s) := by
  unfold execMtrCfg
  try extract_lets
  repeat' first
    | with_reducible assumption
    | intro _
    | with_reducible apply KeepOut.next
    | with_reducible apply keep_cfgParam
    | simp +zetaDelta only [Keep.mkIff]
    | assumption

theorem keep_paramBytes {r : State} (ix : Nat) (v : List Byte) (s : State) (h3 : Keep r s) :
    Keep r (paramBytes ix v s) := by
  unfold paramBytes
  try extract_lets
  repeat' first
    | with_reducible assumption
    | intro _
    | with_reducible apply keep_audit
    | with_reducible apply keep_cfgParam
    | with_reducible apply keep_labelParam
    | with_reducible apply keep_sealParam
    | with_reducible apply Keep.ite
    | split
    | simp +zetaDelta only [Keep.mkIff]
    | assumption

theorem keep_execMeterRecordRequest {r : State} (bytes : List Byte) (s : State) (h2 : Keep r s) :
    KeepOut r (execMeterRecordRequest bytes s) := by
  unfold execMeterRecordRequest
  try extract_lets
  repeat' first
    | with_reducible assumption
    | intro _
    | with_reducible apply KeepOut.next
    | with_reducible apply keep_modMeter
    | with_reducible apply keep_paramBytes
    | with_reducible apply KeepOut.ite
    | with_reducible apply Keep.ite
    | split
    | simp +zetaDelta only [Keep.mkIff]
    | assumption

end Sys2Proof.Laws
end

