-- ==== Sys2Proof/Laws/KeepMoverRows.lean ====
section
/-! SUPPORT. Laws/KeepMoverRows.lean: the operations of Machine/MoverRows.lean keep what every effect keeps (Laws/Keep.lean). -/
namespace Sys2Proof.Laws
open Sys2Proof.Machine
set_option linter.all false
set_option Elab.async false

theorem keep_spillNow {r : State} (n : Nat) (m : Nat) (c : Nat) (ctx : Nat) (x : Ctx) (st : Store) (pk : Nat) (img : Nat) (s : State) (h9 : Keep r s) :
    Keep r (spillNow n m c ctx x st pk img s) := by
  unfold spillNow
  try extract_lets
  repeat' first
    | with_reducible assumption
    | intro _
    | with_reducible apply keep_dropReuse
    | with_reducible apply keep_modCtx
    | with_reducible apply keep_readRng
    | with_reducible apply keep_extStore
    | with_reducible apply keep_teleAdd
    | with_reducible apply keep_startClear
    | with_reducible apply keep_modChan
    | with_reducible apply Keep.ite
    | (refine Keep.snd (by assumption) ?_)
    | (refine Keep.fst (by assumption) ?_)
    | (refine Keep.thd (by assumption) ?_)
    | split
    | simp +zetaDelta only [Keep.mkIff]
    | assumption

theorem keep_spillDrain {r : State} (n : Nat) (m : Nat) (c : Nat) (ctx : Nat) (x : Ctx) (st : Store) (pk : Nat) (img : Nat) (s : State) (h9 : Keep r s) :
    Keep r (spillDrain n m c ctx x st pk img s) := by
  unfold spillDrain
  try extract_lets
  repeat' first
    | with_reducible assumption
    | intro _
    | with_reducible apply keep_drainPocket
    | with_reducible apply keep_modChan
    | with_reducible apply keep_spillNow
    | with_reducible apply Keep.ite
    | split
    | simp +zetaDelta only [Keep.mkIff]
    | assumption

theorem keep_chanStart {r : State} (n : Nat) (m : Nat) (c : Nat) (s : State) (h4 : Keep r s) :
    Keep r (chanStart n m c s).2 := by
  unfold chanStart
  try extract_lets
  repeat' first
    | with_reducible assumption
    | intro _
    | with_reducible apply keep_modChan
    | with_reducible apply Keep.iteS
    | with_reducible apply Keep.ite
    | split
    | simp +zetaDelta only [Keep.mkIff]
    | assumption

theorem keep_mchCtlWrite {r : State} (n : Nat) (m : Nat) (c : Nat) (v : Nat) (by_ : RegBy) (s : State) (h6 : Keep r s) :
    Keep r (mchCtlWrite n m c v by_ s).2 := by
  unfold mchCtlWrite
  try extract_lets
  repeat' first
    | with_reducible assumption
    | intro _
    | with_reducible apply keep_reservedReg
    | with_reducible apply keep_dropReg
    | with_reducible apply keep_chanStart
    | with_reducible apply keep_regPut
    | with_reducible apply keep_touch
    | with_reducible apply keep_modChan
    | with_reducible apply keep_beginStop
    | with_reducible apply Keep.iteS
    | with_reducible apply Keep.ite
    | (refine Keep.snd (by assumption) ?_)
    | (refine Keep.fst (by assumption) ?_)
    | (refine Keep.thd (by assumption) ?_)
    | split
    | simp +zetaDelta only [Keep.mkIff]
    | assumption

theorem keep_mchParamWrite {r : State} (n : Nat) (m : Nat) (c : Nat) (off : Nat) (v : Nat) (by_ : RegBy) (s : State) (h7 : Keep r s) :
    Keep r (mchParamWrite n m c off v by_ s).2 := by
  unfold mchParamWrite
  try extract_lets
  repeat' first
    | with_reducible assumption
    | intro _
    | with_reducible apply keep_dropReg
    | with_reducible apply keep_regPut
    | with_reducible apply Keep.iteS
    | with_reducible apply Keep.ite
    | split
    | simp +zetaDelta only [Keep.mkIff]
    | assumption

theorem keep_rowMoved {r : State} (n : Nat) (m : Nat) (c : Nat) (ctx : Nat) (p : Piece) (s : State) (h6 : Keep r s) :
    Keep r (rowMoved n m c ctx p s) := by
  unfold rowMoved
  try extract_lets
  repeat' first
    | with_reducible assumption
    | intro _
    | with_reducible apply keep_modChan
    | with_reducible apply keep_recordMiss
    | with_reducible apply Keep.ite
    | (refine Keep.snd (by assumption) ?_)
    | (refine Keep.fst (by assumption) ?_)
    | (refine Keep.thd (by assumption) ?_)
    | split
    | simp +zetaDelta only [Keep.mkIff]
    | assumption

theorem keep_retireExt {r : State} (n : Nat) (m : Nat) (c : Nat) (ctx : Nat) (x : Ctx) (p : Piece) (s : State) (h7 : Keep r s) :
    Keep r (retireExt n m c ctx x p s) := by
  unfold retireExt
  try extract_lets
  repeat' first
    | with_reducible assumption
    | intro _
    | with_reducible apply keep_extStore
    | with_reducible apply keep_teleAdd
    | with_reducible apply keep_failNow
    | with_reducible apply Keep.ite
    | (refine Keep.snd (by assumption) ?_)
    | (refine Keep.fst (by assumption) ?_)
    | (refine Keep.thd (by assumption) ?_)
    | split
    | simp +zetaDelta only [Keep.mkIff]
    | assumption

theorem keep_stageOverflow {r : State} (n : Nat) (m : Nat) (s : State) (h3 : Keep r s) :
    Keep r (stageOverflow n m s) := by
  unfold stageOverflow
  try extract_lets
  repeat' first
    | with_reducible assumption
    | intro _
    | with_reducible apply keep_drainList
    | simp +zetaDelta only [Keep.mkIff]
    | assumption

theorem keep_stagePart {r : State} (n : Nat) (m : Nat) (c : Nat) (ctx : Nat) (base : Nat) (bs : List (Nat × Byte)) (s : State) (h7 : Keep r s) :
    Keep r (stagePart n m c ctx base bs s) := by
  unfold stagePart
  try extract_lets
  repeat' first
    | with_reducible assumption
    | intro _
    | with_reducible apply keep_setStage
    | with_reducible apply keep_freshId
    | with_reducible apply Keep.foldl
    | with_reducible apply Keep.foldlP (p := Prod.snd)
    | with_reducible apply Keep.foldlP (p := Prod.fst)
    | with_reducible apply Keep.foldlT
    | (refine Keep.snd (by assumption) ?_)
    | (refine Keep.fst (by assumption) ?_)
    | (refine Keep.thd (by assumption) ?_)
    | split
    | simp +zetaDelta only [Keep.mkIff]
    | assumption

theorem keep_retireRange {r : State} (n : Nat) (m : Nat) (c : Nat) (ctx : Nat) (x : Ctx) (g : Bool) (base : Nat) (bs : List (Nat × Byte)) (s : State) (h9 : Keep r s) :
    Keep r (retireRange n m c ctx x g base bs s) := by
  unfold retireRange
  try extract_lets
  repeat' first
    | with_reducible assumption
    | intro _
    | with_reducible apply keep_drainList
    | with_reducible apply keep_writeBytes
    | with_reducible apply keep_teleMove
    | with_reducible apply keep_failNow
    | with_reducible apply keep_stageOverflow
    | with_reducible apply keep_stagePart
    | with_reducible apply Keep.ite
    | (refine Keep.snd (by assumption) ?_)
    | (refine Keep.fst (by assumption) ?_)
    | (refine Keep.thd (by assumption) ?_)
    | split
    | simp +zetaDelta only [Keep.mkIff]
    | assumption

theorem keep_retireStore {r : State} (n : Nat) (m : Nat) (c : Nat) (ctx : Nat) (x : Ctx) (p : Piece) (s : State) (h7 : Keep r s) :
    Keep r (retireStore n m c ctx x p s) := by
  unfold retireStore
  try extract_lets
  repeat' first
    | with_reducible assumption
    | intro _
    | with_reducible apply keep_retireRange
    | with_reducible apply Keep.foldl
    | with_reducible apply Keep.foldlP (p := Prod.snd)
    | with_reducible apply Keep.foldlP (p := Prod.fst)
    | with_reducible apply Keep.foldlT
    | (refine Keep.snd (by assumption) ?_)
    | (refine Keep.fst (by assumption) ?_)
    | (refine Keep.thd (by assumption) ?_)
    | split
    | simp +zetaDelta only [Keep.mkIff]
    | assumption

theorem keep_retireOn {r : State} (n : Nat) (m : Nat) (c : Nat) (x : Ctx) (p : Piece) (s : State) (h6 : Keep r s) :
    Keep r (retireOn n m c x p s) := by
  unfold retireOn
  try extract_lets
  repeat' first
    | with_reducible assumption
    | intro _
    | with_reducible apply keep_failNow
    | with_reducible apply keep_modChan
    | with_reducible apply keep_rowMoved
    | with_reducible apply keep_retireExt
    | with_reducible apply keep_retireStore
    | with_reducible apply Keep.ite
    | (refine Keep.snd (by assumption) ?_)
    | (refine Keep.fst (by assumption) ?_)
    | (refine Keep.thd (by assumption) ?_)
    | split
    | simp +zetaDelta only [Keep.mkIff]
    | assumption

theorem keep_chanWait {r : State} (n : Nat) (m : Nat) (c : Nat) (ph : Nat) (ch : Chan) (ws : List Word) (s : State) (h7 : Keep r s) :
    Keep r (chanWait n m c ph ch ws s) := by
  unfold chanWait
  try extract_lets
  repeat' first
    | with_reducible assumption
    | intro _
    | with_reducible apply keep_oweHalt
    | with_reducible apply keep_modChan
    | with_reducible apply keep_putCounter
    | with_reducible apply keep_freshId
    | with_reducible apply Keep.ite
    | (refine Keep.snd (by assumption) ?_)
    | (refine Keep.fst (by assumption) ?_)
    | (refine Keep.thd (by assumption) ?_)
    | split
    | simp only [Keep.mkIff]
    | (simp +zetaDelta only [KeepF.mkIff]; refine KeepF.of ?_)
    | simp +zetaDelta only [Keep.mkIff]
    | assumption

theorem keep_execPieceRetire {r : State} (n : Nat) (m : Nat) (c : Nat) (s : State) (h4 : Keep r s) :
    KeepOut r (execPieceRetire n m c s) := by
  unfold execPieceRetire
  try extract_lets
  repeat' first
    | with_reducible assumption
    | intro _
    | with_reducible apply KeepOut.next
    | with_reducible apply keep_whenAwake
    | with_reducible apply keep_retireOn
    | with_reducible apply KeepOut.ite
    | with_reducible apply Keep.ite
    | (refine Keep.snd (by assumption) ?_)
    | (refine Keep.fst (by assumption) ?_)
    | (refine Keep.thd (by assumption) ?_)
    | split
    | simp +zetaDelta only [Keep.mkIff]
    | assumption

theorem keep_chanAwake {r : State} (n : Nat) (m : Nat) (c : Nat) (more : List Nat) (s : State) (f : State → State) (h5 : Keep r s) (h6 : ∀ a0, Keep r a0 → Keep r (f a0)) :
    Keep r (chanAwake n m c more s f) := by
  unfold chanAwake
  try extract_lets
  repeat' first
    | with_reducible assumption
    | intro _
    | with_reducible apply h6
    | with_reducible apply keep_whenAwake
    | with_reducible apply Keep.ite
    | split
    | simp +zetaDelta only [Keep.mkIff]
    | assumption

theorem keep_chanEnd {r : State} (n : Nat) (m : Nat) (c : Nat) (s : State) (h4 : Keep r s) :
    Keep r (chanEnd n m c s) := by
  unfold chanEnd
  try extract_lets
  repeat' first
    | with_reducible assumption
    | intro _
    | with_reducible apply keep_drainChan
    | with_reducible apply keep_modChan
    | with_reducible apply Keep.ite
    | split
    | simp +zetaDelta only [Keep.mkIff]
    | assumption

theorem keep_execMoverEnd {r : State} (n : Nat) (m : Nat) (c : Nat) (s : State) (h4 : Keep r s) :
    KeepOut r (execMoverEnd n m c s) := by
  unfold execMoverEnd
  try extract_lets
  repeat' first
    | with_reducible assumption
    | intro _
    | with_reducible apply KeepOut.next
    | with_reducible apply keep_chanAwake
    | with_reducible apply keep_chanEnd
    | with_reducible apply KeepOut.ite
    | with_reducible apply Keep.ite
    | (refine Keep.snd (by assumption) ?_)
    | (refine Keep.fst (by assumption) ?_)
    | (refine Keep.thd (by assumption) ?_)
    | split
    | simp +zetaDelta only [Keep.mkIff]
    | assumption

theorem keep_admitRow {r : State} (n : Nat) (m : Nat) (c : Nat) (x : Ctx) (ch : Chan) (ws : List Word) (a : Rng) (b : Rng) (s : State) (h9 : Keep r s) :
    Keep r (admitRow n m c x ch ws a b s) := by
  unfold admitRow
  try extract_lets
  repeat' first
    | with_reducible assumption
    | intro _
    | with_reducible apply keep_modChan
    | with_reducible apply keep_gTele
    | with_reducible apply keep_gTake
    | with_reducible apply Keep.ite
    | (refine Keep.snd (by assumption) ?_)
    | (refine Keep.fst (by assumption) ?_)
    | (refine Keep.thd (by assumption) ?_)
    | split
    | simp +zetaDelta only [Keep.mkIff]
    | assumption

theorem keep_readPiece {r : State} (n : Nat) (m : Nat) (c : Nat) (x : Ctx) (ws : List Word) (s : State) (h6 : Keep r s) :
    Keep r (readPiece n m c x ws s) := by
  unfold readPiece
  dsimp only
  split
  · next a b _ _ =>
    split
    · exact keep_oweHalt _ _ _ _ _ _ h6
    · split
      · exact h6
      · have k1 := keep_admitRow n m c x (chanOf s n m c) ws a b _ h6
        split
        · exact keep_oweHalt _ _ _ _ _ _ k1
        · have k2 := keep_readRng { ctx := chanCtx s n m c, who := .nobody } x a _ k1
          split
          · exact keep_oweHalt _ _ _ _ _ _ k2
          · with_reducible refine keep_modChan _ _ _ _ _ (keep_addWorks _ _ _ _ _ _ _ _ _ ?_)
            exact keep_freshId _ k2
  · exact keep_oweHalt _ _ _ _ _ _ h6

theorem keep_fillNow {r : State} (n : Nat) (m : Nat) (c : Nat) (ctx : Nat) (x : Ctx) (st : Store) (pk : Nat) (img : Nat) (s : State) (h9 : Keep r s) :
    Keep r (fillNow n m c ctx x st pk img s) := by
  unfold fillNow
  try extract_lets
  repeat' first
    | with_reducible assumption
    | intro _
    | with_reducible apply keep_modCtx
    | with_reducible apply keep_writeBytes
    | with_reducible apply keep_teleAdd
    | with_reducible apply keep_teleMove
    | with_reducible apply keep_modChan
    | with_reducible apply keep_oweHalt
    | with_reducible apply Keep.ite
    | (refine Keep.snd (by assumption) ?_)
    | (refine Keep.fst (by assumption) ?_)
    | (refine Keep.thd (by assumption) ?_)
    | split
    | simp +zetaDelta only [Keep.mkIff]
    | assumption

theorem keep_mfillOn {r : State} (n : Nat) (m : Nat) (c : Nat) (x : Ctx) (ch : Chan) (ws : List Word) (s : State) (h7 : Keep r s) :
    Keep r (mfillOn n m c x ch ws s) := by
  unfold mfillOn
  try extract_lets
  repeat' first
    | with_reducible assumption
    | intro _
    | with_reducible apply keep_oweHalt
    | with_reducible apply keep_fillNow
    | with_reducible apply Keep.ite
    | (refine Keep.snd (by assumption) ?_)
    | (refine Keep.fst (by assumption) ?_)
    | (refine Keep.thd (by assumption) ?_)
    | split
    | simp +zetaDelta only [Keep.mkIff]
    | assumption

theorem keep_execMoverFill {r : State} (n : Nat) (m : Nat) (c : Nat) (s : State) (h4 : Keep r s) :
    KeepOut r (execMoverFill n m c s) := by
  unfold execMoverFill
  try extract_lets
  repeat' first
    | with_reducible assumption
    | intro _
    | with_reducible apply KeepOut.next
    | with_reducible apply keep_chanAwake
    | with_reducible apply keep_mfillOn
    | with_reducible apply KeepOut.ite
    | with_reducible apply Keep.ite
    | (refine Keep.snd (by assumption) ?_)
    | (refine Keep.fst (by assumption) ?_)
    | (refine Keep.thd (by assumption) ?_)
    | split
    | simp +zetaDelta only [Keep.mkIff]
    | assumption

theorem keep_spillOn {r : State} (n : Nat) (m : Nat) (c : Nat) (x : Ctx) (ch : Chan) (ws : List Word) (s : State) (h7 : Keep r s) :
    Keep r (spillOn n m c x ch ws s) := by
  unfold spillOn
  try extract_lets
  repeat' first
    | with_reducible assumption
    | intro _
    | with_reducible apply keep_oweHalt
    | with_reducible apply keep_spillDrain
    | with_reducible apply Keep.ite
    | (refine Keep.snd (by assumption) ?_)
    | (refine Keep.fst (by assumption) ?_)
    | (refine Keep.thd (by assumption) ?_)
    | split
    | simp +zetaDelta only [Keep.mkIff]
    | assumption

theorem keep_execSpill {r : State} (n : Nat) (m : Nat) (c : Nat) (s : State) (h4 : Keep r s) :
    KeepOut r (execSpill n m c s) := by
  unfold execSpill
  try extract_lets
  repeat' first
    | with_reducible assumption
    | intro _
    | with_reducible apply KeepOut.next
    | with_reducible apply keep_chanAwake
    | with_reducible apply keep_spillDrain
    | with_reducible apply keep_spillOn
    | with_reducible apply KeepOut.ite
    | with_reducible apply Keep.ite
    | (refine Keep.snd (by assumption) ?_)
    | (refine Keep.fst (by assumption) ?_)
    | (refine Keep.thd (by assumption) ?_)
    | split
    | simp +zetaDelta only [Keep.mkIff]
    | assumption

theorem keep_moveOn {r : State} (n : Nat) (m : Nat) (c : Nat) (x : Ctx) (ch : Chan) (ws : List Word) (s : State) (h7 : Keep r s) :
    Keep r (moveOn n m c x ch ws s) := by
  unfold moveOn
  try extract_lets
  repeat' first
    | with_reducible assumption
    | intro _
    | with_reducible apply keep_readPiece
    | with_reducible apply keep_oweHalt
    | with_reducible apply keep_teleAdd
    | with_reducible apply keep_gTele
    | with_reducible apply keep_modChan
    | with_reducible apply Keep.ite
    | (refine Keep.snd (by assumption) ?_)
    | (refine Keep.fst (by assumption) ?_)
    | (refine Keep.thd (by assumption) ?_)
    | split
    | simp +zetaDelta only [Keep.mkIff]
    | assumption

theorem keep_tookChan {r : State} (n : Nat) (m : Nat) (c : Nat) (s : State) (h4 : Keep r s) :
    Keep r (tookChan n m c s) := by
  unfold tookChan
  try extract_lets
  repeat' first
    | with_reducible assumption
    | intro _
    | simp only [Keep.mkIff]
    | (simp +zetaDelta only [KeepF.mkIff]; refine KeepF.of ?_)
    | simp +zetaDelta only [Keep.mkIff]
    | assumption

theorem keep_execMove {r : State} (n : Nat) (m : Nat) (c : Nat) (s : State) (h4 : Keep r s) :
    KeepOut r (execMove n m c s) := by
  unfold execMove
  try extract_lets
  repeat' first
    | with_reducible assumption
    | intro _
    | with_reducible apply KeepOut.next
    | with_reducible apply keep_whenAwake
    | with_reducible apply keep_moveOn
    | with_reducible apply keep_tookChan
    | with_reducible apply KeepOut.ite
    | with_reducible apply Keep.ite
    | (refine Keep.snd (by assumption) ?_)
    | (refine Keep.fst (by assumption) ?_)
    | (refine Keep.thd (by assumption) ?_)
    | split
    | simp +zetaDelta only [Keep.mkIff]
    | assumption

theorem keep_execLoop {r : State} (n : Nat) (m : Nat) (c : Nat) (s : State) (h4 : Keep r s) :
    KeepOut r (execLoop n m c s) := by
  unfold execLoop
  try extract_lets
  repeat' first
    | with_reducible assumption
    | intro _
    | with_reducible apply KeepOut.next
    | with_reducible apply keep_chanAwake
    | with_reducible apply keep_modChan
    | (refine Keep.snd (by assumption) ?_)
    | (refine Keep.fst (by assumption) ?_)
    | (refine Keep.thd (by assumption) ?_)
    | split
    | simp +zetaDelta only [Keep.mkIff]
    | assumption

theorem keep_stopDone {r : State} (n : Nat) (m : Nat) (c : Nat) (s : State) (h4 : Keep r s) :
    Keep r (stopDone n m c s) := by
  unfold stopDone
  try extract_lets
  repeat' first
    | with_reducible assumption
    | intro _
    | with_reducible apply keep_drainChan
    | with_reducible apply keep_extWrite
    | with_reducible apply keep_modChan
    | with_reducible apply keep_finishAll
    | with_reducible apply keep_chanStart
    | with_reducible apply Keep.ite
    | (refine Keep.snd (by assumption) ?_)
    | (refine Keep.fst (by assumption) ?_)
    | (refine Keep.thd (by assumption) ?_)
    | split
    | simp +zetaDelta only [Keep.mkIff]
    | assumption

theorem keep_execMoverStopDone {r : State} (n : Nat) (m : Nat) (c : Nat) (s : State) (h4 : Keep r s) :
    KeepOut r (execMoverStopDone n m c s) := by
  unfold execMoverStopDone
  try extract_lets
  repeat' first
    | with_reducible assumption
    | intro _
    | with_reducible apply KeepOut.next
    | with_reducible apply keep_stopDone
    | with_reducible apply KeepOut.ite
    | with_reducible apply Keep.ite
    | split
    | simp +zetaDelta only [Keep.mkIff]
    | assumption

theorem keep_chanSignal {r : State} (n : Nat) (m : Nat) (c : Nat) (ch : Chan) (ws : List Word) (s : State) (h6 : Keep r s) :
    Keep r (chanSignal n m c ch ws s) := by
  unfold chanSignal
  try extract_lets
  repeat' first
    | with_reducible assumption
    | intro _
    | with_reducible apply keep_drainChan
    | with_reducible apply keep_oweHalt
    | with_reducible apply keep_signalCounter
    | with_reducible apply keep_modChan
    | with_reducible apply Keep.ite
    | (refine Keep.snd (by assumption) ?_)
    | (refine Keep.fst (by assumption) ?_)
    | (refine Keep.thd (by assumption) ?_)
    | split
    | simp +zetaDelta only [Keep.mkIff]
    | assumption

theorem keep_execMoverWait {r : State} (n : Nat) (m : Nat) (c : Nat) (s : State) (h4 : Keep r s) :
    KeepOut r (execMoverWait n m c s) := by
  unfold execMoverWait
  try extract_lets
  repeat' first
    | with_reducible assumption
    | intro _
    | with_reducible apply KeepOut.next
    | with_reducible apply keep_chanAwake
    | with_reducible apply keep_chanWait
    | with_reducible apply keep_oweHalt
    | (refine Keep.snd (by assumption) ?_)
    | (refine Keep.fst (by assumption) ?_)
    | (refine Keep.thd (by assumption) ?_)
    | split
    | simp +zetaDelta only [Keep.mkIff]
    | assumption

theorem keep_execMoverSignal {r : State} (n : Nat) (m : Nat) (c : Nat) (s : State) (h4 : Keep r s) :
    KeepOut r (execMoverSignal n m c s) := by
  unfold execMoverSignal
  try extract_lets
  repeat' first
    | with_reducible assumption
    | intro _
    | with_reducible apply KeepOut.next
    | with_reducible apply keep_chanAwake
    | with_reducible apply keep_chanSignal
    | with_reducible apply KeepOut.ite
    | with_reducible apply Keep.ite
    | (refine Keep.snd (by assumption) ?_)
    | (refine Keep.fst (by assumption) ?_)
    | (refine Keep.thd (by assumption) ?_)
    | split
    | simp +zetaDelta only [Keep.mkIff]
    | assumption

theorem keep_execStagingAgeExpiry {r : State} (n : Nat) (m : Nat) (entry : Nat) (s : State) (h4 : Keep r s) :
    KeepOut r (execStagingAgeExpiry n m entry s) := by
  unfold execStagingAgeExpiry
  try extract_lets
  repeat' first
    | with_reducible assumption
    | intro _
    | with_reducible apply KeepOut.next
    | with_reducible apply keep_drainStage
    | (refine Keep.snd (by assumption) ?_)
    | (refine Keep.fst (by assumption) ?_)
    | (refine Keep.thd (by assumption) ?_)
    | split
    | simp only [Keep.mkIff]
    | (simp +zetaDelta only [KeepF.mkIff]; refine KeepF.of ?_)
    | simp +zetaDelta only [Keep.mkIff]
    | assumption

theorem keep_execMoverHalt {r : State} (n : Nat) (m : Nat) (c : Nat) (s : State) (h4 : Keep r s) :
    KeepOut r (execMoverHalt n m c s) := by
  unfold execMoverHalt
  try extract_lets
  repeat' first
    | with_reducible assumption
    | intro _
    | with_reducible apply KeepOut.next
    | with_reducible apply keep_chanAwake
    | with_reducible apply keep_haltFirst
    | with_reducible apply KeepOut.ite
    | with_reducible apply Keep.ite
    | (refine Keep.snd (by assumption) ?_)
    | (refine Keep.fst (by assumption) ?_)
    | (refine Keep.thd (by assumption) ?_)
    | split
    | simp +zetaDelta only [Keep.mkIff]
    | assumption

end Sys2Proof.Laws
end

