-- ==== Sys2Proof/Laws/KeepPackets.lean ====
section
/-! SUPPORT. Laws/KeepPackets.lean: the operations of Machine/Packets.lean keep what every effect keeps (Laws/Keep.lean). -/
namespace Sys2Proof.Laws
open Sys2Proof.Machine
set_option linter.all false
set_option Elab.async false

theorem keep_nmuCfgWrite {r : State} (n : Nat) (t : Nat) (v : Nat) (s : State) (h4 : Keep r s) :
    Keep r (nmuCfgWrite n t v s).2 := by
  unfold nmuCfgWrite
  try extract_lets
  repeat' first
    | with_reducible assumption
    | intro _
    | with_reducible apply keep_regPut
    | with_reducible apply keep_modSlice
    | simp +zetaDelta only [Keep.mkIff]
    | assumption

end Sys2Proof.Laws
end

