-- ==== Sys2Proof/Laws/KeepFail.lean ====
section
/-! SUPPORT. Laws/KeepFail.lean: the operations of Machine/Fail.lean keep what every effect keeps (Laws/Keep.lean). -/
namespace Sys2Proof.Laws
open Sys2Proof.Machine
set_option linter.all false
set_option Elab.async false

theorem keep_dropEntry {r : State} (st : Status) (s : State) (id : Nat) (h2 : Keep r s) :
    Keep r (dropEntry st s id) := by
  unfold dropEntry
  try extract_lets
  repeat' first
    | with_reducible assumption
    | intro _
    | with_reducible apply keep_entryServed
    | with_reducible apply keep_landBytes
    | with_reducible apply keep_commitEntry
    | with_reducible apply Keep.ite
    | (refine Keep.snd (by assumption) ?_)
    | (refine Keep.fst (by assumption) ?_)
    | (refine Keep.thd (by assumption) ?_)
    | split
    | simp only [Keep.mkIff]
    | (simp +zetaDelta only [KeepF.mkIff]; refine KeepF.of ?_)
    | simp +zetaDelta only [Keep.mkIff]
    | assumption

theorem keep_dropEntries {r : State} (es : List WbEntry) (st : Status) (s : State) (h3 : Keep r s) :
    Keep r (dropEntries es st s) := by
  unfold dropEntries
  try extract_lets
  repeat' first
    | with_reducible assumption
    | intro _
    | with_reducible apply keep_dropEntry
    | with_reducible apply Keep.foldl
    | with_reducible apply Keep.foldlP (p := Prod.snd)
    | with_reducible apply Keep.foldlP (p := Prod.fst)
    | with_reducible apply Keep.foldlT
    | simp +zetaDelta only [Keep.mkIff]
    | assumption

theorem keep_endOps {r : State} (p : PortOp → Bool) (st : Status) (s : State) (h3 : Keep r s) :
    Keep r (endOps p st s) := by
  unfold endOps
  try extract_lets
  repeat' first
    | with_reducible assumption
    | intro _
    | with_reducible apply keep_respond
    | with_reducible apply Keep.foldl
    | with_reducible apply Keep.foldlP (p := Prod.snd)
    | with_reducible apply Keep.foldlP (p := Prod.fst)
    | with_reducible apply Keep.foldlT
    | simp only [Keep.mkIff]
    | (simp +zetaDelta only [KeepF.mkIff]; refine KeepF.of ?_)
    | simp +zetaDelta only [Keep.mkIff]
    | assumption

theorem keep_loseObjects {r : State} (n : Nat) (s : State) (h2 : Keep r s) :
    Keep r (loseObjects n s) := by
  unfold loseObjects
  try extract_lets
  repeat' first
    | with_reducible assumption
    | intro _
    | simp only [Keep.mkIff]
    | (simp +zetaDelta only [KeepF.mkIff]; refine KeepF.of ?_)
    | simp +zetaDelta only [Keep.mkIff]
    | assumption

theorem keep_wipeSlice {r : State} (n : Nat) (s : State) (h2 : Keep r s) :
    Keep r (wipeSlice n s) := by
  unfold wipeSlice
  try extract_lets
  (simp only [KeepF.mkIff]; refine KeepF.of ?_ (hm := (fun h => memory_wf_clearKeys _ (memory_wf_sys _ h fun h => mwf_mclear _ h))))
  repeat' first
    | with_reducible assumption
    | intro _
    | with_reducible apply keep_dropEntries
    | with_reducible apply keep_endOps
    | with_reducible apply keep_loseObjects
    | with_reducible apply keep_setDb
    | with_reducible apply keep_setEnabled
    | with_reducible apply keep_dropQueue
    | with_reducible apply keep_zeroUnits
    | with_reducible apply keep_modSlice
    | with_reducible apply Keep.foldl
    | with_reducible apply Keep.foldlP (p := Prod.snd)
    | with_reducible apply Keep.foldlP (p := Prod.fst)
    | with_reducible apply Keep.foldlT
    | simp only [Keep.mkIff]
    | (simp +zetaDelta only [KeepF.mkIff]; refine KeepF.of ?_)
    | simp +zetaDelta only [Keep.mkIff]
    | assumption

theorem keep_faultPart {r : State} (st : Status) (p : Nat) (s : State) (h3 : Keep r s) :
    Keep r (faultPart st p s) := by
  unfold faultPart
  try extract_lets
  repeat' first
    | with_reducible assumption
    | intro _
    | with_reducible apply keep_endOps
    | with_reducible apply keep_faultCtx
    | with_reducible apply keep_endGrants
    | with_reducible apply keep_endDeferred
    | with_reducible apply Keep.ite
    | with_reducible apply Keep.foldl
    | with_reducible apply Keep.foldlP (p := Prod.snd)
    | with_reducible apply Keep.foldlP (p := Prod.fst)
    | with_reducible apply Keep.foldlT
    | split
    | simp only [Keep.mkIff]
    | (simp +zetaDelta only [KeepF.mkIff]; refine KeepF.of ?_)
    | simp +zetaDelta only [Keep.mkIff]
    | assumption

theorem keep_execSliceSupplyReturn {r : State} (n : Nat) (s : State) (h2 : Keep r s) :
    KeepOut r (execSliceSupplyReturn n s) := by
  unfold execSliceSupplyReturn
  try extract_lets
  repeat' first
    | with_reducible assumption
    | intro _
    | with_reducible apply KeepOut.next
    | with_reducible apply keep_wipeSlice
    | with_reducible apply keep_modSlice
    | with_reducible apply keep_refreshTaint
    | with_reducible apply KeepOut.ite
    | with_reducible apply Keep.ite
    | (refine Keep.snd (by assumption) ?_)
    | (refine Keep.fst (by assumption) ?_)
    | (refine Keep.thd (by assumption) ?_)
    | split
    | simp +zetaDelta only [Keep.mkIff]
    | assumption

theorem keep_failSlice {r : State} (n : Nat) (cause : Nat) (s : State) (h3 : Keep r s) :
    Keep r (failSlice n cause s) := by
  unfold failSlice
  extract_lets q s0 s1 s2 s3 s4 s5 src s6 s7
  split
  · exact h3
  · have k0 : Keep r s0 := by
      unfold s0
      split
      · exact keep_modSlice _ _ _ h3
      · exact h3
    have k2 : Keep r s2 := keep_integAdd _ _ _ (keep_report _ _ _ _ _ _ _ _ (keep_modSlice _ _ _ k0))
    have k3 : Keep r s3 := by
      unfold s3
      split
      · exact k2
      · exact keep_raiseSvc _ _ k2
    have k6 : Keep r s6 := KeepF.of (keep_dropEntries _ _ _ (keep_endOps _ _ _ k3))
    have k7 : Keep r s7 := by
      unfold s7
      split
      · exact keep_faultPart _ _ _ k6
      · exact k6
    split
    · exact keep_loseObjects _ _ (Keep.mkIff.2 k7)
    · exact k7

theorem keep_execSliceFail {r : State} (n : Nat) (cause : Nat) (s : State) (h3 : Keep r s) :
    KeepOut r (execSliceFail n cause s) := by
  unfold execSliceFail
  try extract_lets
  repeat' first
    | with_reducible assumption
    | intro _
    | with_reducible apply KeepOut.next
    | with_reducible apply keep_failSlice
    | simp +zetaDelta only [Keep.mkIff]
    | assumption

theorem keep_execIvrPhaseFault {r : State} (n : Nat) (s : State) (h2 : Keep r s) :
    KeepOut r (execIvrPhaseFault n s) := by
  unfold execIvrPhaseFault
  try extract_lets
  repeat' first
    | with_reducible assumption
    | intro _
    | with_reducible apply KeepOut.next
    | with_reducible apply keep_failSlice
    | with_reducible apply keep_raiseSvc
    | with_reducible apply keep_modSlice
    | with_reducible apply KeepOut.ite
    | with_reducible apply Keep.ite
    | split
    | simp +zetaDelta only [Keep.mkIff]
    | assumption

theorem keep_execHeartbeatTimeout {r : State} (n : Nat) (s : State) (h2 : Keep r s) :
    KeepOut r (execHeartbeatTimeout n s) := by
  unfold execHeartbeatTimeout
  try extract_lets
  repeat' first
    | with_reducible assumption
    | intro _
    | with_reducible apply KeepOut.next
    | with_reducible apply keep_failSlice
    | simp only [Keep.mkIff]
    | (simp +zetaDelta only [KeepF.mkIff]; refine KeepF.of ?_)
    | simp +zetaDelta only [Keep.mkIff]
    | assumption

theorem keep_execSliceCut {r : State} (n : Nat) (s : State) (h2 : Keep r s) :
    KeepOut r (execSliceCut n s) := by
  unfold execSliceCut
  try extract_lets
  repeat' first
    | with_reducible assumption
    | intro _
    | with_reducible apply KeepOut.next
    | with_reducible apply keep_modSlice
    | with_reducible apply keep_faultPart
    | with_reducible apply keep_setPart
    | with_reducible apply KeepOut.ite
    | with_reducible apply Keep.ite
    | (refine Keep.snd (by assumption) ?_)
    | (refine Keep.fst (by assumption) ?_)
    | (refine Keep.thd (by assumption) ?_)
    | split
    | simp +zetaDelta only [Keep.mkIff]
    | assumption

end Sys2Proof.Laws
end

