-- ==== Sys2Proof/Laws/KeepPwrStates.lean ====
section
/-! SUPPORT. Laws/KeepPwrStates.lean: the operations of Machine/PwrStates.lean keep what every effect keeps (Laws/Keep.lean). -/
namespace Sys2Proof.Laws
open Sys2Proof.Machine
set_option linter.all false
set_option Elab.async false

theorem keep_pwrRefuse {r : State} (n : Nat) (st : Status) (kind : Nat) (id : Nat) (request : Bool) (s : State) (h6 : Keep r s) :
    Keep r (pwrRefuse n st kind id request s) := by
  unfold pwrRefuse
  try extract_lets
  repeat' first
    | with_reducible assumption
    | intro _
    | with_reducible apply keep_modPwr
    | with_reducible apply Keep.ite
    | split
    | simp +zetaDelta only [Keep.mkIff]
    | assumption

theorem keep_secureRefusal {r : State} (p : Nat) (by_ : RegBy) (addr : Nat) (s : State) (h4 : Keep r s) :
    Keep r (secureRefusal p by_ addr s) := by
  unfold secureRefusal
  try extract_lets
  repeat' first
    | with_reducible assumption
    | intro _
    | with_reducible apply keep_report
    | with_reducible apply keep_setPart
    | simp +zetaDelta only [Keep.mkIff]
    | assumption

theorem keep_startPrepare {r : State} (n : Nat) (target : PwrSt) (s : State) (h3 : Keep r s) :
    Keep r (startPrepare n target s) := by
  unfold startPrepare
  try extract_lets
  repeat' first
    | with_reducible assumption
    | intro _
    | with_reducible apply keep_issueAll
    | with_reducible apply keep_modPwr
    | with_reducible apply keep_drainList
    | with_reducible apply Keep.foldl
    | with_reducible apply Keep.foldlP (p := Prod.snd)
    | with_reducible apply Keep.foldlP (p := Prod.fst)
    | with_reducible apply Keep.foldlT
    | simp +zetaDelta only [Keep.mkIff]
    | assumption

theorem keep_pwrTake {r : State} (n : Nat) (op : Nat) (delayed : Bool) (by_ : RegBy) (s : State) (h5 : Keep r s) :
    Keep r (pwrTake n op delayed by_ s) := by
  unfold pwrTake
  try extract_lets
  repeat' first
    | with_reducible assumption
    | intro _
    | with_reducible apply keep_modPwr
    | with_reducible apply keep_pwrRefuse
    | with_reducible apply keep_secureRefusal
    | with_reducible apply keep_startPrepare
    | with_reducible apply Keep.ite
    | (refine Keep.snd (by assumption) ?_)
    | (refine Keep.fst (by assumption) ?_)
    | (refine Keep.thd (by assumption) ?_)
    | split
    | simp +zetaDelta only [Keep.mkIff]
    | assumption

theorem keep_pwrCtlWrite {r : State} (n : Nat) (v : Nat) (by_ : RegBy) (s : State) (h4 : Keep r s) :
    Keep r (pwrCtlWrite n v by_ s).2 := by
  unfold pwrCtlWrite
  try extract_lets
  repeat' first
    | with_reducible assumption
    | intro _
    | with_reducible apply keep_regPut
    | with_reducible apply keep_pwrTake
    | with_reducible apply keep_modPwr
    | with_reducible apply Keep.iteS
    | with_reducible apply Keep.ite
    | (refine Keep.snd (by assumption) ?_)
    | (refine Keep.fst (by assumption) ?_)
    | (refine Keep.thd (by assumption) ?_)
    | split
    | simp +zetaDelta only [Keep.mkIff]
    | assumption

theorem keep_modCtl {r : State} (f : CtlState → CtlState) (s : State) (h2 : Keep r s) (hf : ∀ c : CtlState, keysRise 0 c.pwr = true → keysRise 0 (f c).pwr = true) :
    Keep r (modCtl f s) := by
  unfold modCtl
  exact KeepF.of h2 (h20 := hf _)

theorem keep_deepTake {r : State} (v : Nat) (by_ : RegBy) (s : State) (h3 : Keep r s) :
    Keep r (deepTake v by_ s) := by
  unfold deepTake
  try extract_lets
  repeat' first
    | exact fun _ h => h
    | with_reducible assumption
    | intro _
    | with_reducible apply keep_modCtl
    | with_reducible apply keep_secureRefusal
    | with_reducible apply Keep.ite
    | (refine Keep.snd (by assumption) ?_)
    | (refine Keep.fst (by assumption) ?_)
    | (refine Keep.thd (by assumption) ?_)
    | split
    | simp only [Keep.mkIff]
    | (simp +zetaDelta only [KeepF.mkIff]; refine KeepF.of ?_)
    | simp +zetaDelta only [Keep.mkIff]
    | assumption

theorem keep_devPwrWrite {r : State} (v : Nat) (by_ : RegBy) (s : State) (h3 : Keep r s) :
    Keep r (devPwrWrite v by_ s).2 := by
  unfold devPwrWrite
  try extract_lets
  repeat' first
    | with_reducible assumption
    | intro _
    | with_reducible apply keep_deepTake
    | with_reducible apply keep_regPut
    | simp +zetaDelta only [Keep.mkIff]
    | assumption

theorem keep_i3cWake {r : State} (s : State) (h1 : Keep r s) :
    Keep r (i3cWake s) := by
  unfold i3cWake
  try extract_lets
  repeat' first
    | exact fun _ h => h
    | with_reducible assumption
    | intro _
    | with_reducible apply keep_modCtl
    | with_reducible apply Keep.ite
    | split
    | simp +zetaDelta only [Keep.mkIff]
    | assumption

theorem keep_timerEntry {r : State} (n : Nat) (target : PwrSt) (due : Nat) (s : State) (h4 : Keep r s) :
    Keep r (timerEntry n target due s) := by
  unfold timerEntry
  try extract_lets
  repeat' first
    | with_reducible assumption
    | intro _
    | with_reducible apply keep_pwrRefuse
    | with_reducible apply keep_startPrepare
    | (refine Keep.snd (by assumption) ?_)
    | (refine Keep.fst (by assumption) ?_)
    | (refine Keep.thd (by assumption) ?_)
    | split
    | simp only [Keep.mkIff]
    | (simp +zetaDelta only [KeepF.mkIff]; refine KeepF.of ?_)
    | simp +zetaDelta only [Keep.mkIff]
    | assumption

theorem keep_execRetentionTimerExpiry {r : State} (n : Nat) (s : State) (h2 : Keep r s) :
    KeepOut r (execRetentionTimerExpiry n s) := by
  unfold execRetentionTimerExpiry
  try extract_lets
  repeat' first
    | with_reducible assumption
    | intro _
    | with_reducible apply KeepOut.next
    | with_reducible apply keep_timerEntry
    | with_reducible apply KeepOut.ite
    | with_reducible apply Keep.ite
    | split
    | simp +zetaDelta only [Keep.mkIff]
    | assumption

theorem keep_execPrepareDone {r : State} (n : Nat) (s : State) (h2 : Keep r s) :
    KeepOut r (execPrepareDone n s) := by
  unfold execPrepareDone
  try extract_lets
  repeat' first
    | with_reducible assumption
    | intro _
    | with_reducible apply KeepOut.next
    | with_reducible apply keep_modPwr
    | with_reducible apply KeepOut.ite
    | with_reducible apply Keep.ite
    | (refine Keep.snd (by assumption) ?_)
    | (refine Keep.fst (by assumption) ?_)
    | (refine Keep.thd (by assumption) ?_)
    | split
    | simp +zetaDelta only [Keep.mkIff]
    | assumption

theorem keep_execI3cWake {r : State} (s : State) (h1 : Keep r s) :
    KeepOut r (execI3cWake s) := by
  unfold execI3cWake
  try extract_lets
  repeat' first
    | with_reducible assumption
    | intro _
    | with_reducible apply KeepOut.next
    | with_reducible apply keep_i3cWake
    | simp +zetaDelta only [Keep.mkIff]
    | assumption

theorem keep_execIdleTimerExpiry {r : State} (n : Nat) (s : State) (h2 : Keep r s) :
    KeepOut r (execIdleTimerExpiry n s) := by
  unfold execIdleTimerExpiry
  try extract_lets
  repeat' first
    | with_reducible assumption
    | intro _
    | with_reducible apply KeepOut.next
    | with_reducible apply keep_timerEntry
    | with_reducible apply KeepOut.ite
    | with_reducible apply Keep.ite
    | split
    | simp +zetaDelta only [Keep.mkIff]
    | assumption

theorem keep_restTimers {r : State} (s : State) (h1 : Keep r s) :
    Keep r (restTimers s) := by
  unfold restTimers
  try extract_lets
  repeat' first
    | with_reducible assumption
    | intro _
    | with_reducible apply keep_modPwr
    | with_reducible apply Keep.ite
    | with_reducible apply Keep.foldl
    | with_reducible apply Keep.foldlP (p := Prod.snd)
    | with_reducible apply Keep.foldlP (p := Prod.fst)
    | with_reducible apply Keep.foldlT
    | split
    | simp +zetaDelta only [Keep.mkIff]
    | assumption

theorem keep_resetSliceRegs {r : State} (n : Nat) (s : State) (h2 : Keep r s) :
    Keep r (resetSliceRegs n s) := by
  unfold resetSliceRegs
  try extract_lets
  repeat' first
    | with_reducible assumption
    | intro _
    | simp only [Keep.mkIff]
    | (simp +zetaDelta only [KeepF.mkIff]; refine KeepF.of ?_)
    | simp +zetaDelta only [Keep.mkIff]
    | assumption

theorem keep_pwrMore {r : State} (v0 : Nat) (v1 : Nat) (v2 : State) (h3 : Keep r v2) :
    Keep r (pwrMore v0 v1 v2) := by
  induction v0 generalizing v2 with
  | zero => exact h3
  | succ k ih =>
    unfold pwrMore
    extract_lets p
    split
    · refine ih _ ?_
      split
      · exact keep_pwrTake _ _ _ _ _ (keep_modPwr _ _ _ h3)
      · exact keep_finish _ _ _ (keep_pwrTake _ _ _ _ _ (keep_modPwr _ _ _ h3))
    · exact h3

theorem keep_execEntryComplete {r : State} (n : Nat) (s : State) (h2 : Keep r s) :
    KeepOut r (execEntryComplete n s) := by
  unfold execEntryComplete
  try extract_lets
  repeat' first
    | with_reducible assumption
    | intro _
    | with_reducible apply KeepOut.next
    | with_reducible apply keep_resetSliceRegs
    | with_reducible apply keep_wipeSlice
    | with_reducible apply keep_pwrMore
    | with_reducible apply keep_modPwr
    | with_reducible apply KeepOut.ite
    | with_reducible apply Keep.ite
    | (refine Keep.snd (by assumption) ?_)
    | (refine Keep.fst (by assumption) ?_)
    | (refine Keep.thd (by assumption) ?_)
    | split
    | simp +zetaDelta only [Keep.mkIff]
    | assumption

theorem keep_loseGroups {r : State} (n : Nat) (gs : List Nat) (s : State) (h3 : Keep r s) :
    Keep r (loseGroups n gs s) := by
  unfold loseGroups
  try extract_lets
  repeat' first
    | with_reducible assumption
    | intro _
    | with_reducible apply Keep.ite
    | split
    | simp only [Keep.mkIff]
    | (simp +zetaDelta only [KeepF.mkIff]; refine KeepF.of ?_)
    | simp +zetaDelta only [Keep.mkIff]
    | assumption

theorem keep_execWakeDone {r : State} (n : Nat) (s : State) (h2 : Keep r s) :
    KeepOut r (execWakeDone n s) := by
  unfold execWakeDone
  try extract_lets
  repeat' first
    | with_reducible assumption
    | intro _
    | with_reducible apply KeepOut.next
    | with_reducible apply keep_wipeSlice
    | with_reducible apply keep_loseGroups
    | with_reducible apply keep_modPwr
    | with_reducible apply keep_startPrepare
    | with_reducible apply keep_pwrMore
    | with_reducible apply KeepOut.ite
    | with_reducible apply Keep.ite
    | (refine Keep.snd (by assumption) ?_)
    | (refine Keep.fst (by assumption) ?_)
    | (refine Keep.thd (by assumption) ?_)
    | split
    | simp +zetaDelta only [Keep.mkIff]
    | assumption

theorem keep_execMaPend {r : State} (n : Nat) (s : State) (h2 : Keep r s) :
    KeepOut r (execMaPend n s) := by
  unfold execMaPend
  try extract_lets
  repeat' first
    | with_reducible assumption
    | intro _
    | with_reducible apply KeepOut.next
    | with_reducible apply keep_touch
    | with_reducible apply KeepOut.ite
    | with_reducible apply Keep.ite
    | split
    | simp +zetaDelta only [Keep.mkIff]
    | assumption

theorem keep_execWakeN {r : State} (s : State) (h1 : Keep r s) :
    KeepOut r (execWakeN s) := by
  unfold execWakeN
  try extract_lets
  repeat' first
    | exact fun _ h => h
    | with_reducible assumption
    | intro _
    | with_reducible apply KeepOut.next
    | with_reducible apply keep_modCtl
    | with_reducible apply KeepOut.ite
    | with_reducible apply Keep.ite
    | split
    | simp +zetaDelta only [Keep.mkIff]
    | assumption

theorem keep_execDeepExitDone {r : State} (s : State) (h1 : Keep r s) :
    KeepOut r (execDeepExitDone s) := by
  unfold execDeepExitDone
  try extract_lets
  repeat' first
    | exact fun _ h => h
    | with_reducible assumption
    | intro _
    | with_reducible apply KeepOut.next
    | with_reducible apply keep_modCtl
    | with_reducible apply KeepOut.ite
    | with_reducible apply Keep.ite
    | split
    | simp only [Keep.mkIff]
    | (simp +zetaDelta only [KeepF.mkIff]; refine KeepF.of ?_)
    | simp +zetaDelta only [Keep.mkIff]
    | assumption

end Sys2Proof.Laws
end

