-- ==== Sys2Proof/Laws/KeepParts.lean ====
section
/-! SUPPORT. Laws/KeepParts.lean: the operations of Machine/Parts.lean keep what every effect keeps (Laws/Keep.lean). -/
namespace Sys2Proof.Laws
open Sys2Proof.Machine
set_option linter.all false
set_option Elab.async false

theorem keep_restoreRec {r : State} (p : Nat) (s : State) (e : Nat × Nat × Bool × List Byte) (h2 : Keep r s) :
    Keep r (restoreRec p s e) := by
  unfold restoreRec
  try extract_lets
  repeat' first
    | with_reducible assumption
    | intro _
    | with_reducible apply keep_modSlice
    | with_reducible apply Keep.ite
    | (refine Keep.snd (by assumption) ?_)
    | (refine Keep.fst (by assumption) ?_)
    | (refine Keep.thd (by assumption) ?_)
    | split
    | simp +zetaDelta only [Keep.mkIff]
    | assumption

theorem keep_modPart {r : State} (p : Nat) (f : PartRec → PartRec) (s : State) (h3 : Keep r s) :
    Keep r (modPart p f s) := by
  unfold modPart
  try extract_lets
  repeat' first
    | with_reducible assumption
    | intro _
    | with_reducible apply keep_setPart
    | simp +zetaDelta only [Keep.mkIff]
    | assumption

theorem keep_configure {r : State} (p : Nat) (v : Nat) (by_ : RegBy) (delayed : Bool) (s : State) (h5 : Keep r s) :
    Keep r (configure p v by_ delayed s) := by
  unfold configure
  try extract_lets
  repeat' first
    | with_reducible assumption
    | intro _
    | with_reducible apply keep_modPart
    | with_reducible apply Keep.ite
    | (refine Keep.snd (by assumption) ?_)
    | (refine Keep.fst (by assumption) ?_)
    | (refine Keep.thd (by assumption) ?_)
    | split
    | simp +zetaDelta only [Keep.mkIff]
    | assumption

theorem keep_sealPart {r : State} (p : Nat) (s : State) (h2 : Keep r s) :
    Keep r (sealPart p s) := by
  unfold sealPart
  try extract_lets
  repeat' first
    | with_reducible assumption
    | intro _
    | with_reducible apply keep_refreshAll
    | with_reducible apply keep_modPart
    | with_reducible apply Keep.ite
    | split
    | simp +zetaDelta only [Keep.mkIff]
    | assumption

theorem keep_dissolve {r : State} (p : Nat) (s : State) (h2 : Keep r s) :
    Keep r (dissolve p s) := by
  unfold dissolve
  try extract_lets
  repeat' first
    | with_reducible assumption
    | intro _
    | with_reducible apply keep_modPart
    | with_reducible apply keep_startClear
    | with_reducible apply Keep.ite
    | split
    | simp +zetaDelta only [Keep.mkIff]
    | assumption

theorem keep_suspendBegin {r : State} (p : Nat) (s : State) (h2 : Keep r s) :
    Keep r (suspendBegin p s) := by
  unfold suspendBegin
  try extract_lets
  repeat' first
    | with_reducible assumption
    | intro _
    | with_reducible apply keep_modPart
    | with_reducible apply keep_refreshAll
    | with_reducible apply keep_drainCtxPorts
    | with_reducible apply keep_beginStop
    | with_reducible apply Keep.ite
    | with_reducible apply Keep.foldl
    | with_reducible apply Keep.foldlP (p := Prod.snd)
    | with_reducible apply Keep.foldlP (p := Prod.fst)
    | with_reducible apply Keep.foldlT
    | split
    | simp only [Keep.mkIff]
    | (simp +zetaDelta only [KeepF.mkIff]; refine KeepF.of ?_)
    | simp +zetaDelta only [Keep.mkIff]
    | assumption

theorem keep_activateBegin {r : State} (p : Nat) (s : State) (h2 : Keep r s) :
    Keep r (activateBegin p s) := by
  unfold activateBegin
  try extract_lets
  repeat' first
    | with_reducible assumption
    | intro _
    | with_reducible apply keep_modPart
    | with_reducible apply keep_refreshAll
    | with_reducible apply Keep.ite
    | (refine Keep.snd (by assumption) ?_)
    | (refine Keep.fst (by assumption) ?_)
    | (refine Keep.thd (by assumption) ?_)
    | split
    | simp +zetaDelta only [Keep.mkIff]
    | assumption

theorem keep_partRun {r : State} (p : Nat) (v : Nat) (by_ : RegBy) (delayed : Bool) (s : State) (h5 : Keep r s) :
    Keep r (partRun p v by_ delayed s) := by
  unfold partRun
  try extract_lets
  repeat' first
    | with_reducible assumption
    | intro _
    | with_reducible apply keep_modPart
    | with_reducible apply keep_secureRefusal
    | with_reducible apply keep_configure
    | with_reducible apply keep_sealPart
    | with_reducible apply keep_dissolve
    | with_reducible apply keep_suspendBegin
    | with_reducible apply keep_activateBegin
    | with_reducible apply Keep.ite
    | split
    | simp +zetaDelta only [Keep.mkIff]
    | assumption

theorem keep_partCtlWrite {r : State} (p : Nat) (v : Nat) (by_ : RegBy) (s : State) (h4 : Keep r s) :
    Keep r (partCtlWrite p v by_ s).2 := by
  unfold partCtlWrite
  try extract_lets
  repeat' first
    | with_reducible assumption
    | intro _
    | with_reducible apply keep_regPut
    | with_reducible apply keep_partRun
    | with_reducible apply keep_modPart
    | with_reducible apply keep_configure
    | with_reducible apply Keep.iteS
    | with_reducible apply Keep.ite
    | split
    | simp +zetaDelta only [Keep.mkIff]
    | assumption

theorem keep_partMore {r : State} (v0 : Nat) (v1 : Nat) (v2 : State) (h3 : Keep r v2) :
    Keep r (partMore v0 v1 v2) := by
  induction v0 generalizing v2 with
  | zero => exact h3
  | succ k ih =>
    unfold partMore
    extract_lets p
    split
    · exact h3
    · split
      · exact ih _ (keep_partRun _ _ _ _ _ (keep_modPart _ _ _ h3))
      · exact ih _ (keep_finish _ _ _ (keep_partRun _ _ _ _ _ (keep_regPut _ _ _ _ (keep_modPart _ _ _ h3))))
      · exact h3

theorem keep_activateEnd {r : State} (p : Nat) (s : State) (h2 : Keep r s) :
    Keep r (activateEnd p s) := by
  unfold activateEnd
  try extract_lets
  repeat' first
    | with_reducible assumption
    | intro _
    | with_reducible apply keep_modCtx
    | with_reducible apply keep_restoreRec
    | with_reducible apply keep_feedTenant
    | with_reducible apply keep_modPart
    | with_reducible apply keep_faultCtx
    | with_reducible apply keep_refreshAll
    | with_reducible apply Keep.ite
    | with_reducible apply Keep.foldl
    | with_reducible apply Keep.foldlP (p := Prod.snd)
    | with_reducible apply Keep.foldlP (p := Prod.fst)
    | with_reducible apply Keep.foldlT
    | (refine Keep.snd (by assumption) ?_)
    | (refine Keep.fst (by assumption) ?_)
    | (refine Keep.thd (by assumption) ?_)
    | split
    | simp only [Keep.mkIff]
    | (simp +zetaDelta only [KeepF.mkIff]; refine KeepF.of ?_)
    | simp +zetaDelta only [Keep.mkIff]
    | assumption

theorem keep_execActivateDone {r : State} (p : Nat) (s : State) (h2 : Keep r s) :
    KeepOut r (execActivateDone p s) := by
  unfold execActivateDone
  try extract_lets
  repeat' first
    | with_reducible assumption
    | intro _
    | with_reducible apply KeepOut.next
    | with_reducible apply keep_partMore
    | with_reducible apply keep_activateEnd
    | with_reducible apply KeepOut.ite
    | with_reducible apply Keep.ite
    | split
    | simp +zetaDelta only [Keep.mkIff]
    | assumption

theorem keep_dissolveSlice {r : State} (s : State) (n : Nat) (h1 : Keep r s) :
    Keep r (dissolveSlice s n) := by
  have k2 : Keep r { (modSlice n (fun r => { r with weave := resetWeave, pendWeave := [], pendSleeve := [] }) (loseObjects n s)) with
      mem := { (modSlice n (fun r => { r with weave := resetWeave, pendWeave := [], pendSleeve := [] }) (loseObjects n s)).mem with
        sys := mclear (fun x => decide (x / 131072 = n ∧ x % 131072 < 0x1FE00))
          (modSlice n (fun r => { r with weave := resetWeave, pendWeave := [], pendSleeve := [] }) (loseObjects n s)).mem.sys } } :=
    Keep.mk2 (keep_modSlice _ _ _ (keep_loseObjects _ _ h1)) fun h => memory_wf_sys _ h fun h => mwf_mclear _ h
  unfold dissolveSlice
  extract_lets put s1 src s2 s3 s4 lo hi
  replace k2 : Keep r s2 := k2
  have k3 : Keep r s3 := Keep.foldl _ (keep_regPut _ _ _ _ k2) fun t i k => keep_regPut _ _ _ _ k
  have k4 : Keep r s4 := by
    unfold s4
    with_reducible apply Keep.foldl
    · exact k3
    · intro t q k
      extract_lets cfg ord
      unfold put
      with_reducible exact keep_regPut _ _ _ _ (keep_regPut _ _ _ _ (keep_regPut _ _ _ _ k))
  simp only [KeepF.mkIff]
  exact KeepF.of k4

theorem keep_execDissolveDone {r : State} (p : Nat) (s : State) (h2 : Keep r s) :
    KeepOut r (execDissolveDone p s) := by
  unfold execDissolveDone
  with_reducible apply KeepOut.ite
  · exact KeepOut.next h2
  · with_reducible apply KeepOut.next
    with_reducible apply Keep.foldl
    · with_reducible apply keep_partMore
      with_reducible apply keep_setPart
      with_reducible apply Keep.foldl
      · exact h2
      · exact fun t n k => keep_dissolveSlice _ _ k
    · intro t q k
      split
      · with_reducible apply Keep.ite
        · with_reducible apply keep_partMore
          exact k
        · exact k
      · exact k

theorem keep_evictQueues {r : State} (ids : List Nat) (s : State) (h2 : Keep r s) :
    Keep r (evictQueues ids s) := by
  unfold evictQueues
  try extract_lets
  repeat' first
    | with_reducible assumption
    | intro _
    | with_reducible apply keep_dropQueue
    | with_reducible apply keep_startBack
    | with_reducible apply Keep.ite
    | with_reducible apply Keep.foldl
    | with_reducible apply Keep.foldlP (p := Prod.snd)
    | with_reducible apply Keep.foldlP (p := Prod.fst)
    | with_reducible apply Keep.foldlT
    | (refine Keep.snd (by assumption) ?_)
    | (refine Keep.fst (by assumption) ?_)
    | (refine Keep.thd (by assumption) ?_)
    | split
    | simp +zetaDelta only [Keep.mkIff]
    | assumption

theorem keep_execKeyLoad {r : State} (slot : Nat) (tenant : Nat) (key : BitVec 512) (s : State) (h4 : Keep r s) :
    KeepOut r (execKeyLoad slot tenant key s) := by
  unfold execKeyLoad
  try extract_lets
  repeat' first
    | with_reducible assumption
    | intro _
    | with_reducible apply KeepOut.next
    | with_reducible apply keep_emit
    | with_reducible apply keep_refreshAll
    | with_reducible apply KeepOut.ite
    | with_reducible apply Keep.ite
    | split
    | simp only [Keep.mkIff]
    | (simp +zetaDelta only [KeepF.mkIff]; refine KeepF.of ?_)
    | simp +zetaDelta only [Keep.mkIff]
    | assumption

theorem keep_writeImage {r : State} (p : Nat) (s : State) (h2 : Keep r s) :
    Keep r (writeImage p s) := by
  unfold writeImage
  try extract_lets
  repeat' first
    | with_reducible assumption
    | intro _
    | with_reducible apply keep_extWrite
    | with_reducible apply keep_extStore
    | with_reducible apply Keep.foldl
    | with_reducible apply Keep.foldlP (p := Prod.snd)
    | with_reducible apply Keep.foldlP (p := Prod.fst)
    | with_reducible apply Keep.foldlT
    | (refine Keep.snd (by assumption) ?_)
    | (refine Keep.fst (by assumption) ?_)
    | (refine Keep.thd (by assumption) ?_)
    | split
    | simp +zetaDelta only [Keep.mkIff]
    | assumption

theorem keep_zeroShared {r : State} (p : Nat) (ids : List Nat) (s : State) (h3 : Keep r s) :
    Keep r (zeroShared p ids s) := by
  unfold zeroShared
  try extract_lets
  repeat' first
    | with_reducible assumption
    | intro _
    | with_reducible apply keep_zeroUnits
    | with_reducible apply keep_modChan
    | with_reducible apply keep_dropAhead
    | with_reducible apply Keep.foldl
    | with_reducible apply Keep.foldlP (p := Prod.snd)
    | with_reducible apply Keep.foldlP (p := Prod.fst)
    | with_reducible apply Keep.foldlT
    | simp +zetaDelta only [Keep.mkIff]
    | assumption

theorem keep_suspendEnd {r : State} (p : Nat) (s : State) (h2 : Keep r s) :
    Keep r (suspendEnd p s) := by
  unfold suspendEnd
  try extract_lets
  repeat' first
    | with_reducible assumption
    | intro _
    | with_reducible apply keep_evictQueues
    | with_reducible apply keep_writeImage
    | with_reducible apply keep_modCtx
    | with_reducible apply keep_zeroShared
    | with_reducible apply keep_refreshAll
    | with_reducible apply keep_modPart
    | with_reducible apply Keep.ite
    | with_reducible apply Keep.foldl
    | with_reducible apply Keep.foldlP (p := Prod.snd)
    | with_reducible apply Keep.foldlP (p := Prod.fst)
    | with_reducible apply Keep.foldlT
    | split
    | simp +zetaDelta only [Keep.mkIff]
    | assumption

theorem keep_execSuspendDone {r : State} (p : Nat) (s : State) (h2 : Keep r s) :
    KeepOut r (execSuspendDone p s) := by
  unfold execSuspendDone
  try extract_lets
  repeat' first
    | with_reducible assumption
    | intro _
    | with_reducible apply KeepOut.next
    | with_reducible apply keep_partMore
    | with_reducible apply keep_suspendEnd
    | with_reducible apply KeepOut.ite
    | with_reducible apply Keep.ite
    | split
    | simp +zetaDelta only [Keep.mkIff]
    | assumption

theorem keep_execMeasurementRequest {r : State} (kind : Nat) (arg : Nat) (_nonce : BitVec 256) (s : State) (h4 : Keep r s) :
    KeepOut r (execMeasurementRequest kind arg _nonce s) := by
  unfold execMeasurementRequest
  try extract_lets
  repeat' first
    | with_reducible assumption
    | intro _
    | with_reducible apply KeepOut.next
    | with_reducible apply keep_emit
    | with_reducible apply KeepOut.ite
    | with_reducible apply Keep.ite
    | split
    | simp +zetaDelta only [Keep.mkIff]
    | assumption

theorem keep_execKeyErase {r : State} (slot : Nat) (s : State) (h2 : Keep r s) :
    KeepOut r (execKeyErase slot s) := by
  unfold execKeyErase
  try extract_lets
  repeat' first
    | with_reducible assumption
    | intro _
    | with_reducible apply KeepOut.next
    | with_reducible apply keep_emit
    | with_reducible apply keep_refreshAll
    | with_reducible apply KeepOut.ite
    | with_reducible apply Keep.ite
    | split
    | simp only [Keep.mkIff]
    | (simp +zetaDelta only [KeepF.mkIff]; refine KeepF.of ?_)
    | simp +zetaDelta only [Keep.mkIff]
    | assumption

theorem keep_execTdispStateReport {r : State} (tdi : Nat) (state : Nat) (s : State) (h3 : Keep r s) :
    KeepOut r (execTdispStateReport tdi state s) := by
  unfold execTdispStateReport
  try extract_lets
  repeat' first
    | with_reducible assumption
    | intro _
    | with_reducible apply KeepOut.next
    | with_reducible apply keep_faultCtx
    | with_reducible apply KeepOut.ite
    | with_reducible apply Keep.ite
    | with_reducible apply Keep.foldl
    | with_reducible apply Keep.foldlP (p := Prod.snd)
    | with_reducible apply Keep.foldlP (p := Prod.fst)
    | with_reducible apply Keep.foldlT
    | split
    | simp only [Keep.mkIff]
    | (simp +zetaDelta only [KeepF.mkIff]; refine KeepF.of ?_)
    | simp +zetaDelta only [Keep.mkIff]
    | assumption

theorem keep_partEnd {r : State} (p : Nat) (result : Nat) (s : State) (h3 : Keep r s) :
    Keep r (partEnd p result s) := by
  unfold partEnd
  try extract_lets
  repeat' first
    | with_reducible assumption
    | intro _
    | with_reducible apply keep_modPart
    | simp +zetaDelta only [Keep.mkIff]
    | assumption

end Sys2Proof.Laws
end

