-- ==== Sys2Proof/Laws/KeepReset.lean ====
section
/-! SUPPORT. Laws/KeepReset.lean: the operations of Machine/Reset.lean keep what every effect keeps (Laws/Keep.lean). -/
namespace Sys2Proof.Laws
open Sys2Proof.Machine
set_option linter.all false
set_option Elab.async false

theorem keep_cuBootWrite {r : State} (v : Nat) (s : State) (h2 : Keep r s) :
    Keep r (cuBootWrite v s).2 := by
  have k1 (reg x : Nat) : Keep r { (regPut 0 reg x s) with w1done := mput (fun _ => false) s.w1done reg true } :=
    KeepF.of (keep_regPut 0 reg x s h2) (h2 := fun h => keysRise_mput _ _ h)
  unfold cuBootWrite
  with_reducible apply Keep.iteS
  · exact h2
  · with_reducible apply Keep.iteS
    · exact k1 _ _
    · with_reducible exact keep_emit _ _ (keep_modCtl _ _ (k1 _ _) fun _ h => h)

theorem keep_blockReset {r : State} (cause : Nat) (s : State) (h2 : Keep r s) :
    Keep r (blockReset cause s) := by
  have : Keep s (blockReset cause s) := ⟨rfl, rfl, rfl, rfl, rfl, rfl, Nat.le_refl _, fun h => by
    obtain ⟨a1, _, _, _, a5, _, _, a8, _, _, _, _, _, _, _, _, _, _, _, _, _, _, _, _, _, _, h⟩ := wf_iff.1 h
    rw [memory_wf_iff] at h
    exact wf_iff.2 ⟨keysRise_filter _ a1, rfl, rfl, rfl, keysRise_filter _ a5, rfl, rfl, keysRise_filter _ (keysRise_map (fun e => keepDarned e.2) a8), rfl, rfl, rfl, rfl, rfl, rfl, rfl, rfl, rfl, rfl, rfl, rfl, rfl, rfl, rfl, rfl, rfl, rfl,
      memory_wf_iff.2 ⟨rfl, rfl, rfl, rfl, rfl, h.2.2.2.2.2⟩⟩⟩
  exact h2.trans this

theorem keep_execStartupRelease {r : State} (s : State) (h1 : Keep r s) :
    KeepOut r (execStartupRelease s) := by
  unfold execStartupRelease
  try extract_lets
  repeat' first
    | exact fun _ h => h
    | with_reducible assumption
    | intro _
    | with_reducible apply KeepOut.next
    | with_reducible apply keep_modCtl
    | with_reducible apply keep_modPwr
    | with_reducible apply KeepOut.ite
    | with_reducible apply Keep.ite
    | with_reducible apply Keep.foldl
    | with_reducible apply Keep.foldlP (p := Prod.snd)
    | with_reducible apply Keep.foldlP (p := Prod.fst)
    | with_reducible apply Keep.foldlT
    | split
    | simp only [Keep.mkIff]
    | (simp +zetaDelta only [KeepF.mkIff]; refine KeepF.of ?_)
    | simp +zetaDelta only [Keep.mkIff]
    | assumption

theorem keep_selTest {r : State} (i : Nat) (s : State) (h2 : Keep r s) :
    Keep r (selTest i s) := by
  unfold selTest
  try extract_lets
  repeat' first
    | with_reducible assumption
    | intro _
    | simp only [Keep.mkIff]
    | (simp +zetaDelta only [KeepF.mkIff]; refine KeepF.of ?_)
    | simp +zetaDelta only [Keep.mkIff]
    | assumption

theorem keep_fullClear {r : State} (s : State) (h1 : Keep r s) :
    Keep r (fullClear s) := by
  unfold fullClear
  simp only [KeepF.mkIff]
  refine KeepF.of h1 (hm := fun h => ?_)
  rw [memory_wf_iff] at h
  exact memory_wf_iff.2 ⟨rfl, rfl, rfl, rfl, h.2.2.2.2⟩

theorem keep_execMbistRun {r : State} (failing : List Nat) (s : State) (h2 : Keep r s) :
    KeepOut r (execMbistRun failing s) := by
  unfold execMbistRun
  try extract_lets
  repeat' first
    | with_reducible assumption
    | intro _
    | with_reducible apply KeepOut.next
    | with_reducible apply keep_selTest
    | with_reducible apply keep_fullClear
    | with_reducible apply KeepOut.ite
    | with_reducible apply Keep.ite
    | split
    | simp only [Keep.mkIff]
    | (simp +zetaDelta only [KeepF.mkIff]; refine KeepF.of ?_)
    | simp +zetaDelta only [Keep.mkIff]
    | assumption

theorem keep_execSeamTest {r : State} (failing : List Nat) (s : State) (h2 : Keep r s) :
    KeepOut r (execSeamTest failing s) := by
  unfold execSeamTest
  try extract_lets
  repeat' first
    | with_reducible assumption
    | intro _
    | with_reducible apply KeepOut.next
    | with_reducible apply keep_selTest
    | with_reducible apply keep_fullClear
    | with_reducible apply KeepOut.ite
    | with_reducible apply Keep.ite
    | split
    | simp only [Keep.mkIff]
    | (simp +zetaDelta only [KeepF.mkIff]; refine KeepF.of ?_)
    | simp +zetaDelta only [Keep.mkIff]
    | assumption

theorem keep_execPllRelockTimeout {r : State} (s : State) (h1 : Keep r s) :
    KeepOut r (execPllRelockTimeout s) := by
  unfold execPllRelockTimeout
  try extract_lets
  repeat' first
    | with_reducible assumption
    | intro _
    | with_reducible apply KeepOut.next
    | with_reducible apply keep_blockReset
    | with_reducible apply KeepOut.ite
    | with_reducible apply Keep.ite
    | split
    | simp only [Keep.mkIff]
    | (simp +zetaDelta only [KeepF.mkIff]; refine KeepF.of ?_)
    | simp +zetaDelta only [Keep.mkIff]
    | assumption

theorem keep_execPllRelock {r : State} (s : State) (h1 : Keep r s) :
    KeepOut r (execPllRelock s) := by
  unfold execPllRelock
  try extract_lets
  repeat' first
    | exact fun _ h => h
    | with_reducible assumption
    | intro _
    | with_reducible apply KeepOut.next
    | with_reducible apply keep_modCtl
    | with_reducible apply KeepOut.ite
    | with_reducible apply Keep.ite
    | split
    | simp only [Keep.mkIff]
    | (simp +zetaDelta only [KeepF.mkIff]; refine KeepF.of ?_)
    | simp +zetaDelta only [Keep.mkIff]
    | assumption

theorem keep_execWsIntest {r : State} (s : State) (h1 : Keep r s) :
    KeepOut r (execWsIntest s) := by
  unfold execWsIntest
  try extract_lets
  repeat' first
    | with_reducible assumption
    | intro _
    | with_reducible apply KeepOut.next
    | with_reducible apply keep_emit
    | with_reducible apply keep_selTest
    | with_reducible apply keep_fullClear
    | with_reducible apply KeepOut.ite
    | with_reducible apply Keep.ite
    | split
    | simp +zetaDelta only [Keep.mkIff]
    | assumption

theorem keep_execWsStatus {r : State} (s : State) (h1 : Keep r s) :
    KeepOut r (execWsStatus s) := by
  unfold execWsStatus
  try extract_lets
  repeat' first
    | with_reducible assumption
    | intro _
    | with_reducible apply KeepOut.next
    | with_reducible apply keep_emit
    | with_reducible apply keep_selTest
    | simp +zetaDelta only [Keep.mkIff]
    | assumption

theorem keep_execMicrocodeAnswer {r : State} (allow : Bool) (s : State) (h2 : Keep r s) :
    KeepOut r (execMicrocodeAnswer allow s) := by
  unfold execMicrocodeAnswer
  try extract_lets
  repeat' first
    | exact fun _ h => h
    | with_reducible assumption
    | intro _
    | with_reducible apply KeepOut.next
    | with_reducible apply keep_modCtl
    | with_reducible apply KeepOut.ite
    | with_reducible apply Keep.ite
    | split
    | simp +zetaDelta only [Keep.mkIff]
    | assumption

theorem keep_execWsExtest {r : State} (s : State) (h1 : Keep r s) :
    KeepOut r (execWsExtest s) := by
  unfold execWsExtest
  try extract_lets
  repeat' first
    | with_reducible assumption
    | intro _
    | with_reducible apply KeepOut.next
    | with_reducible apply keep_selTest
    | with_reducible apply keep_fullClear
    | with_reducible apply KeepOut.ite
    | with_reducible apply Keep.ite
    | split
    | simp +zetaDelta only [Keep.mkIff]
    | assumption

theorem keep_execVhvBrownout {r : State} (s : State) (h1 : Keep r s) :
    KeepOut r (execVhvBrownout s) := by
  unfold execVhvBrownout
  try extract_lets
  repeat' first
    | exact fun _ h => h
    | with_reducible assumption
    | intro _
    | with_reducible apply KeepOut.next
    | with_reducible apply keep_modCtl
    | simp only [Keep.mkIff]
    | (simp +zetaDelta only [KeepF.mkIff]; refine KeepF.of ?_)
    | simp +zetaDelta only [Keep.mkIff]
    | assumption

theorem keep_powerOn {r : State} (s : State) (h1 : Keep r s) :
    Keep r (powerOn s) := by
  have : Keep s (powerOn s) := ⟨rfl, rfl, rfl, rfl, rfl, rfl, Nat.le_succ _, fun h => by
    obtain ⟨_, _, _, _, _, _, _, _, _, _, _, _, _, _, _, _, _, _, _, _, _, _, _, _, _, _, h⟩ := wf_iff.1 h
    rw [memory_wf_iff] at h
    exact wf_iff.2 ⟨rfl, rfl, rfl, rfl, rfl, rfl, rfl, rfl, rfl, rfl, rfl, rfl, rfl, rfl, rfl, rfl, rfl, rfl, rfl, rfl, rfl, rfl, rfl, rfl, rfl, rfl,
      memory_wf_iff.2 ⟨rfl, rfl, rfl, rfl, rfl, h.2.2.2.2.2⟩⟩⟩
  exact h1.trans this

theorem keep_execPowerOnReset {r : State} (s : State) (h1 : Keep r s) :
    KeepOut r (execPowerOnReset s) := by
  unfold execPowerOnReset
  try extract_lets
  repeat' first
    | with_reducible assumption
    | intro _
    | with_reducible apply KeepOut.next
    | with_reducible apply keep_powerOn
    | simp +zetaDelta only [Keep.mkIff]
    | assumption

theorem keep_execBlockReset {r : State} (cause : Nat) (s : State) (h2 : Keep r s) :
    KeepOut r (execBlockReset cause s) := by
  unfold execBlockReset
  try extract_lets
  repeat' first
    | with_reducible assumption
    | intro _
    | with_reducible apply KeepOut.next
    | with_reducible apply keep_blockReset
    | with_reducible apply KeepOut.ite
    | with_reducible apply Keep.ite
    | split
    | simp +zetaDelta only [Keep.mkIff]
    | assumption

theorem keep_execPllUnlock {r : State} (s : State) (h1 : Keep r s) :
    KeepOut r (execPllUnlock s) := by
  unfold execPllUnlock
  try extract_lets
  repeat' first
    | exact fun _ h => h
    | with_reducible assumption
    | intro _
    | with_reducible apply KeepOut.next
    | with_reducible apply keep_modCtl
    | with_reducible apply KeepOut.ite
    | with_reducible apply Keep.ite
    | split
    | simp only [Keep.mkIff]
    | (simp +zetaDelta only [KeepF.mkIff]; refine KeepF.of ?_)
    | simp +zetaDelta only [Keep.mkIff]
    | assumption

theorem keep_execWsBypass {r : State} (s : State) (h1 : Keep r s) :
    KeepOut r (execWsBypass s) := by
  unfold execWsBypass
  try extract_lets
  repeat' first
    | with_reducible assumption
    | intro _
    | with_reducible apply KeepOut.next
    | with_reducible apply keep_selTest
    | simp +zetaDelta only [Keep.mkIff]
    | assumption

theorem keep_execFuseProg {r : State} (bits : List Nat) (s : State) (h2 : Keep r s) :
    KeepOut r (execFuseProg bits s) := by
  unfold execFuseProg
  try extract_lets
  repeat' first
    | with_reducible assumption
    | intro _
    | with_reducible apply KeepOut.next
    | with_reducible apply keep_selTest
    | with_reducible apply KeepOut.ite
    | with_reducible apply Keep.ite
    | split
    | simp only [Keep.mkIff]
    | (simp +zetaDelta only [KeepF.mkIff]; refine KeepF.of ?_)
    | simp +zetaDelta only [Keep.mkIff]
    | assumption

end Sys2Proof.Laws
end

