-- ==== Sys2Proof/Laws/KeepRegs.lean ====
section
/-! SUPPORT. Laws/KeepRegs.lean: the operations of Machine/Regs.lean keep what every effect keeps (Laws/Keep.lean). -/
namespace Sys2Proof.Laws
open Sys2Proof.Machine
set_option linter.all false
set_option Elab.async false

theorem keep_regStore {r : State} (u : Nat) (off : Nat) (d : Nat) (v : Nat) (s : State) (h5 : Keep r s) :
    Keep r (regStore u off d v s).2 := by
  unfold regStore
  try extract_lets
  repeat' first
    | with_reducible assumption
    | intro _
    | with_reducible apply keep_regPut
    | simp +zetaDelta only [Keep.mkIff]
    | assumption

theorem keep_portCfgWrite {r : State} (n : Nat) (p : Nat) (v : Nat) (s : State) (h4 : Keep r s) :
    Keep r (portCfgWrite n p v s).2 := by
  unfold portCfgWrite
  try extract_lets
  repeat' first
    | with_reducible assumption
    | intro _
    | with_reducible apply keep_regPut
    | with_reducible apply Keep.iteS
    | with_reducible apply Keep.ite
    | split
    | simp +zetaDelta only [Keep.mkIff]
    | assumption

theorem keep_regClear {r : State} (u : Nat) (off : Nat) (v : Nat) (s : State) (h4 : Keep r s) :
    Keep r (regClear u off v s).2 := by
  unfold regClear
  try extract_lets
  repeat' first
    | with_reducible assumption
    | intro _
    | with_reducible apply keep_regPut
    | with_reducible apply Keep.iteS
    | with_reducible apply Keep.ite
    | with_reducible apply Keep.foldl
    | with_reducible apply Keep.foldlP (p := Prod.snd)
    | with_reducible apply Keep.foldlP (p := Prod.fst)
    | with_reducible apply Keep.foldlT
    | split
    | simp +zetaDelta only [Keep.mkIff]
    | assumption

theorem keep_portOrdWrite {r : State} (n : Nat) (p : Nat) (v : Nat) (by_ : RegBy) (s : State) (h5 : Keep r s) :
    Keep r (portOrdWrite n p v by_ s).2 := by
  unfold portOrdWrite
  try extract_lets
  repeat' first
    | with_reducible assumption
    | intro _
    | with_reducible apply keep_dropReg
    | with_reducible apply keep_regPut
    | with_reducible apply Keep.iteS
    | with_reducible apply Keep.ite
    | split
    | simp +zetaDelta only [Keep.mkIff]
    | assumption

theorem keep_portWrite {r : State} (n : Nat) (p : Nat) (off : Nat) (v : Nat) (by_ : RegBy) (s : State) (h6 : Keep r s) :
    Keep r (portWrite n p off v by_ s).2 := by
  unfold portWrite
  try extract_lets
  repeat' first
    | with_reducible assumption
    | intro _
    | with_reducible apply keep_portCtlWrite
    | with_reducible apply keep_portCfgWrite
    | with_reducible apply keep_portCtxWrite
    | with_reducible apply keep_regClear
    | with_reducible apply keep_portOrdWrite
    | with_reducible apply Keep.iteS
    | with_reducible apply Keep.ite
    | split
    | simp +zetaDelta only [Keep.mkIff]
    | assumption

theorem keep_reguWrite {r : State} (n : Nat) (v : Nat) (s : State) (h3 : Keep r s) :
    Keep r (reguWrite n v s).2 := by
  unfold reguWrite
  try extract_lets
  repeat' first
    | with_reducible assumption
    | intro _
    | with_reducible apply keep_regPut
    | with_reducible apply keep_modSlice
    | with_reducible apply Keep.iteS
    | with_reducible apply Keep.ite
    | split
    | simp +zetaDelta only [Keep.mkIff]
    | assumption

theorem keep_idleTmrWrite {r : State} (n : Nat) (v : Nat) (s : State) (h3 : Keep r s) :
    Keep r (idleTmrWrite n v s).2 := by
  unfold idleTmrWrite
  try extract_lets
  repeat' first
    | with_reducible assumption
    | intro _
    | with_reducible apply keep_regPut
    | with_reducible apply keep_modPwr
    | with_reducible apply Keep.iteS
    | with_reducible apply Keep.ite
    | split
    | simp +zetaDelta only [Keep.mkIff]
    | assumption

theorem keep_railLimWrite {r : State} (n : Nat) (v : Nat) (s : State) (h3 : Keep r s) :
    Keep r (railLimWrite n v s).2 := by
  unfold railLimWrite
  try extract_lets
  repeat' first
    | with_reducible assumption
    | intro _
    | with_reducible apply keep_regPut
    | with_reducible apply Keep.iteS
    | with_reducible apply Keep.ite
    | split
    | simp +zetaDelta only [Keep.mkIff]
    | assumption

theorem keep_sliceWrite {r : State} (n : Nat) (off : Nat) (v : Nat) (by_ : RegBy) (s : State) (h5 : Keep r s) :
    Keep r (sliceWrite n off v by_ s).2 := by
  unfold sliceWrite
  try extract_lets
  repeat' first
    | with_reducible assumption
    | intro _
    | with_reducible apply keep_sleeveWrite
    | with_reducible apply keep_regStore
    | with_reducible apply keep_portWrite
    | with_reducible apply keep_qctlWrite
    | with_reducible apply keep_qctlDbWrite
    | with_reducible apply keep_qctlRackWrite
    | with_reducible apply keep_nmuCfgWrite
    | with_reducible apply keep_regClear
    | with_reducible apply keep_reguWrite
    | with_reducible apply keep_mchCtlWrite
    | with_reducible apply keep_mchParamWrite
    | with_reducible apply keep_pwrCtlWrite
    | with_reducible apply keep_idleTmrWrite
    | with_reducible apply keep_railLimWrite
    | with_reducible apply Keep.iteS
    | with_reducible apply Keep.ite
    | split
    | simp +zetaDelta only [Keep.mkIff]
    | assumption

theorem keep_partWrite {r : State} (p : Nat) (off : Nat) (v : Nat) (by_ : RegBy) (s : State) (h5 : Keep r s) :
    Keep r (partWrite p off v by_ s).2 := by
  unfold partWrite
  try extract_lets
  repeat' first
    | with_reducible assumption
    | intro _
    | with_reducible apply keep_partCtlWrite
    | with_reducible apply keep_dropReg
    | with_reducible apply keep_regStore
    | with_reducible apply Keep.iteS
    | with_reducible apply Keep.ite
    | split
    | simp +zetaDelta only [Keep.mkIff]
    | assumption

theorem keep_commonWrite {r : State} (off : Nat) (v : Nat) (by_ : RegBy) (s : State) (h4 : Keep r s) :
    Keep r (commonWrite off v by_ s).2 := by
  unfold commonWrite
  try extract_lets
  repeat' first
    | with_reducible assumption
    | intro _
    | with_reducible apply keep_cmapWrite
    | with_reducible apply keep_dbgWrite
    | with_reducible apply keep_regStore
    | with_reducible apply keep_cuBootWrite
    | with_reducible apply keep_blockReset
    | with_reducible apply keep_devPwrWrite
    | with_reducible apply keep_partWrite
    | with_reducible apply keep_dropReg
    | with_reducible apply Keep.iteS
    | with_reducible apply Keep.ite
    | split
    | simp +zetaDelta only [Keep.mkIff]
    | assumption

theorem keep_markW1 {r : State} (u : Nat) (off : Nat) (x : RegRes) (h3 : Keep r x.2) :
    Keep r (markW1 u off x).2 := by
  unfold markW1
  try extract_lets
  repeat' first
    | with_reducible assumption
    | intro _
    | with_reducible apply Keep.iteS
    | with_reducible apply Keep.ite
    | (refine Keep.snd (by assumption) ?_)
    | (refine Keep.fst (by assumption) ?_)
    | (refine Keep.thd (by assumption) ?_)
    | split
    | simp only [Keep.mkIff]
    | (simp +zetaDelta only [KeepF.mkIff]; refine KeepF.of ?_)
    | simp +zetaDelta only [Keep.mkIff]
    | assumption

theorem keep_regWrite1 {r : State} (u : Nat) (off : Nat) (v : Nat) (by_ : RegBy) (s : State) (h5 : Keep r s) :
    Keep r (regWrite1 u off v by_ s).2 := by
  unfold regWrite1
  try extract_lets
  repeat' first
    | with_reducible assumption
    | intro _
    | with_reducible apply keep_dropReg
    | with_reducible apply keep_markW1
    | with_reducible apply keep_sliceWrite
    | with_reducible apply keep_commonWrite
    | with_reducible apply Keep.iteS
    | with_reducible apply Keep.ite
    | split
    | simp +zetaDelta only [Keep.mkIff]
    | assumption

theorem keep_lateHalf {r : State} (st : Status) (by_ : RegBy) (addr : Nat) (s : State) (h4 : Keep r s) :
    Keep r (lateHalf st by_ addr s) := by
  unfold lateHalf
  try extract_lets
  repeat' first
    | with_reducible assumption
    | intro _
    | with_reducible apply keep_modCmd
    | with_reducible apply keep_modOp
    | with_reducible apply keep_emit
    | with_reducible apply Keep.ite
    | (refine Keep.snd (by assumption) ?_)
    | (refine Keep.fst (by assumption) ?_)
    | (refine Keep.thd (by assumption) ?_)
    | split
    | simp +zetaDelta only [Keep.mkIff]
    | assumption

theorem keep_regWrite2 {r : State} (u : Nat) (off : Nat) (v : Nat) (by_ : RegBy) (s : State) (h5 : Keep r s) :
    Keep r (regWrite2 u off v by_ s).2 := by
  unfold regWrite2
  try extract_lets
  repeat' first
    | with_reducible assumption
    | intro _
    | with_reducible apply keep_regWrite1
    | with_reducible apply keep_lateHalf
    | (refine Keep.snd (by assumption) ?_)
    | (refine Keep.fst (by assumption) ?_)
    | (refine Keep.thd (by assumption) ?_)
    | split
    | simp +zetaDelta only [Keep.mkIff]
    | assumption

theorem keep_regWrite {r : State} (a : Nat) (size8 : Bool) (v : Nat) (by_ : RegBy) (s : State) (h5 : Keep r s) :
    Keep r (regWrite a size8 v by_ s).2 := by
  unfold regWrite
  try extract_lets
  repeat' first
    | with_reducible assumption
    | intro _
    | with_reducible apply keep_mirrorWrite
    | with_reducible apply keep_reservedReg
    | with_reducible apply keep_regWrite1
    | with_reducible apply keep_cmapWrite
    | with_reducible apply keep_dbgWrite
    | with_reducible apply keep_regWrite2
    | with_reducible apply Keep.iteS
    | with_reducible apply Keep.ite
    | split
    | simp +zetaDelta only [Keep.mkIff]
    | assumption

theorem keep_regReadEffect {r : State} (a : Nat) (s : State) (h2 : Keep r s) :
    Keep r (regReadEffect a s) := by
  unfold regReadEffect
  try extract_lets
  repeat' first
    | with_reducible assumption
    | intro _
    | with_reducible apply keep_modChan
    | with_reducible apply Keep.ite
    | split
    | simp +zetaDelta only [Keep.mkIff]
    | assumption

end Sys2Proof.Laws
end

