-- ==== Sys2Proof/Laws/KeepPortCmds.lean ====
section
/-! SUPPORT. Laws/KeepPortCmds.lean: the operations of Machine/PortCmds.lean keep what every effect keeps (Laws/Keep.lean). -/
namespace Sys2Proof.Laws
open Sys2Proof.Machine
set_option linter.all false
set_option Elab.async false

theorem keep_dropTagDup {r : State} (v0 : Req) (s : State) (h2 : Keep r s) :
    Keep r (dropTagDup v0 s) := by
  unfold dropTagDup
  try extract_lets
  repeat' first
    | with_reducible assumption
    | intro _
    | with_reducible apply keep_logEvent
    | with_reducible apply keep_portErr
    | simp +zetaDelta only [Keep.mkIff]
    | assumption

theorem keep_remoteReq {r : State} (v0 : Req) (s : State) (h2 : Keep r s) :
    Keep r (remoteReq v0 s) := by
  unfold remoteReq
  try extract_lets
  repeat' first
    | with_reducible assumption
    | intro _
    | with_reducible apply keep_refuseReq
    | with_reducible apply keep_refuseG
    | with_reducible apply keep_passOut
    | with_reducible apply Keep.ite
    | split
    | simp +zetaDelta only [Keep.mkIff]
    | assumption

theorem keep_regionReply {r : State} (v0 : Req) (bs : List Byte) (s : State) (h3 : Keep r s) :
    Keep r (regionReply v0 bs s) := by
  unfold regionReply
  try extract_lets
  repeat' first
    | with_reducible assumption
    | intro _
    | with_reducible apply keep_replyReq
    | simp +zetaDelta only [Keep.mkIff]
    | assumption

theorem keep_loadArea {r : State} (v0 : Req) (o : Nat) (s : State) (h3 : Keep r s) :
    Keep r (loadArea v0 o s) := by
  unfold loadArea
  try extract_lets
  repeat' first
    | with_reducible assumption
    | intro _
    | with_reducible apply keep_refuseReq
    | with_reducible apply keep_refuseG
    | with_reducible apply keep_regionReply
    | with_reducible apply keep_replyReq
    | with_reducible apply Keep.ite
    | split
    | simp only [Keep.mkIff]
    | (simp +zetaDelta only [KeepF.mkIff]; refine KeepF.of ?_)
    | simp +zetaDelta only [Keep.mkIff]
    | assumption

theorem keep_bootWindow {r : State} (v0 : Req) (s : State) (h2 : Keep r s) :
    Keep r (bootWindow v0 s) := by
  unfold bootWindow
  try extract_lets
  repeat' first
    | with_reducible assumption
    | intro _
    | with_reducible apply keep_refuseReq
    | with_reducible apply keep_loadArea
    | with_reducible apply keep_acceptPocket
    | with_reducible apply Keep.ite
    | (refine Keep.snd (by assumption) ?_)
    | (refine Keep.fst (by assumption) ?_)
    | (refine Keep.thd (by assumption) ?_)
    | split
    | simp +zetaDelta only [Keep.mkIff]
    | assumption

theorem keep_sysRegion {r : State} (v0 : Req) (s : State) (h2 : Keep r s) :
    Keep r (sysRegion v0 s) := by
  unfold sysRegion
  try extract_lets
  repeat' first
    | with_reducible assumption
    | intro _
    | with_reducible apply keep_refuseReq
    | with_reducible apply keep_refuseG
    | with_reducible apply keep_replyReq
    | with_reducible apply keep_touch
    | with_reducible apply keep_drawFree
    | with_reducible apply keep_regionReply
    | with_reducible apply keep_report
    | with_reducible apply keep_sysWrite
    | with_reducible apply Keep.ite
    | (refine Keep.snd (by assumption) ?_)
    | (refine Keep.fst (by assumption) ?_)
    | (refine Keep.thd (by assumption) ?_)
    | split
    | simp +zetaDelta only [Keep.mkIff]
    | assumption

theorem keep_regErr {r : State} (n : Nat) (p : Nat) (st : Status) (s : State) (h4 : Keep r s) :
    Keep r (regErr n p st s) := by
  unfold regErr
  try extract_lets
  repeat' first
    | with_reducible assumption
    | intro _
    | with_reducible apply keep_portErr
    | with_reducible apply Keep.ite
    | split
    | simp +zetaDelta only [Keep.mkIff]
    | assumption

theorem keep_regAccessWrite {r : State} (v0 : Req) (s : State) (h2 : Keep r s) :
    Keep r (regAccessWrite v0 s) := by
  unfold regAccessWrite
  try extract_lets
  repeat' first
    | with_reducible assumption
    | intro _
    | with_reducible apply keep_freshId
    | with_reducible apply keep_regWrite
    | with_reducible apply keep_respond
    | with_reducible apply keep_regErr
    | with_reducible apply Keep.ite
    | (refine Keep.snd (by assumption) ?_)
    | (refine Keep.fst (by assumption) ?_)
    | (refine Keep.thd (by assumption) ?_)
    | split
    | simp only [Keep.mkIff]
    | (simp +zetaDelta only [KeepF.mkIff]; refine KeepF.of ?_)
    | simp +zetaDelta only [Keep.mkIff]
    | assumption

theorem keep_regRegion {r : State} (v0 : Req) (s : State) (h2 : Keep r s) :
    Keep r (regRegion v0 s) := by
  unfold regRegion
  try extract_lets
  repeat' first
    | with_reducible assumption
    | intro _
    | with_reducible apply keep_refuseReq
    | with_reducible apply keep_refuseG
    | with_reducible apply keep_regAccessWrite
    | with_reducible apply keep_regionReply
    | with_reducible apply keep_regReadEffect
    | with_reducible apply Keep.ite
    | split
    | simp +zetaDelta only [Keep.mkIff]
    | assumption

theorem keep_localReq {r : State} (v0 : Req) (s : State) (h2 : Keep r s) :
    Keep r (localReq v0 s) := by
  unfold localReq
  try extract_lets
  repeat' first
    | with_reducible assumption
    | intro _
    | with_reducible apply keep_refuseReq
    | with_reducible apply keep_acceptPocket
    | with_reducible apply keep_bootWindow
    | with_reducible apply keep_sysRegion
    | with_reducible apply keep_regRegion
    | with_reducible apply Keep.ite
    | (refine Keep.snd (by assumption) ?_)
    | (refine Keep.fst (by assumption) ?_)
    | (refine Keep.thd (by assumption) ?_)
    | split
    | simp +zetaDelta only [Keep.mkIff]
    | assumption

theorem keep_decodeReq {r : State} (v0 : Req) (s : State) (h2 : Keep r s) :
    Keep r (decodeReq v0 s) := by
  unfold decodeReq
  try extract_lets
  repeat' first
    | with_reducible assumption
    | intro _
    | with_reducible apply keep_refuseReq
    | with_reducible apply keep_remoteReq
    | with_reducible apply keep_localReq
    | with_reducible apply Keep.ite
    | split
    | simp +zetaDelta only [Keep.mkIff]
    | assumption

theorem keep_portTake {r : State} (v0 : Req) (s : State) (h2 : Keep r s) :
    Keep r (portTake v0 s) := by
  unfold portTake
  try extract_lets
  repeat' first
    | with_reducible assumption
    | intro _
    | with_reducible apply keep_dropTagDup
    | with_reducible apply keep_admitBeats
    | with_reducible apply keep_decodeReq
    | with_reducible apply Keep.ite
    | split
    | simp +zetaDelta only [Keep.mkIff]
    | assumption

theorem keep_portArrive {r : State} (v0 : Req) (s : State) (h2 : Keep r s) :
    Keep r (portArrive v0 s) := by
  unfold portArrive
  try extract_lets
  repeat' first
    | with_reducible assumption
    | intro _
    | with_reducible apply keep_replyReq
    | with_reducible apply keep_portErr
    | with_reducible apply keep_portTake
    | with_reducible apply keep_touch
    | with_reducible apply Keep.ite
    | (refine Keep.snd (by assumption) ?_)
    | (refine Keep.fst (by assumption) ?_)
    | (refine Keep.thd (by assumption) ?_)
    | split
    | simp +zetaDelta only [Keep.mkIff]
    | assumption

theorem keep_portCmd {r : State} (kind : Nat) (v1 : PortReq) (s : State) (h3 : Keep r s) :
    Keep r (portCmd kind v1 s) := by
  unfold portCmd
  try extract_lets
  repeat' first
    | with_reducible assumption
    | intro _
    | with_reducible apply keep_portArrive
    | with_reducible apply Keep.ite
    | split
    | simp +zetaDelta only [Keep.mkIff]
    | assumption

theorem keep_execFlush {r : State} (v0 : PortReq) (s : State) (h2 : Keep r s) :
    KeepOut r (execFlush v0 s) := by
  unfold execFlush
  try extract_lets
  repeat' first
    | with_reducible assumption
    | intro _
    | with_reducible apply KeepOut.next
    | with_reducible apply keep_portCmd
    | simp +zetaDelta only [Keep.mkIff]
    | assumption

theorem keep_execWrite {r : State} (v0 : PortReq) (s : State) (h2 : Keep r s) :
    KeepOut r (execWrite v0 s) := by
  unfold execWrite
  try extract_lets
  repeat' first
    | with_reducible assumption
    | intro _
    | with_reducible apply KeepOut.next
    | with_reducible apply keep_portCmd
    | simp +zetaDelta only [Keep.mkIff]
    | assumption

theorem keep_execAccWrite {r : State} (v0 : PortReq) (s : State) (h2 : Keep r s) :
    KeepOut r (execAccWrite v0 s) := by
  unfold execAccWrite
  try extract_lets
  repeat' first
    | with_reducible assumption
    | intro _
    | with_reducible apply KeepOut.next
    | with_reducible apply keep_portCmd
    | simp +zetaDelta only [Keep.mkIff]
    | assumption

theorem keep_execTspill {r : State} (v0 : PortReq) (s : State) (h2 : Keep r s) :
    KeepOut r (execTspill v0 s) := by
  unfold execTspill
  try extract_lets
  repeat' first
    | with_reducible assumption
    | intro _
    | with_reducible apply KeepOut.next
    | with_reducible apply keep_portCmd
    | simp +zetaDelta only [Keep.mkIff]
    | assumption

theorem keep_execTfill {r : State} (v0 : PortReq) (s : State) (h2 : Keep r s) :
    KeepOut r (execTfill v0 s) := by
  unfold execTfill
  try extract_lets
  repeat' first
    | with_reducible assumption
    | intro _
    | with_reducible apply KeepOut.next
    | with_reducible apply keep_portCmd
    | simp +zetaDelta only [Keep.mkIff]
    | assumption

theorem keep_execRead {r : State} (v0 : PortReq) (s : State) (h2 : Keep r s) :
    KeepOut r (execRead v0 s) := by
  unfold execRead
  try extract_lets
  repeat' first
    | with_reducible assumption
    | intro _
    | with_reducible apply KeepOut.next
    | with_reducible apply keep_portCmd
    | simp +zetaDelta only [Keep.mkIff]
    | assumption

end Sys2Proof.Laws
end

