-- ==== Sys2Proof/Laws/KeepFabTarget.lean ====
section
/-! SUPPORT. Laws/KeepFabTarget.lean: the operations of Machine/FabTarget.lean keep what every effect keeps (Laws/Keep.lean). -/
namespace Sys2Proof.Laws
open Sys2Proof.Machine
set_option linter.all false
set_option Elab.async false

theorem keep_answerMsg {r : State} (n : Nat) (q : CMsg) (ck : Nat) (st : Status) (handle : Nat) (arg0 : Nat) (arg1 : Nat) (data : List Byte) (s : State) (h9 : Keep r s) :
    Keep r (answerMsg n q ck st handle arg0 arg1 data s) := by
  unfold answerMsg
  try extract_lets
  repeat' first
    | with_reducible assumption
    | intro _
    | with_reducible apply keep_creditAnswer
    | simp +zetaDelta only [Keep.mkIff]
    | assumption

theorem keep_refuseMsg {r : State} (n : Nat) (m : CMsg) (ck : Nat) (st : Status) (s : State) (h5 : Keep r s) :
    Keep r (refuseMsg n m ck st s) := by
  unfold refuseMsg
  try extract_lets
  repeat' first
    | with_reducible assumption
    | intro _
    | with_reducible apply keep_answerMsg
    | with_reducible apply keep_report
    | simp +zetaDelta only [Keep.mkIff]
    | assumption

theorem keep_msgChecks {r : State} (f : Frame) (m0 : CMsg) (ck : Nat) (s : State) (k : Nat → CMsg → Ctx → State → State) (h4 : Keep r s) (h5 : ∀ a0 a1 a2 a3, Keep r a3 → Keep r (k a0 a1 a2 a3)) :
    Keep r (msgChecks f m0 ck s k) := by
  unfold msgChecks
  try extract_lets
  repeat' first
    | with_reducible assumption
    | intro _
    | with_reducible apply h5
    | with_reducible apply keep_refuseMsg
    | with_reducible apply keep_whenAwake
    | with_reducible apply keep_answerMsg
    | with_reducible apply Keep.ite
    | (refine Keep.snd (by assumption) ?_)
    | (refine Keep.fst (by assumption) ?_)
    | (refine Keep.thd (by assumption) ?_)
    | split
    | simp +zetaDelta only [Keep.mkIff]
    | assumption

theorem keep_endWith {r : State} (g : Grant) (ck : Nat) (m : CMsg) (s : State) (h4 : Keep r s) :
    Keep r (endWith g ck m s) := by
  unfold endWith
  try extract_lets
  repeat' first
    | with_reducible assumption
    | intro _
    | simp only [Keep.mkIff]
    | (simp +zetaDelta only [KeepF.mkIff]; refine KeepF.of ?_)
    | simp +zetaDelta only [Keep.mkIff]
    | assumption

theorem keep_releaseIn {r : State} (f : Frame) (m0 : CMsg) (t : State) (h3 : Keep r t) :
    Keep r (releaseIn f m0 t) := by
  unfold releaseIn
  try extract_lets
  repeat' first
    | with_reducible assumption
    | intro _
    | with_reducible apply keep_msgChecks
    | with_reducible apply keep_answerMsg
    | with_reducible apply keep_endGrants
    | with_reducible apply keep_endWith
    | with_reducible apply Keep.ite
    | (refine Keep.snd (by assumption) ?_)
    | (refine Keep.fst (by assumption) ?_)
    | (refine Keep.thd (by assumption) ?_)
    | split
    | simp +zetaDelta only [Keep.mkIff]
    | assumption

theorem keep_portAnswer {r : State} (f : Frame) (st : Status) (s : State) (h3 : Keep r s) :
    Keep r (portAnswer f st s) := by
  unfold portAnswer
  try extract_lets
  repeat' first
    | with_reducible assumption
    | intro _
    | with_reducible apply keep_emit
    | simp +zetaDelta only [Keep.mkIff]
    | assumption

theorem keep_frameLog {r : State} (f : Frame) (s : State) (h2 : Keep r s) :
    Keep r (frameLog f s) := by
  unfold frameLog
  try extract_lets
  repeat' first
    | with_reducible assumption
    | intro _
    | with_reducible apply keep_report
    | simp +zetaDelta only [Keep.mkIff]
    | assumption

theorem keep_deliver {r : State} (f : Frame) (s : State) (h2 : Keep r s) :
    Keep r (deliver f s) := by
  unfold deliver
  try extract_lets
  repeat' first
    | with_reducible assumption
    | intro _
    | with_reducible apply keep_portArrive
    | with_reducible apply keep_portAnswer
    | with_reducible apply keep_frameLog
    | with_reducible apply Keep.ite
    | (refine Keep.snd (by assumption) ?_)
    | (refine Keep.fst (by assumption) ?_)
    | (refine Keep.thd (by assumption) ?_)
    | split
    | simp +zetaDelta only [Keep.mkIff]
    | assumption

theorem keep_makeGrant {r : State} (n : Nat) (m : CMsg) (x : Ctx) (st : Store) (p : Pocket) (win : Nat) (s : State) (h7 : Keep r s) :
    Keep r (makeGrant n m x st p win s) := by
  unfold makeGrant
  try extract_lets
  repeat' first
    | with_reducible assumption
    | intro _
    | with_reducible apply keep_drawFree
    | with_reducible apply keep_answerMsg
    | simp only [Keep.mkIff]
    | (simp +zetaDelta only [KeepF.mkIff]; refine KeepF.of ?_)
    | simp +zetaDelta only [Keep.mkIff]
    | assumption

theorem keep_deferGrant {r : State} (n : Nat) (m : CMsg) (x : Ctx) (s : State) (h4 : Keep r s) :
    Keep r (deferGrant n m x s) := by
  unfold deferGrant
  try extract_lets
  repeat' first
    | with_reducible assumption
    | intro _
    | with_reducible apply keep_answerMsg
    | with_reducible apply Keep.ite
    | split
    | simp only [Keep.mkIff]
    | (simp +zetaDelta only [KeepF.mkIff]; refine KeepF.of ?_)
    | simp +zetaDelta only [Keep.mkIff]
    | assumption

theorem keep_grantOn {r : State} (n : Nat) (stop : Nat) (m : CMsg) (x : Ctx) (st : Store) (p : Pocket) (s : State) (h7 : Keep r s) :
    Keep r (grantOn n stop m x st p s) := by
  unfold grantOn
  try extract_lets
  repeat' first
    | with_reducible assumption
    | intro _
    | with_reducible apply keep_answerMsg
    | with_reducible apply keep_makeGrant
    | with_reducible apply keep_deferGrant
    | with_reducible apply Keep.ite
    | (refine Keep.snd (by assumption) ?_)
    | (refine Keep.fst (by assumption) ?_)
    | (refine Keep.thd (by assumption) ?_)
    | split
    | simp +zetaDelta only [Keep.mkIff]
    | assumption

theorem keep_grantIn {r : State} (f : Frame) (m0 : CMsg) (t : State) (h3 : Keep r t) :
    Keep r (grantIn f m0 t) := by
  unfold grantIn
  try extract_lets
  repeat' first
    | with_reducible assumption
    | intro _
    | with_reducible apply keep_msgChecks
    | with_reducible apply keep_refuseMsg
    | with_reducible apply keep_grantOn
    | with_reducible apply Keep.ite
    | (refine Keep.snd (by assumption) ?_)
    | (refine Keep.fst (by assumption) ?_)
    | (refine Keep.thd (by assumption) ?_)
    | split
    | simp +zetaDelta only [Keep.mkIff]
    | assumption

theorem keep_renewIn {r : State} (f : Frame) (m0 : CMsg) (t : State) (h3 : Keep r t) :
    Keep r (renewIn f m0 t) := by
  unfold renewIn
  try extract_lets
  repeat' first
    | with_reducible assumption
    | intro _
    | with_reducible apply keep_msgChecks
    | with_reducible apply keep_answerMsg
    | with_reducible apply keep_endWith
    | with_reducible apply Keep.ite
    | (refine Keep.snd (by assumption) ?_)
    | (refine Keep.fst (by assumption) ?_)
    | (refine Keep.thd (by assumption) ?_)
    | split
    | simp only [Keep.mkIff]
    | (simp +zetaDelta only [KeepF.mkIff]; refine KeepF.of ?_)
    | simp +zetaDelta only [Keep.mkIff]
    | assumption

theorem keep_withdrawIn {r : State} (m : CMsg) (t : State) (h2 : Keep r t) :
    Keep r (withdrawIn m t) := by
  unfold withdrawIn
  try extract_lets
  repeat' first
    | with_reducible assumption
    | intro _
    | simp only [Keep.mkIff]
    | (simp +zetaDelta only [KeepF.mkIff]; refine KeepF.of ?_)
    | simp +zetaDelta only [Keep.mkIff]
    | assumption

theorem keep_signalAnswer {r : State} (n : Nat) (f : Frame) (st : Status) (result : Nat) (s : State) (h5 : Keep r s) :
    Keep r (signalAnswer n f st result s) := by
  unfold signalAnswer
  try extract_lets
  repeat' first
    | with_reducible assumption
    | intro _
    | with_reducible apply keep_putFrame
    | simp +zetaDelta only [Keep.mkIff]
    | assumption

theorem keep_signalIn {r : State} (f : Frame) (x : Ctx) (n : Nat) (s : State) (h4 : Keep r s) :
    Keep r (signalIn f x n s) := by
  unfold signalIn
  try extract_lets
  repeat' first
    | with_reducible assumption
    | intro _
    | with_reducible apply keep_signalAnswer
    | with_reducible apply keep_report
    | with_reducible apply keep_whenAwake
    | with_reducible apply keep_signalCounter
    | with_reducible apply keep_drawFree
    | with_reducible apply Keep.ite
    | (refine Keep.snd (by assumption) ?_)
    | (refine Keep.fst (by assumption) ?_)
    | (refine Keep.thd (by assumption) ?_)
    | split
    | simp +zetaDelta only [Keep.mkIff]
    | assumption

theorem keep_signalCame {r : State} (f : Frame) (t : State) (h2 : Keep r t) :
    Keep r (signalCame f t) := by
  unfold signalCame
  try extract_lets
  repeat' first
    | with_reducible assumption
    | intro _
    | with_reducible apply keep_signalAnswer
    | with_reducible apply keep_report
    | with_reducible apply keep_signalIn
    | with_reducible apply Keep.ite
    | (refine Keep.snd (by assumption) ?_)
    | (refine Keep.fst (by assumption) ?_)
    | (refine Keep.thd (by assumption) ?_)
    | split
    | simp +zetaDelta only [Keep.mkIff]
    | assumption

theorem keep_execFabricRequestFrame {r : State} (f : Frame) (s : State) (h2 : Keep r s) :
    KeepOut r (execFabricRequestFrame f s) := by
  unfold execFabricRequestFrame
  try extract_lets
  repeat' first
    | with_reducible assumption
    | intro _
    | with_reducible apply KeepOut.next
    | with_reducible apply keep_frameIn
    | with_reducible apply keep_deliver
    | simp +zetaDelta only [Keep.mkIff]
    | assumption

theorem keep_serveDeferred {r : State} (d : Deferral) (s : State) (h2 : Keep r s) :
    Keep r (serveDeferred d s) := by
  unfold serveDeferred
  try extract_lets
  repeat' first
    | with_reducible assumption
    | intro _
    | with_reducible apply keep_answerMsg
    | with_reducible apply keep_refuseMsg
    | with_reducible apply keep_makeGrant
    | with_reducible apply Keep.ite
    | (refine Keep.snd (by assumption) ?_)
    | (refine Keep.fst (by assumption) ?_)
    | (refine Keep.thd (by assumption) ?_)
    | split
    | simp only [Keep.mkIff]
    | (simp +zetaDelta only [KeepF.mkIff]; refine KeepF.of ?_)
    | simp +zetaDelta only [Keep.mkIff]
    | assumption

theorem keep_execCounterSignalFrame {r : State} (f : Frame) (s : State) (h2 : Keep r s) :
    KeepOut r (execCounterSignalFrame f s) := by
  unfold execCounterSignalFrame
  try extract_lets
  repeat' first
    | with_reducible assumption
    | intro _
    | with_reducible apply KeepOut.next
    | with_reducible apply keep_frameIn
    | with_reducible apply keep_signalCame
    | with_reducible apply KeepOut.ite
    | with_reducible apply Keep.ite
    | split
    | simp +zetaDelta only [Keep.mkIff]
    | assumption

theorem keep_execGrant {r : State} (f : Frame) (s : State) (h2 : Keep r s) :
    KeepOut r (execGrant f s) := by
  unfold execGrant
  try extract_lets
  repeat' first
    | with_reducible assumption
    | intro _
    | with_reducible apply KeepOut.next
    | with_reducible apply keep_creditFrame
    | with_reducible apply keep_grantIn
    | simp +zetaDelta only [Keep.mkIff]
    | assumption

theorem keep_execGrantExpiry {r : State} (part : Nat) (index : Nat) (s : State) (h3 : Keep r s) :
    KeepOut r (execGrantExpiry part index s) := by
  unfold execGrantExpiry
  try extract_lets
  repeat' first
    | with_reducible assumption
    | intro _
    | with_reducible apply KeepOut.next
    | with_reducible apply keep_endGrants
    | with_reducible apply keep_timeTo
    | (refine Keep.snd (by assumption) ?_)
    | (refine Keep.fst (by assumption) ?_)
    | (refine Keep.thd (by assumption) ?_)
    | split
    | simp +zetaDelta only [Keep.mkIff]
    | assumption

theorem keep_execRelease {r : State} (f : Frame) (s : State) (h2 : Keep r s) :
    KeepOut r (execRelease f s) := by
  unfold execRelease
  try extract_lets
  repeat' first
    | with_reducible assumption
    | intro _
    | with_reducible apply KeepOut.next
    | with_reducible apply keep_creditFrame
    | with_reducible apply keep_releaseIn
    | simp +zetaDelta only [Keep.mkIff]
    | assumption

theorem keep_execRenew {r : State} (f : Frame) (s : State) (h2 : Keep r s) :
    KeepOut r (execRenew f s) := by
  unfold execRenew
  try extract_lets
  repeat' first
    | with_reducible assumption
    | intro _
    | with_reducible apply KeepOut.next
    | with_reducible apply keep_creditFrame
    | with_reducible apply keep_renewIn
    | simp +zetaDelta only [Keep.mkIff]
    | assumption

theorem keep_execWithdraw {r : State} (f : Frame) (s : State) (h2 : Keep r s) :
    KeepOut r (execWithdraw f s) := by
  unfold execWithdraw
  try extract_lets
  repeat' first
    | with_reducible assumption
    | intro _
    | with_reducible apply KeepOut.next
    | with_reducible apply keep_creditFrame
    | with_reducible apply keep_withdrawIn
    | simp +zetaDelta only [Keep.mkIff]
    | assumption

theorem keep_execDeferredGrantServe {r : State} (part : Nat) (s : State) (h2 : Keep r s) :
    KeepOut r (execDeferredGrantServe part s) := by
  unfold execDeferredGrantServe
  try extract_lets
  repeat' first
    | with_reducible assumption
    | intro _
    | with_reducible apply KeepOut.next
    | with_reducible apply keep_whenAwake
    | with_reducible apply keep_serveDeferred
    | (refine Keep.snd (by assumption) ?_)
    | (refine Keep.fst (by assumption) ?_)
    | (refine Keep.thd (by assumption) ?_)
    | split
    | simp +zetaDelta only [Keep.mkIff]
    | assumption

end Sys2Proof.Laws
end

