-- ==== Sys2Proof/Laws/KeepBeats.lean ====
section
/-! SUPPORT. Laws/KeepBeats.lean: the operations of Machine/Beats.lean keep what every effect keeps (Laws/Keep.lean). -/
namespace Sys2Proof.Laws
open Sys2Proof.Machine
set_option linter.all false
set_option Elab.async false

theorem keep_ownMessage {r : State} (f : Frame) (s : State) (h2 : Keep r s) :
    Keep r (ownMessage f s) := by
  unfold ownMessage
  try extract_lets
  repeat' first
    | with_reducible assumption
    | intro _
    | with_reducible apply keep_grantIn
    | with_reducible apply keep_renewIn
    | with_reducible apply keep_releaseIn
    | with_reducible apply keep_withdrawIn
    | with_reducible apply keep_grantAnswer
    | with_reducible apply keep_renewAnswer
    | with_reducible apply keep_releaseAnswer
    | with_reducible apply keep_deferredNotice
    | with_reducible apply Keep.ite
    | (refine Keep.snd (by assumption) ?_)
    | (refine Keep.fst (by assumption) ?_)
    | (refine Keep.thd (by assumption) ?_)
    | split
    | simp +zetaDelta only [Keep.mkIff]
    | assumption

theorem keep_ownDeliver {r : State} (f : Frame) (s : State) (h2 : Keep r s) :
    Keep r (ownDeliver f s) := by
  unfold ownDeliver
  try extract_lets
  repeat' first
    | with_reducible assumption
    | intro _
    | with_reducible apply keep_deliver
    | with_reducible apply keep_takeAnswer
    | with_reducible apply keep_ownMessage
    | with_reducible apply keep_signalAnswered
    | with_reducible apply keep_signalCame
    | with_reducible apply Keep.ite
    | (refine Keep.snd (by assumption) ?_)
    | (refine Keep.fst (by assumption) ?_)
    | (refine Keep.thd (by assumption) ?_)
    | split
    | simp +zetaDelta only [Keep.mkIff]
    | assumption

theorem keep_ownOne {r : State} (s : State) (o : Out) (h1 : Keep r s) :
    Keep r (ownOne s o) := by
  unfold ownOne
  try extract_lets
  repeat' first
    | with_reducible assumption
    | intro _
    | with_reducible apply keep_ownDeliver
    | with_reducible apply Keep.ite
    | (refine Keep.snd (by assumption) ?_)
    | (refine Keep.fst (by assumption) ?_)
    | (refine Keep.thd (by assumption) ?_)
    | split
    | simp only [Keep.mkIff]
    | (simp +zetaDelta only [KeepF.mkIff]; refine KeepF.of ?_)
    | simp +zetaDelta only [Keep.mkIff]
    | assumption

theorem keep_ownFrames {r : State} (s : State) (h1 : Keep r s) :
    Keep r (ownFrames s) := by
  unfold ownFrames
  try extract_lets
  repeat' first
    | with_reducible assumption
    | intro _
    | with_reducible apply keep_ownOne
    | with_reducible apply Keep.ite
    | with_reducible apply Keep.foldl
    | with_reducible apply Keep.foldlP (p := Prod.snd)
    | with_reducible apply Keep.foldlP (p := Prod.fst)
    | with_reducible apply Keep.foldlT
    | split
    | simp +zetaDelta only [Keep.mkIff]
    | assumption

theorem keep_execBankBeat {r : State} (s : State) (h1 : Keep r s) :
    KeepOut r (execBankBeat s) := by
  unfold execBankBeat
  split
  · have k := keep_countBubble _ (keep_darnSteps _ (keep_restTimers _ h1))
    exact KeepOut.next (keep_ownFrames _ (keep_bankCycle _ _ _ k))
  · exact KeepOut.next h1

end Sys2Proof.Laws
end

