-- ==== Sys2Proof/Laws/KeepPower.lean ====
section
/-! SUPPORT. Laws/KeepPower.lean: the operations of Machine/Power.lean keep what every effect keeps (Laws/Keep.lean). -/
namespace Sys2Proof.Laws
open Sys2Proof.Machine
set_option linter.all false
set_option Elab.async false

theorem keep_requestPoint {r : State} (p : Nat) (s : State) (h2 : Keep r s) :
    Keep r (requestPoint p s) := by
  unfold requestPoint
  try extract_lets
  repeat' first
    | with_reducible assumption
    | intro _
    | with_reducible apply Keep.ite
    | split
    | simp only [Keep.mkIff]
    | (simp +zetaDelta only [KeepF.mkIff]; refine KeepF.of ?_)
    | simp +zetaDelta only [Keep.mkIff]
    | assumption

theorem keep_lockNow {r : State} (l : FLock) (o : Origin) (s : State) (h3 : Keep r s) :
    Keep r (lockNow l o s) := by
  unfold lockNow
  try extract_lets
  repeat' first
    | with_reducible assumption
    | intro _
    | with_reducible apply keep_finish
    | with_reducible apply keep_requestPoint
    | with_reducible apply Keep.ite
    | (refine Keep.snd (by assumption) ?_)
    | (refine Keep.fst (by assumption) ?_)
    | (refine Keep.thd (by assumption) ?_)
    | split
    | simp only [Keep.mkIff]
    | (simp +zetaDelta only [KeepF.mkIff]; refine KeepF.of ?_)
    | simp +zetaDelta only [Keep.mkIff]
    | assumption

theorem keep_execFreqLock {r : State} (cmd : Nat) (s : State) (h2 : Keep r s) :
    KeepOut r (execFreqLock cmd s) := by
  unfold execFreqLock
  try extract_lets
  repeat' first
    | with_reducible assumption
    | intro _
    | with_reducible apply KeepOut.next
    | with_reducible apply keep_modCmd
    | with_reducible apply keep_cmdRefuse
    | with_reducible apply keep_lockNow
    | with_reducible apply KeepOut.ite
    | with_reducible apply Keep.ite
    | (refine Keep.snd (by assumption) ?_)
    | (refine Keep.fst (by assumption) ?_)
    | (refine Keep.thd (by assumption) ?_)
    | split
    | simp only [Keep.mkIff]
    | (simp +zetaDelta only [KeepF.mkIff]; refine KeepF.of ?_)
    | simp +zetaDelta only [Keep.mkIff]
    | assumption

theorem keep_thermal {r : State} (temps : List Nat) (s : State) (h2 : Keep r s) :
    Keep r (thermal temps s) := by
  unfold thermal
  try extract_lets
  repeat' first
    | with_reducible assumption
    | intro _
    | with_reducible apply keep_requestPoint
    | with_reducible apply Keep.ite
    | (refine Keep.snd (by assumption) ?_)
    | (refine Keep.fst (by assumption) ?_)
    | (refine Keep.thd (by assumption) ?_)
    | split
    | simp only [Keep.mkIff]
    | (simp +zetaDelta only [KeepF.mkIff]; refine KeepF.of ?_)
    | simp +zetaDelta only [Keep.mkIff]
    | assumption

theorem keep_applyCaps {r : State} (s : State) (h1 : Keep r s) :
    Keep r (applyCaps s) := by
  unfold applyCaps
  try extract_lets
  repeat' first
    | with_reducible assumption
    | intro _
    | with_reducible apply keep_cmdDone
    | with_reducible apply Keep.foldl
    | with_reducible apply Keep.foldlP (p := Prod.snd)
    | with_reducible apply Keep.foldlP (p := Prod.fst)
    | with_reducible apply Keep.foldlT
    | (refine Keep.snd (by assumption) ?_)
    | (refine Keep.fst (by assumption) ?_)
    | (refine Keep.thd (by assumption) ?_)
    | split
    | simp only [Keep.mkIff]
    | (simp +zetaDelta only [KeepF.mkIff]; refine KeepF.of ?_)
    | simp +zetaDelta only [Keep.mkIff]
    | assumption

theorem keep_pointSteps {r : State} (w : Window) (e : Nat) (full : Bool) (pr : Nat → Nat) (s : State) (h5 : Keep r s) :
    Keep r (pointSteps w e full pr s) := by
  unfold pointSteps
  try extract_lets
  repeat' first
    | with_reducible assumption
    | intro _
    | with_reducible apply keep_requestPoint
    | with_reducible apply Keep.ite
    | (refine Keep.snd (by assumption) ?_)
    | (refine Keep.fst (by assumption) ?_)
    | (refine Keep.thd (by assumption) ?_)
    | split
    | simp only [Keep.mkIff]
    | (simp +zetaDelta only [KeepF.mkIff]; refine KeepF.of ?_)
    | simp +zetaDelta only [Keep.mkIff]
    | assumption

theorem keep_rails {r : State} (currents : List Nat) (s : State) (h2 : Keep r s) :
    Keep r (rails currents s) := by
  unfold rails
  try extract_lets
  repeat' first
    | with_reducible assumption
    | intro _
    | with_reducible apply keep_drawFree
    | with_reducible apply Keep.ite
    | with_reducible apply Keep.foldl
    | with_reducible apply Keep.foldlP (p := Prod.snd)
    | with_reducible apply Keep.foldlP (p := Prod.fst)
    | with_reducible apply Keep.foldlT
    | (refine Keep.snd (by assumption) ?_)
    | (refine Keep.fst (by assumption) ?_)
    | (refine Keep.thd (by assumption) ?_)
    | split
    | simp only [Keep.mkIff]
    | (simp +zetaDelta only [KeepF.mkIff]; refine KeepF.of ?_)
    | simp +zetaDelta only [Keep.mkIff]
    | assumption

theorem keep_chargeModel {r : State} (p : Nat) (temps : List Nat) (charges : List (Nat × Nat)) (s : State) (h4 : Keep r s) :
    Keep r (chargeModel p temps charges s) := by
  unfold chargeModel
  extract_lets s1
  have k1 : Keep r s1 := by
    apply Keep.foldl
    · assumption
    · intro t x h
      dsimp only
      split
      · exact keep_setPart _ _ _ (keep_modCtx _ _ _ h)
      · exact h
  refine Keep.foldl _ k1 fun t q h => ?_
  extract_lets r e act t1
  split
  · exact h
  · split
    · exact keep_setPart _ _ _ h
    · exact Keep.foldl _ (keep_setPart _ _ _ h) fun u c k => keep_modCtx _ _ _ k

theorem keep_countReasons {r : State} (new : Nat) (s : State) (h2 : Keep r s) :
    Keep r (countReasons new s) := by
  unfold countReasons
  exact Keep.mkIff.2 h2

theorem keep_estimate {r : State} (counts : List Nat) (temps : List Nat) (currents : List Nat) (charges : List (Nat × Nat)) (s : State) (h5 : Keep r s) :
    Keep r (estimate counts temps currents charges s) := by
  have k1 : Keep r (thermal temps (applyCaps s)) := keep_thermal _ _ (keep_applyCaps _ h5)
  unfold estimate
  generalize thermal temps (applyCaps s) = s1 at k1 ⊢
  dsimp only
  refine Keep.mkIff.2 (keep_countReasons _ _ (keep_chargeModel _ _ _ _ (keep_rails _ _ (keep_pointSteps _ _ _ _ _ ?_))))
  exact Keep.mkIff.2 k1

theorem keep_execEstimateWindow {r : State} (counts : List Nat) (temps : List Nat) (currents : List Nat) (charges : List (Nat × Nat)) (s : State) (h5 : Keep r s) :
    KeepOut r (execEstimateWindow counts temps currents charges s) := by
  unfold execEstimateWindow
  split
  · exact KeepOut.next h5
  · exact KeepOut.next (keep_estimate _ _ _ _ _ (Keep.mkIff.2 h5))

theorem keep_execCapSet {r : State} (cmd : Nat) (s : State) (h2 : Keep r s) :
    KeepOut r (execCapSet cmd s) := by
  unfold execCapSet
  try extract_lets
  repeat' first
    | with_reducible assumption
    | intro _
    | with_reducible apply KeepOut.next
    | with_reducible apply keep_cmdRefuse
    | with_reducible apply keep_modCmd
    | with_reducible apply KeepOut.ite
    | with_reducible apply Keep.ite
    | (refine Keep.snd (by assumption) ?_)
    | (refine Keep.fst (by assumption) ?_)
    | (refine Keep.thd (by assumption) ?_)
    | split
    | simp only [Keep.mkIff]
    | (simp +zetaDelta only [KeepF.mkIff]; refine KeepF.of ?_)
    | simp +zetaDelta only [Keep.mkIff]
    | assumption

theorem keep_execPowerHint {r : State} (cmd : Nat) (s : State) (h2 : Keep r s) :
    KeepOut r (execPowerHint cmd s) := by
  unfold execPowerHint
  try extract_lets
  repeat' first
    | with_reducible assumption
    | intro _
    | with_reducible apply KeepOut.next
    | with_reducible apply keep_cmdDone
    | with_reducible apply KeepOut.ite
    | with_reducible apply Keep.ite
    | (refine Keep.snd (by assumption) ?_)
    | (refine Keep.fst (by assumption) ?_)
    | (refine Keep.thd (by assumption) ?_)
    | split
    | simp only [Keep.mkIff]
    | (simp +zetaDelta only [KeepF.mkIff]; refine KeepF.of ?_)
    | simp +zetaDelta only [Keep.mkIff]
    | assumption

theorem keep_execOpChangeDone {r : State} (s : State) (h1 : Keep r s) :
    KeepOut r (execOpChangeDone s) := by
  unfold execOpChangeDone
  try extract_lets
  repeat' first
    | with_reducible assumption
    | intro _
    | with_reducible apply KeepOut.next
    | with_reducible apply keep_requestPoint
    | with_reducible apply keep_finishAll
    | with_reducible apply KeepOut.ite
    | with_reducible apply Keep.ite
    | (refine Keep.snd (by assumption) ?_)
    | (refine Keep.fst (by assumption) ?_)
    | (refine Keep.thd (by assumption) ?_)
    | split
    | simp only [Keep.mkIff]
    | (simp +zetaDelta only [KeepF.mkIff]; refine KeepF.of ?_)
    | simp +zetaDelta only [Keep.mkIff]
    | assumption

theorem keep_execFreqLockAt {r : State} (s : State) (h1 : Keep r s) :
    KeepOut r (execFreqLockAt s) := by
  unfold execFreqLockAt
  try extract_lets
  repeat' first
    | with_reducible assumption
    | intro _
    | with_reducible apply KeepOut.next
    | with_reducible apply keep_timeTo
    | with_reducible apply keep_lockNow
    | with_reducible apply Keep.foldl
    | with_reducible apply Keep.foldlP (p := Prod.snd)
    | with_reducible apply Keep.foldlP (p := Prod.fst)
    | with_reducible apply Keep.foldlT
    | (refine Keep.snd (by assumption) ?_)
    | (refine Keep.fst (by assumption) ?_)
    | (refine Keep.thd (by assumption) ?_)
    | split
    | simp only [Keep.mkIff]
    | (simp +zetaDelta only [KeepF.mkIff]; refine KeepF.of ?_)
    | simp +zetaDelta only [Keep.mkIff]
    | assumption

theorem keep_execThermalTripTimeout {r : State} (s : State) (h1 : Keep r s) :
    KeepOut r (execThermalTripTimeout s) := by
  unfold execThermalTripTimeout
  try extract_lets
  repeat' first
    | with_reducible assumption
    | intro _
    | with_reducible apply KeepOut.next
    | with_reducible apply keep_timeTo
    | (refine Keep.snd (by assumption) ?_)
    | (refine Keep.fst (by assumption) ?_)
    | (refine Keep.thd (by assumption) ?_)
    | split
    | simp only [Keep.mkIff]
    | (simp +zetaDelta only [KeepF.mkIff]; refine KeepF.of ?_)
    | simp +zetaDelta only [Keep.mkIff]
    | assumption

end Sys2Proof.Laws
end

