-- ==== Sys2Proof/Laws/KeepRegRows.lean ====
section
/-! SUPPORT. Laws/KeepRegRows.lean: the operations of Machine/RegRows.lean keep what every effect keeps (Laws/Keep.lean). -/
namespace Sys2Proof.Laws
open Sys2Proof.Machine
set_option linter.all false
set_option Elab.async false

theorem keep_mgmtWrite {r : State} (bs : List Byte) (s : State) (h2 : Keep r s) :
    Keep r (mgmtWrite bs s) := by
  unfold mgmtWrite
  try extract_lets
  repeat' first
    | exact fun _ h => h
    | with_reducible assumption
    | intro _
    | with_reducible apply keep_emit
    | with_reducible apply keep_modCtl
    | with_reducible apply keep_devPwrWrite
    | with_reducible apply Keep.ite
    | (refine Keep.snd (by assumption) ?_)
    | (refine Keep.fst (by assumption) ?_)
    | (refine Keep.thd (by assumption) ?_)
    | split
    | simp +zetaDelta only [Keep.mkIff]
    | assumption

theorem keep_execManagementWrite {r : State} (bytes : List Byte) (s : State) (h2 : Keep r s) :
    KeepOut r (execManagementWrite bytes s) := by
  unfold execManagementWrite
  try extract_lets
  repeat' first
    | with_reducible assumption
    | intro _
    | with_reducible apply KeepOut.next
    | with_reducible apply keep_i3cWake
    | with_reducible apply keep_mgmtWrite
    | with_reducible apply KeepOut.ite
    | with_reducible apply Keep.ite
    | split
    | simp +zetaDelta only [Keep.mkIff]
    | assumption

theorem keep_writeRow {r : State} (a : Nat) (v : Nat) (w : RegWriter) (s : State) (h4 : Keep r s) :
    KeepOut r (writeRow a v w s) := by
  unfold writeRow
  try extract_lets
  repeat' first
    | with_reducible assumption
    | intro _
    | with_reducible apply KeepOut.next
    | with_reducible apply keep_regRow
    | with_reducible apply keep_regWrite
    | simp +zetaDelta only [Keep.mkIff]
    | assumption

theorem keep_pwrRow {r : State} (slice : Nat) (op : Nat) (noWait : Bool) (w : RegWriter) (s : State) (h5 : Keep r s) :
    KeepOut r (pwrRow slice op noWait w s) := by
  unfold pwrRow
  try extract_lets
  repeat' first
    | with_reducible assumption
    | intro _
    | with_reducible apply KeepOut.next
    | with_reducible apply keep_writeRow
    | simp +zetaDelta only [Keep.mkIff]
    | assumption

theorem keep_execWake {r : State} (slice : Nat) (noWait : Bool) (w : RegWriter) (s : State) (h4 : Keep r s) :
    KeepOut r (execWake slice noWait w s) := by
  unfold execWake
  try extract_lets
  repeat' first
    | with_reducible assumption
    | intro _
    | with_reducible apply KeepOut.next
    | with_reducible apply keep_pwrRow
    | simp +zetaDelta only [Keep.mkIff]
    | assumption

theorem keep_partRow {r : State} (op : Nat) (part : Nat) (v : Nat) (w : RegWriter) (s : State) (h5 : Keep r s) :
    KeepOut r (partRow op part v w s) := by
  unfold partRow
  try extract_lets
  repeat' first
    | with_reducible assumption
    | intro _
    | with_reducible apply KeepOut.next
    | with_reducible apply keep_writeRow
    | with_reducible apply KeepOut.ite
    | with_reducible apply Keep.ite
    | split
    | simp +zetaDelta only [Keep.mkIff]
    | assumption

theorem keep_execDissolve {r : State} (part : Nat) (v : Word) (w : RegWriter) (s : State) (h4 : Keep r s) :
    KeepOut r (execDissolve part v w s) := by
  unfold execDissolve
  try extract_lets
  repeat' first
    | with_reducible assumption
    | intro _
    | with_reducible apply KeepOut.next
    | with_reducible apply keep_partRow
    | simp +zetaDelta only [Keep.mkIff]
    | assumption

theorem keep_execSeal {r : State} (part : Nat) (v : Word) (w : RegWriter) (s : State) (h4 : Keep r s) :
    KeepOut r (execSeal part v w s) := by
  unfold execSeal
  try extract_lets
  repeat' first
    | with_reducible assumption
    | intro _
    | with_reducible apply KeepOut.next
    | with_reducible apply keep_partRow
    | simp +zetaDelta only [Keep.mkIff]
    | assumption

theorem keep_chanRow {r : State} (op : Nat) (slice : Nat) (mover : Nat) (ch : Nat) (v : Nat) (w : RegWriter) (s : State) (h7 : Keep r s) :
    KeepOut r (chanRow op slice mover ch v w s) := by
  unfold chanRow
  try extract_lets
  repeat' first
    | with_reducible assumption
    | intro _
    | with_reducible apply KeepOut.next
    | with_reducible apply keep_writeRow
    | with_reducible apply KeepOut.ite
    | with_reducible apply Keep.ite
    | split
    | simp +zetaDelta only [Keep.mkIff]
    | assumption

theorem keep_execStart {r : State} (slice : Nat) (mover : Nat) (ch : Nat) (v : Word) (w : RegWriter) (s : State) (h6 : Keep r s) :
    KeepOut r (execStart slice mover ch v w s) := by
  unfold execStart
  try extract_lets
  repeat' first
    | with_reducible assumption
    | intro _
    | with_reducible apply KeepOut.next
    | with_reducible apply keep_chanRow
    | simp +zetaDelta only [Keep.mkIff]
    | assumption

theorem keep_execConfigure {r : State} (part : Nat) (v : Word) (w : RegWriter) (s : State) (h4 : Keep r s) :
    KeepOut r (execConfigure part v w s) := by
  unfold execConfigure
  try extract_lets
  repeat' first
    | with_reducible assumption
    | intro _
    | with_reducible apply KeepOut.next
    | with_reducible apply keep_partRow
    | simp +zetaDelta only [Keep.mkIff]
    | assumption

theorem keep_regMiss {r : State} (c : Cmd) (s : State) (h2 : Keep r s) :
    Keep r (regMiss c s) := by
  unfold regMiss
  try extract_lets
  repeat' first
    | with_reducible assumption
    | intro _
    | with_reducible apply keep_report
    | with_reducible apply keep_cmdRefuse
    | with_reducible apply Keep.ite
    | split
    | simp +zetaDelta only [Keep.mkIff]
    | assumption

theorem keep_regWriteEnd {r : State} (id : Nat) (x : RegRes) (h2 : Keep r x.2) :
    Keep r (regWriteEnd id x) := by
  unfold regWriteEnd
  try extract_lets
  repeat' first
    | with_reducible assumption
    | intro _
    | with_reducible apply keep_cmdDone
    | with_reducible apply keep_modCmd
    | (refine Keep.snd (by assumption) ?_)
    | (refine Keep.fst (by assumption) ?_)
    | (refine Keep.thd (by assumption) ?_)
    | split
    | simp +zetaDelta only [Keep.mkIff]
    | assumption

theorem keep_execRegWrite {r : State} (cmd : Nat) (s : State) (h2 : Keep r s) :
    KeepOut r (execRegWrite cmd s) := by
  unfold execRegWrite
  try extract_lets
  repeat' first
    | with_reducible assumption
    | intro _
    | with_reducible apply KeepOut.next
    | with_reducible apply keep_regMiss
    | with_reducible apply keep_regWriteEnd
    | with_reducible apply keep_regWrite
    | with_reducible apply KeepOut.ite
    | with_reducible apply Keep.ite
    | (refine Keep.snd (by assumption) ?_)
    | (refine Keep.fst (by assumption) ?_)
    | (refine Keep.thd (by assumption) ?_)
    | split
    | simp +zetaDelta only [Keep.mkIff]
    | assumption

theorem keep_execRetain {r : State} (slice : Nat) (noWait : Bool) (w : RegWriter) (s : State) (h4 : Keep r s) :
    KeepOut r (execRetain slice noWait w s) := by
  unfold execRetain
  try extract_lets
  repeat' first
    | with_reducible assumption
    | intro _
    | with_reducible apply KeepOut.next
    | with_reducible apply keep_pwrRow
    | simp +zetaDelta only [Keep.mkIff]
    | assumption

theorem keep_execCuBootWrite {r : State} (v : Word) (w : RegWriter) (s : State) (h3 : Keep r s) :
    KeepOut r (execCuBootWrite v w s) := by
  unfold execCuBootWrite
  try extract_lets
  repeat' first
    | with_reducible assumption
    | intro _
    | with_reducible apply KeepOut.next
    | with_reducible apply keep_writeRow
    | simp +zetaDelta only [Keep.mkIff]
    | assumption

theorem keep_execRegRead {r : State} (cmd : Nat) (s : State) (h2 : Keep r s) :
    KeepOut r (execRegRead cmd s) := by
  unfold execRegRead
  try extract_lets
  repeat' first
    | with_reducible assumption
    | intro _
    | with_reducible apply KeepOut.next
    | with_reducible apply keep_cmdDone
    | with_reducible apply keep_regMiss
    | with_reducible apply KeepOut.ite
    | with_reducible apply Keep.ite
    | (refine Keep.snd (by assumption) ?_)
    | (refine Keep.fst (by assumption) ?_)
    | (refine Keep.thd (by assumption) ?_)
    | split
    | simp +zetaDelta only [Keep.mkIff]
    | assumption

theorem keep_qctlRow {r : State} (slice : Nat) (op : Nat) (qidx : Nat) (noWait : Bool) (w : RegWriter) (s : State) (h6 : Keep r s) :
    KeepOut r (qctlRow slice op qidx noWait w s) := by
  unfold qctlRow
  try extract_lets
  repeat' first
    | with_reducible assumption
    | intro _
    | with_reducible apply KeepOut.next
    | with_reducible apply keep_writeRow
    | simp +zetaDelta only [Keep.mkIff]
    | assumption

theorem keep_execUnpin {r : State} (slice : Nat) (qidx : Nat) (w : RegWriter) (s : State) (h4 : Keep r s) :
    KeepOut r (execUnpin slice qidx w s) := by
  unfold execUnpin
  try extract_lets
  repeat' first
    | with_reducible assumption
    | intro _
    | with_reducible apply KeepOut.next
    | with_reducible apply keep_qctlRow
    | simp +zetaDelta only [Keep.mkIff]
    | assumption

theorem keep_execOff {r : State} (slice : Nat) (noWait : Bool) (w : RegWriter) (s : State) (h4 : Keep r s) :
    KeepOut r (execOff slice noWait w s) := by
  unfold execOff
  try extract_lets
  repeat' first
    | with_reducible assumption
    | intro _
    | with_reducible apply KeepOut.next
    | with_reducible apply keep_pwrRow
    | simp +zetaDelta only [Keep.mkIff]
    | assumption

theorem keep_portRow {r : State} (slice : Nat) (port : Nat) (off : Nat) (v : Nat) (w : RegWriter) (s : State) (h6 : Keep r s) :
    KeepOut r (portRow slice port off v w s) := by
  unfold portRow
  try extract_lets
  repeat' first
    | with_reducible assumption
    | intro _
    | with_reducible apply KeepOut.next
    | with_reducible apply keep_writeRow
    | with_reducible apply KeepOut.ite
    | with_reducible apply Keep.ite
    | split
    | simp +zetaDelta only [Keep.mkIff]
    | assumption

theorem keep_execPortCtxWrite {r : State} (slice : Nat) (port : Nat) (v : Word) (w : RegWriter) (s : State) (h5 : Keep r s) :
    KeepOut r (execPortCtxWrite slice port v w s) := by
  unfold execPortCtxWrite
  try extract_lets
  repeat' first
    | with_reducible assumption
    | intro _
    | with_reducible apply KeepOut.next
    | with_reducible apply keep_portRow
    | simp +zetaDelta only [Keep.mkIff]
    | assumption

theorem keep_execPortDisable {r : State} (slice : Nat) (port : Nat) (noWait : Bool) (w : RegWriter) (s : State) (h5 : Keep r s) :
    KeepOut r (execPortDisable slice port noWait w s) := by
  unfold execPortDisable
  try extract_lets
  repeat' first
    | with_reducible assumption
    | intro _
    | with_reducible apply KeepOut.next
    | with_reducible apply keep_portRow
    | simp +zetaDelta only [Keep.mkIff]
    | assumption

theorem keep_execQctlDb {r : State} (slice : Nat) (v : Word) (w : RegWriter) (s : State) (h4 : Keep r s) :
    KeepOut r (execQctlDb slice v w s) := by
  unfold execQctlDb
  try extract_lets
  repeat' first
    | with_reducible assumption
    | intro _
    | with_reducible apply KeepOut.next
    | with_reducible apply keep_writeRow
    | simp +zetaDelta only [Keep.mkIff]
    | assumption

theorem keep_execPortEnable {r : State} (slice : Nat) (port : Nat) (noWait : Bool) (w : RegWriter) (s : State) (h5 : Keep r s) :
    KeepOut r (execPortEnable slice port noWait w s) := by
  unfold execPortEnable
  try extract_lets
  repeat' first
    | with_reducible assumption
    | intro _
    | with_reducible apply KeepOut.next
    | with_reducible apply keep_portRow
    | simp +zetaDelta only [Keep.mkIff]
    | assumption

theorem keep_execIdle {r : State} (slice : Nat) (noWait : Bool) (w : RegWriter) (s : State) (h4 : Keep r s) :
    KeepOut r (execIdle slice noWait w s) := by
  unfold execIdle
  try extract_lets
  repeat' first
    | with_reducible assumption
    | intro _
    | with_reducible apply KeepOut.next
    | with_reducible apply keep_pwrRow
    | simp +zetaDelta only [Keep.mkIff]
    | assumption

theorem keep_execDisable {r : State} (slice : Nat) (qidx : Nat) (w : RegWriter) (s : State) (h4 : Keep r s) :
    KeepOut r (execDisable slice qidx w s) := by
  unfold execDisable
  try extract_lets
  repeat' first
    | with_reducible assumption
    | intro _
    | with_reducible apply KeepOut.next
    | with_reducible apply keep_qctlRow
    | simp +zetaDelta only [Keep.mkIff]
    | assumption

theorem keep_execDeep {r : State} (w : RegWriter) (s : State) (h2 : Keep r s) :
    KeepOut r (execDeep w s) := by
  unfold execDeep
  try extract_lets
  repeat' first
    | with_reducible assumption
    | intro _
    | with_reducible apply KeepOut.next
    | with_reducible apply keep_writeRow
    | simp +zetaDelta only [Keep.mkIff]
    | assumption

theorem keep_execQctlRack {r : State} (slice : Nat) (v : Word) (w : RegWriter) (s : State) (h4 : Keep r s) :
    KeepOut r (execQctlRack slice v w s) := by
  unfold execQctlRack
  try extract_lets
  repeat' first
    | with_reducible assumption
    | intro _
    | with_reducible apply KeepOut.next
    | with_reducible apply keep_writeRow
    | simp +zetaDelta only [Keep.mkIff]
    | assumption

theorem keep_execEnable {r : State} (slice : Nat) (qidx : Nat) (noWait : Bool) (w : RegWriter) (s : State) (h5 : Keep r s) :
    KeepOut r (execEnable slice qidx noWait w s) := by
  unfold execEnable
  try extract_lets
  repeat' first
    | with_reducible assumption
    | intro _
    | with_reducible apply KeepOut.next
    | with_reducible apply keep_qctlRow
    | simp +zetaDelta only [Keep.mkIff]
    | assumption

theorem keep_execPin {r : State} (slice : Nat) (qidx : Nat) (w : RegWriter) (s : State) (h4 : Keep r s) :
    KeepOut r (execPin slice qidx w s) := by
  unfold execPin
  try extract_lets
  repeat' first
    | with_reducible assumption
    | intro _
    | with_reducible apply KeepOut.next
    | with_reducible apply keep_qctlRow
    | simp +zetaDelta only [Keep.mkIff]
    | assumption

theorem keep_execSleeveCfgWrite {r : State} (slice : Nat) (v : Word) (w : RegWriter) (s : State) (h4 : Keep r s) :
    KeepOut r (execSleeveCfgWrite slice v w s) := by
  unfold execSleeveCfgWrite
  try extract_lets
  repeat' first
    | with_reducible assumption
    | intro _
    | with_reducible apply KeepOut.next
    | with_reducible apply keep_writeRow
    | simp +zetaDelta only [Keep.mkIff]
    | assumption

theorem keep_execBootCtlWrite {r : State} (v : Word) (w : RegWriter) (s : State) (h3 : Keep r s) :
    KeepOut r (execBootCtlWrite v w s) := by
  unfold execBootCtlWrite
  try extract_lets
  repeat' first
    | with_reducible assumption
    | intro _
    | with_reducible apply KeepOut.next
    | with_reducible apply keep_writeRow
    | simp +zetaDelta only [Keep.mkIff]
    | assumption

theorem keep_execRegisterWrite {r : State} (addr : Nat) (size8 : Bool) (v : DWord) (w : RegWriter) (s : State) (h5 : Keep r s) :
    KeepOut r (execRegisterWrite addr size8 v w s) := by
  unfold execRegisterWrite
  try extract_lets
  repeat' first
    | with_reducible assumption
    | intro _
    | with_reducible apply KeepOut.next
    | with_reducible apply keep_regRow
    | with_reducible apply keep_regWrite
    | simp +zetaDelta only [Keep.mkIff]
    | assumption

theorem keep_execStop {r : State} (slice : Nat) (mover : Nat) (ch : Nat) (v : Word) (w : RegWriter) (s : State) (h6 : Keep r s) :
    KeepOut r (execStop slice mover ch v w s) := by
  unfold execStop
  try extract_lets
  repeat' first
    | with_reducible assumption
    | intro _
    | with_reducible apply KeepOut.next
    | with_reducible apply keep_chanRow
    | simp +zetaDelta only [Keep.mkIff]
    | assumption

theorem keep_execSuspend {r : State} (part : Nat) (v : Word) (w : RegWriter) (s : State) (h4 : Keep r s) :
    KeepOut r (execSuspend part v w s) := by
  unfold execSuspend
  try extract_lets
  repeat' first
    | with_reducible assumption
    | intro _
    | with_reducible apply KeepOut.next
    | with_reducible apply keep_partRow
    | simp +zetaDelta only [Keep.mkIff]
    | assumption

theorem keep_execActivate {r : State} (part : Nat) (v : Word) (w : RegWriter) (s : State) (h4 : Keep r s) :
    KeepOut r (execActivate part v w s) := by
  unfold execActivate
  try extract_lets
  repeat' first
    | with_reducible assumption
    | intro _
    | with_reducible apply KeepOut.next
    | with_reducible apply keep_partRow
    | simp +zetaDelta only [Keep.mkIff]
    | assumption

theorem keep_execI3cCcc {r : State} (code : Nat) (arg : Nat) (s : State) (h3 : Keep r s) :
    KeepOut r (execI3cCcc code arg s) := by
  unfold execI3cCcc
  try extract_lets
  repeat' first
    | exact fun _ h => h
    | with_reducible assumption
    | intro _
    | with_reducible apply KeepOut.next
    | with_reducible apply keep_modCtl
    | with_reducible apply keep_emit
    | with_reducible apply keep_drawFree
    | with_reducible apply KeepOut.ite
    | with_reducible apply Keep.ite
    | split
    | simp +zetaDelta only [Keep.mkIff]
    | assumption

end Sys2Proof.Laws
end

