-- ==== Sys2Proof/Laws/KeepDispatch.lean ====
section
/-! SUPPORT. Laws/KeepDispatch.lean: the operations of Machine/Dispatch.lean keep what every effect keeps (Laws/Keep.lean). -/
namespace Sys2Proof.Laws
open Sys2Proof.Machine
set_option linter.all false
set_option Elab.async false

theorem keep_exec {r : State} (i : Instr) (s : State) (h2 : Keep r s) :
    KeepOut r (exec i s) := by
  unfold exec
  try extract_lets
  repeat' first
    | with_reducible assumption
    | intro _
    | with_reducible apply KeepOut.next
    | with_reducible apply keep_execNop
    | with_reducible apply keep_execSlotFetch
    | with_reducible apply keep_execLink
    | with_reducible apply keep_execQueryCaps
    | with_reducible apply keep_execFence
    | with_reducible apply keep_execFlushRange
    | with_reducible apply keep_execFill
    | with_reducible apply keep_execCopy
    | with_reducible apply keep_execConvertCopy
    | with_reducible apply keep_execGemv
    | with_reducible apply keep_execGatherPool
    | with_reducible apply keep_execGatherPoolFinish
    | with_reducible apply keep_execReduceAcc
    | with_reducible apply keep_execSignal
    | with_reducible apply keep_execWait
    | with_reducible apply keep_execLockAcquire
    | with_reducible apply keep_execLockRelease
    | with_reducible apply keep_execLockClearAbandoned
    | with_reducible apply keep_execPocketSet
    | with_reducible apply keep_execCtxCreate
    | with_reducible apply keep_execCtxDestroy
    | with_reducible apply keep_execWeaveInstall
    | with_reducible apply keep_execContractBind
    | with_reducible apply keep_execPowerHint
    | with_reducible apply keep_execCapSet
    | with_reducible apply keep_execFreqLock
    | with_reducible apply keep_execFreqLockAt
    | with_reducible apply keep_execTelemetryRead
    | with_reducible apply keep_execMeterRead
    | with_reducible apply keep_execCreditRequest
    | with_reducible apply keep_execRemoteWrite
    | with_reducible apply keep_execRemoteRead
    | with_reducible apply keep_execScrubCtl
    | with_reducible apply keep_execScrubAutoResume
    | with_reducible apply keep_execEccTestWrite
    | with_reducible apply keep_execDarn
    | with_reducible apply keep_execLogRead
    | with_reducible apply keep_execRegWrite
    | with_reducible apply keep_execRegRead
    | with_reducible apply keep_execHeldPacketAdmit
    | with_reducible apply keep_execCommandComplete
    | with_reducible apply keep_execReplyWriteAcknowledged
    | with_reducible apply keep_execIrqGapExpiry
    | with_reducible apply keep_execDoorbell
    | with_reducible apply keep_execReplyAck
    | with_reducible apply keep_execCounterAdd
    | with_reducible apply keep_execDoorbellService
    | with_reducible apply keep_execDescriptorFetchDone
    | with_reducible apply keep_execQctlDb
    | with_reducible apply keep_execQctlRack
    | with_reducible apply keep_execEnable
    | with_reducible apply keep_execDisable
    | with_reducible apply keep_execQueueDisableDone
    | with_reducible apply keep_execPin
    | with_reducible apply keep_execUnpin
    | with_reducible apply keep_execRead
    | with_reducible apply keep_execWrite
    | with_reducible apply keep_execAccWrite
    | with_reducible apply keep_execFlush
    | with_reducible apply keep_execTspill
    | with_reducible apply keep_execTfill
    | with_reducible apply keep_execBurstTimeout
    | with_reducible apply keep_execPriorityRaise
    | with_reducible apply keep_execWbAgeExpiry
    | with_reducible apply keep_execReuseExpiry
    | with_reducible apply keep_execBankBeat
    | with_reducible apply keep_execWbEntryCommit
    | with_reducible apply keep_execPortEnable
    | with_reducible apply keep_execPortDisable
    | with_reducible apply keep_execPortDrainDone
    | with_reducible apply keep_execPortClearDone
    | with_reducible apply keep_execPortCtxWrite
    | with_reducible apply keep_execSleeveCfgWrite
    | with_reducible apply keep_execBootCtlWrite
    | with_reducible apply keep_execRegisterWrite
    | with_reducible apply keep_execFrameBoundary
    | with_reducible apply keep_execRegulatorInterval
    | with_reducible apply keep_execClearDone
    | with_reducible apply keep_execNmuFaultRetry
    | with_reducible apply keep_execWaitTimeout
    | with_reducible apply keep_execContextWatchdog
    | with_reducible apply keep_execMap
    | with_reducible apply keep_execUnmap
    | with_reducible apply keep_execDbgSelWrite
    | with_reducible apply keep_execResetNotify
    | with_reducible apply keep_execStart
    | with_reducible apply keep_execStop
    | with_reducible apply keep_execMoverStopDone
    | with_reducible apply keep_execMove
    | with_reducible apply keep_execSpill
    | with_reducible apply keep_execMoverFill
    | with_reducible apply keep_execLoop
    | with_reducible apply keep_execMoverWait
    | with_reducible apply keep_execMoverSignal
    | with_reducible apply keep_execMoverEnd
    | with_reducible apply keep_execPieceRetire
    | with_reducible apply keep_execStagingAgeExpiry
    | with_reducible apply keep_execMoverHalt
    | with_reducible apply keep_execFabricRequestFrame
    | with_reducible apply keep_execFabricResponseFrame
    | with_reducible apply keep_execGrant
    | with_reducible apply keep_execRenew
    | with_reducible apply keep_execRelease
    | with_reducible apply keep_execWithdraw
    | with_reducible apply keep_execGrantAnswer
    | with_reducible apply keep_execRenewAnswer
    | with_reducible apply keep_execReleaseAnswer
    | with_reducible apply keep_execDeferredNotice
    | with_reducible apply keep_execCounterSignalFrame
    | with_reducible apply keep_execCounterSignalAnswer
    | with_reducible apply keep_execDeferredGrantServe
    | with_reducible apply keep_execGrantExpiry
    | with_reducible apply keep_execFabricTimeout
    | with_reducible apply keep_execConfigure
    | with_reducible apply keep_execSeal
    | with_reducible apply keep_execDissolve
    | with_reducible apply keep_execDissolveDone
    | with_reducible apply keep_execSuspend
    | with_reducible apply keep_execSuspendDone
    | with_reducible apply keep_execActivate
    | with_reducible apply keep_execActivateDone
    | with_reducible apply keep_execKeyLoad
    | with_reducible apply keep_execKeyErase
    | with_reducible apply keep_execMeasurementRequest
    | with_reducible apply keep_execTdispStateReport
    | with_reducible apply keep_execCuBootWrite
    | with_reducible apply keep_execMicrocodeAnswer
    | with_reducible apply keep_execPowerOnReset
    | with_reducible apply keep_execBlockReset
    | with_reducible apply keep_execStartupRelease
    | with_reducible apply keep_execVhvBrownout
    | with_reducible apply keep_execPllUnlock
    | with_reducible apply keep_execPllRelockTimeout
    | with_reducible apply keep_execOpChangeDone
    | with_reducible apply keep_execWake
    | with_reducible apply keep_execIdle
    | with_reducible apply keep_execRetain
    | with_reducible apply keep_execOff
    | with_reducible apply keep_execIdleTimerExpiry
    | with_reducible apply keep_execRetentionTimerExpiry
    | with_reducible apply keep_execPrepareDone
    | with_reducible apply keep_execEntryComplete
    | with_reducible apply keep_execWakeDone
    | with_reducible apply keep_execMaPend
    | with_reducible apply keep_execDeep
    | with_reducible apply keep_execWakeN
    | with_reducible apply keep_execI3cWake
    | with_reducible apply keep_execDeepExitDone
    | with_reducible apply keep_execManagementWrite
    | with_reducible apply keep_execI3cCcc
    | with_reducible apply keep_execEstimateWindow
    | with_reducible apply keep_execThermalTripTimeout
    | with_reducible apply keep_execIvrPhaseFault
    | with_reducible apply keep_execSliceFail
    | with_reducible apply keep_execHeartbeatTimeout
    | with_reducible apply keep_execSliceCut
    | with_reducible apply keep_execSliceSupplyReturn
    | with_reducible apply keep_execPatrolScrub
    | with_reducible apply keep_execPoisonTagWrite
    | with_reducible apply keep_execSeamCalibration
    | with_reducible apply keep_execSeamParityError
    | with_reducible apply keep_execLogRecord
    | with_reducible apply keep_execMeterSample
    | with_reducible apply keep_execMeterAllocation
    | with_reducible apply keep_execMeterSelfCheck
    | with_reducible apply keep_execMeterGapStart
    | with_reducible apply keep_execMeterGapEnd
    | with_reducible apply keep_execMtrCfg
    | with_reducible apply keep_execMtrLabel
    | with_reducible apply keep_execMtrSeal
    | with_reducible apply keep_execMeterRecordRequest
    | with_reducible apply keep_execMeterRecordReady
    | with_reducible apply keep_execWsBypass
    | with_reducible apply keep_execWsStatus
    | with_reducible apply keep_execWsExtest
    | with_reducible apply keep_execWsIntest
    | with_reducible apply keep_execMbistRun
    | with_reducible apply keep_execSeamTest
    | with_reducible apply keep_execFuseProg
    | with_reducible apply keep_execPllRelock
    | with_reducible apply keep_execDescriptorWriteBackDone
    | with_reducible apply keep_execHostWindowWrite
    | (refine Keep.snd (by assumption) ?_)
    | (refine Keep.fst (by assumption) ?_)
    | (refine Keep.thd (by assumption) ?_)
    | split
    | simp +zetaDelta only [Keep.mkIff]
    | assumption

end Sys2Proof.Laws
end

