-- ==== Sys2Proof/Laws/Read.lean ====
section
/-! SUPPORT. Laws/Read.lean: what is read after an operation of Ops, Awake and Queues has written. -/
namespace Sys2Proof.Laws
open Sys2Proof.Machine
set_option Elab.async false

/-! Equality, field by field -/

theorem state_ext {s t : State} (h_pending : t.pending = s.pending) (h_freeCtr : t.freeCtr = s.freeCtr) (h_nextId : t.nextId = s.nextId)
    (h_mem : t.mem = s.mem) (h_regs : t.regs = s.regs) (h_w1done : t.w1done = s.w1done) (h_bcnt : t.bcnt = s.bcnt) (h_bcRun : t.bcRun =
    s.bcRun) (h_rc : t.rc = s.rc) (h_log : t.log = s.log) (h_integ : t.integ = s.integ) (h_ctxs : t.ctxs = s.ctxs) (h_parts : t.parts =
    s.parts) (h_slices : t.slices = s.slices) (h_queues : t.queues = s.queues) (h_qctl : t.qctl = s.qctl) (h_qfetch : t.qfetch = s.qfetch)
    (h_qback : t.qback = s.qback) (h_dbPend : t.dbPend = s.dbPend) (h_qEnabled : t.qEnabled = s.qEnabled) (h_dbDrop : t.dbDrop = s.dbDrop)
    (h_qirq : t.qirq = s.qirq)
    (h_hwin : t.hwin = s.hwin) (h_cmds : t.cmds = s.cmds) (h_ports : t.ports = s.ports) (h_ops : t.ops = s.ops) (h_wb : t.wb = s.wb)
    (h_beats : t.beats = s.beats) (h_works : t.works = s.works) (h_outerCut : t.outerCut = s.outerCut) (h_outerUsed : t.outerUsed = s.outerUsed)
    (h_busyBanks : t.busyBanks = s.busyBanks) (h_clears : t.clears = s.clears) (h_contracts : t.contracts =
    s.contracts) (h_sync : t.sync = s.sync) (h_movers : t.movers = s.movers) (h_outbox : t.outbox = s.outbox) (h_fab : t.fab = s.fab) (h_ctl
    : t.ctl = s.ctl) (h_power : t.power = s.power) (h_meter : t.meter = s.meter) (h_scrub : t.scrub = s.scrub) (h_test : t.test = s.test)
    (h_keys : t.keys = s.keys) (h_tdi : t.tdi = s.tdi) (h_ready : t.ready = s.ready) (h_pp1 : t.pp1 = s.pp1) (h_unconn : t.unconn =
    s.unconn) (h_cgrp : t.cgrp = s.cgrp) (h_nfab : t.nfab = s.nfab) (h_fstop : t.fstop = s.fstop) : t = s := by
  cases s
  cases t
  simp_all

theorem mem_ext {s t : Mem} (h_data : t.data = s.data) (h_chk : t.chk = s.chk) (h_tag : t.tag = s.tag) (h_owed : t.owed = s.owed) (h_sys :
    t.sys = s.sys) (h_boot : t.boot = s.boot) (h_ext : t.ext = s.ext) (h_extPoison : t.extPoison = s.extPoison) (h_extErr : t.extErr =
    s.extErr) : t = s := by
  cases s
  cases t
  simp_all

/-! Tables -/

theorem mput_some {α : Type} [DecidableEq α] (m : NMap (Option α)) (k : Nat) (v : α) :
    mput (fun _ => none) m k (some v) = minsert k (some v) m := if_neg (by simp)

theorem mget_mput_rise {α : Type} [DecidableEq α] {d : Nat → α} {m : NMap α} (k i : Nat) (v : α) (h : keysRise 0 m = true) :
    mget d (mput d m k v) i = if i = k then v else mget d m i := by
  unfold mput
  split
  · next e => rw [mget_mremove k i h, e]
  · exact mget_minsert_any k i v m

theorem mget_mput_eq {α : Type} [DecidableEq α] {d : Nat → α} {m : NMap α} (k : Nat) (v : α) (h : keysRise 0 m = true) :
    mget d (mput d m k v) k = v := by rw [mget_mput_rise k k v h, if_pos rfl]

theorem mget_mput_ne {α : Type} [DecidableEq α] {d : Nat → α} {m : NMap α} {k i : Nat} (v : α) (h : keysRise 0 m = true) (e : i ≠ k) :
    mget d (mput d m k v) i = mget d m i := by rw [mget_mput_rise k i v h, if_neg e]

/-- A list stored from a key upward: each key reads its element, and the others as before. -/
theorem mget_mputList {α : Type} [DecidableEq α] {d : Nat → α} (i : Nat) : ∀ (vs : List α) (k : Nat) {m : NMap α}, mwf d m = true →
    mget d (mputList d m k vs) i = if h : k ≤ i ∧ i < k + vs.length then vs[i - k]'(by omega) else mget d m i
  | [], k, m, _ => by
    rw [dif_neg (fun e => Nat.not_lt.2 e.1 (by simpa using e.2))]
    rfl
  | v :: vs, k, m, h => by
    rw [mputList, mget_mputList i vs (k + 1) (mwf_mput k v h), mget_mput k i v h]
    by_cases e : i = k
    · subst e
      rw [dif_neg (by omega), if_pos rfl, dif_pos (by simp)]
      simp
    · by_cases e2 : k + 1 ≤ i ∧ i < k + 1 + vs.length
      · rw [dif_pos e2, dif_pos (by simp; omega)]
        have : i - k = (i - (k + 1)) + 1 := by omega
        simp [this]
      · rw [dif_neg e2, if_neg e, dif_neg (by simp; omega)]

theorem mputList_length {α : Type} (d : Nat → α) (m : NMap α) (k : Nat) : ∀ n, (mgetList d m k n).length = n
  | 0 => rfl
  | n + 1 => by simp [mgetList, mputList_length d m (k + 1) n]

/-! Commands -/

theorem find_updWhere {α : Type} (p : α → Bool) (q : α → Bool) (g : α → α) (h : ∀ x, q (g x) = q x) (l : List α) :
    (updWhere p g l).find? q = (l.find? q).map fun x => if p x then g x else x := by
  induction l with
  | nil => rfl
  | cons x l ih =>
    have e : q (if p x then g x else x) = q x := by split <;> simp [h]
    simp only [updWhere, List.map_cons, List.find?_cons, e] at ih ⊢
    cases q x with
    | true => rfl
    | false => exact ih

/-- The changed record of a command. -/
theorem cmdOf_modCmd (id j : Nat) (f : Cmd → Cmd) (s : State) (hf : ∀ c, (f c).id = c.id) :
    cmdOf (modCmd id f s) j = (cmdOf s j).map fun c => if c.id = id then f c else c := by
  unfold cmdOf modCmd
  rw [find_updWhere _ _ _ (fun c => by simp [hf])]
  simp

theorem cmdOf_id {s : State} {id : Nat} {c : Cmd} (h : cmdOf s id = some c) : c.id = id := by
  simpa using List.find?_some h

theorem admittedAs_iff {s : State} {id op : Nat} {c : Cmd} :
    admittedAs s id op = some c ↔ cmdOf s id = some c ∧ c.phase = .admitted ∧ c.opcode = op := by
  unfold admittedAs
  cases h : cmdOf s id with
  | none => simp
  | some x =>
    dsimp only
    by_cases e : x.phase = .admitted ∧ x.opcode = op
    · rw [if_pos e]
      constructor
      · intro q
        cases q
        exact ⟨rfl, e⟩
      · exact fun q => q.1
    · rw [if_neg e]
      constructor
      · intro q
        cases q
      · intro q
        cases q.1
        exact absurd q.2 e

theorem cmdBecomes_modCmd (id : Nat) (f : Cmd → Cmd) (s : State) : CmdBecomes id f s (modCmd id f s) := by
  unfold CmdBecomes modCmd updWhere
  simp

theorem cmdBecomes_done (id : Nat) (st : Status) (n r : Nat) (s : State) : CmdBecomes id (fun c => c.completed st n r) s (cmdDone id st n r s) :=
  cmdBecomes_modCmd _ _ _

theorem cmdBecomes_refused (id : Nat) (st : Status) (r : Nat) (s : State) : CmdBecomes id (fun c => c.refused st r) s (cmdRefuse id st r s) :=
  cmdBecomes_modCmd _ _ _

/-- The same of a state whose commands are those of another. -/
theorem CmdBecomes.of {id : Nat} {f : Cmd → Cmd} {s u t : State} (h : CmdBecomes id f u t) (e : u.cmds = s.cmds) : CmdBecomes id f s t := by
  unfold CmdBecomes at *
  rw [h, e]

/-! Queues -/

@[simp] theorem queueOf_sysWrite (n o : Nat) (b : List Byte) (s : State) (q : Nat) : queueOf (sysWrite n o b s) q = queueOf s q := rfl

theorem queueOf_putQueue (q p : Nat) (r : QueueRec) (s : State) : queueOf (putQueue q r s) p = if p = q then some r else queueOf s p := by
  have : queueOf (putQueue q r s) p = mget (fun _ => none) (mput (fun _ => none) s.queues q (some r)) p := by
    unfold putQueue
    split <;> rfl
  rw [this, mput_some, mget_minsert_any]
  rfl

theorem queueOf_modQueue (q p : Nat) (f : QueueRec → QueueRec) (s : State) :
    queueOf (modQueue q f s) p = if p = q then (queueOf s q).map f else queueOf s p := by
  unfold modQueue
  cases h : queueOf s q with
  | some r => simp only [Option.map_some, queueOf_putQueue]
  | none =>
    simp only [Option.map_none]
    split
    · next e => rw [e, h]
    · rfl

/-! Slices that serve -/

theorem pwrOf_modPwr (n m : Nat) (f : SlcPwr → SlcPwr) (s : State) (h : keysRise 0 s.ctl.pwr = true) :
    pwrOf (modPwr n f s) m = if m = n then f (pwrOf s n) else pwrOf s m := mget_mput_rise n m _ h

/-- A slice that runs and is supplied serves an event, and goes on running. -/
theorem touch_serves {s : State} {n : Nat} (kind id : Nat) (hr : slcRuns s n = true) (hc : (sliceOf s n).cutOff = false) :
    (touch n kind id s).1 = true ∧ ∃ f, (touch n kind id s).2 = modPwr n f s ∧ (f (pwrOf s n)).st = .run ∧ (f (pwrOf s n)).mode = .steady := by
  unfold slcRuns at hr
  unfold touch
  simp only [hc, Bool.false_eq_true, if_false]
  cases hm : (pwrOf s n).mode with
  | steady =>
    simp only [hm, Bool.and_true, beq_iff_eq] at hr
    simp only [hr, if_true]
    exact ⟨trivial, _, rfl, hr, hm⟩
  | prepare x =>
    simp only [hm, Bool.and_true, beq_iff_eq] at hr
    simp only [hr, decide_true, if_true]
    exact ⟨trivial, _, rfl, hr, rfl⟩
  | entering x => simp [hm] at hr
  | waking => simp [hm] at hr

theorem serves_modPwr {s : State} {n : Nat} {ns : List Nat} {f : SlcPwr → SlcPwr} (w : keysRise 0 s.ctl.pwr = true)
    (hst : (f (pwrOf s n)).st = .run) (hm : (f (pwrOf s n)).mode = .steady) (h : Serves s ns) : Serves (modPwr n f s) ns := by
  intro m hmem
  obtain ⟨a, b, c⟩ := h m hmem
  refine ⟨?_, b, c⟩
  unfold slcRuns at *
  rw [pwrOf_modPwr n m f s w]
  split
  · simp [hst, hm]
  · exact a

/-- Slices that serve all answer so: what is then done runs on the state in which their idle timers have restarted. -/
theorem touchAll_serves (kind id : Nat) : ∀ (ns ms : List Nat) {s : State} (b : Bool), keysRise 0 s.ctl.pwr = true → Serves s ns → Serves s ms →
    (ns.foldl (fun (b, t) n => let (r, t1) := touch n kind id t; (b && r, t1)) (b, s)).1 = b ∧
      Serves (ns.foldl (fun (b, t) n => let (r, t1) := touch n kind id t; (b && r, t1)) (b, s)).2 ms ∧
      keysRise 0 (ns.foldl (fun (b, t) n => let (r, t1) := touch n kind id t; (b && r, t1)) (b, s)).2.ctl.pwr = true
  | [], ms, s, b, w, _, hm => ⟨rfl, hm, w⟩
  | n :: ns, ms, s, b, w, h, hm => by
    obtain ⟨hr, hc, _⟩ := h n List.mem_cons_self
    obtain ⟨e1, f, e2, e3, e4⟩ := touch_serves kind id hr hc
    simp only [List.foldl_cons, e1, e2, Bool.and_true]
    have w' : keysRise 0 (modPwr n f s).ctl.pwr = true := keysRise_mput (d := fun _ => SlcPwr.zero) n (f (pwrOf s n)) w
    exact touchAll_serves kind id ns ms b w' (serves_modPwr w e3 e4 fun m hmem => h m (List.mem_cons_of_mem _ hmem))
      (serves_modPwr w e3 e4 hm)

theorem wf_pwr {s : State} (h : s.wf = true) : keysRise 0 s.ctl.pwr = true := by
  simp only [State.wf, State.tablesRise, Bool.and_eq_true] at h
  exact h.1.1.1.1.1.1.1.2

theorem whenAwake_serves {s : State} {ns : List Nat} (kind id : Nat) (f : State → State) (w : s.wf = true) (h : Serves s ns) :
    whenAwake ns kind id s f = f (touchAll ns kind id s).2 := by
  unfold whenAwake
  have := (touchAll_serves kind id ns ns true (wf_pwr w) h h).1
  show (if (touchAll ns kind id s).1 = true then f (touchAll ns kind id s).2 else (touchAll ns kind id s).2) = _
  rw [show (touchAll ns kind id s).1 = true from this, if_pos rfl]

/-- The woken state: only the slices' idle timers differ. -/
theorem touchAll_alters (ns : List Nat) (kind id : Nat) (s : State) : Alters 4398046511104 s (touchAll ns kind id s).2 :=
  alters_touchAll ns kind id s (Alters.refl _ _) (Within.refl _)

end Sys2Proof.Laws
end

