-- ==== Sys2Proof/Laws/State.lean ====
section
/-! SUPPORT. Laws/State.lean: what each update of one field leaves of the others. -/
namespace Sys2Proof.Laws
open Sys2Proof.Machine
set_option Elab.async false

variable (s : State)

/-! `drawFree` changes `freeCtr` only. -/
@[simp] theorem drawFree_pending : (drawFree s).pending = s.pending := rfl
@[simp] theorem drawFree_nextId : (drawFree s).nextId = s.nextId := rfl
@[simp] theorem drawFree_mem : (drawFree s).mem = s.mem := rfl
@[simp] theorem drawFree_regs : (drawFree s).regs = s.regs := rfl
@[simp] theorem drawFree_w1done : (drawFree s).w1done = s.w1done := rfl
@[simp] theorem drawFree_bcnt : (drawFree s).bcnt = s.bcnt := rfl
@[simp] theorem drawFree_bcRun : (drawFree s).bcRun = s.bcRun := rfl
@[simp] theorem drawFree_rc : (drawFree s).rc = s.rc := rfl
@[simp] theorem drawFree_log : (drawFree s).log = s.log := rfl
@[simp] theorem drawFree_integ : (drawFree s).integ = s.integ := rfl
@[simp] theorem drawFree_ctxs : (drawFree s).ctxs = s.ctxs := rfl
@[simp] theorem drawFree_parts : (drawFree s).parts = s.parts := rfl
@[simp] theorem drawFree_slices : (drawFree s).slices = s.slices := rfl
@[simp] theorem drawFree_queues : (drawFree s).queues = s.queues := rfl
@[simp] theorem drawFree_qctl : (drawFree s).qctl = s.qctl := rfl
@[simp] theorem drawFree_qfetch : (drawFree s).qfetch = s.qfetch := rfl
@[simp] theorem drawFree_qback : (drawFree s).qback = s.qback := rfl
@[simp] theorem drawFree_dbPend : (drawFree s).dbPend = s.dbPend := rfl
@[simp] theorem drawFree_qEnabled : (drawFree s).qEnabled = s.qEnabled := rfl
@[simp] theorem drawFree_dbDrop : (drawFree s).dbDrop = s.dbDrop := rfl
@[simp] theorem drawFree_qirq : (drawFree s).qirq = s.qirq := rfl
@[simp] theorem drawFree_hwin : (drawFree s).hwin = s.hwin := rfl
@[simp] theorem drawFree_cmds : (drawFree s).cmds = s.cmds := rfl
@[simp] theorem drawFree_ports : (drawFree s).ports = s.ports := rfl
@[simp] theorem drawFree_ops : (drawFree s).ops = s.ops := rfl
@[simp] theorem drawFree_wb : (drawFree s).wb = s.wb := rfl
@[simp] theorem drawFree_beats : (drawFree s).beats = s.beats := rfl
@[simp] theorem drawFree_works : (drawFree s).works = s.works := rfl
@[simp] theorem drawFree_outerCut : (drawFree s).outerCut = s.outerCut := rfl
@[simp] theorem drawFree_outerUsed : (drawFree s).outerUsed = s.outerUsed := rfl
@[simp] theorem drawFree_busyBanks : (drawFree s).busyBanks = s.busyBanks := rfl
@[simp] theorem drawFree_clears : (drawFree s).clears = s.clears := rfl
@[simp] theorem drawFree_contracts : (drawFree s).contracts = s.contracts := rfl
@[simp] theorem drawFree_sync : (drawFree s).sync = s.sync := rfl
@[simp] theorem drawFree_movers : (drawFree s).movers = s.movers := rfl
@[simp] theorem drawFree_outbox : (drawFree s).outbox = s.outbox := rfl
@[simp] theorem drawFree_fab : (drawFree s).fab = s.fab := rfl
@[simp] theorem drawFree_ctl : (drawFree s).ctl = s.ctl := rfl
@[simp] theorem drawFree_power : (drawFree s).power = s.power := rfl
@[simp] theorem drawFree_meter : (drawFree s).meter = s.meter := rfl
@[simp] theorem drawFree_scrub : (drawFree s).scrub = s.scrub := rfl
@[simp] theorem drawFree_test : (drawFree s).test = s.test := rfl
@[simp] theorem drawFree_keys : (drawFree s).keys = s.keys := rfl
@[simp] theorem drawFree_tdi : (drawFree s).tdi = s.tdi := rfl
@[simp] theorem drawFree_ready : (drawFree s).ready = s.ready := rfl
@[simp] theorem drawFree_pp1 : (drawFree s).pp1 = s.pp1 := rfl
@[simp] theorem drawFree_unconn : (drawFree s).unconn = s.unconn := rfl
@[simp] theorem drawFree_cgrp : (drawFree s).cgrp = s.cgrp := rfl
@[simp] theorem drawFree_nfab : (drawFree s).nfab = s.nfab := rfl
@[simp] theorem drawFree_fstop : (drawFree s).fstop = s.fstop := rfl

/-! `emit` changes `outbox` only. -/
@[simp] theorem emit_pending (o : Out) : (emit o s).pending = s.pending := rfl
@[simp] theorem emit_freeCtr (o : Out) : (emit o s).freeCtr = s.freeCtr := rfl
@[simp] theorem emit_nextId (o : Out) : (emit o s).nextId = s.nextId := rfl
@[simp] theorem emit_mem (o : Out) : (emit o s).mem = s.mem := rfl
@[simp] theorem emit_regs (o : Out) : (emit o s).regs = s.regs := rfl
@[simp] theorem emit_w1done (o : Out) : (emit o s).w1done = s.w1done := rfl
@[simp] theorem emit_bcnt (o : Out) : (emit o s).bcnt = s.bcnt := rfl
@[simp] theorem emit_bcRun (o : Out) : (emit o s).bcRun = s.bcRun := rfl
@[simp] theorem emit_rc (o : Out) : (emit o s).rc = s.rc := rfl
@[simp] theorem emit_log (o : Out) : (emit o s).log = s.log := rfl
@[simp] theorem emit_integ (o : Out) : (emit o s).integ = s.integ := rfl
@[simp] theorem emit_ctxs (o : Out) : (emit o s).ctxs = s.ctxs := rfl
@[simp] theorem emit_parts (o : Out) : (emit o s).parts = s.parts := rfl
@[simp] theorem emit_slices (o : Out) : (emit o s).slices = s.slices := rfl
@[simp] theorem emit_queues (o : Out) : (emit o s).queues = s.queues := rfl
@[simp] theorem emit_qctl (o : Out) : (emit o s).qctl = s.qctl := rfl
@[simp] theorem emit_qfetch (o : Out) : (emit o s).qfetch = s.qfetch := rfl
@[simp] theorem emit_qback (o : Out) : (emit o s).qback = s.qback := rfl
@[simp] theorem emit_dbPend (o : Out) : (emit o s).dbPend = s.dbPend := rfl
@[simp] theorem emit_qEnabled (o : Out) : (emit o s).qEnabled = s.qEnabled := rfl
@[simp] theorem emit_dbDrop (o : Out) : (emit o s).dbDrop = s.dbDrop := rfl
@[simp] theorem emit_qirq (o : Out) : (emit o s).qirq = s.qirq := rfl
@[simp] theorem emit_hwin (o : Out) : (emit o s).hwin = s.hwin := rfl
@[simp] theorem emit_cmds (o : Out) : (emit o s).cmds = s.cmds := rfl
@[simp] theorem emit_ports (o : Out) : (emit o s).ports = s.ports := rfl
@[simp] theorem emit_ops (o : Out) : (emit o s).ops = s.ops := rfl
@[simp] theorem emit_wb (o : Out) : (emit o s).wb = s.wb := rfl
@[simp] theorem emit_beats (o : Out) : (emit o s).beats = s.beats := rfl
@[simp] theorem emit_works (o : Out) : (emit o s).works = s.works := rfl
@[simp] theorem emit_outerCut (o : Out) : (emit o s).outerCut = s.outerCut := rfl
@[simp] theorem emit_outerUsed (o : Out) : (emit o s).outerUsed = s.outerUsed := rfl
@[simp] theorem emit_busyBanks (o : Out) : (emit o s).busyBanks = s.busyBanks := rfl
@[simp] theorem emit_clears (o : Out) : (emit o s).clears = s.clears := rfl
@[simp] theorem emit_contracts (o : Out) : (emit o s).contracts = s.contracts := rfl
@[simp] theorem emit_sync (o : Out) : (emit o s).sync = s.sync := rfl
@[simp] theorem emit_movers (o : Out) : (emit o s).movers = s.movers := rfl
@[simp] theorem emit_fab (o : Out) : (emit o s).fab = s.fab := rfl
@[simp] theorem emit_ctl (o : Out) : (emit o s).ctl = s.ctl := rfl
@[simp] theorem emit_power (o : Out) : (emit o s).power = s.power := rfl
@[simp] theorem emit_meter (o : Out) : (emit o s).meter = s.meter := rfl
@[simp] theorem emit_scrub (o : Out) : (emit o s).scrub = s.scrub := rfl
@[simp] theorem emit_test (o : Out) : (emit o s).test = s.test := rfl
@[simp] theorem emit_keys (o : Out) : (emit o s).keys = s.keys := rfl
@[simp] theorem emit_tdi (o : Out) : (emit o s).tdi = s.tdi := rfl
@[simp] theorem emit_ready (o : Out) : (emit o s).ready = s.ready := rfl
@[simp] theorem emit_pp1 (o : Out) : (emit o s).pp1 = s.pp1 := rfl
@[simp] theorem emit_unconn (o : Out) : (emit o s).unconn = s.unconn := rfl
@[simp] theorem emit_cgrp (o : Out) : (emit o s).cgrp = s.cgrp := rfl
@[simp] theorem emit_nfab (o : Out) : (emit o s).nfab = s.nfab := rfl
@[simp] theorem emit_fstop (o : Out) : (emit o s).fstop = s.fstop := rfl

/-! `setCtx` changes `ctxs` only. -/
@[simp] theorem setCtx_pending (c : Nat) (x : Option Ctx) : (setCtx c x s).pending = s.pending := rfl
@[simp] theorem setCtx_freeCtr (c : Nat) (x : Option Ctx) : (setCtx c x s).freeCtr = s.freeCtr := rfl
@[simp] theorem setCtx_nextId (c : Nat) (x : Option Ctx) : (setCtx c x s).nextId = s.nextId := rfl
@[simp] theorem setCtx_mem (c : Nat) (x : Option Ctx) : (setCtx c x s).mem = s.mem := rfl
@[simp] theorem setCtx_regs (c : Nat) (x : Option Ctx) : (setCtx c x s).regs = s.regs := rfl
@[simp] theorem setCtx_w1done (c : Nat) (x : Option Ctx) : (setCtx c x s).w1done = s.w1done := rfl
@[simp] theorem setCtx_bcnt (c : Nat) (x : Option Ctx) : (setCtx c x s).bcnt = s.bcnt := rfl
@[simp] theorem setCtx_bcRun (c : Nat) (x : Option Ctx) : (setCtx c x s).bcRun = s.bcRun := rfl
@[simp] theorem setCtx_rc (c : Nat) (x : Option Ctx) : (setCtx c x s).rc = s.rc := rfl
@[simp] theorem setCtx_log (c : Nat) (x : Option Ctx) : (setCtx c x s).log = s.log := rfl
@[simp] theorem setCtx_integ (c : Nat) (x : Option Ctx) : (setCtx c x s).integ = s.integ := rfl
@[simp] theorem setCtx_parts (c : Nat) (x : Option Ctx) : (setCtx c x s).parts = s.parts := rfl
@[simp] theorem setCtx_slices (c : Nat) (x : Option Ctx) : (setCtx c x s).slices = s.slices := rfl
@[simp] theorem setCtx_queues (c : Nat) (x : Option Ctx) : (setCtx c x s).queues = s.queues := rfl
@[simp] theorem setCtx_qctl (c : Nat) (x : Option Ctx) : (setCtx c x s).qctl = s.qctl := rfl
@[simp] theorem setCtx_qfetch (c : Nat) (x : Option Ctx) : (setCtx c x s).qfetch = s.qfetch := rfl
@[simp] theorem setCtx_qback (c : Nat) (x : Option Ctx) : (setCtx c x s).qback = s.qback := rfl
@[simp] theorem setCtx_dbPend (c : Nat) (x : Option Ctx) : (setCtx c x s).dbPend = s.dbPend := rfl
@[simp] theorem setCtx_qEnabled (c : Nat) (x : Option Ctx) : (setCtx c x s).qEnabled = s.qEnabled := rfl
@[simp] theorem setCtx_dbDrop (c : Nat) (x : Option Ctx) : (setCtx c x s).dbDrop = s.dbDrop := rfl
@[simp] theorem setCtx_qirq (c : Nat) (x : Option Ctx) : (setCtx c x s).qirq = s.qirq := rfl
@[simp] theorem setCtx_hwin (c : Nat) (x : Option Ctx) : (setCtx c x s).hwin = s.hwin := rfl
@[simp] theorem setCtx_cmds (c : Nat) (x : Option Ctx) : (setCtx c x s).cmds = s.cmds := rfl
@[simp] theorem setCtx_ports (c : Nat) (x : Option Ctx) : (setCtx c x s).ports = s.ports := rfl
@[simp] theorem setCtx_ops (c : Nat) (x : Option Ctx) : (setCtx c x s).ops = s.ops := rfl
@[simp] theorem setCtx_wb (c : Nat) (x : Option Ctx) : (setCtx c x s).wb = s.wb := rfl
@[simp] theorem setCtx_beats (c : Nat) (x : Option Ctx) : (setCtx c x s).beats = s.beats := rfl
@[simp] theorem setCtx_works (c : Nat) (x : Option Ctx) : (setCtx c x s).works = s.works := rfl
@[simp] theorem setCtx_outerCut (c : Nat) (x : Option Ctx) : (setCtx c x s).outerCut = s.outerCut := rfl
@[simp] theorem setCtx_outerUsed (c : Nat) (x : Option Ctx) : (setCtx c x s).outerUsed = s.outerUsed := rfl
@[simp] theorem setCtx_busyBanks (c : Nat) (x : Option Ctx) : (setCtx c x s).busyBanks = s.busyBanks := rfl
@[simp] theorem setCtx_clears (c : Nat) (x : Option Ctx) : (setCtx c x s).clears = s.clears := rfl
@[simp] theorem setCtx_contracts (c : Nat) (x : Option Ctx) : (setCtx c x s).contracts = s.contracts := rfl
@[simp] theorem setCtx_sync (c : Nat) (x : Option Ctx) : (setCtx c x s).sync = s.sync := rfl
@[simp] theorem setCtx_movers (c : Nat) (x : Option Ctx) : (setCtx c x s).movers = s.movers := rfl
@[simp] theorem setCtx_outbox (c : Nat) (x : Option Ctx) : (setCtx c x s).outbox = s.outbox := rfl
@[simp] theorem setCtx_fab (c : Nat) (x : Option Ctx) : (setCtx c x s).fab = s.fab := rfl
@[simp] theorem setCtx_ctl (c : Nat) (x : Option Ctx) : (setCtx c x s).ctl = s.ctl := rfl
@[simp] theorem setCtx_power (c : Nat) (x : Option Ctx) : (setCtx c x s).power = s.power := rfl
@[simp] theorem setCtx_meter (c : Nat) (x : Option Ctx) : (setCtx c x s).meter = s.meter := rfl
@[simp] theorem setCtx_scrub (c : Nat) (x : Option Ctx) : (setCtx c x s).scrub = s.scrub := rfl
@[simp] theorem setCtx_test (c : Nat) (x : Option Ctx) : (setCtx c x s).test = s.test := rfl
@[simp] theorem setCtx_keys (c : Nat) (x : Option Ctx) : (setCtx c x s).keys = s.keys := rfl
@[simp] theorem setCtx_tdi (c : Nat) (x : Option Ctx) : (setCtx c x s).tdi = s.tdi := rfl
@[simp] theorem setCtx_ready (c : Nat) (x : Option Ctx) : (setCtx c x s).ready = s.ready := rfl
@[simp] theorem setCtx_pp1 (c : Nat) (x : Option Ctx) : (setCtx c x s).pp1 = s.pp1 := rfl
@[simp] theorem setCtx_unconn (c : Nat) (x : Option Ctx) : (setCtx c x s).unconn = s.unconn := rfl
@[simp] theorem setCtx_cgrp (c : Nat) (x : Option Ctx) : (setCtx c x s).cgrp = s.cgrp := rfl
@[simp] theorem setCtx_nfab (c : Nat) (x : Option Ctx) : (setCtx c x s).nfab = s.nfab := rfl
@[simp] theorem setCtx_fstop (c : Nat) (x : Option Ctx) : (setCtx c x s).fstop = s.fstop := rfl

/-! `setPart` changes `parts` only. -/
@[simp] theorem setPart_pending (p : Nat) (x : PartRec) : (setPart p x s).pending = s.pending := rfl
@[simp] theorem setPart_freeCtr (p : Nat) (x : PartRec) : (setPart p x s).freeCtr = s.freeCtr := rfl
@[simp] theorem setPart_nextId (p : Nat) (x : PartRec) : (setPart p x s).nextId = s.nextId := rfl
@[simp] theorem setPart_mem (p : Nat) (x : PartRec) : (setPart p x s).mem = s.mem := rfl
@[simp] theorem setPart_regs (p : Nat) (x : PartRec) : (setPart p x s).regs = s.regs := rfl
@[simp] theorem setPart_w1done (p : Nat) (x : PartRec) : (setPart p x s).w1done = s.w1done := rfl
@[simp] theorem setPart_bcnt (p : Nat) (x : PartRec) : (setPart p x s).bcnt = s.bcnt := rfl
@[simp] theorem setPart_bcRun (p : Nat) (x : PartRec) : (setPart p x s).bcRun = s.bcRun := rfl
@[simp] theorem setPart_rc (p : Nat) (x : PartRec) : (setPart p x s).rc = s.rc := rfl
@[simp] theorem setPart_log (p : Nat) (x : PartRec) : (setPart p x s).log = s.log := rfl
@[simp] theorem setPart_integ (p : Nat) (x : PartRec) : (setPart p x s).integ = s.integ := rfl
@[simp] theorem setPart_ctxs (p : Nat) (x : PartRec) : (setPart p x s).ctxs = s.ctxs := rfl
@[simp] theorem setPart_slices (p : Nat) (x : PartRec) : (setPart p x s).slices = s.slices := rfl
@[simp] theorem setPart_queues (p : Nat) (x : PartRec) : (setPart p x s).queues = s.queues := rfl
@[simp] theorem setPart_qctl (p : Nat) (x : PartRec) : (setPart p x s).qctl = s.qctl := rfl
@[simp] theorem setPart_qfetch (p : Nat) (x : PartRec) : (setPart p x s).qfetch = s.qfetch := rfl
@[simp] theorem setPart_qback (p : Nat) (x : PartRec) : (setPart p x s).qback = s.qback := rfl
@[simp] theorem setPart_dbPend (p : Nat) (x : PartRec) : (setPart p x s).dbPend = s.dbPend := rfl
@[simp] theorem setPart_qEnabled (p : Nat) (x : PartRec) : (setPart p x s).qEnabled = s.qEnabled := rfl
@[simp] theorem setPart_dbDrop (p : Nat) (x : PartRec) : (setPart p x s).dbDrop = s.dbDrop := rfl
@[simp] theorem setPart_qirq (p : Nat) (x : PartRec) : (setPart p x s).qirq = s.qirq := rfl
@[simp] theorem setPart_hwin (p : Nat) (x : PartRec) : (setPart p x s).hwin = s.hwin := rfl
@[simp] theorem setPart_cmds (p : Nat) (x : PartRec) : (setPart p x s).cmds = s.cmds := rfl
@[simp] theorem setPart_ports (p : Nat) (x : PartRec) : (setPart p x s).ports = s.ports := rfl
@[simp] theorem setPart_ops (p : Nat) (x : PartRec) : (setPart p x s).ops = s.ops := rfl
@[simp] theorem setPart_wb (p : Nat) (x : PartRec) : (setPart p x s).wb = s.wb := rfl
@[simp] theorem setPart_beats (p : Nat) (x : PartRec) : (setPart p x s).beats = s.beats := rfl
@[simp] theorem setPart_works (p : Nat) (x : PartRec) : (setPart p x s).works = s.works := rfl
@[simp] theorem setPart_outerCut (p : Nat) (x : PartRec) : (setPart p x s).outerCut = s.outerCut := rfl
@[simp] theorem setPart_outerUsed (p : Nat) (x : PartRec) : (setPart p x s).outerUsed = s.outerUsed := rfl
@[simp] theorem setPart_busyBanks (p : Nat) (x : PartRec) : (setPart p x s).busyBanks = s.busyBanks := rfl
@[simp] theorem setPart_clears (p : Nat) (x : PartRec) : (setPart p x s).clears = s.clears := rfl
@[simp] theorem setPart_contracts (p : Nat) (x : PartRec) : (setPart p x s).contracts = s.contracts := rfl
@[simp] theorem setPart_sync (p : Nat) (x : PartRec) : (setPart p x s).sync = s.sync := rfl
@[simp] theorem setPart_movers (p : Nat) (x : PartRec) : (setPart p x s).movers = s.movers := rfl
@[simp] theorem setPart_outbox (p : Nat) (x : PartRec) : (setPart p x s).outbox = s.outbox := rfl
@[simp] theorem setPart_fab (p : Nat) (x : PartRec) : (setPart p x s).fab = s.fab := rfl
@[simp] theorem setPart_ctl (p : Nat) (x : PartRec) : (setPart p x s).ctl = s.ctl := rfl
@[simp] theorem setPart_power (p : Nat) (x : PartRec) : (setPart p x s).power = s.power := rfl
@[simp] theorem setPart_meter (p : Nat) (x : PartRec) : (setPart p x s).meter = s.meter := rfl
@[simp] theorem setPart_scrub (p : Nat) (x : PartRec) : (setPart p x s).scrub = s.scrub := rfl
@[simp] theorem setPart_test (p : Nat) (x : PartRec) : (setPart p x s).test = s.test := rfl
@[simp] theorem setPart_keys (p : Nat) (x : PartRec) : (setPart p x s).keys = s.keys := rfl
@[simp] theorem setPart_tdi (p : Nat) (x : PartRec) : (setPart p x s).tdi = s.tdi := rfl
@[simp] theorem setPart_ready (p : Nat) (x : PartRec) : (setPart p x s).ready = s.ready := rfl
@[simp] theorem setPart_pp1 (p : Nat) (x : PartRec) : (setPart p x s).pp1 = s.pp1 := rfl
@[simp] theorem setPart_unconn (p : Nat) (x : PartRec) : (setPart p x s).unconn = s.unconn := rfl
@[simp] theorem setPart_cgrp (p : Nat) (x : PartRec) : (setPart p x s).cgrp = s.cgrp := rfl
@[simp] theorem setPart_nfab (p : Nat) (x : PartRec) : (setPart p x s).nfab = s.nfab := rfl
@[simp] theorem setPart_fstop (p : Nat) (x : PartRec) : (setPart p x s).fstop = s.fstop := rfl

/-! `modSlice` changes `slices` only. -/
@[simp] theorem modSlice_pending (n : Nat) (f : SliceRec → SliceRec) : (modSlice n f s).pending = s.pending := rfl
@[simp] theorem modSlice_freeCtr (n : Nat) (f : SliceRec → SliceRec) : (modSlice n f s).freeCtr = s.freeCtr := rfl
@[simp] theorem modSlice_nextId (n : Nat) (f : SliceRec → SliceRec) : (modSlice n f s).nextId = s.nextId := rfl
@[simp] theorem modSlice_mem (n : Nat) (f : SliceRec → SliceRec) : (modSlice n f s).mem = s.mem := rfl
@[simp] theorem modSlice_regs (n : Nat) (f : SliceRec → SliceRec) : (modSlice n f s).regs = s.regs := rfl
@[simp] theorem modSlice_w1done (n : Nat) (f : SliceRec → SliceRec) : (modSlice n f s).w1done = s.w1done := rfl
@[simp] theorem modSlice_bcnt (n : Nat) (f : SliceRec → SliceRec) : (modSlice n f s).bcnt = s.bcnt := rfl
@[simp] theorem modSlice_bcRun (n : Nat) (f : SliceRec → SliceRec) : (modSlice n f s).bcRun = s.bcRun := rfl
@[simp] theorem modSlice_rc (n : Nat) (f : SliceRec → SliceRec) : (modSlice n f s).rc = s.rc := rfl
@[simp] theorem modSlice_log (n : Nat) (f : SliceRec → SliceRec) : (modSlice n f s).log = s.log := rfl
@[simp] theorem modSlice_integ (n : Nat) (f : SliceRec → SliceRec) : (modSlice n f s).integ = s.integ := rfl
@[simp] theorem modSlice_ctxs (n : Nat) (f : SliceRec → SliceRec) : (modSlice n f s).ctxs = s.ctxs := rfl
@[simp] theorem modSlice_parts (n : Nat) (f : SliceRec → SliceRec) : (modSlice n f s).parts = s.parts := rfl
@[simp] theorem modSlice_queues (n : Nat) (f : SliceRec → SliceRec) : (modSlice n f s).queues = s.queues := rfl
@[simp] theorem modSlice_qctl (n : Nat) (f : SliceRec → SliceRec) : (modSlice n f s).qctl = s.qctl := rfl
@[simp] theorem modSlice_qfetch (n : Nat) (f : SliceRec → SliceRec) : (modSlice n f s).qfetch = s.qfetch := rfl
@[simp] theorem modSlice_qback (n : Nat) (f : SliceRec → SliceRec) : (modSlice n f s).qback = s.qback := rfl
@[simp] theorem modSlice_dbPend (n : Nat) (f : SliceRec → SliceRec) : (modSlice n f s).dbPend = s.dbPend := rfl
@[simp] theorem modSlice_qEnabled (n : Nat) (f : SliceRec → SliceRec) : (modSlice n f s).qEnabled = s.qEnabled := rfl
@[simp] theorem modSlice_dbDrop (n : Nat) (f : SliceRec → SliceRec) : (modSlice n f s).dbDrop = s.dbDrop := rfl
@[simp] theorem modSlice_qirq (n : Nat) (f : SliceRec → SliceRec) : (modSlice n f s).qirq = s.qirq := rfl
@[simp] theorem modSlice_hwin (n : Nat) (f : SliceRec → SliceRec) : (modSlice n f s).hwin = s.hwin := rfl
@[simp] theorem modSlice_cmds (n : Nat) (f : SliceRec → SliceRec) : (modSlice n f s).cmds = s.cmds := rfl
@[simp] theorem modSlice_ports (n : Nat) (f : SliceRec → SliceRec) : (modSlice n f s).ports = s.ports := rfl
@[simp] theorem modSlice_ops (n : Nat) (f : SliceRec → SliceRec) : (modSlice n f s).ops = s.ops := rfl
@[simp] theorem modSlice_wb (n : Nat) (f : SliceRec → SliceRec) : (modSlice n f s).wb = s.wb := rfl
@[simp] theorem modSlice_beats (n : Nat) (f : SliceRec → SliceRec) : (modSlice n f s).beats = s.beats := rfl
@[simp] theorem modSlice_works (n : Nat) (f : SliceRec → SliceRec) : (modSlice n f s).works = s.works := rfl
@[simp] theorem modSlice_outerCut (n : Nat) (f : SliceRec → SliceRec) : (modSlice n f s).outerCut = s.outerCut := rfl
@[simp] theorem modSlice_outerUsed (n : Nat) (f : SliceRec → SliceRec) : (modSlice n f s).outerUsed = s.outerUsed := rfl
@[simp] theorem modSlice_busyBanks (n : Nat) (f : SliceRec → SliceRec) : (modSlice n f s).busyBanks = s.busyBanks := rfl
@[simp] theorem modSlice_clears (n : Nat) (f : SliceRec → SliceRec) : (modSlice n f s).clears = s.clears := rfl
@[simp] theorem modSlice_contracts (n : Nat) (f : SliceRec → SliceRec) : (modSlice n f s).contracts = s.contracts := rfl
@[simp] theorem modSlice_sync (n : Nat) (f : SliceRec → SliceRec) : (modSlice n f s).sync = s.sync := rfl
@[simp] theorem modSlice_movers (n : Nat) (f : SliceRec → SliceRec) : (modSlice n f s).movers = s.movers := rfl
@[simp] theorem modSlice_outbox (n : Nat) (f : SliceRec → SliceRec) : (modSlice n f s).outbox = s.outbox := rfl
@[simp] theorem modSlice_fab (n : Nat) (f : SliceRec → SliceRec) : (modSlice n f s).fab = s.fab := rfl
@[simp] theorem modSlice_ctl (n : Nat) (f : SliceRec → SliceRec) : (modSlice n f s).ctl = s.ctl := rfl
@[simp] theorem modSlice_power (n : Nat) (f : SliceRec → SliceRec) : (modSlice n f s).power = s.power := rfl
@[simp] theorem modSlice_meter (n : Nat) (f : SliceRec → SliceRec) : (modSlice n f s).meter = s.meter := rfl
@[simp] theorem modSlice_scrub (n : Nat) (f : SliceRec → SliceRec) : (modSlice n f s).scrub = s.scrub := rfl
@[simp] theorem modSlice_test (n : Nat) (f : SliceRec → SliceRec) : (modSlice n f s).test = s.test := rfl
@[simp] theorem modSlice_keys (n : Nat) (f : SliceRec → SliceRec) : (modSlice n f s).keys = s.keys := rfl
@[simp] theorem modSlice_tdi (n : Nat) (f : SliceRec → SliceRec) : (modSlice n f s).tdi = s.tdi := rfl
@[simp] theorem modSlice_ready (n : Nat) (f : SliceRec → SliceRec) : (modSlice n f s).ready = s.ready := rfl
@[simp] theorem modSlice_pp1 (n : Nat) (f : SliceRec → SliceRec) : (modSlice n f s).pp1 = s.pp1 := rfl
@[simp] theorem modSlice_unconn (n : Nat) (f : SliceRec → SliceRec) : (modSlice n f s).unconn = s.unconn := rfl
@[simp] theorem modSlice_cgrp (n : Nat) (f : SliceRec → SliceRec) : (modSlice n f s).cgrp = s.cgrp := rfl
@[simp] theorem modSlice_nfab (n : Nat) (f : SliceRec → SliceRec) : (modSlice n f s).nfab = s.nfab := rfl
@[simp] theorem modSlice_fstop (n : Nat) (f : SliceRec → SliceRec) : (modSlice n f s).fstop = s.fstop := rfl

/-! `regPut` changes `regs` only. -/
@[simp] theorem regPut_pending (d r v : Nat) : (regPut d r v s).pending = s.pending := rfl
@[simp] theorem regPut_freeCtr (d r v : Nat) : (regPut d r v s).freeCtr = s.freeCtr := rfl
@[simp] theorem regPut_nextId (d r v : Nat) : (regPut d r v s).nextId = s.nextId := rfl
@[simp] theorem regPut_mem (d r v : Nat) : (regPut d r v s).mem = s.mem := rfl
@[simp] theorem regPut_w1done (d r v : Nat) : (regPut d r v s).w1done = s.w1done := rfl
@[simp] theorem regPut_bcnt (d r v : Nat) : (regPut d r v s).bcnt = s.bcnt := rfl
@[simp] theorem regPut_bcRun (d r v : Nat) : (regPut d r v s).bcRun = s.bcRun := rfl
@[simp] theorem regPut_rc (d r v : Nat) : (regPut d r v s).rc = s.rc := rfl
@[simp] theorem regPut_log (d r v : Nat) : (regPut d r v s).log = s.log := rfl
@[simp] theorem regPut_integ (d r v : Nat) : (regPut d r v s).integ = s.integ := rfl
@[simp] theorem regPut_ctxs (d r v : Nat) : (regPut d r v s).ctxs = s.ctxs := rfl
@[simp] theorem regPut_parts (d r v : Nat) : (regPut d r v s).parts = s.parts := rfl
@[simp] theorem regPut_slices (d r v : Nat) : (regPut d r v s).slices = s.slices := rfl
@[simp] theorem regPut_queues (d r v : Nat) : (regPut d r v s).queues = s.queues := rfl
@[simp] theorem regPut_qctl (d r v : Nat) : (regPut d r v s).qctl = s.qctl := rfl
@[simp] theorem regPut_qfetch (d r v : Nat) : (regPut d r v s).qfetch = s.qfetch := rfl
@[simp] theorem regPut_qback (d r v : Nat) : (regPut d r v s).qback = s.qback := rfl
@[simp] theorem regPut_dbPend (d r v : Nat) : (regPut d r v s).dbPend = s.dbPend := rfl
@[simp] theorem regPut_qEnabled (d r v : Nat) : (regPut d r v s).qEnabled = s.qEnabled := rfl
@[simp] theorem regPut_dbDrop (d r v : Nat) : (regPut d r v s).dbDrop = s.dbDrop := rfl
@[simp] theorem regPut_qirq (d r v : Nat) : (regPut d r v s).qirq = s.qirq := rfl
@[simp] theorem regPut_hwin (d r v : Nat) : (regPut d r v s).hwin = s.hwin := rfl
@[simp] theorem regPut_cmds (d r v : Nat) : (regPut d r v s).cmds = s.cmds := rfl
@[simp] theorem regPut_ports (d r v : Nat) : (regPut d r v s).ports = s.ports := rfl
@[simp] theorem regPut_ops (d r v : Nat) : (regPut d r v s).ops = s.ops := rfl
@[simp] theorem regPut_wb (d r v : Nat) : (regPut d r v s).wb = s.wb := rfl
@[simp] theorem regPut_beats (d r v : Nat) : (regPut d r v s).beats = s.beats := rfl
@[simp] theorem regPut_works (d r v : Nat) : (regPut d r v s).works = s.works := rfl
@[simp] theorem regPut_outerCut (d r v : Nat) : (regPut d r v s).outerCut = s.outerCut := rfl
@[simp] theorem regPut_outerUsed (d r v : Nat) : (regPut d r v s).outerUsed = s.outerUsed := rfl
@[simp] theorem regPut_busyBanks (d r v : Nat) : (regPut d r v s).busyBanks = s.busyBanks := rfl
@[simp] theorem regPut_clears (d r v : Nat) : (regPut d r v s).clears = s.clears := rfl
@[simp] theorem regPut_contracts (d r v : Nat) : (regPut d r v s).contracts = s.contracts := rfl
@[simp] theorem regPut_sync (d r v : Nat) : (regPut d r v s).sync = s.sync := rfl
@[simp] theorem regPut_movers (d r v : Nat) : (regPut d r v s).movers = s.movers := rfl
@[simp] theorem regPut_outbox (d r v : Nat) : (regPut d r v s).outbox = s.outbox := rfl
@[simp] theorem regPut_fab (d r v : Nat) : (regPut d r v s).fab = s.fab := rfl
@[simp] theorem regPut_ctl (d r v : Nat) : (regPut d r v s).ctl = s.ctl := rfl
@[simp] theorem regPut_power (d r v : Nat) : (regPut d r v s).power = s.power := rfl
@[simp] theorem regPut_meter (d r v : Nat) : (regPut d r v s).meter = s.meter := rfl
@[simp] theorem regPut_scrub (d r v : Nat) : (regPut d r v s).scrub = s.scrub := rfl
@[simp] theorem regPut_test (d r v : Nat) : (regPut d r v s).test = s.test := rfl
@[simp] theorem regPut_keys (d r v : Nat) : (regPut d r v s).keys = s.keys := rfl
@[simp] theorem regPut_tdi (d r v : Nat) : (regPut d r v s).tdi = s.tdi := rfl
@[simp] theorem regPut_ready (d r v : Nat) : (regPut d r v s).ready = s.ready := rfl
@[simp] theorem regPut_pp1 (d r v : Nat) : (regPut d r v s).pp1 = s.pp1 := rfl
@[simp] theorem regPut_unconn (d r v : Nat) : (regPut d r v s).unconn = s.unconn := rfl
@[simp] theorem regPut_cgrp (d r v : Nat) : (regPut d r v s).cgrp = s.cgrp := rfl
@[simp] theorem regPut_nfab (d r v : Nat) : (regPut d r v s).nfab = s.nfab := rfl
@[simp] theorem regPut_fstop (d r v : Nat) : (regPut d r v s).fstop = s.fstop := rfl

/-! `logEvent` changes `log` only. -/
@[simp] theorem logEvent_pending (e : LogEntry) : (logEvent e s).pending = s.pending := rfl
@[simp] theorem logEvent_freeCtr (e : LogEntry) : (logEvent e s).freeCtr = s.freeCtr := rfl
@[simp] theorem logEvent_nextId (e : LogEntry) : (logEvent e s).nextId = s.nextId := rfl
@[simp] theorem logEvent_mem (e : LogEntry) : (logEvent e s).mem = s.mem := rfl
@[simp] theorem logEvent_regs (e : LogEntry) : (logEvent e s).regs = s.regs := rfl
@[simp] theorem logEvent_w1done (e : LogEntry) : (logEvent e s).w1done = s.w1done := rfl
@[simp] theorem logEvent_bcnt (e : LogEntry) : (logEvent e s).bcnt = s.bcnt := rfl
@[simp] theorem logEvent_bcRun (e : LogEntry) : (logEvent e s).bcRun = s.bcRun := rfl
@[simp] theorem logEvent_rc (e : LogEntry) : (logEvent e s).rc = s.rc := rfl
@[simp] theorem logEvent_integ (e : LogEntry) : (logEvent e s).integ = s.integ := rfl
@[simp] theorem logEvent_ctxs (e : LogEntry) : (logEvent e s).ctxs = s.ctxs := rfl
@[simp] theorem logEvent_parts (e : LogEntry) : (logEvent e s).parts = s.parts := rfl
@[simp] theorem logEvent_slices (e : LogEntry) : (logEvent e s).slices = s.slices := rfl
@[simp] theorem logEvent_queues (e : LogEntry) : (logEvent e s).queues = s.queues := rfl
@[simp] theorem logEvent_qctl (e : LogEntry) : (logEvent e s).qctl = s.qctl := rfl
@[simp] theorem logEvent_qfetch (e : LogEntry) : (logEvent e s).qfetch = s.qfetch := rfl
@[simp] theorem logEvent_qback (e : LogEntry) : (logEvent e s).qback = s.qback := rfl
@[simp] theorem logEvent_dbPend (e : LogEntry) : (logEvent e s).dbPend = s.dbPend := rfl
@[simp] theorem logEvent_qEnabled (e : LogEntry) : (logEvent e s).qEnabled = s.qEnabled := rfl
@[simp] theorem logEvent_dbDrop (e : LogEntry) : (logEvent e s).dbDrop = s.dbDrop := rfl
@[simp] theorem logEvent_qirq (e : LogEntry) : (logEvent e s).qirq = s.qirq := rfl
@[simp] theorem logEvent_hwin (e : LogEntry) : (logEvent e s).hwin = s.hwin := rfl
@[simp] theorem logEvent_cmds (e : LogEntry) : (logEvent e s).cmds = s.cmds := rfl
@[simp] theorem logEvent_ports (e : LogEntry) : (logEvent e s).ports = s.ports := rfl
@[simp] theorem logEvent_ops (e : LogEntry) : (logEvent e s).ops = s.ops := rfl
@[simp] theorem logEvent_wb (e : LogEntry) : (logEvent e s).wb = s.wb := rfl
@[simp] theorem logEvent_beats (e : LogEntry) : (logEvent e s).beats = s.beats := rfl
@[simp] theorem logEvent_works (e : LogEntry) : (logEvent e s).works = s.works := rfl
@[simp] theorem logEvent_outerCut (e : LogEntry) : (logEvent e s).outerCut = s.outerCut := rfl
@[simp] theorem logEvent_outerUsed (e : LogEntry) : (logEvent e s).outerUsed = s.outerUsed := rfl
@[simp] theorem logEvent_busyBanks (e : LogEntry) : (logEvent e s).busyBanks = s.busyBanks := rfl
@[simp] theorem logEvent_clears (e : LogEntry) : (logEvent e s).clears = s.clears := rfl
@[simp] theorem logEvent_contracts (e : LogEntry) : (logEvent e s).contracts = s.contracts := rfl
@[simp] theorem logEvent_sync (e : LogEntry) : (logEvent e s).sync = s.sync := rfl
@[simp] theorem logEvent_movers (e : LogEntry) : (logEvent e s).movers = s.movers := rfl
@[simp] theorem logEvent_outbox (e : LogEntry) : (logEvent e s).outbox = s.outbox := rfl
@[simp] theorem logEvent_fab (e : LogEntry) : (logEvent e s).fab = s.fab := rfl
@[simp] theorem logEvent_ctl (e : LogEntry) : (logEvent e s).ctl = s.ctl := rfl
@[simp] theorem logEvent_power (e : LogEntry) : (logEvent e s).power = s.power := rfl
@[simp] theorem logEvent_meter (e : LogEntry) : (logEvent e s).meter = s.meter := rfl
@[simp] theorem logEvent_scrub (e : LogEntry) : (logEvent e s).scrub = s.scrub := rfl
@[simp] theorem logEvent_test (e : LogEntry) : (logEvent e s).test = s.test := rfl
@[simp] theorem logEvent_keys (e : LogEntry) : (logEvent e s).keys = s.keys := rfl
@[simp] theorem logEvent_tdi (e : LogEntry) : (logEvent e s).tdi = s.tdi := rfl
@[simp] theorem logEvent_ready (e : LogEntry) : (logEvent e s).ready = s.ready := rfl
@[simp] theorem logEvent_pp1 (e : LogEntry) : (logEvent e s).pp1 = s.pp1 := rfl
@[simp] theorem logEvent_unconn (e : LogEntry) : (logEvent e s).unconn = s.unconn := rfl
@[simp] theorem logEvent_cgrp (e : LogEntry) : (logEvent e s).cgrp = s.cgrp := rfl
@[simp] theorem logEvent_nfab (e : LogEntry) : (logEvent e s).nfab = s.nfab := rfl
@[simp] theorem logEvent_fstop (e : LogEntry) : (logEvent e s).fstop = s.fstop := rfl

/-! `report` changes `log` only. -/
@[simp] theorem report_pending (st : Status) (src lslice unit : Nat) (who : Who) (ctx addr : Nat) : (report st src lslice unit who ctx addr s).pending = s.pending := rfl
@[simp] theorem report_freeCtr (st : Status) (src lslice unit : Nat) (who : Who) (ctx addr : Nat) : (report st src lslice unit who ctx addr s).freeCtr = s.freeCtr := rfl
@[simp] theorem report_nextId (st : Status) (src lslice unit : Nat) (who : Who) (ctx addr : Nat) : (report st src lslice unit who ctx addr s).nextId = s.nextId := rfl
@[simp] theorem report_mem (st : Status) (src lslice unit : Nat) (who : Who) (ctx addr : Nat) : (report st src lslice unit who ctx addr s).mem = s.mem := rfl
@[simp] theorem report_regs (st : Status) (src lslice unit : Nat) (who : Who) (ctx addr : Nat) : (report st src lslice unit who ctx addr s).regs = s.regs := rfl
@[simp] theorem report_w1done (st : Status) (src lslice unit : Nat) (who : Who) (ctx addr : Nat) : (report st src lslice unit who ctx addr s).w1done = s.w1done := rfl
@[simp] theorem report_bcnt (st : Status) (src lslice unit : Nat) (who : Who) (ctx addr : Nat) : (report st src lslice unit who ctx addr s).bcnt = s.bcnt := rfl
@[simp] theorem report_bcRun (st : Status) (src lslice unit : Nat) (who : Who) (ctx addr : Nat) : (report st src lslice unit who ctx addr s).bcRun = s.bcRun := rfl
@[simp] theorem report_rc (st : Status) (src lslice unit : Nat) (who : Who) (ctx addr : Nat) : (report st src lslice unit who ctx addr s).rc = s.rc := rfl
@[simp] theorem report_integ (st : Status) (src lslice unit : Nat) (who : Who) (ctx addr : Nat) : (report st src lslice unit who ctx addr s).integ = s.integ := rfl
@[simp] theorem report_ctxs (st : Status) (src lslice unit : Nat) (who : Who) (ctx addr : Nat) : (report st src lslice unit who ctx addr s).ctxs = s.ctxs := rfl
@[simp] theorem report_parts (st : Status) (src lslice unit : Nat) (who : Who) (ctx addr : Nat) : (report st src lslice unit who ctx addr s).parts = s.parts := rfl
@[simp] theorem report_slices (st : Status) (src lslice unit : Nat) (who : Who) (ctx addr : Nat) : (report st src lslice unit who ctx addr s).slices = s.slices := rfl
@[simp] theorem report_queues (st : Status) (src lslice unit : Nat) (who : Who) (ctx addr : Nat) : (report st src lslice unit who ctx addr s).queues = s.queues := rfl
@[simp] theorem report_qctl (st : Status) (src lslice unit : Nat) (who : Who) (ctx addr : Nat) : (report st src lslice unit who ctx addr s).qctl = s.qctl := rfl
@[simp] theorem report_qfetch (st : Status) (src lslice unit : Nat) (who : Who) (ctx addr : Nat) : (report st src lslice unit who ctx addr s).qfetch = s.qfetch := rfl
@[simp] theorem report_qback (st : Status) (src lslice unit : Nat) (who : Who) (ctx addr : Nat) : (report st src lslice unit who ctx addr s).qback = s.qback := rfl
@[simp] theorem report_dbPend (st : Status) (src lslice unit : Nat) (who : Who) (ctx addr : Nat) : (report st src lslice unit who ctx addr s).dbPend = s.dbPend := rfl
@[simp] theorem report_qEnabled (st : Status) (src lslice unit : Nat) (who : Who) (ctx addr : Nat) : (report st src lslice unit who ctx addr s).qEnabled = s.qEnabled := rfl
@[simp] theorem report_dbDrop (st : Status) (src lslice unit : Nat) (who : Who) (ctx addr : Nat) : (report st src lslice unit who ctx addr s).dbDrop = s.dbDrop := rfl
@[simp] theorem report_qirq (st : Status) (src lslice unit : Nat) (who : Who) (ctx addr : Nat) : (report st src lslice unit who ctx addr s).qirq = s.qirq := rfl
@[simp] theorem report_hwin (st : Status) (src lslice unit : Nat) (who : Who) (ctx addr : Nat) : (report st src lslice unit who ctx addr s).hwin = s.hwin := rfl
@[simp] theorem report_cmds (st : Status) (src lslice unit : Nat) (who : Who) (ctx addr : Nat) : (report st src lslice unit who ctx addr s).cmds = s.cmds := rfl
@[simp] theorem report_ports (st : Status) (src lslice unit : Nat) (who : Who) (ctx addr : Nat) : (report st src lslice unit who ctx addr s).ports = s.ports := rfl
@[simp] theorem report_ops (st : Status) (src lslice unit : Nat) (who : Who) (ctx addr : Nat) : (report st src lslice unit who ctx addr s).ops = s.ops := rfl
@[simp] theorem report_wb (st : Status) (src lslice unit : Nat) (who : Who) (ctx addr : Nat) : (report st src lslice unit who ctx addr s).wb = s.wb := rfl
@[simp] theorem report_beats (st : Status) (src lslice unit : Nat) (who : Who) (ctx addr : Nat) : (report st src lslice unit who ctx addr s).beats = s.beats := rfl
@[simp] theorem report_works (st : Status) (src lslice unit : Nat) (who : Who) (ctx addr : Nat) : (report st src lslice unit who ctx addr s).works = s.works := rfl
@[simp] theorem report_outerCut (st : Status) (src lslice unit : Nat) (who : Who) (ctx addr : Nat) : (report st src lslice unit who ctx addr s).outerCut = s.outerCut := rfl
@[simp] theorem report_outerUsed (st : Status) (src lslice unit : Nat) (who : Who) (ctx addr : Nat) : (report st src lslice unit who ctx addr s).outerUsed = s.outerUsed := rfl
@[simp] theorem report_busyBanks (st : Status) (src lslice unit : Nat) (who : Who) (ctx addr : Nat) : (report st src lslice unit who ctx addr s).busyBanks = s.busyBanks := rfl
@[simp] theorem report_clears (st : Status) (src lslice unit : Nat) (who : Who) (ctx addr : Nat) : (report st src lslice unit who ctx addr s).clears = s.clears := rfl
@[simp] theorem report_contracts (st : Status) (src lslice unit : Nat) (who : Who) (ctx addr : Nat) : (report st src lslice unit who ctx addr s).contracts = s.contracts := rfl
@[simp] theorem report_sync (st : Status) (src lslice unit : Nat) (who : Who) (ctx addr : Nat) : (report st src lslice unit who ctx addr s).sync = s.sync := rfl
@[simp] theorem report_movers (st : Status) (src lslice unit : Nat) (who : Who) (ctx addr : Nat) : (report st src lslice unit who ctx addr s).movers = s.movers := rfl
@[simp] theorem report_outbox (st : Status) (src lslice unit : Nat) (who : Who) (ctx addr : Nat) : (report st src lslice unit who ctx addr s).outbox = s.outbox := rfl
@[simp] theorem report_fab (st : Status) (src lslice unit : Nat) (who : Who) (ctx addr : Nat) : (report st src lslice unit who ctx addr s).fab = s.fab := rfl
@[simp] theorem report_ctl (st : Status) (src lslice unit : Nat) (who : Who) (ctx addr : Nat) : (report st src lslice unit who ctx addr s).ctl = s.ctl := rfl
@[simp] theorem report_power (st : Status) (src lslice unit : Nat) (who : Who) (ctx addr : Nat) : (report st src lslice unit who ctx addr s).power = s.power := rfl
@[simp] theorem report_meter (st : Status) (src lslice unit : Nat) (who : Who) (ctx addr : Nat) : (report st src lslice unit who ctx addr s).meter = s.meter := rfl
@[simp] theorem report_scrub (st : Status) (src lslice unit : Nat) (who : Who) (ctx addr : Nat) : (report st src lslice unit who ctx addr s).scrub = s.scrub := rfl
@[simp] theorem report_test (st : Status) (src lslice unit : Nat) (who : Who) (ctx addr : Nat) : (report st src lslice unit who ctx addr s).test = s.test := rfl
@[simp] theorem report_keys (st : Status) (src lslice unit : Nat) (who : Who) (ctx addr : Nat) : (report st src lslice unit who ctx addr s).keys = s.keys := rfl
@[simp] theorem report_tdi (st : Status) (src lslice unit : Nat) (who : Who) (ctx addr : Nat) : (report st src lslice unit who ctx addr s).tdi = s.tdi := rfl
@[simp] theorem report_ready (st : Status) (src lslice unit : Nat) (who : Who) (ctx addr : Nat) : (report st src lslice unit who ctx addr s).ready = s.ready := rfl
@[simp] theorem report_pp1 (st : Status) (src lslice unit : Nat) (who : Who) (ctx addr : Nat) : (report st src lslice unit who ctx addr s).pp1 = s.pp1 := rfl
@[simp] theorem report_unconn (st : Status) (src lslice unit : Nat) (who : Who) (ctx addr : Nat) : (report st src lslice unit who ctx addr s).unconn = s.unconn := rfl
@[simp] theorem report_cgrp (st : Status) (src lslice unit : Nat) (who : Who) (ctx addr : Nat) : (report st src lslice unit who ctx addr s).cgrp = s.cgrp := rfl
@[simp] theorem report_nfab (st : Status) (src lslice unit : Nat) (who : Who) (ctx addr : Nat) : (report st src lslice unit who ctx addr s).nfab = s.nfab := rfl
@[simp] theorem report_fstop (st : Status) (src lslice unit : Nat) (who : Who) (ctx addr : Nat) : (report st src lslice unit who ctx addr s).fstop = s.fstop := rfl

/-! `modCmd` changes `cmds` only. -/
@[simp] theorem modCmd_pending (id : Nat) (f : Cmd → Cmd) : (modCmd id f s).pending = s.pending := rfl
@[simp] theorem modCmd_freeCtr (id : Nat) (f : Cmd → Cmd) : (modCmd id f s).freeCtr = s.freeCtr := rfl
@[simp] theorem modCmd_nextId (id : Nat) (f : Cmd → Cmd) : (modCmd id f s).nextId = s.nextId := rfl
@[simp] theorem modCmd_mem (id : Nat) (f : Cmd → Cmd) : (modCmd id f s).mem = s.mem := rfl
@[simp] theorem modCmd_regs (id : Nat) (f : Cmd → Cmd) : (modCmd id f s).regs = s.regs := rfl
@[simp] theorem modCmd_w1done (id : Nat) (f : Cmd → Cmd) : (modCmd id f s).w1done = s.w1done := rfl
@[simp] theorem modCmd_bcnt (id : Nat) (f : Cmd → Cmd) : (modCmd id f s).bcnt = s.bcnt := rfl
@[simp] theorem modCmd_bcRun (id : Nat) (f : Cmd → Cmd) : (modCmd id f s).bcRun = s.bcRun := rfl
@[simp] theorem modCmd_rc (id : Nat) (f : Cmd → Cmd) : (modCmd id f s).rc = s.rc := rfl
@[simp] theorem modCmd_log (id : Nat) (f : Cmd → Cmd) : (modCmd id f s).log = s.log := rfl
@[simp] theorem modCmd_integ (id : Nat) (f : Cmd → Cmd) : (modCmd id f s).integ = s.integ := rfl
@[simp] theorem modCmd_ctxs (id : Nat) (f : Cmd → Cmd) : (modCmd id f s).ctxs = s.ctxs := rfl
@[simp] theorem modCmd_parts (id : Nat) (f : Cmd → Cmd) : (modCmd id f s).parts = s.parts := rfl
@[simp] theorem modCmd_slices (id : Nat) (f : Cmd → Cmd) : (modCmd id f s).slices = s.slices := rfl
@[simp] theorem modCmd_queues (id : Nat) (f : Cmd → Cmd) : (modCmd id f s).queues = s.queues := rfl
@[simp] theorem modCmd_qctl (id : Nat) (f : Cmd → Cmd) : (modCmd id f s).qctl = s.qctl := rfl
@[simp] theorem modCmd_qfetch (id : Nat) (f : Cmd → Cmd) : (modCmd id f s).qfetch = s.qfetch := rfl
@[simp] theorem modCmd_qback (id : Nat) (f : Cmd → Cmd) : (modCmd id f s).qback = s.qback := rfl
@[simp] theorem modCmd_dbPend (id : Nat) (f : Cmd → Cmd) : (modCmd id f s).dbPend = s.dbPend := rfl
@[simp] theorem modCmd_qEnabled (id : Nat) (f : Cmd → Cmd) : (modCmd id f s).qEnabled = s.qEnabled := rfl
@[simp] theorem modCmd_dbDrop (id : Nat) (f : Cmd → Cmd) : (modCmd id f s).dbDrop = s.dbDrop := rfl
@[simp] theorem modCmd_qirq (id : Nat) (f : Cmd → Cmd) : (modCmd id f s).qirq = s.qirq := rfl
@[simp] theorem modCmd_hwin (id : Nat) (f : Cmd → Cmd) : (modCmd id f s).hwin = s.hwin := rfl
@[simp] theorem modCmd_ports (id : Nat) (f : Cmd → Cmd) : (modCmd id f s).ports = s.ports := rfl
@[simp] theorem modCmd_ops (id : Nat) (f : Cmd → Cmd) : (modCmd id f s).ops = s.ops := rfl
@[simp] theorem modCmd_wb (id : Nat) (f : Cmd → Cmd) : (modCmd id f s).wb = s.wb := rfl
@[simp] theorem modCmd_beats (id : Nat) (f : Cmd → Cmd) : (modCmd id f s).beats = s.beats := rfl
@[simp] theorem modCmd_works (id : Nat) (f : Cmd → Cmd) : (modCmd id f s).works = s.works := rfl
@[simp] theorem modCmd_outerCut (id : Nat) (f : Cmd → Cmd) : (modCmd id f s).outerCut = s.outerCut := rfl
@[simp] theorem modCmd_outerUsed (id : Nat) (f : Cmd → Cmd) : (modCmd id f s).outerUsed = s.outerUsed := rfl
@[simp] theorem modCmd_busyBanks (id : Nat) (f : Cmd → Cmd) : (modCmd id f s).busyBanks = s.busyBanks := rfl
@[simp] theorem modCmd_clears (id : Nat) (f : Cmd → Cmd) : (modCmd id f s).clears = s.clears := rfl
@[simp] theorem modCmd_contracts (id : Nat) (f : Cmd → Cmd) : (modCmd id f s).contracts = s.contracts := rfl
@[simp] theorem modCmd_sync (id : Nat) (f : Cmd → Cmd) : (modCmd id f s).sync = s.sync := rfl
@[simp] theorem modCmd_movers (id : Nat) (f : Cmd → Cmd) : (modCmd id f s).movers = s.movers := rfl
@[simp] theorem modCmd_outbox (id : Nat) (f : Cmd → Cmd) : (modCmd id f s).outbox = s.outbox := rfl
@[simp] theorem modCmd_fab (id : Nat) (f : Cmd → Cmd) : (modCmd id f s).fab = s.fab := rfl
@[simp] theorem modCmd_ctl (id : Nat) (f : Cmd → Cmd) : (modCmd id f s).ctl = s.ctl := rfl
@[simp] theorem modCmd_power (id : Nat) (f : Cmd → Cmd) : (modCmd id f s).power = s.power := rfl
@[simp] theorem modCmd_meter (id : Nat) (f : Cmd → Cmd) : (modCmd id f s).meter = s.meter := rfl
@[simp] theorem modCmd_scrub (id : Nat) (f : Cmd → Cmd) : (modCmd id f s).scrub = s.scrub := rfl
@[simp] theorem modCmd_test (id : Nat) (f : Cmd → Cmd) : (modCmd id f s).test = s.test := rfl
@[simp] theorem modCmd_keys (id : Nat) (f : Cmd → Cmd) : (modCmd id f s).keys = s.keys := rfl
@[simp] theorem modCmd_tdi (id : Nat) (f : Cmd → Cmd) : (modCmd id f s).tdi = s.tdi := rfl
@[simp] theorem modCmd_ready (id : Nat) (f : Cmd → Cmd) : (modCmd id f s).ready = s.ready := rfl
@[simp] theorem modCmd_pp1 (id : Nat) (f : Cmd → Cmd) : (modCmd id f s).pp1 = s.pp1 := rfl
@[simp] theorem modCmd_unconn (id : Nat) (f : Cmd → Cmd) : (modCmd id f s).unconn = s.unconn := rfl
@[simp] theorem modCmd_cgrp (id : Nat) (f : Cmd → Cmd) : (modCmd id f s).cgrp = s.cgrp := rfl
@[simp] theorem modCmd_nfab (id : Nat) (f : Cmd → Cmd) : (modCmd id f s).nfab = s.nfab := rfl
@[simp] theorem modCmd_fstop (id : Nat) (f : Cmd → Cmd) : (modCmd id f s).fstop = s.fstop := rfl

/-! `cmdDone` changes `cmds` only. -/
@[simp] theorem cmdDone_pending (id : Nat) (st : Status) (count result : Nat) : (cmdDone id st count result s).pending = s.pending := rfl
@[simp] theorem cmdDone_freeCtr (id : Nat) (st : Status) (count result : Nat) : (cmdDone id st count result s).freeCtr = s.freeCtr := rfl
@[simp] theorem cmdDone_nextId (id : Nat) (st : Status) (count result : Nat) : (cmdDone id st count result s).nextId = s.nextId := rfl
@[simp] theorem cmdDone_mem (id : Nat) (st : Status) (count result : Nat) : (cmdDone id st count result s).mem = s.mem := rfl
@[simp] theorem cmdDone_regs (id : Nat) (st : Status) (count result : Nat) : (cmdDone id st count result s).regs = s.regs := rfl
@[simp] theorem cmdDone_w1done (id : Nat) (st : Status) (count result : Nat) : (cmdDone id st count result s).w1done = s.w1done := rfl
@[simp] theorem cmdDone_bcnt (id : Nat) (st : Status) (count result : Nat) : (cmdDone id st count result s).bcnt = s.bcnt := rfl
@[simp] theorem cmdDone_bcRun (id : Nat) (st : Status) (count result : Nat) : (cmdDone id st count result s).bcRun = s.bcRun := rfl
@[simp] theorem cmdDone_rc (id : Nat) (st : Status) (count result : Nat) : (cmdDone id st count result s).rc = s.rc := rfl
@[simp] theorem cmdDone_log (id : Nat) (st : Status) (count result : Nat) : (cmdDone id st count result s).log = s.log := rfl
@[simp] theorem cmdDone_integ (id : Nat) (st : Status) (count result : Nat) : (cmdDone id st count result s).integ = s.integ := rfl
@[simp] theorem cmdDone_ctxs (id : Nat) (st : Status) (count result : Nat) : (cmdDone id st count result s).ctxs = s.ctxs := rfl
@[simp] theorem cmdDone_parts (id : Nat) (st : Status) (count result : Nat) : (cmdDone id st count result s).parts = s.parts := rfl
@[simp] theorem cmdDone_slices (id : Nat) (st : Status) (count result : Nat) : (cmdDone id st count result s).slices = s.slices := rfl
@[simp] theorem cmdDone_queues (id : Nat) (st : Status) (count result : Nat) : (cmdDone id st count result s).queues = s.queues := rfl
@[simp] theorem cmdDone_qctl (id : Nat) (st : Status) (count result : Nat) : (cmdDone id st count result s).qctl = s.qctl := rfl
@[simp] theorem cmdDone_qfetch (id : Nat) (st : Status) (count result : Nat) : (cmdDone id st count result s).qfetch = s.qfetch := rfl
@[simp] theorem cmdDone_qback (id : Nat) (st : Status) (count result : Nat) : (cmdDone id st count result s).qback = s.qback := rfl
@[simp] theorem cmdDone_dbPend (id : Nat) (st : Status) (count result : Nat) : (cmdDone id st count result s).dbPend = s.dbPend := rfl
@[simp] theorem cmdDone_qEnabled (id : Nat) (st : Status) (count result : Nat) : (cmdDone id st count result s).qEnabled = s.qEnabled := rfl
@[simp] theorem cmdDone_dbDrop (id : Nat) (st : Status) (count result : Nat) : (cmdDone id st count result s).dbDrop = s.dbDrop := rfl
@[simp] theorem cmdDone_qirq (id : Nat) (st : Status) (count result : Nat) : (cmdDone id st count result s).qirq = s.qirq := rfl
@[simp] theorem cmdDone_hwin (id : Nat) (st : Status) (count result : Nat) : (cmdDone id st count result s).hwin = s.hwin := rfl
@[simp] theorem cmdDone_ports (id : Nat) (st : Status) (count result : Nat) : (cmdDone id st count result s).ports = s.ports := rfl
@[simp] theorem cmdDone_ops (id : Nat) (st : Status) (count result : Nat) : (cmdDone id st count result s).ops = s.ops := rfl
@[simp] theorem cmdDone_wb (id : Nat) (st : Status) (count result : Nat) : (cmdDone id st count result s).wb = s.wb := rfl
@[simp] theorem cmdDone_beats (id : Nat) (st : Status) (count result : Nat) : (cmdDone id st count result s).beats = s.beats := rfl
@[simp] theorem cmdDone_works (id : Nat) (st : Status) (count result : Nat) : (cmdDone id st count result s).works = s.works := rfl
@[simp] theorem cmdDone_outerCut (id : Nat) (st : Status) (count result : Nat) : (cmdDone id st count result s).outerCut = s.outerCut := rfl
@[simp] theorem cmdDone_outerUsed (id : Nat) (st : Status) (count result : Nat) : (cmdDone id st count result s).outerUsed = s.outerUsed := rfl
@[simp] theorem cmdDone_busyBanks (id : Nat) (st : Status) (count result : Nat) : (cmdDone id st count result s).busyBanks = s.busyBanks := rfl
@[simp] theorem cmdDone_clears (id : Nat) (st : Status) (count result : Nat) : (cmdDone id st count result s).clears = s.clears := rfl
@[simp] theorem cmdDone_contracts (id : Nat) (st : Status) (count result : Nat) : (cmdDone id st count result s).contracts = s.contracts := rfl
@[simp] theorem cmdDone_sync (id : Nat) (st : Status) (count result : Nat) : (cmdDone id st count result s).sync = s.sync := rfl
@[simp] theorem cmdDone_movers (id : Nat) (st : Status) (count result : Nat) : (cmdDone id st count result s).movers = s.movers := rfl
@[simp] theorem cmdDone_outbox (id : Nat) (st : Status) (count result : Nat) : (cmdDone id st count result s).outbox = s.outbox := rfl
@[simp] theorem cmdDone_fab (id : Nat) (st : Status) (count result : Nat) : (cmdDone id st count result s).fab = s.fab := rfl
@[simp] theorem cmdDone_ctl (id : Nat) (st : Status) (count result : Nat) : (cmdDone id st count result s).ctl = s.ctl := rfl
@[simp] theorem cmdDone_power (id : Nat) (st : Status) (count result : Nat) : (cmdDone id st count result s).power = s.power := rfl
@[simp] theorem cmdDone_meter (id : Nat) (st : Status) (count result : Nat) : (cmdDone id st count result s).meter = s.meter := rfl
@[simp] theorem cmdDone_scrub (id : Nat) (st : Status) (count result : Nat) : (cmdDone id st count result s).scrub = s.scrub := rfl
@[simp] theorem cmdDone_test (id : Nat) (st : Status) (count result : Nat) : (cmdDone id st count result s).test = s.test := rfl
@[simp] theorem cmdDone_keys (id : Nat) (st : Status) (count result : Nat) : (cmdDone id st count result s).keys = s.keys := rfl
@[simp] theorem cmdDone_tdi (id : Nat) (st : Status) (count result : Nat) : (cmdDone id st count result s).tdi = s.tdi := rfl
@[simp] theorem cmdDone_ready (id : Nat) (st : Status) (count result : Nat) : (cmdDone id st count result s).ready = s.ready := rfl
@[simp] theorem cmdDone_pp1 (id : Nat) (st : Status) (count result : Nat) : (cmdDone id st count result s).pp1 = s.pp1 := rfl
@[simp] theorem cmdDone_unconn (id : Nat) (st : Status) (count result : Nat) : (cmdDone id st count result s).unconn = s.unconn := rfl
@[simp] theorem cmdDone_cgrp (id : Nat) (st : Status) (count result : Nat) : (cmdDone id st count result s).cgrp = s.cgrp := rfl
@[simp] theorem cmdDone_nfab (id : Nat) (st : Status) (count result : Nat) : (cmdDone id st count result s).nfab = s.nfab := rfl
@[simp] theorem cmdDone_fstop (id : Nat) (st : Status) (count result : Nat) : (cmdDone id st count result s).fstop = s.fstop := rfl

/-! `cmdRefuse` changes `cmds` only. -/
@[simp] theorem cmdRefuse_pending (id : Nat) (st : Status) (result : Nat) : (cmdRefuse id st result s).pending = s.pending := rfl
@[simp] theorem cmdRefuse_freeCtr (id : Nat) (st : Status) (result : Nat) : (cmdRefuse id st result s).freeCtr = s.freeCtr := rfl
@[simp] theorem cmdRefuse_nextId (id : Nat) (st : Status) (result : Nat) : (cmdRefuse id st result s).nextId = s.nextId := rfl
@[simp] theorem cmdRefuse_mem (id : Nat) (st : Status) (result : Nat) : (cmdRefuse id st result s).mem = s.mem := rfl
@[simp] theorem cmdRefuse_regs (id : Nat) (st : Status) (result : Nat) : (cmdRefuse id st result s).regs = s.regs := rfl
@[simp] theorem cmdRefuse_w1done (id : Nat) (st : Status) (result : Nat) : (cmdRefuse id st result s).w1done = s.w1done := rfl
@[simp] theorem cmdRefuse_bcnt (id : Nat) (st : Status) (result : Nat) : (cmdRefuse id st result s).bcnt = s.bcnt := rfl
@[simp] theorem cmdRefuse_bcRun (id : Nat) (st : Status) (result : Nat) : (cmdRefuse id st result s).bcRun = s.bcRun := rfl
@[simp] theorem cmdRefuse_rc (id : Nat) (st : Status) (result : Nat) : (cmdRefuse id st result s).rc = s.rc := rfl
@[simp] theorem cmdRefuse_log (id : Nat) (st : Status) (result : Nat) : (cmdRefuse id st result s).log = s.log := rfl
@[simp] theorem cmdRefuse_integ (id : Nat) (st : Status) (result : Nat) : (cmdRefuse id st result s).integ = s.integ := rfl
@[simp] theorem cmdRefuse_ctxs (id : Nat) (st : Status) (result : Nat) : (cmdRefuse id st result s).ctxs = s.ctxs := rfl
@[simp] theorem cmdRefuse_parts (id : Nat) (st : Status) (result : Nat) : (cmdRefuse id st result s).parts = s.parts := rfl
@[simp] theorem cmdRefuse_slices (id : Nat) (st : Status) (result : Nat) : (cmdRefuse id st result s).slices = s.slices := rfl
@[simp] theorem cmdRefuse_queues (id : Nat) (st : Status) (result : Nat) : (cmdRefuse id st result s).queues = s.queues := rfl
@[simp] theorem cmdRefuse_qctl (id : Nat) (st : Status) (result : Nat) : (cmdRefuse id st result s).qctl = s.qctl := rfl
@[simp] theorem cmdRefuse_qfetch (id : Nat) (st : Status) (result : Nat) : (cmdRefuse id st result s).qfetch = s.qfetch := rfl
@[simp] theorem cmdRefuse_qback (id : Nat) (st : Status) (result : Nat) : (cmdRefuse id st result s).qback = s.qback := rfl
@[simp] theorem cmdRefuse_dbPend (id : Nat) (st : Status) (result : Nat) : (cmdRefuse id st result s).dbPend = s.dbPend := rfl
@[simp] theorem cmdRefuse_qEnabled (id : Nat) (st : Status) (result : Nat) : (cmdRefuse id st result s).qEnabled = s.qEnabled := rfl
@[simp] theorem cmdRefuse_dbDrop (id : Nat) (st : Status) (result : Nat) : (cmdRefuse id st result s).dbDrop = s.dbDrop := rfl
@[simp] theorem cmdRefuse_qirq (id : Nat) (st : Status) (result : Nat) : (cmdRefuse id st result s).qirq = s.qirq := rfl
@[simp] theorem cmdRefuse_hwin (id : Nat) (st : Status) (result : Nat) : (cmdRefuse id st result s).hwin = s.hwin := rfl
@[simp] theorem cmdRefuse_ports (id : Nat) (st : Status) (result : Nat) : (cmdRefuse id st result s).ports = s.ports := rfl
@[simp] theorem cmdRefuse_ops (id : Nat) (st : Status) (result : Nat) : (cmdRefuse id st result s).ops = s.ops := rfl
@[simp] theorem cmdRefuse_wb (id : Nat) (st : Status) (result : Nat) : (cmdRefuse id st result s).wb = s.wb := rfl
@[simp] theorem cmdRefuse_beats (id : Nat) (st : Status) (result : Nat) : (cmdRefuse id st result s).beats = s.beats := rfl
@[simp] theorem cmdRefuse_works (id : Nat) (st : Status) (result : Nat) : (cmdRefuse id st result s).works = s.works := rfl
@[simp] theorem cmdRefuse_outerCut (id : Nat) (st : Status) (result : Nat) : (cmdRefuse id st result s).outerCut = s.outerCut := rfl
@[simp] theorem cmdRefuse_outerUsed (id : Nat) (st : Status) (result : Nat) : (cmdRefuse id st result s).outerUsed = s.outerUsed := rfl
@[simp] theorem cmdRefuse_busyBanks (id : Nat) (st : Status) (result : Nat) : (cmdRefuse id st result s).busyBanks = s.busyBanks := rfl
@[simp] theorem cmdRefuse_clears (id : Nat) (st : Status) (result : Nat) : (cmdRefuse id st result s).clears = s.clears := rfl
@[simp] theorem cmdRefuse_contracts (id : Nat) (st : Status) (result : Nat) : (cmdRefuse id st result s).contracts = s.contracts := rfl
@[simp] theorem cmdRefuse_sync (id : Nat) (st : Status) (result : Nat) : (cmdRefuse id st result s).sync = s.sync := rfl
@[simp] theorem cmdRefuse_movers (id : Nat) (st : Status) (result : Nat) : (cmdRefuse id st result s).movers = s.movers := rfl
@[simp] theorem cmdRefuse_outbox (id : Nat) (st : Status) (result : Nat) : (cmdRefuse id st result s).outbox = s.outbox := rfl
@[simp] theorem cmdRefuse_fab (id : Nat) (st : Status) (result : Nat) : (cmdRefuse id st result s).fab = s.fab := rfl
@[simp] theorem cmdRefuse_ctl (id : Nat) (st : Status) (result : Nat) : (cmdRefuse id st result s).ctl = s.ctl := rfl
@[simp] theorem cmdRefuse_power (id : Nat) (st : Status) (result : Nat) : (cmdRefuse id st result s).power = s.power := rfl
@[simp] theorem cmdRefuse_meter (id : Nat) (st : Status) (result : Nat) : (cmdRefuse id st result s).meter = s.meter := rfl
@[simp] theorem cmdRefuse_scrub (id : Nat) (st : Status) (result : Nat) : (cmdRefuse id st result s).scrub = s.scrub := rfl
@[simp] theorem cmdRefuse_test (id : Nat) (st : Status) (result : Nat) : (cmdRefuse id st result s).test = s.test := rfl
@[simp] theorem cmdRefuse_keys (id : Nat) (st : Status) (result : Nat) : (cmdRefuse id st result s).keys = s.keys := rfl
@[simp] theorem cmdRefuse_tdi (id : Nat) (st : Status) (result : Nat) : (cmdRefuse id st result s).tdi = s.tdi := rfl
@[simp] theorem cmdRefuse_ready (id : Nat) (st : Status) (result : Nat) : (cmdRefuse id st result s).ready = s.ready := rfl
@[simp] theorem cmdRefuse_pp1 (id : Nat) (st : Status) (result : Nat) : (cmdRefuse id st result s).pp1 = s.pp1 := rfl
@[simp] theorem cmdRefuse_unconn (id : Nat) (st : Status) (result : Nat) : (cmdRefuse id st result s).unconn = s.unconn := rfl
@[simp] theorem cmdRefuse_cgrp (id : Nat) (st : Status) (result : Nat) : (cmdRefuse id st result s).cgrp = s.cgrp := rfl
@[simp] theorem cmdRefuse_nfab (id : Nat) (st : Status) (result : Nat) : (cmdRefuse id st result s).nfab = s.nfab := rfl
@[simp] theorem cmdRefuse_fstop (id : Nat) (st : Status) (result : Nat) : (cmdRefuse id st result s).fstop = s.fstop := rfl

/-! `modOp` changes `ops` only. -/
@[simp] theorem modOp_pending (id : Nat) (f : PortOp → PortOp) : (modOp id f s).pending = s.pending := rfl
@[simp] theorem modOp_freeCtr (id : Nat) (f : PortOp → PortOp) : (modOp id f s).freeCtr = s.freeCtr := rfl
@[simp] theorem modOp_nextId (id : Nat) (f : PortOp → PortOp) : (modOp id f s).nextId = s.nextId := rfl
@[simp] theorem modOp_mem (id : Nat) (f : PortOp → PortOp) : (modOp id f s).mem = s.mem := rfl
@[simp] theorem modOp_regs (id : Nat) (f : PortOp → PortOp) : (modOp id f s).regs = s.regs := rfl
@[simp] theorem modOp_w1done (id : Nat) (f : PortOp → PortOp) : (modOp id f s).w1done = s.w1done := rfl
@[simp] theorem modOp_bcnt (id : Nat) (f : PortOp → PortOp) : (modOp id f s).bcnt = s.bcnt := rfl
@[simp] theorem modOp_bcRun (id : Nat) (f : PortOp → PortOp) : (modOp id f s).bcRun = s.bcRun := rfl
@[simp] theorem modOp_rc (id : Nat) (f : PortOp → PortOp) : (modOp id f s).rc = s.rc := rfl
@[simp] theorem modOp_log (id : Nat) (f : PortOp → PortOp) : (modOp id f s).log = s.log := rfl
@[simp] theorem modOp_integ (id : Nat) (f : PortOp → PortOp) : (modOp id f s).integ = s.integ := rfl
@[simp] theorem modOp_ctxs (id : Nat) (f : PortOp → PortOp) : (modOp id f s).ctxs = s.ctxs := rfl
@[simp] theorem modOp_parts (id : Nat) (f : PortOp → PortOp) : (modOp id f s).parts = s.parts := rfl
@[simp] theorem modOp_slices (id : Nat) (f : PortOp → PortOp) : (modOp id f s).slices = s.slices := rfl
@[simp] theorem modOp_queues (id : Nat) (f : PortOp → PortOp) : (modOp id f s).queues = s.queues := rfl
@[simp] theorem modOp_qctl (id : Nat) (f : PortOp → PortOp) : (modOp id f s).qctl = s.qctl := rfl
@[simp] theorem modOp_qfetch (id : Nat) (f : PortOp → PortOp) : (modOp id f s).qfetch = s.qfetch := rfl
@[simp] theorem modOp_qback (id : Nat) (f : PortOp → PortOp) : (modOp id f s).qback = s.qback := rfl
@[simp] theorem modOp_dbPend (id : Nat) (f : PortOp → PortOp) : (modOp id f s).dbPend = s.dbPend := rfl
@[simp] theorem modOp_qEnabled (id : Nat) (f : PortOp → PortOp) : (modOp id f s).qEnabled = s.qEnabled := rfl
@[simp] theorem modOp_dbDrop (id : Nat) (f : PortOp → PortOp) : (modOp id f s).dbDrop = s.dbDrop := rfl
@[simp] theorem modOp_qirq (id : Nat) (f : PortOp → PortOp) : (modOp id f s).qirq = s.qirq := rfl
@[simp] theorem modOp_hwin (id : Nat) (f : PortOp → PortOp) : (modOp id f s).hwin = s.hwin := rfl
@[simp] theorem modOp_cmds (id : Nat) (f : PortOp → PortOp) : (modOp id f s).cmds = s.cmds := rfl
@[simp] theorem modOp_ports (id : Nat) (f : PortOp → PortOp) : (modOp id f s).ports = s.ports := rfl
@[simp] theorem modOp_wb (id : Nat) (f : PortOp → PortOp) : (modOp id f s).wb = s.wb := rfl
@[simp] theorem modOp_beats (id : Nat) (f : PortOp → PortOp) : (modOp id f s).beats = s.beats := rfl
@[simp] theorem modOp_works (id : Nat) (f : PortOp → PortOp) : (modOp id f s).works = s.works := rfl
@[simp] theorem modOp_outerCut (id : Nat) (f : PortOp → PortOp) : (modOp id f s).outerCut = s.outerCut := rfl
@[simp] theorem modOp_outerUsed (id : Nat) (f : PortOp → PortOp) : (modOp id f s).outerUsed = s.outerUsed := rfl
@[simp] theorem modOp_busyBanks (id : Nat) (f : PortOp → PortOp) : (modOp id f s).busyBanks = s.busyBanks := rfl
@[simp] theorem modOp_clears (id : Nat) (f : PortOp → PortOp) : (modOp id f s).clears = s.clears := rfl
@[simp] theorem modOp_contracts (id : Nat) (f : PortOp → PortOp) : (modOp id f s).contracts = s.contracts := rfl
@[simp] theorem modOp_sync (id : Nat) (f : PortOp → PortOp) : (modOp id f s).sync = s.sync := rfl
@[simp] theorem modOp_movers (id : Nat) (f : PortOp → PortOp) : (modOp id f s).movers = s.movers := rfl
@[simp] theorem modOp_outbox (id : Nat) (f : PortOp → PortOp) : (modOp id f s).outbox = s.outbox := rfl
@[simp] theorem modOp_fab (id : Nat) (f : PortOp → PortOp) : (modOp id f s).fab = s.fab := rfl
@[simp] theorem modOp_ctl (id : Nat) (f : PortOp → PortOp) : (modOp id f s).ctl = s.ctl := rfl
@[simp] theorem modOp_power (id : Nat) (f : PortOp → PortOp) : (modOp id f s).power = s.power := rfl
@[simp] theorem modOp_meter (id : Nat) (f : PortOp → PortOp) : (modOp id f s).meter = s.meter := rfl
@[simp] theorem modOp_scrub (id : Nat) (f : PortOp → PortOp) : (modOp id f s).scrub = s.scrub := rfl
@[simp] theorem modOp_test (id : Nat) (f : PortOp → PortOp) : (modOp id f s).test = s.test := rfl
@[simp] theorem modOp_keys (id : Nat) (f : PortOp → PortOp) : (modOp id f s).keys = s.keys := rfl
@[simp] theorem modOp_tdi (id : Nat) (f : PortOp → PortOp) : (modOp id f s).tdi = s.tdi := rfl
@[simp] theorem modOp_ready (id : Nat) (f : PortOp → PortOp) : (modOp id f s).ready = s.ready := rfl
@[simp] theorem modOp_pp1 (id : Nat) (f : PortOp → PortOp) : (modOp id f s).pp1 = s.pp1 := rfl
@[simp] theorem modOp_unconn (id : Nat) (f : PortOp → PortOp) : (modOp id f s).unconn = s.unconn := rfl
@[simp] theorem modOp_cgrp (id : Nat) (f : PortOp → PortOp) : (modOp id f s).cgrp = s.cgrp := rfl
@[simp] theorem modOp_nfab (id : Nat) (f : PortOp → PortOp) : (modOp id f s).nfab = s.nfab := rfl
@[simp] theorem modOp_fstop (id : Nat) (f : PortOp → PortOp) : (modOp id f s).fstop = s.fstop := rfl

/-! `modPort` changes `ports` only. -/
@[simp] theorem modPort_pending (n p : Nat) (f : PortRec → PortRec) : (modPort n p f s).pending = s.pending := rfl
@[simp] theorem modPort_freeCtr (n p : Nat) (f : PortRec → PortRec) : (modPort n p f s).freeCtr = s.freeCtr := rfl
@[simp] theorem modPort_nextId (n p : Nat) (f : PortRec → PortRec) : (modPort n p f s).nextId = s.nextId := rfl
@[simp] theorem modPort_mem (n p : Nat) (f : PortRec → PortRec) : (modPort n p f s).mem = s.mem := rfl
@[simp] theorem modPort_regs (n p : Nat) (f : PortRec → PortRec) : (modPort n p f s).regs = s.regs := rfl
@[simp] theorem modPort_w1done (n p : Nat) (f : PortRec → PortRec) : (modPort n p f s).w1done = s.w1done := rfl
@[simp] theorem modPort_bcnt (n p : Nat) (f : PortRec → PortRec) : (modPort n p f s).bcnt = s.bcnt := rfl
@[simp] theorem modPort_bcRun (n p : Nat) (f : PortRec → PortRec) : (modPort n p f s).bcRun = s.bcRun := rfl
@[simp] theorem modPort_rc (n p : Nat) (f : PortRec → PortRec) : (modPort n p f s).rc = s.rc := rfl
@[simp] theorem modPort_log (n p : Nat) (f : PortRec → PortRec) : (modPort n p f s).log = s.log := rfl
@[simp] theorem modPort_integ (n p : Nat) (f : PortRec → PortRec) : (modPort n p f s).integ = s.integ := rfl
@[simp] theorem modPort_ctxs (n p : Nat) (f : PortRec → PortRec) : (modPort n p f s).ctxs = s.ctxs := rfl
@[simp] theorem modPort_parts (n p : Nat) (f : PortRec → PortRec) : (modPort n p f s).parts = s.parts := rfl
@[simp] theorem modPort_slices (n p : Nat) (f : PortRec → PortRec) : (modPort n p f s).slices = s.slices := rfl
@[simp] theorem modPort_queues (n p : Nat) (f : PortRec → PortRec) : (modPort n p f s).queues = s.queues := rfl
@[simp] theorem modPort_qctl (n p : Nat) (f : PortRec → PortRec) : (modPort n p f s).qctl = s.qctl := rfl
@[simp] theorem modPort_qfetch (n p : Nat) (f : PortRec → PortRec) : (modPort n p f s).qfetch = s.qfetch := rfl
@[simp] theorem modPort_qback (n p : Nat) (f : PortRec → PortRec) : (modPort n p f s).qback = s.qback := rfl
@[simp] theorem modPort_dbPend (n p : Nat) (f : PortRec → PortRec) : (modPort n p f s).dbPend = s.dbPend := rfl
@[simp] theorem modPort_qEnabled (n p : Nat) (f : PortRec → PortRec) : (modPort n p f s).qEnabled = s.qEnabled := rfl
@[simp] theorem modPort_dbDrop (n p : Nat) (f : PortRec → PortRec) : (modPort n p f s).dbDrop = s.dbDrop := rfl
@[simp] theorem modPort_qirq (n p : Nat) (f : PortRec → PortRec) : (modPort n p f s).qirq = s.qirq := rfl
@[simp] theorem modPort_hwin (n p : Nat) (f : PortRec → PortRec) : (modPort n p f s).hwin = s.hwin := rfl
@[simp] theorem modPort_cmds (n p : Nat) (f : PortRec → PortRec) : (modPort n p f s).cmds = s.cmds := rfl
@[simp] theorem modPort_ops (n p : Nat) (f : PortRec → PortRec) : (modPort n p f s).ops = s.ops := rfl
@[simp] theorem modPort_wb (n p : Nat) (f : PortRec → PortRec) : (modPort n p f s).wb = s.wb := rfl
@[simp] theorem modPort_beats (n p : Nat) (f : PortRec → PortRec) : (modPort n p f s).beats = s.beats := rfl
@[simp] theorem modPort_works (n p : Nat) (f : PortRec → PortRec) : (modPort n p f s).works = s.works := rfl
@[simp] theorem modPort_outerCut (n p : Nat) (f : PortRec → PortRec) : (modPort n p f s).outerCut = s.outerCut := rfl
@[simp] theorem modPort_outerUsed (n p : Nat) (f : PortRec → PortRec) : (modPort n p f s).outerUsed = s.outerUsed := rfl
@[simp] theorem modPort_busyBanks (n p : Nat) (f : PortRec → PortRec) : (modPort n p f s).busyBanks = s.busyBanks := rfl
@[simp] theorem modPort_clears (n p : Nat) (f : PortRec → PortRec) : (modPort n p f s).clears = s.clears := rfl
@[simp] theorem modPort_contracts (n p : Nat) (f : PortRec → PortRec) : (modPort n p f s).contracts = s.contracts := rfl
@[simp] theorem modPort_sync (n p : Nat) (f : PortRec → PortRec) : (modPort n p f s).sync = s.sync := rfl
@[simp] theorem modPort_movers (n p : Nat) (f : PortRec → PortRec) : (modPort n p f s).movers = s.movers := rfl
@[simp] theorem modPort_outbox (n p : Nat) (f : PortRec → PortRec) : (modPort n p f s).outbox = s.outbox := rfl
@[simp] theorem modPort_fab (n p : Nat) (f : PortRec → PortRec) : (modPort n p f s).fab = s.fab := rfl
@[simp] theorem modPort_ctl (n p : Nat) (f : PortRec → PortRec) : (modPort n p f s).ctl = s.ctl := rfl
@[simp] theorem modPort_power (n p : Nat) (f : PortRec → PortRec) : (modPort n p f s).power = s.power := rfl
@[simp] theorem modPort_meter (n p : Nat) (f : PortRec → PortRec) : (modPort n p f s).meter = s.meter := rfl
@[simp] theorem modPort_scrub (n p : Nat) (f : PortRec → PortRec) : (modPort n p f s).scrub = s.scrub := rfl
@[simp] theorem modPort_test (n p : Nat) (f : PortRec → PortRec) : (modPort n p f s).test = s.test := rfl
@[simp] theorem modPort_keys (n p : Nat) (f : PortRec → PortRec) : (modPort n p f s).keys = s.keys := rfl
@[simp] theorem modPort_tdi (n p : Nat) (f : PortRec → PortRec) : (modPort n p f s).tdi = s.tdi := rfl
@[simp] theorem modPort_ready (n p : Nat) (f : PortRec → PortRec) : (modPort n p f s).ready = s.ready := rfl
@[simp] theorem modPort_pp1 (n p : Nat) (f : PortRec → PortRec) : (modPort n p f s).pp1 = s.pp1 := rfl
@[simp] theorem modPort_unconn (n p : Nat) (f : PortRec → PortRec) : (modPort n p f s).unconn = s.unconn := rfl
@[simp] theorem modPort_cgrp (n p : Nat) (f : PortRec → PortRec) : (modPort n p f s).cgrp = s.cgrp := rfl
@[simp] theorem modPort_nfab (n p : Nat) (f : PortRec → PortRec) : (modPort n p f s).nfab = s.nfab := rfl
@[simp] theorem modPort_fstop (n p : Nat) (f : PortRec → PortRec) : (modPort n p f s).fstop = s.fstop := rfl

/-! `modPwr` changes `ctl` only. -/
@[simp] theorem modPwr_pending (n : Nat) (f : SlcPwr → SlcPwr) : (modPwr n f s).pending = s.pending := rfl
@[simp] theorem modPwr_freeCtr (n : Nat) (f : SlcPwr → SlcPwr) : (modPwr n f s).freeCtr = s.freeCtr := rfl
@[simp] theorem modPwr_nextId (n : Nat) (f : SlcPwr → SlcPwr) : (modPwr n f s).nextId = s.nextId := rfl
@[simp] theorem modPwr_mem (n : Nat) (f : SlcPwr → SlcPwr) : (modPwr n f s).mem = s.mem := rfl
@[simp] theorem modPwr_regs (n : Nat) (f : SlcPwr → SlcPwr) : (modPwr n f s).regs = s.regs := rfl
@[simp] theorem modPwr_w1done (n : Nat) (f : SlcPwr → SlcPwr) : (modPwr n f s).w1done = s.w1done := rfl
@[simp] theorem modPwr_bcnt (n : Nat) (f : SlcPwr → SlcPwr) : (modPwr n f s).bcnt = s.bcnt := rfl
@[simp] theorem modPwr_bcRun (n : Nat) (f : SlcPwr → SlcPwr) : (modPwr n f s).bcRun = s.bcRun := rfl
@[simp] theorem modPwr_rc (n : Nat) (f : SlcPwr → SlcPwr) : (modPwr n f s).rc = s.rc := rfl
@[simp] theorem modPwr_log (n : Nat) (f : SlcPwr → SlcPwr) : (modPwr n f s).log = s.log := rfl
@[simp] theorem modPwr_integ (n : Nat) (f : SlcPwr → SlcPwr) : (modPwr n f s).integ = s.integ := rfl
@[simp] theorem modPwr_ctxs (n : Nat) (f : SlcPwr → SlcPwr) : (modPwr n f s).ctxs = s.ctxs := rfl
@[simp] theorem modPwr_parts (n : Nat) (f : SlcPwr → SlcPwr) : (modPwr n f s).parts = s.parts := rfl
@[simp] theorem modPwr_slices (n : Nat) (f : SlcPwr → SlcPwr) : (modPwr n f s).slices = s.slices := rfl
@[simp] theorem modPwr_queues (n : Nat) (f : SlcPwr → SlcPwr) : (modPwr n f s).queues = s.queues := rfl
@[simp] theorem modPwr_qctl (n : Nat) (f : SlcPwr → SlcPwr) : (modPwr n f s).qctl = s.qctl := rfl
@[simp] theorem modPwr_qfetch (n : Nat) (f : SlcPwr → SlcPwr) : (modPwr n f s).qfetch = s.qfetch := rfl
@[simp] theorem modPwr_qback (n : Nat) (f : SlcPwr → SlcPwr) : (modPwr n f s).qback = s.qback := rfl
@[simp] theorem modPwr_dbPend (n : Nat) (f : SlcPwr → SlcPwr) : (modPwr n f s).dbPend = s.dbPend := rfl
@[simp] theorem modPwr_qEnabled (n : Nat) (f : SlcPwr → SlcPwr) : (modPwr n f s).qEnabled = s.qEnabled := rfl
@[simp] theorem modPwr_dbDrop (n : Nat) (f : SlcPwr → SlcPwr) : (modPwr n f s).dbDrop = s.dbDrop := rfl
@[simp] theorem modPwr_qirq (n : Nat) (f : SlcPwr → SlcPwr) : (modPwr n f s).qirq = s.qirq := rfl
@[simp] theorem modPwr_hwin (n : Nat) (f : SlcPwr → SlcPwr) : (modPwr n f s).hwin = s.hwin := rfl
@[simp] theorem modPwr_cmds (n : Nat) (f : SlcPwr → SlcPwr) : (modPwr n f s).cmds = s.cmds := rfl
@[simp] theorem modPwr_ports (n : Nat) (f : SlcPwr → SlcPwr) : (modPwr n f s).ports = s.ports := rfl
@[simp] theorem modPwr_ops (n : Nat) (f : SlcPwr → SlcPwr) : (modPwr n f s).ops = s.ops := rfl
@[simp] theorem modPwr_wb (n : Nat) (f : SlcPwr → SlcPwr) : (modPwr n f s).wb = s.wb := rfl
@[simp] theorem modPwr_beats (n : Nat) (f : SlcPwr → SlcPwr) : (modPwr n f s).beats = s.beats := rfl
@[simp] theorem modPwr_works (n : Nat) (f : SlcPwr → SlcPwr) : (modPwr n f s).works = s.works := rfl
@[simp] theorem modPwr_outerCut (n : Nat) (f : SlcPwr → SlcPwr) : (modPwr n f s).outerCut = s.outerCut := rfl
@[simp] theorem modPwr_outerUsed (n : Nat) (f : SlcPwr → SlcPwr) : (modPwr n f s).outerUsed = s.outerUsed := rfl
@[simp] theorem modPwr_busyBanks (n : Nat) (f : SlcPwr → SlcPwr) : (modPwr n f s).busyBanks = s.busyBanks := rfl
@[simp] theorem modPwr_clears (n : Nat) (f : SlcPwr → SlcPwr) : (modPwr n f s).clears = s.clears := rfl
@[simp] theorem modPwr_contracts (n : Nat) (f : SlcPwr → SlcPwr) : (modPwr n f s).contracts = s.contracts := rfl
@[simp] theorem modPwr_sync (n : Nat) (f : SlcPwr → SlcPwr) : (modPwr n f s).sync = s.sync := rfl
@[simp] theorem modPwr_movers (n : Nat) (f : SlcPwr → SlcPwr) : (modPwr n f s).movers = s.movers := rfl
@[simp] theorem modPwr_outbox (n : Nat) (f : SlcPwr → SlcPwr) : (modPwr n f s).outbox = s.outbox := rfl
@[simp] theorem modPwr_fab (n : Nat) (f : SlcPwr → SlcPwr) : (modPwr n f s).fab = s.fab := rfl
@[simp] theorem modPwr_power (n : Nat) (f : SlcPwr → SlcPwr) : (modPwr n f s).power = s.power := rfl
@[simp] theorem modPwr_meter (n : Nat) (f : SlcPwr → SlcPwr) : (modPwr n f s).meter = s.meter := rfl
@[simp] theorem modPwr_scrub (n : Nat) (f : SlcPwr → SlcPwr) : (modPwr n f s).scrub = s.scrub := rfl
@[simp] theorem modPwr_test (n : Nat) (f : SlcPwr → SlcPwr) : (modPwr n f s).test = s.test := rfl
@[simp] theorem modPwr_keys (n : Nat) (f : SlcPwr → SlcPwr) : (modPwr n f s).keys = s.keys := rfl
@[simp] theorem modPwr_tdi (n : Nat) (f : SlcPwr → SlcPwr) : (modPwr n f s).tdi = s.tdi := rfl
@[simp] theorem modPwr_ready (n : Nat) (f : SlcPwr → SlcPwr) : (modPwr n f s).ready = s.ready := rfl
@[simp] theorem modPwr_pp1 (n : Nat) (f : SlcPwr → SlcPwr) : (modPwr n f s).pp1 = s.pp1 := rfl
@[simp] theorem modPwr_unconn (n : Nat) (f : SlcPwr → SlcPwr) : (modPwr n f s).unconn = s.unconn := rfl
@[simp] theorem modPwr_cgrp (n : Nat) (f : SlcPwr → SlcPwr) : (modPwr n f s).cgrp = s.cgrp := rfl
@[simp] theorem modPwr_nfab (n : Nat) (f : SlcPwr → SlcPwr) : (modPwr n f s).nfab = s.nfab := rfl
@[simp] theorem modPwr_fstop (n : Nat) (f : SlcPwr → SlcPwr) : (modPwr n f s).fstop = s.fstop := rfl

/-! `modCtl` changes `ctl` only. -/
@[simp] theorem modCtl_pending (f : CtlState → CtlState) : (modCtl f s).pending = s.pending := rfl
@[simp] theorem modCtl_freeCtr (f : CtlState → CtlState) : (modCtl f s).freeCtr = s.freeCtr := rfl
@[simp] theorem modCtl_nextId (f : CtlState → CtlState) : (modCtl f s).nextId = s.nextId := rfl
@[simp] theorem modCtl_mem (f : CtlState → CtlState) : (modCtl f s).mem = s.mem := rfl
@[simp] theorem modCtl_regs (f : CtlState → CtlState) : (modCtl f s).regs = s.regs := rfl
@[simp] theorem modCtl_w1done (f : CtlState → CtlState) : (modCtl f s).w1done = s.w1done := rfl
@[simp] theorem modCtl_bcnt (f : CtlState → CtlState) : (modCtl f s).bcnt = s.bcnt := rfl
@[simp] theorem modCtl_bcRun (f : CtlState → CtlState) : (modCtl f s).bcRun = s.bcRun := rfl
@[simp] theorem modCtl_rc (f : CtlState → CtlState) : (modCtl f s).rc = s.rc := rfl
@[simp] theorem modCtl_log (f : CtlState → CtlState) : (modCtl f s).log = s.log := rfl
@[simp] theorem modCtl_integ (f : CtlState → CtlState) : (modCtl f s).integ = s.integ := rfl
@[simp] theorem modCtl_ctxs (f : CtlState → CtlState) : (modCtl f s).ctxs = s.ctxs := rfl
@[simp] theorem modCtl_parts (f : CtlState → CtlState) : (modCtl f s).parts = s.parts := rfl
@[simp] theorem modCtl_slices (f : CtlState → CtlState) : (modCtl f s).slices = s.slices := rfl
@[simp] theorem modCtl_queues (f : CtlState → CtlState) : (modCtl f s).queues = s.queues := rfl
@[simp] theorem modCtl_qctl (f : CtlState → CtlState) : (modCtl f s).qctl = s.qctl := rfl
@[simp] theorem modCtl_qfetch (f : CtlState → CtlState) : (modCtl f s).qfetch = s.qfetch := rfl
@[simp] theorem modCtl_qback (f : CtlState → CtlState) : (modCtl f s).qback = s.qback := rfl
@[simp] theorem modCtl_dbPend (f : CtlState → CtlState) : (modCtl f s).dbPend = s.dbPend := rfl
@[simp] theorem modCtl_qEnabled (f : CtlState → CtlState) : (modCtl f s).qEnabled = s.qEnabled := rfl
@[simp] theorem modCtl_dbDrop (f : CtlState → CtlState) : (modCtl f s).dbDrop = s.dbDrop := rfl
@[simp] theorem modCtl_qirq (f : CtlState → CtlState) : (modCtl f s).qirq = s.qirq := rfl
@[simp] theorem modCtl_hwin (f : CtlState → CtlState) : (modCtl f s).hwin = s.hwin := rfl
@[simp] theorem modCtl_cmds (f : CtlState → CtlState) : (modCtl f s).cmds = s.cmds := rfl
@[simp] theorem modCtl_ports (f : CtlState → CtlState) : (modCtl f s).ports = s.ports := rfl
@[simp] theorem modCtl_ops (f : CtlState → CtlState) : (modCtl f s).ops = s.ops := rfl
@[simp] theorem modCtl_wb (f : CtlState → CtlState) : (modCtl f s).wb = s.wb := rfl
@[simp] theorem modCtl_beats (f : CtlState → CtlState) : (modCtl f s).beats = s.beats := rfl
@[simp] theorem modCtl_works (f : CtlState → CtlState) : (modCtl f s).works = s.works := rfl
@[simp] theorem modCtl_outerCut (f : CtlState → CtlState) : (modCtl f s).outerCut = s.outerCut := rfl
@[simp] theorem modCtl_outerUsed (f : CtlState → CtlState) : (modCtl f s).outerUsed = s.outerUsed := rfl
@[simp] theorem modCtl_busyBanks (f : CtlState → CtlState) : (modCtl f s).busyBanks = s.busyBanks := rfl
@[simp] theorem modCtl_clears (f : CtlState → CtlState) : (modCtl f s).clears = s.clears := rfl
@[simp] theorem modCtl_contracts (f : CtlState → CtlState) : (modCtl f s).contracts = s.contracts := rfl
@[simp] theorem modCtl_sync (f : CtlState → CtlState) : (modCtl f s).sync = s.sync := rfl
@[simp] theorem modCtl_movers (f : CtlState → CtlState) : (modCtl f s).movers = s.movers := rfl
@[simp] theorem modCtl_outbox (f : CtlState → CtlState) : (modCtl f s).outbox = s.outbox := rfl
@[simp] theorem modCtl_fab (f : CtlState → CtlState) : (modCtl f s).fab = s.fab := rfl
@[simp] theorem modCtl_power (f : CtlState → CtlState) : (modCtl f s).power = s.power := rfl
@[simp] theorem modCtl_meter (f : CtlState → CtlState) : (modCtl f s).meter = s.meter := rfl
@[simp] theorem modCtl_scrub (f : CtlState → CtlState) : (modCtl f s).scrub = s.scrub := rfl
@[simp] theorem modCtl_test (f : CtlState → CtlState) : (modCtl f s).test = s.test := rfl
@[simp] theorem modCtl_keys (f : CtlState → CtlState) : (modCtl f s).keys = s.keys := rfl
@[simp] theorem modCtl_tdi (f : CtlState → CtlState) : (modCtl f s).tdi = s.tdi := rfl
@[simp] theorem modCtl_ready (f : CtlState → CtlState) : (modCtl f s).ready = s.ready := rfl
@[simp] theorem modCtl_pp1 (f : CtlState → CtlState) : (modCtl f s).pp1 = s.pp1 := rfl
@[simp] theorem modCtl_unconn (f : CtlState → CtlState) : (modCtl f s).unconn = s.unconn := rfl
@[simp] theorem modCtl_cgrp (f : CtlState → CtlState) : (modCtl f s).cgrp = s.cgrp := rfl
@[simp] theorem modCtl_nfab (f : CtlState → CtlState) : (modCtl f s).nfab = s.nfab := rfl
@[simp] theorem modCtl_fstop (f : CtlState → CtlState) : (modCtl f s).fstop = s.fstop := rfl

/-! `modQctl` changes `qctl` only. -/
@[simp] theorem modQctl_pending (n : Nat) (f : QctlRec → QctlRec) : (modQctl n f s).pending = s.pending := rfl
@[simp] theorem modQctl_freeCtr (n : Nat) (f : QctlRec → QctlRec) : (modQctl n f s).freeCtr = s.freeCtr := rfl
@[simp] theorem modQctl_nextId (n : Nat) (f : QctlRec → QctlRec) : (modQctl n f s).nextId = s.nextId := rfl
@[simp] theorem modQctl_mem (n : Nat) (f : QctlRec → QctlRec) : (modQctl n f s).mem = s.mem := rfl
@[simp] theorem modQctl_regs (n : Nat) (f : QctlRec → QctlRec) : (modQctl n f s).regs = s.regs := rfl
@[simp] theorem modQctl_w1done (n : Nat) (f : QctlRec → QctlRec) : (modQctl n f s).w1done = s.w1done := rfl
@[simp] theorem modQctl_bcnt (n : Nat) (f : QctlRec → QctlRec) : (modQctl n f s).bcnt = s.bcnt := rfl
@[simp] theorem modQctl_bcRun (n : Nat) (f : QctlRec → QctlRec) : (modQctl n f s).bcRun = s.bcRun := rfl
@[simp] theorem modQctl_rc (n : Nat) (f : QctlRec → QctlRec) : (modQctl n f s).rc = s.rc := rfl
@[simp] theorem modQctl_log (n : Nat) (f : QctlRec → QctlRec) : (modQctl n f s).log = s.log := rfl
@[simp] theorem modQctl_integ (n : Nat) (f : QctlRec → QctlRec) : (modQctl n f s).integ = s.integ := rfl
@[simp] theorem modQctl_ctxs (n : Nat) (f : QctlRec → QctlRec) : (modQctl n f s).ctxs = s.ctxs := rfl
@[simp] theorem modQctl_parts (n : Nat) (f : QctlRec → QctlRec) : (modQctl n f s).parts = s.parts := rfl
@[simp] theorem modQctl_slices (n : Nat) (f : QctlRec → QctlRec) : (modQctl n f s).slices = s.slices := rfl
@[simp] theorem modQctl_queues (n : Nat) (f : QctlRec → QctlRec) : (modQctl n f s).queues = s.queues := rfl
@[simp] theorem modQctl_qfetch (n : Nat) (f : QctlRec → QctlRec) : (modQctl n f s).qfetch = s.qfetch := rfl
@[simp] theorem modQctl_qback (n : Nat) (f : QctlRec → QctlRec) : (modQctl n f s).qback = s.qback := rfl
@[simp] theorem modQctl_dbPend (n : Nat) (f : QctlRec → QctlRec) : (modQctl n f s).dbPend = s.dbPend := rfl
@[simp] theorem modQctl_qEnabled (n : Nat) (f : QctlRec → QctlRec) : (modQctl n f s).qEnabled = s.qEnabled := rfl
@[simp] theorem modQctl_dbDrop (n : Nat) (f : QctlRec → QctlRec) : (modQctl n f s).dbDrop = s.dbDrop := rfl
@[simp] theorem modQctl_qirq (n : Nat) (f : QctlRec → QctlRec) : (modQctl n f s).qirq = s.qirq := rfl
@[simp] theorem modQctl_hwin (n : Nat) (f : QctlRec → QctlRec) : (modQctl n f s).hwin = s.hwin := rfl
@[simp] theorem modQctl_cmds (n : Nat) (f : QctlRec → QctlRec) : (modQctl n f s).cmds = s.cmds := rfl
@[simp] theorem modQctl_ports (n : Nat) (f : QctlRec → QctlRec) : (modQctl n f s).ports = s.ports := rfl
@[simp] theorem modQctl_ops (n : Nat) (f : QctlRec → QctlRec) : (modQctl n f s).ops = s.ops := rfl
@[simp] theorem modQctl_wb (n : Nat) (f : QctlRec → QctlRec) : (modQctl n f s).wb = s.wb := rfl
@[simp] theorem modQctl_beats (n : Nat) (f : QctlRec → QctlRec) : (modQctl n f s).beats = s.beats := rfl
@[simp] theorem modQctl_works (n : Nat) (f : QctlRec → QctlRec) : (modQctl n f s).works = s.works := rfl
@[simp] theorem modQctl_outerCut (n : Nat) (f : QctlRec → QctlRec) : (modQctl n f s).outerCut = s.outerCut := rfl
@[simp] theorem modQctl_outerUsed (n : Nat) (f : QctlRec → QctlRec) : (modQctl n f s).outerUsed = s.outerUsed := rfl
@[simp] theorem modQctl_busyBanks (n : Nat) (f : QctlRec → QctlRec) : (modQctl n f s).busyBanks = s.busyBanks := rfl
@[simp] theorem modQctl_clears (n : Nat) (f : QctlRec → QctlRec) : (modQctl n f s).clears = s.clears := rfl
@[simp] theorem modQctl_contracts (n : Nat) (f : QctlRec → QctlRec) : (modQctl n f s).contracts = s.contracts := rfl
@[simp] theorem modQctl_sync (n : Nat) (f : QctlRec → QctlRec) : (modQctl n f s).sync = s.sync := rfl
@[simp] theorem modQctl_movers (n : Nat) (f : QctlRec → QctlRec) : (modQctl n f s).movers = s.movers := rfl
@[simp] theorem modQctl_outbox (n : Nat) (f : QctlRec → QctlRec) : (modQctl n f s).outbox = s.outbox := rfl
@[simp] theorem modQctl_fab (n : Nat) (f : QctlRec → QctlRec) : (modQctl n f s).fab = s.fab := rfl
@[simp] theorem modQctl_ctl (n : Nat) (f : QctlRec → QctlRec) : (modQctl n f s).ctl = s.ctl := rfl
@[simp] theorem modQctl_power (n : Nat) (f : QctlRec → QctlRec) : (modQctl n f s).power = s.power := rfl
@[simp] theorem modQctl_meter (n : Nat) (f : QctlRec → QctlRec) : (modQctl n f s).meter = s.meter := rfl
@[simp] theorem modQctl_scrub (n : Nat) (f : QctlRec → QctlRec) : (modQctl n f s).scrub = s.scrub := rfl
@[simp] theorem modQctl_test (n : Nat) (f : QctlRec → QctlRec) : (modQctl n f s).test = s.test := rfl
@[simp] theorem modQctl_keys (n : Nat) (f : QctlRec → QctlRec) : (modQctl n f s).keys = s.keys := rfl
@[simp] theorem modQctl_tdi (n : Nat) (f : QctlRec → QctlRec) : (modQctl n f s).tdi = s.tdi := rfl
@[simp] theorem modQctl_ready (n : Nat) (f : QctlRec → QctlRec) : (modQctl n f s).ready = s.ready := rfl
@[simp] theorem modQctl_pp1 (n : Nat) (f : QctlRec → QctlRec) : (modQctl n f s).pp1 = s.pp1 := rfl
@[simp] theorem modQctl_unconn (n : Nat) (f : QctlRec → QctlRec) : (modQctl n f s).unconn = s.unconn := rfl
@[simp] theorem modQctl_cgrp (n : Nat) (f : QctlRec → QctlRec) : (modQctl n f s).cgrp = s.cgrp := rfl
@[simp] theorem modQctl_nfab (n : Nat) (f : QctlRec → QctlRec) : (modQctl n f s).nfab = s.nfab := rfl
@[simp] theorem modQctl_fstop (n : Nat) (f : QctlRec → QctlRec) : (modQctl n f s).fstop = s.fstop := rfl

/-! `setEnabled` changes `qEnabled` only. -/
@[simp] theorem setEnabled_pending (q : Nat) (b : Bool) : (setEnabled q b s).pending = s.pending := rfl
@[simp] theorem setEnabled_freeCtr (q : Nat) (b : Bool) : (setEnabled q b s).freeCtr = s.freeCtr := rfl
@[simp] theorem setEnabled_nextId (q : Nat) (b : Bool) : (setEnabled q b s).nextId = s.nextId := rfl
@[simp] theorem setEnabled_mem (q : Nat) (b : Bool) : (setEnabled q b s).mem = s.mem := rfl
@[simp] theorem setEnabled_regs (q : Nat) (b : Bool) : (setEnabled q b s).regs = s.regs := rfl
@[simp] theorem setEnabled_w1done (q : Nat) (b : Bool) : (setEnabled q b s).w1done = s.w1done := rfl
@[simp] theorem setEnabled_bcnt (q : Nat) (b : Bool) : (setEnabled q b s).bcnt = s.bcnt := rfl
@[simp] theorem setEnabled_bcRun (q : Nat) (b : Bool) : (setEnabled q b s).bcRun = s.bcRun := rfl
@[simp] theorem setEnabled_rc (q : Nat) (b : Bool) : (setEnabled q b s).rc = s.rc := rfl
@[simp] theorem setEnabled_log (q : Nat) (b : Bool) : (setEnabled q b s).log = s.log := rfl
@[simp] theorem setEnabled_integ (q : Nat) (b : Bool) : (setEnabled q b s).integ = s.integ := rfl
@[simp] theorem setEnabled_ctxs (q : Nat) (b : Bool) : (setEnabled q b s).ctxs = s.ctxs := rfl
@[simp] theorem setEnabled_parts (q : Nat) (b : Bool) : (setEnabled q b s).parts = s.parts := rfl
@[simp] theorem setEnabled_slices (q : Nat) (b : Bool) : (setEnabled q b s).slices = s.slices := rfl
@[simp] theorem setEnabled_queues (q : Nat) (b : Bool) : (setEnabled q b s).queues = s.queues := rfl
@[simp] theorem setEnabled_qctl (q : Nat) (b : Bool) : (setEnabled q b s).qctl = s.qctl := rfl
@[simp] theorem setEnabled_qfetch (q : Nat) (b : Bool) : (setEnabled q b s).qfetch = s.qfetch := rfl
@[simp] theorem setEnabled_qback (q : Nat) (b : Bool) : (setEnabled q b s).qback = s.qback := rfl
@[simp] theorem setEnabled_dbPend (q : Nat) (b : Bool) : (setEnabled q b s).dbPend = s.dbPend := rfl
@[simp] theorem setEnabled_dbDrop (q : Nat) (b : Bool) : (setEnabled q b s).dbDrop = s.dbDrop := rfl
@[simp] theorem setEnabled_qirq (q : Nat) (b : Bool) : (setEnabled q b s).qirq = s.qirq := rfl
@[simp] theorem setEnabled_hwin (q : Nat) (b : Bool) : (setEnabled q b s).hwin = s.hwin := rfl
@[simp] theorem setEnabled_cmds (q : Nat) (b : Bool) : (setEnabled q b s).cmds = s.cmds := rfl
@[simp] theorem setEnabled_ports (q : Nat) (b : Bool) : (setEnabled q b s).ports = s.ports := rfl
@[simp] theorem setEnabled_ops (q : Nat) (b : Bool) : (setEnabled q b s).ops = s.ops := rfl
@[simp] theorem setEnabled_wb (q : Nat) (b : Bool) : (setEnabled q b s).wb = s.wb := rfl
@[simp] theorem setEnabled_beats (q : Nat) (b : Bool) : (setEnabled q b s).beats = s.beats := rfl
@[simp] theorem setEnabled_works (q : Nat) (b : Bool) : (setEnabled q b s).works = s.works := rfl
@[simp] theorem setEnabled_outerCut (q : Nat) (b : Bool) : (setEnabled q b s).outerCut = s.outerCut := rfl
@[simp] theorem setEnabled_outerUsed (q : Nat) (b : Bool) : (setEnabled q b s).outerUsed = s.outerUsed := rfl
@[simp] theorem setEnabled_busyBanks (q : Nat) (b : Bool) : (setEnabled q b s).busyBanks = s.busyBanks := rfl
@[simp] theorem setEnabled_clears (q : Nat) (b : Bool) : (setEnabled q b s).clears = s.clears := rfl
@[simp] theorem setEnabled_contracts (q : Nat) (b : Bool) : (setEnabled q b s).contracts = s.contracts := rfl
@[simp] theorem setEnabled_sync (q : Nat) (b : Bool) : (setEnabled q b s).sync = s.sync := rfl
@[simp] theorem setEnabled_movers (q : Nat) (b : Bool) : (setEnabled q b s).movers = s.movers := rfl
@[simp] theorem setEnabled_outbox (q : Nat) (b : Bool) : (setEnabled q b s).outbox = s.outbox := rfl
@[simp] theorem setEnabled_fab (q : Nat) (b : Bool) : (setEnabled q b s).fab = s.fab := rfl
@[simp] theorem setEnabled_ctl (q : Nat) (b : Bool) : (setEnabled q b s).ctl = s.ctl := rfl
@[simp] theorem setEnabled_power (q : Nat) (b : Bool) : (setEnabled q b s).power = s.power := rfl
@[simp] theorem setEnabled_meter (q : Nat) (b : Bool) : (setEnabled q b s).meter = s.meter := rfl
@[simp] theorem setEnabled_scrub (q : Nat) (b : Bool) : (setEnabled q b s).scrub = s.scrub := rfl
@[simp] theorem setEnabled_test (q : Nat) (b : Bool) : (setEnabled q b s).test = s.test := rfl
@[simp] theorem setEnabled_keys (q : Nat) (b : Bool) : (setEnabled q b s).keys = s.keys := rfl
@[simp] theorem setEnabled_tdi (q : Nat) (b : Bool) : (setEnabled q b s).tdi = s.tdi := rfl
@[simp] theorem setEnabled_ready (q : Nat) (b : Bool) : (setEnabled q b s).ready = s.ready := rfl
@[simp] theorem setEnabled_pp1 (q : Nat) (b : Bool) : (setEnabled q b s).pp1 = s.pp1 := rfl
@[simp] theorem setEnabled_unconn (q : Nat) (b : Bool) : (setEnabled q b s).unconn = s.unconn := rfl
@[simp] theorem setEnabled_cgrp (q : Nat) (b : Bool) : (setEnabled q b s).cgrp = s.cgrp := rfl
@[simp] theorem setEnabled_nfab (q : Nat) (b : Bool) : (setEnabled q b s).nfab = s.nfab := rfl
@[simp] theorem setEnabled_fstop (q : Nat) (b : Bool) : (setEnabled q b s).fstop = s.fstop := rfl

/-! `setDb` changes `dbPend` only. -/
@[simp] theorem setDb_pending (q : Nat) (b : Bool) : (setDb q b s).pending = s.pending := rfl
@[simp] theorem setDb_freeCtr (q : Nat) (b : Bool) : (setDb q b s).freeCtr = s.freeCtr := rfl
@[simp] theorem setDb_nextId (q : Nat) (b : Bool) : (setDb q b s).nextId = s.nextId := rfl
@[simp] theorem setDb_mem (q : Nat) (b : Bool) : (setDb q b s).mem = s.mem := rfl
@[simp] theorem setDb_regs (q : Nat) (b : Bool) : (setDb q b s).regs = s.regs := rfl
@[simp] theorem setDb_w1done (q : Nat) (b : Bool) : (setDb q b s).w1done = s.w1done := rfl
@[simp] theorem setDb_bcnt (q : Nat) (b : Bool) : (setDb q b s).bcnt = s.bcnt := rfl
@[simp] theorem setDb_bcRun (q : Nat) (b : Bool) : (setDb q b s).bcRun = s.bcRun := rfl
@[simp] theorem setDb_rc (q : Nat) (b : Bool) : (setDb q b s).rc = s.rc := rfl
@[simp] theorem setDb_log (q : Nat) (b : Bool) : (setDb q b s).log = s.log := rfl
@[simp] theorem setDb_integ (q : Nat) (b : Bool) : (setDb q b s).integ = s.integ := rfl
@[simp] theorem setDb_ctxs (q : Nat) (b : Bool) : (setDb q b s).ctxs = s.ctxs := rfl
@[simp] theorem setDb_parts (q : Nat) (b : Bool) : (setDb q b s).parts = s.parts := rfl
@[simp] theorem setDb_slices (q : Nat) (b : Bool) : (setDb q b s).slices = s.slices := rfl
@[simp] theorem setDb_queues (q : Nat) (b : Bool) : (setDb q b s).queues = s.queues := rfl
@[simp] theorem setDb_qctl (q : Nat) (b : Bool) : (setDb q b s).qctl = s.qctl := rfl
@[simp] theorem setDb_qfetch (q : Nat) (b : Bool) : (setDb q b s).qfetch = s.qfetch := rfl
@[simp] theorem setDb_qback (q : Nat) (b : Bool) : (setDb q b s).qback = s.qback := rfl
@[simp] theorem setDb_qEnabled (q : Nat) (b : Bool) : (setDb q b s).qEnabled = s.qEnabled := rfl
@[simp] theorem setDb_dbDrop (q : Nat) (b : Bool) : (setDb q b s).dbDrop = s.dbDrop := rfl
@[simp] theorem setDb_qirq (q : Nat) (b : Bool) : (setDb q b s).qirq = s.qirq := rfl
@[simp] theorem setDb_hwin (q : Nat) (b : Bool) : (setDb q b s).hwin = s.hwin := rfl
@[simp] theorem setDb_cmds (q : Nat) (b : Bool) : (setDb q b s).cmds = s.cmds := rfl
@[simp] theorem setDb_ports (q : Nat) (b : Bool) : (setDb q b s).ports = s.ports := rfl
@[simp] theorem setDb_ops (q : Nat) (b : Bool) : (setDb q b s).ops = s.ops := rfl
@[simp] theorem setDb_wb (q : Nat) (b : Bool) : (setDb q b s).wb = s.wb := rfl
@[simp] theorem setDb_beats (q : Nat) (b : Bool) : (setDb q b s).beats = s.beats := rfl
@[simp] theorem setDb_works (q : Nat) (b : Bool) : (setDb q b s).works = s.works := rfl
@[simp] theorem setDb_outerCut (q : Nat) (b : Bool) : (setDb q b s).outerCut = s.outerCut := rfl
@[simp] theorem setDb_outerUsed (q : Nat) (b : Bool) : (setDb q b s).outerUsed = s.outerUsed := rfl
@[simp] theorem setDb_busyBanks (q : Nat) (b : Bool) : (setDb q b s).busyBanks = s.busyBanks := rfl
@[simp] theorem setDb_clears (q : Nat) (b : Bool) : (setDb q b s).clears = s.clears := rfl
@[simp] theorem setDb_contracts (q : Nat) (b : Bool) : (setDb q b s).contracts = s.contracts := rfl
@[simp] theorem setDb_sync (q : Nat) (b : Bool) : (setDb q b s).sync = s.sync := rfl
@[simp] theorem setDb_movers (q : Nat) (b : Bool) : (setDb q b s).movers = s.movers := rfl
@[simp] theorem setDb_outbox (q : Nat) (b : Bool) : (setDb q b s).outbox = s.outbox := rfl
@[simp] theorem setDb_fab (q : Nat) (b : Bool) : (setDb q b s).fab = s.fab := rfl
@[simp] theorem setDb_ctl (q : Nat) (b : Bool) : (setDb q b s).ctl = s.ctl := rfl
@[simp] theorem setDb_power (q : Nat) (b : Bool) : (setDb q b s).power = s.power := rfl
@[simp] theorem setDb_meter (q : Nat) (b : Bool) : (setDb q b s).meter = s.meter := rfl
@[simp] theorem setDb_scrub (q : Nat) (b : Bool) : (setDb q b s).scrub = s.scrub := rfl
@[simp] theorem setDb_test (q : Nat) (b : Bool) : (setDb q b s).test = s.test := rfl
@[simp] theorem setDb_keys (q : Nat) (b : Bool) : (setDb q b s).keys = s.keys := rfl
@[simp] theorem setDb_tdi (q : Nat) (b : Bool) : (setDb q b s).tdi = s.tdi := rfl
@[simp] theorem setDb_ready (q : Nat) (b : Bool) : (setDb q b s).ready = s.ready := rfl
@[simp] theorem setDb_pp1 (q : Nat) (b : Bool) : (setDb q b s).pp1 = s.pp1 := rfl
@[simp] theorem setDb_unconn (q : Nat) (b : Bool) : (setDb q b s).unconn = s.unconn := rfl
@[simp] theorem setDb_cgrp (q : Nat) (b : Bool) : (setDb q b s).cgrp = s.cgrp := rfl
@[simp] theorem setDb_nfab (q : Nat) (b : Bool) : (setDb q b s).nfab = s.nfab := rfl
@[simp] theorem setDb_fstop (q : Nat) (b : Bool) : (setDb q b s).fstop = s.fstop := rfl

/-! `dropQueue` changes `queues` only. -/
@[simp] theorem dropQueue_pending (q : Nat) : (dropQueue q s).pending = s.pending := rfl
@[simp] theorem dropQueue_freeCtr (q : Nat) : (dropQueue q s).freeCtr = s.freeCtr := rfl
@[simp] theorem dropQueue_nextId (q : Nat) : (dropQueue q s).nextId = s.nextId := rfl
@[simp] theorem dropQueue_mem (q : Nat) : (dropQueue q s).mem = s.mem := rfl
@[simp] theorem dropQueue_regs (q : Nat) : (dropQueue q s).regs = s.regs := rfl
@[simp] theorem dropQueue_w1done (q : Nat) : (dropQueue q s).w1done = s.w1done := rfl
@[simp] theorem dropQueue_bcnt (q : Nat) : (dropQueue q s).bcnt = s.bcnt := rfl
@[simp] theorem dropQueue_bcRun (q : Nat) : (dropQueue q s).bcRun = s.bcRun := rfl
@[simp] theorem dropQueue_rc (q : Nat) : (dropQueue q s).rc = s.rc := rfl
@[simp] theorem dropQueue_log (q : Nat) : (dropQueue q s).log = s.log := rfl
@[simp] theorem dropQueue_integ (q : Nat) : (dropQueue q s).integ = s.integ := rfl
@[simp] theorem dropQueue_ctxs (q : Nat) : (dropQueue q s).ctxs = s.ctxs := rfl
@[simp] theorem dropQueue_parts (q : Nat) : (dropQueue q s).parts = s.parts := rfl
@[simp] theorem dropQueue_slices (q : Nat) : (dropQueue q s).slices = s.slices := rfl
@[simp] theorem dropQueue_qctl (q : Nat) : (dropQueue q s).qctl = s.qctl := rfl
@[simp] theorem dropQueue_qfetch (q : Nat) : (dropQueue q s).qfetch = s.qfetch := rfl
@[simp] theorem dropQueue_qback (q : Nat) : (dropQueue q s).qback = s.qback := rfl
@[simp] theorem dropQueue_dbPend (q : Nat) : (dropQueue q s).dbPend = s.dbPend := rfl
@[simp] theorem dropQueue_qEnabled (q : Nat) : (dropQueue q s).qEnabled = s.qEnabled := rfl
@[simp] theorem dropQueue_dbDrop (q : Nat) : (dropQueue q s).dbDrop = s.dbDrop := rfl
@[simp] theorem dropQueue_qirq (q : Nat) : (dropQueue q s).qirq = s.qirq := rfl
@[simp] theorem dropQueue_hwin (q : Nat) : (dropQueue q s).hwin = s.hwin := rfl
@[simp] theorem dropQueue_cmds (q : Nat) : (dropQueue q s).cmds = s.cmds := rfl
@[simp] theorem dropQueue_ports (q : Nat) : (dropQueue q s).ports = s.ports := rfl
@[simp] theorem dropQueue_ops (q : Nat) : (dropQueue q s).ops = s.ops := rfl
@[simp] theorem dropQueue_wb (q : Nat) : (dropQueue q s).wb = s.wb := rfl
@[simp] theorem dropQueue_beats (q : Nat) : (dropQueue q s).beats = s.beats := rfl
@[simp] theorem dropQueue_works (q : Nat) : (dropQueue q s).works = s.works := rfl
@[simp] theorem dropQueue_outerCut (q : Nat) : (dropQueue q s).outerCut = s.outerCut := rfl
@[simp] theorem dropQueue_outerUsed (q : Nat) : (dropQueue q s).outerUsed = s.outerUsed := rfl
@[simp] theorem dropQueue_busyBanks (q : Nat) : (dropQueue q s).busyBanks = s.busyBanks := rfl
@[simp] theorem dropQueue_clears (q : Nat) : (dropQueue q s).clears = s.clears := rfl
@[simp] theorem dropQueue_contracts (q : Nat) : (dropQueue q s).contracts = s.contracts := rfl
@[simp] theorem dropQueue_sync (q : Nat) : (dropQueue q s).sync = s.sync := rfl
@[simp] theorem dropQueue_movers (q : Nat) : (dropQueue q s).movers = s.movers := rfl
@[simp] theorem dropQueue_outbox (q : Nat) : (dropQueue q s).outbox = s.outbox := rfl
@[simp] theorem dropQueue_fab (q : Nat) : (dropQueue q s).fab = s.fab := rfl
@[simp] theorem dropQueue_ctl (q : Nat) : (dropQueue q s).ctl = s.ctl := rfl
@[simp] theorem dropQueue_power (q : Nat) : (dropQueue q s).power = s.power := rfl
@[simp] theorem dropQueue_meter (q : Nat) : (dropQueue q s).meter = s.meter := rfl
@[simp] theorem dropQueue_scrub (q : Nat) : (dropQueue q s).scrub = s.scrub := rfl
@[simp] theorem dropQueue_test (q : Nat) : (dropQueue q s).test = s.test := rfl
@[simp] theorem dropQueue_keys (q : Nat) : (dropQueue q s).keys = s.keys := rfl
@[simp] theorem dropQueue_tdi (q : Nat) : (dropQueue q s).tdi = s.tdi := rfl
@[simp] theorem dropQueue_ready (q : Nat) : (dropQueue q s).ready = s.ready := rfl
@[simp] theorem dropQueue_pp1 (q : Nat) : (dropQueue q s).pp1 = s.pp1 := rfl
@[simp] theorem dropQueue_unconn (q : Nat) : (dropQueue q s).unconn = s.unconn := rfl
@[simp] theorem dropQueue_cgrp (q : Nat) : (dropQueue q s).cgrp = s.cgrp := rfl
@[simp] theorem dropQueue_nfab (q : Nat) : (dropQueue q s).nfab = s.nfab := rfl
@[simp] theorem dropQueue_fstop (q : Nat) : (dropQueue q s).fstop = s.fstop := rfl

/-! `startFetch` changes `qfetch` only. -/
@[simp] theorem startFetch_pending (q : Nat) (w : FetchFor) : (startFetch q w s).pending = s.pending := rfl
@[simp] theorem startFetch_freeCtr (q : Nat) (w : FetchFor) : (startFetch q w s).freeCtr = s.freeCtr := rfl
@[simp] theorem startFetch_nextId (q : Nat) (w : FetchFor) : (startFetch q w s).nextId = s.nextId := rfl
@[simp] theorem startFetch_mem (q : Nat) (w : FetchFor) : (startFetch q w s).mem = s.mem := rfl
@[simp] theorem startFetch_regs (q : Nat) (w : FetchFor) : (startFetch q w s).regs = s.regs := rfl
@[simp] theorem startFetch_w1done (q : Nat) (w : FetchFor) : (startFetch q w s).w1done = s.w1done := rfl
@[simp] theorem startFetch_bcnt (q : Nat) (w : FetchFor) : (startFetch q w s).bcnt = s.bcnt := rfl
@[simp] theorem startFetch_bcRun (q : Nat) (w : FetchFor) : (startFetch q w s).bcRun = s.bcRun := rfl
@[simp] theorem startFetch_rc (q : Nat) (w : FetchFor) : (startFetch q w s).rc = s.rc := rfl
@[simp] theorem startFetch_log (q : Nat) (w : FetchFor) : (startFetch q w s).log = s.log := rfl
@[simp] theorem startFetch_integ (q : Nat) (w : FetchFor) : (startFetch q w s).integ = s.integ := rfl
@[simp] theorem startFetch_ctxs (q : Nat) (w : FetchFor) : (startFetch q w s).ctxs = s.ctxs := rfl
@[simp] theorem startFetch_parts (q : Nat) (w : FetchFor) : (startFetch q w s).parts = s.parts := rfl
@[simp] theorem startFetch_slices (q : Nat) (w : FetchFor) : (startFetch q w s).slices = s.slices := rfl
@[simp] theorem startFetch_queues (q : Nat) (w : FetchFor) : (startFetch q w s).queues = s.queues := rfl
@[simp] theorem startFetch_qctl (q : Nat) (w : FetchFor) : (startFetch q w s).qctl = s.qctl := rfl
@[simp] theorem startFetch_qback (q : Nat) (w : FetchFor) : (startFetch q w s).qback = s.qback := rfl
@[simp] theorem startFetch_dbPend (q : Nat) (w : FetchFor) : (startFetch q w s).dbPend = s.dbPend := rfl
@[simp] theorem startFetch_qEnabled (q : Nat) (w : FetchFor) : (startFetch q w s).qEnabled = s.qEnabled := rfl
@[simp] theorem startFetch_dbDrop (q : Nat) (w : FetchFor) : (startFetch q w s).dbDrop = s.dbDrop := rfl
@[simp] theorem startFetch_qirq (q : Nat) (w : FetchFor) : (startFetch q w s).qirq = s.qirq := rfl
@[simp] theorem startFetch_hwin (q : Nat) (w : FetchFor) : (startFetch q w s).hwin = s.hwin := rfl
@[simp] theorem startFetch_cmds (q : Nat) (w : FetchFor) : (startFetch q w s).cmds = s.cmds := rfl
@[simp] theorem startFetch_ports (q : Nat) (w : FetchFor) : (startFetch q w s).ports = s.ports := rfl
@[simp] theorem startFetch_ops (q : Nat) (w : FetchFor) : (startFetch q w s).ops = s.ops := rfl
@[simp] theorem startFetch_wb (q : Nat) (w : FetchFor) : (startFetch q w s).wb = s.wb := rfl
@[simp] theorem startFetch_beats (q : Nat) (w : FetchFor) : (startFetch q w s).beats = s.beats := rfl
@[simp] theorem startFetch_works (q : Nat) (w : FetchFor) : (startFetch q w s).works = s.works := rfl
@[simp] theorem startFetch_outerCut (q : Nat) (w : FetchFor) : (startFetch q w s).outerCut = s.outerCut := rfl
@[simp] theorem startFetch_outerUsed (q : Nat) (w : FetchFor) : (startFetch q w s).outerUsed = s.outerUsed := rfl
@[simp] theorem startFetch_busyBanks (q : Nat) (w : FetchFor) : (startFetch q w s).busyBanks = s.busyBanks := rfl
@[simp] theorem startFetch_clears (q : Nat) (w : FetchFor) : (startFetch q w s).clears = s.clears := rfl
@[simp] theorem startFetch_contracts (q : Nat) (w : FetchFor) : (startFetch q w s).contracts = s.contracts := rfl
@[simp] theorem startFetch_sync (q : Nat) (w : FetchFor) : (startFetch q w s).sync = s.sync := rfl
@[simp] theorem startFetch_movers (q : Nat) (w : FetchFor) : (startFetch q w s).movers = s.movers := rfl
@[simp] theorem startFetch_outbox (q : Nat) (w : FetchFor) : (startFetch q w s).outbox = s.outbox := rfl
@[simp] theorem startFetch_fab (q : Nat) (w : FetchFor) : (startFetch q w s).fab = s.fab := rfl
@[simp] theorem startFetch_ctl (q : Nat) (w : FetchFor) : (startFetch q w s).ctl = s.ctl := rfl
@[simp] theorem startFetch_power (q : Nat) (w : FetchFor) : (startFetch q w s).power = s.power := rfl
@[simp] theorem startFetch_meter (q : Nat) (w : FetchFor) : (startFetch q w s).meter = s.meter := rfl
@[simp] theorem startFetch_scrub (q : Nat) (w : FetchFor) : (startFetch q w s).scrub = s.scrub := rfl
@[simp] theorem startFetch_test (q : Nat) (w : FetchFor) : (startFetch q w s).test = s.test := rfl
@[simp] theorem startFetch_keys (q : Nat) (w : FetchFor) : (startFetch q w s).keys = s.keys := rfl
@[simp] theorem startFetch_tdi (q : Nat) (w : FetchFor) : (startFetch q w s).tdi = s.tdi := rfl
@[simp] theorem startFetch_ready (q : Nat) (w : FetchFor) : (startFetch q w s).ready = s.ready := rfl
@[simp] theorem startFetch_pp1 (q : Nat) (w : FetchFor) : (startFetch q w s).pp1 = s.pp1 := rfl
@[simp] theorem startFetch_unconn (q : Nat) (w : FetchFor) : (startFetch q w s).unconn = s.unconn := rfl
@[simp] theorem startFetch_cgrp (q : Nat) (w : FetchFor) : (startFetch q w s).cgrp = s.cgrp := rfl
@[simp] theorem startFetch_nfab (q : Nat) (w : FetchFor) : (startFetch q w s).nfab = s.nfab := rfl
@[simp] theorem startFetch_fstop (q : Nat) (w : FetchFor) : (startFetch q w s).fstop = s.fstop := rfl

/-! `timeTo` changes `rc` only. -/
@[simp] theorem timeTo_pending (t : Nat) : (timeTo t s).pending = s.pending := rfl
@[simp] theorem timeTo_freeCtr (t : Nat) : (timeTo t s).freeCtr = s.freeCtr := rfl
@[simp] theorem timeTo_nextId (t : Nat) : (timeTo t s).nextId = s.nextId := rfl
@[simp] theorem timeTo_mem (t : Nat) : (timeTo t s).mem = s.mem := rfl
@[simp] theorem timeTo_regs (t : Nat) : (timeTo t s).regs = s.regs := rfl
@[simp] theorem timeTo_w1done (t : Nat) : (timeTo t s).w1done = s.w1done := rfl
@[simp] theorem timeTo_bcnt (t : Nat) : (timeTo t s).bcnt = s.bcnt := rfl
@[simp] theorem timeTo_bcRun (t : Nat) : (timeTo t s).bcRun = s.bcRun := rfl
@[simp] theorem timeTo_log (t : Nat) : (timeTo t s).log = s.log := rfl
@[simp] theorem timeTo_integ (t : Nat) : (timeTo t s).integ = s.integ := rfl
@[simp] theorem timeTo_ctxs (t : Nat) : (timeTo t s).ctxs = s.ctxs := rfl
@[simp] theorem timeTo_parts (t : Nat) : (timeTo t s).parts = s.parts := rfl
@[simp] theorem timeTo_slices (t : Nat) : (timeTo t s).slices = s.slices := rfl
@[simp] theorem timeTo_queues (t : Nat) : (timeTo t s).queues = s.queues := rfl
@[simp] theorem timeTo_qctl (t : Nat) : (timeTo t s).qctl = s.qctl := rfl
@[simp] theorem timeTo_qfetch (t : Nat) : (timeTo t s).qfetch = s.qfetch := rfl
@[simp] theorem timeTo_qback (t : Nat) : (timeTo t s).qback = s.qback := rfl
@[simp] theorem timeTo_dbPend (t : Nat) : (timeTo t s).dbPend = s.dbPend := rfl
@[simp] theorem timeTo_qEnabled (t : Nat) : (timeTo t s).qEnabled = s.qEnabled := rfl
@[simp] theorem timeTo_dbDrop (t : Nat) : (timeTo t s).dbDrop = s.dbDrop := rfl
@[simp] theorem timeTo_qirq (t : Nat) : (timeTo t s).qirq = s.qirq := rfl
@[simp] theorem timeTo_hwin (t : Nat) : (timeTo t s).hwin = s.hwin := rfl
@[simp] theorem timeTo_cmds (t : Nat) : (timeTo t s).cmds = s.cmds := rfl
@[simp] theorem timeTo_ports (t : Nat) : (timeTo t s).ports = s.ports := rfl
@[simp] theorem timeTo_ops (t : Nat) : (timeTo t s).ops = s.ops := rfl
@[simp] theorem timeTo_wb (t : Nat) : (timeTo t s).wb = s.wb := rfl
@[simp] theorem timeTo_beats (t : Nat) : (timeTo t s).beats = s.beats := rfl
@[simp] theorem timeTo_works (t : Nat) : (timeTo t s).works = s.works := rfl
@[simp] theorem timeTo_outerCut (t : Nat) : (timeTo t s).outerCut = s.outerCut := rfl
@[simp] theorem timeTo_outerUsed (t : Nat) : (timeTo t s).outerUsed = s.outerUsed := rfl
@[simp] theorem timeTo_busyBanks (t : Nat) : (timeTo t s).busyBanks = s.busyBanks := rfl
@[simp] theorem timeTo_clears (t : Nat) : (timeTo t s).clears = s.clears := rfl
@[simp] theorem timeTo_contracts (t : Nat) : (timeTo t s).contracts = s.contracts := rfl
@[simp] theorem timeTo_sync (t : Nat) : (timeTo t s).sync = s.sync := rfl
@[simp] theorem timeTo_movers (t : Nat) : (timeTo t s).movers = s.movers := rfl
@[simp] theorem timeTo_outbox (t : Nat) : (timeTo t s).outbox = s.outbox := rfl
@[simp] theorem timeTo_fab (t : Nat) : (timeTo t s).fab = s.fab := rfl
@[simp] theorem timeTo_ctl (t : Nat) : (timeTo t s).ctl = s.ctl := rfl
@[simp] theorem timeTo_power (t : Nat) : (timeTo t s).power = s.power := rfl
@[simp] theorem timeTo_meter (t : Nat) : (timeTo t s).meter = s.meter := rfl
@[simp] theorem timeTo_scrub (t : Nat) : (timeTo t s).scrub = s.scrub := rfl
@[simp] theorem timeTo_test (t : Nat) : (timeTo t s).test = s.test := rfl
@[simp] theorem timeTo_keys (t : Nat) : (timeTo t s).keys = s.keys := rfl
@[simp] theorem timeTo_tdi (t : Nat) : (timeTo t s).tdi = s.tdi := rfl
@[simp] theorem timeTo_ready (t : Nat) : (timeTo t s).ready = s.ready := rfl
@[simp] theorem timeTo_pp1 (t : Nat) : (timeTo t s).pp1 = s.pp1 := rfl
@[simp] theorem timeTo_unconn (t : Nat) : (timeTo t s).unconn = s.unconn := rfl
@[simp] theorem timeTo_cgrp (t : Nat) : (timeTo t s).cgrp = s.cgrp := rfl
@[simp] theorem timeTo_nfab (t : Nat) : (timeTo t s).nfab = s.nfab := rfl
@[simp] theorem timeTo_fstop (t : Nat) : (timeTo t s).fstop = s.fstop := rfl

/-! `integAdd` changes `integ` only. -/
@[simp] theorem integAdd_pending (i n : Nat) : (integAdd i n s).pending = s.pending := rfl
@[simp] theorem integAdd_freeCtr (i n : Nat) : (integAdd i n s).freeCtr = s.freeCtr := rfl
@[simp] theorem integAdd_nextId (i n : Nat) : (integAdd i n s).nextId = s.nextId := rfl
@[simp] theorem integAdd_mem (i n : Nat) : (integAdd i n s).mem = s.mem := rfl
@[simp] theorem integAdd_regs (i n : Nat) : (integAdd i n s).regs = s.regs := rfl
@[simp] theorem integAdd_w1done (i n : Nat) : (integAdd i n s).w1done = s.w1done := rfl
@[simp] theorem integAdd_bcnt (i n : Nat) : (integAdd i n s).bcnt = s.bcnt := rfl
@[simp] theorem integAdd_bcRun (i n : Nat) : (integAdd i n s).bcRun = s.bcRun := rfl
@[simp] theorem integAdd_rc (i n : Nat) : (integAdd i n s).rc = s.rc := rfl
@[simp] theorem integAdd_log (i n : Nat) : (integAdd i n s).log = s.log := rfl
@[simp] theorem integAdd_ctxs (i n : Nat) : (integAdd i n s).ctxs = s.ctxs := rfl
@[simp] theorem integAdd_parts (i n : Nat) : (integAdd i n s).parts = s.parts := rfl
@[simp] theorem integAdd_slices (i n : Nat) : (integAdd i n s).slices = s.slices := rfl
@[simp] theorem integAdd_queues (i n : Nat) : (integAdd i n s).queues = s.queues := rfl
@[simp] theorem integAdd_qctl (i n : Nat) : (integAdd i n s).qctl = s.qctl := rfl
@[simp] theorem integAdd_qfetch (i n : Nat) : (integAdd i n s).qfetch = s.qfetch := rfl
@[simp] theorem integAdd_qback (i n : Nat) : (integAdd i n s).qback = s.qback := rfl
@[simp] theorem integAdd_dbPend (i n : Nat) : (integAdd i n s).dbPend = s.dbPend := rfl
@[simp] theorem integAdd_qEnabled (i n : Nat) : (integAdd i n s).qEnabled = s.qEnabled := rfl
@[simp] theorem integAdd_dbDrop (i n : Nat) : (integAdd i n s).dbDrop = s.dbDrop := rfl
@[simp] theorem integAdd_qirq (i n : Nat) : (integAdd i n s).qirq = s.qirq := rfl
@[simp] theorem integAdd_hwin (i n : Nat) : (integAdd i n s).hwin = s.hwin := rfl
@[simp] theorem integAdd_cmds (i n : Nat) : (integAdd i n s).cmds = s.cmds := rfl
@[simp] theorem integAdd_ports (i n : Nat) : (integAdd i n s).ports = s.ports := rfl
@[simp] theorem integAdd_ops (i n : Nat) : (integAdd i n s).ops = s.ops := rfl
@[simp] theorem integAdd_wb (i n : Nat) : (integAdd i n s).wb = s.wb := rfl
@[simp] theorem integAdd_beats (i n : Nat) : (integAdd i n s).beats = s.beats := rfl
@[simp] theorem integAdd_works (i n : Nat) : (integAdd i n s).works = s.works := rfl
@[simp] theorem integAdd_outerCut (i n : Nat) : (integAdd i n s).outerCut = s.outerCut := rfl
@[simp] theorem integAdd_outerUsed (i n : Nat) : (integAdd i n s).outerUsed = s.outerUsed := rfl
@[simp] theorem integAdd_busyBanks (i n : Nat) : (integAdd i n s).busyBanks = s.busyBanks := rfl
@[simp] theorem integAdd_clears (i n : Nat) : (integAdd i n s).clears = s.clears := rfl
@[simp] theorem integAdd_contracts (i n : Nat) : (integAdd i n s).contracts = s.contracts := rfl
@[simp] theorem integAdd_sync (i n : Nat) : (integAdd i n s).sync = s.sync := rfl
@[simp] theorem integAdd_movers (i n : Nat) : (integAdd i n s).movers = s.movers := rfl
@[simp] theorem integAdd_outbox (i n : Nat) : (integAdd i n s).outbox = s.outbox := rfl
@[simp] theorem integAdd_fab (i n : Nat) : (integAdd i n s).fab = s.fab := rfl
@[simp] theorem integAdd_ctl (i n : Nat) : (integAdd i n s).ctl = s.ctl := rfl
@[simp] theorem integAdd_power (i n : Nat) : (integAdd i n s).power = s.power := rfl
@[simp] theorem integAdd_meter (i n : Nat) : (integAdd i n s).meter = s.meter := rfl
@[simp] theorem integAdd_scrub (i n : Nat) : (integAdd i n s).scrub = s.scrub := rfl
@[simp] theorem integAdd_test (i n : Nat) : (integAdd i n s).test = s.test := rfl
@[simp] theorem integAdd_keys (i n : Nat) : (integAdd i n s).keys = s.keys := rfl
@[simp] theorem integAdd_tdi (i n : Nat) : (integAdd i n s).tdi = s.tdi := rfl
@[simp] theorem integAdd_ready (i n : Nat) : (integAdd i n s).ready = s.ready := rfl
@[simp] theorem integAdd_pp1 (i n : Nat) : (integAdd i n s).pp1 = s.pp1 := rfl
@[simp] theorem integAdd_unconn (i n : Nat) : (integAdd i n s).unconn = s.unconn := rfl
@[simp] theorem integAdd_cgrp (i n : Nat) : (integAdd i n s).cgrp = s.cgrp := rfl
@[simp] theorem integAdd_nfab (i n : Nat) : (integAdd i n s).nfab = s.nfab := rfl
@[simp] theorem integAdd_fstop (i n : Nat) : (integAdd i n s).fstop = s.fstop := rfl

/-! `putCounter` changes `sync` only. -/
@[simp] theorem putCounter_pending (ph : Nat) (c : Counter) : (putCounter ph c s).pending = s.pending := rfl
@[simp] theorem putCounter_freeCtr (ph : Nat) (c : Counter) : (putCounter ph c s).freeCtr = s.freeCtr := rfl
@[simp] theorem putCounter_nextId (ph : Nat) (c : Counter) : (putCounter ph c s).nextId = s.nextId := rfl
@[simp] theorem putCounter_mem (ph : Nat) (c : Counter) : (putCounter ph c s).mem = s.mem := rfl
@[simp] theorem putCounter_regs (ph : Nat) (c : Counter) : (putCounter ph c s).regs = s.regs := rfl
@[simp] theorem putCounter_w1done (ph : Nat) (c : Counter) : (putCounter ph c s).w1done = s.w1done := rfl
@[simp] theorem putCounter_bcnt (ph : Nat) (c : Counter) : (putCounter ph c s).bcnt = s.bcnt := rfl
@[simp] theorem putCounter_bcRun (ph : Nat) (c : Counter) : (putCounter ph c s).bcRun = s.bcRun := rfl
@[simp] theorem putCounter_rc (ph : Nat) (c : Counter) : (putCounter ph c s).rc = s.rc := rfl
@[simp] theorem putCounter_log (ph : Nat) (c : Counter) : (putCounter ph c s).log = s.log := rfl
@[simp] theorem putCounter_integ (ph : Nat) (c : Counter) : (putCounter ph c s).integ = s.integ := rfl
@[simp] theorem putCounter_ctxs (ph : Nat) (c : Counter) : (putCounter ph c s).ctxs = s.ctxs := rfl
@[simp] theorem putCounter_parts (ph : Nat) (c : Counter) : (putCounter ph c s).parts = s.parts := rfl
@[simp] theorem putCounter_slices (ph : Nat) (c : Counter) : (putCounter ph c s).slices = s.slices := rfl
@[simp] theorem putCounter_queues (ph : Nat) (c : Counter) : (putCounter ph c s).queues = s.queues := rfl
@[simp] theorem putCounter_qctl (ph : Nat) (c : Counter) : (putCounter ph c s).qctl = s.qctl := rfl
@[simp] theorem putCounter_qfetch (ph : Nat) (c : Counter) : (putCounter ph c s).qfetch = s.qfetch := rfl
@[simp] theorem putCounter_qback (ph : Nat) (c : Counter) : (putCounter ph c s).qback = s.qback := rfl
@[simp] theorem putCounter_dbPend (ph : Nat) (c : Counter) : (putCounter ph c s).dbPend = s.dbPend := rfl
@[simp] theorem putCounter_qEnabled (ph : Nat) (c : Counter) : (putCounter ph c s).qEnabled = s.qEnabled := rfl
@[simp] theorem putCounter_dbDrop (ph : Nat) (c : Counter) : (putCounter ph c s).dbDrop = s.dbDrop := rfl
@[simp] theorem putCounter_qirq (ph : Nat) (c : Counter) : (putCounter ph c s).qirq = s.qirq := rfl
@[simp] theorem putCounter_hwin (ph : Nat) (c : Counter) : (putCounter ph c s).hwin = s.hwin := rfl
@[simp] theorem putCounter_cmds (ph : Nat) (c : Counter) : (putCounter ph c s).cmds = s.cmds := rfl
@[simp] theorem putCounter_ports (ph : Nat) (c : Counter) : (putCounter ph c s).ports = s.ports := rfl
@[simp] theorem putCounter_ops (ph : Nat) (c : Counter) : (putCounter ph c s).ops = s.ops := rfl
@[simp] theorem putCounter_wb (ph : Nat) (c : Counter) : (putCounter ph c s).wb = s.wb := rfl
@[simp] theorem putCounter_beats (ph : Nat) (c : Counter) : (putCounter ph c s).beats = s.beats := rfl
@[simp] theorem putCounter_works (ph : Nat) (c : Counter) : (putCounter ph c s).works = s.works := rfl
@[simp] theorem putCounter_outerCut (ph : Nat) (c : Counter) : (putCounter ph c s).outerCut = s.outerCut := rfl
@[simp] theorem putCounter_outerUsed (ph : Nat) (c : Counter) : (putCounter ph c s).outerUsed = s.outerUsed := rfl
@[simp] theorem putCounter_busyBanks (ph : Nat) (c : Counter) : (putCounter ph c s).busyBanks = s.busyBanks := rfl
@[simp] theorem putCounter_clears (ph : Nat) (c : Counter) : (putCounter ph c s).clears = s.clears := rfl
@[simp] theorem putCounter_contracts (ph : Nat) (c : Counter) : (putCounter ph c s).contracts = s.contracts := rfl
@[simp] theorem putCounter_movers (ph : Nat) (c : Counter) : (putCounter ph c s).movers = s.movers := rfl
@[simp] theorem putCounter_outbox (ph : Nat) (c : Counter) : (putCounter ph c s).outbox = s.outbox := rfl
@[simp] theorem putCounter_fab (ph : Nat) (c : Counter) : (putCounter ph c s).fab = s.fab := rfl
@[simp] theorem putCounter_ctl (ph : Nat) (c : Counter) : (putCounter ph c s).ctl = s.ctl := rfl
@[simp] theorem putCounter_power (ph : Nat) (c : Counter) : (putCounter ph c s).power = s.power := rfl
@[simp] theorem putCounter_meter (ph : Nat) (c : Counter) : (putCounter ph c s).meter = s.meter := rfl
@[simp] theorem putCounter_scrub (ph : Nat) (c : Counter) : (putCounter ph c s).scrub = s.scrub := rfl
@[simp] theorem putCounter_test (ph : Nat) (c : Counter) : (putCounter ph c s).test = s.test := rfl
@[simp] theorem putCounter_keys (ph : Nat) (c : Counter) : (putCounter ph c s).keys = s.keys := rfl
@[simp] theorem putCounter_tdi (ph : Nat) (c : Counter) : (putCounter ph c s).tdi = s.tdi := rfl
@[simp] theorem putCounter_ready (ph : Nat) (c : Counter) : (putCounter ph c s).ready = s.ready := rfl
@[simp] theorem putCounter_pp1 (ph : Nat) (c : Counter) : (putCounter ph c s).pp1 = s.pp1 := rfl
@[simp] theorem putCounter_unconn (ph : Nat) (c : Counter) : (putCounter ph c s).unconn = s.unconn := rfl
@[simp] theorem putCounter_cgrp (ph : Nat) (c : Counter) : (putCounter ph c s).cgrp = s.cgrp := rfl
@[simp] theorem putCounter_nfab (ph : Nat) (c : Counter) : (putCounter ph c s).nfab = s.nfab := rfl
@[simp] theorem putCounter_fstop (ph : Nat) (c : Counter) : (putCounter ph c s).fstop = s.fstop := rfl

/-! `putLock` changes `sync` only. -/
@[simp] theorem putLock_pending (ph : Nat) (l : Lock) : (putLock ph l s).pending = s.pending := rfl
@[simp] theorem putLock_freeCtr (ph : Nat) (l : Lock) : (putLock ph l s).freeCtr = s.freeCtr := rfl
@[simp] theorem putLock_nextId (ph : Nat) (l : Lock) : (putLock ph l s).nextId = s.nextId := rfl
@[simp] theorem putLock_mem (ph : Nat) (l : Lock) : (putLock ph l s).mem = s.mem := rfl
@[simp] theorem putLock_regs (ph : Nat) (l : Lock) : (putLock ph l s).regs = s.regs := rfl
@[simp] theorem putLock_w1done (ph : Nat) (l : Lock) : (putLock ph l s).w1done = s.w1done := rfl
@[simp] theorem putLock_bcnt (ph : Nat) (l : Lock) : (putLock ph l s).bcnt = s.bcnt := rfl
@[simp] theorem putLock_bcRun (ph : Nat) (l : Lock) : (putLock ph l s).bcRun = s.bcRun := rfl
@[simp] theorem putLock_rc (ph : Nat) (l : Lock) : (putLock ph l s).rc = s.rc := rfl
@[simp] theorem putLock_log (ph : Nat) (l : Lock) : (putLock ph l s).log = s.log := rfl
@[simp] theorem putLock_integ (ph : Nat) (l : Lock) : (putLock ph l s).integ = s.integ := rfl
@[simp] theorem putLock_ctxs (ph : Nat) (l : Lock) : (putLock ph l s).ctxs = s.ctxs := rfl
@[simp] theorem putLock_parts (ph : Nat) (l : Lock) : (putLock ph l s).parts = s.parts := rfl
@[simp] theorem putLock_slices (ph : Nat) (l : Lock) : (putLock ph l s).slices = s.slices := rfl
@[simp] theorem putLock_queues (ph : Nat) (l : Lock) : (putLock ph l s).queues = s.queues := rfl
@[simp] theorem putLock_qctl (ph : Nat) (l : Lock) : (putLock ph l s).qctl = s.qctl := rfl
@[simp] theorem putLock_qfetch (ph : Nat) (l : Lock) : (putLock ph l s).qfetch = s.qfetch := rfl
@[simp] theorem putLock_qback (ph : Nat) (l : Lock) : (putLock ph l s).qback = s.qback := rfl
@[simp] theorem putLock_dbPend (ph : Nat) (l : Lock) : (putLock ph l s).dbPend = s.dbPend := rfl
@[simp] theorem putLock_qEnabled (ph : Nat) (l : Lock) : (putLock ph l s).qEnabled = s.qEnabled := rfl
@[simp] theorem putLock_dbDrop (ph : Nat) (l : Lock) : (putLock ph l s).dbDrop = s.dbDrop := rfl
@[simp] theorem putLock_qirq (ph : Nat) (l : Lock) : (putLock ph l s).qirq = s.qirq := rfl
@[simp] theorem putLock_hwin (ph : Nat) (l : Lock) : (putLock ph l s).hwin = s.hwin := rfl
@[simp] theorem putLock_cmds (ph : Nat) (l : Lock) : (putLock ph l s).cmds = s.cmds := rfl
@[simp] theorem putLock_ports (ph : Nat) (l : Lock) : (putLock ph l s).ports = s.ports := rfl
@[simp] theorem putLock_ops (ph : Nat) (l : Lock) : (putLock ph l s).ops = s.ops := rfl
@[simp] theorem putLock_wb (ph : Nat) (l : Lock) : (putLock ph l s).wb = s.wb := rfl
@[simp] theorem putLock_beats (ph : Nat) (l : Lock) : (putLock ph l s).beats = s.beats := rfl
@[simp] theorem putLock_works (ph : Nat) (l : Lock) : (putLock ph l s).works = s.works := rfl
@[simp] theorem putLock_outerCut (ph : Nat) (l : Lock) : (putLock ph l s).outerCut = s.outerCut := rfl
@[simp] theorem putLock_outerUsed (ph : Nat) (l : Lock) : (putLock ph l s).outerUsed = s.outerUsed := rfl
@[simp] theorem putLock_busyBanks (ph : Nat) (l : Lock) : (putLock ph l s).busyBanks = s.busyBanks := rfl
@[simp] theorem putLock_clears (ph : Nat) (l : Lock) : (putLock ph l s).clears = s.clears := rfl
@[simp] theorem putLock_contracts (ph : Nat) (l : Lock) : (putLock ph l s).contracts = s.contracts := rfl
@[simp] theorem putLock_movers (ph : Nat) (l : Lock) : (putLock ph l s).movers = s.movers := rfl
@[simp] theorem putLock_outbox (ph : Nat) (l : Lock) : (putLock ph l s).outbox = s.outbox := rfl
@[simp] theorem putLock_fab (ph : Nat) (l : Lock) : (putLock ph l s).fab = s.fab := rfl
@[simp] theorem putLock_ctl (ph : Nat) (l : Lock) : (putLock ph l s).ctl = s.ctl := rfl
@[simp] theorem putLock_power (ph : Nat) (l : Lock) : (putLock ph l s).power = s.power := rfl
@[simp] theorem putLock_meter (ph : Nat) (l : Lock) : (putLock ph l s).meter = s.meter := rfl
@[simp] theorem putLock_scrub (ph : Nat) (l : Lock) : (putLock ph l s).scrub = s.scrub := rfl
@[simp] theorem putLock_test (ph : Nat) (l : Lock) : (putLock ph l s).test = s.test := rfl
@[simp] theorem putLock_keys (ph : Nat) (l : Lock) : (putLock ph l s).keys = s.keys := rfl
@[simp] theorem putLock_tdi (ph : Nat) (l : Lock) : (putLock ph l s).tdi = s.tdi := rfl
@[simp] theorem putLock_ready (ph : Nat) (l : Lock) : (putLock ph l s).ready = s.ready := rfl
@[simp] theorem putLock_pp1 (ph : Nat) (l : Lock) : (putLock ph l s).pp1 = s.pp1 := rfl
@[simp] theorem putLock_unconn (ph : Nat) (l : Lock) : (putLock ph l s).unconn = s.unconn := rfl
@[simp] theorem putLock_cgrp (ph : Nat) (l : Lock) : (putLock ph l s).cgrp = s.cgrp := rfl
@[simp] theorem putLock_nfab (ph : Nat) (l : Lock) : (putLock ph l s).nfab = s.nfab := rfl
@[simp] theorem putLock_fstop (ph : Nat) (l : Lock) : (putLock ph l s).fstop = s.fstop := rfl

/-! `sysWrite` changes `mem` only. -/
@[simp] theorem sysWrite_pending (slice off : Nat) (bs : List Byte) : (sysWrite slice off bs s).pending = s.pending := rfl
@[simp] theorem sysWrite_freeCtr (slice off : Nat) (bs : List Byte) : (sysWrite slice off bs s).freeCtr = s.freeCtr := rfl
@[simp] theorem sysWrite_nextId (slice off : Nat) (bs : List Byte) : (sysWrite slice off bs s).nextId = s.nextId := rfl
@[simp] theorem sysWrite_regs (slice off : Nat) (bs : List Byte) : (sysWrite slice off bs s).regs = s.regs := rfl
@[simp] theorem sysWrite_w1done (slice off : Nat) (bs : List Byte) : (sysWrite slice off bs s).w1done = s.w1done := rfl
@[simp] theorem sysWrite_bcnt (slice off : Nat) (bs : List Byte) : (sysWrite slice off bs s).bcnt = s.bcnt := rfl
@[simp] theorem sysWrite_bcRun (slice off : Nat) (bs : List Byte) : (sysWrite slice off bs s).bcRun = s.bcRun := rfl
@[simp] theorem sysWrite_rc (slice off : Nat) (bs : List Byte) : (sysWrite slice off bs s).rc = s.rc := rfl
@[simp] theorem sysWrite_log (slice off : Nat) (bs : List Byte) : (sysWrite slice off bs s).log = s.log := rfl
@[simp] theorem sysWrite_integ (slice off : Nat) (bs : List Byte) : (sysWrite slice off bs s).integ = s.integ := rfl
@[simp] theorem sysWrite_ctxs (slice off : Nat) (bs : List Byte) : (sysWrite slice off bs s).ctxs = s.ctxs := rfl
@[simp] theorem sysWrite_parts (slice off : Nat) (bs : List Byte) : (sysWrite slice off bs s).parts = s.parts := rfl
@[simp] theorem sysWrite_slices (slice off : Nat) (bs : List Byte) : (sysWrite slice off bs s).slices = s.slices := rfl
@[simp] theorem sysWrite_queues (slice off : Nat) (bs : List Byte) : (sysWrite slice off bs s).queues = s.queues := rfl
@[simp] theorem sysWrite_qctl (slice off : Nat) (bs : List Byte) : (sysWrite slice off bs s).qctl = s.qctl := rfl
@[simp] theorem sysWrite_qfetch (slice off : Nat) (bs : List Byte) : (sysWrite slice off bs s).qfetch = s.qfetch := rfl
@[simp] theorem sysWrite_qback (slice off : Nat) (bs : List Byte) : (sysWrite slice off bs s).qback = s.qback := rfl
@[simp] theorem sysWrite_dbPend (slice off : Nat) (bs : List Byte) : (sysWrite slice off bs s).dbPend = s.dbPend := rfl
@[simp] theorem sysWrite_qEnabled (slice off : Nat) (bs : List Byte) : (sysWrite slice off bs s).qEnabled = s.qEnabled := rfl
@[simp] theorem sysWrite_dbDrop (slice off : Nat) (bs : List Byte) : (sysWrite slice off bs s).dbDrop = s.dbDrop := rfl
@[simp] theorem sysWrite_qirq (slice off : Nat) (bs : List Byte) : (sysWrite slice off bs s).qirq = s.qirq := rfl
@[simp] theorem sysWrite_hwin (slice off : Nat) (bs : List Byte) : (sysWrite slice off bs s).hwin = s.hwin := rfl
@[simp] theorem sysWrite_cmds (slice off : Nat) (bs : List Byte) : (sysWrite slice off bs s).cmds = s.cmds := rfl
@[simp] theorem sysWrite_ports (slice off : Nat) (bs : List Byte) : (sysWrite slice off bs s).ports = s.ports := rfl
@[simp] theorem sysWrite_ops (slice off : Nat) (bs : List Byte) : (sysWrite slice off bs s).ops = s.ops := rfl
@[simp] theorem sysWrite_wb (slice off : Nat) (bs : List Byte) : (sysWrite slice off bs s).wb = s.wb := rfl
@[simp] theorem sysWrite_beats (slice off : Nat) (bs : List Byte) : (sysWrite slice off bs s).beats = s.beats := rfl
@[simp] theorem sysWrite_works (slice off : Nat) (bs : List Byte) : (sysWrite slice off bs s).works = s.works := rfl
@[simp] theorem sysWrite_outerCut (slice off : Nat) (bs : List Byte) : (sysWrite slice off bs s).outerCut = s.outerCut := rfl
@[simp] theorem sysWrite_outerUsed (slice off : Nat) (bs : List Byte) : (sysWrite slice off bs s).outerUsed = s.outerUsed := rfl
@[simp] theorem sysWrite_busyBanks (slice off : Nat) (bs : List Byte) : (sysWrite slice off bs s).busyBanks = s.busyBanks := rfl
@[simp] theorem sysWrite_clears (slice off : Nat) (bs : List Byte) : (sysWrite slice off bs s).clears = s.clears := rfl
@[simp] theorem sysWrite_contracts (slice off : Nat) (bs : List Byte) : (sysWrite slice off bs s).contracts = s.contracts := rfl
@[simp] theorem sysWrite_sync (slice off : Nat) (bs : List Byte) : (sysWrite slice off bs s).sync = s.sync := rfl
@[simp] theorem sysWrite_movers (slice off : Nat) (bs : List Byte) : (sysWrite slice off bs s).movers = s.movers := rfl
@[simp] theorem sysWrite_outbox (slice off : Nat) (bs : List Byte) : (sysWrite slice off bs s).outbox = s.outbox := rfl
@[simp] theorem sysWrite_fab (slice off : Nat) (bs : List Byte) : (sysWrite slice off bs s).fab = s.fab := rfl
@[simp] theorem sysWrite_ctl (slice off : Nat) (bs : List Byte) : (sysWrite slice off bs s).ctl = s.ctl := rfl
@[simp] theorem sysWrite_power (slice off : Nat) (bs : List Byte) : (sysWrite slice off bs s).power = s.power := rfl
@[simp] theorem sysWrite_meter (slice off : Nat) (bs : List Byte) : (sysWrite slice off bs s).meter = s.meter := rfl
@[simp] theorem sysWrite_scrub (slice off : Nat) (bs : List Byte) : (sysWrite slice off bs s).scrub = s.scrub := rfl
@[simp] theorem sysWrite_test (slice off : Nat) (bs : List Byte) : (sysWrite slice off bs s).test = s.test := rfl
@[simp] theorem sysWrite_keys (slice off : Nat) (bs : List Byte) : (sysWrite slice off bs s).keys = s.keys := rfl
@[simp] theorem sysWrite_tdi (slice off : Nat) (bs : List Byte) : (sysWrite slice off bs s).tdi = s.tdi := rfl
@[simp] theorem sysWrite_ready (slice off : Nat) (bs : List Byte) : (sysWrite slice off bs s).ready = s.ready := rfl
@[simp] theorem sysWrite_pp1 (slice off : Nat) (bs : List Byte) : (sysWrite slice off bs s).pp1 = s.pp1 := rfl
@[simp] theorem sysWrite_unconn (slice off : Nat) (bs : List Byte) : (sysWrite slice off bs s).unconn = s.unconn := rfl
@[simp] theorem sysWrite_cgrp (slice off : Nat) (bs : List Byte) : (sysWrite slice off bs s).cgrp = s.cgrp := rfl
@[simp] theorem sysWrite_nfab (slice off : Nat) (bs : List Byte) : (sysWrite slice off bs s).nfab = s.nfab := rfl
@[simp] theorem sysWrite_fstop (slice off : Nat) (bs : List Byte) : (sysWrite slice off bs s).fstop = s.fstop := rfl

/-! `extWrite` changes `mem` only. -/
@[simp] theorem extWrite_pending (a : Nat) (bs : List (Byte × Bool)) : (extWrite a bs s).pending = s.pending := rfl
@[simp] theorem extWrite_freeCtr (a : Nat) (bs : List (Byte × Bool)) : (extWrite a bs s).freeCtr = s.freeCtr := rfl
@[simp] theorem extWrite_nextId (a : Nat) (bs : List (Byte × Bool)) : (extWrite a bs s).nextId = s.nextId := rfl
@[simp] theorem extWrite_regs (a : Nat) (bs : List (Byte × Bool)) : (extWrite a bs s).regs = s.regs := rfl
@[simp] theorem extWrite_w1done (a : Nat) (bs : List (Byte × Bool)) : (extWrite a bs s).w1done = s.w1done := rfl
@[simp] theorem extWrite_bcnt (a : Nat) (bs : List (Byte × Bool)) : (extWrite a bs s).bcnt = s.bcnt := rfl
@[simp] theorem extWrite_bcRun (a : Nat) (bs : List (Byte × Bool)) : (extWrite a bs s).bcRun = s.bcRun := rfl
@[simp] theorem extWrite_rc (a : Nat) (bs : List (Byte × Bool)) : (extWrite a bs s).rc = s.rc := rfl
@[simp] theorem extWrite_log (a : Nat) (bs : List (Byte × Bool)) : (extWrite a bs s).log = s.log := rfl
@[simp] theorem extWrite_integ (a : Nat) (bs : List (Byte × Bool)) : (extWrite a bs s).integ = s.integ := rfl
@[simp] theorem extWrite_ctxs (a : Nat) (bs : List (Byte × Bool)) : (extWrite a bs s).ctxs = s.ctxs := rfl
@[simp] theorem extWrite_parts (a : Nat) (bs : List (Byte × Bool)) : (extWrite a bs s).parts = s.parts := rfl
@[simp] theorem extWrite_slices (a : Nat) (bs : List (Byte × Bool)) : (extWrite a bs s).slices = s.slices := rfl
@[simp] theorem extWrite_queues (a : Nat) (bs : List (Byte × Bool)) : (extWrite a bs s).queues = s.queues := rfl
@[simp] theorem extWrite_qctl (a : Nat) (bs : List (Byte × Bool)) : (extWrite a bs s).qctl = s.qctl := rfl
@[simp] theorem extWrite_qfetch (a : Nat) (bs : List (Byte × Bool)) : (extWrite a bs s).qfetch = s.qfetch := rfl
@[simp] theorem extWrite_qback (a : Nat) (bs : List (Byte × Bool)) : (extWrite a bs s).qback = s.qback := rfl
@[simp] theorem extWrite_dbPend (a : Nat) (bs : List (Byte × Bool)) : (extWrite a bs s).dbPend = s.dbPend := rfl
@[simp] theorem extWrite_qEnabled (a : Nat) (bs : List (Byte × Bool)) : (extWrite a bs s).qEnabled = s.qEnabled := rfl
@[simp] theorem extWrite_dbDrop (a : Nat) (bs : List (Byte × Bool)) : (extWrite a bs s).dbDrop = s.dbDrop := rfl
@[simp] theorem extWrite_qirq (a : Nat) (bs : List (Byte × Bool)) : (extWrite a bs s).qirq = s.qirq := rfl
@[simp] theorem extWrite_hwin (a : Nat) (bs : List (Byte × Bool)) : (extWrite a bs s).hwin = s.hwin := rfl
@[simp] theorem extWrite_cmds (a : Nat) (bs : List (Byte × Bool)) : (extWrite a bs s).cmds = s.cmds := rfl
@[simp] theorem extWrite_ports (a : Nat) (bs : List (Byte × Bool)) : (extWrite a bs s).ports = s.ports := rfl
@[simp] theorem extWrite_ops (a : Nat) (bs : List (Byte × Bool)) : (extWrite a bs s).ops = s.ops := rfl
@[simp] theorem extWrite_wb (a : Nat) (bs : List (Byte × Bool)) : (extWrite a bs s).wb = s.wb := rfl
@[simp] theorem extWrite_beats (a : Nat) (bs : List (Byte × Bool)) : (extWrite a bs s).beats = s.beats := rfl
@[simp] theorem extWrite_works (a : Nat) (bs : List (Byte × Bool)) : (extWrite a bs s).works = s.works := rfl
@[simp] theorem extWrite_outerCut (a : Nat) (bs : List (Byte × Bool)) : (extWrite a bs s).outerCut = s.outerCut := rfl
@[simp] theorem extWrite_outerUsed (a : Nat) (bs : List (Byte × Bool)) : (extWrite a bs s).outerUsed = s.outerUsed := rfl
@[simp] theorem extWrite_busyBanks (a : Nat) (bs : List (Byte × Bool)) : (extWrite a bs s).busyBanks = s.busyBanks := rfl
@[simp] theorem extWrite_clears (a : Nat) (bs : List (Byte × Bool)) : (extWrite a bs s).clears = s.clears := rfl
@[simp] theorem extWrite_contracts (a : Nat) (bs : List (Byte × Bool)) : (extWrite a bs s).contracts = s.contracts := rfl
@[simp] theorem extWrite_sync (a : Nat) (bs : List (Byte × Bool)) : (extWrite a bs s).sync = s.sync := rfl
@[simp] theorem extWrite_movers (a : Nat) (bs : List (Byte × Bool)) : (extWrite a bs s).movers = s.movers := rfl
@[simp] theorem extWrite_outbox (a : Nat) (bs : List (Byte × Bool)) : (extWrite a bs s).outbox = s.outbox := rfl
@[simp] theorem extWrite_fab (a : Nat) (bs : List (Byte × Bool)) : (extWrite a bs s).fab = s.fab := rfl
@[simp] theorem extWrite_ctl (a : Nat) (bs : List (Byte × Bool)) : (extWrite a bs s).ctl = s.ctl := rfl
@[simp] theorem extWrite_power (a : Nat) (bs : List (Byte × Bool)) : (extWrite a bs s).power = s.power := rfl
@[simp] theorem extWrite_meter (a : Nat) (bs : List (Byte × Bool)) : (extWrite a bs s).meter = s.meter := rfl
@[simp] theorem extWrite_scrub (a : Nat) (bs : List (Byte × Bool)) : (extWrite a bs s).scrub = s.scrub := rfl
@[simp] theorem extWrite_test (a : Nat) (bs : List (Byte × Bool)) : (extWrite a bs s).test = s.test := rfl
@[simp] theorem extWrite_keys (a : Nat) (bs : List (Byte × Bool)) : (extWrite a bs s).keys = s.keys := rfl
@[simp] theorem extWrite_tdi (a : Nat) (bs : List (Byte × Bool)) : (extWrite a bs s).tdi = s.tdi := rfl
@[simp] theorem extWrite_ready (a : Nat) (bs : List (Byte × Bool)) : (extWrite a bs s).ready = s.ready := rfl
@[simp] theorem extWrite_pp1 (a : Nat) (bs : List (Byte × Bool)) : (extWrite a bs s).pp1 = s.pp1 := rfl
@[simp] theorem extWrite_unconn (a : Nat) (bs : List (Byte × Bool)) : (extWrite a bs s).unconn = s.unconn := rfl
@[simp] theorem extWrite_cgrp (a : Nat) (bs : List (Byte × Bool)) : (extWrite a bs s).cgrp = s.cgrp := rfl
@[simp] theorem extWrite_nfab (a : Nat) (bs : List (Byte × Bool)) : (extWrite a bs s).nfab = s.nfab := rfl
@[simp] theorem extWrite_fstop (a : Nat) (bs : List (Byte × Bool)) : (extWrite a bs s).fstop = s.fstop := rfl

end Sys2Proof.Laws
end

