-- ==== Sys2Proof/Machine/Pins.lean ====
section
/-! DEFINITION. Machine/Pins.lean: what the block shows without a command: its control-domain outputs (18 R516) and what a host read
of the host window returns (05 R152, R153). They change no state. -/
namespace Sys2Proof.Machine

/-- ERR_IRQ (14 R429): the first-error set holds an entry. -/
def pinErrIrq (s : State) : Bool := !s.log.first.isEmpty

/-- MISS_IRQ (08 R272): a MISS_STAT bit of a slice is set. -/
def pinMissIrq (s : State) : Bool := (List.range 68).any fun n => decide (regGet s 0 (regNo n 0xA04) / 2 ^ 30 ≠ 0)

/-- SFAIL_IRQ (14 R435): a failed logical slice has no spare in its place (DEDUCED: the line falls when the last one has). -/
def pinSfailIrq (s : State) : Bool := (List.range 64).any fun n => (sliceOf s n).failed && (sliceOf s n).spare.isNone

/-- SVC_REQ (14 R439): a bit of SVC_STAT is set. -/
def pinSvcReq (s : State) : Bool := decide (svcStat s ≠ 0)

/-- SPARED (18 R505, R516), bit `n` for logical slice `n`. -/
def pinSpared (s : State) (n : Nat) : Bool := (sliceOf s n).spare.isSome

/-- HP_GRDY and HP_BRDY of home port `p` of slice `n` (18 R504; 04 R93, R119): low until start-up step 5, past a commit point,
and in RETAIN and OFF (15 R452, R457); in IDLE they are high, and a request is held until the wake. -/
def pinHpGrdy (s : State) (n p : Nat) : Bool := portsOpen s && seqRuns s n && portWired s n p && !isPP1 s n p && portGReady s n p
def pinHpBrdy (s : State) (n p : Nat) : Bool := portsOpen s && seqRuns s n && portWired s n p && portBReady s n p

/-- SLC_PWR_OK (15 R462), bit `n` for slice `n`, spares from 64: the outputs of the slice are valid. -/
def pinSlcPwrOk (s : State) (n : Nat) : Bool :=
  decide (3 ≤ s.ctl.phase) && !s.ctl.inReset && !s.ctl.vhvLow &&
    (match (pwrOf s n).st, (pwrOf s n).mode with
     | .off, _ => false
     | _, .entering .off => false
     | _, _ => true)

/-- DEEP_ACK (15 R463). -/
def pinDeepAck (s : State) : Bool := decide (s.ctl.deep = 2)

/-- PWR_FAIL (15 R447). -/
def pinPwrFail (s : State) : Bool := s.ctl.vhvLow

/-- THERM_TRIP_N (16 R477). -/
def pinThermTripN (s : State) : Bool := !s.power.thermOut

/-- WAKE_REQ (15 R465). -/
def pinWakeReq (s : State) : Bool := s.ctl.wakeReq

/-- MCLK and OCLK run (18 R503, 15 R444). -/
def pinClocks (s : State) : Bool := decide (3 ≤ s.ctl.phase) && !s.ctl.held && decide (s.ctl.deep ≠ 2)

/-- A host read of a page of the host window (05 R152, R153): the registers return the value last written, DB_DROP and CTX_FAULT
their own, every other offset zero. -/
def hostRead (s : State) (c off : Nat) : DWord :=
  if off = 0x18 then BitVec.ofNat 64 (mget (fun _ => 0) s.dbDrop c)
  else if off = 0x1C then
    match mget (fun _ => none) s.ctxs c with
    | some x => BitVec.ofNat 64 x.fault.code
    | none => 0
  else if off = 0 ∨ off = 8 ∨ off = 0x10 then mget (fun _ => 0) s.hwin (c * 4096 + off)
  else 0

end Sys2Proof.Machine
end

