-- ==== Sys2Proof/WellFormed.lean ====
section
/-! DEFINITION. WellFormed.lean: which commands are well formed: every operand is in the range of the field or unit
that names it (01 R11 to R14; 05 R121; 06 R183; 11 R335; 13 R390). -/
namespace Sys2Proof

/-- A register write's requester: an active slice's mesh port, a device number and a mesh stop (04 R85). -/
def RegWriter.wf (w : RegWriter) : Bool := decide (w.slice < 64) && decide (w.srcdev < 65536) && decide (w.srcstop < 64)

/-- A port of an active slice (04 R79): 0 to 9 home ports, 10 the mesh port. -/
def portWf (n p : Nat) : Bool := decide (n < 64) && decide (p < 11)

/-- A port request (04 R79, R81): a port of an active slice, at most 16 KiB of data, URG in 0 to 3. -/
def PortReq.wf (r : PortReq) : Bool := portWf r.slice r.port && decide (r.data.length ≤ 4096) && decide (r.urg < 4)

/-- A fabric frame (12 R360 to R362): a fabric port, the words of a header or message, poison marks for its data. -/
def Frame.wf (f : Frame) : Bool :=
  decide (f.port < 8) && decide (f.words.length ≤ 7) && decide (f.data.length ≤ 4096) && decide (f.poison.length = f.data.length)

/-- The path of a message (05 R148). -/
def MsgPath.wf : MsgPath → Bool
  | .host fn => decide (fn < 256)
  | .core n st t => decide (n < 64) && decide (st < 64) && decide (t < 65536)

/-- A context number (06 R183). -/
def ctxWf (c : Nat) : Bool := decide (c < 2048)

/-- A queue number (05 R121). -/
def queueWf (q : Nat) : Bool := decide (q < 524288)

/-- A mover channel (11 R335). -/
def chanWf (n m c : Nat) : Bool := decide (n < 64) && decide (m < 2) && decide (c < 8)

/-- Is a command well formed? -/
def Instr.wf : Instr → Bool
  | .slotFetch q | .irqGapExpiry q | .doorbellService q | .descriptorFetchDone q | .queueDisableDone q
  | .descriptorWriteBackDone q _ => queueWf q
  | .doorbell p c _ | .replyAck p c _ | .counterAdd p c _ => p.wf && ctxWf c
  | .hostWindowWrite fn c o z _ => decide (fn < 256) && ctxWf c && decide (o + z ≤ 4096)
  | .qctlDb n _ w | .qctlRack n _ w | .sleeveCfgWrite n _ w => decide (n < 64) && w.wf
  | .enable n i _ w => decide (n < 64) && decide (i < 8192) && w.wf
  | .disable n i w | .pin n i w | .unpin n i w => decide (n < 64) && decide (i < 8192) && w.wf
  | .read r | .write r | .accWrite r | .flush r | .tspill r | .tfill r | .burstTimeout r => r.wf
  | .reuseExpiry n p c _ => portWf n p && ctxWf c
  | .portEnable n p _ w | .portDisable n p _ w | .portCtxWrite n p _ w => portWf n p && w.wf
  | .portDrainDone n p | .portClearDone n p => portWf n p
  | .bootCtlWrite _ w | .registerWrite _ _ _ w | .map _ w | .unmap _ w | .dbgSelWrite _ w | .cuBootWrite _ w | .deep w => w.wf
  | .frameBoundary n | .idleTimerExpiry n | .retentionTimerExpiry n | .prepareDone n | .entryComplete n | .wakeDone n
  | .maPend n | .ivrPhaseFault n | .heartbeatTimeout n | .sliceCut n | .sliceSupplyReturn n => decide (n < 68)
  | .regulatorInterval n o => decide (n < 64) && decide (o < 16)
  | .nmuFaultRetry n t k => decide (n < 64) && decide (t < 4) && decide (k < 69)
  | .resetNotify c h => ctxWf c && decide (h < 65536)
  | .start n m c _ w | .stop n m c _ w => chanWf n m c && w.wf
  | .moverStopDone n m c | .move n m c | .spill n m c | .moverFill n m c | .loop n m c | .moverWait n m c | .moverSignal n m c
  | .moverEnd n m c | .pieceRetire n m c => chanWf n m c
  | .moverHalt n m c => chanWf n m c
  | .stagingAgeExpiry n m _ => decide (n < 64) && decide (m < 2)
  | .fabricRequestFrame f | .fabricResponseFrame f | .grant f | .renew f | .release f | .withdraw f | .grantAnswer f
  | .renewAnswer f | .releaseAnswer f | .deferredNotice f | .counterSignalFrame f | .counterSignalAnswer f => f.wf
  | .deferredGrantServe p | .dissolveDone p | .suspendDone p | .activateDone p => decide (p < 32)
  | .grantExpiry p i => decide (p < 32) && decide (i < 1024)
  | .configure p _ w | .seal p _ w | .dissolve p _ w | .suspend p _ w | .activate p _ w => decide (p < 32) && w.wf
  | .keyLoad k t _ => decide (k < 64) && decide (t < 65536)
  | .keyErase k => decide (k < 64)
  | .tdispStateReport k st => decide (k < 4096) && decide (st < 4)
  | .blockReset c => decide (c < 8)
  | .wake n _ w | .idle n _ w | .retain n _ w | .off n _ w => decide (n < 68) && w.wf
  | .sliceFail n c => decide (n < 68) && decide (c < 256)
  | .seamCalibration n t ws => decide (n < 64) && decide (t < 4) && ws.all fun l => decide (l < 1216)
  | .seamParityError n t l _ _ => decide (n < 64) && decide (t < 4) && decide (l < 1216)
  | .nop _ | .link _ | .queryCaps _ | .fence _ | .flushRange _ | .fill _ | .copy _ | .convertCopy _ | .gemv _
  | .gatherPool _ | .gatherPoolFinish _ | .reduceAcc _ | .signal _ | .wait _ | .lockAcquire _ | .lockRelease _
  | .lockClearAbandoned _ | .pocketSet _ | .ctxCreate _ | .ctxDestroy _ | .weaveInstall _ | .contractBind _ | .powerHint _
  | .capSet _ | .freqLock _ | .freqLockAt | .telemetryRead _ | .meterRead _ | .creditRequest _ | .remoteWrite _
  | .remoteRead _ | .scrubCtl _ | .scrubAutoResume | .eccTestWrite _ | .darn _ | .logRead _ | .regWrite _ | .regRead _
  | .heldPacketAdmit _ | .commandComplete _ | .replyWriteAcknowledged _ | .priorityRaise _ | .wbAgeExpiry _ | .bankBeat
  | .wbEntryCommit _ | .clearDone _ | .waitTimeout _ | .contextWatchdog _ | .fabricTimeout _ | .measurementRequest _ _ _
  | .microcodeAnswer _ | .powerOnReset | .startupRelease | .vhvBrownout | .pllUnlock | .pllRelockTimeout | .opChangeDone
  | .wakeN | .i3cWake | .deepExitDone | .managementWrite _ | .i3cCcc _ _ | .estimateWindow _ _ _ _ | .thermalTripTimeout
  | .patrolScrub _ _ _ | .poisonTagWrite _ | .logRecord | .meterSample _ | .meterAllocation | .meterSelfCheck _
  | .meterGapStart | .meterGapEnd | .mtrCfg _ | .mtrLabel _ | .mtrSeal _ | .meterRecordRequest _ | .meterRecordReady
  | .wsBypass | .wsStatus | .wsExtest | .wsIntest | .mbistRun _ | .seamTest _ | .fuseProg _ | .pllRelock => true

end Sys2Proof
end

