-- ==== Sys2Proof/Tests/Slice0.lean ====
section
/-! SUPPORT. Tests/Slice0.lean: the model's own tests: an ill-formed command for each check of WellFormed, a state and operands that meet the
hypotheses of each statement, and small checks of single steps against values of the spec. -/
set_option linter.all false
set_option Elab.async false
namespace Sys2Proof.Tests
open Sys2Proof Sys2Proof.Machine

/-! ## Small states -/

/-- The block in service: clocks running, start-up phase 7. -/
def bench : State := { State.reset with bcRun := true, ctl := { CtlState.zero with phase := 7, cuState := 2 } }

/-- A pocket of 1 MiB, readable and writable, at the start of its frame. -/
def pocketA : Pocket :=
  { valid := true, spread := false, state := .resident, set := 0, home := 0, wr := true, rd := true, remote := false, base := 0, bound := 0x100000 }

/-- A context of tenant 7 in partition 0, with W-store pocket 0, A-store pockets 0 and 1, P-store pocket 0, and 1 MiB of external memory. -/
def ctx5 : Ctx :=
  { tenant := 7, part := 0, wdog := 0, keyEn := false, keySlot := 0, dbg := true, extBase := 0x1000000, extSize := 0x100000, state := .active,
    destroying := false, fault := .ok,
    pockets := [(16, pocketA), (32, pocketA), (33, { pocketA with base := 1, bound := 0x80000 }), (48, pocketA)], cmap := [], tele := [], energy := 0 }

/-- Slices 0 and 1 as partition 0, sealed, with context 5. -/
def tenant : State :=
  { bench with parts := [(0, { PartRec.zero with state := .sealed, slog := 1 })], ctxs := [(5, some ctx5)] }

/-- The descriptor words of a queue of context 5, G3, with 16 reply entries in external memory at 0x2000. -/
def qWords : List Word := [0xE0140000, 0, 0, 0, 0, 0x2000, 0, 0]

/-- A cached queue that runs at CHAIN 0x4000. -/
def qRec : QueueRec :=
  { words := qWords, rcons := 0, chain := 0x4000, qstate := .running, rung := false, rphase := true, rprod := 0, pinned := false, lru := 0,
    hemSaid := false, disabling := false }

/-- Queue 16 of slice 0 as given, enabled. -/
def queued (r : QueueRec) : State := { tenant with queues := [(16, some r)], qEnabled := [(16, true)] }

/-- A command of a tenant queue (16) or a privileged one (0), number 1, with these words. -/
def cmd (q : Nat) (ws : List Word) : Cmd :=
  { id := 1, queue := q, gen := 3, ctx := 5, words := ws, paddr := 0x4000, phase := .admitted, status := .ok, count := 0, result := 0,
    admitB := 0, elapsed := 0, gcls := false, suspended := false, bound := none, rail := false, delayed := false, after := [], isFetch := false,
    isHem := false, irqSel := false }

/-- A state in which command `c` is in flight. -/
def flight (c : Cmd) : State := { queued qRec with cmds := [c] }

/-- The secure world's register writer at slice 0. -/
def firmware : RegWriter := { slice := 0, srcdev := 0, srcstop := 0, secure := true }

/-- The state after one command. -/
def after (i : Instr) (s : State) : State :=
  match exec i s with
  | .next t => t
  | _ => s

/-- A read of one beat through a port of slice 0. -/
def entryOp : PortOp :=
  { id := 7, slice := 0, port := 0, tag := 0, kind := .read, ctx := 5, hdr := 0, ext := 0, keys := [bankKey 0 .w 0 0 * 524288], addrs := [0x1000000000], fwd := []
    got := [(0, (1, false))], left := 0, entries := 0, status := .ok, bad := 0, g := false, owner := none, suspended := false, acceptB := 0, bound := none, lpath := 0
    rail := false, noReuse := [], after := [], ret := none }

/-! ## Well-formed commands: one ill-formed term for each check -/

theorem test_wf_writer : (Instr.bootCtlWrite 0 { firmware with slice := 64 }).wf = false ∧
    (Instr.bootCtlWrite 0 { firmware with srcdev := 65536 }).wf = false ∧ (Instr.bootCtlWrite 0 { firmware with srcstop := 64 }).wf = false ∧
    (Instr.bootCtlWrite 0 firmware).wf = true := by decide
/-- A request at a port, without data. -/
def req (slice port : Nat) (hdr : BitVec 128) (ext : DWord) (data : List Byte) : PortReq :=
  { slice := slice, port := port, hdr := hdr, ext := ext, data := data, urg := 0, priv := true, secure := true }
theorem test_wf_port : (Instr.read (req 64 0 0 0 [])).wf = false ∧ (Instr.read (req 0 11 0 0 [])).wf = false ∧
    (Instr.read { req 0 0 0 0 [] with urg := 4 }).wf = false ∧
    (Instr.portDrainDone 64 0).wf = false ∧ (Instr.portClearDone 0 11).wf = false ∧ (Instr.read (req 63 10 0 0 [])).wf = true := by decide
theorem test_wf_data (n : Nat) (h : 4096 < n) : (Instr.write (req 0 0 0 0 (List.replicate n 0))).wf = false ∧
    (Instr.grant { port := 0, prot := true, words := [], data := List.replicate n 0, poison := List.replicate n false }).wf = false := by
  simp [Instr.wf, PortReq.wf, Frame.wf, req]; omega
theorem test_wf_frame : (Instr.grant { port := 8, prot := true, words := [], data := [], poison := [] }).wf = false ∧
    (Instr.grant { port := 0, prot := true, words := List.replicate 8 0, data := [], poison := [] }).wf = false ∧
    (Instr.grant { port := 0, prot := true, words := [], data := [0], poison := [] }).wf = false ∧
    (Instr.grant { port := 7, prot := true, words := List.replicate 7 0, data := [0], poison := [false] }).wf = true := by decide
theorem test_wf_message : (Instr.doorbell (.host 256) 5 0).wf = false ∧ (Instr.doorbell (.core 64 0 0) 5 0).wf = false ∧
    (Instr.doorbell (.core 0 64 0) 5 0).wf = false ∧ (Instr.doorbell (.core 0 0 65536) 5 0).wf = false ∧ (Instr.replyAck (.host 0) 2048 0).wf = false ∧
    (Instr.hostWindowWrite 256 5 0 4 0).wf = false ∧ (Instr.hostWindowWrite 0 5 4093 4 0).wf = false ∧ (Instr.resetNotify 5 65536).wf = false ∧
    (Instr.resetNotify 2048 0).wf = false ∧ (Instr.counterAdd (.core 63 63 65535) 2047 0).wf = true := by decide
theorem test_wf_queue : (Instr.slotFetch 524288).wf = false ∧ (Instr.enable 64 0 false firmware).wf = false ∧
    (Instr.enable 0 8192 false firmware).wf = false ∧ (Instr.qctlDb 64 0 firmware).wf = false ∧ (Instr.slotFetch 524287).wf = true := by decide
theorem test_wf_mover : (Instr.move 64 0 0).wf = false ∧ (Instr.move 0 2 0).wf = false ∧ (Instr.move 0 0 8).wf = false ∧
    (Instr.stagingAgeExpiry 64 0 0).wf = false ∧ (Instr.stagingAgeExpiry 0 2 0).wf = false ∧ (Instr.moverEnd 63 1 7).wf = true := by decide
theorem test_wf_units : (Instr.wake 68 false firmware).wf = false ∧ (Instr.frameBoundary 68).wf = false ∧ (Instr.sliceFail 0 256).wf = false ∧
    (Instr.sliceFail 68 0).wf = false ∧ (Instr.regulatorInterval 64 0).wf = false ∧ (Instr.regulatorInterval 0 16).wf = false ∧
    (Instr.nmuFaultRetry 64 0 0).wf = false ∧ (Instr.nmuFaultRetry 0 4 0).wf = false ∧ (Instr.nmuFaultRetry 0 0 69).wf = false ∧
    (Instr.wake 67 false firmware).wf = true := by decide
theorem test_wf_rest : (Instr.configure 32 0 firmware).wf = false ∧ (Instr.dissolveDone 32).wf = false ∧ (Instr.grantExpiry 32 0).wf = false ∧
    (Instr.grantExpiry 0 1024).wf = false ∧ (Instr.keyLoad 64 0 0).wf = false ∧ (Instr.keyLoad 0 65536 0).wf = false ∧ (Instr.keyErase 64).wf = false ∧
    (Instr.tdispStateReport 4096 0).wf = false ∧ (Instr.tdispStateReport 0 4).wf = false ∧ (Instr.blockReset 8).wf = false ∧
    (Instr.seamCalibration 64 0 []).wf = false ∧ (Instr.seamCalibration 0 4 []).wf = false ∧ (Instr.seamCalibration 0 0 [1216]).wf = false ∧
    (Instr.seamParityError 64 0 0 true 0).wf = false ∧ (Instr.seamParityError 0 4 0 true 0).wf = false ∧ (Instr.seamParityError 0 0 1216 true 0).wf = false ∧
    (Instr.configure 31 0 firmware).wf = true := by decide
/-- No row of the opcode table has bits: no word spells a command (18). -/
theorem test_no_bits : decodeTableWord 32 0 = none ∧ State.reset.withFetchWord 32 0 = State.reset := ⟨rfl, rfl⟩

/-! ## The queue of commands -/

theorem meets_StepRunsFront_empty : State.reset.pending = [] ∧ step State.reset = .next State.reset := ⟨rfl, rfl⟩
theorem meets_StepKeepsWellFormed : State.reset.wf = true ∧ step { State.reset with pending := [.startupRelease] } = .next (after .startupRelease State.reset) :=
  ⟨by decide, rfl⟩
/-- A command at the front runs, and the rest waits. -/
theorem test_front : step { bench with pending := [.priorityRaise 1, .bankBeat] } = .next { bench with pending := [.bankBeat] } := rfl
/-- A step that answers a next state. -/
theorem meets_TieOffsNeverChange : step { bench with pending := [.priorityRaise 1] } = .next bench := rfl

/-! ## Command queues (05) -/

theorem meets_NopHasNoEffect : opInfo 0 ≠ none ∧ wordAt [0, 0, 1] 2 ≠ 0 ∧ wordAt ([0, 0] ++ List.replicate 13 0 ++ [1]) 15 ≠ 0 ∧
    admittedAs (flight (cmd 16 [0])) 1 0 = some (cmd 16 [0]) := by decide
theorem meets_LinkCapsFence : (let c := cmd 16 [0x00200000, 0, 0x8000, 0]; admittedAs (flight c) 1 2 = some c ∧ queueOf (flight c) c.queue = some qRec) ∧
    (let c := cmd 16 [0x00300000, 0, 0x30]; admittedAs (flight c) 1 3 = some c ∧ c.f 2 11 4 < 4) ∧
    (let c := cmd 16 [0x00300000, 0, 0x40]; admittedAs (flight c) 1 3 = some c ∧ 4 ≤ c.f 2 11 4) ∧
    (let c := { cmd 16 [0x01000000, 0, 0] with after := [2] }; let d := { cmd 16 [0] with id := 2 }; let e := { d with phase := .replied }
      admittedAs { flight c with cmds := [c, d] } 1 0x10 = some c ∧ (∃ x ∈ [c, d], x.id ∈ c.after ∧ x.phase ≠ .replied) ∧
      admittedAs { flight c with cmds := [c, e] } 1 0x10 = some c ∧ ∀ x ∈ [c, e], x.id ∈ c.after → x.phase = .replied) := by decide


/-- Bytes of external memory from an address. -/
def placed (a : Nat) (ws : List Word) (s : State) : State := { s with mem := { s.mem with ext := mputList (fun _ => 0) s.mem.ext a (bytesOfWords ws) } }

/-- The premises of a slot fetch, and the sixteen words read. -/
def fetched (ws : List Word) : Prop :=
  let s := placed 0x4000 ws (queued qRec)
  s.wf = true ∧ queueOf s 16 = some qRec ∧ fetchReady s 16 qRec = true ∧ cmdReadWaits s (dCtx qRec.words) qRec.chain 128 = false ∧
    cmdAddrSlices s (dCtx qRec.words) qRec.chain 128 = [] ∧
    (cmdRead s (.queue 16) (dCtx qRec.words) qRec.chain 64).1 = some .ok ∧
    wordsOfBytes 16 (cmdRead s (.queue 16) (dCtx qRec.words) qRec.chain 64).2.1 = ws ++ List.replicate (16 - ws.length) 0

theorem meets_PacketsAreFetchedAndDecided_hem : fetched [0x00100000] := by unfold fetched; decide
theorem meets_PacketsAreFetchedAndDecided_bad_header : fetched [0x00000001] ∧ headerCheck false 3 [0x00000001] = .reservedNonzero := by unfold fetched; decide
theorem meets_PacketsAreFetchedAndDecided_reserved_parameter : fetched [0x00000000, 0, 1] ∧ headerCheck false 3 [0, 0, 1] = .ok ∧
    paramsReserved false 3 0 ((opInfo 0).getD { gen := 0, priv := true, big := true, cls := 0, hasCtx := false }) [0, 0, 1] = true := by unfold fetched; decide
theorem meets_PacketsAreFetchedAndDecided_admitted : fetched [0x00000000, 7] ∧ headerCheck false 3 [0, 7] = .ok ∧
    paramsReserved false 3 0 ((opInfo 0).getD { gen := 0, priv := true, big := true, cls := 0, hasCtx := false }) [0, 7] = false := by unfold fetched; decide
theorem meets_PacketsAreFetchedAndDecided_admitted_now : (let s := placed 0x4000 [0, 7] (queued qRec); let new := newCmd s.nextId 16 qRec (pktCtx 16 qRec (opInfo 0) [0, 7]) [0, 7] s.bcnt
      dGen qRec.words ≠ 1 ∧ (opInfo 0).all (fun i => i.cls ≠ 1) = true ∧ s.cmds = [] ∧ destSpilled s new = false ∧ waiterFull s { new with id := s.nextId + 1 } = false) := by decide
/-- A held FILL of A-store pocket 0 is admitted; one past the pocket's bound is refused; one whose pocket is spilled is held. -/
theorem meets_PacketsAreFetchedAndDecided_held :
    (let c := { cmd 16 [0x10000000, 0, 0, 0x1000, 0, 0x20, 0, 0] with phase := .held }; let s := flight c;
      cmdOf s 1 = some c ∧ cmdsRun s = true ∧ slcRuns s (qHome c.queue) = true ∧ queueOf s 16 = some qRec ∧ ctxActive s 5 = true ∧ qRec.qstate = .running ∧ qRec.disabling = false ∧ chosen s c = true ∧
      (match admission s c with
        | .accept none false => true
        | _ => false) = true) ∧
    (let c := { cmd 16 [0x10000000, 0, 0, 0x1000, 0x000FF001, 0x20, 0, 0] with phase := .held };
      (match admission (flight c) c with
        | .refuse .boundViolation _ => true
        | _ => false) = true) ∧
    (let c := { cmd 16 [0x10000000, 0, 0, 0x1000, 0, 0x20, 0, 0] with phase := .held };
      (match admission { flight c with ctxs := [(5, some (ctx5.setPocket .a 0 { pocketA with state := .spilled }))] } c with
        | .hold true => true
        | _ => false) = true) ∧
    (let c := { cmd 16 [0x10000000, 0, 0, 0x1000, 0, 0x20, 0, 0] with phase := .held }; let d := { c with id := 0, queue := 17 };
      let s : State := { flight c with queues := [(16, some qRec), (17, some qRec)], qEnabled := [(16, true), (17, true)], cmds := [d, c] }; s.wf = true ∧ cmdOf s 1 = some c ∧
      (chosen s c = false ∨ chosen s d = false)) := by decide


theorem meets_RepliesAreWrittenAndNotified_written : (let c := { cmd 16 [0] with phase := .done }; let s := flight c;
      s.wf = true ∧ cmdOf s 1 = some c ∧ cmdsRun s = true ∧ worksLeft s 1 = false ∧ queueOf s 16 = some qRec ∧ (ctxOf s (dCtx qRec.words)).all (·.state ≠ .suspended) = true ∧ Serves s [qHome 16] ∧
        bitOf (dRbase qRec.words) 63 = false ∧ dRbase qRec.words + 32 * dEntries qRec.words ≤ 2 ^ 52) ∧
    (let r := { qRec with rprod := 65535 }; let c := { cmd 16 [0] with phase := .done }; let s := { queued r with cmds := [c] };
      s.wf = true ∧ cmdOf s 1 = some c ∧ queueOf s 16 = some r ∧ (r.rprod + 1) % 65536 % dEntries r.words = 0) := by unfold Serves; decide
/-- A queue with IRQ_GAP = 5 µs that sent its interrupt at REFCLK 100. -/
def gapRec : QueueRec := { qRec with words := 0xE0140005 :: qWords.drop 1 }
def gapState (c : Cmd) : State := { queued gapRec with cmds := [c], rc := 599, qirq := [(16, { last := some 100, owed := some (0, 0, 600) })] }
theorem meets_RepliesAreWrittenAndNotified_notified : (let c := { cmd 16 [0] with phase := .replied }; let s := flight c;
      cmdOf s 1 = some c ∧ queueOf s 16 = some qRec ∧ flag (wordAt qRec.words 1) 12 = false ∧ c.irqSel = false ∧ ({ c with irqSel := true }).irqSel = true ∧ (qirqOf s 16).last = none) ∧
    (let c := { cmd 16 [0] with phase := .replied, irqSel := true }; let s := gapState c;
      cmdOf s 1 = some c ∧ queueOf s 16 = some gapRec ∧ (qirqOf s 16).last = some 100 ∧ s.rc < 100 + dGap gapRec.words * 100 ∧ 100 + dGap gapRec.words * 100 ≤ s.rc + 1) ∧
    (qirqOf (gapState (cmd 16 [0])) 16).owed = some (0, 0, 600) := by decide

/-- Context 5's window page is owned by host function 3. -/
def hosted (s : State) : State := { s with regs := [(regNo 0x80 (0x4000 + 4 * 5), 0x80000003)] }
theorem meets_MessagesReachQueuesOrAreDropped_reach :
    (let s := hosted (queued { qRec with qstate := .parked, rprod := 4 }); let r := { qRec with qstate := .parked, rprod := 4 };
      hostMsgOk s (.host 3) 5 = true ∧ msgTenantOk s (.host 3) 5 = true ∧ qPriv 16 = false ∧ qEnabledBit s 16 = true ∧ queueOf s 16 = some r ∧
      dValid r.words = true ∧ dCtx r.words = 5 ∧ s.wf = true ∧ bitOf (hwinMap s 5) 31 = true ∧ hwinMap s 5 % 256 = 3 ∧
      rackOk r (bitsOf 0x400000010 47 32) = true ∧ rackOk r (bitsOf 0x500000010 47 32) = false ∧ bitsOf 0x500000010 31 19 = 0) ∧
    msgTenantOk (hosted (queued qRec)) (.core 0 9 7) 5 = true ∧ hostMsgOk (hosted (queued qRec)) (.core 0 9 7) 5 = true := by decide
theorem meets_MessagesReachQueuesOrAreDropped_dropped : (let s := hosted (queued qRec); s.wf = true ∧ hostMsgOk s (.host 3) 5 = true ∧ 0x80010 / 2 ^ 19 ≠ 0 ∧ qPriv 15 = true ∧
      qEnabledBit s 17 = false ∧ qPriv 17 = false ∧ bitsOf 0x80010 31 19 ≠ 0 ∧ hostMsgOk s (.host 4) 5 = false) := by decide
/-- A descriptor image in the table at external address 2^24 × 3. -/
def tableHeld (q : Nat) (ws : List Word) : State :=
  let s : State := { tenant with regs := [(regNo 0x80 0x20, 0x03000001)] }
  placed (descAddr s q) ws s
theorem meets_DoorbellsAndDescriptorTransfers_served : (let s := { queued qRec with dbPend := [(16, true)] };
      s.wf = true ∧ cmdsRun s = true ∧ mget (fun _ => false) s.dbPend 16 = true ∧ slcRuns s (qHome 16) = true ∧ queueOf s 16 = some qRec) ∧
    (let s := { tenant with dbPend := [(524287, true)], qEnabled := [(524287, true)] };
      s.wf = true ∧ mget (fun _ => false) s.dbPend 524287 = true ∧ slcRuns s (qHome 524287) = true ∧ queueOf s 524287 = none ∧ qEnabledBit s 524287 = true) := by decide
theorem meets_DoorbellsAndDescriptorTransfers_moved : (let ws := qWords.take 7 ++ [0x80000000]; let s := { tableHeld 16 ws with qfetch := [(16, .service)] };
      qPriv 16 = false ∧ queueOf s 16 = none ∧ readDesc s 16 = (.ok, ws) ∧ ((cachedOn s (qHome 16)).filter fun e => !qPriv e.1).length < 496 ∧
      (ctxOf s (dCtx ws)).all (·.state ≠ .faulted) = true ∧ fld (wordAt ws 7) 31 30 = 2) ∧
    (let s := { tableHeld 16 qWords with qback := [(16, qWords)] }; s.wf = true ∧ qWords.length = 8) := by decide


/-! ## Registers and queue control -/

theorem meets_RegisterWritesAndCommands_rules :
    (MeshOpen firmware bench ∧ bench.wf = true ∧ regAddrOk bench 0x8000000002 false = false ∧ regAddrOk bench 0x8800000108 false = true) ∧
    (regUnit 0x8800000108 = 0x80 ∧ regOff 0x8800000108 = 0x108 ∧ setsReserved 0x80 0x108 0x10000 = true ∧ setsReserved 0x80 0x108 0xFFFF = false) ∧
    (regAddrOk bench (unitAddr 0x80 0x310) false = true ∧ regUnit (unitAddr 0x80 0x310) ≠ 0xC0 ∧ setsReserved 0x80 0x310 0 = false ∧ regDrops bench 0x80 0x310 0 = true) ∧
    (let s := after (.registerWrite (unitAddr 0x80 0x10) false 0x8000FFFF firmware) bench;
      s.wf = true ∧ MeshOpen firmware s ∧ mget (fun _ => false) bench.w1done (regNo 0x80 0x10) = false ∧ mget (fun _ => false) s.w1done (regNo 0x80 0x10) = true) := by
  unfold MeshOpen; decide
theorem meets_RegisterRowsAreWrites : bitsOf (0x40000000 : Word).toNat 31 30 = 1 ∧ bitsOf (0x80000000 : Word).toNat 31 30 = 2 ∧
    bitsOf (0x10000000 : Word).toNat 31 28 = 1 ∧ bitsOf (0x50000000 : Word).toNat 31 28 = 5 := by decide
theorem meets_RegisterWritesAndCommands_commands : (let c := { cmd 0 [0x72100000, 0, 0x00000108, 0x88, 0] with ctx := 0 }; let s := flight c;
      admittedAs s 1 0x721 = some c ∧ regAddrOk s (c.addr 2) (c.bit 4 0) = true) ∧
    (let c := { cmd 0 [0x72100000, 0, 0x00000106, 0x88, 0] with ctx := 0 }; admittedAs (flight c) 1 0x721 = some c ∧ regAddrOk (flight c) (c.addr 2) (c.bit 4 0) = false) ∧
    (let c := { cmd 0 [0x72000000, 0, 0x00000108, 0x88, 0, 20, 0] with ctx := 0 }; admittedAs (flight c) 1 0x720 = some c ∧
      regAddrOk (flight c) (c.addr 2) (c.bit 4 0) = true ∧ (regWrite (c.addr 2) (c.bit 4 0) (c.addr 5) (cmdBy c) (flight c)).1 = some .ok) ∧
    (let c := { cmd 0 [0x72000000, 0, 0x00000106, 0x88, 0, 20, 0] with ctx := 0 }; admittedAs (flight c) 1 0x720 = some c ∧
      regAddrOk (flight c) (c.addr 2) (c.bit 4 0) = false) := by decide
/-- A REG_WRITE of SLEEVE_CFG of slice 5 waits for the boundary; one of DEV_ID ends at once. -/
theorem meets_RegisterWritesAndCommands_reg_write : (let c := { cmd 0 [0x72000000, 0, 0x50000200, 0x80, 0, 0x1234, 0] with ctx := 0 }; let s := flight c; admittedAs s 1 0x720 = some c ∧
      regAddrOk s (c.addr 2) (c.bit 4 0) = true ∧ (regWrite (c.addr 2) (c.bit 4 0) (c.addr 5) (cmdBy c) s).1 = none) ∧
    (let c := { cmd 0 [0x72000000, 0, 0x00000010, 0x88, 0, 20, 0] with ctx := 0 }; let s := flight c; s.wf = true ∧ admittedAs s 1 0x720 = some c ∧ c.addr 2 = unitAddr 0x80 0x10 ∧
      c.bit 4 0 = false ∧ c.addr 5 % 2 ^ 31 < 2 ^ 16 ∧ c.addr 5 < 2 ^ 32 ∧ mget (fun _ => false) s.w1done (regNo 0x80 0x10) = false ∧
      mget (fun _ => false) ({ s with w1done := [(regNo 0x80 0x10, true)] } : State).w1done (regNo 0x80 0x10) = true) := by decide
theorem meets_QueueControlActs : (MeshOpen firmware (queued qRec) ∧ (queued qRec).wf = true ∧ regAddrOk (queued qRec) (unitAddr 0 0x60C) false = true ∧
      (8191 : Word).toNat < 8192 ∧ regAddrOk (queued qRec) (unitAddr 0 0x610) false = true ∧ queueOf (queued qRec) (0 * 8192 + (0x00010010 : Word).toNat % 8192) = some qRec ∧
      rackOk qRec ((0x00010010 : Word).toNat / 65536) = false ∧ rackOk qRec ((0x00000010 : Word).toNat / 65536) = true) ∧
    (let s : State := { queued qRec with queues := [] }; MeshOpen firmware s ∧ regAddrOk s (unitAddr 0 0x610) false = true ∧ queueOf s 16 = none ∧ qEnabledBit s 16 = true ∧
      qEnabledBit s 17 = false ∧ queueOf s 17 = none) ∧
    (regAddrOk (queued qRec) (unitAddr 63 0x600) false = true ∧ (qctlOf (queued qRec) 63).busy = none ∧ qEnabledBit (queued qRec) (63 * 8192 + 15) = false) ∧
    (let s := tableHeld 16 qWords; s.wf = true ∧ MeshOpen firmware s ∧ qdtValid s = true ∧ qEnabledBit s 16 = false ∧ queueOf s (0 * 8192 + 8191) = none) ∧
    (let s := queued qRec; qEnabledBit s 16 = true ∧ queueOf s 16 = some qRec ∧ qRec.pinned = false ∧ (qctlOf s 0).busy = none ∧
      ((cachedOn s 0).filter fun e => e.2.pinned && !qPriv e.1).length < 112 ∧ (∀ k ∈ s.contracts, k.kind = 0 → k.target ≠ 16)) ∧
    (let s : State := { queued qRec with queues := (16, some qRec) :: (List.range 112).map fun i => (17 + i, some { qRec with pinned := true }) };
      s.wf = true ∧ 112 ≤ ((cachedOn s 0).filter fun e => e.2.pinned && !qPriv e.1).length) ∧
    (let k : Contract := { kind := 0, target := 16, owner := 1, rate := 0, depth := 0, qmax := 0, bound := 0, ctx := 5, srcstop := 0, tokens := 0, backlog := 0,
                           active := true, unbinding := false, suspended := false, todo := [], stamp := 0, origin := .none };
      ∃ x ∈ ({ queued qRec with contracts := [k] } : State).contracts, x.kind = 0 ∧ x.target = 16) ∧
    (let r := { qRec with disabling := true }; let s := { queued r with qctl := [(0, { QctlRec.zero with busy := some (2, 16) })] };
      s.wf = true ∧ queueOf s 16 = some r ∧ (∀ c ∈ s.cmds, c.queue ≠ 16) ∧ (qctlOf s (qHome 16)).enWait = false ∧ (qctlOf s (qHome 16)).later = []) := by
  unfold MeshOpen; decide
/-- ENABLE of privileged queue 0, whose descriptor in the system region names a reply ring and a chain in external memory, passes its checks. -/
theorem meets_QueueControlActs_privileged : (let s : State := { tenant with mem := { Mem.zero with sys := mputList (fun _ => 0) [] (privDesc 0) (bytesOfWords [0xE0000000, 0, 0, 0x4000, 0, 0x2000, 0, 0]) } };
      s.wf = true ∧ enableCheck s 0 (readDesc s 0).2 = .ok ∧ enableCheck tenant 0 (readDesc tenant 0).2 = .decodeError) := by decide


/-! ## Memory, moving data, and near-memory compute (03, 06, 07) -/

/-- A write of one byte of an A-store bank, one of a whole 32 B W-store word, and one of a part of a word. -/
theorem meets_StoreWritesLand : State.reset.wf = true ∧ isW (bankKey 0 .a 0 0 * 524288) = false ∧
    writeAt [(bankKey 0 .a 0 0 * 524288, 7, false)] (bankKey 0 .a 0 0 * 524288) = some (7, false) ∧
    (let items : List (Nat × Byte × Bool) := (List.range 32).map fun i => (bankKey 0 .w 0 0 * 524288 + i, 1, false); isW (bankKey 0 .w 0 0 * 524288) = true ∧
      ∀ i ∈ List.range 32, (writeAt items (bankKey 0 .w 0 0 * 524288 + i)).isSome = true) ∧
    (let items : List (Nat × Byte × Bool) := [(bankKey 0 .w 0 0 * 524288, 1, false)]; unitKey (bankKey 0 .w 0 0 * 524288) ∈ unitsOf (items.map (·.1)) ∧
      writeAt items (bankKey 0 .w 0 0 * 524288 + 31) = none ∧ (foundAt State.reset (bankKey 0 .w 0 0 * 524288)).what = .clean) ∧
    (let s : State := { State.reset with mem := { Mem.zero with tag := [(bankKey 0 .w 0 0 * 524288, true)] } };
      s.wf = true ∧ (foundAt s (bankKey 0 .w 0 0 * 524288)).what = .poisoned) := by decide
theorem meets_FillCopyConvert :
    (let c := cmd 16 [0x10000000, 0, 0, 0x100, 0, 0x20, 0x01020304, 0x05060708]; let s := flight c; s.wf = true ∧ admittedAs s 1 0x100 = some c ∧
      DataReady s c ctx5 [] ∧ (opnd (c.addr 4) (c.w 3) false true).isSome = true) ∧
    (let c := cmd 16 [0x10100000, 0, 0, 0x10, 0, 0x20, 0, 0x21]; let s := flight c; s.wf = true ∧ admittedAs s 1 0x101 = some c ∧ DataReady s c ctx5 [] ∧
      (opnd (c.addr 4) (c.w 3) true false).isSome = true ∧ (opnd (c.addr 6) (c.w 3) false true).isSome = true) ∧
    (let c := cmd 16 [0x10280000, 0, 0, 4, 0, 0x20, 0, 0x21, 0x00000002]; let s := flight c; s.wf = true ∧ admittedAs s 1 0x102 = some c ∧
      DataReady s c ctx5 [] ∧ (opnd (c.addr 4) (fmtBytes (c.f 8 7 0) (c.w 3)) true false).isSome = true ∧
      (opnd (c.addr 6) (fmtBytes (c.f 8 15 8) (c.w 3)) false true).isSome = true) := by unfold DataReady DataServed Serves; decide
/-- A write-back entry of context 5 at A-store pocket 0, whole and unissued, of home port 0. -/
def entry0 : WbEntry :=
  { id := 7, home := 0, port := 0, ctx := 5, base := 0x2000000000, be := (List.range 64).map fun i => (i, 1), bad := [], acc := none, g := false, owner := none,
    takenB := 0, ep := 0, set := 0, issued := false, started := false, sb := .none, left := 1, status := .ok, lost := [], after := [], np := [], flushes := [],
    posted := true, cred := none, who := .homePort 0 0, req := 7, gLeft := 0, landed := false }
theorem meets_FillCopyConvert_waits : (let c := cmd 16 [0x10100000, 0, 0, 0x10, 0, 0x20, 0, 0x21]; let s := { flight c with wb := [{ entry0 with issued := true, sb := .shared }], nextId := 8 };
    s.wf = true ∧ admittedAs s 1 0x101 = some c ∧ DataServed s c ctx5 [] ∧ unitWaits s c.ctx (unitReads s c ctx5) = true) := by unfold DataServed Serves; decide
theorem meets_FlushRangeAndEccTest_flush : (let c := cmd 16 [0x01100000, 0, 0, 1, 0, 0x20]; let s := flight c; s.wf = true ∧ admittedAs s 1 0x011 = some c ∧ DataReady s c ctx5 [] ∧
      (s.wb.filter fun e => e.flushes.contains (.cmd 1)) = [] ∧ (flushStage s 5 (c.addr 4 % 2 ^ 40) (256 * c.w 3)).length = 0) ∧
    (let c := cmd 16 [0x01100000, 0, 0, 1, 0, 0x20]; let e := { entry0 with flushes := [.cmd 1] }; let s := { flight c with wb := [e], nextId := 8 }; s.wf = true ∧ admittedAs s 1 0x011 = some c ∧
      DataReady s c ctx5 [] ∧ (s.wb.filter fun e => e.flushes.contains (.cmd 1)) = [e] ∧ (s.wb.map WbEntry.id).Nodup ∧ ∀ e ∈ s.wb, e.id < s.nextId) := by
  unfold DataReady DataServed Serves; decide
theorem meets_FlushRangeAndEccTest_ecc :
    (let c := cmd 0 ([0x70180000, 0, 5, 0, 0, 0x10] ++ List.replicate 12 0); let s := flight c; s.wf = true ∧ admittedAs s 1 0x701 = some c ∧ ctxOf s 5 = some ctx5 ∧
      Serves s (cmdAddrSlices s 5 (2 ^ 63 + c.addr 4 % 2 ^ 40) 32) ∧ (opndStore (c.addr 4) 32 false true).isSome = true ∧ c.addr 4 % 32 = 0 ∧
      (opndStore (c.addr 4) 32 false true).all (fun r => rngCheck s ctx5 r = .ok ∧ r.st = .w ∧ isW ((r.keys s ctx5).headD 0) = true) = true ∧ (partOf s 0).secure = false) ∧
    (let c := cmd 0 ([0x70180000, 0, 5, 0, 0, 0x20] ++ List.replicate 12 0); let s := { flight c with parts := [(0, { PartRec.zero with state := .sealed, slog := 1, secure := true })] };
      s.wf = true ∧ admittedAs s 1 0x701 = some c ∧ (opndStore (c.addr 4) 32 false true).all (fun r => rngCheck s ctx5 r = .ok ∧ (r.keys s ctx5).Nodup) = true ∧
      (partOf s 0).secure = true) := by unfold Serves; decide
/-- INT32 sums saturate at both ends (03 R66). -/
theorem test_accumulate_saturates : accElem 0 0x7FFFFFFF 1 = (0x7FFFFFFF, true) ∧ accElem 0 0x80000000 0xFFFFFFFF = (0x80000000, true) ∧
    accElem 0 5 0xFFFFFFFE = (3, false) ∧ accElem 4 0xFFFFFFFF 1 = (1, false) := by decide
theorem meets_AccumulationAndReduce : (∀ i < accSize 0, isW (bankKey 0 .p 0 0 * 524288 + i) = false) ∧
    (let c := cmd 16 [0x20280000, 0, 0, 1, 1, 4, 0, 0x20, 0, 0x30]; let s := flight c; s.wf = true ∧ admittedAs s 1 0x202 = some c ∧ DataReady s c ctx5 [] ∧
      (redSrc c).isSome = true ∧ (redDst c).all (fun r => (reduceWrites s ctx5 c r).all fun k => !isW k) = true ∧ c.w 3 = 1 ∧ c.w 4 = 1 ∧ c.bit 2 28 = false) ∧
    (let c := cmd 16 [0x20280000, 0, 0x10000000, 1, 1, 4, 0, 0x20, 0, 0x30]; admittedAs (flight c) 1 0x202 = some c ∧ c.bit 2 28 = true) := by
  unfold DataReady DataServed Serves; decide
/-- A GEMV of one row and one column of 32 FP16 weights and activations. -/
def gemv1 : Cmd := cmd 16 [0x20080000, 0, 0x02020000, 0, 1, 32, 1, 32, 0, 0x20, 64, 0, 0x30, 4, 0]
theorem meets_GemvAndNmuFaults_gemv : (let s := flight gemv1; let g := gemvOf gemv1; s.wf = true ∧ admittedAs s 1 0x200 = some gemv1 ∧ DataReady s gemv1 ctx5 ((g.nmus s ctx5).map (·.1)) ∧
      g.xRng.isSome = true ∧ g.yRng.all (fun r => (gemvWrites s ctx5 g r).all fun k => !isW k) = true ∧ (gemvRows s ctx5 g).length = 1 ∧ g.ncol = 1 ∧ gemv1.after = [] ∧
      g.n = 1 ∧ gemvCheck s ctx5 g = .ok) := by unfold DataReady DataServed Serves; decide
theorem meets_GemvAndNmuFaults_faults : (let s := flight gemv1; s.wf = true ∧ s.cmds.find? (usesNmu s (0, 0)) = some gemv1 ∧ nmuMark gemv1 (0, 0) = 0 ∧ (68 : Nat) ≤ 68 ∧
      keysRise 0 (sliceOf s 0).nmuRetries = true ∧ keysRise 0 (sliceOf s 0).nmuAcc = true) ∧
    (let c := { gemv1 with after := [1024] }; (flight c).cmds.find? (usesNmu (flight c) (0, 0)) = some c ∧ nmuMark c (0, 0) = 1) ∧
    (let c := { gemv1 with after := [2048] }; 2 ≤ nmuMark c (0, 0)) := by decide
theorem meets_GemvAndNmuFaults_retire : (let s : State := { flight gemv1 with slices := [(0, { SliceRec.zero with nmuTiles := [(0, [(0, 64), (1, 65), (2, 66), (3, 67)])] })] };
      s.wf = true ∧ s.cmds.find? (usesNmu s (0, 0)) = some gemv1 ∧ nmuMark gemv1 (0, 0) < 2 ∧ (5 : Nat) < 68) := by decide
theorem meets_GemvAndNmuFaults_spares :
    4 ≤ tilesUsed { flight gemv1 with slices := [(0, { SliceRec.zero with nmuTiles := [(0, [(0, 64), (1, 65), (2, 66), (3, 67)])] })] } 0 0 := by
  show 4 ≤ Config.tileSpares 0 0 + 4; omega
/-- A GATHER_POOL of one entry into one bag, accumulated into the P-store. -/
def pool1 : Cmd := cmd 16 [0x20180000, 0, 0x00020000, 0x00080000, 1, 1, 16, 0, 0, 0x20, 0, 0x30, 128, 0, 0]
/-- The same with its output in the A-store and its sums in the P-store. -/
def pool0 : Cmd := cmd 16 [0x20180000, 0, 0x00020000, 0, 1, 1, 16, 0, 0, 0x20, 0, 0x21, 128, 0, 0x30]
set_option maxRecDepth 4000 in
theorem meets_GatherPoolPools :
    (let s := flight pool1; s.wf = true ∧ admittedAs s 1 0x201 = some pool1 ∧ pool1.after = [] ∧ DataReady s pool1 ctx5 (poolSlices s pool1 ctx5) ∧
      (poolOf pool1).idxRng.isSome = true ∧ (poolDst (poolOf pool1)).all (fun d => (poolWrites s ctx5 (poolOf pool1) d).all (fun k => !isW k) && !d.rng.ext) = true ∧
      (poolOf pool1).omode = 2 ∧ poolCheck s ctx5 (poolOf pool1) = .ok ∧ (poolEntry (poolOf pool1) (List.replicate 8 0)).isSome = true) ∧
    (let s := flight pool0; admittedAs s 1 0x201 = some pool0 ∧ DataReady s pool0 ctx5 (poolSlices s pool0 ctx5) ∧ (poolOf pool0).idxRng.isSome = true ∧
      (poolDst (poolOf pool0)).all (fun d => (poolWrites s ctx5 (poolOf pool0) d).all (fun k => !isW k) && !d.rng.ext) = true ∧ (poolOf pool0).omode ≠ 2 ∧
      poolCheck s ctx5 (poolOf pool0) = .ok) ∧
    (let c := { pool0 with after := [1] }; let s := flight c; s.wf = true ∧ admittedAs s 1 0x201 = some c ∧ c.after ≠ [] ∧ DataReady s c ctx5 [] ∧
      (poolDst (poolOf c)).isSome = true ∧ (poolOf c).outRng.isSome = true ∧ (poolOf c).nbags = 1) := by unfold DataReady DataServed Serves; decide


/-! ## Synchronisation (10) -/

/-- Context 5 with counter 3 mapped to physical 0 and lock 2 to physical 0, in the states given, and waiters. -/
def synced (k : Counter) (l : Lock) (ws : List Waiter) (c : Cmd) : State :=
  { flight c with
    ctxs := [(5, some { ctx5 with cmap := [(3, 1), (65538, 1)] })]
    sync := { counters := [(0, { k with mapped := some (5, 3) })], locks := [(0, { l with mapped := some (5, 2) })], waiters := ws } }
/-- A STRICT counter of LIMIT 10 at 4, and a REALIGN counter of epochs of 5 with period 2. -/
def strict4 : Counter := { Counter.zero with pa := 10, v := 4 }
def realign3 : Counter := { Counter.zero with realign := true, pa := 5, pb := 2, v := 3, e := 1 }
/-- A waiter of command 2 for a counter of at least 8, that takes it. -/
def waiter8 : Waiter :=
  { id := 9, lock := false, phys := 0, by_ := .cmd 2, ctx := 5, queue := 16, cond := 0, consume := true, target := 8, tmo := 5, since := 100, wake := some (4, 6), hid := 0,
    paused := none }
theorem meets_RealignCounterChanges : realign3.realign = true ∧ 1 ≤ realign3.pa ∧ realign3.v + 1 < realign3.pa ∧ realign3.pa ≤ realign3.v + 2 ∧
    ((realign3.e + 1) % 2 ^ 32) % realign3.pb = 0 ∧ ({ realign3 with e := 2 }.e + 1) % 2 ^ 32 % realign3.pb ≠ 0 ∧ 3 ≤ realign3.v ∧ realign3.v < 4 ∧ 4 < realign3.pa ∧
    realign3.pa ≤ 5 := by decide
/-- An ADD that ends an epoch at a multiple of the period puts what is left into DRIFT (10 R313). -/
theorem test_realign_epoch : changeCounter .add 4 realign3 = (.ok, 2, { realign3 with e := 2, v := 0, drift := 2 }) ∧
    changeCounter .align 7 realign3 = (.ok, 3, { realign3 with e := 7, v := 0, drift := 0 }) := by decide
theorem meets_SignalsChangeCounters :
    (let c := cmd 16 [0x30000000, 0, 0, 3, 6, 0]; let s := synced strict4 Lock.zero [] c; s.wf = true ∧ admittedAs s 1 0x300 = some c ∧ (ctxOf s 5).isSome = true ∧
      c.bit 2 29 = false ∧ counterOf s 5 (c.f 3 15 0) = some 0 ∧ Serves s [counterHome 0] ∧ (changeCounter .add 6 (getCounter s 0)).1 = .ok ∧
      (changeCounter .add 7 (getCounter s 0)).1 = .counterFault ∧ (getCounter s 0).fault = false ∧ counterOf s 5 4 = none ∧
      (changeCounter .set 11 (getCounter s 0)).1 = .decodeError) ∧
    (strict4.realign = false ∧ strict4.fault = false ∧ strict4.v + 6 ≤ strict4.pa ∧ strict4.pa < strict4.v + 7 ∧ 4 ≤ strict4.v ∧ strict4.v < 5 ∧ 10 ≤ strict4.pa ∧ strict4.pa < 11 ∧
      ({ strict4 with fault := true } : Counter).fault = true) ∧
    (let s := hosted (synced strict4 Lock.zero [] (cmd 16 [0])); s.wf = true ∧ hostMsgOk s (.host 3) 5 = true ∧ msgTenantOk s (.host 3) 5 = true ∧
      bitsOf (0x0000000700000003 : DWord).toNat 31 16 = 0 ∧ counterOf s 5 ((0x0000000700000003 : DWord).toNat % 65536) = some 0 ∧
      (changeCounter .add (bitsOf (0x0000000700000003 : DWord).toNat 63 32) (getCounter s 0)).1 = .counterFault ∧
      (changeCounter .add (bitsOf (0x0000000600000003 : DWord).toNat 63 32) (getCounter s 0)).1 = .ok) := by unfold Serves; decide
theorem meets_WaitersWaitAndEnd :
    (let c := cmd 16 [0x30100000, 0, 0x20000000, 3, 4, 0x80040006]; let s := synced strict4 Lock.zero [] c; s.wf = true ∧ admittedAs s 1 0x301 = some c ∧
      counterOf s 5 (c.f 3 15 0) = some 0 ∧ c.f 2 31 30 < 3 ∧ (getCounter s 0).realign = decide (c.f 2 31 30 = 2) ∧ c.bit 2 29 = true ∧ c.bit 5 31 = true ∧
      condHolds 0 4 (getCounter s 0) = true ∧ condHolds 0 5 (getCounter s 0) = false ∧ waiterRoom s (counterHome 0) 5 1 = true ∧ (getCounter s 0).fault = false) ∧
    (let c := cmd 16 [0x30100000, 0, 0x80000000, 3, 4, 0]; let s := synced strict4 Lock.zero [] c; admittedAs s 1 0x301 = some c ∧ c.f 2 31 30 < 3 ∧
      (getCounter s 0).realign ≠ decide (c.f 2 31 30 = 2)) ∧
    (let s := synced { strict4 with v := 8 } Lock.zero [waiter8] (cmd 16 [0]); s.wf = true ∧ (s.sync.waiters.filter fun v => !v.lock && v.phys == 0) = [waiter8] ∧
      condHolds waiter8.cond waiter8.target (getCounter s 0) = true) ∧
    (let s := synced { strict4 with v := 7 } Lock.zero [waiter8] (cmd 16 [0]); condHolds waiter8.cond waiter8.target (getCounter s 0) = false ∧
      (s.sync.waiters.filter fun v => v.id == 9) = [waiter8] ∧ waiter8.paused = none ∧ waiter8.by_ = .cmd 2 ∧ waiter8.tmo ≠ 0) ∧
    (let w := { waiter8 with paused := some 5 }; let s := synced { strict4 with v := 7 } Lock.zero [w] (cmd 16 [0]); s.sync.waiters.find? (fun v => v.id == 9) = some w) := by decide
/-- A WAIT of a queue that is being disabled, and one where its context has no entry left. -/
theorem meets_WaitersWaitAndEnd_stays :
    (let c := cmd 16 [0x30100000, 0, 0, 3, 5, 0]; let s := { synced strict4 Lock.zero [] c with queues := [(16, some { qRec with disabling := true })] }; s.wf = true ∧ admittedAs s 1 0x301 = some c ∧
      queueClosing s c.queue = true ∧ queueClosing (synced strict4 Lock.zero [] c) c.queue = false ∧ condHolds 0 5 (getCounter s 0) = false ∧ c.bit 5 31 = false ∧ c.f 5 21 0 = 0) ∧
    (let c := cmd 16 [0x30100000, 0, 0, 3, 5, 0]; let s := synced strict4 Lock.zero ((List.range 256).map fun i => { waiter8 with id := i }) c; s.wf = true ∧ admittedAs s 1 0x301 = some c ∧
      waiterRoom s (counterHome 0) 5 1 = false) := by decide +kernel
/-- A lock that another holder of context 5 has, and one that holder 1 has. -/
theorem meets_LocksAndCounterMap_locks :
    (let c := cmd 16 [0x30200000, 0, 0, 2, 1]; let free := Lock.zero; let mine := { Lock.zero with holder := some (5, 1) }; let other := { Lock.zero with holder := some (5, 2) };
      (synced strict4 free [] c).wf = true ∧ lockOf (synced strict4 free [] c) 5 (c.f 3 11 0) = some 0 ∧ admittedAs (synced strict4 free [] c) 1 0x302 = some c ∧
      (getLock (synced strict4 free [] c) 0).holder = none ∧ (getLock (synced strict4 mine [] c) 0).holder = some (5, c.f 4 15 0) ∧
      (getLock (synced strict4 other [] c) 0).holder = some (5, 2) ∧ (5, 2) ≠ (5, c.f 4 15 0) ∧ c.bit 2 31 = false ∧ waiterRoom (synced strict4 other [] c) (lockHome 0) 5 1 = true ∧
      (cmd 16 [0x30200000, 0, 0x80000000, 2, 1]).bit 2 31 = true) ∧
    (let c := cmd 16 [0x30300000, 0, 0, 2, 1]; let s := synced strict4 { Lock.zero with holder := some (5, 1) } [] c; admittedAs s 1 0x303 = some c ∧
      (getLock s 0).holder = some (5, c.f 4 15 0)) ∧
    (let c := cmd 16 [0x30300000, 0, 0, 2, 1]; let w := { waiter8 with lock := true, hid := 2 }; let s := synced strict4 { Lock.zero with holder := some (5, 1) } [w] c;
      s.wf = true ∧ admittedAs s 1 0x303 = some c ∧ (s.sync.waiters.find? fun v => v.lock && v.phys == 0) = some w ∧ w.by_ = .cmd 2) ∧
    (let c := cmd 16 [0x30400000, 0, 0, 2, 1]; let s := synced strict4 { Lock.zero with holder := some (5, 1), abandoned := true } [] c; admittedAs s 1 0x304 = some c ∧
      (getLock s 0).holder = some (5, c.f 4 15 0) ∧ (getLock (synced strict4 Lock.zero [] c) 0).holder ≠ some (5, c.f 4 15 0)) ∧
    (let c := cmd 16 [0x30400000, 0, 0, 3, 1]; let s := synced strict4 Lock.zero [] c; lockOf s 5 (c.f 3 11 0) = none ∧ admittedAs s 1 0x304 = some c) ∧
    (let s := synced strict4 { Lock.zero with holder := some (5, 1) } [waiter8] (cmd 16 [0]); s.wf = true ∧ (∀ w ∈ s.sync.waiters, w.lock = false) ∧
      (getLock s 0).holder = some (5, 1)) := by decide
theorem meets_LocksAndCounterMap_map :
    (let n : DWord := 0x4005000400000001; let s := { synced strict4 Lock.zero [] (cmd 16 [0]) with regs := [(cmapParam + 1, 10)] }; s.wf = true ∧ MeshOpen firmware s ∧
      bitsOf n.toNat 31 18 = 0 ∧ bitsOf n.toNat 63 62 = 1 ∧ cmapMalformed s n.toNat = false ∧ (ctxOf s 5).all (fun x => x.destroying = false ∧ (ctxSpan s x).has (counterHome 1) = true ∧
        (getCounter s 1).mapped = none ∧ lookupObj x 0 4 = none) = true ∧ bitsOf n.toNat 58 48 = 5 ∧ ctxOf s 6 = none) ∧
    (let n : DWord := 0x8005000300000000; let s := synced strict4 Lock.zero [] (cmd 16 [0]); bitsOf n.toNat 31 18 = 0 ∧ bitsOf n.toNat 63 62 = 2 ∧ cmapMalformed s n.toNat = false ∧
      (ctxOf s 5).all (fun x => lookupObj x 0 3 = some 0 ∧ lookupObj x 0 4 = none ∧ keysRise 0 x.cmap = true) = true ∧ objectBusy s 0 0 = false ∧
      objectBusy (synced strict4 Lock.zero [waiter8] (cmd 16 [0])) 0 0 = true) ∧
    (let s := synced strict4 Lock.zero [] (cmd 16 [0]); dbgReserved (0x0005000300000000 : DWord).toNat = false ∧
      (ctxOf { s with ctxs := [(5, some { ctx5 with dbg := false })] } (bitsOf 0x0005000300000000 58 48)).all (fun x => x.dbg = false) = true) := by unfold MeshOpen; decide


/-! ## Contexts, pockets, the weave and contracts (02, 06, 08) -/

/-- A POCKET_SET of A-store pocket `pk` of context 5. -/
def setPk (pk : Nat) (raw : Nat) : Cmd := cmd 0 [0x40000000, 0, BitVec.ofNat 32 (0x10005 + pk * 2048), BitVec.ofNat 32 raw, BitVec.ofNat 32 (raw / 2 ^ 32)]
theorem meets_PocketsAreSetAndCleared_set :
    (let c := setPk 2 { pocketA with set := 1 }.bits; let s := flight c; let sp := ctxSpan s ctx5; let p := { pocketA with set := 1 };
      s.wf = true ∧ admittedAs s 1 0x400 = some c ∧ ctxOf s 5 = some ctx5 ∧ ctx5.destroying = false ∧ storeOf (c.f 2 16 15) = some .a ∧ Serves s sp.slices ∧
      Pocket.ofBits (dwordAt c.words 3) = p ∧ ctxContract s 5 = false ∧ r40Bad s ctx5 5 .a (c.f 2 14 11) p = false ∧ settingPockets s 0 = [] ∧
      awaitsClear s sp .a p = false ∧ (ctx5.pocket .a 2).valid = false ∧ keysRise 0 ctx5.pockets = true ∧ releasedLines sp .a (ctx5.pocket .a 2) p = []) ∧
    (let c := setPk 2 1; admittedAs (flight c) 1 0x400 = some c ∧ (Pocket.ofBits (dwordAt c.words 3)).valid = false ∧ dwordAt c.words 3 ≠ 0) ∧
    (let c := setPk 2 { pocketA with base := 1, bound := 0x80000 }.bits; r40Bad (flight c) ctx5 5 .a (c.f 2 14 11) (Pocket.ofBits (dwordAt c.words 3)) = true) := by unfold Serves; decide
theorem meets_PocketsAreSetAndCleared_set_releases :
    (let c := setPk 1 0; let s := flight c; let sp := ctxSpan s ctx5; admittedAs s 1 0x400 = some c ∧ Pocket.ofBits (dwordAt c.words 3) = Pocket.zero ∧
      (ctx5.pocket .a 1).valid = true ∧ pocketInUse s 5 .a 1 1 = false ∧ pocketSpilling s 5 .a 1 = false ∧ (ctx5.pocket .a 1).state ≠ .clearing ∧ releasedLines sp .a (ctx5.pocket .a 1) Pocket.zero ≠ []) := by decide
/-- A contract of home port 0 of slice 0, for context 5. -/
def contract0 : Contract :=
  { kind := 1, target := 0, owner := 0x10000000, rate := 4096, depth := 8192, qmax := 4096, bound := 0, ctx := 5, srcstop := 0, tokens := 100, backlog := 0,
    active := true, unbinding := false, suspended := false, todo := [], stamp := 0, origin := .none }
theorem meets_PocketsAreSetAndCleared_set_contract : ctxContract { flight (setPk 1 0) with contracts := [contract0] } 5 = true := by decide
theorem meets_PocketsAreSetAndCleared_done :
    (let d := { setPk 1 0 with phase := .waiting, after := [2, 3] }; let j : ClearJob := { id := 3, todo := [(bankKey 0 .a 0 0, 128, 256)], part := 0, lines := 128 };
      let s := { flight d with clears := [j] }; s.wf = true ∧ (s.clears.find? fun k => k.id == 3) = some j ∧ (s.cmds.filter fun e => e.phase == .waiting && e.after == [2, 3]) = [d] ∧
      ctxOf s d.ctx = some ctx5 ∧ s.movers.chans = [] ∧ d.opcode = 0x400 ∧ storeOf (d.f 2 16 15) = some .a ∧ keysRise 0 ctx5.pockets = true) ∧
    (let d := { cmd 0 [0x40200000, 0, 5] with phase := .waiting, after := [2, 3] }; d.opcode = 0x402) := by decide
theorem meets_ContextsComeAndGo_create :
    (let c := { cmd 0 [0x40100000, 0, 0x00070006, 0, 0x1000, 0, 0, 0] with ctx := 6 }; let s := flight c; s.wf = true ∧ admittedAs s 1 0x401 = some c ∧ c.f 2 31 16 ≠ 0 ∧
      c.addr 4 % 4096 = 0 ∧ c.addr 6 % 4096 = 0 ∧ c.addr 4 / 2 ^ 52 = 0 ∧ c.addr 6 = 0 ∧ ctxOf s 6 = none ∧ partTakes s 0 = true ∧ (partCtxs s 0).length < 64 ∧
      createdActive s 0 7 = true ∧ partTakes s 31 = false) ∧
    (let c := { cmd 0 [0x40100000, 0, 0x00000006, 0, 0, 0, 0, 0] with ctx := 6 }; admittedAs (flight c) 1 0x401 = some c ∧ c.f 2 31 16 = 0) ∧
    (let c := cmd 0 [0x40100000, 0, 0x00070005, 1, 0, 0, 0, 0]; ctxOf (flight c) 5 = some ctx5 ∧ ctx5.destroying = false ∧ c.bit 3 0 = true ∧
      ctxOf { flight c with ctxs := [(5, some { ctx5 with destroying := true })] } 5 = some { ctx5 with destroying := true }) ∧
    (let s : State := { flight (cmd 0 [0]) with ctxs := (List.range 64).map fun i => (i + 100, some ctx5) }; s.wf = true ∧ 64 ≤ (partCtxs s 0).length) ∧
    createdActive { flight (cmd 0 [0]) with parts := [(0, { PartRec.zero with state := .sealed, active := 8 })] } 0 7 = false := by decide
set_option maxRecDepth 4000 in
theorem meets_ContextsComeAndGo_destroy :
    (let c := { cmd 0 [0x40200000, 0, 6] with ctx := 6 }; let s := flight c; s.wf = true ∧ admittedAs s 1 0x402 = some c ∧ c.after = [] ∧ ctxOf s 6 = none) ∧
    (let c := cmd 0 [0x40200000, 0, 5]; let s := flight c; admittedAs s 1 0x402 = some c ∧ ctxOf s 5 = some ctx5 ∧ ctx5.destroying = false ∧ Serves s (ctxSpan s ctx5).slices) ∧
    (let c := { cmd 0 [0x40200000, 0, 5] with after := [1] }; let x := { ctx5 with destroying := true, state := .faulted }; let s := { flight c with ctxs := [(5, some x)] };
      s.wf = true ∧ admittedAs s 1 0x402 = some c ∧ ctxOf s 5 = some x ∧ destroyQuiet s 5 x = true) ∧
    (let c := { cmd 0 [0x40200000, 0, 5] with after := [2] }; let x := { ctx5 with destroying := true, state := .faulted }; let s := { flight c with ctxs := [(5, some x)] };
      s.wf = true ∧ admittedAs s 1 0x402 = some c ∧ ctxContract s 5 = false ∧ (∀ r ∈ s.fab.reqs, r.ctx = 5 → r.gone = true)) := by unfold Serves; decide

/-- A weave table of 256 bank cycles: background slots in every group, and, where `own`, owner 1, port 0 of slice 0, in the first sleeve. -/
def table256 (own : Bool) (extra : List Word) : List Word :=
  let bg : List Word := (List.range 9).flatMap fun g => [BitVec.ofNat 32 (g * 2 ^ 28 + 63 * 2 ^ 22 + 49), BitVec.ofNat 32 (4 * 2 ^ 24 + 50 * 2 ^ 12)]
  let owners : List Word := [0, 0x10000000] ++ List.replicate 62 0
  let ents := bg ++ (if own then [BitVec.ofNat 32 (4 * 2 ^ 28 + 2 ^ 22), BitVec.ofNat 32 (15 * 2 ^ 24 + 16 * 2 ^ 12)] else []) ++ extra
  let head : Word := BitVec.ofNat 32 (2 ^ 24 + 256)
  let n : Word := BitVec.ofNat 32 (ents.length / 2)
  [head, n, 0, 0 - ((ents.foldl (· + ·) 0) + (owners.foldl (· + ·) 0) + head + n), 0, 0, 0, 0] ++ owners ++ ents
/-- WEAVE_INSTALL on slice 0 of the table at external address 0x10000, or only its check. -/
def weaveCmd (check : Word) : Cmd := cmd 0 [0x42000000, 0, 1, 0, 0x10000, 0, check]
def weaving (t : List Word) (check : Word) : State := placed 0x10000 t (flight (weaveCmd check))
set_option maxRecDepth 8000 in
theorem meets_WeavesAreChecked_reads : (let s := weaving (table256 false []) 0; s.wf = true ∧ admittedAs s 1 0x420 = some (weaveCmd 0) ∧ maskSlices ((weaveCmd 0).addr 2) = [0] ∧
    bitOf ((weaveCmd 0).addr 4) 63 = false ∧ (weaveCmd 0).addr 4 % 64 = 0 ∧ (weaveCmd 0).bit 6 0 = false ∧ (weaveCmd 1).bit 6 0 = true ∧ Serves s [0] ∧
    tableReads s ((weaveCmd 0).addr 4)) := by unfold Serves tableReads; decide +kernel
set_option maxRecDepth 8000 in
theorem meets_WeavesAreChecked_table : tableAt (weaving (table256 false []) 0) 0x10000 = table256 false [] ∧ tableBad (table256 false []) = none ∧
    tableBad ((table256 false []).set 4 1) = some (1, none) ∧ tableBad (table256 true [0x40400000, 0]) = some (6, some 10) := by decide +kernel
theorem meets_WeavesAreChecked_slice : sliceBad (weaving (table256 false []) 0) (table256 false []) 0 = none := by
  decide +kernel
/-- The floor rests on the part's fuses, which are open: of a part whose floor is not zero, a cap of zero lies below it. -/
theorem meets_WeavesAreChecked_floor (h : floorOf (weaving (table256 false []) 0) (fun n => if [0].contains n then table256 false [] else latestWeave (weaving (table256 false []) 0) n) ≠ 0) :
    (let s := weaving (table256 false []) 0; s.power.susp = false ∧ 0 < floorOf s fun n => if [0].contains n then table256 false [] else latestWeave s n) :=
  ⟨by decide, Nat.pos_of_ne_zero h⟩
theorem meets_BoundariesAndRegulator :
    (let p : PendWeave := { stamp := 1, afterB := 0, table := table256 false [], origin := .none };
      let s : State := { bench with slices := [(0, { SliceRec.zero with pendWeave := [p] })], nextId := 5 };
      s.wf = true ∧ s.bcRun = true ∧ nextBoundary s 0 = (256, true) ∧ (nextBoundary s 1) = (4000, false)) ∧
    (let p : PendSleeve := { stamp := 1, afterB := 0, value := 0x1234, origin := .none };
      let s : State := { bench with slices := [(0, { SliceRec.zero with pendSleeve := [p] })], nextId := 5 };
      s.wf = true ∧ (sliceOf s 0).pendSleeve = [p] ∧ (sliceOf s 0).pendWeave = [] ∧ p.stamp < s.nextId ∧ p.afterB < (nextBoundary s 0).1 ∧ s.bcnt < (nextBoundary s 0).1 + 4000) := by
  decide +kernel
/-- Contracts are suspended at the boundary, with a G-class request under way; and slice 0 begins a partition. -/
theorem meets_BoundariesAndRegulator_suspends :
    (let s : State := { tenant with contracts := [contract0], power := { PowerState.zero with susp := true }, ops := [{ entryOp with g := true, owner := some contract0.owner }] };
      s.wf = true ∧ s.bcRun = true ∧ (sliceOf s 0).pendSleeve = [] ∧ (∀ k ∈ s.contracts, k.todo = []) ∧ s.power.susp = true ∧
      (∃ k ∈ s.contracts, k.active = true ∧ k.suspended = false ∧ k.home = 0 ∧ some contract0.owner = some k.owner)) ∧
    (partOf tenant 0).state ≠ .absent ∧ (partOf tenant 0).first = 0 ∧ bitOf (regCfg tenant 0) 31 = true ∧ bitsOf (regCfg tenant 0) 27 24 ≤ 15 % 16 ∧
    0 < bitsOf (regCfg tenant 0) 27 24 ∧ 0 ≤ bitsOf (regCfg tenant 0) 23 20 ∧ (∃ oq < 16, oq < bitsOf (regCfg tenant 0) 27 24 ∧ bitsOf (regCfg tenant 0) 23 20 < oq) := by
  decide +kernel
theorem meets_BoundariesAndRegulator_regulator :
    (let s : State := { bench with slices := [(0, { SliceRec.zero with occ := [(8, 10240)], sent := [24], cut := 3 })] }; s.wf = true ∧ bitOf (regCfg s 0) 31 = true ∧
      bitsOf (regCfg s 0) 7 4 * (64 * groupBanks 8) ≤ mget (fun _ => 0) (sliceOf s 0).occ 8 ∧ keysRise 0 (sliceOf s 0).allow = true) ∧
    (∀ g < 9, mget (fun _ => 0) (sliceOf bench 0).occ g ≤ bitsOf (regCfg bench 0) 3 0 * (64 * groupBanks g)) ∧
    (let s : State := { bench with slices := [(0, { SliceRec.zero with occ := [(8, 7168)] })] };
      (∀ g < 9, mget (fun _ => 0) (sliceOf s 0).occ g < bitsOf (regCfg s 0) 7 4 * (64 * groupBanks g)) ∧
      bitsOf (regCfg s 0) 3 0 * (64 * groupBanks 8) < mget (fun _ => 0) (sliceOf s 0).occ 8) ∧
    bitOf (regCfg { bench with regs := [(regNo 0 0xA0C, 0x0C8008A6)] } 0) 31 = false := by decide +kernel
/-- CONTRACT_BIND of home port 0 of slice 0 for owner 1, at 4,096 bytes a frame; and its UNBIND. -/
def bindCmd (rate : Word) : Cmd := cmd 0 [0x42180000, 0, 0x20000000, 0, 0x10000000, rate, 8192, 4096, 0]
/-- A table of 32 bank cycles in which that owner has every fourth slot of the first sleeve. -/
def table32 : List Word := [0x01000020, 1, 0, 0, 0, 0, 0, 0, 0, 0x10000000] ++ List.replicate 62 0 ++ [0x40400000, 0x07004000]
def woven (c : Cmd) : State :=
  { flight c with slices := [(0, { SliceRec.zero with weave := table32 })], regs := [(portReg 0 0 8, 0x80000005)] }
theorem meets_ContractsAreBound_bind : admittedAs (woven (bindCmd 4096)) 1 0x421 = some (bindCmd 4096) ∧ (bindCmd 4096).f 2 31 30 ≠ 2 ∧
    bindReason (woven (bindCmd 4096)) (bindCmd 4096) 1 0 = none ∧ (bindCmd 4096).w 8 = 0 ∧
    bindReason (woven (bindCmd 4097)) (bindCmd 4097) 1 0 = some 7 ∧
    (let c := cmd 0 [0x42180000, 0, 0x20000000, 0, 0x10000000, 4096, 8192, 4096, 1]; bindReason (woven c) c 1 0 = none ∧ c.w 8 ≠ 0 ∧
      c.w 8 < bindBound (woven c) (c.w 4) 0 (c.f 2 18 0) (c.f 3 21 16) (c.w 7)) ∧
    (let c := cmd 0 [0x42180000, 0, 0x20000000, 0, 0x10000000, 0, 8192, 0, 0]; c.w 7 = 0) := by decide +kernel
theorem meets_ContractsAreBound_unbind : (let c := cmd 0 [0x42180000, 0, 0xA0000000, 0]; let s := { flight c with contracts := [contract0] }; admittedAs s 1 0x421 = some c ∧ c.f 2 31 30 = 2 ∧
      (∀ j ∈ s.contracts, j.kind = 1 → j.target = 0 → j = contract0) ∧ contract0.unbinding = false ∧ contract0.origin = .none) ∧
    (let k := { contract0 with active := false, todo := [0], origin := .cmd 1 }; let c := { bindCmd 4096 with phase := .waiting };
      let s := { woven c with contracts := [k], nextId := 5 };
      s.wf = true ∧ s.bcRun = true ∧ cmdOf s 1 = some c ∧ (sliceOf s 0).pendWeave = [] ∧ (sliceOf s 0).pendSleeve = [] ∧
      s.bcnt < (nextBoundary s 0).1 + Nat.max 1 (wFL (sliceOf s 0).weave) ∧ k.stamp < s.nextId) := by decide +kernel


/-! ## Reading out, darning, scrub, the seam, and power capping (06, 14, 16) -/

theorem meets_PagesAndLogsAreRead_telemetry : (let c := cmd 16 [0x51000000, 0, 0x00020005, 0, 0x8000, 0]; let s := flight c; s.wf = true ∧ admittedAs s 1 0x510 = some c ∧ ctxOf s 5 = some ctx5 ∧
      c.f 2 23 16 = 2 ∧ DestReady s c (c.addr 4) 256 256) ∧
    (let c := cmd 16 [0x51000000, 0, 0x00020005, 0, 0x00100000, 0x80000020]; destCheck (flight c) c (c.addr 4) 256 256 = .fail .boundViolation 0) ∧
    (let c := cmd 0 [0x51000000, 0, 0x00130000, 0, 0x8000, 0]; let s := flight c; admittedAs s 1 0x510 = some c ∧ c.f 2 23 16 = 0x13 ∧ qPriv c.queue = true ∧
      DestReady s c (c.addr 4) 256 256) ∧
    (let c := cmd 16 [0x51000000, 0, 0x00030000, 0, 0x8000, 0]; 2 < c.f 2 23 16 ∧ qPriv c.queue = false ∧ c.f 2 23 16 < 0x10) ∧
    (let c := { cmd 16 [0x51000000, 0, 0, 0, 0x8000, 0] with ctx := 6 }; c.f 2 23 16 ≤ 2 ∧ ctxOf (flight c) c.ctx = none) := by unfold DestReady Serves; decide
/-- One entry in the event queue of slice 2, and one in the ring and the first-error set. -/
def entryL : LogEntry := { code := 0x12, src := 1, lslice := 2, unit := 0, wkind := 0, ctx := 5, writer := 0, addr := 4, srcdev := 0, low := 0, time := 9 }
def logged (c : Cmd) : State := { flight c with log := { LogState.zero with queues := [(2, [entryL])], ring := [(7, entryL)], first := [(7, entryL)], seq := 8 } }
theorem meets_PagesAndLogsAreRead_log : (let c := cmd 0 [0x71000000, 0, 0x00000001, 7, 0x8000, 0]; let s := logged c; s.wf = true ∧ admittedAs s 1 0x710 = some c ∧ c.f 2 31 28 = 0 ∧ c.f 2 10 0 = 1 ∧
      DestReady s c (c.addr 4) 32 32 ∧ (destWrite s c (c.addr 4) (List.replicate 32 0)).1 = .ok) ∧
    (let c := cmd 0 [0x71000000, 0, 0x18000010, 0, 0x8000, 0]; let s := logged c; admittedAs s 1 0x710 = some c ∧ c.f 2 31 28 = 1 ∧ c.f 2 10 0 = 16 ∧ c.bit 2 27 = true ∧
      DestReady s c (c.addr 4) 32 32) ∧
    (let c := cmd 0 [0x71000000, 0, 0x28000000, 0, 0x8000, 0]; let s := logged c; admittedAs s 1 0x710 = some c ∧ c.f 2 31 28 = 2 ∧ DestReady s c (c.addr 4) 32 256) ∧
    (let c := cmd 0 [0x71000000, 0, 0x10000011, 0, 0x8000, 0]; c.f 2 31 28 = 1 ∧ 16 < c.f 2 10 0) := by unfold DestReady Serves; decide
theorem meets_PagesAndLogsAreRead_meter : (let c := cmd 0 [0x52000000, 0, 0x01000000, 0, 0, 0, 0x8000, 0]; let s := flight c; admittedAs s 1 0x520 = some c ∧ s.meter.queue = [] ∧
      (recordLen (c.f 2 31 24) (c.f 2 23 16)).all (fun len => destCheck s c (c.addr 6) 32 (4 * len) = .ok) = true) ∧
    recordLen 0 1 = none ∧ ({ (flight (cmd 0 [0])).meter with halted := true }).halted = true := by decide
/-- The meter runs where its digest was good; that is open (fused). -/
theorem meets_PagesAndLogsAreRead_meter_runs (h : Config.meterDigestOk = true) : (flight (cmd 0 [0])).meter.halted = false := by simp [flight, queued, tenant, bench, State.reset, MeterState.start, h]
theorem meets_PagesAndLogsAreRead_record : (let s := logged (cmd 0 [0]); s.wf = true ∧ mget (fun _ => []) s.log.queues 2 = entryL :: [] ∧ (s.log.turn + 2) % 65 = 2 ∧
    (∀ j < 2, mget (fun _ => []) s.log.queues ((s.log.turn + j) % 65) = []) ∧ ∀ q < 65, mget (fun _ => []) bench.log.queues q = []) := by decide
/-- A DARN of slice 5 by OP, bank and store. -/
def darnCmd (w2 : Word) : Cmd := cmd 0 [0x70200000, 0, w2]
/-- Slice 5 has failed, and no partition holds it. -/
def failed5 (w2 : Word) (spares : NMap SliceRec) : State := { flight (darnCmd w2) with slices := (5, { SliceRec.zero with failed := true }) :: spares }
theorem meets_DarningMapsSpares : (let s := flight (darnCmd 0x00050000); s.wf = true ∧ admittedAs s 1 0x702 = some (darnCmd 0x00050000)) ∧
    storeOf ((darnCmd 0x10050000).f 2 15 14) = none ∧ (darnCmd 0x10050000).f 2 31 28 = 1 ∧
    (let c := darnCmd 0x10058003; storeOf (c.f 2 15 14) = some .a ∧ bankValid (bankKey 5 .a 0 3) = true ∧ spareOfBank (flight c) (bankKey 5 .a 0 3) = 0 ∧
      spareFor (flight c) (bankKey 5 .a 0 3) = some 0 ∧ Serves (flight c) [5] ∧ bankValid (bankKey 5 .p 0 16) = false) ∧
    (let s : State := { flight (darnCmd 0x10058003) with slices := [(5, { SliceRec.zero with darned := [(bankKey 5 .a 0 3, 1)] })] }; s.wf = true ∧
      spareOfBank s (bankKey 5 .a 0 3) ≠ 0) ∧
    (let s : State := { flight (darnCmd 0x10058003) with slices := [(5, { SliceRec.zero with darned := (List.range 9).map fun i => (bankKey 5 .a 0 (4 + i), i + 1) })] };
      s.wf = true ∧ spareFor s (bankKey 5 .a 0 3) = none) := by unfold Serves; decide
/-- Bank cycle 49 is a background slot of every group of the reset weave. -/
theorem meets_DarningMapsSpares_background : (let c := darnCmd 0x10058003; let bank := bankKey 5 .a 0 3; bankBg (flight c) bank = false ∧
    (let s : State := { flight c with bcnt := 49 }; s.wf = true ∧ admittedAs s 1 0x702 = some c ∧ bankBg s bank = true ∧ spareFor s bank = some 0 ∧ Serves s [5] ∧
      s.cmds.filter (darnsBank bank) = [c] ∧ keysRise 0 (sliceOf s 5).darned = true ∧ keysRise 0 (sliceOf s 5).marks = true ∧ oddUnits s bank = []) ∧
    (let u := bank * 524288; let s : State := { flight c with bcnt := 49, mem := { Mem.zero with tag := [(u, true)] } };
      s.wf = true ∧ bankBg s bank = true ∧ (foundAt s u).what = .poisoned)) := by unfold Serves; decide +kernel
theorem meets_ScrubAndSeamRepair_background : (let c := cmd 0 [0x70000000, 0, 0x20000005, 1, 0, 0x30];
      (∀ s ∈ [flight c, { flight c with bcnt := 49 }], s.wf = true ∧ admittedAs s 1 0x700 = some c ∧ Serves s [0]) ∧
      (opndStore (c.addr 4) 256 false false).all (fun r => ((r.keys (flight c) ctx5).getLast?).all fun k =>
        bgNow (flight c) k = false ∧ bgNow { flight c with bcnt := 49 } k = true) = true) ∧
    (let b := bankKey 0 .a 0 0; bankScrubbed bench b = true ∧ bankBg bench b = false ∧ bankBg { bench with bcnt := 49 } b = true ∧
      bgNow { bench with bcnt := 49 } 5 = true ∧ bankBg { bench with bcnt := 49 } (bankKey 0 .w 0 0) = true ∧ slcFailed bench 0 = false) ∧
    (let c := cmd 16 [0x20100000, 0, 0, 0]; let s := flight c; opOf s 1 = none ∧ c.opcode = 0x201 ∧ poolErrors c 3 = 0 ∧
      (s.cmds.find? fun y => y.id == 1 && y.phase == .admitted) = some c ∧ poolErrors { c with after := [1027] } 3 = 1) := by unfold Serves; decide +kernel
theorem meets_DarningMapsSpares_slice : (let s := failed5 0x20050000 []; s.wf = true ∧ admittedAs s 1 0x702 = some (darnCmd 0x20050000) ∧ slcFailed s 5 = true ∧ partOfSlice s 5 = none ∧
      spareFree s 0 = true ∧ slcFailed s 4 = false) ∧
    (let s := failed5 0x20050000 ((List.range 4).map fun k => (64 + k, { SliceRec.zero with failed := true })); s.wf = true ∧ ∀ k < 4, spareFree s k = false) ∧
    (let s : State := { flight (darnCmd 0x20000000) with slices := [(0, { SliceRec.zero with failed := true })] }; slcFailed s 0 = true ∧ partOfSlice s 0 = some 0 ∧ partCtxs s 0 ≠ []) := by
  decide
/-- Slice 5 stands at (5, 0): spare 1, at (5, 2), is nearest. Slice 27 at (3, 3) is as far from spare 0 at (2, 2) as from no other. -/
theorem meets_NearestSpareIsTaken : (let s := failed5 0x20050000 []; (darnCmd 0x20050000).f 2 31 28 = 2 ∧ (darnCmd 0x20050000).f 2 21 16 = 5 ∧ partOfSlice s 5 = none ∧
      ∀ k < 4, spareFree s k = true) ∧ hops (5, 2) (5, 0) = 2 ∧ hops (2, 2) (5, 0) = 5 ∧ hops (5, 5) (5, 0) = 5 := by decide
theorem test_nearest_spare : (sliceOf (after (.darn 1) (failed5 0x20050000 [])) 5).spare = some 1 := by decide
theorem meets_ScrubAndSeamRepair_ctl : (let c := cmd 0 [0x70000000, 0, 0]; let s := flight c; s.wf = true ∧ admittedAs s 1 0x700 = some c ∧ c.f 2 31 28 = 0) ∧
    (let c := cmd 0 [0x70000000, 0, 0x10010000, 2881]; c.f 2 31 28 = 1 ∧ ¬(60 ≤ c.w 3 ∧ c.w 3 ≤ 2880)) ∧ (let c := cmd 0 [0x70000000, 0, 0x10010000, 2880]; c.f 2 17 16 = 1 ∧ c.w 3 ≤ 2880) ∧
    (let c := cmd 0 [0x70000000, 0, 0x10020000, 10]; admittedAs (flight c) 1 0x700 = some c ∧ 2 ≤ c.f 2 17 16 ∧ 10 ≤ c.w 3 ∧ c.w 3 ≤ 480) ∧
    (let c := cmd 0 [0x70000000, 0, 0x30000000, 0]; c.f 2 31 28 = 3) ∧ (let c := cmd 0 [0x70000000, 0, 0x40000000, 0]; c.f 2 31 28 = 4) ∧
    (let c := cmd 0 [0x70000000, 0, 0x20000005, 1, 0, 0x30]; let s := flight c; admittedAs s 1 0x700 = some c ∧ c.f 2 31 28 = 2 ∧ ctxOf s 5 = some ctx5 ∧ c.addr 4 % 256 = 0 ∧
      (opndStore (c.addr 4) 256 false false).all (fun r => rngCheck s ctx5 r = .ok) = true ∧ Serves s [0]) := by unfold Serves; decide
theorem meets_ScrubAndSeamRepair_patrol : bench.scrub.paused = none ∧ bankStore (bankKey 0 .a 0 0) = some .a ∧ bankValid (bankKey 0 .a 0 0) = true ∧ bench.bcRun = true ∧ Serves bench [0] ∧
    0 < lineBeats .a ∧ mget (fun _ => 0) bench.scrub.pos (bankKey 0 .a 0 0) = 0 ∧ 0 < bankBeats .a ∧
    (let s : State := { bench with scrub := { ScrubState.zero with pos := [(bankKey 0 .a 0 0, bankBeats .a - 1)] } };
      mget (fun _ => 0) s.scrub.pos (bankKey 0 .a 0 0) = 767 * lineBeats .a + (lineBeats .a - 1) ∧ keysRise 0 s.scrub.pos = true) ∧
    (let s : State := { bench with mem := { Mem.zero with owed := [5] } }; s.wf = true ∧ 5 ∈ s.mem.owed ∧ 6 ∉ s.mem.owed) ∧
    ({ bench with scrub := { ScrubState.zero with paused := some 9 } } : State).scrub.paused = some 9 := by unfold Serves; decide
theorem meets_ScrubAndSeamRepair_seam : bench.wf = true ∧ slcRuns bench 0 = true ∧ slcFailed bench 0 = false ∧ mget (fun _ => 0) (sliceOf bench 0).spareLanes (laneGroup 3 1215) < 8 ∧
    (let s : State := { bench with slices := [(0, { SliceRec.zero with spareLanes := [(laneGroup 3 1215, 8)] })] }; s.wf = true ∧
      8 ≤ mget (fun _ => 0) (sliceOf s 0).spareLanes (laneGroup 3 1215)) ∧
    opOf { bench with ops := [entryOp] } 7 = some entryOp ∧ entry0.id = 7 := by decide
theorem meets_PowerCommandsAndEstimates_commands : (let c := cmd 16 [0x50000000, 0, 0x00010005, 0x00001064]; admittedAs (flight c) 1 0x500 = some c ∧ c.f 2 15 0 ≠ 0) ∧
    (let c := cmd 0 [0x50100000, 0, 0x8000013F]; admittedAs (flight c) 1 0x501 = some c ∧ c.f 2 11 0 < 0x140) ∧
    (let c := cmd 0 [0x50100000, 0, 0x80000140]; admittedAs (flight c) 1 0x501 = some c ∧ 0x140 ≤ c.f 2 11 0 ∧ c.bit 2 31 = true) ∧
    (let c := cmd 0 [0x50100000, 0, 0x00000780]; admittedAs (flight c) 1 0x501 = some c ∧ c.f 2 11 0 ≤ 0x780 ∧ c.bit 2 31 = false) ∧
    (let c := cmd 0 [0x50200000, 0, 0x40000005, 1, 0, 0]; admittedAs (flight c) 1 0x502 = some c ∧ 4 < c.f 2 2 0) ∧
    (let c := cmd 0 [0x50200000, 0, 0x40000004, 1, 10, 0]; let s := flight c; admittedAs s 1 0x502 = some c ∧ c.f 2 2 0 ≤ 4 ∧ s.rc < dwordAt c.words 4 ∧
      dwordAt c.words 4 ≤ ({ s with rc := 10 } : State).rc ∧ s.power.lock = none ∧ s.power.trip = false ∧ s.ctl.slewing = false ∧ c.f 2 2 0 ≠ s.ctl.point) ∧
    (let c := cmd 0 [0x50200000, 0, 0x00000000, 1, 0, 0]; c.f 2 31 30 = 0) ∧
    (let k : FLock := { mode := 1, point := 0, job := 2, at_ := 0 }; let s : State := { bench with power := { PowerState.zero with lock := some k } }; s.power.lock = some k ∧ k.job ≠ 1) := by decide
/-- A CAP_SET of a part whose floor is 200 W; the floor rests on the fuses. -/
theorem meets_PowerCommandsAndEstimates_below (h : floorNow (flight (cmd 0 [0x50100000, 0, 0x140])) = 0x640) : (0x140 : Nat) < floorNow (flight (cmd 0 [0x50100000, 0, 0x140])) := by rw [h]; decide
theorem meets_PowerCommandsAndEstimates_lock : (let l : FLock := { mode := 2, point := 3, job := 1, at_ := 100 }; let c := { cmd 0 [0x50200000] with phase := .waiting };
      let s : State := { flight c with power := { PowerState.zero with lockPend := [(l, .cmd 1)] } }; s.power.lockPend = [(l, .cmd 1)] ∧ (∀ d ∈ s.cmds, d.id = 1 → d.phase = .waiting)) ∧
    (let s : State := { bench with ctl := { bench.ctl with slewing := true, target := 3 }, power := { PowerState.zero with lockWait := [.cmd 1] } }; s.ctl.slewing = true ∧ s.ctl.next = none ∧
      s.power.lockWait = [.cmd 1]) ∧
    (let s : State := { bench with ctl := { bench.ctl with slewing := true, target := 3, next := some 1 } }; s.ctl.next = some 1 ∧ 1 ≠ s.ctl.target) := by decide
theorem meets_PowerCommandsAndEstimates_estimates : bench.wf = true ∧ bench.ctl.deep ≠ 2 ∧ bench.ctl.inReset = false ∧ bench.power.capPend = [] ∧ (∃ x ∈ [105], 105 ≤ x) ∧ (∃ x ∈ [100], 100 ≤ x) ∧
    (∀ x ∈ [97], x < 98) ∧ bench.ctl.slewing = false ∧ bench.ctl.point ≠ 4 ∧ keysRise 0 bench.power.rail = true ∧
    (let s : State := { flight (cmd 0 [0x50100000, 0, 0x140]) with power := { PowerState.zero with capPend := [(0x140, true, 1)] } };
      s.wf = true ∧ s.power.capPend = [] ++ [(0x140, true, 1)] ∧ cmdOf s 1 = some (cmd 0 [0x50100000, 0, 0x140])) ∧
    (let s : State := { bench with ctl := { bench.ctl with slewing := true, target := 1 } }; s.ctl.slewing = true ∧ s.ctl.target ≠ 4) ∧
    ({ bench with power := { PowerState.zero with tripAt := some 3 } } : State).power.tripAt = some 3 := by decide
theorem meets_PowerCommandsAndEstimates_estimates_unspared : ∀ m, m < 64 → (sliceOf bench m).spare = none := by decide


/-! ## Power states, deep sleep, and the management bus (15, 18) -/

/-- The block in service with the power record of slice 5. -/
def powered (p : SlcPwr) : State := { bench with ctl := { bench.ctl with pwr := [(5, p)] } }
/-- Partition 0, of slices 0 to 7, SECURE, and the power record of slice 5. -/
def securedAt (p : SlcPwr) : State := { powered p with parts := [(0, { PartRec.zero with state := .sealed, slog := 3, secure := true })] }
/-- The normal world at slice 0. -/
def tenantWriter : RegWriter := { firmware with secure := false }
/-- Every slice in RETAIN. -/
def allRetain : State := { bench with ctl := { bench.ctl with pwr := (List.range 68).map fun n => (n, { SlcPwr.zero with st := .retain }) } }
theorem meets_SlicePowerChanges : MeshOpen firmware (powered SlcPwr.zero) ∧ MeshOpen tenantWriter (powered SlcPwr.zero) ∧ (powered { SlcPwr.zero with st := .idle }).wf = true ∧
    (let s := powered { SlcPwr.zero with st := .idle }; (pwrOf s 5).mode = .steady ∧ securePart s 5 = none ∧ (pwrOf s 5).st ≠ .run ∧ (pwrOf s 5).st ≠ .retain ∧
      entryCheck s 5 .retain = none ∧ pwrLeads (pwrOf s 5).st .retain = true) ∧
    (let s := powered { SlcPwr.zero with st := .retain }; (pwrOf s 5).st ≠ .idle ∧ entryCheck s 5 .idle = none ∧ pwrLeads (pwrOf s 5).st .idle = false) ∧
    (let s : State := { powered SlcPwr.zero with parts := [(0, { PartRec.zero with state := .sealed, slog := 3 })] };
      securePart s 5 = none ∧ (pwrOf s 5).st ≠ .off ∧ entryCheck s 5 .off = some (.boundViolation, 4, 0)) ∧
    (let s := securedAt SlcPwr.zero; s.wf = true ∧ MeshOpen tenantWriter s ∧ securePart s 5 = some 0 ∧ (pwrOf s 5).mode = .steady) ∧
    (let s := powered { SlcPwr.zero with mode := .entering .off }; s.wf = true ∧ (pwrOf s 5).mode = .entering .off) ∧
    (let s := powered { SlcPwr.zero with mode := .waking }; s.wf = true ∧ (pwrOf s 5).mode = .waking) ∧
    (let s := powered { SlcPwr.zero with mode := .prepare .idle }; (pwrOf s 5).mode = .prepare .idle ∧ (pwrOf s 5).st = .run ∧ securePart s 5 = none) := by unfold MeshOpen; decide
theorem meets_SlicePowerChanges_timers : (let s := powered SlcPwr.zero; s.wf = true ∧ timersRun s 5 = true ∧ (pwrOf s 5).tmr / 65536 = 20 ∧ (pwrOf s 5).tmr % 65536 = 50 ∧
      entryCheck s 5 .idle = none ∧ entryCheck s 5 .retain = none) ∧
    (let s : State := { powered SlcPwr.zero with contracts := [contract0] }; entryCheck s 0 .idle = some (.rejectedContract, 2, contract0.target) ∧ timersRun s 0 = true) ∧
    (let s : State := { powered SlcPwr.zero with slices := [(5, { SliceRec.zero with failed := true })] }; entryCheck s 5 .idle = some (.unitFailed, 5, 0) ∧ timersRun s 5 = true) ∧
    (let s := powered { SlcPwr.zero with mode := .prepare .retain }; slcBusy s 5 = false) ∧
    (let s : State := { powered { SlcPwr.zero with mode := .prepare .retain } with qfetch := [(5 * 8192, .service)] }; slcBusy s 5 = true) ∧
    (let s := powered { SlcPwr.zero with mode := .waking, st := .off }; (pwrOf s 5).mode = .waking ∧ s.bcRun = true ∧ (pwrOf s 5).goal = none ∧ (pwrOf s 5).waiting = []) ∧
    (let s := powered { SlcPwr.zero with mode := .waking, st := .retain, goal := some .off }; (pwrOf s 5).goal = some .off) ∧
    (let s := powered { SlcPwr.zero with mode := .waking, st := .retain, lost := [2] }; s.wf = true ∧ (pwrOf s 5).st = .retain ∧ (pwrOf s 5).lost ≠ [] ∧ (pwrOf s 5).goal = none) ∧
    (let s := powered { SlcPwr.zero with st := .off }; (pwrOf s 5).st = .off ∧ (pwrOf s 5).mode = .steady ∧ (sliceOf s 5).cutOff = false) ∧
    pwrOkLow (powered SlcPwr.zero) 5 = false := by decide
theorem meets_DeepSleepAndManagement : deepBlocker (powered SlcPwr.zero) = some 0 ∧ MeshOpen firmware allRetain ∧ MeshOpen tenantWriter allRetain ∧ deepBlocker allRetain = none ∧
    (let s : State := { allRetain with parts := [(3, { PartRec.zero with state := .sealed, secure := true })] }; MeshOpen tenantWriter s ∧ deepBlocker s = none ∧
      ((List.range 32).find? fun k => (partOf s k).state != .absent && (partOf s k).secure) = some 3) ∧
    (∀ k < 32, (partOf allRetain k).state = .absent) ∧ bench.ctl.deep ≠ 2 ∧ bench.ctl.vhvLow = false ∧ bench.ctl.dynAddr = none ∧
    mgmtRead bench (BitVec.toNat (2 : Byte)) = some (rstStat bench) ∧ ({ bench.ctl with deep := 2 } : CtlState).deep = 2 ∧
    (let c := { bench.ctl with deep := 2, deepWake := true }; c.deep = 2 ∧ c.deepWake = true ∧ c.vhvLow = false ∧ ({ c with vhvLow := true } : CtlState).vhvLow = true) := by unfold MeshOpen; decide


/-! ## Failures, resets and the test access (13, 14, 15, 18) -/

theorem meets_FailuresIsolate : (let s := flight (cmd 16 [0]); s.wf = true ∧ slcFailed s 1 = false ∧ partOfSlice s 1 = some 0 ∧ partOfSlice s 5 = none ∧ ctxOf s 5 = some ctx5 ∧ ctx5.part = 0 ∧
      ctx5.state ≠ .faulted ∧ failStopsCu 2 = true ∧ (sliceOf s 1).ivrUsed = false ∧ (sliceOf s 1).cutOff = false ∧ counterHome 4096 = 1 ∧ lockHome 256 = 1) ∧
    (let s : State := { bench with slices := [(1, { SliceRec.zero with failed := true, ivrUsed := true, cutOff := true })] }; s.wf = true ∧ slcFailed s 1 = true ∧ (sliceOf s 1).ivrUsed = true ∧
      (sliceOf s 1).cutOff = true) ∧
    (let s : State := { tenant with ctxs := [(5, some ctx5), (6, some { ctx5 with part := 1 })] }; s.wf = true ∧ ctxOf s 6 = some { ctx5 with part := 1 }) := by decide
theorem meets_ResetsAndStartUp : State.reset.ctl.phase < 5 ∧ State.reset.ctl.vhvLow = false ∧ 5 ≤ bench.ctl.phase ∧ bench.wf = true ∧ bench.ctl.held = false ∧ bench.ctl.deep = 0 ∧ 3 ≤ bench.ctl.phase ∧
    ({ bench.ctl with held := true } : CtlState).held = true ∧ MeshOpen firmware bench ∧ setsReserved 0x80 0x300 (BitVec.toNat (0x80000FFF : Word)) = false ∧
    mget (fun _ => false) bench.w1done (regNo 0x80 0x300) = false ∧ (BitVec.toNat (0x80000FFF : Word)) % 4096 ≠ 0 ∧ bitOf (BitVec.toNat (0x80000FFF : Word)) 31 = true ∧
    (BitVec.toNat (0x80000000 : Word)) % 4096 = 0 ∧ setsReserved 0x80 0x300 (BitVec.toNat (0x80000000 : Word)) = false ∧ ({ bench.ctl with cuState := 1 } : CtlState).cuState = 1 ∧ bench.ctl.cuState ≠ 1 := by
  unfold MeshOpen; decide
theorem meets_TestAccessClears : bench.ctl.inReset = false ∧ ({ bench.ctl with inReset := true } : CtlState).inReset = true := by decide
/-- FUSE_PROG acts where DEBUG_LOCK was not blown at manufacture; the fuses are open. -/
theorem meets_TestAccessClears_locked (h : Config.debugLock = false) : debugLocked bench = false := by simpa [debugLocked, bench, State.reset] using h
theorem test_release_starts_bcnt : (after .startupRelease { State.reset with bcnt := 7 }).bcnt = 0 ∧ (after .startupRelease State.reset).bcRun = true := by decide
theorem test_failure_faults : (ctxOf (after (.sliceFail 1 2) tenant) 5).map (fun x => (x.state, x.fault)) = some (.faulted, .unitFailed) := by decide


/-! ## Partitions, keys and measurements (13) -/

/-- The block in service with partition 3 as given, of slices 4 and 5. -/
def parted (r : PartRec) : State := { bench with parts := [(3, { r with first := 4, slog := 1 })] }
/-- Partition 3 in a state. -/
def pstate (st : PartState) : State := parted { PartRec.zero with state := st }
/-- Partition 3 as given, with context 5 in it, of tenant 7. -/
def housed (r : PartRec) (x : Ctx) : State := { parted r with ctxs := [(5, some { x with part := 3 })] }
/-- Partition 3 with context 5, its tenant 7 active. -/
def lively : State := housed { PartRec.zero with state := .sealed, active := 7 } ctx5
/-- The words of CONFIGURE (slices 4 and 5), SEAL, DISSOLVE, SUSPEND and ACTIVATE. -/
def partWord (op : Nat) : Word := BitVec.ofNat 32 (op * 0x10000000 + 0x42000)
theorem meets_PartitionsChange : MeshOpen firmware bench ∧ bench.wf = true ∧
    (∀ op ∈ [1, 2, 3, 4, 5], setsReserved 0x80 (0x1000 + 3 * 0x20) ((if op = 1 then partWord 1 else BitVec.ofNat 32 (op * 0x10000000)) : Word).toNat = false ∧
      partUnused ((if op = 1 then partWord 1 else BitVec.ofNat 32 (op * 0x10000000)) : Word).toNat = false) ∧
    confSpanOk (partWord 1).toNat = true ∧ confCheck bench 3 (partWord 1).toNat = none ∧ (partOf bench 3).busy = false ∧ (partOf bench 3).waitOp = none ∧
    meetsPart bench (confSpan (partWord 1).toNat) (· == .dissolving) = false ∧
    (let s : State := { bench with parts := [(4, { PartRec.zero with state := .dissolving, first := 4, slog := 1, busy := true })] }; s.wf = true ∧
      meetsPart s (confSpan (partWord 1).toNat) (· == .dissolving) = true ∧ (partOf s 3).state = .absent) ∧
    confCheck (pstate .sealed) 3 (partWord 1).toNat = some 0x80 ∧ (partOf (pstate .opened) 3).state = .opened ∧ (partOf (pstate .sealed) 3).state = .sealed ∧
    partCtxs (pstate .sealed) 3 = [] ∧ (partOf (pstate .sealed) 3).active = 0 ∧ MeshOpen tenantWriter (parted { PartRec.zero with state := .sealed, secure := true }) := by
  unfold MeshOpen; decide
theorem meets_PartitionsChange_suspend : (partOf lively 3).state = .sealed ∧ (partOf lively 3).active = 7 ∧ lively.wf = true ∧ (partOf lively 3).busy = false ∧
    ((tenantCtxs lively 3).any fun e => ctxContract lively e.1) = false ∧ ((tenantCtxs lively 3).any fun e => (!e.2.keyEn || (ctxKey lively e.2).isNone) && !(unitCmds lively [e.1]).isEmpty) = false ∧
    (let s : State := { lively with contracts := [contract0] }; ((tenantCtxs s 3).any fun e => ctxContract s e.1) = true) ∧
    (let s : State := { lively with cmds := [cmd 16 [0x20000000]] }; ((tenantCtxs s 3).any fun e => ctxContract s e.1) = false ∧
      ((tenantCtxs s 3).any fun e => (!e.2.keyEn || (ctxKey s e.2).isNone) && !(unitCmds s [e.1]).isEmpty) = true) := by decide
theorem meets_PartitionsChange_activate : (let s : State := { parted { PartRec.zero with state := .sealed } with regs := [(partReg 3 8, 7)] }; s.wf = true ∧ (partOf s 3).state = .sealed ∧
      regGet s 0 (partReg 3 8) % 65536 = 7 ∧ otherChan s 3 7 = false ∧ 7 ∉ (partOf s 3).met) ∧
    ((partOf lively 3).active ≠ 0 ∧ (partOf lively 3).active ≠ regGet lively 0 (partReg 3 8) % 65536) := by decide
theorem meets_PartitionsChange_met : (let s : State := { parted { PartRec.zero with state := .sealed, met := [7] } with regs := [(partReg 3 8, 7)] };
      7 ∈ (partOf s 3).met ∧ (readHeader s 3).1 = true ∧ (readHeader s 3).2.1 ≠ 7) ∧
    (let s : State := { housed { PartRec.zero with state := .activating, met := [7] } { ctx5 with state := .suspended } with
        regs := [(partReg 3 8, 7)], mem := { Mem.zero with extErr := [(0, 0x20)] } }; s.wf = true ∧ (partOf s 3).state = .activating ∧ regGet s 0 (partReg 3 8) % 65536 = 7 ∧
      7 ∈ (partOf s 3).met ∧ (readHeader s 3).1 = false ∧ ctxOf s 5 = some { ctx5 with part := 3, state := .suspended }) := by decide +kernel
theorem meets_PartitionsChange_ends : (let s := pstate .dissolving; s.wf = true ∧ (partOf s 3).state = .dissolving ∧ s.clears = [] ∧ (∀ q < 32, (partOf s q).waitOp = none) ∧ (partOf s 3).queued = []) ∧
    (let s := housed { PartRec.zero with state := .suspending, stopping := [5], active := 7 } ctx5; s.wf = true ∧ (partOf s 3).state = .suspending ∧ suspendQuiet s 3 = true ∧
      (partOf s 3).waitOp = none ∧ imageRecords s 3 = [] ∧ ctxOf s 5 = some { ctx5 with part := 3 }) ∧
    (let s : State := { housed { PartRec.zero with state := .suspending, stopping := [5], active := 7 } ctx5 with ops := [{ entryOp with ctx := 5 }] }; suspendQuiet s 3 = false) ∧
    (let s : State := { housed { PartRec.zero with state := .activating } { ctx5 with state := .suspended } with regs := [(partReg 3 8, 7)] }; s.wf = true ∧
      (partOf s 3).state = .activating ∧ 7 ∉ (partOf s 3).met ∧ ctxOf s 5 = some { ctx5 with part := 3, state := .suspended }) := by decide
theorem meets_KeysAndReports : (let s := lively; s.wf = true ∧ ctxOf s 5 = some { ctx5 with part := 3 } ∧ ctx5.keyEn = false) ∧
    (let s := housed { PartRec.zero with state := .sealed } { ctx5 with keyEn := true, keySlot := 9 }; ctxOf s 5 = some { ctx5 with part := 3, keyEn := true, keySlot := 9 }) ∧
    (let s : State := { lively with regs := [(regNo 0x80 (0x4000 + 4 * 5), 0x00100200)], tdi := [(2, 1)] }; s.wf = true ∧ mget (fun _ => 0) s.tdi 2 = 1 ∧ tdiOf s 5 = some 2) := by decide
theorem test_configure_opens : (let t := after (.configure 3 (partWord 1) firmware) bench; ((partOf t 3).state, (partOf t 3).first, (partOf t 3).slog)) = (.opened, 4, 1) := by decide
theorem test_suspend_ends : (let t := after (.suspendDone 3) (housed { PartRec.zero with state := .suspending, stopping := [5], active := 7 } ctx5);
    ((partOf t 3).active, (ctxOf t 5).map Ctx.state)) = (0, some .suspended) := by decide +kernel


/-! ## Ports (04) -/

/-- Ports 0 (class M), 4 (class V) and 8 (class D) of slice 0 enabled and bound to context 5, tile requests allowed at port 0. -/
def porting (s : State) : State :=
  { s with ports := [(0, { portZero 0 with state := .enabled }), (4, { portZero 4 with state := .enabled }), (8, { portZero 8 with state := .enabled })]
           regs := [(portReg 0 0 4, 0x44F08), (portReg 0 0 8, 0x80000005), (portReg 0 4 8, 0x80000005), (portReg 0 8 8, 0x80000005)] }
/-- A PP2 request of this kind at a home port of slice 0: address, tag 3, NP, ACCOP, AUX and length - 1. -/
def preq (port addr kind np accop aux len : Nat) (data : List Byte) : PortReq :=
  { slice := 0, port := port, hdr := BitVec.ofNat 128 (addr * 2 ^ 64 + 3 * 2 ^ 58 + kind * 2 ^ 54 + np * 2 ^ 51 + accop * 2 ^ 36 + aux * 65536 + len * 16), ext := 0, data := data, urg := 0
    priv := false, secure := false }
/-- The same at the mesh port of slice 0, for tenant 7's context 5, with a credit. -/
def meshReq (addr kind np len cred : Nat) (data : List Byte) : PortReq :=
  { preq 10 addr kind np 0 0 len data with ext := BitVec.ofNat 64 (5 * 2 ^ 31 + 7 * 2 ^ 15 + cred) }
/-- An open entry of port 4 that holds byte 0 of A-store pocket 0. -/
def entryP : WbEntry := { entry0 with id := 6, home := 0, port := 4, ctx := 5, base := 0x2000000000, be := [(0, 9)], acc := none, issued := false, g := false }
theorem meets_EntriesStayNumbered : EntriesNumbered { porting tenant with wb := [entryP], nextId := 7 } ∧ step { porting tenant with wb := [entryP], nextId := 7 } =
    .next { porting tenant with wb := [entryP], nextId := 7 } := ⟨by unfold EntriesNumbered; decide, rfl⟩
/-- A request's passing the checks of R89, and its reaching its port, are decided. -/
def decPasses (kind : Nat) (q : Req) (s : State) (x : Ctx) (st : Store) (p : Pocket) : Decidable (ReqPasses kind q s x st p) := by
  delta ReqPasses ReqReaches Serves; dsimp only; infer_instance
def decReaches (kind : Nat) (q : Req) (s : State) : Decidable (ReqReaches kind q s) := by delta ReqReaches Serves; infer_instance
def passes (kind : Nat) (q : Req) (s : State) (x : Ctx) (st : Store) (p : Pocket) : Bool := @decide _ (decPasses kind q s x st p)
def reaches (kind : Nat) (q : Req) (s : State) : Bool := @decide _ (decReaches kind q s)
theorem passes_iff (kind : Nat) (q : Req) (s : State) (x : Ctx) (st : Store) (p : Pocket) : ReqPasses kind q s x st p ↔ passes kind q s x st p = true :=
  (@decide_eq_true_iff _ (decPasses kind q s x st p)).symm
theorem reaches_iff (kind : Nat) (q : Req) (s : State) : ReqReaches kind q s ↔ reaches kind q s = true := (@decide_eq_true_iff _ (decReaches kind q s)).symm
/-- Port 4 with byte 0 of A-store pocket 0 in its reuse buffer, or with these write-back entries. -/
def reused (p : Nat) (es : List WbEntry) : State :=
  { porting tenant with
    ports := [(p, { portZero p with state := .enabled, reuse := [{ ctx := 5, base := 0x2000000000, data := [(0, 8)], fillB := 0 }] })], wb := es }
/-- A PP1 READ of one byte at port 4 of slice 0. -/
def pp1Req (addr : Nat) : PortReq := { preq 4 0 0 0 0 0 0 [] with hdr := BitVec.ofNat 128 addr }
theorem meets_ReadsAreServedOrWait : (let s := porting tenant; let r := preq 4 0x2000000000 0 0 0 0 3 []; s.wf = true ∧ PortPasses 0 r s ctx5 .a pocketA ∧
      KeysReached (reqOf s r) ((reqOf s r).keys s ctx5 .a pocketA) s ∧ (reqOf s r).keys s ctx5 .a pocketA ≠ [] ∧ forwardByte s 0 4 5 0x2000000000 = none) ∧
    (let s := reused 4 [entryP]; let r := preq 4 0x2000000000 0 0 0 0 0 []; s.wf = true ∧ PortPasses 0 r s ctx5 .a pocketA ∧ (reqOf s r).h.vol = false ∧
      (∀ a ∈ (reqOf s r).addrs .a, reuseByte s 0 4 5 a ≠ none ∧ forwardByte s 0 4 5 a ≠ none) ∧ accPending s 0 4 5 ((reqOf s r).addrs .a) = [] ∧ groupEntries s 0 4 5 [0x2000000000] = [] ∧
      coreOn s 0 4 = false) ∧
    (let s : State := { reused 4 [] with ops := [{ entryOp with id := 2, port := 4, ret := none }], pp1 := [(4, true)], nextId := 3 }; let r := pp1Req 0x2000000000; s.wf = true ∧
      PortPasses 0 r s ctx5 .a pocketA ∧ isPP1 s 0 4 = true ∧ (∀ o ∈ s.ops, o.id < s.nextId) ∧ (∀ a ∈ (reqOf s r).addrs .a, reuseByte s 0 4 5 a ≠ none) ∧
      (∃ o ∈ s.ops, (o.slice = 0 ∧ o.port = 4 ∧ o.ret = none) ∧ o.id < s.nextId)) ∧
    (let s := porting tenant; let r := preq 0 0x2000000000 5 0 0 0 2047 []; PortPasses 5 r s ctx5 .a pocketA ∧ (reqOf s r).keys s ctx5 .a pocketA = []) := by
  simp only [PortPasses, PortReaches, passes_iff, reaches_iff, Serves, KeysReached]; decide
theorem meets_WritesEnterTheBuffer : (let s := porting tenant; let r := preq 4 0x2000000000 1 1 0 0 3 [1, 2, 3, 4]; s.wf = true ∧ PortPasses 1 r s ctx5 .a pocketA ∧
      KeysReached (reqOf s r) ((reqOf s r).keys s ctx5 .a pocketA) s ∧ (reqOf s r).mesh = false ∧ (reqOf s r).h.np = true ∧ (reqOf s r).addrs .a ≠ []) ∧
    (let s := porting tenant; let r := preq 4 0x3000000000 2 0 1 0 3 [1, 2, 3, 4]; PortPasses 2 r s ctx5 .p pocketA ∧ (reqOf s r).h.np = false) ∧
    (let s := porting tenant; let r := preq 0 0x2000000000 4 1 0 0 2047 []; PortPasses 4 r s ctx5 .a pocketA ∧ (reqOf s r).addrs .a = []) ∧
    (let s := porting tenant; let r := meshReq 0x2000000000 1 0 3 0x400 [1, 2, 3, 4]; PortPasses 1 r s ctx5 .a pocketA ∧ (reqOf s r).mesh = true ∧ creditOk s (reqOf s r) .a 0 4 = none) := by
  simp only [PortPasses, PortReaches, passes_iff, reaches_iff, Serves, KeysReached]; decide
theorem meets_WritesEnterTheBuffer_full : (let s : State := { porting tenant with wb := (List.range 111).map fun i => { entryP with id := i, base := 0x2000001000 + 64 * i } };
      let r := preq 4 0x2000000000 1 1 0 0 127 (List.replicate 128 1); s.wf = true ∧ PortPasses 1 r s ctx5 .a pocketA ∧ KeysReached (reqOf s r) ((reqOf s r).keys s ctx5 .a pocketA) s ∧
      (reqOf s r).mesh = false ∧ ((portEntries s 0 4).filter fun e => !e.g).length + 2 = 113 ∧ (((reqOf s r).addrs .a).map fun a => a / 64 * 64).eraseDups = [0x2000000000, 0x2000000040] ∧
      (s.wb.any fun e => e.home == 0 && e.port == 4 && e.ctx == 5 && (e.base == 0x2000000000 || e.base == 0x2000000040) && !e.issued && e.acc.isNone) = false) := by
  simp only [PortPasses, PortReaches, passes_iff, reaches_iff, Serves, KeysReached]; decide +kernel
theorem meets_FlushesAndRefusals : (let s : State := { porting tenant with wb := [entryP] }; let r := preq 4 0x2000000000 3 1 0 0 0 []; s.wf = true ∧ PortPasses 3 r s ctx5 .a pocketA ∧
      flushEntries s 0 4 5 0x2000000000 256 = [entryP] ∧ flushEntries s 0 4 5 0x2000000100 256 = []) ∧
    (let s := porting tenant; let r := preq 5 0x2000000000 0 0 0 0 3 []; portsOpen s = true ∧ (reqOf s r).h.kind = 0 ∧ r.data.length = dataLen (reqOf s r).h ∧ (portOf s 0 5).state = .disabled) ∧
    (let s : State := { porting tenant with slices := [(0, { SliceRec.zero with failed := true })] }; (portOf s 0 4).state = .enabled ∧ slcFailed s 0 = true) ∧
    (let s := porting tenant; let r := { preq 4 0x2000000000 0 0 0 0 3 [] with hdr := BitVec.ofNat 128 (0x2000000000 * 2 ^ 64 + 49) }; PortReaches 0 r s ∧ (reqOf s r).h.rsvd = true) ∧
    (let s : State := { porting tenant with regs := [] }; let r := preq 4 0x2000000000 0 0 0 0 3 []; s.wf = true ∧ PortReaches 0 r s ∧ (reqOf s r).h.rsvd = false ∧
      shapeOk s 0 4 false (reqOf s r).h = true ∧ (reqOf s r).h.gta = false ∧ storeOf (regionOf (reqOf s r).h.addr) ≠ none ∧ portBound s 0 4 = false) := by
  simp only [PortPasses, PortReaches, passes_iff, reaches_iff, Serves, KeysReached]; decide


/-- A beat of the read or the entry numbered 7, of `len` bytes at the first byte of A-store pocket 0. -/
def beat7 (kind : BeatKind) (first len : Nat) : Beat :=
  { seq := 1, op := 7, req := 7, kind := kind, slice := (placeOf first).slice, group := 4, bank := (placeOf first).bankNo, items := (List.range len).map fun i => (first + i, i), g := false
    owner := none, set := 0, ep := 0, reqr := 0, src := 0, born := 0, queued := true }
/-- The only waiting beat. -/
def oneBeat (b : Beat) : State := { bench with beats := [b], nextId := 8 }
/-- The place of the first byte of A-store pocket 0 of partition 0. -/
def keyA : Nat := (locate (ctxSpan tenant ctx5) .a pocketA 0).key
/-- A read of four bytes there. -/
def readA : PortOp := { entryOp with keys := (List.range 4).map (keyA + ·), addrs := [0x2000000000, 0x2000000001, 0x2000000002, 0x2000000003], got := [], left := 1 }
/-- That beat, with these requests and entries, and nothing else that moves in the banks. -/
def serving (b : Beat) (os : List PortOp) (es : List WbEntry) : State := { oneBeat b with ops := os, wb := es }
theorem serving_only (b : Beat) (os : List PortOp) (es : List WbEntry) : OnlyBeats (serving b os es) := ⟨rfl, rfl, rfl, rfl, fun _ => rfl⟩
theorem meets_BanksServeBeats_idle : bench.bcRun = true ∧ State.reset.bcRun = false ∧ NoOwnFrames bench ∧ OnlyBeats bench ∧ bench.beats = [] :=
  ⟨rfl, rfl, by unfold NoOwnFrames; decide, ⟨rfl, rfl, rfl, rfl, fun _ => rfl⟩, rfl⟩
theorem meets_BanksServeBeats :
    (let b := { beat7 .read keyA 4 with queued := false }; let s := serving b [readA] []; b.ep ≤ 3 ∧ regulatorOk s b = true ∧ beatBlocked s b = false) ∧
    (let b := beat7 .read keyA 4; let s := serving b [readA] []; s.wf = true ∧ s.bcRun = true ∧ NoOwnFrames s ∧ b.g = false ∧ beatBlocked s b = false ∧ b.queued = true ∧
      railBlocks s b.slice = false ∧ bubbleFalls s 1 = false ∧ opOf s 7 = some readA ∧ readA.kind = .read ∧ readA.left = 1 ∧ readA.bound = none ∧ readA.suspended = false ∧ readA.fwd = [] ∧
      readA.got = [] ∧ b.items = readA.keys.zipIdx) ∧
    (let b := beat7 .read keyA 4; let s := serving b [{ readA with left := 2 }] []; beatBlocked s b = false ∧ opOf s 7 = some { readA with left := 2 } ∧ keysRise 0 readA.got = true ∧
      (b.items.map (·.2)).Nodup) ∧
    (let b := beat7 .write keyA 64; let s := serving b [] [entry0]; s.wf = true ∧ beatBlocked s b = false ∧ wbOf s 7 = some entry0 ∧ entry0.acc = none) ∧
    (let b := beat7 .accum keyA 4; let e := { entry0 with acc := some 0 }; let s := serving b [] [e]; s.wf = true ∧ beatBlocked s b = false ∧ wbOf s 7 = some e) := by
  unfold NoOwnFrames; decide
theorem meets_PortEventsAct : (let s := porting tenant; let r := preq 4 0x2000000000 1 0 0 0 3 []; portsOpen s = true ∧ (portOf s 0 4).state = .enabled ∧ (reqOf s r).h.kind = 1) ∧
    (let s := porting tenant; let r := preq 4 0x2000000000 0 0 0 0 3 []; (reqOf s r).h.kind = 0) ∧
    (let s := { porting tenant with wb := [entry0] }; wbOf s 7 = some entry0 ∧ entry0.issued = false ∧ wbOf s 8 = none) ∧
    (let e : ReuseEntry := { ctx := 5, base := 0x2000000000, data := [(0, 1)], fillB := 3 };
      let s : State := { tenant with ports := [(4, { portZero 4 with state := .enabled, reuse := [e] })] }; s.wf = true ∧ (portOf s 0 4).reuse = [e] ∧ e.ctx = 5 ∧ e.base = 0x2000000000) ∧
    (let e := { entry0 with issued := true, left := 0 }; let s := { porting tenant with wb := [e] }; s.wf = true ∧ wbOf s 7 = some e ∧ allGone s e.after = true ∧ e.np = [] ∧ e.flushes = [] ∧
      e.cred = none ∧ e.posted = true ∧ ({ e with status := .uncorrectable }).status = .uncorrectable) ∧
    (let o := { entryOp with id := 9, kind := .write, left := 1 }; let e := { entry0 with issued := true, left := 0, np := [(9, [0])], posted := false };
      let s := { porting tenant with wb := [e], ops := [o] }; opOf s 9 = some o ∧ o.kind ≠ .flush ∧ o.bound = none ∧ o.ret = none ∧ (portOf s o.slice o.port).late = none ∧ wbOf s 7 = some e) ∧
    (let o := { entryOp with id := 9, kind := .flush, left := 1 }; let e := { entry0 with issued := true, left := 0, flushes := [.op 9], posted := false };
      let s := { porting tenant with wb := [e], ops := [o] }; opOf s 9 = some o ∧ (portOf s o.slice o.port).late = none ∧ wbOf s 7 = some e) := by decide
theorem meets_PortsAndSleevesAreConfigured : (let s := porting tenant; s.wf = true ∧ MeshOpen firmware s ∧ regAddrOk s (unitAddr 0 (0x400 + 5 * 0x20)) false = true ∧ (portOf s 0 5).state = .disabled ∧
      (portOf s 0 4).state = .enabled ∧ mget (fun _ => false) s.unconn 5 = false ∧ regAddrOk s (unitAddr 0 (0x400 + 5 * 0x20 + 8)) false = true ∧
      setsReserved 0 (0x400 + 5 * 0x20 + 8) (BitVec.toNat (0x80000005 : Word)) = false ∧ ctxOf s 5 = some ctx5 ∧ (ctxSpan s ctx5).has 0 = true ∧ (partOf s 0).state ≠ .absent ∧
      (BitVec.toNat (0x80000006 : Word)) % 2048 = 6 ∧ ctxOf s 6 = none ∧ (∀ y ∈ s.contracts, ¬(y.kind = 1 ∧ y.target = 5))) ∧
    (let s : State := { porting tenant with unconn := [(5, true)] }; (portOf s 0 5).state = .disabled ∧ mget (fun _ => false) s.unconn 5 = true) ∧
    (let p := { portZero 4 with state := .draining, disWait := [.direct 0x8000000480] }; let s : State := { tenant with ports := [(4, p)] }; s.wf = true ∧ portOf s 0 4 = p ∧ portEntries s 0 4 = [] ∧
      s.ops = []) ∧
    (let p := { portZero 4 with state := .clearing, disWait := [.direct 0x8000000480], enWait := [.direct 0x8000000480] }; let s : State := { tenant with ports := [(4, p)] }; portOf s 0 4 = p ∧
      p.enWait = [0x8000000480].map Origin.direct) ∧
    (let y := { contract0 with target := 5 }; let s : State := { porting tenant with contracts := [y] }; y.kind = 1 ∧ y.target = 0 * 8192 + 5 ∧ y.unbinding = false ∧ y.origin = .none ∧ s.wf = true) := by
  unfold MeshOpen; decide
theorem meets_PortsAndSleevesAreConfigured_cfg : (let s := bench; MeshOpen firmware s ∧ regAddrOk s (unitAddr 0 0x200) false = true ∧ setsReserved 0 0x200 (BitVec.toNat (0x1234 : Word)) = false ∧ sealedSlice s 0 = false ∧
      sleeveBreaks (latestWeave s 0) (latestSleeve s 0) (BitVec.toNat (0x1234 : Word)) = false ∧ setsReserved 0x80 0x18 (BitVec.toNat (1 : Word)) = false ∧
      mget (fun _ => false) s.w1done (regNo 0x80 0x18) = false) ∧
    sealedSlice tenant 0 = true ∧ (BitVec.toNat (0x1234 : Word)) ≠ sleeveCfg tenant 0 ∧
    (let s : State := { bench with slices := [(0, { SliceRec.zero with weave := table32 })] }; sealedSlice s 0 = false ∧
      sleeveBreaks (latestWeave s 0) (latestSleeve s 0) (BitVec.toNat (0xFFFE : Word)) = true) := by unfold MeshOpen; decide +kernel
/-- A privileged request at the mesh port of slice 0. -/
def privReq (addr kind len : Nat) (data : List Byte) : PortReq := { meshReq addr kind 0 (len - 1) 0 data with priv := true, secure := true }
theorem meets_RegionsWithoutPockets : (∀ r ∈ [privReq 0x400001A008 0 4 [], privReq 0x4000000008 0 4 [], privReq 0x8 0 4 [], privReq 0x8800000108 0 4 [], privReq 0x8800000108 0 8 []],
      PortReaches 0 r bench ∧ (reqOf bench r).h.rsvd = false ∧ (reqOf bench r).h.g = false ∧ (reqOf bench r).h.gta = false ∧ (reqOf bench r).h.xform = 0 ∧ extCred (reqOf bench r).ext = 0 ∧
      shapeOk bench 0 10 false (reqOf bench r).h = true) ∧
    (∀ r ∈ [privReq 0x400001A008 1 4 [1, 2, 3, 4], privReq 0x4000000008 1 4 [1, 2, 3, 4], privReq 0x8 1 4 [1, 2, 3, 4], privReq 0x8800000108 1 4 [10, 0, 0, 0], privReq 0x8800000108 1 4 [0, 0, 1, 0]],
      PortReaches 1 r bench ∧ shapeOk bench 0 10 false (reqOf bench r).h = true) ∧
    bench.wf = true ∧ Serves bench [0] ∧ bitsOf 0x400001A008 39 36 = 4 ∧ bitsOf 0x400001A008 16 0 = 0x1A008 ∧ bitOf (regGet bench 0 (regNo 0x80 0x18)) 0 = false ∧ bitsOf 0x8 39 36 = 0 ∧
    unitAddr 0x80 0x108 = 0x8800000108 ∧ regAddrOk bench 0x8800000108 false = true ∧ leNat [10, 0, 0, 0] = 10 ∧
    regAddrOk bench 0x8000000200 false = true ∧ regUnit 0x8000000200 < 0x80 ∧ setsReserved (regUnit 0x8000000200) (regOff 0x8000000200) (leNat [0, 0, 1, 0]) = true ∧
    bitsOf 0x4000820000 35 23 ≠ 0 ∧ PortReaches 0 (privReq 0x4000800008 0 4 []) bench ∧
    PortReaches 0 (privReq 0x8000000C58 0 8 []) bench ∧ regAddrOk bench 0x8000000C58 true = true ∧ isSliceUnit (regUnit 0x8000000C58) = true ∧ regOff 0x8000000C58 % 0x40 / 8 = 3 := by simp only [PortReaches, reaches_iff, Serves]; decide
/-- Where counter and lock state and the descriptors lie in the system region is open (log entry 64); a block without contexts holds no descriptors. -/
theorem meets_RegionsWithoutPockets_shut (h : ∀ i, Config.sysSync i = false) : sysShut bench 0 0x1A008 4 = true ∧ sysShut bench 0 8 4 = false := by
  have none_ (o : Nat) : descByte bench 0 o = none := by
    unfold descByte; split
    · rename_i c b _; simp [show ctxOf bench c = none from rfl]
    · rfl
  refine ⟨by unfold sysShut; rw [show rangesMeet 0x1A008 4 0x1A000 0x4000 = true from by decide]; rfl, ?_⟩
  unfold sysShut; simp [h, none_]; decide
/-- The same request in class G. -/
def gReq (r : PortReq) : PortReq := { r with hdr := r.hdr ||| BitVec.ofNat 128 (2 ^ 53) }
/-- The port requests of a state with the contract of home port 0, whose owner the weave serves. -/
def pledged (k : Contract) : State :=
  { porting tenant with slices := [(0, { SliceRec.zero with weave := table32 })], contracts := [k] }
/-- The request is of class G and passes the checks of a pocket request. -/
def passesG (kind : Nat) (r : PortReq) (s : State) (st : Store) : Bool :=
  (reqOf s r).h.g && passes kind (reqOf s r) s ctx5 st pocketA
theorem meets_GuaranteedRequests : (let s := pledged contract0; let r := gReq (preq 0 0x2000000000 0 0 0 0 3 []); s.wf = true ∧ passesG 0 r s .a = true ∧
      Serves s (((reqOf s r).keys s ctx5 .a pocketA).map fun k => (placeOf k).slice).eraseDups ∧ contractOf s 1 0 = some contract0 ∧ contract0.suspended = false ∧ 4 ≤ contract0.tokens ∧
      ownerBacklog s contract0.owner + 4 ≤ contract0.qmax ∧ ownerServes s contract0.owner [{ store := .a, set := pocketA.set, acc := false }] [0] = true ∧ s.wb = [] ∧ (portOf s 0 0).reuse = [] ∧
      (reqOf s r).h.xform = 0) ∧
    (let s := pledged contract0; let r := gReq (preq 0 0x2000000000 1 0 0 0 3 [1, 2, 3, 4]); passesG 1 r s .a = true ∧ (reqOf s r).h.np = false) ∧
    (let s := pledged { contract0 with tokens := 3 }; contractOf s 1 0 = some { contract0 with tokens := 3 }) ∧
    (let s := pledged { contract0 with backlog := 4096 }; contract0.qmax < ownerBacklog s contract0.owner + 4) ∧
    (let s := pledged { contract0 with suspended := true }; passesG 0 (gReq (preq 0 0x2000000000 0 0 0 0 3 [])) s .a = true) ∧
    (let s := pledged contract0; passesG 0 (gReq (preq 4 0x2000000000 0 0 0 0 3 [])) s .a = true ∧ contractOf s 1 4 = none ∧
      passesG 2 (gReq (preq 4 0x3000000000 2 0 1 0 3 [1, 2, 3, 4])) s .p = true ∧ passesG 3 (gReq (preq 4 0x2000000000 3 1 0 0 0 [])) s .a = true ∧ flushHeld s 0 = false ∧
      passesG 4 (gReq (preq 0 0x2000000000 4 0 0 0 2047 [])) s .a = true ∧ passesG 5 (gReq (preq 0 0x2000000000 5 0 0 0 2047 [])) s .a = true) ∧
    (let s : State := { pledged contract0 with slices := [(0, { SliceRec.zero with weave := table32, gflush := [3] })], ops := [{ entryOp with id := 3, kind := .flush, g := true, owner := some contract0.owner }] };
      s.wf = true ∧ passesG 3 (gReq (preq 0 0x2000000000 3 1 0 0 0 [])) s .a = true ∧ flushEntries s 0 0 5 0x2000000000 256 = [] ∧ flushHeld s 0 = true) := by unfold Serves; decide +kernel
theorem meets_GuaranteedRequests_flush :
    (let s : State := { pledged contract0 with wb := (List.range 33).map fun i => { entry0 with id := i, base := 0x2000000000 + 64 * i } }; let r := gReq (preq 0 0x2000000000 3 1 0 0 8 []);
      s.wf = true ∧ passesG 3 r s .a = true ∧ 32 < mostOnSlice s (flushEntries s 0 0 5 0x2000000000 2304) ∧
      ∀ k ∈ 0 :: (flushEntries s 0 0 5 0x2000000000 2304).map (fun e => (placeOf (entryKey s e 0)).slice), flushHeld s k = false) := by decide +kernel


/-! ## Movers (11) -/

/-- Channel 0 of mover 0 of slice 0, in context 5 with counter 0 mapped to physical counter 0, with this MCH_CTL, record and program at external address 0x100. -/
def moving (ctl : Nat) (ch : Chan) (ws : List Word) (s : State) : State :=
  placed 0x100 ws { s with regs := [(chanReg 0 0 0 0, ctl)], movers := { chans := [(chanKey 0 0 0, ch)], stage := [], turns := [] } }
/-- The channel runs at that program. -/
def running : Chan := { Chan.zero with state := .running, ipc := 0x100 }
/-- A running program of this one instruction. -/
def issue (ws : List Word) : State := moving 0x805 running ws (synced strict4 Lock.zero [] (cmd 16 [0]))
/-- Serving, and a staging without a channel's entries, are decided. -/
def serves (s : State) (ns : List Nat) : Bool := ns.all fun n => slcRuns s n && !(sliceOf s n).cutOff && !slcFailed s n
theorem serves_iff (s : State) (ns : List Nat) : Serves s ns ↔ serves s ns = true := by simp [Serves, serves, and_assoc]
def stageClear (s : State) (n m c : Nat) : Bool := (stageOf s n m).all fun e => e.ch != c
theorem stageClear_iff (s : State) (n m c : Nat) : StageClear s n m c ↔ stageClear s n m c = true := by simp [StageClear, stageClear]
theorem meets_MoverProgramsRun : (let ws : List Word := [0x24000002, 3, 5, 6, 0, 0, 0, 0]; (issue ws).wf = true ∧ ChanIssues (issue ws) 0 0 0 2 ws []) ∧
    (let ws : List Word := [0x32000000, 3, 4, 0, 0, 0, 0, 0]; ChanIssues (issue ws) 0 0 0 3 ws [counterHome 0] ∧ counterOf (issue ws) 5 3 = some 0 ∧ getCounter (issue ws) 0 = { strict4 with mapped := some (5, 3) } ∧
      condHolds 0 4 strict4 = true ∧ strict4.fault = false) ∧
    (let ws : List Word := [0x30000000, 3, 5, 0, 0, 0, 0, 0]; ChanIssues (issue ws) 0 0 0 3 ws [counterHome 0] ∧ condHolds 0 5 strict4 = false ∧ waiterRoom (issue ws) 0 5 0 = true) ∧
    (let ws : List Word := [0x38000000, 3, 5, 0, 0, 0, 0, 0]; ChanIssues (issue ws) 0 0 0 3 ws [counterHome 0] ∧ strict4.realign ≠ decide (fld (wordAt ws 0) 27 26 = 2)) ∧
    (let ws : List Word := [0x30000000, 9, 5, 0, 0, 0, 0, 0]; ChanIssues (issue ws) 0 0 0 3 ws [] ∧ counterOf (issue ws) 5 9 = none) ∧
    (let ws : List Word := [0x40000000, 3, 6, 0, 0, 0, 0, 0]; ChanIssues (issue ws) 0 0 0 4 ws [counterHome 0] ∧ StageClear (issue ws) 0 0 0 ∧ (changeCounter .add 6 strict4).1 = .ok ∧
      (issue ws).sync.waiters = [] ∧ (changeCounter .add 1 { strict4 with fault := true }).1 = .counterFault) ∧
    (let ws : List Word := [0xF0000000, 0, 0, 0, 0, 0, 0, 0]; ChanIssues (issue ws) 0 0 0 15 ws [] ∧ StageClear (issue ws) 0 0 0 ∧ running.ahead = []) ∧
    (let s := moving 0x805 { running with owedHalt := some (.decodeError, 0x100) } [] (flight (cmd 16 [0])); (chanOf s 0 0 0).owedHalt = some (.decodeError, 0x100) ∧ (chanOf s 0 0 0).spills = false ∧ (chanOf s 0 0 0).ahead = [] ∧ (chanOf s 0 0 0).owed = 0 ∧ cmdsRun s = true ∧
      Serves s (0 :: cmdAddrSlices s 5 0x100 32) ∧ StageClear s 0 0 0 ∧ bitOf (regGet s 0 (chanReg 0 0 0 0x30)) 31 = false) ∧
    issueBad (issue []) 0 0 0 = some .decodeError := by simp only [ChanIssues, stageClear_iff, serves_iff]; decide
/-- That WAIT where the context has no waiter entry left. -/
def crowded : State := { issue [0x30000000, 3, 5, 0, 0, 0, 0, 0] with sync := { (issue []).sync with waiters := (List.range 256).map fun i => { waiter8 with id := i } } }
theorem meets_MoverProgramsRun_crowded : ChanIssues crowded 0 0 0 3 [0x30000000, 3, 5, 0, 0, 0, 0, 0] [counterHome 0] ∧ crowded.wf = true ∧ waiterRoom crowded 0 5 0 = false := by
  simp only [ChanIssues, serves_iff]; decide +kernel
/-- A COPY of 64 bytes from A-store pocket 1 to pocket 0, two rows. -/
def copyWords : List Word := [0x10000001, 64, 0, 0x21, 0, 0x20, 64, 64]
/-- The piece that it has read. -/
def pieceA (data : List (Byte × Bool)) (dst : Nat) : Piece :=
  { id := 3, rail := false, pc := 0x100, row := 0, byte := 0, src := 0x2100000000, dst := dst, data := data, g := false, rowEnd := true, admitB := 0, bound := none, lc := [0, 0, 0, 0], ofs := [0, 0, 0, 0] }
def retiring (data : List (Byte × Bool)) (dst : Nat) : State := moving 0x805 { running with ahead := [pieceA data dst] } copyWords (flight (cmd 16 [0]))
theorem meets_MoversMoveData : (let s := issue copyWords; let ns := pieceSlices s ctx5 0 0 0 copyWords; s.wf = true ∧ ChanIssues s 0 0 0 1 copyWords ns ∧ chanContext s 0 0 0 = (ctxOf s 5)) ∧
    (let s := moving 0x805 running copyWords (flight (cmd 16 [0])); let ns := pieceSlices s ctx5 0 0 0 copyWords; ChanIssues s 0 0 0 1 copyWords ns ∧ chanContext s 0 0 0 = some ctx5 ∧ mvKind copyWords = 0 ∧ chanTurn s 0 0 0 = true ∧
      movePending s 0 0 0 copyWords = false ∧ running.checked = false ∧ moveBad s ctx5 0 0 running copyWords = none ∧ mvLen copyWords ≠ 0 ∧ mvG copyWords = false ∧ srcOff copyWords running 1 = some 64 ∧ dstOff copyWords running 0 = some 0 ∧
      aheadRoom s 0 0 running 64 = true ∧ (opnd (dwordAt copyWords 2) 64 true false).all (fun a => !unitWaits s (chanCtx s 0 0 0) [a] &&
        unitWaits { s with wb := [{ entry0 with base := 0x2100000000, issued := true, sb := .shared }] } (chanCtx s 0 0 0) [a]) = true ∧ (opnd (dwordAt copyWords 2) 64 true false).all (fun a => (a.slices s ctx5).all (fun j => !slcFailed s j) = true ∧
        (readRng { ctx := 5, who := .nobody } ctx5 a (chanWoken s ns 0 0 0)).1 = .ok) = true) ∧
    (let ch := { running with ahead := List.replicate 32 (pieceA (List.replicate 256 (0, false)) 0x2000000000) }; aheadRoom (moving 0x805 ch copyWords (flight (cmd 16 [0]))) 0 0 ch 64 = false) ∧
    (let ws : List Word := [0x10000000, 64, 0, 0x21, 0xFFFFF, 0x20, 0, 0]; let s := moving 0x805 running ws (flight (cmd 16 [0])); moveBad s ctx5 0 0 running ws = some .boundViolation) ∧
    (let ws : List Word := [0x10000000, 0, 0, 0x21, 0, 0x20, 0, 0]; let s := moving 0x805 running ws (flight (cmd 16 [0])); moveBad s ctx5 0 0 running ws = none ∧ mvLen ws = 0) := by
  simp only [ChanIssues, serves_iff]; decide +kernel
/-- Two channels run, and channel 0 was taken last; a POCKET_SET of the source's pocket is pending; a G-class COPY has no contract. -/

theorem meets_MoversMoveData_turns : (let s0 := moving 0x805 running copyWords (flight (cmd 16 [0]));
      let s := { s0 with regs := [(chanReg 0 0 0 0, 0x805), (chanReg 0 0 1 0, 0x805)], movers := { s0.movers with chans := [(chanKey 0 0 0, running), (chanKey 0 0 1, running)], turns := [(0, 0)] } };
      s.wf = true ∧ chanTurn s 0 0 0 = false) ∧
    (let c := { setPk 1 0 with phase := .admitted }; let s := moving 0x805 running copyWords { flight (cmd 16 [0]) with cmds := [{ c with phase := .waiting }] };
      movePending s 0 0 0 copyWords = true ∧ chanTurn s 0 0 0 = true ∧ mvKind copyWords = 0) ∧
    (let ws : List Word := [0x18000001, 64, 0, 0x21, 0, 0x20, 64, 64]; let s := moving 0x805 running ws (flight (cmd 16 [0])); mvG ws = true ∧ movePending s 0 0 0 ws = false ∧
      moveBad s ctx5 0 0 running ws = some .rejectedContract) := by decide +kernel
theorem meets_MoversMoveData_retire : (let s := retiring (List.replicate 64 (7, false)) 0x2000000000; s.wf = true ∧ worksLeft s 3 = false ∧ (chanOf s 0 0 0).state = .running ∧ chanContext s 0 0 0 = some ctx5 ∧ cmdsRun s = true ∧ StageClear s 0 0 0 ∧
      (opnd 0x2000000000 64 false true).all (fun r => (r.slices s ctx5).all fun k => decide (slcRuns s k = true ∧ (sliceOf s k).cutOff = false ∧ slcFailed s k = false)) = true ∧
      storeOf (regionOf 0x2000000000) = some .a) ∧
    (let s := retiring [(7, false)] 0x2000000005; StageClear s 0 0 0 ∧ (stageOf s 0 0).length < 27 ∧ (∀ e ∈ stageOf s 0 0, e.be.length ≠ 64) ∧ 0x2000000005 / 64 = (0x2000000005 + 1 - 1) / 64) ∧
    (let s := retiring [(7, true)] 0x2000000005; (chanOf s 0 0 0).ahead = [pieceA [(7, true)] 0x2000000005]) ∧
    (let s := retiring [(7, false)] 0x8000000000000040; bitOf 0x8000000000000040 63 = true ∧ s.wf = true) ∧
    (let e : StageEntry := { id := 4, ch := 0, ctx := 5, base := 0x2000000000, be := [(5, 7)], takenC := 0 };
      let s : State := { flight (cmd 16 [0]) with movers := { chans := [], stage := [(0, [e])], turns := [] } }; s.wf = true ∧ (stageOf s 0 0).find? (fun e => e.id == 4) = some e ∧ ctxOf s 5 = some ctx5) := by
  simp only [stageClear_iff]; decide
/-- Context 5 with its key in slot 9, and pocket 0 of the A store as given; the channel is PRIV. -/
def keyed (p : Pocket) (ws : List Word) : State :=
  let x := { ctx5 with keyEn := true, keySlot := 9, pockets := [(32, p)] }
  { moving 0x4000805 running ws (flight (cmd 16 [0])) with ctxs := [(5, some x)], keys := [(9, some (7, 1))] }
def spillWords : List Word := [0x12000000, 0, 0, 0x20, 0x3000, 0, 0, 0]
def fillWords : List Word := [0x14000000, 0, 0x3000, 0, 0, 0x20, 0, 0]
theorem meets_MoversMoveData_spill : (let s := keyed pocketA spillWords; s.wf = true ∧ ChanIssues s 0 0 0 1 spillWords (ctxSpan s ctx5).slices ∧
      (chanContext s 0 0 0).all (fun x => keysRise 0 x.pockets = true ∧ imageBad s x 0 0 0 spillWords (dwordAt spillWords 4) (dwordAt spillWords 2) = none ∧ x.pocket .a 0 = pocketA) = true ∧
      wholePocket (dwordAt spillWords 2) = some (.a, 0) ∧ mvKind spillWords = 1 ∧ ctxContract s 5 = false ∧ (chanOf s 0 0 0).spilling = none ∧ (chanOf s 0 0 0).ahead = [] ∧ pocketInUse s 5 .a 0 0 = false ∧ pocketPending s 5 .a 0 = false ∧ pocketInUse { s with wb := [entry0] } 5 .a 0 0 = true) ∧
    (let s := { keyed pocketA spillWords with cmds := [setPk 0 0] }; ChanIssues s 0 0 0 1 spillWords (ctxSpan s ctx5).slices ∧ pocketPending s 5 .a 0 = true) ∧
    (let p := { pocketA with state := .spilled }; let s := keyed p fillWords; ChanIssues s 0 0 0 1 fillWords (ctxSpan s ctx5).slices ∧ mvKind fillWords = 2 ∧ pocketPending s 5 .a 0 = false ∧
      pocketPending { s with cmds := [setPk 0 0] } 5 .a 0 = true ∧
      (chanContext s 0 0 0).all (fun x => imageBad s x 0 0 0 fillWords (dwordAt fillWords 2) (dwordAt fillWords 4) = none ∧ x.pocket .a 0 = p ∧ overlapsResident s x.part 5 .a 0 p = false ∧
        awaitsClear s (ctxSpan s x) .a p = false) = true ∧ wholePocket (dwordAt fillWords 4) = some (.a, 0)) ∧
    (let s := moving 0x805 running spillWords (flight (cmd 16 [0])); imageBad s ctx5 0 0 0 spillWords (dwordAt spillWords 4) (dwordAt spillWords 2) = some .decodeError) ∧
    (let s0 := keyed pocketA spillWords; let s := { s0 with movers := { s0.movers with chans := [(chanKey 0 0 0, { running with spilling := some (5, .a, 0, 0x3000) })] } };
      s.wf = true ∧ (chanOf s 0 0 0).spilling = some (chanCtx s 0 0 0, .a, 0, 0x3000) ∧ cmdsRun s = true ∧ pocketInUse s 5 .a 0 0 = false ∧
      serves s (0 :: cmdAddrSlices s (chanCtx s 0 0 0) (chanOf s 0 0 0).ipc 32 ++ (ctxSpan s ctx5).slices) = true) ∧
    ctxContract { keyed pocketA spillWords with contracts := [contract0] } 5 = true := by simp only [ChanIssues, serves_iff]; decide +kernel
theorem meets_MoversStartAndStop : (let s := moving 0 Chan.zero [] (flight (cmd 16 [0])); s.wf = true ∧ MeshOpen firmware s ∧ regAddrOk s (unitAddr 0 0xC00) false = true ∧
      setsReserved 0 0xC00 0x40000805 = false ∧ bitsOf 0x40000805 31 30 = 1 ∧ chanCtxOk s 0 (0x40000805 % 2048) = true ∧ bitOf 0x40000805 28 = false ∧ (chanOf s 0 0 0).state = .idle ∧
      chanCtxOk s 0 (0x40000806 % 2048) = false ∧ bitOf 0x40000005 11 = false ∧ bitOf 0x50000805 28 = true ∧
      (extRead s (chanReg8 s 0 0 0 0x28 % 2 ^ 52) 64).any (·.2) = false ∧ extStatus s (chanReg8 s 0 0 0 0x28 % 2 ^ 52) 64 = .ok) ∧
    (let s := moving 0x805 running [] (flight (cmd 16 [0])); (chanOf s 0 0 0).state ≠ .idle ∧ (chanOf s 0 0 0).state ≠ .halted ∧ 0x40000806 % 2 ^ 29 ≠ chanCtl s 0 0 0 % 2 ^ 29 ∧
      0x80000805 % 2 ^ 29 = chanCtl s 0 0 0 % 2 ^ 29 ∧ (chanOf s 0 0 0).owed = 0 ∧ bitsOf 0x80000805 31 30 = 2 ∧ setsReserved 0 0xC00 0x80000805 = false ∧ (chanOf s 0 0 0).ahead = []) ∧
    (let s := moving 0x805 { running with state := .stopping, stopWait := [.direct 0x8000000C00] } [] (flight (cmd 16 [0])); (chanOf s 0 0 0).state = .stopping ∧ (chanOf s 0 0 0).spills = false ∧ (chanOf s 0 0 0).ahead = [] ∧
      StageClear s 0 0 0 ∧ (chanOf s 0 0 0).stopWait = [0x8000000C00].map Origin.direct ∧ (chanOf s 0 0 0).startWait = [] ∧ bitOf 0x60000805 29 = true) := by simp only [MeshOpen, stageClear_iff]; decide
theorem meets_MoverParametersHold : (let s := moving 0x805 running [] (flight (cmd 16 [0])); s.wf = true ∧ MeshOpen firmware s ∧
      (∀ off ∈ [0x08, 0x0C, 0x28, 0x2C, 0x30, 0], regAddrOk s (unitAddr 0 (0xC00 + off)) false = true ∧ setsReserved 0 (0xC00 + off) 0x200 = false) ∧
      regGet s 0 (regNo 0 0xC08) = 0 ∧ 0x200 % 2 ^ 29 ≠ regGet s 0 (regNo 0 0xC00) % 2 ^ 29) ∧
    (let s := moving 0 Chan.zero [] (flight (cmd 16 [0])); (chanOf s 0 0 0).state = .idle ∧ chanCtxOk s 0 (0x805 % 2 ^ 11) = true ∧ ctxOf s (0x806 % 2 ^ 11) = none ∧ setsReserved 0 0xC00 0x805 = false) := by
  simp only [MeshOpen]; decide
theorem test_loop_steps : (let ws : List Word := [0x24400002, 3, 5, 6, 0, 0, 0, 0]; let t := after (.loop 0 0 0) (issue ws); ((chanOf t 0 0 0).lc, (chanOf t 0 0 0).ofs, (chanOf t 0 0 0).ipc)) =
    ([0, 2, 0, 0], [5, 6, 0, 0], 2 ^ 64 + 0x100 - 64 - 2 ^ 64) := by decide
theorem test_wait_consumes : (getCounter (after (.moverWait 0 0 0) (issue [0x32000000, 3, 4, 0, 0, 0, 0, 0])) 0).v = 0 := by decide


/-! ## Rack memory (12) -/

/-- The device is number 9, of the domain of 8 to 15. -/
def racked (s : State) : State := { s with regs := [(regNo 0x80 0x10, 0x80000009), (regNo 0x80 0x100, 0x00080001), (regNo 0x80 0x104, 15)] }
/-- A CREDIT_REQUEST: OP, RSV, store A pocket 0, window. -/
def creditCmd (w2 w4 w5 : Word) : Cmd := cmd 16 [0x60000000, 0, w2, 0x000B0005, w4, w5, 0, 0, 0x8000, 0]
/-- A held credit of device 11's A-store pocket 0, handle 0x401. -/
def held11 : Held := { part := 0, ctx := 5, dev := 11, handle := 0x401, words := [0x401, 0x000B0005, 0x82000000, 0x100000, 1, 0, 0, 0] }
/-- The state with outward requests, held credits, and grants. -/
def fab (reqs : List FabReq) (held : List Held) (grants : List Grant) (deferred : List Deferral) (s : State) : State :=
  { racked s with fab := { grants := grants, deferred := deferred, served := [], held := held, reqs := reqs } }
/-- REMOTE_WRITE and REMOTE_READ of 64 bytes of pocket 1 here and of that pocket there. -/
def remoteW (cred : Word) : Cmd := cmd 16 [0x60100000, 0, 0, 64, 0, 0x21, 0, 0x2C020, cred, 5]
def remoteR (cred : Word) : Cmd := cmd 16 [0x60200000, 0, 0, 64, 0, 0x2C020, 0, 0x21, cred, 5]
theorem meets_SourcesSendRequests : (let c := creditCmd 0 0x80000000 1; let s := fab [] [] [] [] (flight c); s.wf = true ∧ admittedAs s 1 0x600 = some c ∧ ctxOf s 5 = some ctx5 ∧ c.f 2 31 30 = 0 ∧
      c.f 4 31 30 ≠ 0 ∧ c.f 5 6 0 = 1 ∧ fabReach s 11 = true ∧ destCheck s c (c.addr 8) 32 32 = .ok) ∧
    (let c := creditCmd 0 0 1; c.f 2 31 30 = 0 ∧ c.f 4 31 30 = 0) ∧ (let c := creditCmd 0x80000000 0 0; c.f 2 31 30 = 2) ∧
    (let c := { creditCmd 0 0x80000000 1 with ctx := 6 }; ctxOf (fab [] [] [] [] (flight c)) c.ctx = none) ∧
    (let c := { creditCmd 0 0x80000000 1 with words := (creditCmd 0 0x80000000 1).words.set 8 0x8001 }; destCheck (fab [] [] [] [] (flight c)) c (c.addr 8) 32 32 = .fail .decodeError 0) ∧
    (let c := { creditCmd 0 0x80000000 1 with words := ((creditCmd 0 0x80000000 1).words.set 8 0).set 9 0x80000020 }; let s0 := fab [] [] [] [] (flight c);
      let s : State := { s0 with ctxs := [(5, some { ctx5 with pockets := [(32, { pocketA with state := .spilled })] })] }; s.wf = true ∧ admittedAs s 1 0x600 = some c ∧
      destCheck s c (c.addr 8) 32 32 = .spilled ∧ (let d := { c with words := c.words.set 8 0x00100000 }; destCheck s0 d (d.addr 8) 32 32 = .fail .boundViolation 0)) ∧
    fabReach (flight (creditCmd 0 0x80000000 1)) 11 = false ∧
    ((List.replicate 256 held11).filter fun h => h.part == ctx5.part).length = 256 ∧
    (let c := remoteW 0x401; let s := fab [] [held11] [] [] (flight c); s.wf = true ∧ admittedAs s 1 0x601 = some c ∧ ctxOf s 5 = some ctx5 ∧ ctxActive s 5 = true ∧
      serves s (dataSlices s c ctx5 []) = true ∧ unitWaits s c.ctx (unitReads s c ctx5) = false ∧ c.gcls = false ∧ heldFor s c ctx5 (c.addr 6) (c.w 3) = some held11 ∧ (opndStore (c.addr 4) (c.w 3) true false).isSome = true) ∧
    (let c := remoteW 0x402; heldFor (fab [] [held11] [] [] (flight c)) c ctx5 (c.addr 6) (c.w 3) = none) ∧
    (let c := remoteR 0; let s := fab [] [] [] [] (flight c); admittedAs s 1 0x602 = some c ∧ c.f 8 14 0 = 0 ∧ serves s (dataSlices s c ctx5 []) = true ∧ unitWaits s c.ctx (unitReads s c ctx5) = false) := by decide +kernel
/-- An outward request of the command or the port request numbered 1, to device 11, under TAG or REQID 5. -/
def out11 (k : FabKind) (o : Origin) : FabReq :=
  { id := 30, kind := k, origin := o, dev := 11, ctx := 5, part := 0, home := 0, port := 0, tag := 5, tslice := 64, handle := 0x401, off := 0, len := 64, sent := true, sentAt := 0
    route := 0, words := [], data := [], poison := [], got := [], deferred := false, gone := false, noWait := false, since := 0, tmo := 0, grec := 0x8000, gvid := none, win := 1, paused := none }
/-- A credit message from device 11 to this device, and a frame with these side words. -/
def message (m : CMsg) (data : List Byte) : Frame := { port := 0, prot := false, words := routeWord 9 0 0 2 :: { m with srcdev := 11 }.words, data := data, poison := data.map fun _ => false }
def fabFrame (ftype : Nat) (ws : List Word) (data : List Byte) : Frame := { port := 0, prot := false, words := routeWord 9 0 0 ftype :: ws, data := data, poison := data.map fun _ => false }
/-- Command 1 waits for its outward request. -/
def awaits (k : FabKind) : State := fab [out11 k (.cmd 1)] [] [] [] (flight { remoteW 0x401 with phase := .waiting })
theorem meets_AnswersReachTheirRequests : (let s := awaits .grant; let f := message { CMsg.zero with ckind := 9, reqid := 5, handle := 0x401 } []; s.wf = true ∧ messageOf s .grant 5 = some (out11 .grant (.cmd 1)) ∧
      serves s [0] = true ∧ portsOpen s = true ∧ f.port < s.nfab ∧ frType f = 2 ∧ fld (frRoute f) 5 0 = 0 ∧ fld (frRoute f) 31 16 = devId s ∧ devIdValid s = true ∧ domValid s = true ∧ frRes f = false ∧
      creditClean f = true ∧ (cmsgOf f.words).ckind = 9 ∧ (cmsgOf f.words).reqid = 5 ∧ (cmsgOf f.words).status = 0) ∧
    (let s := awaits .renew; messageOf s .renew 5 = some (out11 .renew (.cmd 1))) ∧ (let s := awaits .release; messageOf s .release 5 = some (out11 .release (.cmd 1)) ∧ statusOf 0 ≠ .unitFailed) ∧
    (∀ k ∈ [9, 10, 11, 12], let f := message { CMsg.zero with ckind := k, reqid := 5 } []; creditClean f = true ∧ (cmsgOf f.words).ckind = k) ∧
    (let f := fabFrame 1 [0x14020000, 0, 0, 0, 0, 0] []; let s := awaits .pieceWrite; frType f = 1 ∧ zeroFields f [(1, 15, 12), (2, 31, 0), (3, 31, 0), (4, 31, 0), (5, 31, 0), (6, 31, 0)] = true ∧ frRes f = false ∧
      frSlice f < 8 ∧ answered s 0 5 = [out11 .pieceWrite (.cmd 1)] ∧ flag (wordAt f.words 1) 17 = true ∧ fld (wordAt f.words 1) 31 26 = 5 ∧ cmdOf s 1 = some { remoteW 0x401 with phase := .waiting } ∧
      serves s (answerSlices s (out11 .pieceWrite (.cmd 1))) = true ∧ (∀ y ∈ s.fab.reqs, y.sent = true)) ∧
    (let s : State := fab [out11 .portRead (.op 7)] [] [] [] { tenant with ops := [entryOp] }; opOf s 7 = some entryOp ∧ entryOp.ret = none ∧ answered s 0 5 = [out11 .portRead (.op 7)]) ∧
    (let f := fabFrame 3 [0x2000000B, 0x000700A0, 0x00050003, 4, 0, 0] []; zeroFields f [(1, 28, 28), (1, 19, 16), (2, 4, 0), (5, 31, 0), (6, 31, 0)] = true ∧ flag (wordAt f.words 1) 29 = true ∧
      messageOf (awaits .signal) .signal (fld (wordAt f.words 3) 31 16) = some (out11 .signal (.cmd 1))) := by decide +kernel
/-- A grant of A-store pocket 0 to device 11. -/
def grant1 : Grant :=
  { part := 0, index := 1, srcdev := 11, tenant := 7, tctx := 5, store := 2, pocket := 0, scope := [0], win := 1, reserved := false, expiry := 0, live := true, failed := false, landed := [], ends := [] }
/-- The same pocket of context 5 reachable from other devices. -/
def reachable (s : State) : State := { s with ctxs := [(5, some { ctx5 with pockets := [(32, { pocketA with remote := true })] })] }
def grantMsg (win : Nat) (rsv : Bool) : Frame := message { CMsg.zero with ckind := 1, tenant := 7, tctx := 5, reqid := 5, tstore := 2, tpocket := 0, win := win, rsv := rsv } []
def deferral1 : Deferral := { part := 0, srcdev := 11, tenant := 7, tctx := 5, store := 2, pocket := 0, win := 1, life := 0, reqid := 5, tslice := 0, since := 0 }
theorem meets_TargetsServeRequests : (let s := fab [] [] [] [] (reachable tenant); s.wf = true ∧ creditClean (grantMsg 1 false) = true ∧ domLo s ≤ 11 ∧ 11 ≤ domHi s ∧ (ctxOf s 5).isSome = true ∧
      serves s [keeperSlice s 0] = true ∧ storeOf 2 = some .a ∧ grantFits s 0 1 [0] = true ∧ (cmsgOf (grantMsg 1 false).words).tctx = 5 ∧ (cmsgOf (grantMsg 1 false).words).tenant = 7 ∧
      (ctxOf s 5).all (fun x => x.pocket .a 0 = { pocketA with remote := true }) = true ∧ ctxOf s 6 = none) ∧
    (let s := fab [] [] [{ grant1 with index := 1, win := 64 }, { grant1 with index := 2, win := 64 }, { grant1 with index := 3, win := 64 }, { grant1 with index := 4, win := 64 }] [] (reachable tenant);
      grantFits s 0 64 [0] = false ∧ (s.fab.deferred.filter fun d => d.part == 0).length < 1024) ∧
    (let k := { contract0 with target := 10, owner := 0x1000A000 }; let s : State := { fab [] [] [] [] (reachable tenant) with contracts := [k] };
      rsvContract s (cmsgOf (grantMsg 0 true).words) 0 [0] = some k ∧ (usedIndices s 0).length < 1023) ∧
    (let f := { grantMsg 1 false with words := routeWord 10 0 0 2 :: (grantMsg 1 false).words.drop 1 }; fld (frRoute f) 31 16 ≠ 9) ∧
    (let s := fab [] [] [grant1] [] (reachable tenant); anyGrant s 1 = some grant1 ∧ holds grant1 { CMsg.zero with srcdev := 11, tenant := 7, tctx := 5 } = true ∧ grantExpired s grant1 = false ∧
      OneGrant 0 1 grant1 s ∧ anyGrant s 2 = none ∧ ({ grant1 with expiry := 5 }).expiry ≠ 0) ∧
    (let s := fab [] [] [] [deferral1] (reachable tenant); keysRise 0 s.fab.served = true ∧ nextServed s 0 = some deferral1 ∧ serves s [keeperSlice s 0] = true ∧
      (deferral1.place s).all (fun e => e.1.state ≠ .faulted ∧ e.1.destroying = false ∧ e.2.2.valid = true ∧ e.2.2.remote = true ∧ e.2.2.state = .resident) = true) ∧ nextServed tenant 0 = none ∧
    (let s0 := fab [] [] [] [deferral1] (reachable tenant); let s := { s0 with ctxs := s0.ctxs.map fun e => (e.1, e.2.map fun x => { x with state := .faulted }) }; keysRise 0 s.fab.served = true ∧ s.wf = true ∧
      nextServed s 0 = some deferral1 ∧ serves s [keeperSlice s 0] = true ∧ (deferral1.place s).any (fun e => e.1.state = .faulted) = true) ∧
    (let r := { out11 .grant (.cmd 1) with deferred := true, tmo := 4 }; let s := fab [r] [] [] [] (flight { remoteW 0x401 with phase := .waiting }); deferredReq s 30 = some r ∧ s.sync.waiters = []) ∧
    (let r := { out11 .grant (.cmd 1) with deferred := true, paused := some 7 }; deferredReq (fab [r] [] [] [] (flight (remoteW 0x401))) 30 = some r) := by
  unfold OneGrant; decide +kernel
/-- A request frame from device 11 to slice 0: its header, tenant and context. -/
def reqFrame (kind : Nat) (vol : Nat) (res : Nat) (data : List Byte) : Frame :=
  let h : BitVec 128 := BitVec.ofNat 128 (0x2000000000 * 2 ^ 64 + 3 * 2 ^ 58 + kind * 2 ^ 54 + vol * 2 ^ 52 + 3 * 16); let e : DWord := BitVec.ofNat 64 (11 * 2 ^ 48 + 5 * 2 ^ 31 + 7 * 2 ^ 15)
  { port := 0, prot := false, words := routeWord 9 res 0 0 :: [h.extractLsb' 0 32, h.extractLsb' 32 32, h.extractLsb' 64 32, h.extractLsb' 96 32, e.extractLsb' 0 32, e.extractLsb' 32 32]
    data := data, poison := data.map fun _ => false }
theorem meets_TargetsServeRequests_frames : (let s := fab [] [] [] [] (reachable tenant); let f := reqFrame 0 1 0 []; frType f = 0 ∧ fld (frRoute f) 5 0 = 0 ∧ frRes f = false ∧ extSrcdev (frameExt f) = 11 ∧
      passes 0 (frameReq s f 0) s { ctx5 with pockets := [(32, { pocketA with remote := true })] } .a { pocketA with remote := true } = true ∧ (pp2Hdr (frameHdr f)).vol = true ∧
      (frameReq s f 0).keys s { ctx5 with pockets := [(32, { pocketA with remote := true })] } .a { pocketA with remote := true } ≠ [] ∧ (frameReq s f 0).h.g = false ∧
      KeysReached (frameReq s f 0) ((frameReq s f 0).keys s { ctx5 with pockets := [(32, { pocketA with remote := true })] } .a { pocketA with remote := true }) s ∧ f.data.length = dataLen (pp2Hdr (frameHdr f))) ∧
    (let f := reqFrame 1 0 1 [1, 2, 3, 4]; frRes f = true ∧ frSlice f = 0 ∧ (pp2Hdr (frameHdr f)).kind = 1 ∧ f.data.length = dataLen (pp2Hdr (frameHdr f))) ∧
    (let s := racked (synced { strict4 with remote := true } Lock.zero [] (cmd 16 [0])); let f := fabFrame 3 [0x0000000B, 0x000700A0, 0x00050003, 4, 0, 0] []; s.wf = true ∧ frType f = 3 ∧
      flag (wordAt f.words 1) 29 = false ∧ (ctxOf s (fld (wordAt f.words 2) 15 5)).all (fun x => x.tenant = fld (wordAt f.words 2) 31 16 ∧ lookupObj x 0 (fld (wordAt f.words 3) 15 0) = some 0) = true ∧
      (getCounter s 0).remote = true ∧ (changeCounter (sigOpOf 0) 4 (getCounter s 0)).1 = .ok ∧ s.sync.waiters = [] ∧ slcFailed s (counterHome 0) = false ∧ ctxOf s 6 = none ∧
      fld (wordAt (fabFrame 3 [0x0000000B, 0x000700C0, 0x00050003, 4, 0, 0] []).words 2) 15 5 = 6) := by unfold KeysReached Serves; decide +kernel
theorem meets_FabCfgHoldsItsTimeout : (let s := racked bench; s.wf = true ∧ MeshOpen firmware s) ∧ (BitVec.toNat (9 : DWord)) % 2 ^ 32 < 10 ∧ (BitVec.toNat (0x10000 : DWord)) % 2 ^ 32 = 2 ^ 16 ∧
    (BitVec.toNat (0xFFFF : DWord)) % 2 ^ 32 < 2 ^ 16 ∧ (let s := awaits .grant; (s.fab.reqs.find? fun r => r.id == 30 && r.sent && !r.gone && !r.deferred) = some (out11 .grant (.cmd 1))) := by
  unfold MeshOpen; decide
theorem test_grant_deferred : (let s := fab [] [] ((List.range 4).map fun i => { grant1 with index := i + 1, win := 64 }) [] (reachable tenant);
    (after (.grant (grantMsg 64 false)) s).fab.deferred.map fun d => (d.srcdev, d.win, d.reqid)) = [(11, 64, 5)] := by decide +kernel

/-! ## The usage meter (17) -/

theorem meets_TheMeterCounts : (let m := { bench.meter with halted := false, ivS := 68, cfg := 2, sealed := true }; m.gap = false ∧ keysRise 0 m.chan = true ∧ keysRise 0 m.part = true ∧
      keysRise 0 m.ivP = true ∧ keysRise 0 m.alloc = true ∧ m.audit < 2 ^ 32 ∧ m.tamper < 2 ^ 32 ∧ 5 ∉ m.faults) ∧ ({ bench.meter with gap := true }).gap = true := by
  unfold bench State.reset MeterState.start; decide
theorem meets_TheMeterRecords : (let m := { bench.meter with sealed := true }; m.sealed = true) ∧ (bench.meter.sealed = false ∧ bench.meter.written.contains 0x80 = false) ∧
    (let m := { bench.meter with written := [0x80] }; m.written.contains 0x80 = true) ∧ recordLen 1 0 = some 208 ∧ recordLen 1 1 = none ∧ ([1, 0, 0, 0] : List Byte).length = 4 ∧
    ([1, 0, 0] : List Byte).length ≠ 4 ∧ (2 : Word).toNat < 3 ∧ 3 ≤ (3 : Word).toNat ∧
    (let s : State := { bench with meter := { bench.meter with queue := [(1, 0, 7, none)] } }; s.wf = true ∧ s.meter.queue = (1, 0, 7, none) :: []) ∧
    (let c := cmd 0 [0x52000000, 0, 0x01000000, 0, 0, 0, 0x8000, 0]; let s : State := { flight c with meter := { bench.meter with queue := [(1, 0, 7, some 1)] } }; admittedAs s 1 0x520 = some c ∧
      destCheck s c (c.addr 6) 32 832 = .ok ∧ cmdAddrSlices s 5 (c.addr 6) 832 = []) := by unfold bench State.reset MeterState.start; decide


/-! ## Order and latches -/

/-- On a PP1 port a read that the reuse buffer serves waits behind an older read of the port, its response held (04 R87). -/
theorem test_pp1_response_is_held : (let s : State := { reused 4 [] with ops := [{ entryOp with id := 2, port := 4, ret := none }], pp1 := [(4, true)], nextId := 3 };
    let t := after (.read (pp1Req 0x2000000000)) s; t.outbox = [] ∧ (portOf t 0 4).held.length = 1) := by decide
/-- On a PP2 port it leaves at once. -/
theorem test_pp2_response_leaves : (after (.read (preq 4 0x2000000000 0 0 0 0 0 [])) { reused 4 [] with ops := [{ entryOp with id := 2, port := 4, ret := none }], nextId := 3 }).outbox =
    [.portRsp 0 4 3 .ok 1 [(8, false)] []] := by decide
/-- A poisoned 64 B range stays poisoned after a write of a part of it, and not after one of the whole range (18 R511). -/
theorem test_poison_by_range : (let s : State := { bench with mem := { Mem.zero with extPoison := [(2, true)] } };
    (extRead (extWrite 128 (List.replicate 32 (5, false)) s) 128 1 = [(5, true)]) ∧ extRead (extWrite 128 (List.replicate 64 (5, false)) s) 128 1 = [(5, false)]) := by decide
/-- A private write of three bytes to the index of MTR_CFG stores nothing and is recorded; one of four bytes stores (17 R492). -/
theorem test_meter_parameter_length : (after (.meterRecordRequest [0x80, 1, 0, 0]) bench).meter.cfg = bench.meter.cfg ∧ (after (.meterRecordRequest [0x80, 1, 0, 0]) bench).meter.audit = bench.meter.audit + 1 ∧
    (after (.meterRecordRequest [0x80, 1, 0, 0, 0]) bench).meter.cfg = 1 := by unfold bench State.reset MeterState.start; decide

end Sys2Proof.Tests
end

section
/-! SUPPORT. Proofs/StateRules.lean: what is read of the registers, ports and slices after one of them was written, and what waking a
slice leaves of the state. -/
namespace Sys2Proof.Proofs
open Sys2Proof Sys2Proof.Machine Sys2Proof.Laws

/-! The tables of a well-formed state -/

theorem wf_regs {s : State} (w : s.wf = true) : keysRise 0 s.regs = true := (wf_iff.1 w).1

theorem wf_slices {s : State} (w : s.wf = true) : keysRise 0 s.slices = true := by
  obtain ⟨-, -, -, -, -, -, -, h, -⟩ := wf_iff.1 w
  exact h

theorem wf_w1done {s : State} (w : s.wf = true) : keysRise 0 s.w1done = true := by
  obtain ⟨-, h, -⟩ := wf_iff.1 w
  exact h

theorem wf_ports {s : State} (w : s.wf = true) : keysRise 0 s.ports = true := by
  obtain ⟨-, -, -, -, -, -, -, -, -, -, -, -, -, -, h, -⟩ := wf_iff.1 w
  exact h

theorem wf_mem {s : State} (w : s.wf = true) : Memory.wf s.mem = true := by
  obtain ⟨-, -, -, -, -, -, -, -, -, -, -, -, -, -, -, -, -, -, -, -, -, -, -, -, -, -, h⟩ := wf_iff.1 w
  exact h

theorem wf_chans {s : State} (w : s.wf = true) : keysRise 0 s.movers.chans = true := by
  obtain ⟨-, -, -, -, -, -, -, -, -, -, -, -, -, -, -, -, -, h, -⟩ := wf_iff.1 w
  exact h

theorem wf_sys {s : State} (w : s.wf = true) : mwf (fun _ => 0) s.mem.sys = true := by
  have h := wf_mem w
  simp only [Memory.wf, Bool.and_eq_true, and_assoc] at h
  obtain ⟨-, -, -, hsys, -⟩ := h
  exact hsys

theorem wf_boot {s : State} (w : s.wf = true) : mwf (fun _ => 0) s.mem.boot = true := by
  have h := wf_mem w
  simp only [Memory.wf, Bool.and_eq_true, and_assoc] at h
  obtain ⟨-, -, -, -, hboot, -⟩ := h
  exact hboot

/-! Registers -/

/-- A key that was not stored reads as before, whatever it is read as where it is unlisted. -/
theorem mget_mput_ne_any {α : Type} [DecidableEq α] {d d' : Nat → α} {m : NMap α} {k i : Nat} (v : α) (h : keysRise 0 m = true) (e : i ≠ k) :
    mget d' (mput d m k v) i = mget d' m i := by
  unfold mput
  split
  · rw [mget_mremove k i h, if_neg e]
  · rw [mget_minsert_any, if_neg e]

theorem regGet_lt (s : State) (d r : Nat) : regGet s d r < 2 ^ 32 := BitVec.isLt _

theorem regGet_of_regs {s t : State} (h : t.regs = s.regs) (d r : Nat) : regGet t d r = regGet s d r := by
  unfold regGet
  rw [h]

theorem regGet_regPut_same {s : State} (h : keysRise 0 s.regs = true) (d r v : Nat) : regGet (regPut d r v s) d r = v % 2 ^ 32 := by
  unfold regGet regPut
  rw [mget_mput_eq _ _ h, BitVec.toNat_ofNat]

theorem regGet_regPut_ne {s : State} (h : keysRise 0 s.regs = true) (d d' v : Nat) {r i : Nat} (e : i ≠ r) :
    regGet (regPut d r v s) d' i = regGet s d' i := by
  unfold regGet regPut
  rw [mget_mput_ne_any _ h e]

theorem keysRise_regPut {s : State} (h : keysRise 0 s.regs = true) (d r v : Nat) : keysRise 0 (regPut d r v s).regs = true :=
  keysRise_mput (d := fun _ => BitVec.ofNat 32 d) r (BitVec.ofNat 32 v) h

/-- Setting a bit of PORT_ERR sets that bit and no other (04 R117). -/
theorem portErr_sets {s : State} (h : keysRise 0 s.regs = true) (n p : Nat) {bit : Nat} (hb : bit < 32) : PortErrSet n p bit s (portErr n p bit s) := by
  refine ⟨rfl, ?_⟩
  unfold portErr
  rw [regGet_regPut_same h, Nat.mod_eq_of_lt]
  exact Nat.or_lt_two_pow (regGet_lt s _ _) (Nat.pow_lt_pow_right (by decide) hb)

/-- Registers at different word offsets of a unit have different numbers (02 R32). -/
theorem regNo_ne {u a b : Nat} (h : a / 4 ≠ b / 4) : regNo u a ≠ regNo u b := by unfold regNo; omega

theorem portReg_ne {n p a b : Nat} (h : a / 4 ≠ b / 4) : portReg n p a ≠ portReg n p b := regNo_ne (by omega)

/-- The local address of a register is its number's (02 R32). -/
theorem regNo_mul_four {u off : Nat} (h : off % 4 = 0) : regNo u off * 4 = unitAddr u off := by unfold regNo unitAddr; omega

/-! Ports and slices -/

theorem portOf_stored_same {s t : State} {n p : Nat} {r : PortRec} (h : keysRise 0 s.ports = true) (e : t.ports = mput portZero s.ports (n * 16 + p) r) :
    portOf t n p = r := by
  unfold portOf
  rw [e, mget_mput_eq _ _ h]

/-- A port stored leaves the others. -/
theorem portOf_stored_other {s t : State} {n p : Nat} {r : PortRec} (h : keysRise 0 s.ports = true) (hp : p < 16)
    (e : t.ports = mput portZero s.ports (n * 16 + p) r) : ∀ m j, j < 16 → (m, j) ≠ (n, p) → portOf t m j = portOf s m j := by
  intro m j hj ne
  have hk : m * 16 + j ≠ n * 16 + p := fun k => ne (Prod.ext (by dsimp only; omega) (by dsimp only; omega))
  unfold portOf
  rw [e, mget_mput_ne _ h hk]

theorem sliceOf_modSlice {s : State} (h : keysRise 0 s.slices = true) (n m : Nat) (f : SliceRec → SliceRec) :
    sliceOf (modSlice n f s) m = if m = n then f (sliceOf s n) else sliceOf s m := mget_mput_rise n m _ h

/-! Waking a slice -/

/-- The state with these power records. -/
def withPwr (p : NMap SlcPwr) (s : State) : State := { s with ctl := { s.ctl with pwr := p } }

/-- An event that reaches a slice changes the power records only (15 R457). -/
theorem touch_frame (n kind id : Nat) (s : State) : ∃ p, (touch n kind id s).2 = withPwr p s := by
  unfold touch
  dsimp only
  split
  · exact ⟨_, rfl⟩
  · split
    · split <;> exact ⟨_, rfl⟩
    · exact ⟨_, rfl⟩
    · exact ⟨_, rfl⟩
    · exact ⟨_, rfl⟩

/-! Bits of numbers -/

theorem bitOf_eq_testBit (x i : Nat) : bitOf x i = x.testBit i := by
  rw [Nat.testBit_eq_decide_div_mod_eq]
  rfl

/-- A field whose bits are all 0 is 0. -/
theorem field_eq_zero {v lo n : Nat} (h : ∀ i, lo ≤ i → i < lo + n → bitOf v i = false) : v / 2 ^ lo % 2 ^ n = 0 := by
  refine Nat.eq_of_testBit_eq fun i => ?_
  rw [Nat.testBit_mod_two_pow, Nat.testBit_div_two_pow, Nat.zero_testBit]
  by_cases hi : i < n
  · rw [← bitOf_eq_testBit, h _ (by omega) (by omega), Bool.and_false]
  · rw [decide_eq_false hi, Bool.false_and]

end Sys2Proof.Proofs
end

section
/-! SUPPORT. Proofs/RegisterRows.lean: a 4 B register write through an ENABLED mesh port, from its row to the register's own rule
(00 R4, R5; 02 R32; 04 R89). -/
namespace Sys2Proof.Proofs
open Sys2Proof Sys2Proof.Machine Sys2Proof.Laws

/-- How a row of a register write ends: its status is the next output, with its PORT_ERR bit; one that waits answers nothing. -/
def rowEnd (w : RegWriter) (a : Nat) : RegRes → State
  | (some st, t) => emit (.regDone a st) (rowErr w.slice st t)
  | (none, t) => t

theorem regRow_open {w : RegWriter} {s : State} (h : MeshOpen w s) (a : Nat) (f : RegBy → State → RegRes) :
    regRow w a f s = .next (rowEnd w a (f (writerBy a w) s)) := by
  obtain ⟨hopen, hen⟩ := h
  unfold regRow
  rw [hopen, hen]
  cases hr : f (writerBy a w) s with
  | mk st t => cases st <;> simp [rowEnd]

/-- A write that is dropped answers WRITE_IGNORED and is logged, and changes nothing else (00 R4). -/
theorem rowEnd_dropped (w : RegWriter) (a : Nat) (s : State) :
    let t := rowEnd w a (dropReg .writeIgnored (writerBy a w) a s)
    Responds a .writeIgnored s t ∧ Logged .writeIgnored 1 w.slice 10 (.mesh w.slice w.srcdev w.srcstop) 0 a s t ∧
      t = { s with log := t.log, outbox := t.outbox } := ⟨rfl, rfl, rfl⟩

/-! Addresses -/

theorem unitAddr_fields {u off : Nat} (hu : u < 256) (ho : off < 65536) :
    regUnit (unitAddr u off) = u ∧ regOff (unitAddr u off) = off := by
  unfold regUnit regOff bitsOf unitAddr
  constructor <;> omega

/-! The write of one register -/

theorem regWrite_word {a v : Nat} {by_ : RegBy} {s : State} (ok : regAddrOk s a false = true) (hm : regUnit a ≠ 0xC0)
    (hr : ¬(regUnit a = 0x80 ∧ regOff a = 0x304)) (hv : v < 2 ^ 32) (hs : setsReserved (regUnit a) (regOff a) v = false) :
    regWrite a false v by_ s = regWrite1 (regUnit a) (regOff a) v by_ s := by
  have hrst : (regUnit a == 0x80 && (regOff a == 0x304 || (false && regOff a == 0x300))) = false := by
    simpa using hr
  unfold regWrite
  dsimp only
  rw [hrst, ok, Nat.mod_eq_of_lt hv, hs, if_neg (by simp), if_neg hm, if_neg (by simp), if_neg (by simp), if_pos (by rfl)]

/-- The row of a 4 B write of a register that is neither of the meter mirror nor the reset register, without a reserved bit. -/
theorem writeRow_word {u off v : Nat} {w : RegWriter} {s : State} (hu : u < 256) (hm : u ≠ 0xC0) (hr : ¬(u = 0x80 ∧ off = 0x304)) (ho : off < 65536)
    (hv : v < 2 ^ 32) (m : MeshOpen w s) (ok : regAddrOk s (unitAddr u off) false = true) (hs : setsReserved u off v = false) :
    writeRow (unitAddr u off) v w s = .next (rowEnd w (unitAddr u off) (regWrite1 u off v (writerBy (unitAddr u off) w) s)) := by
  obtain ⟨hunit, hoff⟩ := unitAddr_fields hu ho
  unfold writeRow
  rw [regRow_open m, regWrite_word ok (by rw [hunit]; exact hm) (by rw [hunit, hoff]; exact hr) hv (by rw [hunit, hoff]; exact hs), hunit, hoff]

theorem writeRow_slice {n off v : Nat} {w : RegWriter} {s : State} (hn : n < 64) (ho : off < 65536) (hv : v < 2 ^ 32) (m : MeshOpen w s)
    (ok : regAddrOk s (unitAddr n off) false = true) (hs : setsReserved n off v = false) :
    writeRow (unitAddr n off) v w s = .next (rowEnd w (unitAddr n off) (regWrite1 n off v (writerBy (unitAddr n off) w) s)) :=
  writeRow_word (by omega) (by omega) (by omega) ho hv m ok hs

theorem regWrite1_dropped {u off v : Nat} {by_ : RegBy} {s : State} (h : regDrops s u off v = true) :
    regWrite1 u off v by_ s = dropReg .writeIgnored by_ (regNo u off * 4) s := if_pos h

theorem unitSlice_active {n : Nat} (s : State) (hn : n < 64) : unitSlice s n = n := if_neg (by omega)

theorem markW1_none {u off : Nat} {r : RegSpec} (hr : regSpecOf u off = some r) (h1 : r.w1 = 0) (x : RegRes) : markW1 u off x = x := by
  unfold markW1
  simp [hr, h1]

/-- A register of an active slice that is not dropped and has no W1 field is written by its own rule. -/
theorem regWrite1_slice {n off v : Nat} {by_ : RegBy} {s : State} {r : RegSpec} (hn : n < 64) (hr : regSpecOf n off = some r) (h1 : r.w1 = 0)
    (hd : regDrops s n off v = false) : regWrite1 n off v by_ s = sliceWrite n off v by_ s := by
  have hu : isSliceUnit n = true := decide_eq_true (by omega)
  unfold regWrite1
  rw [hd, hu, unitSlice_active s hn, if_neg (by decide), if_pos rfl, markW1_none hr h1]

/-- A register of RW fields is never dropped. -/
theorem regDrops_rw {u off v mask reset : Nat} {s : State} (hr : regSpecOf u off = some (rwReg mask reset)) (hm : mask ≠ 0) :
    regDrops s u off v = false := by
  unfold regDrops
  simp [hr, rwReg, RegSpec.allRo, hm]

theorem setsReserved_rw {u off v mask reset : Nat} (hr : regSpecOf u off = some (rwReg mask reset)) :
    setsReserved u off v = (List.range 32).any fun i => bitOf v i && !bitOf mask i := by
  unfold setsReserved
  simp [hr, rwReg, RegSpec.used]

/-- A register's value without a reserved bit: a bit outside its fields is 0. -/
theorem bit_unused {u off v i : Nat} {r : RegSpec} (hr : regSpecOf u off = some r) (hs : setsReserved u off v = false) (hi : i < 32)
    (hu : bitOf r.used i = false) : bitOf v i = false := by
  unfold setsReserved at hs
  simp only [hr, List.any_eq_false, List.mem_range] at hs
  simpa [hu] using hs i hi

/-! The device-common registers -/

theorem regSpecOf_common {off : Nat} (h4 : off % 4 = 0) : regSpecOf 0x80 off = commonRegSpec off := by
  unfold regSpecOf
  rw [if_neg (by omega), if_neg (by decide), if_pos rfl]

/-- A device-common register is reached whatever the slices' power states (02 R32; 15 R452). -/
theorem regAddrOk_common {off : Nat} (s : State) (ho : off < 65536) (h4 : off % 4 = 0) (hr : (commonRegSpec off).isSome = true) :
    regAddrOk s (unitAddr 0x80 off) false = true := by
  obtain ⟨hunit, hoff⟩ := unitAddr_fields (u := 0x80) (by decide) ho
  have hregion : unitAddr 0x80 off / 68719476736 = 8 := by unfold unitAddr; omega
  have hfield : bitsOf (unitAddr 0x80 off) 27 16 = 0 := by unfold unitAddr bitsOf; omega
  have halign : unitAddr 0x80 off % 4 = 0 := by unfold unitAddr; omega
  unfold regAddrOk
  simp [hunit, hoff, hregion, hfield, halign, regSpecOf_common h4, hr, offHidden, isSliceUnit]

theorem regWrite1_common {off v : Nat} {by_ : RegBy} {s : State} (hd : regDrops s 0x80 off v = false) :
    regWrite1 0x80 off v by_ s = markW1 0x80 off (commonWrite off v by_ s) := by
  unfold regWrite1
  rw [hd]
  rfl

/-! The port registers -/

theorem regSpecOf_port {n k off : Nat} (hn : n < 64) (hk : k ≤ 10) (ho : off < 0x20) (h4 : off % 4 = 0) :
    regSpecOf n (0x400 + k * 0x20 + off) = portRegSpec k off := by
  have hport : (0x400 + k * 0x20 + off - 0x400) / 0x20 = k := by omega
  have hoff : (0x400 + k * 0x20 + off) % 0x20 = off := by omega
  unfold regSpecOf sliceRegSpec
  rw [if_neg (by omega), if_pos (by omega), if_neg (by omega), if_neg (by omega), if_neg (by omega), if_pos (by omega), hport, hoff]

theorem sliceWrite_port {n k off v : Nat} {by_ : RegBy} {s : State} (hk : k ≤ 10) (ho : off < 0x20) :
    sliceWrite n (0x400 + k * 0x20 + off) v by_ s = portWrite n k off v by_ s := by
  have hport : (0x400 + k * 0x20 + off - 0x400) / 0x20 = k := by omega
  have hoff : (0x400 + k * 0x20 + off) % 0x20 = off := by omega
  unfold sliceWrite
  rw [if_neg (by omega), if_neg (by omega), if_pos (by omega), hport, hoff]

/-- The address of a port's register, as its rule logs it. -/
theorem portAddr_eq {n k off : Nat} (h4 : off % 4 = 0) : portAddr n k off = unitAddr n (0x400 + k * 0x20 + off) := regNo_mul_four (by omega)

/-- The row of a write of PORT_CTL or PORT_CTX, the port's registers of RW fields alone (04 R113, R115). -/
theorem portRow_rw {n k off v mask reset : Nat} {w : RegWriter} {s : State} (hn : n < 64) (hk : k ≤ 10) (ho : off < 0x20) (h4 : off % 4 = 0)
    (hr : portRegSpec k off = some (rwReg mask reset)) (hm : mask ≠ 0) (hv : v < 2 ^ 32) (m : MeshOpen w s)
    (ok : regAddrOk s (unitAddr n (0x400 + k * 0x20 + off)) false = true) (hs : setsReserved n (0x400 + k * 0x20 + off) v = false) :
    portRow n k off v w s = .next (rowEnd w (unitAddr n (0x400 + k * 0x20 + off))
      (portWrite n k off v (writerBy (unitAddr n (0x400 + k * 0x20 + off)) w) s)) := by
  have hspec := (regSpecOf_port hn hk ho h4).trans hr
  unfold portRow
  rw [if_pos hk, writeRow_slice hn (by omega) hv m ok hs, regWrite1_slice hn hspec rfl (regDrops_rw hspec hm), sliceWrite_port hk ho]

end Sys2Proof.Proofs
end

section
/-! SUPPORT. Proofs/Drain.lean: issuing write-back entries (04 R96, R103, R118): every entry goes on, those named are issued and hold or await a
scoreboard entry, and nothing changes but the entries, the beats and the numbers given out. -/
namespace Sys2Proof.Proofs
open Sys2Proof Sys2Proof.Machine Sys2Proof.Laws

/-- An entry has gone on: it is the same one, and has lost neither its issue nor its place on the scoreboard. -/
structure EntryGoesOn (e f : WbEntry) : Prop where
  id : f.id = e.id
  home : f.home = e.home
  port : f.port = e.port
  issued : e.issued = true → f.issued = true
  sb : e.sb ≠ .none → f.sb ≠ .none

theorem EntryGoesOn.refl (e : WbEntry) : EntryGoesOn e e := ⟨rfl, rfl, rfl, fun h => h, fun h => h⟩

theorem EntryGoesOn.trans {a b c : WbEntry} (h : EntryGoesOn a b) (k : EntryGoesOn b c) : EntryGoesOn a c :=
  ⟨k.id.trans h.id, k.home.trans h.home, k.port.trans h.port, fun e => k.issued (h.issued e), fun e => k.sb (h.sb e)⟩

/-- From `s` to `t` every write-back entry has gone on, and only the entries, the beats and the next number differ. -/
structure EntriesGoOn (s t : State) : Prop where
  entries : ∃ f, t.wb = s.wb.map f ∧ ∀ e, EntryGoesOn e (f e)
  frame : t = { s with nextId := t.nextId, wb := t.wb, beats := t.beats }

theorem EntriesGoOn.refl (s : State) : EntriesGoOn s s := ⟨⟨id, (List.map_id _).symm, EntryGoesOn.refl⟩, rfl⟩

theorem EntriesGoOn.trans {a b c : State} (h : EntriesGoOn a b) (k : EntriesGoOn b c) : EntriesGoOn a c := by
  obtain ⟨f, hf, gf⟩ := h.entries
  obtain ⟨g, hg, gg⟩ := k.entries
  refine ⟨⟨g ∘ f, by rw [hg, hf, List.map_map], fun e => (gf e).trans (gg (f e))⟩, ?_⟩
  rw [k.frame, h.frame]

theorem EntriesGoOn.foldl {α : Type} {f : State → α → State} (hf : ∀ t x, EntriesGoOn t (f t x)) (l : List α) (s : State) :
    EntriesGoOn s (l.foldl f s) := by
  induction l generalizing s with
  | nil => exact .refl s
  | cons x l ih => exact (hf s x).trans (ih _)

theorem EntriesGoOn.ids {s t : State} (h : EntriesGoOn s t) : t.wb.map WbEntry.id = s.wb.map WbEntry.id := by
  obtain ⟨f, hf, gf⟩ := h.entries
  rw [hf, List.map_map]
  exact List.map_congr_left fun e _ => (gf e).id

/-- An entry of the later state was one of the earlier state. -/
theorem EntriesGoOn.back {s t : State} (h : EntriesGoOn s t) {e : WbEntry} (he : e ∈ t.wb) : ∃ d ∈ s.wb, EntryGoesOn d e := by
  obtain ⟨f, hf, gf⟩ := h.entries
  rw [hf] at he
  obtain ⟨d, hd, rfl⟩ := List.mem_map.1 he
  exact ⟨d, hd, gf d⟩

/-- A change of one entry by which it goes on. -/
theorem modWb_goesOn (id : Nat) {f : WbEntry → WbEntry} (hf : ∀ e, EntryGoesOn e (f e)) (s : State) : EntriesGoOn s (modWb id f s) := by
  refine ⟨⟨_, rfl, fun e => ?_⟩, rfl⟩
  split
  · exact hf e
  · exact .refl e

theorem sbFor_waits_ne_none (e : WbEntry) : sbFor .waits e ≠ .none := by
  unfold sbFor
  split
  · decide
  · rw [if_neg (by simp)]
    assumption

theorem queueBeats_goesOn (op req : Nat) (kind : BeatKind) (parts : List (List (Nat × Nat))) (home port : Nat) (g : Bool) (owner : Option Nat)
    (set ep : Nat) (s : State) : EntriesGoOn s (queueBeats op req kind parts home port g owner set ep s) :=
  .foldl (f := fun t l => { (freshId t).2 with beats := (freshId t).2.beats ++ [beatOf (freshId t).2 (freshId t).1 op req kind l home port g owner set ep] })
    (fun t _ => ⟨(EntriesGoOn.refl t).entries, rfl⟩) parts s

theorem queueBeats_wb (op req : Nat) (kind : BeatKind) (parts : List (List (Nat × Nat))) (home port : Nat) (g : Bool) (owner : Option Nat)
    (set ep : Nat) (s : State) : (queueBeats op req kind parts home port g owner set ep s).wb = s.wb := by
  unfold queueBeats
  induction parts generalizing s with
  | nil => rfl
  | cons p ps ih => exact ih _

/-- What an entry becomes when it is issued for a drain that waits for the scoreboard. -/
theorem issueEntry_goesOn (s : State) (id : Nat) : EntriesGoOn s (issueEntry .waits s id) := by
  have keep (e : WbEntry) : EntryGoesOn e { e with sb := sbFor .waits e } := ⟨rfl, rfl, rfl, fun h => h, fun _ => sbFor_waits_ne_none e⟩
  unfold issueEntry
  split
  · exact .refl s
  · split
    · exact modWb_goesOn id keep s
    · refine EntriesGoOn.trans (modWb_goesOn id (fun x => ?_) s) (queueBeats_goesOn _ _ _ _ _ _ _ _ _ _ _)
      exact ⟨rfl, rfl, rfl, fun _ => rfl, fun _ => sbFor_waits_ne_none x⟩

/-- An entry is issued and holds a scoreboard entry or waits for one (R103). -/
def Issued (e : WbEntry) : Prop := e.issued = true ∧ e.sb ≠ .none

theorem EntryGoesOn.stays {d e : WbEntry} (h : EntryGoesOn d e) (k : Issued d) : Issued e := ⟨h.issued k.1, h.sb k.2⟩

theorem find_of_nodup {l : List WbEntry} (h : (l.map WbEntry.id).Nodup) {e : WbEntry} (he : e ∈ l) : l.find? (fun x => x.id == e.id) = some e := by
  induction l with
  | nil => exact absurd he List.not_mem_nil
  | cons x l ih =>
    obtain ⟨hx, hl⟩ := List.nodup_cons.1 h
    rcases List.mem_cons.1 he with rfl | he
    · exact List.find?_cons_of_pos (beq_self_eq_true _)
    · have hne : x.id ≠ e.id := fun hid => hx (by rw [hid]; exact List.mem_map_of_mem he)
      rw [List.find?_cons_of_neg (by simpa using hne)]
      exact ih hl he

/-- The entry of a number, where the numbers are distinct. -/
theorem wbOf_eq {s : State} (h : (s.wb.map WbEntry.id).Nodup) {e : WbEntry} (he : e ∈ s.wb) : wbOf s e.id = some e := find_of_nodup h he

theorem mem_modWb {s : State} {id : Nat} {f : WbEntry → WbEntry} {e : WbEntry} (he : e ∈ (modWb id f s).wb) (hid : e.id = id) :
    ∃ x ∈ s.wb, x.id = id ∧ e = f x := by
  obtain ⟨x, hx, rfl⟩ := List.mem_map.1 he
  by_cases hq : x.id = id
  · exact ⟨x, hx, hq, if_pos (by simpa using hq)⟩
  · rw [if_neg (by simpa using hq)] at hid
    exact absurd hid hq

theorem issueEntry_issues {s : State} (h : (s.wb.map WbEntry.id).Nodup) {id : Nat} {e : WbEntry} (he : e ∈ (issueEntry .waits s id).wb) (hid : e.id = id) :
    Issued e := by
  obtain ⟨d, hd, hde⟩ := (issueEntry_goesOn s id).back he
  have hdid : d.id = id := hde.id.symm.trans hid
  have hw : wbOf s id = some d := hdid ▸ wbOf_eq h hd
  unfold issueEntry at he
  simp only [hw] at he
  split at he
  · next hi =>
    obtain ⟨x, -, -, rfl⟩ := mem_modWb he hid
    exact ⟨hde.issued hi, sbFor_waits_ne_none x⟩
  · rw [queueBeats_wb] at he
    obtain ⟨x, -, -, rfl⟩ := mem_modWb he hid
    exact ⟨rfl, sbFor_waits_ne_none x⟩

/-- Entries named in a list are issued once all of it has been gone through. -/
theorem foldl_issueEntry_issues (ids : List Nat) : ∀ {s : State}, (s.wb.map WbEntry.id).Nodup → ∀ e ∈ (ids.foldl (issueEntry .waits) s).wb, e.id ∈ ids →
    Issued e := by
  induction ids with
  | nil => exact fun _ _ _ h => absurd h List.not_mem_nil
  | cons i ids ih =>
    intro s h e he hid
    have hstep := issueEntry_goesOn s i
    have hrest : EntriesGoOn (issueEntry .waits s i) (ids.foldl (issueEntry .waits) (issueEntry .waits s i)) := .foldl issueEntry_goesOn ids _
    rcases List.mem_cons.1 hid with rfl | hid
    · obtain ⟨d, hd, hde⟩ := hrest.back he
      exact hde.stays (issueEntry_issues h hd hde.id.symm)
    · exact ih (hstep.ids ▸ h) e he hid

theorem grantOne_goesOn (s : State) (id : Nat) : EntriesGoOn s (grantOne s id) := by
  unfold grantOne
  split
  · split
    · refine modWb_goesOn id (fun x => ?_) s
      exact ⟨rfl, rfl, rfl, fun h => h, fun _ => SbHold.noConfusion⟩
    · exact .refl s
  · exact .refl s

theorem landOne_goesOn (s : State) (id : Nat) : EntriesGoOn s (landOne s id) := by
  unfold landOne
  split
  · split
    · refine modWb_goesOn id (fun x => ?_) s
      exact ⟨rfl, rfl, rfl, fun h => h, fun h => h⟩
    · exact .refl s
  · exact .refl s

theorem landAll_goesOn (s : State) : EntriesGoOn s (landAll s) := .foldl landOne_goesOn _ s

theorem grantSb_goesOn (s : State) : EntriesGoOn s (grantSb s) := .foldl grantOne_goesOn _ s

/-- What follows the issue of the entries of a drain: the scoreboard and the landing pools give out what is free. -/
theorem issueAll_tail (ids : List Nat) (s : State) : EntriesGoOn (ids.foldl (issueEntry .waits) s) (issueAll .waits ids s) :=
  (grantSb_goesOn _).trans (landAll_goesOn _)

theorem issueAll_goesOn (ids : List Nat) (s : State) : EntriesGoOn s (issueAll .waits ids s) :=
  (EntriesGoOn.foldl issueEntry_goesOn ids s).trans (issueAll_tail ids s)

theorem issueAll_issues {s : State} (h : (s.wb.map WbEntry.id).Nodup) (ids : List Nat) : ∀ e ∈ (issueAll .waits ids s).wb, e.id ∈ ids → Issued e := by
  intro e he hid
  obtain ⟨d, hd, hde⟩ := (issueAll_tail ids s).back he
  exact hde.stays (foldl_issueEntry_issues ids h d hd (hde.id ▸ hid))

/-- A port that begins to drain issues every entry of its own (04 R118 step 1). -/
theorem startDrain_issues {s : State} (h : (s.wb.map WbEntry.id).Nodup) {n k : Nat} : ∀ e ∈ (startDrain n k s).wb, e.home = n → e.port = k → Issued e := by
  intro e he hn hk
  obtain ⟨d, hd, hde⟩ := (issueAll_goesOn ((portEntries s n k).map WbEntry.id) (modPort n k (fun r => { r with state := .draining }) s)).back he
  have hmine : d ∈ portEntries s n k := List.mem_filter.2 ⟨hd, by simp [← hde.home, ← hde.port, hn, hk]⟩
  exact issueAll_issues (by exact h) _ e he (hde.id ▸ List.mem_map_of_mem hmine)

end Sys2Proof.Proofs
end

section
/-! SUPPORT. Proofs/PortControl.lean: PORT_CTL and the shutdown of a port (04 R113, R118 to R120). -/
namespace Sys2Proof.Proofs
open Sys2Proof Sys2Proof.Machine Sys2Proof.Laws

/-! What a write of PORT_CTL does, by EN and the port's state (R118, R120) -/

section
variable {n k v : Nat} {by_ : RegBy} {s : State}

/-- The state in which a write of PORT_CTL acts: the slice is awake and the value stored. -/
def ctlStored (n k v : Nat) (s : State) : State := regPut (portCtlReset k) (portReg n k 0) (v % 4) (touch n 6 k s).2

theorem portCtlWrite_enables (hv : bitOf v 0 = true) (hst : (portOf s n k).state = .disabled) (hw : portWired s n k = true) :
    portCtlWrite n k v by_ s = (some .ok, modPort n k (fun r => { r with state := .enabled }) (ctlStored n k v s)) := by
  unfold portCtlWrite
  rw [hv, hst, hw]
  rfl

theorem portCtlWrite_loose (hv : bitOf v 0 = true) (hst : (portOf s n k).state = .disabled) (hw : portWired s n k = false) :
    portCtlWrite n k v by_ s = dropReg .writeIgnored by_ (portAddr n k 0) s := by
  unfold portCtlWrite
  rw [hv, hst, hw]
  rfl

theorem portCtlWrite_enabled_stays (hv : bitOf v 0 = true) (hst : (portOf s n k).state = .enabled) :
    portCtlWrite n k v by_ s = (some .ok, (touch n 6 k s).2) := by
  unfold portCtlWrite
  rw [hv, hst]
  rfl

theorem portCtlWrite_pending (hv : bitOf v 0 = true) (hw : bitOf v 1 = true) (hst : (portOf s n k).state = .draining ∨ (portOf s n k).state = .clearing) :
    portCtlWrite n k v by_ s = (some .pendingShutdown, (touch n 6 k s).2) := by
  unfold portCtlWrite
  rcases hst with hst | hst <;> rw [hv, hst, hw] <;> rfl

theorem portCtlWrite_awaits (hv : bitOf v 0 = true) (hw : bitOf v 1 = false) (hst : (portOf s n k).state = .draining ∨ (portOf s n k).state = .clearing) :
    portCtlWrite n k v by_ s = (none, modPort n k (fun r => { r with enWait := r.enWait ++ [by_.origin] }) (ctlStored n k v s)) := by
  unfold portCtlWrite
  rcases hst with hst | hst <;> rw [hv, hst, hw] <;> rfl

theorem portCtlWrite_shuts (hv : bitOf v 0 = false) (hst : (portOf s n k).state = .enabled) :
    portCtlWrite n k v by_ s = (none, modPort n k (fun r => { r with disWait := r.disWait ++ [by_.origin] }) (startDrain n k (ctlStored n k v s))) := by
  unfold portCtlWrite
  rw [hv, hst]
  rfl

theorem portCtlWrite_shut_stays (hv : bitOf v 0 = false) (hst : (portOf s n k).state ≠ .enabled) :
    portCtlWrite n k v by_ s = (some .ok, (touch n 6 k s).2) := by
  unfold portCtlWrite
  rw [hv]
  cases h : (portOf s n k).state with
  | enabled => exact absurd h hst
  | disabled | draining | clearing => rfl

end

/-! The rows PORT_ENABLE and PORT_DISABLE -/

section
variable {n k : Nat} {nw : Bool} {w : RegWriter} {s : State}

theorem portCtl_reserved_clean (hn : n < 64) (hk : k ≤ 10) (en : Bool) : setsReserved n (0x400 + k * 0x20 + 0) (b2n nw * 2 + b2n en) = false := by
  rw [setsReserved_rw (regSpecOf_port hn hk (by decide) (by decide))]
  cases nw <;> cases en <;> decide

theorem portCtl_row (hn : n < 64) (hk : k ≤ 10) (m : MeshOpen w s) (ok : regAddrOk s (unitAddr n (0x400 + k * 0x20)) false = true) (en : Bool) :
    portRow n k 0 (b2n nw * 2 + b2n en) w s = .next (rowEnd w (unitAddr n (0x400 + k * 0x20))
      (portCtlWrite n k (b2n nw * 2 + b2n en) (writerBy (unitAddr n (0x400 + k * 0x20)) w) s)) :=
  portRow_rw hn hk (by decide) (by decide) rfl (by decide) (by cases nw <;> cases en <;> decide) m ok (portCtl_reserved_clean hn hk en)

theorem portEnable_row (hn : n < 64) (hk : k ≤ 10) (m : MeshOpen w s) (ok : regAddrOk s (unitAddr n (0x400 + k * 0x20)) false = true) :
    exec (.portEnable n k nw w) s = .next (rowEnd w (unitAddr n (0x400 + k * 0x20))
      (portCtlWrite n k (b2n nw * 2 + 1) (writerBy (unitAddr n (0x400 + k * 0x20)) w) s)) := portCtl_row hn hk m ok true

theorem portDisable_row (hn : n < 64) (hk : k ≤ 10) (m : MeshOpen w s) (ok : regAddrOk s (unitAddr n (0x400 + k * 0x20)) false = true) :
    exec (.portDisable n k nw w) s = .next (rowEnd w (unitAddr n (0x400 + k * 0x20))
      (portCtlWrite n k (b2n nw * 2) (writerBy (unitAddr n (0x400 + k * 0x20)) w) s)) := portCtl_row hn hk m ok false

theorem en_of_enable : bitOf (b2n nw * 2 + 1) 0 = true := by cases nw <;> rfl
theorem noWait_of_enable : bitOf (b2n nw * 2 + 1) 1 = nw := by cases nw <;> rfl
theorem en_of_disable : bitOf (b2n nw * 2) 0 = false := by cases nw <;> rfl

/-- A write that leaves the port as it is answers and only wakes the slice. -/
theorem rowEnd_idle (w : RegWriter) (a n k : Nat) {st : Status} (hst : st = .ok ∨ st = .pendingShutdown) (s : State) :
    let t := rowEnd w a (some st, (touch n 6 k s).2)
    Responds a st s t ∧ (∀ m j, portOf t m j = portOf s m j) ∧ t = { s with regs := t.regs, outbox := t.outbox, ctl := { s.ctl with pwr := t.ctl.pwr } } := by
  obtain ⟨p, hp⟩ := touch_frame n 6 k s
  rw [hp]
  rcases hst with rfl | rfl <;> exact ⟨rfl, fun _ _ => rfl, rfl⟩

theorem portEnable_enables (wf : s.wf = true) (hn : n < 64) (hk : k ≤ 10) (m : MeshOpen w s)
    (ok : regAddrOk s (unitAddr n (0x400 + k * 0x20)) false = true) (hst : (portOf s n k).state = .disabled) (hw : portWired s n k = true) :
    Completes (.portEnable n k nw w) s fun t =>
      portOf t n k = { portOf s n k with state := .enabled } ∧ (∀ m j, j < 16 → (m, j) ≠ (n, k) → portOf t m j = portOf s m j) ∧
        bitOf (regGet t (portCtlReset k) (portReg n k 0)) 0 = true ∧ Responds (unitAddr n (0x400 + k * 0x20)) .ok s t ∧
        t = { s with regs := t.regs, ports := t.ports, outbox := t.outbox, ctl := { s.ctl with pwr := t.ctl.pwr } } := by
  refine ⟨_, portEnable_row hn hk m ok, ?_⟩
  have hk' : k < 16 := by omega
  obtain ⟨p, hp⟩ := touch_frame n 6 k s
  rw [portCtlWrite_enables en_of_enable hst hw, ctlStored, hp]
  refine ⟨portOf_stored_same (wf_ports wf) rfl, portOf_stored_other (wf_ports wf) hk' rfl, ?_, rfl, rfl⟩
  have hval : regGet (regPut (portCtlReset k) (portReg n k 0) ((b2n nw * 2 + 1) % 4) s) (portCtlReset k) (portReg n k 0) = (b2n nw * 2 + 1) % 4 % 2 ^ 32 :=
    regGet_regPut_same (wf_regs wf) _ _ _
  refine (congrArg (fun x => bitOf x 0) hval).trans ?_
  cases nw <;> rfl

theorem portEnable_awaits (wf : s.wf = true) (hn : n < 64) (hk : k ≤ 10) (m : MeshOpen w s)
    (ok : regAddrOk s (unitAddr n (0x400 + k * 0x20)) false = true) (hst : (portOf s n k).state = .draining ∨ (portOf s n k).state = .clearing)
    (hw : nw = false) :
    Completes (.portEnable n k nw w) s fun t =>
      portOf t n k = { portOf s n k with enWait := (portOf s n k).enWait ++ [.direct (unitAddr n (0x400 + k * 0x20))] } ∧
        (∀ m j, j < 16 → (m, j) ≠ (n, k) → portOf t m j = portOf s m j) ∧ t.outbox = s.outbox ∧
        t = { s with regs := t.regs, ports := t.ports, ctl := { s.ctl with pwr := t.ctl.pwr } } := by
  refine ⟨_, portEnable_row hn hk m ok, ?_⟩
  have hk' : k < 16 := by omega
  obtain ⟨p, hp⟩ := touch_frame n 6 k s
  rw [portCtlWrite_awaits en_of_enable (noWait_of_enable.trans hw) hst, ctlStored, hp]
  exact ⟨portOf_stored_same (wf_ports wf) rfl, portOf_stored_other (wf_ports wf) hk' rfl, rfl, rfl⟩

theorem startDrain_frame (n k : Nat) (s : State) : ∃ x ws bs, startDrain n k s =
    { s with ports := mput portZero s.ports (n * 16 + k) { portOf s n k with state := .draining }, nextId := x, wb := ws, beats := bs } :=
  ⟨_, _, _, (issueAll_goesOn ((portEntries s n k).map WbEntry.id) (modPort n k (fun r => { r with state := .draining }) s)).frame⟩

theorem portDisable_shuts (wf : s.wf = true) (hn : n < 64) (hk : k ≤ 10) (m : MeshOpen w s)
    (ok : regAddrOk s (unitAddr n (0x400 + k * 0x20)) false = true) (hst : (portOf s n k).state = .enabled) :
    Completes (.portDisable n k nw w) s fun t =>
      portOf t n k = { portOf s n k with state := .draining, disWait := (portOf s n k).disWait ++ [.direct (unitAddr n (0x400 + k * 0x20))] } ∧
      (∀ m j, j < 16 → (m, j) ≠ (n, k) → portOf t m j = portOf s m j) ∧
      (EntriesNumbered s → ∀ e ∈ t.wb, e.home = n → e.port = k → e.issued = true ∧ e.sb ≠ .none) ∧
      t = { s with nextId := t.nextId, regs := t.regs, ports := t.ports, wb := t.wb, beats := t.beats, ctl := { s.ctl with pwr := t.ctl.pwr } } := by
  refine ⟨_, portDisable_row hn hk m ok, ?_⟩
  have hk' : k < 16 := by omega
  obtain ⟨p, hp⟩ := touch_frame n 6 k s
  rw [portCtlWrite_shuts en_of_disable hst, ctlStored, hp]
  have hissued (hnum : EntriesNumbered s) :=
    startDrain_issues (s := regPut (portCtlReset k) (portReg n k 0) (b2n nw * 2 % 4) (withPwr p s)) (n := n) (k := k) hnum.1
  obtain ⟨x, ws, bs, hd⟩ := startDrain_frame n k (regPut (portCtlReset k) (portReg n k 0) (b2n nw * 2 % 4) (withPwr p s))
  rw [hd] at hissued ⊢
  have hrise := keysRise_mput (d := portZero) (n * 16 + k) { portOf s n k with state := .draining } (wf_ports wf)
  have hdrain (t : State) (e : t.ports = mput portZero s.ports (n * 16 + k) { portOf s n k with state := .draining }) :=
    And.intro (portOf_stored_same (wf_ports wf) e) (portOf_stored_other (wf_ports wf) hk' e)
  refine ⟨?_, fun i j hj e => ?_, fun hnum e he hen hek => hissued hnum e he hen hek, rfl⟩
  · exact (portOf_stored_same (by exact hrise) rfl).trans (congrArg
      (fun r : PortRec => { r with disWait := r.disWait ++ [Origin.direct (unitAddr n (0x400 + k * 0x20))] }) (hdrain _ rfl).1)
  · exact (portOf_stored_other (by exact hrise) hk' rfl i j hj e).trans ((hdrain _ rfl).2 i j hj e)

end

/-! The end of a shutdown (R118, R120) -/

section
variable {n k : Nat} {s : State}

/-- A draining port has nothing more to wait for: no entry, no request but the writes that wait for this shutdown, and at a mesh port no
accepted beat of another slice (R112, R118). -/
def DrainQuiet (s : State) (n k : Nat) : Prop :=
  portEntries s n k = [] ∧ (∀ o ∈ s.ops, o.slice = n → o.port = k → .op o.id ∈ (portOf s n k).disWait ∨ .op o.id ∈ (portOf s n k).enWait) ∧
    (k = 10 → ∀ b ∈ s.beats, b.slice = n → b.src / 16 ≠ n → b.g = false ∧ b.queued = false)

theorem drainQuiet_iff : DrainQuiet s n k ↔ (portEntries s n k).isEmpty = true ∧ (!drainWaits s n k) = true := by
  have hops : (portOps s n k).any (fun o => !((portOf s n k).disWait.contains (.op o.id) || (portOf s n k).enWait.contains (.op o.id))) = false ↔
      ∀ o ∈ s.ops, o.slice = n → o.port = k → .op o.id ∈ (portOf s n k).disWait ∨ .op o.id ∈ (portOf s n k).enWait := by
    simp only [portOps, List.any_eq_false, List.mem_filter, and_imp, Bool.and_eq_true, beq_iff_eq, Bool.not_eq_true', Bool.not_eq_false,
      Bool.or_eq_true, List.contains_iff_mem]
  have hbeats : (decide (k = 10) && s.beats.any fun b => b.src / 16 != n && b.slice == n && b.taken) = false ↔
      (k = 10 → ∀ b ∈ s.beats, b.slice = n → b.src / 16 ≠ n → b.g = false ∧ b.queued = false) := by
    rw [Bool.and_eq_false_imp, decide_eq_true_eq]
    refine imp_congr_right fun _ => ?_
    simp only [List.any_eq_false, Beat.taken]
    refine forall₂_congr fun b _ => ?_
    cases b.g <;> cases b.queued <;> simp [imp_not_comm]
  unfold DrainQuiet drainWaits
  rw [Bool.not_eq_true', Bool.or_eq_false_iff, hops, hbeats, List.isEmpty_iff]

theorem portDrainDone_ends (wf : s.wf = true) (hst : (portOf s n k).state = .draining) (hq : DrainQuiet s n k) :
    Completes (.portDrainDone n k) s fun t => portOf t n k = { portOf s n k with state := .clearing, clearB := s.bcnt } ∧ t = { s with ports := t.ports } :=
  ⟨_, if_pos ⟨hst, drainQuiet_iff.1 hq⟩, portOf_stored_same (wf_ports wf) rfl, rfl⟩

theorem portDrainDone_waits (h : ¬((portOf s n k).state = .draining ∧ DrainQuiet s n k)) : exec (.portDrainDone n k) s = .next s :=
  if_neg fun e => h ⟨e.1, drainQuiet_iff.2 e.2⟩

theorem portClearDone_idle (h : (portOf s n k).state ≠ .clearing) : exec (.portClearDone n k) s = .next s := if_neg h

/-- Register writes that are rows of their own and end together answer in turn. -/
theorem finishAll_direct (st : Status) (as : List Nat) (s : State) :
    finishAll (as.map Origin.direct) st s = { s with outbox := (as.map fun a => Out.regDone a st).reverse ++ s.outbox } := by
  induction as generalizing s with
  | nil => rfl
  | cons a as ih =>
    refine (ih (emit (.regDone a st) s)).trans ?_
    simp [emit]

/-- What a shutdown leaves of a port's record: its buffers, urgency and late status are zero and nobody waits (R118 step 3). -/
def portFresh (r : PortRec) : PortRec :=
  { r with state := .disabled, disWait := [], enWait := [], late := none, reuse := [], urg := 0, held := [] }

/-- The port's registers once a shutdown has ended: of PORT_ERR bits 6:0 are left, and EN is 0. -/
def portCleared (n k : Nat) (s : State) : State :=
  let s2 := regPut 0 (portReg n k 0x10) (regGet s 0 (portReg n k 0x10) % 128) s
  regPut (portCtlReset k) (portReg n k 0) (regGet s2 (portCtlReset k) (portReg n k 0) / 2 * 2) s2

/-- The block at the end of a shutdown, the writes that waited for it answered. -/
def portShut (n k : Nat) (s : State) : State := finishAll (portOf s n k).disWait .ok (portCleared n k (modPort n k portFresh s))

theorem portClearDone_shuts (hst : (portOf s n k).state = .clearing) (hen : (portOf s n k).enWait = []) :
    exec (.portClearDone n k) s = .next (portShut n k s) :=
  (if_pos hst).trans (if_pos (by rw [hen]; rfl))

theorem portClearDone_reenables (hst : (portOf s n k).state = .clearing) (hen : (portOf s n k).enWait ≠ []) :
    exec (.portClearDone n k) s = .next (finishAll (portOf s n k).enWait .okDelayed
      (regPut (portCtlReset k) (portReg n k 0) 1 (modPort n k (fun r => { r with state := .enabled }) (portShut n k s)))) :=
  (if_pos hst).trans (if_neg (by rw [List.isEmpty_iff]; exact hen))

/-- From `s` to `t` a shutdown of the port has ended in the registers: PORT_ERR keeps bits 6:0, PORT_CTX and PORT_CFG stand (R118). -/
def RegsCleared (n k : Nat) (s t : State) : Prop :=
  regGet t 0 (portReg n k 0x10) = regGet s 0 (portReg n k 0x10) % 128 ∧ regGet t 0 (portReg n k 8) = regGet s 0 (portReg n k 8) ∧
    regGet t 0x44F00 (portReg n k 4) = regGet s 0x44F00 (portReg n k 4)

/-- PORT_CTL is none of them. -/
theorem RegsCleared.regPut_ctl {t : State} (h : RegsCleared n k s t) (hr : keysRise 0 t.regs = true) (d v : Nat) :
    RegsCleared n k s (regPut d (portReg n k 0) v t) := by
  obtain ⟨herr, hctx, hcfg⟩ := h
  exact ⟨(regGet_regPut_ne hr _ _ _ (portReg_ne (by decide))).trans herr, (regGet_regPut_ne hr _ _ _ (portReg_ne (by decide))).trans hctx,
    (regGet_regPut_ne hr _ _ _ (portReg_ne (by decide))).trans hcfg⟩

theorem RegsCleared.of_regs {t u : State} (h : RegsCleared n k s t) (e : u.regs = t.regs) : RegsCleared n k s u := by
  obtain ⟨herr, hctx, hcfg⟩ := h
  exact ⟨(regGet_of_regs e _ _).trans herr, (regGet_of_regs e _ _).trans hctx, (regGet_of_regs e _ _).trans hcfg⟩

theorem portCleared_regs (h : keysRise 0 s.regs = true) : keysRise 0 (portCleared n k s).regs = true ∧ RegsCleared n k s (portCleared n k s) := by
  refine ⟨keysRise_regPut (keysRise_regPut h _ _ _) _ _ _, RegsCleared.regPut_ctl ⟨?_, ?_, ?_⟩ (keysRise_regPut h _ _ _) _ _⟩
  · rw [regGet_regPut_same h]
    exact Nat.mod_eq_of_lt (by omega)
  · exact regGet_regPut_ne h _ _ _ (portReg_ne (by decide))
  · exact regGet_regPut_ne h _ _ _ (portReg_ne (by decide))

theorem portCleared_frame (n k : Nat) (s : State) : portCleared n k s = { s with regs := (portCleared n k s).regs } := rfl

/-- A shutdown that one write of PORT_CTL waits for. -/
theorem portShut_direct (wf : s.wf = true) {a : Nat} (hdis : (portOf s n k).disWait = [.direct a]) :
    ∃ rs, portShut n k s = { s with
        regs := rs, ports := mput portZero s.ports (n * 16 + k) (portFresh (portOf s n k)), outbox := .regDone a .ok :: s.outbox } ∧
      keysRise 0 rs = true ∧ ∀ t : State, t.regs = rs → RegsCleared n k s t := by
  obtain ⟨hrise, hclear⟩ := portCleared_regs (n := n) (k := k) (s := modPort n k portFresh s) (wf_regs (s := s) wf)
  refine ⟨(portCleared n k (modPort n k portFresh s)).regs, ?_, hrise, fun t e => hclear.of_regs e⟩
  rw [portShut, hdis, portCleared_frame]
  rfl

theorem portClearDone_ends (wf : s.wf = true) {a : Nat} {es : List Nat} (hst : (portOf s n k).state = .clearing)
    (hdis : (portOf s n k).disWait = [.direct a]) (hen : (portOf s n k).enWait = es.map Origin.direct) :
    Completes (.portClearDone n k) s fun t =>
      (portOf t n k).state = (if es = [] then .disabled else .enabled) ∧ (portOf t n k).reuse = [] ∧ (portOf t n k).late = none ∧ (portOf t n k).urg = 0 ∧
      t.outbox = (es.map fun b => .regDone b .okDelayed).reverse ++ .regDone a .ok :: s.outbox ∧
      regGet t 0 (portReg n k 0x10) = regGet s 0 (portReg n k 0x10) % 128 ∧ regGet t 0 (portReg n k 8) = regGet s 0 (portReg n k 8) ∧
      regGet t 0x44F00 (portReg n k 4) = regGet s 0x44F00 (portReg n k 4) ∧ t = { s with regs := t.regs, ports := t.ports, outbox := t.outbox } := by
  obtain ⟨rs, hshut, hrs, hclear⟩ := portShut_direct wf hdis
  have hports := keysRise_mput (d := portZero) (n * 16 + k) (portFresh (portOf s n k)) (wf_ports wf)
  have hport (t : State) (e : t.ports = (portShut n k s).ports) : portOf t n k = portFresh (portOf s n k) :=
    portOf_stored_same (wf_ports wf) (by rw [e, hshut])
  cases es with
  | nil =>
    obtain ⟨herr, hctx, hcfg⟩ := hclear (portShut n k s) (by rw [hshut])
    refine ⟨_, portClearDone_shuts hst hen, ?_⟩
    dsimp only
    rw [hport _ rfl]
    exact ⟨rfl, rfl, rfl, rfl, by rw [hshut]; rfl, herr, hctx, hcfg, by rw [hshut]⟩
  | cons e es =>
    refine ⟨_, portClearDone_reenables hst (by rw [hen]; exact List.cons_ne_nil _ _), ?_⟩
    have hnew : portOf (regPut (portCtlReset k) (portReg n k 0) 1 (modPort n k (fun r => { r with state := .enabled }) (portShut n k s))) n k =
        { portFresh (portOf s n k) with state := .enabled } := by
      refine (portOf_stored_same (by rw [hshut]; exact hports) rfl).trans ?_
      rw [hport _ rfl]
    have hregs := (hclear (modPort n k (fun r => { r with state := .enabled }) (portShut n k s)) (by rw [hshut]; rfl)).regPut_ctl
      (by rw [hshut]; exact hrs) (portCtlReset k) 1
    rw [hen, finishAll_direct]
    obtain ⟨herr, hctx, hcfg⟩ := hregs
    refine ⟨congrArg PortRec.state hnew, congrArg PortRec.reuse hnew, congrArg PortRec.late hnew, congrArg PortRec.urg hnew, ?_, herr, hctx, hcfg, ?_⟩
    · rw [hshut]
      rfl
    · rw [hshut]
      rfl

end
end Sys2Proof.Proofs
end

section
/-! SUPPORT. Proofs/PortBinding.lean: PORT_CTX and the contract of its port (04 R115; 06 R189), SLEEVE_CFG (02 R52 to R55) and BOOT_CTL
(02 R35, R36). -/
namespace Sys2Proof.Proofs
open Sys2Proof Sys2Proof.Machine Sys2Proof.Laws

/-! PORT_CTX -/

/-- A register that was stored with reset value 0: it reads the value, and every other register as before. -/
theorem regPut_zero_stores {s : State} (h : keysRise 0 s.regs = true) {r v : Nat} (hv : v < 2 ^ 32) :
    regGet (regPut 0 r v s) 0 r = v ∧ ∀ j, j ≠ r → mget (fun _ => 0) (regPut 0 r v s).regs j = mget (fun _ => 0) s.regs j :=
  ⟨(regGet_regPut_same h 0 r v).trans (Nat.mod_eq_of_lt hv), fun _ ne => mget_mput_ne_any (d := fun _ => BitVec.ofNat 32 0) _ h ne⟩

section
variable {n k v : Nat} {by_ : RegBy} {s : State}

/-- A context that PORT_CTX of slice `n` may name: it exists in the slice's partition and is neither SUSPENDED nor being destroyed (R115;
13 R395). -/
def Binds (s : State) (n c : Nat) : Prop :=
  ∃ x, ctxOf s c = some x ∧ (ctxSpan s x).has n = true ∧ (partOf s x.part).state ≠ .absent ∧ x.state ≠ .suspended ∧ x.destroying = false

theorem portCtx_spec (hn : n < 64) (hk : k ≤ 10) : regSpecOf n (0x400 + k * 0x20 + 8) = some (rwReg 0x800007FF 0) :=
  regSpecOf_port hn hk (by decide) (by decide)

/-- A value of PORT_CTX without a reserved bit is its BOUND and CTX (R115). -/
theorem portCtx_value (hn : n < 64) (hk : k ≤ 10) (hv : v < 2 ^ 32) (hs : setsReserved n (0x400 + k * 0x20 + 8) v = false) :
    v = b2n (bitOf v 31) * 2 ^ 31 + v % 2048 := by
  have hmid : v / 2 ^ 11 % 2 ^ 20 = 0 := field_eq_zero fun i hlo hhi => bit_unused (portCtx_spec hn hk) hs (by omega) (by
    have : ∀ j < 20, bitOf (rwReg 0x800007FF 0).used (11 + j) = false := by decide
    obtain ⟨j, rfl⟩ := Nat.exists_eq_add_of_le hlo
    exact this j (by omega))
  have htop : b2n (bitOf v 31) = v / 2 ^ 31 := by
    unfold b2n bitOf
    split <;> simp_all <;> omega
  omega

theorem portCtxWrite_drops (h : k = 10 ∨ (portOf s n k).state ≠ .disabled) : portCtxWrite n k v by_ s = dropReg .writeIgnored by_ (portAddr n k 8) s :=
  if_pos h

theorem portCtxWrite_stores (hv : v = b2n (bitOf v 31) * 2 ^ 31 + v % 2048) (hk : k ≠ 10) (hst : (portOf s n k).state = .disabled)
    (hb : bitOf v 31 = false ∨ Binds s n (v % 2048)) : portCtxWrite n k v by_ s = (some .ok, unbindPort (n * 8192 + k) (regPut 0 (portReg n k 8) v s)) := by
  unfold portCtxWrite
  rw [if_neg (by simp [hk, hst])]
  cases hbit : bitOf v 31 with
  | false =>
    rw [hbit] at hv
    rw [if_pos (by rfl), ← (by simpa [b2n] using hv : v = v % 2048)]
  | true =>
    rw [hbit] at hv
    obtain hf | ⟨x, hx, hspan, hpart, hstate, hdes⟩ := hb
    · rw [hbit] at hf
      exact absurd hf (by decide)
    · rw [if_neg (by decide), hx]
      dsimp only
      rw [if_pos ⟨hspan, hpart, hstate, by rw [hdes]; rfl⟩, ← (by simpa [b2n] using hv : v = 2 ^ 31 + v % 2048)]

theorem portCtxWrite_unbound (hk : k ≠ 10) (hst : (portOf s n k).state = .disabled) (hbit : bitOf v 31 = true) (hb : ¬Binds s n (v % 2048)) :
    portCtxWrite n k v by_ s = (some .boundViolation, s) := by
  unfold portCtxWrite
  rw [if_neg (by simp [hk, hst]), if_neg (by rw [hbit]; decide)]
  cases hx : ctxOf s (v % 2048) with
  | none => rfl
  | some x =>
    refine if_neg fun ⟨hspan, hpart, hstate, hdes⟩ => hb ⟨x, hx, hspan, hpart, hstate, ?_⟩
    simpa using hdes

end

theorem updWhere_none {α : Type} {p : α → Bool} {g : α → α} {l : List α} (h : ∀ x ∈ l, p x = false) : updWhere p g l = l := by
  unfold updWhere
  refine (List.map_congr_left fun x hx => ?_).trans (List.map_id _)
  rw [h x hx]
  rfl

/-- A port without a contract is unbound already. -/
theorem unbindPort_none {target : Nat} {s : State} (h : ∀ y ∈ s.contracts, ¬(y.kind = 1 ∧ y.target = target)) : unbindPort target s = s := by
  have hno : ∀ y ∈ s.contracts, (y.kind == 1 && y.target == target) = false := fun y hy => by
    rw [Bool.eq_false_iff]
    simpa using h y hy
  have hstart : startUnbind 1 target .none s = s := by
    unfold startUnbind
    rw [List.find?_eq_none.2 fun y hy => by rw [hno y hy, Bool.false_and]; exact Bool.false_ne_true]
  unfold unbindPort
  rw [hstart]
  dsimp only
  rw [updWhere_none hno]

/-- The one contract of a port begins to end at the boundaries of its owner's span, and is inactive at once (06 R189; log entry 36). -/
theorem unbindPort_one {target : Nat} {s : State} {y : Contract} (hc : s.contracts = [y]) (hk : y.kind = 1) (ht : y.target = target) (hu : y.unbinding = false)
    (ho : y.origin = .none) : unbindPort target s = { s with
      nextId := s.nextId + 1, contracts := [{ y with unbinding := true, todo := (oSpan y.owner).slices, stamp := s.nextId, active := false }] } := by
  unfold unbindPort startUnbind
  simp [hc, hk, ht, hu, ho, freshId, finishBind, finish, updWhere]

section
variable {n k : Nat} {v : Word} {w : RegWriter} {s : State}

theorem portCtx_row (hn : n < 64) (hk : k ≤ 10) (m : MeshOpen w s) (ok : regAddrOk s (unitAddr n (0x400 + k * 0x20 + 8)) false = true)
    (hs : setsReserved n (0x400 + k * 0x20 + 8) v.toNat = false) :
    exec (.portCtxWrite n k v w) s = .next (rowEnd w (unitAddr n (0x400 + k * 0x20 + 8))
      (portCtxWrite n k v.toNat (writerBy (unitAddr n (0x400 + k * 0x20 + 8)) w) s)) :=
  portRow_rw hn hk (by decide) (by decide) rfl (by decide) v.isLt m ok hs

end

/-! SLEEVE_CFG -/

section
variable {n v : Nat} {by_ : RegBy} {s : State}

theorem sleeve_spec (hn : n < 64) : regSpecOf n 0x200 = some { rw := 0, w1 := 0, w1c := 0, sl := 0xFFFF, ro := 0, reset := 0xFFFF } := by
  unfold regSpecOf
  rw [if_neg (by decide), if_pos (by omega)]
  rfl

theorem sleeve_lt (hn : n < 64) (hv : v < 2 ^ 32) (hs : setsReserved n 0x200 v = false) : v < 65536 := by
  have htop : v / 2 ^ 16 % 2 ^ 16 = 0 := field_eq_zero fun i hlo hhi => bit_unused (sleeve_spec hn) hs (by omega) (by
    have : ∀ j < 16, bitOf (RegSpec.used { rw := 0, w1 := 0, w1c := 0, sl := 0xFFFF, ro := 0, reset := 0xFFFF }) (16 + j) = false := by decide
    obtain ⟨j, rfl⟩ := Nat.exists_eq_add_of_le hlo
    exact this j (by omega))
  omega

theorem regRead_sleeve (s : State) (hn : n < 64) : regRead s n 0x200 = sleeveCfg s n := by
  unfold regRead sliceRead
  rw [show isSliceUnit n = true from decide_eq_true (by omega), unitSlice_active s hn]
  rfl

/-- Only a sealed slice drops a write of SLEEVE_CFG, and only one that would change it. -/
theorem regDrops_sleeve (hn : n < 64) (h : sealedSlice s n = false ∨ v = sleeveCfg s n) : regDrops s n 0x200 v = false := by
  have hu : isSliceUnit n = true := decide_eq_true (by omega)
  unfold regDrops
  rw [sleeve_spec hn, regRead_sleeve s hn]
  rcases h with h | h <;> simp [RegSpec.allRo, hu, unitSlice_active s hn, h]

/-- A write of SLEEVE_CFG that would change the sleeves of a sealed slice is dropped, whichever bit differs (R52). -/
theorem sleeve_sealed (hn : n < 64) (hv : v < 65536) (hse : sealedSlice s n = true) (hne : v ≠ sleeveCfg s n) :
    regWrite1 n 0x200 v by_ s = dropReg .writeIgnored by_ (unitAddr n 0x200) s := by
  cases hd : regDrops s n 0x200 v with
  | true => rw [regWrite1_dropped hd, regNo_mul_four (by decide)]
  | false =>
    rw [regWrite1_slice hn (sleeve_spec hn) rfl hd]
    unfold sliceWrite sleeveWrite
    rw [if_pos rfl, Nat.mod_eq_of_lt hv, regNo_mul_four (by decide)]
    exact if_pos ⟨hse, hne⟩

/-- Any other waits for the frame boundary, unless the weave needs a sleeve it takes away (R54, R55). -/
theorem sleeve_open (hn : n < 64) (hv : v < 65536) (h : sealedSlice s n = false ∨ v = sleeveCfg s n) :
    regWrite1 n 0x200 v by_ s = if sleeveBreaks (latestWeave s n) (latestSleeve s n) v then (some .rejectedContract, s)
      else (none, modSlice n (fun r => { r with pendSleeve := r.pendSleeve ++ [{ stamp := s.nextId, afterB := s.bcnt, value := v, origin := by_.origin }] })
        { s with nextId := s.nextId + 1 }) := by
  rw [regWrite1_slice hn (sleeve_spec hn) rfl (regDrops_sleeve hn h)]
  have hpass : ¬(sealedSlice s n = true ∧ v ≠ sleeveCfg s n) := by
    rintro ⟨hse, hne⟩
    rcases h with h | h
    · rw [h] at hse
      exact absurd hse (by decide)
    · exact hne h
  unfold sliceWrite sleeveWrite
  rw [if_pos rfl, Nat.mod_eq_of_lt hv]
  exact if_neg hpass

end

/-! BOOT_CTL -/

theorem bootCtl_spec : regSpecOf 0x80 0x18 = some (w1Reg 0x07FF0001) := rfl

theorem regDrops_bootCtl (s : State) (v : Nat) : regDrops s 0x80 0x18 v = mget (fun _ => false) s.w1done (regNo 0x80 0x18) := by
  unfold regDrops
  rw [bootCtl_spec]
  simp [w1Reg, RegSpec.allRo, isSliceUnit]

/-- The first write of BOOT_CTL is stored, and marks the register as written (00 R4; 02 R35). -/
theorem bootCtl_first {v : Nat} {by_ : RegBy} {s : State} (h : mget (fun _ => false) s.w1done (regNo 0x80 0x18) = false) :
    regWrite1 0x80 0x18 v by_ s = (some .ok, { regPut 0 (regNo 0x80 0x18) v s with w1done := mput (fun _ => false) s.w1done (regNo 0x80 0x18) true }) := by
  rw [regWrite1_common ((regDrops_bootCtl s v).trans h)]
  rfl

end Sys2Proof.Proofs
end

section
/-! SUPPORT. Proofs/PortsAndSleeves.lean: the rows that configure ports, sleeves and the boot window, from their registers' rules. -/
namespace Sys2Proof.Proofs
open Sys2Proof Sys2Proof.Machine Sys2Proof.Laws

section
variable {n k : Nat} {v : Word} {w : RegWriter} {s : State}

/-- A write of PORT_CTX that binds or unbinds its port stores the value and ends the port's contract. -/
theorem portCtx_stores (hn : n < 64) (hk : k ≤ 10) (m : MeshOpen w s) (ok : regAddrOk s (unitAddr n (0x400 + k * 0x20 + 8)) false = true)
    (hs : setsReserved n (0x400 + k * 0x20 + 8) v.toNat = false) (hmesh : k ≠ 10) (hst : (portOf s n k).state = .disabled)
    (hb : bitOf v.toNat 31 = false ∨ Binds s n (v.toNat % 2048)) :
    exec (.portCtxWrite n k v w) s = .next (emit (.regDone (unitAddr n (0x400 + k * 0x20 + 8)) .ok)
      (unbindPort (n * 8192 + k) (regPut 0 (portReg n k 8) v.toNat s))) := by
  rw [portCtx_row hn hk m ok hs, portCtxWrite_stores (portCtx_value hn hk v.isLt hs) hmesh hst hb]
  rfl

theorem portCtx_drops (hn : n < 64) (hk : k ≤ 10) (m : MeshOpen w s) (ok : regAddrOk s (unitAddr n (0x400 + k * 0x20 + 8)) false = true)
    (hs : setsReserved n (0x400 + k * 0x20 + 8) v.toNat = false) (h : k = 10 ∨ (portOf s n k).state ≠ .disabled) :
    exec (.portCtxWrite n k v w) s = .next (rowEnd w (unitAddr n (0x400 + k * 0x20 + 8))
      (dropReg .writeIgnored (writerBy (unitAddr n (0x400 + k * 0x20 + 8)) w) (unitAddr n (0x400 + k * 0x20 + 8)) s)) := by
  rw [portCtx_row hn hk m ok hs, portCtxWrite_drops h, portAddr_eq (by decide)]

theorem portCtx_unbound (wf : s.wf = true) (hn : n < 64) (hk : k ≤ 10) (m : MeshOpen w s) (ok : regAddrOk s (unitAddr n (0x400 + k * 0x20 + 8)) false = true)
    (hs : setsReserved n (0x400 + k * 0x20 + 8) v.toNat = false) (hmesh : k ≠ 10) (hst : (portOf s n k).state = .disabled)
    (hbit : bitOf v.toNat 31 = true) (hb : ¬Binds s n (v.toNat % 2048)) :
    Completes (.portCtxWrite n k v w) s fun t => Responds (unitAddr n (0x400 + k * 0x20 + 8)) .boundViolation s t ∧ PortErrSet w.slice 10 3 s t ∧
      t = { s with regs := t.regs, outbox := t.outbox } := by
  refine ⟨_, portCtx_row hn hk m ok hs, ?_⟩
  rw [portCtxWrite_unbound hmesh hst hbit hb]
  exact ⟨rfl, portErr_sets (wf_regs wf) w.slice 10 (by decide), rfl⟩

end

section
variable {n : Nat} {v : Word} {w : RegWriter} {s : State}

theorem sleeve_row (hn : n < 64) (m : MeshOpen w s) (ok : regAddrOk s (unitAddr n 0x200) false = true) (hs : setsReserved n 0x200 v.toNat = false) :
    exec (.sleeveCfgWrite n v w) s = .next (rowEnd w (unitAddr n 0x200) (regWrite1 n 0x200 v.toNat (writerBy (unitAddr n 0x200) w) s)) :=
  writeRow_slice hn (by decide) v.isLt m ok hs

theorem bootCtl_row (m : MeshOpen w s) (hs : setsReserved 0x80 0x18 v.toNat = false) :
    exec (.bootCtlWrite v w) s = .next (rowEnd w (unitAddr 0x80 0x18) (regWrite1 0x80 0x18 v.toNat (writerBy (unitAddr 0x80 0x18) w) s)) :=
  writeRow_word (by decide) (by decide) (by decide) (by decide) v.isLt m (regAddrOk_common s (by decide) (by decide) rfl) hs

end

/-- Settles O48: each row is the write of its register, and the register's rule says the rest. -/
theorem portsAndSleevesAreConfigured : Obligations.PortsAndSleevesAreConfigured := by
  unfold Obligations.PortsAndSleevesAreConfigured
  refine ⟨?ctl, ?shutdown, ?ctx, ?sleeve, ?boot⟩
  case ctl =>
    intro n k nw w s wf hn hk m a r ok others idle
    refine ⟨portEnable_enables wf hn hk m ok, fun hst hw => ?_, fun hst => ?_, fun hst => ⟨fun hnw => ?_, portEnable_awaits wf hn hk m ok hst⟩,
      portDisable_shuts wf hn hk m ok, fun hst => ?_⟩
    · refine ⟨_, portEnable_row hn hk m ok, ?_⟩
      rw [portCtlWrite_loose en_of_enable hst hw, portAddr_eq (by decide)]
      exact rowEnd_dropped w a s
    · refine ⟨_, portEnable_row hn hk m ok, ?_⟩
      rw [portCtlWrite_enabled_stays en_of_enable hst]
      exact rowEnd_idle w a n k (.inl rfl) s
    · refine ⟨_, portEnable_row hn hk m ok, ?_⟩
      rw [portCtlWrite_pending en_of_enable (noWait_of_enable.trans hnw) hst]
      exact rowEnd_idle w a n k (.inr rfl) s
    · refine ⟨_, portDisable_row hn hk m ok, ?_⟩
      rw [portCtlWrite_shut_stays en_of_disable hst]
      exact rowEnd_idle w a n k (.inl rfl) s
  case shutdown =>
    intro n k s wf r quiet
    exact ⟨portDrainDone_ends wf, portDrainDone_waits, portClearDone_idle, fun a es => portClearDone_ends wf⟩
  case ctx =>
    intro n k v w s wf hn hk m a c reg ok hs binds stores
    have hregs := wf_regs wf
    have hstores := regPut_zero_stores hregs (r := reg) v.isLt
    refine ⟨fun h => ⟨_, portCtx_drops hn hk m ok hs h, rowEnd_dropped w a s⟩, fun hmesh hst hb => ⟨fun hnone => ?_, fun y hc hy ht hu ho => ?_⟩,
      fun hmesh hst hbit hb => portCtx_unbound wf hn hk m ok hs hmesh hst hbit hb⟩
    · refine ⟨_, portCtx_stores hn hk m ok hs hmesh hst hb, ?_⟩
      rw [unbindPort_none (by exact hnone)]
      exact ⟨⟨rfl, hstores⟩, rfl⟩
    · refine ⟨_, portCtx_stores hn hk m ok hs hmesh hst hb, ?_⟩
      rw [unbindPort_one (by exact hc) hy ht hu ho]
      exact ⟨⟨rfl, hstores⟩, rfl, rfl⟩
  case sleeve =>
    intro n v w s wf hn m a ok hs
    have hv := sleeve_lt hn v.isLt hs
    refine ⟨fun hse hne => ⟨_, sleeve_row hn m ok hs, ?_⟩, fun h hbr => ⟨_, sleeve_row hn m ok hs, ?_⟩, fun h hbr => ⟨_, sleeve_row hn m ok hs, ?_⟩⟩
    · rw [sleeve_sealed hn hv hse hne]
      exact rowEnd_dropped w a s
    · rw [sleeve_open hn hv h, if_pos hbr]
      exact ⟨rfl, rfl⟩
    · rw [sleeve_open hn hv h, if_neg (by rw [hbr]; decide)]
      have hslice (j : Nat) := sliceOf_modSlice (wf_slices wf) n j
        (fun r => { r with pendSleeve := r.pendSleeve ++ [{ stamp := s.nextId, afterB := s.bcnt, value := v.toNat, origin := .direct a }] })
      exact ⟨(hslice n).trans (if_pos rfl), fun j ne => (hslice j).trans (if_neg ne), rfl⟩
  case boot =>
    intro v w s wf m a hs
    refine ⟨fun hfirst => ⟨_, bootCtl_row m hs, ?_⟩, fun hlate => ⟨_, bootCtl_row m hs, ?_⟩⟩
    · rw [bootCtl_first hfirst]
      exact ⟨rfl, (regGet_regPut_same (wf_regs wf) _ _ _).trans (Nat.mod_eq_of_lt v.isLt), mget_mput_eq (d := fun _ => false) _ true (wf_w1done wf), rfl⟩
    · rw [regWrite1_dropped ((regDrops_bootCtl s _).trans hlate), regNo_mul_four (by decide)]
      exact rowEnd_dropped w a s

end Sys2Proof.Proofs
end

section
/-! SUPPORT. Proofs/MeshRequests.lean: a request at an ENABLED mesh port, from its row to the region it names and to its answer (04 R86, R89;
02 R31 to R34), and what the crossbar then passes on (04 R106). -/
namespace Sys2Proof.Proofs
open Sys2Proof Sys2Proof.Machine Sys2Proof.Laws

/-! What the crossbar passes on -/

theorem slicesDrawn_refl (s : State) : SlicesDrawn s s := fun _ => rfl

theorem slicesDrawn_trans {a b c : State} (h : SlicesDrawn a b) (k : SlicesDrawn b c) : SlicesDrawn a c := fun n => by rw [k n, h n]

theorem beatsTaken_trans {a b c : State} (h : BeatsTaken a b) (k : BeatsTaken b c) : BeatsTaken a c := by
  obtain ⟨hb, hs⟩ := h
  obtain ⟨kb, ks⟩ := k
  exact ⟨kb.trans hb, slicesDrawn_trans hs ks⟩

/-- The claim reads the beats and slices of the earlier state alone. -/
theorem beatsTaken_of_eq {u s t : State} (h : BeatsTaken u t) (hb : u.beats = s.beats) (hs : u.slices = s.slices) : BeatsTaken s t := by
  obtain ⟨hbeats, hslices⟩ := h
  refine ⟨hbeats.trans (by rw [hb]), fun n => ?_⟩
  have hn : sliceOf u n = sliceOf s n := by unfold sliceOf; rw [hs]
  rw [← hn]
  exact hslices n

/-- The state with these slices and beats: what the crossbar may change. -/
def passOn (sl : NMap SliceRec) (bs : List Beat) (u : State) : State := { u with slices := sl, beats := bs }

theorem slicesDrawn_modSlice {s : State} (h : keysRise 0 s.slices = true) (n : Nat) {f : SliceRec → SliceRec}
    (hf : ∀ r, f r = { r with used := (f r).used, sent := (f r).sent }) : SlicesDrawn s (modSlice n f s) := by
  intro m
  rw [sliceOf_modSlice h n m f]
  split
  · next e => rw [e]; exact hf _
  · rfl

/-- What `drawAllow` makes of a slice's record (08 R277). -/
def drawRec (reqr group ep len : Nat) (r : SliceRec) : SliceRec :=
  { r with used := mput (fun _ => 0) r.used reqr (mget (fun _ => 0) r.used reqr + len)
           sent := if r.cut ≤ ep ∨ r.sent.contains (reqr * 16 + group) then r.sent else (reqr * 16 + group) :: r.sent }

theorem drawAllow_drawn {s : State} (h : keysRise 0 s.slices = true) (n reqr group ep len : Nat) :
    ∃ sl, drawAllow n reqr group ep len s = { s with slices := sl } ∧ keysRise 0 sl = true ∧ SlicesDrawn s { s with slices := sl } := by
  unfold drawAllow
  split
  · exact ⟨s.slices, rfl, h, slicesDrawn_refl s⟩
  · exact ⟨_, rfl, keysRise_mput (d := fun _ => SliceRec.zero) n _ h, slicesDrawn_modSlice h n (f := drawRec reqr group ep len) fun _ => rfl⟩

/-- A beat that the crossbar passes on only takes its bank-queue entry (03 R61). -/
theorem admitBeat_passes {s : State} (h : keysRise 0 s.slices = true) (b : Beat) :
    ∃ sl bs, admitBeat s b = passOn sl bs s ∧ keysRise 0 sl = true ∧ BeatsTaken s (passOn sl bs s) := by
  unfold admitBeat
  split
  · obtain ⟨sl, hd, hr, hs⟩ := drawAllow_drawn (s := { s with beats := updWhere (fun x => x.seq == b.seq) (fun x => { x with queued := true }) s.beats })
      h b.slice b.reqr b.group b.ep b.len
    refine ⟨sl, _, hd, hr, ?_, hs⟩
    refine List.map_map.trans (List.map_congr_left fun x _ => ?_)
    dsimp only [Function.comp]
    split <;> rfl
  · exact ⟨s.slices, s.beats, rfl, h, rfl, slicesDrawn_refl s⟩

theorem admitBeats_passes {s : State} (h : keysRise 0 s.slices = true) : ∃ sl bs, admitBeats s = passOn sl bs s ∧ BeatsTaken s (passOn sl bs s) := by
  unfold admitBeats
  generalize ([3, 2, 1, 0].flatMap fun ep => s.beats.filter fun b => !b.g && !b.queued && b.ep == ep) = l
  induction l generalizing s with
  | nil => exact ⟨s.slices, s.beats, rfl, rfl, slicesDrawn_refl s⟩
  | cons b l ih =>
    obtain ⟨sl, bs, hb, hr, ht⟩ := admitBeat_passes h b
    obtain ⟨sl', bs', hl, ht'⟩ := ih (s := passOn sl bs s) hr
    exact ⟨sl', bs', by rw [List.foldl_cons, hb, hl]; rfl, beatsTaken_trans ht ht'⟩

/-! From the row to the region -/

/-- A request at an ENABLED mesh port is decoded once its slice is awake (R89); a register access does not wake the slice (15 R457). -/
theorem portCmd_mesh {kind : Nat} {r : PortReq} {s : State} (wf : s.wf = true) (h : PortReaches kind r s) (hp : r.port = 10) :
    ∃ p, (withPwr p s).wf = true ∧ (∀ ns, Serves s ns → Serves (withPwr p s) ns) ∧ (regionOf (reqOf s r).local = 8 → withPwr p s = s) ∧
      portCmd kind r s = admitBeats (decodeReq (reqOf s r) (withPwr p s)) := by
  obtain ⟨hopen, hport, hslice, hkind, hdata, hen, hwired, hserves, htag, hready⟩ := h
  obtain ⟨hruns, hcut, hfail⟩ := hserves r.slice List.mem_cons_self
  have hpp : isPP1 s r.slice r.port = false := if_pos hp
  have htags : ((sameWay s (reqOf s r)).any fun o => o.tag == (reqOf s r).h.tag) = false := by
    rcases htag with hf | hf | hf
    · exact absurd hf Bool.false_ne_true
    · exact absurd (hpp.symm.trans hf) Bool.false_ne_true
    · exact List.any_eq_false.2 fun o ho => by simpa using hf o ho
  have htake (p : NMap SlcPwr) : portTake (reqOf s r) (withPwr p s) = admitBeats (decodeReq (reqOf s r) (withPwr p s)) := by
    refine (if_neg ?_).trans (if_neg ?_)
    · rintro ⟨-, -, hany⟩
      exact absurd (htags.symm.trans hany) Bool.false_ne_true
    · rw [show (reqOf s r).ready (withPwr p s) = true from hready]
      decide
  have hlen : r.data.length = dataLen (reqOf s r).h := by rw [← hdata]; exact (List.length_map _).symm
  have hcmd : portCmd kind r s = portArrive (reqOf s r) s := if_pos ⟨hopen, hport, hslice, hwired, .inl hkind, hlen⟩
  rw [hcmd]
  unfold portArrive
  simp only [hen, show slcFailed s (reqOf s r).slice = false from hfail, Bool.false_eq_true, if_false]
  split
  · exact ⟨s.ctl.pwr, wf, fun _ h => h, fun _ => rfl, htake s.ctl.pwr⟩
  · next hreg =>
    obtain ⟨hawake, f, hf, hst, hmode⟩ := touch_serves (touchId s (reqOf s r)).1 (touchId s (reqOf s r)).2 hruns hcut
    have hkeep := (keep_touch r.slice (touchId s (reqOf s r)).1 (touchId s (reqOf s r)).2 s (Keep.refl s)).wf wf
    rw [hf] at hkeep
    refine ⟨_, hkeep, fun ns hns => serves_modPwr (wf_pwr wf) hst hmode hns, fun h8 => ?_, ?_⟩
    · exact absurd (show (reqOf s r).isReg = true by simp [Req.isReg, Req.mesh, h8, show (reqOf s r).port = 10 from hp]) hreg
    · exact (if_pos hawake).trans ((congrArg (portTake (reqOf s r)) hf).trans (htake _))

/-- A request that passes steps 1 to 3 of R89 goes by its region (02 R31 to R34). -/
theorem decodeReq_local {q : Req} {s : State} (hr : q.h.rsvd = false) (hc : q.h.kind = 0 → extCred q.ext = 0) (hk : q.h.kind = 0 ∨ q.h.kind = 1)
    (hs : shapeOk s q.slice q.port q.ret.isSome q.h = true) (hg : q.h.gta = false) : decodeReq q s = localReq q s := by
  have hcred : ¬(q.h.rsvd = true ∨ q.mesh = true ∧ q.h.kind ≠ 1 ∧ q.h.kind ≠ 2 ∧ extCred q.ext ≠ 0) := by
    rintro (h | ⟨-, h1, -, h0⟩)
    · exact absurd (hr.symm.trans h) Bool.false_ne_true
    · exact h0 (hc (hk.resolve_right h1))
  unfold decodeReq
  rw [if_neg hcred, if_neg (by rw [hs]; decide), if_neg (by rw [hg]; exact fun h => absurd h.1 Bool.false_ne_true),
    if_neg (by rw [hg]; exact fun h => absurd h.1 Bool.false_ne_true)]

theorem local_of_not_gta {q : Req} (hg : q.h.gta = false) : q.local = q.h.addr := by
  unfold Req.local
  rw [hg]
  rfl

/-- A request at a mesh port for a region without pockets. -/
theorem localReq_region {q : Req} {s : State} (hp : q.port = 10) (hg : q.h.gta = false)
    (hr : regionOf q.local = 0 ∨ regionOf q.local = 4 ∨ regionOf q.local = 8) :
    localReq q s = if regionOf q.local = 0 then bootWindow q s else if regionOf q.local = 4 then sysRegion q s else regRegion q s := by
  have hst : storeOf (regionOf q.local) = none := by rcases hr with h | h | h <;> rw [h] <;> rfl
  have hfmt : q.fmtOk = true := by unfold Req.fmtOk; rw [hg]; rfl
  have hmesh : q.mesh = true := decide_eq_true hp
  unfold localReq
  simp only [hst]
  rw [if_neg (by omega), if_neg (by rw [hfmt]; decide), if_neg (by rw [hmesh]; decide)]

/-! Answers -/

section
variable {q : Req} {s : State}

theorem replyReq_mesh (hp : q.port = 10) (hret : q.ret = none) (st : Status) (count : Nat) (data : List (Byte × Bool)) :
    replyReq q st count data s = emit (.portRsp q.slice q.port q.h.tag st (Nat.min count 4095) data []) { s with nextId := s.nextId + 1 } := by
  have hpp (t : State) : isPP1 t q.slice q.port = false := if_pos hp
  unfold replyReq answer
  rw [hret]
  dsimp only
  rw [hpp]
  rfl

theorem ctx_mesh (hp : q.port = 10) : q.ctx s = extCtx q.ext := if_pos (decide_eq_true hp)

theorem refuseReq_mesh (hp : q.port = 10) (hret : q.ret = none) (st : Status) (bit : Nat) :
    refuseReq q st bit true s = emit (.portRsp q.slice q.port q.h.tag st 0 [] [])
      { report st 1 q.slice 10 q.who (extCtx q.ext) q.h.addr (portErr q.slice 10 bit s) with nextId := s.nextId + 1 } := by
  unfold refuseReq
  rw [replyReq_mesh hp hret, ctx_mesh hp, hp]
  rfl

end

/-- A response that is the next output answers the request: the mesh port speaks PP2 (04 R80, R86). -/
theorem portAnswers_of_outbox {r : PortReq} {s t : State} (hp : r.port = 10) {st : Status} {count : Nat} {data : List (Byte × Bool)}
    (h : t.outbox = .portRsp r.slice r.port (reqOf s r).h.tag st (Nat.min count 4095) data [] :: s.outbox) : PortAnswers r st count data [] s t := by
  have hpp : isPP1 s r.slice r.port = false := if_pos hp
  exact fun _ => ⟨fun _ => h, fun hf => absurd (hpp.symm.trans hf) Bool.false_ne_true⟩

end Sys2Proof.Proofs
end

section
/-! SUPPORT. Proofs/SystemRegion.lean: requests for the regions without pockets in one form, and the system region and the load area of the boot
window (02 R31, R33, R37; 18 R526). -/
namespace Sys2Proof.Proofs
open Sys2Proof Sys2Proof.Machine Sys2Proof.Laws

/-- A READ (kind 0) or WRITE (kind 1) at an ENABLED mesh port that passes steps 1 to 3 of R89, in class B, without a transform. -/
structure PlainRequest (kind : Nat) (r : PortReq) (s : State) : Prop where
  wf : s.wf = true
  reaches : PortReaches kind r s
  kind_le : kind = 0 ∨ kind = 1
  port : r.port = 10
  rsvd : (reqOf s r).h.rsvd = false
  classB : (reqOf s r).h.g = false
  gta : (reqOf s r).h.gta = false
  xform : (reqOf s r).h.xform = 0
  cred : kind = 0 → extCred (reqOf s r).ext = 0
  shape : shapeOk s r.slice 10 false (reqOf s r).h = true

section
variable {kind : Nat} {r : PortReq} {s : State}

theorem PlainRequest.kind_eq (R : PlainRequest kind r s) : (reqOf s r).h.kind = kind := by
  obtain ⟨-, -, -, h, -⟩ := R.reaches
  exact h

theorem PlainRequest.local_eq (R : PlainRequest kind r s) : (reqOf s r).local = (reqOf s r).h.addr := local_of_not_gta R.gta

/-- A WRITE brings as many bytes as it names. -/
theorem PlainRequest.data_length (R : PlainRequest kind r s) (h : kind = 1) : r.data.length = (reqOf s r).h.len + 1 := by
  obtain ⟨-, -, -, -, hd, -⟩ := R.reaches
  have hlen : dataLen (reqOf s r).h = (reqOf s r).h.len + 1 := if_pos (.inl (R.kind_eq.trans h))
  rw [← hlen, ← hd]
  exact (List.length_map _).symm

theorem PlainRequest.stored (R : PlainRequest kind r s) : writeTransform (reqOf s r).h ((reqOf s r).data.map (·.1)) = r.data := by
  unfold writeTransform
  rw [if_neg (by rw [R.xform]; decide), if_neg (by rw [R.xform]; decide)]
  exact (List.map_map).trans (List.map_id _)

/-- A row of such a request completes with what its region does to the awake state, the crossbar's beats apart. -/
theorem PlainRequest.completes (R : PlainRequest kind r s) {row : Instr} (hrow : (row, kind) ∈ [(Instr.read r, 0), (.write r, 1)])
    {act : State → State} (hact : ∀ u, localReq (reqOf s r) u = act u) {P : State → Prop}
    (hP : ∀ p, (withPwr p s).wf = true → (∀ ns, Serves s ns → Serves (withPwr p s) ns) → (regionOf (reqOf s r).h.addr = 8 → withPwr p s = s) →
      ∀ sl bs, BeatsTaken (act (withPwr p s)) (passOn sl bs (act (withPwr p s))) → P (passOn sl bs (act (withPwr p s)))) : Completes row s P := by
  obtain ⟨p, hwf, hserves, hreg, hcmd⟩ := portCmd_mesh R.wf R.reaches R.port
  rw [R.local_eq] at hreg
  have hk : (reqOf s r).h.kind = 0 ∨ (reqOf s r).h.kind = 1 := by rw [R.kind_eq]; exact R.kind_le
  have hdec : decodeReq (reqOf s r) (withPwr p s) = act (withPwr p s) :=
    (decodeReq_local R.rsvd (by rw [R.kind_eq]; exact R.cred) hk (by rw [show (reqOf s r).port = 10 from R.port]; exact R.shape) R.gta).trans (hact _)
  have hwf' := (keep_decodeReq (reqOf s r) _ (Keep.refl (withPwr p s))).wf hwf
  rw [hdec] at hcmd hwf'
  obtain ⟨sl, bs, hpass, htaken⟩ := admitBeats_passes (wf_slices hwf')
  refine ⟨passOn sl bs (act (withPwr p s)), ?_, hP p hwf hserves hreg sl bs htaken⟩
  rw [← hpass, ← hcmd]
  rcases List.mem_cons.1 hrow with h | h
  · cases h
    rfl
  · cases List.mem_singleton.1 h
    rfl

/-- What a refusal of step 6 of R44 leaves: DECODE_ERROR, PORT_ERR.DECODE and a log entry (R45). -/
theorem PlainRequest.refused (R : PlainRequest kind r s) (p : NMap SlcPwr) {sl : NMap SliceRec} {bs : List Beat} {u : State}
    (hu : u = refuseReq (reqOf s r) .decodeError 4 true (withPwr p s)) (hb : BeatsTaken u (passOn sl bs u)) :
    let t := passOn sl bs u
    PortAnswers r .decodeError 0 [] [] s t ∧ SetsPortErr r.slice 10 4 s t ∧
      Logged .decodeError 1 r.slice 10 (reqOf s r).who (extCtx (reqOf s r).ext) (reqOf s r).h.addr s t ∧ BeatsTaken s t ∧
      t = { s with
        nextId := t.nextId, regs := t.regs, log := t.log, slices := t.slices, beats := t.beats, outbox := t.outbox, ctl := { s.ctl with pwr := t.ctl.pwr } } := by
  rw [refuseReq_mesh R.port rfl] at hu
  subst hu
  exact ⟨portAnswers_of_outbox R.port rfl, rfl, rfl, beatsTaken_of_eq hb rfl rfl, rfl⟩

theorem PlainRequest.regionReply_eq (R : PlainRequest kind r s) (bs : List Byte) (u : State) :
    regionReply (reqOf s r) bs u = emit (.portRsp r.slice r.port (reqOf s r).h.tag .ok (Nat.min bs.length 4095) (bs.map fun b => (b, false)) [])
      { u with nextId := u.nextId + 1 } := by
  unfold regionReply readTransform
  simp only [R.xform]
  rw [if_neg (by decide), if_neg (by decide), if_neg (by decide), if_neg (by decide), replyReq_mesh R.port rfl, List.length_map]
  rfl

end

/-! The system region (R31) -/

section
variable {q : Req} {s : State}

theorem sysRegion_refused (h : q.priv = false ∨ bitsOf q.local 35 23 ≠ 0 ∨ 0x20000 < bitsOf q.local 16 0 + (q.h.len + 1)) :
    sysRegion q s = refuseReq q .decodeError 4 true s := if_pos (by simpa using h)

/-- What an access of the system region does once the slice of the bytes is awake. -/
def sysAccess (q : Req) (s : State) : State :=
  let k := bitsOf q.local 22 17; let o := bitsOf q.local 16 0; let n := q.h.len + 1
  if q.h.kind = 0 then drawFree (regionReply q (sysBytes s k o n) s)
  else if sysShut s k o n then replyReq q .writeIgnored 0 [] (report .writeIgnored 1 q.slice q.port q.who (q.ctx s) q.h.addr s)
  else replyReq q .ok n [] (sysWrite k o (writeTransform q.h (q.data.map (·.1))) s)

theorem sysRegion_served (hpriv : q.priv = true) (hbits : bitsOf q.local 35 23 = 0) (hfit : bitsOf q.local 16 0 + (q.h.len + 1) ≤ 0x20000)
    (hg : q.h.g = false) (hs : Serves s [bitsOf q.local 22 17]) : ∃ p, sysRegion q s = sysAccess q (withPwr p s) := by
  obtain ⟨hruns, hcut, hfail⟩ := hs _ List.mem_cons_self
  unfold sysRegion
  dsimp only
  rw [if_neg (by simp [hpriv, hbits, Nat.not_lt.2 hfit]), if_neg (by rw [hg]; decide), if_neg (by rw [hfail]; decide)]
  by_cases hk : bitsOf q.local 22 17 = q.slice
  · refine ⟨s.ctl.pwr, ?_⟩
    rw [if_pos hk]
    rfl
  · rw [if_neg hk]
    obtain ⟨hawake, f, hf, -, -⟩ := touch_serves (touchId s q).1 (touchId s q).2 hruns hcut
    refine ⟨mput (fun _ => SlcPwr.zero) s.ctl.pwr (bitsOf q.local 22 17) (f (pwrOf s (bitsOf q.local 22 17))), ?_⟩
    rw [hawake, hf]
    rfl

end

/-! The bytes of the system region -/

section
variable {s : State} {k o n i : Nat}

theorem sysBytes_length : (sysBytes s k o n).length = n := by
  unfold sysBytes
  rw [List.length_map, List.length_range]

/-- The first byte of the weave area from an offset within it. -/
theorem weaveArea_headD {x : Nat} (hx : x < 16384) : (weaveArea s k x 1).headD 0 = (bytesOfWords (sliceOf s k).weave).getD x 0 := by
  unfold weaveArea
  rw [List.headD_eq_head?_getD, List.head?_take, if_neg (by decide), List.head?_drop, List.getD_eq_getElem?_getD]
  by_cases h : x < (bytesOfWords (sliceOf s k).weave).length
  · rw [List.getElem?_append_left h]
  · rw [List.getElem?_append_right (by omega), List.getElem?_replicate_of_lt (by omega), List.getElem?_eq_none (by omega)]
    rfl

theorem sysBytes_weave (hi : i < n) (hlo : 0x1A000 ≤ o + i) (hhi : o + i < 0x1E000) :
    (sysBytes s k o n)[i]? = some ((bytesOfWords (sliceOf s k).weave).getD (o + i - 0x1A000) 0) := by
  unfold sysBytes
  rw [List.getElem?_map, List.getElem?_range hi, Option.map_some, if_pos ⟨hlo, hhi⟩, weaveArea_headD (by omega)]

theorem sysBytes_plain (hi : i < n) (hout : o + i < 0x1A000 ∨ 0x1E000 ≤ o + i) (hsync : Config.sysSync (o + i) = false) :
    (sysBytes s k o n)[i]? = (descByte s k (o + i)).orElse fun _ => (sysRead s k (o + i) 1)[0]? := by
  unfold sysBytes
  rw [List.getElem?_map, List.getElem?_range hi, Option.map_some, if_neg (by omega), if_neg (by rw [hsync]; decide)]
  cases descByte s k (o + i) <;> rfl

end

theorem getElem?_mgetList {α : Type} {d : Nat → α} {m : NMap α} (i : Nat) : ∀ (n k : Nat), i < n → (mgetList d m k n)[i]? = some (mget d m (k + i)) := by
  induction i with
  | zero =>
    intro n k h
    obtain ⟨n, rfl⟩ := Nat.exists_eq_succ_of_ne_zero (Nat.ne_of_gt h)
    rfl
  | succ i ih =>
    intro n k h
    obtain ⟨n, rfl⟩ := Nat.exists_eq_succ_of_ne_zero (Nat.ne_of_gt (Nat.lt_of_le_of_lt (Nat.zero_le _) h))
    rw [mgetList, List.getElem?_cons_succ, ih n (k + 1) (Nat.lt_of_succ_lt_succ h), Nat.add_right_comm k 1 i, Nat.add_assoc]

/-- A list stored from a key upward is read there. -/
theorem mgetList_mputList {α : Type} [DecidableEq α] {d : Nat → α} {m : NMap α} (h : mwf d m = true) (k : Nat) (vs : List α) :
    mgetList d (mputList d m k vs) k vs.length = vs := by
  refine List.ext_getElem? fun i => ?_
  by_cases hi : i < vs.length
  · rw [getElem?_mgetList i _ _ hi, mget_mputList _ vs k h, dif_pos (by omega), List.getElem?_eq_getElem hi]
    simp
  · rw [List.getElem?_eq_none (by rw [mputList_length]; omega), List.getElem?_eq_none (by omega)]

theorem mget_mputList_other {α : Type} [DecidableEq α] {d : Nat → α} {m : NMap α} (h : mwf d m = true) {k i : Nat} {vs : List α}
    (hi : i < k ∨ k + vs.length ≤ i) : mget d (mputList d m k vs) i = mget d m i := by
  rw [mget_mputList _ vs k h, dif_neg (by omega)]

/-! The load area of the boot window (R33) -/

section
variable {q : Req} {s : State}

/-- What an access of the load area does. -/
def loadAccess (q : Req) (s : State) : State :=
  let o := bitsOf q.local 19 0; let n := q.h.len + 1
  if q.h.kind = 0 then regionReply q (mgetList (fun _ => 0) s.mem.boot o n) s
  else replyReq q .ok n [] { s with mem := { s.mem with boot := mputList (fun _ => 0) s.mem.boot o (writeTransform q.h (q.data.map (·.1))) } }

theorem bitsOf_low (a : Nat) : bitsOf a 19 0 = a % 2 ^ 20 := by
  unfold bitsOf
  rw [Nat.pow_zero, Nat.div_one]

theorem bootWindow_refused (hremap : bitOf (regGet s 0 (regNo 0x80 0x18)) 0 = false)
    (h : q.priv = false ∨ bitsOf q.local 35 20 ≠ 0 ∨ 0x40000 < bitsOf q.local 19 0 + (q.h.len + 1)) :
    bootWindow q s = refuseReq q .decodeError 4 true s := by
  rw [bitsOf_low] at h
  unfold bootWindow loadArea
  dsimp only
  rw [if_pos (by rw [hremap]; rfl)]
  split
  · rfl
  · next hin =>
    have hbits : bitsOf q.local 35 20 = 0 := Decidable.byContradiction fun hb => hin (by simp [hb])
    exact if_pos (by simpa [hbits] using h)

theorem bootWindow_served (hremap : bitOf (regGet s 0 (regNo 0x80 0x18)) 0 = false) (hpriv : q.priv = true) (hbits : bitsOf q.local 35 20 = 0)
    (hfit : bitsOf q.local 19 0 + (q.h.len + 1) ≤ 0x40000) (hg : q.h.g = false) : bootWindow q s = loadAccess q s := by
  unfold loadAccess
  rw [bitsOf_low] at hfit ⊢
  unfold bootWindow loadArea
  dsimp only
  rw [if_pos (by rw [hremap]; rfl), if_neg (by simp only [hbits, decide_eq_true_eq]; omega), if_neg (by simpa [hpriv] using hfit),
    if_neg (by rw [hg]; decide)]

end
end Sys2Proof.Proofs
end

section
/-! SUPPORT. Proofs/MeshRegisters.lean: registers read and written through a mesh port (02 R32; 04 R89; 11 R351). -/
namespace Sys2Proof.Proofs
open Sys2Proof Sys2Proof.Machine Sys2Proof.Laws

/-! Reading -/

section
variable {q : Req} {s : State}

theorem regRegion_refused (h : q.priv = false ∨ (q.h.len + 1 ≠ 4 ∧ q.h.len + 1 ≠ 8) ∨ regAddrOk s q.local (decide (q.h.len + 1 = 8)) = false) :
    regRegion q s = refuseReq q .decodeError 4 true s := if_pos (by simpa using h)

theorem regRegion_read (hpriv : q.priv = true) (hlen : q.h.len + 1 = 4 ∨ q.h.len + 1 = 8) (ok : regAddrOk s q.local (decide (q.h.len + 1 = 8)) = true)
    (hg : q.h.g = false) (hk : q.h.kind = 0) (hsec : q.secure = true ∨ regUnit q.local ≠ 0x80) :
    regRegion q s = regionReply q (leBytes (q.h.len + 1) (regRead8 s q.local (decide (q.h.len + 1 = 8)))) (regReadEffect q.local s) := by
  have hpass : ¬((!q.priv) = true ∨ (q.h.len + 1 ≠ 4 ∧ (!decide (q.h.len + 1 = 8)) = true) ∨ (!regAddrOk s q.local (decide (q.h.len + 1 = 8))) = true) := by
    rw [hpriv, ok]
    rintro (h | ⟨h4, h8⟩ | h)
    · exact absurd h (by decide)
    · exact hlen.elim h4 (by simpa using h8)
    · exact absurd h (by decide)
  have hopen : ¬(regUnit q.local = 0x80 ∧ (!q.secure) = true ∧
      (regOff q.local = 0x304 ∨ (decide (q.h.len + 1 = 8) = true ∧ regOff q.local = 0x300))) := by
    rintro ⟨hu, hs, -⟩
    exact hsec.elim (fun h => by rw [h] at hs; exact absurd hs (by decide)) fun h => h hu
  exact (if_neg hpass).trans ((if_neg (by rw [hg]; decide)).trans ((if_neg (by rw [hk]; decide)).trans (if_neg hopen)))

theorem regRegion_write (hpriv : q.priv = true) (hlen : q.h.len + 1 = 4) (ok : regAddrOk s q.local false = true) (hg : q.h.g = false) (hk : q.h.kind = 1) :
    regRegion q s = regAccessWrite q s := by
  unfold regRegion
  rw [hlen]
  dsimp only
  rw [if_neg (by simp [hpriv, ok]), if_neg (by rw [hg]; decide), if_pos hk]

end

theorem leBytes_length (n x : Nat) : (leBytes n x).length = n := by
  induction n generalizing x with
  | zero => rfl
  | succ n ih => rw [leBytes, List.length_cons, ih]

/-- The read latches MCH_LASTDST: its register is MCH_LASTSRC of a channel (11 R351). -/
def Latches (a : Nat) : Prop := isSliceUnit (regUnit a) = true ∧ 0xC00 ≤ regOff a ∧ regOff a < 0x1000 ∧ regOff a % 0x40 / 8 = 3

theorem regReadEffect_latches {a : Nat} {s : State} (h : Latches a) : regReadEffect a s =
    modChan (unitSlice s (regUnit a)) ((regOff a - 0xC00) / 0x200) (regOff a / 0x40 % 8) (fun ch => { ch with latched := some ch.lastDst }) s := by
  obtain ⟨hu, hlo, hhi, hreg⟩ := h
  have hch : (regOff a - 0xC00) / 0x40 % 8 = regOff a / 0x40 % 8 := by omega
  unfold regReadEffect
  dsimp only
  rw [if_pos ⟨hu, hlo, hhi, by omega, by omega⟩, hch]

theorem regReadEffect_none {a : Nat} {s : State} (h : ¬Latches a) : regReadEffect a s = s :=
  if_neg fun ⟨hu, hlo, hhi, h1, h2⟩ => h ⟨hu, hlo, hhi, by omega⟩

theorem modChan_becomes {s : State} (h : keysRise 0 s.movers.chans = true) (n m c : Nat) (f : Chan → Chan) :
    ChanBecomes n m c (f (chanOf s n m c)) s (modChan n m c f s) :=
  ⟨mget_mput_eq _ _ h, fun _ ne => mget_mput_ne _ h ne⟩

theorem regReadEffect_becomes {a : Nat} {s : State} (h : keysRise 0 s.movers.chans = true) (hl : Latches a) :
    let n := unitSlice s (regUnit a); let m := (regOff a - 0xC00) / 0x200; let c := regOff a / 0x40 % 8
    ChanBecomes n m c { chanOf s n m c with latched := some (chanOf s n m c).lastDst } s (regReadEffect a s) := by
  rw [regReadEffect_latches hl]
  exact modChan_becomes h _ _ _ _

theorem regReadEffect_frame (a : Nat) (s : State) : ∃ cs, regReadEffect a s = { s with movers := { s.movers with chans := cs } } := by
  unfold regReadEffect
  dsimp only
  split
  · exact ⟨_, rfl⟩
  · exact ⟨_, rfl⟩

/-! Writing -/

/-- The request that a register write through a mesh port is while its register takes it (R89). -/
def regOp (q : Req) (s : State) : PortOp := newOp { s with nextId := s.nextId + 1 } s.nextId q .reg [] [] false none false none 0 0

/-- The state in which that register is written. -/
def regPending (q : Req) (s : State) : State := { s with nextId := s.nextId + 1, ops := s.ops ++ [regOp q s] }

section
variable {q : Req} {s : State}

theorem opOf_regOp {t : State} (hfresh : ∀ o ∈ s.ops, o.id < s.nextId) (ht : t.ops = s.ops ++ [regOp q s]) : opOf t s.nextId = some (regOp q s) := by
  unfold opOf
  rw [ht, List.find?_append, List.find?_eq_none.2 fun o ho => by simpa using Nat.ne_of_lt (hfresh o ho)]
  simp [regOp, newOp]

/-- The request leaves the outstanding ones with its answer. -/
theorem respond_regOp {t : State} (hp : q.port = 10) (hret : q.ret = none) (hfresh : ∀ o ∈ s.ops, o.id < s.nextId) (ht : t.ops = s.ops ++ [regOp q s])
    (st : Status) (count : Nat) : respond (regOp q s) st count [] [] t =
      emit (.portRsp q.slice q.port q.h.tag st (Nat.min count 4095) [] []) { t with ops := s.ops } := by
  have hpp (u : State) : isPP1 u q.slice q.port = false := if_pos hp
  have hops : t.ops.filter (fun x => x.id != s.nextId) = s.ops := by
    rw [ht, List.filter_append, List.filter_eq_self.2 fun o ho => by simpa using Nat.ne_of_lt (hfresh o ho)]
    simp [regOp, newOp]
  unfold respond answer
  simp only [List.any_nil, Bool.false_eq_true, if_false, hops, regOp, newOp, hret, hpp, Bool.not_false, if_true]

/-- A register write that ends at once is answered with its status and PORT_ERR bit (R89, R117). -/
theorem regAccessWrite_ends (hp : q.port = 10) (hret : q.ret = none) (hfresh : ∀ o ∈ s.ops, o.id < s.nextId) (hlen : q.h.len + 1 = 4) {st : Status}
    {t : State} (hw : regWrite q.local false (leNat (writeTransform q.h (q.data.map (·.1)))) (reqBy q s.nextId { s with nextId := s.nextId + 1 })
      (regPending q s) = (some st, t)) (ht : t.ops = s.ops ++ [regOp q s]) :
    regAccessWrite q s = emit (.portRsp q.slice q.port q.h.tag st (if st = .ok then 4 else 0) [] [])
      { regErr q.slice q.port st t with ops := s.ops } := by
  have herr : (regErr q.slice q.port st t).ops = s.ops ++ [regOp q s] := by
    unfold regErr
    split <;> exact ht
  have hcount : Nat.min (if st = .ok then 4 else 0) 4095 = if st = .ok then 4 else 0 := by split <;> rfl
  unfold regAccessWrite
  rw [hlen]
  dsimp only [freshId]
  rw [show decide (4 = 8) = false from rfl]
  unfold regPending regOp at hw
  simp only [hw, opOf_regOp hfresh ht]
  rw [respond_regOp hp hret hfresh herr, hcount]

end
end Sys2Proof.Proofs
end

section
/-! SUPPORT. Proofs/RegionsWithoutPockets.lean: what a request for a region without pockets leaves of the state, region by region. -/
namespace Sys2Proof.Proofs
open Sys2Proof Sys2Proof.Machine Sys2Proof.Laws

section
variable {kind : Nat} {r : PortReq} {s : State} {row : Instr}

/-! The system region -/

theorem PlainRequest.local_sys (R : PlainRequest kind r s) (h : bitsOf (reqOf s r).h.addr 39 36 = 4) (u : State) :
    localReq (reqOf s r) u = sysRegion (reqOf s r) u := by
  have hreg : regionOf (reqOf s r).local = 4 := by rw [R.local_eq]; exact h
  rw [localReq_region R.port R.gta (by omega), if_neg (by omega), if_pos hreg]

/-- A served access of the system region. -/
theorem PlainRequest.sys_completes (R : PlainRequest kind r s) (hrow : (row, kind) ∈ [(Instr.read r, 0), (.write r, 1)])
    (h : bitsOf (reqOf s r).h.addr 39 36 = 4) (hpriv : r.priv = true) (hbits : bitsOf (reqOf s r).h.addr 35 23 = 0)
    (hfit : bitsOf (reqOf s r).h.addr 16 0 + ((reqOf s r).h.len + 1) ≤ 0x20000) (hserve : Serves s [bitsOf (reqOf s r).h.addr 22 17]) {P : State → Prop}
    (hP : ∀ p sl bs, BeatsTaken (sysAccess (reqOf s r) (withPwr p s)) (passOn sl bs (sysAccess (reqOf s r) (withPwr p s))) →
      P (passOn sl bs (sysAccess (reqOf s r) (withPwr p s)))) : Completes row s P := by
  refine R.completes hrow (R.local_sys h) fun p _ hserves _ sl bs hb => ?_
  rw [← R.local_eq] at hbits hfit hserve
  obtain ⟨p', he⟩ := sysRegion_served (q := reqOf s r) hpriv hbits hfit R.classB (hserves _ hserve)
  rw [he] at hb ⊢
  exact hP p' sl bs hb

/-- A READ answers the bytes of the region (R31). -/
theorem PlainRequest.sysAccess_read (R : PlainRequest kind r s) (hk : kind = 0) (u : State) : sysAccess (reqOf s r) u =
    drawFree (regionReply (reqOf s r) (sysBytes u (bitsOf (reqOf s r).h.addr 22 17) (bitsOf (reqOf s r).h.addr 16 0) ((reqOf s r).h.len + 1)) u) := by
  rw [← R.local_eq]
  exact if_pos (R.kind_eq.trans hk)

/-- A WRITE of bytes that only the block writes is dropped and logged (R37; 10 R306; 18 R526). -/
theorem PlainRequest.sysAccess_shut (R : PlainRequest kind r s) (hk : kind = 1) {u : State}
    (hshut : sysShut u (bitsOf (reqOf s r).h.addr 22 17) (bitsOf (reqOf s r).h.addr 16 0) ((reqOf s r).h.len + 1) = true) :
    sysAccess (reqOf s r) u = emit (.portRsp r.slice r.port (reqOf s r).h.tag .writeIgnored 0 [] [])
      { report .writeIgnored 1 r.slice 10 (reqOf s r).who (extCtx (reqOf s r).ext) (reqOf s r).h.addr u with nextId := u.nextId + 1 } := by
  rw [← R.local_eq] at hshut
  have hkind : (reqOf s r).h.kind ≠ 0 := by rw [R.kind_eq, hk]; decide
  refine (if_neg hkind).trans ((if_pos hshut).trans ?_)
  rw [replyReq_mesh R.port rfl, ctx_mesh R.port, show (reqOf s r).port = 10 from R.port, R.port]
  rfl

/-- Any other WRITE stores its bytes (R31). -/
theorem PlainRequest.sysAccess_write (R : PlainRequest kind r s) (hk : kind = 1) {u : State}
    (hshut : sysShut u (bitsOf (reqOf s r).h.addr 22 17) (bitsOf (reqOf s r).h.addr 16 0) ((reqOf s r).h.len + 1) = false) :
    sysAccess (reqOf s r) u = emit (.portRsp r.slice r.port (reqOf s r).h.tag .ok (Nat.min ((reqOf s r).h.len + 1) 4095) [] [])
      { sysWrite (bitsOf (reqOf s r).h.addr 22 17) (bitsOf (reqOf s r).h.addr 16 0) r.data u with nextId := u.nextId + 1 } := by
  have hkind : (reqOf s r).h.kind ≠ 0 := by rw [R.kind_eq, hk]; decide
  rw [← R.local_eq] at hshut ⊢
  refine (if_neg hkind).trans ((if_neg (by rw [hshut]; decide)).trans ?_)
  rw [replyReq_mesh R.port rfl, R.stored]
  rfl

/-- Bytes written to the system region are read there, and the others as before. -/
theorem sysWrite_reads {u : State} (wf : u.wf = true) (k o : Nat) (bs : List Byte) : sysRead (sysWrite k o bs u) k o bs.length = bs ∧
    ∀ y, y < k * 0x20000 + o ∨ k * 0x20000 + o + bs.length ≤ y → mget (fun _ => 0) (sysWrite k o bs u).mem.sys y = mget (fun _ => 0) u.mem.sys y :=
  ⟨mgetList_mputList (wf_sys wf) _ bs, fun _ hy => mget_mputList_other (wf_sys wf) hy⟩

/-! The load area -/

theorem PlainRequest.local_boot (R : PlainRequest kind r s) (h : bitsOf (reqOf s r).h.addr 39 36 = 0) (u : State) :
    localReq (reqOf s r) u = bootWindow (reqOf s r) u := by
  have hreg : regionOf (reqOf s r).local = 0 := by rw [R.local_eq]; exact h
  rw [localReq_region R.port R.gta (by omega), if_pos hreg]

theorem PlainRequest.boot_completes (R : PlainRequest kind r s) (hrow : (row, kind) ∈ [(Instr.read r, 0), (.write r, 1)])
    (h : bitsOf (reqOf s r).h.addr 39 36 = 0) (hremap : bitOf (regGet s 0 (regNo 0x80 0x18)) 0 = false) (hpriv : r.priv = true)
    (hbits : bitsOf (reqOf s r).h.addr 35 20 = 0) (hfit : bitsOf (reqOf s r).h.addr 19 0 + ((reqOf s r).h.len + 1) ≤ 0x40000) {P : State → Prop}
    (hP : ∀ p sl bs, BeatsTaken (loadAccess (reqOf s r) (withPwr p s)) (passOn sl bs (loadAccess (reqOf s r) (withPwr p s))) →
      P (passOn sl bs (loadAccess (reqOf s r) (withPwr p s)))) : Completes row s P := by
  refine R.completes hrow (R.local_boot h) fun p _ _ _ sl bs hb => ?_
  rw [← R.local_eq] at hbits hfit
  rw [bootWindow_served (q := reqOf s r) (s := withPwr p s) hremap hpriv hbits hfit R.classB] at hb ⊢
  exact hP p sl bs hb

theorem PlainRequest.loadAccess_read (R : PlainRequest kind r s) (hk : kind = 0) (u : State) : loadAccess (reqOf s r) u =
    regionReply (reqOf s r) (mgetList (fun _ => 0) u.mem.boot (bitsOf (reqOf s r).h.addr 19 0) ((reqOf s r).h.len + 1)) u := by
  rw [← R.local_eq]
  exact if_pos (R.kind_eq.trans hk)

theorem PlainRequest.loadAccess_write (R : PlainRequest kind r s) (hk : kind = 1) (u : State) : loadAccess (reqOf s r) u =
    emit (.portRsp r.slice r.port (reqOf s r).h.tag .ok (Nat.min ((reqOf s r).h.len + 1) 4095) [] [])
      { u with nextId := u.nextId + 1, mem := { u.mem with boot := mputList (fun _ => 0) u.mem.boot (bitsOf (reqOf s r).h.addr 19 0) r.data } } := by
  have hkind : (reqOf s r).h.kind ≠ 0 := by rw [R.kind_eq, hk]; decide
  rw [← R.local_eq]
  refine (if_neg hkind).trans ?_
  rw [replyReq_mesh R.port rfl, R.stored]
  rfl

/-! Registers -/

theorem PlainRequest.local_reg (R : PlainRequest kind r s) (h : bitsOf (reqOf s r).h.addr 39 36 = 8) (u : State) :
    localReq (reqOf s r) u = regRegion (reqOf s r) u := by
  have hreg : regionOf (reqOf s r).local = 8 := by rw [R.local_eq]; exact h
  rw [localReq_region R.port R.gta (by omega), if_neg (by omega), if_neg (by omega)]

/-- A register access acts on the state as it stands: it wakes no slice (15 R457). -/
theorem PlainRequest.reg_completes (R : PlainRequest kind r s) (hrow : (row, kind) ∈ [(Instr.read r, 0), (.write r, 1)])
    (h : bitsOf (reqOf s r).h.addr 39 36 = 8) {t : State} (ht : regRegion (reqOf s r) s = t) {P : State → Prop}
    (hP : ∀ sl bs, BeatsTaken t (passOn sl bs t) → P (passOn sl bs t)) : Completes row s P := by
  refine R.completes hrow (R.local_reg h) fun p _ _ hsame sl bs hb => ?_
  rw [hsame h, ht] at hb ⊢
  exact hP sl bs hb

/-- A register write that ends at once. -/
theorem PlainRequest.regWrite_ends (R : PlainRequest kind r s) (hfresh : ∀ o ∈ s.ops, o.id < s.nextId) (hk : kind = 1) (hpriv : r.priv = true)
    (hlen : (reqOf s r).h.len + 1 = 4) (ok : regAddrOk s (reqOf s r).h.addr false = true) {st : Status} {t : State}
    (hw : regWrite (reqOf s r).h.addr false (leNat r.data) (reqBy (reqOf s r) s.nextId { s with nextId := s.nextId + 1 }) (regPending (reqOf s r) s) = (some st, t))
    (ht : t.ops = s.ops ++ [regOp (reqOf s r) s]) :
    regRegion (reqOf s r) s = emit (.portRsp r.slice r.port (reqOf s r).h.tag st (if st = .ok then 4 else 0) [] [])
      { regErr r.slice r.port st t with ops := s.ops } := by
  rw [← R.local_eq] at ok hw
  rw [regRegion_write hpriv hlen ok R.classB (R.kind_eq.trans hk)]
  exact regAccessWrite_ends R.port rfl hfresh hlen (by rw [R.stored]; exact hw) ht

end

theorem leNat_lt (bs : List Byte) : leNat bs < 256 ^ bs.length := by
  induction bs with
  | nil => exact Nat.one_pos
  | cons b bs ih =>
    have hb := b.isLt
    rw [leNat, List.length_cons, Nat.pow_succ]
    omega

theorem PlainRequest.word_lt {kind : Nat} {r : PortReq} {s : State} (R : PlainRequest kind r s) (hk : kind = 1) (hlen : (reqOf s r).h.len + 1 = 4) :
    leNat r.data < 2 ^ 32 := by
  have h := leNat_lt r.data
  rw [R.data_length hk, hlen] at h
  exact h

/-- A write through a port that sets a reserved bit of a slice unit's register is dropped and logged (00 R5). -/
theorem regWrite_reserved {a v : Nat} {by_ : RegBy} {s : State} (ok : regAddrOk s a false = true) (hu : regUnit a < 0x80) (hv : v < 2 ^ 32)
    (hs : setsReserved (regUnit a) (regOff a) v = true) (hsrc : by_.src ≠ 2) : regWrite a false v by_ s = dropReg .reservedNonzero by_ a s := by
  have hrst : (regUnit a == 0x80 && (regOff a == 0x304 || (false && regOff a == 0x300))) = false := by
    simp [Nat.ne_of_lt hu]
  unfold regWrite
  dsimp only
  rw [hrst, ok, Nat.mod_eq_of_lt hv, hs, if_neg (by simp), if_neg (by omega), if_pos rfl]
  exact if_neg hsrc

/-- FAB_CFG takes a value without a reserved bit and with a FABRIC_TIMEOUT of at least 10 (12 R387). -/
theorem regWrite_fabCfg {v : Nat} {by_ : RegBy} {s : State} (hlo : 10 ≤ v) (hhi : v < 0x10000) :
    regWrite (unitAddr 0x80 0x108) false v by_ s = (some .ok, regPut 0x64 (regNo 0x80 0x108) v s) := by
  have hspec : regSpecOf 0x80 0x108 = some (rwReg 0xFFFF 0x64) := rfl
  have hclean : setsReserved 0x80 0x108 v = false := by
    rw [setsReserved_rw hspec, List.any_eq_false]
    intro i _
    by_cases hi : i < 16
    · have hused : ∀ j < 16, bitOf 0xFFFF j = true := by decide
      rw [hused i hi]
      simp
    · have hzero : v / 2 ^ i = 0 := Nat.div_eq_of_lt (Nat.lt_of_lt_of_le hhi (Nat.pow_le_pow_right (n := 2) Nat.two_pos (show 16 ≤ i by omega)))
      simp [bitOf, hzero]
  obtain ⟨hunit, hoff⟩ := unitAddr_fields (u := 0x80) (off := 0x108) (by decide) (by decide)
  rw [regWrite_word (regAddrOk_common s (by decide) (by decide) rfl) (by rw [hunit]; decide) (by rw [hoff]; omega) (by omega)
    (by rw [hunit, hoff]; exact hclean), hunit, hoff, regWrite1_common (regDrops_rw hspec (by decide)), markW1_none hspec rfl]
  unfold commonWrite
  rw [if_neg (by decide), if_neg (by decide), if_pos rfl]
  exact if_neg (by omega)

/-- Settles O49: each access is its region's, and each region's rule says the rest. -/
theorem regionsWithoutPockets : Obligations.RegionsWithoutPockets := by
  unfold Obligations.RegionsWithoutPockets
  intro r s row kind wf hrow reach hp hfresh q a len n hr hg hgta hx hc hs refused plain
  have hkind : kind = 0 ∨ kind = 1 := by
    rcases List.mem_cons.1 hrow with h | h
    · cases h
      exact .inl rfl
    · cases List.mem_singleton.1 h
      exact .inr rfl
  have R : PlainRequest kind r s := ⟨wf, reach, hkind, hp, hr, hg, hgta, hx, hc, hs⟩
  refine ⟨?sys, ?boot, ?reg⟩
  case sys =>
    intro hregion k o weave
    refine ⟨fun h => ?_, fun hpriv hbits hfit hserve => ⟨fun hk => ?_, fun hk hshut => ?_, fun hk hshut => ?_⟩⟩
    · exact R.completes hrow (R.local_sys hregion) fun p _ _ _ sl bs hb => R.refused p (sysRegion_refused (by rw [R.local_eq]; exact h)) hb
    · refine R.sys_completes hrow hregion hpriv hbits hfit hserve fun p sl bs hb => ?_
      rw [R.sysAccess_read hk, R.regionReply_eq, sysBytes_length] at hb ⊢
      exact ⟨⟨sysBytes s k o len, portAnswers_of_outbox hp rfl, sysBytes_length, fun i hi hout hsync => sysBytes_plain hi hout hsync,
        fun i hi hlo hhi => sysBytes_weave hi hlo hhi⟩, beatsTaken_of_eq hb rfl rfl, rfl⟩
    · refine R.sys_completes hrow hregion hpriv hbits hfit hserve fun p sl bs hb => ?_
      rw [R.sysAccess_shut hk (u := withPwr p s) (by exact hshut)] at hb ⊢
      exact ⟨portAnswers_of_outbox hp rfl, rfl, beatsTaken_of_eq hb rfl rfl, rfl⟩
    · refine R.sys_completes hrow hregion hpriv hbits hfit hserve fun p sl bs hb => ?_
      rw [R.sysAccess_write hk (u := withPwr p s) (by exact hshut)] at hb ⊢
      obtain ⟨hread, hother⟩ := sysWrite_reads wf k o r.data
      rw [R.data_length hk] at hread hother
      exact ⟨portAnswers_of_outbox hp rfl, hread, hother, beatsTaken_of_eq hb rfl rfl, rfl⟩
  case boot =>
    intro hregion hremap o
    refine ⟨fun h => ?_, fun hpriv hbits hfit => ⟨fun hk => ?_, fun hk => ?_⟩⟩
    · exact R.completes hrow (R.local_boot hregion) fun p _ _ _ sl bs hb =>
        R.refused p (bootWindow_refused (by exact hremap) (by rw [R.local_eq]; exact h)) hb
    · refine R.boot_completes hrow hregion hremap hpriv hbits hfit fun p sl bs hb => ?_
      rw [R.loadAccess_read hk, R.regionReply_eq, mputList_length] at hb ⊢
      exact ⟨portAnswers_of_outbox hp rfl, beatsTaken_of_eq hb rfl rfl, rfl⟩
    · refine R.boot_completes hrow hregion hremap hpriv hbits hfit fun p sl bs hb => ?_
      rw [R.loadAccess_write hk] at hb ⊢
      have hread := mgetList_mputList (wf_boot wf) o r.data
      rw [R.data_length hk] at hread
      exact ⟨portAnswers_of_outbox hp rfl, hread, fun y hy => mget_mputList_other (wf_boot wf) (by rw [R.data_length hk]; exact hy),
        beatsTaken_of_eq hb rfl rfl, rfl⟩
  case reg =>
    intro hregion size8
    refine ⟨fun h => ?_, fun hk hpriv hlen ok hsec => ?_, fun hk hpriv hlen ok hu hset => ?_, fun hk hpriv hlen ha hlo hhi => ?_⟩
    · exact R.reg_completes hrow hregion (regRegion_refused (by rw [R.local_eq]; exact h)) fun sl bs hb => R.refused s.ctl.pwr rfl hb
    · refine R.reg_completes hrow hregion (regRegion_read hpriv hlen (by rw [R.local_eq]; exact ok) hg (R.kind_eq.trans hk)
        (by rw [R.local_eq]; exact hsec)) fun sl bs hb => ?_
      rw [R.local_eq, R.regionReply_eq, leBytes_length] at hb ⊢
      obtain ⟨cs, hframe⟩ := regReadEffect_frame a s
      have hlatch (h : Latches a) := regReadEffect_becomes (wf_chans wf) h
      have hnone (h : ¬Latches a) : cs = s.movers.chans := congrArg (fun t : State => t.movers.chans) (hframe.symm.trans (regReadEffect_none h))
      rw [hframe] at hb hlatch ⊢
      exact ⟨portAnswers_of_outbox hp rfl, ⟨hlatch, fun h => congrArg (fun x => ({ s.movers with chans := x } : MoverState)) (hnone h)⟩,
        beatsTaken_of_eq hb rfl rfl, rfl⟩
    · refine R.reg_completes hrow hregion (R.regWrite_ends hfresh hk hpriv hlen ok
        (regWrite_reserved (by exact ok) hu (R.word_lt hk hlen) hset (show 1 ≠ 2 by decide)) rfl) fun sl bs hb => ?_
      refine ⟨portAnswers_of_outbox hp rfl, ?_, ?_, beatsTaken_of_eq hb rfl rfl, rfl⟩
      · change (portErr r.slice r.port 5 s).regs = _
        rw [hp]
      · change (report .reservedNonzero 1 r.slice 10 q.who (q.ctx s) a s).log = _
        rw [ctx_mesh hp]
    · have haddr : (reqOf s r).h.addr = unitAddr 0x80 0x108 := ha
      refine R.reg_completes hrow hregion (R.regWrite_ends hfresh hk hpriv hlen (by rw [haddr]; exact regAddrOk_common s (by decide) (by decide) rfl)
        (by rw [haddr]; exact regWrite_fabCfg hlo hhi) rfl) fun sl bs hb => ?_
      have hword : leNat r.data % 2 ^ 32 = leNat r.data := Nat.mod_eq_of_lt (by omega)
      exact ⟨portAnswers_of_outbox hp rfl, (regGet_regPut_same (wf_regs wf) 0x64 _ _).trans hword,
        fun x d hx => regGet_regPut_ne (wf_regs wf) 0x64 d _ hx, beatsTaken_of_eq hb rfl rfl, rfl⟩

end Sys2Proof.Proofs
end
